-- ==== Sys2Proof/Word.lean ====
section
/-!
DEFINITION. Word.lean: the word types of the Z8 and the sparse table that the state is made of.
A register, a mask, an address while it is computed: bit vectors. A key of a table: a plain number.
-/
namespace Sys2Proof

/-- A scalar register, a control register, an address: 64 bits (R17). -/
abbrev Word := BitVec 64

/-- One lane of a vector register: 32 bits (R19). -/
abbrev Lane32 := BitVec 32

/-- One bit for each of the 96 lanes of a group (R17, R23); bit L is lane L. -/
abbrev Mask := BitVec 96

/-- One byte of memory. -/
abbrev Byte := BitVec 8

/-- Reads an unsigned number from bits `[lo + n - 1 : lo]`. -/
def bits {w : Nat} (x : BitVec w) (lo n : Nat) : Nat := (x.extractLsb' lo n).toNat

/-- The code of `x` in a list of names: its place in the list. -/
def codeOf {α : Type} [DecidableEq α] (l : List α) (x : α) : Nat := l.idxOf x

/-- A sparse table: pairs of a key and a value, keys strictly rising. -/
abbrev Tab (α : Type) := List (Nat × α)

namespace Tab

/-- The value at `k`, or `d` where nothing is listed. -/
def get {α : Type} (d : α) (k : Nat) : Tab α → α
  | [] => d
  | (i, a) :: t => if i = k then a else get d k t

/-- The value at `k`, if one is listed. -/
def find? {α : Type} (k : Nat) : Tab α → Option α
  | [] => none
  | (i, a) :: t => if i = k then some a else find? k t

/-- Takes key `k` out. -/
def del {α : Type} (k : Nat) : Tab α → Tab α
  | [] => []
  | (i, a) :: t => if i = k then del k t else (i, a) :: del k t

/-- Lists `a` at key `k`, in its place. -/
def put {α : Type} (k : Nat) (a : α) : Tab α → Tab α
  | [] => [(k, a)]
  | (i, b) :: t =>
    if k < i then (k, a) :: (i, b) :: t
    else if i = k then (k, a) :: t
    else (i, b) :: put k a t

/-- Writes `a` at key `k` of a table whose unlisted keys read as `d`: an entry equal to `d` is not listed. -/
def set {α : Type} [DecidableEq α] (d : α) (k : Nat) (a : α) (t : Tab α) : Tab α :=
  if a = d then del k t else put k a t

/-- Keys strictly rise from `lo` on. -/
def rising {α : Type} (lo : Nat) : Tab α → Bool
  | [] => true
  | (i, _) :: t => decide (lo ≤ i) && rising (i + 1) t

/-- The canonical form: keys strictly rising, no entry equal to what an unlisted key reads as. -/
def wf {α : Type} [DecidableEq α] (d : α) (t : Tab α) : Bool :=
  rising 0 t && t.all (fun e => decide (e.2 ≠ d))

end Tab

end Sys2Proof
end

