-- ==== Sys2Proof/Config.lean ====
section
/-!
DEFINITION. Config.lean: what an implementation fixes, and the free values: constants with no body, so that nothing can
be proved of the value the specification leaves open. Each is named in a log entry (notes/assumptions).
-/
namespace Sys2Proof.Config

/-- The last bits of a special function (R150: any value within the error bound, the same for the same input bits on
every core). The first argument is the function's opcode, the second the operand's 32 bits; the answer is cut to the
bound by `Sys2Proof.Machine.specialPick`. Log entry 12. -/
opaque specialRaw : Nat → BitVec 32 → Nat

/-- Whether a tie between two values of a binary8 format with P = 1 goes to the upper one under RNE (R56 names the even
significand, and both are 1). The arguments are the format's greatest code, the sign and the code of the lower one. Log
entry 83. -/
opaque tieUp : Nat → Bool → Nat → Bool

/-- A fresh unstated value: what a register with Reset "-" reads before its first write and every other value the
specification leaves open with no operands of its own; applied to a counter in the state. Log entry 13. -/
opaque freeWord : Nat → BitVec 64

/-- The set of a line inside its slice of an L2, of 4,096 (R13 gives 16 ways and 8 MiB; the specification does not say which
address bits choose the set). Log entry 42. -/
opaque l2Set : Nat → BitVec 12

/-- The set of a line in an instruction cache, of 128 (R206 gives the number of sets and not the address bits). Log entry 42. -/
opaque icacheSet : Nat → BitVec 7

/-- The mark with which an operand log in a save area is told as the Z8's own (R202 names the check and no mark). Log entry 90. -/
opaque logMark : BitVec 64

/-- The signature of an attestation report (R434 names the algorithm and no private key): a function of the signed
bytes. Log entry 14. -/
opaque attestSign : List (BitVec 8) → List (BitVec 8)

/-- A byte of the attestation key's certificate at mailbox offset 0x4000 (R434 gives neither its content nor its length). Log
entry 14. -/
opaque certByte : Nat → BitVec 8

/-- Whether a debug token is validly signed (R435 gives neither its format nor its key). Log entry 15. -/
opaque tokenOk : List (BitVec 8) → Bool

end Sys2Proof.Config
end

