-- ==== Sys2Proof/Syntax.lean ====
section
/-!
DEFINITION. Syntax.lean: the instructions of the Z8, one constructor of `Instr` for each row of the opcode table: the words
a group issues, and the hardware events that change the machine's state without a word.
-/
namespace Sys2Proof

/-! ### Operands -/

/-- The read-only specials (R18). -/
inductive Special where
  | lane | beat | grp | team | core | clu | die | ticklow
  deriving DecidableEq, Repr

/-- The specials in the order of their codes 0xE8 to 0xEF (R66). -/
def Special.all : List Special := [.lane, .beat, .grp, .team, .core, .clu, .die, .ticklow]

/-- What an 8-bit operand field names (R66). -/
inductive Operand where
  | v (n : Fin 128)
  | s (n : Fin 64)
  | p (n : Fin 8)
  | a (n : Fin 16)
  | c (n : Fin 16)
  | spec (x : Special)
  | rsvd (n : Fin 15)
  | zero
  deriving DecidableEq, Repr

/-- What a 7-bit operand field of a paired slot names (R67). -/
inductive Reg7 where
  | v (n : Fin 64)
  | s (n : Fin 64)
  deriving DecidableEq, Repr

/-- The fields common to all full words (R68): run boundary, guard, full/empty policies (true traps) of a, b and c, and
uniform execution. -/
structure Hdr where
  bnd : Bool
  gn : Bool
  gp : Fin 8
  feA : Bool
  feB : Bool
  feC : Bool
  uni : Bool
  deriving DecidableEq, Repr

/-! ### Types and function fields -/

/-- Integer types (R103). -/
inductive ITy where
  | u32 | s32 | u64 | s64
  deriving DecidableEq, Repr

def ITy.all : List ITy := [.u32, .s32, .u64, .s64]

/-- Compare conditions (R75). -/
inductive Cond where
  | eq | ne | lt | le | gt | ge | ltu | geu
  deriving DecidableEq, Repr

def Cond.all : List Cond := [.eq, .ne, .lt, .le, .gt, .ge, .ltu, .geu]

/-- Layout INT (R107). -/
structure FnInt where
  ty : ITy
  sat : Bool
  deriving DecidableEq, Repr

/-- Layout CY (R107): the type is `.u32` or `.u64`; `co` names the carry-out predicate where CO is 1. -/
structure FnCy where
  wide : Bool
  co : Option (Fin 8)
  deriving DecidableEq, Repr

/-- Layout SH (R107). -/
structure FnSh where
  ty : ITy
  clamp : Bool
  deriving DecidableEq, Repr

/-- Layout LEA (R107). -/
structure FnLea where
  ty : ITy
  sh : BitVec 4
  off : BitVec 8
  deriving DecidableEq, Repr

/-- Layout HI (R107). -/
inductive Half where
  | h1 | h2
  deriving DecidableEq, Repr

/-- Layout CMP (R107). -/
structure FnCmp where
  ty : ITy
  cc : Cond
  deriving DecidableEq, Repr

/-- Layout PN (R107). -/
structure FnPn where
  na : Bool
  nb : Bool
  deriving DecidableEq, Repr

/-- Layout SHF (R107). -/
inductive ShflMode where
  | idx | up | down | xor
  deriving DecidableEq, Repr

def ShflMode.all : List ShflMode := [.idx, .up, .down, .xor]

/-- Layout VOTE (R107). -/
inductive VoteMode where
  | any | all | ballot
  deriving DecidableEq, Repr

def VoteMode.codes : List VoteMode := [.any, .all, .ballot]

/-- The operations of `redux` and `scan` (R107). -/
inductive RedOp where
  | add | min | max | and | or | xor
  deriving DecidableEq, Repr

def RedOp.all : List RedOp := [.add, .min, .max, .and, .or, .xor]

/-- Layout RED (R107). -/
structure FnRed where
  ty : ITy
  op : RedOp
  sat : Bool
  deriving DecidableEq, Repr

/-- Layout SCN (R107): the type is `.u32` or `.s32`. -/
structure FnScn where
  signed : Bool
  op : RedOp
  excl : Bool
  deriving DecidableEq, Repr

/-! ### Floating-point function fields -/

/-- Arithmetic floating-point types (R138). -/
inductive FTy where
  | f32 | f16 | bf16
  deriving DecidableEq, Repr

def FTy.all : List FTy := [.f32, .f16, .bf16]

/-- Rounding modes (R56); `dyn` takes the mode from FP_CTL. -/
inductive RMode where
  | rne | rtz | rdn | rup | rna | sr | dyn
  deriving DecidableEq, Repr

/-- The rounding modes and the codes 0 to 5 and 7 (R140). -/
def RMode.code : RMode → Nat
  | .rne => 0 | .rtz => 1 | .rdn => 2 | .rup => 3 | .rna => 4 | .sr => 5 | .dyn => 7

def RMode.ofCode (n : Nat) : Option RMode :=
  match n with
  | 0 => some .rne | 1 => some .rtz | 2 => some .rdn | 3 => some .rup | 4 => some .rna | 5 => some .sr
  | 7 => some .dyn | _ => none

/-- ABS and NEG of one source (R139). -/
structure FMod where
  abs : Bool
  neg : Bool
  deriving DecidableEq, Repr

/-- Layout FA (R141), with the fields an instruction reserves at their zero values. -/
structure FnFa where
  rm : RMode
  ft : FTy
  sat : Bool
  ma : FMod
  mb : FMod
  mc : FMod
  deriving DecidableEq, Repr

/-- Layout FC (R141). -/
structure FnFc where
  cc : Cond
  ft : FTy
  ma : FMod
  mb : FMod
  deriving DecidableEq, Repr

/-- Layout SF (R141). -/
structure FnSf where
  rm : RMode
  sat : Bool
  ma : FMod
  deriving DecidableEq, Repr

/-- A format code of R43, as its six bits: `Format.known` says which are assigned. -/
abbrev FmtCode := BitVec 6

/-- Layout CV (R141); `narrow` is DIR. -/
structure FnCv where
  nf : FmtCode
  narrow : Bool
  rm : RMode
  sat : Bool
  pos : BitVec 3
  deriving DecidableEq, Repr

/-- Layout QN (R141), FORM apart; `half` is BL: blocks of 16. -/
structure FnQn where
  ef : FmtCode
  rm : RMode
  half : Bool
  pos : BitVec 3
  deriving DecidableEq, Repr

/-! ### Memory function fields -/

/-- Segment codes of loads and stores (R256). -/
inductive Seg where
  | p | d | g | r | peer | h
  deriving DecidableEq, Repr

def Seg.all : List Seg := [.p, .d, .g, .r, .peer, .h]

/-- Size codes (R251). -/
inductive Sz where
  | u8 | s8 | u16 | s16 | u32 | s32 | u64 | b128
  deriving DecidableEq, Repr

def Sz.all : List Sz := [.u8, .s8, .u16, .s16, .u32, .s32, .u64, .b128]

/-- Scope codes (R132). -/
inductive Scope where
  | group | team | cluster | die | package | system
  deriving DecidableEq, Repr

def Scope.all : List Scope := [.group, .team, .cluster, .die, .package, .system]

/-- Order of a load or store (R256, R257); `sync` is acquire for a load and release for a store. -/
inductive MOrd where
  | weak | strong | sync | sq
  deriving DecidableEq, Repr

def MOrd.all : List MOrd := [.weak, .strong, .sync, .sq]

/-- MOD8 of `ld`, `st` and `ldu` (R256): FORD 1 to 3 of a load is an acquire at die, package or system scope, of a store a
release at die or package scope or `.sq`. -/
structure FnMemF where
  seg : Seg
  sz : Sz
  ford : Fin 4
  deriving DecidableEq, Repr

/-- FN14 of `ld` and `st` (R257). -/
structure FnMemI where
  seg : Seg
  sz : Sz
  ord : MOrd
  scope : Scope
  xs : Bool
  deriving DecidableEq, Repr

/-- The modifier of `ldl` and `stl` (R262): `mem` is MEMBER where REM is 1. -/
structure FnLoc where
  sz : Sz
  mem : Option (Fin 12)
  xs : Bool
  deriving DecidableEq, Repr

/-- Atomic operations (R263). -/
inductive AOp where
  | add | sub | min | max | and | or | xor | exch | cas | fadd | fmin | fmax
  deriving DecidableEq, Repr

def AOp.all : List AOp := [.add, .sub, .min, .max, .and, .or, .xor, .exch, .cas, .fadd, .fmin, .fmax]

/-- Segment codes of atomics (R263). -/
inductive Seg2 where
  | g | d | peer | r
  deriving DecidableEq, Repr

def Seg2.all : List Seg2 := [.g, .d, .peer, .r]

/-- Order codes of atomics (R263). -/
inductive AOrd where
  | weak | strong | acq | rel | acqrel | sq
  deriving DecidableEq, Repr

def AOrd.all : List AOrd := [.weak, .strong, .acq, .rel, .acqrel, .sq]

/-- MOD8 of `atom` and `red` (R263). -/
structure FnAtF where
  op : AOp
  ty : ITy
  seg : Seg2
  deriving DecidableEq, Repr

/-- FN14 of `atom` and `red` (R263). -/
structure FnAtI where
  op : AOp
  ty : ITy
  ord : AOrd
  scope : Scope
  seg : Seg2
  deriving DecidableEq, Repr

/-- Segment codes of `waitv` (R266). -/
inductive Seg3 where
  | g | d | r
  deriving DecidableEq, Repr

def Seg3.all : List Seg3 := [.g, .d, .r]

/-- MOD8 of `waitv` (R266): `acq` 1 to 3 is an acquire at die, package or system scope. -/
structure FnWaitF where
  cc : Cond
  w64 : Bool
  seg : Seg3
  acq : Fin 4
  deriving DecidableEq, Repr

/-- FN14 of `waitv` (R266): `acq` is the acquire's scope, where there is one. -/
structure FnWaitI where
  cc : Cond
  w64 : Bool
  seg : Seg3
  acq : Option Scope
  rel : Bool
  deriving DecidableEq, Repr

/-- MOD8 or FN14 of `prefetch` (R271). -/
structure FnPre where
  seg : Seg3
  l2only : Bool
  xs : Bool
  deriving DecidableEq, Repr

/-- Segments a `gthr` reads (R281). -/
inductive SegG where
  | d | g | r | h
  deriving DecidableEq, Repr

/-- FN14 of `gthr` (R281): the element takes 4·2^esz bytes. -/
structure FnGthr where
  esz : Fin 6
  sc : Bool
  xs : Bool
  seg : SegG
  scope : Scope
  deriving DecidableEq, Repr

/-! ### Matrix function fields (R162) -/

structure FnMma where
  ms : Fin 4
  ns : Fin 4
  clr : Bool
  deriving DecidableEq, Repr

structure FnAcvt where
  cnt : Fin 16
  tf16 : Bool
  rm : RMode
  sat : Bool
  srci : Bool
  deriving DecidableEq, Repr

structure FnMpoly where
  sz : Fin 4
  deg : Fin 16
  f16 : Bool
  deriving DecidableEq, Repr

structure FnMiter where
  m128 : Bool
  ns5 : Bool
  f16 : Bool
  deriving DecidableEq, Repr

structure FnMdrain where
  ms : Fin 4
  ns : Fin 4
  loc : Bool
  tloc : Bool
  rm : RMode
  sat : Bool
  srci : Bool
  deriving DecidableEq, Repr

/-! ### Paired slots (R72, R74) -/

/-- Two-operand operations of the paired subset that have a register and an immediate form. -/
inductive PBin where
  | iadd | isub | and | or | xor | shl | shr | sar | imin | imax | iminU | imaxU
  deriving DecidableEq, Repr

def PBin.all : List PBin := [.iadd, .isub, .and, .or, .xor, .shl, .shr, .sar, .imin, .imax, .iminU, .imaxU]

/-- Floating-point two-operand operations of the paired subset. -/
inductive PFBin where
  | fadd | fmul | fmin | fmax
  deriving DecidableEq, Repr

def PFBin.all : List PFBin := [.fadd, .fmul, .fmin, .fmax]

/-- One slot's operation and operands (R74). `p1` chooses p1 in place of p0. -/
inductive SlotOp where
  | bin (op : PBin) (d r : Reg7)
  | binI (op : PBin) (d r : Reg7) (i : BitVec 8)
  | mov (d r : Reg7)
  | movi8 (d : Reg7) (i : BitVec 8)
  | sel (d r : Reg7) (p1 : Bool)
  | fbin (op : PFBin) (d r : Reg7)
  | fbinI (op : PFBin) (d r : Reg7) (i : BitVec 8)
  | ffma (d r t : Reg7)
  | ffmaI (d r : Reg7) (i : BitVec 8)
  | icmp (p1 : Bool) (cc : Cond) (d r : Reg7)
  | icmpI (p1 : Bool) (cc : Cond) (r : Reg7) (i : BitVec 8)
  | fcmp (p1 : Bool) (cc : Cond) (d r : Reg7)
  | fcmpI (p1 : Bool) (cc : Cond) (r : Reg7) (i : BitVec 8)
  | frcp (d r : Reg7)
  | fexp2 (d r : Reg7)
  | bra (off : BitVec 22)
  deriving DecidableEq, Repr

/-- The guard of a slot (R72). -/
inductive SlotGuard where
  | always | p0 | p1 | notP0
  deriving DecidableEq, Repr

def SlotGuard.all : List SlotGuard := [.always, .p0, .p1, .notP0]

/-- One slot of a paired word. -/
structure Slot where
  gd : SlotGuard
  fe : Bool
  op : SlotOp
  deriving DecidableEq, Repr

/-! ### What an event is told

Events carry the choices that the specification leaves open and the data that comes from outside the package. -/

/-- What a peer answers (R301, R302). -/
inductive PeerAnswer where
  | done (data : List Byte)
  | busy
  | held
  | error
  | poison
  deriving DecidableEq, Repr

/-- The operation of a peer request that arrives at this package (R300, R302): an atomic has its lanes in order, each with its
offset, its operand and what `cas` compares with. -/
inductive PeerOp where
  | load (len : Nat)
  | store (data : List Byte) (mask : List Bool)
  | atomic (op : AOp) (ty : ITy) (lanes : List (Nat × Word × Word))
  deriving DecidableEq, Repr

/-- What a member of a collective in another package brings (R308): what its word asks for, and its data, empty where it failed an
access. -/
structure Contribution where
  member : Nat
  kind : Nat
  rop : Nat
  ty : Nat
  count : Nat
  data : List Byte
  deriving DecidableEq, Repr

/-- The outcome of a PTP message at the servo (R379). -/
inductive PtpResult where
  | update (atick asec : Word) (ans rate errb : Nat)
  | lost
  deriving DecidableEq, Repr

/-- What is shifted through the test access port (R435). -/
inductive TapOp where
  | bypass (data : Word)
  | idcode
  | boundaryScan
  | scanChains
  deriving DecidableEq, Repr

/-- What reaches the package from outside (R422 to R427, R435, R379, R15): held in the state in order of arrival and
taken by the event of its kind. A PTP message tells whether it came by Precision Time Measurement; the end of a training tells, as a
mask, the lanes that pass and the rate. -/
inductive Input where
  | hostWrite (fn bar : Nat) (off : Nat) (data : List Byte)
  | hostRead (fn bar : Nat) (off len : Nat)
  | reset (fn : Nat)
  | ptp (ptm : Bool) (r : PtpResult)
  | token (t : List Byte)
  | power (milliwatts : Nat)
  | droop (die : Nat)
  | recovered (die : Nat)
  | crcError (port : Nat)
  | laneLost (port lane : Nat)
  | portLost (port : Nat)
  | trained (port lanes rate : Nat)
  | flit (port ch part seq off : Nat) (data : List Byte) (ver : Bool)
  | pubAck (child flit : Nat)
  | hostMemory (off : Nat) (data : List Byte)
  | hostError (off len : Nat)
  | hostHealed (off : Nat)
  | msixMask (fn vec : Nat) (masked : Bool)
  | flashWrite (off : Nat) (data : List Byte)
  | tap (op : TapOp)
  deriving DecidableEq, Repr

/-- One row of the opcode table per constructor. Operands are in the order dst, a, b, c. -/
inductive Instr where
  -- integer arithmetic (R108, R109)
  | iadd (h : Hdr) (f : FnInt) (d a b : Operand)
  | iaddImm (h : Hdr) (f : FnInt) (d a : Operand) (imm : BitVec 22)
  | isub (h : Hdr) (f : FnInt) (d a b : Operand)
  | isubImm (h : Hdr) (f : FnInt) (d a : Operand) (imm : BitVec 22)
  | imul (h : Hdr) (f : FnInt) (d a b : Operand)
  | imulImm (h : Hdr) (f : FnInt) (d a : Operand) (imm : BitVec 22)
  | imulh (h : Hdr) (ty : ITy) (d a b : Operand)
  | imad (h : Hdr) (f : FnInt) (d a b c : Operand)
  | imin (h : Hdr) (ty : ITy) (d a b : Operand)
  | iminImm (h : Hdr) (ty : ITy) (d a : Operand) (imm : BitVec 22)
  | imax (h : Hdr) (ty : ITy) (d a b : Operand)
  | imaxImm (h : Hdr) (ty : ITy) (d a : Operand) (imm : BitVec 22)
  | iabs (h : Hdr) (wide sat : Bool) (d a : Operand)
  | ineg (h : Hdr) (wide sat : Bool) (d a : Operand)
  | iaddc (h : Hdr) (f : FnCy) (d a b c : Operand)
  | isubb (h : Hdr) (f : FnCy) (d a b c : Operand)
  -- shifts and rotates (R110)
  | shl (h : Hdr) (f : FnSh) (d a b : Operand)
  | shlImm (h : Hdr) (f : FnSh) (d a : Operand) (imm : BitVec 22)
  | shr (h : Hdr) (f : FnSh) (d a b : Operand)
  | shrImm (h : Hdr) (f : FnSh) (d a : Operand) (imm : BitVec 22)
  | sar (h : Hdr) (f : FnSh) (d a b : Operand)
  | sarImm (h : Hdr) (f : FnSh) (d a : Operand) (imm : BitVec 22)
  | rot (h : Hdr) (ty : ITy) (d a b : Operand)
  | rotImm (h : Hdr) (ty : ITy) (d a : Operand) (imm : BitVec 22)
  -- logic, addresses and moves (R111 to R115)
  | and (h : Hdr) (ty : ITy) (d a b : Operand)
  | andImm (h : Hdr) (ty : ITy) (d a : Operand) (imm : BitVec 22)
  | or (h : Hdr) (ty : ITy) (d a b : Operand)
  | orImm (h : Hdr) (ty : ITy) (d a : Operand) (imm : BitVec 22)
  | xor (h : Hdr) (ty : ITy) (d a b : Operand)
  | xorImm (h : Hdr) (ty : ITy) (d a : Operand) (imm : BitVec 22)
  | andn (h : Hdr) (ty : ITy) (d a b : Operand)
  | not (h : Hdr) (ty : ITy) (d a : Operand)
  | lea (h : Hdr) (f : FnLea) (d a b : Operand)
  | movi (h : Hdr) (ty : ITy) (d : Operand) (imm : BitVec 22)
  | movhi (h : Hdr) (f : Half) (d a : Operand) (imm : BitVec 22)
  | mov (h : Hdr) (d a : Operand)
  | sel (h : Hdr) (d a b c : Operand)
  | icmp (h : Hdr) (f : FnCmp) (d a b : Operand)
  | icmpImm (h : Hdr) (f : FnCmp) (d a : Operand) (imm : BitVec 22)
  -- bits and bytes (R117 to R119)
  | popc (h : Hdr) (ty : ITy) (d a : Operand)
  | clz (h : Hdr) (ty : ITy) (d a : Operand)
  | ctz (h : Hdr) (ty : ITy) (d a : Operand)
  | brev (h : Hdr) (ty : ITy) (d a : Operand)
  | bfx (h : Hdr) (ty : ITy) (d a c : Operand)
  | bfi (h : Hdr) (ty : ITy) (d a b c : Operand)
  | permb (h : Hdr) (d a b c : Operand)
  | permbImm (h : Hdr) (d a : Operand) (imm : BitVec 22)
  -- predicates and lanes (R120 to R125)
  | pand (h : Hdr) (f : FnPn) (d a b : Operand)
  | por (h : Hdr) (f : FnPn) (d a b : Operand)
  | pxor (h : Hdr) (f : FnPn) (d a b : Operand)
  | pnot (h : Hdr) (d a : Operand)
  | pmov (h : Hdr) (beat : Fin 3) (d a : Operand)
  | shfl (h : Hdr) (m : ShflMode) (d a b : Operand)
  | bcast (h : Hdr) (d a b : Operand)
  | vote (h : Hdr) (m : VoteMode) (d a : Operand)
  | redux (h : Hdr) (f : FnRed) (d a : Operand)
  | scan (h : Hdr) (f : FnScn) (d a : Operand)
  -- paired word (R72 to R77)
  | pairedWord (bnd : Bool) (x y : Slot)
  -- floating point (R138 to R157)
  | fadd (h : Hdr) (f : FnFa) (d a b : Operand)
  | fsub (h : Hdr) (f : FnFa) (d a b : Operand)
  | fmul (h : Hdr) (f : FnFa) (d a b : Operand)
  | ffma (h : Hdr) (f : FnFa) (d a b c : Operand)
  | fmin (h : Hdr) (f : FnFa) (d a b : Operand)
  | fmax (h : Hdr) (f : FnFa) (d a b : Operand)
  | fcmp (h : Hdr) (f : FnFc) (d a b : Operand)
  | fclass (h : Hdr) (ft : FTy) (d a : Operand)
  | frnd (h : Hdr) (f : FnFa) (d a : Operand)
  | fscaleb (h : Hdr) (f : FnFa) (d a b : Operand)
  | fsel (h : Hdr) (f : FnFa) (d a b c : Operand)
  | frcp (h : Hdr) (f : FnSf) (d a : Operand)
  | frsq (h : Hdr) (f : FnSf) (d a : Operand)
  | fsqrt (h : Hdr) (f : FnSf) (d a : Operand)
  | fexp2 (h : Hdr) (f : FnSf) (d a : Operand)
  | flog2 (h : Hdr) (f : FnSf) (d a : Operand)
  | fsin (h : Hdr) (f : FnSf) (d a : Operand)
  | fcos (h : Hdr) (f : FnSf) (d a : Operand)
  | ftanh (h : Hdr) (f : FnSf) (d a : Operand)
  | cvt (h : Hdr) (f : FnCv) (d a b : Operand)
  | qntScale (h : Hdr) (ef : FmtCode) (half : Bool) (d a : Operand)
  | qntElem (h : Hdr) (f : FnQn) (d a b c : Operand)
  | dqnt (h : Hdr) (f : FnQn) (d a c : Operand)
  -- control flow, suspension, barriers (R127 to R136)
  | bra (h : Hdr) (off : BitVec 30)
  | brau (h : Hdr) (off : BitVec 30)
  | call (h : Hdr) (d : Operand) (off : BitVec 30)
  | callReg (h : Hdr) (d a : Operand)
  | ret (h : Hdr) (a : Operand)
  | jmark (h : Hdr) (off : BitVec 30)
  | join (h : Hdr)
  | brk (h : Hdr) (off : BitVec 30)
  | yield (h : Hdr)
  | exit (h : Hdr)
  | nop (h : Hdr)
  | sleep (h : Hdr) (rel : Bool) (a : Operand)
  | sleepDeadline (grp : Nat)
  | bar (h : Hdr) (id : Fin 16) (a : Operand)
  | cbar (h : Hdr)
  | mbar (h : Hdr) (scope : Scope) (a b : Operand)
  | mbarRelease (pa : Nat)
  -- loads, stores, atomics, waits (R256 to R267)
  | ld (h : Hdr) (f : FnMemF) (d a : Operand) (off : BitVec 22)
  | ldIndexed (h : Hdr) (f : FnMemI) (d a b : Operand)
  | st (h : Hdr) (f : FnMemF) (d a : Operand) (off : BitVec 22)
  | stIndexed (h : Hdr) (f : FnMemI) (a b c : Operand)
  | ldl (h : Hdr) (f : FnLoc) (d a : Operand) (off : BitVec 22)
  | ldlIndexed (h : Hdr) (f : FnLoc) (d a b : Operand)
  | stl (h : Hdr) (f : FnLoc) (d a : Operand) (off : BitVec 22)
  | stlIndexed (h : Hdr) (f : FnLoc) (a b c : Operand)
  | ldu (h : Hdr) (f : FnMemF) (d a : Operand) (off : BitVec 22)
  | atom (h : Hdr) (f : FnAtF) (d a : Operand) (off : BitVec 22)
  | atomIndexed (h : Hdr) (f : FnAtI) (d a b c : Operand)
  | red (h : Hdr) (f : FnAtF) (d a : Operand) (off : BitVec 22)
  | redIndexed (h : Hdr) (f : FnAtI) (a b c : Operand)
  | waitv (h : Hdr) (f : FnWaitF) (d a : Operand) (off : BitVec 22)
  | waitvDeadlineForm (h : Hdr) (f : FnWaitI) (d a b c : Operand)
  | waitvRecheck (grp : Nat)
  -- fences, cache words, tags, engines (R268 to R282)
  | fence (h : Hdr) (scope : Scope)
  | fencex (h : Hdr) (scope : Scope) (p1 p2 : BitVec 5)
  | fenceComplete (grp fid part : Nat)
  | prefetch (h : Hdr) (f : FnPre) (a : Operand) (off : BitVec 22)
  | prefetchIndexed (h : Hdr) (f : FnPre) (a b : Operand)
  | cinv (h : Hdr) (a : Operand) (off : BitVec 22)
  | cinvAll (h : Hdr)
  | cwb (h : Hdr) (a : Operand) (off : BitVec 22)
  | ldtag (h : Hdr) (d a : Operand) (off : BitVec 22)
  | sttag (h : Hdr) (d a : Operand) (off : BitVec 22)
  | cpy (h : Hdr) (d a : Operand)
  | cpyw (h : Hdr) (a : Operand) (off : BitVec 30)
  | gthr (h : Hdr) (f : FnGthr) (d a b c : Operand)
  | ewait (h : Hdr) (d a : Operand)
  | equery (h : Hdr) (d a : Operand)
  | copyEngineTransfer (cmd row : Nat)
  | gatherEngineTransfer (cmd lane : Nat)
  | engineCommandComplete (cmd : Nat)
  -- replicated, publication and collective words (R296 to R308)
  | vwait (h : Hdr) (rel : Bool) (d a b : Operand)
  | vwaitComplete (grp : Nat)
  | vread (h : Hdr) (d : Operand)
  | pub (h : Hdr) (lsrc : Bool) (a b c : Operand)
  | pubv (h : Hdr) (a b : Operand)
  | verchk (h : Hdr) (eq : Bool) (d a b : Operand)
  | coll (h : Hdr) (a : Operand)
  | collectiveExecute (id : Nat) (order : List Nat) (remote : List Contribution) (fail : Bool)
  -- matrix words (R162)
  | wbload (h : Hdr) (lsrc : Bool) (a b c : Operand)
  | mma (h : Hdr) (f : FnMma) (d a b c : Operand)
  | aclr (h : Hdr) (cnt : Fin 16) (d : Operand)
  | acvt (h : Hdr) (f : FnAcvt) (d : Operand)
  | amovToVector (h : Hdr) (cnt : Fin 32) (d a c : Operand)
  | amovToTile (h : Hdr) (cnt : Fin 32) (d a c : Operand)
  | mpoly (h : Hdr) (f : FnMpoly) (d b : Operand)
  | miter (h : Hdr) (f : FnMiter) (d a b : Operand)
  | mdrain (h : Hdr) (f : FnMdrain) (d a b c : Operand)
  | coefl (h : Hdr) (first cnt : Fin 16) (a : Operand)
  | matrixWordExecute (core team : Nat)
  | miterPhase (core team : Nat) (stop : Bool)
  -- traps, control registers, system words
  | trap (h : Hdr) (n : BitVec 16)
  | rte (h : Hdr)
  | rteDrop (h : Hdr) (skip : Bool)
  | rteSkip (h : Hdr)
  | csrr (h : Hdr) (d : Operand) (addr : BitVec 12)
  | csrw (h : Hdr) (d a : Operand) (addr : BitVec 12)
  | csrs (h : Hdr) (d a : Operand) (addr : BitVec 12)
  | csrc (h : Hdr) (d a : Operand) (addr : BitVec 12)
  | contextCsrPropagated (id core : Nat)
  | launch (h : Hdr) (d a : Operand)
  | launchAgg (h : Hdr) (d a b : Operand)
  | tlbiPage (h : Hdr) (a : Operand) (b : Option Operand)
  | tlbiPageRecall (h : Hdr) (a : Operand) (b : Option Operand)
  | tlbiContext (h : Hdr) (b : Option Operand)
  | tlbiAll (h : Hdr)
  | tlbiComplete (id : Nat)
  | tick (h : Hdr) (d : Operand)
  | bkpt (h : Hdr) (n : BitVec 12)
  | halt (h : Hdr)
  | qbind (h : Hdr) (k : Fin 16) (ctx : Option (BitVec 6)) (d a : Operand)
  | qload (h : Hdr) (a b : Operand) (c : Option Operand)
  | qloadComplete (grp : Nat)
  | qstatBind (h : Hdr) (k : Fin 16) (d : Operand)
  | qstatState (h : Hdr) (d : Operand)
  | boundOpcode (h : Hdr) (k : Fin 16) (d a b c : Operand) (fn : BitVec 14)
  | quirePartitionFill (core part ctx : Nat)
  -- scheduling and write-back
  | runChoice (core port : Nat)
  | resultWriteback (tok : Nat)
  -- memory system
  | l2SliceRequest (req : Nat) (lanes : Mask)
  | ownershipRecall (die granule : Nat)
  | atomicAtHome (req lane : Nat)
  | strongHoldRelease (req : Nat)
  | l1Fill (id : Nat)
  | leaseExpiry (core line : Nat)
  | instructionFetch (grp : Nat)
  | hbmUncorrectableError (pa : Nat)
  | migrationGo (die : Nat)
  | migrationCopyEnd (die : Nat)
  | migrationRetire (die : Nat)
  | pageWalk (die ctx : Nat) (va : Word)
  | fbcmdReplayAll (die ctx : Nat)
  | fbdropRead (die ctx : Nat)
  -- replication
  | updatePacketArrival (die id : Nat)
  | collatorSlotGrant (id : Nat)
  | strongLock (die id : Nat)
  | strongLockAck (id : Nat)
  | strongCommit (die id : Nat)
  | strongAbort (die id : Nat)
  | updateAck (die id : Nat)
  | lag (die : Nat)
  | membershipRemove (die : Nat)
  | joinGo (die : Nat)
  | joinCopyEnd (die : Nat)
  | holdPeakRead (die : Nat)
  -- peers and publication
  | peerRequestSend (die : Nat)
  | peerResponse (id : Nat) (ans : PeerAnswer)
  | peerReissue (id : Nat)
  | peerTimeout (id : Nat)
  | peerRequestAtTarget (src seq : Nat) (pa : Nat) (part : Nat) (op : PeerOp)
  | peerBusyRetry (id : Nat)
  | replyCacheExpiry (id : Nat)
  | publicationFlitArrival (port id : Nat)
  | publicationAck (child id : Nat)
  -- hub
  | launchPlacement (queue : Nat) (cores : List Nat)
  | gridComplete (grid : Nat)
  | bucketCloseTimeout (queue key : Nat)
  | qcfgWrite (queue : Nat) (fab : Option Nat) (val : Word)
  | sliceSwitch (entry : Nat)
  | preemption (ctx : Nat)
  | contextRestore (ctx : Nat) (cores : List Nat)
  | contextKill (ctx : Nat)
  | eventQueueConfigWrite (size : Bool) (val : Word)
  -- counters, debug, replay
  | counterTick (unit ctr n : Nat)
  | counterWrite (unit ctr : Nat) (val : Word)
  | actkWrite (val : Word)
  | activityRingWrite (ring : Nat)
  | activityRingConfigWrite (ring : Nat) (reg : Nat) (val : Word)
  | activityDropRead (ring : Nat)
  | resumeGroup (core slot : Nat)
  | preempt (ctx : Nat)
  | resumeCtx (ctx : Nat)
  | rrcfgWrite (ctx : Nat) (val : Word)
  | orderChunkTimeout (ctx grp : Nat)
  | orderGateTimeout (ctx grp : Nat)
  | heatFlush (die : Nat)
  -- boundaries
  | portRetrain (port : Nat)
  | registerWrite (addr : Nat) (val : Word)
  | unassignedOpcode (w : Word)
  -- events that take what they need from the state: its pending commands, and what has come from outside
  | collatorHandover
  | settledReport
  | wrap
  | eventQueueDropRead
  | activityLatch
  | freeze
  | freezeStop
  | resume
  | dump
  | stopOnTick
  | attestationReport
  | packageReset
  | portTrainingEnd
  | laneRetire
  | portDown
  | linkReplay
  | hostInboundWrite
  | hostInboundRead
  | functionLevelReset
  | attestationRequest
  | supplyDroop
  | powerCap
  | supplyRecovery
  | debugToken
  | ptpMessage
  deriving DecidableEq, Repr

end Sys2Proof
end

