-- ==== Sys2Proof/Machine/Checks.lean ====
section
/-!
DEFINITION. Machine/Checks.lean: the decode checks of R78 and R79, made on an instruction whose fields are already taken
apart: which operands a word uses, the classes they must have, their policies, and every rule that a decode trap reports.
-/
namespace Sys2Proof

/-! ### Codes of the function fields -/

def ITy.wide : ITy → Bool
  | .u32 | .s32 => false
  | .u64 | .s64 => true

def ITy.signed : ITy → Bool
  | .u32 | .u64 => false
  | .s32 | .s64 => true

/-- Bytes of an access (R251). -/
def Sz.bytes : Sz → Nat
  | .u8 | .s8 => 1 | .u16 | .s16 => 2 | .u32 | .s32 => 4 | .u64 => 8 | .b128 => 16

def Sz.signed : Sz → Bool
  | .s8 | .s16 | .s32 => true
  | _ => false

/-- The width in bits of the format of a code, for the assigned codes of R43. -/
def fmtWidth (c : FmtCode) : Option Nat :=
  match c.toNat with
  | 0 => some 32 | 1 => some 16 | 2 => some 16 | 3 => some 32 | 4 => some 8 | 5 => some 4 | 6 => some 4 | 7 => some 8
  | n => if 32 ≤ n ∧ n % 8 ≠ 0 then some 8 else none

/-- Element formats of block quantisation (R154): INT8, INT4, E2M1 and binary8. -/
def fmtIsBlock (c : FmtCode) : Bool :=
  match c.toNat with
  | 4 | 5 | 6 => true
  | n => decide (32 ≤ n ∧ n % 8 ≠ 0)

/-- 8-bit and 4-bit formats, into which stochastic rounding is allowed (R56). -/
def fmtIsNarrow (c : FmtCode) : Bool :=
  match fmtWidth c with
  | some w => decide (w ≤ 8)
  | none => false

/-! ### Decode traps -/

/-- A decode trap: cause and TRAP_INFO (R79). -/
inductive DTrap where
  | illegalOp (info : Nat)
  | illegalPair (rule : Nat) (slotB : Bool)
  | priv (info : Nat)
  | quireUnbound (k : Nat)
  deriving DecidableEq, Repr

/-- Operand classes (R107, R162, R258, R296). -/
inductive Cls where
  | src      -- vector, scalar, special, zero; coefficient when UNI is set
  | dst      -- vector, scalar, zero; coefficient when UNI is set
  | pd       -- p0 to p6
  | ps       -- p0 to p7, or zero
  | vec      -- vector register
  | sc       -- scalar register
  | scz      -- scalar register or zero
  | usz      -- scalar register, uniform special or zero
  | vs       -- vector or scalar register
  | vsz      -- vector register, scalar register or zero
  | tile     -- tile
  | adr      -- scalar or vector register (uniform under R41)
  | adrz     -- adr or zero
  | adrt     -- scalar register, vector register or tile
  | pair     -- even scalar register s0 to s58
  | run3     -- scalar register s0 to s58
  | ballot   -- scalar register s0 to s61, or p0 to p6 (checked with the mode)
  | srcv     -- vector register, scalar register, special or zero
  | any      -- not checked here
  deriving DecidableEq, Repr

/-- Whether an operand lies in a class; `uni` is the word's UNI bit (R91). -/
def Cls.has (k : Cls) (uni : Bool) (o : Operand) : Bool :=
  match k, o with
  | .any, _ => true
  | _, .rsvd _ => false
  | .src, .v _ | .src, .s _ | .src, .spec _ | .src, .zero => true
  | .src, .c _ => uni
  | .dst, .v _ | .dst, .s _ | .dst, .zero => true
  | .dst, .c _ => uni
  | .pd, .p n => decide (n.val < 7)
  | .ps, .p _ | .ps, .zero => true
  | .vec, .v _ => true
  | .sc, .s _ => true
  | .scz, .s _ | .scz, .zero => true
  | .usz, .s _ | .usz, .zero => true
  | .usz, .spec x => decide (x ≠ .lane ∧ x ≠ .beat)
  | .vs, .v _ | .vs, .s _ => true
  | .vsz, .v _ | .vsz, .s _ | .vsz, .zero => true
  | .tile, .a _ => true
  | .adr, .v _ | .adr, .s _ => true
  | .adrz, .v _ | .adrz, .s _ | .adrz, .zero => true
  | .adrt, .v _ | .adrt, .s _ | .adrt, .a _ => true
  | .pair, .s n => decide (n.val % 2 = 0 ∧ n.val ≤ 58)
  | .run3, .s n => decide (n.val ≤ 58)
  | .ballot, .s n => decide (n.val ≤ 61)
  | .srcv, .v _ | .srcv, .s _ | .srcv, .spec _ | .srcv, .zero => true
  | _, _ => false

/-- The policy bits of a full word: FE [49], [48] and [47] (R69). -/
inductive FeBit where
  | a | b | c
  deriving DecidableEq, Repr

/-- The policy bit of a header: true traps, false blocks (R33). -/
def Hdr.fe (h : Hdr) : FeBit → Bool
  | .a => h.feA
  | .b => h.feB
  | .c => h.feC

/-- One operand field a word uses: its class, how many registers it names, its full/empty policy where it is a source
(R33), whether a long-latency producer writes it (R32), the register-run alignment (R251), and whether a source stands in
the dst field. -/
structure Use where
  o : Operand
  cls : Cls
  n : Nat := 1
  fe : Option FeBit := none
  long : Bool := false
  even : Nat := 1
  inDst : Bool := false
  deriving DecidableEq, Repr

/-- How UNI stands in a word (R107). -/
inductive UniRule where
  | zero      -- must be 0
  | one       -- must be 1
  | inferred  -- 1 exactly when no operand bars it
  | ldu       -- 1 with a scalar destination, 0 with a vector one (R261)
  | free      -- not checked here
  deriving DecidableEq, Repr

/-- What the checks need to know of a full word. -/
structure Form where
  h : Hdr
  uni : UniRule
  uses : List Use
  priv : Bool := false
  guardTrue : Bool := false
  matrix : Bool := false
  deriving DecidableEq, Repr

/-- Control registers of context scope (R96): CTX_ID, AGE_LIMIT, LEASE_LEN, TRAP_VEC and the bindings. -/
def csrIsCtx (n : BitVec 12) : Bool :=
  decide (n.toNat = 1 ∨ n.toNat = 5 ∨ n.toNat = 6 ∨ n.toNat = 0x17 ∨ (0x40 ≤ n.toNat ∧ n.toNat < 0x50))

/-- The registers of a load or store of size `sz` in operand `o` (R251): how many, and their alignment. -/
def szRun (sz : Sz) (o : Operand) : Nat :=
  match sz, o with
  | .u64, .v _ => 2
  | .b128, .v _ => 4
  | .b128, .s _ => 2
  | _, _ => 1

/-- The registers of an atomic operand of type `ty` (R263). -/
def tyRun (ty : ITy) (o : Operand) : Nat :=
  match ty.wide, o with
  | true, .v _ => 2
  | _, _ => 1

namespace Use

/-- A destination. -/
def d (o : Operand) (k : Cls) : Use := { o := o, cls := k }
/-- A long-latency destination. -/
def l (o : Operand) (k : Cls) : Use := { o := o, cls := k, long := true }
/-- A source with the policy bit that governs it. -/
def r (o : Operand) (k : Cls) (fe : FeBit) : Use := { o := o, cls := k, fe := some fe }

end Use

open Use in
/-- The form of each full word; none for a paired word, an unassigned word and an event. -/
def Instr.form : Instr → Option Form
  -- three-source and two-source data words, UNI inferred
  | .iadd h _ d a b | .isub h _ d a b | .imul h _ d a b | .imulh h _ d a b | .imin h _ d a b | .imax h _ d a b
  | .shl h _ d a b | .shr h _ d a b | .sar h _ d a b | .rot h _ d a b
  | .and h _ d a b | .or h _ d a b | .xor h _ d a b | .andn h _ d a b | .lea h _ d a b
  | .fadd h _ d a b | .fsub h _ d a b | .fmul h _ d a b | .fmin h _ d a b | .fmax h _ d a b | .fscaleb h _ d a b =>
    some ⟨h, .inferred, [Use.d d .dst, r a .src .a, r b .src .b], false, false, false⟩
  | .imad h _ d a b c | .bfi h _ d a b c | .permb h d a b c | .ffma h _ d a b c | .fsel h _ d a b c =>
    some ⟨h, .inferred, [Use.d d .dst, r a .src .a, r b .src .b, r c .src .c], false, false, false⟩
  | .bfx h _ d a c =>
    some ⟨h, .inferred, [Use.d d .dst, r a .src .a, r c .src .c], false, false, false⟩
  | .iaddImm h _ d a _ | .isubImm h _ d a _ | .imulImm h _ d a _ | .iminImm h _ d a _ | .imaxImm h _ d a _
  | .shlImm h _ d a _ | .shrImm h _ d a _ | .sarImm h _ d a _ | .rotImm h _ d a _
  | .andImm h _ d a _ | .orImm h _ d a _ | .xorImm h _ d a _ | .movhi h _ d a _ | .permbImm h d a _
  | .iabs h _ _ d a | .ineg h _ _ d a | .not h _ d a | .mov h d a
  | .popc h _ d a | .clz h _ d a | .ctz h _ d a | .brev h _ d a | .fclass h _ d a | .frnd h _ d a =>
    some ⟨h, .inferred, [Use.d d .dst, r a .src .a], false, false, false⟩
  | .movi h _ d _ => some ⟨h, .inferred, [Use.d d .dst], false, false, false⟩
  | .frcp h _ d a | .frsq h _ d a | .fsqrt h _ d a | .fexp2 h _ d a | .flog2 h _ d a | .fsin h _ d a
  | .fcos h _ d a | .ftanh h _ d a =>
    some ⟨h, .inferred, [l d .dst, r a .src .a], false, false, false⟩
  | .cvt h f d a b =>
    if f.narrow && decide (f.nf.toNat ≠ 3) then
      some ⟨h, .inferred, [Use.d d .dst, r a .src .a, r b .src .b], false, false, false⟩
    else some ⟨h, .inferred, [Use.d d .dst, r a .src .a], false, false, false⟩
  -- words that name predicates or lanes, UNI 0
  | .iaddc h _ d a b c | .isubb h _ d a b c | .sel h d a b c =>
    some ⟨h, .zero, [Use.d d .dst, r a .src .a, r b .src .b, r c .ps .c], false, false, false⟩
  | .icmp h _ d a b | .fcmp h _ d a b =>
    some ⟨h, .zero, [Use.d d .pd, r a .src .a, r b .src .b], false, false, false⟩
  | .icmpImm h _ d a _ => some ⟨h, .zero, [Use.d d .pd, r a .src .a], false, false, false⟩
  | .pand h _ d a b | .por h _ d a b | .pxor h _ d a b =>
    some ⟨h, .zero, [Use.d d .pd, r a .ps .a, r b .ps .b], false, false, false⟩
  | .pnot h d a => some ⟨h, .zero, [Use.d d .pd, r a .ps .a], false, false, false⟩
  | .pmov h _ d a =>
    match d with
    | .s _ => some ⟨h, .zero, [Use.d d .sc, r a .ps .a], false, false, false⟩
    | _ => some ⟨h, .zero, [Use.d d .pd, r a .sc .a], false, false, false⟩
  | .shfl h _ d a b => some ⟨h, .zero, [Use.d d .vec, r a .vec .a, r b .srcv .b], false, false, false⟩
  | .bcast h d a b => some ⟨h, .zero, [Use.d d .vs, r a .vec .a, r b .usz .b], false, false, false⟩
  | .vote h m d a =>
    match m, d with
    | .ballot, _ => some ⟨h, .zero, [Use.d d .ballot, r a .ps .a], false, false, false⟩
    | _, .s _ => some ⟨h, .zero, [Use.d d .sc, r a .ps .a], false, false, false⟩
    | _, _ => some ⟨h, .zero, [Use.d d .pd, r a .ps .a], false, false, false⟩
  | .redux h _ d a => some ⟨h, .zero, [Use.d d .sc, r a .vec .a], false, false, false⟩
  | .scan h _ d a => some ⟨h, .zero, [Use.d d .vec, r a .vec .a], false, false, false⟩
  | .qntScale h _ _ d a => some ⟨h, .zero, [Use.d d .sc, r a .vec .a], false, false, false⟩
  | .qntElem h _ d a b c =>
    some ⟨h, .zero, [Use.d d .vec, r a .vec .a, r b .src .b, r c .scz .c], false, false, false⟩
  | .dqnt h _ d a c => some ⟨h, .zero, [Use.d d .vec, r a .vec .a, r c .scz .c], false, false, false⟩
  -- control flow (R127, R131, R132)
  | .bra h _ | .exit h => some ⟨h, .zero, [], false, false, false⟩
  | .brk h _ => some ⟨h, .zero, [], false, false, false⟩
  | .brau h _ | .yield h | .nop h | .cbar h => some ⟨h, .one, [], false, false, false⟩
  | .call h d _ => some ⟨h, .one, [Use.d d .scz], false, false, false⟩
  | .callReg h d a => some ⟨h, .one, [Use.d d .scz, r a .sc .a], false, false, false⟩
  | .ret h a => some ⟨h, .one, [r a .sc .a], false, false, false⟩
  | .jmark h _ | .join h => some ⟨h, .one, [], false, true, false⟩
  | .sleep h _ a | .bar h _ a => some ⟨h, .one, [r a .scz .a], false, false, false⟩
  | .mbar h _ a b => some ⟨h, .one, [r a .sc .a, r b .scz .b], false, false, false⟩
  -- memory (R258, R261 to R263, R266)
  | .ld h f d a _ =>
    some ⟨h, .inferred, [{ l d .vsz with n := szRun f.sz d, even := szRun f.sz d }, r a .scz .a], false, false, false⟩
  | .ldIndexed h f d a b =>
    some ⟨h, .inferred, [{ l d .vsz with n := szRun f.sz d, even := szRun f.sz d }, r a .scz .a, r b .vsz .b],
      false, false, false⟩
  | .st h f d a _ =>
    some ⟨h, .inferred, [{ r d .vsz .b with inDst := true, n := szRun f.sz d, even := szRun f.sz d }, r a .scz .a],
      false, false, false⟩
  | .stIndexed h f a b c =>
    some ⟨h, .inferred, [r a .scz .a, r b .vsz .b, { r c .vsz .c with n := szRun f.sz c, even := szRun f.sz c }],
      false, false, false⟩
  | .ldl h f d a _ =>
    some ⟨h, .inferred, [{ l d .vsz with n := szRun f.sz d, even := szRun f.sz d }, r a .scz .a], false, false, false⟩
  | .ldlIndexed h f d a b =>
    some ⟨h, .inferred, [{ l d .vsz with n := szRun f.sz d, even := szRun f.sz d }, r a .scz .a, r b .vsz .b],
      false, false, false⟩
  | .stl h f d a _ =>
    some ⟨h, .inferred, [{ r d .vsz .b with inDst := true, n := szRun f.sz d, even := szRun f.sz d }, r a .scz .a],
      false, false, false⟩
  | .stlIndexed h f a b c =>
    some ⟨h, .inferred, [r a .scz .a, r b .vsz .b, { r c .vsz .c with n := szRun f.sz c, even := szRun f.sz c }],
      false, false, false⟩
  | .ldu h f d a _ =>
    some ⟨h, .ldu, [{ l d .vs with n := szRun f.sz d, even := szRun f.sz d }, r a .scz .a], false, false, false⟩
  | .atom h f d a _ =>
    some ⟨h, .inferred, [{ l d .vsz with n := tyRun f.ty d, even := tyRun f.ty d, fe := some .b, inDst := true }, r a .scz .a],
      false, false, false⟩
  | .atomIndexed h f d a b c =>
    some ⟨h, .inferred, [
      { l d .vsz with n := tyRun f.ty d, even := tyRun f.ty d, fe := if f.op = .cas then some .c else none, inDst := true },
      r a .scz .a, r b .vsz .b,
      { r c .vsz .c with n := tyRun f.ty c, even := tyRun f.ty c }], false, false, false⟩
  | .red h f d a _ =>
    some ⟨h, .inferred, [{ r d .vsz .b with inDst := true, n := tyRun f.ty d, even := tyRun f.ty d }, r a .scz .a],
      false, false, false⟩
  | .redIndexed h f a b c =>
    some ⟨h, .inferred, [r a .scz .a, r b .vsz .b, { r c .vsz .c with n := tyRun f.ty c, even := tyRun f.ty c }],
      false, false, false⟩
  | .waitv h _ d a _ => some ⟨h, .one, [{ r d .sc .b with inDst := true }, r a .scz .a], false, false, false⟩
  | .waitvDeadlineForm h _ d a b c =>
    some ⟨h, .one, [Use.d d .scz, r a .sc .a, r b .sc .b, r c .scz .c], false, false, false⟩
  | .fence h _ | .fencex h _ _ _ => some ⟨h, .one, [], false, false, false⟩
  | .prefetch h _ a _ => some ⟨h, .inferred, [r a .scz .a], false, false, false⟩
  | .prefetchIndexed h _ a b => some ⟨h, .inferred, [r a .scz .a, r b .vsz .b], false, false, false⟩
  | .cinv h a _ => some ⟨h, .one, [r a .scz .a], false, false, false⟩
  | .cinvAll h => some ⟨h, .one, [], false, false, false⟩
  | .cwb h a _ => some ⟨h, .one, [r a .scz .a], false, false, false⟩
  | .ldtag h d a _ => some ⟨h, .inferred, [l d .vsz, r a .scz .a], false, false, false⟩
  | .sttag h d a _ => some ⟨h, .inferred, [{ r d .vsz .b with inDst := true }, r a .scz .a], false, false, false⟩
  | .cpy h d a => some ⟨h, .one, [Use.d d .scz, { r a .sc .a with n := 7 }], false, false, false⟩
  | .cpyw h a _ => some ⟨h, .one, [{ r a .sc .a with n := 7 }], false, false, false⟩
  | .gthr h _ d a b c =>
    some ⟨h, .zero, [Use.d d .scz, r a .sc .a, r b .vec .b, r c .sc .c], false, false, false⟩
  | .ewait h d a => some ⟨h, .one, [Use.d d .scz, r a .sc .a], false, false, false⟩
  | .equery h d a => some ⟨h, .one, [Use.d d .sc, r a .sc .a], false, false, false⟩
  -- replicated, publication, collective (R296)
  | .vwait h _ d a b =>
    some ⟨h, .one, [Use.d d .scz, { r a .run3 .a with n := 3 }, r b .scz .b], false, false, false⟩
  | .vread h d => some ⟨h, .one, [{ Use.d d .run3 with n := 3 }], false, false, false⟩
  | .pub h _ a b c => some ⟨h, .one, [r a .sc .a, r b .sc .b, r c .sc .c], false, false, false⟩
  | .pubv h a b => some ⟨h, .one, [r a .sc .a, r b .sc .b], false, false, false⟩
  | .verchk h _ d a b => some ⟨h, .zero, [Use.d d .pd, r a .sc .a, r b .sc .b], false, false, false⟩
  | .coll h a => some ⟨h, .one, [{ r a .run3 .a with n := 3 }], false, false, false⟩
  -- matrix words (R162)
  | .wbload h _ a b c => some ⟨h, .zero, [r a .adr .a, r b .adr .b, r c .scz .c], false, false, true⟩
  | .mma h f d a b c =>
    some ⟨h, .zero, [{ Use.d d .tile with n := (f.ms.val + 1) * (f.ns.val + 1) },
      r a (match a with | .v _ => .adr | _ => .adrt) .a, r b .adrt .b, { r c .pair .c with n := 2 }],
      false, false, true⟩
  | .aclr h n d => some ⟨h, .zero, [{ Use.d d .tile with n := n.val + 1 }], false, false, true⟩
  | .acvt h f d => some ⟨h, .zero, [{ Use.d d .tile with n := f.cnt.val + 1 }], false, false, true⟩
  | .amovToVector h n d a c =>
    some ⟨h, .zero, [{ l d .vec with n := n.val + 1 }, r a .tile .a, r c .scz .c], false, false, true⟩
  | .amovToTile h n d a c =>
    some ⟨h, .zero, [Use.d d .tile, { r a .vec .a with n := n.val + 1 }, r c .scz .c], false, false, true⟩
  | .mpoly h f d b =>
    some ⟨h, .zero, [{ Use.d d .tile with n := (f.sz.val + 1) * (f.sz.val + 1) }, r b .adr .b], false, false, true⟩
  | .miter h f d a b =>
    some ⟨h, .zero, [{ Use.d d .tile with n := if f.m128 then 4 else 1 },
      { r a .tile .a with n := if f.m128 then 4 else 1 }, r b .adr .b], false, false, true⟩
  | .mdrain h f d a b c =>
    some ⟨h, .zero, [{ Use.d d .tile with n := (f.ms.val + 1) * (f.ns.val + 1) }, r a .adr .a, r b .adrz .b,
      { r c .pair .c with n := 2 }], false, false, true⟩
  | .coefl h _ _ a => some ⟨h, .zero, [r a .scz .a], false, false, true⟩
  -- system words
  | .trap h _ => some ⟨h, .one, [], false, false, false⟩
  | .rte h | .rteSkip h => some ⟨h, .one, [], true, true, false⟩
  | .rteDrop h _ => some ⟨h, .one, [], true, true, false⟩
  | .csrr h d _ => some ⟨h, .one, [Use.d d .scz], false, false, false⟩
  | .csrw h d a n | .csrs h d a n | .csrc h d a n =>
    some ⟨h, .one, [{ Use.d d .scz with long := csrIsCtx n },
      r a .scz .a], false, false, false⟩
  | .launch h d a => some ⟨h, .one, [l d .scz, r a .sc .a], false, false, false⟩
  | .launchAgg h d a b => some ⟨h, .one, [l d .scz, r a .sc .a, r b .sc .b], false, false, false⟩
  | .tlbiPage h a b | .tlbiPageRecall h a b =>
    some ⟨h, .one, r a .sc .a :: (match b with | some b => [r b .sc .b] | none => []), true, false, false⟩
  | .tlbiContext h b =>
    some ⟨h, .one, (match b with | some b => [r b .sc .b] | none => []), true, false, false⟩
  | .tlbiAll h => some ⟨h, .one, [], true, false, false⟩
  | .tick h d => some ⟨h, .one, [Use.d d .scz], false, false, false⟩
  | .bkpt h _ => some ⟨h, .one, [], false, false, false⟩
  | .halt h => some ⟨h, .one, [], true, false, false⟩
  | .qbind h _ _ d a => some ⟨h, .one, [l d .scz, r a .sc .a], true, false, false⟩
  | .qload h a b c =>
    some ⟨h, .one, [r a .sc .a, r b .sc .b] ++ (match c with | some c => [r c .sc .c] | none => []),
      true, false, false⟩
  | .qstatBind h _ d | .qstatState h d => some ⟨h, .one, [Use.d d .sc], false, false, false⟩
  | .boundOpcode h _ d a b c _ =>
    some ⟨h, .free, [Use.d d .any, r a .any .a, r b .any .b, r c .any .c], false, false, false⟩
  | _ => none

/-! ### Function fields (checks 2 and 3 of R78) -/

/-- Whether an access register is at a control-register address (R96), and whether it is supervisor-only. -/
def csrKnown (n : BitVec 12) : Bool :=
  decide (n.toNat ≤ 6 ∨ (0x10 ≤ n.toNat ∧ n.toNat ≤ 0x17) ∨ (0x20 ≤ n.toNat ∧ n.toNat ≤ 0x22) ∨
    (0x40 ≤ n.toNat ∧ n.toNat < 0x50))

def csrSupOnly (n : BitVec 12) : Bool :=
  decide (n.toNat = 5 ∨ n.toNat = 6 ∨ (0x10 ≤ n.toNat ∧ n.toNat ≤ 0x17) ∨ (0x40 ≤ n.toNat ∧ n.toNat < 0x50))

/-- Element position P within 32 bits for an element of width `w` (R153). -/
def posOk (w : Nat) (p : BitVec 3) : Bool := decide (w * (p.toNat + 1) ≤ 32)

/-- The width at which `movhi` is checked (R113): 32 for a vector or coefficient destination. -/
def movhiWide : Operand → Bool
  | .v _ | .c _ => false
  | _ => true

/-- Modes an arithmetic word names (R140): all but SR. -/
def rmArith (m : RMode) : Bool := decide (m ≠ .sr)

/-- Check 2 of R78 on the fields that the syntax can hold: an unassigned function or modifier value. True where none. -/
def Instr.fnAssigned : Instr → Bool
  | .fadd _ f _ _ _ | .fsub _ f _ _ _ | .fmul _ f _ _ _ | .ffma _ f _ _ _ _ | .frnd _ f _ _ | .fscaleb _ f _ _ _ =>
    rmArith f.rm
  | .fsqrt _ f _ _ => rmArith f.rm
  | .movhi _ f d _ _ => decide (f = .h1) || movhiWide d
  | .cvt _ f _ _ _ =>
    match fmtWidth f.nf with
    | none => false
    | some w =>
      decide (f.nf.toNat ≠ 0) && posOk w f.pos &&
      (if f.narrow then decide (f.nf.toNat ≠ 7) && (decide (f.rm ≠ .sr) || fmtIsNarrow f.nf)
       else rmArith f.rm)
  | .qntScale _ ef _ _ _ => fmtIsBlock ef
  | .qntElem _ f _ _ _ _ => fmtIsBlock f.ef && posOk ((fmtWidth f.ef).getD 8) f.pos
  | .dqnt _ f _ _ _ => fmtIsBlock f.ef && posOk ((fmtWidth f.ef).getD 8) f.pos && rmArith f.rm
  | .mbar _ sc _ _ => decide (sc = .die ∨ sc = .package ∨ sc = .system)
  | .ld h f _ _ _ =>
    (match f.seg, f.ford with
     | .p, o => decide (o.val = 0)
     | .peer, o | .h, o => decide (o.val = 0 ∨ o.val = 3)
     | _, _ => true) && !(decide (f.seg = .p) && h.uni)
  | .ldu _ f _ _ _ =>
    match f.seg, f.ford with
    | .p, _ => false
    | .peer, o | .h, o => decide (o.val = 0 ∨ o.val = 3)
    | _, _ => true
  | .st h f _ _ _ =>
    (match f.seg, f.ford with
     | .p, o => decide (o.val = 0)
     | .peer, o | .h, o => decide (o.val = 0)
     | .r, _ => true
     | _, o => decide (o.val ≠ 3)) && !f.sz.signed && !(decide (f.seg = .p) && h.uni)
  | .ldIndexed h f _ _ _ =>
    decide (f.ord ≠ .sq) &&
    (match f.seg, f.ord with
     | .p, o => decide (o = .weak)
     | .peer, .weak | .h, .weak => true
     | .peer, _ | .h, _ => decide (f.scope = .system)
     | _, _ => true) && !(decide (f.seg = .p) && h.uni)
  | .stIndexed h f _ _ _ =>
    (match f.seg, f.ord with
     | .r, .sq => true
     | _, .sq => false
     | .p, o => decide (o = .weak)
     | .peer, .weak | .h, .weak => true
     | .peer, _ | .h, _ => decide (f.scope = .system)
     | _, _ => true) && !f.sz.signed && !(decide (f.seg = .p) && h.uni)
  | .stl _ f _ _ _ | .stlIndexed _ f _ _ _ => !f.sz.signed
  | .atom _ f _ _ _ =>
    decide (f.op ≠ .cas) && (decide (f.op ≠ .fadd ∧ f.op ≠ .fmin ∧ f.op ≠ .fmax) || decide (f.ty = .u32))
  | .red _ f _ _ _ =>
    decide (f.op ≠ .cas ∧ f.op ≠ .exch) &&
    (decide (f.op ≠ .fadd ∧ f.op ≠ .fmin ∧ f.op ≠ .fmax) || decide (f.ty = .u32))
  | .atomIndexed _ f _ _ _ _ =>
    (decide (f.op ≠ .fadd ∧ f.op ≠ .fmin ∧ f.op ≠ .fmax) || decide (f.ty = .u32)) &&
    (decide (f.ord ≠ .sq) || decide (f.seg = .r)) &&
    (decide (f.seg ≠ .peer) || decide (f.ord = .weak ∨ f.ord = .sq ∨ f.scope = .system))
  | .redIndexed _ f _ _ _ =>
    decide (f.op ≠ .cas ∧ f.op ≠ .exch) && decide (f.ord ≠ .acq ∧ f.ord ≠ .acqrel) &&
    (decide (f.op ≠ .fadd ∧ f.op ≠ .fmin ∧ f.op ≠ .fmax) || decide (f.ty = .u32)) &&
    (decide (f.ord ≠ .sq) || decide (f.seg = .r)) &&
    (decide (f.seg ≠ .peer) || decide (f.ord = .weak ∨ f.ord = .sq ∨ f.scope = .system))
  | .fencex _ _ p1 p2 => decide (p1 ≠ 0 ∧ p2 ≠ 0)
  | .csrr _ _ n | .csrw _ _ _ n | .csrs _ _ _ n | .csrc _ _ _ n => csrKnown n
  | _ => true

/-- An operand that bars uniform execution (R25). -/
def Operand.bars : Operand → Bool
  | .v _ | .p _ | .spec .lane | .spec .beat => true
  | _ => false

/-- Check 3 of R78 on the fields that the syntax can hold: a reserved value, a policy bit of an unused field apart. -/
def Instr.fnReservedOk : Instr → Bool
  | .iaddc .. | .isubb .. => true
  | .movhi _ f d _ imm =>
    match f with
    | .h1 => movhiWide d || decide (imm.toNat < 2 ^ 10)
    | .h2 => decide (imm.toNat < 2 ^ 20)
  | .permbImm _ _ _ imm => decide (imm.toNat < 2 ^ 20)
  | .redux _ f _ _ => !f.sat || decide (f.op = .add)
  | .fadd _ f _ _ _ | .fsub _ f _ _ _ | .fmul _ f _ _ _ => decide (f.mc = ⟨false, false⟩)
  | .fmin _ f _ _ _ | .fmax _ f _ _ _ => decide (f.rm = .rne ∧ f.sat = false ∧ f.mc = ⟨false, false⟩)
  | .frnd _ f _ _ => decide (f.sat = false ∧ f.mb = ⟨false, false⟩ ∧ f.mc = ⟨false, false⟩)
  | .fscaleb _ f _ _ _ => decide (f.mb = ⟨false, false⟩ ∧ f.mc = ⟨false, false⟩)
  | .fsel _ f _ _ _ _ => decide (f.rm = .rne ∧ f.sat = false)
  | .frcp _ f _ _ | .frsq _ f _ _ | .fexp2 _ f _ _ | .flog2 _ f _ _ | .fsin _ f _ _ | .fcos _ f _ _ | .ftanh _ f _ _ =>
    decide (f.rm = .rne)
  | .cvt _ f _ _ b =>
    (f.narrow || (decide (f.sat = false) && (decide (f.nf.toNat = 3) || decide (f.rm = .rne)))) &&
      ((f.narrow && decide (f.nf.toNat ≠ 3)) || decide (b = .v 0))
  | .ldIndexed _ f _ _ b => (decide (f.ord ≠ .weak ∧ f.ord ≠ .sq) || decide (f.scope = .group)) &&
      (!f.xs || (match b with | .v _ => true | _ => false))
  | .stIndexed _ f _ b _ => (decide (f.ord ≠ .weak ∧ f.ord ≠ .sq) || decide (f.scope = .group)) &&
      (!f.xs || (match b with | .v _ => true | _ => false))
  | .ldl _ f _ _ _ | .stl _ f _ _ _ => !f.xs
  | .ldlIndexed _ f _ _ b => !f.xs || (match b with | .v _ => true | _ => false)
  | .stlIndexed _ f _ b _ => !f.xs || (match b with | .v _ => true | _ => false)
  | .atomIndexed _ f _ _ _ _ => decide (f.ord ≠ .weak ∧ f.ord ≠ .sq) || decide (f.scope = .group)
  | .redIndexed _ f _ _ _ => decide (f.ord ≠ .weak ∧ f.ord ≠ .sq) || decide (f.scope = .group)
  | .prefetch _ f _ _ => !f.xs
  | .prefetchIndexed _ f _ b => !f.xs || (match b with | .v _ => true | _ => false)
  | _ => true

/-- UNI against the word's rule, check 3 of R78: a fixed UNI that differs, or an inferred UNI left clear where no operand
bars it (R107). -/
def Form.uniFixedOk (f : Form) : Bool :=
  match f.uni with
  | .zero => !f.h.uni
  | .one => f.h.uni
  | .inferred => f.h.uni || f.uses.any (fun u => u.o.bars)
  | .ldu | .free => true

/-- The guard of a word that must be true (R127, R198). -/
def Form.guardOk (f : Form) : Bool := !f.guardTrue || (decide (f.h.gp.val = 7) && !f.h.gn)

/-- UNI with a non-uniform operand, TRAP_INFO code 6 (R25, R107, R261). -/
def Form.uniBarOk (f : Form) : Bool :=
  match f.uni with
  | .inferred => !f.h.uni || !f.uses.any (fun u => u.o.bars)
  | .ldu => match f.uses with
    | u :: _ => decide (f.h.uni = (match u.o with | .s _ => true | _ => false))
    | [] => true
  | _ => true

/-- Policy bits of fields that the word does not use as sources are zero (R70). -/
def Form.feReservedOk (f : Form) : Bool :=
  [FeBit.a, .b, .c].all (fun x => !f.h.fe x || f.uses.any (fun u => decide (u.fe = some x)))

/-- What the checks need of the group and the machine: the vector allocation, the team's tiles, whether the core is a
control core, supervisor state and whether a trap is active, and which opcodes are bound. -/
structure Env where
  vregs : Nat
  acc : Nat
  control : Bool
  sup : Bool
  trapActive : Bool
  bound : BitVec 16
  deriving DecidableEq, Repr

/-- Class of one use, with the register-run alignment of R251. -/
def Use.classOk (uni : Bool) (u : Use) : Bool :=
  u.cls.has uni u.o &&
  (match u.o with
   | .v n => decide (n.val % u.even = 0)
   | .s n => decide (n.val % u.even = 0 ∧ n.val + u.n ≤ 64)
   | _ => true)

/-- Allocation of one use, TRAP_INFO code 5 (R20, R92, R162). -/
def Use.allocOk (e : Env) (u : Use) : Bool :=
  match u.o with
  | .v n => decide (n.val + u.n ≤ e.vregs)
  | .a n => decide (n.val + u.n ≤ e.acc)
  | _ => true

/-- A long-latency write to s61 to s63, TRAP_INFO code 7 (R32, R251). -/
def Use.longOk (u : Use) : Bool :=
  !u.long || (match u.o with | .s n => decide (n.val + u.n ≤ 61) | _ => true)

/-- Rules of single instructions that report an operand class (TRAP_INFO code 4). -/
def Instr.extraClassOk : Instr → Bool
  | .iadd _ f d _ _ | .isub _ f d _ _ | .imul _ f d _ _ => tyDst f.ty d
  | .imad _ f d _ _ _ => tyDst f.ty d
  | .iaddImm _ f d _ _ | .isubImm _ f d _ _ | .imulImm _ f d _ _ => tyDst f.ty d
  | .imulh _ t d _ _ | .imin _ t d _ _ | .imax _ t d _ _ | .rot _ t d _ _ | .and _ t d _ _ | .or _ t d _ _
  | .xor _ t d _ _ | .andn _ t d _ _ => tyDst t d
  | .iminImm _ t d _ _ | .imaxImm _ t d _ _ | .rotImm _ t d _ _ | .andImm _ t d _ _ | .orImm _ t d _ _
  | .xorImm _ t d _ _ => tyDst t d
  | .iabs _ w _ d _ | .ineg _ w _ d _ => tyDst (if w then .s64 else .s32) d
  | .iaddc _ f d _ _ _ | .isubb _ f d _ _ _ =>
    tyDst (if f.wide then .u64 else .u32) d && decide (f.co ≠ some 7)
  | .shl _ f d _ _ | .shr _ f d _ _ | .sar _ f d _ _ => tyDst f.ty d
  | .shlImm _ f d _ _ | .shrImm _ f d _ _ | .sarImm _ f d _ _ => tyDst f.ty d
  | .lea _ f d _ _ => tyDst f.ty d
  | .movi _ t d _ | .not _ t d _ | .popc _ t d _ | .clz _ t d _ | .ctz _ t d _ | .brev _ t d _ => tyDst t d
  | .bfx _ t d _ _ => tyDst t d
  | .bfi _ t d _ _ _ => tyDst t d
  | .pmov _ _ d a => match d, a with
    | .s _, .p _ | .s _, .zero | .p _, .s _ => true
    | _, _ => false
  | .fadd _ f d a b | .fsub _ f d a b | .fmul _ f d a b | .fmin _ f d a b | .fmax _ f d a b | .fscaleb _ f d a b =>
    decide (f.ft = .f32) || noCoef [d, a, b]
  | .ffma _ f d a b c | .fsel _ f d a b c => decide (f.ft = .f32) || noCoef [d, a, b, c]
  | .frnd _ f d a => decide (f.ft = .f32) || noCoef [d, a]
  | .fclass _ ft d a => decide (ft = .f32) || noCoef [d, a]
  -- the block of a copy ends before s61 (R278)
  | .cpy _ _ (.s n) | .cpyw _ (.s n) _ => decide (n.val + 7 ≤ 61)
  | _ => true
where
  /-- A 64-bit type is not written to a vector register (R104). -/
  tyDst (t : ITy) (d : Operand) : Bool := !t.wide || (match d with | .v _ => false | _ => true)
  /-- A coefficient register holds FP32 only (R138). -/
  noCoef (l : List Operand) : Bool := l.all (fun o => match o with | .c _ => false | _ => true)

/-- Two runs of tiles overlap. -/
def tilesMeet (x m y n : Nat) : Bool := decide (x < y + n ∧ y < x + m)

/-- Tile ranges of one word that are known at decode and overlap, TRAP_INFO code 8 (R162). Of a tile operand of `mma`, whose
extent grows with K, the tiles that every K gives are known: those of one block of 64 (R170). -/
def Instr.tilesOk : Instr → Bool
  | .miter _ f (.a x) (.a w) _ =>
    let n := if f.m128 then 4 else 1
    !tilesMeet x n w n
  | .mma _ f (.a d) a b _ =>
    let m := f.ms.val + 1
    let n := f.ns.val + 1
    let meets (o : Operand) (k x l : Nat) : Bool := match o with | .a t => tilesMeet t k x l | _ => false
    !(meets a m d (m * n) || meets b n d (m * n) || (match b with | .a t => meets a m t n | _ => false))
  | _ => true

/-- What check 4 reports with TRAP_INFO code 2 (R162): the coefficient registers that `coefl` names exist, and the rounding mode of a
matrix word is assigned. -/
def Instr.coefsOk : Instr → Bool
  | .acvt _ f _ => decide (f.rm ≠ .sr ∧ f.rm ≠ .dyn)
  | .mdrain _ f _ _ _ _ => decide (f.rm ≠ .dyn)
  | .coefl _ k n _ => decide (k.val + n.val + 1 ≤ 16)
  | _ => true

/-! ### Paired words (R72 to R77) -/

/-- Registers a slot reads, d first. -/
def SlotOp.reads : SlotOp → List Reg7
  | .bin _ d r | .sel d r _ | .fbin _ d r | .icmp _ _ d r | .fcmp _ _ d r => [d, r]
  | .binI _ _ r _ | .mov _ r | .fbinI _ _ r _ | .icmpI _ _ r _ | .fcmpI _ _ r _ | .frcp _ r | .fexp2 _ r => [r]
  | .ffma d r t => [d, r, t]
  | .ffmaI d r _ => [d, r]
  | .movi8 .. | .bra .. => []

/-- The register a slot writes. -/
def SlotOp.writes : SlotOp → Option Reg7
  | .bin _ d _ | .binI _ d _ _ | .mov d _ | .movi8 d _ | .sel d _ _ | .fbin _ d _ | .fbinI _ d _ _ | .ffma d _ _
  | .ffmaI d _ _ | .frcp d _ | .fexp2 d _ => some d
  | _ => none

/-- The predicate a slot writes: p0 or p1. -/
def SlotOp.writesPred : SlotOp → Option Bool
  | .icmp p _ _ _ | .icmpI p _ _ _ | .fcmp p _ _ _ | .fcmpI p _ _ _ => some p
  | _ => none

def SlotOp.isSpecial : SlotOp → Bool
  | .frcp .. | .fexp2 .. => true
  | _ => false

def SlotOp.isBra : SlotOp → Bool
  | .bra _ => true
  | _ => false

def Reg7.vec? : Reg7 → Option Nat
  | .v n => some n.val
  | .s _ => none

/-- A slot with a scalar destination and a vector source (R73). -/
def SlotOp.mixed (o : SlotOp) : Bool :=
  match o.writes with
  | some (.s _) => o.reads.any (fun x => x.vec?.isSome)
  | _ => false

/-- Every two different vector registers of a list lie in different banks (rule 2 of R76). -/
def banksOk : List Nat → Bool
  | [] => true
  | x :: t => t.all (fun y => decide (x = y ∨ x % 4 ≠ y % 4)) && banksOk t

/-- The reserved FE bit of `bra` in a slot (R74). -/
def Slot.reservedOk (x : Slot) : Bool := !(x.op.isBra && x.fe)

/-- Checks 3 to 5 of R78 on a paired word; check 3 on bits the syntax drops is made by the decoder. -/
def pairCheck (e : Env) (x y : Slot) : Option DTrap :=
  let vecs (o : SlotOp) := o.reads.filterMap Reg7.vec?
  let all := vecs x.op ++ vecs y.op ++ (x.op.writes.toList ++ y.op.writes.toList).filterMap Reg7.vec?
  let long (o : SlotOp) := o.isSpecial && (match o.writes with | some (.s n) => decide (61 ≤ n.val) | _ => false)
  if !(x.reservedOk && y.reservedOk) then some (.illegalOp 3)
  else if all.any (fun n => decide (e.vregs ≤ n)) then some (.illegalOp 5)
  else if long x.op || long y.op then some (.illegalOp 7)
  else if !banksOk (vecs x.op ++ vecs y.op) then some (.illegalPair 2 false)
  else if (match x.op.writes.bind Reg7.vec?, y.op.writes.bind Reg7.vec? with
      | some m, some n => decide (m % 4 = n % 4) | _, _ => false) then some (.illegalPair 3 false)
  else if x.op.isSpecial && y.op.isSpecial then some (.illegalPair 4 false)
  else if x.op.isBra then some (.illegalPair 5 false)
  else if (x.op.writes.isSome && decide (x.op.writes = y.op.writes)) ||
      (x.op.writesPred.isSome && decide (x.op.writesPred = y.op.writesPred)) then some (.illegalPair 6 false)
  else if x.op.mixed && y.op.mixed then some (.illegalPair 7 false)
  else if x.op.mixed then some (.illegalPair 7 false)
  else if y.op.mixed then some (.illegalPair 7 true)
  else none

/-! ### The order of the checks (R78) -/

/-- Checks on a full word after its fields are taken apart. -/
def formCheck (e : Env) (i : Instr) (f : Form) : Option DTrap :=
  if f.matrix && e.control then some (.illegalOp 1)
  else if !i.fnAssigned then some (.illegalOp 2)
  else if !(i.fnReservedOk && f.uniFixedOk && f.guardOk && f.feReservedOk) then some (.illegalOp 3)
  else if !i.coefsOk then some (.illegalOp 2)
  else if !(f.uses.all (fun u => u.classOk f.h.uni) && i.extraClassOk) then some (.illegalOp 4)
  else if !f.uses.all (fun u => u.allocOk e) then some (.illegalOp 5)
  else if !f.uniBarOk then some (.illegalOp 6)
  else if !f.uses.all (fun u => u.longOk) then some (.illegalOp 7)
  else if !i.tilesOk then some (.illegalOp 8)
  else if f.priv && !e.sup then some (.priv 0)
  else match i with
    | .csrr _ _ n | .csrw _ _ _ n | .csrs _ _ _ n | .csrc _ _ _ n =>
      if csrSupOnly n && !e.sup then some (.priv 1) else none
    | .rte _ | .rteDrop _ _ | .rteSkip _ => if e.trapActive then none else some (.illegalOp 9)
    | _ => none

/-- The decode checks of R78, in its order: the first that fails. Checks 2 to 5 do not apply to a bound opcode, whose own
checks are those of R314. -/
def Instr.check (e : Env) (i : Instr) : Option DTrap :=
  match i with
  | .boundOpcode _ k _ _ _ _ _ => if e.control || !e.bound.getLsbD k.val then some (.quireUnbound k.val) else none
  | .pairedWord _ x y => pairCheck e x y
  | .unassignedOpcode _ => some (.illegalOp 1)
  | i => match i.form with
    | some f => formCheck e i f
    | none => none

end Sys2Proof
end

