-- ==== Sys2Proof/Machine/Numeric.lean ====
section
/-!
DEFINITION. Machine/Numeric.lean: exact values, the number formats, and the one rounding from an exact value into a format
(R43 to R58, R61). Arithmetic elsewhere computes exactly on `Val` and narrows here.
-/
namespace Sys2Proof.Machine

/-- An exact value: a NaN (signalling or quiet), an infinity, or (−1)^neg · m · 2^e. -/
inductive Val where
  | nan (sig : Bool)
  | inf (neg : Bool)
  | fin (neg : Bool) (m : Nat) (e : Int)
  deriving DecidableEq, Repr

/-- IEEE exception flags, as FP_FLAGS holds them (R60): [4] NX, [3] UF, [2] OF, [1] DZ, [0] NV. -/
abbrev FFlags := BitVec 5

def flagNX : FFlags := 16#5
def flagUF : FFlags := 8#5
def flagOF : FFlags := 4#5
def flagDZ : FFlags := 2#5
def flagNV : FFlags := 1#5

/-- A rounding mode in force: `sr` with the 32-bit draw of its generator (R61). -/
inductive Mode where
  | rne | rtz | rdn | rup | rna
  | sr (r : Nat)
  deriving DecidableEq, Repr

/-- A floating-point format. Magnitudes are coded in rising order: code c of magnitude `(2^(p-1) + t) · 2^(qmin + e - 1)` is
`e · 2^(p-1) + t`, and `t · 2^qmin` where e is 0 (R45, R47, R51). -/
structure FFmt where
  w : Nat
  p : Nat
  qmin : Int
  maxCode : Nat
  infCode : Option Nat
  nanCode : Option Nat
  signed : Bool
  negZero : Bool
  ieee : Bool
  deriving DecidableEq, Repr

/-- A format: floating-point, two's complement of a width (R52), or the scale format E8M0 (R53). -/
inductive Fmt where
  | flt (f : FFmt)
  | int (w : Nat)
  | e8m0
  deriving DecidableEq, Repr

def fp32 : FFmt := ⟨32, 24, -149, 0x7F7FFFFF, some 0x7F800000, some 0x7FC00000, true, true, true⟩
def fp16 : FFmt := ⟨16, 11, -24, 0x7BFF, some 0x7C00, some 0x7E00, true, true, true⟩
def bf16 : FFmt := ⟨16, 8, -133, 0x7F7F, some 0x7F80, some 0x7FC0, true, true, true⟩
def e2m1 : FFmt := ⟨4, 2, -1, 7, none, none, true, true, false⟩

/-- The binary8 family (R47): precision, signedness and infinity option. -/
def binary8 (p : Nat) (signed inf : Bool) : FFmt :=
  let bias : Int := if signed then 2 ^ (7 - p) else 2 ^ (8 - p)
  let top := if signed then 0x7F else 0xFE
  ⟨8, p, 1 - bias - (p - 1), if inf then top - 1 else top, if inf then some top else none,
    some (if signed then 0x80 else 0xFF), signed, false, false⟩

/-- The format of a code (R43); reserved codes are refused before they reach this. -/
def fmtOf (c : FmtCode) : Fmt :=
  match c.toNat with
  | 0 => .flt fp32 | 1 => .flt fp16 | 2 => .flt bf16 | 3 => .int 32 | 4 => .int 8 | 5 => .int 4 | 6 => .flt e2m1
  | 7 => .e8m0
  | n => .flt (binary8 (n % 8) (decide (n / 16 % 2 = 0)) (decide (n / 8 % 2 = 1)))

def fmtOfTy : FTy → FFmt
  | .f32 => fp32 | .f16 => fp16 | .bf16 => bf16

/-- The magnitude with code `c`: value `m · 2^e`. -/
def magOf (f : FFmt) (c : Nat) : Nat × Int :=
  let b := 2 ^ (f.p - 1)
  if c / b = 0 then (c % b, f.qmin) else (b + c % b, f.qmin + (c / b : Nat) - 1)

/-- The value of a floating-point code (R45, R47, R51). -/
def decodeF (f : FFmt) (x : Nat) : Val :=
  let neg := f.signed && decide (2 ^ (f.w - 1) ≤ x)
  let c := if f.signed then x % 2 ^ (f.w - 1) else x
  let v := Val.fin neg (magOf f c).1 (magOf f c).2
  if f.ieee then
    match f.infCode with
    | some i => if c = i then .inf neg else if i < c then .nan (decide (c < i + 2 ^ (f.p - 2))) else v
    | none => v
  else if f.nanCode = some x then .nan false
  else if f.infCode = some c then .inf neg
  else v

/-- Two's complement of width `w`. -/
def decodeI (w x : Nat) : Int := if x < 2 ^ (w - 1) then x else (x : Int) - 2 ^ w

def Val.ofInt (i : Int) : Val := .fin (decide (i < 0)) i.natAbs 0

/-- The value of a code in a format (R45, R47, R51 to R53). -/
def decodeVal (f : Fmt) (x : Nat) : Val :=
  match f with
  | .flt f => decodeF f x
  | .int w => .ofInt (decodeI w x)
  | .e8m0 => if x = 0xFF then .nan false else .fin false 1 ((x : Int) - 127)

/-! ### Rounding -/

/-- Whether a magnitude is moved up, from what was cut off: `rem` of `2^sh` (R56, R61). -/
def roundUp (md : Mode) (neg odd : Bool) (rem sh : Nat) : Bool :=
  match md with
  | .rne => decide (2 ^ sh < 2 * rem) || (decide (2 ^ sh = 2 * rem) && odd)
  | .rna => decide (2 ^ sh ≤ 2 * rem)
  | .rtz => false
  | .rdn => neg && decide (rem ≠ 0)
  | .rup => !neg && decide (rem ≠ 0)
  | .sr r => decide (r < rem * 2 ^ 32 / 2 ^ sh)

def oddNum (n : Nat) : Bool := decide (n % 2 = 1)

/-- `m · 2^e` to a whole number of `2^q`: the number and whether it is inexact. A value far below the quantum is cut to one
bit that is smaller than any threshold a mode compares with. `odd` tells which numbers a tie moves up. -/
def quantise (md : Mode) (neg : Bool) (m : Nat) (e q : Int) (odd : Nat → Bool) : Nat × Bool :=
  if q ≤ e then (m * 2 ^ (e - q).toNat, false)
  else
    let sh0 := (q - e).toNat
    let far := decide (Nat.log2 m + 40 < sh0)
    let sh := if far then 40 else sh0
    let m := if far then (if m = 0 then 0 else 1) else m
    let n := m / 2 ^ sh
    let rem := m % 2 ^ sh
    (if roundUp md neg (odd n) rem sh then n + 1 else n, decide (rem ≠ 0))

/-- The outcome of rounding a finite magnitude into a format, before overflow: its code, inexact, and tiny after rounding. -/
structure Rounded where
  code : Nat
  inexact : Bool
  tiny : Bool
  deriving DecidableEq, Repr

/-- Whether RNE moves a tie above the number `n` up: to the even significand. With P = 1 both significands beside a tie are 1,
but for one that is 0, and the specification names neither: a free value (log entry 83). -/
def tieUp (f : FFmt) (neg : Bool) (code n : Nat) : Bool :=
  if f.p = 1 then decide (n ≠ 0) && Config.tieUp f.maxCode neg code else oddNum n

/-- Rounds `m · 2^e` to the precision and least exponent of `f`, as if the range above were unbounded (R56). -/
def roundMag (f : FFmt) (md : Mode) (neg : Bool) (m : Nat) (e : Int) : Rounded :=
  if m = 0 then ⟨0, false, false⟩
  else
    let top : Int := (Nat.log2 m : Int) + e
    let q0 := top - (f.p - 1)
    let q := if f.qmin ≤ q0 then q0 else f.qmin
    let base := (q - f.qmin).toNat * 2 ^ (f.p - 1)
    let r := quantise md neg m e q (fun n => tieUp f neg (base + n) n)
    let emin := f.qmin + (f.p - 1)
    let free := quantise md neg m e q0 (tieUp f neg 0)
    ⟨base + r.1, r.2, decide (top < emin ∧ ¬ (top = emin - 1 ∧ free.1 = 2 ^ f.p))⟩

/-- Places a magnitude code under its sign. A format with no negative zero writes plain zero (R47, R58). -/
def signCode (f : FFmt) (neg : Bool) (c : Nat) : Nat :=
  if neg && f.signed && (f.negZero || decide (c ≠ 0)) then 2 ^ (f.w - 1) + c else c

def nanOf (f : FFmt) : Nat := f.nanCode.getD 0

/-- Overflow goes to infinity under this mode (R57). -/
def overInf (md : Mode) (neg : Bool) : Bool :=
  match md with
  | .rne | .rna | .sr _ => true
  | .rtz => false
  | .rdn => neg
  | .rup => !neg

/-- Rounds an exact value into a floating-point format (R56 to R58): the code and the flags. `sat` is the saturation
modifier; `ftz` flushes a subnormal FP32, FP16 or BF16 result (R59). Of the two rows of R58 that −∞ into an unsigned format
with infinity meets, the one of a negative result is taken (log entry 95). -/
def roundF (f : FFmt) (md : Mode) (sat ftz : Bool) (v : Val) : Nat × FFlags :=
  match v with
  | .nan sig =>
    match f.nanCode with
    | some n => (n, if sig then flagNV else 0)
    | none => (0, flagNV)
  | .inf neg =>
    match f.infCode with
    | some i =>
      if neg && !f.signed then (nanOf f, flagNV)
      else if sat then (signCode f neg f.maxCode, flagNX) else (signCode f neg i, 0)
    | none =>
      match f.nanCode with
      | some n => (n, flagNV)
      | none => (signCode f neg f.maxCode, flagNV)
  | .fin neg m e =>
    let r := roundMag f md neg m e
    if neg && !f.signed && decide (m ≠ 0) then
      if r.code = 0 then (0, flagNX ||| flagUF) else (nanOf f, flagNV)
    else if f.maxCode < r.code then
      match f.infCode with
      | some i => (signCode f neg (if sat || !overInf md neg then f.maxCode else i), flagOF ||| flagNX)
      | none => (signCode f neg f.maxCode, flagOF ||| flagNX)
    else if ftz && f.ieee && decide (r.code ≠ 0 ∧ r.code < 2 ^ (f.p - 1)) then
      (signCode f neg 0, flagUF ||| flagNX)
    else
      (signCode f neg r.code,
        (if r.inexact then flagNX else 0) ||| (if r.inexact && r.tiny then flagUF else 0))

/-- Rounds an exact value into a two's-complement format (R57, R58). -/
def roundI (w : Nat) (md : Mode) (v : Val) : Nat × FFlags :=
  let lo : Int := -2 ^ (w - 1)
  let hi : Int := 2 ^ (w - 1) - 1
  let put (i : Int) : Nat := (i % 2 ^ w).toNat
  match v with
  | .nan _ => (0, flagNV)
  | .inf neg => (put (if neg then lo else hi), flagNV)
  | .fin neg m e =>
    -- a magnitude of 2^64 or more is beyond every range, so its digits need not be formed
    if decide (m ≠ 0) && decide (64 ≤ (Nat.log2 m : Int) + e) then (put (if neg then lo else hi), flagNV)
    else
      let r := quantise md neg m e 0 oddNum
      let i : Int := if neg then -(r.1 : Int) else r.1
      if i < lo then (put lo, flagNV) else if hi < i then (put hi, flagNV)
      else (put i, if r.2 then flagNX else 0)

/-- Conversion of an exact value into any format (R58). E8M0 is no destination (R53). -/
def convert (f : Fmt) (md : Mode) (sat ftz : Bool) (v : Val) : Nat × FFlags :=
  match f with
  | .flt f => roundF f md sat ftz v
  | .int w => roundI w md v
  | .e8m0 => (0, 0)

/-! ### Exact arithmetic -/

def Val.isNan : Val → Bool
  | .nan _ => true
  | _ => false

def Val.sigNan : Val → Bool
  | .nan s => s
  | _ => false

def Val.neg : Val → Val
  | .nan s => .nan s
  | .inf n => .inf (!n)
  | .fin n m e => .fin (!n) m e

def Val.isZero : Val → Bool
  | .fin _ m _ => decide (m = 0)
  | _ => false

/-- The value as a whole number of `2^e`. -/
def scaled (neg : Bool) (m : Nat) (d : Nat) : Int := if neg then -((m * 2 ^ d : Nat) : Int) else ((m * 2 ^ d : Nat) : Int)

/-- NV for a signalling operand (R46). -/
def nvIf (b : Bool) : FFlags := if b then flagNV else 0

/-- Exact sum; an exact zero of operands that differ is +0, or −0 when rounding down (R143). -/
def addV (rdn : Bool) (x y : Val) : Val × FFlags :=
  match x, y with
  | .nan a, y => (.nan false, nvIf (a || y.sigNan))
  | _, .nan b => (.nan false, nvIf b)
  | .inf a, .inf b => if a = b then (.inf a, 0) else (.nan false, flagNV)
  | .inf a, _ => (.inf a, 0)
  | _, .inf b => (.inf b, 0)
  | .fin a m e, .fin b n k =>
    if m = 0 ∧ n = 0 then (.fin (if a = b then a else rdn) 0 0, 0)
    else
      let q := if e ≤ k then e else k
      let s := scaled a m (e - q).toNat + scaled b n (k - q).toNat
      (.fin (if s = 0 then rdn else decide (s < 0)) s.natAbs q, 0)

/-- Exact product (R143). -/
def mulV (x y : Val) : Val × FFlags :=
  match x, y with
  | .nan a, y => (.nan false, nvIf (a || y.sigNan))
  | _, .nan b => (.nan false, nvIf b)
  | .inf a, .inf b => (.inf (a != b), 0)
  | .inf a, .fin b n _ => if n = 0 then (.nan false, flagNV) else (.inf (a != b), 0)
  | .fin a m _, .inf b => if m = 0 then (.nan false, flagNV) else (.inf (a != b), 0)
  | .fin a m e, .fin b n k => (.fin (a != b) (m * n) (e + k), 0)

/-- Exact `x · y + z`: 0 · ∞ is invalid even when z is a quiet NaN (R143). -/
def fmaV (rdn : Bool) (x y z : Val) : Val × FFlags :=
  let p := mulV x y
  let s := addV rdn p.1 z
  (s.1, p.2 ||| s.2)

/-- Order of two values that are no NaN; −0 equals +0. -/
def cmpV (x y : Val) : Ordering :=
  match x, y with
  | .inf a, .inf b => if a = b then .eq else if a then .lt else .gt
  | .inf a, _ => if a then .lt else .gt
  | _, .inf b => if b then .gt else .lt
  | .fin a m e, .fin b n k =>
    let q := if e ≤ k then e else k
    compare (scaled a m (e - q).toNat) (scaled b n (k - q).toNat)
  | _, _ => .eq

/-- Floor of log2 of a magnitude that is not zero. -/
def magTop (m : Nat) (e : Int) : Int := (Nat.log2 m : Int) + e

/-- The block scale of R55 for values already read, under the format whose largest exponent is `emax`; the flag is NV where
a value is a NaN or an infinity. -/
def blockScale (emax : Int) (xs : List Val) : Nat × FFlags :=
  if xs.any (fun v => match v with | .fin _ _ _ => false | _ => true) then (0xFF, flagNV)
  else
    let tops := xs.filterMap (fun v => match v with | .fin _ m e => if m = 0 then none else some (magTop m e) | _ => none)
    match tops with
    | [] => (0, 0)
    | t :: ts =>
      let q := ts.foldl max t - emax + 127
      ((if q < 0 then 0 else if 254 < q then 254 else q).toNat, 0)

/-- Emax of an element format (R55). -/
def emaxOf (f : Fmt) : Int :=
  match f with
  | .flt f => magTop (magOf f f.maxCode).1 (magOf f f.maxCode).2
  | .int w => (w : Int) - 2
  | .e8m0 => 0

/-- One step of a stochastic generator (R61). -/
def srStep (x : BitVec 32) : BitVec 32 :=
  let x := x ^^^ (x <<< 13)
  let x := x ^^^ (x >>> 17)
  x ^^^ (x <<< 5)

/-- The seed of generator `l` of slot `g` (R61). -/
def srSeed (seed : BitVec 32) (g l : Nat) : BitVec 32 :=
  let x := seed ^^^ BitVec.ofNat 32 (0x9E3779B9 * (96 * g + l + 1))
  if x = 0 then 1 else x

/-! ### Square roots, and the special functions by enclosure (R150) -/

/-- Floor of the square root, by digits from the top: `b` bits are left to try. -/
def isqrtGo (x : Nat) : Nat → Nat → Nat
  | 0, r => r
  | b + 1, r => let t := r + 2 ^ b; isqrtGo x b (if t * t ≤ x then t else r)

def isqrt (x : Nat) : Nat := isqrtGo x (Nat.log2 x / 2 + 1) 0

/-- The square root of a positive magnitude, cut with one sticky bit below 60 digits: enough for a correct rounding. -/
def sqrtV (m : Nat) (e : Int) : Val :=
  -- an even exponent, and at least 120 bits under the root
  let k : Nat := 120 + (if (e - 120) % 2 = 0 then 0 else 1)
  let x := m * 2 ^ k
  let r := isqrt x
  .fin false (2 * r + (if r * r = x then 0 else 1)) ((e - k) / 2 - 1)

/-- Fixed point of the enclosures: 2^-256. -/
def fixN : Nat := 256
def fixOne : Nat := 2 ^ fixN
/-- Floor of π · 2^256 and of ln 2 · 2^256. -/
def fixPi : Nat := 363771576891766324280234942777729862653393377328392429958772151117938894466185
def fixLn2 : Nat := 80260960185991308862233904206310070533990667611589946606122867505419956976171

/-- Sum of a power series whose next term is `t · x / (k · (k + 1))^...` given by `step`: `fuel` terms. -/
def seriesGo (step : Nat → Int → Int) : Nat → Nat → Int → Int → Int
  | 0, _, _, acc => acc
  | n + 1, k, t, acc => let t' := step k t; seriesGo step n (k + 1) t' (acc + t')

/-- exp of y · 2^-256 for y below 1. -/
def fixExp (y : Nat) : Nat :=
  (seriesGo (fun k t => t * y / fixOne / ((k : Int) + 1)) 90 0 fixOne fixOne).toNat

/-- sin of y · 2^-256 for y below 2. -/
def fixSin (y : Nat) : Nat :=
  let y2 := y * y / fixOne
  (seriesGo (fun k t => -(t * y2 / fixOne / ((2 * (k : Int) + 2) * (2 * k + 3)))) 60 0 y y).toNat

/-- 2 · atanh z = ln((1 + z) / (1 − z)), for z below 1/3. -/
def fixAtanh2 (z : Nat) : Nat :=
  let z2 := z * z / fixOne
  ((List.range 100).foldl (fun (p : Nat × Nat) k => (p.1 + 2 * (p.2 / (2 * k + 1)), p.2 * z2 / fixOne)) (0, z)).1

/-- Slack of an enclosure, in units of 2^-256: far above the sum of the cuts made. -/
def fixSlack : Nat := 2 ^ 24

/-- A real in FP32's order of values: rising integers for rising values, −0 just below +0. -/
def ordOf (c : Nat) : Int := if c < 2 ^ 31 then c else -((c - 2 ^ 31 : Nat) : Int) - 1
def ofOrd (i : Int) : Nat := if 0 ≤ i then i.toNat else 2 ^ 31 + (-i - 1).toNat

/-- The greatest FP32 value not above a real `n · 2^-256`, and the least not below it, in that order; infinities are never
given. -/
def fpFloor (n : Int) : Int :=
  let r := roundMag fp32 .rdn (decide (n < 0)) n.natAbs (-fixN)
  ordOf (signCode fp32 (decide (n < 0)) (min r.code fp32.maxCode))
def fpCeil (n : Int) : Int :=
  let r := roundMag fp32 .rup (decide (n < 0)) n.natAbs (-fixN)
  ordOf (signCode fp32 (decide (n < 0)) (min r.code fp32.maxCode))

/-- The special functions (R150). -/
inductive SFn where
  | rcp | rsq | exp2 | log2 | sin | cos | tanh
  deriving DecidableEq, Repr

/-- The error bound of a result: a number of units in the last place, or 2^-22 absolute (R150). -/
inductive Bound where
  | ulp (n : Nat)
  | abs22
  deriving DecidableEq, Repr

/-- What a special function gives for a finite operand that is not a special value: an exact case, or an enclosure of the
exact result in units of 2^-256 (scaled by 2^k) with its bound. -/
inductive SRes where
  | exact (v : Val)
  | near (lo hi : Int) (b : Bound)
  deriving DecidableEq, Repr

/-- A magnitude in units of 2^-256. -/
def toFix (m : Nat) (e : Int) : Nat :=
  let d := e + fixN
  if 0 ≤ d then m * 2 ^ d.toNat else m / 2 ^ (-d).toNat

/-- Whether m · 2^e is a power of two, and which. -/
def pow2? (m : Nat) (e : Int) : Option Int :=
  if m ≠ 0 ∧ m = 2 ^ Nat.log2 m then some ((Nat.log2 m : Int) + e) else none

/-- sin(π r) for r = n / 2^k of a half-turn, n below 2^k · 2: its sign and magnitude in units of 2^-256. -/
def sinTurn (n k : Nat) : Bool × Nat :=
  let one := 2 ^ k
  let neg := decide (one ≤ n)
  let r := n % one
  let r := if one < 2 * r then one - r else r
  (neg, fixSin (fixPi * r / one))

/-- The special function of a positive finite `m · 2^e` (for `exp2` and `sin` of its negative too, by `neg`). -/
def specialEval (f : SFn) (neg : Bool) (m : Nat) (e : Int) : SRes :=
  match f with
  | .rcp =>
    match pow2? m e with
    | some k => .exact (.fin neg 1 (-k))
    | none =>
      -- 1/x within 2^-256 would lose small results: scale by the top of x
      let t := Nat.log2 m
      let q := 2 ^ (fixN + t) / m
      .near q (q + 1) (.ulp 1)
  | .rsq =>
    match pow2? m e with
    | some k => if k % 2 = 0 then .exact (.fin false 1 (-(k / 2))) else
      let q := isqrt (2 ^ (2 * fixN - 1)); .near q (q + 1) (.ulp 2)
    | none =>
      let t := Nat.log2 m
      -- m · 2^e = y · 2^(2j), y in [1, 4)
      let odd := (((t : Int) + e) % 2 = 1)
      let q := if odd then isqrt (2 ^ (2 * fixN + t) / (2 * m)) else isqrt (2 ^ (2 * fixN + t) / m)
      .near q (q + 1) (.ulp 2)
  | .exp2 =>
    let x : Int := if neg then -(toFix m e : Int) else toFix m e
    let f := (x % fixOne).toNat
    if f = 0 ∧ -149 ≤ x / fixOne then .exact (.fin false 1 (x / fixOne))
    else
      let y := fixExp (f * fixLn2 / fixOne)
      .near ((y : Int) - fixSlack) ((y : Int) + fixSlack) (.ulp 2)
  | .log2 =>
    match pow2? m e with
    | some k => .exact (.ofInt k)
    | none =>
      let t := Nat.log2 m
      let mm := m * fixOne / 2 ^ t
      let z := (mm - fixOne) * fixOne / (mm + fixOne)
      let l := fixAtanh2 z * fixOne / fixLn2
      let y : Int := ((t : Int) + e) * fixOne + l
      let top := (t : Int) + e
      .near (y - fixSlack) (y + fixSlack) (if top = -1 ∨ top = 0 then .abs22 else .ulp 2)
  | .sin =>
    if 0 ≤ e + 1 then
      -- a multiple of one half: e is −1 or more
      let h := m * 2 ^ (e + 1).toNat % 4
      .exact (if h = 1 then .fin neg 1 0 else if h = 3 then .fin (!neg) 1 0 else .fin neg 0 0)
    else
      let k := (-e).toNat
      let (s, y) := sinTurn (m % 2 ^ (k + 1)) k
      let v : Int := if s != neg then -(y : Int) else y
      .near (v - fixSlack) (v + fixSlack) .abs22
  | .cos =>
    if 0 ≤ e + 1 then
      let h := m * 2 ^ (e + 1).toNat % 4
      .exact (if h = 0 then .fin false 1 0 else if h = 2 then .fin true 1 0 else .fin false 0 0)
    else
      let k := (-e).toNat
      let (s, y) := sinTurn ((m + 2 ^ (k - 1)) % 2 ^ (k + 1)) k
      let v : Int := if s then -(y : Int) else y
      .near (v - fixSlack) (v + fixSlack) .abs22
  | .tanh =>
    if (10 : Int) * 2 ^ fixN ≤ toFix m e then .exact (.fin neg 1 0)
    else
      let x := toFix m e
      -- tanh x = 1 − 2 / (exp(2x) + 1), with exp(2x) = exp(x / 16)^32
      let g := fixExp (x / 16)
      let ex := (List.range 5).foldl (fun g _ => g * g / fixOne) g
      let y : Int := (fixOne : Int) - 2 * fixOne * fixOne / (ex + fixOne)
      let cut : Int := 2 ^ 80
      -- tanh x lies below x, and above x − x³/3
      let lo := max (y - cut) ((x : Int) - x * x / fixOne * x / fixOne / 3 - 1)
      let hi := min (y + cut) x
      let b : Bound := if 16 * x ≤ fixOne then .ulp 2 else .abs22
      .near lo hi b

/-- The power of two by which the enclosure of `specialEval` is to be scaled. -/
def specialScale (f : SFn) (neg : Bool) (m : Nat) (e : Int) : Int :=
  match f with
  | .rcp => -((Nat.log2 m : Int) + e)
  | .rsq =>
    match pow2? m e with
    | some k => -((k - 1) / 2)
    | none => -(((Nat.log2 m : Int) + e) / 2)
  | .exp2 => (if neg then -(toFix m e : Int) else toFix m e) / fixOne
  | _ => 0

/-- The exponent of the distance from an FP32 magnitude code to the next (R150): 2^-149 in the subnormal range. -/
def ulpExp (c : Nat) : Int := if c < 2 ^ 23 then -149 else ((c / 2 ^ 23 : Nat) : Int) - 150

/-- The FP32 values that a bound allows, as an interval of the FP32 order: those within `n` units of last place, the distance
between the two values that bracket the exact result, or within 2^-22. -/
def boundOf (lo hi k : Int) (b : Bound) : Int × Int :=
  let down (n : Int) : Int :=
    let r := roundMag fp32 .rdn (decide (n < 0)) n.natAbs (k - fixN)
    ordOf (signCode fp32 (decide (n < 0)) (min r.code fp32.maxCode))
  let up (n : Int) : Int :=
    let r := roundMag fp32 .rup (decide (n < 0)) n.natAbs (k - fixN)
    ordOf (signCode fp32 (decide (n < 0)) (min r.code fp32.maxCode))
  match b with
  | .ulp n =>
    let w : Int := 2 ^ (ulpExp (min (ofOrd (down lo) % 2 ^ 31) (ofOrd (up hi) % 2 ^ 31)) - (k - fixN)).toNat * n
    (up (hi - w), down (lo + w))
  | .abs22 => (fpCeil (hi - 2 ^ (fixN - 22)), fpFloor (lo + 2 ^ (fixN - 22)))

/-- Cuts a free number to an interval. -/
def specialPick (raw : Nat) (lo hi : Int) : Int := if hi < lo then lo else lo + ((raw % (hi - lo + 1).toNat : Nat) : Int)

/-- Takes factors of two out of a magnitude. -/
def stripGo : Nat → Nat → Int → Nat × Int
  | 0, m, e => (m, e)
  | n + 1, m, e => if m % 2 = 0 ∧ m ≠ 0 then stripGo n (m / 2) (e + 1) else (m, e)

/-- The special values of R151; none where the function is evaluated. `x` is the operand as read, no NaN. -/
def specialCase (f : SFn) (x : Val) : Option (Val × FFlags) :=
  match f, x with
  | _, .nan s => some (.nan false, nvIf s)
  | .rcp, .fin n 0 _ => some (.inf n, flagDZ)
  | .rcp, .inf n => some (.fin n 0 0, 0)
  | .rsq, .fin n 0 _ => some (.inf n, flagDZ)
  | .rsq, .inf n => some (if n then (.nan false, flagNV) else (.fin false 0 0, 0))
  | .rsq, .fin true _ _ => some (.nan false, flagNV)
  | .exp2, .fin _ 0 _ => some (.fin false 1 0, 0)
  | .exp2, .inf n => some (if n then .fin false 0 0 else .inf false, 0)
  | .log2, .fin _ 0 _ => some (.inf true, flagDZ)
  | .log2, .inf n => some (if n then (.nan false, flagNV) else (.inf false, 0))
  | .log2, .fin true _ _ => some (.nan false, flagNV)
  | .sin, .fin n 0 _ => some (.fin n 0 0, 0)
  | .sin, .inf _ => some (.nan false, flagNV)
  | .cos, .fin _ 0 _ => some (.fin false 1 0, 0)
  | .cos, .inf _ => some (.nan false, flagNV)
  | .tanh, .fin n 0 _ => some (.fin n 0 0, 0)
  | .tanh, .inf n => some (.fin n 1 0, 0)
  | _, _ => none

/-- The number by which the free choice of a special function is keyed. -/
def SFn.key : SFn → Nat
  | .rcp => 0x50 | .rsq => 0x51 | .exp2 => 0x53 | .log2 => 0x54 | .sin => 0x55 | .cos => 0x56 | .tanh => 0x57

/-- A special function on the FP32 code `c` whose value as read is `x` (R150, R151): the FP32 result and the flags. The value
is fixed at the special values and the exact cases; elsewhere it is the free choice within the bound; an `frcp` that overflows
rounds to the nearest (log entry 12). `fsin` and `ftanh` are odd and `fcos` is even in every bit. -/
def specialF (f : SFn) (sat ftz : Bool) (c : Nat) (x : Val) : Nat × FFlags :=
  match specialCase f x with
  | some (v, fl) =>
    let r := roundF fp32 .rne sat ftz v
    (r.1, r.2 ||| fl)
  | none =>
    match x with
    | .fin neg m0 e0 =>
      let (m, e) := stripGo 64 m0 e0
      let top := magTop m e
      if f = .exp2 ∧ neg = false ∧ 7 ≤ top then
        -- x is 128 or more (R151)
        roundF fp32 .rne sat ftz (.fin false 1 128)
      else if f = .exp2 ∧ neg ∧ 150 * fixOne < toFix m e then (0, flagUF ||| flagNX)
      else
        let odd := decide (f = .sin ∨ f = .tanh)
        let even := decide (f = .cos)
        let n' := if odd || even || decide (f = .rcp) then false else neg
        let back := neg && (odd || decide (f = .rcp))
        match specialEval f n' m e with
        | .exact v =>
          let v := if back then v.neg else v
          roundF fp32 .rne sat ftz v
        | .near lo hi b =>
          -- a reciprocal beyond 2^128 overflows (R57)
          if f = .rcp ∧ 129 ≤ specialScale f n' m e then roundF fp32 .rne sat ftz (.fin back 1 128) else
          let iv := boundOf lo hi (specialScale f n' m e) b
          let raw := Config.specialRaw f.key (BitVec.ofNat 32 (if odd || even then c % 2 ^ 31 else c))
          let lo' := if decide (f = .sin ∨ f = .cos ∨ f = .log2) then iv.1 else max 0 iv.1
          let o := ofOrd (specialPick raw lo' iv.2)
          let o := if back then (if o < 2 ^ 31 then o + 2 ^ 31 else o - 2 ^ 31) else o
          let r := roundF fp32 .rne sat ftz (decodeF fp32 o)
          (r.1, r.2 ||| flagNX ||| (if o % 2 ^ 31 < 2 ^ 23 then flagUF else 0))
    | _ => (0, 0)

/-- `fsqrt` (R150, R151): correctly rounded. -/
def sqrtF (md : Mode) (sat ftz : Bool) (x : Val) : Nat × FFlags :=
  match x with
  | .nan s => (nanOf fp32, nvIf s)
  | .inf n => if n then (nanOf fp32, flagNV) else roundF fp32 md sat ftz (.inf false)
  | .fin n m e =>
    if m = 0 then roundF fp32 md sat ftz (.fin n 0 0)
    else if n then (nanOf fp32, flagNV)
    else roundF fp32 md sat ftz (sqrtV m e)

end Sys2Proof.Machine
end

