-- ==== Sys2Proof/Machine/GroupState.lean ====
section
/-!
DEFINITION. Machine/GroupState.lean: what a group of 96 lanes holds: its registers, its path and divergence stack, its
floating-point, trap and suspension state, its operand logs and its Quire invocation (R17, R35, R89, R93, R195, R325).
-/
namespace Sys2Proof.Machine

/-- A word address: the program counter counts words (R65); addresses wrap at 2^54 (R127). -/
abbrev PC := BitVec 54

/-- Kinds of divergence-stack entry (R35). -/
inductive EKind where
  | rejoin | path
  deriving DecidableEq, Repr

/-- A divergence-stack entry (R35). `link` names an entry by its place from the bottom. `fresh` marks a path pushed in the run
in progress: the next ageing step leaves it out (R38). -/
structure Entry where
  kind : EKind
  addr : PC
  mask : Mask
  link : Option Nat
  age : BitVec 16
  fresh : Bool
  deriving DecidableEq, Repr

/-- The path a group runs and what waits behind it (R23, R24, R30, R35, R93, R188). -/
structure Flow where
  pc : PC
  run : Nat
  mask : Mask
  exited : Mask
  deferred : Mask
  region : Option Nat
  stack : List Entry
  deriving DecidableEq, Repr

/-- The register files of a group (R89): `full` bit n is vn, bit 128 + n is sn (R32); `pend` names, for a register that is
empty, the producer that governs it (R34). s61 to s63 are the mask and are held in `Flow`. -/
structure Regs where
  v : Tab (Tab Lane32)
  s : Tab Word
  p : Tab Mask
  c : Tab Lane32
  full : BitVec 192
  pend : Tab Nat
  deriving DecidableEq, Repr

/-- Floating-point control, flags, seed and generators (R59 to R61), and the miter registers (R177). -/
structure FpState where
  ctl : BitVec 5
  flags : BitVec 5
  seed : BitVec 32
  gens : Tab (BitVec 32)
  mgens : Tab (BitVec 32)
  miterState : Word
  miterCap : BitVec 16
  miterTol : BitVec 32
  deriving DecidableEq, Repr

/-- Trap registers and the saved resume state (R97, R195). -/
structure TrapState where
  cause : BitVec 7
  pc : PC
  addr : Word
  info : Word
  lanes : Mask
  active : Bool
  resumePC : PC
  resumeMask : Mask
  resumeRegion : Option Nat
  resumeRun : Nat
  supSaved : Bool
  entryDepth : Nat
  resumeKept : Bool := false
  deriving DecidableEq, Repr

/-- A deferred record (R188); `taken` marks one that a deferred trap has reported. -/
structure DefRec where
  lane : Nat
  cause : Nat
  detail : Nat
  addr : Word
  pc : PC
  taken : Bool
  deriving DecidableEq, Repr

/-- A trap that is due at a boundary to come: an end-of-word trap, or one kept behind another; `held` marks one that was due
when another was taken (R437), `next` one whose TRAP_PC names the word at the boundary (R417). -/
structure PendTrap where
  cause : Nat
  pc : PC
  addr : Word
  info : Word
  lanes : Mask
  held : Bool := false
  next : Bool := false
  deriving DecidableEq, Repr

/-- A path of the consistency model (R231). -/
inductive Path where
  | ls | cp | mx | ga | fb
  deriving DecidableEq, Repr

def Path.all : List Path := [.ls, .cp, .mx, .ga, .fb]

/-- What an access does at its place. -/
inductive AccOp where
  | load
  | store
  | atomic (op : AOp) (ty : ITy) (ret : Bool)
  | ldtag
  | sttag
  | cwb
  deriving DecidableEq, Repr

/-- Consistency order of an access: weak, strong, acquire, release, both, or the total order of `.sq` (R232). -/
inductive AccOrd where
  | weak | strong | acq | rel | acqrel | sq
  deriving DecidableEq, Repr

/-- Segments as an access names them (R221, R256). -/
abbrev AccSeg := Seg

/-- One piece of a lane's access of a memory word (R222, R259, R264): where, what, with what data. `off` is its place in the
lane's value; `bmask` marks the bytes a store writes (R253). -/
structure Acc where
  lane : Nat
  off : Nat
  va : Word
  op : AccOp
  size : Nat
  data : BitVec 128
  cmp : Word
  bmask : BitVec 16
  deriving DecidableEq, Repr

/-- What the lanes of a memory word share: its group (with the team and grid that tell a group from a later one in its slot),
segment, order, scope, destination, and executing lanes. `seq` is its place among the accesses of its group; `engine` names the
engine command or matrix word that made the access, whose values go to it and not to registers; `tick` is that of its issue; `rr` the
mode of record and replay of its grid and its IDENT (R397); `fuse` the cores whose L1s its team's cluster fuses (R215). -/
structure WordInfo where
  tok : Nat
  grp : Nat
  team : Nat
  grid : Nat
  pc : PC
  seq : Nat
  seg : AccSeg
  ord : AccOrd
  scope : Scope
  signed : Bool
  dst : Operand
  sz : Nat
  once : Bool
  lanes : Mask
  path : Path
  engine : Option Nat
  tick : Nat
  rr : Nat × Nat := (0, 0)
  fuse : List Nat := []
  deriving DecidableEq, Repr

/-- An operand log: a word whose lanes wait for replay (R192), and the tick in which it was filled (R365). -/
structure OpLog where
  info : WordInfo
  accs : List Acc
  tick : Nat
  deriving DecidableEq, Repr

/-- Why a group issues nothing (R131 to R135, R40, R267, R282, R298, R327, R200). A barrier word's `arrived` is false until the
release that its arrival makes is performed; `parked` is the tick since when it waits for a replay. -/
inductive Susp where
  | none
  | sleep (deadline : Word)
  | bar (id : Nat) (n : Nat) (arrived : Bool)
  | cbar (arrived : Bool)
  | mbar (i : WordInfo) (va : Word) (n : Nat) (pa : Nat) (gen : BitVec 32) (arrived : Bool) (parked : Option Nat)
  | waitv (i : WordInfo) (va : Word) (cc : Cond) (cmp : Word) (deadline : Option Word) (acq : Option Scope) (parked : Option Nat)
  | ewait (tok : Word) (dst : Operand)
  | cpyw (tok : Word) (cont : PC)
  | vwait (dst : Operand) (v0 v1 v2 : Word) (deadline : Option Word) (pc : PC)
  | qload (left : List Nat) (ctx : Nat) (pc : PC)
  | replay (parked : Nat)
  deriving DecidableEq, Repr

/-- An outstanding fence (R268, R269): `each` orders every path by itself; `left` are the paths whose earlier accesses are not
all performed; `seq` tells those accesses from later ones. -/
structure Fence where
  id : Nat
  pc : PC
  scope : Scope
  each : Bool
  p1 : BitVec 5
  p2 : BitVec 5
  seq : Nat
  left : List Path
  lanes : Mask
  deriving DecidableEq, Repr

/-- A peer store that failed, kept for the next system-scope fence (R269, R301). -/
structure FailedStore where
  va : Word
  seq : Nat
  lane : Nat
  deriving DecidableEq, Repr

/-- A Quire invocation of a group (R315, R325). `latch` holds a vector's values by lane, or with `false` a uniform value at 0.
`bind` is the binding that its word read and `lanes` are its executing lanes E, both fixed when it began (R313, R314); while it
runs, `word` is the bound word and `touched` the sub-granules of R326. -/
structure QState where
  gen : BitVec 16
  blen : Nat
  mask : BitVec 8
  susp : Bool
  count : Nat
  opx : Nat
  active : Bool
  upc : Nat
  base : Nat
  addr : PC
  lc : Word
  latch : Option (Bool × Tab Word)
  qt : Tab (Tab Lane32)
  qq : Tab Word
  running : Bool
  word : Option Instr
  lanes : Mask
  touched : List Nat
  bind : Word := 0
  deriving DecidableEq, Repr

/-- The last engine commands of a group: token and how it ended (R282). -/
structure EngineMark where
  tok : Nat
  cause : Nat
  failed : Bool
  remain : Nat
  deriving DecidableEq, Repr

/-- Memory-side state of a group: operand logs, fences, failed peer stores, engine tokens, counts of accesses (R192, R269,
R276, R304). -/
structure GroupMem where
  logs : List OpLog
  fences : List Fence
  failed : List FailedStore
  seq : Nat
  engSeq : Nat
  marks : List EngineMark
  crc : Word
  privBase : Word
  deriving DecidableEq, Repr

/-- Scheduling state of a group: the tick it became eligible, whether it is halted, why it is
suspended, whether a pre-emption holds it, since when its fetch is parked (R358), the registers its next word waits for
(R33), and whether its last run end switched paths, the old one then on top of the stack (R38). -/
structure Sched where
  since : Word
  halted : Bool
  susp : Susp
  paused : Bool
  fetch : Option Nat
  need : List Nat
  switched : Bool := false
  kept : Bool := false
  lost : Nat × List Word := (0, [])
  deriving DecidableEq, Repr

/-- A resident group. -/
structure Group where
  core : Nat
  slot : Nat
  team : Nat
  idx : Nat
  ctx : Nat
  vregs : Nat
  sup : Bool
  port : Option Bool
  flow : Flow
  regs : Regs
  fp : FpState
  trap : TrapState
  defs : List DefRec
  pending : List PendTrap
  mem : GroupMem
  sched : Sched
  q : QState
  deriving DecidableEq, Repr

/-! ### Start values (R22, R59, R61, R97, R177, R325) -/

def allLanes : Mask := BitVec.allOnes 96

def QState.idle : QState :=
  { gen := 0, blen := 0, mask := 0, susp := false, count := 0, opx := 0, active := false, upc := 0, base := 0, addr := 0,
    lc := 0, latch := none, qt := [], qq := [], running := false, word := none, lanes := 0, touched := [] }

def TrapState.idle : TrapState :=
  { cause := 0, pc := 0, addr := 0, info := 0, lanes := 0, active := false, resumePC := 0, resumeMask := 0,
    resumeRegion := none, resumeRun := 0, supSaved := false, entryDepth := 0 }

/-- The generators of a slot under a seed (R61). -/
def seedGens (seed : BitVec 32) (slot : Nat) : Tab (BitVec 32) :=
  (List.range 96).map (fun l => (l, srSeed seed slot l))

def FpState.start (slot : Nat) : FpState :=
  { ctl := 0, flags := 0, seed := 0, gens := seedGens 0 slot, mgens := seedGens 0 slot, miterState := 0,
    miterCap := 0x10, miterTol := 0x37800000 }

/-- Registers of a group at team placement: s0 to s2 the team coordinates, s3 the parameter block, all else zero and full. -/
def Regs.start (x y z param : Word) : Regs :=
  { v := [], s := Tab.set 0 3 param (Tab.set 0 2 z (Tab.set 0 1 y (Tab.set 0 0 x []))), p := [], c := [],
    full := BitVec.allOnes 192, pend := [] }

def Flow.start (entry : PC) : Flow :=
  { pc := entry, run := 0, mask := allLanes, exited := 0, deferred := 0, region := none, stack := [] }

def GroupMem.start (privBase : Word) : GroupMem :=
  { logs := [], fences := [], failed := [], seq := 0, engSeq := 0, marks := [], crc := 0,
    privBase := privBase }

end Sys2Proof.Machine
end

