-- ==== Sys2Proof/Machine/MemState.lean ====
section
/-!
DEFINITION. Machine/MemState.lean: what the memory system holds: core-side caches and their leases, requests on their way to
the L2 slices, line and ownership state, translations, fault buffers, engine commands and matrix queues
(R206 to R228, R276, R357 to R366, R160).
-/
namespace Sys2Proof.Machine

/-- A sector of an L1: 32 bytes and the tick its lease ends (R211, R212). A lease that was dropped ends at 0. -/
structure Sector where
  data : List Byte
  expiry : Nat
  deriving DecidableEq, Repr

/-- A line of an instruction cache: 128 bytes and the tick its lease ends (R216). -/
structure ILine where
  data : List Byte
  expiry : Nat
  deriving DecidableEq, Repr

/-- A partition of a core's Quire store (R310, R311): the context whose image it holds and its micro-operations. -/
structure QPart where
  ctx : Option Nat
  ops : Tab (BitVec 128)
  since : Nat
  deriving DecidableEq, Repr

/-- An issue port (R27): the slot of the group whose run it executes; whether that group's next word waits at issue; the tick
the run began; whether a word of it has issued. -/
structure Port where
  slot : Option Nat
  waiting : Bool
  since : Nat
  used : Bool := false
  deriving DecidableEq, Repr

/-- A core: its two ports, its L1, its instruction cache and its Quire store (R13, R27, R206). The L1 and instruction cache
are keyed by sector and by line of the physical address. -/
structure Core where
  port0 : Port
  port1 : Port
  l1 : Tab Sector
  icache : Tab ILine
  quire : Tab QPart
  deriving DecidableEq, Repr

def Port.free : Port := { slot := none, waiting := false, since := 0 }

def Core.reset : Core := { port0 := .free, port1 := .free, l1 := [], icache := [], quire := [] }

/-- A team or cluster barrier (R133, R134): generation, arrived groups, the required count of the generation in progress. -/
structure Barrier where
  gen : BitVec 32
  arrived : List Nat
  need : Nat
  deriving DecidableEq, Repr

def Barrier.reset : Barrier := { gen := 0, arrived := [], need := 0 }

/-- A matrix word in a team's queue (R160), with the operands it read at issue. -/
inductive MxOp where
  | wbload (lsrc : Bool) (src : Word) (off len : Nat)
  | mma (m n : Nat) (clr : Bool) (d : Nat) (aTile : Option Nat) (aOff : Nat) (bTile : Option Nat) (bOff : Nat) (d0 d1 : Word)
  | aclr (d n : Nat)
  | acvt (d n : Nat) (f16 : Bool) (rm : RMode) (sat srci : Bool)
  | toVec (tile e0 : Nat) (regs : List Nat) (tok : Nat)
  | toTile (tile e0 : Nat) (vals : Tab Lane32) (n : Nat)
  | mpoly (m d off deg : Nat) (f16 : Bool) (coef : List Lane32)
  | miter (m x w off : Nat) (ns5 f16 : Bool) (coef : List Lane32) (cap : Nat) (tol : Nat)
  | mdrain (m n d : Nat) (loc tloc : Bool) (rm : RMode) (sat srci : Bool) (a : Word) (b : Option Word) (d0 d1 : Word)
  deriving DecidableEq, Repr

/-- How far a `miter` has come (R178): its next phase, the updates made, whether the last test found a rise, and the residual of
its last test. -/
structure MiterRun where
  phase : Nat
  iter : Nat
  rise : Bool
  lastr : Option Nat
  deriving DecidableEq, Repr

/-- A transfer of a matrix word, within one line: bytes fetched to the window, or put to local or global memory (R164). -/
inductive MxPiece where
  | fetch (va : Word) (off n : Nat)
  | put (loc : Bool) (va : Word) (data : List Byte)
  deriving DecidableEq, Repr

/-- An entry of a matrix queue (R160): the word, its number, its issuing group and that group's state, its place in the group's
accesses and the tick of its issue; then its progress: whether it has begun, its transfers still to be made and the flags it
has raised, how far a `miter` has come, whether a pre-emption stopped it, and since when it waits for a replay (R164). -/
structure MxEntry where
  id : Nat
  grp : Nat
  sup : Bool
  pc : PC
  seq : Nat
  tick : Nat
  op : MxOp
  started : Bool
  todo : List MxPiece
  flags : FFlags
  run : MiterRun
  stopped : Bool
  parked : Option Nat
  since : Nat := 0
  port : Bool := false
  redrive : Bool := false
  deriving DecidableEq, Repr

/-- A resident team (R17 to R22, R92, R133, R160, R166, R208): `members` are its live groups. Local memory, tiles and the
weight-buffer window are kept by team; what is not listed is zero, as at placement. `rrMode` and `rrGrid` are the record and
replay mode and the grid count under which it was placed (R396). `linear` is its index in the grid as placed; `index` is the special
`team` (R341). `gens` keeps the matrix generators of groups that have ended with words in the queue (R61). -/
structure Team where
  core : Nat
  ctx : Nat
  grid : Nat
  index : Word
  linear : Nat
  groups : Nat
  vregs : Nat
  acc : Nat
  localSize : Nat
  member : Nat
  cluster : Nat
  rrMode : Nat
  rrGrid : Nat
  members : List Nat
  loc : Tab Byte
  tiles : Tab Lane32
  window : Tab Byte
  bars : Tab Barrier
  mx : List MxEntry
  gens : Tab (Tab (BitVec 32))
  base : Nat := 0
  deriving DecidableEq, Repr

/-- A cluster in place (R17, R21, R134, R215): its teams and their cores in order of `clu`, its shape, whether its L1s are
fused, its barrier. -/
structure Cluster where
  teams : List Nat
  cores : List Nat
  w : Nat
  fused : Bool
  bar : Barrier
  deriving DecidableEq, Repr

/-- One access with its physical address. -/
structure PAcc where
  acc : Acc
  pa : Nat
  deriving DecidableEq, Repr

/-- Where a request stands: on its way, held for LEXP (R213), queued at a page that is being migrated (R226), or a read of a counter
that is answered as its tick ends (R383). -/
inductive ReqState where
  | sent | held | blocked | tickEnd
  deriving DecidableEq, Repr

/-- A request to a serving slice: the accesses of one memory word to one line of one page (R253), with the page's leaf. An
acquire made while a load is on its way sets `noLease`: what it fills gets no lease (R214). -/
structure Req where
  id : Nat
  info : WordInfo
  core : Nat
  ctx : Nat
  sup : Bool
  leaf : Word
  accs : List PAcc
  state : ReqState
  tick : Nat
  noLease : Bool
  deriving DecidableEq, Repr

/-- A memory word whose values have not all returned (R32, R192): the pieces outstanding, the values so far, the lanes that
failed; for an engine's accesses, the first failure: cause, detail, address. -/
structure MemWord where
  info : WordInfo
  left : Nat
  vals : Tab (BitVec 128)
  failed : Mask
  fault : Option (Nat × Nat × Word)
  acq : Bool
  deriving DecidableEq, Repr

/-- A fill on its way back to an L1 (R211, R212, R214): the sector, its data, the lease it is to have (0 for none). -/
structure Fill where
  id : Nat
  core : Nat
  sector : Nat
  data : List Byte
  expiry : Nat
  deriving DecidableEq, Repr

/-- A result on its way to the registers of a group (R32): the registers it makes full, the values by register, lane and
value, and the flags of its word (R60). A register below 128 is vN, others are s(N − 128). An engine's result holds the values
by piece, and the failure if there was one; `fp` marks a word that can raise flags. -/
structure Result where
  grp : Nat
  regs : List Nat
  vals : List (Nat × Nat × Word)
  flags : FFlags
  fp : Bool
  raw : Tab (BitVec 128)
  fault : Option (Nat × Nat × Word)
  deriving DecidableEq, Repr

/-- An ownership entry of a granule (R223, R366): the writer die and its sub-granules, in state GRANT. Not listed: HOME. -/
structure Own where
  w : Nat
  mask : BitVec 16
  deriving DecidableEq, Repr

/-- A translation held by a TLB (R359): `unit` is a core's number, 0x400 + d for die d's second level, 0x408 for the hub. -/
structure TlbEntry where
  unit : Nat
  ctx : Nat
  vpage : Nat
  logSize : Nat
  leaf : Word
  deriving DecidableEq, Repr

/-- A non-leaf entry held by a die, or the hub as die 8, for its walks (R359): the address bits that lead to it. -/
structure NonLeaf where
  die : Nat
  ctx : Nat
  level : Nat
  index : Nat
  entry : Word
  deriving DecidableEq, Repr

/-- A page in a fault buffer's merge table with its record, if one was written (R363, R364). -/
structure FaultKey where
  vpage : Nat
  logSize : Nat
  acc : Nat
  reason : Nat
  level : Nat
  core : Nat
  slot : Nat
  path : Nat
  count : Nat
  recorded : Bool
  deriving DecidableEq, Repr

/-- The fault buffer of a context on a die (R363, R364). -/
structure FaultBuf where
  keys : List FaultKey
  dropped : Bool
  dropCnt : BitVec 32
  busy : Bool
  since : Nat
  deriving DecidableEq, Repr

def FaultBuf.reset : FaultBuf := { keys := [], dropped := false, dropCnt := 0, busy := false, since := 0 }

/-- An engine's command (R276 to R281): a copy's descriptor, its local sides by team, or a gather's elements. -/
inductive EngOp where
  | copy (src dst : Word) (l0 n1 n2 n3 : Nat) (sloc dloc : Option Nat) (st : List (Int × Int))
  | gather (seg : SegG) (size : Nat) (off : Nat) (lanes : List (Nat × Word))
  deriving DecidableEq, Repr

/-- An engine command in progress: who issued it, from where; the rows or lanes that are done, the bytes written of the others,
what is read of a piece and not yet written, peer reads under way by row, the rows that wait for a replay with the tick of each;
once an access has failed, the first failure and the failed elements; and the bytes of its stores that a peer refused or never answered
(R282). -/
structure EngCmd where
  id : Nat
  grp : Nat
  team : Nat
  core : Nat
  slot : Nat
  ctx : Nat
  sup : Bool
  tok : Word
  pc : PC
  seq : Nat
  scope : Scope
  op : EngOp
  done : List Nat
  part : Tab Nat
  buf : Tab (List Byte)
  wait : Tab Nat
  parked : List (Nat × Nat)
  fault : Option (Nat × Nat × Word)
  lanes : Mask
  lost : Nat := 0
  deriving DecidableEq, Repr

/-- What a `tlbi` drops (R361). -/
inductive TlbiWhat where
  | page (va : Word) (home : Bool)
  | context
  | all
  deriving DecidableEq, Repr

/-- A translation invalidation in progress (R362): the word that waits for it, what it drops of which context, whether the drops
are made, and the words (by group, team and place) whose accesses used a dropped leaf. -/
structure Tlbi where
  id : Nat
  grp : Nat
  team : Nat
  seq : Nat
  ctx : Nat
  what : TlbiWhat
  dropped : Bool
  users : List (Nat × Nat × Nat)
  deriving DecidableEq, Repr

/-- What waits at a page that is being moved (R226): a request, an access of an engine or of the hub for a word, by its number,
the read of a suspended group, what a group's next word reads (its fetch, the image of a `qload`), a Quire micro-operation, a request of
a peer by its package and number, a flit at a port or in the reorder buffer, the oldest read or write of the host. -/
inductive Ticket where
  | req (id : Nat)
  | agent (id : Nat)
  | group (g : Nat)
  | word (g : Nat) (pc : PC)
  | uop (g : Nat)
  | peer (src seq : Nat)
  | flit (port ch seq off : Nat)
  | version (id : Nat)
  | host (write : Bool)
  deriving DecidableEq, Repr

/-- A page being moved (R226, R367): old and new frame, size, whether the copy has ended, whether it aborted, and what has
arrived meanwhile, in order of arrival. -/
structure Migration where
  src : Nat
  dst : Nat
  size : Nat
  copied : Bool
  aborted : Bool
  queue : List Ticket
  deriving DecidableEq, Repr

/-- A context-scoped control register write on its way to the cores (R98): the cores it has not reached, and the register and
value its word returns. -/
structure CtxWrite where
  id : Nat
  ctx : Nat
  addr : Nat
  val : Word
  left : List Nat
  grp : Nat
  team : Nat
  tok : Nat
  reg : Option Nat
  old : Word
  deriving DecidableEq, Repr

/-- What writes to a granted sub-granule and waits for its recall (R228): an event, the arrival of a group at an `mbar`, or a unit that
makes accesses for a word, by its number. -/
inductive Recaller where
  | event (i : Instr)
  | arrival (g : Nat)
  | unit (id : Nat)
  deriving DecidableEq, Repr

/-- A log whose group has ended (R37, R339): its accesses are still performed at replay. -/
structure Orphan where
  core : Nat
  ctx : Nat
  sup : Bool
  log : OpLog
  deriving DecidableEq, Repr

/-- A `fence.sys` of a recording or replaying group that has ended (R400): its checkpoint is still to be made. -/
structure LateFence where
  fence : Fence
  grp : Nat
  team : Nat
  ctx : Nat
  mode : Nat
  ident : Nat
  crc : Word
  deriving DecidableEq, Repr

/-- The memory system (the bytes themselves are `State.mem`). Line state is keyed by 16 · line + die, ownership by granule, page
heat by issuing die, granule and access. `l2` lists the lines that a die's L2 holds, and whether each is dirty (R218); `mchecks`
are the machine-check records (R219, R227): the line's address and the tick. `leaseWas` is the LEASE_LEN that a core held before
the writes of this tick, by 64 · core + context (R228); `heatSeen` the pages that a unit's word has been counted for (R370);
`reports` the fault reports of this tick by buffer, each with whether it posted an event (R376); `recalls` the writes that
wait for the recalls at the end of the tick, each with the rank of its die, and `recallNow` that they are being made (R228). -/
structure MemSys where
  reqs : List Req
  words : List MemWord
  fills : List Fill
  results : Tab Result
  lexp : Tab Nat
  l2 : Tab Bool
  poison : Tab Bool
  mchecks : List (Nat × Nat)
  leaseWas : Tab Nat
  reports : List (Nat × FaultKey × Bool)
  own : Tab Own
  tlbs : List TlbEntry
  nonLeaf : List NonLeaf
  faults : Tab FaultBuf
  engs : List EngCmd
  tlbis : List Tlbi
  migs : Tab Migration
  heat : Tab Nat
  heatSeen : List (Nat × Nat)
  orphans : List Orphan
  lateFences : List LateFence
  recalls : List (Nat × Recaller) := []
  recallNow : Bool := false
  deriving DecidableEq, Repr

def MemSys.reset : MemSys :=
  { reqs := [], words := [], fills := [], results := [], lexp := [], l2 := [], poison := [], mchecks := [], leaseWas := [], reports := [],
    own := [], tlbs := [], nonLeaf := [], faults := [], engs := [], tlbis := [], migs := [], heat := [], heatSeen := [], orphans := [],
    lateFences := [] }

/-- The control registers of a context (R38, R97, R313), as the hub's context table or a core holds them. -/
structure CtxRegs where
  ageLimit : BitVec 16
  leaseLen : BitVec 17
  trapVec : PC
  qbind : Tab Word
  deriving DecidableEq, Repr

def CtxRegs.reset : CtxRegs := { ageLimit := 0x20, leaseLen := 256, trapVec := 0, qbind := [] }

/-- State of a context beside its table entry, which lies in the management space (R354): its registers at the hub, the
copies its cores hold, what is under way: 1 a save, 2 the save of a slice, 3 a restore (R199, R202, R348), and whether a PREEMPT
command holds it (R394). -/
structure Ctx where
  regs : CtxRegs
  copies : Tab CtxRegs
  cmd : Nat
  held : Bool
  deriving DecidableEq, Repr

def Ctx.reset : Ctx := { regs := .reset, copies := [], cmd := 0, held := false }

end Sys2Proof.Machine
end

