-- ==== Sys2Proof/Machine/HubState.lean ====
section
/-!
DEFINITION. Machine/HubState.lean: what the hub holds beside its registers: launch queues, aggregation buckets, running grids,
saved contexts, inheritance entries (R332 to R348). Registers of the management space are held in `State.mgmt`.
-/
namespace Sys2Proof.Machine

/-- A launch record as accepted (R335). -/
structure LaunchRec where
  entry : Word
  param : Word
  x : Nat
  y : Nat
  z : Nat
  groups : Nat
  vregs : Nat
  acc : Nat
  w : Nat
  h : Nat
  fuse : Bool
  loc : Nat
  queue : Nat
  dmode : Bool
  ctrl : Bool
  pbase : Word
  pstride : Word
  daddr : Word
  dval : Word
  msix : Nat
  deriving DecidableEq, Repr

/-- A child of a merged grid (R341): its first team, its count, its parameter address, and whether its completion is made. -/
structure Child where
  first : Nat
  count : Nat
  param : Word
  done : Bool
  deriving DecidableEq, Repr

/-- A launch in a queue or a grid in progress: its record, its children if it was merged, the context it runs in, the mode of
record and replay and the grid count under which it was placed (R396), its teams that were placed, in order of their index, and
those that have ended. `peer` is the token of its completion write to a peer, while that is under way. -/
structure Grid where
  id : Nat
  record : LaunchRec
  children : List Child
  ctx : Nat
  mode : Nat
  count : Nat
  teams : List Nat
  ended : List Nat
  peer : Option Nat
  deriving DecidableEq, Repr

/-- A `launch` whose record is not yet read (R337): its word, its place, its record's address, the parameter of a child, and the
tick in which it was parked. -/
structure LaunchReq where
  info : WordInfo
  core : Nat
  slot : Nat
  ctx : Nat
  sup : Bool
  addr : Word
  agg : Option Word
  parked : Option Nat
  deriving DecidableEq, Repr

/-- An aggregation bucket (R340). -/
structure Bucket where
  queue : Nat
  key : Word
  record : LaunchRec
  opened : Nat
  children : List (Nat × Word)
  closed : Bool
  deriving DecidableEq, Repr

/-- A launch queue (R332, R333): launches in order of acceptance until their last team is placed, and QSTAT.DONE. -/
structure Queue where
  waiting : List Grid
  done : BitVec 32
  deriving DecidableEq, Repr

def Queue.reset : Queue := { waiting := [], done := 0 }

/-- A saved context: what the save area's layout leaves to the part that wrote it (R199 to R202): the teams and groups whose
portable state lies in memory, the clusters that bind them, engine commands, words with parked lanes, and by die the tick of
the last replay-all while it was saved (R205). Teams, groups and clusters stand under the numbers they had. -/
structure Saved where
  teams : List (Nat × Team)
  groups : List (Nat × Group)
  clusters : List (Nat × Cluster)
  engs : List EngCmd
  words : List MemWord
  replay : Tab Nat
  deriving DecidableEq, Repr

def Saved.empty : Saved := { teams := [], groups := [], clusters := [], engs := [], words := [], replay := [] }

/-- An `mbar` inheritance entry (R345): the groups of the previous generation and of this one, and when it was last used. -/
structure MbarEntry where
  gen : BitVec 32
  prev : List Nat
  now : List Nat
  used : Nat
  deriving DecidableEq, Repr

/-- The hub. `gang` is the gang of the slice taken last (R348), `turn` the queue served next among equals (R338); `holds` are the
lines on which a write of the hub is held for LEXP (R213, R339, R349), `records` the event records that are posted and not yet
written (R349), `mbarGone` the groups that wait at an `mbar` whose generation a write has replaced (R135, R137); `posts` are the
records of this tick that found the ring full (R351), `goes` MSRC and MDST by die, as a write of GO found them, until its event is
taken (R367); `msixOpen` the MSI-X vectors that are not masked, by function and number, `msixPend` those that are pending (R424). -/
structure Hub where
  queues : Tab Queue
  buckets : List Bucket
  grids : List Grid
  launches : List LaunchReq
  saved : Tab Saved
  gang : Option (BitVec 64)
  mbars : Tab MbarEntry
  turn : Nat
  ctxWrites : List CtxWrite
  msix : List (Nat × Nat)
  holds : List Nat
  records : List (List Byte)
  mbarGone : List Nat
  posts : List (List Byte) := []
  goes : Tab (Word × Word) := []
  msixOpen : List (Nat × Nat) := []
  msixPend : List (Nat × Nat) := []
  deriving DecidableEq, Repr

def Hub.reset : Hub :=
  { queues := [], buckets := [], grids := [], launches := [], saved := [], gang := none, mbars := [], turn := 0,
    ctxWrites := [], msix := [], holds := [], records := [], mbarGone := [] }

end Sys2Proof.Machine
end

