-- ==== Sys2Proof/Machine/FabricState.lean ====
section
/-!
DEFINITION. Machine/FabricState.lean: what replication and the fabric hold: counts and vectors, packets on the die links, held
packets, strong operations (R283 to R295); peer requests, publications, collectives and the reply cache (R299 to R308).
-/
namespace Sys2Proof.Machine

/-- Types of update packet (R284). -/
inductive PktKind where
  | update | lock | commit | abort
  deriving DecidableEq, Repr

/-- An update packet (R284): `line` is the byte offset of its line in the replicated region, `words` the marked words in
ascending order, `vec` the issuer's applied vector. `grp`, `team`,
`seq`, `path`, `ctx`, `va` and `tick` are the model's: the access it came from, the virtual address of the line, the tick of issue. -/
structure Packet where
  id : Nat
  kind : PktKind
  grp : Nat
  team : Nat
  seq : Nat
  path : Path
  ctx : Nat
  va : Word
  tick : Nat
  src : Nat
  atom : Bool
  slot : Nat
  line : Nat
  vec : Tab Nat
  wmask : BitVec 32
  epoch : BitVec 16
  words : List (BitVec 32)
  deriving DecidableEq, Repr

/-- A die's part of replication (R283, R285 to R287, R289): emitted count and applied vector, hold queue and its peak, replay
buffer, packets not yet acknowledged with the dies that have not, last writers by word offset, next expected slot, locked
lines, whether the lag rule stalls it and for how many updates, the lock that is accepted and waits out the hold of its line, and
since when an applied vector stands while something could be applied. -/
structure RepDie where
  e : Nat
  av : Tab Nat
  hold : List Packet
  peak : Nat
  replay : List Packet
  unacked : List (Packet × List Nat)
  lastW : Tab (Nat × Nat)
  expect : Nat
  locks : List Packet
  lagging : Bool
  need : Nat := 1
  accept : Option Packet := none
  stuck : Option (Nat × Tab Nat) := none
  deriving DecidableEq, Repr

def RepDie.reset : RepDie :=
  { e := 0, av := [], hold := [], peak := 0, replay := [], unacked := [], lastW := [], expect := 0, locks := [],
    lagging := false }

/-- A strong operation in progress (R289): the word it belongs to, its lock packet once it has a slot, the replicas that have
acknowledged the lock, and those that have applied its commit. -/
structure Strong where
  id : Nat
  die : Nat
  ctx : Nat
  leaf : Word
  info : WordInfo
  accs : List PAcc
  line : Nat
  slot : Option Nat
  pkt : Option Packet
  acks : List Nat
  committed : Bool
  applied : List Nat
  vals : List (Nat × BitVec 128)
  deriving DecidableEq, Repr

/-- A join in progress (R295): the rank, and whether its copy has come to the last pages. -/
structure Join where
  rank : Nat
  copied : Bool
  deriving DecidableEq, Repr

/-- Replication (R283 to R295): `links` are packets on their way, in order for each pair of dies; `removing` the dies that
containment is taking out. -/
structure Repl where
  dies : Tab RepDie
  live : BitVec 8
  coll : Nat
  epoch : BitVec 16
  nextSlot : Nat
  strongs : List Strong
  links : List (Nat × Nat × Packet)
  reports : Tab (Tab Nat)
  rebase : Bool
  wrapSince : Nat
  handover : Bool
  removing : List Nat
  join : Option Join
  deriving DecidableEq, Repr

def Repl.reset : Repl :=
  { dies := [], live := 0, coll := 0, epoch := 0, nextSlot := 0, strongs := [], links := [], reports := [],
    rebase := false, wrapSince := 0, handover := false, removing := [], join := none }

/-- Where a peer request stands (R300 to R302): in its word's own state, in the core's peer queue, sent, or
waiting after BUSY. -/
inductive PeerState where
  | ready | queued | sent | busy
  deriving DecidableEq, Repr

/-- A peer request (R300): the accesses of a word to one line of package `pkg`, or one atomic. `first` is the tick of its first
send, `sends` the re-issues made, `due` the tick of the next, `since` its number among those that became ready after their word,
`src` the number of this package that it carries. -/
structure PeerReq where
  id : Nat
  core : Nat
  die : Nat
  ctx : Nat
  pkg : Nat
  info : WordInfo
  accs : List PAcc
  tag : Nat
  gen : Bool
  state : PeerState
  first : Nat
  sends : Nat
  due : Nat
  since : Option Nat := none
  src : Nat := 0
  port : Nat := 16
  deriving DecidableEq, Repr

/-- A publication flit (R304, R305): 64 bytes or fewer of a channel's window at `off`, or, with `ver`, a version. `part` is the
number of flits of its publication. `src` is the fabric word it belongs to, for a flit of this package; `acks` the children that
have not acknowledged it; `held` tells a version that waits in the reorder buffer; `ent` is the espalier entry under which this
package handles it (R376), none for one that the root dropped; `pkg` the number of the package that a copy comes from. -/
structure Flit where
  id : Nat
  ch : Nat
  part : Nat
  seq : Nat
  off : Nat
  data : List Byte
  ver : Bool
  src : Option Nat
  acks : List Nat
  held : Bool
  ent : List Word := []
  pkg : Nat := 0
  deriving DecidableEq, Repr

/-- A publication word in progress (R304, R305): its agent, its channel and number there, its extent, how much of its source is
sent, since when it waits for a replay, the flits that are not yet acknowledged, and the tick of the first send. For `pubv`, `src`
is the version. -/
structure PubWord where
  id : Nat
  grp : Nat
  team : Nat
  core : Nat
  slot : Nat
  ctx : Nat
  sup : Bool
  pc : PC
  seq : Nat
  ch : Nat
  num : Nat
  ver : Bool
  lsrc : Bool
  src : Word
  off : Nat
  len : Nat
  sent : Nat
  parked : Option Nat
  left : List Nat
  first : Nat
  tries : Nat
  deriving DecidableEq, Repr

/-- A collective in progress (R307, R308): its agent, its descriptor, its place among the collectives of its die on the
communicator; what it is still to write, once its result is computed, and since when it waits for a replay. -/
structure CollOp where
  id : Nat
  grp : Nat
  team : Nat
  core : Nat
  slot : Nat
  ctx : Nat
  sup : Bool
  pc : PC
  seq : Nat
  comm : Nat
  src : Word
  dst : Word
  count : Nat
  kind : Nat
  rop : Nat
  ty : Nat
  scope : Scope
  die : Nat
  turn : Nat
  result : Option (List Byte)
  parked : Option Nat
  lost : Word := 0
  deriving DecidableEq, Repr

/-- A reply cache entry (R302, R375). -/
structure ReplyEntry where
  id : Nat
  die : Nat
  pkg : Nat
  tag : Nat
  gen : Bool
  reply : PeerAnswer
  expiry : Nat
  deriving DecidableEq, Repr

/-- The fabric side of the package: requests to peers; `tags` counts the uses of each tag of a die, `last` the tick of its last
send, `lost` the tag of a request that had no response in time, by its number, `withheld` the send slots that are not to be used by
target and die; publications: flits that wait for something, words, `chSeq` the next number of a channel, `subs` the next number
that a channel's window takes, `got` the flits of a publication that are there and how many it has; collectives, and by communicator
and die how many were issued; the reply cache; and what was sent: flits to children, acknowledgements to parents (parent,
publication, offset, sender), answers to packages. These stand for the virtual channels of the ports, which have no stated depth
(R332; log entry 110). -/
structure Fabric where
  reqs : List PeerReq
  tags : Tab Nat
  last : Tab Nat
  withheld : Tab Nat
  flits : List Flit
  pubs : List PubWord
  colls : List CollOp
  chSeq : Tab Nat
  subs : Tab Nat
  got : Tab (Nat × List Nat)
  turns : Tab Nat
  cache : List ReplyEntry
  flitsOut : List (Nat × Flit)
  acksOut : List (Nat × Nat × Nat × Nat)
  answers : List (Nat × Nat × PeerAnswer)
  lost : Tab Nat := []
  deriving DecidableEq, Repr

def Fabric.reset : Fabric :=
  { reqs := [], tags := [], last := [], withheld := [], flits := [], pubs := [], colls := [], chSeq := [], subs := [],
    got := [], turns := [], cache := [], flitsOut := [], acksOut := [], answers := [] }

end Sys2Proof.Machine
end

