-- ==== Sys2Proof/Machine/PlatState.lean ====
section
/-!
DEFINITION. Machine/PlatState.lean: debug, activity records, record and replay (R386 to R400), and the package at its
boundaries: flash, fuses, clocks, test access (R15, R395, R421 to R435). Their registers are in `State.mgmt`.
-/
namespace Sys2Proof.Machine

/-- An open chunk of an order log (R397), by unit and context. -/
structure Chunk where
  unit : Nat
  ctx : Nat
  ident : Nat
  count : Nat
  touched : Nat
  deriving DecidableEq, Repr

/-- A logged operation that a gate holds (R397, R398): the mode of its grid, its group, its unit, its number there, the tick in which
it came and its address; `late` tells that it was held too long, `used` that its unit's chunks were used up before it came. -/
structure HeldOp where
  mode : Nat
  grp : Nat
  unit : Nat
  id : Nat
  tick : Nat
  addr : Word
  late : Bool
  used : Bool := false
  deriving DecidableEq, Repr

/-- Replay of a context (R398): chunks read from the ring and not yet consumed, in ring order; units that admit in order of
arrival; and, for both modes, the grid count, the store CRC of groups that have ended, and the operations held at a gate. -/
structure Replay where
  chunks : List (Nat × Nat × Nat)
  checks : List (Nat × Nat × Word)
  freeUnits : List Nat
  grids : Nat
  crc : Word
  held : List HeldOp
  deriving DecidableEq, Repr

def Replay.reset : Replay := { chunks := [], checks := [], freeUnits := [], grids := 0, crc := 0, held := [] }

/-- A freeze that is under way (R392): its tick and cause, and where it came from. -/
structure FreezeReq where
  tick : Nat
  cause : Nat
  core : Nat
  slot : Nat
  widx : Nat
  bkn : Nat
  pc : Word
  deriving DecidableEq, Repr

/-- A read of a counter by an agent that waits for it (R383): who reads, the counter, and the answer, once the tick in which the read
is served has ended. -/
structure CtrRead where
  who : Nat × Nat
  addr : Nat
  val : Option Word
  deriving DecidableEq, Repr

/-- Debug, activity and replay state. `latched` holds a ring's interval that is still to be written; `lost` the streams whose next
record is to carry LOST; `actk` a period and the tick from which it holds; `counts` the events of this tick by counter, `reprog`
what a counter held when it was reprogrammed in this tick, or that a write with KEEP cleared its EN (R383), `hw` what hardware has
set or added in this tick in registers that software clears, `sw` the registers that software wrote in this tick and hardware may
change in it (R4), `ctrReads` the reads of counters that are served in a tick and answered as it ends (R383), `stops` the groups, with
their teams, that their own `bkpt` stops before their next word (R389). -/
structure Dbg where
  stopped : Bool
  frozen : Bool
  freeze : Option FreezeReq
  resumeAt : Option Nat
  frozenTicks : Nat
  later : List Instr
  open_ : List Chunk
  replay : Tab Replay
  actk : Option (Nat × Word)
  actNow : Word
  latched : Tab (Nat × List Word)
  lost : Tab Bool
  counts : Tab Nat
  reprog : Tab Nat
  hw : Tab Word
  sw : List Nat := []
  ctrReads : List CtrRead := []
  stops : List (Nat × Nat) := []
  deriving DecidableEq, Repr

def Dbg.reset : Dbg :=
  { stopped := false, frozen := false, freeze := none, resumeAt := none, frozenTicks := 0, later := [], open_ := [],
    replay := [], actk := none, actNow := 0, latched := [], lost := [], counts := [], reprog := [], hw := [] }

/-- What the package keeps and what its boundary shows: the flash, the boot ROM, the fused key digest, the dies that train and whose
links train, the image digest, BOOTCFG and the control-program section of the last start, recovery, the dies whose clock a droop
stretches, power capping, the attestation requests not yet answered, the scan chains, the PTP source, and the completions of inbound
reads, with none for an Unsupported Request, the tick of the servo's last update since its first lock (R379), the ranges of host
addresses whose reads complete in error (R260), by first address and size, since when each port trains (R425), and what the test
access port has shifted out, with none where it is not open (R435). -/
structure Plat where
  flash : List Host.Cell
  flashSize : Nat
  rom : List Byte
  keyDigest : List Byte
  goodDies : BitVec 8
  goodLinks : BitVec 8
  digest : List Byte
  bootcfg : List Byte
  program : List Byte
  recovery : Bool
  droop : Tab Bool
  capped : Bool
  attest : Nat
  scanOpen : Bool
  ptpSel : Bool
  reads : List (Option (List Byte))
  hostErrors : List (Nat × Nat)
  ptpAt : Option Nat := none
  trainAt : Tab Nat := []
  tap : List (Option Word) := []
  deriving DecidableEq, Repr

/-- Before start-up: nothing is programmed into flash or fuses, and every die passes its tests (log entry 20). -/
def Plat.reset : Plat :=
  { flash := [], flashSize := 0x4000000, rom := [], keyDigest := [], goodDies := 0xFF, goodLinks := 0xFF, digest := [],
    bootcfg := [], program := [], recovery := false, droop := [], capped := false, attest := 0, scanOpen := false,
    ptpSel := false, reads := [], hostErrors := [] }

end Sys2Proof.Machine
end

