-- ==== Sys2Proof/Machine/State.lean ====
section
/-!
DEFINITION. Machine/State.lean: the state of the machine, its faults and refusals, and its state after reset.
-/
namespace Sys2Proof.Machine

/-- The state of the package, as plain data. The model's own fields are `pace`, `turn`, `agenda`, `pending`, `inputs`,
`focusCore`, `focusPort`, `nextId` and `free`: how many ticks a step lasts, which choice a step makes, what events are due, what
has come from outside, numbers for tokens, and the count of free values taken (log entry 2). -/
structure State where
  tick : Word
  pace : Nat
  turn : Nat
  agenda : List (Option Instr)
  pending : List Instr
  inputs : List Input
  focusCore : Nat
  focusPort : Bool
  nextId : Nat
  free : Nat
  mem : List Host.Cell
  mgmt : Tab Word
  cores : Tab Core
  groups : Tab Group
  teams : Tab Team
  clusters : Tab Cluster
  ctxs : Tab Ctx
  sys : MemSys
  hub : Hub
  repl : Repl
  fab : Fabric
  dbg : Dbg
  plat : Plat
  deriving DecidableEq, Repr

/-- Why the machine stops with a fault. -/
inductive Fault where
  /-- Raised by `exec` of a word when no group holds the port in focus: no hardware issues a word without a group. Safe. -/
  | noIssuingGroup
  deriving DecidableEq, Repr

/-- Why the model gives no answer. -/
inductive Refusal where
  /-- Raised by a dispatch arm whose instruction has no meaning yet. Safe. -/
  | notModelled (mnemonic : String)
  deriving DecidableEq, Repr

/-- The machine right after package reset: start-up has not run, and is the first event (R428). -/
def State.reset : State :=
  { tick := 0, pace := 1, turn := 0, agenda := [some .packageReset], pending := [], inputs := [], focusCore := 0,
    focusPort := false, nextId := 1, free := 0, mem := [], mgmt := [], cores := [], groups := [], teams := [], clusters := [], ctxs := [],
    sys := .reset, hub := .reset, repl := .reset, fab := .reset, dbg := .reset, plat := .reset }

end Sys2Proof.Machine
end

