-- ==== Sys2Proof/WellFormed.lean ====
section
/-!
DEFINITION. WellFormed.lean: the instructions that a group with every register, every tile, every privilege and every bound
opcode could issue. Raw bits never reach the machine without these checks: `exec` makes them again for the issuing group.
-/
namespace Sys2Proof

/-- The most permissive group: 128 vector registers, 16 tiles, supervisor state with a trap active, all opcodes bound. -/
def Env.max : Env := { vregs := 128, acc := 16, control := false, sup := true, trapActive := true, bound := 0xFFFF#16 }

/-- An instruction that passes every decode check in some group. -/
def WellFormed (i : Instr) : Bool := decide (i.check Env.max = none)

end Sys2Proof
end

