-- ==== Sys2Proof/Machine/Ops.lean ====
section
/-!
DEFINITION. Machine/Ops.lean: the named operations over memory, registers, paths, events and traps that every meaning is
written with. TAKING A TRAP is `State.takeTrap`; the return from one is `State.returnFromTrap`.
-/
namespace Sys2Proof.Machine

/-! ### Bytes of physical memory (R2, R207) -/

/-- The byte at a physical address as its serving slice holds it; a byte that nothing has written reads zero (log entry 1). -/
def memByte (m : List Host.Cell) (pa : Nat) : Byte := Tab.get 0 pa m

/-- Writes one byte, keeping the canonical form. -/
def memSetByte (m : List Host.Cell) (pa : Nat) (b : Byte) : List Host.Cell := Tab.set 0 pa b m

/-- The canonical form of memory: addresses strictly rising, no entry equal to what an unlisted address reads as. -/
abbrev Memory.wf (m : List Host.Cell) : Bool := Tab.wf (0 : Byte) m

def State.byte (s : State) (pa : Nat) : Byte := memByte s.mem pa

def State.setByte (s : State) (pa : Nat) (b : Byte) : State := { s with mem := memSetByte s.mem pa b }

/-- `n` bytes from `pa` on, the byte at the lowest address first. -/
def State.bytes (s : State) (pa n : Nat) : List Byte := (List.range n).map (fun k => s.byte (pa + k))

/-- Stores a list of bytes from `pa` on. -/
def State.setBytes (s : State) (pa : Nat) : List Byte → State
  | [] => s
  | b :: t => (s.setByte pa b).setBytes (pa + 1) t

/-- A number from bytes, the lowest address least significant (R2). -/
def numOfBytes : List Byte → Nat
  | [] => 0
  | b :: t => b.toNat + 256 * numOfBytes t

/-- The `n` bytes of a number, the least significant first (R2). -/
def bytesOfNum : Nat → Nat → List Byte
  | 0, _ => []
  | n + 1, x => BitVec.ofNat 8 x :: bytesOfNum n (x / 256)

/-- An aligned little-endian number of `n` bytes. -/
def State.load (s : State) (pa n : Nat) : Nat := numOfBytes (s.bytes pa n)
def State.store (s : State) (pa n x : Nat) : State := s.setBytes pa (bytesOfNum n x)

/-! ### Places of the physical map (R10, R207) -/

/-- The rank of a compute core; the hub's unit 8 for a control core (R10, R18). -/
def dieOfCore (core : Nat) : Nat := if core < 832 then core / 104 else 8
def isControl (core : Nat) : Bool := decide (0x3FC ≤ core ∧ core ≤ 0x3FF)

def dieBase (d : Nat) : Nat := d * 0x2000000000
def hubBase : Nat := 0x10000000000
def hostBase : Nat := 0x8000000000000
/-- First byte of tag storage in a die (R207, R220). -/
def tagOffset : Nat := 0x17A0000000

/-- What a physical address leads to. -/
inductive Place where
  | hbm (die off : Nat)
  | hub (off : Nat)
  | host (off : Nat)
  | none
  deriving DecidableEq, Repr

/-- The physical map (R207); tag storage is no place for an access while tagging is enabled. -/
def placeOf (tagging : Bool) (pa : Nat) : Place :=
  if pa < 8 * 0x2000000000 then
    let off := pa % 0x2000000000
    if off < (if tagging then tagOffset else 0x1800000000) then .hbm (pa / 0x2000000000) off else .none
  else if hubBase ≤ pa ∧ pa < hubBase + 0x100000000 then .hub (pa % 0x100000000)
  else if hostBase ≤ pa ∧ pa < 2 * hostBase then .host (pa % hostBase)
  else .none

/-! ### Registers of the management space, by address (R353) -/

/-- Reset values of management registers that are not zero (R291, R349, R368, R379, R380, R396, R423, R425, R427, and the
reset of R388's LOG2; what no rule gives a reset is 0, log entry 21). -/
def mgmtReset (a : Nat) : Word :=
  let o := if a / 0x100000000 = 0x100 then a % 0x100000000 else 0
  if 0x14008 = o then 4
  else if o = 0x15000 then 0xFFFF0000
  else if 0x20000 ≤ o ∧ o < 0x28000 ∧ o % 0x1000 = 8 then 0x700
  else if 0x60000 ≤ o ∧ o < 0x6C000 ∧ o % 0x2000 < 0x20 then
    (match o % 0x20 with
     | 0 => 0x3FF01
     | 0x10 => 0x000FFFFFFFFFF000
     | 0x18 => if o / 0x2000 = 0x32 then 0x0FFF0000 else 0
     | _ => 0)
  else if 0x200000 ≤ o ∧ o < 0x200000 + 0x100 * 832 ∧ o % 0x100 < 8 * 0x18 then 0x0004000000000000
  else if 0x240000 ≤ o ∧ o < 0x241000 ∧ o % 0x200 < 8 * 0x17 then 0x0004000000000000
  else if 0x241000 ≤ o ∧ o < 0x241000 + 8 * 6 then 0x0004000000000000
  else if 0x242040 ≤ o ∧ o < 0x242040 + 0x240 ∧ o % 0x40 = 8 then 4
  else if 0x251000 ≤ o ∧ o < 0x252000 ∧ o % 0x40 = 0x10 then 10
  else if 0x260000 ≤ o ∧ o < 0x260400 ∧ o % 0x40 = 0 then 1
  else if o = 0x270000 then 1
  else if o = 0x280000 then 2600
  else 0

/-- A management register as stored; access codes and side effects are those of `Sys2Proof.Machine.mgmtWrite`. -/
def State.reg (s : State) (a : Nat) : Word := Tab.get (mgmtReset a) a s.mgmt
def State.setReg (s : State) (a : Nat) (v : Word) : State := { s with mgmt := Tab.set (mgmtReset a) a v s.mgmt }

/-! ### Groups -/

/-- A group slot with no group: what an unlisted key reads as. -/
def Group.empty : Group :=
  { core := 0, slot := 0, team := 0, idx := 0, ctx := 0, vregs := 0, sup := false, port := .none, flow := .start 0,
    regs := .start 0 0 0 0, fp := .start 0, trap := .idle, defs := [], pending := [], mem := .start 0,
    sched := { since := 0, halted := false, susp := .none, paused := false, fetch := none, need := [] }, q := .idle }

/-- The key of the group in slot `slot` of core `core`. -/
def groupKey (core slot : Nat) : Nat := core * 64 + slot

def State.grp (s : State) (g : Nat) : Group := Tab.get Group.empty g s.groups
def State.hasGrp (s : State) (g : Nat) : Bool := (Tab.find? g s.groups).isSome
def State.setGrp (s : State) (g : Nat) (x : Group) : State := { s with groups := Tab.put g x s.groups }
/-- Changes a group; nothing where it has ended. -/
def State.updGrp (s : State) (g : Nat) (f : Group → Group) : State :=
  match Tab.find? g s.groups with
  | some x => s.setGrp g (f x)
  | none => s

def Team.empty : Team :=
  { core := 0, ctx := 0, grid := 0, index := 0, linear := 0, groups := 0, vregs := 0, acc := 0, localSize := 0, member := 0, cluster := 0,
    rrMode := 0, rrGrid := 0, members := [], loc := [], tiles := [], window := [], bars := [], mx := [], gens := [] }

def State.team (s : State) (t : Nat) : Team := Tab.get Team.empty t s.teams
def State.setTeam (s : State) (t : Nat) (x : Team) : State := { s with teams := Tab.put t x s.teams }
/-- Changes a team; nothing where it has ended. -/
def State.updTeam (s : State) (t : Nat) (f : Team → Team) : State :=
  match Tab.find? t s.teams with
  | some x => s.setTeam t (f x)
  | none => s

def Cluster.empty : Cluster := { teams := [], cores := [], w := 1, fused := false, bar := .reset }
def State.cluster (s : State) (c : Nat) : Cluster := Tab.get Cluster.empty c s.clusters
def State.setCluster (s : State) (c : Nat) (x : Cluster) : State := { s with clusters := Tab.put c x s.clusters }

def State.core (s : State) (c : Nat) : Core := Tab.get Core.reset c s.cores
def State.setCore (s : State) (c : Nat) (x : Core) : State := { s with cores := Tab.set Core.reset c x s.cores }
def State.updCore (s : State) (c : Nat) (f : Core → Core) : State := s.setCore c (f (s.core c))

def State.ctx (s : State) (c : Nat) : Ctx := Tab.get Ctx.reset c s.ctxs
def State.setCtx (s : State) (c : Nat) (x : Ctx) : State := { s with ctxs := Tab.set Ctx.reset c x s.ctxs }
/-- The control registers of a context as they hold on a core (R98). -/
def State.ctxRegs (s : State) (core ctx : Nat) : CtxRegs := Tab.get (s.ctx ctx).regs core (s.ctx ctx).copies

def State.setSys (s : State) (x : MemSys) : State := { s with sys := x }
def State.setHub (s : State) (x : Hub) : State := { s with hub := x }

/-- A fresh number for a token, a request, a command. -/
def State.fresh (s : State) : Nat × State := (s.nextId, { s with nextId := s.nextId + 1 })

/-- A fresh free value (Config.freeWord): a value that the specification leaves open (log entry 13). -/
def State.freeVal (s : State) : Word × State := (Config.freeWord s.free, { s with free := s.free + 1 })

/-- Queues an event that the hardware performs by itself. -/
def State.post (s : State) (e : Instr) : State := { s with pending := s.pending ++ [e] }

/-- A fixed entry of the context table (R354), by offset. -/
def ctxEntry (c : Nat) : Nat := hubBase + 0x50000 + 0x80 * c
def State.ctxSup (s : State) (c : Nat) : Bool := (s.reg (ctxEntry c)).getLsbD 1
def State.ctxPart (s : State) (c : Nat) : Nat := bits (s.reg (ctxEntry c)) 2 4

def State.port (s : State) (c : Nat) (p : Bool) : Port := if p then (s.core c).port1 else (s.core c).port0
def State.setPort (s : State) (c : Nat) (p : Bool) (x : Port) : State :=
  s.updCore c (fun k => if p then { k with port1 := x } else { k with port0 := x })

/-- The group whose run executes on the port in focus. -/
def State.issuer (s : State) : Option Nat := ((s.port s.focusCore s.focusPort).slot).map (groupKey s.focusCore)

/-! ### Masks and paths (R23, R24, R35 to R38) -/

/-- SetMask: bits of exited and deferred lanes read zero and ignore writes of 1 (R24, R188). -/
def Flow.setMask (f : Flow) (m : Mask) : Flow := { f with mask := m &&& ~~~(f.exited ||| f.deferred) }

/-- Takes entry `i` out of the stack: the gap closes, links and the region follow the entries they name; a link to the entry
itself goes to what it enclosed (R35). -/
def Flow.removeEntry (f : Flow) (i : Nat) : Flow :=
  let up := (f.stack[i]?).bind Entry.link
  let fix : Option Nat → Option Nat := fun l =>
    match l with
    | some j => if j = i then up else if i < j then some (j - 1) else some j
    | none => none
  { f with stack := (f.stack.eraseIdx i).map (fun e => { e with link := fix e.link }), region := fix f.region }

/-- Whether the link chain from `l` reaches entry `i`; links go down, so the depth bounds the walk. -/
def linkReaches (st : List Entry) (i : Nat) : Nat → Option Nat → Bool
  | 0, _ => false
  | _, none => false
  | n + 1, some j => decide (j = i) || linkReaches st i n ((st[j]?).bind Entry.link)

/-- PendingIn: a path entry whose link chain reaches `i` (R36). -/
def Flow.pendingIn (f : Flow) (i : Nat) : Bool :=
  f.stack.any (fun e => decide (e.kind = .path) && linkReaches f.stack i 33 e.link)

/-- Index of the topmost path entry. -/
def topPath (st : List Entry) : Option Nat :=
  (List.range st.length).foldl (fun a i => match st[i]? with
    | some e => if e.kind = .path then some i else a
    | none => a) none

/-- What PathEnd leaves (R36): a path to run, or no lane at all. -/
inductive PathEndResult where
  | run (f : Flow)
  | ended (f : Flow)
  deriving DecidableEq, Repr

/-- The last part of PathEnd: the topmost path entry runs, or the group ends. -/
def Flow.popPath (f : Flow) : PathEndResult :=
  match topPath f.stack with
  | some i =>
    match f.stack[i]? with
    | some e =>
      let f' := f.removeEntry i
      let link := e.link
      .run { f'.setMask e.mask with region := link, pc := e.addr }
    | none => .ended f
  | none => .ended f

/-- PathEnd (R36): completes regions outward while none of their lanes is pending. -/
def Flow.pathEnd : Nat → Flow → PathEndResult
  | 0, f => f.popPath
  | n + 1, f =>
    match f.region with
    | none => f.popPath
    | some i =>
      if f.pendingIn i then f.popPath
      else
        match f.stack[i]? with
        | none => f.popPath
        | some e =>
          let f' := { f.removeEntry i with region := e.link }
          if e.mask ≠ 0 then .run { f'.setMask e.mask with region := e.link, pc := e.addr + 1 }
          else Flow.pathEnd n f'

/-- Moves lanes into the exited set and out of every entry; the path entries that lose their last lane go, from the top
down (R37). -/
def Flow.exitLanes (f : Flow) (l : Mask) : Flow :=
  let gone := (List.range f.stack.length).filter (fun i => match f.stack[i]? with
    | some e => decide (e.kind = .path ∧ e.mask ≠ 0 ∧ e.mask &&& ~~~l = 0)
    | none => false)
  let f := { f with exited := f.exited ||| l, mask := f.mask &&& ~~~l,
                    stack := f.stack.map (fun e => { e with mask := e.mask &&& ~~~l }) }
  gone.reverse.foldl Flow.removeEntry f

/-- The entries of a stack from `base` on, aged by one run (R38). -/
def Flow.aged (f : Flow) (base : Nat) : List Entry :=
  f.stack.mapIdx (fun i e =>
    if decide (base ≤ i) && decide (e.kind = .path) && !e.fresh then
      { e with age := if e.age = 0xFFFF#16 then e.age else e.age + 1 }
    else { e with fresh := if base ≤ i then false else e.fresh })

/-- The path entry to switch to (R38): the oldest at or past the limit, the lowest among equals; one below EntryDepth too, of which
R195 says only that it does not age (log entry 81). -/
def overdue (st : List Entry) (limit : Nat) : Option Nat :=
  ((List.range st.length).foldl (fun (b : Option (Nat × Nat)) i =>
    match st[i]? with
    | some e =>
      if decide (e.kind = .path) && decide (limit ≤ e.age.toNat) &&
          (match b with | some (_, a) => decide (a < e.age.toNat) | none => true)
      then some (i, e.age.toNat) else b
    | none => b) none).map Prod.fst

/-- One ageing step over the entries from `base` on, and the switch it makes (R38): the chosen path takes the place of the
running path. The next run is the chosen path's and starts at offset 0, also where the run ended before a word for an empty source
(R33 gives that offset to the path's own next run; log entry 81). -/
def Flow.age (f : Flow) (base : Nat) (limit : Nat) : Flow :=
  let f := { f with stack := f.aged base }
  match overdue f.stack limit with
  | none => f
  | some i =>
    match f.stack[i]? with
    | none => f
    | some e =>
      -- the running path is pushed with its own region, as the removal renumbers it
      let f' := f.removeEntry i
      let me : Entry := { kind := .path, addr := f'.pc, mask := f'.mask, link := f'.region, age := 0, fresh := false }
      let link := match e.link with
        | some j => if i < j then some (j - 1) else some j
        | none => none
      { ({ f' with stack := f'.stack ++ [me] } : Flow).setMask e.mask with region := link, pc := e.addr, run := 0 }

/-- Pushes an entry on top. -/
def Flow.push (f : Flow) (e : Entry) : Flow := { f with stack := f.stack ++ [e] }

/-! ### Registers (R23, R32, R34, R89, R91) -/

/-- sN as 64 bits: s61 to s63 read the mask, 32 lanes each (R23). -/
def Group.sreg (g : Group) (n : Nat) : Word :=
  if n < 61 then Tab.get 0 n g.regs.s else (g.flow.mask.extractLsb' (32 * (n - 61)) 32).setWidth 64

/-- Lane `l` of vN. -/
def Group.vreg (g : Group) (n l : Nat) : Lane32 := Tab.get 0 l (Tab.get [] n g.regs.v)

/-- Predicate pN; p7 is true in every lane (R68, R90). -/
def Group.preg (g : Group) (n : Nat) : Mask := if n < 7 then Tab.get 0 n g.regs.p else allLanes

def Group.creg (g : Group) (n : Nat) : Lane32 := Tab.get 0 n g.regs.c

/-- Puts 32 bits in the place of lanes 32k to 32k + 31. -/
def maskPut (m : Mask) (k : Nat) (x : BitVec 32) : Mask :=
  (m &&& ~~~((BitVec.allOnes 32).setWidth 96 <<< (32 * k))) ||| (x.setWidth 96 <<< (32 * k))

/-- Full/empty bit of a register: vN is N, sN is 128 + N (R200). -/
def Group.isFull (g : Group) (r : Nat) : Bool := g.regs.full.getLsbD r

/-- A register made full, with no producer pending (R34). -/
def Regs.fill (x : Regs) (r : Nat) : Regs :=
  { x with full := x.full ||| (1#192 <<< r), pend := Tab.del r x.pend }

/-- A register made empty, governed by producer `tok` (R32, R34). -/
def Regs.drain (x : Regs) (r tok : Nat) : Regs :=
  { x with full := x.full &&& ~~~(1#192 <<< r), pend := Tab.put r tok x.pend }

/-- A plain write of sN (R34): s61 to s63 set the mask under R24. -/
def Group.setS (g : Group) (n : Nat) (v : Word) : Group :=
  if n < 61 then { g with regs := { g.regs.fill (128 + n) with s := Tab.set 0 n v g.regs.s } }
  else { g with flow := g.flow.setMask (maskPut g.flow.mask (n - 61) (v.setWidth 32)) }

/-- A write of sN by a word that may have ended its run before it completes: once the group has left its port, a part of the mask is
that of the path that ran the word, which a switch has put on top of the stack (R42). -/
def Group.setLate (g : Group) (n : Nat) (v : Word) : Group :=
  if 61 ≤ n ∧ g.sched.switched = true ∧ g.port.isNone = true then
    { g with flow := { g.flow with stack := g.flow.stack.modify (g.flow.stack.length - 1) (fun e =>
      { e with mask := maskPut e.mask (n - 61) (v.setWidth 32) &&& ~~~(g.flow.exited ||| g.flow.deferred) }) } }
  else g.setS n v

/-- Writes one lane of vN without its full/empty bit. -/
def Group.setLane (g : Group) (n l : Nat) (v : Lane32) : Group :=
  { g with regs := { g.regs with v := Tab.set [] n (Tab.set 0 l v (Tab.get [] n g.regs.v)) g.regs.v } }

def Group.setP (g : Group) (n : Nat) (m : Mask) : Group := { g with regs := { g.regs with p := Tab.set 0 n m g.regs.p } }

def Group.setC (g : Group) (n : Nat) (v : Lane32) : Group := { g with regs := { g.regs with c := Tab.set 0 n v g.regs.c } }

/-- The lanes of a mask in ascending order. -/
def lanesOf (m : Mask) : List Nat := (List.range 96).filter (fun l => m.getLsbD l)

/-- The highest lane of a mask (R26). -/
def highLane (m : Mask) : Option Nat := (lanesOf m).getLast?

/-- The lowest lane of a mask. -/
def lowLane (m : Mask) : Option Nat := (lanesOf m).head?

/-- The mask of a list of lanes. -/
def maskOfLanes (l : List Nat) : Mask := l.foldl (fun m i => m ||| (1#96 <<< i)) 0

/-! ### Unit counters (R381, R383) -/

/-- The register of an event's counter (R381): `unit` is a core's number, 0x340 + d for die d, 0x348 for the hub (R387). -/
def counterAddr (unit ev : Nat) : Nat :=
  if unit < 0x340 then hubBase + 0x200000 + 0x100 * unit + 8 * ev
  else if unit < 0x348 then hubBase + 0x240000 + 0x200 * (unit - 0x340) + 8 * (ev - 0x40)
  else hubBase + 0x241000 + 8 * (ev - 0xC0)

/-- Counts `n` events of this tick; the counter adds them as the tick ends (R383). Cores of the hub have no counters. -/
def State.count (s : State) (unit ev n : Nat) : State :=
  if 0x348 < unit then s
  else
    let a := counterAddr unit ev
    { s with dbg := { s.dbg with counts := Tab.set 0 a (Tab.get 0 a s.dbg.counts + n) s.dbg.counts } }

/-! ### Lines at their slices (R213, R218, R225, R226) -/

/-- The slice of a physical address within its die (R218). -/
def sliceOf (pa : Nat) : Nat :=
  (List.range 8).foldl (fun a k => a ^^^ (pa / 2 ^ (7 + 6 * k) % (if k = 7 then 8 else 64))) 0

/-- Key of a line's state at a die (R213). -/
def lineKey (pa die : Nat) : Nat := pa / 128 * 16 + die

def State.lexp (s : State) (pa die : Nat) : Nat := Tab.get 0 (lineKey pa die) s.sys.lexp
def State.raiseLexp (s : State) (pa die t : Nat) : State :=
  s.setSys { s.sys with lexp := Tab.set 0 (lineKey pa die) (max t (s.lexp pa die)) s.sys.lexp }

/-- Where an access to a page that is being moved goes (R226): on to the new home after the copy. -/
def State.forwardPa (s : State) (pa : Nat) : Nat :=
  match List.find? (fun (m : Nat × Migration) => m.2.copied && !m.2.aborted && decide (m.2.src ≤ pa ∧ pa < m.2.src + m.2.size)) s.sys.migs with
  | some m => m.2.dst + (pa - m.2.src)
  | none => pa

/-- Whether a page is blocked by its migration. -/
def State.migBlocked (s : State) (pa : Nat) : Bool :=
  s.sys.migs.any (fun (m : Nat × Migration) => !m.2.copied && !m.2.aborted && decide (m.2.src ≤ pa ∧ pa < m.2.src + m.2.size))

/-! ### The L2 (R13, R218) -/

/-- Puts a line into a die's L2, dirty if it is written or was dirty. A slice has sets of 16 lines, and what it makes room with is
written back: which line that is, is not architected (log entry 42). -/
def State.l2Touch (s : State) (pa die : Nat) (write : Bool) : State :=
  let k := lineKey pa die
  match Tab.find? k s.sys.l2 with
  | some d => if d || !write then s else s.setSys { s.sys with l2 := Tab.put k true s.sys.l2 }
  | none =>
    let slice := s.sys.l2.filter (fun e => decide (e.1 % 16 = die ∧ sliceOf (e.1 / 16 * 128) = sliceOf pa))
    if slice.length < 16 then s.setSys { s.sys with l2 := Tab.put k write s.sys.l2 }
    else
      let set := slice.filter (fun e => decide (Config.l2Set (e.1 / 16) = Config.l2Set (pa / 128)))
      if set.length < 16 then s.setSys { s.sys with l2 := Tab.put k write s.sys.l2 }
      else
        let (v, s) := s.freeVal
        let out := (set[v.toNat % set.length]?).map Prod.fst
        s.setSys { s.sys with l2 := Tab.put k write (match out with | some o => Tab.del o s.sys.l2 | none => s.sys.l2) }

/-- Whether an L2 holds a line dirty. -/
def State.l2Dirty (s : State) (pa die : Nat) : Bool := Tab.get false (lineKey pa die) s.sys.l2

/-- Takes a line out of an L2. -/
def State.l2Drop (s : State) (pa die : Nat) : State := s.setSys { s.sys with l2 := Tab.del (lineKey pa die) s.sys.l2 }

/-- Whether a sub-granule is granted to a writer die (R223). -/
def State.granted (s : State) (sub : Nat) : Bool :=
  match Tab.find? (sub / 16) s.sys.own with
  | some o => o.mask.getLsbD (sub % 16)
  | none => false

/-- Recall of a sub-granule (R225): the writer's dirty lines are written back to the home and all of them are dropped, each line's
LEXP is the greater, and the grant of the sub-granule ends. A granule with none left is HOME after the next write (R223). -/
def State.recallSub (s : State) (sub : Nat) : State :=
  let g := sub / 16
  match Tab.find? g s.sys.own with
  | none => s
  | some o =>
    if !o.mask.getLsbD (sub % 16) then s
    else
      let pa := sub * 4096
      let home := pa / 0x2000000000
      let s := (List.range 32).foldl (fun s k => s.raiseLexp (pa + 128 * k) home (s.lexp (pa + 128 * k) o.w)) s
      let s := (List.range 32).foldl (fun s k =>
        let l := pa + 128 * k
        (if s.l2Dirty l o.w then s.l2Touch l home true else s).l2Drop l o.w) s
      let m := o.mask &&& ~~~(1#16 <<< (sub % 16))
      (s.setSys { s.sys with own := Tab.put g { o with mask := m } s.sys.own }).count (0x340 + home) 0x4F 1

/-- Whether an executing Quire invocation has touched a sub-granule in a range of them, which puts its recall off (R326). -/
def State.quireHolds (s : State) (lo hi : Nat) : Bool :=
  s.groups.any (fun e => e.2.q.running && e.2.q.touched.any (fun k => decide (lo ≤ k ∧ k < hi)))

/-! ### Events to the supervisor (R349) and signals to the host (R424) -/

def evBase : Nat := hubBase + 0x14000

/-- Whether bytes at a physical address may hold general data for the hub itself: HBM. -/
def isHbm (pa n : Nat) : Bool := match placeOf false pa, placeOf false (pa + n - 1) with
  | .hbm _ _, .hbm _ _ => true
  | _, _ => false

/-- Signals MSI-X vector `vec` of function `fn` (R424): none beyond the function's table; a masked one becomes pending. -/
def State.signal (s : State) (fn vec : Nat) : State :=
  if (if fn = 0 then 2048 else 64) ≤ vec then s
  else if s.hub.msixOpen.contains (fn, vec) then s.setHub { s.hub with msix := s.hub.msix ++ [(fn, vec)] }
  else s.setHub { s.hub with msixPend := s.hub.msixPend.filter (fun e => decide (e ≠ (fn, vec))) ++ [(fn, vec)] }

/-- The function whose vector an event record signals (R424): that of the partition of the context that the record names, function 0
where it names none (log entry 111). -/
def State.recordFn (s : State) (data : List Byte) : Nat :=
  if [0x50#8, 0x51#8, 0x53#8].contains (data.getD 0 0) then s.ctxPart ((data.getD 1 0).toNat % 64) else 0

/-- Whether a write of the hub is held on a line for LEXP (R213). -/
def State.holdLine (s : State) (pa : Nat) (on : Bool) : State :=
  let others := s.hub.holds.filter (fun l => decide (l ≠ pa / 128))
  if on then s.setHub { s.hub with holds := others ++ [pa / 128] }
  else if s.hub.holds.contains (pa / 128) then s.setHub { s.hub with holds := others } else s

/-- Writes the oldest event record that is posted (R349): a system-scope release, which waits for a page that is moved, a recall,
made as a tick ends, and the leases of its line (R213, R225, R226, R228). HEAD then advances, and a vector is signalled. -/
def State.writeRecord (s : State) (data : List Byte) (rest : List (List Byte)) : State :=
  let log := bits (s.reg (evBase + 8)) 0 5
  let head := (s.reg (evBase + 0x10)).toNat
  let pa0 := (s.reg evBase).toNat + 32 * head
  let pa := s.forwardPa pa0
  if s.migBlocked pa0 || s.quireHolds (pa / 4096) (pa / 4096 + 1) || (s.granted (pa / 4096) && !s.sys.recallNow) then s
  else
    let s := s.recallSub (pa / 4096)
    if s.tick.toNat < s.lexp pa (pa / 0x2000000000) then s.holdLine pa true
    else
      let s := ((s.holdLine pa false).setBytes pa data).l2Touch pa (pa / 0x2000000000) true
      let s := s.setHub { s.hub with records := rest }
      let s := s.setReg (evBase + 0x10) (BitVec.ofNat 64 ((head + 1) % 2 ^ log))
      let s := s.count 0x348 0xC5 1
      let vec := bits (s.reg (evBase + 8)) 5 11
      if vec = 0 then s else s.signal (s.recordFn data) (vec - 1)

/-- Writes the posted records, in order, as far as they may be written now. -/
def State.drainRecords (s : State) : State :=
  s.hub.records.foldl (fun s _ => match s.hub.records with
    | d :: t => s.writeRecord d t
    | [] => s) s

/-- The 32 bytes of a record: its code, its tick, its fields by offset and size, else zero. -/
def recordBytes (code tick : Nat) (fields : List (Nat × Nat × Nat)) : List Byte :=
  ((0, 1, code) :: (8, 8, tick) :: fields).foldl (fun (l : List Byte) f =>
    l.take f.1 ++ bytesOfNum f.2.1 f.2.2 ++ l.drop (f.1 + f.2.1)) (List.replicate 32 0)

/-- Notes what hardware has changed of a register in this tick (R4): bits that it has set, or the increments of a count. -/
def State.noteHw (s : State) (a : Nat) (v : Word) : State := { s with dbg := { s.dbg with hw := Tab.set 0 a v s.dbg.hw } }
def State.hw (s : State) (a : Nat) : Word := Tab.get 0 a s.dbg.hw

/-- Hardware sets bits of a register. -/
def State.hwSet (s : State) (a : Nat) (m : Word) : State := (s.setReg a (s.reg a ||| m)).noteHw a (s.hw a ||| m)

/-- Hardware adds one to a 32-bit count that a read clears. -/
def State.hwCount (s : State) (a : Nat) : State :=
  (s.setReg a (BitVec.ofNat 64 ((bits (s.reg a) 0 32 + 1) % 2 ^ 32))).noteHw a (s.hw a + 1)

/-- Whether the ring has no room for another record beside those that are still to be written. -/
def State.eventsFull (s : State) : Bool :=
  let log := bits (s.reg (evBase + 8)) 0 5
  let head := (s.reg (evBase + 0x10)).toNat
  let tail := bits (s.reg (evBase + 0x18)) 0 16
  decide ((head + s.hub.records.length + 1) % 2 ^ log = tail)

/-- Posts an event record (R349): its code, its tick and its other bytes by offset. One that finds the ring full waits for the end of
its tick, for a write of TAIL in the same tick goes first (R351). -/
def State.postEvent (s : State) (code : Nat) (fields : List (Nat × Nat × Nat)) : State :=
  let b := recordBytes code s.tick.toNat fields
  if s.eventsFull || !s.hub.posts.isEmpty then s.setHub { s.hub with posts := s.hub.posts ++ [b] }
  else (s.setHub { s.hub with records := s.hub.records ++ [b] }).drainRecords

/-- The records that found the ring full are posted as far as software has made room, in order (R351). -/
def State.admitPosts (s : State) : State :=
  (s.hub.posts.foldl (fun s _ => match s.hub.posts with
    | b :: t => if s.eventsFull then s else s.setHub { s.hub with records := s.hub.records ++ [b], posts := t }
    | [] => s) s).drainRecords

/-- As a tick ends the records for which there is no room are dropped and counted (R349, R351). -/
def State.dropPosts (s : State) : State :=
  s.hub.posts.foldl (fun s _ => s.hwCount (evBase + 0x20)) (s.setHub { s.hub with posts := [] })

/-- A context fault record, code 0x50 (R342). -/
def State.postCtxFault (s : State) (ctx fn cause detail core : Nat) : State :=
  s.postEvent 0x50 [(1, 1, ctx), (2, 1, fn), (0x10, 1, cause), (0x11, 1, detail), (0x18, 2, core)]

/-! ### Runs (R29, R30, R38) -/

/-- Whether a save of a context is under way (R199). -/
def State.saving (s : State) (c : Nat) : Bool := decide ((s.ctx c).cmd = 1 ∨ (s.ctx c).cmd = 2)

/-- Frees the port a group holds. -/
def State.releasePort (s : State) (g : Nat) : State :=
  match (s.grp g).port with
  | some p => (s.setPort (s.grp g).core p .free).updGrp g (fun x => { x with port := none })
  | none => s

/-- Makes a group eligible in this tick (R343). -/
def State.eligible (s : State) (g : Nat) : State :=
  s.updGrp g (fun x => { x with sched := { x.sched with since := s.tick } })

/-- Entries below this index are not aged: the handler's runs age none below EntryDepth (R195). -/
def Group.ageBase (g : Group) : Nat := if g.trap.active then g.trap.entryDepth else 0

/-- The end of a run (R29, R38): the ageing step and its switch; the port is free. `keep` keeps the run offset, where a run ends
before a word for an empty source (R33). -/
def State.endRun (s : State) (g : Nat) (keep : Bool) : State :=
  let limit := (s.ctxRegs (s.grp g).core (s.grp g).ctx).ageLimit.toNat
  let f := (s.grp g).flow
  let base := (s.grp g).ageBase
  let switch := (overdue (f.aged base) limit).isSome
  let s := if switch then s.count (s.grp g).core 0x16 1 else s
  let s := s.updGrp g (fun x => { x with
    flow := ({ f with run := if keep then f.run else 0 } : Flow).age base limit,
    sched := { x.sched with switched := switch, kept := keep } })
  (s.releasePort g).eligible g

/-! ### Traps (R186, R195, R196, R437) -/

/-- A trap to be taken: what the trap registers are to hold, and the word that raised it. -/
structure TrapReq where
  cause : Nat
  info : Word
  addr : Word
  lanes : Mask
  pc : PC
  resume : PC
  deriving DecidableEq, Repr

/-- Halts a group (R101): it keeps its slot and state and issues nothing. -/
def State.haltGroup (s : State) (g : Nat) : State :=
  (s.releasePort g).updGrp g (fun x => { x with sched := { x.sched with halted := true } })

/-- The trap registers (R97, R195). -/
def TrapState.record (t : TrapState) (q : TrapReq) : TrapState :=
  { t with cause := BitVec.ofNat 7 q.cause, pc := q.pc, addr := q.addr, info := q.info, lanes := q.lanes }

/-- TAKING A TRAP (R195, R196): the trap registers are written; the resume state is kept; the group enters supervisor state with
every lane that has neither exited nor been deferred, in no region, at the context's handler. A trap while one is active, or a
handler address of zero, halts the group and posts a context fault record. The group gives its port back and is eligible from
this tick, as at a return from a trap, on which the rules are silent (log entry 98). -/
def State.takeTrap (s : State) (g : Nat) (q : TrapReq) : State :=
  let x := s.grp g
  let s := s.count x.core 0x15 1
  let vec := (s.ctxRegs x.core x.ctx).trapVec
  let detail := if q.cause = 0x07 ∨ (0x10 ≤ q.cause ∧ q.cause ≤ 0x16) then bits q.info 0 4 else 0
  if x.trap.active then
    -- a double trap: the new cause stands, the saved resume state is kept
    ((s.updGrp g (fun x => { x with trap := { x.trap with cause := BitVec.ofNat 7 q.cause } })).haltGroup g).postCtxFault
      x.ctx 0 q.cause detail x.core
  else if vec = 0 then
    ((s.updGrp g (fun x => { x with trap := x.trap.record q })).haltGroup g).postCtxFault x.ctx 0 q.cause detail x.core
  else
    let t := { x.trap.record q with
      active := true, resumePC := q.resume, resumeMask := x.flow.mask, resumeRegion := x.flow.region,
      resumeRun := x.flow.run, supSaved := x.sup, entryDepth := x.flow.stack.length, resumeKept := x.sched.kept }
    ((s.updGrp g (fun x =>
      { x with trap := t, sup := true, pending := x.pending.map (fun p => { p with held := true }),
               sched := { x.sched with need := [], kept := false },
               flow := { x.flow.setMask allLanes with region := none, run := 0, pc := vec } })).releasePort g).eligible g

/-- An immediate trap of the word at the program counter (R79, R186): for the whole group, before any effect. -/
def State.trapNow (s : State) (g cause : Nat) (info addr : Word) : State :=
  let x := s.grp g
  s.takeTrap g { cause := cause, info := info, addr := addr, lanes := x.flow.mask, pc := x.flow.pc, resume := x.flow.pc }

/-- The same naming all lanes: matrix words (R163, R186). -/
def State.trapAll (s : State) (g cause : Nat) (info addr : Word) : State :=
  let x := s.grp g
  s.takeTrap g { cause := cause, info := info, addr := addr, lanes := allLanes, pc := x.flow.pc, resume := x.flow.pc }

/-- A decode trap (R78, R79): it names the mask before the word, for every opcode (R79; what R186 says of the lanes of a matrix
word is of the checks that R41 makes at its issue: log entry 89). -/
def State.decodeTrap (s : State) (g : Nat) (t : DTrap) : State :=
  match t with
  | .illegalOp n => s.trapNow g 0x01 (BitVec.ofNat 64 n) 0
  | .illegalPair n b => s.trapNow g 0x02 (BitVec.ofNat 64 (n + if b then 16 else 0)) 0
  | .priv n => s.trapNow g 0x06 (BitVec.ofNat 64 n) 0
  | .quireUnbound k => s.trapNow g 0x30 (BitVec.ofNat 64 (16 * k)) 0

/-- Keeps an end-of-word trap for the group's next boundary (R186, R437). -/
def State.trapLater (s : State) (g : Nat) (t : PendTrap) : State :=
  s.updGrp g (fun x => { x with pending := x.pending ++ [t] })

/-- The number of this package, which its requests, flits and acknowledgements carry (R356). -/
def State.pkgId (s : State) : Nat := bits (s.reg (hubBase + 0x52048)) 0 12

/-- Puts a number in its place of a rising list. -/
def insertNat (x : Nat) : List Nat → List Nat
  | [] => [x]
  | y :: t => if x ≤ y then x :: y :: t else y :: insertNat x t

/-- A list of numbers in rising order. -/
def sortNat (l : List Nat) : List Nat := l.foldr insertNat []

/-- Sizes of the blocks of a save area (R200, R201); the lane report block stands at offset 0x1000 of a group's block. -/
def groupBlockSize (vregs : Nat) : Nat := (26624 + 384 * vregs + 4095) / 4096 * 4096
def teamBlockSize (t : Team) : Nat := 0xB000 + t.acc * 16384 + t.acc * 65536 + (t.localSize + 4095) / 4096 * 4096

/-- The room of a team in a save area: its team block, then its group blocks (R201). -/
def Team.blocks (t : Team) : Nat := teamBlockSize t + t.groups * groupBlockSize t.vregs

/-- The teams of a context, in place and saved. -/
def State.teamsOf (s : State) (c : Nat) : List Team :=
  ((s.teams.filter (fun e => decide (e.2.ctx = c))).map Prod.snd) ++
    (match Tab.find? c s.hub.saved with | some v => v.teams.map Prod.snd | none => [])

/-- The lowest offset in a context's save area at which the blocks of a new team overlap no other team's: R200 gives the blocks'
sizes and R191 fixes a place, but no rule says which (log entry 100). -/
def State.freeBase (s : State) (c n : Nat) : Nat :=
  let ts := s.teamsOf c
  let ends := sortNat (0 :: ts.map (fun t => t.base + t.blocks))
  (ends.find? (fun b => ts.all (fun t => decide (b + n ≤ t.base ∨ t.base + t.blocks ≤ b)))).getD 0

/-- The offset of a group's block in its context's save area: its team's place is fixed when the team is placed, so that a lane
report stays where TRAP_INFO names it (R191). -/
def State.groupOffset (s : State) (g : Nat) : Nat :=
  let x := s.grp g
  let t := s.team x.team
  t.base + teamBlockSize t + x.idx * groupBlockSize x.vregs

/-- Writes the lane report block of a list of records (R191) at the physical save area. -/
def State.writeReport (s : State) (g : Nat) (recs : List DefRec) : State :=
  let x := s.grp g
  let pa := s.forwardPa ((s.reg (ctxEntry x.ctx + 0x10)).toNat + s.groupOffset g + 0x1000)
  recs.foldl (fun s r =>
    let s := s.store (pa + 8 * r.lane) 8 r.addr.toNat
    let s := s.store (pa + 0x300 + 8 * r.lane) 8 (8 * r.pc.toNat)
    let s := s.store (pa + 0x600 + r.lane) 1 r.cause
    s.store (pa + 0x660 + r.lane) 1 r.detail) (s.setBytes pa (List.replicate 2048 0))

/-- The words of a list of records, without repeats, in order of first record. -/
def recWords (recs : List DefRec) : List PC := recs.foldl (fun l r => if l.contains r.pc then l else l ++ [r.pc]) []

/-- The lane reported in the trap registers: the lowest of the earliest word (R190). -/
def firstRec (recs : List DefRec) : Option DefRec :=
  match recs with
  | [] => none
  | r :: _ => (recs.filter (fun q => decide (q.pc = r.pc))).foldl
      (fun b q => match b with | some c => if q.lane < c.lane then some q else b | none => some q) none

/-- The records that no deferred trap has reported yet (R189), those made before a trap that is active among them: what another trap
leaves pending has its settle point in the handler (log entry 113). -/
def Group.dueDefs (g : Group) : List DefRec := g.defs.filter (fun r => !r.taken)

/-- The deferred trap at its settle point (R189 to R191): one trap for all records that are due. While a trap is active it is a double
trap (R195, R196). The report holds every lane's record. -/
def State.settle (s : State) (g : Nat) : State :=
  let x := s.grp g
  let due := x.dueDefs
  match firstRec due with
  | none => s
  | some r =>
    let s := s.writeReport g x.defs
    let rep : Word := (s.reg (ctxEntry x.ctx + 0x18)) + BitVec.ofNat 64 (s.groupOffset g + 0x1000)
    let mixed := due.any (fun q => decide (q.cause ≠ r.cause))
    let info : Word := (rep &&& ~~~0x7FF#64) ||| BitVec.ofNat 64
      ((((recWords due).length - 1) % 4) * 32 + (if mixed then 16 else 0) + r.detail % 16)
    (s.updGrp g (fun x => { x with defs := x.defs.map (fun k => { k with taken := true }) })).takeTrap g
      { cause := r.cause, info := info, addr := r.addr, lanes := maskOfLanes (due.map DefRec.lane), pc := r.pc, resume := x.flow.pc }

/-- Whether records must settle after a word (R189): the mask is empty, or as many words have records as may. -/
def Group.settleAfter (g : Group) : Bool :=
  let d := g.dueDefs
  !d.isEmpty &&
    (decide (g.flow.mask = 0) || decide (max 1 (min 4 (32 - g.flow.stack.length)) ≤ (recWords d).length))

/-! ### The end of a group (R36, R37, R133, R339) -/

/-- Whether a barrier completes: as many have arrived as are needed, or as many as live (R133). -/
def Barrier.full (b : Barrier) (live : Nat) : Bool := !b.arrived.isEmpty && decide (min b.need live ≤ b.arrived.length)

/-- Leaving a barrier (R133, R134). -/
def State.leaveBarrier (s : State) (g : Nat) : State :=
  (s.updGrp g (fun x => { x with sched := { x.sched with susp := .none } })).eligible g

/-- The cores whose L1s a team's cluster fuses, in order of their members; none where it fuses none (R215). -/
def State.fuseOf (s : State) (team : Nat) : List Nat :=
  let k := s.cluster (s.team team).cluster
  if k.fused then k.cores else []

/-- The core whose slice of a fused L1 holds a line; a core's own otherwise (R215). -/
def ownerOf (fuse : List Nat) (core pa : Nat) : Nat := (fuse[pa / 128 % fuse.length]?).getD core

def State.l1Owner (s : State) (core pa : Nat) (grp : Nat) : Nat := ownerOf (s.fuseOf (s.grp grp).team) core pa

/-- The same for a word, also after its group has ended. -/
def WordInfo.owner (i : WordInfo) (core pa : Nat) : Nat := ownerOf i.fuse core pa

/-- Drops every lease of a core's L1, and the leases of fills on their way there: those that a slice has answered, and those of
loads that are still to be read there (R214). -/
def State.dropLeases (s : State) (core : Nat) : State :=
  let s := s.updCore core (fun k => { k with l1 := [] })
  s.setSys { s.sys with
    fills := s.sys.fills.map (fun f => if f.core = core then { f with expiry := 0 } else f),
    reqs := s.sys.reqs.map (fun q =>
      if q.accs.any (fun p => decide (p.acc.op = .load) && decide (q.info.owner q.core p.pa = core))
      then { q with noLease := true } else q) }

/-- The cores of a team's cluster. -/
def State.clusterCores (s : State) (t : Nat) : List Nat := (s.cluster (s.team t).cluster).cores

/-- An acquire of group `g` at a scope on LS (R214, R215): cluster scope or wider empties the core's L1; in a fused cluster,
cluster scope drops nothing and wider scopes empty every member's slice. -/
def State.acquire (s : State) (g : Nat) (sc : Scope) : State :=
  let x := s.grp g
  let fused := (s.cluster (s.team x.team).cluster).fused
  match sc with
  | .group | .team => s
  | .cluster => if fused then s else s.dropLeases x.core
  | _ => if fused then (s.clusterCores x.team).foldl State.dropLeases s else s.dropLeases x.core

/-- The live groups of a team. -/
def State.liveGroups (s : State) (t : Nat) : List Nat := (s.team t).members

/-- The live groups of a cluster. -/
def State.liveCluster (s : State) (c : Nat) : List Nat := ((s.cluster c).teams).flatMap s.liveGroups

/-- Completes team barrier `id` of team `t` where it is full (R133). -/
def State.testBar (s : State) (t id : Nat) : State :=
  let tm := s.team t
  let b := Tab.get Barrier.reset id tm.bars
  if b.full tm.members.length then
    let s := s.setTeam t { tm with bars := Tab.set Barrier.reset id { gen := b.gen + 1, arrived := [], need := 0 } tm.bars }
    b.arrived.foldl (fun s g => (s.leaveBarrier g).acquire g .team) s
  else s

/-- Completes the barrier of cluster `c` where it is full (R134). -/
def State.testCbar (s : State) (c : Nat) : State :=
  let k := s.cluster c
  if k.bar.full (s.liveCluster c).length then
    let s := s.setCluster c { k with bar := { gen := k.bar.gen + 1, arrived := [], need := 0 } }
    k.bar.arrived.foldl (fun s g => (s.leaveBarrier g).acquire g .cluster) s
  else s

/-- STATE of a context table entry (R354): 0 idle, 1 resident, 2 saved, 3 killed. -/
def State.ctxState (s : State) (c : Nat) : Nat := bits (s.reg (ctxEntry c)) 12 2
def State.setCtxState (s : State) (c n : Nat) : State :=
  s.setReg (ctxEntry c) ((s.reg (ctxEntry c) &&& ~~~0x3000#64) ||| BitVec.ofNat 64 (n * 0x1000))

/-- A context none of whose teams is resident any more is idle. -/
def State.ctxIdle (s : State) (c : Nat) : State :=
  if s.ctxState c = 1 && s.teams.all (fun e => decide (e.2.ctx ≠ c)) then s.setCtxState c 0 else s

/-- Ends a team whose last group has ended: its core resources are free (R37), and its grid may complete (R339). -/
def State.endTeam (s : State) (t : Nat) : State :=
  let tm := s.team t
  let s := { s with teams := Tab.del t s.teams }
  let k := s.cluster tm.cluster
  let left := k.teams.filter (fun u => (Tab.find? u s.teams).isSome)
  let s := if left.isEmpty then { s with clusters := Tab.del tm.cluster s.clusters } else s
  let s := s.setHub { s.hub with grids := s.hub.grids.map (fun x =>
    if x.id = tm.grid then { x with ended := x.ended ++ [t] } else x) }
  (s.ctxIdle tm.ctx).post (.gridComplete tm.grid)

/-- Ends a team whose groups have ended, once its matrix words, engine commands and publications from its share are done. Its room on
the core is free from the end of its last group (R37); what such work still reads is what it left there (log entry 33). -/
def State.tryEndTeam (s : State) (t : Nat) : State :=
  if (Tab.find? t s.teams).isSome && (s.team t).members.isEmpty && (s.team t).mx.isEmpty &&
      s.sys.engs.all (fun c => decide (c.team ≠ t)) &&
      s.fab.pubs.all (fun p => decide (p.team ≠ t) || !p.lsrc || decide (p.len ≤ p.sent)) then s.endTeam t
  else s

/-- IDENT of a group: bits [38:0] of a chunk (R397). -/
def identOf (grid team grp : Nat) : Nat := grid % 256 * 2 ^ 31 + team % 2 ^ 25 * 2 ^ 6 + grp % 64

/-- The mode of record and replay of a group's grid, and the group's IDENT. -/
def State.rrOf (s : State) (x : Group) : Nat × Nat :=
  ((s.team x.team).rrMode, identOf (s.team x.team).rrGrid (s.team x.team).linear x.idx)

/-- GroupEnd (R36, R37): the slot and the registers are free, barriers are tested again (R133), and the team ends with its last
group. -/
def State.endGroup (s : State) (g : Nat) : State :=
  let x := s.grp g
  let t := x.team
  let s := s.releasePort g
  let s := { s with groups := Tab.del g s.groups }
  -- nothing returns to its registers; what is parked is still to be performed (R339)
  let s := s.setSys { s.sys with
    words := s.sys.words.filter (fun w => decide (w.info.grp ≠ g)),
    results := s.sys.results.filter (fun r => decide (r.2.grp ≠ g)),
    orphans := s.sys.orphans ++ x.mem.logs.map (fun l => { core := x.core, ctx := x.ctx, sup := x.sup, log := l }),
    lateFences := s.sys.lateFences ++ (if (s.team t).rrMode = 0 then [] else
      (x.mem.fences.filter (fun f => f.each && decide (f.scope = .system))).map (fun f =>
        { fence := f, grp := g, team := t, ctx := x.ctx, mode := (s.team t).rrMode,
          ident := identOf (s.team t).rrGrid (s.team t).linear x.idx, crc := x.mem.crc })) }
  let r := Tab.get Replay.reset x.ctx s.dbg.replay
  let s := if (s.team t).rrMode = 0 then s
    else { s with dbg := { s.dbg with
             replay := Tab.set Replay.reset x.ctx { r with crc := r.crc ^^^ x.mem.crc } s.dbg.replay } }
  let s := s.updTeam t (fun tm => { tm with
    members := tm.members.filter (fun u => decide (u ≠ g)),
    gens := if tm.mx.any (fun e => decide (e.grp = g)) then Tab.put g x.fp.mgens tm.gens else tm.gens })
  let s := (s.team t).bars.foldl (fun s b => s.testBar t b.1) s
  let s := s.testCbar (s.team t).cluster
  s.tryEndTeam t

/-- PathEnd on a group (R36). -/
def State.pathEnd (s : State) (g : Nat) : State :=
  match Flow.pathEnd 33 (s.grp g).flow with
  | .run f => s.updGrp g (fun x => { x with flow := f })
  | .ended _ => s.endGroup g

/-- THE RETURN FROM A TRAP (R198), its depth checks apart: the resume state comes back, the failing lanes become retry paths in
ascending order of their words, or exit with `drop`. Where the interrupted run had ended, they stand when the next one begins and
age at its end (R38). The group gives its port back and is eligible anew (log entry 98). -/
def State.returnFromTrap (s : State) (g : Nat) (drop skip : Bool) : State :=
  let x := s.grp g
  let t := x.trap
  let words := sortNat ((recWords x.defs).map BitVec.toNat)
  let lanesOfWord (w : Nat) := maskOfLanes ((x.defs.filter (fun r => decide (r.pc.toNat = w))).map DefRec.lane)
  let all := maskOfLanes (x.defs.map DefRec.lane)
  let flow : Flow := { x.flow with
    pc := t.resumePC + (if skip then 1 else 0), mask := t.resumeMask &&& ~~~x.flow.exited, deferred := 0,
    region := t.resumeRegion, run := t.resumeRun }
  let flow := if drop then flow.exitLanes all
    else words.foldl (fun f w => f.push
      { kind := .path, addr := BitVec.ofNat 54 w, mask := lanesOfWord w &&& ~~~f.exited, link := t.resumeRegion, age := 0,
        fresh := decide (t.resumeRun ≠ 0) && !t.resumeKept }) flow
  let s := s.setGrp g { x with flow := flow, sup := t.supSaved, defs := [], trap := { t with active := false },
                               sched := { x.sched with kept := t.resumeKept } }
  ((if (s.grp g).flow.mask = 0 then s.pathEnd g else s).releasePort g).eligible g

end Sys2Proof.Machine
end

