-- ==== Sys2Proof/Machine/Operands.lean ====
section
/-!
DEFINITION. Machine/Operands.lean: reading and writing operands, and the issue of a word: its decode checks, its guard, its
full/empty policies, and what follows it (R23 to R34, R66, R104, R105, R189).
-/
namespace Sys2Proof

/-- Cuts to the width of a type, zero-extended. -/
def ITy.cut (t : ITy) (v : Word) : Word := if t.wide then v else (v.setWidth 32).setWidth 64

/-- The value of w bits under a type (R104). -/
def ITy.val (t : ITy) (v : Word) : Int :=
  match t with
  | .u32 => ((v.setWidth 32).toNat : Int)
  | .s32 => (v.setWidth 32).toInt
  | .u64 => (v.toNat : Int)
  | .s64 => v.toInt

/-- IMM22 extended under a type (R103). -/
def ITy.imm (t : ITy) (i : BitVec 22) : Word := t.cut (if t.signed then i.signExtend 64 else i.setWidth 64)

/-- Lo(T) and Hi(T) (R106). -/
def ITy.lo : ITy → Int
  | .u32 | .u64 => 0
  | .s32 => -2 ^ 31
  | .s64 => -2 ^ 63
def ITy.hi : ITy → Int
  | .u32 => 2 ^ 32 - 1
  | .u64 => 2 ^ 64 - 1
  | .s32 => 2 ^ 31 - 1
  | .s64 => 2 ^ 63 - 1

def ITy.bits (t : ITy) : Nat := if t.wide then 64 else 32

/-- An exact integer reduced modulo 2^w, or clamped first with `sat` (R108). -/
def ITy.narrow (t : ITy) (sat : Bool) (e : Int) : Word :=
  let e := if sat then (if e < t.lo then t.lo else if t.hi < e then t.hi else e) else e
  t.cut (BitVec.ofInt 64 e)

/-- A result of w bits extended to 64 by the signedness of its type: what a scalar destination holds (R104). -/
def ITy.ext (t : ITy) (v : Word) : Word :=
  match t with
  | .u32 => (v.setWidth 32).setWidth 64
  | .s32 => (v.setWidth 32).signExtend 64
  | .u64 | .s64 => v

/-- The full/empty indices of the registers a use names: vN is N, sN is 128 + N. -/
def Use.regs (u : Use) : List Nat :=
  match u.o with
  | .v n => (List.range u.n).map (fun k => n.val + k)
  | .s n => (List.range u.n).map (fun k => 128 + n.val + k)
  | _ => []

/-- A source as the check sees it: its field code (a 0, b 1, c 2, dst 3), its policy, its registers. -/
structure SrcUse where
  field : Nat
  trap : Bool
  regs : List Nat
  deriving DecidableEq, Repr

/-- The sources of a full word in the order a, b, c, dst. -/
def Form.srcs (f : Form) : List SrcUse :=
  let code (u : Use) : Nat := if u.inDst then 3 else match u.fe with | some .b => 1 | some .c => 2 | _ => 0
  let all := f.uses.filterMap (fun u => u.fe.map (fun b => (⟨code u, f.h.fe b, u.regs⟩ : SrcUse)))
  [0, 1, 2, 3].flatMap (fun k => all.filter (fun u => decide (u.field = k)))

/-- The BND bit of a word (R68, R72). -/
def Instr.bnd (i : Instr) : Bool :=
  match i with
  | .pairedWord b _ _ => b
  | .boundOpcode h _ _ _ _ _ _ => h.bnd
  | i => match i.form with
    | some f => f.h.bnd
    | none => false

/-- Whether a word that decoding rejects is, by its opcode, one before which deferred records settle (R189). -/
def opcodeSettles (control : Bool) (w : Word) : Bool :=
  if w.getLsbD 62 then decide (bits w 25 6 = 0x2F)
  else
    let o := bits w 54 8
    [0x60, 0x61, 0x62, 0x63, 0x64, 0x65, 0x66, 0x68, 0x69, 0x6B, 0x6C, 0x6D, 0x6E, 0x8D, 0x8E, 0x90, 0x91, 0xA1, 0xA3, 0xD0, 0xD1,
      0xD6, 0xD7, 0xDB].contains o || decide (0xE0 ≤ o ∧ o ≤ 0xEF) || (!control && decide (0xC0 ≤ o ∧ o ≤ 0xC8))

/-- The words before which deferred records settle (R189). -/
def Instr.settlesBefore : Instr → Bool
  | .bra .. | .brau .. | .call .. | .callReg .. | .ret .. | .jmark .. | .join .. | .brk .. | .exit .. | .yield ..
  | .sleep .. | .bar .. | .cbar .. | .mbar .. | .waitv .. | .waitvDeadlineForm .. | .ewait .. | .cpyw .. | .halt ..
  | .trap .. | .rte .. | .rteDrop .. | .rteSkip .. | .fence .. | .fencex .. | .launch .. | .launchAgg .. | .boundOpcode ..
  | .wbload .. | .mma .. | .aclr .. | .acvt .. | .amovToVector .. | .amovToTile .. | .mpoly .. | .miter .. | .mdrain ..
  | .coefl .. => true
  | .pairedWord _ _ y => y.op.isBra
  | _ => false

end Sys2Proof

namespace Sys2Proof.Machine

/-! ### Reading (R18, R104) -/

/-- A special's value for lane `l` of a group (R18). -/
def State.special (s : State) (x : Group) (k : Special) (l : Nat) : Word :=
  match k with
  | .lane => BitVec.ofNat 64 l
  | .beat => BitVec.ofNat 64 (l / 32)
  | .grp => BitVec.ofNat 64 x.idx
  | .team => (s.team x.team).index
  | .core => BitVec.ofNat 64 x.core
  | .clu => BitVec.ofNat 64 (s.team x.team).member
  | .die => BitVec.ofNat 64 (dieOfCore x.core)
  | .ticklow => (s.tick.setWidth 32).setWidth 64

/-- An operand in lane `l`, zero-extended to 64 bits. A predicate reads as 0 or 1. -/
def State.rd (s : State) (x : Group) (o : Operand) (l : Nat) : Word :=
  match o with
  | .v n => (x.vreg n l).setWidth 64
  | .s n => x.sreg n
  | .c n => (x.creg n).setWidth 64
  | .spec k => s.special x k l
  | .p n => if (x.preg n).getLsbD l then 1 else 0
  | .a _ | .rsvd _ | .zero => 0

/-- The w bits of Src(x) (R104): a vector source of a 64-bit signed type is sign-extended. -/
def State.src (s : State) (x : Group) (t : ITy) (o : Operand) (l : Nat) : Word :=
  match o with
  | .v n => if t.wide && t.signed then (x.vreg n l).signExtend 64 else (x.vreg n l).setWidth 64
  | o => t.cut (s.rd x o l)

/-! ### Writing (R26, R34, R104, R105) -/

/-- Writes `f l` to lane `l` of an operand, for the executing lanes: a scalar takes the highest lane's value (R26), a vector
its low 32 bits, a predicate its bit 0. With no lane, nothing. -/
def Group.write (x : Group) (d : Operand) (lanes : List Nat) (f : Nat → Word) : Group :=
  match lanes.getLast? with
  | none => x
  | some top =>
    match d with
    | .v n =>
      let x := lanes.foldl (fun x l => x.setLane n l ((f l).setWidth 32)) x
      { x with regs := x.regs.fill n }
    | .s n => x.setS n (f top)
    | .c n => x.setC n ((f top).setWidth 32)
    | .p n =>
      if n.val < 7 then
        x.setP n (lanes.foldl (fun m l => (m &&& ~~~(1#96 <<< l)) ||| (if (f l).getLsbD 0 then 1#96 <<< l else 0)) (x.preg n))
      else x
    | .a _ | .spec _ | .rsvd _ | .zero => x

/-- The result of a uniform word that ended its run and waited (R42, R267, R282, R298). -/
def Group.writeLate (x : Group) (d : Operand) (v : Word) : Group :=
  match d with
  | .s n => x.setLate n v
  | d => x.write d [0] (fun _ => v)

/-! ### Guards and policies (R25, R26, R33) -/

/-- The lanes in which a guard holds. -/
def Group.guardMask (x : Group) (h : Hdr) : Mask := if h.gn then ~~~(x.preg h.gp) else x.preg h.gp

/-- Exec: the active lanes whose guard holds (R26). -/
def Group.execMask (x : Group) (h : Hdr) : Mask := x.flow.mask &&& x.guardMask h

/-- A guard read for the whole group (R25). -/
inductive Guard where
  | run | skip | differ
  deriving DecidableEq, Repr

/-- Reads a mask of truth over the active lanes; `bare` is what holds with no lane active. -/
def uniRead (active truth : Mask) (bare : Bool) : Guard :=
  if active = 0 then (if bare then .run else .skip)
  else if active &&& truth = active then .run
  else if active &&& truth = 0 then .skip
  else .differ

def Group.uniGuard (x : Group) (h : Hdr) : Guard :=
  uniRead x.flow.mask (x.guardMask h) (decide (h.gp.val = 7) && !h.gn)

/-- The outcome of the full/empty check (R33). -/
inductive Policy where
  | ok
  | trap (info : Nat)
  | block (need : List Nat)
  deriving DecidableEq, Repr

/-- The full/empty check over sources in the order a, b, c, dst (R33). -/
def Group.policyOf (x : Group) (slotB : Bool) (l : List SrcUse) : Policy :=
  let bad := l.filterMap (fun u =>
    if u.trap then (u.regs.find? (fun r => !x.isFull r)).map (fun r => u.field + (if slotB then 16 else 0) + 32 * r) else none)
  match bad with
  | i :: _ => .trap i
  | [] =>
    match l.flatMap (fun u => u.regs.filter (fun r => !x.isFull r)) with
    | [] => .ok
    | need => .block need

/-! ### Issue -/

/-- What a word leaves to be done when its effect is made. -/
inductive Ends where
  /-- The next word follows. -/
  | on
  /-- The next word follows, in a new run. -/
  | run
  /-- A new run begins at an address. -/
  | jump (pc : PC)
  /-- The program counter stands as the word left it; the run ends. -/
  | moved
  /-- The word did not issue: it waits, its port held. -/
  | wait
  /-- Nothing more: a trap was taken, or the group ended. -/
  | done
  deriving DecidableEq, Repr

/-- What the decode checks know of a group (R78). -/
def State.env (s : State) (g : Nat) : Env :=
  let x := s.grp g
  let q := (s.ctxRegs x.core x.ctx).qbind
  -- an invocation that has begun keeps its binding (R313)
  let own : BitVec 16 := if x.q.active && decide (x.q.addr = x.flow.pc) then 1#16 <<< x.q.opx else 0
  { vregs := x.vregs, acc := (s.team x.team).acc, control := isControl x.core, sup := x.sup, trapActive := x.trap.active,
    bound := (List.range 16).foldl (fun m k => if (Tab.get 0 k q).getLsbD 63 then m ||| (1#16 <<< k) else m) own }

/-- A run ends: the ageing step, then the deferred trap that settles there (R38, R189). -/
def State.finishRun (s : State) (g : Nat) (keep : Bool) : State :=
  let s := s.endRun g keep
  if (s.grp g).dueDefs.isEmpty then s else s.settle g

/-- What follows a word (R29, R30, R189). -/
def State.retire (s : State) (g : Nat) (bnd : Bool) (e : Ends) : State :=
  let x := s.grp g
  let clear (s : State) : State := match x.port with
    | some p => s.setPort x.core p { s.port x.core p with waiting := false, used := true }
    | none => s
  match e with
  | .done => s
  | .wait => match x.port with
    | some p => s.setPort x.core p { s.port x.core p with waiting := true }
    | none => s
  | .on =>
    let s := (clear s).setGrp g { x with
      flow := { x.flow with pc := x.flow.pc + 1, run := x.flow.run + 1 }, sched := { x.sched with kept := false } }
    if bnd || decide (24 ≤ x.flow.run + 1) then s.finishRun g false
    else if (s.grp g).settleAfter then s.settle g else s
  | .run => ((clear s).setGrp g { x with flow := { x.flow with pc := x.flow.pc + 1 } }).finishRun g false
  | .jump pc => ((clear s).setGrp g { x with flow := { x.flow with pc := pc } }).finishRun g false
  | .moved => (clear s).finishRun g false

/-- A word of the group that holds the port in focus: deferred records that settle before it, its decode checks (R78), then
`body`, and what follows it. -/
def word (i : Instr) (s : State) (body : State → Nat → Group → State × Ends) : Host.Outcome State Fault Refusal :=
  match s.issuer with
  | none => .fault .noIssuingGroup
  | some g =>
    if i.settlesBefore && !(s.grp g).dueDefs.isEmpty then .next (s.settle g)
    else
      match i.check (s.env g) with
      | some t => .next (s.decodeTrap g t)
      | none =>
        let r := body s g (s.grp g)
        .next (r.1.retire g i.bnd r.2)

/-- Applies the full/empty check (R33): an empty source with the trap policy traps; one with the block policy ends the run
before the word. -/
def withPolicy (s : State) (g : Nat) (p : Policy) (k : State × Ends) : State × Ends :=
  match p with
  | .ok => k
  | .trap info => (s.trapNow g 0x05 (BitVec.ofNat 64 info) 0, .done)
  | .block need =>
    let s := (s.count (s.grp g).core 0x05 1).updGrp g (fun x => { x with sched := { x.sched with need := need } })
    (s.finishRun g true, .done)

/-- The policy check of a full word. -/
def Group.policy (x : Group) (i : Instr) : Policy :=
  match i.form with
  | some f => x.policyOf false f.srcs
  | none => .ok

/-- A word executed per lane: `body` gets the executing lanes (R26, R105). -/
def laneWord (i : Instr) (h : Hdr) (s : State) (body : State → Nat → Group → Mask → State × Ends) :
    Host.Outcome State Fault Refusal :=
  word i s (fun s g x => withPolicy s g (x.policy i) (body s g x (x.execMask h)))

/-- A word executed once for the group (R25): `body` runs where the guard holds. -/
def uniWord (i : Instr) (h : Hdr) (s : State) (body : State → Nat → Group → State × Ends) :
    Host.Outcome State Fault Refusal :=
  word i s (fun s g x =>
    match x.uniGuard h with
    | .differ => (s.trapNow g 0x04 1 0, .done)
    | .skip => withPolicy s g (x.policy i) (s, .on)
    | .run => withPolicy s g (x.policy i) (body s g x))

/-- A data word: per lane, or once where UNI is set; `lanes` lists the lanes that execute (lane 0 stands for the group). -/
def dataWord (i : Instr) (h : Hdr) (s : State) (body : State → Nat → Group → List Nat → State × Ends) :
    Host.Outcome State Fault Refusal :=
  if h.uni then uniWord i h s (fun s g x => body s g x [0])
  else laneWord i h s (fun s g x e => body s g x (lanesOf e))

/-- A data word that writes `val l` to `d` and does nothing else. -/
def aluWord (i : Instr) (h : Hdr) (d : Operand) (s : State) (val : Group → Nat → Word) : Host.Outcome State Fault Refusal :=
  dataWord i h s (fun s g x lanes => (s.setGrp g (x.write d lanes (val x)), .on))

end Sys2Proof.Machine
end

