-- ==== Sys2Proof/Machine/Flags.lean ====
section
/-!
DEFINITION. Machine/Flags.lean: compare conditions, carries, and the floating-point flags, modes and operands of a group
(R59, R60, R75, R109, R116, R139, R140).
-/
namespace Sys2Proof.Machine

/-! ### Compare conditions (R75, R116) -/

/-- Cmp on two values of w bits: the condition fixes the signedness, the type only the width (R116). -/
def icmpHolds (cc : Cond) (wide : Bool) (a b : Word) : Bool :=
  let su : Word → Int := fun v => if wide then v.toInt else (v.setWidth 32).toInt
  let un : Word → Nat := fun v => if wide then v.toNat else (v.setWidth 32).toNat
  match cc with
  | .eq => decide (un a = un b)
  | .ne => decide (un a ≠ un b)
  | .lt => decide (su a < su b)
  | .le => decide (su a ≤ su b)
  | .gt => decide (su b < su a)
  | .ge => decide (su b ≤ su a)
  | .ltu => decide (un a < un b)
  | .geu => decide (un b ≤ un a)

/-- Cmp on two floating-point values, with the invalid flag of R75; codes 6 and 7 are ord and unord. -/
def fcmpHolds (cc : Cond) (x y : Val) : Bool × FFlags :=
  let un := x.isNan || y.isNan
  let quiet := nvIf (x.sigNan || y.sigNan)
  let o := cmpV x y
  match cc with
  | .eq => (!un && decide (o = .eq), quiet)
  | .ne => (un || decide (o ≠ .eq), quiet)
  | .lt => (!un && decide (o = .lt), nvIf un)
  | .le => (!un && decide (o ≠ .gt), nvIf un)
  | .gt => (!un && decide (o = .gt), nvIf un)
  | .ge => (!un && decide (o ≠ .lt), nvIf un)
  | .ltu => (!un, quiet)
  | .geu => (un, quiet)

/-! ### Carries (R109) -/

/-- Sum with carry in: result of w bits and carry out. -/
def addCarry (t : ITy) (x y : Word) (c : Bool) : Word × Bool :=
  let e := (t.cut x).toNat + (t.cut y).toNat + (if c then 1 else 0)
  (t.cut (BitVec.ofNat 64 e), decide (2 ^ t.bits ≤ e))

/-- Difference with borrow in: result of w bits and borrow out. -/
def subBorrow (t : ITy) (x y : Word) (c : Bool) : Word × Bool :=
  let e : Int := ((t.cut x).toNat : Int) - (t.cut y).toNat - (if c then 1 else 0)
  (t.cut (BitVec.ofInt 64 e), decide (e < 0))

/-! ### FP_CTL and FP_FLAGS (R59, R60) -/

def FpState.daz (f : FpState) : Bool := f.ctl.getLsbD 4
def FpState.ftz (f : FpState) : Bool := f.ctl.getLsbD 3

/-- FP_FLAGS gains flags (R60). -/
def Group.addFlags (x : Group) (f : FFlags) : Group := { x with fp := { x.fp with flags := x.fp.flags ||| f } }

/-- A rounding mode with DYN taken from FP_CTL (R56, R59). -/
def FpState.rmode (f : FpState) (m : RMode) : RMode :=
  match m with
  | .dyn => match bits f.ctl 0 3 with
    | 1 => .rtz | 2 => .rdn | 3 => .rup | 4 => .rna | 5 => .sr | _ => .rne
  | m => m

/-- A mode for a destination that is neither 8-bit nor 4-bit: SR, which only DYN can bring, is RNE (R140). -/
def RMode.plain (m : RMode) : Mode :=
  match m with
  | .rtz => .rtz | .rdn => .rdn | .rup => .rup | .rna => .rna
  | _ => .rne

/-- The mode in force for an arithmetic word. -/
def Group.mode (x : Group) (m : RMode) : Mode := RMode.plain (x.fp.rmode m)

/-! ### Floating-point operands (R138 to R140) -/

/-- ABS and NEG on a bit pattern (R139). -/
def modBits (f : FFmt) (m : FMod) (c : Nat) : Nat :=
  let c := if m.abs then c % 2 ^ (f.w - 1) else c
  if m.neg then (c + 2 ^ (f.w - 1)) % 2 ^ f.w else c

/-- A code whose magnitude is subnormal. -/
def isSubnormal (f : FFmt) (c : Nat) : Bool :=
  let a := c % 2 ^ (f.w - 1)
  decide (a ≠ 0 ∧ a < 2 ^ (f.p - 1))

/-- Read (R140): the exact value of a pattern, a subnormal read as zero of its sign under DAZ. -/
def readF (f : FFmt) (daz : Bool) (c : Nat) : Val :=
  if daz && isSubnormal f c then .fin (decide (2 ^ (f.w - 1) ≤ c)) 0 0 else decodeF f c

/-- The pattern of a source under its modifiers: the low bits of what is read (R138, R139). -/
def State.fbits (s : State) (x : Group) (f : FFmt) (m : FMod) (o : Operand) (l : Nat) : Nat :=
  modBits f m ((s.rd x o l).toNat % 2 ^ f.w)

/-- Read(Mod(x)) of a source. -/
def State.fval (s : State) (x : Group) (f : FFmt) (m : FMod) (o : Operand) (l : Nat) : Val :=
  readF f x.fp.daz (s.fbits x f m o l)

/-- An FP word's result for each lane with its flags: writes the results and adds the flags of all lanes (R60). -/
def Group.writeF (x : Group) (d : Operand) (lanes : List Nat) (f : Nat → Nat × FFlags) : Group :=
  let rs := lanes.map (fun l => (l, f l))
  let x' := x.write d lanes (fun l => BitVec.ofNat 64 (Tab.get (0, 0) l rs).1)
  x'.addFlags (rs.foldl (fun a r => a ||| r.2.2) 0)

/-- An FP data word that writes `val l` and does nothing else. -/
def fpWord (i : Instr) (h : Hdr) (d : Operand) (s : State) (val : Group → Nat → Nat × FFlags) :
    Host.Outcome State Fault Refusal :=
  dataWord i h s (fun s g x lanes => (s.setGrp g (x.writeF d lanes (val x)), .on))

end Sys2Proof.Machine
end

