-- ==== Sys2Proof/Machine/Integer.lean ====
section
/-!
DEFINITION. Machine/Integer.lean: integer arithmetic, shifts, logic, addresses, moves and compares (R108 to R116).
-/
namespace Sys2Proof.Machine

/-! ### Shared operations -/

/-- A two-source word of exact integer arithmetic (R108). -/
def intWord (i : Instr) (h : Hdr) (t : ITy) (sat : Bool) (d a b : Operand) (f : Int → Int → Int) (s : State) :
    Host.Outcome State Fault Refusal :=
  aluWord i h d s (fun x l => t.ext (t.narrow sat (f (t.val (s.src x t a l)) (t.val (s.src x t b l)))))

/-- Its immediate form: IMM22 extended under R103. -/
def intImmWord (i : Instr) (h : Hdr) (t : ITy) (sat : Bool) (d a : Operand) (imm : BitVec 22) (f : Int → Int → Int)
    (s : State) : Host.Outcome State Fault Refusal :=
  aluWord i h d s (fun x l => t.ext (t.narrow sat (f (t.val (s.src x t a l)) (t.val (t.imm imm)))))

/-- A word of bitwise logic (R111). -/
def logicWord (i : Instr) (h : Hdr) (t : ITy) (d a b : Operand) (f : Word → Word → Word) (s : State) :
    Host.Outcome State Fault Refusal :=
  aluWord i h d s (fun x l => t.ext (t.cut (f (s.src x t a l) (s.src x t b l))))

/-- Its immediate form. -/
def logicImmWord (i : Instr) (h : Hdr) (t : ITy) (d a : Operand) (imm : BitVec 22) (f : Word → Word → Word) (s : State) :
    Host.Outcome State Fault Refusal :=
  aluWord i h d s (fun x l => t.ext (t.cut (f (s.src x t a l) (t.imm imm))))

/-- Shifts (R110). -/
inductive ShiftOp where
  | shl | shr | sar | rot
  deriving DecidableEq, Repr

/-- A shift of w bits by `n`, taken modulo w without CL (R110). -/
def shiftVal (op : ShiftOp) (t : ITy) (clamp : Bool) (v : Word) (n : Nat) : Word :=
  let w := t.bits
  let x := (t.cut v).toNat
  let xs : Int := if t.wide then v.toInt else (v.setWidth 32).toInt
  let n := if !clamp || decide (op = .rot) then n % w else n
  match op with
  | .shl => if w ≤ n then 0 else t.cut (BitVec.ofNat 64 (x * 2 ^ n))
  | .shr => if w ≤ n then 0 else BitVec.ofNat 64 (x / 2 ^ n)
  | .sar => t.cut (BitVec.ofInt 64 (if w ≤ n then (if xs < 0 then -1 else 0) else xs / 2 ^ n))
  | .rot => t.cut (BitVec.ofNat 64 (x * 2 ^ n + x / 2 ^ (w - n)))

/-- A shift by a register, its count read unsigned at width w. -/
def shiftWord (i : Instr) (h : Hdr) (op : ShiftOp) (t : ITy) (clamp : Bool) (d a b : Operand) (s : State) :
    Host.Outcome State Fault Refusal :=
  aluWord i h d s (fun x l => t.ext (shiftVal op t clamp (s.src x t a l) (t.cut (s.src x t b l)).toNat))

/-- A shift by an immediate, which is zero-extended (R103). -/
def shiftImmWord (i : Instr) (h : Hdr) (op : ShiftOp) (t : ITy) (clamp : Bool) (d a : Operand) (imm : BitVec 22)
    (s : State) : Host.Outcome State Fault Refusal :=
  aluWord i h d s (fun x l => t.ext (shiftVal op t clamp (s.src x t a l) imm.toNat))

/-- A predicate source in lane `l`; `zero` reads false, p7 true (R107). -/
def Group.predOf (x : Group) (o : Operand) (l : Nat) : Bool :=
  match o with
  | .p n => (x.preg n).getLsbD l
  | _ => false

/-- An add or subtract with carry: the result, and the carry in the predicate that CO names (R109). -/
def carryWord (i : Instr) (h : Hdr) (f : FnCy) (d a b c : Operand) (op : ITy → Word → Word → Bool → Word × Bool)
    (s : State) : Host.Outcome State Fault Refusal :=
  let t : ITy := if f.wide then .u64 else .u32
  dataWord i h s (fun s g x lanes =>
    let r := fun l => op t (s.src x t a l) (s.src x t b l) (x.predOf c l)
    let x' := x.write d lanes (fun l => (r l).1)
    let x' := match f.co with
      | some k => x'.write (.p k) lanes (fun l => if (r l).2 then 1 else 0)
      | none => x'
    (s.setGrp g x', .on))

/-- An integer compare (R116). -/
def icmpWord (i : Instr) (h : Hdr) (f : FnCmp) (d : Operand) (s : State) (va vb : Group → Nat → Word) :
    Host.Outcome State Fault Refusal :=
  aluWord i h d s (fun x l => if icmpHolds f.cc f.ty.wide (va x l) (vb x l) then 1 else 0)

/-- Whether a destination takes 64 bits: all but vector and coefficient registers (R113 to R115). -/
def Operand.wideDst : Operand → Bool
  | .v _ | .c _ => false
  | _ => true

/-! ### Arithmetic (R108, R109) -/

def execIadd (h : Hdr) (f : FnInt) (d a b : Operand) (s : State) : Host.Outcome State Fault Refusal :=
  intWord (.iadd h f d a b) h f.ty f.sat d a b (fun x y => x + y) s

def execIaddImm (h : Hdr) (f : FnInt) (d a : Operand) (imm : BitVec 22) (s : State) : Host.Outcome State Fault Refusal :=
  intImmWord (.iaddImm h f d a imm) h f.ty f.sat d a imm (fun x y => x + y) s

def execIsub (h : Hdr) (f : FnInt) (d a b : Operand) (s : State) : Host.Outcome State Fault Refusal :=
  intWord (.isub h f d a b) h f.ty f.sat d a b (fun x y => x - y) s

def execIsubImm (h : Hdr) (f : FnInt) (d a : Operand) (imm : BitVec 22) (s : State) : Host.Outcome State Fault Refusal :=
  intImmWord (.isubImm h f d a imm) h f.ty f.sat d a imm (fun x y => x - y) s

def execImul (h : Hdr) (f : FnInt) (d a b : Operand) (s : State) : Host.Outcome State Fault Refusal :=
  intWord (.imul h f d a b) h f.ty f.sat d a b (fun x y => x * y) s

def execImulImm (h : Hdr) (f : FnInt) (d a : Operand) (imm : BitVec 22) (s : State) : Host.Outcome State Fault Refusal :=
  intImmWord (.imulImm h f d a imm) h f.ty f.sat d a imm (fun x y => x * y) s

def execImulh (h : Hdr) (ty : ITy) (d a b : Operand) (s : State) : Host.Outcome State Fault Refusal :=
  intWord (.imulh h ty d a b) h ty false d a b (fun x y => x * y / 2 ^ ty.bits) s

def execImad (h : Hdr) (f : FnInt) (d a b c : Operand) (s : State) : Host.Outcome State Fault Refusal :=
  aluWord (.imad h f d a b c) h d s (fun x l =>
    f.ty.ext (f.ty.narrow f.sat
      (f.ty.val (s.src x f.ty a l) * f.ty.val (s.src x f.ty b l) + f.ty.val (s.src x f.ty c l))))

def execImin (h : Hdr) (ty : ITy) (d a b : Operand) (s : State) : Host.Outcome State Fault Refusal :=
  intWord (.imin h ty d a b) h ty false d a b min s

def execIminImm (h : Hdr) (ty : ITy) (d a : Operand) (imm : BitVec 22) (s : State) : Host.Outcome State Fault Refusal :=
  intImmWord (.iminImm h ty d a imm) h ty false d a imm min s

def execImax (h : Hdr) (ty : ITy) (d a b : Operand) (s : State) : Host.Outcome State Fault Refusal :=
  intWord (.imax h ty d a b) h ty false d a b max s

def execImaxImm (h : Hdr) (ty : ITy) (d a : Operand) (imm : BitVec 22) (s : State) : Host.Outcome State Fault Refusal :=
  intImmWord (.imaxImm h ty d a imm) h ty false d a imm max s

def execIabs (h : Hdr) (wide sat : Bool) (d a : Operand) (s : State) : Host.Outcome State Fault Refusal :=
  intWord (.iabs h wide sat d a) h (if wide then .s64 else .s32) sat d a .zero (fun x _ => (x.natAbs : Int)) s

def execIneg (h : Hdr) (wide sat : Bool) (d a : Operand) (s : State) : Host.Outcome State Fault Refusal :=
  intWord (.ineg h wide sat d a) h (if wide then .s64 else .s32) sat d a .zero (fun x _ => -x) s

def execIaddc (h : Hdr) (f : FnCy) (d a b c : Operand) (s : State) : Host.Outcome State Fault Refusal :=
  carryWord (.iaddc h f d a b c) h f d a b c addCarry s

def execIsubb (h : Hdr) (f : FnCy) (d a b c : Operand) (s : State) : Host.Outcome State Fault Refusal :=
  carryWord (.isubb h f d a b c) h f d a b c subBorrow s

/-! ### Shifts and rotates (R110) -/

def execShl (h : Hdr) (f : FnSh) (d a b : Operand) (s : State) : Host.Outcome State Fault Refusal :=
  shiftWord (.shl h f d a b) h .shl f.ty f.clamp d a b s

def execShlImm (h : Hdr) (f : FnSh) (d a : Operand) (imm : BitVec 22) (s : State) : Host.Outcome State Fault Refusal :=
  shiftImmWord (.shlImm h f d a imm) h .shl f.ty f.clamp d a imm s

def execShr (h : Hdr) (f : FnSh) (d a b : Operand) (s : State) : Host.Outcome State Fault Refusal :=
  shiftWord (.shr h f d a b) h .shr f.ty f.clamp d a b s

def execShrImm (h : Hdr) (f : FnSh) (d a : Operand) (imm : BitVec 22) (s : State) : Host.Outcome State Fault Refusal :=
  shiftImmWord (.shrImm h f d a imm) h .shr f.ty f.clamp d a imm s

def execSar (h : Hdr) (f : FnSh) (d a b : Operand) (s : State) : Host.Outcome State Fault Refusal :=
  shiftWord (.sar h f d a b) h .sar f.ty f.clamp d a b s

def execSarImm (h : Hdr) (f : FnSh) (d a : Operand) (imm : BitVec 22) (s : State) : Host.Outcome State Fault Refusal :=
  shiftImmWord (.sarImm h f d a imm) h .sar f.ty f.clamp d a imm s

def execRot (h : Hdr) (ty : ITy) (d a b : Operand) (s : State) : Host.Outcome State Fault Refusal :=
  shiftWord (.rot h ty d a b) h .rot ty false d a b s

def execRotImm (h : Hdr) (ty : ITy) (d a : Operand) (imm : BitVec 22) (s : State) : Host.Outcome State Fault Refusal :=
  shiftImmWord (.rotImm h ty d a imm) h .rot ty false d a imm s

/-! ### Logic, addresses, moves, selection (R111 to R115) -/

def execAnd (h : Hdr) (ty : ITy) (d a b : Operand) (s : State) : Host.Outcome State Fault Refusal :=
  logicWord (.and h ty d a b) h ty d a b (fun x y => x &&& y) s

def execAndImm (h : Hdr) (ty : ITy) (d a : Operand) (imm : BitVec 22) (s : State) : Host.Outcome State Fault Refusal :=
  logicImmWord (.andImm h ty d a imm) h ty d a imm (fun x y => x &&& y) s

def execOr (h : Hdr) (ty : ITy) (d a b : Operand) (s : State) : Host.Outcome State Fault Refusal :=
  logicWord (.or h ty d a b) h ty d a b (fun x y => x ||| y) s

def execOrImm (h : Hdr) (ty : ITy) (d a : Operand) (imm : BitVec 22) (s : State) : Host.Outcome State Fault Refusal :=
  logicImmWord (.orImm h ty d a imm) h ty d a imm (fun x y => x ||| y) s

def execXor (h : Hdr) (ty : ITy) (d a b : Operand) (s : State) : Host.Outcome State Fault Refusal :=
  logicWord (.xor h ty d a b) h ty d a b (fun x y => x ^^^ y) s

def execXorImm (h : Hdr) (ty : ITy) (d a : Operand) (imm : BitVec 22) (s : State) : Host.Outcome State Fault Refusal :=
  logicImmWord (.xorImm h ty d a imm) h ty d a imm (fun x y => x ^^^ y) s

def execAndn (h : Hdr) (ty : ITy) (d a b : Operand) (s : State) : Host.Outcome State Fault Refusal :=
  logicWord (.andn h ty d a b) h ty d a b (fun x y => x &&& ~~~y) s

def execNot (h : Hdr) (ty : ITy) (d a : Operand) (s : State) : Host.Outcome State Fault Refusal :=
  logicWord (.not h ty d a) h ty d a .zero (fun x _ => ~~~x) s

def execLea (h : Hdr) (f : FnLea) (d a b : Operand) (s : State) : Host.Outcome State Fault Refusal :=
  aluWord (.lea h f d a b) h d s (fun x l =>
    f.ty.ext (f.ty.cut (s.src x f.ty a l + (s.src x f.ty b l <<< f.sh.toNat) + f.off.signExtend 64)))

def execMovi (h : Hdr) (ty : ITy) (d : Operand) (imm : BitVec 22) (s : State) : Host.Outcome State Fault Refusal :=
  aluWord (.movi h ty d imm) h d s (fun _ _ => ty.ext (ty.imm imm))

/-- The value with one field replaced (R113). -/
def movhiVal (f : Half) (wide : Bool) (v : Word) (imm : BitVec 22) : Word :=
  match f, wide with
  | .h1, true => (v &&& ~~~(0x3FFFFF#64 <<< 22)) ||| (imm.setWidth 64 <<< 22)
  | .h1, false => (v &&& 0x3FFFFF#64) ||| ((imm.setWidth 10).setWidth 64 <<< 22)
  | .h2, _ => (v &&& ~~~(0xFFFFF#64 <<< 44)) ||| ((imm.setWidth 20).setWidth 64 <<< 44)

def execMovhi (h : Hdr) (f : Half) (d a : Operand) (imm : BitVec 22) (s : State) : Host.Outcome State Fault Refusal :=
  aluWord (.movhi h f d a imm) h d s (fun x l => movhiVal f (Operand.wideDst d) (s.rd x a l) imm)

def execMov (h : Hdr) (d a : Operand) (s : State) : Host.Outcome State Fault Refusal :=
  aluWord (.mov h d a) h d s (fun x l => s.rd x a l)

def execSel (h : Hdr) (d a b c : Operand) (s : State) : Host.Outcome State Fault Refusal :=
  aluWord (.sel h d a b c) h d s (fun x l => if x.predOf c l then s.rd x a l else s.rd x b l)

/-! ### Compare (R116) -/

def execIcmp (h : Hdr) (f : FnCmp) (d a b : Operand) (s : State) : Host.Outcome State Fault Refusal :=
  icmpWord (.icmp h f d a b) h f d s (fun x l => s.src x f.ty a l) (fun x l => s.src x f.ty b l)

def execIcmpImm (h : Hdr) (f : FnCmp) (d a : Operand) (imm : BitVec 22) (s : State) : Host.Outcome State Fault Refusal :=
  icmpWord (.icmpImm h f d a imm) h f d s (fun x l => s.src x f.ty a l) (fun _ _ => f.ty.imm imm)

end Sys2Proof.Machine
end

