-- ==== Sys2Proof/Machine/Bits.lean ====
section
/-!
DEFINITION. Machine/Bits.lean: bit, byte, predicate and lane instructions (R117 to R125).
-/
namespace Sys2Proof.Machine

/-! ### Bits and bytes (R117 to R119) -/

/-- The number of 1 bits of a word. -/
def popCount (v : Word) : Nat := ((List.range 64).filter (fun k => v.getLsbD k)).length

/-- The number of 0 bits below the lowest 1 bit of w bits. -/
def lowZeros (w : Nat) (v : Word) : Nat := ((List.range w).find? (fun k => v.getLsbD k)).getD w

/-- The number of 0 bits above the highest 1 bit of w bits. -/
def highZeros (w : Nat) (v : Word) : Nat := ((List.range w).find? (fun k => v.getLsbD (w - 1 - k))).getD w

/-- The w bits in reverse order. -/
def bitReverse (w : Nat) (v : Word) : Word :=
  (List.range w).foldl (fun (r : Word) k => if v.getLsbD k then r ||| (1#64 <<< (w - 1 - k)) else r) 0

/-- A one-source bit word (R117). -/
def bitWord (i : Instr) (h : Hdr) (t : ITy) (d a : Operand) (f : Nat → Word → Word) (s : State) :
    Host.Outcome State Fault Refusal :=
  aluWord i h d s (fun x l => t.ext (f t.bits (t.cut (s.src x t a l))))

def execPopc (h : Hdr) (ty : ITy) (d a : Operand) (s : State) : Host.Outcome State Fault Refusal :=
  bitWord (.popc h ty d a) h ty d a (fun _ v => BitVec.ofNat 64 (popCount v)) s

def execClz (h : Hdr) (ty : ITy) (d a : Operand) (s : State) : Host.Outcome State Fault Refusal :=
  bitWord (.clz h ty d a) h ty d a (fun w v => BitVec.ofNat 64 (highZeros w v)) s

def execCtz (h : Hdr) (ty : ITy) (d a : Operand) (s : State) : Host.Outcome State Fault Refusal :=
  bitWord (.ctz h ty d a) h ty d a (fun w v => BitVec.ofNat 64 (lowZeros w v)) s

def execBrev (h : Hdr) (ty : ITy) (d a : Operand) (s : State) : Host.Outcome State Fault Refusal :=
  bitWord (.brev h ty d a) h ty d a bitReverse s

/-- The field of R118: position, and length cut to the width. -/
def fieldOf (w : Nat) (k : Word) : Nat × Nat :=
  let p := bits k 0 8
  (p, if w ≤ p then 0 else min (bits k 8 8) (w - p))

/-- `n` ones in the low bits. -/
def lowOnes (n : Nat) : Word := BitVec.ofNat 64 (2 ^ n - 1)

/-- bfx (R118): the field, sign-extended from its top bit where the type is signed. -/
def bfxVal (t : ITy) (v k : Word) : Word :=
  let (p, n) := fieldOf t.bits k
  if n = 0 then 0
  else
    let f := (t.cut v >>> p) &&& lowOnes n
    t.cut (if t.signed && f.getLsbD (n - 1) then f ||| ~~~(lowOnes n) else f)

/-- bfi (R118). -/
def bfiVal (t : ITy) (v ins k : Word) : Word :=
  let (p, n) := fieldOf t.bits k
  t.cut ((v &&& ~~~(lowOnes n <<< p)) ||| ((ins &&& lowOnes n) <<< p))

def execBfx (h : Hdr) (ty : ITy) (d a c : Operand) (s : State) : Host.Outcome State Fault Refusal :=
  aluWord (.bfx h ty d a c) h d s (fun x l => ty.ext (bfxVal ty (s.src x ty a l) (s.src x ty c l)))

def execBfi (h : Hdr) (ty : ITy) (d a b c : Operand) (s : State) : Host.Outcome State Fault Refusal :=
  aluWord (.bfi h ty d a b c) h d s (fun x l =>
    ty.ext (bfiVal ty (s.src x ty a l) (s.src x ty b l) (s.src x ty c l)))

/-- permb (R119) on the low 32 bits of two sources. -/
def permbVal (a b k : Word) : Word :=
  let all : BitVec 64 := (b.setWidth 32) ++ (a.setWidth 32)
  (List.range 4).foldl (fun (r : Word) i =>
    let q := bits k (4 * i) 4
    let y := bits all (8 * (q % 8)) 8
    let o := if k.getLsbD (16 + i) then 0 else if q < 8 then y else if 128 ≤ y then 0xFF else 0
    r ||| BitVec.ofNat 64 (o * 2 ^ (8 * i))) 0

def execPermb (h : Hdr) (d a b c : Operand) (s : State) : Host.Outcome State Fault Refusal :=
  aluWord (.permb h d a b c) h d s (fun x l => permbVal (s.rd x a l) (s.rd x b l) (s.rd x c l))

def execPermbImm (h : Hdr) (d a : Operand) (imm : BitVec 22) (s : State) : Host.Outcome State Fault Refusal :=
  aluWord (.permbImm h d a imm) h d s (fun x l => permbVal (s.rd x a l) 0 (imm.setWidth 64))

/-! ### Predicates (R120, R121) -/

/-- A predicate as a word. -/
def boolWord (b : Bool) : Word := if b then 1 else 0

/-- A two-source predicate word (R120). -/
def predWord (i : Instr) (h : Hdr) (f : FnPn) (d a b : Operand) (op : Bool → Bool → Bool) (s : State) :
    Host.Outcome State Fault Refusal :=
  aluWord i h d s (fun x l => boolWord (op (xor (x.predOf a l) f.na) (xor (x.predOf b l) f.nb)))

def execPand (h : Hdr) (f : FnPn) (d a b : Operand) (s : State) : Host.Outcome State Fault Refusal :=
  predWord (.pand h f d a b) h f d a b and s

def execPor (h : Hdr) (f : FnPn) (d a b : Operand) (s : State) : Host.Outcome State Fault Refusal :=
  predWord (.por h f d a b) h f d a b or s

def execPxor (h : Hdr) (f : FnPn) (d a b : Operand) (s : State) : Host.Outcome State Fault Refusal :=
  predWord (.pxor h f d a b) h f d a b xor s

def execPnot (h : Hdr) (d a : Operand) (s : State) : Host.Outcome State Fault Refusal :=
  aluWord (.pnot h d a) h d s (fun x l => boolWord (!x.predOf a l))

/-- A predicate source as a mask over all lanes. -/
def Group.predMask (x : Group) (o : Operand) : Mask :=
  match o with
  | .p n => x.preg n
  | _ => 0

/-- `pmov` (R121): once for the group, all 32 lanes of the beat. -/
def execPmov (h : Hdr) (beat : Fin 3) (d a : Operand) (s : State) : Host.Outcome State Fault Refusal :=
  uniWord (.pmov h beat d a) h s (fun s g x =>
    match d with
    | .p n => (s.setGrp g (x.setP n (maskPut (x.preg n) beat ((s.rd x a 0).setWidth 32))), .on)
    | d =>
      (s.setGrp g (x.write d [0] (fun _ => ((x.predMask a).extractLsb' (32 * beat.val) 32).setWidth 64)), .on))

/-! ### Lanes (R122 to R125) -/

/-- The lane a `shfl` reads (R122). -/
def shflLane (m : ShflMode) (l k : Nat) : Nat :=
  let t : Nat := match m with
    | .idx => k
    | .up => if k ≤ l then l - k else 96
    | .down => l + k
    | .xor => Nat.xor l k
  if 95 < t then l else t

def execShfl (h : Hdr) (m : ShflMode) (d a b : Operand) (s : State) : Host.Outcome State Fault Refusal :=
  aluWord (.shfl h m d a b) h d s (fun x l => s.rd x a (shflLane m l ((s.rd x b l).setWidth 32).toNat))

def execBcast (h : Hdr) (d a b : Operand) (s : State) : Host.Outcome State Fault Refusal :=
  aluWord (.bcast h d a b) h d s (fun x l =>
    let k := (s.rd x b l).toNat
    if 96 ≤ k then 0 else s.rd x a k)

/-- `vote` (R124): over the executing lanes; with none, nothing is written. -/
def execVote (h : Hdr) (m : VoteMode) (d a : Operand) (s : State) : Host.Outcome State Fault Refusal :=
  laneWord (.vote h m d a) h s (fun s g x e =>
    let t := x.predMask a &&& e
    let lanes := lanesOf e
    match m, d with
    | .any, d => (s.setGrp g (x.write d lanes (fun _ => boolWord (decide (t ≠ 0)))), .on)
    | .all, d => (s.setGrp g (x.write d lanes (fun _ => boolWord (decide (t = e)))), .on)
    | .ballot, .s n =>
      if e = 0 then (s, .on)
      else
        -- the three beats are read before the first is written: s61 to s63 change the mask
        (s.setGrp g ((List.range 3).foldl
          (fun x k => x.setS (n.val + k) ((t.extractLsb' (32 * k) 32).setWidth 64)) x), .on)
    | .ballot, _ => (s, .on))

/-- Op and its identity (R125). -/
def RedOp.id (o : RedOp) (t : ITy) : Int :=
  match o with
  | .add | .or | .xor => 0
  | .min => t.hi
  | .max => t.lo
  | .and => if t.signed then -1 else t.hi

def RedOp.app (o : RedOp) (t : ITy) (x y : Int) : Int :=
  match o with
  | .add => x + y
  | .min => min x y
  | .max => max x y
  | .and => t.val (BitVec.ofInt 64 x &&& BitVec.ofInt 64 y)
  | .or => t.val (BitVec.ofInt 64 x ||| BitVec.ofInt 64 y)
  | .xor => t.val (BitVec.ofInt 64 x ^^^ BitVec.ofInt 64 y)

def execRedux (h : Hdr) (f : FnRed) (d a : Operand) (s : State) : Host.Outcome State Fault Refusal :=
  laneWord (.redux h f d a) h s (fun s g x e =>
    let lanes := lanesOf e
    let acc := lanes.foldl (fun acc l => RedOp.app f.op f.ty acc (f.ty.val (s.src x f.ty a l))) (RedOp.id f.op f.ty)
    (s.setGrp g (x.write d lanes (fun _ => f.ty.ext (f.ty.narrow f.sat acc))), .on))

/-- The prefixes of a `scan`, lane by lane. -/
def scanVals (f : FnScn) (t : ITy) (get : Nat → Int) : List Nat → Int → List (Nat × Word)
  | [], _ => []
  | l :: ls, acc =>
    let acc' := RedOp.app f.op t acc (get l)
    (l, t.narrow false (if f.excl then acc else acc')) :: scanVals f t get ls acc'

def execScan (h : Hdr) (f : FnScn) (d a : Operand) (s : State) : Host.Outcome State Fault Refusal :=
  laneWord (.scan h f d a) h s (fun s g x e =>
    let t : ITy := if f.signed then .s32 else .u32
    let lanes := lanesOf e
    let vals := scanVals f t (fun l => t.val (s.src x t a l)) lanes (RedOp.id f.op t)
    (s.setGrp g (x.write d lanes (fun l => Tab.get 0 l vals)), .on))

end Sys2Proof.Machine
end

