-- ==== Sys2Proof/Machine/Float.lean ====
section
/-!
DEFINITION. Machine/Float.lean: floating-point arithmetic, selection, compare, special functions, conversion and block
quantisation (R143 to R157).
-/
namespace Sys2Proof.Machine

/-! ### Arithmetic (R143) -/

/-- A word that rounds one exact result (R143): `f` gets the rounding-down flag, which fixes the sign of a zero sum. -/
def arithWord (i : Instr) (h : Hdr) (f : FnFa) (d : Operand) (s : State)
    (val : FFmt → Bool → Group → Nat → Val × FFlags) : Host.Outcome State Fault Refusal :=
  fpWord i h d s (fun x l =>
    let ft := fmtOfTy f.ft
    let md := x.mode f.rm
    let v := val ft (decide (md = .rdn)) x l
    let r := roundF ft md f.sat x.fp.ftz v.1
    (r.1, r.2 ||| v.2))

def execFadd (h : Hdr) (f : FnFa) (d a b : Operand) (s : State) : Host.Outcome State Fault Refusal :=
  arithWord (.fadd h f d a b) h f d s (fun ft rdn x l => addV rdn (s.fval x ft f.ma a l) (s.fval x ft f.mb b l))

def execFsub (h : Hdr) (f : FnFa) (d a b : Operand) (s : State) : Host.Outcome State Fault Refusal :=
  arithWord (.fsub h f d a b) h f d s (fun ft rdn x l => addV rdn (s.fval x ft f.ma a l) (s.fval x ft f.mb b l).neg)

def execFmul (h : Hdr) (f : FnFa) (d a b : Operand) (s : State) : Host.Outcome State Fault Refusal :=
  arithWord (.fmul h f d a b) h f d s (fun ft _ x l => mulV (s.fval x ft f.ma a l) (s.fval x ft f.mb b l))

def execFfma (h : Hdr) (f : FnFa) (d a b c : Operand) (s : State) : Host.Outcome State Fault Refusal :=
  arithWord (.ffma h f d a b c) h f d s (fun ft rdn x l =>
    fmaV rdn (s.fval x ft f.ma a l) (s.fval x ft f.mb b l) (s.fval x ft f.mc c l))

/-! ### Minimum, maximum, selection, scaling, rounding to integer (R144 to R147) -/

/-- A pattern as it takes part in `fmin` and `fmax`: a subnormal is the zero it reads as under DAZ (R144). -/
def dazBits (f : FFmt) (daz : Bool) (c : Nat) : Nat :=
  if daz && isSubnormal f c then (if 2 ^ (f.w - 1) ≤ c then 2 ^ (f.w - 1) else 0) else c

/-- Order of R144: −0 lies below +0. -/
def minLess (f : FFmt) (a b : Nat) : Bool :=
  let x := decodeF f a
  let y := decodeF f b
  match cmpV x y with
  | .lt => true
  | .gt => false
  | .eq => decide (2 ^ (f.w - 1) ≤ a) && decide (b < 2 ^ (f.w - 1))

/-- `fmin` and `fmax` on patterns (R144). -/
def minMaxF (max : Bool) (f : FFmt) (daz : Bool) (a b : Nat) : Nat × FFlags :=
  let x := decodeF f a
  let y := decodeF f b
  let nv := nvIf (x.sigNan || y.sigNan)
  let a := dazBits f daz a
  let b := dazBits f daz b
  match x.isNan, y.isNan with
  | true, true => (nanOf f, nv)
  | true, false => (b, nv)
  | false, true => (a, nv)
  | false, false => (if max then (if minLess f a b then b else a) else (if minLess f b a then b else a), nv)

def execFmin (h : Hdr) (f : FnFa) (d a b : Operand) (s : State) : Host.Outcome State Fault Refusal :=
  fpWord (.fmin h f d a b) h d s (fun x l =>
    let ft := fmtOfTy f.ft
    minMaxF false ft x.fp.daz (s.fbits x ft f.ma a l) (s.fbits x ft f.mb b l))

def execFmax (h : Hdr) (f : FnFa) (d a b : Operand) (s : State) : Host.Outcome State Fault Refusal :=
  fpWord (.fmax h f d a b) h d s (fun x l =>
    let ft := fmtOfTy f.ft
    minMaxF true ft x.fp.daz (s.fbits x ft f.ma a l) (s.fbits x ft f.mb b l))

/-- `fsel` (R145): no flag, and a NaN chosen is written as the default NaN. -/
def execFsel (h : Hdr) (f : FnFa) (d a b c : Operand) (s : State) : Host.Outcome State Fault Refusal :=
  fpWord (.fsel h f d a b c) h d s (fun x l =>
    let ft := fmtOfTy f.ft
    let z := s.fval x ft f.mc c l
    let take := !z.isNan && decide (cmpV z (.fin false 0 0) ≠ .lt)
    let r := if take then s.fbits x ft f.ma a l else s.fbits x ft f.mb b l
    (if (decodeF ft r).isNan then nanOf ft else r, 0))

/-- x · 2^n: a NaN, a zero and an infinity keep their value (R146). -/
def scaleV (x : Val) (n : Int) : Val × FFlags :=
  match x with
  | .nan b => (.nan false, nvIf b)
  | .inf b => (.inf b, 0)
  | .fin b m e => (.fin b m (e + n), 0)

def execFscaleb (h : Hdr) (f : FnFa) (d a b : Operand) (s : State) : Host.Outcome State Fault Refusal :=
  arithWord (.fscaleb h f d a b) h f d s (fun ft _ x l =>
    scaleV (s.fval x ft f.ma a l) ((s.rd x b l).setWidth 32).toInt)

/-- The integral value of a finite number under a mode; a negative value that rounds to zero gives −0 (R147). -/
def integralV (md : Mode) (x : Val) : Val :=
  match x with
  | .fin neg m e => if 0 ≤ e then x else .fin neg (quantise md neg m e 0 oddNum).1 0
  | x => x

/-- `frnd` (R147): NV for a signalling NaN, and no other flag. -/
def execFrnd (h : Hdr) (f : FnFa) (d a : Operand) (s : State) : Host.Outcome State Fault Refusal :=
  fpWord (.frnd h f d a) h d s (fun x l =>
    let ft := fmtOfTy f.ft
    let v := s.fval x ft f.ma a l
    ((roundF ft .rne false false (integralV (x.mode f.rm) v)).1, nvIf v.sigNan))

/-! ### Compare and classify (R148, R149) -/

def execFcmp (h : Hdr) (f : FnFc) (d a b : Operand) (s : State) : Host.Outcome State Fault Refusal :=
  fpWord (.fcmp h f d a b) h d s (fun x l =>
    let ft := fmtOfTy f.ft
    let r := fcmpHolds f.cc (s.fval x ft f.ma a l) (s.fval x ft f.mb b l)
    (if r.1 then 1 else 0, r.2))

/-- The class bit of a pattern (R149). -/
def classOf (f : FFmt) (c : Nat) : Nat :=
  let neg := decide (2 ^ (f.w - 1) ≤ c)
  match decodeF f c with
  | .nan sig => if sig then 1 else 2
  | .inf n => if n then 4 else 512
  | .fin _ m _ =>
    if m = 0 then (if neg then 32 else 64)
    else if isSubnormal f c then (if neg then 16 else 128)
    else (if neg then 8 else 256)

def execFclass (h : Hdr) (ft : FTy) (d a : Operand) (s : State) : Host.Outcome State Fault Refusal :=
  fpWord (.fclass h ft d a) h d s (fun x l => (classOf (fmtOfTy ft) (s.fbits x (fmtOfTy ft) ⟨false, false⟩ a l), 0))

/-! ### Special functions (R150, R151) -/

/-- Issues results to registers: each listed register is empty from now on, and the event that writes them back is queued.
With nothing to write, the flags alone are on their way (R32, R60). -/
def State.sendResult (s : State) (g : Nat) (regs : List Nat) (vals : List (Nat × Nat × Word)) (fl : FFlags) : State :=
  let (tok, s) := s.fresh
  let s := s.updGrp g (fun x => { x with regs := regs.foldl (fun r n => r.drain n tok) x.regs })
  let r : Result := { grp := g, regs := regs, vals := vals, flags := fl, fp := true, raw := [], fault := none }
  let s := s.setSys { s.sys with results := Tab.put tok r s.sys.results }
  s.post (.resultWriteback tok)

/-- The full/empty index of a destination operand, where it has one. -/
def regOf (d : Operand) : Option Nat :=
  match d with
  | .v n => some n.val
  | .s n => some (128 + n.val)
  | _ => none

/-- Results of lanes for one destination: a vector takes them all, a scalar the highest lane's (R26). -/
def resultsFor (d : Operand) (lanes : List Nat) (f : Nat → Word) : List (Nat × Nat × Word) :=
  match d, lanes.getLast? with
  | .v n, some _ => lanes.map (fun l => (n.val, l, f l))
  | .s n, some top => [(128 + n.val, 0, f top)]
  | _, _ => []

/-- A special-function word: a long-latency producer (R150). A coefficient register has no full/empty bit, and is written
at once (R91, R32). -/
def specialWord (i : Instr) (h : Hdr) (f : FnSf) (d a : Operand) (s : State)
    (fn : Group → Nat → Val → Nat × FFlags) : Host.Outcome State Fault Refusal :=
  dataWord i h s (fun s g x lanes =>
    let rs := lanes.map (fun l =>
      let c := s.fbits x fp32 f.ma a l
      (l, fn x (if x.fp.daz && isSubnormal fp32 c then (if 2 ^ 31 ≤ c then 2 ^ 31 else 0) else c) (readF fp32 x.fp.daz c)))
    let val := fun l => BitVec.ofNat 64 (Tab.get (0, 0) l rs).1
    let fl : FFlags := rs.foldl (fun acc r => acc ||| r.2.2) 0
    match regOf d with
    | some n => if lanes.isEmpty then (s, .on) else (s.sendResult g [n] (resultsFor d lanes val) fl, .on)
    | none => if lanes.isEmpty then (s, .on) else ((s.setGrp g (x.write d lanes val)).sendResult g [] [] fl, .on))

/-- The functions of the special-function unit that R150 leaves within bounds. -/
def sfnWord (i : Instr) (h : Hdr) (f : FnSf) (d a : Operand) (fn : SFn) (s : State) : Host.Outcome State Fault Refusal :=
  specialWord i h f d a s (fun x c v => specialF fn f.sat x.fp.ftz c v)

def execFrcp (h : Hdr) (f : FnSf) (d a : Operand) (s : State) : Host.Outcome State Fault Refusal :=
  sfnWord (.frcp h f d a) h f d a .rcp s

def execFrsq (h : Hdr) (f : FnSf) (d a : Operand) (s : State) : Host.Outcome State Fault Refusal :=
  sfnWord (.frsq h f d a) h f d a .rsq s

def execFsqrt (h : Hdr) (f : FnSf) (d a : Operand) (s : State) : Host.Outcome State Fault Refusal :=
  specialWord (.fsqrt h f d a) h f d a s (fun x _ v => sqrtF (x.mode f.rm) f.sat x.fp.ftz v)

def execFexp2 (h : Hdr) (f : FnSf) (d a : Operand) (s : State) : Host.Outcome State Fault Refusal :=
  sfnWord (.fexp2 h f d a) h f d a .exp2 s

def execFlog2 (h : Hdr) (f : FnSf) (d a : Operand) (s : State) : Host.Outcome State Fault Refusal :=
  sfnWord (.flog2 h f d a) h f d a .log2 s

def execFsin (h : Hdr) (f : FnSf) (d a : Operand) (s : State) : Host.Outcome State Fault Refusal :=
  sfnWord (.fsin h f d a) h f d a .sin s

def execFcos (h : Hdr) (f : FnSf) (d a : Operand) (s : State) : Host.Outcome State Fault Refusal :=
  sfnWord (.fcos h f d a) h f d a .cos s

def execFtanh (h : Hdr) (f : FnSf) (d a : Operand) (s : State) : Host.Outcome State Fault Refusal :=
  sfnWord (.ftanh h f d a) h f d a .tanh s

/-! ### Conversion (R61, R153) -/

/-- The generator a lane of a word steps: the lane's own, and for the whole group that of the lowest active lane (R61). -/
def genLane (x : Group) (uni : Bool) (l : Nat) : Nat := if uni then (lowLane x.flow.mask).getD 0 else l

/-- Steps the generators of lanes (R61). -/
def stepGens (gens : Tab (BitVec 32)) (lanes : List Nat) : Tab (BitVec 32) :=
  lanes.foldl (fun t l => Tab.put l (srStep (Tab.get 0 l t)) t) gens

/-- The mode of a conversion into an 8-bit or 4-bit format: SR draws the generator's next state (R56, R61). -/
def narrowMode (x : Group) (m : RMode) (gen : Nat) : Mode :=
  match x.fp.rmode m with
  | .sr => .sr (srStep (Tab.get 0 gen x.fp.gens)).toNat
  | m => RMode.plain m

/-- Whether a word steps its generators: SR in force for a narrow destination. -/
def stepsGens (x : Group) (m : RMode) (narrow : Bool) : Bool := narrow && decide (x.fp.rmode m = .sr)

/-- Puts an element of `w` bits at position `p` (R153). -/
def putElem (t : Nat) (w p c : Nat) : Nat :=
  let lo := t % 2 ^ (w * p)
  let hi := t / 2 ^ (w * p + w) * 2 ^ (w * p + w)
  hi + c % 2 ^ w * 2 ^ (w * p) + lo

/-- The element of `w` bits at position `p`. -/
def getElem (t : Nat) (w p : Nat) : Nat := t / 2 ^ (w * p) % 2 ^ w

/-- A widening conversion (R153): exact but from INT32. -/
def widenF (x : Group) (f : FnCv) (c : Nat) : Nat × FFlags :=
  let nf := fmtOf f.nf
  let v := decodeVal nf c
  match nf with
  | .int 32 => roundF fp32 (x.mode f.rm) false x.fp.ftz v
  | .flt ft =>
    let v := if ft.ieee then readF ft x.fp.daz c else v
    match v with
    | .nan sig => (nanOf fp32, nvIf sig)
    | v => roundF fp32 .rne false false v
  | _ =>
    match v with
    | .nan _ => (nanOf fp32, 0)
    | v => roundF fp32 .rne false false v

/-- A narrowing conversion's element and flags (R153). -/
def narrowF (x : Group) (f : FnCv) (gen : Nat) (v : Val) : Nat × FFlags :=
  let md := if fmtIsNarrow f.nf then narrowMode x f.rm gen else x.mode f.rm
  convert (fmtOf f.nf) md f.sat x.fp.ftz v

/-- `cvt` (R153). -/
def execCvt (h : Hdr) (f : FnCv) (d a b : Operand) (s : State) : Host.Outcome State Fault Refusal :=
  dataWord (.cvt h f d a b) h s (fun s g x lanes =>
    let w := (fmtWidth f.nf).getD 32
    let one (l : Nat) : Nat × FFlags :=
      let src := (s.rd x a l).toNat % 2 ^ 32
      if f.narrow then
        let r := narrowF x f (genLane x h.uni l) (readF fp32 x.fp.daz src)
        if w = 32 then r else (putElem ((s.rd x b l).toNat % 2 ^ 32) w f.pos.toNat r.1, r.2)
      else widenF x f (getElem src w f.pos.toNat)
    let x' := x.writeF d lanes one
    let x' := if f.narrow && stepsGens x f.rm (fmtIsNarrow f.nf) then
      { x' with fp := { x'.fp with gens := stepGens x.fp.gens (lanes.map (genLane x h.uni)) } } else x'
    (s.setGrp g x', .on))

/-! ### Block quantisation (R154 to R157) -/

/-- Lanes of a block (R154). -/
def blockLen (half : Bool) : Nat := if half then 16 else 32

/-- `qnt` with FORM 0 (R155): the scale of every block, under the guard rule of R25. The executing lanes are the active lanes
whose guard holds. -/
def execQntScale (h : Hdr) (ef : FmtCode) (half : Bool) (d a : Operand) (s : State) : Host.Outcome State Fault Refusal :=
  uniWord (.qntScale h ef half d a) h s (fun s g x =>
    let n := blockLen half
    let e := lanesOf (x.execMask h)
    if e.isEmpty then (s, .on)
    else
      let rs := (List.range (96 / n)).map (fun k =>
        let xs := (e.filter (fun l => decide (l / n = k))).map (fun l => s.fval x fp32 ⟨false, false⟩ a l)
        if xs.isEmpty then ((0 : Nat), (0 : FFlags)) else blockScale (emaxOf (fmtOf ef)) xs)
      let word := (rs.mapIdx (fun k r => r.1 * 2 ^ (8 * k))).sum
      let x' := (x.write d [0] (fun _ => BitVec.ofNat 64 word)).addFlags (rs.foldl (fun acc r => acc ||| r.2) 0)
      (s.setGrp g x', .on))

/-- Byte k of a scale word for lane `l`. -/
def scaleByte (half : Bool) (w : Word) (l : Nat) : Nat := bits w (8 * (l / blockLen half)) 8

/-- `qnt` with FORM 1 (R156). -/
def execQntElem (h : Hdr) (f : FnQn) (d a b c : Operand) (s : State) : Host.Outcome State Fault Refusal :=
  laneWord (.qntElem h f d a b c) h s (fun s g x e =>
    let w := (fmtWidth f.ef).getD 8
    let one (l : Nat) : Nat × FFlags :=
      let sc := scaleByte f.half (s.rd x c l) l
      let r := if sc = 0xFF then ((0 : Nat), (0 : FFlags))
        else
          let v := s.fval x fp32 ⟨false, false⟩ a l
          let v' := match v with
            | .fin n m k => Val.fin n m (k + 127 - sc)
            | v => v
          convert (fmtOf f.ef) (narrowMode x f.rm l) true x.fp.ftz v'
      (putElem ((s.rd x b l).toNat % 2 ^ 32) w f.pos.toNat r.1, r.2)
    let lanes := lanesOf e
    let x' := x.writeF d lanes one
    let x' := if stepsGens x f.rm true then { x' with fp := { x'.fp with gens := stepGens x.fp.gens lanes } } else x'
    (s.setGrp g x', .on))

/-- `dqnt` (R157). -/
def execDqnt (h : Hdr) (f : FnQn) (d a c : Operand) (s : State) : Host.Outcome State Fault Refusal :=
  laneWord (.dqnt h f d a c) h s (fun s g x e =>
    let w := (fmtWidth f.ef).getD 8
    let one (l : Nat) : Nat × FFlags :=
      let sc := scaleByte f.half (s.rd x c l) l
      if sc = 0xFF then (nanOf fp32, 0)
      else
        match decodeVal (fmtOf f.ef) (getElem ((s.rd x a l).toNat % 2 ^ 32) w f.pos.toNat) with
        | .nan _ => (nanOf fp32, 0)
        | .inf n => roundF fp32 (x.mode f.rm) false x.fp.ftz (.inf n)
        | .fin n m k => roundF fp32 (x.mode f.rm) false x.fp.ftz (.fin n m (k + sc - 127))
    (s.setGrp g (x.writeF d (lanesOf e) one), .on))

end Sys2Proof.Machine
end

