-- ==== Sys2Proof/Machine/Control.lean ====
section
/-!
DEFINITION. Machine/Control.lean: branches, calls, divergence regions, the words that end a run or a path, and the paired word
(R36, R37, R72 to R77, R127 to R131).
-/
namespace Sys2Proof.Machine

/-! ### Shared operations -/

/-- DIV_STACK with a code (R36). -/
def State.divStack (s : State) (g code : Nat) : State := s.trapNow g 0x08 (BitVec.ofNat 64 code) 0

/-- How a per-lane branch goes (R128). -/
inductive BranchWay where
  | taken
  | fall
  | split (t : Mask)
  deriving DecidableEq, Repr

/-- The way of a branch over the active lanes, from the lanes in which its guard holds; `bare` is an unnegated p7. -/
def branchWay (active truth : Mask) (bare : Bool) : BranchWay :=
  let t := active &&& truth
  if active = 0 then (if bare then .taken else .fall)
  else if t = 0 then .fall
  else if t = active then .taken
  else .split t

/-- Makes a branch (R128, R36): a divergent one pushes the lanes that take it. -/
def State.branch (s : State) (g : Nat) (w : BranchWay) (target : PC) : State × Ends :=
  match w with
  | .taken => (s, .jump target)
  | .fall => (s, .on)
  | .split t =>
    (s.updGrp g (fun x =>
      let f := x.flow.push { kind := .path, addr := target, mask := t, link := x.flow.region, age := 0, fresh := true }
      { x with flow := f.setMask (f.mask &&& ~~~t) }), .run)

/-- A divergent branch with a full stack traps before any effect (R36). -/
def Group.branchBlocked (x : Group) (w : BranchWay) : Bool :=
  match w with
  | .split _ => decide (32 ≤ x.flow.stack.length)
  | _ => false

/-- An FB target (R127). -/
def PC.plus (pc : PC) (off : BitVec 30) : PC := pc + off.signExtend 54

/-- A code address held in a register (R128): none where it is misaligned or out of range. -/
def codeTarget (a : Word) : Option PC :=
  if a.extractLsb' 0 3 = 0 ∧ a.extractLsb' 57 7 = 0 then some (a.extractLsb' 3 54) else none

/-- The end of the running path (R36), for a word that ends it. -/
def State.endPath (s : State) (g : Nat) : State × Ends :=
  let s := s.pathEnd g
  (s, if s.hasGrp g then .moved else .done)

/-! ### Branches and calls (R128) -/

def execBra (h : Hdr) (off : BitVec 30) (s : State) : Host.Outcome State Fault Refusal :=
  word (.bra h off) s (fun s g x =>
    let w := branchWay x.flow.mask (x.guardMask h) (decide (h.gp.val = 7) && !h.gn)
    if x.branchBlocked w then (s.divStack g 1, .done)
    else s.branch g w (PC.plus x.flow.pc off))

def execBrau (h : Hdr) (off : BitVec 30) (s : State) : Host.Outcome State Fault Refusal :=
  uniWord (.brau h off) h s (fun s _ x => (s, .jump (PC.plus x.flow.pc off)))

/-- The link of a call (R128): the byte address of the next word. -/
def linkOf (pc : PC) : Word := ((pc + 1).setWidth 64) <<< 3

def execCall (h : Hdr) (d : Operand) (off : BitVec 30) (s : State) : Host.Outcome State Fault Refusal :=
  uniWord (.call h d off) h s (fun s g x =>
    (s.setGrp g (x.write d [0] (fun _ => linkOf x.flow.pc)), .jump (PC.plus x.flow.pc off)))

def execCallReg (h : Hdr) (d a : Operand) (s : State) : Host.Outcome State Fault Refusal :=
  uniWord (.callReg h d a) h s (fun s g x =>
    match codeTarget (s.rd x a 0) with
    | none => (s.trapNow g 0x15 0xF (s.rd x a 0), .done)
    | some t => (s.setGrp g (x.write d [0] (fun _ => linkOf x.flow.pc)), .jump t))

def execRet (h : Hdr) (a : Operand) (s : State) : Host.Outcome State Fault Refusal :=
  uniWord (.ret h a) h s (fun s g x =>
    match codeTarget (s.rd x a 0) with
    | none => (s.trapNow g 0x15 0xF (s.rd x a 0), .done)
    | some t => (s, .jump t))

/-! ### Divergence regions (R36, R129, R130) -/

def execJmark (h : Hdr) (off : BitVec 30) (s : State) : Host.Outcome State Fault Refusal :=
  word (.jmark h off) s (fun s g x =>
    if 32 ≤ x.flow.stack.length then (s.divStack g 1, .done)
    else
      let f := x.flow.push
        { kind := .rejoin, addr := PC.plus x.flow.pc off, mask := 0, link := x.flow.region, age := 0, fresh := true }
      (s.setGrp g { x with flow := { f with region := some x.flow.stack.length } }, .on))

/-- The entry of the current region, where the region is at an address. -/
def Flow.regionAt (f : Flow) (addr : PC) : Option Nat :=
  match f.region with
  | none => none
  | some i => match f.stack[i]? with
    | some e => if e.addr = addr then some i else none
    | none => none

/-- Adds lanes to the mask of entry `i`. -/
def Flow.arrive (f : Flow) (i : Nat) (m : Mask) : Flow :=
  { f with stack := f.stack.modify i (fun e => { e with mask := e.mask ||| m }) }

def execJoin (h : Hdr) (s : State) : Host.Outcome State Fault Refusal :=
  word (.join h) s (fun s g x =>
    match x.flow.regionAt x.flow.pc with
    | none => (s.divStack g 2, .done)
    | some i => (s.setGrp g { x with flow := x.flow.arrive i x.flow.mask }).endPath g)

def execBrk (h : Hdr) (off : BitVec 30) (s : State) : Host.Outcome State Fault Refusal :=
  word (.brk h off) s (fun s g x =>
    match x.flow.regionAt (PC.plus x.flow.pc off) with
    | none => (s.divStack g 2, .done)
    | some i =>
      let b := x.execMask h
      if b = 0 then (s, .on)
      else
        let f := x.flow.arrive i b
        let f := f.setMask (f.mask &&& ~~~b)
        let s := s.setGrp g { x with flow := f }
        if f.mask = 0 then s.endPath g else (s, .run))

/-! ### Yield, exit, nop, sleep (R37, R131) -/

def execYield (h : Hdr) (s : State) : Host.Outcome State Fault Refusal :=
  uniWord (.yield h) h s (fun s _ _ => (s, .run))

def execExit (h : Hdr) (s : State) : Host.Outcome State Fault Refusal :=
  word (.exit h) s (fun s g x =>
    let f := x.flow.exitLanes (x.execMask h)
    let s := s.setGrp g { x with flow := f }
    if f.mask = 0 then s.endPath g else (s, .on))

def execNop (h : Hdr) (s : State) : Host.Outcome State Fault Refusal :=
  word (.nop h) s (fun s _ _ => (s, .on))

/-- Suspends a group. -/
def State.suspend (s : State) (g : Nat) (w : Susp) : State :=
  s.updGrp g (fun x => { x with sched := { x.sched with susp := w } })

/-- A suspended group is eligible again. -/
def State.wake (s : State) (g : Nat) : State :=
  (s.updGrp g (fun x => { x with sched := { x.sched with susp := .none } })).eligible g

def execSleep (h : Hdr) (rel : Bool) (a : Operand) (s : State) : Host.Outcome State Fault Refusal :=
  uniWord (.sleep h rel a) h s (fun s g x =>
    let d := if rel then s.tick + s.rd x a 0 else s.rd x a 0
    if d ≤ s.tick then (s, .run) else (s.suspend g (.sleep d), .run))

/-- The deadline of a sleeping group has come (R131). -/
def execSleepDeadline (grp : Nat) (s : State) : Host.Outcome State Fault Refusal :=
  match (s.grp grp).sched.susp with
  | .sleep d => if d ≤ s.tick then .next (s.wake grp) else .next s
  | _ => .next s

/-! ### The paired word (R72 to R77, R126, R152) -/

def Reg7.op : Reg7 → Operand
  | .v n => .v (n.castLE (by decide))
  | .s n => .s n

/-- Registers a slot names. -/
def slotRegs (o : SlotOp) : List Reg7 := o.reads ++ o.writes.toList

/-- A slot whose registers are all scalar executes once for the group (R73); `bra` does not. -/
def slotOnce (o : SlotOp) : Bool := !o.isBra && (slotRegs o).all (fun r => r.vec?.isNone)

/-- The mask in which a slot's guard holds (R72). -/
def Group.slotMask (x : Group) (g : SlotGuard) : Mask :=
  match g with
  | .always => allLanes
  | .p0 => x.preg 0
  | .p1 => x.preg 1
  | .notP0 => ~~~x.preg 0

/-- The sources of a slot with their field codes (R187): SRC7 is a, the register in IMM8 of `ffma` b, a DST7 register that is
read dst. -/
def slotSrcs (x : Slot) : List SrcUse :=
  let u (k : Nat) (r : Reg7) : SrcUse := ⟨k, x.fe, match r with | .v n => [n.val] | .s n => [128 + n.val]⟩
  match x.op with
  | .bin _ d r | .sel d r _ | .fbin _ d r | .icmp _ _ d r | .fcmp _ _ d r | .ffmaI d r _ => [u 0 r, u 3 d]
  | .binI _ _ r _ | .mov _ r | .fbinI _ _ r _ | .icmpI _ _ r _ | .fcmpI _ _ r _ | .frcp _ r | .fexp2 _ r => [u 0 r]
  | .ffma d r t => [u 0 r, u 1 t, u 3 d]
  | .movi8 .. | .bra .. => []

/-- Integer operations of the paired subset on w bits (R74, R126). -/
def pbinVal (o : PBin) (wide : Bool) (a b : Word) : Word :=
  let t : ITy := if wide then .s64 else .s32
  let u : ITy := if wide then .u64 else .u32
  match o with
  | .iadd => t.cut (a + b)
  | .isub => t.cut (a - b)
  | .and => a &&& b
  | .or => a ||| b
  | .xor => a ^^^ b
  | .shl => shiftVal .shl u false a (t.cut b).toNat
  | .shr => shiftVal .shr u false a (t.cut b).toNat
  | .sar => shiftVal .sar u false a (t.cut b).toNat
  | .imin => t.narrow false (min (t.val a) (t.val b))
  | .imax => t.narrow false (max (t.val a) (t.val b))
  | .iminU => u.narrow false (min (u.val a) (u.val b))
  | .imaxU => u.narrow false (max (u.val a) (u.val b))

/-- The immediate of an integer slot: sign-extended, but for the unsigned minimum and maximum and for counts (R74). -/
def pbinImm (o : PBin) (i : BitVec 8) : Word :=
  match o with
  | .iminU | .imaxU | .shl | .shr | .sar => i.setWidth 64
  | _ => i.signExtend 64

/-- F8 (R73): a binary8p4se code as an FP32 pattern. -/
def f8Bits (i : BitVec 8) : Nat := (convert (.flt fp32) .rne false false (decodeVal (.flt (binary8 4 true true)) i.toNat)).1

/-- A floating-point slot of two operands, on FP32 patterns (R73, R74). -/
def pfbinVal (o : PFBin) (x : Group) (a b : Nat) : Nat × FFlags :=
  let md := x.mode .dyn
  let rd := readF fp32 x.fp.daz
  let fin (v : Val × FFlags) : Nat × FFlags := let r := roundF fp32 md false x.fp.ftz v.1; (r.1, r.2 ||| v.2)
  match o with
  | .fadd => fin (addV (decide (md = .rdn)) (rd a) (rd b))
  | .fmul => fin (mulV (rd a) (rd b))
  | .fmin => minMaxF false fp32 x.fp.daz a b
  | .fmax => minMaxF true fp32 x.fp.daz a b

/-- A fused multiply-add on FP32 patterns under FP_CTL. -/
def fmaBits (x : Group) (a b c : Nat) : Nat × FFlags :=
  let md := x.mode .dyn
  let v := fmaV (decide (md = .rdn)) (readF fp32 x.fp.daz a) (readF fp32 x.fp.daz b) (readF fp32 x.fp.daz c)
  let r := roundF fp32 md false x.fp.ftz v.1
  (r.1, r.2 ||| v.2)

/-- A special function on an FP32 pattern. -/
def sfnBits (x : Group) (fn : SFn) (c : Nat) : Nat × FFlags :=
  let c' := if x.fp.daz && isSubnormal fp32 c then (if 2 ^ 31 ≤ c then 2 ^ 31 else 0) else c
  specialF fn false x.fp.ftz c' (readF fp32 x.fp.daz c)

/-- A compare of two FP32 patterns. -/
def fcmpBits (x : Group) (cc : Cond) (a b : Nat) : Word × FFlags :=
  let r := fcmpHolds cc (readF fp32 x.fp.daz a) (readF fp32 x.fp.daz b)
  (boolWord r.1, r.2)

/-- What a slot gives in a lane: its value (a truth for a compare) and its flags; `p` is the predicate a `sel` reads there. -/
def State.slotVal (s : State) (x : Group) (o : SlotOp) (wide : Bool) (p : Bool) (l : Nat) : Word × FFlags :=
  let rd (r : Reg7) : Word := let v := s.rd x (Reg7.op r) l; if wide then v else (v.setWidth 32).setWidth 64
  let f (r : Reg7) : Nat := (rd r).toNat % 2 ^ 32
  let fp (r : Nat × FFlags) : Word × FFlags := (BitVec.ofNat 64 r.1, r.2)
  match o with
  | .bin op d r => (pbinVal op wide (rd d) (rd r), 0)
  | .binI op _ r i => (pbinVal op wide (rd r) (pbinImm op i), 0)
  | .mov _ r => (rd r, 0)
  | .movi8 _ i => (i.signExtend 64, 0)
  | .sel d r _ => (if p then rd r else rd d, 0)
  | .fbin op d r => fp (pfbinVal op x (f d) (f r))
  | .fbinI op _ r i => fp (pfbinVal op x (f r) (f8Bits i))
  | .ffma d r t => fp (fmaBits x (f r) (f t) (f d))
  | .ffmaI d r i => fp (fmaBits x (f r) (f8Bits i) (f d))
  | .icmp _ cc d r => (boolWord (icmpHolds cc wide (rd d) (rd r)), 0)
  | .icmpI _ cc r i => (boolWord (icmpHolds cc wide (rd r) (i.signExtend 64)), 0)
  | .fcmp _ cc d r => fcmpBits x cc (f d) (f r)
  | .fcmpI _ cc r i => fcmpBits x cc (f r) (f8Bits i)
  | .frcp _ r => fp (sfnBits x .rcp (f r))
  | .fexp2 _ r => fp (sfnBits x .exp2 (f r))
  | .bra _ => (0, 0)

/-- How a slot is to execute: in which lanes; `once` marks a slot that executes once for the group. -/
structure SlotRun where
  lanes : Mask
  once : Bool
  sel : Mask
  deriving DecidableEq, Repr

/-- The predicate a `sel` slot names. -/
def selPred (o : SlotOp) : Option Nat :=
  match o with
  | .sel _ _ p => some (if p then 1 else 0)
  | _ => none

/-- Reads a slot's guard, and its `sel` predicate where the slot executes once (R73); the trap information where they differ
between lanes. A `sel` whose guard is false is not looked at, which R73 does not say (log entry 96). -/
def Group.slotRun (x : Group) (b : Bool) (y : Slot) : Except Nat SlotRun :=
  let k := if b then 64 else 0
  let act := x.flow.mask
  let gm := x.slotMask y.gd
  if slotOnce y.op then
    match uniRead act gm (decide (y.gd = .always)) with
    | .differ => .error (1 + k)
    | gd =>
      let run := decide (gd = .run)
      match selPred y.op with
      | none => .ok ⟨if run then 1 else 0, true, 0⟩
      | some p => match uniRead act (x.preg p) false with
        | .differ => if run then .error (2 + 32 + k) else .ok ⟨0, true, 0⟩
        | t => .ok ⟨if run then 1 else 0, true, if t = .run then 1 else 0⟩
  else .ok ⟨act &&& gm, false, match selPred y.op with | some p => x.preg p | none => 0⟩

/-- The effect of a slot: the operand it writes, the lanes, the values, the flags, and whether the result is long-latency. -/
structure SlotOut where
  dst : Operand
  lanes : List Nat
  vals : Tab Word
  flags : FFlags
  long : Bool
  deriving DecidableEq, Repr

/-- What a slot computes. R73 and R126 give the operand width by the destination; a compare, whose destination is a predicate, takes
64 bits where the slot executes once, as its registers are then all scalar, and 32 otherwise (log entry 96). -/
def State.slotOut (s : State) (x : Group) (y : Slot) (r : SlotRun) : SlotOut :=
  let wide := match y.op.writes with
    | some (.v _) => false
    | some (.s _) => true
    | none => r.once
  let from_ := lanesOf r.lanes
  let rs := from_.map (fun l => (l, s.slotVal x y.op wide (r.sel.getLsbD l) l))
  let fl : FFlags := rs.foldl (fun a q => a ||| q.2.2) 0
  match y.op.writesPred with
  | some p =>
    -- a compare that executes once writes its truth in every active lane (R75)
    if r.once then
      let v := (Tab.get (0, 0) 0 rs).1
      let lanes := if r.lanes = 0 then [] else lanesOf x.flow.mask
      ⟨.p (if p then 1 else 0), lanes, lanes.map (fun l => (l, v)), fl, false⟩
    else ⟨.p (if p then 1 else 0), from_, rs.map (fun q => (q.1, q.2.1)), fl, false⟩
  | none =>
    let d : Operand := match y.op.writes with
      | some d => Reg7.op d
      | none => .zero
    ⟨d, from_, rs.map (fun q => (q.1, q.2.1)), fl, y.op.isSpecial⟩

/-- Makes a slot's writes. -/
def State.slotWrite (s : State) (g : Nat) (o : SlotOut) : State :=
  let val := fun l => Tab.get 0 l o.vals
  if o.long then
    match regOf o.dst with
    | some n => if o.lanes.isEmpty then s else s.sendResult g [n] (resultsFor o.dst o.lanes val) o.flags
    | none => s
  else s.updGrp g (fun x => (x.write o.dst o.lanes val).addFlags o.flags)

/-- The branch of slot B, where it is one. -/
def pairBranch (x : Group) (y : Slot) : Option (BranchWay × PC) :=
  match y.op with
  | .bra off =>
    some (branchWay x.flow.mask (x.slotMask y.gd) (decide (y.gd = .always)), x.flow.pc + off.signExtend 54)
  | _ => none

/-- A paired word (R72 to R77). Where both slots fail a check at issue, slot A's is reported (log entry 96). -/
def execPairedWord (bnd : Bool) (x y : Slot) (s : State) : Host.Outcome State Fault Refusal :=
  word (.pairedWord bnd x y) s (fun s g grp =>
    match grp.slotRun false x, grp.slotRun true y with
    | .error n, _ => (s.trapNow g 0x04 (BitVec.ofNat 64 n) 0, .done)
    | _, .error n => (s.trapNow g 0x04 (BitVec.ofNat 64 n) 0, .done)
    | .ok ra, .ok rb =>
      let pol : Policy := match grp.policyOf false (slotSrcs x), grp.policyOf true (slotSrcs y) with
        | .trap n, _ => .trap n
        | _, .trap n => .trap n
        | .block n, .block m => .block (n ++ m)
        | .block n, .ok => .block n
        | .ok, p => p
      withPolicy s g pol (
        let br := pairBranch grp y
        if (match br with | some b => grp.branchBlocked b.1 | none => false) then (s.divStack g 1, .done)
        else
          let oa := s.slotOut grp x ra
          let ob := s.slotOut grp y rb
          let s := (s.slotWrite g oa).slotWrite g ob
          match br with
          | none => (s, .on)
          | some (w, target) => s.branch g w target))

end Sys2Proof.Machine
end

