-- ==== Sys2Proof/Machine/Translate.lean ====
section
/-!
DEFINITION. Machine/Translate.lean: access tables, page walks, TLBs, grants, and the fault buffers (R207, R221, R222,
R354 to R364, R368, R369).
-/
namespace Sys2Proof.Machine

/-! ### Access tables (R368, R369) -/

/-- Operation classes of a row's OPS field. -/
inductive OpClass where
  | read | write | atomic
  deriving DecidableEq, Repr

/-- Engine classes of a row's ENG field (R368): the paths LS, CP, MX, GA, FB as 0 to 4, the walker 5, inbound PCIe 6. -/
abbrev EngClass := Nat

/-- A row that grants an access of `len` bytes at `pa` (R369). -/
def State.rowGrants (s : State) (cls row ctx eng : Nat) (op : OpClass) (pa len : Nat) (peer : Option Nat) : Bool :=
  let a := hubBase + 0x60000 + 0x2000 * cls + 0x20 * row
  let r := s.reg a
  r.getLsbD 0 && (r.getLsbD 7 || decide (bits r 1 6 = ctx)) && r.getLsbD (8 + eng) &&
    r.getLsbD (match op with | .read => 15 | .write => 16 | .atomic => 17) &&
    decide (bits (s.reg (a + 8)) 12 40 ≤ pa / 4096 ∧ (pa + len - 1) / 4096 ≤ bits (s.reg (a + 0x10)) 12 40) &&
    (match peer with
     | none => true
     | some n => decide (bits (s.reg (a + 0x18)) 0 12 ≤ n ∧ n ≤ bits (s.reg (a + 0x18)) 16 12))

/-- An access is permitted at a target class when some row grants it (R369). -/
def State.permitted (s : State) (cls ctx eng : Nat) (op : OpClass) (pa len : Nat) (peer : Option Nat) : Bool :=
  (List.range 256).any (fun row => s.rowGrants cls row ctx eng op pa len peer)

/-! ### Dies (R9, R11, R429) -/

/-- Tagging enabled for the package (R220, R429). -/
def State.tagging (s : State) : Bool := (s.reg (hubBase + 0x272000)).getLsbD 16

/-- The lowest live rank (R11); 0 where none lives. -/
def State.lowRank (s : State) : Nat := ((List.range 8).find? (fun d => s.repl.live.getLsbD d)).getD 0

/-- The die on whose behalf a core issues (R11): a control core uses the lowest live rank. -/
def State.issueDie (s : State) (core : Nat) : Nat := if isControl core then s.lowRank else dieOfCore core

/-! ### Page-table entries (R355, R356) -/

def pteV (e : Word) : Bool := e.getLsbD 0
def pteLeaf (e : Word) : Bool := e.getLsbD 1
def pteR (e : Word) : Bool := e.getLsbD 2
def pteW (e : Word) : Bool := e.getLsbD 3
def pteX (e : Word) : Bool := e.getLsbD 4
def pteSup (e : Word) : Bool := e.getLsbD 5
def pteKind (e : Word) : Nat := bits e 6 3
def pteTrk (e : Word) : Bool := e.getLsbD 9
def pteTag (e : Word) : Bool := e.getLsbD 10
def pteS64 (e : Word) : Bool := e.getLsbD 11
def pteRefuse (e : Word) : Bool := e.getLsbD 12
def pteWf (e : Word) : Bool := e.getLsbD 13
def pteFrame (e : Word) : Nat := bits e 14 38
def ptePeer (e : Word) : Nat := bits e 52 12

/-- Index of a virtual address at a level (R355). -/
def vaIndex (va level : Nat) : Nat :=
  match level with
  | 0 => va / 2 ^ 47 % 2 ^ 10
  | 1 => va / 2 ^ 36 % 2 ^ 11
  | 2 => va / 2 ^ 25 % 2 ^ 11
  | _ => va / 2 ^ 14 % 2 ^ 11

/-- Reserved bits of an entry (R356): a non-leaf entry uses V, LEAF and FRAME; PEER is reserved but for kind 4. -/
def pteReservedSet (e : Word) : Bool :=
  if pteLeaf e then decide (pteKind e ≠ 4 ∧ ptePeer e ≠ 0)
  else decide (bits e 2 12 ≠ 0 ∨ bits e 52 12 ≠ 0)

/-- A leaf that cannot stand at its level (R357). -/
def pteMisplaced (e : Word) (level : Nat) : Bool :=
  decide (level < 2) || (decide (level = 2) && (pteS64 e || decide (pteFrame e % 2 ^ 11 ≠ 0))) ||
    (pteS64 e && decide (pteFrame e % 4 ≠ 0)) || decide (pteKind e = 7)

/-- What a translation comes to. -/
inductive Walk where
  | leaf (e : Word) (logSize : Nat)
  | fault (reason level : Nat)
  | refused
  deriving DecidableEq, Repr

/-- Whether the walker can read an entry (R357): a populated place, permitted under class 0, not poisoned. -/
def State.tableReadable (s : State) (ctx pa : Nat) : Bool :=
  match placeOf s.tagging pa with
  | .hbm d _ => s.permitted 0 ctx 5 .read pa 8 none && !(Tab.get false (pa / 128 * 16 + d) s.sys.poison)
  | .hub _ => s.permitted 5 ctx 5 .read pa 8 none
  | _ => false

/-- The page walk (R357) from `level` on, with the non-leaf entries it reads. -/
def State.walkFrom (s : State) (ctx va : Nat) : Nat → Nat → Nat → Walk × List (Nat × Word)
  | 0, _, _ => (.fault 3 3, [])
  | n + 1, level, t =>
    -- a table on a page that has been moved is read at its new frame (R367)
    let pa := s.forwardPa (t + 8 * vaIndex va level)
    if !s.tableReadable ctx pa then (.fault 4 level, [])
    else
      let e : Word := match placeOf s.tagging pa with
        | .hub _ => s.reg pa
        | _ => BitVec.ofNat 64 (s.load pa 8)
      if !pteV e && pteRefuse e then (.refused, [])
      else if !pteV e then (.fault 1 level, [])
      else if pteReservedSet e then (.fault 3 level, [])
      else if !pteLeaf e then
        if level = 3 then (.fault 3 level, [])
        else let r := s.walkFrom ctx va n (level + 1) (pteFrame e * 2 ^ 14); (r.1, (level, e) :: r.2)
      else if pteMisplaced e level then (.fault 3 level, [])
      else (.leaf e (if level = 2 then 25 else if pteS64 e then 16 else 14), [])

/-- The address of a context's level-0 table (R354). -/
def State.ptRoot (s : State) (ctx : Nat) : Nat := bits (s.reg (ctxEntry ctx + 8)) 14 38 * 2 ^ 14

/-- A walk from the context's root (R354, R357). -/
def State.walk (s : State) (ctx va : Nat) : Walk := (s.walkFrom ctx va 4 0 (s.ptRoot ctx)).1

/-- The address bits that lead to an entry of a level. -/
def vaPrefix (va level : Nat) : Nat := va / 2 ^ (match level with | 0 => 47 | 1 => 36 | _ => 25)

/-- The deepest non-leaf entry that a die holds for an address (R359). -/
def State.nonLeafFor (s : State) (die ctx va : Nat) : Option NonLeaf :=
  [2, 1, 0].findSome? (fun l => s.sys.nonLeaf.find? (fun e =>
    decide (e.die = die ∧ e.ctx = ctx ∧ e.level = l ∧ e.index = vaPrefix va l)))

/-- A walk that begins at the deepest non-leaf entry its die holds, and leaves those it reads there (R359). -/
def State.walkCached (s : State) (die ctx va : Nat) : Walk × State :=
  let r := match s.nonLeafFor die ctx va with
    | some e => s.walkFrom ctx va (3 - e.level) (e.level + 1) (pteFrame e.entry * 2 ^ 14)
    | none => s.walkFrom ctx va 4 0 (s.ptRoot ctx)
  let new := r.2.map (fun e => ({ die := die, ctx := ctx, level := e.1, index := vaPrefix va e.1, entry := e.2 } : NonLeaf))
  (r.1, s.setSys { s.sys with nonLeaf := new ++ s.sys.nonLeaf })

/-! ### TLBs (R359) -/

/-- The first-level TLB of a core: the hub's own for a control core. -/
def tlbUnit (core : Nat) : Nat := if isControl core then 0x408 else core

/-- A cached leaf for an address. -/
def State.tlbFind (s : State) (unit ctx va : Nat) : Option TlbEntry :=
  s.sys.tlbs.find? (fun e => decide (e.unit = unit ∧ e.ctx = ctx ∧ e.vpage = va / 2 ^ e.logSize))

/-- The entries of a TLB (R13, R359): a core's, a die's, the hub's. -/
def tlbSize (unit : Nat) : Nat := if unit < 0x400 then 1024 else if unit < 0x408 then 32768 else 256

/-- Installs a leaf in a TLB; one that is full drops an entry, which one is not architected (log entry 42). -/
def State.tlbPut (s : State) (e : TlbEntry) : State :=
  let mine := s.sys.tlbs.filter (fun k => decide (k.unit = e.unit))
  if mine.contains e then s
  else if mine.length < tlbSize e.unit then s.setSys { s.sys with tlbs := e :: s.sys.tlbs }
  else
    let (v, s) := s.freeVal
    let rest := match mine[v.toNat % mine.length]? with | some o => s.sys.tlbs.erase o | none => s.sys.tlbs
    s.setSys { s.sys with tlbs := e :: rest }

/-- Takes the cached leaves of an address out of a unit. -/
def State.tlbDrop (s : State) (unit ctx va : Nat) : State :=
  let keep := s.sys.tlbs.filter (fun e => !decide (e.unit = unit ∧ e.ctx = ctx ∧ e.vpage = va / 2 ^ e.logSize))
  s.setSys { s.sys with tlbs := keep }

/-- A translation (R359): first level, second level of the die, then a walk; a leaf that a walk returns is cached in both. A
control core has the hub's TLB alone. A write that meets a cached leaf with W = 0 walks again. -/
def State.translate (s : State) (core ctx va : Nat) (write : Bool) : Walk × State :=
  let u := tlbUnit core
  let d := if isControl core then u else 0x400 + dieOfCore core
  let use (e : TlbEntry) : Bool := !write || pteW e.leaf
  let fromWalk : Walk × State :=
    let s := (s.tlbDrop u ctx va).tlbDrop d ctx va
    let s := if isControl core then s else s.count (0x340 + dieOfCore core) 0x4D 1
    match s.walkCached (dieOfCore core) ctx va with
    | (.leaf e n, s) =>
      let t : TlbEntry := { unit := u, ctx := ctx, vpage := va / 2 ^ n, logSize := n, leaf := e }
      (.leaf e n, (s.tlbPut t).tlbPut { t with unit := d })
    | r => r
  match s.tlbFind u ctx va with
  | some e => if use e then (.leaf e.leaf e.logSize, s) else fromWalk
  | none =>
    match s.tlbFind d ctx va with
    | some e => if use e then (.leaf e.leaf e.logSize, s.tlbPut { e with unit := u }) else fromWalk
    | none => fromWalk

/-! ### Fault buffers (R363, R364) -/

/-- A fault buffer's key among all. -/
def faultKeyOf (die ctx : Nat) : Nat := die * 64 + ctx

def State.faultBuf (s : State) (die ctx : Nat) : FaultBuf := Tab.get FaultBuf.reset (faultKeyOf die ctx) s.sys.faults
def State.setFaultBuf (s : State) (die ctx : Nat) (b : FaultBuf) : State :=
  s.setSys { s.sys with faults := Tab.set FaultBuf.reset (faultKeyOf die ctx) b s.sys.faults }

/-- Notes a report that is not recorded in this tick (R4, R364). -/
def State.noteDrop (s : State) (die ctx : Nat) : State :=
  let a := hubBase + 0x30000 + 0x4000 * die + 0x100 * ctx + 0x90
  s.noteHw a (s.hw a + 1)

/-- Records of a buffer, at most eight (R364). -/
def FaultBuf.records (b : FaultBuf) : List FaultKey := b.keys.filter (fun k => k.recorded)

/-- A translation fault (R357, R358, R363): its reason, the level at which the walk stopped, and the size of the leaf found, or
16 KiB. -/
structure PageFault where
  reason : Nat
  level : Nat
  logSize : Nat
  deriving DecidableEq, Repr

/-- The base of the faulted page, as VA[56:14]. -/
def PageFault.vpage (f : PageFault) (va : Nat) : Nat := va / 2 ^ f.logSize * 2 ^ f.logSize / 2 ^ 14

/-- A report at the merge table and the buffer (R363). -/
def FaultBuf.report (b : FaultBuf) (k : FaultKey) : FaultBuf :=
  match b.keys.findIdx? (fun j => decide (j.vpage = k.vpage ∧ j.logSize = k.logSize)) with
  | some i => { b with keys := b.keys.modify i (fun j => if j.recorded then { j with count := min 0xFFFF (j.count + 1) } else j) }
  | none =>
    if 32 ≤ b.keys.length then { b with dropCnt := b.dropCnt + 1, dropped := true }
    else if b.records.length < 8 then { b with keys := b.keys ++ [k] }
    else { b with keys := b.keys ++ [{ k with count := 0, recorded := false }], dropped := true, dropCnt := b.dropCnt + 1 }

/-- Handles a report: with the first record an event is posted, where `post` says so. -/
def State.handleReport (s : State) (die ctx : Nat) (k : FaultKey) (post : Bool) : State :=
  let b := s.faultBuf die ctx
  let n := b.report k
  let s := s.setFaultBuf die ctx n
  let s := if n.dropCnt = b.dropCnt then s else s.noteDrop die ctx
  if post && b.records.isEmpty && !n.records.isEmpty then s.postEvent 0x51 [(1, 1, ctx), (2, 1, die)] else s

/-- The report of a walk's fault (R363): `acc` 0 read, 1 write, 2 atomic, 3 fetch; `path` the code of R231, 5 for a fetch. -/
def State.faultReport (s : State) (core slot ctx va acc : Nat) (f : PageFault) (path : Nat) : State :=
  let die := s.issueDie core
  let k : FaultKey :=
    { vpage := f.vpage va, logSize := f.logSize, acc := acc, reason := f.reason, level := f.level, core := core, slot := slot,
      path := path, count := 1, recorded := true }
  let first := (s.faultBuf die ctx).records.isEmpty
  let s := s.handleReport die ctx k true
  s.setSys { s.sys with reports := s.sys.reports ++ [(faultKeyOf die ctx, k, first)] }

/-- A replay-all clears the fault buffer of its context and die, its count of reports not recorded apart, and sets BUSY (R365); the
reports of its own tick are handled after it (R376). -/
def State.replayBegin (s : State) (die c : Nat) : State :=
  let a := hubBase + 0x30000 + 0x4000 * die + 0x100 * c + 0x90
  let now := s.sys.reports.filter (fun r => decide (r.1 = faultKeyOf die c))
  let s := (s.setFaultBuf die c { FaultBuf.reset with
    dropCnt := (s.faultBuf die c).dropCnt - (s.hw a).setWidth 32, busy := true, since := s.tick.toNat }).noteHw a 0
  now.foldl (fun s r => s.handleReport die c r.2.1 (now.all (fun k => !k.2.2))) s

/-! ### Grants and segments (R221, R222, R358) -/

/-- What an access asks of a leaf (R358). -/
inductive Need where
  | read | write | atomic | fetch
  deriving DecidableEq, Repr

/-- The segment kinds (R221). -/
def segKind : Seg → Nat
  | .p => 0 | .d => 1 | .g => 2 | .r => 3 | .peer => 4 | .h => 6

/-- What checking one access comes to: a physical address with its leaf, a fault that parks it, or a failure. -/
inductive Reach where
  | ok (pa : Nat) (leaf : Word)
  | park (f : PageFault)
  | fail (cause detail : Nat)
  deriving DecidableEq, Repr

/-- The grant of a leaf of a size (R358). -/
def grantOf (e : Word) (logSize : Nat) (sup : Bool) (n : Need) : Reach :=
  let wf : Reach := .park { reason := 2, level := if logSize = 25 then 2 else 3, logSize := logSize }
  let bad : Reach := .fail 0x11 8
  if pteSup e && !sup then bad
  else
    match n with
    | .read => if pteR e then .ok 0 e else bad
    | .fetch => if pteX e && decide (pteKind e = 1 ∨ pteKind e = 2 ∨ pteKind e = 3) then .ok 0 e else bad
    | .write => if pteW e then .ok 0 e else if pteWf e then wf else bad
    | .atomic =>
      if pteW e then (if pteR e then .ok 0 e else bad) else if pteWf e && pteR e then wf else bad

/-- The physical address a leaf gives (R207, R356): a replicated page is the issuing die's copy. For a peer page, the remote
address. -/
def State.leafPa (s : State) (core : Nat) (e : Word) (va logSize : Nat) : Reach :=
  let off := va % 2 ^ logSize
  let pa := pteFrame e * 2 ^ 14 + off
  match pteKind e with
  | 3 =>
    let cfg := s.reg (hubBase + 0x52040)
    if bits cfg 40 7 * 2 ^ 30 ≤ pa then .fail 0x11 7
    else .ok (dieBase (s.issueDie core) + bits cfg 30 7 * 2 ^ 30 + pa) e
  | 4 => .ok pa e
  | 6 => (match placeOf s.tagging pa with | .host _ => .ok pa e | _ => .fail 0x11 7)
  | _ =>
    match placeOf s.tagging pa with
    | .hbm d _ =>
      if (pteKind e = 0 ∨ pteKind e = 1) ∧ ¬ isControl core ∧ d ≠ dieOfCore core then .fail 0x07 3 else .ok pa e
    | .hub _ => if pteKind e = 2 then .ok pa e else .fail 0x11 7
    | _ => .fail 0x11 7

/-- The peer map's answer for a context's partition (R299, R371). -/
def State.peerCheck (s : State) (ctx n : Nat) : Option Nat :=
  let a := hubBase + 0x80000 + 0x1000 * s.ctxPart ctx + n
  let b := bits (s.reg (a / 8 * 8)) (8 * (a % 8)) 8
  if b / 4 % 2 = 0 then some 1 else if b % 4 = 1 then some 2 else if b % 4 = 2 then none else some 3

/-- Resolves one access to an address whose page a walk found (R221, R299, R358, R371): grant, kind, place, peer map. `kindOk`
says whether the word admits the kind: none where it does, else the SEGMENT_OP detail. -/
def State.resolve (s : State) (core ctx : Nat) (sup : Bool) (va : Nat) (n : Need) (kindOk : Nat → Option Nat)
    (w : Walk) : Reach :=
  match w with
  | .fault r l => .park { reason := r, level := l, logSize := 14 }
  | .refused => .fail 0x10 1
  | .leaf e logSize =>
    match grantOf e logSize sup n with
    | .ok _ _ =>
      match kindOk (pteKind e) with
      | some d => .fail 0x07 d
      | none =>
        if pteKind e = 4 then
          match s.peerCheck ctx (ptePeer e) with
          | some d => .fail 0x13 d
          | none => s.leafPa core e va logSize
        else s.leafPa core e va logSize
    | r => r

/-- A virtual address under R250: its 57 low bits. -/
def vaOf (ea : Word) : Nat := bits ea 0 57

/-- EA[63:61] must be zero (R250). -/
def eaBad (ea : Word) : Bool := decide (bits ea 61 3 ≠ 0)

/-- What an access with a code of R364 asks of a leaf. -/
def needOf (acc : Nat) : Need := if acc = 0 then .read else if acc = 1 then .write else if acc = 2 then .atomic else .fetch

/-- The fault that a parked access meets where its page is walked again (R194). -/
def State.walkAgain (s : State) (core ctx : Nat) (sup : Bool) (n : Need) (va : Word) : Option (Word × PageFault) :=
  match s.resolve core ctx sup (vaOf va) n (fun _ => none) (s.walk ctx (vaOf va)) with
  | .park f => some (va, f)
  | _ => none

/-- The private transform of R222 for a lane, on a 4-byte piece. -/
def privVa (base : Word) (p : Nat) (lane : Nat) : Word :=
  base + BitVec.ofNat 64 (p / 4 * 384 + 4 * lane + p % 4)

end Sys2Proof.Machine
end

