-- ==== Sys2Proof/Machine/Mgmt.lean ====
section
/-!
DEFINITION. Machine/Mgmt.lean: the hub's management space: what a read of a register returns and does, and what a write stores
and starts (R4, R291, R333, R334, R347, R349, R352 to R354, R364, R367 to R373, R379 to R383, R386, R388, R390, R391, R394,
R396, R423, R425, R427, R429).
-/
namespace Sys2Proof.Machine

/-- The bits `[lo + n - 1 : lo]`. -/
def fieldMask (lo n : Nat) : Word := BitVec.ofNat 64 ((2 ^ n - 1) * 2 ^ lo)

/-- Software's access to a register: the bits it writes, and the bits that a written 1 clears (R4). -/
structure RegMask where
  rw : Word
  w1c : Word
  deriving DecidableEq, Repr

/-- A counter's unit and event, from an offset in the management space (R381, R382). -/
def counterAt (o : Nat) : Option (Nat × Nat) :=
  if 0x200000 ≤ o ∧ o < 0x200000 + 0x100 * 832 ∧ o % 0x100 < 0xC0 then some ((o - 0x200000) / 0x100, o % 0x100 / 8)
  else if 0x240000 ≤ o ∧ o < 0x241000 ∧ o % 0x200 < 0xB8 then
    some (0x340 + (o - 0x240000) / 0x200, 0x40 + o % 0x200 / 8)
  else if 0x241000 ≤ o ∧ o < 0x241030 then some (0x348, 0xC0 + (o - 0x241000) / 8)
  else none

/-- The access codes of the registers that a plain masked write serves, by offset from the start of the management space. -/
def regMask (o : Nat) : RegMask :=
  let rw (m : Word) : RegMask := ⟨m, 0⟩
  let addr12 : Word := fieldMask 12 40
  if 0x10000 ≤ o ∧ o < 0x12000 then
    (match o % 0x40 with
     | 0 => rw 0xFF1FFF
     | 8 | 0x10 => rw (fieldMask 0 64)
     | 0x18 => ⟨0, 0x80⟩
     | _ => rw 0)
  else if 0x12000 ≤ o ∧ o < 0x13000 then rw (if o % 16 = 0 then 0x8000003F3FFFFFFF else fieldMask 0 48)
  else if 0x13000 ≤ o ∧ o < 0x13200 then rw (fieldMask 0 64)
  else if 0x14000 ≤ o ∧ o < 0x14028 then
    (match o % 0x40 with | 0 => rw addr12 | 8 => rw 0xFFFF | 0x18 => rw 0xFFFF | _ => rw 0)
  else if o = 0x15000 then rw 1
  else if 0x20000 ≤ o ∧ o < 0x28000 then (if o % 0x1000 = 8 then ⟨0x700, 7⟩ else rw 0)
  else if 0x50000 ≤ o ∧ o < 0x52000 then
    (match o % 0x80 with
     | 0 => rw 0x7FF
     | 8 => rw (fieldMask 14 38)
     | 0x10 | 0x20 => rw addr12
     | 0x18 => rw (fieldMask 12 45)
     | _ => rw 0)
  else if 0x52000 ≤ o ∧ o < 0x52040 then rw (1 ||| addr12)
  else if o = 0x52048 then rw 0xFFF
  else if 0x52100 ≤ o ∧ o < 0x52300 then
    (match o % 0x40 with | 0 => rw (3 ||| fieldMask 14 38) | 8 => rw (fieldMask 14 38) | 0x10 => ⟨0, 8⟩ | _ => rw 0)
  else if 0x60000 ≤ o ∧ o < 0x6C000 then
    (match o % 0x20 with
     | 0 => rw (fieldMask 0 18)
     | 8 | 0x10 => rw addr12
     | _ => rw (if o / 0x2000 = 0x32 then 0x0FFF0FFF else 0))
  else if 0x80000 ≤ o ∧ o < 0x90000 then rw 0x0707070707070707
  else if 0x100000 ≤ o ∧ o < 0x140000 then
    -- a publication's children lie at +0x08 to +0x1F; both kinds share the first word (R372, R373)
    (match o % 0x40 with
     | 0 => rw (fieldMask 0 60)
     | 8 | 0x10 | 0x18 => rw 0x0FFF0FFF0FFF0FFF
     | 0x20 => rw addr12
     | 0x28 | 0x30 => rw (fieldMask 0 32)
     | _ => rw 0x3F)
  else if o = 0x242000 then rw 0x3F
  else if 0x242040 ≤ o ∧ o < 0x242280 then
    (match o % 0x40 with | 0 => rw addr12 | 8 => rw 0x1F | 0x18 => rw (fieldMask 0 20) | _ => rw 0)
  else if o = 0x250000 then rw 1
  else if o = 0x250028 then rw (fieldMask 0 64)
  else if o = 0x250030 then rw 1
  else if o = 0x250038 then rw addr12
  else if 0x250100 ≤ o ∧ o < 0x250200 then
    (match o % 0x20 with | 0 => rw (fieldMask 0 17) | 8 => rw (fieldMask 0 57) | _ => rw 0)
  else if 0x251000 ≤ o ∧ o < 0x252000 then
    (match o % 0x40 with
     | 0 => ⟨3, 4⟩
     | 8 => rw addr12
     | 0x10 => rw 0x1F
     | 0x20 => rw (fieldMask 0 28)
     | _ => rw 0)
  else if 0x260000 ≤ o ∧ o < 0x260400 ∧ o % 0x40 = 0 then rw 1
  else if 0x270000 ≤ o ∧ o < 0x271100 then
    (if o % 0x100 = 0 then rw 0x7F else if o % 0x100 ≤ 0x80 then rw (1 ||| fieldMask 32 20) else rw 0)
  else if o = 0x280000 then rw (fieldMask 0 12)
  else rw 0

/-- A communicator's first word has [7] reserved, a publication's [63:24] (R372, R373). -/
def espalierFix (o : Nat) (v : Word) : Word :=
  if 0x100000 ≤ o ∧ o < 0x140000 ∧ o % 0x40 = 0 then
    (if v.getLsbD 1 then v &&& ~~~0x80#64 else v &&& fieldMask 0 24)
  else v

/-- Values a field stores in place of what is written (R349, R386, R388, R396, R427). -/
def regClamp (o : Nat) (v : Word) : Word :=
  let setField (lo n x : Nat) : Word := (v &&& ~~~fieldMask lo n) ||| BitVec.ofNat 64 (x * 2 ^ lo)
  if o = 0x14008 then (if 4 ≤ bits v 0 5 ∧ bits v 0 5 ≤ 16 then v else setField 0 5 4)
  else if o = 0x242000 then (if 12 ≤ bits v 1 5 ∧ bits v 1 5 ≤ 30 then v else setField 1 5 12)
  else if 0x242040 ≤ o ∧ o < 0x242280 ∧ o % 0x40 = 8 then
    (if 4 ≤ bits v 0 5 ∧ bits v 0 5 ≤ 20 then v else setField 0 5 4)
  else if 0x251000 ≤ o ∧ o < 0x252000 ∧ o % 0x40 = 0x10 then
    (if 10 ≤ bits v 0 5 ∧ bits v 0 5 ≤ 28 then v else setField 0 5 10)
  else if 0x251000 ≤ o ∧ o < 0x252000 ∧ o % 0x40 = 0 then (if bits v 0 2 = 3 then setField 0 2 0 else v)
  else if o = 0x280000 then setField 0 12 (max 600 (min 2600 (bits v 0 12)))
  else espalierFix o v

/-- A masked write: bits that software writes, bits that a 1 clears where hardware has not set them in this tick, the rest kept
(R4). A write of a slice entry or of the stop on a tick is noted, for hardware acts on these registers as a tick ends (R347, R395). -/
def State.maskedWrite (s : State) (o : Nat) (v : Word) : State :=
  let a := hubBase + o
  let m := regMask o
  let old := s.reg a
  let noted := decide ((0x12000 ≤ o ∧ o < 0x13000) ∨ o = 0x250028 ∨ o = 0x250030)
  let s := if noted then { s with dbg := { s.dbg with sw := a :: s.dbg.sw } } else s
  s.setReg a (regClamp o ((old &&& ~~~m.rw &&& ~~~(m.w1c &&& v &&& ~~~s.hw a)) ||| (v &&& m.rw)))

/-! ### Launch queue configuration (R334) -/

def qcfgAddr (q : Nat) : Nat := hubBase + 0x10000 + 0x40 * q
def State.qcfg (s : State) (q : Nat) : Word := s.reg (qcfgAddr q)

/-- The reservations of a queue as they would stand with `val` written at +0x00 (`fab` none), +0x08 or +0x10. -/
def State.resvOk (s : State) : Bool :=
  let on := (List.range 128).filter (fun q => (s.qcfg q).getLsbD 0)
  decide ((on.map (fun q => bits (s.qcfg q) 16 8)).sum ≤ 208) &&
    (List.range 16).all (fun p =>
      decide ((on.map (fun q => bits (s.reg (qcfgAddr q + 8 + 8 * (p / 8))) (8 * (p % 8)) 8)).sum ≤ 224))

/-- A write to QCFG or QFAB is applied or refused whole; a refusal sets ERR (R334). -/
def State.qcfgWrite (s : State) (q : Nat) (fab : Option Nat) (val : Word) : State :=
  let o := 0x10000 + 0x40 * (q % 128) + (match fab with | none => 0 | some k => 8 + 8 * (k % 2))
  let s' := s.maskedWrite o val
  if s'.resvOk then s' else s.hwSet (qcfgAddr (q % 128) + 0x18) 0x80

/-! ### Unit counters (R380 to R384) -/

/-- Notes what a counter held as its first reprogram of this tick came, and that a write has cleared its EN (R383): the word with
bit 64, or 65, above it. -/
def State.noteProg (s : State) (a old : Nat) (prog : Bool) : State :=
  let was := Tab.get old a s.dbg.reprog
  let kept := if prog && !Nat.testBit was 64 then old % 2 ^ 64 + was / 2 ^ 65 * 2 ^ 65 else was
  let bit := if prog then 64 else 65
  let new := if Nat.testBit kept bit then kept else kept + 2 ^ bit
  { s with dbg := { s.dbg with reprog := Tab.put a new s.dbg.reprog } }

/-- A write of a counter: with KEEP only IE, EN and the W1C bits change, and no event of this tick is lost; otherwise it reprograms
CNT, and this tick's events are not counted (R383). -/
def State.counterWrite (s : State) (unit ev : Nat) (v : Word) : State :=
  let a := counterAddr unit ev
  let old := s.reg a
  let flags := (v &&& fieldMask 50 2) ||| (old &&& fieldMask 48 2 &&& ~~~(v &&& fieldMask 48 2))
  if v.getLsbD 62 then
    let s := s.setReg a (flags ||| (old &&& fieldMask 0 48))
    if old.getLsbD 50 && !v.getLsbD 50 then s.noteProg a old.toNat false else s
  else (s.setReg a (flags ||| (v &&& fieldMask 0 48))).noteProg a old.toNat true

/-- What a counter held at its first reprogram of this tick: none where there is none. -/
def State.progOf (s : State) (a : Nat) : Option Nat := (Tab.find? a s.dbg.reprog).filter (fun v => Nat.testBit v 64)

/-- Whether a counter takes this tick's events: EN is 1, or a KEEP write of this tick has cleared it. -/
def State.counterOn (s : State) (a : Nat) : Bool := (s.reg a).getLsbD 50 || Nat.testBit (Tab.get 0 a s.dbg.reprog) 65

/-- Whether this tick's events overflow a counter (R383). -/
def State.counterOverflows (s : State) (a : Nat) : Bool :=
  s.counterOn a && decide (2 ^ 48 ≤ bits (s.reg a) 0 48 + Tab.get 0 a s.dbg.counts) && (s.progOf a).isNone

/-- A read of a counter (R383): CNT at the start of the tick, and an OVF that counts this tick's events and is set by it. It is
made as the tick ends, when the events of all of it have come. -/
def State.counterRead (s : State) (a : Nat) : Word × State :=
  let r := s.reg a
  let r := match s.progOf a with
    | some old => (r &&& ~~~fieldMask 0 48) ||| BitVec.ofNat 64 (old % 2 ^ 48)
    | none => r
  if s.counterOverflows a then (r ||| fieldMask 48 1, s.setReg a (r ||| fieldMask 48 1)) else (r, s)

/-- Whether a physical address is a counter's (R381). -/
def isCounter (pa : Nat) : Bool := decide (hubBase ≤ pa ∧ pa % 8 = 0) && (counterAt (pa - hubBase)).isSome

/-- The answer of a counter to reader `who`, which is taken; a first asking is served in this tick and answered as it ends (R383). -/
def State.askCounter (s : State) (who : Nat × Nat) (pa : Nat) : Option Word × State :=
  let put (l : List CtrRead) : State := { s with dbg := { s.dbg with ctrReads := l } }
  match s.dbg.ctrReads.find? (fun r => decide (r.who = who ∧ r.addr = pa)) with
  | none => (none, put (s.dbg.ctrReads ++ [{ who := who, addr := pa, val := none }]))
  | some r => match r.val with
    | some v => (some v, put (s.dbg.ctrReads.filter (fun k => decide (k ≠ r))))
    | none => (none, s)

/-- The answer of a counter that waits for its reader, and the answers taken. -/
def State.counterKept (s : State) (who : Nat × Nat) (pa : Nat) : Option Word :=
  (s.dbg.ctrReads.find? (fun r => decide (r.who = who ∧ r.addr = pa))).bind CtrRead.val
def State.dropKept (s : State) (who : Nat × Nat) : State :=
  { s with dbg := { s.dbg with ctrReads := s.dbg.ctrReads.filter (fun r => decide (r.who ≠ who)) } }

/-- As a tick ends the reads of counters that it served are answered (R383). -/
def State.answerCounters (s : State) : State :=
  s.dbg.ctrReads.foldl (fun s r =>
    if r.val.isSome then s
    else
      let v := s.counterRead r.addr
      { v.2 with dbg := { v.2.dbg with ctrReads := v.2.dbg.ctrReads.map (fun k => if k = r then { r with val := some v.1 } else k) } }) s

/-- The end of a tick for one counter (R383, R384). -/
def State.counterClose (s : State) (a : Nat) : State :=
  let n := Tab.get 0 a s.dbg.counts
  match s.progOf a with
  | some old =>
    if (Nat.testBit old 50 || Nat.testBit old 65) && decide (2 ^ 48 ≤ old % 2 ^ 48 + n) then s.setReg a (s.reg a ||| fieldMask 49 1) else s
  | none =>
    let r := s.reg a
    if !s.counterOn a then s
    else
      let c := bits r 0 48 + n
      let r' := (r &&& ~~~fieldMask 0 48) ||| BitVec.ofNat 64 (c % 2 ^ 48)
      if c < 2 ^ 48 then s.setReg a r'
      else
        let s := s.setReg a (r' ||| fieldMask 48 1)
        match r.getLsbD 51, counterAt (a - hubBase) with
        | true, some (u, e) => s.postEvent 0x52 [(2, 2, u), (4, 1, e)]
        | _, _ => s

/-- The end of a tick for all counters: the events of the tick are added. -/
def State.closeCounters (s : State) : State :=
  let keys := s.dbg.counts.map Prod.fst ++ (s.dbg.reprog.map Prod.fst).filter (fun a => (Tab.find? a s.dbg.counts).isNone)
  let s := keys.foldl State.counterClose s
  -- an event record posted by an overflow counts in the tick that begins
  let old := keys
  { s with dbg := { s.dbg with counts := s.dbg.counts.filter (fun e => !old.contains e.1), reprog := [] } }

/-! ### Time (R386) -/

/-- A write to ACTK (R386): the register holds it at once, the period changes at a common tick to come. -/
def State.actkWrite (s : State) (v : Word) : State :=
  let s := s.maskedWrite 0x242000 v
  let new := s.reg (hubBase + 0x242000)
  let n := 2 ^ max (bits s.dbg.actNow 1 5) (bits new 1 5)
  let t := (s.tick.toNat + 1024 + n - 1) / n * n
  { s with dbg := { s.dbg with actk := some (t, new) } }

/-- A write to a ring's BASE or LOG2 (`reg` 0 or 1) sets HEAD and TAIL to 0; TAIL is `reg` 3 (R388). -/
def State.ringWrite (s : State) (ring reg : Nat) (v : Word) : State :=
  let o := 0x242040 + 0x40 * (ring % 9)
  match reg with
  | 0 | 1 => (((s.maskedWrite (o + 8 * reg) v).setReg (hubBase + o + 0x10) 0).setReg (hubBase + o + 0x18) 0)
  | 3 => s.maskedWrite (o + 0x18) v
  | _ => s

/-- A write to RRCFG sets HEAD and the grid count to 0 (R396). -/
def State.rrcfgWrite (s : State) (c : Nat) (v : Word) : State :=
  let o := 0x251000 + 0x40 * (c % 64)
  let s := (s.maskedWrite o v).setReg (hubBase + o + 0x18) 0
  { s with dbg := { s.dbg with replay := Tab.del (c % 64) s.dbg.replay } }

/-- A write to the event queue's BASE or SIZE sets HEAD and TAIL to 0 (R349). -/
def State.eventQueueWrite (s : State) (size : Bool) (v : Word) : State :=
  (((s.maskedWrite (if size then 0x14008 else 0x14000) v).setReg (evBase + 0x10) 0).setReg (evBase + 0x18) 0).admitPosts

/-! ### Freezing (R391, R392) -/

def frzStat : Nat := hubBase + 0x250010

/-- What FRZSTAT, FTICK and FPC show of a freeze (R391); DUMPED stays. A field that says nothing of a freeze of this cause holds
a free value. -/
def State.recordFreeze (s : State) (q : FreezeReq) : State :=
  let r := s.freeVal
  let f (tells : Bool) (lo n x : Nat) : Nat := (if tells then x % 2 ^ n else bits r.1 lo n) * 2 ^ lo
  let word := decide (q.cause ≠ 1)
  let v := (r.2.reg frzStat &&& fieldMask 36 1) ||| BitVec.ofNat 64
    (q.cause % 8 * 2 ^ 2 + f word 5 10 q.core + f word 15 6 q.slot + f (decide (q.cause = 3)) 21 3 q.widx +
      f (decide (q.cause = 2)) 24 12 q.bkn)
  let p := r.2.freeVal
  ((p.2.setReg frzStat v).setReg (hubBase + 0x250018) (BitVec.ofNat 64 (q.tick + 64))).setReg (hubBase + 0x250020)
    (if word then q.pc else p.1 &&& fieldMask 0 57)

/-- Whether the tick of a freeze has come (R392). -/
def State.freezeDue (s : State) : Bool :=
  match s.dbg.freeze with
  | some q => decide (q.tick + 64 ≤ s.tick.toNat)
  | none => false

/-- A request to freeze (R392): ignored while the package is frozen; of two in one tick the lower core is recorded. -/
def State.requestFreeze (s : State) (q : FreezeReq) : State :=
  let take : State := ({ s with dbg := { s.dbg with freeze := some q } } : State).recordFreeze q
  if s.dbg.frozen then s
  else match s.dbg.freeze with
    | none => take
    | some r => if r.tick = q.tick ∧ q.core < r.core then take else s

/-- The request that a FREEZE command makes. -/
def State.commandFreeze (s : State) : State :=
  s.requestFreeze { tick := s.tick.toNat, cause := 1, core := 0x3FF, slot := 0, widx := 0, bkn := 0, pc := 0 }

/-- A command written to DBGCMD (R391, R394). -/
def State.debugCommand (s : State) (v : Word) : State :=
  let core := bits v 3 10
  let slot := bits v 13 6
  let c := bits v 19 6
  let later (i : Instr) : State :=
    if s.dbg.frozen then { s with dbg := { s.dbg with later := s.dbg.later ++ [i] } } else s.post i
  match bits v 0 3 with
  | 1 => s.commandFreeze
  | 2 =>
    -- a second RESUME does not put off the first
    if s.dbg.frozen && s.dbg.resumeAt.isNone then { s with dbg := { s.dbg with resumeAt := some (s.tick.toNat + 64) } } else s
  | 3 => s.post (.resumeGroup core slot)
  | 4 => later (.preempt c)
  | 5 => later (.resumeCtx c)
  | 6 =>
    -- DUMPED tells of the last DUMP commanded (R391)
    if s.dbg.frozen then (s.setReg frzStat (s.reg frzStat &&& ~~~fieldMask 36 1)).post .dump else s
  | _ => s

/-! ### Sordel ports (R425, R426) -/

def portAddr (p : Nat) : Nat := hubBase + 0x260000 + 0x40 * p

/-- Replaces a field of a port's register. -/
def State.setPortField (s : State) (p lo n x : Nat) : State :=
  s.setReg (portAddr p) ((s.reg (portAddr p) &&& ~~~fieldMask lo n) ||| BitVec.ofNat 64 (x % 2 ^ n * 2 ^ lo))

def State.portState (s : State) (p : Nat) : Nat := bits (s.reg (portAddr p)) 2 2
def State.portWidth (s : State) (p : Nat) : Nat := bits (s.reg (portAddr p)) 4 3

/-- The record of a port that runs below full width or rate, or goes down: code 0x54, the port and WIDTH. -/
def State.portRecord (s : State) (p : Nat) : State := s.postEvent 0x54 [(2, 1, p), (3, 1, s.portWidth p)]

/-- A port leaves the up state, for state `st`; state 1 is training, which begins now. -/
def State.portLeave (s : State) (p st : Nat) : State :=
  let s := (s.setPortField p 2 2 st).setPortField p 4 3 0
  { s with plat := { s.plat with trainAt := if st = 1 then Tab.put p s.tick.toNat s.plat.trainAt else Tab.del p s.plat.trainAt } }

/-- A write of a port's register: with EN clear the port is held down; when EN is set again it trains; RETRAIN trains it. -/
def State.portWrite (s : State) (p : Nat) (v : Word) : State :=
  let up := decide (s.portState p = 2)
  let s := s.maskedWrite (0x260000 + 0x40 * p) v
  if !v.getLsbD 0 then (if up then (s.portLeave p 3).portRecord p else s.portLeave p 3)
  else
    let s := if s.portState p = 3 then s.portLeave p 1 else s
    if v.getLsbD 1 then s.post (.portRetrain p) else s

/-! ### Reads -/

/-- A fault record's two words (R364). -/
def FaultKey.word0 (k : FaultKey) : Word :=
  BitVec.ofNat 64 (1 + k.acc * 2 + k.reason * 8 + k.level * 64 + k.vpage * 2 ^ 14)
def FaultKey.word1 (k : FaultKey) : Word :=
  BitVec.ofNat 64 (k.core + k.slot * 2 ^ 10 + k.path * 2 ^ 16 + k.count * 2 ^ 32)

/-- Whether a group has an access parked: in an operand log, its fetch, its wait, or a word that waits for a replay. -/
def Group.parks (x : Group) : Bool :=
  !x.mem.logs.isEmpty || x.sched.fetch.isSome || (match x.sched.susp with
    | .waitv _ _ _ _ _ _ (some _) => true
    | .mbar _ _ _ _ _ _ (some _) => true
    | .replay _ => true
    | _ => false)

/-- Whether accesses of a context issued on a die are parked (R364): operand logs, fetches, waits, engine, matrix and fabric
words, of what is saved too. -/
def State.parkedOn (s : State) (die ctx : Nat) : Bool :=
  s.groups.any (fun e => decide (e.2.ctx = ctx) && decide (s.issueDie e.2.core = die) && e.2.parks) ||
  s.sys.engs.any (fun c => !c.parked.isEmpty && decide (c.ctx = ctx) &&
    decide (s.issueDie c.core = die)) ||
  s.hub.launches.any (fun l => l.parked.isSome && decide (l.ctx = ctx) && decide (s.issueDie l.core = die)) ||
  s.sys.orphans.any (fun o => decide (o.ctx = ctx) && decide (s.issueDie o.core = die)) ||
  s.teams.any (fun e => decide (e.2.ctx = ctx) && decide (s.issueDie e.2.core = die) &&
    e.2.mx.any (fun m => m.parked.isSome)) ||
  s.fab.colls.any (fun c => c.parked.isSome && decide (c.ctx = ctx ∧ c.die = die)) ||
  s.fab.pubs.any (fun p => p.parked.isSome && decide (p.ctx = ctx) && decide (s.issueDie p.core = die)) ||
  (match Tab.find? ctx s.hub.saved with
   | some v =>
     v.groups.any (fun e => decide (s.issueDie e.2.core = die) && e.2.parks) ||
     v.engs.any (fun c => !c.parked.isEmpty && decide (s.issueDie c.core = die)) ||
     v.teams.any (fun e => decide (s.issueDie e.2.core = die) && e.2.mx.any (fun m => m.parked.isSome))
   | none => false)

/-- Reads the fault buffer registers (R364): the read of DROPCNT clears it. -/
def State.faultRead (s : State) (o : Nat) : Word × State :=
  let die := (o - 0x30000) / 0x4000
  let c := (o - 0x30000) % 0x4000 / 0x100
  let r := o % 0x100
  let b := s.faultBuf die c
  if r < 0x80 then
    (match b.records[r / 16]? with
     | some k => (if r % 16 = 0 then k.word0 else k.word1, s)
     | none => (0, s))
  else if r = 0x80 then
    (BitVec.ofNat 64 (b.records.length + (if b.dropped then 16 else 0) + (if s.parkedOn die c then 32 else 0) +
      (if b.busy then 64 else 0)), s)
  else if r = 0x90 then
    let now : BitVec 32 := (s.hw (hubBase + o)).setWidth 32
    ((b.dropCnt - now).setWidth 64, s.setFaultBuf die c { b with dropCnt := now })
  else (0, s)

def State.rep (s : State) (d : Nat) : RepDie := Tab.get RepDie.reset d s.repl.dies
def State.setRep (s : State) (d : Nat) (r : RepDie) : State :=
  { s with repl := { s.repl with dies := Tab.set RepDie.reset d r s.repl.dies } }

/-- Four applied counts from entry `k` on, as AV0 and AV1 and the vectors hold them (R291, R297). -/
def packAv (av : Tab Nat) (k : Nat) : Word :=
  BitVec.ofNat 64 ((List.range 4).foldl (fun a i => a + Tab.get 0 (k + i) av * 2 ^ (16 * i)) 0)

/-- Reads the replication registers (R291): the read of PEAK leaves the present count. -/
def State.repRead (s : State) (o : Nat) : Word × State :=
  let d := (o - 0x20000) / 0x1000
  let r := s.rep d
  match o % 0x1000 with
  | 0 => (BitVec.ofNat 64 (s.repl.live.toNat + s.repl.coll * 2 ^ 8 + (if s.repl.rebase then 2 ^ 11 else 0) +
      (if r.lagging then 2 ^ 12 else 0) + (if s.repl.join.isSome then 2 ^ 13 else 0) + s.repl.epoch.toNat * 2 ^ 16), s)
  | 8 => (s.reg (hubBase + o), s)
  | 0x10 => (packAv r.av 0, s)
  | 0x18 => (packAv r.av 4, s)
  | 0x20 => (BitVec.ofNat 64 (r.hold.length + r.peak * 2 ^ 16), s.setRep d { r with peak := r.hold.length })
  | _ => (0, s)

/-- Reads of the counted-drop registers: the value, which the read clears; what hardware adds in this tick is kept for the next
read (R4, R349, R388). -/
def State.readClear (s : State) (o : Nat) : Word × State :=
  let now := s.hw (hubBase + o)
  (BitVec.ofNat 64 (((s.reg (hubBase + o) - now).toNat) % 2 ^ 32), s.setReg (hubBase + o) now)

/-- Bytes of a mailbox window (R342), by offset in the management space: the attestation key's certificate lies at offset 0x4000 of
function 0's (R434; log entry 14). -/
def State.mailBytes (s : State) (o n : Nat) : List Byte :=
  (List.range n).map (fun k => if 0x404000 ≤ o + k ∧ o + k < 0x405000 then Config.certByte (o + k - 0x404000) else s.byte (hubBase + o + k))

/-- An 8-byte read of the management space at an offset (R353). A register that is not assigned reads zero. -/
def State.mgmtRead (s : State) (o : Nat) : Word × State :=
  if 0x400000 ≤ o ∧ o < 0x400000 + 17 * 0x100000 then (BitVec.ofNat 64 (numOfBytes (s.mailBytes o 8)), s)
  else if 0x10000 ≤ o ∧ o < 0x12000 ∧ o % 0x40 = 0x18 then
    let q := (o - 0x10000) / 0x40
    let k := Tab.get Queue.reset q s.hub.queues
    let run := s.hub.grids.any (fun g => decide (g.record.queue = q) && g.teams.any (fun t => !(s.team t).members.isEmpty))
    (s.reg (hubBase + o) ||| BitVec.ofNat 64 (k.waiting.length + (if run then 256 else 0) + k.done.toNat * 2 ^ 32), s)
  else if o = 0x14020 then s.readClear o
  else if 0x20000 ≤ o ∧ o < 0x28000 then s.repRead o
  else if 0x30000 ≤ o ∧ o < 0x50000 then s.faultRead o
  else if 0x52100 ≤ o ∧ o < 0x52300 ∧ o % 0x40 = 0x10 then
    let st := match Tab.find? ((o - 0x52100) / 0x40) s.sys.migs with
      | none => 0
      | some m => if m.aborted then 3 else if m.copied then 2 else 1
    (s.reg (hubBase + o) ||| BitVec.ofNat 64 st, s)
  else if (counterAt o).isSome then s.counterRead (hubBase + o)
  else if 0x242040 ≤ o ∧ o < 0x242280 ∧ o % 0x40 = 0x20 then s.readClear o
  else if o = 0x250010 then
    (s.reg frzStat ||| BitVec.ofNat 64
      ((if s.dbg.frozen then 1 else 0) + (if s.dbg.freeze.isSome && !s.dbg.frozen then 2 else 0)), s)
  else if o = 0x280000 then (s.reg (hubBase + o) ||| (if s.plat.capped then fieldMask 12 1 else 0), s)
  else (s.reg (hubBase + o), s)

/-! ### Writes -/

/-- An 8-byte write of the management space at an offset (R353), with what it starts. -/
def State.mgmtWrite (s : State) (o : Nat) (v : Word) : State :=
  if 0x400000 ≤ o ∧ o < 0x400000 + 17 * 0x100000 then s.store (hubBase + o) 8 v.toNat
  else if 0x10000 ≤ o ∧ o < 0x12000 then
    (match o % 0x40 with
     | 0 => s.qcfgWrite ((o - 0x10000) / 0x40) none v
     | 8 => s.qcfgWrite ((o - 0x10000) / 0x40) (some 0) v
     | 0x10 => s.qcfgWrite ((o - 0x10000) / 0x40) (some 1) v
     | _ => s.maskedWrite o v)
  else if o = 0x14000 then s.eventQueueWrite false v
  else if o = 0x14008 then s.eventQueueWrite true v
  else if o = 0x14018 then (s.maskedWrite o v).admitPosts
  else if 0x20000 ≤ o ∧ o < 0x28000 ∧ o % 0x1000 = 0x28 then (if v.getLsbD 3 then s.post (.joinGo (bits v 0 3)) else s)
  else if 0x30000 ≤ o ∧ o < 0x50000 then
    if o % 0x100 = 0x88 ∧ bits v 0 2 = 1 then
      let d := (o - 0x30000) / 0x4000
      let c := (o - 0x30000) % 0x4000 / 0x100
      (if (s.faultBuf d c).busy then s else s.replayBegin d c).post (.fbcmdReplayAll d c)
    else s
  else if 0x52100 ≤ o ∧ o < 0x52300 ∧ o % 0x40 = 0 then
    let s := s.maskedWrite o v
    -- the command takes MSRC and MDST as they stand at the write of GO
    let die := (o - 0x52100) / 0x40
    if v.getLsbD 2 then
      (s.setHub { s.hub with goes := Tab.put die (s.reg (hubBase + o), s.reg (hubBase + o + 8)) s.hub.goes }).post (.migrationGo die)
    else s
  else if 0x52100 ≤ o ∧ o < 0x52300 ∧ o % 0x40 = 0x18 then
    -- outside states 2 and 3 the write is ignored (R367)
    let ended := match Tab.find? ((o - 0x52100) / 0x40) s.sys.migs with
      | some m => m.copied || m.aborted
      | none => false
    if v.getLsbD 0 && ended then s.post (.migrationRetire ((o - 0x52100) / 0x40)) else s
  else if 0x80000 ≤ o ∧ o < 0x90000 then
    -- the slots withheld from the peers whose bytes are written come back (R301, R371)
    let n := (o - 0x80000) % 0x1000 / 8 * 8
    let s := s.maskedWrite o v
    { s with fab := { s.fab with withheld := s.fab.withheld.filter (fun e => decide (e.1 / 8 < n ∨ n + 8 ≤ e.1 / 8)) } }
  else if o = 0x15000 then
    -- a servo that is switched off has its first lock still before it (R379)
    let s := s.maskedWrite o v
    if v.getLsbD 0 then s else { s with plat := { s.plat with ptpAt := none } }
  else if o = 0x242000 then s.actkWrite v
  else if 0x242040 ≤ o ∧ o < 0x242280 then s.ringWrite ((o - 0x242040) / 0x40) (o % 0x40 / 8) v
  else if o = 0x250008 then s.debugCommand v
  else if 0x251000 ≤ o ∧ o < 0x252000 ∧ o % 0x40 = 0 then s.rrcfgWrite ((o - 0x251000) / 0x40) v
  else if 0x260000 ≤ o ∧ o < 0x260400 ∧ o % 0x40 = 0 then s.portWrite ((o - 0x260000) / 0x40) v
  else match counterAt o with
    | some (u, e) => s.counterWrite u e v
    | none => s.maskedWrite o v

/-! ### The register events of the opcode table -/

def execQcfgWrite (queue : Nat) (fab : Option Nat) (val : Word) (s : State) : Host.Outcome State Fault Refusal :=
  .next (s.qcfgWrite queue fab val)

def execEventQueueConfigWrite (size : Bool) (val : Word) (s : State) : Host.Outcome State Fault Refusal :=
  .next (s.eventQueueWrite size val)

def execEventQueueDropRead (s : State) : Host.Outcome State Fault Refusal := .next (s.mgmtRead 0x14020).2

def execCounterWrite (unit ctr : Nat) (val : Word) (s : State) : Host.Outcome State Fault Refusal :=
  match counterAt (counterAddr unit ctr - hubBase) with
  | some (u, e) => if u = unit ∧ e = ctr then .next (s.counterWrite u e val) else .next s
  | none => .next s

def execActkWrite (val : Word) (s : State) : Host.Outcome State Fault Refusal := .next (s.actkWrite val)

def execActivityRingConfigWrite (ring reg : Nat) (val : Word) (s : State) : Host.Outcome State Fault Refusal :=
  .next (s.ringWrite ring reg val)

def execActivityDropRead (ring : Nat) (s : State) : Host.Outcome State Fault Refusal :=
  .next (s.mgmtRead (0x242040 + 0x40 * (ring % 9) + 0x20)).2

def execRrcfgWrite (ctx : Nat) (val : Word) (s : State) : Host.Outcome State Fault Refusal := .next (s.rrcfgWrite ctx val)

def execFbdropRead (die ctx : Nat) (s : State) : Host.Outcome State Fault Refusal :=
  .next (s.mgmtRead (0x30000 + 0x4000 * (die % 8) + 0x100 * (ctx % 64) + 0x90)).2

def execHoldPeakRead (die : Nat) (s : State) : Host.Outcome State Fault Refusal :=
  .next (s.mgmtRead (0x20000 + 0x1000 * (die % 8) + 0x20)).2

/-- A write to a management register by its offset; one that is not aligned to 8 has no effect (R353). -/
def execRegisterWrite (addr : Nat) (val : Word) (s : State) : Host.Outcome State Fault Refusal :=
  .next (if addr % 8 = 0 ∧ addr < 0x100000000 then s.mgmtWrite addr val else s)

/-- The events that the model counts itself. -/
def ownCounters : List Nat :=
  [0x01, 0x05, 0x0B, 0x0D, 0x0E, 0x0F, 0x10, 0x13, 0x14, 0x15, 0x16, 0x17, 0x40, 0x42, 0x4A, 0x4B, 0x4C, 0x4D, 0x4F, 0x51, 0x52, 0x53,
   0x54, 0x55, 0x56, 0xC0, 0xC1, 0xC5]

/-- Events of a unit in this tick that the model itself does not observe (R382): pipes, ports, stalls and traffic. Log entry 109. -/
def execCounterTick (unit ctr n : Nat) (s : State) : Host.Outcome State Fault Refusal :=
  match counterAt (counterAddr unit ctr - hubBase) with
  | some (u, e) =>
    if u = unit ∧ e = ctr ∧ ¬ ownCounters.contains ctr then .next (s.count u e n)
    else .next s
  | none => .next s

end Sys2Proof.Machine
end

