-- ==== Sys2Proof/Machine/Order.lean ====
section
/-!
DEFINITION. Machine/Order.lean: record and replay of the order of contended operations, store CRCs and checkpoints
(R396 to R400), and watchpoints (R390).
-/
namespace Sys2Proof.Machine

/-! ### The order log (R396, R397) -/

def rrAddr (c : Nat) : Nat := hubBase + 0x251000 + 0x40 * c
def State.rrHead (s : State) (c : Nat) : Nat := (s.reg (rrAddr c + 0x18)).toNat
def State.rrTail (s : State) (c : Nat) : Nat := bits (s.reg (rrAddr c + 0x20)) 0 28
def State.rrSize (s : State) (c : Nat) : Nat := 2 ^ bits (s.reg (rrAddr c + 0x10)) 0 5
def State.rrPa (s : State) (c i : Nat) : Nat := (s.reg (rrAddr c + 8)).toNat + 8 * i

def State.replayOf (s : State) (c : Nat) : Replay := Tab.get Replay.reset c s.dbg.replay
def State.setReplay (s : State) (c : Nat) (r : Replay) : State :=
  { s with dbg := { s.dbg with replay := Tab.set Replay.reset c r s.dbg.replay } }

/-- Room in the ring for `n` entries. -/
def State.rrRoom (s : State) (c n : Nat) : Bool :=
  decide ((s.rrTail c + s.rrSize c - 1 - s.rrHead c % s.rrSize c) % s.rrSize c ≥ n)

/-- Writes an entry at HEAD. -/
def State.rrPut (s : State) (c : Nat) (v : Nat) : State :=
  let h := s.rrHead c % s.rrSize c
  (s.store (s.forwardPa (s.rrPa c h)) 8 v).setReg (rrAddr c + 0x18) (BitVec.ofNat 64 ((h + 1) % s.rrSize c))

/-- A chunk as a word: TYPE 0, COUNT, UNIT, IDENT. -/
def Chunk.word (k : Chunk) : Nat := k.count * 2 ^ 49 + k.unit * 2 ^ 39 + k.ident

/-- Closes an open chunk: it is written to the ring. -/
def State.closeChunk (s : State) (k : Chunk) : State :=
  let s := { s with dbg := { s.dbg with open_ := s.dbg.open_.filter (fun x => decide (x ≠ k)) } }
  s.rrPut k.ctx k.word

/-- Records an operation at a unit: none while the ring is full, which holds every logged operation of the context. -/
def State.recordOp (s : State) (c unit ident : Nat) : Option State :=
  let fresh : Chunk := { unit := unit, ctx := c, ident := ident, count := 1, touched := s.tick.toNat }
  let add (s : State) (k : Chunk) : State := { s with dbg := { s.dbg with open_ := s.dbg.open_ ++ [k] } }
  if !s.rrRoom c 1 then none
  else match s.dbg.open_.find? (fun k => decide (k.unit = unit ∧ k.ctx = c)) with
    | none => some (add s fresh)
    | some k =>
      if k.ident = ident ∧ k.count < 8191 then
        let s := { s with dbg := { s.dbg with open_ := s.dbg.open_.filter (fun x => decide (x ≠ k)) } }
        some (add s { k with count := k.count + 1, touched := s.tick.toNat })
      else some (add (s.closeChunk k) fresh)

/-- Takes the entries that software has made ready out of the ring (R398). -/
def pullGo (s : State) (c : Nat) : Nat → Nat → Replay → Replay × Nat
  | 0, h, r => (r, h)
  | n + 1, h, r =>
    if h = s.rrTail c % s.rrSize c then (r, h)
    else
      let v := s.load (s.forwardPa (s.rrPa c h)) 8
      let h' := (h + 1) % s.rrSize c
      if v / 2 ^ 62 = 0 then
        pullGo s c n h' { r with chunks := r.chunks ++ [(v / 2 ^ 39 % 1024, v % 2 ^ 39, v / 2 ^ 49 % 8192)] }
      else if h' = s.rrTail c % s.rrSize c then (r, h)
      else
        pullGo s c n ((h' + 1) % s.rrSize c)
          { r with checks := r.checks ++ [(v / 2 ^ 62, v % 2 ^ 39, BitVec.ofNat 64 (s.load (s.forwardPa (s.rrPa c h')) 8))] }

def State.rrPull (s : State) (c : Nat) : State :=
  let n := (s.rrTail c + s.rrSize c - s.rrHead c % s.rrSize c) % s.rrSize c
  let q := pullGo s c n (s.rrHead c % s.rrSize c) (s.replayOf c)
  (s.setReplay c q.1).setReg (rrAddr c + 0x18) (BitVec.ofNat 64 q.2)

/-- DIVERGED (R396). -/
def State.setDiverged (s : State) (c : Nat) : State := s.hwSet (rrAddr c) 4

/-- REPLAY_DIVERGE of a group, for its next boundary (R400): of a held operation it names the word (R437), of a checkpoint the word at
the boundary (R417; log entry 67). -/
def State.diverge (s : State) (grp : Nat) (pc : PC) (reason : Nat) (addr : Word) (check : Bool) : State :=
  s.trapLater grp { cause := 0x3A, pc := pc, addr := addr, info := BitVec.ofNat 64 reason, lanes := allLanes, next := check }

/-- What the order gate says of a logged operation (R397, R398). -/
inductive Gate where
  | go (s : State)
  | hold (s : State)

/-- Whether a word's group is still there. -/
def State.owns (s : State) (i : WordInfo) : Bool := s.hasGrp i.grp && decide ((s.grp i.grp).team = i.team)

/-- A logged operation at a unit (R397): what its word tells, its context, its number there and its address. -/
structure LogOp where
  info : WordInfo
  ctx : Nat
  unit : Nat
  id : Nat
  addr : Word

/-- Whether a held operation is this one. -/
def LogOp.is (o : LogOp) (h : HeldOp) : Bool := decide (h.grp = o.info.grp ∧ h.unit = o.unit ∧ h.id = o.id)

/-- Notes an operation that the gate holds, with the tick in which it came. -/
def State.noteHeld (s : State) (o : LogOp) : State :=
  let r := s.replayOf o.ctx
  if r.held.any o.is then s
  else s.setReplay o.ctx { r with held := r.held ++
    [{ mode := o.info.rr.1, grp := o.info.grp, unit := o.unit, id := o.id, tick := s.tick.toNat, addr := o.addr, late := false }] }

/-- An operation passes the gate: it is held no more, and one that was held too long, or came after its unit's chunks were used up,
diverges its group (R398). -/
def State.passGate (s : State) (o : LogOp) : State :=
  let r := s.replayOf o.ctx
  let s := s.setReplay o.ctx { r with held := r.held.filter (fun h => !o.is h) }
  match r.held.find? o.is with
  | some h =>
    if !s.owns o.info then s
    else if h.late then s.diverge o.info.grp o.info.pc 2 h.addr false
    else if h.used then s.diverge o.info.grp o.info.pc 3 0 false
    else s
  | none => s

/-- Whether no operation that came to its unit earlier is still held there. -/
def State.firstHeld (s : State) (o : LogOp) : Bool :=
  match (s.replayOf o.ctx).held.find? (fun h => decide (h.mode = 2 ∧ h.unit = o.unit)) with
  | some h => o.is h
  | none => true

/-- The gate at a unit (R398): off for the operations of grids that neither record nor replay. An operation that was held already as
its unit's chunks ran out stays held; one that comes after it frees the unit, which then admits in order of arrival. -/
def State.gate (s : State) (o : LogOp) : Gate :=
  let wait : Gate := .hold (s.noteHeld o)
  if o.info.rr.1 = 1 then
    match s.recordOp o.ctx o.unit o.info.rr.2 with
    | some s => .go (s.passGate o)
    | none => wait
  else if o.info.rr.1 = 2 then
    let s := s.rrPull o.ctx
    let r := s.replayOf o.ctx
    if r.freeUnits.contains o.unit then (if s.firstHeld o then .go (s.passGate o) else wait)
    else
      match r.chunks.findIdx? (fun k => decide (k.1 = o.unit)) with
      | none =>
        if r.held.any o.is then wait
        else
          let s := ((s.setReplay o.ctx { r with freeUnits := o.unit :: r.freeUnits }).setDiverged o.ctx).noteHeld o
          let r := s.replayOf o.ctx
          let s := s.setReplay o.ctx { r with held := r.held.map (fun h => if o.is h then { h with used := true } else h) }
          if s.firstHeld o then .go (s.passGate o) else .hold s
      | some i =>
        match r.chunks[i]? with
        | some k =>
          if k.2.1 = o.info.rr.2 then
            let cs := if k.2.2 ≤ 1 then r.chunks.eraseIdx i else r.chunks.modify i (fun k => (k.1, k.2.1, k.2.2 - 1))
            .go ((s.setReplay o.ctx { r with chunks := cs }).passGate o)
          else wait
        | none => wait
  else .go s

/-- An open chunk without an operation for 4,096 ticks is closed (R397); `grp` is the unit's number. -/
def execOrderChunkTimeout (ctx grp : Nat) (s : State) : Host.Outcome State Fault Refusal :=
  match s.dbg.open_.find? (fun k => decide (k.ctx = ctx ∧ k.unit = grp)) with
  | none => .next s
  | some k => if k.touched + 4096 ≤ s.tick.toNat ∧ s.rrRoom ctx 1 then .next (s.closeChunk k) else .next s

/-- Operations of a replaying group that were held 1,000,000 ticks are to be admitted, and their units then admit in order of
arrival; the group takes REPLAY_DIVERGE once such an operation is performed (R398). Frozen ticks do not count (R393). -/
def execOrderGateTimeout (ctx grp : Nat) (s : State) : Host.Outcome State Fault Refusal :=
  let r := s.replayOf ctx
  let due (h : HeldOp) : Bool := decide (h.mode = 2 ∧ h.grp = grp ∧ h.tick + 1000000 ≤ s.tick.toNat) && !h.late
  let l := r.held.filter due
  if l.isEmpty then .next s
  else .next ((s.setReplay ctx { r with
    freeUnits := l.map (fun h => h.unit) ++ r.freeUnits,
    held := r.held.map (fun h => if due h then { h with late := true } else h) }).setDiverged ctx)

/-! ### Store CRC and checkpoints (R399, R400) -/

/-- One byte into a CRC-64 of ECMA-182. -/
def crcByte (c : Word) (b : Byte) : Word :=
  (List.range 8).foldl (fun c _ => if c.getLsbD 63 then (c <<< 1) ^^^ 0x42F0E1EBA9EA3693#64 else c <<< 1)
    (c ^^^ (b.setWidth 64 <<< 56))

/-- A message of an address and 8 bytes of data. -/
def crcStore (c addr data : Word) : Word :=
  (bytesOfNum 8 addr.toNat ++ bytesOfNum 8 data.toNat).foldl crcByte c

/-- Feeds stores of a group in lane order: address, size and data of each (R399). -/
def State.feedCrc (s : State) (g : Nat) (l : List (Word × Nat × BitVec 128)) : State :=
  if (s.team (s.grp g).team).rrMode = 0 then s
  else s.updGrp g (fun x => { x with mem := { x.mem with crc := l.foldl (fun (c : Word) (m : Word × Nat × BitVec 128) =>
    let lo := (m.2.2.setWidth 64)
    let c := crcStore c m.1 (if m.2.1 < 8 then BitVec.ofNat 64 (lo.toNat % 2 ^ (8 * m.2.1)) else lo)
    if m.2.1 = 16 then crcStore c (m.1 + 8) ((m.2.2 >>> 64).setWidth 64) else c) x.mem.crc } })

/-- The group checkpoint of an IDENT and a CRC (R400): recorded, or compared; the reason of a divergence. -/
def State.checkGroup (s : State) (c mode ident : Nat) (crc : Word) : Option Nat × State :=
  if mode = 1 then (none, (s.rrPut c (2 ^ 62 + ident)).rrPut c crc.toNat)
  else if mode = 2 then
    let s := s.rrPull c
    let r := s.replayOf c
    match r.checks.findIdx? (fun k => decide (k.1 = 1 ∧ k.2.1 = ident)) with
    | none => (some 3, s.setDiverged c)
    | some i =>
      let ok := match r.checks[i]? with | some k => decide (k.2.2 = crc) | none => false
      let s := s.setReplay c { r with checks := r.checks.eraseIdx i }
      if ok then (none, s) else (some 1, s.setDiverged c)
  else (none, s)

/-- A group checkpoint at a completed `fence.sys` (R400). -/
def State.groupCheckpoint (s : State) (g : Nat) (pc : PC) : State :=
  let x := s.grp g
  let tm := s.team x.team
  match s.checkGroup x.ctx tm.rrMode (identOf tm.rrGrid tm.linear x.idx) x.mem.crc with
  | (none, s) => s
  | (some r, s) => s.diverge g pc r 0 true

/-- The CRC of a context: of its groups that have ended and of those that have not, resident or saved (R399). -/
def State.contextCrc (s : State) (c : Nat) : Word :=
  let saved : Tab Group := match Tab.find? c s.hub.saved with | some v => v.groups | none => []
  (s.groups ++ saved).foldl (fun a (e : Nat × Group) => if e.2.ctx = c then a ^^^ e.2.mem.crc else a) (s.replayOf c).crc

/-- A grid checkpoint at grid completion, where open chunks of the context close too (R397, R400). -/
def State.gridCheckpoint (s : State) (c mode grid : Nat) : State :=
  if mode = 1 then
    let s := (s.dbg.open_.filter (fun k => decide (k.ctx = c))).foldl State.closeChunk s
    (s.rrPut c (2 ^ 63 + identOf grid 0 0)).rrPut c (s.contextCrc c).toNat
  else if mode = 2 then
    let s := s.rrPull c
    let r := s.replayOf c
    match r.checks.findIdx? (fun k => decide (k.1 = 2)) with
    | none => s.setReplay c { r with freeUnits := [] }
    | some i =>
      let ok := match r.checks[i]? with | some k => decide (k.2.2 = s.contextCrc c) | none => false
      let s := s.setReplay c { r with checks := r.checks.eraseIdx i, freeUnits := [] }
      if ok then s else (s.setDiverged c).postEvent 0x53 [(1, 1, c), (4, 1, grid % 256)]
  else s

/-! ### Watchpoints (R390) -/

/-- What an access is to a watchpoint. -/
inductive WatchKind where
  | read | write | atomic
  deriving DecidableEq, Repr

/-- The lowest watchpoint that `n` bytes at `va` match. -/
def State.watchMatch (s : State) (ctx : Nat) (k : WatchKind) (va n : Nat) : Option Nat :=
  (List.range 8).find? (fun w =>
    let r := s.reg (hubBase + 0x250100 + 0x20 * w)
    let m := 2 ^ bits r 12 5
    let base := bits (s.reg (hubBase + 0x250108 + 0x20 * w)) 0 57 / m * m
    r.getLsbD 0 && r.getLsbD (match k with | .read => 1 | .write => 2 | .atomic => 3) &&
      (r.getLsbD 5 || decide (bits r 6 6 = ctx)) && decide (va < base + m ∧ base < va + n))

/-- An access that is performed meets the watchpoints: the package freezes, or the group takes WATCH at its next boundary, one
trap for the lanes of a word, or for all of them where it executes once. -/
def State.watched (s : State) (i : WordInfo) (ctx : Nat) (lanes : Mask) (k : WatchKind) (va : Word) (n : Nat) : State :=
  match s.watchMatch ctx k (bits va 0 57) n with
  | none => s
  | some w =>
    if (s.reg (hubBase + 0x250100 + 0x20 * w)).getLsbD 4 then
      s.requestFreeze { tick := s.tick.toNat, cause := 3, core := i.grp / 64, slot := i.grp % 64, widx := w, bkn := 0,
                        pc := (i.pc.setWidth 64) <<< 3 }
    else if !s.owns i then s
    else
      let info := BitVec.ofNat 64 (w + (match k with | .read => 0 | .write => 8 | .atomic => 16))
      let lanes := if i.once then allLanes else lanes
      s.updGrp i.grp (fun x =>
        match x.pending.findIdx? (fun t => decide (t.cause = 0x39 ∧ t.pc = i.pc ∧ t.info = info)) with
        | some n => { x with pending := x.pending.modify n (fun t =>
            { t with lanes := t.lanes ||| lanes, addr := if va < t.addr then va else t.addr }) }
        | none =>
          { x with pending := x.pending ++ [{ cause := 0x39, pc := i.pc, addr := va, info := info, lanes := lanes }] })

end Sys2Proof.Machine
end

