-- ==== Sys2Proof/Machine/Replicate.lean ====
section
/-!
DEFINITION. Machine/Replicate.lean: the operations of the replicated segment that stores use: counts and vectors, the settled
vector, last writers, applying and emitting an update (R283 to R287, R292).
-/
namespace Sys2Proof.Machine

/-- The ranks that are live; a die that containment is taking out no longer counts (R249, R294). -/
def State.liveDies (s : State) : List Nat :=
  (List.range 8).filter (fun d => s.repl.live.getLsbD d && !s.repl.removing.contains d)

/-- Byte 0 of the replicated region in a die's HBM (R356). -/
def State.repBase (s : State) (d : Nat) : Nat := dieBase d + bits (s.reg (hubBase + 0x52040)) 30 7 * 2 ^ 30

/-- The size of the region in bytes. -/
def State.repSize (s : State) : Nat := bits (s.reg (hubBase + 0x52040)) 40 7 * 2 ^ 30

def vecGet (v : Tab Nat) (k : Nat) : Nat := Tab.get 0 k v

/-- The smaller of two bounds, where the first may be absent. -/
def minOpt (a : Option Nat) (b : Nat) : Option Nat :=
  match a with
  | some a => some (min a b)
  | none => some b

/-- The minima that a die reports for rank `i` (R287): its applied count, and VEC[i] of the packets it holds and of those it has
emitted and not seen acknowledged. -/
def RepDie.minimum (r : RepDie) (i : Nat) : Nat :=
  ((r.hold.map (fun p => vecGet p.vec i)) ++ (r.unacked.map (fun p => vecGet p.1.vec i))).foldl min (vecGet r.av i)

/-- The settled vector (R287), from the latest reports. -/
def State.settled (s : State) (i : Nat) : Nat :=
  ((s.liveDies).foldl (fun a x => minOpt a (vecGet (Tab.get [] x s.repl.reports) i)) none).getD 0

/-- The last writer of a word by its offset div 4, where the word is unsettled (R287). -/
def State.lastWriter (s : State) (d w : Nat) : Option (Nat × Nat) :=
  match Tab.find? w (s.rep d).lastW with
  | some (i, c) => if c ≤ s.settled i then none else some (i, c)
  | none => none

/-- The words a mask marks, in ascending order. -/
def markedWords (m : BitVec 32) : List Nat := (List.range 32).filter (fun i => m.getLsbD i)

/-- Writes a packet's payload on a die under the rule of last writers (R285). -/
def State.applyWords (s : State) (d : Nat) (p : Packet) : State :=
  let j := p.src
  let c := vecGet p.vec j
  ((markedWords p.wmask).zip p.words).foldl (fun s wv =>
    let w := p.line / 4 + wv.1
    let wins := match s.lastWriter d w with
      | none => true
      | some (rank, ctr) => decide (rank = j ∨ ctr ≤ vecGet p.vec rank ∨ rank < j)
    if wins then
      let s := s.store (s.repBase d + 4 * w) 4 wv.2.toNat
      let r := s.rep d
      s.setRep d { r with lastW := Tab.put w (j, c) r.lastW }
    else s) s

/-- Apply (R285): the payload, and the applied count of the sender. -/
def State.applyPacket (s : State) (d : Nat) (p : Packet) : State :=
  let s := s.applyWords d p
  let r := s.rep d
  s.setRep d { r with av := Tab.set 0 p.src (vecGet p.vec p.src) r.av, replay := r.replay ++ [p] }

/-- Applicable (R285): the next update of its sender, and every update it had applied has been applied here. -/
def RepDie.applicable (r : RepDie) (p : Packet) : Bool :=
  decide (vecGet p.vec p.src = vecGet r.av p.src + 1) &&
    (List.range 8).all (fun k => decide (k = p.src) || decide (vecGet p.vec k ≤ vecGet r.av k))

/-- Sends a packet to every other live die; links deliver in order (R284). -/
def State.sendPacket (s : State) (d : Nat) (p : Packet) : State :=
  let others := (s.liveDies).filter (fun x => decide (x ≠ d))
  let ev (x : Nat) : Instr := match p.kind with
    | .update => .updatePacketArrival x p.id
    | .lock => .strongLock x p.id
    | .commit => .strongCommit x p.id
    | .abort => .strongAbort x p.id
  let s := { s with repl := { s.repl with links := s.repl.links ++ others.map (fun x => (d, x, p)) } }
  let r := s.rep d
  let s := if others.isEmpty then s else s.setRep d { r with unacked := r.unacked ++ [(p, others)] }
  others.foldl (fun s x => s.post (ev x)) s

/-- The words of a line that byte range `[lo, hi)` of the region touches. -/
def touchedWords (line lo hi : Nat) : BitVec 32 :=
  (List.range 32).foldl (fun m i => if lo < line + 4 * i + 4 ∧ line + 4 * i < hi then m ||| (1#32 <<< i) else m) 0

/-- Emits the update of a line after it was written on die `d` (R283, R284): the marked words as they stand there. -/
def State.emit (s : State) (d : Nat) (info : WordInfo) (ctx : Nat) (va : Word) (line : Nat) (wmask : BitVec 32) : State :=
  let r := s.rep d
  let e := r.e + 1
  let av := Tab.set 0 d e r.av
  let (id, s) := s.fresh
  let p : Packet :=
    { id := id, kind := .update, grp := info.grp, team := info.team, seq := info.seq, path := info.path, ctx := ctx,
      va := va, tick := info.tick, src := d, atom := false, slot := 0,
      line := line, vec := av, wmask := wmask, epoch := s.repl.epoch,
      words := (markedWords wmask).map (fun i => BitVec.ofNat 32 (s.load (s.repBase d + line + 4 * i) 4)) }
  let lastW := (markedWords wmask).foldl (fun t i => Tab.put (line / 4 + i) (d, e) t) r.lastW
  let s := s.setRep d { r with e := e, av := av, lastW := lastW }
  let s := (s.sendPacket d p).count (0x340 + d) 0x4A 1
  if e = 0xFFF0 then s.post .wrap else s

/-- Whether a strong operation waits out the hold of a line on a die (R213, R289). -/
def State.lockDue (s : State) (d line : Nat) : Bool :=
  (match (s.rep d).accept with | some p => decide (p.line = line) | none => false) ||
    s.repl.strongs.any (fun o => decide (o.die = d ∧ o.line = line ∧ o.slot = some (s.rep d).expect) && o.pkt.isNone)

/-- A strong operation or a lock on a line of a die's replica. -/
def State.lineLocked (s : State) (d line : Nat) : Bool := (s.rep d).locks.any (fun p => decide (p.line = line))

/-- Whether the next slot's lock of a line is there to be taken on a die: accepted or acceptable, its hold over; of the die's own
operation, while emission goes on. -/
def State.lockReady (s : State) (d line : Nat) : Bool :=
  let r := s.rep d
  let due (p : Packet) : Bool := decide (p.kind = .lock ∧ p.line = line ∧ p.slot = r.expect) && r.applicable p
  let heads := (List.range 8).filterMap (fun k => s.repl.links.find? (fun l => decide (l.1 = k ∧ l.2.1 = d)))
  decide (s.lexp (s.repBase d + line) d ≤ s.tick.toNat) &&
    (r.accept.toList.any (fun p => decide (p.line = line)) || r.hold.any due || heads.any (fun l => due l.2.2) ||
      (s.repl.strongs.any (fun o => decide (o.die = d ∧ o.line = line ∧ o.slot = some r.expect) && o.pkt.isNone) &&
        !s.repl.rebase && s.repl.removing.isEmpty && !(s.liveDies).any (fun d => decide (0xFFF0 ≤ (s.rep d).e))))

/-- Whether a load of a line stalls on a die (R290): the line is locked, or its lock is taken in this tick, which goes first
(R309). -/
def State.lineStalls (s : State) (d line : Nat) : Bool := s.lineLocked d line || s.lockReady d line

/-- Some count has reached the value at which its die stops emitting (R293). -/
def State.countsFull (s : State) : Bool := (s.liveDies).any (fun d => decide (0xFFF0 ≤ (s.rep d).e))

/-- Whether a join has stopped emission (R295). -/
def State.joinStops (s : State) : Bool := match s.repl.join with | some j => j.copied | none => false

/-- Whether the package's replicated stores stand still: a rebase is due or under way, a die is being removed, a join drains
(R292 to R295). -/
def State.repHalted (s : State) : Bool := s.repl.rebase || s.countsFull || !s.repl.removing.isEmpty || s.joinStops

/-- Whether die `d` would pass the lag limit with `n` updates more than those under way (R292). -/
def State.lagLimitBy (s : State) (d n : Nat) : Bool :=
  let waiting := (s.sys.reqs.filter (fun q => decide (pteKind q.leaf = 3) && decide (s.issueDie q.core = d) &&
    q.accs.any (fun a => decide (a.acc.op = .store)))).length + (s.repl.strongs.filter (fun o => decide (o.die = d) && o.pkt.isNone)).length
  decide (2048 + s.settled d < (s.rep d).e + waiting + n)

def State.lagLimit (s : State) (d : Nat) : Bool := s.lagLimitBy d 1

/-- Whether one more update would take die `d` past the lag limit now (R292), its strong operations with a slot counted: what a
replay re-drives has asked nobody at issue. -/
def State.lagFull (s : State) (d : Nat) : Bool :=
  let due := (s.repl.strongs.filter (fun o => decide (o.die = d) && o.slot.isSome && o.pkt.isNone)).length
  decide (2048 + s.settled d < (s.rep d).e + due + 1)

/-! ### Event records (R291) -/

def repReg (d : Nat) : Nat := hubBase + 0x20000 + 0x1000 * d + 8

/-- Posts a record of event `k` (0 LAG, 1 WRAP, 2 MEMBERSHIP) where it is enabled, and sets its P bit. -/
def State.repEvent (s : State) (k die who : Nat) (ended : Bool) (v10 v18 : Nat) : State :=
  let r := s.reg (repReg die)
  if !r.getLsbD (8 + k) then s
  else (s.hwSet (repReg die) (BitVec.ofNat 64 (2 ^ k))).postEvent (0x40 + k)
    [(1, 1, die), (2, 1, who), (3, 1, if ended then 1 else 0), (0x10, 8, v10), (0x18, 8, v18)]

/-- The rank whose report fixes an entry of the settled vector: the lowest of them. -/
def State.lagHolder (s : State) (j : Nat) : Nat :=
  ((s.liveDies).find? (fun x => decide (vecGet (Tab.get [] x s.repl.reports) j = s.settled j))).getD j

/-- The record of a lag (R291). -/
def State.lagEvent (s : State) (j : Nat) (ended : Bool) : State :=
  s.repEvent 0 j j ended (s.rep j).e (s.lagHolder j + s.settled j * 2 ^ 16)

/-- A lag begins at a word of `n` updates, for which it lasts. -/
def State.beginLag (s : State) (d n : Nat) : State :=
  (s.setRep d { s.rep d with lagging := true, need := n }).lagEvent d false

/-- Whether die `d` has something that it could apply now (R292): an applicable packet in its hold queue, or a link that a full queue
holds back. -/
def State.couldApply (s : State) (d : Nat) : Bool :=
  let r := s.rep d
  r.hold.any r.applicable || (decide (4096 ≤ r.hold.length) && s.repl.links.any (fun l => decide (l.2.1 = d)))

/-- Notes since when the applied vectors stand while something could be applied. -/
def State.watchStuck (s : State) : State :=
  (s.liveDies).foldl (fun s d =>
    let r := s.rep d
    let k : Option (Nat × Tab Nat) := if !s.couldApply d then none
      else match r.stuck with
        | some (t, v) => if v = r.av then some (t, v) else some (s.tick.toNat, r.av)
        | none => some (s.tick.toNat, r.av)
    if k = r.stuck then s else s.setRep d { r with stuck := k }) s

/-- The dies that containment takes out for standing a million ticks (R292). -/
def State.stuckDies (s : State) : List Nat :=
  (s.liveDies).filter (fun d => match (s.rep d).stuck with | some (t, _) => decide (t + 1000000 ≤ s.tick.toNat) | none => false)

/-- Whether a replicated store of die `d` waits (R292). -/
def State.repStalled (s : State) (d : Nat) : Bool := s.repHalted || (s.rep d).lagging || s.lagLimit d

end Sys2Proof.Machine
end

