-- ==== Sys2Proof/Machine/Access.lean ====
section
/-!
DEFINITION. Machine/Access.lean: memory accesses between a word and its serving slice: results and failures of lanes, the L1
and its leases, what is performed at a slice, and what of a group's accesses has been performed (R188, R192, R207 to R220,
R232 to R234, R251 to R255, R264, R274).
-/
namespace Sys2Proof.Machine

/-! ### Lanes that fail (R188) -/

/-- Puts lanes into the deferred set with one record each. Their bits leave the mask and every entry of the stack; a path left
with no lane goes (a failure that is found after the word issued, log entry 30). -/
def Group.deferLanes (x : Group) (lanes : Mask) (cause detail : Nat) (addr : Word) (pc : PC) : Group :=
  let new := lanes &&& ~~~(x.flow.deferred ||| x.flow.exited)
  let recs := (lanesOf new).map (fun l => (⟨l, cause, detail, addr, pc, false⟩ : DefRec))
  let f := x.flow.exitLanes new
  { x with defs := x.defs ++ recs, flow := { f with exited := x.flow.exited, deferred := x.flow.deferred ||| new } }

def State.deferLanes (s : State) (i : WordInfo) (lanes : Mask) (cause detail : Nat) (addr : Word) : State :=
  if s.owns i then s.updGrp i.grp (fun x => x.deferLanes lanes cause detail addr i.pc) else s

/-- The place of a cause in the deferred class's list (R186, R188). -/
def causeRank (c : Nat) : Nat := ([0x15, 0x07, 0x11, 0x12, 0x13, 0x14, 0x16, 0x10].findIdx? (fun k => decide (k = c))).getD 8

/-- Of the failures of one lane, the one that is recorded: the first in the order of the class's list (R188). -/
def firstCause (l : List (Nat × Nat × Word)) : Option (Nat × Nat × Word) :=
  l.foldl (fun b e => match b with
    | some c => if causeRank e.1 < causeRank c.1 then some e else b
    | none => some e) none

/-- The lanes of a word for which lane `l` of an access stands: all of its executing lanes, where it executes once (R252). -/
def WordInfo.lanesFor (i : WordInfo) (l : Nat) : Mask := if i.once then i.lanes else 1#96 <<< l

/-! ### Results of a word (R251, R261, R264) -/

/-- A loaded value extended to 64 bits. -/
def extendLoad (sz : Nat) (signed : Bool) (v : BitVec 128) : Word :=
  let n := v.toNat % 2 ^ (8 * min sz 8)
  if signed && decide (sz < 8) && decide (2 ^ (8 * sz - 1) ≤ n) then BitVec.ofNat 64 (n + 2 ^ 64 - 2 ^ (8 * sz))
  else BitVec.ofNat 64 n

/-- The registers of a destination (R251). -/
def WordInfo.dstRegs (i : WordInfo) : List Nat :=
  match i.dst with
  | .v n => (List.range ((i.sz + 3) / 4)).map (fun k => n.val + k)
  | .s n => (List.range ((i.sz + 7) / 8)).map (fun k => 128 + n.val + k)
  | _ => []

/-- The values a word writes, by register, lane and value: every lane of `lanes` for a vector, the highest for a scalar. -/
def WordInfo.dstVals (i : WordInfo) (lanes : List Nat) (f : Nat → BitVec 128) : List (Nat × Nat × Word) :=
  match i.dst, lanes.getLast? with
  | .v n, some _ =>
    lanes.flatMap (fun l =>
      if i.sz ≤ 4 then [(n.val, l, extendLoad i.sz i.signed (f l))]
      else (List.range (i.sz / 4)).map (fun k => (n.val + k, l, ((f l >>> (32 * k)).setWidth 32).setWidth 64)))
  | .s n, some top =>
    if i.sz ≤ 8 then [(128 + n.val, 0, extendLoad i.sz i.signed (f top))]
    else [(128 + n.val, 0, (f top).setWidth 64), (129 + n.val, 0, (f top >>> 64).setWidth 64)]
  | _, _ => []

/-- All values of a word are there: its registers are written and, for an acquire, leases are dropped (R32, R214). -/
def State.wordDone (s : State) (w : MemWord) : State :=
  let i := w.info
  let s := s.setSys { s.sys with words := s.sys.words.filter (fun v => decide (v.info.tok ≠ i.tok)) }
  if i.engine.isSome then
    let r : Result := { grp := i.grp, regs := [], vals := [], flags := 0, fp := false, raw := w.vals, fault := w.fault }
    s.setSys { s.sys with results := Tab.put i.tok r s.sys.results }
  else if !s.owns i then s
  else
    let s := if w.acq then s.acquire i.grp i.scope else s
    let ok := lanesOf (i.lanes &&& ~~~w.failed)
    let val := fun l => Tab.get 0 (if i.once then 0 else l) w.vals
    let r : Result := { grp := i.grp, regs := i.dstRegs, vals := i.dstVals ok val, flags := 0, fp := false, raw := [], fault := none }
    (s.setSys { s.sys with results := Tab.put i.tok r s.sys.results }).post (.resultWriteback i.tok)

/-- Takes `n` pieces off what a word waits for, with a change of what it holds. -/
def State.wordStep (s : State) (tok n : Nat) (f : MemWord → MemWord) : State :=
  match s.sys.words.find? (fun w => decide (w.info.tok = tok)) with
  | none => s
  | some w =>
    let w' := f { w with left := w.left - n }
    if w'.left = 0 then s.wordDone w'
    else s.setSys { s.sys with words := s.sys.words.map (fun v => if v.info.tok = tok then w' else v) }

/-- A piece's value returns. -/
def State.deliver (s : State) (i : WordInfo) (a : Acc) (v : BitVec 128) : State :=
  s.wordStep i.tok 1 (fun w =>
    { w with vals := Tab.put a.lane (Tab.get 0 a.lane w.vals ||| (v <<< (8 * a.off))) w.vals })

/-- Pieces of a lane fail: the lane is deferred, its destination stays as it is (R188, R255). An engine's failure is its
command's. -/
def State.failAcc (s : State) (i : WordInfo) (a : Acc) (cause detail : Nat) : State :=
  let m := i.lanesFor a.lane
  if i.engine.isSome then
    s.wordStep i.tok 1 (fun w => { w with fault := some (w.fault.getD (cause, detail, a.va)) })
  else (s.deferLanes i m cause detail a.va).wordStep i.tok 1 (fun w => { w with failed := w.failed ||| m })

/-! ### The L1 (R211 to R215) -/

/-- Whether a leaf's lines are cached in an L1 (R211, R221): never on a control core, of whose private and dielocal accesses the
specification says so, and of whose others it is silent (log entry 93). -/
def cacheable (core : Nat) (leaf : Word) : Bool :=
  !isControl core && decide (pteKind leaf ≠ 4 ∧ pteKind leaf ≠ 6) &&
    decide (¬ (hubBase ≤ pteFrame leaf * 2 ^ 14 ∧ pteFrame leaf * 2 ^ 14 < hubBase + 0x100000000))

/-- A sector of an L1 whose lease has not ended (R212). -/
def State.sectorAt (s : State) (core sector : Nat) : Option Sector :=
  match Tab.find? sector (s.core core).l1 with
  | some x => if s.tick.toNat < x.expiry then some x else none
  | none => none

/-- The entries of a table by line that a set of a cache with `ways` lines keeps when line `line` comes in: all of them, but where
the set is full the lines other than one, which is not architected (R211; log entry 42). `lineOf` is the line of a key. -/
def State.makeRoom {α : Type} (s : State) (ways : Nat) (lineOf : Nat → Nat) (setOf : Nat → Nat) (line : Nat) (t : Tab α) :
    Tab α × State :=
  let lines := ((t.filter (fun e => decide (setOf (lineOf e.1) = setOf line))).map (fun e => lineOf e.1)).dedup
  if lines.contains line || decide (lines.length < ways) then (t, s)
  else
    let (v, s) := s.freeVal
    (match lines[v.toNat % lines.length]? with
     | some out => (t.filter (fun e => decide (lineOf e.1 ≠ out)), s)
     | none => (t, s))

/-- Installs a sector in an L1 of 256 sets, PA[14:7], of 8 lines (R206, R211). -/
def State.l1Put (s : State) (core sec : Nat) (x : Sector) : State :=
  let r := s.makeRoom 8 (fun k => k / 4) (fun l => l % 256) (sec / 4) (s.core core).l1
  r.2.updCore core (fun c => { c with l1 := Tab.put sec x r.1 })

/-- Installs a line in an instruction cache of 128 sets of 4 lines (R206). -/
def State.icachePut (s : State) (core line : Nat) (x : ILine) : State :=
  let c := (s.core core).icache
  -- with fewer lines than a set has, no set is full
  let r := if c.length < 4 then (c, s) else s.makeRoom 4 id (fun l => (Config.icacheSet l).toNat) line c
  r.2.updCore core (fun c => { c with icache := Tab.put line x r.1 })

/-- A store at the L1 tag port (R211): a leased sector takes the bytes, and a fill in flight for it gets no lease. -/
def State.l1Store (s : State) (core : Nat) (a : PAcc) : State :=
  let sec := a.pa / 32
  let s := s.setSys { s.sys with fills := s.sys.fills.map (fun f =>
    if f.core = core ∧ f.sector = sec then { f with expiry := 0 } else f) }
  match s.sectorAt core sec with
  | none => s
  | some x =>
    let data := (List.range a.acc.size).foldl (fun d k =>
      if a.acc.bmask.getLsbD k then d.set (a.pa % 32 + k) ((a.acc.data >>> (8 * k)).setWidth 8) else d) x.data
    s.updCore core (fun c => { c with l1 := Tab.put sec { x with data := data } c.l1 })

/-- Drops the lease of a sector (R214, R272). -/
def State.l1Drop (s : State) (core sec : Nat) : State :=
  let s := s.updCore core (fun c => { c with l1 := Tab.del sec c.l1 })
  s.setSys { s.sys with fills := s.sys.fills.map (fun f =>
    if f.core = core ∧ f.sector = sec then { f with expiry := 0 } else f) }

/-! ### The serving slice -/

/-- The context of a unit that makes accesses for a word, by its number: an engine command, a matrix word, a fabric word, a `launch`,
a grid's completion. -/
def State.unitCtx (s : State) (id : Nat) : Option Nat :=
  ((s.sys.engs.find? (fun c => decide (c.id = id))).map EngCmd.ctx).orElse (fun _ =>
  ((List.find? (fun (e : Nat × Team) => e.2.mx.any (fun m => decide (m.id = id))) s.teams).map (fun e => e.2.ctx)).orElse (fun _ =>
  ((s.fab.pubs.find? (fun p => decide (p.id = id))).map PubWord.ctx).orElse (fun _ =>
  ((s.fab.colls.find? (fun c => decide (c.id = id))).map CollOp.ctx).orElse (fun _ =>
  ((s.hub.launches.find? (fun l => decide (l.info.tok = id))).map LaunchReq.ctx).orElse (fun _ =>
  (s.hub.grids.find? (fun k => decide (k.id = id))).map Grid.ctx)))))

/-- Whether what holds a ticket still comes for its access: a request until it is performed, a unit while it works, a group while
it waits. A unit or a group whose context is being saved, or that a freeze stops, does not keep others waiting. -/
def State.ticketLives (s : State) (t : Ticket) : Bool :=
  match t with
  | .req id => s.sys.reqs.any (fun q => decide (q.id = id))
  | .agent id =>
    s.dbg.freeze.isNone && (match s.unitCtx id with
      | some c => decide ((s.ctx c).cmd = 0)
      | none => false)
  | .group g =>
    (match (s.grp g).sched.susp with
     | .waitv _ _ _ _ _ _ none | .mbar _ _ _ _ _ _ none => s.hasGrp g
     | _ => false)
  | .word g pc =>
    let x := s.grp g
    s.dbg.freeze.isNone && s.hasGrp g && decide (x.flow.pc = pc) && !x.sched.halted && !x.sched.paused && x.sched.fetch.isNone &&
      decide (x.sched.susp = .none)
  | .uop g => let x := s.grp g; s.dbg.freeze.isNone && s.hasGrp g && x.q.running && !x.sched.paused
  | .peer .. => true
  | .flit p ch seq off => s.inputs.any (fun i => match i with
    | .flit p' ch' _ seq' off' .. => decide (p' = p ∧ ch' = ch ∧ seq' = seq ∧ off' = off)
    | _ => false)
  | .version id => s.fab.flits.any (fun f => decide (f.id = id) && f.held)
  | .host w => s.inputs.any (fun i => match i with
    | .hostWrite .. => w
    | .hostRead .. => !w
    | _ => false)

/-- Whether an access waits at a page that is being moved (R226): while it is copied, and after it while something else that
arrived first is still to be performed. One that waits is queued in order of arrival. -/
def State.migWaits (s : State) (t : Ticket) (pa : Nat) : Bool :=
  s.sys.migs.any (fun (m : Nat × Migration) => decide (m.2.src ≤ pa ∧ pa < m.2.src + m.2.size) &&
    ((!m.2.copied && !m.2.aborted) || (match m.2.queue.find? s.ticketLives with
      | some u => decide (u ≠ t)
      | none => false)))

/-- Queues what waits at a page that is being moved. -/
def State.migQueue (s : State) (t : Ticket) (pa : Nat) : State :=
  s.setSys { s.sys with migs := s.sys.migs.map (fun (m : Nat × Migration) =>
    if decide (m.2.src ≤ pa ∧ pa < m.2.src + m.2.size) && !m.2.queue.contains t
    then (m.1, { m.2 with queue := m.2.queue ++ [t] }) else m) }

/-- Takes a performed access out of the queues. -/
def State.migLeave (s : State) (t : Ticket) : State :=
  s.setSys { s.sys with migs := s.sys.migs.map (fun (m : Nat × Migration) =>
    (m.1, { m.2 with queue := m.2.queue.filter (fun u => decide (u ≠ t)) })) }

/-- The die for which a core writes a granule (R223): a control core is local to the home of every page (R11). -/
def State.writeDie (s : State) (core pa : Nat) : Nat := if isControl core then pa / 0x2000000000 else s.issueDie core

/-- The die whose L2 serves a line for die `d` (R223). -/
def State.servingDie (s : State) (leaf : Word) (d pa : Nat) (write : Bool) : Nat :=
  let home := pa / 0x2000000000
  if !pteTrk leaf then home
  else
    let o := Tab.get ⟨0, 0⟩ (pa / 0x10000) s.sys.own
    if o.mask.getLsbD (pa / 4096 % 16) && (!write || decide (o.w = d)) then o.w else home

/-- Whether an access must recall its sub-granule first: an atomic a granted one, a write one that another die holds (R223,
R224). -/
def State.recallDue (s : State) (leaf : Word) (d pa : Nat) (atomic : Bool) : Bool :=
  pteTrk leaf && decide (pteKind leaf = 2) && (match Tab.find? (pa / 0x10000) s.sys.own with
    | some o => o.mask.getLsbD (pa / 4096 % 16) && (atomic || decide (o.w ≠ d))
    | none => false)

/-- The recall that an access makes first: as its tick ends, so that the writer's own writes of the tick go before it and of several
dies the lower rank is taken first (R228), and not before a Quire invocation that has touched the sub-granule ends (R225). -/
def State.recallFirst (s : State) (leaf : Word) (d pa : Nat) (atomic : Bool) : Option State :=
  if !s.recallDue leaf d pa atomic then some s
  else if s.quireHolds (pa / 4096) (pa / 4096 + 1) || !s.sys.recallNow then none
  else some (s.recallSub (pa / 4096))

/-- Notes who waits for a recall at the end of the tick, with the rank of its die (R228). -/
def State.noteRecall (s : State) (rank : Nat) (r : Recaller) : State :=
  if s.sys.recalls.contains (rank, r) then s else s.setSys { s.sys with recalls := s.sys.recalls ++ [(rank, r)] }

/-- A write's change of the ownership entry (R223), for a tracked page: of a granule in HOME to the writer's die, of a granted one after
the recall of a sub-granule that another die holds; with none held any more it is HOME after the write. -/
def State.ownWrite (s : State) (leaf : Word) (d pa : Nat) : State :=
  if !pteTrk leaf || decide (pteKind leaf ≠ 2) then s
  else
    let g := pa / 0x10000
    let home := pa / 0x2000000000
    match Tab.find? g s.sys.own with
    | none => if d = home then s else s.setSys { s.sys with own := Tab.put g { w := d, mask := 0xFFFF } s.sys.own }
    | some o =>
      let s := if o.mask.getLsbD (pa / 4096 % 16) && decide (o.w ≠ d) then s.recallSub (pa / 4096) else s
      if (List.range 16).any (fun k => s.granted (16 * g + k)) then s else s.setSys { s.sys with own := Tab.del g s.sys.own }

/-- The physical address of a granule's tag byte, and whether it is the high nibble (R220). -/
def tagPlace (pa : Nat) : Nat × Bool :=
  let off := pa % 0x2000000000
  (dieBase (pa / 0x2000000000) + tagOffset + off / 64, decide (off / 32 % 2 = 1))

def State.tagOf (s : State) (pa : Nat) : Nat :=
  let p := tagPlace pa
  let b := (s.byte p.1).toNat
  if p.2 then b / 16 else b % 16

def State.setTag (s : State) (pa t : Nat) : State :=
  let p := tagPlace pa
  let b := (s.byte p.1).toNat
  s.setByte p.1 (BitVec.ofNat 8 (if p.2 then b % 16 + t % 16 * 16 else b / 16 * 16 + t % 16))

/-- Whether the pointer tag fits every granule that an access touches (R274). -/
def State.tagsFit (s : State) (leaf va : Word) (pa n : Nat) : Bool :=
  !(s.tagging && pteTag leaf) ||
    (List.range ((pa + n - 1) / 32 - pa / 32 + 1)).all (fun k => decide (s.tagOf ((pa / 32 + k) * 32) = bits va 57 4))

def AccOp.opClass : AccOp → OpClass
  | .load | .ldtag | .cwb => .read
  | .store | .sttag => .write
  | .atomic .. => .atomic

def AccOp.watchKind : AccOp → Option WatchKind
  | .load => some .read
  | .store => some .write
  | .atomic .. => some .atomic
  | _ => none

/-- A float atomic's result (R264): default NaN, nearest, no flush. -/
def atomFloat (op : AOp) (old x : Nat) : Nat :=
  match op with
  | .fadd => (roundF fp32 .rne false false (addV false (decodeF fp32 old) (decodeF fp32 x)).1).1
  | .fmin => (minMaxF false fp32 false old x).1
  | _ => (minMaxF true fp32 false old x).1

/-- The step of an atomic (R264): the new value, none where a `cas` fails. -/
def atomStep (op : AOp) (ty : ITy) (old x cmp : Word) : Option Word :=
  let o := ty.cut old
  let y := ty.cut x
  match op with
  | .add => some (ty.cut (o + y))
  | .sub => some (ty.cut (o - y))
  | .min => some (ty.narrow false (min (ty.val o) (ty.val y)))
  | .max => some (ty.narrow false (max (ty.val o) (ty.val y)))
  | .and => some (o &&& y)
  | .or => some (o ||| y)
  | .xor => some (o ^^^ y)
  | .exch => some y
  | .cas => if o = ty.cut cmp then some y else none
  | .fadd | .fmin | .fmax => some (BitVec.ofNat 64 (atomFloat op (o.toNat % 2 ^ 32) (y.toNat % 2 ^ 32)))

/-- What an access comes to where it is served. -/
inductive Served where
  | done (v : BitVec 128)
  | fail (cause detail : Nat)
  deriving DecidableEq, Repr

/-- Stores the bytes that a mask marks. -/
def State.storeMasked (s : State) (pa : Nat) (a : Acc) : State :=
  (List.range a.size).foldl (fun s k =>
    if a.bmask.getLsbD k then s.setByte (pa + k) ((a.data >>> (8 * k)).setWidth 8) else s) s

/-- Whether an access writes the peer map of a partition that is not its context's (R354); partition 0 may write them all. The rule
names no outcome: the hub refuses it as it refuses others (log entry 91). -/
def State.foreignMap (s : State) (ctx pa : Nat) (a : Acc) : Bool :=
  let o := pa - hubBase
  decide (hubBase + 0x80000 ≤ pa ∧ o < 0x90000) && decide (a.op.opClass ≠ .read) &&
    !decide (s.ctxPart ctx = 0 ∨ s.ctxPart ctx = (o - 0x80000) / 0x1000)

/-- What refuses an access of engine class `eng` at its serving slice, at the hub, or at the PCIe interface: its place, the access
tables, tags, poison, and a host read that completes in error (R219, R253 to R255, R260, R274, R353, R369). -/
def State.refuses (s : State) (ctx eng : Nat) (leaf : Word) (pa0 : Nat) (a : Acc) : Option (Nat × Nat) :=
  let pa := s.forwardPa pa0
  match placeOf s.tagging pa with
  | .none => some (0x11, 7)
  | .host o =>
    if !s.permitted 3 ctx eng a.op.opClass pa a.size none then some (0x11, 4)
    else if decide (a.op = .load) && s.plat.hostErrors.any (fun e => decide (e.1 < o + a.size ∧ o < e.1 + e.2)) then some (0x11, 4)
    else none
  | .hub _ =>
    if a.size ≠ 8 ∨ pa % 8 ≠ 0 then some (0x15, 1)
    else if !s.permitted 5 ctx eng a.op.opClass pa a.size none || s.foreignMap ctx pa a then some (0x11, 9)
    else none
  | .hbm home off =>
    let bad := Tab.get false (lineKey pa home) s.sys.poison
    let tagClass : OpClass := if a.op = .sttag then .write else .read
    if !s.permitted 0 ctx eng a.op.opClass pa a.size none then some (0x11, 1)
    else
      match a.op with
      | .load => if !s.tagsFit leaf a.va pa a.size then some (0x12, 1) else if bad then some (0x16, 1) else none
      | .store => if !s.tagsFit leaf a.va pa a.size then some (0x12, 1) else none
      | .atomic _ _ ret =>
        if !s.tagsFit leaf a.va pa a.size then some (0x12, 1) else if bad && ret then some (0x16, 1) else none
      | .ldtag | .sttag =>
        if decide (a.op = .ldtag) && !(s.tagging && pteTag leaf) then none
        else if !s.permitted 1 ctx eng tagClass (dieBase home + tagOffset + off / 64) 1 none then some (0x11, 2)
        else none
      | .cwb => none

/-- GEN of a barrier word as its home slice holds it (R135). -/
def State.mbarGen (s : State) (pa : Nat) : BitVec 32 := BitVec.ofNat 32 (s.load (s.forwardPa pa + 4) 4)

/-- A write has been performed: groups that wait at an `mbar` whose generation it replaced are to leave, whatever is written there
later (R135, R137). -/
def State.mbarNotice (s : State) : State :=
  let gone := (s.groups.filter (fun e => match e.2.sched.susp with
    | .mbar _ _ _ pa gen true none => decide (s.mbarGen pa ≠ gen) && !s.hub.mbarGone.contains e.1
    | _ => false)).map Prod.fst
  if gone.isEmpty then s else s.setHub { s.hub with mbarGone := s.hub.mbarGone ++ gone }

/-- An access that nothing refuses, performed where it is served. `d` is the die for which a write counts (R223); writes of the
FB path leave the ownership table alone. -/
def State.perform (s : State) (eng d : Nat) (leaf : Word) (pa0 : Nat) (a : Acc) : BitVec 128 × State :=
  let pa := s.forwardPa pa0
  match placeOf s.tagging pa with
  | .none => (0, s)
  | .host _ =>
    (match a.op with
     | .store => (0, s.storeMasked pa a)
     | .load => (BitVec.ofNat 128 (s.load pa a.size), s)
     | _ => (0, s))
  | .hub o =>
    (match a.op with
     | .load => let r := s.mgmtRead o; (r.1.setWidth 128, r.2)
     | .store => (0, s.mgmtWrite o (a.data.setWidth 64))
     | .atomic op ty _ =>
       let r := s.mgmtRead o
       (r.1.setWidth 128, match atomStep op ty r.1 (a.data.setWidth 64) a.cmp with
         | some v => r.2.mgmtWrite o v
         | none => r.2)
     | _ => (0, s))
  | .hbm home _ =>
    match a.op with
    | .load => (BitVec.ofNat 128 (s.load pa a.size), s.l2Touch pa (s.servingDie leaf d pa false) false)
    | .store =>
      let s := if eng = 4 then s else s.ownWrite leaf d pa
      (0, ((s.storeMasked pa a).l2Touch pa (s.servingDie leaf d pa true) true).mbarNotice)
    | .atomic op ty _ =>
      let old : Word := BitVec.ofNat 64 (s.load pa a.size)
      (match atomStep op ty old (a.data.setWidth 64) a.cmp with
       | some v => (old.setWidth 128, ((s.store pa a.size v.toNat).l2Touch pa home true).mbarNotice)
       | none => (old.setWidth 128, s.l2Touch pa home false))
    | .ldtag => (if s.tagging && pteTag leaf then BitVec.ofNat 128 (s.tagOf pa) else 0, s)
    | .sttag => (0, s.setTag pa (a.data.toNat % 16))
    | .cwb =>
      -- the line stays where it is, clean: first in the writer die's L2, then in the home's (R273)
      let die := s.servingDie leaf d pa false
      let clean (s : State) (k : Nat) : State :=
        if s.l2Dirty pa k then s.setSys { s.sys with l2 := Tab.put (lineKey pa k) false s.sys.l2 } else s
      (0, clean (clean s die) home)

/-- Counts a request that a slice accepts (R382). -/
def State.countReq (s : State) (pa : Nat) : State :=
  match placeOf s.tagging (s.forwardPa pa) with
  | .hbm d _ => s.count (0x340 + d) 0x40 1
  | _ => s

/-- Whether an access reads a counter, which answers as the tick ends (R383): of the hub's space, and refused by nothing. -/
def State.readsCounter (s : State) (ctx eng : Nat) (leaf : Word) (pa : Nat) (a : Acc) : Bool :=
  decide (pteKind leaf = 2 ∧ a.op.opClass ≠ .write) && isCounter pa && (s.refuses ctx eng leaf pa a).isNone

/-- An access where it is served: refused, or performed. -/
def State.serve (s : State) (ctx eng d : Nat) (leaf : Word) (pa : Nat) (a : Acc) : Served × State :=
  match s.refuses ctx eng leaf pa a with
  | some e => (.fail e.1 e.2, s)
  | none => let r := s.perform eng d leaf pa a; (.done r.1, r.2)

/-! ### Page heat (R370) -/

/-- The key of a count: granule, issuing die, whether it is a write. -/
def heatKey (s : State) (core pa : Nat) (write : Bool) : Nat :=
  pa / 65536 * 32 + 2 * s.writeDie core pa + (if write then 1 else 0)

/-- Whether translations to a leaf are counted: a tracked leaf of HBM. -/
def heatLeaf (leaf : Word) : Bool := pteTrk leaf && decide (pteKind leaf ≠ 4 ∧ pteKind leaf ≠ 6)

/-- One count of page heat for each tracked page that a word touches, a page known by its leaf: of a page of several granules at the one
that the word touches first (log entry 112). -/
def State.heatCount (s : State) (core : Nat) (write : Bool) (l : List (Nat × Word)) : State :=
  let pages := (l.filter (fun e => heatLeaf e.2)).foldl (fun (ps : List (Nat × Word)) e =>
    if ps.any (fun p => decide (p.2 = e.2)) then ps else ps ++ [e]) []
  pages.foldl (fun s e =>
    let k := heatKey s core e.1 write
    s.setSys { s.sys with heat := Tab.set 0 k (Tab.get 0 k s.sys.heat + 1) s.sys.heat }) s

/-- The same for a unit that makes the accesses of one word over time: one count for the word and each page. -/
def State.heatAgent (s : State) (core id : Nat) (write : Bool) (pa : Nat) (leaf : Word) : State :=
  let k := 2 * leaf.toNat + (if write then 1 else 0)
  if !heatLeaf leaf || s.sys.heatSeen.contains (id, k) then s
  else (s.setSys { s.sys with heatSeen := s.sys.heatSeen ++ [(id, k)] }).heatCount core write [(pa, leaf)]

/-! ### What of a group's accesses has been performed (R233, R245) -/

/-- The bytes that an access concerns: for a tag word its whole granule, whose tag and data are one piece (R274). -/
def PAcc.span (a : PAcc) : Nat × Nat :=
  match a.acc.op with
  | .ldtag | .sttag => (a.pa / 32 * 32, a.pa / 32 * 32 + 32)
  | _ => (a.pa, a.pa + a.acc.size)

/-- Whether two accesses share a byte. -/
def PAcc.meets (a b : PAcc) : Bool := decide (a.span.1 < b.span.2 ∧ b.span.1 < a.span.2)

/-- Whether an access returns a value. -/
def AccOp.returns : AccOp → Bool
  | .load | .ldtag => true
  | .atomic _ _ r => r
  | _ => false

/-- The launch words of a group whose record is not read yet (R337). -/
def State.launchesOf (s : State) (g team : Nat) : List LaunchReq :=
  s.hub.launches.filter (fun r => decide (r.info.grp = g ∧ r.info.team = team))

/-- Whether an access waits for the read of an earlier launch record that shares its line (R234, R337): by its virtual address or by
where the record's page is. -/
def State.behindLaunch (s : State) (g team seq : Nat) (a : PAcc) : Bool :=
  (s.launchesOf g team).any (fun r => decide (r.info.seq < seq) &&
    (decide (vaOf a.acc.va / 128 = vaOf r.addr / 128) || (match s.walk r.ctx (vaOf r.addr) with
      | .leaf e n => decide (a.pa / 128 = (pteFrame e * 2 ^ 14 + vaOf r.addr % 2 ^ n) / 128)
      | _ => false)))

/-- Whether accesses wait for a slice to be performed at a scope: not where acceptance at the L1 tag port is enough, or at that of a
fused L1 (R213, R233). -/
def awaitsSlice (sc : Scope) (fuse : List Nat) : Bool :=
  match sc with
  | .group | .team => false
  | .cluster => fuse.isEmpty
  | _ => true

def State.scopeAtSlice (s : State) (g : Nat) (sc : Scope) : Bool := awaitsSlice sc (s.fuseOf (s.grp g).team)

/-- Whether every access on a path of a group (of a team) with a place below `seq` is performed at a scope, parked accesses and
engine commands apart (R233, R245). -/
def State.accDone (s : State) (p : Path) (g team seq : Nat) (sc : Scope) : Bool :=
  let mine (i : WordInfo) : Bool := decide (i.grp = g ∧ i.team = team ∧ i.seq < seq ∧ i.path = p)
  let slice := s.scopeAtSlice g sc
  let needs (op : AccOp) : Bool := slice || op.returns || decide (op = .cwb)
  s.sys.reqs.all (fun q => !mine q.info || !q.accs.any (fun a => needs a.acc.op)) &&
  s.fab.reqs.all (fun q => !mine q.info ||
    (decide (sc ≠ .system) && q.accs.all (fun a => !a.acc.op.returns))) &&
  s.repl.strongs.all (fun o => !mine o.info ||
    (!o.accs.any (fun a => a.acc.op.returns) && decide (sc ≠ .package ∧ sc ≠ .system) && o.applied.contains o.die)) &&
  (decide (sc ≠ .package ∧ sc ≠ .system) ||
    s.repl.dies.all (fun r => r.2.unacked.all (fun k =>
      !decide (k.1.grp = g ∧ k.1.team = team ∧ k.1.seq < seq ∧ k.1.path = p) ||
        k.2.all (fun d => !s.repl.live.getLsbD d))))

/-- Whether every access on LS of a group (of a team) with a place below `seq` is performed at a scope; parked accesses count
as not performed unless `passParked` says to pass over them (R194, R242, R362). The record of a `launch` counts as an access. -/
def State.lsDone (s : State) (g team seq : Nat) (sc : Scope) (passParked : Bool) : Bool :=
  let mine (i : WordInfo) : Bool := decide (i.grp = g ∧ i.team = team ∧ i.seq < seq)
  s.accDone .ls g team seq sc &&
    s.hub.launches.all (fun l => !mine l.info || (passParked && l.parked.isSome)) &&
    (passParked || ((s.grp g).mem.logs.all (fun l => !mine l.info) && s.sys.orphans.all (fun o => !mine o.log.info)))

end Sys2Proof.Machine
end

