-- ==== Sys2Proof/Machine/Issue.lean ====
section
/-!
DEFINITION. Machine/Issue.lean: the issue of a memory word: what holds it back, the checks of each lane, parked and failing
lanes, hits in the L1, and the requests it sends (R188, R192, R193, R222, R250 to R260, R269, R300, R370).
-/
namespace Sys2Proof.Machine

/-- What a memory word does in each of its lanes. `seg` is none for the words that name no segment. -/
structure MemSpec where
  seg : Option Seg
  op : AccOp
  size : Nat
  signed : Bool
  ord : AccOrd
  scope : Scope
  dst : Operand
  deriving DecidableEq, Repr

/-! ### Waiting at issue (R193, R232, R269, R292, R300, R362) -/

def Path.code : Path → Nat
  | .ls => 0 | .cp => 1 | .mx => 2 | .ga => 3 | .fb => 4

/-- Whether an outstanding fence holds back later accesses of a path (R242, R269). -/
def Fence.holds (f : Fence) (p : Path) : Bool :=
  if f.each then f.left.contains p else !f.left.isEmpty && f.p2.getLsbD p.code

/-- Whether the group's fences hold back a path. -/
def Group.fenced (x : Group) (p : Path) : Bool := x.mem.fences.any (fun f => f.holds p)

/-- Whether a `tlbi` of the group is outstanding (R362). -/
def State.tlbiOut (s : State) (g : Nat) (x : Group) : Bool := s.sys.tlbis.any (fun t => decide (t.grp = g ∧ t.team = x.team))

/-- Whether a memory word of the group waits at issue: behind an acquire whose value is not there, a fence, a `tlbi`, or four
operand logs, of which a parked `launch` holds one. -/
def State.lsWaits (s : State) (g : Nat) (x : Group) : Bool :=
  s.sys.words.any (fun w => w.acq && decide (w.info.grp = g)) || x.fenced .ls || s.tlbiOut g x ||
    decide (4 ≤ x.mem.logs.length + ((s.launchesOf g x.team).filter (fun r => r.parked.isSome)).length)

/-! ### The checks of a lane (R250 to R260, R274, R275) -/

/-- Whether a word admits a page's kind; else the SEGMENT_OP detail (R221, R260, R265, R275). -/
def kindFor (op : AccOp) (seg : Option Seg) (kind : Nat) : Option Nat :=
  match op, seg with
  | .ldtag, _ | .sttag, _ => if kind = 1 ∨ kind = 2 then none else some 2
  | .cwb, _ => none
  | .load, some g => if kind = segKind g ∨ (g = .g ∧ kind = 5) then none else some 1
  | _, some g => if g = .g ∧ kind = 5 then some 2 else if kind = segKind g then none else some 1
  | _, none => none

/-- What an access asks of a leaf (R358). -/
def AccOp.need : AccOp → Need
  | .load | .ldtag | .cwb => .read
  | .atomic _ _ true => .atomic
  | _ => .write

def AccOp.isAtomic : AccOp → Bool
  | .atomic .. => true
  | _ => false

/-- Stores, atomics and reductions: what feeds the store CRC (R399). -/
def AccOp.writesMem (o : AccOp) : Bool := decide (o = .store) || o.isAtomic

/-- ACC of a fault record (R364). -/
def AccOp.faultCode : AccOp → Nat
  | .load | .ldtag | .cwb => 0
  | .store | .sttag => 1
  | .atomic .. => 2

/-- The pieces of a lane's access (R222): an access to the private segment is made of 4-byte pieces at transformed addresses. -/
def piecesOf (seg : Option Seg) (base : Word) (a : Acc) : List Acc :=
  if seg = some .p then
    let p := a.va.toNat
    if a.size ≤ 4 then [{ a with va := privVa base p a.lane }]
    else (List.range (a.size / 4)).map (fun k =>
      { a with off := 4 * k, va := privVa base (p + 4 * k) a.lane, size := 4, data := a.data >>> (32 * k) })
  else [a]

/-- What the checks of a lane come to. -/
inductive LaneCheck where
  | ok (l : List (PAcc × Word))
  | park (faults : List (Word × PageFault)) (l : List Acc)
  | fail (cause detail : Nat) (addr : Word)
  deriving DecidableEq, Repr

/-- Whether an address lies on a page that holds a parked access of the group, a parked launch record among them (R192, R337). -/
def State.behindParked (s : State) (x : Group) (va logSize : Nat) : Bool :=
  x.mem.logs.any (fun l => l.accs.any (fun a => decide (vaOf a.va / 2 ^ logSize = va / 2 ^ logSize))) ||
    s.hub.launches.any (fun r => decide (r.core = x.core ∧ r.slot = x.slot ∧ r.info.team = x.team) && r.parked.isSome &&
      decide (vaOf r.addr / 2 ^ logSize = va / 2 ^ logSize))

/-- One piece: translation, grant, kind, place. A piece behind a parked access is parked too, and its walk's fault reported
(R192, the example of R365). -/
def State.probe (s : State) (x : Group) (sp : MemSpec) (a : Acc) : LaneCheck × State :=
  let va := vaOf a.va
  let r := s.translate x.core x.ctx va (decide (sp.op.need ≠ .read))
  let n := match r.1 with | .leaf _ n => n | _ => 14
  let q := r.2.resolve x.core x.ctx x.sup va sp.op.need (kindFor sp.op sp.seg) r.1
  if s.behindParked x va n then
    (.park (match q with | .park f => [(a.va, f)] | _ => []) [a], r.2)
  else
    match q with
    | .fail c d => (.fail c d a.va, r.2)
    | .park f => (.park [(a.va, f)] [a], r.2)
    | .ok pa leaf =>
      if sp.op = .sttag ∧ ¬ (s.tagging && pteTag leaf) then (.fail 0x07 2 a.va, r.2)
      else (.ok [({ acc := a, pa := pa }, leaf)], r.2)

/-- Joins the outcomes of a lane's pieces: one that fails fails the lane, with the cause that is recorded of two (R188); one that
parks parks all of it. -/
def LaneCheck.join (p q : LaneCheck) : LaneCheck :=
  match p, q with
  | .fail c d a, .fail c' d' a' => if causeRank c' < causeRank c then .fail c' d' a' else .fail c d a
  | .fail c d a, _ => .fail c d a
  | _, .fail c d a => .fail c d a
  | .ok l, .ok m => .ok (l ++ m)
  | .park f l, .ok m => .park f (l ++ m.map (fun e => e.1.acc))
  | .ok l, .park f m => .park f (l.map (fun e => e.1.acc) ++ m)
  | .park f l, .park g m => .park (f ++ g) (l ++ m)

/-- A whole lane (R250 to R252): alignment, EA[63:61], then its pages. -/
def State.checkLane (s : State) (x : Group) (sp : MemSpec) (a : Acc) : LaneCheck × State :=
  let ps := piecesOf sp.seg x.mem.privBase a
  let addr := match ps with | p :: _ => p.va | [] => a.va
  if a.va.toNat % a.size ≠ 0 then (.fail 0x15 1 addr, s)
  else if eaBad a.va then (.fail 0x12 2 addr, s)
  else ps.foldl (fun r p => let q := r.2.probe x sp p; (r.1.join q.1, q.2)) (.ok [], s)

/-! ### Issue -/

/-- The bytes that a store of a lane performs: those that no higher lane of the word writes (R253). -/
def writeMask (a : Acc) (higher : List Acc) : BitVec 16 :=
  (List.range a.size).foldl (fun m k =>
    if higher.any (fun b => decide (b.va.toNat ≤ a.va.toNat + k ∧ a.va.toNat + k < b.va.toNat + b.size)) then m
    else m ||| (1#16 <<< k)) 0

/-- Marks the bytes of the stores of a word, given in ascending order of lanes. -/
def markStores : List Acc → List Acc
  | [] => []
  | a :: t => { a with bmask := writeMask a t } :: markStores t

/-- Whether a strong operation of the same group, made before number `id` and not yet applied on its die, shares a byte with one of
some accesses (R234). -/
def State.behindStrong (s : State) (g team id : Nat) (l : List PAcc) : Bool :=
  s.repl.strongs.any (fun o => decide (o.id < id ∧ o.info.grp = g ∧ o.info.team = team) && !o.applied.contains o.die &&
    o.accs.any (fun b => l.any (fun a => b.meets a)))

/-- Whether a load may be served from the L1 (R212, R259): weak, or of a scope that no slice must see, with its lease running,
no tag to check, and no earlier access of the core to the sector on its way. -/
def State.l1Serves (s : State) (x : Group) (g : Nat) (sp : MemSpec) (leaf : Word) (p : PAcc) : Option (BitVec 128) :=
  let core := s.l1Owner x.core p.pa g
  if sp.op ≠ .load || !cacheable x.core leaf || (s.tagging && pteTag leaf) ||
      (decide (sp.ord ≠ .weak) && s.scopeAtSlice g sp.scope) ||
      s.sys.reqs.any (fun q => decide (q.info.owner q.core p.pa = core) &&
        q.accs.any (fun b => decide (b.pa / 32 = p.pa / 32))) || s.behindStrong g x.team s.nextId [p] || s.behindLaunch g x.team x.mem.seq p then none
  else
    match s.sectorAt core (p.pa / 32) with
    | none => none
    | some x => some (BitVec.ofNat 128 (numOfBytes ((x.data.drop (p.pa % 32)).take p.acc.size)))

/-- Groups accesses by line and leaf, in order of the first access of each. -/
def byLine (l : List (PAcc × Word)) : List (Word × List PAcc) :=
  l.foldl (fun acc e =>
    match acc.findIdx? (fun q => decide (q.1 = e.2) && (match q.2 with
        | p :: _ => decide (p.pa / 128 = e.1.pa / 128)
        | [] => false)) with
    | some i => acc.modify i (fun q => (q.1, q.2 ++ [e.1]))
    | none => acc ++ [(e.2, [e.1])]) []

/-- Whether a word's release has been performed: every earlier access on LS at its scope (R232). The specification calls `.sq`
strong and no more; it is a release here as well (log entry 87). -/
def State.released (s : State) (i : WordInfo) : Bool :=
  match i.ord with
  | .rel | .acqrel | .sq => s.lsDone i.grp i.team i.seq i.scope false
  | _ => true

/-- The requests in a core's peer queue (R300): one leaves it as it is sent (R332), and one that is sent
again after a BUSY takes no place (R302). -/
def State.peerUsed (s : State) (core : Nat) : Nat :=
  (s.fab.reqs.filter (fun q => decide (q.core = core ∧ q.first = 0) && decide (q.state = PeerState.queued))).length

/-- Whether requests of a core are ready and wait for a place in its peer queue. -/
def State.peerReady (s : State) (core : Nat) : Bool :=
  s.fab.reqs.any (fun q => decide (q.core = core) && decide (q.state = PeerState.ready) && s.released q.info)

def State.peer? (s : State) (id : Nat) : Option PeerReq := s.fab.reqs.find? (fun q => decide (q.id = id))
def State.putPeer (s : State) (q : PeerReq) : State :=
  { s with fab := { s.fab with reqs := s.fab.reqs.map (fun r => if r.id = q.id then q else r) } }

/-- Numbers the requests that have become ready since their word issued, in order (R300). -/
def State.markReady (s : State) : State :=
  (s.fab.reqs.filter (fun q => decide (q.state = PeerState.ready) && q.since.isNone && s.released q.info)).foldl (fun s q =>
    let (n, s) := s.fresh
    s.putPeer { q with since := some n }) s

/-- Sends the accesses of one line to where they are served: a slice, a peer (`cwb` too, log entry 115), or the Collator for `.sq`. -/
def State.send (s : State) (x : Group) (i : WordInfo) (leaf : Word) (l : List PAcc) : State :=
  let s := if pteKind leaf = 4 then s.markReady else s
  let (id, s) := s.fresh
  if pteKind leaf = 4 then
    let free := decide (s.peerUsed x.core < 32) && !s.peerReady x.core
    let rel := decide (i.ord = .rel ∨ i.ord = .acqrel ∨ i.ord = .sq)
    let q : PeerReq :=
      { id := id, core := x.core, die := s.issueDie x.core, ctx := x.ctx, pkg := ptePeer leaf, info := i, accs := l, tag := 0,
        gen := false, state := if free && !rel then .queued else .ready, first := 0, sends := 0, due := 0,
        since := if rel then none else some id }
    { s with fab := { s.fab with reqs := s.fab.reqs ++ [q] } }.post (.peerRequestSend (s.issueDie x.core))
  else if i.ord = .sq then
    let d := s.issueDie x.core
    let line := (match l with | p :: _ => p.pa | [] => 0) / 128 * 128 - s.repBase d
    let o : Strong := { id := id, die := d, ctx := x.ctx, leaf := leaf, info := i, accs := l, line := line, slot := none, pkt := none, acks := [],
                        committed := false, applied := [], vals := [] }
    { s with repl := { s.repl with strongs := s.repl.strongs ++ [o] } }.post (.collatorSlotGrant id)
  else
    let q : Req := { id := id, info := i, core := x.core, ctx := x.ctx, sup := x.sup, leaf := leaf, accs := l, state := .sent,
                     tick := s.tick.toNat, noLease := false }
    let s := if !cacheable x.core leaf then s else l.foldl (fun s p => match p.acc.op with
      | .store => s.l1Store (i.owner x.core p.pa) p
      | .atomic .. => s.l1Drop (i.owner x.core p.pa) (p.pa / 32)
      | _ => s) s
    let s := s.setSys { s.sys with reqs := s.sys.reqs ++ [q] }
    match l with
    | p :: _ => if p.acc.op.isAtomic then s.post (.atomicAtHome id p.acc.lane) else s.post (.l2SliceRequest id allLanes)
    | [] => s

/-- Counts the sectors of a word's cached loads (R382): hit, or missed, some of these on an expired lease. -/
def State.l1Count (s : State) (x : Group) (g : Nat) (sp : MemSpec) (l : List (PAcc × Word)) : State :=
  let loads := l.filter (fun e => decide (e.1.acc.op = AccOp.load) && cacheable x.core e.2)
  let sector (e : PAcc × Word) : Nat × Nat := (s.l1Owner x.core e.1.pa g, e.1.pa / 32)
  let hit := ((loads.filter (fun e => (s.l1Serves x g sp e.2 e.1).isSome)).map sector).dedup
  let miss := ((loads.filter (fun e => (s.l1Serves x g sp e.2 e.1).isNone)).map sector).dedup
  let old := miss.filter (fun k => match Tab.find? k.2 (s.core k.1).l1 with
    | some y => decide (y.expiry ≤ s.tick.toNat)
    | none => false)
  ((s.count x.core 0x0D hit.length).count x.core 0x0E miss.length).count x.core 0x0F old.length

/-- Sends checked accesses: loads that the L1 serves at once, the others by line. -/
def State.sendAll (s : State) (x : Group) (i : WordInfo) (sp : MemSpec) (l : List (PAcc × Word)) : State :=
  let s := (s.heatCount x.core (decide (sp.op.need ≠ .read)) (l.map (fun e => (e.1.pa, e.2)))).l1Count x i.grp sp l
  let hit := l.filterMap (fun e => (s.l1Serves x i.grp sp e.2 e.1).map (fun v => (e.1, v)))
  let miss := l.filter (fun e => (s.l1Serves x i.grp sp e.2 e.1).isNone)
  let s := (byLine miss).foldl (fun s q => s.send x i q.1 q.2) s
  hit.foldl (fun s e =>
    (s.deliver i e.1.acc e.2).watched i x.ctx (i.lanesFor e.1.acc.lane) .read e.1.acc.va e.1.acc.size) s

/-- What the lanes of a word come to, in order: accesses to send, accesses to park, faults, failures. -/
structure Sorted where
  send : List (PAcc × Word)
  park : List Acc
  faults : List (Word × PageFault)
  fails : List (Nat × Nat × Nat × Word)
  deriving DecidableEq, Repr

def State.sortLanes (s : State) (x : Group) (sp : MemSpec) (l : List Acc) : Sorted × State :=
  l.foldl (fun r a =>
    let q := r.2.checkLane x sp a
    match q.1 with
    | .ok ps => ({ r.1 with send := r.1.send ++ ps }, q.2)
    | .park f ps => ({ r.1 with park := r.1.park ++ ps, faults := r.1.faults ++ f }, q.2)
    | .fail c d addr => ({ r.1 with fails := r.1.fails ++ [(a.lane, c, d, addr)] }, q.2)) (⟨[], [], [], []⟩, s)

/-- Reports each page that faulted once (R192, R363). -/
def State.reportPages (s : State) (core slot ctx acc path : Nat) (l : List (Word × PageFault)) : State :=
  let pages := l.foldl (fun (ps : List (Word × PageFault)) f =>
    if ps.any (fun q => decide (q.2.vpage (vaOf q.1) = f.2.vpage (vaOf f.1) ∧ q.2.logSize = f.2.logSize)) then ps else ps ++ [f]) []
  pages.foldl (fun s f => s.faultReport core slot ctx (vaOf f.1) acc f.2 path) s

def State.reportFaults (s : State) (x : Group) (acc path : Nat) (l : List (Word × PageFault)) : State :=
  s.reportPages x.core x.slot x.ctx acc path l

/-- Issues the lanes of a memory word (R188, R192, R259): failing lanes are deferred, faulting lanes parked, the others sent; a
word that returns values has its destination empty until the last of them. Where every lane fails the destination is left as it
was, with an earlier word's value still to come: the specification is silent on that (log entry 94). -/
def State.issueMem (s : State) (g : Nat) (x : Group) (once : Bool) (lanes : Mask) (sp : MemSpec)
    (l : List Acc) : State :=
  let r := s.sortLanes x sp l
  let o := r.1
  let (tok, s) := r.2.fresh
  let i : WordInfo :=
    { tok := tok, grp := g, team := x.team, grid := (s.team x.team).grid, pc := x.flow.pc, seq := x.mem.seq,
      seg := sp.seg.getD .g, ord := sp.ord, scope := sp.scope, signed := sp.signed, dst := sp.dst, sz := sp.size,
      once := once, lanes := lanes, path := .ls, engine := none, tick := s.tick.toNat,
      rr := s.rrOf x, fuse := s.fuseOf x.team }
  let failed := o.fails.foldl (fun m f => m ||| i.lanesFor f.1) 0
  let s := o.fails.foldl (fun s f => s.deferLanes i (i.lanesFor f.1) f.2.1 f.2.2.1 f.2.2.2) s
  let s := s.reportFaults x sp.op.faultCode 0 o.faults
  let s := if o.park.isEmpty then s else s.count x.core 0x14 ((o.park.map Acc.lane).dedup.length)
  -- bytes that a higher lane also writes are not written by a lower one
  let pieces := if sp.op = .store then
      markStores ((l.filter (fun a => o.fails.all (fun f => decide (f.1 ≠ a.lane)))).flatMap (piecesOf sp.seg x.mem.privBase))
    else []
  let mark (a : Acc) : Acc := if sp.op = .store then
      (pieces.find? (fun b => decide (b.lane = a.lane ∧ b.off = a.off))).getD a
    else a
  let send := o.send.map (fun e => ({ e.1 with acc := mark e.1.acc }, e.2))
  let park := o.park.map mark
  let n := send.length + park.length
  let s := s.updGrp g (fun x => { x with mem := { x.mem with seq := x.mem.seq + 1 } })
  let s := if sp.op.returns && decide (0 < n) then
      let s := s.updGrp g (fun x => { x with regs := i.dstRegs.foldl (fun r k => r.drain k tok) x.regs })
      s.setSys { s.sys with words := s.sys.words ++
        [{ info := i, left := n, vals := [], failed := failed, fault := none, acq := decide (sp.ord = .acq ∨ sp.ord = .acqrel) }] }
    else s
  let s := if park.isEmpty then s
    else s.updGrp g (fun x =>
      { x with mem := { x.mem with logs := x.mem.logs ++ [{ info := i, accs := park, tick := s.tick.toNat }] } })
  let s := if sp.op.writesMem then
      s.feedCrc g ((l.filter (fun a => o.fails.all (fun f => decide (f.1 ≠ a.lane)))).flatMap (fun a =>
        (lanesOf (i.lanesFor a.lane)).map (fun _ => (a.va, a.size, a.data))))
    else s
  s.sendAll x i sp send

end Sys2Proof.Machine
end

