-- ==== Sys2Proof/Machine/Slice.lean ====
section
/-!
DEFINITION. Machine/Slice.lean: the events of the memory system between the cores and the L2 slices: requests performed at
their slice, strong holds, atomics at their home, recalls, fills and leases, errors, migration, page heat and replay
(R194, R211 to R227, R232 to R234, R264, R365, R367, R370).
-/
namespace Sys2Proof.Machine

/-- Queues again an event that could not happen yet. -/
def State.later (s : State) (e : Instr) : State := if s.pending.contains e then s else s.post e

def State.req? (s : State) (id : Nat) : Option Req := s.sys.reqs.find? (fun q => decide (q.id = id))
def State.putReq (s : State) (q : Req) : State :=
  s.setSys { s.sys with reqs := s.sys.reqs.map (fun r => if r.id = q.id then q else r) }

/-- The unit number of an address in the order log (R397). -/
def unitOf (pa : Nat) : Nat := pa / 0x2000000000 * 64 + sliceOf pa

/-- Whether an earlier access goes first (R233, R234): a request of the same L1 on its way to a sector that this one touches; a held
one that shares a byte with it, but for a store of another thread, which is performed at once (R249); a strong operation of its own
group, or the record of its launch. -/
def State.behindEarlier (s : State) (q : Req) : Bool :=
  let own (r : Req) (pa : Nat) : Nat := r.info.owner r.core pa
  let mine (r : Req) (b a : PAcc) : Bool := decide (r.info.grp = q.info.grp ∧ r.info.team = q.info.team ∧
    r.info.lanesFor b.acc.lane &&& q.info.lanesFor a.acc.lane ≠ 0)
  s.behindStrong q.info.grp q.info.team q.id q.accs ||
  q.accs.any (s.behindLaunch q.info.grp q.info.team q.info.seq) ||
  s.sys.reqs.any (fun r => decide (r.id < q.id) && r.accs.any (fun b => q.accs.any (fun a =>
    decide (own r b.pa = own q a.pa) &&
      (match r.state with
       | .held => b.meets a && (mine r b a || decide (a.acc.op ≠ .store))
       | _ => decide (b.pa / 32 = a.pa / 32)))))

/-- Whether an access is held for LEXP at its slice (R213): strong, and of a scope for which the hold applies. -/
def State.holdApplies (s : State) (q : Req) : Bool :=
  decide (q.info.ord ≠ .weak) && decide (pteKind q.leaf ≠ 3) && awaitsSlice q.info.scope q.info.fuse &&
    q.accs.any (fun a => a.acc.op.writesMem)

/-- Whether LEXP of a request's line is still to come. -/
def State.mustHold (s : State) (q : Req) : Bool :=
  match q.accs with
  | [] => false
  | a :: _ =>
    let pa := s.forwardPa a.pa
    let die := s.servingDie q.leaf (s.writeDie q.core pa) pa true
    s.holdApplies q && decide (s.tick.toNat < s.lexp pa die)

/-- The recall that a request's write makes first (R223 to R225); none while it waits. -/
def State.recallReq (s : State) (q : Req) : Option State :=
  match q.accs with
  | [] => some s
  | a :: _ =>
    let pa := s.forwardPa a.pa
    if q.accs.any (fun b => decide (b.acc.op = .store) || b.acc.op.isAtomic)
    then s.recallFirst q.leaf (s.writeDie q.core pa) pa a.acc.op.isAtomic
    else some s

/-- A request that must recall first is made again as the tick ends (R228). -/
def State.recallLater (s : State) (q : Req) (e : Instr) : State :=
  match q.accs with
  | [] => s.later e
  | a :: _ => (s.noteRecall (s.writeDie q.core (s.forwardPa a.pa)) (.event e)).later e

/-- Where a version is written: the words of the espalier entry under which its flit is handled (R372, R374). -/
def Flit.word (f : Flit) (k : Nat) : Word := f.ent.getD k 0
def Flit.base (f : Flit) : Nat := bits (f.word 4) 12 40 * 4096
def Flit.verPlace (f : Flit) : Nat := f.base + bits (f.word 6) 0 32

/-- The next number that a channel's window takes (R305): a channel's first is 0 (log entry 71). -/
def State.subNext (s : State) (ch : Nat) : Nat := Tab.get 0 ch s.fab.subs

/-- Whether an operation is held on a line (R213): a strong one at its slice, a lock of the replicated segment, a write of the
hub, a version that is next in its channel. -/
def State.heldLine (s : State) (core : Nat) (leaf : Word) (pa : Nat) : Bool :=
  s.sys.reqs.any (fun r => decide (r.state = .held) && r.accs.any (fun b => decide (s.forwardPa b.pa / 128 = pa / 128))) ||
    s.hub.holds.contains (pa / 128) ||
    s.fab.flits.any (fun f => f.held && decide (s.subNext f.ch = f.seq) && decide (s.forwardPa f.verPlace / 128 = pa / 128)) ||
    (decide (pteKind leaf = 3) && s.lockDue (s.issueDie core) (pa / 128 * 128 - s.repBase (s.issueDie core)))

/-- LEASE_LEN of a context on a core, as it stood before this tick's writes (R97, R228). -/
def State.leaseLen (s : State) (core ctx : Nat) : Nat :=
  (Tab.find? (64 * core + ctx) s.sys.leaseWas).getD (s.ctxRegs core ctx).leaseLen.toNat

/-- The end of a lease granted now (R212, R213): under a held operation never later than LEXP. -/
def State.leaseEnd (s : State) (core ctx : Nat) (leaf : Word) (pa : Nat) : Nat :=
  let full := s.tick.toNat + s.leaseLen core ctx
  if s.heldLine core leaf pa then min full (s.lexp pa (s.servingDie leaf (s.writeDie core pa) pa false)) else full

/-- A read of a sector for the L1 of `owner` (R212, R213): the data and its lease, which raises LEXP. It replaces the sector at once, and
an older fill that is on its way gets no lease (R234, R235). A store of the core that is on its way, or an acquire since the load was
sent, leaves the fill without a lease (R211, R214). -/
def State.startFill (s : State) (core ctx owner : Nat) (leaf : Word) (pa0 : Nat) (noLease : Bool) : State :=
  let pa := s.forwardPa pa0
  let die := s.servingDie leaf (s.writeDie core pa) pa false
  let t := s.leaseEnd core ctx leaf pa
  let stale := noLease || s.sys.reqs.any (fun r => r.accs.any (fun b => b.acc.op.writesMem && decide (b.pa / 32 = pa0 / 32) &&
    decide (r.info.owner r.core b.pa = owner)))
  let s := (s.l1Drop owner (pa0 / 32)).l2Touch pa die false
  let (id, s) := s.fresh
  let f : Fill := { id := id, core := owner, sector := pa0 / 32, data := s.bytes (pa / 32 * 32) 32,
                    expiry := if stale then 0 else t }
  let s := if stale then s else s.raiseLexp pa die t
  (s.setSys { s.sys with fills := s.sys.fills ++ [f] }).post (.l1Fill id)

/-- One access of a request performed at its slice: its value returns, or its lane fails. Says whether it succeeded. -/
def State.performAcc (s : State) (q : Req) (p : PAcc) : Bool × State :=
  let r := s.serve q.ctx 0 (s.writeDie q.core (s.forwardPa p.pa)) q.leaf p.pa p.acc
  match r.1 with
  | .fail c d => (false, if q.info.once || p.acc.op.returns then r.2.failAcc q.info p.acc c d
      else r.2.deferLanes q.info (q.info.lanesFor p.acc.lane) c d p.acc.va)
  | .done v =>
    let s := r.2
    let s := match p.acc.op.watchKind with
      | some k => s.watched q.info q.ctx (q.info.lanesFor p.acc.lane) k p.acc.va p.acc.size
      | none => s
    let s := if p.acc.op.returns then s.deliver q.info p.acc v else s
    (true, if p.acc.op = .load ∧ cacheable q.core q.leaf then s.startFill q.core q.ctx (q.info.owner q.core p.pa) q.leaf p.pa q.noLease else s)

/-- Takes performed accesses out of a request; one with none left is done. -/
def State.trimReq (s : State) (id : Nat) (l : List PAcc) : State :=
  s.setSys { s.sys with reqs := s.sys.reqs.filterMap (fun q =>
    if q.id = id then
      let left := q.accs.filter (fun a => !l.contains a)
      if left.isEmpty then none else some { q with accs := left }
    else some q) }

/-- The update that the stores of a line make on the replicated segment (R283): the words they touch. -/
def State.emitStores (s : State) (q : Req) (l : List PAcc) : State :=
  match l with
  | [] => s
  | p :: _ =>
    let d := s.issueDie q.core
    let base := s.repBase d
    let line := p.pa / 128 * 128 - base
    let m := l.foldl (fun m a => m ||| touchedWords line (a.pa - base) (a.pa - base + a.acc.size)) 0
    s.emit d q.info q.ctx (p.acc.va - BitVec.ofNat 64 (p.pa % 128)) line m

/-- The pieces of one lane of a word that are still on their way, with the page's leaf (R222). -/
def State.siblings (s : State) (tok lane : Nat) : List (Req × PAcc) :=
  s.sys.reqs.flatMap (fun r => if r.info.tok = tok then (r.accs.filter (fun a => decide (a.acc.lane = lane))).map (fun a => (r, a)) else [])

/-- A lane of a private access made of several pieces fails whole (R188): with the cause recorded of those that its pieces would
meet; none of them is performed. -/
def State.failSplit (s : State) (q : Req) (lane : Nat) : State :=
  let l := s.siblings q.info.tok lane
  let bad := l.filterMap (fun e => (s.refuses e.1.ctx 0 e.1.leaf e.2.pa e.2.acc).map (fun c => (c.1, c.2, e.2.acc.va)))
  match firstCause bad with
  | none => s
  | some (c, d, va) =>
    let m := q.info.lanesFor lane
    let s := s.setSys { s.sys with reqs := s.sys.reqs.filterMap (fun r =>
      if r.info.tok = q.info.tok then
        let left := r.accs.filter (fun a => decide (a.acc.lane ≠ lane))
        if left.isEmpty then none else some { r with accs := left }
      else some r) }
    let s := s.deferLanes q.info m c d va
    if l.any (fun e => e.2.acc.op.returns) then s.wordStep q.info.tok l.length (fun w => { w with failed := w.failed ||| m }) else s

/-- Performs accesses of a request in ascending order of lanes. -/
def State.performReq (s : State) (q : Req) (l : List PAcc) : State :=
  -- lanes of private accesses of several pieces stand or fall whole
  let s := if pteKind q.leaf = 0 ∧ 4 < q.info.sz then ((l.map (fun p => p.acc.lane)).dedup).foldl (fun s n => s.failSplit q n) s else s
  let there : List PAcc := match s.req? q.id with | some r => r.accs | none => []
  let l := l.filter (fun p => there.contains p)
  -- the request leaves the queue first, so that a load's own fill is not behind it
  let s := s.trimReq q.id l
  let s := match l with
    | p :: _ => if (s.req? q.id).isNone then s.countReq p.pa else s
    | [] => s
  let r := l.foldl (fun (r : List PAcc × State) p =>
    let o := r.2.performAcc q p
    (if o.1 then r.1 ++ [p] else r.1, o.2)) ([], s)
  if pteKind q.leaf = 3 then r.2.emitStores q (r.1.filter (fun p => decide (p.acc.op = .store))) else r.2

/-- A request that finds its page being moved, or others queued there, waits in order of arrival (R226). -/
def State.reqWaits (s : State) (q : Req) (pa : Nat) (again : Instr) : State :=
  let s := s.migQueue (.req q.id) pa
  if s.migBlocked pa then s.putReq { q with state := .blocked } else s.later again

/-- Whether a request reads a counter (R381). -/
def Req.readsCounter (q : Req) : Bool :=
  decide (pteKind q.leaf = 2) && q.accs.any (fun a => decide (a.acc.op.opClass ≠ .write) && isCounter a.pa)

/-- Begins a lag where a die has met its limit at a slice or at the Collator. -/
def State.askLag (s : State) (d : Nat) : State := if s.lagFull d && !(s.rep d).lagging then s.later (.lag d) else s

/-- A read or write reaches its serving slice (R223) and is performed there for some of its lanes; one that may not be performed
yet waits. Lanes that read a piece together read it in one access (R253). Stores to the replicated segment are performed a line at a time, the lines of a word in order (R283). -/
def execL2SliceRequest (req : Nat) (lanes : Mask) (s : State) : Host.Outcome State Fault Refusal :=
  match s.req? req with
  | none => .next s
  | some q =>
    let again : Instr := .l2SliceRequest req allLanes
    let rep := decide (pteKind q.leaf = 3)
    let line := match q.accs with | a :: _ => a.pa | [] => 0
    if q.accs.any (fun a => a.acc.op.isAtomic) || decide (q.state = .held ∨ q.state = .tickEnd) then .next s
    else if s.behindEarlier q || !s.released q.info then .next (s.later again)
    else if s.migWaits (.req req) line then .next (s.reqWaits q line again)
    else if rep && (s.lineStalls (s.issueDie q.core) (line / 128 * 128 - s.repBase (s.issueDie q.core)) ||
        (s.repHalted && q.accs.any (fun a => decide (a.acc.op = .store))) ||
        s.sys.reqs.any (fun r => decide (r.id < req ∧ r.info.tok = q.info.tok))) then .next (s.later again)
    -- a store that a replay has re-driven may meet the lag limit only here
    else if rep && q.accs.any (fun a => decide (a.acc.op = .store)) && s.lagFull (s.issueDie q.core) then
      .next ((s.askLag (s.issueDie q.core)).later again)
    else if q.readsCounter then .next (s.putReq { q with state := .tickEnd })
    else
      match s.recallReq q with
      | none => .next (s.recallLater q again)
      | some s =>
        if s.mustHold q then
          .next ((s.putReq { q with state := .held, tick := s.tick.toNat }).post (.strongHoldRelease req))
        else
          let store := q.accs.any (fun a => decide (a.acc.op = .store))
          let named (a : PAcc) : Bool := q.accs.any (fun b => lanes.getLsbD b.acc.lane && decide (b.pa / 16 = a.pa / 16))
          let l := q.accs.filter (fun a => named a || (rep && store))
          let s := s.performReq q l
          .next (if (s.req? req).isSome then s.later again else s)

/-- The order gate for the lanes of a request, one by one in their order (R397, R398): those that it admits, and from the first that it
holds those that wait. A lane that its slice refuses, or a register of the hub, is no logged operation. -/
def State.gateLanes (s : State) (o : LogOp) (q : Req) : List PAcc → List PAcc × List PAcc × State
  | [] => ([], [], s)
  | p :: t =>
    let logged := (match placeOf s.tagging (s.forwardPa p.pa) with | .hbm .. => true | _ => false) &&
      (s.refuses q.ctx 0 q.leaf p.pa p.acc).isNone
    match (if logged then s.gate { o with addr := p.acc.va } else .go s) with
    | .hold s => ([], p :: t, s)
    | .go s => let r := s.gateLanes o q t; (p :: r.1, r.2.1, r.2.2)

/-- An atomic or reduction request at its home: its sub-granule is recalled, then it is held, and its lanes are performed one after
another as the order gate admits them (R224, R253, R264, R398). -/
def State.atomReq (s : State) (q : Req) (again : Instr) : State :=
  match s.recallReq q with
  | none => s.recallLater q again
  | some s =>
    if s.mustHold q then
      if q.state = .held then s.later again
      else (s.putReq { q with state := .held, tick := s.tick.toNat }).post (.strongHoldRelease q.id)
    else
      match q.accs with
      | [] => s
      | p :: _ =>
        let o : LogOp := { info := q.info, ctx := q.ctx, unit := unitOf (s.forwardPa p.pa), id := q.id, addr := p.acc.va }
        let r := s.gateLanes o q q.accs
        let s := if r.1.isEmpty then r.2.2 else r.2.2.performReq q r.1
        if r.2.1.isEmpty then s else s.later again

/-- The lanes of an atomic or reduction that fall on one line are performed at its home slice; `lane` is one of them. -/
def execAtomicAtHome (req lane : Nat) (s : State) : Host.Outcome State Fault Refusal :=
  match s.req? req with
  | none => .next s
  | some q =>
    let again : Instr := .atomicAtHome req lane
    match q.accs with
    | [] => .next s
    | p :: _ =>
      if !p.acc.op.isAtomic || decide (q.state = .held ∨ q.state = .tickEnd) ||
          q.accs.all (fun a => decide (a.acc.lane ≠ lane)) then .next s
      else if s.behindEarlier q || !s.released q.info then .next (s.later again)
      else if s.migWaits (.req req) p.pa then .next (s.reqWaits q p.pa again)
      else if q.readsCounter then .next (s.putReq { q with state := .tickEnd })
      else .next (s.atomReq q again)

/-- The tick reaches LEXP, and a held strong store or atomic is performed (R213). -/
def execStrongHoldRelease (req : Nat) (s : State) : Host.Outcome State Fault Refusal :=
  match s.req? req with
  | none => .next s
  | some q =>
    let again : Instr := .strongHoldRelease req
    if q.state ≠ .held then .next s
    else if s.mustHold q || q.accs.any (fun a => s.migBlocked a.pa) then .next (s.later again)
    else if q.accs.any (fun a => a.acc.op.isAtomic) then .next (s.atomReq q again)
    else
      match s.recallReq q with
      | none => .next (s.recallLater q again)
      | some s => .next (if s.mustHold q then s.later again else s.performReq q q.accs)

/-- A sub-granule is recalled to its home (R225): `granule` is its number. -/
def execOwnershipRecall (die granule : Nat) (s : State) : Host.Outcome State Fault Refusal :=
  if s.quireHolds granule (granule + 1) then .next (s.later (.ownershipRecall die granule))
  else if granule * 4096 / 0x2000000000 = die then .next (s.recallSub granule)
  else .next s

/-- A fill is installed with its lease, or without one (R212, R214). -/
def execL1Fill (id : Nat) (s : State) : Host.Outcome State Fault Refusal :=
  match s.sys.fills.find? (fun f => decide (f.id = id)) with
  | none => .next s
  | some f =>
    let s := s.setSys { s.sys with fills := s.sys.fills.filter (fun k => decide (k.id ≠ id)) }
    if s.tick.toNat < f.expiry then
      .next (s.l1Put f.core f.sector { data := f.data, expiry := f.expiry })
    else .next s

/-- Leases of a line's sectors that have ended (R212): later loads miss. -/
def execLeaseExpiry (core line : Nat) (s : State) : Host.Outcome State Fault Refusal :=
  .next (s.updCore core (fun c => { c with l1 := c.l1.map (fun (e : Nat × Sector) =>
    if e.1 / 4 = line ∧ e.2.expiry ≤ s.tick.toNat then (e.1, { e.2 with expiry := 0 }) else e) }))

/-- Writes a machine-check record for a line (R219, R227): it has no layout in the specification, and holds the line's address and
the tick (log entry 31). -/
def State.machineCheck (s : State) (pa : Nat) : State :=
  s.setSys { s.sys with mchecks := s.sys.mchecks ++ [(pa / 128 * 128, s.tick.toNat)] }

/-- An uncorrectable error poisons a line of HBM and writes a machine-check record (R219). -/
def execHbmUncorrectableError (pa : Nat) (s : State) : Host.Outcome State Fault Refusal :=
  match placeOf s.tagging pa with
  | .hbm die _ => .next ((s.setSys { s.sys with poison := Tab.set false (lineKey pa die) true s.sys.poison }).machineCheck pa)
  | _ => .next s

/-! ### Migration (R226, R227, R367) -/

def migAddr (die : Nat) : Nat := hubBase + 0x52100 + 0x40 * die

/-- The command that a write of GO made (R367), with MSRC and MDST as they stood then: refused with ERR unless the state is idle, the size is assigned, both frames lie in HBM and are aligned,
and the source is homed on this die. The page's sub-granules are recalled and the page is blocked. -/
def execMigrationGo (die : Nat) (s : State) : Host.Outcome State Fault Refusal :=
  let go := Tab.get (s.reg (migAddr die), s.reg (migAddr die + 8)) die s.hub.goes
  let r := go.1
  let code := bits r 0 2
  let size := match code with | 0 => 2 ^ 14 | 1 => 2 ^ 16 | _ => 2 ^ 25
  let src := bits r 14 38 * 2 ^ 14
  let dst := bits go.2 14 38 * 2 ^ 14
  let inHbm (pa : Nat) : Bool := match placeOf s.tagging pa, placeOf s.tagging (pa + size - 1) with
    | .hbm _ _, .hbm _ _ => true
    | _, _ => false
  let ok := decide (code ≠ 3) && (Tab.find? die s.sys.migs).isNone && inHbm src && inHbm dst && decide (src % size = 0) &&
    decide (dst % size = 0) && decide (src / 0x2000000000 = die)
  let taken : State := s.setHub { s.hub with goes := Tab.del die s.hub.goes }
  if ok && s.quireHolds (src / 4096) ((src + size) / 4096) then .next (s.later (.migrationGo die))
  else if !ok then .next (taken.hwSet (migAddr die + 0x10) 8)
  else
    let s := taken
    let s := (s.sys.own.filter (fun o => decide (src / 0x10000 ≤ o.1 ∧ o.1 * 0x10000 < src + size))).foldl (fun s o =>
      (List.range 16).foldl (fun s k =>
        let pa := o.1 * 0x10000 + 4096 * k
        if src ≤ pa ∧ pa < src + size then s.recallSub (pa / 4096) else s) s) s
    let m : Migration := { src := src, dst := dst, size := size, copied := false, aborted := false, queue := [] }
    let s := s.setSys { s.sys with migs := Tab.put die m s.sys.migs }
    .next ((s.setReg (migAddr die + 0x10) (s.reg (migAddr die + 0x10) &&& ~~~4#64)).post (.migrationCopyEnd die))

/-- Moves the entries of a table of line state from one frame to another: what the new frame had is replaced, and of two entries
of a line the greater stands. -/
def moveLines {α : Type} [DecidableEq α] (d : α) (join : α → α → α) (src dst n : Nat) (t : Tab α) : Tab α :=
  let inside (base : Nat) (e : Nat × α) : Bool := decide (base / 128 ≤ e.1 / 16 ∧ e.1 / 16 < (base + n) / 128)
  (t.filter (inside src)).foldl (fun t e =>
    let k := (e.1 / 16 - src / 128 + dst / 128) * 16 + dst / 0x2000000000
    Tab.set d k (join e.2 (Tab.get d k t)) t) (t.filter (fun e => !inside dst e))

/-- The lines of a page that an L2 holds are those of the new frame in the L2 of its home, where sets make room (R206, R226). -/
def State.moveL2 (s : State) (src dst n : Nat) : State :=
  let inside (base : Nat) (e : Nat × Bool) : Bool := decide (base / 128 ≤ e.1 / 16 ∧ e.1 / 16 < (base + n) / 128)
  let moved := s.sys.l2.filter (inside src)
  moved.foldl (fun s e => s.l2Touch ((e.1 / 16 - src / 128) * 128 + dst) (dst / 0x2000000000) e.2)
    (s.setSys { s.sys with l2 := s.sys.l2.filter (fun e => !inside src e && !inside dst e) })

/-- A frame whose granules are in state HOME (R366): no sub-granule of it is granted. -/
def State.setHome (s : State) (base n : Nat) : State :=
  s.setSys { s.sys with own := s.sys.own.filterMap (fun (e : Nat × Own) =>
    let m := (List.range 16).foldl (fun (m : BitVec 16) k =>
      if base ≤ e.1 * 0x10000 + 4096 * k ∧ e.1 * 0x10000 + 4096 * k < base + n then m &&& ~~~(1#16 <<< k) else m) e.2.mask
    if m = 0 then none else some (e.1, { e.2 with mask := m })) }

/-- The migration copy ends (R226, R227): data, tags, poison and LEXP are at the new frame, whose granules are HOME; a machine-check
record names each poisoned line. The queued accesses go there in order; a destination that its access table denies aborts the
migration, and they go to the old one (R369). -/
def execMigrationCopyEnd (die : Nat) (s : State) : Host.Outcome State Fault Refusal :=
  match Tab.find? die s.sys.migs with
  | none => .next s
  | some m =>
    if m.copied || m.aborted then .next s
    else
      let ok := s.permitted 1 0 1 .write m.dst m.size none
      let pois := s.sys.poison.any (fun e => decide (m.src / 128 ≤ e.1 / 16 ∧ e.1 / 16 < (m.src + m.size) / 128))
      let s := if ok then
          let moved := s.mem.filter (fun c => decide (m.src ≤ c.1 ∧ c.1 < m.src + m.size))
          let old := s.mem.filter (fun c => decide (m.dst ≤ c.1 ∧ c.1 < m.dst + m.size))
          let s := old.foldl (fun s c => s.setByte c.1 0) s
          let s := moved.foldl (fun s c => s.setByte (c.1 - m.src + m.dst) c.2) s
          let s := if s.tagging then (List.range (m.size / 64)).foldl (fun s k =>
              s.setByte (tagPlace (m.dst + 64 * k)).1 (s.byte (tagPlace (m.src + 64 * k)).1)) s else s
          let s := s.setSys { s.sys with
            poison := moveLines false (fun a b => a || b) m.src m.dst m.size s.sys.poison,
            lexp := moveLines 0 max m.src m.dst m.size s.sys.lexp }
          let s := (s.moveL2 m.src m.dst m.size).setHome m.dst m.size
          let s := (s.sys.poison.filter (fun e => decide (m.dst / 128 ≤ e.1 / 16 ∧ e.1 / 16 < (m.dst + m.size) / 128))).foldl
            (fun s e => s.machineCheck (e.1 / 16 * 128)) s
          if pois then s.setReg (migAddr die + 0x10) (s.reg (migAddr die + 0x10) ||| 4) else s
        else s
      let s := s.setSys { s.sys with migs := Tab.put die { m with copied := ok, aborted := !ok } s.sys.migs }
      let queued := s.sys.reqs.filter (fun q => decide (q.state = .blocked))
      .next (queued.foldl (fun s q =>
        let s := s.putReq { q with state := .sent }
        match q.accs with
        | a :: _ => s.later (if a.acc.op.isAtomic then .atomicAtHome q.id a.acc.lane else .l2SliceRequest q.id allLanes)
        | [] => s) s)

/-- RETIRE ends the forwarding or clears the abort (R367). -/
def execMigrationRetire (die : Nat) (s : State) : Host.Outcome State Fault Refusal :=
  match Tab.find? die s.sys.migs with
  | none => .next s
  | some m => if m.copied || m.aborted then .next (s.setSys { s.sys with migs := Tab.del die s.sys.migs }) else .next s

/-! ### Page heat (R370) -/

/-- Adds to a saturating 32-bit counter in memory. -/
def State.addSat (s : State) (pa n : Nat) : State := s.store pa 4 (min 0xFFFFFFFF (s.load pa 4 + n))

/-- A die adds its counts to the tables of the home dies with heat enabled, and starts again from none. -/
def execHeatFlush (die : Nat) (s : State) : Host.Outcome State Fault Refusal :=
  let mine := s.sys.heat.filter (fun e => decide (e.1 % 32 / 2 = die))
  let s := s.setSys { s.sys with
    heat := s.sys.heat.filter (fun e => decide (e.1 % 32 / 2 ≠ die)),
    heatSeen := s.sys.heatSeen.filter (fun e => (s.unitCtx e.1).isSome) }
  .next (mine.foldl (fun s e =>
    let gran := e.1 / 32
    let home := gran * 65536 / 0x2000000000
    let cfg := s.reg (hubBase + 0x52000 + 8 * home)
    if !cfg.getLsbD 0 then s
    else
      let pa := s.forwardPa (bits cfg 12 40 * 4096 + 16 * (gran * 65536 % 0x2000000000 / 65536))
      if !s.permitted 0 0 5 .write pa 16 none then s
      else
        let s := s.addSat (pa + (if e.1 % 2 = 1 then 4 else 0)) e.2
        let s := if home ≠ die then s.addSat (pa + 8) e.2 else s
        s.store (pa + 12) 1 (s.load (pa + 12) 1 ||| 2 ^ die)) s)

/-! ### The walker and replay (R192, R194, R357, R365) -/

/-- A walk for a TLB miss (R357): the leaf is cached. A fault that no access waits for has no effect, for it is the access that
reports and parks. -/
def execPageWalk (die ctx : Nat) (va : Word) (s : State) : Host.Outcome State Fault Refusal :=
  let s := if die < 8 then s.count (0x340 + die) 0x4D 1 else s
  match s.walkCached die ctx (vaOf va) with
  | (.leaf e n, s) => .next (s.tlbPut { unit := 0x400 + die, ctx := ctx, vpage := vaOf va / 2 ^ n, logSize := n, leaf := e })
  | (_, s) => .next s

/-- How a word's parked access is to be made again. -/
def specOf (i : WordInfo) (a : Acc) : MemSpec :=
  { seg := match a.op with | .ldtag | .sttag | .cwb => none | _ => some i.seg,
    op := a.op, size := a.size, signed := i.signed, ord := i.ord, scope := i.scope, dst := i.dst }

/-- The lanes of a log, in order, each with its pieces. -/
def lanePieces (l : List Acc) : List (List Acc) :=
  ((l.map Acc.lane).dedup).map (fun n => l.filter (fun a => decide (a.lane = n)))

/-- Makes the pieces of a parked lane again (R194): what they come to together. -/
def State.redriveLane (s : State) (x : Group) (i : WordInfo) (l : List Acc) : LaneCheck × State :=
  l.foldl (fun r a => let q := r.2.probe x (specOf i a) a; (r.1.join q.1, q.2)) (.ok [], s)

/-- A parked lane fails at its replay (R194): a refused page gives PAGE_FAULT. -/
def State.redriveFail (s : State) (i : WordInfo) (l : List Acc) (c d : Nat) (addr : Word) : State :=
  match l with
  | [] => s
  | a :: _ =>
    let m := i.lanesFor a.lane
    let s := s.deferLanes i m c d addr
    if a.op.returns then s.wordStep i.tok l.length (fun w => { w with failed := w.failed ||| m }) else s

/-- Replays one log, lane by lane in ascending order (R194): lanes that fault again stay parked whole, which counts (R382), and
each page is reported once (R363); the others are sent together, a line at a time, as at issue. -/
def State.redriveLog (s : State) (x : Group) (l : OpLog) : List Acc × State :=
  let r := (lanePieces l.accs).foldl (fun (r : List Acc × List (Word × PageFault) × List (PAcc × Word) × State) p =>
    let q := r.2.2.2.redriveLane x l.info p
    match q.1 with
    | .park f _ => (r.1 ++ p, r.2.1 ++ f, r.2.2.1, q.2)
    | .fail c d addr => (r.1, r.2.1, r.2.2.1, q.2.redriveFail l.info p c d addr)
    | .ok a => (r.1, r.2.1, r.2.2.1 ++ a, q.2)) ([], [], [], s)
  match l.accs with
  | [] => (r.1, r.2.2.2)
  | a :: _ =>
    let s := (r.2.2.2.reportFaults x a.op.faultCode 0 r.2.1).count x.core 0x14 ((r.1.map Acc.lane).dedup.length)
    (r.1, if r.2.2.1.isEmpty then s else s.sendAll x l.info (specOf l.info a) r.2.2.1)

/-- Replays the logs of a group that were filled before tick `t`, in order, each behind what stays parked of the earlier ones
(R192); a log with nothing left is released. -/
def State.redriveGroup (s : State) (g : Nat) (t : Nat) : State :=
  ((s.grp g).mem.logs.foldl (fun (r : List OpLog × State) l =>
    if t ≤ l.tick then (r.1 ++ [l], r.2)
    else
      let x := r.2.grp g
      let q := r.2.redriveLog { x with mem := { x.mem with logs := r.1 } } l
      let left : List OpLog := if q.1.isEmpty then [] else [{ l with accs := q.1 }]
      let keep (m : List OpLog) : List OpLog := m.flatMap (fun k => if k.info.tok = l.info.tok then left else [k])
      (r.1 ++ left, q.2.updGrp g (fun x => { x with mem := { x.mem with logs := keep x.mem.logs } }))) ([], s)).2

/-- Replays the logs of groups that have ended. -/
def State.redriveOrphans (s : State) (die ctx t : Nat) : State :=
  let mine := s.sys.orphans.filter (fun o => decide (o.ctx = ctx ∧ s.issueDie o.core = die ∧ o.log.tick < t))
  let s := s.setSys { s.sys with orphans := s.sys.orphans.filter (fun o => !mine.contains o) }
  mine.foldl (fun s o =>
    let x : Group := { Group.empty with core := o.core, ctx := o.ctx, sup := o.sup }
    let r := s.redriveLog x o.log
    if r.1.isEmpty then r.2
    else r.2.setSys { r.2.sys with orphans := r.2.sys.orphans ++ [{ o with log := { o.log with accs := r.1 } }] }) s

end Sys2Proof.Machine
end

