-- ==== Sys2Proof/Machine/Memory.lean ====
section
/-!
DEFINITION. Machine/Memory.lean: loads, stores, local memory, atomics and reductions, waits on memory, and the cache and tag
words (R250 to R267, R271 to R275).
-/
namespace Sys2Proof

/-- The segment of an atomic's code (R263) and of a wait's (R266). -/
def Seg2.seg : Seg2 → Seg
  | .g => .g | .d => .d | .peer => .peer | .r => .r
def Seg3.seg : Seg3 → Seg
  | .g => .g | .d => .d | .r => .r

/-- The scope that FORD 1 to 3 names for a load (R256). -/
def fordScope (n : Fin 4) : Scope := match n.val with | 1 => .die | 2 => .package | _ => .system

end Sys2Proof

namespace Sys2Proof.Machine

/-! ### Addresses and data (R250, R251) -/

/-- SignExtend(OFF22). -/
def offWord (off : BitVec 22) : Word := off.signExtend 64

/-- Index(b) in a lane. -/
def State.index (s : State) (x : Group) (b : Operand) (xs : Bool) (l : Nat) : Word :=
  match b with
  | .v n => if xs then (x.vreg n l).signExtend 64 else (x.vreg n l).setWidth 64
  | b => s.rd x b l

/-- The data of a lane, from the registers of R251. -/
def State.laneData (s : State) (x : Group) (o : Operand) (sz l : Nat) : BitVec 128 :=
  match o with
  | .v n => (List.range ((sz + 3) / 4)).foldl (fun d k => d ||| ((x.vreg (n.val + k) l).setWidth 128 <<< (32 * k))) 0
  | .s n => if sz = 16 then (x.sreg n).setWidth 128 ||| ((x.sreg (n.val + 1)).setWidth 128 <<< 64) else (x.sreg n).setWidth 128
  | o => (s.rd x o l).setWidth 128

/-- The lanes in which a word's accesses are made: one stands for the group, where it executes once. -/
def accLanes (once : Bool) (lanes : Mask) : List Nat := if once then [0] else lanesOf lanes

/-- A memory word: executed per lane, or once for the group where it makes a single access (R252, R261). With no executing lane
it does nothing. -/
def memLanes (i : Instr) (h : Hdr) (once : Bool) (s : State) (k : State → Nat → Group → Mask → State × Ends) :
    Host.Outcome State Fault Refusal :=
  if once then uniWord i h s (fun s g x => if x.flow.mask = 0 then (s, .on) else k s g x x.flow.mask)
  else laneWord i h s (fun s g x e => if e = 0 then (s, .on) else k s g x e)

/-- Whether a word's peer requests fit the core's peer queue (R300), where no request is ready that goes ahead of them. A word of
more than 32 lines enters an empty queue, and the rest of its requests take places as places free (log entry 32). -/
def State.peerRoom (s : State) (core : Nat) (l : List Acc) : Bool :=
  let need := ((l.map (fun a => vaOf a.va / 128)).dedup).length
  decide (s.peerUsed core + min need 32 ≤ 32) && !s.peerReady core

/-- The lines that a word's accesses touch, each one update (R283) and one peer request (R300). -/
def linesOf (l : List Acc) : Nat := ((l.map (fun a => vaOf a.va / 128)).dedup).length

/-- What else holds a word back at issue: replicated stores under an event (R292), room in the peer queue (R300). -/
def State.segWaits (s : State) (x : Group) (sp : MemSpec) (l : List Acc) : Bool :=
  (decide (sp.seg = some .r) && sp.op.writesMem &&
    (s.repStalled (s.issueDie x.core) || s.lagLimitBy (s.issueDie x.core) (linesOf l))) ||
  (decide (sp.seg = some .peer) && decide (sp.ord ≠ .rel ∧ sp.ord ≠ .acqrel) && !s.peerRoom x.core l)

/-- Issues a memory word, or leaves it waiting. -/
def State.memIssue (s : State) (g : Nat) (x : Group) (once : Bool) (lanes : Mask) (sp : MemSpec) (l : List Acc) :
    State × Ends :=
  if s.lsWaits g x then (s, .wait)
  else if s.segWaits x sp l then
    let d := s.issueDie x.core
    -- a word whose updates would pass the lag limit begins a lag (R292)
    (if sp.seg = some .r ∧ s.lagLimitBy d (linesOf l) ∧ ¬ (s.rep d).lagging then
       (if s.lagLimit d then s.later (.lag d) else s.beginLag d (linesOf l)) else s, .wait)
  else (s.issueMem g x once lanes sp l, .on)

/-- A whole-lane access before its pieces. -/
def mkAcc (l : Nat) (va : Word) (op : AccOp) (size : Nat) (data : BitVec 128) (cmp : Word) : Acc :=
  { lane := l, off := 0, va := va, op := op, size := size, data := data, cmp := cmp, bmask := 0 }

/-! ### Loads and stores (R256 to R261) -/

/-- Order and scope of a load's and of a store's FORD. -/
def loadFord (f : Fin 4) : AccOrd × Scope := if f.val = 0 then (.weak, .group) else (.acq, fordScope f)
def storeFord (f : Fin 4) : AccOrd × Scope :=
  match f.val with
  | 0 => (.weak, .group)
  | 3 => (.sq, .package)
  | _ => (.rel, fordScope f)

/-- Order and scope of the indexed forms. -/
def memOrd (o : MOrd) (sc : Scope) (load : Bool) : AccOrd × Scope :=
  match o with
  | .weak => (.weak, .group)
  | .strong => (.strong, sc)
  | .sync => (if load then .acq else .rel, sc)
  | .sq => (.sq, .package)

def loadSpec (seg : Seg) (sz : Sz) (o : AccOrd × Scope) (d : Operand) : MemSpec :=
  { seg := some seg, op := .load, size := sz.bytes, signed := sz.signed, ord := o.1, scope := o.2, dst := d }

def storeSpec (seg : Seg) (sz : Sz) (o : AccOrd × Scope) : MemSpec :=
  { seg := some seg, op := .store, size := sz.bytes, signed := false, ord := o.1, scope := o.2, dst := .zero }

def execLd (h : Hdr) (f : FnMemF) (d a : Operand) (off : BitVec 22) (s : State) : Host.Outcome State Fault Refusal :=
  memLanes (.ld h f d a off) h h.uni s (fun s g x lanes =>
    s.memIssue g x h.uni lanes (loadSpec f.seg f.sz (loadFord f.ford) d)
      ((accLanes h.uni lanes).map (fun l => mkAcc l (s.rd x a l + offWord off) .load f.sz.bytes 0 0)))

def execLdIndexed (h : Hdr) (f : FnMemI) (d a b : Operand) (s : State) : Host.Outcome State Fault Refusal :=
  memLanes (.ldIndexed h f d a b) h h.uni s (fun s g x lanes =>
    s.memIssue g x h.uni lanes (loadSpec f.seg f.sz (memOrd f.ord f.scope true) d)
      ((accLanes h.uni lanes).map (fun l => mkAcc l (s.rd x a l + s.index x b f.xs l) .load f.sz.bytes 0 0)))

def execSt (h : Hdr) (f : FnMemF) (d a : Operand) (off : BitVec 22) (s : State) : Host.Outcome State Fault Refusal :=
  memLanes (.st h f d a off) h h.uni s (fun s g x lanes =>
    s.memIssue g x h.uni lanes (storeSpec f.seg f.sz (storeFord f.ford))
      ((accLanes h.uni lanes).map (fun l =>
        mkAcc l (s.rd x a l + offWord off) .store f.sz.bytes (s.laneData x d f.sz.bytes l) 0)))

def execStIndexed (h : Hdr) (f : FnMemI) (a b c : Operand) (s : State) : Host.Outcome State Fault Refusal :=
  memLanes (.stIndexed h f a b c) h h.uni s (fun s g x lanes =>
    s.memIssue g x h.uni lanes (storeSpec f.seg f.sz (memOrd f.ord f.scope false))
      ((accLanes h.uni lanes).map (fun l =>
        mkAcc l (s.rd x a l + s.index x b f.xs l) .store f.sz.bytes (s.laneData x c f.sz.bytes l) 0)))

/-- One load for the group, into a scalar or into every executing lane (R261). -/
def execLdu (h : Hdr) (f : FnMemF) (d a : Operand) (off : BitVec 22) (s : State) : Host.Outcome State Fault Refusal :=
  memLanes (.ldu h f d a off) h true s (fun s g x lanes =>
    s.memIssue g x true lanes (loadSpec f.seg f.sz (loadFord f.ford) d)
      [mkAcc 0 (s.rd x a 0 + offWord off) .load f.sz.bytes 0 0])

/-! ### Atomics and reductions (R263 to R265) -/

def atomOrd (o : AOrd) (sc : Scope) : AccOrd × Scope :=
  match o with
  | .weak => (.weak, .group) | .strong => (.strong, sc) | .acq => (.acq, sc) | .rel => (.rel, sc) | .acqrel => (.acqrel, sc)
  | .sq => (.sq, .package)

/-- An FM atomic is weak, except on the replicated segment (R263). -/
def atomFordF (g : Seg2) : AccOrd × Scope := if g = .r then (.sq, .package) else (.weak, .group)

/-- SEG2 3 is handled as `.sq`, whatever ORD says (R265). -/
def atomSpec (op : AOp) (ty : ITy) (g : Seg2) (o : AccOrd × Scope) (ret : Bool) (d : Operand) : MemSpec :=
  let o := if g = .r then (.sq, .package) else o
  { seg := some g.seg, op := .atomic op ty ret, size := ty.bits / 8, signed := ty.signed, ord := o.1, scope := o.2, dst := d }

def execAtom (h : Hdr) (f : FnAtF) (d a : Operand) (off : BitVec 22) (s : State) : Host.Outcome State Fault Refusal :=
  memLanes (.atom h f d a off) h h.uni s (fun s g x lanes =>
    let sp := atomSpec f.op f.ty f.seg (atomFordF f.seg) true d
    s.memIssue g x h.uni lanes sp ((accLanes h.uni lanes).map (fun l =>
      mkAcc l (s.rd x a l + offWord off) sp.op sp.size (s.laneData x d sp.size l) 0)))

def execAtomIndexed (h : Hdr) (f : FnAtI) (d a b c : Operand) (s : State) : Host.Outcome State Fault Refusal :=
  memLanes (.atomIndexed h f d a b c) h h.uni s (fun s g x lanes =>
    let sp := atomSpec f.op f.ty f.seg (atomOrd f.ord f.scope) true d
    s.memIssue g x h.uni lanes sp ((accLanes h.uni lanes).map (fun l =>
      mkAcc l (s.rd x a l + s.index x b false l) sp.op sp.size (s.laneData x c sp.size l)
        ((s.laneData x d sp.size l).setWidth 64))))

def execRed (h : Hdr) (f : FnAtF) (d a : Operand) (off : BitVec 22) (s : State) : Host.Outcome State Fault Refusal :=
  memLanes (.red h f d a off) h h.uni s (fun s g x lanes =>
    let sp := atomSpec f.op f.ty f.seg (atomFordF f.seg) false .zero
    s.memIssue g x h.uni lanes sp ((accLanes h.uni lanes).map (fun l =>
      mkAcc l (s.rd x a l + offWord off) sp.op sp.size (s.laneData x d sp.size l) 0)))

def execRedIndexed (h : Hdr) (f : FnAtI) (a b c : Operand) (s : State) : Host.Outcome State Fault Refusal :=
  memLanes (.redIndexed h f a b c) h h.uni s (fun s g x lanes =>
    let sp := atomSpec f.op f.ty f.seg (atomOrd f.ord f.scope) false .zero
    s.memIssue g x h.uni lanes sp ((accLanes h.uni lanes).map (fun l =>
      mkAcc l (s.rd x a l + s.index x b false l) sp.op sp.size (s.laneData x c sp.size l) 0)))

/-! ### Local memory (R208, R210, R262) -/

/-- The size of a share, rounded up to 4 KiB (R208). -/
def Team.share (t : Team) : Nat := (t.localSize + 4095) / 4096 * 4096

def Team.locLoad (t : Team) (o n : Nat) : Nat := numOfBytes ((List.range n).map (fun k => Tab.get 0 (o + k) t.loc))
def Team.locStore (t : Team) (o : Nat) (l : List Byte) : Team :=
  { t with loc := (l.zipIdx).foldl (fun m e => Tab.set 0 (o + e.2) e.1 m) t.loc }

/-- The team whose share a local access reaches: the group's own, or a member's of its cluster (R210). -/
def State.localTeam (s : State) (x : Group) (mem : Option (Fin 12)) : Option Nat :=
  match mem with
  | none => some x.team
  | some m => ((s.cluster (s.team x.team).cluster).teams)[m.val]?

/-- The failure of a local access, if it has one (R262). -/
def State.localFail (s : State) (t : Option Nat) (o : Word) (sz : Nat) : Option (Nat × Nat) :=
  if o.toNat % sz ≠ 0 then some (0x15, 2)
  else match t with
    | none => some (0x11, 6)
    | some t => if (s.team t).share < o.toNat + sz then some (0x11, 6) else none

/-- The extra bank cycles of local accesses, by lane and offset (R209): of each beat, the distinct rows beyond one in its busiest bank. -/
def localConflict (l : List (Nat × Nat)) : Nat :=
  ([0, 1, 2].map (fun b =>
    let rows := ((l.filter (fun e => decide (e.1 / 32 = b))).map (fun e => (e.2 / 16 % 32, e.2 / 512))).dedup
    (rows.map (fun r => (rows.filter (fun q => decide (q.1 = r.1))).length)).foldl max 1 - 1)).sum

/-- What a local word tells of itself to the operations it shares with other memory words. -/
def localInfo (s : State) (g : Nat) (x : Group) (once : Bool) (lanes : Mask) (tok sz : Nat) (signed : Bool) (d : Operand) :
    WordInfo :=
  { tok := tok, grp := g, team := x.team, grid := (s.team x.team).grid, pc := x.flow.pc, seq := x.mem.seq, seg := .g,
    ord := .weak, scope := .group, signed := signed, dst := d, sz := sz, once := once, lanes := lanes, path := .ls, engine := none,
    tick := s.tick.toNat, rr := s.rrOf x, fuse := s.fuseOf x.team }

/-- `ldl` in its executing lanes: the values are on their way to the destination, failing lanes are deferred. -/
def State.localLoad (s : State) (g : Nat) (x : Group) (once : Bool) (lanes : Mask) (f : FnLoc) (d : Operand)
    (ea : Nat → Word) : State × Ends :=
  if s.lsWaits g x then (s, .wait)
  else
    let t := s.localTeam x f.mem
    let (tok, s) := s.fresh
    let i := localInfo s g x once lanes tok f.sz.bytes f.sz.signed d
    let ls := accLanes once lanes
    let bad := ls.filterMap (fun l => (s.localFail t (ea l) f.sz.bytes).map (fun c => (l, c)))
    let failed := bad.foldl (fun m b => m ||| i.lanesFor b.1) 0
    let s := bad.foldl (fun s b => s.deferLanes i (i.lanesFor b.1) b.2.1 b.2.2 (ea b.1)) s
    let ok := ls.filter (fun l => (s.localFail t (ea l) f.sz.bytes).isNone)
    if ok.isEmpty then (s, .on)
    else
      let tm := s.team (t.getD x.team)
      let s := s.updGrp g (fun x =>
        { x with regs := i.dstRegs.foldl (fun r k => r.drain k tok) x.regs, mem := { x.mem with seq := x.mem.seq + 1 } })
      let s := s.count tm.core 0x10 (localConflict (ok.map (fun l => (l, (ea l).toNat))))
      let vals := ok.map (fun l => (l, BitVec.ofNat 128 (tm.locLoad (ea l).toNat f.sz.bytes)))
      (s.wordDone { info := i, left := 0, vals := vals, failed := failed, fault := none, acq := false }, .on)

/-- `stl` in its executing lanes, in ascending order: the highest lane's byte stands (R253). -/
def State.localStore (s : State) (g : Nat) (x : Group) (once : Bool) (lanes : Mask) (f : FnLoc) (src : Operand)
    (ea : Nat → Word) : State × Ends :=
  if s.lsWaits g x then (s, .wait)
  else
    let t := s.localTeam x f.mem
    let i := localInfo s g x once lanes 0 f.sz.bytes false .zero
    let ls := accLanes once lanes
    let n := f.sz.bytes
    let bad := ls.filterMap (fun l => (s.localFail t (ea l) n).map (fun c => (l, c)))
    let ok := ls.filter (fun l => (s.localFail t (ea l) n).isNone)
    let s := bad.foldl (fun s b => s.deferLanes i (i.lanesFor b.1) b.2.1 b.2.2 (ea b.1)) s
    let s := s.feedCrc g (ok.flatMap (fun l => (lanesOf (i.lanesFor l)).map (fun _ => (ea l, n, s.laneData x src n l))))
    let s := if ok.isEmpty then s
      else s.count (s.team (t.getD x.team)).core 0x10 (localConflict (ok.map (fun l => (l, (ea l).toNat))))
    (ok.foldl (fun s l => s.updTeam (t.getD x.team) (fun tm =>
      tm.locStore (ea l).toNat (bytesOfNum n (s.laneData x src n l).toNat))) s, .on)

def execLdl (h : Hdr) (f : FnLoc) (d a : Operand) (off : BitVec 22) (s : State) : Host.Outcome State Fault Refusal :=
  memLanes (.ldl h f d a off) h h.uni s (fun s g x lanes =>
    s.localLoad g x h.uni lanes f d (fun l => s.rd x a l + offWord off))

def execLdlIndexed (h : Hdr) (f : FnLoc) (d a b : Operand) (s : State) : Host.Outcome State Fault Refusal :=
  memLanes (.ldlIndexed h f d a b) h h.uni s (fun s g x lanes =>
    s.localLoad g x h.uni lanes f d (fun l => s.rd x a l + s.index x b f.xs l))

def execStl (h : Hdr) (f : FnLoc) (d a : Operand) (off : BitVec 22) (s : State) : Host.Outcome State Fault Refusal :=
  memLanes (.stl h f d a off) h h.uni s (fun s g x lanes =>
    s.localStore g x h.uni lanes f d (fun l => s.rd x a l + offWord off))

def execStlIndexed (h : Hdr) (f : FnLoc) (a b c : Operand) (s : State) : Host.Outcome State Fault Refusal :=
  memLanes (.stlIndexed h f a b c) h h.uni s (fun s g x lanes =>
    s.localStore g x h.uni lanes f c (fun l => s.rd x a l + s.index x b f.xs l))

/-! ### A single access at its slice, made by an event (R255, R267) -/

/-- What a single access comes to. `later`: an earlier access of the core to the place, or a lock, goes first. -/
inductive OneAccess where
  | done (v : BitVec 128) (pa : Nat)
  | later
  | park
  | fail (cause detail : Nat)
  deriving DecidableEq, Repr

/-- Translates, checks and performs one access for a group (R255). A page without a valid translation is reported. -/
def State.oneAccess (s : State) (g : Nat) (x : Group) (i : WordInfo) (kindOk : Nat → Option Nat) (a : Acc) :
    OneAccess × State :=
  if a.va.toNat % a.size ≠ 0 then (.fail 0x15 1, s)
  else if eaBad a.va then (.fail 0x12 2, s)
  else
    let va := vaOf a.va
    let r := s.translate x.core x.ctx va (decide (a.op.need ≠ .read))
    let s := r.2
    match s.resolve x.core x.ctx x.sup va a.op.need kindOk r.1 with
    | .fail c d => (.fail c d, s)
    | .park f => (.park, (s.faultReport x.core x.slot x.ctx va a.op.faultCode f 0).count x.core 0x14 1)
    | .ok pa leaf =>
      let d := s.issueDie x.core
      let home := s.forwardPa pa
      let owner := s.l1Owner x.core pa g
      -- what waits at the same moved page has its place in that page's queue
      let busy := s.sys.reqs.any (fun q => q.accs.any (fun b => decide (b.pa / 32 = pa / 32) &&
          decide (q.info.owner q.core b.pa = owner) && !s.migWaits (.req q.id) b.pa)) ||
        (decide (pteKind leaf = 3) && s.lineStalls d (pa / 128 * 128 - s.repBase d)) ||
        s.behindStrong g x.team s.nextId [{ acc := a, pa := pa }]
      if busy then (.later, s)
      else if s.migWaits (.group g) pa then (.later, s.migQueue (.group g) pa)
      else if !a.op.isAtomic && s.readsCounter x.ctx 0 leaf pa a then
        (match s.askCounter (g, x.team) pa with
         | (none, s) => (.later, s)
         | (some v, s) => (.done (v.setWidth 128) pa, (s.watched i x.ctx (i.lanesFor a.lane) .read a.va a.size).heatCount x.core false
             [(pa, leaf)]))
      else
        match (if a.op.isAtomic then s.recallFirst leaf (s.writeDie x.core home) home true else some s) with
        | none => (.later, s.noteRecall (s.writeDie x.core home) (.arrival g))
        | some s =>
          let q := s.serve x.ctx 0 (s.writeDie x.core home) leaf pa a
          let s := ((q.2.migLeave (.group g)).countReq pa).heatCount x.core a.op.isAtomic [(pa, leaf)]
          match q.1 with
          | .fail c d => (.fail c d, s)
          | .done v => (.done v pa, match a.op.watchKind with
            | some k => s.watched i x.ctx (i.lanesFor a.lane) k a.va a.size
            | none => s)

/-! ### Waiting on memory (R266, R267) -/

/-- The pages a wait reads (R221, R266). -/
def waitKind (seg : Seg) (kind : Nat) : Option Nat :=
  if kind = segKind seg ∨ (seg = .g ∧ kind = 5) then none else some 1

/-- One read of a suspended wait (R267): it completes where the compare or the deadline holds. -/
def State.waitvTry (s : State) (g : Nat) : State :=
  let x := s.grp g
  match x.sched.susp with
  | .waitv i va cc cmp dl acq none =>
    let a := mkAcc 0 va .load i.sz 0 0
    (match s.oneAccess g x i (waitKind i.seg) a with
     | (.later, s) => s
     | (.park, s) => s.suspend g (.waitv i va cc cmp dl acq (some s.tick.toNat))
     | (.fail c d, s) => (s.deferLanes i i.lanes c d va).wake g
     | (.done v _, s) =>
       let w : Word := BitVec.ofNat 64 (v.toNat % 2 ^ (8 * i.sz))
       let due := match dl with | some t => decide (t ≤ s.tick) | none => false
       if icmpHolds cc (decide (i.sz = 8)) w cmp || due then
         let s := s.updGrp g (fun x => x.writeLate i.dst w)
         let s := match acq with | some sc => s.acquire g sc | none => s
         s.wake g
       else s)
  | _ => s

/-- A `waitv`: the group is suspended, and the first read is made (R267). -/
def State.waitvIssue (s : State) (g : Nat) (x : Group) (seg : Seg) (w64 : Bool) (cc : Cond) (va cmp : Word)
    (dl : Option Word) (acq : Option Scope) (d : Operand) : State × Ends :=
  if x.flow.mask = 0 then (s, .run)
  else if s.lsWaits g x then (s, .wait)
  else
    let i := { localInfo s g x true x.flow.mask 0 (if w64 then 8 else 4) false d with seg := seg }
    let s := s.updGrp g (fun x => { x with mem := { x.mem with seq := x.mem.seq + 1 } })
    ((s.suspend g (.waitv i va cc cmp dl acq none)).waitvTry g, .run)

def execWaitv (h : Hdr) (f : FnWaitF) (d a : Operand) (off : BitVec 22) (s : State) : Host.Outcome State Fault Refusal :=
  uniWord (.waitv h f d a off) h s (fun s g x =>
    s.waitvIssue g x f.seg.seg f.w64 f.cc (s.rd x a 0 + offWord off) (s.rd x d 0) none
      (if f.acq.val = 0 then none else some (fordScope f.acq)) d)

def execWaitvDeadlineForm (h : Hdr) (f : FnWaitI) (d a b c : Operand) (s : State) : Host.Outcome State Fault Refusal :=
  uniWord (.waitvDeadlineForm h f d a b c) h s (fun s g x =>
    let t := s.rd x c 0
    s.waitvIssue g x f.seg.seg f.w64 f.cc (s.rd x a 0) (s.rd x b 0)
      (if c = .zero then none else some (if f.rel then s.tick + t else t)) f.acq d)

/-- A suspended wait reads its word again (R267). -/
def execWaitvRecheck (grp : Nat) (s : State) : Host.Outcome State Fault Refusal := .next (s.waitvTry grp)

/-! ### Cache and tag words (R271 to R273, R275) -/

/-- One lane of a prefetch (R271): a lane that any check would fail does nothing, nor one whose line may not be read now (R226,
R290). Answers the page it was translated to. -/
def State.prefetchLane (s : State) (g : Nat) (x : Group) (f : FnPre) (va : Word) : Option (Nat × Word) × State :=
  let v := vaOf va
  if eaBad va then (none, s)
  else
    let r := s.translate x.core x.ctx v false
    let s := r.2
    match s.resolve x.core x.ctx x.sup v .read (waitKind f.seg.seg) r.1 with
    | .ok pa leaf =>
      let a : Acc := { lane := 0, off := 0, va := va, op := .load, size := 1, data := 0, cmp := 0, bmask := 0 }
      let d := s.issueDie x.core
      let home := s.forwardPa pa
      let inHbm := match placeOf s.tagging home with | .hbm _ _ => true | _ => false
      let locked := decide (pteKind leaf = 3) && s.lineStalls d (pa / 128 * 128 - s.repBase d)
      let s' :=
        if !inHbm || (s.refuses x.ctx 0 leaf pa a).isSome || s.migWaits (.group g) pa || locked then s
        else if f.l2only then (s.countReq pa).l2Touch home (s.servingDie leaf (s.writeDie x.core home) home false) false
        else if cacheable x.core leaf then (s.countReq pa).startFill x.core x.ctx (s.l1Owner x.core pa g) leaf pa false
        else s
      (some (pa, leaf), s')
    | _ => (none, s)

/-- The lanes of a prefetch, in order. -/
def State.prefetchLanes (s : State) (g : Nat) (x : Group) (f : FnPre) (l : List Word) : State :=
  let r := l.foldl (fun (r : List (Nat × Word) × State) va =>
    let q := r.2.prefetchLane g x f va
    (r.1 ++ q.1.toList, q.2)) ([], s)
  r.2.heatCount x.core false r.1

def execPrefetch (h : Hdr) (f : FnPre) (a : Operand) (off : BitVec 22) (s : State) : Host.Outcome State Fault Refusal :=
  memLanes (.prefetch h f a off) h h.uni s (fun s g x lanes =>
    if s.lsWaits g x then (s, .wait)
    else (s.prefetchLanes g x f ((accLanes h.uni lanes).map (fun l => s.rd x a l + offWord off)), .on))

def execPrefetchIndexed (h : Hdr) (f : FnPre) (a b : Operand) (s : State) : Host.Outcome State Fault Refusal :=
  memLanes (.prefetchIndexed h f a b) h h.uni s (fun s g x lanes =>
    if s.lsWaits g x then (s, .wait)
    else (s.prefetchLanes g x f ((accLanes h.uni lanes).map (fun l => s.rd x a l + s.index x b f.xs l)), .on))

/-- Loads of a line that are still on their way through an L1 leave no lease there (R214, R270). -/
def State.dropFills (s : State) (core pa : Nat) : State :=
  s.setSys { s.sys with reqs := s.sys.reqs.map (fun q =>
    if q.accs.any (fun p => decide (p.acc.op = .load ∧ q.info.owner q.core p.pa = core ∧ p.pa / 128 = pa / 128))
    then { q with noLease := true } else q) }

/-- Drops the leases of one line, in the slice of a fused L1 that holds it (R272): the grant of the page is not asked for. A line
whose translation fails is left; an address with EA[63:61] set fails every lane (R250). -/
def execCinv (h : Hdr) (a : Operand) (off : BitVec 22) (s : State) : Host.Outcome State Fault Refusal :=
  uniWord (.cinv h a off) h s (fun s g x =>
    let va := s.rd x a 0 + offWord off
    if eaBad va then (s.updGrp g (fun y => y.deferLanes x.flow.mask 0x12 2 va x.flow.pc), .on)
    else
      let r := s.translate x.core x.ctx (vaOf va) false
      match r.1 with
      | .leaf e n =>
        (match r.2.leafPa x.core e (vaOf va) n with
         | .ok pa _ =>
           let core := r.2.l1Owner x.core pa g
           (((List.range 4).foldl (fun s k => s.l1Drop core (pa / 128 * 4 + k)) r.2).dropFills core pa, .on)
         | _ => (r.2, .on))
      | _ => (r.2, .on))

/-- Drops every lease of the core's L1, or of every member's slice of a fused one (R272). -/
def execCinvAll (h : Hdr) (s : State) : Host.Outcome State Fault Refusal :=
  uniWord (.cinvAll h) h s (fun s _ x =>
    let k := s.cluster (s.team x.team).cluster
    (if k.fused then (s.clusterCores x.team).foldl State.dropLeases s else s.dropLeases x.core, .on))

/-- The spec of a word that names no segment. -/
def plainSpec (op : AccOp) (sz : Nat) (d : Operand) : MemSpec :=
  { seg := none, op := op, size := sz, signed := false, ord := .weak, scope := .group, dst := d }

def execCwb (h : Hdr) (a : Operand) (off : BitVec 22) (s : State) : Host.Outcome State Fault Refusal :=
  memLanes (.cwb h a off) h true s (fun s g x lanes =>
    s.memIssue g x true lanes (plainSpec .cwb 1 .zero) [mkAcc 0 (s.rd x a 0 + offWord off) .cwb 1 0 0])

def execLdtag (h : Hdr) (d a : Operand) (off : BitVec 22) (s : State) : Host.Outcome State Fault Refusal :=
  memLanes (.ldtag h d a off) h h.uni s (fun s g x lanes =>
    s.memIssue g x h.uni lanes (plainSpec .ldtag 1 d)
      ((accLanes h.uni lanes).map (fun l => mkAcc l (s.rd x a l + offWord off) .ldtag 1 0 0)))

def execSttag (h : Hdr) (d a : Operand) (off : BitVec 22) (s : State) : Host.Outcome State Fault Refusal :=
  memLanes (.sttag h d a off) h h.uni s (fun s g x lanes =>
    s.memIssue g x h.uni lanes (plainSpec .sttag 1 .zero)
      ((accLanes h.uni lanes).map (fun l => mkAcc l (s.rd x a l + offWord off) .sttag 1 (s.laneData x d 1 l) 0)))

end Sys2Proof.Machine
end

