-- ==== Sys2Proof/Machine/Barrier.lean ====
section
/-!
DEFINITION. Machine/Barrier.lean: priorities and the three barriers (R132 to R136, R343, R345, R346).
-/
namespace Sys2Proof.Machine

/-! ### Priorities (R136, R343, R345) -/

/-- The priority of a group's queue, or of its context's control programs. -/
def State.basePrio (s : State) (x : Group) : Nat :=
  if isControl x.core then bits (s.reg (ctxEntry x.ctx)) 6 5
  else match s.hub.grids.find? (fun k => decide (k.id = (s.team x.team).grid)) with
    | some k => bits (s.qcfg k.record.queue) 1 5
    | none => 0

/-- The groups that wait at an `mbar` word. -/
def State.mbarAt (s : State) (pa : Nat) : List Nat :=
  (s.groups.filter (fun e => match e.2.sched.susp with
    | .mbar _ _ _ p _ true _ => decide (p = pa)
    | _ => false)).map Prod.fst

/-- Those of them whose generation is not complete (R345). -/
def State.mbarWaiters (s : State) (pa : Nat) : List Nat :=
  (s.mbarAt pa).filter (fun g => match (s.grp g).sched.susp with
    | .mbar _ _ _ _ gen true _ => decide (s.mbarGen pa = gen) && !s.hub.mbarGone.contains g
    | _ => false)

/-- The groups whose priority is a floor for group `g`: waiters at a barrier at which it is expected and has not arrived. -/
def State.floors (s : State) (g : Nat) : List Nat :=
  let x := s.grp g
  let tm := s.team x.team
  let at_ (b : Barrier) : List Nat := if b.arrived.contains g then [] else b.arrived
  tm.bars.flatMap (fun b => at_ b.2) ++ at_ (s.cluster tm.cluster).bar ++
    s.hub.mbars.flatMap (fun e => if e.2.prev.contains g && !e.2.now.contains g then s.mbarWaiters e.1 else [])

/-- STATUS.PRIO (R343): the greatest of the group's own priority and its floors; a waiter's own floors count. -/
def State.prio (s : State) : Nat → Nat → Nat
  | 0, g => s.basePrio (s.grp g)
  | n + 1, g => (s.floors g).foldl (fun p w => max p (State.prio s n w)) (s.basePrio (s.grp g))

def State.effPrio (s : State) (g : Nat) : Nat := s.prio s.groups.length g

/-! ### `bar` and `cbar` (R133, R134) -/

/-- The arrival of group `g` at team barrier `id`, which its release at team scope precedes; the first arrival of a generation
fixes the count. -/
def State.barArrive (s : State) (g id n : Nat) : State :=
  let x := s.grp g
  let s := s.suspend g (.bar id n true)
  let s := s.updTeam x.team (fun tm =>
    let b := Tab.get Barrier.reset id tm.bars
    let need := if b.arrived.isEmpty then (if n = 0 then tm.members.length else n) else b.need
    { tm with bars := Tab.set Barrier.reset id { b with arrived := b.arrived ++ [g], need := need } tm.bars })
  s.testBar x.team id

/-- The arrival of group `g` at its cluster's barrier. -/
def State.cbarArrive (s : State) (g : Nat) : State :=
  let c := (s.team (s.grp g).team).cluster
  let s := s.suspend g (.cbar true)
  let k := s.cluster c
  let need := if k.bar.arrived.isEmpty then (s.liveCluster c).length else k.bar.need
  let s := s.setCluster c { k with bar := { k.bar with arrived := k.bar.arrived ++ [g], need := need } }
  s.testCbar c

/-- The arrival of a group suspended at a barrier, once the accesses that its release orders are performed. -/
def State.tryArrive (s : State) (g : Nat) : State :=
  let x := s.grp g
  match x.sched.susp with
  | .bar id n false => if s.lsDone g x.team x.mem.seq .team false then s.barArrive g id n else s
  | .cbar false => if s.lsDone g x.team x.mem.seq .cluster false then s.cbarArrive g else s
  | _ => s

def execBar (h : Hdr) (id : Fin 16) (a : Operand) (s : State) : Host.Outcome State Fault Refusal :=
  uniWord (.bar h id a) h s (fun s g x =>
    let n := if a = .zero then 0 else ((s.rd x a 0).setWidth 32).toNat
    ((s.suspend g (.bar id.val n false)).tryArrive g, .run))

def execCbar (h : Hdr) (s : State) : Host.Outcome State Fault Refusal :=
  uniWord (.cbar h) h s (fun s g _ => ((s.suspend g (.cbar false)).tryArrive g, .run))

/-! ### `mbar` (R135, R345) -/

/-- The new barrier word of an arrival, and whether it completes the generation. -/
def mbarStep (old : Word) (n : Nat) : Word × Bool :=
  let arr := bits old 0 32
  let gen := bits old 32 32
  if n ≤ arr + 1 then (BitVec.ofNat 64 ((gen + 1) % 2 ^ 32 * 2 ^ 32), true)
  else (BitVec.ofNat 64 (gen * 2 ^ 32 + (arr + 1)), false)

/-- The inheritance table's entry after an arrival (R345): a generation that has changed makes this one's arrivals those of the
previous, of which 96 are kept. -/
def MbarEntry.arrive (e : MbarEntry) (gen : BitVec 32) (g : Nat) (last : Bool) (t : Nat) : MbarEntry :=
  let e := if e.gen = gen then e else { e with gen := gen, prev := e.now.take 96, now := [] }
  let now := e.now ++ [g]
  if last then { gen := gen + 1, prev := now.take 96, now := [], used := t } else { e with now := now, used := t }

/-- The entry of a barrier word that gives way to a new one of its die: the least recently used without waiters. -/
def State.mbarVictim (s : State) (die : Nat) : Option Nat :=
  let mine := s.hub.mbars.filter (fun e => decide (e.1 / 0x2000000000 = die) && (s.mbarWaiters e.1).isEmpty)
  (mine.foldl (fun (b : Option (Nat × MbarEntry)) e => match b with
    | some c => if e.2.used < c.2.used then some e else b
    | none => some e) none).map Prod.fst

/-- Records an arrival in the table of the word's home die: 256 entries. -/
def State.mbarNote (s : State) (pa : Nat) (gen : BitVec 32) (g : Nat) (last : Bool) : State :=
  let die := pa / 0x2000000000
  let t := s.tick.toNat
  let put (s : State) (e : MbarEntry) : State := s.setHub { s.hub with mbars := Tab.put pa (e.arrive gen g last t) s.hub.mbars }
  let new : MbarEntry := { gen := gen, prev := [], now := [], used := t }
  match Tab.find? pa s.hub.mbars with
  | some e => put s e
  | none =>
    if (s.hub.mbars.filter (fun e => decide (e.1 / 0x2000000000 = die))).length < 256 then put s new
    else match s.mbarVictim die with
      | some k => put (s.setHub { s.hub with mbars := Tab.del k s.hub.mbars }) new
      | none => s

/-- Leaving an `mbar` (R135): an acquire at its scope. -/
def State.mbarLeave (s : State) (g : Nat) (i : WordInfo) : State := (s.acquire g i.scope).wake g

/-- The page kinds of a barrier word: dielocal or shared. -/
def mbarKind (kind : Nat) : Option Nat := if kind = 1 ∨ kind = 2 then none else some 2

/-- The access of an arrival: an atomic that brings the new barrier word. -/
def mbarAcc (va new : Word) : Acc := mkAcc 0 va (.atomic .exch .u64 true) 8 (new.setWidth 128) 0

/-- The failure of an `mbar` that has issued (R135): as of an atomic, by lane; with no lane active the group takes it at its next
boundary, with no lane named (log entry 99). -/
def State.mbarFail (s : State) (g : Nat) (i : WordInfo) (c d : Nat) (va : Word) : State :=
  (if i.lanes = 0 then s.trapLater g { cause := c, pc := i.pc, addr := va, info := BitVec.ofNat 64 d, lanes := 0 }
   else s.deferLanes i i.lanes c d va).wake g

/-- The arrival of a group suspended at an `mbar` (R135): its release, then one weak atomic step at the home slice, for which a
granted sub-granule is recalled and which the order gate admits. -/
def State.mbarTry (s : State) (g : Nat) : State :=
  let x := s.grp g
  match x.sched.susp with
  | .mbar i va n pa0 gen0 false none =>
    if !s.lsDone g x.team i.seq i.scope false then s
    else
      let va' := vaOf va
      let peek := s.translate x.core x.ctx va' true
      let pa := match peek.2.resolve x.core x.ctx x.sup va' .atomic mbarKind peek.1 with
        | .ok pa _ => s.forwardPa pa
        | _ => 0
      let due := match peek.1 with
        | .leaf e _ => s.recallFirst e (s.writeDie x.core pa) pa true
        | _ => some s
      match due with
      | none => s.noteRecall (s.writeDie x.core pa) (.arrival g)
      | some s =>
      let old : Word := BitVec.ofNat 64 (s.load pa 8)
      let st := mbarStep old n
      match s.oneAccess g x i mbarKind (mbarAcc va st.1) with
      | (.later, s) => s
      | (.park, s) => s.suspend g (.mbar i va n pa0 gen0 false (some s.tick.toNat))
      | (.fail c d, s) => s.mbarFail g i c d va
      | (.done _ _, _) =>
        match s.gate { info := i, ctx := x.ctx, unit := unitOf pa, id := 0, addr := va } with
        | .hold s => s
        | .go s =>
          let gen : BitVec 32 := (old >>> 32).setWidth 32
          let s := ((s.oneAccess g x i mbarKind (mbarAcc va st.1)).2).mbarNote pa gen g st.2
          let s := s.setHub { s.hub with mbarGone := s.hub.mbarGone.filter (fun k => decide (k ≠ g)) }
          if st.2 then (s.mbarLeave g i).post (.mbarRelease pa) else s.suspend g (.mbar i va n pa gen true none)
  | _ => s

/-- A restored group that waits at an `mbar` translates its word afresh and goes on waiting there, with its arrival counted; a
missing translation parks the wait, and an access that is denied now fails as that of an `atom` does (R135). -/
def State.mbarRewait (s : State) (g : Nat) : State :=
  let x := s.grp g
  match x.sched.susp with
  | .mbar i va n pa0 gen true _ =>
    let r := s.translate x.core x.ctx (vaOf va) true
    (match r.2.resolve x.core x.ctx x.sup (vaOf va) .atomic mbarKind r.1 with
     | .park f => (r.2.faultReport x.core x.slot x.ctx (vaOf va) 2 f 0).suspend g (.mbar i va n pa0 gen true (some s.tick.toNat))
     | .fail c d => r.2.mbarFail g i c d va
     | .ok pa leaf =>
       match r.2.refuses x.ctx 0 leaf pa (mbarAcc va 0) with
       | some (c, d) => r.2.mbarFail g i c d va
       | none => (r.2.suspend g (.mbar i va n (s.forwardPa pa) gen true none)).post (.mbarRelease (s.forwardPa pa)))
  | _ => s

def execMbar (h : Hdr) (scope : Scope) (a b : Operand) (s : State) : Host.Outcome State Fault Refusal :=
  uniWord (.mbar h scope a b) h s (fun s g x =>
    let va := s.rd x a 0
    let n := max ((s.rd x b 0).setWidth 32).toNat 1
    if va.toNat % 8 ≠ 0 then (s.trapNow g 0x15 1 va, .done)
    else if s.lsWaits g x then (s, .wait)
    else
      -- the kind of the page, where it can be told before the arrival
      let r := s.translate x.core x.ctx (vaOf va) true
      let seg : Option Nat := match r.1 with
        | .leaf e n => if eaBad va || decide (grantOf e n x.sup .atomic ≠ .ok 0 e) then none
          else match mbarKind (pteKind e) with
            | some d => some d
            | none => match r.2.leafPa x.core e (vaOf va) n with
              | .fail 0x07 d => some d
              | _ => none
        | _ => none
      match seg with
      | some d => (r.2.trapNow g 0x07 (BitVec.ofNat 64 d) va, .done)
      | none =>
        let i := { localInfo s g x true x.flow.mask 0 8 false .zero with scope := scope }
        let s := s.updGrp g (fun x => { x with mem := { x.mem with seq := x.mem.seq + 1 } })
        ((s.suspend g (.mbar i va n 0 0 false none)).mbarTry g, .run))

/-- The waiters at a barrier word whose generation a write has replaced leave (R135, R137, R346). -/
def execMbarRelease (pa : Nat) (s : State) : Host.Outcome State Fault Refusal :=
  .next ((s.mbarAt pa).foldl (fun s g => match (s.grp g).sched.susp with
    | .mbar i _ _ _ gen true none =>
      if s.mbarGen pa = gen ∧ ¬ s.hub.mbarGone.contains g then s
      else
        let t := s.mbarLeave g i
        t.setHub { t.hub with mbarGone := t.hub.mbarGone.filter (fun k => decide (k ≠ g)) }
    | _ => s) s)

end Sys2Proof.Machine
end

