-- ==== Sys2Proof/Decode.lean ====
section
/-!
DEFINITION. Decode.lean: instruction words. `Raw` takes a full word's bits apart (R65, R68, R69), `parseRaw` gives each
opcode its instruction (R80) and refuses what R78 refuses on bits that the syntax drops; `encode` is its inverse, written
from the same tables.
-/
namespace Sys2Proof

/-! ### Bit fields -/

/-- The fields of a full word in the F3 layout; the other layouts read the same bits (R69). -/
structure Raw where
  bnd : Bool
  opc : BitVec 8
  gn : Bool
  gp : BitVec 3
  fe : BitVec 3
  uni : Bool
  d : BitVec 8
  a : BitVec 8
  b : BitVec 8
  c : BitVec 8
  fn : BitVec 14
  deriving DecidableEq, Repr

/-- Bits [63:0] of a full word as fields (R65, R68, R69). -/
def Raw.ofWord (w : Word) : Raw :=
  { bnd := w.getLsbD 63, opc := w.extractLsb' 54 8, gn := w.getLsbD 53, gp := w.extractLsb' 50 3,
    fe := w.extractLsb' 47 3, uni := w.getLsbD 46, d := w.extractLsb' 38 8, a := w.extractLsb' 30 8,
    b := w.extractLsb' 22 8, c := w.extractLsb' 14 8, fn := w.extractLsb' 0 14 }

/-- The word with these fields, P clear. -/
def Raw.toWord (r : Raw) : Word :=
  BitVec.ofBool r.bnd ++ 0#1 ++ r.opc ++ BitVec.ofBool r.gn ++ r.gp ++ r.fe ++ BitVec.ofBool r.uni ++ r.d ++ r.a ++ r.b
    ++ r.c ++ r.fn

/-- IMM22 and OFF22 (R69). -/
def Raw.imm22 (r : Raw) : BitVec 22 := r.c ++ r.fn
/-- OFF30 (R69). -/
def Raw.off30 (r : Raw) : BitVec 30 := r.b ++ r.c ++ r.fn
/-- FN8 and MOD8, in the low bits of a 14-bit function field. -/
def Raw.fn8 (r : Raw) : BitVec 14 := r.b.setWidth 14

/-- An 8-bit operand field (R66). -/
def Operand.ofBits (x : BitVec 8) : Operand :=
  let n := x.toNat
  if h : n < 128 then .v ⟨n, h⟩
  else if h : n - 128 < 64 then .s ⟨n - 128, h⟩
  else if h : n - 192 < 8 then .p ⟨n - 192, h⟩
  else if h : n - 200 < 16 then .a ⟨n - 200, h⟩
  else if h : n - 216 < 16 then .c ⟨n - 216, h⟩
  else if n - 232 < 8 then .spec (Special.all.getD (n - 232) .lane)
  else if h : n - 240 < 15 then .rsvd ⟨n - 240, h⟩
  else .zero

def Operand.toBits : Operand → BitVec 8
  | .v n => BitVec.ofNat 8 n.val
  | .s n => BitVec.ofNat 8 (128 + n.val)
  | .p n => BitVec.ofNat 8 (192 + n.val)
  | .a n => BitVec.ofNat 8 (200 + n.val)
  | .c n => BitVec.ofNat 8 (216 + n.val)
  | .spec x => BitVec.ofNat 8 (232 + codeOf Special.all x)
  | .rsvd n => BitVec.ofNat 8 (240 + n.val)
  | .zero => 0xFF#8

/-- A 7-bit operand field (R67). -/
def Reg7.ofBits (x : BitVec 7) : Reg7 :=
  if h : x.toNat < 64 then .v ⟨x.toNat, h⟩ else .s ⟨x.toNat - 64, by have := x.isLt; omega⟩

def Reg7.toBits : Reg7 → BitVec 7
  | .v n => BitVec.ofNat 7 n.val
  | .s n => BitVec.ofNat 7 (64 + n.val)

/-- The common fields of a full word (R68). -/
def Raw.hdr (r : Raw) : Hdr :=
  { bnd := r.bnd, gn := r.gn, gp := r.gp.toFin, feA := r.fe.getLsbD 2, feB := r.fe.getLsbD 1, feC := r.fe.getLsbD 0,
    uni := r.uni }

/-! ### Function fields: from bits, `none` where a value is unassigned; and to bits -/

def ITy.ofBits (x : BitVec 14) : ITy := ITy.all.getD (Sys2Proof.bits x 0 2) .u32
def ITy.toBits (t : ITy) : BitVec 14 := BitVec.ofNat 14 (codeOf ITy.all t)
def Cond.at (x : BitVec 14) (lo : Nat) : Cond := Cond.all.getD (bits x lo 3) .eq

/-- A bit placed at position `n` of a function field. -/
def bitAt (b : Bool) (n : Nat) : BitVec 14 := BitVec.ofNat 14 (if b then 2 ^ n else 0)
/-- A number placed at position `n` of a function field. -/
def numAt (k n : Nat) : BitVec 14 := BitVec.ofNat 14 (k * 2 ^ n)

def FnInt.ofBits (x : BitVec 14) : FnInt := ⟨ITy.ofBits x, x.getLsbD 2⟩
def FnInt.toBits (f : FnInt) : BitVec 14 := f.ty.toBits ||| bitAt f.sat 2

/-- CY: T is 0b00 or 0b10; CO 0 leaves CP reserved. -/
def FnCy.ofBits (x : BitVec 14) : Option FnCy :=
  match bits x 0 2 with
  | 0 => some ⟨false, if x.getLsbD 7 then some (x.extractLsb' 4 3).toFin else none⟩
  | 2 => some ⟨true, if x.getLsbD 7 then some (x.extractLsb' 4 3).toFin else none⟩
  | _ => none
def FnCy.toBits (f : FnCy) : BitVec 14 :=
  numAt (if f.wide then 2 else 0) 0 ||| (match f.co with | some p => numAt p.val 4 ||| bitAt true 7 | none => 0)
/-- The reserved bits of CY: with CO 0 also CP. -/
def FnCy.mask (x : BitVec 14) : BitVec 14 := if x.getLsbD 7 then x &&& 0x3F0C#14 else x &&& 0x3F7C#14

def FnSh.ofBits (x : BitVec 14) : FnSh := ⟨ITy.ofBits x, x.getLsbD 3⟩
def FnSh.toBits (f : FnSh) : BitVec 14 := f.ty.toBits ||| bitAt f.clamp 3

def FnLea.ofBits (x : BitVec 14) : FnLea := ⟨ITy.ofBits x, x.extractLsb' 2 4, x.extractLsb' 6 8⟩
def FnLea.toBits (f : FnLea) : BitVec 14 := f.ty.toBits ||| numAt f.sh.toNat 2 ||| numAt f.off.toNat 6

def Half.ofBits (x : BitVec 14) : Option Half :=
  match bits x 0 2 with
  | 1 => some .h1 | 2 => some .h2 | _ => none
def Half.toBits : Half → BitVec 14
  | .h1 => 1 | .h2 => 2

def FnCmp.ofBits (x : BitVec 14) : FnCmp := ⟨ITy.ofBits x, Cond.at x 2⟩
def FnCmp.toBits (f : FnCmp) : BitVec 14 := f.ty.toBits ||| numAt (codeOf Cond.all f.cc) 2

def FnPn.ofBits (x : BitVec 14) : FnPn := ⟨x.getLsbD 0, x.getLsbD 1⟩
def FnPn.toBits (f : FnPn) : BitVec 14 := bitAt f.na 0 ||| bitAt f.nb 1

def FnRed.ofBits (x : BitVec 14) : Option FnRed :=
  (RedOp.all[bits x 2 3]?).map (fun o => ⟨ITy.ofBits x, o, x.getLsbD 5⟩)
def FnRed.toBits (f : FnRed) : BitVec 14 := f.ty.toBits ||| numAt (codeOf RedOp.all f.op) 2 ||| bitAt f.sat 5

def FnScn.ofBits (x : BitVec 14) : Option FnScn :=
  if bits x 0 2 < 2 then (RedOp.all[bits x 2 3]?).map (fun o => ⟨x.getLsbD 0, o, x.getLsbD 5⟩) else none
def FnScn.toBits (f : FnScn) : BitVec 14 := bitAt f.signed 0 ||| numAt (codeOf RedOp.all f.op) 2 ||| bitAt f.excl 5

def FMod.at (x : BitVec 14) (lo : Nat) : FMod := ⟨x.getLsbD lo, x.getLsbD (lo + 1)⟩
def FMod.toBits (m : FMod) (lo : Nat) : BitVec 14 := bitAt m.abs lo ||| bitAt m.neg (lo + 1)

/-- FA with its RM field used (`rm`) or reserved (R141, R142). -/
def FnFa.ofBits (rm : Bool) (x : BitVec 14) : Option FnFa :=
  match (if rm then RMode.ofCode (bits x 0 3) else some .rne), FTy.all[bits x 3 2]? with
  | some m, some t => some ⟨m, t, x.getLsbD 5, .at x 6, .at x 8, .at x 10⟩
  | _, _ => none
def FnFa.toBits (f : FnFa) : BitVec 14 :=
  numAt f.rm.code 0 ||| numAt (codeOf FTy.all f.ft) 3 ||| bitAt f.sat 5 ||| f.ma.toBits 6 ||| f.mb.toBits 8 |||
    f.mc.toBits 10

def FnFc.ofBits (x : BitVec 14) : Option FnFc :=
  (FTy.all[bits x 3 2]?).map (fun t => ⟨.at x 0, t, .at x 6, .at x 8⟩)
def FnFc.toBits (f : FnFc) : BitVec 14 :=
  numAt (codeOf Cond.all f.cc) 0 ||| numAt (codeOf FTy.all f.ft) 3 ||| f.ma.toBits 6 ||| f.mb.toBits 8

def FTy.ofBits (x : BitVec 14) : Option FTy := FTy.all[bits x 3 2]?
def FTy.toBits (t : FTy) : BitVec 14 := numAt (codeOf FTy.all t) 3

def FnSf.ofBits (rm : Bool) (x : BitVec 14) : Option FnSf :=
  if bits x 3 2 = 0 then
    (if rm then RMode.ofCode (bits x 0 3) else some .rne).map (fun m => ⟨m, x.getLsbD 5, .at x 6⟩)
  else none
def FnSf.toBits (f : FnSf) : BitVec 14 := numAt f.rm.code 0 ||| bitAt f.sat 5 ||| f.ma.toBits 6

def FnCv.ofBits (x : BitVec 14) : Option FnCv :=
  (RMode.ofCode (bits x 7 3)).map
    (fun m => ⟨x.extractLsb' 0 6, x.getLsbD 6, m, x.getLsbD 10, x.extractLsb' 11 3⟩)
def FnCv.toBits (f : FnCv) : BitVec 14 :=
  numAt f.nf.toNat 0 ||| bitAt f.narrow 6 ||| numAt f.rm.code 7 ||| bitAt f.sat 10 ||| numAt f.pos.toNat 11

def FnQn.ofBits (x : BitVec 14) : Option FnQn :=
  (RMode.ofCode (bits x 7 3)).map (fun m => ⟨x.extractLsb' 0 6, m, x.getLsbD 10, x.extractLsb' 11 3⟩)
def FnQn.toBits (f : FnQn) (form : Bool) : BitVec 14 :=
  numAt f.ef.toNat 0 ||| bitAt form 6 ||| numAt f.rm.code 7 ||| bitAt f.half 10 ||| numAt f.pos.toNat 11

def Scope.at (x : BitVec 14) (lo : Nat) : Option Scope := Scope.all[bits x lo 3]?

def FnMemF.ofBits (x : BitVec 14) : Option FnMemF :=
  (Seg.all[bits x 0 3]?).map (fun s => ⟨s, Sz.all.getD (bits x 3 3) .u8, (x.extractLsb' 6 2).toFin⟩)
def FnMemF.toBits (f : FnMemF) : BitVec 14 :=
  numAt (codeOf Seg.all f.seg) 0 ||| numAt (codeOf Sz.all f.sz) 3 ||| numAt f.ford.val 6

def FnMemI.ofBits (x : BitVec 14) : Option FnMemI :=
  match Seg.all[bits x 0 3]?, Scope.at x 8 with
  | some s, some sc =>
    some ⟨s, Sz.all.getD (bits x 3 3) .u8, MOrd.all.getD (bits x 6 2) .weak, sc, x.getLsbD 11⟩
  | _, _ => none
def FnMemI.toBits (f : FnMemI) : BitVec 14 :=
  numAt (codeOf Seg.all f.seg) 0 ||| numAt (codeOf Sz.all f.sz) 3 ||| numAt (codeOf MOrd.all f.ord) 6 |||
    numAt (codeOf Scope.all f.scope) 8 ||| bitAt f.xs 11

def FnLoc.ofBits (x : BitVec 14) : Option FnLoc :=
  if h : bits x 4 4 < 12 then
    some ⟨Sz.all.getD (bits x 0 3) .u8, if x.getLsbD 3 then some ⟨bits x 4 4, h⟩ else none, x.getLsbD 8⟩
  else none
def FnLoc.toBits (f : FnLoc) : BitVec 14 :=
  numAt (codeOf Sz.all f.sz) 0 ||| (match f.mem with | some m => bitAt true 3 ||| numAt m.val 4 | none => 0) |||
    bitAt f.xs 8
/-- The reserved bits of `ldl` and `stl`: with REM 0 also MEMBER; `top` are those above. -/
def FnLoc.mask (x top : BitVec 14) : BitVec 14 := if x.getLsbD 3 then x &&& top else x &&& (top ||| 0xF0#14)

def FnAtF.ofBits (x : BitVec 14) : Option FnAtF :=
  (AOp.all[bits x 0 4]?).map (fun o => ⟨o, ITy.all.getD (bits x 4 2) .u32, Seg2.all.getD (bits x 6 2) .g⟩)
def FnAtF.toBits (f : FnAtF) : BitVec 14 :=
  numAt (codeOf AOp.all f.op) 0 ||| numAt (codeOf ITy.all f.ty) 4 ||| numAt (codeOf Seg2.all f.seg) 6

def FnAtI.ofBits (x : BitVec 14) : Option FnAtI :=
  match AOp.all[bits x 0 4]?, AOrd.all[bits x 6 3]?, Scope.at x 9 with
  | some o, some r, some sc =>
    some ⟨o, ITy.all.getD (bits x 4 2) .u32, r, sc, Seg2.all.getD (bits x 12 2) .g⟩
  | _, _, _ => none
def FnAtI.toBits (f : FnAtI) : BitVec 14 :=
  numAt (codeOf AOp.all f.op) 0 ||| numAt (codeOf ITy.all f.ty) 4 ||| numAt (codeOf AOrd.all f.ord) 6 |||
    numAt (codeOf Scope.all f.scope) 9 ||| numAt (codeOf Seg2.all f.seg) 12

def FnWaitF.ofBits (x : BitVec 14) : Option FnWaitF :=
  (Seg3.all[bits x 4 2]?).map (fun s => ⟨.at x 0, x.getLsbD 3, s, (x.extractLsb' 6 2).toFin⟩)
def FnWaitF.toBits (f : FnWaitF) : BitVec 14 :=
  numAt (codeOf Cond.all f.cc) 0 ||| bitAt f.w64 3 ||| numAt (codeOf Seg3.all f.seg) 4 ||| numAt f.acq.val 6

def FnWaitI.ofBits (x : BitVec 14) : Option FnWaitI :=
  match Seg3.all[bits x 4 2]?, Scope.at x 7 with
  | some s, some sc => some ⟨.at x 0, x.getLsbD 3, s, if x.getLsbD 6 then some sc else none, x.getLsbD 10⟩
  | _, _ => none
def FnWaitI.toBits (f : FnWaitI) : BitVec 14 :=
  numAt (codeOf Cond.all f.cc) 0 ||| bitAt f.w64 3 ||| numAt (codeOf Seg3.all f.seg) 4 |||
    (match f.acq with | some s => bitAt true 6 ||| numAt (codeOf Scope.all s) 7 | none => 0) ||| bitAt f.rel 10
def FnWaitI.mask (x : BitVec 14) : BitVec 14 := if x.getLsbD 6 then x &&& 0x3800#14 else x &&& 0x3B80#14

def FnPre.ofBits (x : BitVec 14) : Option FnPre :=
  match bits x 0 3 with
  | 1 => some ⟨.d, x.getLsbD 3, x.getLsbD 4⟩
  | 2 => some ⟨.g, x.getLsbD 3, x.getLsbD 4⟩
  | 3 => some ⟨.r, x.getLsbD 3, x.getLsbD 4⟩
  | _ => none
def FnPre.toBits (f : FnPre) : BitVec 14 :=
  numAt (match f.seg with | .d => 1 | .g => 2 | .r => 3) 0 ||| bitAt f.l2only 3 ||| bitAt f.xs 4

def SegG.ofCode : Nat → Option SegG
  | 1 => some .d | 2 => some .g | 3 => some .r | 5 => some .h | _ => none
def SegG.code : SegG → Nat
  | .d => 1 | .g => 2 | .r => 3 | .h => 5

def FnGthr.ofBits (x : BitVec 14) : Option FnGthr :=
  if h : bits x 0 3 < 6 then
    match SegG.ofCode (bits x 5 3), Scope.at x 8 with
    | some s, some sc => some ⟨⟨bits x 0 3, h⟩, x.getLsbD 3, x.getLsbD 4, s, sc⟩
    | _, _ => none
  else none
def FnGthr.toBits (f : FnGthr) : BitVec 14 :=
  numAt f.esz.val 0 ||| bitAt f.sc 3 ||| bitAt f.xs 4 ||| numAt f.seg.code 5 ||| numAt (codeOf Scope.all f.scope) 8

def FnMma.ofBits (x : BitVec 14) : FnMma := ⟨(x.extractLsb' 0 2).toFin, (x.extractLsb' 2 2).toFin, x.getLsbD 4⟩
def FnMma.toBits (f : FnMma) : BitVec 14 := numAt f.ms.val 0 ||| numAt f.ns.val 2 ||| bitAt f.clr 4

/-- RM of a matrix word: the unassigned codes, which check 4 refuses (R162), read as one. -/
def RMode.ofMatrix (n : Nat) : RMode := (RMode.ofCode n).getD .dyn

def FnAcvt.ofBits (x : BitVec 14) : FnAcvt :=
  ⟨(x.extractLsb' 0 4).toFin, x.getLsbD 4, RMode.ofMatrix (bits x 5 3), x.getLsbD 8, x.getLsbD 9⟩
def FnAcvt.toBits (f : FnAcvt) : BitVec 14 :=
  numAt f.cnt.val 0 ||| bitAt f.tf16 4 ||| numAt f.rm.code 5 ||| bitAt f.sat 8 ||| bitAt f.srci 9

def FnMpoly.ofBits (x : BitVec 14) : FnMpoly := ⟨(x.extractLsb' 0 2).toFin, (x.extractLsb' 2 4).toFin, x.getLsbD 6⟩
def FnMpoly.toBits (f : FnMpoly) : BitVec 14 := numAt f.sz.val 0 ||| numAt f.deg.val 2 ||| bitAt f.f16 6

def FnMiter.ofBits (x : BitVec 14) : FnMiter := ⟨x.getLsbD 0, x.getLsbD 1, x.getLsbD 2⟩
def FnMiter.toBits (f : FnMiter) : BitVec 14 := bitAt f.m128 0 ||| bitAt f.ns5 1 ||| bitAt f.f16 2

def FnMdrain.ofBits (x : BitVec 14) : FnMdrain :=
  ⟨(x.extractLsb' 0 2).toFin, (x.extractLsb' 2 2).toFin, x.getLsbD 4, x.getLsbD 5, RMode.ofMatrix (bits x 6 3), x.getLsbD 9,
    x.getLsbD 10⟩
def FnMdrain.toBits (f : FnMdrain) : BitVec 14 :=
  numAt f.ms.val 0 ||| numAt f.ns.val 2 ||| bitAt f.loc 4 ||| bitAt f.tloc 5 ||| numAt f.rm.code 6 ||| bitAt f.sat 9 |||
    bitAt f.srci 10

/-! ### From fields to an instruction -/

/-- Fields that must be zero (R70). -/
def rz (l : List (BitVec 8)) (m : BitVec 14) : Bool := l.all (fun x => decide (x = 0)) && decide (m = 0)

/-- Check 2, then check 3 of R78. -/
def fin (z : Bool) (i : Instr) : Except DTrap Instr :=
  if !i.fnAssigned then .error (.illegalOp 2) else if z then .ok i else .error (.illegalOp 3)

/-- An unassigned function value is check 2 of R78. -/
def opt {α : Type} (o : Option α) (k : α → Except DTrap Instr) : Except DTrap Instr :=
  match o with
  | none => .error (.illegalOp 2)
  | some x => k x

/-- A function field that must hold zero and reports code 2 (R100, R197). -/
def fn0 (x : BitVec 8) (k : Except DTrap Instr) : Except DTrap Instr :=
  if x = 0 then k else .error (.illegalOp 2)

/-- A full word that is neither bound nor reserved, by its opcode (R80). `ctl`: on a control core, where the matrix opcodes
are unassigned (R81). -/
def parseRaw (ctl : Bool) (w : Word) (r : Raw) : Except DTrap Instr :=
  let H := r.hdr
  let D := Operand.ofBits r.d
  let A := Operand.ofBits r.a
  let B := Operand.ofBits r.b
  let C := Operand.ofBits r.c
  let x := r.fn
  if ctl && decide (0xC0 ≤ r.opc.toNat ∧ r.opc.toNat < 0xD0) then .ok (.unassignedOpcode w) else
  match r.opc.toNat with
  | 0x00 => fin (rz [r.c] (x &&& 0x3FF8#14)) (.iadd H (FnInt.ofBits x) D A B)
  | 0x01 => fin (rz [] (r.fn8 &&& 0x3FF8#14)) (.iaddImm H (FnInt.ofBits r.fn8) D A r.imm22)
  | 0x02 => fin (rz [r.c] (x &&& 0x3FF8#14)) (.isub H (FnInt.ofBits x) D A B)
  | 0x03 => fin (rz [] (r.fn8 &&& 0x3FF8#14)) (.isubImm H (FnInt.ofBits r.fn8) D A r.imm22)
  | 0x04 => fin (rz [r.c] (x &&& 0x3FF8#14)) (.imul H (FnInt.ofBits x) D A B)
  | 0x05 => fin (rz [] (r.fn8 &&& 0x3FF8#14)) (.imulImm H (FnInt.ofBits r.fn8) D A r.imm22)
  | 0x06 => fin (rz [r.c] (x &&& 0x3FFC#14)) (.imulh H (ITy.ofBits x) D A B)
  | 0x07 => fin (rz [] (x &&& 0x3FF8#14)) (.imad H (FnInt.ofBits x) D A B C)
  | 0x08 => fin (rz [r.c] (x &&& 0x3FFC#14)) (.imin H (ITy.ofBits x) D A B)
  | 0x09 => fin (rz [] (r.fn8 &&& 0x3FFC#14)) (.iminImm H (ITy.ofBits r.fn8) D A r.imm22)
  | 0x0A => fin (rz [r.c] (x &&& 0x3FFC#14)) (.imax H (ITy.ofBits x) D A B)
  | 0x0B => fin (rz [] (r.fn8 &&& 0x3FFC#14)) (.imaxImm H (ITy.ofBits r.fn8) D A r.imm22)
  | 0x0C => opt (if x.getLsbD 0 then some () else none) fun _ => fin (rz [r.b, r.c] (x &&& 0x3FF8#14)) (.iabs H (x.getLsbD 1) (x.getLsbD 2) D A)
  | 0x0D => opt (if x.getLsbD 0 then some () else none) fun _ => fin (rz [r.b, r.c] (x &&& 0x3FF8#14)) (.ineg H (x.getLsbD 1) (x.getLsbD 2) D A)
  | 0x0E => opt (FnCy.ofBits x) fun f => fin (rz [] (FnCy.mask x)) (.iaddc H f D A B C)
  | 0x0F => opt (FnCy.ofBits x) fun f => fin (rz [] (FnCy.mask x)) (.isubb H f D A B C)
  | 0x10 => fin (rz [r.c] (x &&& 0x3FF4#14)) (.shl H (FnSh.ofBits x) D A B)
  | 0x11 => fin (rz [] (r.fn8 &&& 0x3FF4#14)) (.shlImm H (FnSh.ofBits r.fn8) D A r.imm22)
  | 0x12 => fin (rz [r.c] (x &&& 0x3FF4#14)) (.shr H (FnSh.ofBits x) D A B)
  | 0x13 => fin (rz [] (r.fn8 &&& 0x3FF4#14)) (.shrImm H (FnSh.ofBits r.fn8) D A r.imm22)
  | 0x14 => fin (rz [r.c] (x &&& 0x3FF4#14)) (.sar H (FnSh.ofBits x) D A B)
  | 0x15 => fin (rz [] (r.fn8 &&& 0x3FF4#14)) (.sarImm H (FnSh.ofBits r.fn8) D A r.imm22)
  | 0x16 => fin (rz [r.c] (x &&& 0x3FFC#14)) (.rot H (ITy.ofBits x) D A B)
  | 0x17 => fin (rz [] (r.fn8 &&& 0x3FFC#14)) (.rotImm H (ITy.ofBits r.fn8) D A r.imm22)
  | 0x18 => fin (rz [r.c] (x &&& 0x3FFC#14)) (.and H (ITy.ofBits x) D A B)
  | 0x19 => fin (rz [] (r.fn8 &&& 0x3FFC#14)) (.andImm H (ITy.ofBits r.fn8) D A r.imm22)
  | 0x1A => fin (rz [r.c] (x &&& 0x3FFC#14)) (.or H (ITy.ofBits x) D A B)
  | 0x1B => fin (rz [] (r.fn8 &&& 0x3FFC#14)) (.orImm H (ITy.ofBits r.fn8) D A r.imm22)
  | 0x1C => fin (rz [r.c] (x &&& 0x3FFC#14)) (.xor H (ITy.ofBits x) D A B)
  | 0x1D => fin (rz [] (r.fn8 &&& 0x3FFC#14)) (.xorImm H (ITy.ofBits r.fn8) D A r.imm22)
  | 0x1E => fin (rz [r.c] (x &&& 0x3FFC#14)) (.andn H (ITy.ofBits x) D A B)
  | 0x1F => fin (rz [r.b, r.c] (x &&& 0x3FFC#14)) (.not H (ITy.ofBits x) D A)
  | 0x20 => fin (rz [r.c] (0#14)) (.lea H (FnLea.ofBits x) D A B)
  | 0x21 => fin (rz [r.a] (r.fn8 &&& 0x3FFC#14)) (.movi H (ITy.ofBits r.fn8) D r.imm22)
  | 0x22 => opt (Half.ofBits r.fn8) fun f => fin (rz [] (r.fn8 &&& 0x3FFC#14)) (.movhi H f D A r.imm22)
  | 0x23 => fin (rz [r.b, r.c] (x)) (.mov H D A)
  | 0x24 => fin (rz [] (x)) (.sel H D A B C)
  | 0x25 => fin (rz [r.c] (x &&& 0x3FE0#14)) (.icmp H (FnCmp.ofBits x) D A B)
  | 0x26 => fin (rz [] (r.fn8 &&& 0x3FE0#14)) (.icmpImm H (FnCmp.ofBits r.fn8) D A r.imm22)
  | 0x28 => fin (rz [r.b, r.c] (x &&& 0x3FFC#14)) (.popc H (ITy.ofBits x) D A)
  | 0x29 => fin (rz [r.b, r.c] (x &&& 0x3FFC#14)) (.clz H (ITy.ofBits x) D A)
  | 0x2A => fin (rz [r.b, r.c] (x &&& 0x3FFC#14)) (.ctz H (ITy.ofBits x) D A)
  | 0x2B => fin (rz [r.b, r.c] (x &&& 0x3FFC#14)) (.brev H (ITy.ofBits x) D A)
  | 0x2C => fin (rz [r.b] (x &&& 0x3FFC#14)) (.bfx H (ITy.ofBits x) D A C)
  | 0x2D => fin (rz [] (x &&& 0x3FFC#14)) (.bfi H (ITy.ofBits x) D A B C)
  | 0x2E => fin (rz [] (x)) (.permb H D A B C)
  | 0x2F => fin (rz [] (r.fn8)) (.permbImm H D A r.imm22)
  | 0x30 => fin (rz [r.c] (x &&& 0x3FFC#14)) (.pand H (FnPn.ofBits x) D A B)
  | 0x31 => fin (rz [r.c] (x &&& 0x3FFC#14)) (.por H (FnPn.ofBits x) D A B)
  | 0x32 => fin (rz [r.c] (x &&& 0x3FFC#14)) (.pxor H (FnPn.ofBits x) D A B)
  | 0x33 => fin (rz [r.b, r.c] (x)) (.pnot H D A)
  | 0x34 => opt (if h : bits x 0 2 < 3 then some (⟨bits x 0 2, h⟩ : Fin 3) else none) fun f => fin (rz [r.b, r.c] (x &&& 0x3FFC#14)) (.pmov H f D A)
  | 0x38 => fin (rz [r.c] (x &&& 0x3FFC#14)) (.shfl H (ShflMode.all.getD (bits x 0 2) .idx) D A B)
  | 0x39 => fin (rz [r.c] (x)) (.bcast H D A B)
  | 0x3A => opt (VoteMode.codes[bits x 0 2]?) fun f => fin (rz [r.b, r.c] (x &&& 0x3FFC#14)) (.vote H f D A)
  | 0x3B => opt (FnRed.ofBits x) fun f => fin (rz [r.b, r.c] (x &&& 0x3FC0#14)) (.redux H f D A)
  | 0x3C => opt (FnScn.ofBits x) fun f => fin (rz [r.b, r.c] (x &&& 0x3FC0#14)) (.scan H f D A)
  | 0x40 => opt (FnFa.ofBits true x) fun f => fin (rz [r.c] (x &&& 0x3000#14)) (.fadd H f D A B)
  | 0x41 => opt (FnFa.ofBits true x) fun f => fin (rz [r.c] (x &&& 0x3000#14)) (.fsub H f D A B)
  | 0x42 => opt (FnFa.ofBits true x) fun f => fin (rz [r.c] (x &&& 0x3000#14)) (.fmul H f D A B)
  | 0x43 => opt (FnFa.ofBits true x) fun f => fin (rz [] (x &&& 0x3000#14)) (.ffma H f D A B C)
  | 0x44 => opt (FnFa.ofBits false x) fun f => fin (rz [r.c] (x &&& 0x3007#14)) (.fmin H f D A B)
  | 0x45 => opt (FnFa.ofBits false x) fun f => fin (rz [r.c] (x &&& 0x3007#14)) (.fmax H f D A B)
  | 0x46 => opt (FnFc.ofBits x) fun f => fin (rz [r.c] (x &&& 0x3C20#14)) (.fcmp H f D A B)
  | 0x47 => opt (FTy.ofBits x) fun f => fin (rz [r.b, r.c] (x &&& 0x3FE7#14)) (.fclass H f D A)
  | 0x48 => opt (FnFa.ofBits true x) fun f => fin (rz [r.b, r.c] (x &&& 0x3000#14)) (.frnd H f D A)
  | 0x49 => opt (FnFa.ofBits true x) fun f => fin (rz [r.c] (x &&& 0x3000#14)) (.fscaleb H f D A B)
  | 0x4A => opt (FnFa.ofBits false x) fun f => fin (rz [] (x &&& 0x3007#14)) (.fsel H f D A B C)
  | 0x50 => opt (FnSf.ofBits false x) fun f => fin (rz [r.b, r.c] (x &&& 0x3F1F#14)) (.frcp H f D A)
  | 0x51 => opt (FnSf.ofBits false x) fun f => fin (rz [r.b, r.c] (x &&& 0x3F1F#14)) (.frsq H f D A)
  | 0x52 => opt (FnSf.ofBits true x) fun f => fin (rz [r.b, r.c] (x &&& 0x3F18#14)) (.fsqrt H f D A)
  | 0x53 => opt (FnSf.ofBits false x) fun f => fin (rz [r.b, r.c] (x &&& 0x3F1F#14)) (.fexp2 H f D A)
  | 0x54 => opt (FnSf.ofBits false x) fun f => fin (rz [r.b, r.c] (x &&& 0x3F1F#14)) (.flog2 H f D A)
  | 0x55 => opt (FnSf.ofBits false x) fun f => fin (rz [r.b, r.c] (x &&& 0x3F1F#14)) (.fsin H f D A)
  | 0x56 => opt (FnSf.ofBits false x) fun f => fin (rz [r.b, r.c] (x &&& 0x3F1F#14)) (.fcos H f D A)
  | 0x57 => opt (FnSf.ofBits false x) fun f => fin (rz [r.b, r.c] (x &&& 0x3F1F#14)) (.ftanh H f D A)
  | 0x58 => opt (FnCv.ofBits x) fun f => fin (rz (if f.narrow && decide (f.nf.toNat ≠ 3) then [r.c] else [r.b, r.c]) 0)
    (.cvt H f D A (if f.narrow && decide (f.nf.toNat ≠ 3) then B else .v 0))
  | 0x59 => if x.getLsbD 6 then opt (FnQn.ofBits x) fun f => fin true (.qntElem H f D A B C)
    else fin (rz [r.b, r.c] (x &&& 0x3B80#14)) (.qntScale H (x.extractLsb' 0 6) (x.getLsbD 10) D A)
  | 0x5A => opt (FnQn.ofBits x) fun f => fin (rz [r.b] (x &&& 0x40#14)) (.dqnt H f D A C)
  | 0x60 => fin (rz [r.d, r.a] 0) (if r.uni then .brau H r.off30 else .bra H r.off30)
  | 0x61 => fin (rz [r.a] (0)) (.call H D r.off30)
  | 0x62 => fin (rz [r.b, r.c] (x)) (.callReg H D A)
  | 0x63 => fin (rz [r.d, r.b, r.c] (x)) (.ret H A)
  | 0x64 => fin (rz [r.d, r.a] (0)) (.jmark H r.off30)
  | 0x65 => fin (rz [r.d, r.a, r.b, r.c] (x)) (.join H)
  | 0x66 => fin (rz [r.d, r.a] (0)) (.brk H r.off30)
  | 0x68 => fin (rz [r.d, r.a, r.b, r.c] (x)) (.yield H)
  | 0x69 => fin (rz [r.d, r.a, r.b, r.c] (x)) (.exit H)
  | 0x6A => fin (rz [r.d, r.a, r.b, r.c] (x)) (.nop H)
  | 0x6B => fin (rz [r.d, r.b, r.c] (x &&& 0x3FFE#14)) (.sleep H (x.getLsbD 0) A)
  | 0x6C => fin (rz [r.d, r.b, r.c] (x &&& 0x3FF0#14)) (.bar H (x.extractLsb' 0 4).toFin A)
  | 0x6D => fin (rz [r.d, r.a, r.b, r.c] (x)) (.cbar H)
  | 0x6E => opt (Scope.at x 0) fun f => fin (rz [r.d, r.c] (x &&& 0x3FF8#14)) (.mbar H f A B)
  | 0x80 => opt (FnMemF.ofBits r.fn8) fun f => fin (rz [] (0#14)) (.ld H f D A r.imm22)
  | 0x81 => opt (FnMemI.ofBits x) fun f => fin (rz [r.c] (x &&& 0x3000#14)) (.ldIndexed H f D A B)
  | 0x82 => opt (FnMemF.ofBits r.fn8) fun f => fin (rz [] (0#14)) (.st H f D A r.imm22)
  | 0x83 => opt (FnMemI.ofBits x) fun f => fin (rz [r.d] (x &&& 0x3000#14)) (.stIndexed H f A B C)
  | 0x84 => opt (FnLoc.ofBits r.fn8) fun f => fin (rz [] (FnLoc.mask r.fn8 0#14)) (.ldl H f D A r.imm22)
  | 0x85 => opt (FnLoc.ofBits x) fun f => fin (rz [r.c] (FnLoc.mask x 0x3E00#14)) (.ldlIndexed H f D A B)
  | 0x86 => opt (FnLoc.ofBits r.fn8) fun f => fin (rz [] (FnLoc.mask r.fn8 0#14)) (.stl H f D A r.imm22)
  | 0x87 => opt (FnLoc.ofBits x) fun f => fin (rz [r.d] (FnLoc.mask x 0x3E00#14)) (.stlIndexed H f A B C)
  | 0x88 => opt (FnMemF.ofBits r.fn8) fun f => fin (rz [] (0#14)) (.ldu H f D A r.imm22)
  | 0x89 => opt (FnAtF.ofBits r.fn8) fun f => fin (rz [] (0#14)) (.atom H f D A r.imm22)
  | 0x8A => opt (FnAtI.ofBits x) fun f => fin (rz [] (0#14)) (.atomIndexed H f D A B C)
  | 0x8B => opt (FnAtF.ofBits r.fn8) fun f => fin (rz [] (0#14)) (.red H f D A r.imm22)
  | 0x8C => opt (FnAtI.ofBits x) fun f => fin (rz [r.d] (0#14)) (.redIndexed H f A B C)
  | 0x8D => opt (FnWaitF.ofBits r.fn8) fun f => fin (rz [] (0#14)) (.waitv H f D A r.imm22)
  | 0x8E => opt (FnWaitI.ofBits x) fun f => fin (rz [] (FnWaitI.mask x)) (.waitvDeadlineForm H f D A B C)
  | 0x90 => opt (Scope.at x 0) fun f => fin (rz [r.d, r.a, r.b, r.c] (x &&& 0x3FF8#14)) (.fence H f)
  | 0x91 => opt (Scope.at x 0) fun s => fin (rz [r.d, r.a, r.b, r.c] (x &&& 0x2000#14)) (.fencex H s (x.extractLsb' 3 5) (x.extractLsb' 8 5))
  | 0x92 => opt (FnPre.ofBits r.fn8) fun f => fin (rz [r.d] (r.fn8 &&& 0x3FF0#14)) (.prefetch H f A r.imm22)
  | 0x93 => opt (FnPre.ofBits x) fun f => fin (rz [r.d, r.c] (x &&& 0x3FE0#14)) (.prefetchIndexed H f A B)
  | 0x94 => if r.fn8.getLsbD 0 then fin (rz [r.d] (r.fn8 &&& 0x3FFE#14) && decide (r.a = 0xFF#8) && decide (r.imm22 = 0)) (.cinvAll H)
    else fin (rz [r.d] (r.fn8 &&& 0x3FFE#14)) (.cinv H A r.imm22)
  | 0x95 => fin (rz [r.d] (r.fn8)) (.cwb H A r.imm22)
  | 0x96 => fin (rz [] (r.fn8)) (.ldtag H D A r.imm22)
  | 0x97 => fin (rz [] (r.fn8)) (.sttag H D A r.imm22)
  | 0xA0 => fin (rz [r.b, r.c] (x)) (.cpy H D A)
  | 0xA1 => fin (rz [r.d] (0)) (.cpyw H A r.off30)
  | 0xA2 => opt (FnGthr.ofBits x) fun f => fin (rz [] (x &&& 0x3800#14)) (.gthr H f D A B C)
  | 0xA3 => fin (rz [r.b, r.c] (x)) (.ewait H D A)
  | 0xA4 => fin (rz [r.b, r.c] (x)) (.equery H D A)
  | 0xB0 => fin (rz [r.c] (x &&& 0x3FFE#14)) (.vwait H (x.getLsbD 0) D A B)
  | 0xB1 => fin (rz [r.a, r.b, r.c] (x)) (.vread H D)
  | 0xB2 => fin (rz [r.d] (x &&& 0x3FFE#14)) (.pub H (x.getLsbD 0) A B C)
  | 0xB3 => fin (rz [r.d, r.c] (x)) (.pubv H A B)
  | 0xB4 => fin (rz [r.c] (x &&& 0x3FFE#14)) (.verchk H (x.getLsbD 0) D A B)
  | 0xB5 => fin (rz [r.d, r.b, r.c] (x)) (.coll H A)
  | 0xC0 => fin (rz [r.d] (x &&& 0x3FFE#14)) (.wbload H (x.getLsbD 0) A B C)
  | 0xC1 => fin (rz [] (x &&& 0x3FE0#14)) (.mma H (FnMma.ofBits x) D A B C)
  | 0xC2 => fin (rz [r.a, r.b, r.c] (x &&& 0x3FF0#14)) (.aclr H (x.extractLsb' 0 4).toFin D)
  | 0xC3 => fin (rz [r.a, r.b, r.c] (x &&& 0x3C00#14)) (.acvt H (FnAcvt.ofBits x) D)
  | 0xC4 => if x.getLsbD 0 then fin (rz [r.b] (x &&& 0x3FC0#14)) (.amovToTile H (x.extractLsb' 1 5).toFin D A C)
    else fin (rz [r.b] (x &&& 0x3FC0#14)) (.amovToVector H (x.extractLsb' 1 5).toFin D A C)
  | 0xC5 => fin (rz [r.a, r.c] (x &&& 0x3F80#14)) (.mpoly H (FnMpoly.ofBits x) D B)
  | 0xC6 => fin (rz [r.c] (x &&& 0x3FF8#14)) (.miter H (FnMiter.ofBits x) D A B)
  | 0xC7 => fin (rz [] (x &&& 0x3800#14)) (.mdrain H (FnMdrain.ofBits x) D A B C)
  | 0xC8 => fin (rz [r.d, r.b, r.c] (x &&& 0x3F00#14)) (.coefl H (x.extractLsb' 0 4).toFin (x.extractLsb' 4 4).toFin A)
  | 0xD0 => fn0 r.b (fin (rz [r.d, r.a] 0 && decide (r.imm22.toNat < 65536)) (.trap H (r.imm22.extractLsb' 0 16)))
  | 0xD1 => fin (rz [r.d, r.a, r.b, r.c] (x &&& 0x3FFC#14))
      (if x.getLsbD 0 then .rteDrop H (x.getLsbD 1) else if x.getLsbD 1 then .rteSkip H else .rte H)
  | 0xD2 => fn0 r.b (fin (rz [r.a] 0 && decide (r.imm22.toNat < 4096)) (.csrr H D (r.imm22.extractLsb' 0 12)))
  | 0xD3 => fn0 r.b (fin (decide (r.imm22.toNat < 4096)) (.csrw H D A (r.imm22.extractLsb' 0 12)))
  | 0xD4 => fn0 r.b (fin (decide (r.imm22.toNat < 4096)) (.csrs H D A (r.imm22.extractLsb' 0 12)))
  | 0xD5 => fn0 r.b (fin (decide (r.imm22.toNat < 4096)) (.csrc H D A (r.imm22.extractLsb' 0 12)))
  | 0xD6 => fin (rz [r.b, r.c] (x)) (.launch H D A)
  | 0xD7 => fin (rz [r.c] (x)) (.launchAgg H D A B)
  | 0xD8 => let o := x.getLsbD 2
    let rc := x.getLsbD 3
    let ob := if o then some B else none
    let zb := if o then [] else [r.b]
    let hi := x &&& 0x3FF0#14
    match bits x 0 2 with
    | 0 => if rc then fin (rz ([r.d, r.c] ++ zb) hi) (.tlbiPageRecall H A ob)
           else fin (rz ([r.d, r.c] ++ zb) hi) (.tlbiPage H A ob)
    | 1 => if rc then .error (.illegalOp 2) else fin (rz ([r.d, r.a, r.c] ++ zb) hi) (.tlbiContext H ob)
    | 2 => if rc || o then .error (.illegalOp 2) else fin (rz [r.d, r.a, r.b, r.c] hi) (.tlbiAll H)
    | _ => .error (.illegalOp 2)
  | 0xD9 => fin (rz [r.a, r.b, r.c] (x)) (.tick H D)
  | 0xDA => fin (rz [r.d, r.a, r.b, r.c] (x &&& 0x3000#14)) (.bkpt H (x.extractLsb' 0 12))
  | 0xDB => fin (rz [r.d, r.a, r.b, r.c] (x)) (.halt H)
  | 0xDC => fn0 r.b (fin (decide (bits r.imm22 11 11 = 0) && (r.imm22.getLsbD 4 || decide (bits r.imm22 5 6 = 0)))
      (.qbind H (r.imm22.extractLsb' 0 4).toFin (if r.imm22.getLsbD 4 then some (r.imm22.extractLsb' 5 6) else none) D A))
  | 0xDD => fin (rz ([r.d] ++ if x.getLsbD 0 then [] else [r.c]) (x &&& 0x3FFE#14))
      (.qload H A B (if x.getLsbD 0 then some C else none))
  | 0xDE => if x.getLsbD 0 then fin (rz [r.a, r.b, r.c] (x &&& 0x3FFE#14)) (.qstatState H D)
    else fin (rz [r.a, r.b, r.c] (x &&& 0x3FE0#14)) (.qstatBind H (x.extractLsb' 1 4).toFin D)
  | n =>
    if 0xE0 ≤ n ∧ n < 0xF0 then .ok (.boundOpcode H (r.opc.extractLsb' 0 4).toFin D A B C x)
    else .ok (.unassignedOpcode w)

/-! ### From an instruction to fields -/

/-- The fields of an F3 or FX word. -/
def mk (opc : Nat) (h : Hdr) (d a b c : BitVec 8) (fn : BitVec 14) : Option Raw :=
  some { bnd := h.bnd, opc := BitVec.ofNat 8 opc, gn := h.gn, gp := BitVec.ofFin h.gp,
         fe := BitVec.ofBool h.feA ++ BitVec.ofBool h.feB ++ BitVec.ofBool h.feC, uni := h.uni, d := d, a := a, b := b,
         c := c, fn := fn }

/-- The fields of an FI or FM word: FN8 or MOD8, then IMM22 or OFF22. -/
def mkI (opc : Nat) (h : Hdr) (d a fn : BitVec 8) (imm : BitVec 22) : Option Raw :=
  mk opc h d a fn (imm.extractLsb' 14 8) (imm.extractLsb' 0 14)

/-- The fields of an FB word. -/
def mkB (opc : Nat) (h : Hdr) (d a : BitVec 8) (off : BitVec 30) : Option Raw :=
  mk opc h d a (off.extractLsb' 22 8) (off.extractLsb' 14 8) (off.extractLsb' 0 14)

/-- An operand that may be left out. -/
def ob : Option Operand → BitVec 8
  | some o => o.toBits
  | none => 0

/-- The fields of a full word; none for a paired word, an unassigned word and an event. -/
def Instr.raw : Instr → Option Raw
  | .iadd h f d a b => mk 0x00 h d.toBits a.toBits b.toBits 0 (f.toBits)
  | .iaddImm h f d a imm => mkI 0x01 h d.toBits a.toBits ((f.toBits).setWidth 8) imm
  | .isub h f d a b => mk 0x02 h d.toBits a.toBits b.toBits 0 (f.toBits)
  | .isubImm h f d a imm => mkI 0x03 h d.toBits a.toBits ((f.toBits).setWidth 8) imm
  | .imul h f d a b => mk 0x04 h d.toBits a.toBits b.toBits 0 (f.toBits)
  | .imulImm h f d a imm => mkI 0x05 h d.toBits a.toBits ((f.toBits).setWidth 8) imm
  | .imulh h t d a b => mk 0x06 h d.toBits a.toBits b.toBits 0 (t.toBits)
  | .imad h f d a b c => mk 0x07 h d.toBits a.toBits b.toBits c.toBits (f.toBits)
  | .imin h t d a b => mk 0x08 h d.toBits a.toBits b.toBits 0 (t.toBits)
  | .iminImm h t d a imm => mkI 0x09 h d.toBits a.toBits ((t.toBits).setWidth 8) imm
  | .imax h t d a b => mk 0x0A h d.toBits a.toBits b.toBits 0 (t.toBits)
  | .imaxImm h t d a imm => mkI 0x0B h d.toBits a.toBits ((t.toBits).setWidth 8) imm
  | .iabs h w s d a => mk 0x0C h d.toBits a.toBits 0 0 (bitAt true 0 ||| bitAt w 1 ||| bitAt s 2)
  | .ineg h w s d a => mk 0x0D h d.toBits a.toBits 0 0 (bitAt true 0 ||| bitAt w 1 ||| bitAt s 2)
  | .iaddc h f d a b c => mk 0x0E h d.toBits a.toBits b.toBits c.toBits (f.toBits)
  | .isubb h f d a b c => mk 0x0F h d.toBits a.toBits b.toBits c.toBits (f.toBits)
  | .shl h f d a b => mk 0x10 h d.toBits a.toBits b.toBits 0 (f.toBits)
  | .shlImm h f d a imm => mkI 0x11 h d.toBits a.toBits ((f.toBits).setWidth 8) imm
  | .shr h f d a b => mk 0x12 h d.toBits a.toBits b.toBits 0 (f.toBits)
  | .shrImm h f d a imm => mkI 0x13 h d.toBits a.toBits ((f.toBits).setWidth 8) imm
  | .sar h f d a b => mk 0x14 h d.toBits a.toBits b.toBits 0 (f.toBits)
  | .sarImm h f d a imm => mkI 0x15 h d.toBits a.toBits ((f.toBits).setWidth 8) imm
  | .rot h t d a b => mk 0x16 h d.toBits a.toBits b.toBits 0 (t.toBits)
  | .rotImm h t d a imm => mkI 0x17 h d.toBits a.toBits ((t.toBits).setWidth 8) imm
  | .and h t d a b => mk 0x18 h d.toBits a.toBits b.toBits 0 (t.toBits)
  | .andImm h t d a imm => mkI 0x19 h d.toBits a.toBits ((t.toBits).setWidth 8) imm
  | .or h t d a b => mk 0x1A h d.toBits a.toBits b.toBits 0 (t.toBits)
  | .orImm h t d a imm => mkI 0x1B h d.toBits a.toBits ((t.toBits).setWidth 8) imm
  | .xor h t d a b => mk 0x1C h d.toBits a.toBits b.toBits 0 (t.toBits)
  | .xorImm h t d a imm => mkI 0x1D h d.toBits a.toBits ((t.toBits).setWidth 8) imm
  | .andn h t d a b => mk 0x1E h d.toBits a.toBits b.toBits 0 (t.toBits)
  | .not h t d a => mk 0x1F h d.toBits a.toBits 0 0 (t.toBits)
  | .lea h f d a b => mk 0x20 h d.toBits a.toBits b.toBits 0 (f.toBits)
  | .movi h t d imm => mkI 0x21 h d.toBits 0 ((t.toBits).setWidth 8) imm
  | .movhi h f d a imm => mkI 0x22 h d.toBits a.toBits ((f.toBits).setWidth 8) imm
  | .mov h d a => mk 0x23 h d.toBits a.toBits 0 0 (0)
  | .sel h d a b c => mk 0x24 h d.toBits a.toBits b.toBits c.toBits (0)
  | .icmp h f d a b => mk 0x25 h d.toBits a.toBits b.toBits 0 (f.toBits)
  | .icmpImm h f d a imm => mkI 0x26 h d.toBits a.toBits ((f.toBits).setWidth 8) imm
  | .popc h t d a => mk 0x28 h d.toBits a.toBits 0 0 (t.toBits)
  | .clz h t d a => mk 0x29 h d.toBits a.toBits 0 0 (t.toBits)
  | .ctz h t d a => mk 0x2A h d.toBits a.toBits 0 0 (t.toBits)
  | .brev h t d a => mk 0x2B h d.toBits a.toBits 0 0 (t.toBits)
  | .bfx h t d a c => mk 0x2C h d.toBits a.toBits 0 c.toBits (t.toBits)
  | .bfi h t d a b c => mk 0x2D h d.toBits a.toBits b.toBits c.toBits (t.toBits)
  | .permb h d a b c => mk 0x2E h d.toBits a.toBits b.toBits c.toBits (0)
  | .permbImm h d a imm => mkI 0x2F h d.toBits a.toBits (0) imm
  | .pand h f d a b => mk 0x30 h d.toBits a.toBits b.toBits 0 (f.toBits)
  | .por h f d a b => mk 0x31 h d.toBits a.toBits b.toBits 0 (f.toBits)
  | .pxor h f d a b => mk 0x32 h d.toBits a.toBits b.toBits 0 (f.toBits)
  | .pnot h d a => mk 0x33 h d.toBits a.toBits 0 0 (0)
  | .pmov h k d a => mk 0x34 h d.toBits a.toBits 0 0 (numAt k.val 0)
  | .shfl h m d a b => mk 0x38 h d.toBits a.toBits b.toBits 0 (numAt (codeOf ShflMode.all m) 0)
  | .bcast h d a b => mk 0x39 h d.toBits a.toBits b.toBits 0 (0)
  | .vote h m d a => mk 0x3A h d.toBits a.toBits 0 0 (numAt (codeOf VoteMode.codes m) 0)
  | .redux h f d a => mk 0x3B h d.toBits a.toBits 0 0 (f.toBits)
  | .scan h f d a => mk 0x3C h d.toBits a.toBits 0 0 (f.toBits)
  | .fadd h f d a b => mk 0x40 h d.toBits a.toBits b.toBits 0 (f.toBits)
  | .fsub h f d a b => mk 0x41 h d.toBits a.toBits b.toBits 0 (f.toBits)
  | .fmul h f d a b => mk 0x42 h d.toBits a.toBits b.toBits 0 (f.toBits)
  | .ffma h f d a b c => mk 0x43 h d.toBits a.toBits b.toBits c.toBits (f.toBits)
  | .fmin h f d a b => mk 0x44 h d.toBits a.toBits b.toBits 0 (f.toBits)
  | .fmax h f d a b => mk 0x45 h d.toBits a.toBits b.toBits 0 (f.toBits)
  | .fcmp h f d a b => mk 0x46 h d.toBits a.toBits b.toBits 0 (f.toBits)
  | .fclass h f d a => mk 0x47 h d.toBits a.toBits 0 0 (f.toBits)
  | .frnd h f d a => mk 0x48 h d.toBits a.toBits 0 0 (f.toBits)
  | .fscaleb h f d a b => mk 0x49 h d.toBits a.toBits b.toBits 0 (f.toBits)
  | .fsel h f d a b c => mk 0x4A h d.toBits a.toBits b.toBits c.toBits (f.toBits)
  | .frcp h f d a => mk 0x50 h d.toBits a.toBits 0 0 (f.toBits)
  | .frsq h f d a => mk 0x51 h d.toBits a.toBits 0 0 (f.toBits)
  | .fsqrt h f d a => mk 0x52 h d.toBits a.toBits 0 0 (f.toBits)
  | .fexp2 h f d a => mk 0x53 h d.toBits a.toBits 0 0 (f.toBits)
  | .flog2 h f d a => mk 0x54 h d.toBits a.toBits 0 0 (f.toBits)
  | .fsin h f d a => mk 0x55 h d.toBits a.toBits 0 0 (f.toBits)
  | .fcos h f d a => mk 0x56 h d.toBits a.toBits 0 0 (f.toBits)
  | .ftanh h f d a => mk 0x57 h d.toBits a.toBits 0 0 (f.toBits)
  | .callReg h d a => mk 0x62 h d.toBits a.toBits 0 0 (0)
  | .ret h a => mk 0x63 h 0 a.toBits 0 0 (0)
  | .join h => mk 0x65 h 0 0 0 0 (0)
  | .call h d off => mkB 0x61 h d.toBits 0 off
  | .jmark h off => mkB 0x64 h 0 0 off
  | .brk h off => mkB 0x66 h 0 0 off
  | .yield h => mk 0x68 h 0 0 0 0 (0)
  | .exit h => mk 0x69 h 0 0 0 0 (0)
  | .nop h => mk 0x6A h 0 0 0 0 (0)
  | .sleep h k a => mk 0x6B h 0 a.toBits 0 0 (bitAt k 0)
  | .bar h k a => mk 0x6C h 0 a.toBits 0 0 (numAt k.val 0)
  | .cbar h => mk 0x6D h 0 0 0 0 (0)
  | .mbar h s a b => mk 0x6E h 0 a.toBits b.toBits 0 (numAt (codeOf Scope.all s) 0)
  | .ld h f d a off => mkI 0x80 h d.toBits a.toBits ((f.toBits).setWidth 8) off
  | .ldIndexed h f d a b => mk 0x81 h d.toBits a.toBits b.toBits 0 (f.toBits)
  | .st h f d a off => mkI 0x82 h d.toBits a.toBits ((f.toBits).setWidth 8) off
  | .stIndexed h f a b c => mk 0x83 h 0 a.toBits b.toBits c.toBits (f.toBits)
  | .ldl h f d a off => mkI 0x84 h d.toBits a.toBits ((f.toBits).setWidth 8) off
  | .ldlIndexed h f d a b => mk 0x85 h d.toBits a.toBits b.toBits 0 (f.toBits)
  | .stl h f d a off => mkI 0x86 h d.toBits a.toBits ((f.toBits).setWidth 8) off
  | .stlIndexed h f a b c => mk 0x87 h 0 a.toBits b.toBits c.toBits (f.toBits)
  | .ldu h f d a off => mkI 0x88 h d.toBits a.toBits ((f.toBits).setWidth 8) off
  | .atom h f d a off => mkI 0x89 h d.toBits a.toBits ((f.toBits).setWidth 8) off
  | .atomIndexed h f d a b c => mk 0x8A h d.toBits a.toBits b.toBits c.toBits (f.toBits)
  | .red h f d a off => mkI 0x8B h d.toBits a.toBits ((f.toBits).setWidth 8) off
  | .redIndexed h f a b c => mk 0x8C h 0 a.toBits b.toBits c.toBits (f.toBits)
  | .waitv h f d a off => mkI 0x8D h d.toBits a.toBits ((f.toBits).setWidth 8) off
  | .waitvDeadlineForm h f d a b c => mk 0x8E h d.toBits a.toBits b.toBits c.toBits (f.toBits)
  | .fence h s => mk 0x90 h 0 0 0 0 (numAt (codeOf Scope.all s) 0)
  | .prefetch h f a off => mkI 0x92 h 0 a.toBits ((f.toBits).setWidth 8) off
  | .prefetchIndexed h f a b => mk 0x93 h 0 a.toBits b.toBits 0 (f.toBits)
  | .cwb h a off => mkI 0x95 h 0 a.toBits (0) off
  | .ldtag h d a off => mkI 0x96 h d.toBits a.toBits (0) off
  | .sttag h d a off => mkI 0x97 h d.toBits a.toBits (0) off
  | .cpy h d a => mk 0xA0 h d.toBits a.toBits 0 0 (0)
  | .cpyw h a off => mkB 0xA1 h 0 a.toBits off
  | .gthr h f d a b c => mk 0xA2 h d.toBits a.toBits b.toBits c.toBits (f.toBits)
  | .ewait h d a => mk 0xA3 h d.toBits a.toBits 0 0 (0)
  | .equery h d a => mk 0xA4 h d.toBits a.toBits 0 0 (0)
  | .vwait h k d a b => mk 0xB0 h d.toBits a.toBits b.toBits 0 (bitAt k 0)
  | .vread h d => mk 0xB1 h d.toBits 0 0 0 (0)
  | .pub h k a b c => mk 0xB2 h 0 a.toBits b.toBits c.toBits (bitAt k 0)
  | .pubv h a b => mk 0xB3 h 0 a.toBits b.toBits 0 (0)
  | .verchk h k d a b => mk 0xB4 h d.toBits a.toBits b.toBits 0 (bitAt k 0)
  | .coll h a => mk 0xB5 h 0 a.toBits 0 0 (0)
  | .wbload h k a b c => mk 0xC0 h 0 a.toBits b.toBits c.toBits (bitAt k 0)
  | .mma h f d a b c => mk 0xC1 h d.toBits a.toBits b.toBits c.toBits (f.toBits)
  | .aclr h k d => mk 0xC2 h d.toBits 0 0 0 (numAt k.val 0)
  | .acvt h f d => mk 0xC3 h d.toBits 0 0 0 (f.toBits)
  | .mpoly h f d b => mk 0xC5 h d.toBits 0 b.toBits 0 (f.toBits)
  | .miter h f d a b => mk 0xC6 h d.toBits a.toBits b.toBits 0 (f.toBits)
  | .mdrain h f d a b c => mk 0xC7 h d.toBits a.toBits b.toBits c.toBits (f.toBits)
  | .launch h d a => mk 0xD6 h d.toBits a.toBits 0 0 (0)
  | .launchAgg h d a b => mk 0xD7 h d.toBits a.toBits b.toBits 0 (0)
  | .tick h d => mk 0xD9 h d.toBits 0 0 0 (0)
  | .halt h => mk 0xDB h 0 0 0 0 (0)
  | .cvt h f d a b => mk 0x58 h d.toBits a.toBits (if f.narrow && decide (f.nf.toNat ≠ 3) then b.toBits else 0) 0 f.toBits
  | .qntElem h f d a b c => mk 0x59 h d.toBits a.toBits b.toBits c.toBits (f.toBits true)
  | .qntScale h ef half d a => mk 0x59 h d.toBits a.toBits 0 0 (numAt ef.toNat 0 ||| bitAt half 10)
  | .dqnt h f d a c => mk 0x5A h d.toBits a.toBits 0 c.toBits (f.toBits false)
  | .bra h off => mkB 0x60 h 0 0 off
  | .brau h off => mkB 0x60 h 0 0 off
  | .fencex h s p1 p2 => mk 0x91 h 0 0 0 0 (numAt (codeOf Scope.all s) 0 ||| numAt p1.toNat 3 ||| numAt p2.toNat 8)
  | .cinv h a off => mkI 0x94 h 0 a.toBits 0 off
  | .cinvAll h => mkI 0x94 h 0 0xFF#8 1 0
  | .amovToVector h n d a c => mk 0xC4 h d.toBits a.toBits 0 c.toBits (numAt n.val 1)
  | .amovToTile h n d a c => mk 0xC4 h d.toBits a.toBits 0 c.toBits (bitAt true 0 ||| numAt n.val 1)
  | .coefl h k n a => mk 0xC8 h 0 a.toBits 0 0 (numAt k.val 0 ||| numAt n.val 4)
  | .trap h n => mkI 0xD0 h 0 0 0 (n.setWidth 22)
  | .rte h => mk 0xD1 h 0 0 0 0 0
  | .rteDrop h k => mk 0xD1 h 0 0 0 0 (bitAt true 0 ||| bitAt k 1)
  | .rteSkip h => mk 0xD1 h 0 0 0 0 2
  | .csrr h d n => mkI 0xD2 h d.toBits 0 0 (n.setWidth 22)
  | .csrw h d a n => mkI 0xD3 h d.toBits a.toBits 0 (n.setWidth 22)
  | .csrs h d a n => mkI 0xD4 h d.toBits a.toBits 0 (n.setWidth 22)
  | .csrc h d a n => mkI 0xD5 h d.toBits a.toBits 0 (n.setWidth 22)
  | .tlbiPage h a b => mk 0xD8 h 0 a.toBits (ob b) 0 (bitAt b.isSome 2)
  | .tlbiPageRecall h a b => mk 0xD8 h 0 a.toBits (ob b) 0 (bitAt b.isSome 2 ||| bitAt true 3)
  | .tlbiContext h b => mk 0xD8 h 0 0 (ob b) 0 (bitAt true 0 ||| bitAt b.isSome 2)
  | .tlbiAll h => mk 0xD8 h 0 0 0 0 2
  | .bkpt h n => mk 0xDA h 0 0 0 0 (n.setWidth 14)
  | .qbind h k ctx d a => mkI 0xDC h d.toBits a.toBits 0 (BitVec.ofNat 22 (k.val + (match ctx with | some c => 16 + 32 * c.toNat | none => 0)))
  | .qload h a b c => mk 0xDD h 0 a.toBits b.toBits (ob c) (bitAt c.isSome 0)
  | .qstatBind h k d => mk 0xDE h d.toBits 0 0 0 (numAt k.val 1)
  | .qstatState h d => mk 0xDE h d.toBits 0 0 0 1
  | .boundOpcode h k d a b c fn => mk (0xE0 + k.val) h d.toBits a.toBits b.toBits c.toBits fn
  | _ => none

/-! ### Paired words (R72 to R74) -/

/-- The fields of a slot (R72). -/
structure RawSlot where
  op : BitVec 6
  gd : BitVec 2
  fe : Bool
  d : BitVec 7
  r : BitVec 7
  i : BitVec 8
  deriving DecidableEq, Repr

def RawSlot.ofBits (x : BitVec 31) : RawSlot :=
  { op := x.extractLsb' 25 6, gd := x.extractLsb' 23 2, fe := x.getLsbD 22, d := x.extractLsb' 15 7,
    r := x.extractLsb' 8 7, i := x.extractLsb' 0 8 }

def RawSlot.toBits (x : RawSlot) : BitVec 31 := x.op ++ x.gd ++ BitVec.ofBool x.fe ++ x.d ++ x.r ++ x.i

/-- The operation of a slot with whether its reserved bits are zero; none where OP6 is 0x30 or above. -/
def RawSlot.op? (x : RawSlot) : Option (SlotOp × Bool) :=
  let d := Reg7.ofBits x.d
  let r := Reg7.ofBits x.r
  let n := x.op.toNat
  let zi := decide (x.i = 0)
  let cc (y : Nat) := Cond.all.getD (y % 8) .eq
  if n < 0x18 then
    let o := PBin.all.getD (n / 2) .iadd
    if n % 2 = 0 then some (.bin o d r, zi) else some (.binI o d r x.i, true)
  else if n = 0x18 then some (.mov d r, zi)
  else if n = 0x19 then some (.movi8 d x.i, decide (x.r = 0))
  else if n = 0x1A then some (.sel d r (x.i.getLsbD 0), decide (x.i.toNat < 2))
  else if n < 0x23 then
    let o := PFBin.all.getD ((n - 0x1B) / 2) .fadd
    if n % 2 = 1 then some (.fbin o d r, zi) else some (.fbinI o d r x.i, true)
  else if n = 0x23 then some (.ffma d r (Reg7.ofBits (x.i.extractLsb' 0 7)), !x.i.getLsbD 7)
  else if n = 0x24 then some (.ffmaI d r x.i, true)
  else if n < 0x27 then some (.icmp (decide (n = 0x26)) (cc x.i.toNat) d r, decide (x.i.toNat < 8))
  else if n < 0x29 then some (.icmpI (decide (n = 0x28)) (cc x.d.toNat) r x.i, decide (x.d.toNat < 8))
  else if n < 0x2B then some (.fcmp (decide (n = 0x2A)) (cc x.i.toNat) d r, decide (x.i.toNat < 8))
  else if n < 0x2D then some (.fcmpI (decide (n = 0x2C)) (cc x.d.toNat) r x.i, decide (x.d.toNat < 8))
  else if n = 0x2D then some (.frcp d r, zi)
  else if n = 0x2E then some (.fexp2 d r, zi)
  else if n = 0x2F then some (.bra (x.d ++ x.r ++ x.i), true)
  else none

/-- The operation code and the operand fields of a slot operation (R74). -/
def SlotOp.raw : SlotOp → BitVec 6 × BitVec 7 × BitVec 7 × BitVec 8
  | .bin o d r => (BitVec.ofNat 6 (2 * codeOf PBin.all o), d.toBits, r.toBits, 0)
  | .binI o d r i => (BitVec.ofNat 6 (2 * codeOf PBin.all o + 1), d.toBits, r.toBits, i)
  | .mov d r => (0x18, d.toBits, r.toBits, 0)
  | .movi8 d i => (0x19, d.toBits, 0, i)
  | .sel d r p => (0x1A, d.toBits, r.toBits, if p then 1 else 0)
  | .fbin o d r => (BitVec.ofNat 6 (0x1B + 2 * codeOf PFBin.all o), d.toBits, r.toBits, 0)
  | .fbinI o d r i => (BitVec.ofNat 6 (0x1C + 2 * codeOf PFBin.all o), d.toBits, r.toBits, i)
  | .ffma d r t => (0x23, d.toBits, r.toBits, t.toBits.setWidth 8)
  | .ffmaI d r i => (0x24, d.toBits, r.toBits, i)
  | .icmp p c d r => (if p then 0x26 else 0x25, d.toBits, r.toBits, BitVec.ofNat 8 (codeOf Cond.all c))
  | .icmpI p c r i => (if p then 0x28 else 0x27, BitVec.ofNat 7 (codeOf Cond.all c), r.toBits, i)
  | .fcmp p c d r => (if p then 0x2A else 0x29, d.toBits, r.toBits, BitVec.ofNat 8 (codeOf Cond.all c))
  | .fcmpI p c r i => (if p then 0x2C else 0x2B, BitVec.ofNat 7 (codeOf Cond.all c), r.toBits, i)
  | .frcp d r => (0x2D, d.toBits, r.toBits, 0)
  | .fexp2 d r => (0x2E, d.toBits, r.toBits, 0)
  | .bra off => (0x2F, off.extractLsb' 15 7, off.extractLsb' 8 7, off.extractLsb' 0 8)

def Slot.raw (s : Slot) : RawSlot :=
  { op := s.op.raw.1, gd := BitVec.ofNat 2 (codeOf SlotGuard.all s.gd), fe := s.fe, d := s.op.raw.2.1,
    r := s.op.raw.2.2.1, i := s.op.raw.2.2.2 }

/-- A paired word from its slots A and B: rule 1 of R76, then the reserved bits. -/
def parsePair (bnd : Bool) (x y : RawSlot) : Except DTrap Instr :=
  let slot (z : RawSlot) (o : SlotOp) : Slot := ⟨SlotGuard.all.getD z.gd.toNat .always, z.fe, o⟩
  match x.op?, y.op? with
  | none, _ => .error (.illegalPair 1 false)
  | _, none => .error (.illegalPair 1 true)
  | some (o, zo), some (q, zq) =>
    if zo && zq then .ok (.pairedWord bnd (slot x o) (slot y q)) else .error (.illegalOp 3)

/-! ### Words and bytes -/

/-- The instruction of a word: check 1 of R78 and what checks 2 and 3 say of bits the syntax drops. -/
def parse (ctl : Bool) (w : Word) : Except DTrap Instr :=
  if w.getLsbD 62 then
    parsePair (w.getLsbD 63) (.ofBits (w.extractLsb' 31 31)) (.ofBits (w.extractLsb' 0 31))
  else parseRaw ctl w (.ofWord w)

/-- The word of an instruction; none for an event. -/
def encode : Instr → Option Word
  | .pairedWord bnd x y => some (BitVec.ofBool bnd ++ 1#1 ++ x.raw.toBits ++ y.raw.toBits)
  | .unassignedOpcode w => some w
  | i => i.raw.map Raw.toWord

/-- The word in eight bytes, the byte at the lowest address first (R2). -/
def wordOfBytes : List Byte → Word
  | [] => 0
  | b :: t => (wordOfBytes t <<< 8) ||| b.setWidth 64

/-- The eight bytes of a word, in address order (R2). -/
def bytesOfWord (w : Word) : List Byte := (List.range 8).map (fun k => w.extractLsb' (8 * k) 8)

/-- The decoder on bytes as the hardware stores them: a word takes eight (R65). -/
def decodeBytes (ctl : Bool) (l : List Byte) : Except DTrap Instr :=
  if l.length = 8 then parse ctl (wordOfBytes l) else .error (.illegalOp 1)

/-- The instruction that the decoder reads from an instruction whose bits are `w`, laid out as the hardware stores it. -/
def decodeTableWord (_nbits w : Nat) : Option Instr :=
  match decodeBytes false (bytesOfWord (BitVec.ofNat 64 w)) with
  | .ok i => some i
  | .error _ => none

end Sys2Proof
end

