-- ==== Sys2Proof/Machine/Engine.lean ====
section
/-!
DEFINITION. Machine/Engine.lean: fences, and the copy and gather engines (R40, R242, R243, R245, R268, R269, R276 to R282).
-/
namespace Sys2Proof.Machine

/-! ### Accesses that a unit makes for a word (R243, R255, R280) -/

/-- Who makes an access for a word: what the word tells of itself, the place of its group, its context and its state. -/
structure Agent where
  info : WordInfo
  core : Nat
  slot : Nat
  ctx : Nat
  sup : Bool
  deriving DecidableEq, Repr

/-- The agent as the group that an access needs to know of. -/
def Agent.group (a : Agent) : Group := { Group.empty with core := a.core, slot := a.slot, ctx := a.ctx, sup := a.sup }

/-- What a span of bytes comes to: its bytes, for a write none; a wait; a request to a peer, with its token; a page without a
translation; a failure. -/
inductive Span where
  | done (b : List Byte)
  | later
  | sent (tok : Nat)
  | park (addr : Word)
  | fail (cause detail : Nat) (addr : Word)
  deriving DecidableEq, Repr

/-- Pieces of `n` bytes from `va` on that do not cross a multiple of 16; `fuel` of `n` is enough. -/
def spanChunks : Nat → Word → Nat → List (Word × Nat)
  | 0, _, _ => []
  | f + 1, va, n =>
    if n = 0 then []
    else
      let k := min n (16 - va.toNat % 16)
      (va, k) :: spanChunks f (va + BitVec.ofNat 64 k) (n - k)

/-- The number of bytes, at most `n`, from `va` to the end of its line. -/
def toLineEnd (va : Word) (n : Nat) : Nat := min n (128 - va.toNat % 128)

/-- The number of the unit that makes an agent's accesses. -/
def Agent.unit (a : Agent) : Nat := a.info.engine.getD a.info.tok

/-- What waits at a moved page for an agent (R226): its unit, or the word of its group that reads at issue. -/
def Agent.ticket (a : Agent) : Ticket := if a.unit = 0 then .word a.info.grp a.info.pc else .agent a.unit

/-- Translates and checks an address for an agent (R250, R358). -/
def State.reach (s : State) (ag : Agent) (n : Need) (kindOk : Nat → Option Nat) (va : Word) : Reach × State :=
  if eaBad va then (.fail 0x12 2, s)
  else
    let v := vaOf va
    let r := s.translate ag.core ag.ctx v (decide (n ≠ .read))
    (r.2.resolve ag.core ag.ctx ag.sup v n kindOk r.1, r.2)

/-- Reports a fault of an agent's access (R363). -/
def State.reachFault (s : State) (ag : Agent) (va : Word) (acc : Nat) (f : PageFault) : State :=
  s.faultReport ag.core ag.slot ag.ctx (vaOf va) acc f ag.info.path.code

/-- What a write of an agent leaves of its sector in the L1 of its core (R211, R233): a store puts its bytes there, an atomic drops the
lease. -/
def State.agentL1 (s : State) (ag : Agent) (leaf : Word) (p : PAcc) : State :=
  let owner := ownerOf (s.fuseOf ag.info.team) ag.core p.pa
  if !cacheable ag.core leaf then s
  else match p.acc.op with
    | .store => s.l1Store owner p
    | .atomic .. => s.l1Drop owner (p.pa / 32)
    | _ => s

/-- An access of an agent at its slice, with its watchpoints. -/
def State.agentServe (s : State) (ag : Agent) (leaf : Word) (p : PAcc) : Served × State :=
  let r := s.serve ag.ctx ag.info.path.code (s.writeDie ag.core (s.forwardPa p.pa)) leaf p.pa p.acc
  match r.1, p.acc.op.watchKind with
  | .done _, some k => (r.1, (r.2.agentL1 ag leaf p).watched ag.info ag.ctx allLanes k p.acc.va p.acc.size)
  | _, _ => r

/-- Sends a request to a peer for an agent: for a read, its values are kept under a token. -/
def State.agentPeer (s : State) (ag : Agent) (leaf : Word) (l : List PAcc) (read : Bool) : Nat × State :=
  let (tok, s) := s.fresh
  let i := { ag.info with tok := tok }
  let s := if read then s.setSys { s.sys with words := s.sys.words ++
      [{ info := i, left := l.length, vals := [], failed := 0, fault := none, acq := false }] } else s
  (tok, s.send ag.group i leaf l)

/-- Whether an agent's access waits: at a page that is being moved, where it takes its place, or at a locked replicated line (R226,
R290). -/
def State.agentWaits (s : State) (ag : Agent) (leaf : Word) (pa : Nat) : Bool × State :=
  let d := s.issueDie ag.core
  if s.migWaits ag.ticket pa then (true, s.migQueue ag.ticket pa)
  else (decide (pteKind leaf = 3) && s.lineStalls d (pa / 128 * 128 - s.repBase d), s)

/-- The pieces of a span as accesses: the piece's number stands for the lane. -/
def spanAccs (op : AccOp) (va : Word) (pa : Nat) (data : List Byte) (n : Nat) : List PAcc :=
  (spanChunks n va n).zipIdx.map (fun e =>
    let off := (e.1.1 - va).toNat
    { acc := { lane := e.2, off := 0, va := e.1.1, op := op, size := e.1.2,
               data := BitVec.ofNat 128 (numOfBytes ((data.drop off).take e.1.2)), cmp := 0,
               bmask := BitVec.ofNat 16 (2 ^ e.1.2 - 1) },
      pa := pa + off })

/-- The places of the units of the hub and of the cores among those who read counters (R383). -/
def unitReader : Nat := 2 ^ 20

/-- Reads `n` bytes of one line. A read of a counter is answered as its tick ends (R383). -/
def State.agentRead (s : State) (ag : Agent) (kindOk : Nat → Option Nat) (va : Word) (n : Nat) : Span × State :=
  let r := s.reach ag .read kindOk va
  let s := r.2
  match r.1 with
  | .fail c d => (.fail c d va, s)
  | .park f => (.park va, s.reachFault ag va 0 f)
  | .ok pa leaf =>
    if pteKind leaf = 4 then let q := s.agentPeer ag leaf (spanAccs .load va pa [] n) true; (.sent q.1, q.2)
    else
      let w := s.agentWaits ag leaf pa
      if w.1 then (.later, w.2)
      else
      let asks := (spanAccs .load va pa [] n).all (fun p => w.2.readsCounter ag.ctx ag.info.path.code leaf p.pa p.acc)
      let q := if asks then w.2.askCounter (unitReader, ag.unit) pa else (none, w.2)
      if asks && q.1.isNone then (.later, q.2)
      else if asks then (.done (bytesOfNum n (q.1.getD 0).toNat), q.2.heatAgent ag.core ag.unit false pa leaf)
      else
      -- the image of a `qload` keeps its place until all of it is read
      let s := ((if ag.unit = 0 then w.2 else w.2.migLeave ag.ticket).countReq pa).heatAgent ag.core ag.unit false pa leaf
      (spanAccs .load va pa [] n).foldl (fun (r : Span × State) p =>
        match r.1 with
        | .done b =>
          let q := r.2.agentServe ag leaf p
          (match q.1 with
           | .done v => (.done (b ++ bytesOfNum p.acc.size v.toNat), q.2)
           | .fail c d => (.fail c d p.acc.va, q.2))
        | _ => r) (.done [], s)

/-- Writes bytes within one line: piece by piece, up to a failure. On the replicated segment the words written make one update
(R283). A line of which all 128 bytes are written by the copy engine loses its poison (R219). -/
def State.agentWrite (s : State) (ag : Agent) (kindOk : Nat → Option Nat) (va : Word) (data : List Byte) : Span × State :=
  let n := data.length
  let ag := { ag with info := { ag.info with tick := s.tick.toNat } }
  let r := s.reach ag .write kindOk va
  let s := r.2
  match r.1 with
  | .fail c d => (.fail c d va, s)
  | .park f => (.park va, s.reachFault ag va 1 f)
  | .ok pa leaf =>
    let d := s.issueDie ag.core
    let line := pa / 128 * 128 - s.repBase d
    let rep := decide (pteKind leaf = 3)
    if pteKind leaf = 4 then (.done [], (s.agentPeer ag leaf (spanAccs .store va pa data n) false).2)
    else
    let held := s.agentWaits ag leaf pa
    if held.1 then (.later, held.2)
    else if rep && s.repStalled d then
      (.later, if s.lagLimit d && !(s.rep d).lagging then s.later (.lag d) else s)
    else
    -- writes of the FB path leave the ownership table alone (R223)
    let die := s.writeDie ag.core (s.forwardPa pa)
    match (if ag.info.path = .fb then some s else s.recallFirst leaf die (s.forwardPa pa) false) with
    | none => (.later, s.noteRecall die (.unit ag.unit))
    | some s =>
      let s := ((s.migLeave ag.ticket).countReq pa).heatAgent ag.core ag.unit true pa leaf
      let w := (spanAccs .store va pa data n).foldl (fun (r : Span × BitVec 32 × State) p =>
        match r.1 with
        | .done b =>
          let q := r.2.2.agentServe ag leaf p
          (match q.1 with
           | .done _ =>
             let o := p.pa - s.repBase d
             (.done b, r.2.1 ||| touchedWords line o (o + p.acc.size), q.2)
           | .fail c d => (.fail c d p.acc.va, r.2.1, q.2))
        | _ => r) (.done [], 0, s)
      let s := w.2.2
      let s := if rep && decide (w.2.1 ≠ 0) then s.emit d ag.info ag.ctx (va - BitVec.ofNat 64 (pa % 128)) line w.2.1 else s
      let whole := decide (n = 128 ∧ w.1 = .done [] ∧ ag.info.path = .cp)
      (w.1, if whole then
        s.setSys { s.sys with poison := Tab.set false (lineKey (s.forwardPa pa) (s.forwardPa pa / 0x2000000000)) false s.sys.poison }
        else s)

/-- Bytes from and to a team's local memory (R208). Nothing is kept for a team that has ended. -/
def State.localRead (s : State) (t : Nat) (o n : Nat) : List Byte := bytesOfNum n ((s.team t).locLoad o n)
def State.localWrite (s : State) (t : Nat) (o : Nat) (l : List Byte) : State :=
  if (Tab.find? t s.teams).isSome then s.updTeam t (fun tm => tm.locStore o l) else s

/-- Takes the values of a peer read that has returned. -/
def State.takeRaw (s : State) (tok : Nat) : Option Result × State :=
  (Tab.find? tok s.sys.results, s.setSys { s.sys with results := Tab.del tok s.sys.results })

/-- The bytes of a span from the values of its pieces. -/
def rawBytes (raw : Tab (BitVec 128)) (va : Word) (n : Nat) : List Byte :=
  ((spanChunks n va n).zipIdx).flatMap (fun e => bytesOfNum e.1.2 (Tab.get 0 e.2 raw).toNat)

/-! ### Fences (R242, R245, R268, R269) -/

/-- Whether the earlier accesses of a group on a path are performed at a fence's scope. -/
def State.pathDone (s : State) (p : Path) (g t : Nat) (f : Fence) : Bool :=
  match p with
  | .ls => s.lsDone g t f.seq f.scope false
  | _ =>
    s.accDone p g t f.seq f.scope &&
      s.sys.engs.all (fun c => !decide (c.grp = g ∧ c.team = t ∧ c.seq < f.seq) || (match c.op with
        | .copy .. => decide (p ≠ .cp)
        | .gather .. => decide (p ≠ .ga))) &&
      (decide (p ≠ .mx) || (s.team t).mx.all (fun m => !decide (m.grp = g ∧ m.seq < f.seq))) &&
      (decide (p ≠ .fb) || (s.fab.pubs.all (fun w => !decide (w.grp = g ∧ w.seq < f.seq)) &&
        s.fab.colls.all (fun c => !decide (c.grp = g ∧ c.seq < f.seq))))

/-- The failed store that a fence names (R269): the first in program order, and of its word the lowest lane. -/
def firstFailed (l : List FailedStore) : Option FailedStore :=
  l.foldl (fun b f => match b with
    | none => some f
    | some c => if f.seq < c.seq ∨ (f.seq = c.seq ∧ f.lane < c.lane) then some f else b) none

/-- The end of a fence: its acquire, the trap of failed peer stores, and the checkpoint of `fence.sys` (R242, R269, R400). -/
def State.fenceEnd (s : State) (g : Nat) (f : Fence) : State :=
  let s := s.updGrp g (fun x => { x with mem := { x.mem with fences := x.mem.fences.filter (fun k => decide (k.id ≠ f.id)) } })
  let s := if f.each then s else s.acquire g f.scope
  if f.scope ≠ .system then s
  else
    let s := match firstFailed ((s.grp g).mem.failed.filter (fun k => decide (k.seq < f.seq))) with
      | none => s
      | some k =>
        (s.updGrp g (fun x => { x with mem := { x.mem with failed := x.mem.failed.filter (fun k => !decide (k.seq < f.seq)) } })).trapLater
          g { cause := 0x17, pc := f.pc, addr := k.va, info := 0, lanes := f.lanes }
    if f.each then s.groupCheckpoint g f.pc else s

/-- One path of a fence whose group has ended (R400): with the last, its checkpoint is made. -/
def State.lateFencePath (s : State) (grp fid part : Nat) (p : Path) : Host.Outcome State Fault Refusal :=
  match s.sys.lateFences.find? (fun e => decide (e.fence.id = fid)) with
  | none => .next s
  | some e =>
    if !e.fence.left.contains p then .next s
    else if !s.pathDone p e.grp e.team e.fence then .next (s.later (.fenceComplete grp fid part))
    else
      let left := e.fence.left.filter (fun q => decide (q ≠ p))
      let others := s.sys.lateFences.filter (fun k => decide (k.fence.id ≠ fid))
      if left.isEmpty then
        .next ((s.setSys { s.sys with lateFences := others }).checkGroup e.ctx e.mode e.ident e.crc).2
      else .next (s.setSys { s.sys with lateFences := others ++ [{ e with fence := { e.fence with left := left } }] })

/-- One path of a fence has its accesses performed. -/
def execFenceComplete (grp fid part : Nat) (s : State) : Host.Outcome State Fault Refusal :=
  match (s.grp grp).mem.fences.find? (fun f => decide (f.id = fid)), Path.all[part]? with
  | some f, some p =>
    if !f.left.contains p then .next s
    else if !s.pathDone p grp (s.grp grp).team f then .next (s.later (.fenceComplete grp fid part))
    else
      let f' := { f with left := f.left.filter (fun q => decide (q ≠ p)) }
      let s := s.updGrp grp (fun x => { x with mem := { x.mem with
        fences := x.mem.fences.map (fun k => if k.id = fid then f' else k) } })
      let s := if f.each && decide (p = .ls) then s.acquire grp f.scope else s
      .next (if f'.left.isEmpty then s.fenceEnd grp f' else s)
  | none, some p => s.lateFencePath grp fid part p
  | _, _ => .next s

/-- A fence issues (R269). -/
def State.fenceIssue (s : State) (g : Nat) (x : Group) (scope : Scope) (each : Bool) (p1 p2 : BitVec 5) : State :=
  let (id, s) := s.fresh
  let left := Path.all.filter (fun p => p1.getLsbD p.code)
  let f : Fence := { id := id, pc := x.flow.pc, scope := scope, each := each, p1 := p1, p2 := p2, seq := x.mem.seq, left := left,
                     lanes := x.flow.mask }
  let s := s.updGrp g (fun x => { x with mem := { x.mem with fences := x.mem.fences ++ [f] } })
  left.foldl (fun s p => s.post (.fenceComplete g id p.code)) s

def execFence (h : Hdr) (scope : Scope) (s : State) : Host.Outcome State Fault Refusal :=
  uniWord (.fence h scope) h s (fun s g x => (s.fenceIssue g x scope true 0x1F 0x1F, .on))

def execFencex (h : Hdr) (scope : Scope) (p1 p2 : BitVec 5) (s : State) : Host.Outcome State Fault Refusal :=
  uniWord (.fencex h scope p1 p2) h s (fun s g x => (s.fenceIssue g x scope false p1 p2, .on))

/-! ### Engine commands (R276 to R279, R281) -/

def EngCmd.path (c : EngCmd) : Path := match c.op with | .copy .. => .cp | .gather .. => .ga

/-- What a command's accesses tell of their word. -/
def EngCmd.info (c : EngCmd) : WordInfo :=
  { tok := 0, grp := c.grp, team := c.team, grid := 0, pc := c.pc, seq := c.seq, seg := .g, ord := .weak, scope := .group,
    signed := false, dst := .zero, sz := 16, once := false, lanes := allLanes, path := c.path, engine := some c.id, tick := 0 }

def EngCmd.agent (c : EngCmd) : Agent := { info := c.info, core := c.core, slot := c.slot, ctx := c.ctx, sup := c.sup }

/-- The rows of a copy or the lanes of a gather. -/
def EngCmd.rows (c : EngCmd) : Nat := match c.op with
  | .copy _ _ _ n1 n2 n3 _ _ _ => n1 * n2 * n3
  | .gather _ _ _ lanes => lanes.length

def EngCmd.rowBytes (c : EngCmd) : Nat := match c.op with
  | .copy _ _ l0 .. => l0
  | .gather _ size _ _ => size

/-- The `n`-th element of a gather by its place, or the `n`-th row. -/
def EngCmd.rowKey (c : EngCmd) (n : Nat) : Nat := match c.op with
  | .copy .. => n
  | .gather _ _ _ lanes => match lanes[n]? with | some l => l.1 | none => 96

/-- Bytes not yet written, saturating (R282). The failed elements of a gather are not written, nor are stores that a peer refused or
never answered. -/
def EngCmd.remain (c : EngCmd) : Nat :=
  min 0xFFFFFFFF (c.rows * c.rowBytes - (c.done.length - (lanesOf c.lanes).length) * c.rowBytes - (c.part.map Prod.snd).sum + c.lost)

/-- The next row to go on with: the lowest that is not done. -/
def EngCmd.nextRow (c : EngCmd) : Option Nat :=
  ((List.range c.rows).find? (fun n => !c.done.contains (c.rowKey n))).map c.rowKey

/-- The commands that a group has outstanding. -/
def State.engsOf (s : State) (g team : Nat) : List EngCmd :=
  s.sys.engs.filter (fun c => decide (c.grp = g ∧ c.team = team))

/-- The token of a group's next command (R276). -/
def engToken (seq eng : Nat) : Word := BitVec.ofNat 64 (seq % 65536 + eng * 65536)

/-- The event that carries a command on. -/
def EngCmd.event (c : EngCmd) (row : Nat) : Instr := match c.op with
  | .copy .. => .copyEngineTransfer c.id row
  | .gather .. => .gatherEngineTransfer c.id row

/-- Hands a command to its engine. -/
def State.engIssue (s : State) (g : Nat) (x : Group) (eng : Nat) (scope : Scope) (op : EngOp) (lanes : Mask) :
    State :=
  let (id, s) := s.fresh
  let c : EngCmd :=
    { id := id, grp := g, team := x.team, core := x.core, slot := x.slot, ctx := x.ctx, sup := x.sup,
      tok := engToken x.mem.engSeq eng, pc := x.flow.pc, seq := x.mem.seq, scope := scope, op := op, done := [], part := [],
      buf := [], wait := [], parked := [], fault := none, lanes := lanes }
  let s := s.updGrp g (fun x => { x with mem := { x.mem with seq := x.mem.seq + 1, engSeq := x.mem.engSeq + 1 } })
  let s := s.setSys { s.sys with engs := s.sys.engs ++ [c] }
  match c.nextRow with
  | some r => s.post (c.event r)
  | none => s.post (.engineCommandComplete id)

/-- A copy descriptor as its seven words (R278). -/
structure CopyDesc where
  w : List Word
  deriving DecidableEq, Repr

def CopyDesc.word (d : CopyDesc) (k : Nat) : Word := d.w.getD k 0
def CopyDesc.l0 (d : CopyDesc) : Nat := bits (d.word 2) 0 32
def CopyDesc.count (d : CopyDesc) (k : Nat) : Nat :=
  max 1 (match k with | 1 => bits (d.word 2) 32 16 | 2 => bits (d.word 2) 48 16 | _ => bits (d.word 3) 0 16)
def CopyDesc.smem (d : CopyDesc) : Nat := bits (d.word 3) 16 4
def CopyDesc.dmem (d : CopyDesc) : Nat := bits (d.word 3) 20 4
def CopyDesc.ssp (d : CopyDesc) : Nat := bits (d.word 3) 24 2
def CopyDesc.dsp (d : CopyDesc) : Nat := bits (d.word 3) 26 2
def CopyDesc.scope (d : CopyDesc) : Nat := bits (d.word 3) 28 3
def CopyDesc.strides (d : CopyDesc) : List (Int × Int) :=
  [4, 5, 6].map (fun k => (((d.word k).setWidth 32).toInt, ((d.word k >>> 32).setWidth 32).toInt))

/-- The lowest and the end of the offsets that a local side reaches. -/
def CopyDesc.extent (d : CopyDesc) (base : Word) (stride : Int × Int → Int) : Int × Int :=
  let steps := (d.strides.zip [d.count 1, d.count 2, d.count 3]).map (fun e => stride e.1 * ((e.2 : Int) - 1))
  ((base.toNat : Int) + (steps.map (fun e => min e 0)).sum, (base.toNat : Int) + (steps.map (fun e => max e 0)).sum + d.l0)

/-- The team whose local memory a space names: none for global memory (R278). -/
def State.copySide (s : State) (x : Group) (sp mem : Nat) : Except Unit (Option Nat) :=
  match sp with
  | 0 => .ok none
  | 1 => .ok (some x.team)
  | 2 => match ((s.cluster (s.team x.team).cluster).teams)[mem]? with
    | some t => .ok (some t)
    | none => .error ()
  | _ => .error ()

/-- Whether a local extent stays in a share. -/
def State.copyFits (s : State) (t : Option Nat) (e : Int × Int) : Bool :=
  match t with
  | none => true
  | some t => decide (0 ≤ e.1 ∧ e.2 ≤ (s.team t).share)

/-- The scope a code names. -/
def scopeOf (n : Nat) : Option Scope := Scope.all[n]?

/-- The checks of a copy descriptor (R277): the copy with its scope, or the lowest reason. -/
def State.copyCheck (s : State) (x : Group) (d : CopyDesc) : Except Nat (EngOp × Scope) :=
  if bits (d.word 3) 31 33 ≠ 0 ∨ (d.ssp ≠ 2 ∧ d.smem ≠ 0) ∨ (d.dsp ≠ 2 ∧ d.dmem ≠ 0) then .error 1
  else
    match s.copySide x d.ssp d.smem, s.copySide x d.dsp d.dmem with
    | .ok sl, .ok dl =>
      if d.l0 = 0 then .error 3
      else if !s.copyFits sl (d.extent (d.word 0) Prod.fst) || !s.copyFits dl (d.extent (d.word 1) Prod.snd) then .error 4
      else match scopeOf d.scope with
        | none => .error 5
        | some sc => .ok (.copy (d.word 0) (d.word 1) d.l0 (d.count 1) (d.count 2) (d.count 3) sl dl d.strides, sc)
    | _, _ => .error 2

/-- The seven registers of a descriptor. -/
def Group.copyDesc (x : Group) (a : Operand) : CopyDesc :=
  match a with
  | .s n => ⟨(List.range 7).map (fun k => x.sreg (n.val + k))⟩
  | _ => ⟨[]⟩

/-- ENGINE_OPERAND (R277). -/
def State.engOperand (s : State) (g reason : Nat) : State := s.trapNow g 0x22 (BitVec.ofNat 64 reason) 0

/-- Whether an engine command waits at issue: eight outstanding, a fence on its path, or a `tlbi` (R269, R276,
R362). -/
def State.engWaits (s : State) (g : Nat) (x : Group) (p : Path) : Bool :=
  decide (8 ≤ (s.engsOf g x.team).length) || x.fenced p || s.tlbiOut g x

/-- `cpy` (R277, R278): the command goes to the copy engine; its token is written at issue (log entry 114). -/
def execCpy (h : Hdr) (d a : Operand) (s : State) : Host.Outcome State Fault Refusal :=
  uniWord (.cpy h d a) h s (fun s g x =>
    match s.copyCheck x (x.copyDesc a) with
    | .error n => (s.engOperand g n, .done)
    | .ok (op, sc) =>
      if s.engWaits g x .cp then (s, .wait)
      else
        let s := s.engIssue g x 1 sc op 0
        (s.updGrp g (fun y => y.write d [0] (fun _ => engToken x.mem.engSeq 1)), .on))

/-- `cpyw` (R40): the group is suspended until the copy is done and goes on at the continuation; a path that its run end switches in
runs before (log entry 81). -/
def execCpyw (h : Hdr) (a : Operand) (off : BitVec 30) (s : State) : Host.Outcome State Fault Refusal :=
  uniWord (.cpyw h a off) h s (fun s g x =>
    match s.copyCheck x (x.copyDesc a) with
    | .error n => (s.engOperand g n, .done)
    | .ok (op, sc) =>
      if s.engWaits g x .cp then (s, .wait)
      else
        let cont := PC.plus x.flow.pc off
        ((s.engIssue g x 1 sc op 0).suspend g (.cpyw (engToken x.mem.engSeq 1) cont), .jump cont))

/-- Element sizes of a gather (R281). -/
def gthrSize (f : FnGthr) : Nat := 4 * 2 ^ f.esz.val

/-- `gthr` (R281): the command goes to the gather engine; its token is written at issue (log entry 114). -/
def execGthr (h : Hdr) (f : FnGthr) (d a b c : Operand) (s : State) : Host.Outcome State Fault Refusal :=
  laneWord (.gthr h f d a b c) h s (fun s g x e =>
    match highLane e with
    | none => (s, .on)
    | some top =>
      let n := gthrSize f
      let off := (s.rd x c 0).toNat
      if (s.team x.team).share < off + (top + 1) * n then (s.engOperand g 4, .done)
      else if off % min n 16 ≠ 0 then (s.engOperand g 6, .done)
      else if s.engWaits g x .ga then (s, .wait)
      else
        let src (l : Nat) : Word :=
          let i := s.index x b f.xs l
          s.rd x a 0 + (if f.sc then i * BitVec.ofNat 64 n else i)
        let ls := (lanesOf e).map (fun l => (l, src l))
        let bad := ls.filter (fun l => decide (l.2.toNat % min n 16 ≠ 0))
        let good := ls.filter (fun l => decide (l.2.toNat % min n 16 = 0))
        let s := s.engIssue g x 2 f.scope (.gather f.seg n off good) 0
        let s := bad.foldl (fun s l => s.updGrp g (fun y => y.deferLanes (1#96 <<< l.1) 0x15 1 l.2 x.flow.pc)) s
        (s.updGrp g (fun y => y.write d [0] (fun _ => engToken x.mem.engSeq 2)), .on))

/-! ### Transfers (R279 to R281) -/

def State.putEng (s : State) (c : EngCmd) : State :=
  s.setSys { s.sys with engs := s.sys.engs.map (fun k => if k.id = c.id then c else k) }

def State.eng? (s : State) (id : Nat) : Option EngCmd := s.sys.engs.find? (fun c => decide (c.id = id))

/-- Source, destination and length of a row's next piece: up to the end of a line of the destination. For a gather, an
element. -/
def EngCmd.piece (c : EngCmd) (row : Nat) : Option (Word × Word × Nat) :=
  match c.op with
  | .copy src dst l0 n1 n2 n3 _ _ st =>
    if n1 * n2 * n3 ≤ row then none
    else
      let o := Tab.get 0 row c.part
      let idx : List Int := [((row % n1 : Nat) : Int), ((row / n1 % n2 : Nat) : Int), ((row / (n1 * n2) : Nat) : Int)]
      let at_ (f : Int × Int → Int) : Int := ((st.zip idx).map (fun e => f e.1 * e.2)).sum
      let sa := src + BitVec.ofInt 64 (at_ Prod.fst) + BitVec.ofNat 64 o
      let da := dst + BitVec.ofInt 64 (at_ Prod.snd) + BitVec.ofNat 64 o
      some (sa, da, toLineEnd da (l0 - o))
  | .gather _ size off lanes =>
    match lanes.find? (fun l => decide (l.1 = row)) with
    | some l => some (l.2, BitVec.ofNat 64 (off + row * size), size)
    | none => none

/-- The pages a command's reads admit (R279, R281). -/
def EngCmd.readKind (c : EngCmd) (kind : Nat) : Option Nat :=
  match c.op with
  | .copy .. => if kind = 0 then some 2 else none
  | .gather seg .. => match seg with
    | .d => if kind = 1 then none else some 1
    | .g => if kind = 2 ∨ kind = 5 then none else some 1
    | .r => if kind = 3 then none else some 1
    | .h => if kind = 6 then none else some 1

/-- The pages a copy's writes admit (R279). -/
def copyWriteKind (kind : Nat) : Option Nat := if kind = 0 ∨ kind = 5 then some 2 else none

/-- The team whose local memory a command's source, or destination, is. -/
def EngCmd.sloc (c : EngCmd) : Option Nat := match c.op with | .copy _ _ _ _ _ _ l _ _ => l | .gather .. => none
def EngCmd.dloc (c : EngCmd) : Option Nat := match c.op with | .copy _ _ _ _ _ _ _ l _ => l | .gather .. => some c.team

/-- A command fails (R280): a copy ends, with what it has written of the row; a gather goes on with its other elements. -/
def EngCmd.failed (c : EngCmd) (row cause detail : Nat) (addr : Word) : EngCmd :=
  let c := { c with fault := some (c.fault.getD (cause, detail, addr)), buf := Tab.del row c.buf, wait := Tab.del row c.wait }
  match c.op with
  | .copy .. => c
  | .gather .. => { c with lanes := c.lanes ||| (1#96 <<< row), done := c.done ++ [row] }

/-- Whether a command does nothing more: a copy that failed, or one with no row left. -/
def EngCmd.over (c : EngCmd) : Bool :=
  (c.nextRow).isNone || (c.fault.isSome && (match c.op with | .copy .. => true | .gather .. => false))

/-- Whether a row may go on: a copy with a parked piece stops whole (R280). -/
def EngCmd.mayGo (c : EngCmd) (row : Nat) : Bool :=
  !c.over && !c.done.contains row && (match c.op with
    | .copy .. => c.parked.isEmpty
    | .gather .. => c.parked.all (fun p => decide (p.1 ≠ row)))

/-- The next row with something to do, for the event that follows. -/
def EngCmd.follow (c : EngCmd) : Option Nat :=
  ((List.range c.rows).map c.rowKey).find? (fun r => c.mayGo r)

/-- Goes on with a command after a piece. -/
def State.engNext (s : State) (c : EngCmd) : State :=
  let s := s.putEng c
  if c.over then s.later (.engineCommandComplete c.id)
  else match c.follow with
    | some r => s.later (c.event r)
    | none => s

/-- A piece stops at a page without a translation (R280). -/
def State.engPark (s : State) (c : EngCmd) (row : Nat) : State :=
  s.engNext { c with parked := c.parked ++ [(row, s.tick.toNat)], buf := Tab.del row c.buf }

/-- Reads of a piece until all its bytes are there, by lines of the source; a line of a peer takes a request. -/
def State.engFill (s : State) (c : EngCmd) (row : Nat) (sa : Word) (n : Nat) : Nat → EngCmd × Span × State
  | 0 => (c, .later, s)
  | f + 1 =>
    let got := Tab.get [] row c.buf
    let va := sa + BitVec.ofNat 64 got.length
    let k := toLineEnd va (n - got.length)
    if n ≤ got.length then (c, .done got, s)
    else
      match c.sloc, Tab.find? row c.wait with
      | some t, _ => (c, .done (s.localRead t sa.toNat n), s)
      | none, some tok =>
        (match s.takeRaw tok with
         | (none, _) => (c, .later, s)
         | (some r, s) =>
           match r.fault with
           | some e => (c, .fail e.1 e.2.1 e.2.2, s)
           | none =>
             s.engFill { c with buf := Tab.put row (got ++ rawBytes r.raw va k) c.buf, wait := Tab.del row c.wait } row sa n f)
      | none, none =>
        (match s.agentRead c.agent c.readKind va k with
         | (.done b, s) => s.engFill { c with buf := Tab.put row (got ++ b) c.buf } row sa n f
         | (.sent tok, s) => ({ c with wait := Tab.put row tok c.wait }, .later, s)
         | (r, s) => (c, r, s))

/-- Writes a piece. -/
def State.engDrain (s : State) (c : EngCmd) (da : Word) (data : List Byte) : Span × State :=
  match c.dloc with
  | some t => (.done [], s.localWrite t da.toNat data)
  | none => s.agentWrite c.agent copyWriteKind da data

/-- A command after a piece of `n` bytes of a row. -/
def EngCmd.advance (c : EngCmd) (row n : Nat) : EngCmd :=
  let o := Tab.get 0 row c.part + n
  let c := { c with buf := Tab.del row c.buf }
  if c.rowBytes ≤ o then { c with done := c.done ++ [row], part := Tab.del row c.part }
  else { c with part := Tab.put row o c.part }

/-- Bytes of a piece that were written before one of its accesses failed (R280, R282). -/
def EngCmd.wrote (c : EngCmd) (row n : Nat) : EngCmd :=
  if n = 0 then c else { c with part := Tab.put row (Tab.get 0 row c.part + n) c.part }

/-- One piece of a row of a copy, or one element of a gather. -/
def State.engPiece (s : State) (c : EngCmd) (row : Nat) : State :=
  -- a save stops a command between two pieces (R199)
  let saving := decide ((s.ctx c.ctx).cmd = 1 ∨ (s.ctx c.ctx).cmd = 2)
  let still := (Tab.get [] row c.buf).isEmpty && (Tab.find? row c.wait).isNone
  if !c.mayGo row || (saving && still) then s
  else if s.freezeDue && still then s.later (c.event row)
  else
    match c.piece row with
    | none => s
    | some (sa, da, n) =>
      match s.engFill c row sa n 5 with
      | (c, .done data, s) =>
        (match s.engDrain c da data with
         | (.done _, s) => s.engNext (c.advance row n)
         | (.park _, s) => s.engPark c row
         | (.fail cause d addr, s) => s.engNext ((c.wrote row (addr - da).toNat).failed row cause d addr)
         | (_, s) => (s.putEng c).later (c.event row))
      | (c, .park _, s) => s.engPark c row
      | (c, .fail cause d addr, s) => s.engNext (c.failed row cause d addr)
      | (c, _, s) => (s.putEng c).later (c.event row)

def execCopyEngineTransfer (cmd row : Nat) (s : State) : Host.Outcome State Fault Refusal :=
  match s.eng? cmd with
  | some c => .next (if c.path = .cp then s.engPiece c row else s)
  | none => .next s

def execGatherEngineTransfer (cmd lane : Nat) (s : State) : Host.Outcome State Fault Refusal :=
  match s.eng? cmd with
  | some c => .next (if c.path = .ga then s.engPiece c lane else s)
  | none => .next s

/-! ### Completion and status (R276, R280, R282) -/

/-- Whether a command's writes are performed at its scope. -/
def State.engPerformed (s : State) (c : EngCmd) : Bool :=
  s.fab.reqs.all (fun q => decide (q.info.engine ≠ some c.id) ||
    (decide (c.scope ≠ .system) && q.accs.all (fun a => !a.acc.op.returns))) &&
  (decide (c.scope ≠ .package ∧ c.scope ≠ .system) || s.repl.dies.all (fun r => r.2.unacked.all (fun k =>
    !decide (k.1.grp = c.grp ∧ k.1.team = c.team ∧ k.1.seq = c.seq ∧ k.1.path = c.path) ||
      k.2.all (fun d => !s.repl.live.getLsbD d))))

/-- Whether a token's command is one of the eight most recent of its group. -/
def Group.recent (x : Group) (tok : Nat) : Bool := decide ((x.mem.engSeq + 65535 - tok % 65536) % 65536 < 8)

/-- The engine status word (R282). -/
def State.engStatus (s : State) (g : Nat) (x : Group) (tok : Word) : Word :=
  let eng := bits tok 16 2
  if bits tok 18 46 ≠ 0 ∨ eng = 0 ∨ eng = 3 then 2
  else
    match (s.engsOf g x.team).find? (fun c => decide (c.tok = tok)) with
    | some c => BitVec.ofNat 64 (c.remain * 2 ^ 32 + (if c.parked.isEmpty then 0 else 4) + 1)
    | none =>
      match x.mem.marks.find? (fun m => decide (m.tok = tok.toNat)) with
      | some m => if m.failed && x.recent m.tok then BitVec.ofNat 64 (m.remain * 2 ^ 32 + m.cause * 256 + 3) else 2
      | none => 2

/-- Whether a token is outstanding. -/
def State.engOut (s : State) (g : Nat) (x : Group) (tok : Word) : Bool :=
  (s.engsOf g x.team).any (fun c => decide (c.tok = tok))

/-- Gives a waiting `ewait` its status (R282). -/
def State.ewaitTry (s : State) (g : Nat) : State :=
  let x := s.grp g
  match x.sched.susp with
  | .ewait tok d => if s.engOut g x tok then s else (s.updGrp g (fun y => y.writeLate d (s.engStatus g x tok))).wake g
  | _ => s

/-- The end of a command at its group: its mark, its trap, and what waits for it. -/
def State.engEnd (s : State) (c : EngCmd) : State :=
  if !s.owns c.info then s
  else
    let m : EngineMark := { tok := c.tok.toNat, cause := match c.fault with | some e => e.1 | none => 0,
                            failed := c.fault.isSome, remain := c.remain }
    let s := s.updGrp c.grp (fun x => { x with mem := { x.mem with
      marks := m :: (x.mem.marks.filter (fun k => x.recent k.tok && decide (k.tok ≠ m.tok))) } })
    let s := match c.fault with
      | some (cause, d, addr) => s.trapLater c.grp
          { cause := cause, pc := c.pc, addr := addr, info := BitVec.ofNat 64 d,
            lanes := match c.op with | .copy .. => allLanes | .gather .. => c.lanes }
      | none => s
    match (s.grp c.grp).sched.susp with
    | .cpyw tok _ => if tok = c.tok then s.wake c.grp else s
    | _ => s.ewaitTry c.grp

/-- A command completes once its writes are performed at its scope, or fails (R276, R280). -/
def execEngineCommandComplete (cmd : Nat) (s : State) : Host.Outcome State Fault Refusal :=
  match s.eng? cmd with
  | none => .next s
  | some c =>
    if !c.over then .next s
    else if !s.engPerformed c then .next (s.later (.engineCommandComplete cmd))
    else
      let s := s.setSys { s.sys with
        engs := s.sys.engs.filter (fun k => decide (k.id ≠ cmd)),
        words := s.sys.words.filter (fun w => decide (w.info.engine ≠ some cmd)) }
      .next ((s.engEnd c).tryEndTeam c.team)

def execEwait (h : Hdr) (d a : Operand) (s : State) : Host.Outcome State Fault Refusal :=
  uniWord (.ewait h d a) h s (fun s g x => ((s.suspend g (.ewait (s.rd x a 0) d)).ewaitTry g, .run))

def execEquery (h : Hdr) (d a : Operand) (s : State) : Host.Outcome State Fault Refusal :=
  uniWord (.equery h d a) h s (fun s g x =>
    (s.updGrp g (fun y => y.write d [0] (fun _ => s.engStatus g x (s.rd x a 0))), .on))

end Sys2Proof.Machine
end

