-- ==== Sys2Proof/Machine/System.lean ====
section
/-!
DEFINITION. Machine/System.lean: traps raised by words, `rte`, control registers, `tlbi`, `tick`, `bkpt`, `halt`, and the
write-back of results (R32, R34, R59 to R61, R95 to R102, R197, R198, R359 to R362, R378, R389).
-/
namespace Sys2Proof.Machine

/-! ### Write-back (R32, R34, R60) -/

/-- Writes the values of a result to one register. -/
def Group.putResult (x : Group) (r : Result) (reg : Nat) : Group :=
  let vs := r.vals.filter (fun v => decide (v.1 = reg))
  let x := vs.foldl (fun x v =>
    if reg < 128 then x.setLane reg v.2.1 (v.2.2.setWidth 32)
    else { x with regs := { x.regs with s := Tab.set 0 (reg - 128) v.2.2 x.regs.s } }) x
  { x with regs := x.regs.fill reg }

/-- A group that waited for empty sources is eligible when the last of them is full (R33). -/
def State.sourcesFull (s : State) (g : Nat) : State :=
  let x := s.grp g
  if !x.sched.need.isEmpty && x.sched.need.all (fun r => x.isFull r) then
    (s.updGrp g (fun x => { x with sched := { x.sched with need := [] } })).eligible g
  else s

/-- The result of a long-latency word is written: to each register that it still governs (R34); its flags are set (R60). -/
def execResultWriteback (tok : Nat) (s : State) : Host.Outcome State Fault Refusal :=
  match Tab.find? tok s.sys.results with
  | none => .next s
  | some r =>
    let s := s.setSys { s.sys with results := Tab.del tok s.sys.results }
    let mine (x : Group) : List Nat := r.regs.filter (fun k => decide (Tab.find? k x.regs.pend = some tok))
    .next ((s.updGrp r.grp (fun x => ((mine x).foldl (fun x k => x.putResult r k) x).addFlags r.flags)).sourcesFull r.grp)

/-- Issues one value to a scalar register as a long-latency result (R32); nothing for `zero`. -/
def State.sendValue (s : State) (g : Nat) (d : Operand) (v : Word) : State :=
  match regOf d with
  | none => s
  | some n =>
    let (tok, s) := s.fresh
    let s := s.updGrp g (fun x => { x with regs := x.regs.drain n tok })
    let r : Result := { grp := g, regs := [n], vals := [(n, 0, v)], flags := 0, fp := false, raw := [], fault := none }
    (s.setSys { s.sys with results := Tab.put tok r s.sys.results }).post (.resultWriteback tok)

/-! ### Software traps, `rte`, `halt` (R101, R186, R197, R198, R389) -/

/-- A trap of the software class: taken after the word, which counts in its run (R30, R186). -/
def State.softTrap (s : State) (g : Nat) (bnd : Bool) (cause : Nat) (info : Word) : State :=
  let x := s.grp g
  let s := s.updGrp g (fun x => { x with
    flow := { x.flow with pc := x.flow.pc + 1, run := x.flow.run + 1 }, sched := { x.sched with kept := false } })
  let ends := bnd || decide (24 ≤ x.flow.run + 1)
  let s := if ends then s.endRun g false else s
  if ends && !(s.grp g).dueDefs.isEmpty then
    -- a deferred trap that settles at this boundary goes first (R437)
    (s.trapLater g { cause := cause, pc := x.flow.pc, addr := 0, info := info, lanes := x.flow.mask }).settle g
  else s.takeTrap g { cause := cause, info := info, addr := 0, lanes := x.flow.mask, pc := x.flow.pc,
                      resume := (s.grp g).flow.pc }

def execTrap (h : Hdr) (n : BitVec 16) (s : State) : Host.Outcome State Fault Refusal :=
  uniWord (.trap h n) h s (fun s g _ => (s.softTrap g h.bnd 0x09 (n.setWidth 64), .done))

def execBkpt (h : Hdr) (n : BitVec 12) (s : State) : Host.Outcome State Fault Refusal :=
  uniWord (.bkpt h n) h s (fun s g x =>
    if (s.reg (hubBase + 0x250000)).getLsbD 0 then
      let s := s.requestFreeze { tick := s.tick.toNat, cause := 2, core := x.core, slot := x.slot, widx := 0, bkn := n.toNat,
                                 pc := (x.flow.pc.setWidth 64) <<< 3 }
      -- the group stops before its next word, whichever request is recorded
      ({ s with dbg := { s.dbg with stops := (g, x.team) :: s.dbg.stops } }, .on)
    else (s.softTrap g h.bnd 0x38 (n.setWidth 64), .done))

/-- `rte` with its depth checks (R198): a failed one is a trap while a trap is active. -/
def State.rteWord (s : State) (g : Nat) (x : Group) (drop skip : Bool) : State × Ends :=
  if x.flow.stack.length ≠ x.trap.entryDepth then (s.divStack g 3, .done)
  else if !drop && decide (32 < x.flow.stack.length + (recWords x.defs).length) then (s.divStack g 1, .done)
  else
    -- a Quire invocation that was stopped is given up with `skip` (R324)
    let s := if skip then s.setGrp g { x with q := { x.q with active := false } } else s
    (s.returnFromTrap g drop skip, .done)

def execRte (h : Hdr) (s : State) : Host.Outcome State Fault Refusal :=
  word (.rte h) s (fun s g x => s.rteWord g x false false)

def execRteSkip (h : Hdr) (s : State) : Host.Outcome State Fault Refusal :=
  word (.rteSkip h) s (fun s g x =>
    s.rteWord g x false true)

def execRteDrop (h : Hdr) (skip : Bool) (s : State) : Host.Outcome State Fault Refusal :=
  word (.rteDrop h skip) s (fun s g x =>
    s.rteWord g x true skip)

def execHalt (h : Hdr) (s : State) : Host.Outcome State Fault Refusal :=
  uniWord (.halt h) h s (fun s g _ =>
    (s.updGrp g (fun x => { x with sched := { x.sched with halted := true } }), .run))

def execTick (h : Hdr) (d : Operand) (s : State) : Host.Outcome State Fault Refusal :=
  uniWord (.tick h d) h s (fun s g _ => (s.updGrp g (fun x => x.write d [0] (fun _ => s.tick)), .on))

/-! ### Control registers (R59 to R61, R95 to R100, R177) -/

/-- STATUS (R97). -/
def State.statusWord (s : State) (g : Nat) (x : Group) : Word :=
  BitVec.ofNat 64 ((if x.sup then 1 else 0) + s.effPrio g * 2 + x.slot * 2 ^ 6 +
    (if x.port = some true then 2 ^ 12 else 0) + x.vregs * 2 ^ 13)

/-- CTX_ID (R97). -/
def State.ctxIdWord (s : State) (c : Nat) : Word :=
  BitVec.ofNat 64 (c + s.ctxPart c * 2 ^ 6 + (if s.ctxSup c then 2 ^ 10 else 0))

/-- A context's control registers by address. -/
def CtxRegs.read (r : CtxRegs) (n : Nat) : Word :=
  match n with
  | 0x005 => r.ageLimit.setWidth 64
  | 0x006 => r.leaseLen.setWidth 64
  | 0x017 => (r.trapVec.setWidth 64) <<< 3
  | n => if 0x40 ≤ n ∧ n < 0x50 then Tab.get 0 (n - 0x40) r.qbind else 0

/-- The value of a control register as a group reads it. -/
def State.csrRead (s : State) (g : Nat) (x : Group) (n : Nat) : Word :=
  match n with
  | 0x000 => s.statusWord g x
  | 0x001 => s.ctxIdWord x.ctx
  | 0x002 => x.fp.ctl.setWidth 64
  | 0x003 => x.fp.flags.setWidth 64
  | 0x004 => x.fp.seed.setWidth 64
  | 0x010 => x.trap.cause.setWidth 64
  | 0x011 => (x.trap.pc.setWidth 64) <<< 3
  | 0x012 => x.trap.addr
  | 0x013 => x.trap.info
  | 0x014 => (x.trap.lanes.extractLsb' 0 32).setWidth 64
  | 0x015 => (x.trap.lanes.extractLsb' 32 32).setWidth 64
  | 0x016 => (x.trap.lanes.extractLsb' 64 32).setWidth 64
  | 0x020 => x.fp.miterState
  | 0x021 => x.fp.miterCap.setWidth 64
  | 0x022 => x.fp.miterTol.setWidth 64
  | n => (s.ctxRegs x.core x.ctx).read n

/-- The RW bits of a control register. -/
def csrRw (n : Nat) : Word :=
  match n with
  | 0x002 => 0x1F
  | 0x004 | 0x022 => 0xFFFFFFFF
  | 0x005 | 0x021 => 0xFFFF
  | 0x006 => 0x1FFFF
  | 0x017 => fieldMask 3 54
  | 0x020 => 0xFFFFFFFF003FFFFF
  | n => if 0x40 ≤ n ∧ n < 0x50 then 0x80000001FF7FFFFF else 0

/-- The W1C bits of a control register: FP_FLAGS. -/
def csrW1c (n : Nat) : Word := if n = 0x003 then 0x1F else 0

/-- QBIND under R313: a binding that its limits refuse is stored with V clear. -/
def qbindStore (v : Word) : Word :=
  let len := bits v 8 8
  if len = 0 ∨ 128 < len ∨ 256 < bits v 0 8 + len then v &&& ~~~fieldMask 63 1 else v

/-- Stores into a context's control register what Apply gives it (R38, R97, R313). -/
def CtxRegs.store (r : CtxRegs) (n : Nat) (v : Word) : CtxRegs :=
  match n with
  | 0x005 => { r with ageLimit := if v.setWidth 16 = 0#16 then 1 else v.setWidth 16 }
  | 0x006 => { r with leaseLen := BitVec.ofNat 17 (max 16 (min 65536 (bits v 0 17))) }
  | 0x017 => { r with trapVec := v.extractLsb' 3 54 }
  | n => if 0x40 ≤ n ∧ n < 0x50 then { r with qbind := Tab.set 0 (n - 0x40) (qbindStore v) r.qbind } else r

/-- Stores into a group's control register what Apply gives it (R59 to R61, R177). -/
def Group.csrStore (x : Group) (n : Nat) (v : Word) : Group :=
  match n with
  | 0x002 => { x with fp := { x.fp with ctl := if 6 ≤ bits v 0 3 then v.setWidth 5 &&& 0x18 else v.setWidth 5 } }
  | 0x003 => { x with fp := { x.fp with flags := v.setWidth 5 } }
  | 0x004 =>
    let seed : BitVec 32 := v.setWidth 32
    { x with fp := { x.fp with seed := seed, gens := seedGens seed x.slot, mgens := seedGens seed x.slot } }
  | 0x020 => { x with fp := { x.fp with miterState := if bits v 16 2 = 3 then v &&& ~~~fieldMask 16 2 else v } }
  | 0x021 => { x with fp := { x.fp with miterCap := v.setWidth 16 } }
  | 0x022 => { x with fp := { x.fp with miterTol := v.setWidth 32 } }
  | _ => x

/-- What a control register instruction does to a value (R100). -/
inductive CsrOp where
  | read | write | set | clear
  deriving DecidableEq, Repr

/-- Apply (R4, R100). -/
def csrApply (op : CsrOp) (n : Nat) (old a : Word) : Word :=
  match op with
  | .read => old
  | .write => (old &&& ~~~csrRw n &&& ~~~(csrW1c n &&& a)) ||| (a &&& csrRw n)
  | .set => old ||| (a &&& csrRw n)
  | .clear => old &&& ~~~(a &&& (csrRw n ||| csrW1c n))

/-- The cores on which a context has groups. -/
def State.coresOf (s : State) (c : Nat) : List Nat :=
  ((s.groups.filter (fun e => decide (e.2.ctx = c))).map (fun e => e.2.core)).dedup

/-- A context write has reached every core: the old value goes to the writer's destination (R98). -/
def State.ctxWritten (s : State) (w : CtxWrite) : State :=
  match w.reg with
  | some r =>
    if s.hasGrp w.grp && decide ((s.grp w.grp).team = w.team) then
      let res : Result := { grp := w.grp, regs := [r], vals := [(r, 0, w.old)], flags := 0, fp := false, raw := [], fault := none }
      (s.setSys { s.sys with results := Tab.put w.tok res s.sys.results }).post (.resultWriteback w.tok)
    else s
  | none => s

/-- A write of a context-scoped register (R98): performed at the context table, then copied to each core with groups of the
context; the old value goes to the writer's destination when every core has the new one, at once where the context has no groups. -/
def State.ctxWrite (s : State) (g c n : Nat) (v : Word) (d : Operand) : State :=
  let cores := s.coresOf c
  let k := s.ctx c
  let old := k.regs.read n
  let copies := cores.foldl (fun t core => if (Tab.find? core t).isSome then t else Tab.put core k.regs t) k.copies
  let s := s.setCtx c { k with regs := k.regs.store n v, copies := copies }
  let (id, s) := s.fresh
  let (tok, s) := s.fresh
  let s := match regOf d with
    | some r => s.updGrp g (fun x => { x with regs := x.regs.drain r tok })
    | none => s
  let w : CtxWrite := { id := id, ctx := c, addr := n, val := v, left := cores, grp := g, team := (s.grp g).team, tok := tok,
                        reg := regOf d, old := old }
  if cores.isEmpty then s.ctxWritten w
  else
    let s := s.setHub { s.hub with ctxWrites := s.hub.ctxWrites ++ [w] }
    cores.foldl (fun s core => s.post (.contextCsrPropagated id core)) s

/-- Keeps the LEASE_LEN of a context on a core as this tick found it (R228). -/
def State.keepLease (s : State) (core ctx : Nat) : State :=
  let k := 64 * core + ctx
  if (Tab.find? k s.sys.leaseWas).isSome then s
  else s.setSys { s.sys with leaseWas := Tab.put k (s.ctxRegs core ctx).leaseLen.toNat s.sys.leaseWas }

/-- A write reaches a core (R98): writes of one context reach it in order. With the last core the writer's destination fills. -/
def execContextCsrPropagated (id core : Nat) (s : State) : Host.Outcome State Fault Refusal :=
  match s.hub.ctxWrites.find? (fun w => decide (w.id = id)) with
  | none => .next s
  | some w =>
    if !w.left.contains core then .next s
    else if s.hub.ctxWrites.any (fun v => decide (v.id < id ∧ v.ctx = w.ctx) && v.left.contains core) then
      .next (s.later (.contextCsrPropagated id core))
    else
      let s := if w.addr = 0x006 then s.keepLease core w.ctx else s
      let k := s.ctx w.ctx
      let behind := s.hub.ctxWrites.any (fun v => decide (id < v.id ∧ v.ctx = w.ctx) && v.left.contains core)
      let copies := if behind then Tab.put core ((Tab.get k.regs core k.copies).store w.addr w.val) k.copies
        else Tab.del core k.copies
      let s := s.setCtx w.ctx { k with copies := copies }
      let left := w.left.filter (fun c => decide (c ≠ core))
      if left.isEmpty then
        .next ((s.setHub { s.hub with ctxWrites := s.hub.ctxWrites.filter (fun v => decide (v.id ≠ id)) }).ctxWritten w)
      else .next (s.setHub { s.hub with ctxWrites := s.hub.ctxWrites.map (fun v =>
        if v.id = id then { v with left := left } else v) })

/-- Whether a matrix word of a group is queued that `p` tells. -/
def State.mxQueued (s : State) (g : Nat) (x : Group) (p : MxOp → Bool) : Bool :=
  (s.team x.team).mx.any (fun m => decide (m.grp = g) && p m.op)

/-- Matrix words that can raise a flag, and `miter` (R60, R177). -/
def MxOp.flags : MxOp → Bool
  | .acvt .. | .mdrain .. => true
  | _ => false
/-- Matrix words that draw from the group's matrix generators (R61). -/
def MxOp.draws : MxOp → Bool
  | .mdrain _ _ _ _ _ .sr .. => true
  | _ => false
def MxOp.isMiter : MxOp → Bool
  | .miter .. => true
  | _ => false

/-- Whether an access to a control register waits at issue: FP_FLAGS behind words that can raise a flag, MITER_STATE behind a
`miter`, SR_SEED behind matrix words whose draws the new seed would govern (R59, which names no waiting: log entry 103). -/
def State.csrWaits (s : State) (g : Nat) (x : Group) (n : Nat) : Bool :=
  (decide (n = 0x004) && s.mxQueued g x MxOp.draws) ||
  (decide (n = 0x003) && (s.sys.results.any (fun r => decide (r.2.grp = g) && r.2.fp) || s.mxQueued g x MxOp.flags)) ||
    (decide (n = 0x020) && s.mxQueued g x MxOp.isMiter)

/-- A control register instruction (R100). -/
def State.csrWord (s : State) (g : Nat) (x : Group) (op : CsrOp) (d a : Operand) (addr : BitVec 12) : State × Ends :=
  let n := addr.toNat
  if s.csrWaits g x n then (s, .wait)
  else
    let av := s.rd x a 0
    let old := s.csrRead g x n
    if csrIsCtx addr && decide (op ≠ .read) then
      if csrRw n = 0 then (s.sendValue g d old, .on)
      else (s.ctxWrite g x.ctx n (csrApply op n ((s.ctx x.ctx).regs.read n) av) d, .on)
    else
      let x := if op = .read ∨ (csrRw n = 0 ∧ csrW1c n = 0) then x else x.csrStore n (csrApply op n old av)
      (s.setGrp g (x.write d [0] (fun _ => old)), .on)

def execCsrr (h : Hdr) (d : Operand) (addr : BitVec 12) (s : State) : Host.Outcome State Fault Refusal :=
  uniWord (.csrr h d addr) h s (fun s g x => s.csrWord g x .read d .zero addr)

def execCsrw (h : Hdr) (d a : Operand) (addr : BitVec 12) (s : State) : Host.Outcome State Fault Refusal :=
  uniWord (.csrw h d a addr) h s (fun s g x => s.csrWord g x .write d a addr)

def execCsrs (h : Hdr) (d a : Operand) (addr : BitVec 12) (s : State) : Host.Outcome State Fault Refusal :=
  uniWord (.csrs h d a addr) h s (fun s g x => s.csrWord g x .set d a addr)

def execCsrc (h : Hdr) (d a : Operand) (addr : BitVec 12) (s : State) : Host.Outcome State Fault Refusal :=
  uniWord (.csrc h d a addr) h s (fun s g x => s.csrWord g x .clear d a addr)

/-! ### `tlbi` (R354, R360 to R362) -/

/-- Whether a context may act on another (R354). -/
def State.mayName (s : State) (ctx c : Nat) : Bool := decide (s.ctxPart ctx = 0 ∨ s.ctxPart ctx = s.ctxPart c)

/-- Whether a `tlbi` drops a leaf (R362): for a page of size 2^`n`, each that translates a byte of it. -/
def TlbiWhat.drops (w : TlbiWhat) (c n : Nat) (e : TlbEntry) : Bool :=
  match w with
  | .all => true
  | .context => decide (e.ctx = c)
  | .page va _ => decide (e.ctx = c ∧ (e.vpage * 2 ^ e.logSize / 2 ^ n = vaOf va / 2 ^ n ∨ e.vpage = vaOf va / 2 ^ e.logSize))

/-- The size of the page that holds an address, as the tables have it now, and as the leaves that are still cached have it. -/
def State.tlbiSize (s : State) (t : Tlbi) : Nat :=
  match t.what with
  | .page va _ =>
    let now := match s.walk t.ctx (vaOf va) with | .leaf _ n => n | _ => 14
    (s.sys.tlbs.filter (fun e => decide (e.ctx = t.ctx ∧ e.vpage = vaOf va / 2 ^ e.logSize))).foldl (fun n e => max n e.logSize) now
  | _ => 14

/-- Whether an access uses a leaf that a `tlbi` drops. -/
def TlbiWhat.used (w : TlbiWhat) (c ctx : Nat) (gone : List TlbEntry) (accs : List PAcc) : Bool :=
  match w with
  | .all => true
  | .context => decide (ctx = c)
  | .page _ _ => decide (ctx = c) && accs.any (fun a =>
      gone.any (fun e => decide (vaOf a.acc.va / 2 ^ e.logSize = e.vpage)))

/-- The words with accesses under way, by group, team and place, that used a dropped leaf. -/
def State.tlbiUsers (s : State) (w : TlbiWhat) (c : Nat) (gone : List TlbEntry) : List (Nat × Nat × Nat) :=
  let key (i : WordInfo) : Nat × Nat × Nat := (i.grp, i.team, i.seq)
  let ctxOf (g : Nat) : Nat := (s.grp g).ctx
  (s.sys.reqs.filter (fun q => w.used c q.ctx gone q.accs)).map (fun q => key q.info) ++
    (s.fab.reqs.filter (fun q => w.used c q.ctx gone q.accs)).map (fun q => key q.info) ++
    (s.repl.strongs.filter (fun q => w.used c (ctxOf q.info.grp) gone q.accs)).map (fun q => key q.info) ++
    s.repl.dies.flatMap (fun r => (r.2.unacked.filter (fun p => decide (w = .all) || decide (ctxOf p.1.grp = c))).map
      (fun p => (p.1.grp, p.1.team, p.1.seq)))

/-- Whether the accesses of a word are performed at package scope. -/
def State.keyDone (s : State) (k : Nat × Nat × Nat) : Bool :=
  let mine (i : WordInfo) : Bool := decide ((i.grp, i.team, i.seq) = k)
  s.sys.reqs.all (fun q => !mine q.info) &&
    s.fab.reqs.all (fun q => !mine q.info || q.accs.all (fun a => !a.acc.op.returns)) &&
    s.repl.strongs.all (fun q => !mine q.info) &&
    s.repl.dies.all (fun r => r.2.unacked.all (fun p =>
      !decide ((p.1.grp, p.1.team, p.1.seq) = k) || p.2.all (fun d => !s.repl.live.getLsbD d)))

/-- Recall of every granted sub-granule of the granules of a frame (R225, R362). -/
def State.recallFrame (s : State) (pa n : Nat) : State :=
  (s.sys.own.filter (fun o => decide (pa / 65536 ≤ o.1 ∧ o.1 * 65536 < pa + n))).foldl (fun s o =>
    (List.range 16).foldl (fun s k => s.recallSub (o.1 * 16 + k)) s) s

/-- The drops and the recall of a `tlbi`, once its release is performed. -/
def State.tlbiDrop (s : State) (t : Tlbi) : State :=
  let n := s.tlbiSize t
  let gone := s.sys.tlbs.filter (fun e => t.what.drops t.ctx n e)
  let users := s.tlbiUsers t.what t.ctx gone
  let s := s.setSys { s.sys with
    tlbs := s.sys.tlbs.filter (fun e => !t.what.drops t.ctx n e),
    nonLeaf := s.sys.nonLeaf.filter (fun e => !(decide (t.what = .all) || decide (e.ctx = t.ctx))),
    tlbis := s.sys.tlbis.map (fun k => if k.id = t.id then { k with dropped := true, users := users } else k) }
  match t.what with
  | .page va true => match s.walk t.ctx (vaOf va) with
    | .leaf e n => if pteKind e = 2 then s.recallFrame (pteFrame e * 2 ^ 14) (2 ^ n) else s
    | _ => s
  | _ => s

/-- Whether a touched sub-granule of an executing Quire invocation puts off the recall of a `tlbi` (R326), which takes whole granules. -/
def State.tlbiHeld (s : State) (t : Tlbi) : Bool :=
  match t.what with
  | .page va true => match s.walk t.ctx (vaOf va) with
    | .leaf e n => decide (pteKind e = 2) && s.quireHolds (pteFrame e / 4 * 16) ((pteFrame e * 2 ^ 14 + 2 ^ n + 65535) / 65536 * 16)
    | _ => false
  | _ => false

/-- A `tlbi` goes on (R362): its release, its drops, and the accesses that used a dropped leaf. -/
def execTlbiComplete (id : Nat) (s : State) : Host.Outcome State Fault Refusal :=
  match s.sys.tlbis.find? (fun t => decide (t.id = id)) with
  | none => .next s
  | some t =>
    if !t.dropped then
      if s.lsDone t.grp t.team t.seq .package true && !s.tlbiHeld t then .next ((s.tlbiDrop t).later (.tlbiComplete id))
      else .next (s.later (.tlbiComplete id))
    else if t.users.all s.keyDone then
      .next (s.setSys { s.sys with tlbis := s.sys.tlbis.filter (fun k => decide (k.id ≠ id)) })
    else .next (s.later (.tlbiComplete id))

/-- A `tlbi` issues (R362). A context outside the issuer's partitions fails every executing lane with ACCESS, detail 10. -/
def State.tlbiWord (s : State) (g : Nat) (x : Group) (b : Option Operand) (what : TlbiWhat) : State × Ends :=
  if s.sys.tlbis.any (fun t => decide (t.grp = g ∧ t.team = x.team)) then (s, .wait)
  else
    let bv := match b with | some o => (s.rd x o 0).toNat | none => x.ctx
    let c := bv % 64
    if b.isSome && (decide (63 < bv) || !s.mayName x.ctx c) then
      let addr : Word := match what with | .page va _ => va | _ => 0
      (s.updGrp g (fun x => x.deferLanes x.flow.mask 0x11 10 addr x.flow.pc), .on)
    else
      let (id, s) := s.fresh
      let t : Tlbi := { id := id, grp := g, team := x.team, seq := x.mem.seq, ctx := c, what := what, dropped := false,
                        users := [] }
      let s := s.updGrp g (fun x => { x with mem := { x.mem with seq := x.mem.seq + 1 } })
      ((s.setSys { s.sys with tlbis := s.sys.tlbis ++ [t] }).post (.tlbiComplete id), .on)

def execTlbiPage (h : Hdr) (a : Operand) (b : Option Operand) (s : State) : Host.Outcome State Fault Refusal :=
  uniWord (.tlbiPage h a b) h s (fun s g x => s.tlbiWord g x b (.page (s.rd x a 0) false))

def execTlbiPageRecall (h : Hdr) (a : Operand) (b : Option Operand) (s : State) : Host.Outcome State Fault Refusal :=
  uniWord (.tlbiPageRecall h a b) h s (fun s g x => s.tlbiWord g x b (.page (s.rd x a 0) true))

def execTlbiContext (h : Hdr) (b : Option Operand) (s : State) : Host.Outcome State Fault Refusal :=
  uniWord (.tlbiContext h b) h s (fun s g x => s.tlbiWord g x b .context)

def execTlbiAll (h : Hdr) (s : State) : Host.Outcome State Fault Refusal :=
  uniWord (.tlbiAll h) h s (fun s g x => s.tlbiWord g x none .all)

end Sys2Proof.Machine
end

