-- ==== Sys2Proof/Machine/Quire.lean ====
section
/-!
DEFINITION. Machine/Quire.lean: the Quire store: partitions, images and their checks, bound words, micro-operations, and the
words `qload`, `qbind` and `qstat` (R310 to R331).
-/
namespace Sys2Proof.Machine

/-! ### Partitions (R310, R311) -/

/-- The number of a core's partition that a context holds. -/
def State.partOf (s : State) (core ctx : Nat) : Option Nat :=
  (List.find? (fun e : Nat × QPart => decide (e.2.ctx = some ctx)) (s.core core).quire).map Prod.fst

/-- Whether an invocation of a context executes on a core. -/
def State.quireRuns (s : State) (core ctx : Nat) : Bool :=
  s.groups.any (fun e => decide (e.2.core = core ∧ e.2.ctx = ctx) && e.2.q.running)

def QPart.empty : QPart := { ctx := none, ops := [], since := 0 }

def State.part (s : State) (core p : Nat) : QPart := Tab.get QPart.empty p (s.core core).quire

/-- The partition that a fill takes: a free one, or of those with no invocation executing the one with the oldest last
invocation, or fill where there is none, the lowest of equals (log entry 116). -/
def State.partVictim (s : State) (core : Nat) : Option Nat :=
  match (List.range 4).find? (fun p => decide ((s.part core p).ctx = none)) with
  | some p => some p
  | none =>
    ((List.range 4).filter (fun p => match (s.part core p).ctx with
      | some c => !s.quireRuns core c
      | none => false)).foldl (fun b p => match b with
        | none => some p
        | some o => if (s.part core p).since < (s.part core o).since then some p else b) none

/-- The physical address of a context's backing area (R354). -/
def State.qback (s : State) (c : Nat) : Nat := (s.reg (ctxEntry c + 0x20)).toNat

/-- The micro-operations of a backing area. -/
def State.backing (s : State) (c : Nat) : Tab (BitVec 128) :=
  (List.range 256).foldl (fun t k => Tab.set 0 k (BitVec.ofNat 128 (s.load (s.forwardPa (s.qback c + 16 * k)) 16)) t) []

/-- Copies a context's backing area into a partition. -/
def State.fillPart (s : State) (core p c : Nat) : State :=
  let new : QPart := { ctx := some c, ops := s.backing c, since := s.tick.toNat }
  s.updCore core (fun k => { k with quire := Tab.put p new k.quire })

def execQuirePartitionFill (core part ctx : Nat) (s : State) : Host.Outcome State Fault Refusal :=
  if decide (core < 832 ∧ part < 4 ∧ ctx < 64) && (s.partOf core ctx).isNone &&
      (decide ((s.part core part).ctx = none) || decide (s.partVictim core = some part)) then
    .next (s.fillPart core part ctx)
  else .next s

/-- Asks for a partition for a context on a core, where it holds none and one can be had. -/
def State.askFill (s : State) (core ctx : Nat) : State :=
  if (s.partOf core ctx).isSome then s
  else match s.partVictim core with
    | some p => s.later (.quirePartitionFill core p ctx)
    | none => s

/-- The fill at the placement of a team: of a context with a bound opcode, on a compute-die core. -/
def State.postFill (s : State) (core ctx : Nat) : State :=
  if !isControl core && (s.ctxRegs core ctx).qbind.any (fun e => e.2.getLsbD 63) then s.askFill core ctx else s

/-- The image generation of a context (R327, R354). -/
def State.qgen (s : State) (c : Nat) : BitVec 16 := (s.reg (ctxEntry c + 0x28)).setWidth 16

/-! ### The micro-operation word (R316 to R319) -/

abbrev UOp := BitVec 128

def UOp.op (u : UOp) : Nat := bits u 122 6
def UOp.mod (u : UOp) : Nat := bits u 114 8
def UOp.d (u : UOp) : Nat := bits u 108 6
def UOp.s1 (u : UOp) : Nat := bits u 102 6
def UOp.s2 (u : UOp) : Nat := bits u 96 6
def UOp.s3 (u : UOp) : Nat := bits u 90 6
def UOp.i (u : UOp) : Bool := u.getLsbD 89
def UOp.tgt (u : UOp) : Nat := bits u 64 7
def UOp.imm (u : UOp) : Word := u.setWidth 64

/-- A field of a micro-operation that holds a selector. -/
inductive USel where
  | d | s1 | s2 | s3
  deriving DecidableEq, Repr

def UOp.sel (u : UOp) : USel → Nat
  | .d => u.d | .s1 => u.s1 | .s2 => u.s2 | .s3 => u.s3

/-- Vector and uniform selectors (R317). -/
def qVec (n : Nat) : Bool := decide (n < 8 ∨ n = 0x0D)
def qUni (n : Nat) : Bool := decide (8 ≤ n ∧ n ≤ 0x0C)

/-- A row of the table of micro-operations (R318): the selectors used, the assigned bits of MOD, the source that the immediate
replaces. -/
structure URow where
  used : List USel
  mod : Nat
  imm : Option USel
  deriving DecidableEq, Repr

def urow (op : Nat) (init : Bool) : Option URow :=
  match op with
  | 0x00 => some ⟨[], 0, none⟩
  | 0x01 => some ⟨[.d], 7, none⟩
  | 0x02 => some ⟨[.s1], 0, some .s1⟩
  | 0x03 => some ⟨[.d, .s1], 0, some .s1⟩
  | 0x04 | 0x05 | 0x06 | 0x07 | 0x08 | 0x09 | 0x0A | 0x0B | 0x0F | 0x10 => some ⟨[.d, .s1, .s2], 0, some .s2⟩
  | 0x0C => some ⟨[.d, .s1, .s2], 3, some .s2⟩
  | 0x0D | 0x11 => some ⟨[.d, .s1, .s2, .s3], 0, some .s2⟩
  | 0x0E => some ⟨[.d, .s1, .s2], 15, some .s2⟩
  | 0x12 => some ⟨[.d, .s1, .s2], 1, some .s2⟩
  | 0x13 | 0x14 => some ⟨[.d, .s1], 0, none⟩
  | 0x15 | 0x17 => some ⟨[.d, .s1, .s2, .s3], 0, some .s3⟩
  | 0x16 => some ⟨[.d, .s1, .s3], 1, some .s3⟩
  | 0x18 => some ⟨[.d, .s1], 255, none⟩
  | 0x19 => some ⟨[.s1, .s2], 255, none⟩
  | 0x1A => some ⟨[.s1], 3, none⟩
  | 0x1B => if init then some ⟨[.s1], 1, some .s1⟩ else some ⟨[], 1, none⟩
  | _ => none

def UOp.row (u : UOp) : Option URow := urow u.op (decide (u.mod % 2 = 1))

/-- The selectors that a micro-operation reads or writes. -/
def UOp.live (u : UOp) (r : URow) : List USel := r.used.filter (fun k => !(u.i && decide (r.imm = some k)))

/-- Whether it works on vectors: its destination is one; without one, a source is. -/
def UOp.vec (u : UOp) : Bool :=
  match u.row with
  | none => false
  | some r =>
    if r.used.contains .d && decide (u.d ≠ 0x0E) then qVec u.d
    else (u.live r).any (fun k => decide (k ≠ .d) && qVec (u.sel k))

/-- Bytes of an SZ code (R251), and whether it is signed. -/
def uSize (mod : Nat) : Nat := match mod % 8 with | 0 | 1 => 1 | 2 | 3 => 2 | 4 | 5 => 4 | 6 => 8 | _ => 16
def uSigned (mod : Nat) : Bool := decide (mod % 8 = 1 ∨ mod % 8 = 3 ∨ mod % 8 = 5)
def uGlb (mod : Nat) : Bool := decide (mod / 8 % 2 = 1)
def uRem (mod : Nat) : Bool := decide (mod / 16 % 2 = 1)
def uSeg (mod : Nat) : Nat := mod / 32

/-- The bit of MASK that a micro-operation needs (R312, R318). -/
def UOp.needs (u : UOp) : Option Nat :=
  match u.op with
  | 0x0E => if 8 ≤ u.mod then some 5 else none
  | 0x0F | 0x10 | 0x11 | 0x12 => some 5
  | 0x13 | 0x14 => some 6
  | 0x18 => some (if uGlb u.mod then 3 else if uRem u.mod then 2 else 0)
  | 0x19 => some (if uGlb u.mod then 4 else if uRem u.mod then 2 else 1)
  | _ => none

/-! ### The checks of an image (R321) -/

/-- The limits of `ld` and `st` (R319); a SEG that a local access leaves unassigned is among them (log entry 63). -/
def UOp.memOk (u : UOp) : Bool :=
  let st := decide (u.op = 0x19)
  let m := u.mod
  !(decide (m % 8 = 7) || (decide (m % 8 = 6) && !st && qVec u.d) || (st && uSigned m) || (uRem m && uGlb m) ||
    (if uGlb m then decide (uSeg m = 0 ∨ 3 < uSeg m) || (st && decide (uSeg m = 3)) else decide (uSeg m ≠ 0)))

/-- Whether micro-operation `k` of an image of `len` fails a check of R321, by its reason; `init` is the place of the first
`loop.init`. -/
def UOp.refused (u : UOp) (reason k len init : Nat) : Bool :=
  match u.row with
  | none => decide (reason = 3)
  | some r =>
    let live := u.live r
    match reason with
    | 4 => decide (bits u 71 18 ≠ 0) || decide (u.mod &&& r.mod ≠ u.mod) || decide (u.op = 1 ∧ 4 < u.mod) ||
        (u.i && r.imm.isNone) || [USel.d, .s1, .s2, .s3].any (fun k => !live.contains k && decide (u.sel k ≠ 0))
    | 5 =>
      let d := live.contains .d
      live.any (fun k => decide (0x0E < u.sel k)) || (d && decide (u.d = 0x0C ∨ u.d = 0x0D)) ||
        (d && qUni u.d && live.any (fun k => decide (k ≠ .d) && qVec (u.sel k))) ||
        (decide (u.op = 0x18 ∨ u.op = 0x19) && !u.memOk) ||
        (decide (u.op = 0x1A) && (if u.mod < 2 then qVec u.s1 else qUni u.s1))
    | 6 => (decide (u.op = 0x1A) && decide (u.tgt ≤ k ∨ len ≤ u.tgt)) ||
        (decide (u.op = 0x1B ∧ u.mod % 2 = 0) && decide (len ≤ u.tgt))
    | 7 => decide (u.op = 0x1B ∧ u.mod % 2 = 0 ∧ k ≤ init)
    | 8 => decide (k + 1 = len ∧ u.op ≠ 0)
    | _ => false

/-- The first failing check of an image's micro-operations: its reason, and the index of the first that fails it. -/
def imageCheck (ops : List UOp) : Option (Nat × Nat) :=
  let init := (ops.findIdx? (fun u => decide (u.op = 0x1B ∧ u.mod % 2 = 1))).getD ops.length
  [3, 4, 5, 6, 7, 8].findSome? (fun r =>
    ((List.range ops.length).find? (fun k => match ops[k]? with
      | some u => UOp.refused u r k ops.length init
      | none => false)).map (fun k => (r, k)))

/-! ### Temporaries (R317) -/

def QState.sel (q : QState) (n l : Nat) : Word :=
  if n < 8 then (Tab.get 0 l (Tab.get [] n q.qt)).setWidth 64
  else if n < 12 then Tab.get 0 (n - 8) q.qq
  else if n = 12 then q.lc
  else if n = 13 then BitVec.ofNat 64 l
  else 0

/-- Writes a destination selector: the lanes of a vector, the one value of a uniform; `zero` discards. -/
def QState.put (q : QState) (n : Nat) (vals : List (Nat × Word)) : QState :=
  if n < 8 then
    { q with qt := Tab.set [] n (vals.foldl (fun t e => Tab.set 0 e.1 (e.2.setWidth 32) t) (Tab.get [] n q.qt)) q.qt }
  else if n < 12 then
    match vals with
    | e :: _ => { q with qq := Tab.set 0 (n - 8) e.2 q.qq }
    | [] => q
  else q

/-- The lanes of an invocation in which a micro-operation executes: all of E, or once. -/
def QState.on (q : QState) (vec : Bool) : List Nat := if vec then lanesOf q.lanes else (lanesOf q.lanes).take 1

/-- A source value of a micro-operation in a lane. -/
def UOp.src (u : UOp) (q : QState) (r : URow) (k : USel) (l : Nat) : Word :=
  let v := if u.i && decide (r.imm = some k) then u.imm else q.sel (u.sel k) l
  if u.vec then (v.setWidth 32).setWidth 64 else v

/-! ### Arithmetic micro-operations (R318) -/

/-- The value of a micro-operation from its sources, with its flags. -/
def uopVal (x : Group) (op mod : Nat) (vec : Bool) (a b c : Word) : Word × FFlags :=
  let f (v : Word) : Nat := v.toNat % 2 ^ 32
  let fp (r : Nat × FFlags) : Word × FFlags := (BitVec.ofNat 64 r.1, r.2)
  let int (o : PBin) : Word × FFlags := (pbinVal o (!vec) a b, 0)
  let cc : Cond := (Cond.all[mod % 8]?).getD .eq
  match op with
  | 0x03 => (a, 0)
  | 0x04 => int .iadd
  | 0x05 => int .isub
  | 0x06 => int .and
  | 0x07 => int .or
  | 0x08 => int .xor
  | 0x09 => int .shl
  | 0x0A => int .shr
  | 0x0B => int .sar
  | 0x0C => int (match mod % 4 with | 0 => .imin | 1 => .imax | 2 => .iminU | _ => .imaxU)
  | 0x0D => (if c ≠ 0 then a else b, 0)
  | 0x0E => if 8 ≤ mod then fcmpBits x cc (f a) (f b) else (boolWord (icmpHolds cc (!vec) a b), 0)
  | 0x0F => fp (pfbinVal .fadd x (f a) (f b))
  | 0x10 => fp (pfbinVal .fmul x (f a) (f b))
  | 0x11 => fp (fmaBits x (f a) (f b) (f c))
  | 0x12 => fp (pfbinVal (if mod % 2 = 1 then .fmax else .fmin) x (f a) (f b))
  | 0x13 => fp (sfnBits x .rcp (f a))
  | 0x14 => fp (sfnBits x .exp2 (f a))
  | 0x15 => (permbVal a b (c &&& 0xFFFFF), 0)
  | 0x16 => (bfxVal (if mod % 2 = 1 then (if vec then .s32 else .s64) else (if vec then .u32 else .u64)) a c, 0)
  | _ => (bfiVal (if vec then .u32 else .u64) a b c, 0)

/-- What a micro-operation comes to: the next one; a trap with its reason, underlying cause and detail, lanes and address; a
stop for a replay; a wait; the end. -/
inductive UEnd where
  | to (n : Nat)
  | stop (reason subc subd : Nat) (lanes : Mask) (addr : Word)
  | park
  | wait
  | fin
  deriving DecidableEq, Repr

/-- A micro-operation that computes; it rounds under the FP_CTL of the group as it stands (log entry 63). -/
def Group.uopCompute (x : Group) (u : UOp) (r : URow) : Group :=
  let q := x.q
  let rs := (q.on u.vec).map (fun l => (l, uopVal x u.op u.mod u.vec (u.src q r .s1 l) (u.src q r .s2 l) (u.src q r .s3 l)))
  let fl : FFlags := rs.foldl (fun a e => a ||| e.2.2) 0
  { x.addFlags fl with q := q.put u.d (rs.map (fun e => (e.1, e.2.1))) }

/-- The operand field that `rdop` names. -/
def rdopField (mod : Nat) (d a b c : Operand) : Option Operand :=
  match mod with
  | 0 => some d | 1 => some a | 2 => some b | 3 => some c | _ => none

/-- Whether an operand has a value of its own in each lane. -/
def laneOperand (o : Operand) : Bool :=
  match o with
  | .v _ | .p _ => true
  | .spec k => decide (k = .lane ∨ k = .beat)
  | _ => false

/-- `rdop` (R320): the register as it stands now. -/
def State.uopRdop (s : State) (x : Group) (u : UOp) (d a b c : Operand) (fn : BitVec 14) : Group × UEnd :=
  let q := x.q
  match rdopField u.mod d a b c with
  | none => ({ x with q := q.put u.d ((q.on u.vec).map (fun l => (l, fn.setWidth 64))) }, .to (q.upc + 1))
  | some o =>
    if laneOperand o && qUni u.d then (x, .stop 5 0 0 q.lanes 0)
    else ({ x with q := q.put u.d ((q.on u.vec).map (fun l => (l, s.rd x o l))) }, .to (q.upc + 1))

/-- `bcnd` (R320). -/
def QState.bcnd (q : QState) (u : UOp) : Bool :=
  let nz (l : Nat) : Bool := decide (q.sel u.s1 l ≠ 0)
  match u.mod % 4 with
  | 0 => nz 0
  | 1 => !nz 0
  | 2 => (lanesOf q.lanes).any nz
  | _ => (lanesOf q.lanes).all nz

/-! ### Memory micro-operations (R319, R322, R323, R326) -/

/-- A micro-operation's accesses, one for each lane in which it executes. A uniform address is not cut. -/
def UOp.accs (u : UOp) (q : QState) : List Acc :=
  let off : Word := ((u.imm).setWidth 32).signExtend 64
  (q.on u.vec).map (fun l =>
    mkAcc l (q.sel u.s1 l + off) (if u.op = 0x18 then .load else .store) (uSize u.mod) ((q.sel u.s2 l).setWidth 128) 0)

/-- The lanes for which an access stands. -/
def UOp.laneMask (u : UOp) (q : QState) (l : Nat) : Mask := if u.vec then 1#96 <<< l else q.lanes

/-- What the stores of a micro-operation feed to the CRC, one executing lane at a time (R399). -/
def UOp.crcFeed (u : UOp) (q : QState) (l : List Acc) : List (Word × Nat × BitVec 128) :=
  l.flatMap (fun a => (lanesOf (u.laneMask q a.lane)).map (fun _ => (a.va, a.size, a.data)))

/-- A stop for failing lanes (R322): the lowest failing lane gives cause, detail and address. -/
def UOp.failed (u : UOp) (q : QState) (l : List (Nat × Nat × Nat × Word)) : UEnd :=
  match l with
  | [] => .to (q.upc + 1)
  | f :: _ => .stop 1 f.2.1 f.2.2.1 (l.foldl (fun m e => m ||| u.laneMask q e.1) 0) f.2.2.2

/-- The values that a load writes to its destination. -/
def UOp.loaded (u : UOp) (q : QState) (vals : Tab (BitVec 128)) : QState :=
  q.put u.d (vals.map (fun e => (e.1, extendLoad (uSize u.mod) (uSigned u.mod) e.2)))

/-- A local `ld` or `st`, or one of a cluster member (R262), in the order of LS (R231, R326). -/
def State.uopLocal (s : State) (g : Nat) (u : UOp) : UEnd × State :=
  let x := s.grp g
  let q := x.q
  let t : Option Nat := if uRem u.mod then ((s.cluster (s.team x.team).cluster).teams)[bits u.imm 60 4]? else some x.team
  let l := u.accs q
  let bad := l.filterMap (fun a => (s.localFail t a.va a.size).map (fun f => (a.lane, f.1, f.2, a.va)))
  let key := t.getD x.team
  if s.lsWaits g x then (.wait, s)
  else if !bad.isEmpty then (u.failed q bad, s)
  else if u.op = 0x18 then
    let vals := l.map (fun a => (a.lane, BitVec.ofNat 128 ((s.team key).locLoad a.va.toNat a.size)))
    (.to (q.upc + 1), (s.count (s.team key).core 0x10 (localConflict (l.map (fun a => (a.lane, a.va.toNat))))).setGrp g
      { x with q := u.loaded q vals })
  else
    let s := (s.feedCrc g (u.crcFeed q l)).count (s.team key).core 0x10 (localConflict (l.map (fun a => (a.lane, a.va.toNat))))
    (.to (q.upc + 1), l.foldl (fun s a => s.updTeam key (fun tm => tm.locStore a.va.toNat (bytesOfNum a.size a.data.toNat))) s)

/-- The accesses of a global micro-operation as a word's. -/
def UOp.spec (u : UOp) : MemSpec :=
  { seg := some (match uSeg u.mod with | 1 => .d | 2 => .g | _ => .r), op := if u.op = 0x18 then .load else .store,
    size := uSize u.mod, signed := uSigned u.mod, ord := .weak, scope := .group, dst := .zero }

/-- Whether a global access must wait: an earlier access to the sector through the same L1, a strong operation of the group on its
bytes, a page being moved, a locked line. -/
def State.uopBusy (s : State) (g : Nat) (x : Group) (e : PAcc × Word) : Bool :=
  let d := s.issueDie x.core
  let owner := s.l1Owner x.core e.1.pa g
  s.sys.reqs.any (fun r => r.accs.any (fun b => decide (b.pa / 32 = e.1.pa / 32) &&
      decide (r.info.owner r.core b.pa = owner) && !s.migWaits (.req r.id) b.pa)) ||
    s.behindStrong g x.team s.nextId [e.1] || s.migWaits (.uop g) e.1.pa ||
    (decide (pteKind e.2 = 3) && s.lineStalls d (e.1.pa / 128 * 128 - s.repBase d))

/-- The sub-granule that an access touches under R326, where this die holds it as writer. -/
def State.uopTouch (s : State) (x : Group) (e : PAcc × Word) : Option Nat :=
  match Tab.find? (e.1.pa / 0x10000) s.sys.own with
  | some o => if pteTrk e.2 && o.mask.getLsbD (e.1.pa / 4096 % 16) && decide (o.w = s.issueDie x.core) then some (e.1.pa / 4096)
    else none
  | none => none

/-- Notes the sub-granule that a performed access has touched. -/
def State.uopTouched (s : State) (g : Nat) (x : Group) (e : PAcc × Word) : State :=
  match s.uopTouch x e with
  | some k => s.updGrp g (fun y => { y with q := { y.q with touched := k :: y.q.touched } })
  | none => s

/-- One access at its slice, which nothing refuses; a load starts the fill of its sector. -/
def State.uopServe (s : State) (g : Nat) (x : Group) (u : UOp) (i : WordInfo) (e : PAcc × Word) : Served × State :=
  let s := if u.op = 0x19 ∧ cacheable x.core e.2 then s.l1Store (s.l1Owner x.core e.1.pa g) e.1 else s
  let r := match (if u.op = 0x18 then s.counterKept (g, x.team) e.1.pa else none) with
    | some v => (v.setWidth 128, s)
    | none => s.perform 0 (s.writeDie x.core (s.forwardPa e.1.pa)) e.2 e.1.pa e.1.acc
  let s := match e.1.acc.op.watchKind with
    | some k => r.2.watched i x.ctx (u.laneMask x.q e.1.acc.lane) k e.1.acc.va e.1.acc.size
    | none => r.2
  let s := s.uopTouched g x e
  (.done r.1, if u.op = 0x18 ∧ cacheable x.core e.2 then s.startFill x.core x.ctx (s.l1Owner x.core e.1.pa g) e.2 e.1.pa false else s)

/-- One access performed: from the L1 where its lease serves it, else at its slice. A store whose recall waits for another
invocation does not hold this one up: it is on its way to its slice as a weak store of the group (R225, R326). -/
def State.uopAccess (s : State) (g : Nat) (x : Group) (u : UOp) (i : WordInfo) (e : PAcc × Word) : Served × State :=
  let hit := s.l1Serves x g u.spec e.2 e.1
  let s := s.l1Count x g u.spec [e]
  let home := s.forwardPa e.1.pa
  match hit with
  | some v => (.done v, (s.watched i x.ctx (u.laneMask x.q e.1.acc.lane) .read e.1.acc.va e.1.acc.size).uopTouched g x e)
  | none =>
    match s.refuses x.ctx 0 e.2 e.1.pa e.1.acc with
    | some c => (.fail c.1 c.2, s)
    | none =>
      if u.op = 0x18 then s.uopServe g x u i e
      else match s.recallFirst e.2 (s.writeDie x.core home) home false with
        | some s => s.uopServe g x u i e
        | none =>
          (.done 0, (s.send x i e.2 [e.1]).updGrp g (fun y => { y with mem := { y.mem with seq := i.seq + 1 } }))

/-- The counters that a micro-operation loads and that have not answered yet (R383). -/
def State.uopAsks (s : State) (g : Nat) (x : Group) (u : UOp) (l : List (PAcc × Word)) : List Nat :=
  if u.op ≠ 0x18 then []
  else ((l.filter (fun e => s.readsCounter x.ctx 0 e.2 e.1.pa e.1.acc && (s.counterKept (g, x.team) e.1.pa).isNone)).map
    (fun e => e.1.pa)).dedup

/-- The requests of a micro-operation that its slices accept, one for each line (R253, R382); a store that must recall first is
counted at its slice. -/
def State.uopReqs (s : State) (g : Nat) (x : Group) (u : UOp) (l : List (PAcc × Word)) : State :=
  let sent := l.filter (fun e => (s.l1Serves x g u.spec e.2 e.1).isNone &&
    !(decide (u.op = 0x19) && s.recallDue e.2 (s.writeDie x.core (s.forwardPa e.1.pa)) (s.forwardPa e.1.pa) false))
  ((sent.map (fun e => e.1.pa / 128)).dedup).foldl (fun s n => s.countReq (128 * n)) s

/-- A global `ld` or `st`: every lane is checked before any is performed; a lane without a translation parks the invocation. -/
def State.uopGlobal (s : State) (g : Nat) (u : UOp) : UEnd × State :=
  let x := s.grp g
  let q := x.q
  let l := u.accs q
  if s.lsWaits g x then (.wait, s)
  else
    let r := s.sortLanes x u.spec l
    let o := r.1
    let s := r.2
    let tags := o.send.filter (fun e => !s.tagsFit e.2 e.1.acc.va e.1.pa e.1.acc.size)
    let fails := l.filterMap (fun a => match o.fails.find? (fun f => decide (f.1 = a.lane)) with
      | some f => some f
      | none => if tags.any (fun e => decide (e.1.acc.lane = a.lane)) then some (a.lane, 0x12, 1, a.va) else none)
    if !fails.isEmpty then (u.failed q fails, s)
    else if !o.park.isEmpty then
      (.park, ((s.reportFaults x u.spec.op.faultCode 0 o.faults).count x.core 0x14 ((o.park.map Acc.lane).dedup.length)).updGrp g
        (fun y => { y with sched := { y.sched with lost := (u.spec.op.faultCode, o.faults.map Prod.fst) } }))
    else if o.send.any (fun e => s.uopBusy g x e) then
      -- what waits for a page that is being moved has its place there, at one page at a time (R226)
      (.wait, match (sortNat (o.send.map (fun e => e.1.pa))).find? (s.migWaits (.uop g)) with
        | some pa => s.migQueue (.uop g) pa
        | none => s)
    else if !(s.uopAsks g x u o.send).isEmpty then
      (.wait, (s.uopAsks g x u o.send).foldl (fun s pa => (s.askCounter (g, x.team) pa).2) s)
    else
      let s := (s.migLeave (.uop g)).uopReqs g x u o.send
      let i := localInfo s g x (!u.vec) q.lanes 0 (uSize u.mod) false .zero
      let marked := markStores l
      let send := o.send.map (fun e => ({ e.1 with acc := (marked.find? (fun a => decide (a.lane = e.1.acc.lane))).getD e.1.acc }, e.2))
      let s := s.heatCount x.core (decide (u.op = 0x19)) (send.map (fun e => (e.1.pa, e.2)))
      let w := send.foldl (fun (w : Tab (BitVec 128) × List (Nat × Nat × Nat × Word) × State) e =>
        let v := w.2.2.uopAccess g x u i e
        match v.1 with
        | .done b => (Tab.put e.1.acc.lane b w.1, w.2.1, v.2)
        | .fail c d => (w.1, w.2.1 ++ [(e.1.acc.lane, c, d, e.1.acc.va)], v.2)) ([], [], s)
      let s := w.2.2.dropKept (g, x.team)
      if !w.2.1.isEmpty then (u.failed q w.2.1, s)
      else if u.op = 0x18 then (.to (q.upc + 1), s.updGrp g (fun y => { y with q := u.loaded y.q w.1 }))
      else (.to (q.upc + 1), s.feedCrc g (u.crcFeed q l))

/-! ### Invocations (R314, R315, R320, R322 to R325) -/

/-- Ends or stops the executing of an invocation. -/
def QState.halt (q : QState) : QState := { q with running := false, word := none, touched := [] }

/-- Whether a save of a group's context takes it (R199, R348): a slice leaves what stands on control cores. -/
def State.savesGroup (s : State) (x : Group) : Bool :=
  s.saving x.ctx && !(decide ((s.ctx x.ctx).cmd = 2) && isControl x.core)

/-- A group stops at a boundary for a save (R30, R199): it gives its port back without ending its run, and a Quire invocation stops
(R326). -/
def State.pauseGroup (s : State) (g : Nat) : State :=
  (s.releasePort g).updGrp g (fun x => { x with q := x.q.halt, sched := { x.sched with paused := true } })

/-- An invocation that a save met in a micro-operation stops behind it (R325). -/
def State.stopForSave (s : State) (g : Nat) : State :=
  if s.hasGrp g && s.savesGroup (s.grp g) then s.pauseGroup g else s

/-- A Quire trap (R322). Where a save of the context waits for the micro-operation, it is recorded, saved and taken after the
restore (R331). -/
def State.quireTrap (s : State) (g cause reason subc subd : Nat) (lanes : Mask) (addr : Word) : State :=
  let x := s.grp g
  let info : Word := BitVec.ofNat 64 (reason + subc * 2 ^ 4 + subd * 2 ^ 11 + x.q.upc % 128 * 2 ^ 15 + x.q.count * 2 ^ 22)
  let s := s.setGrp g { x with q := x.q.halt }
  if s.savesGroup x then s.trapLater g { cause := cause, pc := x.flow.pc, addr := addr, info := info, lanes := lanes }
  else s.takeTrap g { cause := cause, info := info, addr := addr, lanes := lanes, pc := x.flow.pc, resume := x.flow.pc }

/-- `end` (R320): the latch into the destination; the invocation has ended. -/
def Group.uopEnd (x : Group) (d : Operand) : Group :=
  let lanes := lanesOf x.q.lanes
  let x' := match x.q.latch with
    | none => x
    | some (vec, t) => x.write d lanes (fun l => Tab.get 0 (if vec then l else 0) t)
  { x' with q := { x.q.halt with active := false } }

/-- The operands of a bound word. -/
structure BoundWord where
  d : Operand
  a : Operand
  b : Operand
  c : Operand
  fn : BitVec 14
  deriving DecidableEq, Repr

/-- Executes one micro-operation. -/
def State.uopExec (s : State) (g : Nat) (u : UOp) (w : BoundWord) : UEnd × State :=
  let x := s.grp g
  let q := x.q
  match u.row with
  | none => (.to (q.upc + 1), s)
  | some r =>
    match u.op with
    | 0x00 => (.fin, s)
    | 0x01 => let v := s.uopRdop x u w.d w.a w.b w.c w.fn; (v.2, s.setGrp g v.1)
    | 0x02 =>
      let latch : Bool × Tab Word := (u.vec, if u.vec then (lanesOf q.lanes).map (fun l => (l, u.src q r .s1 l))
        else [(0, u.src q r .s1 0)])
      (.to (q.upc + 1), s.setGrp g { x with q := { q with latch := some latch } })
    | 0x18 | 0x19 => if uGlb u.mod then s.uopGlobal g u else s.uopLocal g u
    | 0x1A => (.to (if q.bcnd u then u.tgt else q.upc + 1), s)
    | 0x1B =>
      if u.mod % 2 = 1 then
        -- of a vector selector the rule names no one value: a free value (log entry 63)
        let r := if u.i then (BitVec.ofNat 64 (bits u.imm 0 16), s) else if qVec u.s1 then s.freeVal else (q.sel u.s1 0, s)
        (.to (q.upc + 1), r.2.setGrp g { x with q := { q with lc := BitVec.ofNat 64 (min r.1.toNat 512) } })
      else if q.lc.toNat ≤ 1 then (.to (q.upc + 1), s.setGrp g { x with q := { q with lc := 0 } })
      else (.to u.tgt, s.setGrp g { x with q := { q with lc := q.lc - 1 } })
    | _ => (.to (q.upc + 1), s.setGrp g (x.uopCompute u r))

/-- Counts an executed micro-operation. -/
def State.uopCount (s : State) (g : Nat) : State :=
  (s.updGrp g (fun x => { x with q := { x.q with count := x.q.count + 1 } })).count (s.grp g).core 0x13 1

/-- The next micro-operation of an executing invocation (R315). -/
def State.quireNext (s : State) (g : Nat) (bnd : Bool) (w : BoundWord) : State :=
  let x := s.grp g
  let q := x.q
  if q.blen ≤ q.upc then s.quireTrap g 0x33 6 0 0 q.lanes 0
  else if q.count = 512 then
    (s.updGrp g (fun x => { x with q := { x.q with active := false } })).quireTrap g 0x32 1 0 0 q.lanes 0
  else
    match s.partOf x.core x.ctx with
    | none => s.updGrp g (fun x => { x with q := x.q.halt })
    | some p =>
      let u : UOp := Tab.get 0 (q.base + q.upc) (s.part x.core p).ops
      if (match u.needs with | some n => !q.mask.getLsbD n | none => false) then s.quireTrap g 0x33 2 0 0 q.lanes 0
      else
        match s.uopExec g u w with
        | (.wait, s) => s
        | (.stop reason c d lanes addr, s) => s.quireTrap g 0x33 reason c d lanes addr
        | (.park, s) =>
          let s := s.updGrp g (fun x => { x with q := { x.q.halt with susp := true } })
          (s.suspend g (.replay s.tick.toNat)).retire g bnd .moved
        | (.to n, s) => (s.uopCount g).updGrp g (fun x => { x with q := { x.q with upc := n } })
        | (.fin, s) => ((s.uopCount g).updGrp g (fun x => x.uopEnd w.d)).retire g bnd .on

/-- A step of an executing invocation: one that has made its micro-operation stops for a save that asks for it (R325). -/
def State.quireStep (s : State) (g : Nat) (bnd : Bool) (w : BoundWord) : State :=
  let t := s.quireNext g bnd w
  if decide ((t.grp g).q.count = (s.grp g).q.count) && (t.grp g).q.running then t else t.stopForSave g

/-- Whether an operand lies in a class of a binding (R312, R314); `dst` marks the destination field. -/
def classHas (cls : Nat) (dst : Bool) (o : Operand) : Bool :=
  match o with
  | .v _ => decide (cls = 1 ∨ cls = 3 ∨ (cls = 0 ∧ o.toBits = 0))
  | .s _ | .zero => decide (cls = 2 ∨ cls = 3)
  | .spec k => !dst && (decide (cls = 3) || (decide (cls = 2) && decide (k ≠ .lane ∧ k ≠ .beat)))
  | .p _ => !dst && decide (cls = 3)
  | _ => false

/-- The class that a binding gives a field: 0 dst, 1 a, 2 b, 3 c. -/
def bindClass (v : Word) (k : Nat) : Nat := bits v (24 + 2 * k) 2

/-- The operands of a bound word by field. -/
def BoundWord.fields (w : BoundWord) : List (Nat × Operand) := [(0, w.d), (1, w.a), (2, w.b), (3, w.c)]

/-- Checks 2 and 3 of R314. -/
def BoundWord.check (w : BoundWord) (h : Hdr) (v : Word) (vregs : Nat) : Option DTrap :=
  if h.uni then some (.illegalOp 3)
  else if w.fields.any (fun e => !classHas (bindClass v e.1) (decide (e.1 = 0)) e.2) then some (.illegalOp 4)
  else if w.fields.any (fun e => decide (bindClass v e.1 ≠ 0) && (match e.2 with
      | .v n => decide (vregs ≤ n.val)
      | _ => false)) then some (.illegalOp 5)
  else none

/-- The sources of a bound word (R314): a, b and c under their policies, dst under the block policy where DRD is 1. -/
def BoundWord.srcs (w : BoundWord) (h : Hdr) (v : Word) : List SrcUse :=
  let src (k : Nat) (o : Operand) (trap : Bool) : List SrcUse :=
    if bindClass v k = 0 then [] else
      match regOf o with
      | some n => [⟨(k + 3) % 4, trap, [n]⟩]
      | none => []
  src 1 w.a (h.fe .a) ++ src 2 w.b (h.fe .b) ++ src 3 w.c (h.fe .c) ++ (if v.getLsbD 32 then src 0 w.d false else [])

/-- Begins an invocation, or resumes it (R315). -/
def QState.begin (q : QState) (resume : Bool) (v : Word) (k : Nat) (gen : BitVec 16) (pc : PC) (i : Instr) (lanes : Mask) :
    QState :=
  if resume then { q with susp := false, running := true, word := some i, lanes := lanes, touched := [] }
  else
    { gen := gen, blen := bits v 8 8, mask := v.extractLsb' 16 8, susp := false, count := 0, opx := k, active := true, upc := 0,
      base := bits v 0 8, addr := pc, lc := 0, latch := none, qt := [], qq := [], running := true, word := some i,
      lanes := lanes, touched := [], bind := v }

/-- A bound word at issue (R314, R315): its checks, its partition, and the start of its invocation. -/
def State.boundIssue (s : State) (g : Nat) (x : Group) (i : Instr) (h : Hdr) (k : Nat) (w : BoundWord) : State × Ends :=
  let resume := x.q.active && decide (x.q.addr = x.flow.pc ∧ x.q.opx = k)
  -- an invocation that has begun keeps its binding (R313) and its lanes, but for those that have exited (R314)
  let v := if resume then x.q.bind else Tab.get 0 k (s.ctxRegs x.core x.ctx).qbind
  let e := if resume then x.q.lanes &&& ~~~x.flow.exited else x.execMask h
  match (if resume then none else w.check h v x.vregs) with
  | some t => (s.decodeTrap g t, .done)
  | none =>
    if x.trap.active && x.q.active then (s.quireTrap g 0x33 3 0 0 e 0, .done)
    else if !resume && decide (e = 0) then (s, .on)
    else withPolicy s g (x.policyOf false (w.srcs h v))
      (match s.partOf x.core x.ctx with
       | none => (s.askFill x.core x.ctx, .wait)
       | some p =>
         if resume && decide (x.q.gen ≠ s.qgen x.ctx) then (s.quireTrap g 0x33 4 0 0 e 0, .done)
         else
           let s := s.updCore x.core (fun c => { c with quire := Tab.put p { s.part x.core p with since := s.tick.toNat } c.quire })
           (s.setGrp g { x with q := x.q.begin resume v k (s.qgen x.ctx) x.flow.pc i e }, .wait))

def execBoundOpcode (h : Hdr) (k : Fin 16) (d a b c : Operand) (fn : BitVec 14) (s : State) :
    Host.Outcome State Fault Refusal :=
  let i : Instr := .boundOpcode h k d a b c fn
  let w : BoundWord := { d := d, a := a, b := b, c := c, fn := fn }
  match s.issuer with
  | none => .fault .noIssuingGroup
  | some g =>
    if (s.grp g).q.running then .next (s.quireStep g h.bnd w)
    else word i s (fun s g x => s.boundIssue g x i h k.val w)

/-! ### `qload` (R321, R327) -/

/-- The pages an image is read from: those of the private and the peer segment hold none (log entry 34). -/
def imageKind (kind : Nat) : Option Nat := if kind = 0 ∨ kind = 4 then some 2 else none

/-- Reads `n` bytes line by line; where a line cannot be read its address, and no address where the read waits for a page that is
being moved (R226). Nothing is reported. -/
def State.imageBytes (s : State) (ag : Agent) : Nat → Word → Nat → Except (Option Word) (List Byte) × State
  | 0, _, _ => (.ok [], s)
  | f + 1, va, n =>
    if n = 0 then (.ok [], s)
    else
      let k := toLineEnd va n
      match s.reach ag .read imageKind va with
      | (.ok _ _, s) =>
        (match s.agentRead ag imageKind va k with
         | (.done b, s) =>
           let r := State.imageBytes s ag f (va + BitVec.ofNat 64 k) (n - k)
           (match r.1 with
            | .ok t => (.ok (b ++ t), r.2)
            | .error a => (.error a, r.2))
         | (.fail _ _ a, s) => (.error (some a), s)
         | (.later, s) => (.error none, s)
         | (_, s) => (.error (some va), s))
      | (_, s) => (.error (some va), s)

/-- The micro-operations of an image's bytes. -/
def uopsOf (b : List Byte) (len : Nat) : List UOp :=
  (List.range len).map (fun k => BitVec.ofNat 128 (numOfBytes ((b.drop (16 * k)).take 16)))

/-- What the reading of an image comes to: its micro-operations, or a QUIRE_IMAGE reason with index and address, or a wait. -/
def State.readImage (s : State) (ag : Agent) (va : Word) (off : Nat) :
    Except (Option (Nat × Nat × Word)) (List UOp) × State :=
  let bad (a : Option Word) : Option (Nat × Nat × Word) := a.map (fun a => (9, 0, a))
  match s.imageBytes ag 2 va 16 with
  | (.error a, s) => (.error (bad a), s)
  | (.ok hd, s) =>
    let len := numOfBytes (hd.take 2)
    if len = 0 ∨ 128 < len ∨ numOfBytes (hd.drop 2) ≠ 0 then (.error (some (1, 0, 0)), s)
    else if 256 < off + len then (.error (some (2, 0, 0)), s)
    else
      match s.imageBytes ag 40 (va + 16) (16 * len) with
      | (.error a, s) => (.error (bad a), s)
      | (.ok b, s) =>
        let ops := uopsOf b len
        match imageCheck ops with
        | some (r, k) => (.error (some (r, k, 0)), s)
        | none => (.ok ops, s)

/-- The cores on which a context holds a partition. -/
def State.partCores (s : State) (c : Nat) : List Nat :=
  (s.cores.filter (fun e => e.2.quire.any (fun p => decide (p.2.ctx = some c)))).map Prod.fst

def execQload (h : Hdr) (a b : Operand) (c : Option Operand) (s : State) : Host.Outcome State Fault Refusal :=
  uniWord (.qload h a b c) h s (fun s g x =>
    let va := s.rd x a 0
    let off := (s.rd x b 0).toNat
    let n := match c with | some c => (s.rd x c 0).toNat | none => x.ctx
    if 63 < n ∨ !s.mayName x.ctx n then (s.trapNow g 0x11 10 0, .done)
    else if va.toNat % 16 ≠ 0 then (s.trapNow g 0x15 1 va, .done)
    else if s.lsWaits g x || !s.lsDone g x.team x.mem.seq .die true then (s, .wait)
    else
      let ag : Agent := { info := localInfo s g x true x.flow.mask 0 16 false .zero, core := x.core, slot := x.slot, ctx := x.ctx,
                          sup := x.sup }
      match s.readImage ag va off with
      | (.error none, s) => (s, .wait)
      | (.error (some (r, k, addr)), s) => ((s.migLeave ag.ticket).trapNow g 0x31 (BitVec.ofNat 64 (r + 16 * k)) addr, .done)
      | (.ok ops, s) =>
        let s := s.migLeave ag.ticket
        let pa := s.forwardPa (s.qback n + 16 * off)
        if !s.permitted 4 x.ctx 0 .write pa (16 * ops.length) none then (s.trapNow g 0x11 5 0, .done)
        else
          let s := s.setBytes pa (ops.flatMap (fun u => bytesOfNum 16 u.toNat))
          let s := s.setReg (ctxEntry n + 0x28) ((s.qgen n + 1).setWidth 64)
          ((s.suspend g (.qload (s.partCores n) n x.flow.pc)).later (.qloadComplete g), .run))

/-- A `qload` goes on (R327): it rewrites the partitions of the cores on which no invocation of the target executes; with the
last the group is eligible. -/
def execQloadComplete (grp : Nat) (s : State) : Host.Outcome State Fault Refusal :=
  match (s.grp grp).sched.susp with
  | .qload left n pc =>
    let now := left.filter (fun core => !s.quireRuns core n)
    let s := now.foldl (fun s core => match s.partOf core n with
      | some p =>
        let since := (s.part core p).since
        (s.fillPart core p n).updCore core (fun c =>
          { c with quire := c.quire.map (fun e => if e.1 = p then (e.1, { e.2 with since := since }) else e) })
      | none => s) s
    let rest := left.filter (fun core => !now.contains core)
    .next (if rest.isEmpty then s.wake grp else s.suspend grp (.qload rest n pc))
  | _ => .next s

/-! ### `qbind` and `qstat` (R328, R329) -/

def execQbind (h : Hdr) (k : Fin 16) (ctx : Option (BitVec 6)) (d a : Operand) (s : State) :
    Host.Outcome State Fault Refusal :=
  uniWord (.qbind h k ctx d a) h s (fun s g x =>
    let n := match ctx with | some c => c.toNat | none => x.ctx
    let v := s.rd x a 0
    let len := bits v 8 8
    if !s.mayName x.ctx n then (s.trapNow g 0x11 10 0, .done)
    else if v.getLsbD 63 && decide (len = 0 ∨ 128 < len) then (s.trapNow g 0x31 1 0, .done)
    else if v.getLsbD 63 && decide (256 < bits v 0 8 + len) then (s.trapNow g 0x31 2 0, .done)
    else
      let addr := 0x40 + k.val
      (s.ctxWrite g n addr (csrApply .write addr ((s.ctx n).regs.read addr) v) d, .on))

/-- QSTATE (R325). -/
def QState.status (q : QState) : Word :=
  BitVec.ofNat 64 (q.base + q.upc % 128 * 2 ^ 8 + (if q.active then 2 ^ 15 else 0) + q.opx * 2 ^ 16 + q.count * 2 ^ 20 +
    (if q.susp then 2 ^ 30 else 0) + q.mask.toNat * 2 ^ 32 + q.blen * 2 ^ 40 + q.gen.toNat * 2 ^ 48)

def execQstatBind (h : Hdr) (k : Fin 16) (d : Operand) (s : State) : Host.Outcome State Fault Refusal :=
  uniWord (.qstatBind h k d) h s (fun s g x =>
    let v := Tab.get 0 k.val (s.ctxRegs x.core x.ctx).qbind
    let r := v ||| (if (s.partOf x.core x.ctx).isSome then fieldMask 62 1 else 0) |||
      BitVec.ofNat 64 ((s.qgen x.ctx).toNat * 2 ^ 40)
    (s.setGrp g (x.write d [0] (fun _ => r)), .on))

def execQstatState (h : Hdr) (d : Operand) (s : State) : Host.Outcome State Fault Refusal :=
  uniWord (.qstatState h d) h s (fun _ g x => (s.setGrp g (x.write d [0] (fun _ => x.q.status)), .on))

end Sys2Proof.Machine
end

