-- ==== Sys2Proof/Machine/Launch.lean ====
section
/-!
DEFINITION. Machine/Launch.lean: launch records, aggregation buckets, the placement of teams, and the completion of grids
(R17 to R22, R332 to R341, R351).
-/
namespace Sys2Proof.Machine

/-! ### The launch record (R335) -/

/-- A field of a record's 128 bytes. -/
def recField (b : List Byte) (o n : Nat) : Nat := numOfBytes ((b.drop o).take n)

def recWord (b : List Byte) (o : Nat) : Word := BitVec.ofNat 64 (recField b o 8)

def LaunchRec.ofBytes (b : List Byte) : LaunchRec :=
  let shape := recField b 0x1F 1
  let mode := recField b 0x26 2
  { entry := recWord b 0, param := recWord b 8, x := recField b 0x10 4 + 1, y := recField b 0x14 4 + 1,
    z := recField b 0x18 4 + 1, groups := recField b 0x1C 1, vregs := 32 * (recField b 0x1D 1 % 4 + 1),
    acc := recField b 0x1E 1, w := shape % 16 + 1, h := shape / 16 % 8 + 1, fuse := decide (128 ≤ shape),
    loc := recField b 0x20 4, queue := recField b 0x24 2, dmode := decide (mode % 2 = 1), ctrl := decide (mode / 2 % 2 = 1),
    pbase := recWord b 0x28, pstride := recWord b 0x30, daddr := recWord b 0x38, dval := recWord b 0x40,
    msix := recField b 0x48 2 }

/-- Whether a reserved bit of a record is set. -/
def recReserved (b : List Byte) : Bool :=
  decide (4 ≤ recField b 0x1D 1 ∨ 4 ≤ recField b 0x26 2 ∨ recField b 0x4A 54 ≠ 0)

/-- A share of local memory in whole pages of 4 KiB (R19). -/
def share4K (n : Nat) : Nat := (n + 4095) / 4096 * 4096

/-- Bytes of vector file (R19). -/
def LaunchRec.vbytes (r : LaunchRec) : Nat := r.groups * r.vregs * 384

/-- What a core holds: groups, bytes of vector file, bytes of local memory, tiles (R11, R19, R94). -/
structure CoreLimits where
  groups : Nat
  vbytes : Nat
  loc : Nat
  acc : Nat
  deriving DecidableEq, Repr

def coreLimits (ctrl : Bool) : CoreLimits :=
  if ctrl then { groups := 4, vbytes := 196608, loc := 262144, acc := 0 }
  else { groups := 48, vbytes := 524288, loc := 524288, acc := 16 }

/-- Whether a record's teams fit beside what a core holds. -/
def LaunchRec.fitsWith (r : LaunchRec) (u : CoreLimits) : Bool :=
  let l := coreLimits r.ctrl
  decide (u.groups + r.groups ≤ l.groups ∧ u.vbytes + r.vbytes ≤ l.vbytes ∧ u.loc + share4K r.loc ≤ l.loc ∧
    u.acc + r.acc ≤ l.acc)

/-- Whether a record's teams can ever be resident (R19), its cluster on the mesh of 13 by 8 cores. -/
def LaunchRec.possible (r : LaunchRec) : Bool := r.fitsWith ⟨0, 0, 0, 0⟩ && decide (r.w ≤ 13 ∧ r.h ≤ 8)

/-- The limits of a record's fields (R335). -/
def LaunchRec.inLimits (r : LaunchRec) : Bool :=
  decide (1 ≤ r.groups ∧ r.groups ≤ 48 ∧ r.acc ≤ 16 ∧ r.loc ≤ 524288 ∧ r.w * r.h ≤ 12 ∧ r.entry.toNat % 8 = 0 ∧
    r.pstride.toNat % 16384 = 0 ∧ r.daddr.toNat % 8 = 0 ∧ r.queue ≤ 127) &&
  (!r.ctrl || (decide (r.acc = 0 ∧ r.w = 1 ∧ r.h = 1 ∧ r.groups ≤ 4 ∧ r.loc ≤ 262144) && !r.fuse))

/-! ### Buckets and queues (R332, R340) -/

def State.queue (s : State) (q : Nat) : Queue := Tab.get Queue.reset q s.hub.queues
def State.setQueue (s : State) (q : Nat) (k : Queue) : State := s.setHub { s.hub with queues := Tab.set Queue.reset q k s.hub.queues }

/-- A grid that has not been placed, as it enters a queue. -/
def Grid.waiting (id : Nat) (r : LaunchRec) (children : List Child) : Grid :=
  { id := id, record := r, children := children, ctx := 0, mode := 0, count := 0, teams := [], ended := [], peer := none }

def State.enqueue (s : State) (r : LaunchRec) (children : List Child) : State :=
  let (id, s) := s.fresh
  let k := s.queue r.queue
  s.setQueue r.queue { k with waiting := k.waiting ++ [.waiting id r children] }

/-- The children of a bucket with their first teams, in order of acceptance (R341). -/
def layChildren : Nat → List (Nat × Word) → List Child
  | _, [] => []
  | n, (c, p) :: t => { first := n, count := c, param := p, done := false } :: layChildren (n + c) t

/-- A closed bucket enters its queue as one grid, where the queue has room. -/
def State.bucketEnter (s : State) (b : Bucket) : State :=
  if b.closed && decide ((s.queue b.queue).waiting.length < 64) then
    let n := (b.children.map Prod.fst).sum
    (s.setHub { s.hub with buckets := s.hub.buckets.filter (fun c => decide (c ≠ b)) }).enqueue
      { b.record with x := n, y := 1, z := 1 } (layChildren 0 b.children)
  else s

/-- The closed buckets that wait at the hub enter their queues, in order. -/
def State.bucketsEnter (s : State) : State := s.hub.buckets.foldl State.bucketEnter s

/-- Closes the open buckets that a predicate tells. -/
def State.closeBuckets (s : State) (p : Bucket → Bool) : State :=
  (s.setHub { s.hub with buckets := s.hub.buckets.map (fun b => if p b then { b with closed := true } else b) }).bucketsEnter

/-- Closes the buckets that have been open for 4,096 ticks. -/
def State.closeDue (s : State) : State := s.closeBuckets (fun b => decide (b.opened + 4096 ≤ s.tick.toNat))

def execBucketCloseTimeout (queue key : Nat) (s : State) : Host.Outcome State Fault Refusal :=
  .next (s.closeBuckets (fun b => decide (b.queue = queue ∧ b.key.toNat = key ∧ b.opened + 4096 ≤ s.tick.toNat)))

/-! ### Acceptance (R337) -/

/-- Whether the issuer may use a queue that places (R337, R354). -/
def State.mayLaunch (s : State) (ctx : Nat) (sup : Bool) (q : Nat) : Bool :=
  let cfg := s.qcfg q
  let c := bits cfg 6 6
  cfg.getLsbD 0 && (s.reg (ctxEntry c)).getLsbD 0 &&
    (if sup then s.mayName ctx c else decide (c = ctx) && cfg.getLsbD 12)

/-- Check (R337): the first failing row. The buckets of a queue that a `launch` closes enter ahead of it. -/
def State.launchStatus (s : State) (r : LaunchReq) (b : List Byte) : Nat :=
  let l := LaunchRec.ofBytes b
  let ahead := s.hub.buckets.filter (fun k => decide (k.queue = l.queue))
  let full := match r.agg with
    | none => decide (64 ≤ (s.queue l.queue).waiting.length + ahead.length)
    | some _ => ahead.any (fun k => k.closed && decide (k.key = r.addr))
  if 127 < l.queue then 4
  else if full then 1
  else if !s.mayLaunch r.ctx r.sup l.queue then 2
  else if !l.possible then 3
  else if recReserved b || !l.inLimits then 4
  else if r.agg.isSome && decide (l.y ≠ 1 ∨ l.z ≠ 1 ∨ 65536 < l.x) then 5
  else if r.agg.isSome && !l.dmode then 6
  else 0

/-- Adds an accepted child to its bucket (R340): the record of the first child stands for all. -/
def State.addChild (s : State) (l : LaunchRec) (key param : Word) : State :=
  let mine (b : Bucket) : Bool := decide (b.queue = l.queue ∧ b.key = key) && !b.closed
  let s :=
    if s.hub.buckets.any mine then s
    else
      let opened := s.hub.buckets.filter (fun b => !b.closed)
      let s := if opened.length < 16 then s
        else match opened with
          | old :: _ => s.closeBuckets (fun b => decide (b = old))
          | [] => s
      s.setHub { s.hub with buckets := s.hub.buckets ++
        [{ queue := l.queue, key := key, record := l, opened := s.tick.toNat, children := [], closed := false }] }
  let s := s.setHub { s.hub with buckets := s.hub.buckets.map (fun b =>
    if mine b then { b with children := b.children ++ [(l.x, param)] } else b) }
  s.closeBuckets (fun b => decide (256 ≤ b.children.length))

/-- Accepts a record of status 0. -/
def State.acceptLaunch (s : State) (r : LaunchReq) (l : LaunchRec) : State :=
  let s := s.count 0x348 0xC0 1
  match r.agg with
  | some p => s.addChild l r.addr p
  | none => (s.closeBuckets (fun b => decide (b.queue = l.queue))).enqueue l []

def LaunchReq.agent (r : LaunchReq) : Agent := { info := r.info, core := r.core, slot := r.slot, ctx := r.ctx, sup := r.sup }

/-- The pages of a record: those of the private and the peer segment hold none (log entry 34). -/
def launchKind (kind : Nat) : Option Nat := if kind = 0 ∨ kind = 4 then some 2 else none

/-- A launch word ends: its destination takes a status, or keeps what it held. -/
def State.launchDone (s : State) (r : LaunchReq) (st : Option Nat) : State :=
  let s := s.setHub { s.hub with launches := s.hub.launches.filter (fun k => decide (k.info.tok ≠ r.info.tok)) }
  match regOf r.info.dst with
  | none => s
  | some n =>
    if !s.owns r.info then s
    else
      let vals := match st with | some v => [(n, 0, BitVec.ofNat 64 v)] | none => []
      let res : Result := { grp := r.info.grp, regs := [n], vals := vals, flags := 0, fp := false, raw := [], fault := none }
      (s.setSys { s.sys with results := Tab.put r.info.tok res s.sys.results }).post (.resultWriteback r.info.tok)

/-- A launch word goes on once its release at system scope is performed (R337): its record is read, checked and accepted. A
record without a translation parks the word. -/
def State.launchTry (s : State) (r : LaunchReq) : State :=
  if r.parked.isSome || !s.lsDone r.info.grp r.info.team r.info.seq .system false then s
  else
    match s.agentRead r.agent launchKind r.addr 128 with
    | (.done b, s) =>
      let st := s.launchStatus r b
      (if st = 0 then s.acceptLaunch r (.ofBytes b) else s).launchDone r (some st)
    | (.park _, t) =>
      -- a parked record takes one of the group's four operand logs (R193, R332)
      let held := (s.grp r.info.grp).mem.logs.length + ((s.launchesOf r.info.grp r.info.team).filter (fun k => k.parked.isSome)).length
      if s.owns r.info && decide (4 ≤ held) then s else
      (t.count r.core 0x14 1).setHub { t.hub with launches := t.hub.launches.map (fun k =>
        if k.info.tok = r.info.tok then { k with parked := some t.tick.toNat } else k) }
    | (.fail c d addr, s) => (s.deferLanes r.info r.info.lanes c d addr).launchDone r none
    | (_, s) => s

/-- Puts a launch in its place by the number of its core (R351). -/
def insertLaunch (r : LaunchReq) : List LaunchReq → List LaunchReq
  | [] => [r]
  | k :: t => if r.core < k.core then r :: k :: t else k :: insertLaunch r t

/-- The launch words under way go on; of those of one tick the lower core's is first. -/
def State.launchAll (s : State) : State :=
  let l := s.hub.launches.foldl (fun l r => insertLaunch r l) []
  if l.isEmpty then s else l.foldl State.launchTry s.closeDue

/-- Issues a launch word (R336, R337). -/
def State.launchWord (s : State) (g : Nat) (x : Group) (d a : Operand) (agg : Option Word) : State × Ends :=
  let va := s.rd x a 0
  if va.toNat % 128 ≠ 0 then (s.trapNow g 0x15 1 va, .done)
  else if s.lsWaits g x then (s, .wait)
  else
    let (tok, s) := s.fresh
    let i := { localInfo s g x true x.flow.mask tok 8 false d with ord := .rel, scope := .system }
    let s := s.updGrp g (fun x => { x with
      regs := match regOf d with | some n => x.regs.drain n tok | none => x.regs,
      mem := { x.mem with seq := x.mem.seq + 1 } })
    let r : LaunchReq :=
      { info := i, core := x.core, slot := x.slot, ctx := x.ctx, sup := x.sup, addr := va, agg := agg, parked := none }
    (s.setHub { s.hub with launches := s.hub.launches ++ [r] }, .on)

def execLaunch (h : Hdr) (d a : Operand) (s : State) : Host.Outcome State Fault Refusal :=
  uniWord (.launch h d a) h s (fun s g x => s.launchWord g x d a none)

def execLaunchAgg (h : Hdr) (d a b : Operand) (s : State) : Host.Outcome State Fault Refusal :=
  uniWord (.launchAgg h d a b) h s (fun s g x => s.launchWord g x d a (some (s.rd x b 0)))

/-! ### Placement (R19, R21, R22, R338) -/

/-- What the teams on a core take up. A team whose last group has ended takes up nothing more (R37). -/
def State.coreLoad (s : State) (core : Nat) : CoreLimits :=
  (s.teams.filter (fun e => decide (e.2.core = core) && !e.2.members.isEmpty)).foldl (fun u e =>
    { groups := u.groups + e.2.members.length, vbytes := u.vbytes + e.2.members.length * e.2.vregs * 384,
      loc := u.loc + share4K e.2.localSize, acc := u.acc + e.2.acc }) ⟨0, 0, 0, 0⟩

/-- Whether a core exists for teams of a record: a control core where it asks for one, else a core of a live die. -/
def State.coreFor (s : State) (ctrl : Bool) (core : Nat) : Bool :=
  if ctrl then isControl core else decide (core < 832) && s.repl.live.getLsbD (dieOfCore core)

def State.fits (s : State) (r : LaunchRec) (core : Nat) : Bool := s.coreFor r.ctrl core && r.fitsWith (s.coreLoad core)

/-- The cores of a rectangle in row-major order. -/
def rectCores (die x y w h : Nat) : List Nat :=
  (List.range (w * h)).map (fun i => 104 * die + 13 * (y + i / w) + x + i % w)

/-- The rectangles of a shape on a die. -/
def rects (die w h : Nat) : List (List Nat) :=
  (List.range (9 - h)).flatMap (fun y => (List.range (14 - w)).map (fun x => rectCores die x y w h))

/-- The places for the next cluster of a record: control cores, or rectangles of one die. -/
def LaunchRec.places (r : LaunchRec) : List (List Nat) :=
  if r.ctrl then [[0x3FC], [0x3FD], [0x3FE], [0x3FF]]
  else (List.range 8).flatMap (fun d => rects d r.w r.h)

/-- Teams of a grid. -/
def Grid.total (k : Grid) : Nat :=
  if k.children.isEmpty then k.record.x * k.record.y * k.record.z else (k.children.map (fun c => c.count)).sum

/-- The head launch of a queue, as it stands where it is being placed. -/
def State.headGrid (s : State) (q : Nat) : Option Grid :=
  match (s.queue q).waiting with
  | [] => none
  | k :: _ => some ((s.hub.grids.find? (fun g => decide (g.id = k.id))).getD k)

/-- The context a head launch is placed in: that of its queue until its first team is placed (R334). -/
def State.headCtx (s : State) (q : Nat) (k : Grid) : Nat := if k.teams.isEmpty then bits (s.qcfg q) 6 6 else k.ctx

/-- Whether slicing keeps a context from the compute-die cores (R348). -/
def State.outOfGang (s : State) (c : Nat) : Bool := match s.hub.gang with | some m => !m.getLsbD c | none => false

/-- Whether teams of a context may be placed (R348, R351, R354, R394): it exists; on a control core no command holds it; on a
compute-die core it is neither saved nor being saved, and in the gang. -/
def State.ctxRuns (s : State) (c : Nat) (ctrl : Bool) : Bool :=
  (s.reg (ctxEntry c)).getLsbD 0 &&
    (if ctrl then !(s.ctx c).held
     else decide (s.ctxState c ≠ 2) && decide ((s.ctx c).cmd = 0) && !s.outOfGang c)

/-- The places at which the head launch of a queue may go on now. -/
def State.headPlaces (s : State) (q : Nat) : List (List Nat) :=
  match s.headGrid q with
  | none => []
  | some k =>
    if (s.qcfg q).getLsbD 0 && s.ctxRuns (s.headCtx q k) k.record.ctrl then
      k.record.places.filter (fun l => l.all (fun c => s.fits k.record c))
    else []

/-- The queue to be served (R338): of those whose head can be placed the highest PRIO, equals in rotation. -/
def State.serveQueue (s : State) : Option Nat :=
  let can := (List.range 128).filter (fun i =>
    let q := (i + s.hub.turn) % 128
    !(s.queue q).waiting.isEmpty && !(s.headPlaces q).isEmpty)
  can.foldl (fun b i =>
    let q := (i + s.hub.turn) % 128
    match b with
    | none => some q
    | some p => if bits (s.qcfg p) 1 5 < bits (s.qcfg q) 1 5 then some q else b) none

/-- What a team's groups start with (R22, R341): the special `team`, the coordinates, the parameter address. -/
structure TeamStart where
  index : Word
  x : Word
  y : Word
  z : Word
  param : Word
  deriving DecidableEq, Repr

def Grid.start (k : Grid) (t : Nat) : TeamStart :=
  match k.children.find? (fun c => decide (c.first ≤ t ∧ t < c.first + c.count)) with
  | some c => let i := BitVec.ofNat 64 (t - c.first); ⟨i, i, 0, 0, c.param⟩
  | none =>
    let r := k.record
    ⟨BitVec.ofNat 64 t, BitVec.ofNat 64 (t % r.x), BitVec.ofNat 64 (t / r.x % r.y), BitVec.ofNat 64 (t / (r.x * r.y)), r.param⟩

/-- A group at its start (R22, R222). -/
def Grid.newGroup (k : Grid) (s : State) (team core slot idx t : Nat) (st : TeamStart) : Group :=
  let r := k.record
  { Group.empty with
    core := core, slot := slot, team := team, idx := idx, ctx := k.ctx, vregs := r.vregs, sup := s.ctxSup k.ctx,
    flow := .start (r.entry.extractLsb' 3 54), regs := .start st.x st.y st.z st.param, fp := .start slot,
    mem := .start (r.pbase + BitVec.ofNat 64 (t * r.groups + idx) * r.pstride),
    sched := { Group.empty.sched with since := s.tick } }

/-- The free slots of a core, lowest first. -/
def State.freeSlots (s : State) (core : Nat) : List Nat := (List.range 48).filter (fun n => !s.hasGrp (groupKey core n))

/-- Places team `t` of a grid on a core as member `m` of a cluster (R22): its groups are eligible; leases of the core's
instruction cache are dropped (R216); a Quire partition is filled where the context has bindings (R311). -/
def State.placeTeam (s : State) (k : Grid) (key cluster core m t : Nat) : State :=
  let r := k.record
  let st := k.start t
  let slots := ((s.freeSlots core).take r.groups).zipIdx
  let tm : Team :=
    { Team.empty with
      core := core, ctx := k.ctx, grid := k.id, index := st.index, linear := t, groups := r.groups,
      vregs := r.vregs, acc := r.acc, localSize := r.loc, member := m, cluster := cluster, rrMode := k.mode,
      rrGrid := k.count, members := slots.map (fun e => groupKey core e.1) }
  let tm := { tm with base := s.freeBase k.ctx tm.blocks }
  let s := { s with teams := Tab.put key tm s.teams }
  let s := slots.foldl (fun s e => s.setGrp (groupKey core e.1) (k.newGroup s key core e.1 e.2 t st)) s
  (s.updCore core (fun c => { c with icache := [] })).postFill core k.ctx

/-- The grid as its first team is placed (R334, R396). -/
def State.openGrid (s : State) (q : Nat) (k : Grid) : Grid × State :=
  if !k.teams.isEmpty then (k, s)
  else
    let c := bits (s.qcfg q) 6 6
    let rep := s.replayOf c
    let k := { k with ctx := c, mode := bits (s.reg (rrAddr c)) 0 2, count := rep.grids }
    (k, s.setReplay c { rep with grids := (rep.grids + 1) % 256 })

/-- Places the next team, or the next cluster, of a queue's head launch on given cores. -/
def State.placeHead (s : State) (q : Nat) (k : Grid) (cores : List Nat) : State :=
  let (k, s) := s.openGrid q k
  let (cl, s) := s.fresh
  let t0 := k.teams.length
  let cores := cores.take (k.total - t0)
  let keys := (List.range cores.length).map (fun i => s.nextId + i)
  let s := { s with nextId := s.nextId + cores.length }
  let s := s.setCluster cl { Cluster.empty with teams := keys, cores := cores, w := k.record.w, fused := k.record.fuse }
  let s := if k.record.fuse then cores.foldl State.dropLeases s else s
  let s := ((cores.zip keys).zipIdx).foldl (fun s e => s.placeTeam k e.1.2 cl e.1.1 e.2 (t0 + e.2)) s
  let k := { k with teams := k.teams ++ keys }
  let s := s.setHub { s.hub with grids := s.hub.grids.filter (fun g => decide (g.id ≠ k.id)) ++ [k] }
  let s := if s.ctxState k.ctx = 1 ∨ s.ctxState k.ctx = 2 then s else s.setCtxState k.ctx 1
  if k.total ≤ k.teams.length then
    let w := s.queue q
    let s := s.setQueue q { w with waiting := w.waiting.drop 1 }
    (s.setHub { s.hub with turn := (q + 1) % 128 }).bucketsEnter
  else s

/-- The hub places the next team or cluster of a queue's head launch on cores that fit (R338). -/
def execLaunchPlacement (queue : Nat) (cores : List Nat) (s : State) : Host.Outcome State Fault Refusal :=
  match s.headGrid queue with
  | none => .next s
  | some k =>
    if s.serveQueue = some queue ∧ (s.headPlaces queue).contains cores then .next (s.placeHead queue k cores) else .next s

/-- The placement that is due: the first place that fits. -/
def State.duePlacement (s : State) : List Instr :=
  if s.hub.queues.all (fun e => e.2.waiting.isEmpty) then []
  else match s.serveQueue with
    | none => []
    | some q => match s.headPlaces q with
      | l :: _ => [.launchPlacement q l]
      | [] => []

/-! ### Completion (R339, R341) -/

/-- Whether every access of some teams' groups is performed at system scope. -/
def State.teamsQuiet (s : State) (ts : List Nat) : Bool :=
  let mine (i : WordInfo) : Bool := ts.contains i.team
  s.sys.reqs.all (fun q => !mine q.info) && s.fab.reqs.all (fun q => !mine q.info) &&
    s.repl.strongs.all (fun o => !mine o.info) && s.sys.engs.all (fun c => !ts.contains c.team) &&
    s.hub.launches.all (fun l => !mine l.info) && s.sys.orphans.all (fun o => !mine o.log.info) &&
    s.sys.lateFences.all (fun e => !ts.contains e.team) &&
    s.fab.pubs.all (fun w => !ts.contains w.team) && s.fab.colls.all (fun c => !ts.contains c.team) &&
    s.repl.dies.all (fun r => r.2.unacked.all (fun p => !ts.contains p.1.team || p.2.all (fun d => !s.repl.live.getLsbD d)))

/-- The group number of accesses that the hub makes itself: no group's. -/
def hubGrp : Nat := 0x10000

/-- The hub as an agent of a context, for grid `unit`. -/
def State.hubAgent (s : State) (ctx unit : Nat) : Agent :=
  { info := { localInfo s hubGrp { Group.empty with ctx := ctx } true 0 unit 8 false .zero with ord := .rel, scope := .system },
    core := 0x3FC, slot := 0, ctx := ctx, sup := s.ctxSup ctx }

/-- The pages of a completion word: an addition is made in the dielocal, shared, peer and host segments (R265, log entry 35). -/
def completionKind (add : Bool) (kind : Nat) : Option Nat :=
  if kind = 0 ∨ kind = 5 ∨ (add && decide (kind = 3)) then some 2 else none

/-- What a completion write comes to. -/
inductive HubWrite where
  | done
  | wait
  | sent (tok : Nat)
  | fail (cause detail : Nat)
  deriving DecidableEq, Repr

/-- The completion write (R339): a strong store of DVAL, or its addition, which waits out leases (R213) and never parks. A write to
a peer is under way until its request is answered or lost, which posts the record of a failure. -/
def State.completionWrite (s : State) (k : Grid) : HubWrite × State :=
  let r := k.record
  let ag := s.hubAgent k.ctx k.id
  if r.daddr = 0 then (.done, s)
  else match k.peer with
  | some tok => (if s.fab.reqs.any (fun q => decide (q.info.tok = tok)) then .wait else .done, s)
  | none =>
    match s.reach ag (if r.dmode then .atomic else .write) (completionKind r.dmode) r.daddr with
    | (.park .., s) => (.fail 0x10 1, s)
    | (.fail c d, s) => (.fail c d, s)
    | (.ok pa leaf, s) =>
      let op : AccOp := if r.dmode then .atomic .add .u64 false else .store
      let a : Acc := { mkAcc 0 r.daddr op 8 (r.dval.setWidth 128) 0 with bmask := 0xFF }
      let home := s.forwardPa pa
      let die := s.writeDie ag.core home
      if pteKind leaf = 4 then
        let q := s.agentPeer ag leaf [{ acc := a, pa := pa }] false
        (.sent q.1, q.2)
      else
      let w := s.agentWaits ag leaf pa
      if w.1 then (.wait, w.2)
      else
      match w.2.recallFirst leaf die home r.dmode with
      | none => (.wait, w.2.noteRecall die (.unit ag.unit))
      | some s =>
      if pteKind leaf ≠ 3 ∧ s.tick.toNat < s.lexp home (s.servingDie leaf die home true) then (.wait, s.holdLine home true)
      else
      let s := s.holdLine home false
      if r.dmode then
        match ((s.migLeave ag.ticket).countReq pa).agentServe ag leaf { acc := a, pa := pa } with
        | (.done _, s) => (.done, s)
        | (.fail c d, s) => (.fail c d, s)
      else match s.agentWrite ag (completionKind false) r.daddr (bytesOfNum 8 r.dval.toNat) with
        | (.done _, s) => (.done, s)
        | (.fail c d _, s) => (.fail c d, s)
        | (.park _, s) => (.fail 0x10 1, s)
        | (_, s) => (.wait, s)

/-- A completion write that failed posts its cause (R339, R342). -/
def State.completionReport (s : State) (k : Grid) (w : HubWrite) : State :=
  match w with
  | .fail c d => s.postCtxFault k.ctx 0 c d 0xFFFF
  | _ => s

def State.putGrid (s : State) (k : Grid) : State :=
  s.setHub { s.hub with grids := s.hub.grids.map (fun g => if g.id = k.id then k else g) }

/-- Whether teams `first` to `first + count` of a grid have all been placed and ended. -/
def Grid.allEnded (k : Grid) (first count : Nat) : Bool :=
  decide (first + count ≤ k.teams.length) && ((k.teams.drop first).take count).all (fun t => k.ended.contains t)

/-- The end of a grid, after its completion write: its MSI-X vector, DONE, its checkpoint (R339, R400, R424). -/
def State.gridEnd (s : State) (k : Grid) : State :=
  let s := s.setHub { s.hub with grids := s.hub.grids.filter (fun g => decide (g.id ≠ k.id)) }
  let s := if k.record.msix = 0 then s else s.signal (s.ctxPart k.ctx) (k.record.msix - 1)
  let q := s.queue k.record.queue
  (s.setQueue k.record.queue { q with done := q.done + 1 }).gridCheckpoint k.ctx k.mode k.count

/-- The first child whose teams have ended and whose completion is still to be made. -/
def Grid.dueChild (k : Grid) : Option Child := k.children.find? (fun c => !c.done && k.allEnded c.first c.count)

/-- A grid completes (R339): of a merged grid, first each child for itself (R341). -/
def execGridComplete (grid : Nat) (s : State) : Host.Outcome State Fault Refusal :=
  match s.hub.grids.find? (fun k => decide (k.id = grid)) with
  | none => .next s
  | some k =>
    let again := s.later (.gridComplete grid)
    match k.dueChild with
    | some c =>
      if !s.teamsQuiet ((k.teams.drop c.first).take c.count) then .next again
      else match s.completionWrite k with
        | (.wait, s) => .next (s.later (.gridComplete grid))
        | (.sent tok, s) => .next ((s.putGrid { k with peer := some tok }).later (.gridComplete grid))
        | (w, s) =>
          let k' := { k with peer := none, children := k.children.map (fun d => if d = c then { d with done := true } else d) }
          .next (((s.completionReport k w).putGrid k').later (.gridComplete grid))
    | none =>
      if !k.allEnded 0 k.total then .next s
      else if !s.teamsQuiet k.teams then .next again
      else if !k.children.isEmpty then .next (s.gridEnd k)
      else match s.completionWrite k with
        | (.wait, s) => .next (s.later (.gridComplete grid))
        | (.sent tok, s) => .next ((s.putGrid { k with peer := some tok }).later (.gridComplete grid))
        | (w, s) => .next ((s.completionReport k w).gridEnd k)

end Sys2Proof.Machine
end

