-- ==== Sys2Proof/Machine/Replic.lean ====
section
/-!
DEFINITION. Machine/Replic.lean: the words of the replicated segment, the Gathering engine, the Collator and strong operations,
lag, rebase, membership and join (R283 to R298, R306).
-/
namespace Sys2Proof.Machine

/-! ### `vread`, `vwait`, `verchk` (R297, R298, R306) -/

/-- Whether every earlier replicated store of a group is applied on its die (R297). -/
def State.repApplied (s : State) (g : Nat) (x : Group) : Bool :=
  let mine (i : WordInfo) : Bool := decide (i.grp = g ∧ i.team = x.team)
  s.sys.reqs.all (fun q => !(mine q.info && decide (pteKind q.leaf = 3) && q.accs.any (fun a => a.acc.op.writesMem))) &&
    s.repl.strongs.all (fun o => !mine o.info || o.applied.contains o.die) &&
    x.mem.logs.all (fun l => !(decide (l.info.seg = .r) && l.accs.any (fun a => a.op.writesMem)))

/-- The three registers of a vector value (R297). -/
def State.repVector (s : State) (d : Nat) : List Word :=
  [packAv (s.rep d).av 0, packAv (s.rep d).av 4, s.repl.epoch.setWidth 64]

/-- The values of a three-register operand. -/
def Group.three (x : Group) (a : Operand) : Word × Word × Word :=
  match a with
  | .s n => (x.sreg n.val, x.sreg (n.val + 1), x.sreg (n.val + 2))
  | _ => (0, 0, 0)

def execVread (h : Hdr) (d : Operand) (s : State) : Host.Outcome State Fault Refusal :=
  uniWord (.vread h d) h s (fun s g x =>
    if !s.repApplied g x then (s, .wait)
    else
      match d with
      | .s n => (s.updGrp g (fun x => (s.repVector (s.issueDie x.core)).zipIdx.foldl (fun x e => x.setS (n.val + e.2) e.1) x), .on)
      | _ => (s, .on))

/-- Whether a vector value is covered on a die (R298). -/
def State.covered (s : State) (d : Nat) (v : Word × Word × Word) : Bool :=
  let behind := (s.repl.epoch.toNat + 2 ^ 16 - bits v.2.2 0 16) % 2 ^ 16
  let entry (k : Nat) : Nat := if k < 4 then bits v.1 (16 * k) 16 else bits v.2.1 (16 * (k - 4)) 16
  decide (1 ≤ behind ∧ behind ≤ 2 ^ 15) ||
    (decide (behind = 0) && (s.liveDies).all (fun k => decide (entry k ≤ vecGet (s.rep d).av k)))

/-- A suspended `vwait` ends where its vector is covered, with an acquire, or its deadline has passed; covered counts first. -/
def State.vwaitTry (s : State) (g : Nat) : State :=
  let x := s.grp g
  match x.sched.susp with
  | .vwait d v0 v1 v2 dl _ =>
    let cov := s.covered (s.issueDie x.core) (v0, v1, v2)
    let due := match dl with | some t => decide (t ≤ s.tick) | none => false
    if cov || due then
      ((s.updGrp g (fun x => x.writeLate d (if cov then 1 else 0))).acquire g .die).wake g
    else s
  | _ => s

def execVwait (h : Hdr) (rel : Bool) (d a b : Operand) (s : State) : Host.Outcome State Fault Refusal :=
  uniWord (.vwait h rel d a b) h s (fun s g x =>
    let v := x.three a
    let t := s.rd x b 0
    let dl := if b = .zero then none else some (if rel then s.tick + t else t)
    if s.lsWaits g x then (s, .wait) else
    ((s.suspend g (.vwait d v.1 v.2.1 v.2.2 dl x.flow.pc)).vwaitTry g, .run))

def execVwaitComplete (grp : Nat) (s : State) : Host.Outcome State Fault Refusal := .next (s.vwaitTry grp)

/-- The pages of a version word (R306). -/
def verKind (kind : Nat) : Option Nat := if kind = 2 ∨ kind = 5 then none else some 1

/-- A word that cannot go on without a translation waits for a replay, with the accesses that lack it: the code of the access and
the addresses. -/
def State.suspendReplay (s : State) (g acc : Nat) (l : List Word) : State :=
  (s.updGrp g (fun x => { x with sched := { x.sched with lost := (acc, l) } })).suspend g (.replay s.tick.toNat)

def execVerchk (h : Hdr) (eq : Bool) (d a b : Operand) (s : State) : Host.Outcome State Fault Refusal :=
  uniWord (.verchk h eq d a b) h s (fun s g x =>
    let va := s.rd x a 0
    if x.flow.mask = 0 then (s, .on)
    else if va.toNat % 8 ≠ 0 then (s.trapNow g 0x15 1 va, .done)
    else if s.lsWaits g x then (s, .wait)
    else
      let i := localInfo s g x true x.flow.mask 0 8 false .zero
      match s.oneAccess g x i verKind (mkAcc 0 va .load 8 0 0) with
      | (.later, s) => (s, .wait)
      | (.park, s) => (s.suspendReplay g 0 [va], .moved)
      | (.fail c dt, s) => (s.deferLanes i i.lanes c dt va, .on)
      | (.done v _, s) =>
        let w : Word := v.setWidth 64
        let e := s.rd x b 0
        let t := if eq then decide (w = e) else decide (e ≤ w)
        let s := s.updGrp g (fun x => x.write d (lanesOf x.flow.mask) (fun _ => if t then 1 else 0))
        (if t then s.acquire g .die else s, .on))

/-! ### The Gathering engine (R285, R286, R290) -/

/-- Takes a packet off its link: none where an earlier one of the link goes first. -/
def State.takeLink (s : State) (d id : Nat) (k : PktKind) : Option (Packet × State) :=
  match s.repl.links.find? (fun l => decide (l.2.1 = d ∧ l.2.2.id = id ∧ l.2.2.kind = k)) with
  | none => none
  | some l =>
    if (s.repl.links.find? (fun m => decide (m.1 = l.1 ∧ m.2.1 = d))) = some l then
      some (l.2.2, { s with repl := { s.repl with links := s.repl.links.erase l } })
    else none

/-- Whether a packet is on a link to a die. -/
def State.onLink (s : State) (d id : Nat) (k : PktKind) : Bool :=
  s.repl.links.any (fun l => decide (l.2.1 = d ∧ l.2.2.id = id ∧ l.2.2.kind = k))

/-- Whether an update may be applied on a die now: applicable, and its line not locked (R285, R290). -/
def State.mayApply (s : State) (d : Nat) (p : Packet) : Bool :=
  decide (p.kind = .update) && (s.rep d).applicable p && !s.lineLocked d p.line

/-- Applies an update that arrived, and acknowledges it. -/
def State.applyArrived (s : State) (d : Nat) (p : Packet) : State := (s.applyPacket d p).post (.updateAck d p.id)

/-- Tests the held packets again, oldest first, until none is applicable (R285). -/
def State.retestHeld (s : State) (d : Nat) : Nat → State
  | 0 => s
  | n + 1 =>
    match (s.rep d).hold.find? (fun p => s.mayApply d p) with
    | none => s
    | some p =>
      let r := s.rep d
      ((s.setRep d { r with hold := r.hold.erase p }).applyArrived d p).retestHeld d n

/-- Tests held packets, and lets the links go on. -/
def State.retest (s : State) (d : Nat) : State := s.retestHeld d (s.rep d).hold.length

/-- Puts a packet into the hold queue (R286). -/
def State.holdPacket (s : State) (d : Nat) (p : Packet) : State :=
  let r := s.rep d
  s.setRep d { r with hold := r.hold ++ [p], peak := max r.peak (r.hold.length + 1) }

/-- The entries of the hold queue (R286). -/
def holdSize : Nat := 4096

/-- A weak update arrives: it is applied, or held; with the hold queue full, one that is not applicable stays on its link. -/
def execUpdatePacketArrival (die id : Nat) (s : State) : Host.Outcome State Fault Refusal :=
  if !s.onLink die id .update then .next s
  else
    match s.takeLink die id .update with
    | none => .next (s.later (.updatePacketArrival die id))
    | some (p, t) =>
      if t.mayApply die p then .next ((t.applyArrived die p).retest die)
      else if (t.rep die).hold.length < holdSize then .next (t.holdPacket die p)
      else .next (s.later (.updatePacketArrival die id))

/-- A die acknowledges a packet to its sender (R284). -/
def execUpdateAck (die id : Nat) (s : State) : Host.Outcome State Fault Refusal :=
  .next { s with repl := { s.repl with dies := s.repl.dies.map (fun r => (r.1, { r.2 with
    unacked := r.2.unacked.filterMap (fun u =>
      if u.1.id = id then
        let left := u.2.filter (fun d => decide (d ≠ die))
        if left.isEmpty then none else some (u.1, left)
      else some u) })) } }

/-! ### Settled words (R287) -/

/-- Every 128 ticks the dies report their minima; metadata and replay buffers keep what is not settled. A lag that is over
ends (R292). -/
def State.reportAll (s : State) : State :=
  let reps : Tab (Tab Nat) := (s.liveDies).map (fun x =>
    (x, (List.range 8).foldl (fun v i => Tab.set 0 i ((s.rep x).minimum i) v) []))
  let s := { s with repl := { s.repl with reports := reps } }
  let t := s.settled
  { s with repl := { s.repl with dies := s.repl.dies.map (fun r => (r.1, { r.2 with
      lastW := r.2.lastW.filter (fun w => decide (t w.2.1 < w.2.2)),
      replay := r.2.replay.filter (fun p => decide (t p.src < vecGet p.vec p.src)) })) } }

/-! ### Lags (R292) -/

/-- A die's unsettled updates would pass the limit: its replicated stores stall (R292). -/
def execLag (die : Nat) (s : State) : Host.Outcome State Fault Refusal :=
  let r := s.rep die
  if r.lagging || !s.lagLimit die then .next s
  else .next ((s.setRep die { r with lagging := true }).lagEvent die false)

/-- The reports of the settled vector, and the lags that they end. -/
def execSettledReport (s : State) : Host.Outcome State Fault Refusal :=
  let s := s.reportAll
  .next ((s.liveDies).foldl (fun s j =>
    let r := s.rep j
    if r.lagging && !s.lagLimitBy j r.need then (s.setRep j { r with lagging := false, need := 1 }).lagEvent j true else s) s)

/-! ### Strong operations (R247, R288, R289) -/

def State.strong? (s : State) (id : Nat) : Option Strong := s.repl.strongs.find? (fun o => decide (o.id = id))
def State.putStrong (s : State) (o : Strong) : State :=
  { s with repl := { s.repl with strongs := s.repl.strongs.map (fun k => if k.id = o.id then o else k) } }

/-- The next live rank above a rank, wrapping from 7 to 0. -/
def State.rankAbove (s : State) (d : Nat) : Nat :=
  (((List.range 8).map (fun k => (d + 1 + k) % 8)).find? (fun k => (s.liveDies).contains k)).getD d

/-- The Collator grants the next slot to a strong operation (R288), once its release is performed (R232) and the order gate
admits it (R397). After slot 65,536·n − 1 the role passes on. -/
def execCollatorSlotGrant (id : Nat) (s : State) : Host.Outcome State Fault Refusal :=
  match s.strong? id with
  | none => .next s
  | some o =>
    if o.slot.isSome then .next s
    else if !s.released o.info || s.repl.handover || s.repHalted || (s.rep o.die).lagging ||
        s.repl.strongs.any (fun k => decide (k.id < id ∧ k.info.tok = o.info.tok) && k.slot.isNone) then
      .next (s.later (.collatorSlotGrant id))
    else if s.lagFull o.die then .next ((s.askLag o.die).later (.collatorSlotGrant id))
    else
      match s.gate { info := o.info, ctx := o.ctx, unit := 0x3FF, id := id,
                     addr := match o.accs with | a :: _ => a.acc.va | [] => 0 } with
      | .hold s => .next (s.later (.collatorSlotGrant id))
      | .go s =>
        let n := s.repl.nextSlot
        let s := s.putStrong { o with slot := some n }
        let last := decide ((n + 1) % 65536 = 0)
        let s := { s with repl := { s.repl with nextSlot := n + 1, handover := last } }
        let s := if last then s.post .collatorHandover else s
        .next (s.post (.strongLock o.die id))

/-- The Collator's role passes to the next live rank above its holder (R288); one that was due to pass at a slot boundary passes once
(R309). -/
def State.passRole (s : State) : State :=
  { s with repl := { s.repl with coll := s.rankAbove s.repl.coll, handover := false } }

def execCollatorHandover (s : State) : Host.Outcome State Fault Refusal := .next (if s.repl.handover then s.passRole else s)

/-- Evaluates a strong operation on its issuer's replica (R289): the line as it will stand, the old values, the lanes that fail. -/
def State.strongEval (s : State) (o : Strong) : BitVec 32 × List (BitVec 32) × List (Nat × BitVec 128) × State :=
  let base := s.repBase o.die
  let r := o.accs.foldl (fun (r : BitVec 32 × List (Nat × BitVec 128) × State) p =>
    let q := r.2.2.serve o.ctx 0 o.die o.leaf p.pa p.acc
    match q.1 with
    | .fail c d => (r.1, r.2.1, if p.acc.op.returns then q.2.failAcc o.info p.acc c d
        else q.2.deferLanes o.info (o.info.lanesFor p.acc.lane) c d p.acc.va)
    | .done v =>
      let t := match p.acc.op.watchKind with
        | some k => q.2.watched o.info o.ctx (o.info.lanesFor p.acc.lane) k p.acc.va p.acc.size
        | none => q.2
      (r.1 ||| touchedWords o.line (p.pa - base) (p.pa - base + p.acc.size), r.2.1 ++ [(p.acc.lane, v)], t)) (0, [], s)
  let words := (markedWords r.1).map (fun i => BitVec.ofNat 32 (r.2.2.load (base + o.line + 4 * i) 4))
  (r.1, words, r.2.1, { r.2.2 with mem := s.mem })

/-- The issuer's own replica accepts the lock: the payload is computed, the count rises, and the lock goes to the others. -/
def State.strongOpen (s : State) (o : Strong) (slot : Nat) : State :=
  let d := o.die
  let v := s.strongEval o
  let s := v.2.2.2
  let r := s.rep d
  let e := r.e + 1
  let av := Tab.set 0 d e r.av
  let p : Packet :=
    { id := o.id, kind := .lock, grp := o.info.grp, team := o.info.team, seq := o.info.seq, path := o.info.path, ctx := o.ctx,
      va := (match o.accs with | a :: _ => a.acc.va - BitVec.ofNat 64 (a.pa % 128) | [] => 0), tick := o.info.tick, src := d,
      atom := o.accs.any (fun a => a.acc.op.returns), slot := slot, line := o.line, vec := av, wmask := v.1,
      epoch := s.repl.epoch, words := v.2.1 }
  let s := s.setRep d { r with e := e, av := av, locks := r.locks ++ [p] }
  let s := s.putStrong { o with pkt := some p, acks := [d], vals := v.2.2.1 }
  let s := ((s.sendPacket d p).count (0x340 + d) 0x4A 1).post (.strongLockAck o.id)
  if e = 0xFFF0 then s.post .wrap else s

/-- Whether a die can take the lock of a line now: the hold of R213 is over and no other operation has it locked. -/
def State.lockFree (s : State) (d line : Nat) : Bool :=
  decide (s.lexp (s.repBase d + line) d ≤ s.tick.toNat) && !s.lineLocked d line

/-- A lock comes to a replica or is tested again (R286, R289): an acceptable one is accepted, on arrival without an entry; another
waits in the hold queue, or on its link where that is full. -/
def State.acceptLock (s : State) (d id : Nat) : State :=
  let ok (s : State) (p : Packet) : Bool :=
    let r := s.rep d
    decide (p.slot = r.expect) && r.applicable p && r.accept.isNone
  match s.takeLink d id .lock with
  | some (p, t) =>
    if ok t p then t.setRep d { t.rep d with accept := some p }
    else if (t.rep d).hold.length < holdSize then t.holdPacket d p
    else s
  | none =>
    let r := s.rep d
    match r.hold.find? (fun p => decide (p.kind = .lock ∧ p.id = id)) with
    | some p => if ok s p then s.setRep d { r with hold := r.hold.erase p, accept := some p } else s
    | none => s

/-- A replica accepts a lock in slot order, waits out the hold of its line, locks the line and acknowledges (R289). -/
def execStrongLock (die id : Nat) (s : State) : Host.Outcome State Fault Refusal :=
  let again := s.later (.strongLock die id)
  match s.strong? id with
  | none => .next s
  | some o =>
    if o.die = die then
      match o.slot, o.pkt with
      | some n, none =>
        let stop := s.repl.rebase || s.countsFull || !s.repl.removing.isEmpty
        .next (if n = (s.rep die).expect ∧ stop = false ∧ s.lockFree die o.line = true then s.strongOpen o n else again)
      | _, _ => .next s
    else
      let t := s.acceptLock die id
      match (t.rep die).accept with
      | some p =>
        if p.id ≠ id then .next (t.later (.strongLock die id))
        else if t.lockFree die p.line then
          let r := t.rep die
          let t := t.setRep die { r with accept := none, locks := r.locks ++ [p] }
          let t := t.putStrong { o with acks := o.acks ++ [die] }
          .next (t.post (.strongLockAck id))
        else .next (t.later (.strongLock die id))
      | none =>
        .next (if t.onLink die id .lock || (t.rep die).hold.any (fun p => decide (p.kind = .lock ∧ p.id = id)) then
            t.later (.strongLock die id) else t)

/-- Sends a commit or an abort to the other live replicas, and takes it at the issuer's own. -/
def State.resolveStrong (s : State) (o : Strong) (k : PktKind) (p : Packet) : State :=
  let q := { p with kind := k, words := [], wmask := 0 }
  let todo := (s.liveDies).filter (fun d => !o.applied.contains d)
  let s := { s with repl := { s.repl with
    links := s.repl.links ++ (todo.filter (fun d => decide (d ≠ o.die))).map (fun d => (o.die, d, q)) } }
  todo.foldl (fun s d => s.post (if k = .commit then .strongCommit d o.id else .strongAbort d o.id)) s

/-- The last acknowledgement of a lock: the commit goes out (R289). -/
def execStrongLockAck (id : Nat) (s : State) : Host.Outcome State Fault Refusal :=
  match s.strong? id with
  | none => .next s
  | some o =>
    match o.pkt with
    | none => .next s
    | some p =>
      if o.committed || !(s.liveDies).all (fun d => o.acks.contains d) then .next s
      else
        let o := { o with committed := true }
        .next ((s.putStrong o).resolveStrong o .commit p)

/-- A replica is done with a strong operation: it unlocks the line, takes the sender's count, expects the next slot, and what
waited for the line goes on. The last one ends it. -/
def State.strongDone (s : State) (d : Nat) (o : Strong) (slot : Nat) : State :=
  let r := s.rep d
  let c := match o.pkt with | some p => vecGet p.vec o.die | none => 0
  let s := s.setRep d { r with
    locks := r.locks.filter (fun p => decide (p.id ≠ o.id)), hold := r.hold.filter (fun p => decide (p.id ≠ o.id)),
    accept := r.accept.filter (fun p => decide (p.id ≠ o.id)),
    expect := slot + 1, av := if d = o.die then r.av else Tab.set 0 o.die (max c (vecGet r.av o.die)) r.av }
  let o := { o with applied := o.applied ++ [d] }
  let s := if (s.liveDies).all (fun k => o.applied.contains k) then
      { s with repl := { s.repl with strongs := s.repl.strongs.filter (fun k => decide (k.id ≠ o.id)) } }
    else s.putStrong o
  (s.post (.updateAck d o.id)).retest d

/-- A replica applies a commit (R289): on the issuer's the old values return. -/
def execStrongCommit (die id : Nat) (s : State) : Host.Outcome State Fault Refusal :=
  match s.strong? id with
  | none => .next s
  | some o =>
    match o.pkt, o.slot with
    | some p, some n =>
      if !o.committed || o.applied.contains die then .next s
      else
        let t := if die = o.die then some s else (s.takeLink die id .commit).map Prod.snd
        match t with
        | none => .next (s.later (.strongCommit die id))
        | some t =>
          let t := t.applyWords die p
          let r := t.rep die
          let t := if die = o.die then
              o.accs.foldl (fun s a => if a.acc.op.returns then
                (match o.vals.find? (fun v => decide (v.1 = a.acc.lane)) with
                 | some v => s.deliver o.info a.acc v.2
                 | none => s) else s) t
            else t.setRep die { r with replay := r.replay ++ [p] }
          .next (t.strongDone die o n)
    | _, _ => .next s

/-- Whether a removed die's updates up to F are applied on every live die, but for the aborts themselves (R294): step 4 comes after
steps 2 and 3. -/
def State.frozenAll (s : State) (o : Strong) : Bool :=
  ((s.liveDies).filter (fun d => !o.applied.contains d)).all (fun d => (s.liveDies).all (fun x =>
    o.applied.contains x || decide (vecGet (s.rep x).av o.die ≤ vecGet (s.rep d).av o.die)))

/-- A replica takes an abort (R289, R294): nothing is written. One for a slot that is not its next waits, and one that comes before
the removed die's last updates are applied. -/
def execStrongAbort (die id : Nat) (s : State) : Host.Outcome State Fault Refusal :=
  match s.strong? id with
  | none => .next s
  | some o =>
    match o.slot with
    | none => .next s
    | some n =>
      if o.committed || o.applied.contains die || (s.liveDies).contains o.die then .next s
      else if (s.rep die).expect ≠ n ∨ s.frozenAll o = false then .next (s.later (.strongAbort die id))
      else
        let t := match s.takeLink die id .abort with | some (_, t) => t | none => s
        .next (t.strongDone die o n)

/-! ### Rebase (R293) -/

/-- Whether every emitted packet is applied everywhere. -/
def State.drained (s : State) : Bool :=
  s.repl.links.isEmpty && s.repl.strongs.all (fun o => o.pkt.isNone) && (s.liveDies).all (fun d =>
    (s.rep d).hold.isEmpty && (s.rep d).unacked.all (fun u => u.2.all (fun k => !(s.liveDies).contains k)))

/-- A rebase (R293): it is ordered, the dies drain, the common vector is subtracted, and the epoch rises. -/
def execWrap (s : State) : Host.Outcome State Fault Refusal :=
  let c := s.repl.coll
  if !s.repl.rebase then
    if !s.countsFull then .next s
    else
      let s := { s with repl := { s.repl with rebase := true, wrapSince := s.tick.toNat } }
      .next ((s.repEvent 1 c c false s.repl.epoch.toNat 0).later .wrap)
  else if !s.repl.removing.isEmpty || !s.drained then .next (s.later .wrap)
  else
    let old := s.repl.epoch
    let since := s.repl.wrapSince
    let s := { s with repl := { s.repl with
      dies := s.repl.dies.map (fun (r : Nat × RepDie) => (r.1, { r.2 with e := 0, av := [], lastW := [], replay := [], unacked := [] })),
      reports := [], rebase := false, epoch := old + 1 } }
    .next (s.repEvent 1 c c true old.toNat (s.tick.toNat - since))

/-! ### Membership (R294) -/

/-- F: the largest count of a removed die that a live die has applied. -/
def State.frozenCount (s : State) (k : Nat) : Nat := (s.liveDies).foldl (fun m d => max m (vecGet (s.rep d).av k)) 0

/-- A die from whose replay buffer a packet of the removed die can be forwarded. -/
def State.replayHolder (s : State) (k c : Nat) : Option (Nat × Packet) :=
  (s.liveDies).findSome? (fun x => ((s.rep x).replay.find? (fun p => decide (p.src = k ∧ vecGet p.vec k = c))).map (fun p => (x, p)))

/-- The packets of the removed die that a live die lacks are forwarded to it; what it holds above F is discarded. -/
def State.forwardTo (s : State) (k f d : Nat) : State :=
  let r := s.rep d
  let s := s.setRep d { r with
    hold := r.hold.filter (fun p => decide (p.src ≠ k) || (decide (p.kind = .update ∧ vecGet p.vec k ≤ f))),
    accept := r.accept.filter (fun p => decide (p.src ≠ k)),
    unacked := r.unacked.filterMap (fun u =>
      let left := u.2.filter (fun x => decide (x ≠ k))
      if left.isEmpty then none else some (u.1, left)) }
  (List.range (f + 1)).foldl (fun s c =>
    if c ≤ vecGet (s.rep d).av k || (s.rep d).hold.any (fun p => decide (p.src = k ∧ vecGet p.vec k = c)) then s
    else match s.replayHolder k c with
      | some (x, p) =>
        if p.kind = .update then
          ({ s with repl := { s.repl with links := s.repl.links ++ [(x, d, p)] } } : State).post (.updatePacketArrival d p.id)
        else s
      | none => s) s

/-- The strong operations of the removed die are resolved: a commit that reached a live replica goes to every one, the others are
aborted; one without a slot is gone. -/
def State.resolveOf (s : State) (k : Nat) : State :=
  let mine := s.repl.strongs.filter (fun o => decide (o.die = k))
  let s := { s with repl := { s.repl with strongs := s.repl.strongs.filter (fun o => decide (o.die ≠ k) || o.slot.isSome) } }
  mine.foldl (fun s o =>
    if o.slot.isNone then s
    else
      let reached := o.committed && o.applied.any (fun d => (s.liveDies).contains d)
      let s := s.putStrong { o with committed := reached }
      let todo := (s.liveDies).filter (fun d => !o.applied.contains d)
      match reached, o.pkt with
      | true, some p => s.resolveStrong o .commit p
      | _, _ => todo.foldl (fun s d => s.post (.strongAbort d o.id)) s) s

/-- A dirty line that a removed die held as writer (R366): its write-back to the home succeeds, or fails and leaves it poisoned
there. Which, the specification leaves to the die: a free value (log entry 88). -/
def State.dropDirty (s : State) (pa k : Nat) : State :=
  let home := pa / 0x2000000000
  let (v, t) := s.freeVal
  if v.getLsbD 0 then (t.l2Touch pa home true).l2Drop pa k
  else (t.setSys { t.sys with poison := Tab.set false (lineKey pa home) true t.sys.poison }).l2Drop pa k

/-- Ends the grants that a die holds (R366). -/
def State.dropGrants (s : State) (k : Nat) : State :=
  (s.sys.own.filter (fun o => decide (o.2.w = k))).foldl (fun s o =>
    let s := (List.range 512).foldl (fun s l =>
      let pa := o.1 * 65536 + 128 * l
      let s := s.raiseLexp pa (pa / 0x2000000000) (s.lexp pa k)
      if s.l2Dirty pa k && o.2.mask.getLsbD (l / 32) then s.dropDirty pa k else s.l2Drop pa k) s
    s.setSys { s.sys with own := Tab.del o.1 s.sys.own }) s

/-- The fault of a parked access of a control core (R359): as the buffer of die `old` holds its page, else as its walk ends now. -/
def State.faultAgain (s : State) (old core ctx : Nat) (sup : Bool) (n : Need) (va : Word) : Option (Word × PageFault) :=
  let v := vaOf va
  match (s.faultBuf old ctx).keys.find? (fun k => decide (k.vpage = (⟨k.reason, k.level, k.logSize⟩ : PageFault).vpage v)) with
  | some k => some (va, ⟨k.reason, k.level, k.logSize⟩)
  | none => s.walkAgain core ctx sup n va

/-- Reports again the pages of a word that a control core has parked (R359), each once. -/
def State.againWord (s : State) (old core slot ctx : Nat) (sup : Bool) (acc path : Nat) (l : List Word) : State :=
  s.reportPages core slot ctx acc path (l.filterMap (s.faultAgain old core ctx sup (needOf acc)))

/-- A log's pages, reported again. -/
def State.againLog (s : State) (old core slot ctx : Nat) (sup : Bool) (l : OpLog) : State :=
  match l.accs with
  | [] => s
  | a :: _ => s.againWord old core slot ctx sup a.op.faultCode l.info.path.code (l.accs.map Acc.va)

/-- What groups of control cores have parked, reported again: logs, fetches, waits, and words that wait for a replay. -/
def State.againGroups (s : State) (old : Nat) (l : List (Nat × Group)) : State :=
  (l.filter (fun e => isControl e.2.core)).foldl (fun s e =>
    let x := e.2
    let s := x.mem.logs.foldl (fun s l => s.againLog old x.core x.slot x.ctx x.sup l) s
    let s := if x.sched.fetch.isSome then
        s.againWord old x.core x.slot x.ctx x.sup 3 5 [(x.flow.pc.setWidth 64) <<< 3] else s
    match x.sched.susp with
    | .waitv _ va _ _ _ _ (some _) => s.againWord old x.core x.slot x.ctx x.sup 0 0 [va]
    | .mbar _ va _ _ _ _ (some _) => s.againWord old x.core x.slot x.ctx x.sup 2 0 [va]
    | .replay _ => s.againWord old x.core x.slot x.ctx x.sup x.sched.lost.1 0 x.sched.lost.2
    | _ => s) s

/-- What engine commands of control cores have parked, reported again. -/
def State.againEngs (s : State) (old : Nat) (l : List EngCmd) : State :=
  (l.filter (fun c => isControl c.core)).foldl (fun s c =>
    c.parked.foldl (fun s p => match c.piece p.1 with
      | some (sa, da, _) =>
        (match s.faultAgain old c.core c.ctx c.sup .read sa with
         | some f => s.reportPages c.core c.slot c.ctx 0 c.path.code [f]
         | none => s.againWord old c.core c.slot c.ctx c.sup 1 c.path.code [da])
      | none => s) s) s

/-- Reports again what the control cores have parked, to the lowest live rank, as die `old` goes (R359): logs, fetches, waits, launch
records, engine commands, publications, collectives, what ended groups have left, and what saved contexts hold. -/
def State.reportAgain (s : State) (old : Nat) : State :=
  let s := s.againGroups old (s.groups ++ s.hub.saved.flatMap (fun v => v.2.groups))
  let s := (s.hub.launches.filter (fun r => isControl r.core && r.parked.isSome)).foldl (fun s r =>
    s.againWord old r.core r.slot r.ctx r.sup 0 0 [r.addr]) s
  let s := (s.sys.orphans.filter (fun o => isControl o.core)).foldl (fun s o =>
    s.againLog old o.core (o.log.info.grp % 64) o.ctx o.sup o.log) s
  let s := s.againEngs old (s.sys.engs ++ s.hub.saved.flatMap (fun v => v.2.engs))
  let s := (s.fab.pubs.filter (fun p => isControl p.core && p.parked.isSome)).foldl (fun s p =>
    s.againWord old p.core p.slot p.ctx p.sup 0 4 [p.src + BitVec.ofNat 64 p.sent]) s
  (s.fab.colls.filter (fun c => isControl c.core && c.parked.isSome)).foldl (fun s c =>
    s.againWord old c.core c.slot c.ctx c.sup (if c.result.isSome then 1 else 0) 4 [c.lost]) s

/-- The removal begins (R294): emission stops, the Collator's role passes on, the die's packets up to F are forwarded. -/
def State.removeBegin (s : State) (k : Nat) : State :=
  let old := s.repl.live
  let s := { s with repl := { s.repl with removing := s.repl.removing ++ [k] } }
  let s := s.passRole
  let s := s.repEvent 2 s.repl.coll k false old.toNat ((old &&& ~~~(1#8 <<< k)).toNat + s.frozenCount k * 2 ^ 16)
  let s := { s with repl := { s.repl with
    links := s.repl.links.filter (fun l => decide (l.1 ≠ k ∧ l.2.1 ≠ k)) } }
  let f := s.frozenCount k
  let s := (s.liveDies).foldl (fun s d => s.forwardTo k f d) s
  let s := s.resolveOf k
  s.repl.strongs.foldl (fun s o => s.post (.strongLockAck o.id)) s

/-- Whether the removed die has nothing left to resolve: every live die has applied the same updates of it. -/
def State.removeReady (s : State) (k : Nat) : Bool :=
  s.repl.strongs.all (fun o => decide (o.die ≠ k)) &&
    (s.liveDies).all (fun d => decide (vecGet (s.rep d).av k = s.frozenCount k) &&
      (s.rep d).hold.all (fun p => decide (p.src ≠ k)))

/-- Containment removes a die (R294): its count is frozen, LIVE changes and emission resumes. -/
def execMembershipRemove (die : Nat) (s : State) : Host.Outcome State Fault Refusal :=
  if 8 ≤ die ∨ s.repl.live.getLsbD die = false then .next s
  else if !s.repl.removing.contains die then .next ((s.removeBegin die).later (.membershipRemove die))
  else if !s.removeReady die then .next (s.later (.membershipRemove die))
  else
    let old := s.repl.live
    let low := s.lowRank
    let f := s.frozenCount die
    let s := { s with
      repl := { s.repl with
        live := old &&& ~~~(1#8 <<< die), removing := s.repl.removing.erase die, reports := Tab.del die s.repl.reports,
        strongs := s.repl.strongs.filter (fun o => decide (o.pkt.isNone) ||
          !((List.range 8).filter (fun d => s.repl.live.getLsbD d && decide (d ≠ die))).all (fun d => o.applied.contains d)) },
      fab := { s.fab with cache := s.fab.cache.filter (fun c => decide (c.die ≠ die)) } }
    let s := s.dropGrants die
    let s := if low = die then s.reportAgain die else s
    .next (s.repEvent 2 s.repl.coll die true old.toNat (s.repl.live.toNat + f * 2 ^ 16))

/-! ### Join (R295) -/

/-- A write of GO (R291, R295): the lowest live rank begins to copy the region to the joining rank. -/
def execJoinGo (die : Nat) (s : State) : Host.Outcome State Fault Refusal :=
  if s.repl.join.isSome ∨ s.repl.live.getLsbD die = true ∨ 8 ≤ die then .next s
  else
    let s := { s with repl := { s.repl with join := some { rank := die, copied := false } } }
    let frozen := vecGet (s.rep s.lowRank).av die
    .next ((s.repEvent 2 s.repl.coll die false s.repl.live.toNat ((s.repl.live ||| (1#8 <<< die)).toNat + frozen * 2 ^ 16)).post
      (.joinCopyEnd die))

/-- Copies the replicated region from one die to another. -/
def State.copyRegion (s : State) (a b : Nat) : State :=
  let inside (d : Nat) (c : Host.Cell) : Bool := decide (s.repBase d ≤ c.1 ∧ c.1 < s.repBase d + s.repSize)
  let moved := s.mem.filter (inside a)
  let old := s.mem.filter (inside b)
  let s := old.foldl (fun s c => s.setByte c.1 0) s
  moved.foldl (fun s c => s.setByte (c.1 - s.repBase a + s.repBase b) c.2) s

/-- The copy and its repeats are done but for the last pages (R295): the join slot is taken and emission stops; once the dies have
drained the rest is copied, and the rank lives. -/
def execJoinCopyEnd (die : Nat) (s : State) : Host.Outcome State Fault Refusal :=
  match s.repl.join with
  | none => .next s
  | some j =>
    if j.rank ≠ die then .next s
    else if !j.copied then
      if s.repl.rebase || !s.repl.removing.isEmpty || s.repl.handover then .next (s.later (.joinCopyEnd die))
      else
        let s := { s with repl := { s.repl with join := some { j with copied := true }, nextSlot := s.repl.nextSlot + 1 } }
        .next (s.later (.joinCopyEnd die))
    else if !s.repl.removing.isEmpty || !s.drained || s.repl.strongs.any (fun o => o.slot.isSome) then
      .next (s.later (.joinCopyEnd die))
    else
      let low := s.lowRank
      let l := s.rep low
      let s := s.copyRegion low die
      let frozen := vecGet l.av die
      let new : RepDie := { RepDie.reset with e := frozen, av := l.av, lastW := l.lastW }
      let s := s.setRep die new
      let old := s.repl.live
      let s := { s with repl := { s.repl with live := old ||| (1#8 <<< die), join := none } }
      let s := (s.liveDies).foldl (fun s d => s.setRep d { s.rep d with expect := s.repl.nextSlot }) s
      let rep : Tab Nat := (List.range 8).foldl (fun v i => Tab.set 0 i ((s.rep die).minimum i) v) []
      let s := { s with repl := { s.repl with reports := Tab.put die rep s.repl.reports } }
      -- the role passes once, also where the join slot was the last before a boundary (R288, R309)
      let s := s.passRole
      .next (s.repEvent 2 s.repl.coll die true old.toNat (s.repl.live.toNat + frozen * 2 ^ 16))

end Sys2Proof.Machine
end

