-- ==== Sys2Proof/Machine/Peer.lean ====
section
/-!
DEFINITION. Machine/Peer.lean: requests to peer packages and from them (R299 to R302, R375).
-/
namespace Sys2Proof.Machine

def State.dropPeer (s : State) (id : Nat) : State :=
  { s with fab := { s.fab with reqs := s.fab.reqs.filter (fun r => decide (r.id ≠ id)) } }

/-! ### Sending (R300) -/

/-- Requests that became ready after their word issued take places as places free, in the order in which they became ready, behind
what the queue holds (R300). -/
def State.peerPromote (s0 : State) : State :=
  let s := s0.markReady
  let ready := s.fab.reqs.filter (fun q => decide (q.state = PeerState.ready) && q.since.isSome)
  (sortNat (ready.filterMap (fun q => q.since))).foldl (fun s n =>
    match s.fab.reqs.find? (fun q => decide (q.since = some n) && decide (q.state = PeerState.ready)) with
    | some q =>
      if s.peerUsed q.core < 32 then
        { s with fab := { s.fab with
          reqs := s.fab.reqs.filter (fun r => decide (r.id ≠ q.id)) ++ [{ q with state := .queued }] } }
      else s
    | none => s) s

/-- Slots that a target reserves for a die and that are not free (R300, R301). -/
def State.slotsUsed (s : State) (pkg die : Nat) : Nat :=
  (s.fab.reqs.filter (fun q => decide (q.pkg = pkg ∧ q.die = die) && decide (q.state = PeerState.sent))).length +
    Tab.get 0 (pkg * 8 + die) s.fab.withheld

/-- The requests that a die has outstanding. -/
def State.peerOut (s : State) (die : Nat) : Nat :=
  (s.fab.reqs.filter (fun q => decide (q.die = die) && (decide (q.state = PeerState.sent) || decide (q.state = PeerState.busy)))).length

/-- A tag of a die that may be used again (R302): no request has it whose response is still to come, and 20,000 ticks have passed
since its last send. Its rank is in bits [11:9]. -/
def State.freeTag (s : State) (die : Nat) : Option Nat :=
  ((List.range 512).map (fun k => die * 512 + k)).find? (fun t =>
    s.fab.lost.all (fun e => decide (e.2 ≠ t)) &&
    s.fab.reqs.all (fun q => decide (q.tag ≠ t) || (decide (q.state ≠ PeerState.sent) && decide (q.state ≠ PeerState.busy) &&
      decide (q.first = 0))) &&
    (match Tab.find? t s.fab.last with
     | some n => decide (n + 20000 ≤ s.tick.toNat)
     | none => true))

/-- Whether an earlier access of the same thread and path to a byte of a request is still outstanding (R234). -/
def State.peerBehind (s : State) (q : PeerReq) : Bool :=
  s.fab.reqs.any (fun r => decide (r.id < q.id ∧ r.pkg = q.pkg ∧ r.info.grp = q.info.grp ∧ r.info.team = q.info.team ∧
    r.info.path = q.info.path) && r.accs.any (fun b => q.accs.any (fun a => b.meets a))) ||
  (decide (q.info.path = .ls) && q.accs.any (s.behindLaunch q.info.grp q.info.team q.info.seq))

/-- The request that a die sends next: the oldest queued one whose target has a free slot. -/
def State.peerNext (s : State) (die : Nat) : Option PeerReq :=
  s.fab.reqs.find? (fun q => decide (q.die = die) && decide (q.state = PeerState.queued) && decide (s.slotsUsed q.pkg die < 8) &&
    !s.peerBehind q)

/-- A store that never completes, or is refused, after its word has issued: recorded against its group (R269, R301); a copy fails
(R280), and the hub posts a record (R339). -/
def State.peerStoreLost (s : State) (q : PeerReq) (a : PAcc) (cause detail : Nat) : State :=
  let i := q.info
  match i.engine with
  | some id =>
    if s.sys.engs.any (fun c => decide (c.id = id)) then
      (s.setSys { s.sys with engs := s.sys.engs.map (fun c =>
        if c.id = id then { c with fault := some (c.fault.getD (cause, detail, a.acc.va)), lost := c.lost + a.acc.size } else c) }).later (.engineCommandComplete id)
    else if s.owns i then s.updGrp i.grp (fun x => { x with mem := { x.mem with
      failed := x.mem.failed ++ [{ va := a.acc.va, seq := i.seq, lane := a.acc.lane }] } })
    else s
  | none =>
    if i.grp = hubGrp then s.postCtxFault q.ctx 0 cause detail 0xFFFF
    else if s.owns i then s.updGrp i.grp (fun x => { x with mem := { x.mem with
      failed := x.mem.failed ++ [{ va := a.acc.va, seq := i.seq, lane := a.acc.lane }] } })
    else s

/-- A request's accesses are refused with a cause (R254, R255, R299): the lanes fail; an engine's store fails its command. -/
def State.peerRefuse (s : State) (q : PeerReq) (cause detail : Nat) : State :=
  (q.accs.foldl (fun s a =>
    if a.acc.op.returns then s.failAcc q.info a.acc cause detail
    else if q.info.engine.isSome || decide (q.info.grp = hubGrp) then s.peerStoreLost q a cause detail
    else s.deferLanes q.info (q.info.lanesFor a.acc.lane) cause detail a.acc.va) s).dropPeer q.id

/-- Whether the access tables of class 2 grant a request (R369). -/
def State.peerGranted (s : State) (q : PeerReq) : Bool :=
  q.accs.all (fun a => s.permitted 2 q.ctx q.info.path.code a.acc.op.opClass a.pa a.acc.size (some q.pkg))

/-- Sends a request, or sends it again after BUSY: it holds a slot; a first send takes a tag and its generation. -/
def State.peerSend (s : State) (q : PeerReq) (tag : Nat) : State :=
  let now := s.tick.toNat
  let fresh := decide (q.first = 0)
  let n := Tab.get 0 tag s.fab.tags
  let q' := if fresh then { q with state := PeerState.sent, tag := tag, gen := decide (n % 2 = 1), first := now, src := s.pkgId }
    else { q with state := PeerState.sent }
  let s := s.putPeer q'
  { s with fab := { s.fab with
    tags := if fresh then Tab.put tag (n + 1) s.fab.tags else s.fab.tags,
    last := Tab.put tag now s.fab.last } }

/-- The port by which a die's requests leave (R426): one of its own that is up, else the nearest that is, by the distance of the
ranks (log entry 50); none where every port is down. -/
def State.egress (s : State) (die : Nat) : Option Nat :=
  ((List.range 8).flatMap (fun k =>
    (if k ≤ die then [2 * (die - k), 2 * (die - k) + 1] else []) ++
    (if 0 < k ∧ die + k < 8 then [2 * (die + k), 2 * (die + k) + 1] else []))).find? (fun p => decide (s.portState p = 2))

/-- A die's egress sends the oldest queued request whose target has a free slot (R300), by a port that is up (R426). -/
def execPeerRequestSend (die : Nat) (s : State) : Host.Outcome State Fault Refusal :=
  let s := s.peerPromote
  let waiting := s.fab.reqs.any (fun q => decide (q.die = die) &&
    (decide (q.state = PeerState.queued) || decide (q.state = PeerState.ready)))
  let again (s : State) : State := if waiting then s.later (.peerRequestSend die) else s
  match s.peerNext die with
  | none => .next (again s)
  | some q =>
    if !s.peerGranted q then .next (again (s.peerRefuse q 0x11 3))
    else if 256 ≤ s.peerOut die then .next (again s)
    else match s.egress die with
      | none => .next (again s)
      | some p =>
        let q := { q with port := p }
        if q.first ≠ 0 then .next (again (s.peerSend q q.tag))
        else match s.freeTag die with
          | none => .next (again s)
          | some t => .next (again (s.peerSend q t))

/-! ### Responses, re-issues and time-outs (R301, R302) -/

/-- The values that a response brings, access by access. -/
def State.peerDeliver (s : State) (q : PeerReq) (data : List Byte) : State :=
  (q.accs.foldl (fun (r : List Byte × State) a =>
    let s := match a.acc.op.watchKind with
      | some k => r.2.watched q.info q.ctx (q.info.lanesFor a.acc.lane) k a.acc.va a.acc.size
      | none => r.2
    if a.acc.op.returns then
      (r.1.drop a.acc.size, s.deliver q.info a.acc (BitVec.ofNat 128 (numOfBytes (r.1.take a.acc.size))))
    else (r.1, s)) (data, s)).2

/-- A response of a peer (R301, R302, R393): it completes the request and returns its slot; after BUSY the request is sent again;
HELD begins the wait anew; an error fails the lanes with ACCESS, detail 3 (R299). A later response finds no request, and frees the
tag of one that had none in time. -/
def execPeerResponse (id : Nat) (ans : PeerAnswer) (s : State) : Host.Outcome State Fault Refusal :=
  match s.peer? id with
  | none => match ans with
    | .held | .busy => .next s
    | _ => .next { s with fab := { s.fab with lost := Tab.del id s.fab.lost } }
  | some q =>
    if q.first = 0 then .next s
    else
      let next (s : State) : State := s.later (.peerRequestSend q.die)
      match ans with
      | .done data => .next (next ((s.peerDeliver q data).dropPeer id))
      | .error => .next (next (s.peerRefuse q 0x11 3))
      | .poison => .next (next (s.peerRefuse q 0x16 1))
      | .busy =>
        if q.state ≠ PeerState.sent then .next s
        else
          -- a BUSY to the probe answers it, and the request begins again
          let q := if q.sends = 3 then { q with sends := 0, first := s.tick.toNat } else q
          .next (next (s.putPeer { q with state := .busy, due := s.tick.toNat + 2000 }))
      | .held =>
        -- the re-issue that was answered so does not count, and the next is due after 20,000 ticks more
        let n := q.sends - 1
        .next (s.putPeer { q with sends := n, first := max 1 (s.tick.toNat - 20000 * n) })

/-- 2,000 ticks after a BUSY the request takes its place again (R302). -/
def execPeerBusyRetry (id : Nat) (s : State) : Host.Outcome State Fault Refusal :=
  match s.peer? id with
  | none => .next s
  | some q =>
    if q.state = PeerState.busy ∧ q.due ≤ s.tick.toNat then
      .next ((s.putPeer { q with state := .queued }).later (.peerRequestSend q.die))
    else .next s

/-- Whether a request's next re-issue is due: 20,000, 40,000 and 60,000 ticks after its first send. -/
def PeerReq.reissueDue (q : PeerReq) (now : Nat) : Bool :=
  decide (q.state = PeerState.sent) && decide (q.sends < 3 ∧ q.first + 20000 * (q.sends + 1) ≤ now)

/-- A re-issue, with the same slot and tag, by a port that is up (R301, R426); for a publication, its flits to the children that have not acknowledged them,
and those that the root dropped. -/
def execPeerReissue (id : Nat) (s : State) : Host.Outcome State Fault Refusal :=
  let now := s.tick.toNat
  match s.peer? id with
  | some q =>
    if q.reissueDue now then
      match s.egress q.die with
      | none => .next s
      | some p =>
        let s := s.putPeer { q with sends := q.sends + 1, port := p }
        .next { s with fab := { s.fab with last := Tab.put q.tag now s.fab.last } }
    else .next s
  | none =>
    match s.fab.pubs.find? (fun p => decide (p.id = id)) with
    | none => .next s
    | some p =>
      if p.tries < 3 ∧ p.first + 20000 * (p.tries + 1) ≤ now ∧ p.len ≤ p.sent ∧ (s.egress (s.issueDie p.core)).isSome then
        let mine := s.fab.flits.filter (fun f => p.left.contains f.id && !f.held)
        let s := { s with fab := { s.fab with
          flitsOut := s.fab.flitsOut ++ mine.flatMap (fun f => f.acks.map (fun k => (k, { f with pkg := s.pkgId }))),
          pubs := s.fab.pubs.map (fun k => if k.id = id then { k with tries := k.tries + 1 } else k) } }
        .next ((mine.filter (fun f => f.ent.isEmpty)).foldl (fun s f => s.later (.publicationFlitArrival 16 f.id)) s)
      else .next s

/-- Whether a request has had no response for 60,800 ticks. -/
def PeerReq.timeoutDue (q : PeerReq) (now : Nat) : Bool :=
  decide (q.first ≠ 0) && decide (q.first + 60800 ≤ now)

/-- Changes the group that issued a word, wherever it is: resident, or saved (R309). -/
def State.updOwner (s : State) (grp team : Nat) (f : Group → Group) : State :=
  if s.hasGrp grp && decide ((s.grp grp).team = team) then s.updGrp grp f
  else s.setHub { s.hub with saved := s.hub.saved.map (fun (e : Nat × Saved) => (e.1, { e.2 with
    groups := e.2.groups.map (fun (g : Nat × Group) => if g.1 = grp ∧ g.2.team = team then (g.1, f g.2) else g) })) }

/-- A publication's end (R304): its word is done; flits that were not acknowledged are a failed store (R301). -/
def State.pubEnd (s : State) (p : PubWord) (lost : Bool) : State :=
  let s := { s with fab := { s.fab with
    pubs := s.fab.pubs.filter (fun k => decide (k.id ≠ p.id)), flits := s.fab.flits.filter (fun f => decide (f.src ≠ some p.id)) } }
  let s := if lost then
      s.updOwner p.grp p.team (fun x => { x with mem := { x.mem with failed := x.mem.failed ++ [{ va := p.src, seq := p.seq, lane := 0 }] } })
    else s
  s.tryEndTeam p.team

/-- No response by 60,800 ticks (R301): loads and atomics fail with PEER_ABSENT, stores are recorded, and the slot is withheld. -/
def execPeerTimeout (id : Nat) (s : State) : Host.Outcome State Fault Refusal :=
  let now := s.tick.toNat
  match s.peer? id with
  | some q =>
    if !q.timeoutDue now then .next s
    else
      let s := q.accs.foldl (fun s a =>
        if a.acc.op.returns then s.failAcc q.info a.acc 0x14 1 else s.peerStoreLost q a 0x14 1) s
      let k := q.pkg * 8 + q.die
      let s := if q.state = PeerState.sent then
          { s with fab := { s.fab with withheld := Tab.put k (Tab.get 0 k s.fab.withheld + 1) s.fab.withheld,
                                       lost := Tab.put id q.tag s.fab.lost } } else s
      .next ((s.dropPeer id).later (.peerRequestSend q.die))
  | none =>
    match s.fab.pubs.find? (fun p => decide (p.id = id)) with
    | some p => .next (if p.len ≤ p.sent ∧ p.first + 60800 ≤ now then s.pubEnd p true else s)
    | none => .next s

/-! ### Requests from peers (R302, R375) -/

/-- The entries of a die's reply cache. -/
def replyCacheSize : Nat := 65536

def State.answer (s : State) (src seq : Nat) (a : PeerAnswer) : State :=
  { s with fab := { s.fab with answers := s.fab.answers ++ [(src, seq, a)] } }

/-- A shared page without tracking or tags: what a request of a peer sees of the target's memory. -/
def peerLeaf : Word := 0x8F

/-- Performs a request of a peer at its home slice, lane by lane; the answer holds what it returns. -/
def State.peerPerform (s : State) (ctx pa : Nat) (op : PeerOp) : PeerAnswer × State :=
  let die := pa / 0x2000000000
  let one (r : PeerAnswer × State) (off : Nat) (a : Acc) : PeerAnswer × State :=
    match r.1 with
    | .done b =>
      let q := r.2.serve ctx 0 die peerLeaf (pa + off) a
      (match q.1 with
       | .done v => (.done (if a.op.returns then b ++ bytesOfNum a.size v.toNat else b), q.2)
       | .fail 0x16 _ => (.poison, q.2)
       | .fail _ _ => (.error, q.2))
    | _ => r
  match op with
  | .load n => (List.range n).foldl (fun r k => one r k (mkAcc 0 0 .load 1 0 0)) (.done [], s)
  | .store data mask =>
    (data.zipIdx.filter (fun e => mask.getD e.2 false)).foldl (fun r e =>
      one r e.2 { mkAcc 0 0 .store 1 (e.1.setWidth 128) 0 with bmask := 1 }) (.done [], s)
  | .atomic op ty lanes =>
    lanes.foldl (fun r l =>
      one (r.1, r.2.recallSub (r.2.forwardPa (pa + l.1) / 4096)) l.1 (mkAcc 0 0 (.atomic op ty true) (ty.bits / 8) (l.2.1.setWidth 128) l.2.2))
      (.done [], s)

/-- Whether a peer's atomic waits for the recall of its sub-granule: to the end of the tick, and for a Quire invocation that puts it off
(R225, R228). -/
def State.peerRecalls (s : State) (pa0 : Nat) (op : PeerOp) : Bool :=
  let pa := s.forwardPa pa0
  match op with
  | .atomic .. => s.granted (pa / 4096) && (!s.sys.recallNow || s.quireHolds (pa / 4096) (pa / 4096 + 1))
  | _ => false

/-- Whether a request stays in one line of HBM and, for atomics, is aligned. -/
def State.peerPlace (s : State) (pa : Nat) (op : PeerOp) : Bool :=
  let hbm := match placeOf s.tagging pa with | .hbm _ _ => true | _ => false
  hbm && (match op with
    | .load n => decide (pa % 128 + n ≤ 128)
    | .store d _ => decide (pa % 128 + d.length ≤ 128)
    | .atomic _ ty l => l.all (fun e => decide (pa % 128 + e.1 + ty.bits / 8 ≤ 128 ∧ (pa + e.1) % (ty.bits / 8) = 0)))

/-- A peer's request arrives (R302, R393): `src` is its package, `seq` its tag and, above it, its generation, `part` the context
under which this package's tables check it. Atomics are performed once: a matching entry of the reply cache answers again. A
full cache gives BUSY; a frozen package holds requests. -/
def execPeerRequestAtTarget (src seq pa part : Nat) (op : PeerOp) (s : State) : Host.Outcome State Fault Refusal :=
  if s.dbg.stopped then .next s
  else if s.dbg.frozen then .next ((s.migLeave (.peer src seq)).answer src seq .held)
  else if !s.peerPlace pa op then .next ((s.migLeave (.peer src seq)).answer src seq .error)
  else if s.migWaits (.peer src seq) pa then
    .next ((s.migQueue (.peer src seq) pa).later (.peerRequestAtTarget src seq pa part op))
  else if s.peerRecalls pa op then
    let again : Instr := .peerRequestAtTarget src seq pa part op
    .next ((s.noteRecall 8 (.event again)).later again)
  else
    let s := (s.migLeave (.peer src seq)).countReq pa
    let die := pa / 0x2000000000
    match op with
    | .atomic .. =>
      let tag := seq % 4096
      let gen := decide (seq / 4096 % 2 = 1)
      let same (c : ReplyEntry) : Bool := decide (c.die = die ∧ c.pkg = src ∧ c.tag = tag)
      match s.fab.cache.find? (fun c => same c && decide (c.gen = gen)) with
      | some c => .next (s.answer src seq c.reply)
      | none =>
        let kept := s.fab.cache.filter (fun c => !same c)
        if replyCacheSize ≤ (kept.filter (fun c => decide (c.die = die))).length then .next (s.answer src seq .busy)
        else
          let r := s.peerPerform part pa op
          let (id, s) := r.2.fresh
          let e : ReplyEntry := { id := id, die := die, pkg := src, tag := tag, gen := gen, reply := r.1,
                                  expiry := s.tick.toNat + 1000000 }
          .next (({ s with fab := { s.fab with cache := kept ++ [e] } } : State).answer src seq r.1)
    | _ => let r := s.peerPerform part pa op; .next (r.2.answer src seq r.1)

/-- A reply-cache entry frees at its expiry (R375). -/
def execReplyCacheExpiry (id : Nat) (s : State) : Host.Outcome State Fault Refusal :=
  .next { s with fab := { s.fab with cache := s.fab.cache.filter (fun c =>
    !(decide (c.id = id) && decide (c.expiry ≤ s.tick.toNat))) } }

end Sys2Proof.Machine
end

