-- ==== Sys2Proof/Machine/Matrix.lean ====
section
/-!
DEFINITION. Machine/Matrix.lean: tiles, the matrix queue, and the matrix words (R41, R61 to R63, R159 to R183).
-/
namespace Sys2Proof.Machine

/-! ### Tiles and matrices (R159) -/

/-- The key of element (i, j) of a range of `n` columns that starts at tile `t`. -/
def tileKey (t n i j : Nat) : Nat := (t + i / 64 * (n / 64) + j / 64) * 4096 + i % 64 * 64 + j % 64

/-- The rows of an M × N range, each element as its 32 bits. -/
def Team.range (tm : Team) (t m n : Nat) : List (List Nat) :=
  (List.range m).map (fun i => (List.range n).map (fun j => (Tab.get 0 (tileKey t n i j) tm.tiles).toNat))

/-- Writes the rows of a range. -/
def Team.putRange (tm : Team) (t n : Nat) (rows : List (List Nat)) : Team :=
  { tm with tiles := rows.zipIdx.foldl (fun m r => r.1.zipIdx.foldl (fun m e =>
      Tab.set 0 (tileKey t n r.2 e.2) (BitVec.ofNat 32 e.1) m) m) tm.tiles }

/-- The tiles of an M × N range. -/
def rangeTiles (m n : Nat) : Nat := m / 64 * (n / 64)

/-- Columns of a matrix of `n` columns as rows. -/
def columns (rows : List (List Nat)) (n : Nat) : List (List Nat) := (List.range n).map (fun j => rows.map (fun r => r.getD j 0))

/-- The weight-buffer window of a team (R166). -/
def Team.windowSize (tm : Team) : Nat := tm.acc * 65536
def Team.winLoad (tm : Team) (o n : Nat) : Nat := numOfBytes ((List.range n).map (fun k => Tab.get 0 (o + k) tm.window))
def Team.winStore (tm : Team) (o : Nat) (l : List Byte) : Team :=
  { tm with window := l.zipIdx.foldl (fun m e => Tab.set 0 (o + e.2) e.1 m) tm.window }

/-- Stores a matrix of 16-bit elements in the window, row-major (R176). -/
def Team.winRows (tm : Team) (o n : Nat) (rows : List (List Nat)) : Team :=
  rows.zipIdx.foldl (fun tm r => tm.winStore (o + 2 * n * r.2) (r.1.flatMap (bytesOfNum 2))) tm

/-! ### Accumulate (R62) -/

/-- The exact sum of the products of a unit: a zero is −0 exactly when every product is. -/
def unitSum (ps : List Val) : Val :=
  match ps with
  | [] => .fin false 0 0
  | p :: t => t.foldl (fun a q => (addV false a q).1) p

/-- A whole value as an integer. -/
def Val.toInt : Val → Int
  | .fin neg m e => scaled neg m e.toNat
  | _ => 0

/-- One unit: the exact sum, under its scales, rounded to FP32 and added; or added as two's complement. -/
def accUnit (int : Bool) (acc : Nat) (ps : List Val) (sa sb : Nat) : Nat :=
  let sum := unitSum ps
  if int then (((acc : Int) + sum.toInt) % 2 ^ 32).toNat
  else
    let v : Val := if sa = 0xFF ∨ sb = 0xFF then .nan false
      else match sum with
        | .fin neg m e => .fin neg m (e + sa + sb - 254)
        | v => v
    let r := (roundF fp32 .rne false false v).1
    (roundF fp32 .rne false false (addV false (decodeF fp32 acc) (decodeF fp32 r)).1).1

/-- Accumulate over units of `u` elements, each with its two scales. -/
def accumulate (int : Bool) (u : Nat) : List (Nat × Nat) → List Val → List Val → Nat → Nat
  | [], _, _, acc => acc
  | s :: t, a, b, acc =>
    accumulate int u t (a.drop u) (b.drop u)
      (accUnit int acc (((a.take u).zip (b.take u)).map (fun p => (mulV p.1 p.2).1)) s.1 s.2)

/-- An unscaled FP32 product of rows of values with columns of values, from a start for each element: units of 8. -/
def product (k : Nat) (start : Nat → Nat → Nat) (a b : List (List Val)) : List (List Nat) :=
  let us := List.replicate (k / 8) (127, 127)
  a.zipIdx.map (fun r => b.zipIdx.map (fun c => accumulate false 8 us r.1 c.1 (start r.2 c.2)))

/-! ### The format-block descriptor (R165, R168 to R170) -/

/-- Side of a product: format, block scales and block length. -/
structure Side where
  code : Nat
  scaled : Bool
  short : Bool
  deriving DecidableEq, Repr

def Side.fmt (d : Side) : Fmt := fmtOf (BitVec.ofNat 6 d.code)
def Side.width (d : Side) : Nat := (fmtWidth (BitVec.ofNat 6 d.code)).getD 0
def Side.block (d : Side) : Nat := if d.short then 16 else 32

/-- INT8 or INT4. -/
def Side.int (d : Side) : Bool := decide (d.code = 4 ∨ d.code = 5)

/-- A code that `mma` accepts: INT8, INT4, E2M1, FP16, BF16, binary8. -/
def Side.codeOk (d : Side) : Bool :=
  decide (d.code = 1 ∨ d.code = 2 ∨ d.code = 4 ∨ d.code = 5 ∨ d.code = 6 ∨ (32 ≤ d.code ∧ d.code % 8 ≠ 0))

def Side.ok (d : Side) : Bool := d.codeOk && !(d.scaled && decide (d.width = 16))

def sideA (d0 : Word) : Side := { code := bits d0 0 6, short := d0.getLsbD 6, scaled := d0.getLsbD 7 }
def sideB (d0 : Word) : Side := { code := bits d0 8 6, short := d0.getLsbD 14, scaled := d0.getLsbD 15 }
def descK (d0 : Word) : Nat := bits d0 32 16
def descBsp (d0 : Word) : Nat := bits d0 16 2
def descAstr (d0 : Word) : Nat := bits d0 48 16 * 16
def descAsco (d1 : Word) : Nat := bits d1 0 19
def descBstr (d1 : Word) : Nat := bits d1 20 20
def descBsco (d1 : Word) : Nat := bits d1 40 20

/-- Bytes of the stored values of a column, and of the column whole (R168). -/
def valueBytes (bsp k w : Nat) : Nat := if bsp = 0 then k * w / 8 else k * w / 16
def columnBytes (bsp k w : Nat) : Nat :=
  valueBytes bsp k w + (match bsp with | 0 => 0 | 1 => k / 8 | _ => (3 * k + 15) / 16)

/-- The elements of a compressed column (R168): each the sum of the stored values whose index points at it. -/
def expand (bsp k : Nat) (vals : List Val) (meta_ : Nat) : List Val :=
  let at_ (q : Nat) : Nat := if bsp = 1 then 4 * (q / 2) + meta_ / 2 ^ (2 * q) % 4 else 8 * (q / 4) + meta_ / 2 ^ (3 * q) % 8
  let placed := vals.zipIdx.map (fun v => (at_ v.2, v.1))
  (List.range k).map (fun n => unitSum ((placed.filter (fun p => decide (p.1 = n))).map Prod.snd))

/-- Elements of `w` bits of a packed number (R44). -/
def unpack (f : Fmt) (w k x : Nat) : List Val := (List.range k).map (fun n => decodeVal f (getElem x w n))

/-- Column j of B from the window. -/
def Team.columnB (tm : Team) (off : Nat) (d0 d1 : Word) (j : Nat) : List Val :=
  let b := sideB d0
  let k := descK d0
  let bsp := descBsp d0
  let o := off + j * descBstr d1
  let n := valueBytes bsp k b.width
  if bsp = 0 then unpack b.fmt b.width k (tm.winLoad o n)
  else expand bsp k (unpack b.fmt b.width (k / 2) (tm.winLoad o n)) (tm.winLoad (o + n) (columnBytes bsp k b.width - n))

/-- Row i of A from local memory. -/
def Team.rowA (tm : Team) (off : Nat) (d0 : Word) (i : Nat) : List Val :=
  let a := sideA d0
  unpack a.fmt a.width (descK d0) (tm.locLoad (off + i * descAstr d0) (descK d0 * a.width / 8))

/-- Bits [15:0] of the elements of a range, as values of a 16-bit format (R159, R170). -/
def narrowRows (f : Fmt) (rows : List (List Nat)) : List (List Val) := rows.map (fun r => r.map (fun x => decodeVal f (x % 65536)))

/-- The checks of an `mma` that depend on its operands, in order of reason (R163, R165, R168 to R170): the first that fails. -/
def Team.mmaCheck (tm : Team) (m n d : Nat) (aTile : Option Nat) (aOff : Nat) (bTile : Option Nat) (bOff : Nat) (d0 d1 : Word) :
    Option Nat :=
  let a := sideA d0
  let b := sideB d0
  let k := descK d0
  let bsp := descBsp d0
  let ka := rangeTiles m k
  let kb := rangeTiles k n
  let unit := max (if a.scaled then a.block else 8) (if b.scaled then b.block else 8)
  let tile (t : Option Nat) (x : Side) (dense : Bool) : Bool :=
    t.isSome && !(decide (x.code = 1 ∨ x.code = 2) && !x.scaled && dense)
  let past (t : Option Nat) (c : Nat) : Bool := match t with | some t => decide (tm.acc < t + c) | none => false
  let meets (t : Option Nat) (c : Nat) : Bool := match t with | some t => tilesMeet d (rangeTiles m n) t c | none => false
  let localBad := aTile.isNone &&
    (decide (aOff % 16 ≠ 0) || decide (descAstr d0 < k * a.width / 8) ||
     decide (tm.share < aOff + (m - 1) * descAstr d0 + k * a.width / 8) ||
     (a.scaled && decide (tm.share < descAsco d1 + m * (k / a.block))))
  let winBad := bTile.isNone &&
    (decide (descBstr d1 % 4 ≠ 0) || decide (descBstr d1 < columnBytes bsp k b.width) ||
     decide (tm.windowSize < bOff + (n - 1) * descBstr d1 + columnBytes bsp k b.width) ||
     (b.scaled && decide (tm.windowSize < descBsco d1 + n * (k / b.block))))
  if bits d0 18 14 ≠ 0 ∨ bits d1 60 4 ≠ 0 ∨ d1.getLsbD 19 = true then some 1
  else if !a.ok || !b.ok || decide (bsp = 3) then some 2
  else if k = 0 ∨ k % unit ≠ 0 ∨ ((aTile.isSome ∨ bTile.isSome) ∧ (k % 64 ≠ 0 ∨ 256 < k)) then some 3
  else if localBad || winBad then some 4
  else if past aTile ka || past bTile kb then some 5
  else if meets aTile ka || meets bTile kb ||
      (match aTile, bTile with | some x, some y => tilesMeet x ka y kb | _, _ => false) then some 6
  else if tile aTile a true || tile bTile b (decide (bsp = 0)) then some 7
  else none

/-- The scales of the units of row i and column j (R54, R62); an unscaled side counts as 127. -/
def Team.unitScales (tm : Team) (d0 d1 : Word) (u i j : Nat) : List (Nat × Nat) :=
  let a := sideA d0
  let b := sideB d0
  let k := descK d0
  (List.range (k / u)).map (fun q =>
    (if a.scaled then tm.locLoad (descAsco d1 + i * (k / a.block) + q * u / a.block) 1 else 127,
     if b.scaled then tm.winLoad (descBsco d1 + j * (k / b.block) + q * u / b.block) 1 else 127))

/-- Elements in a unit (R62). -/
def unitLen (a b : Side) : Nat :=
  match a.scaled, b.scaled with
  | false, false => 8
  | true, false => a.block
  | false, true => b.block
  | true, true => if a.block = b.block then a.block else 16

/-- The effect of an `mma` (R169, R170). -/
def Team.mma (tm : Team) (m n : Nat) (clr : Bool) (d : Nat) (aTile : Option Nat) (aOff : Nat) (bTile : Option Nat) (bOff : Nat)
    (d0 d1 : Word) : Team :=
  let a := sideA d0
  let b := sideB d0
  let k := descK d0
  let int := a.int && b.int && !a.scaled && !b.scaled
  let u := unitLen a b
  let rowsA := match aTile with
    | some t => narrowRows a.fmt (tm.range t m k)
    | none => (List.range m).map (tm.rowA aOff d0)
  let colsB := match bTile with
    | some t => narrowRows b.fmt (columns (tm.range t k n) n)
    | none => (List.range n).map (tm.columnB bOff d0 d1)
  let old := if clr then [] else tm.range d m n
  tm.putRange d n (rowsA.zipIdx.map (fun r => colsB.zipIdx.map (fun c =>
    accumulate int u (tm.unitScales d0 d1 u r.2 c.2) r.1 c.1 ((old.getD r.2 []).getD c.2 0))))

/-- Array cycles of an `mma` (R171). -/
def mmaCycles (m n : Nat) (d0 : Word) : Nat :=
  rangeTiles m n * descK d0 / (32 / max (sideA d0).width (sideB d0).width)

/-! ### Conversions (R173, R176, R178) -/

/-- An element as FP32, or as INT32 (R159). -/
def tileVal (int : Bool) (x : Nat) : Val := if int then .ofInt (decodeI 32 x) else decodeF fp32 x

/-- The 16-bit operand format of OF and TF. -/
def opFmt (f16 : Bool) : FFmt := if f16 then fp16 else bf16

/-- RoundOp (R176): once, under RNE. -/
def roundOp (f16 : Bool) (rows : List (List Nat)) : List (List Nat) :=
  rows.map (fun r => r.map (fun x => (roundF (opFmt f16) .rne false false (decodeF fp32 x)).1))

/-- Scale (R178): once, under RNE in FP32. -/
def scaleRows (z : Nat) (rows : List (List Nat)) : List (List Nat) :=
  rows.map (fun r => r.map (fun x => (roundF fp32 .rne false false (mulV (decodeF fp32 z) (decodeF fp32 x)).1).1))

/-- `acvt` on the elements of tiles `d` to `d + n − 1` (R173). -/
def Team.acvt (tm : Team) (d n : Nat) (f16 : Bool) (rm : RMode) (sat srci : Bool) : FFlags × Team :=
  let rs := (tm.range d (64 * n) 64).map (fun r => r.map (fun x =>
    roundF (opFmt f16) (RMode.plain rm) sat false (tileVal srci x)))
  (rs.foldl (fun f r => r.foldl (fun f e => f ||| e.2) f) 0, tm.putRange d 64 (rs.map (fun r => r.map Prod.fst)))

/-- `c` on the diagonal, +0 elsewhere. -/
def diagonal (c : Nat) (i j : Nat) : Nat := if i = j then c else 0

/-- `mpoly` (R176): one round for each lower power. -/
def Team.mpolyGo (m off : Nat) (f16 : Bool) (xb : List (List Nat)) : List Nat → Team → List (List Nat) → Team × List (List Nat)
  | [], tm, y => (tm, y)
  | c :: t, tm, y =>
    let yb := roundOp f16 y
    let f := Fmt.flt (opFmt f16)
    mpolyGo m off f16 xb t (tm.winRows (off + 2 * m * m) m yb)
      (product m (diagonal c) (narrowRows f yb) (narrowRows f (columns xb m)))

def Team.mpoly (tm : Team) (m d off : Nat) (f16 : Bool) (coef : List Lane32) : Team :=
  let xb := roundOp f16 (tm.range d m m)
  let tm := tm.winRows off m xb
  match (coef.map BitVec.toNat).reverse with
  | [] => tm
  | top :: low =>
    let y := (List.range m).map (fun i => (List.range m).map (fun j => diagonal top i j))
    let r := Team.mpolyGo m off f16 xb low tm y
    r.1.putRange d m r.2

/-! ### `miter` (R178 to R180) -/

/-- How the test of a `miter` goes on: with the next phase, or to an end with STOP and, for a divergence, its reason. -/
inductive MiterEnd where
  | on (r : MiterRun)
  | stop (r : MiterRun) (code reason : Nat)
  deriving DecidableEq, Repr

/-- The residual of W (R179). -/
def residual (rows : List (List Nat)) : Nat :=
  rows.zipIdx.foldl (fun r row => row.1.zipIdx.foldl (fun r e =>
    let one : Val := if e.2 = row.2 then .fin true 1 0 else .fin true 0 0
    let d := decodeF fp32 (roundF fp32 .rne false false (addV false (decodeF fp32 e.1) one).1).1
    (roundF fp32 .rne false false (fmaV false d d (decodeF fp32 r)).1).1) r) 0

/-- Test (R179). -/
def miterTest (q : MiterRun) (r cap tol : Nat) : MiterEnd :=
  let v := decodeF fp32 r
  let t := decodeF fp32 tol
  let up := decide (0 < q.iter) && (match q.lastr with | some l => decide (cmpV v (decodeF fp32 l) = .gt) | none => false)
  if v.isNan then .stop q 3 3
  else if cmpV v (.fin false 1 20) = .gt then .stop q 3 1
  else if !t.isNan && decide (cmpV v t ≠ .gt) then .stop { q with lastr := some r } 1 0
  else if up && q.rise then .stop { q with lastr := some r, rise := true } 3 2
  else
    let q := { q with rise := up, lastr := some r }
    if cap ≤ q.iter then .stop q 2 0 else .on q

/-- One phase (R178). -/
def Team.miterPhase (tm : Team) (m x w off : Nat) (ns5 f16 : Bool) (coef : List Lane32) (cap tol : Nat) (q : MiterRun) :
    MiterEnd × Team :=
  let f := Fmt.flt (opFmt f16)
  let c (k : Nat) : Nat := (coef.getD k 0).toNat
  let rows := tm.range w m m
  let at_ (l : List (List Nat)) (i j : Nat) : Nat := (l.getD i []).getD j 0
  match q.phase with
  | 0 =>
    let xb := roundOp f16 (tm.range x m m)
    let xv := narrowRows f xb
    (.on { q with phase := 1 }, (tm.winRows off m xb).putRange w m (product m (fun _ _ => 0) xv xv))
  | 1 =>
    match miterTest q (residual rows) cap tol with
    | .stop q code reason => (.stop q code reason, tm)
    | .on q =>
      let scaled := scaleRows (c 1) rows
      (.on { q with phase := 2 },
        if !ns5 then tm.putRange w m scaled
        else
          let tb := roundOp f16 (scaleRows (c 2) rows)
          let ab := roundOp f16 rows
          ((tm.winRows (off + 4 * m * m) m tb).winRows (off + 2 * m * m) m ab).putRange w m
            (product m (at_ scaled) (narrowRows f tb) (narrowRows f (columns ab m))))
  | _ =>
    let pb := roundOp f16 rows
    let xr := tm.range x m m
    let xb := roundOp f16 xr
    let y := product m (at_ (scaleRows (c 0) xr)) (narrowRows f pb) (narrowRows f (columns xb m))
    (.on { q with phase := 0, iter := q.iter + 1 },
      (((tm.winRows (off + 2 * m * m) m pb).winRows off m xb).putRange w m y).putRange x m y)

/-- Array cycles of a phase (R180). -/
def miterCycles (m : Nat) (ns5 : Bool) (phase : Nat) : Nat :=
  if phase = 1 ∧ ns5 = false then 0 else rangeTiles m m * m / 2

/-! ### `mdrain` (R181, R182) -/

/-- One copy of a drain: format, block length, scales, rounding mode, base, row stride and offset of the scales. -/
structure DrainSide where
  code : Nat
  short : Bool
  scaled : Bool
  rm : RMode
  loc : Bool
  base : Word
  str : Nat
  sco : Nat
  deriving DecidableEq, Repr

def DrainSide.side (d : DrainSide) : Side := { code := d.code, scaled := d.scaled, short := d.short }

/-- The main copy and the transposed copy of an `mdrain`. -/
def drainMain (loc : Bool) (rm : RMode) (a d0 d1 : Word) : DrainSide :=
  { code := bits d0 0 6, short := d0.getLsbD 6, scaled := d0.getLsbD 7, rm := rm, loc := loc, base := a,
    str := bits d0 32 16 * 16, sco := bits d1 0 32 }
def drainTrans (loc : Bool) (b d0 d1 : Word) : DrainSide :=
  { code := bits d0 8 6, short := d0.getLsbD 14, scaled := d0.getLsbD 15,
    rm := (RMode.ofCode (bits d0 16 3)).getD .dyn, loc := loc, base := b, str := bits d0 48 16 * 16, sco := bits d1 32 32 }

/-- The format rules of a copy: any format but E8M0; scales and SR for 8-bit and 4-bit formats only. -/
def DrainSide.fmtOk (d : DrainSide) : Bool :=
  let w := d.side.width
  decide (w ≠ 0 ∧ d.code ≠ 7 ∧ d.rm ≠ .dyn) && (decide (w ≤ 8) || (!d.scaled && decide (d.rm ≠ .sr)))

/-- The extent rules of a copy of `rows` rows of `cols` elements. -/
def DrainSide.fits (d : DrainSide) (share rows cols : Nat) : Bool :=
  let n := cols * d.side.width / 8
  decide (n ≤ d.str) && (!d.loc || (decide (d.base.toNat % 16 = 0) && decide (d.base.toNat + (rows - 1) * d.str + n ≤ share) &&
    (!d.scaled || decide (d.base.toNat + d.sco + rows * (cols / d.side.block) ≤ share))))

/-- The checks of an `mdrain` that depend on its operands, in order of reason (R163, R181). -/
def Team.drainCheck (tm : Team) (m n : Nat) (main : DrainSide) (tr : Option DrainSide) (d0 : Word) : Option Nat :=
  if bits d0 19 13 ≠ 0 then some 1
  else if !(main.fmtOk && (match tr with | some t => t.fmtOk | none => true)) then some 2
  else if !(main.fits tm.share m n && (match tr with | some t => t.fits tm.share n m | none => true)) then some 4
  else none

/-- What is carried from element to element of a drain: the generators, the flags, and the codes so far, the last first. -/
structure DrainAcc where
  gens : Tab (BitVec 32)
  flags : FFlags
  codes : List Nat
  deriving DecidableEq, Repr

/-- One element (R182): with `e` its number in its block. -/
def DrainSide.elem (d : DrainSide) (sat : Bool) (scale : Nat) (x : Val) (e : Nat) (q : DrainAcc) : DrainAcc :=
  let g := e % 96
  let gens := if d.rm = .sr then Tab.put g (srStep (Tab.get 0 g q.gens)) q.gens else q.gens
  let md : Mode := if d.rm = .sr then .sr (Tab.get 0 g gens).toNat else RMode.plain d.rm
  let r := if !d.scaled then convert d.side.fmt md sat false x
    else if scale = 0xFF then (0, 0)
    else convert d.side.fmt md true false (match x with
      | .fin neg m k => .fin neg m (k + 127 - scale)
      | v => v)
  { gens := gens, flags := q.flags ||| r.2, codes := r.1 :: q.codes }

/-- The element codes of a copy: its 64 × 64 blocks in row-major order, each row-major; then put back into rows. -/
def DrainSide.codes (d : DrainSide) (sat : Bool) (vals : List (List Val)) (scales : List (List Nat)) (rows cols : Nat)
    (q : DrainAcc) : DrainAcc × List (List Nat) :=
  let nb := cols / 64
  let q' := (List.range (rows / 64 * nb)).foldl (fun q b => (List.range 4096).foldl (fun q e =>
    let i := b / nb * 64 + e / 64
    let j := b % nb * 64 + e % 64
    d.elem sat ((scales.getD i []).getD (j / d.side.block) 0) ((vals.getD i []).getD j (.fin false 0 0)) e q) q) { q with codes := [] }
  let flat := q'.codes.reverse
  (q', (List.range rows).map (fun i => (List.range nb).flatMap (fun c =>
    (flat.drop ((i / 64 * nb + c) * 4096 + i % 64 * 64)).take 64)))

/-- Bytes cut at the lines of their addresses; `fuel` of the length is enough. -/
def linePieces (loc : Bool) : Nat → Word → List Byte → List MxPiece
  | 0, _, _ => []
  | f + 1, va, l =>
    if l.isEmpty then []
    else
      let k := toLineEnd va l.length
      .put loc va (l.take k) :: linePieces loc f (va + BitVec.ofNat 64 k) (l.drop k)

/-- The elements of a row as bytes (R44). -/
def packRow (w : Nat) (codes : List Nat) : List Byte :=
  bytesOfNum (codes.length * w / 8) (codes.foldr (fun c n => c + 2 ^ w * n) 0)

/-- A copy of a drain: what it writes, with flags and generators carried on (R182). -/
def DrainSide.drain (d : DrainSide) (sat : Bool) (vals : List (List Val)) (rows cols : Nat) (q : DrainAcc) :
    DrainAcc × List MxPiece :=
  let bl := d.side.block
  let sc : List (List (Nat × FFlags)) := if !d.scaled then [] else vals.map (fun r =>
    (List.range (cols / bl)).map (fun b => blockScale (emaxOf d.side.fmt) ((r.drop (b * bl)).take bl)))
  let q := { q with flags := sc.foldl (fun f r => r.foldl (fun f e => f ||| e.2) f) q.flags }
  let scales := sc.map (fun r => r.map Prod.fst)
  let r := d.codes sat vals scales rows cols q
  (r.1, r.2.zipIdx.flatMap (fun e =>
    let sb := ((scales.getD e.2 []).map (fun b => BitVec.ofNat 8 b) : List Byte)
    let data := packRow d.side.width e.1
    linePieces d.loc sb.length (d.base + BitVec.ofNat 64 (d.sco + e.2 * (cols / bl))) sb ++
      linePieces d.loc data.length (d.base + BitVec.ofNat 64 (e.2 * d.str)) data))

/-! ### The matrix queue (R160, R183) -/

/-- What a matrix word tells of itself to the memory system. -/
def MxEntry.info (e : MxEntry) (team : Nat) : WordInfo :=
  { tok := 0, grp := e.grp, team := team, grid := 0, pc := e.pc, seq := e.seq, seg := .g, ord := .weak, scope := .group,
    signed := false, dst := .zero, sz := 16, once := false, lanes := allLanes, path := .mx, engine := some e.id, tick := e.tick }

def State.mxAgent (s : State) (team : Nat) (e : MxEntry) : Agent :=
  { info := e.info team, core := (s.team team).core, slot := e.grp % 64, ctx := (s.team team).ctx, sup := e.sup }

/-- Puts a new word into a team's queue: at the end, but before words that a run of the other port, begun later, or in the same
tick on the higher port, issued in the same tick (R160, R185; a tick stands for the rule's cycle, log entry 64). -/
def mxInsert (e : MxEntry) : List MxEntry → List MxEntry
  | [] => [e]
  | k :: t =>
    if k.tick = e.tick ∧ k.started = false ∧ k.port ≠ e.port ∧ (e.since < k.since ∨ (e.since = k.since ∧ k.port = true))
    then e :: k :: t else k :: mxInsert e t

/-- Queues a matrix word, or leaves it waiting at a full queue. `memory` marks a word that reads or writes memory, which a fence
on MX holds back (R161, R242). -/
def State.mxIssue (s : State) (g : Nat) (x : Group) (memory : Bool) (op : MxOp) (run : MiterRun) (f : Group → Group) :
    State × Ends :=
  if 8 ≤ (s.team x.team).mx.length || (memory && x.fenced .mx) then (s, .wait)
  else
    let (id, s) := s.fresh
    let e : MxEntry :=
      { id := id, grp := g, sup := x.sup, pc := x.flow.pc, seq := x.mem.seq, tick := s.tick.toNat, op := op, started := false,
        todo := [], flags := 0, run := run, stopped := false, parked := none,
        port := s.focusPort, since := (s.port s.focusCore s.focusPort).since }
    let s := s.updTeam x.team (fun tm => { tm with mx := mxInsert e tm.mx })
    let s := s.updGrp g (fun y => f { y with mem := { y.mem with seq := y.mem.seq + 1 } })
    (s.later (.matrixWordExecute x.core x.team), .on)

def MiterRun.none : MiterRun := { phase := 0, iter := 0, rise := false, lastr := .none }

def State.mxQueue (s : State) (g : Nat) (x : Group) (memory : Bool) (op : MxOp) : State × Ends :=
  s.mxIssue g x memory op .none id

/-- The first operand, in the order a, b, c, that must be uniform and is taken from a vector register whose lanes differ (R41). -/
def Group.notUniform (x : Group) (l : List (Nat × Operand)) : Option Nat :=
  (l.find? (fun u => match u.2 with
    | .v n => (List.range 96).any (fun k => decide (x.vreg n k ≠ x.vreg n 0))
    | _ => false)).map Prod.fst

/-- A matrix word at issue (R41): every lane active, one guard, the policies, uniform operands; then its own part. -/
def mxWord (i : Instr) (h : Hdr) (uni : List (Nat × Operand)) (s : State) (body : State → Nat → Group → State × Ends) :
    Host.Outcome State Fault Refusal :=
  word i s (fun s g x =>
    if x.flow.mask ≠ allLanes then (s.trapNow g 0x03 0 0, .done)
    else match x.uniGuard h with
      | .differ => (s.trapNow g 0x04 1 0, .done)
      | .skip => (s, .on)
      | .run => withPolicy s g (x.policy i) (match x.notUniform uni with
        | some k => (s.trapNow g 0x04 (BitVec.ofNat 64 (2 + 16 * k)) 0, .done)
        | none => body s g x))

/-- MATRIX_OPERAND (R163). -/
def State.mxOperand (s : State) (g reason : Nat) : State × Ends := (s.trapAll g 0x21 (BitVec.ofNat 64 reason) 0, .done)

/-- ALIGN of a matrix word (R164, R175). -/
def State.mxAlign (s : State) (g detail : Nat) (va : Word) : State × Ends := (s.trapAll g 0x15 (BitVec.ofNat 64 detail) va, .done)

/-! ### The matrix words at issue (R162 to R182) -/

/-- M and N of a shape field. -/
def shape (n : Nat) : Nat := 64 * (n + 1)

def tileOf : Operand → Option Nat
  | .a n => some n.val
  | _ => none

/-- The two words of a pair. -/
def Group.pair (x : Group) (o : Operand) : Word × Word :=
  match o with
  | .s n => (x.sreg n.val, x.sreg (n.val + 1))
  | _ => (0, 0)

def execWbload (h : Hdr) (lsrc : Bool) (a b c : Operand) (s : State) : Host.Outcome State Fault Refusal :=
  mxWord (.wbload h lsrc a b c) h [(0, a), (1, b)] s (fun s g x =>
    let tm := s.team x.team
    let src := s.rd x a 0
    let off := (s.rd x b 0).toNat
    let n := (s.rd x c 0).toNat
    if n = 0 ∨ n % 64 ≠ 0 ∨ off % 64 ≠ 0 ∨ tm.windowSize < off + n ∨
        (lsrc = true ∧ (src.toNat % 64 ≠ 0 ∨ tm.share < src.toNat + n)) then s.mxOperand g 4
    else if !lsrc && decide (src.toNat % 64 ≠ 0) then s.mxAlign g 1 src
    else s.mxQueue g x true (.wbload lsrc src off n))

def execMma (h : Hdr) (f : FnMma) (d a b c : Operand) (s : State) : Host.Outcome State Fault Refusal :=
  mxWord (.mma h f d a b c) h [(0, a), (1, b)] s (fun s g x =>
    let m := shape f.ms.val
    let n := shape f.ns.val
    let p := x.pair c
    let dt := (tileOf d).getD 0
    let ao := (s.rd x a 0).toNat
    let bo := (s.rd x b 0).toNat
    match (s.team x.team).mmaCheck m n dt (tileOf a) ao (tileOf b) bo p.1 p.2 with
    | some r => s.mxOperand g r
    | none => s.mxQueue g x (tileOf a).isNone (.mma m n f.clr dt (tileOf a) ao (tileOf b) bo p.1 p.2))

def execAclr (h : Hdr) (cnt : Fin 16) (d : Operand) (s : State) : Host.Outcome State Fault Refusal :=
  mxWord (.aclr h cnt d) h [] s (fun s g x => s.mxQueue g x false (.aclr ((tileOf d).getD 0) (cnt.val + 1)))

def execAcvt (h : Hdr) (f : FnAcvt) (d : Operand) (s : State) : Host.Outcome State Fault Refusal :=
  mxWord (.acvt h f d) h [] s (fun s g x =>
    s.mxQueue g x false (.acvt ((tileOf d).getD 0) (f.cnt.val + 1) f.tf16 f.rm f.sat f.srci))

/-- `amov` from a tile (R174): its vector registers are long-latency destinations. -/
def execAmovToVector (h : Hdr) (cnt : Fin 32) (d a c : Operand) (s : State) : Host.Outcome State Fault Refusal :=
  mxWord (.amovToVector h cnt d a c) h [] s (fun s g x =>
    let e0 := (s.rd x c 0).toNat
    if e0 % 32 ≠ 0 ∨ 4096 ≤ e0 then s.mxOperand g 8
    else
      let (tok, s') := s.fresh
      let regs := match regOf d with
        | some r => (List.range (cnt.val + 1)).map (fun k => r + k)
        | none => []
      s'.mxIssue g x false (.toVec ((tileOf a).getD 0) e0 regs tok) .none
        (fun y => { y with regs := regs.foldl (fun q r => q.drain r tok) y.regs }))

def execAmovToTile (h : Hdr) (cnt : Fin 32) (d a c : Operand) (s : State) : Host.Outcome State Fault Refusal :=
  mxWord (.amovToTile h cnt d a c) h [] s (fun s g x =>
    let e0 := (s.rd x c 0).toNat
    if e0 % 32 ≠ 0 ∨ 4096 ≤ e0 then s.mxOperand g 8
    else
      let r := (regOf a).getD 0
      let vals := (List.range (cnt.val + 1)).flatMap (fun q => (List.range 96).map (fun l => (96 * q + l, x.vreg (r + q) l)))
      s.mxQueue g x false (.toTile ((tileOf d).getD 0) e0 vals (cnt.val + 1)))

/-- c0 to c(n − 1). -/
def Group.coefs (x : Group) (n : Nat) : List Lane32 := (List.range n).map x.creg

def execMpoly (h : Hdr) (f : FnMpoly) (d b : Operand) (s : State) : Host.Outcome State Fault Refusal :=
  mxWord (.mpoly h f d b) h [(1, b)] s (fun s g x =>
    let m := shape f.sz.val
    let off := (s.rd x b 0).toNat
    if off % 64 ≠ 0 ∨ (s.team x.team).windowSize < off + 4 * m * m then s.mxOperand g 4
    else s.mxQueue g x false (.mpoly m ((tileOf d).getD 0) off f.deg.val f.f16 (x.coefs (f.deg.val + 1))))

/-- Where a `miter` starts (R178): afresh, or from the saved progress with ACTIVE 1. -/
def FpState.miterStart (f : FpState) : MiterRun :=
  if f.miterState.getLsbD 18 then
    { phase := bits f.miterState 16 2, iter := bits f.miterState 0 16, rise := f.miterState.getLsbD 21,
      lastr := some (bits f.miterState 32 32) }
  else .none

/-- MITER_STATE as a `miter` issues: ACTIVE is taken, and without it ITER, RISE, STOP and PHASE begin at 0. -/
def FpState.miterIssue (f : FpState) : FpState :=
  { f with miterState :=
      if f.miterState.getLsbD 18 then f.miterState &&& ~~~0x40000#64 else f.miterState &&& ~~~0x3FFFFF#64 }

def execMiter (h : Hdr) (f : FnMiter) (d a b : Operand) (s : State) : Host.Outcome State Fault Refusal :=
  mxWord (.miter h f d a b) h [(1, b)] s (fun s g x =>
    let m := if f.m128 then 128 else 64
    let off := (s.rd x b 0).toNat
    if off % 64 ≠ 0 ∨ (s.team x.team).windowSize < off + (if f.ns5 then 6 else 4) * m * m then s.mxOperand g 4
    else
      s.mxIssue g x false (.miter m ((tileOf d).getD 0) ((tileOf a).getD 0) off f.ns5 f.f16 (x.coefs (if f.ns5 then 3 else 2))
        x.fp.miterCap.toNat x.fp.miterTol.toNat) x.fp.miterStart (fun y => { y with fp := y.fp.miterIssue }))

/-- `mdrain` (R164, R182). Where both global addresses are misaligned, the trap names the main one (log entry 97). -/
def execMdrain (h : Hdr) (f : FnMdrain) (d a b c : Operand) (s : State) : Host.Outcome State Fault Refusal :=
  mxWord (.mdrain h f d a b c) h [(0, a), (1, b)] s (fun s g x =>
    let m := shape f.ms.val
    let n := shape f.ns.val
    let p := x.pair c
    let av := s.rd x a 0
    let bv : Option Word := if b = .zero then none else some (s.rd x b 0)
    match (s.team x.team).drainCheck m n (drainMain f.loc f.rm av p.1 p.2)
        (bv.map (fun v => drainTrans f.tloc v p.1 p.2)) p.1 with
    | some r => s.mxOperand g r
    | none =>
      if !f.loc && decide (av.toNat % 16 ≠ 0) then s.mxAlign g 1 av
      else if !f.tloc && decide ((bv.getD 0).toNat % 16 ≠ 0) then s.mxAlign g 1 (bv.getD 0)
      else s.mxQueue g x true (.mdrain m n ((tileOf d).getD 0) f.loc f.tloc f.rm f.sat f.srci av bv p.1 p.2))

/-- `coefl` (R175): a read of local memory on LS that is made as it issues. Its MATRIX_OPERAND goes before its ALIGN, an order that
R164 gives for other words (log entry 64). -/
def execCoefl (h : Hdr) (first cnt : Fin 16) (a : Operand) (s : State) : Host.Outcome State Fault Refusal :=
  mxWord (.coefl h first cnt a) h [] s (fun s g x =>
    let o := s.rd x a 0
    let n := cnt.val + 1
    let tm := s.team x.team
    if tm.share < o.toNat + 4 * n then s.mxOperand g 4
    else if o.toNat % 4 ≠ 0 then s.mxAlign g 2 o
    else if s.lsWaits g x then (s, .wait)
    else ((s.updGrp g (fun y => (List.range n).foldl (fun y k =>
      y.setC (first.val + k) (BitVec.ofNat 32 (tm.locLoad (o.toNat + 4 * k) 4))) y)), .on))

/-! ### Execution (R160, R164, R173, R174, R183) -/

/-- The pages that `wbload` reads and those that `mdrain` writes (R164). -/
def wbloadKind (kind : Nat) : Option Nat := if kind = 0 ∨ kind = 4 then some 1 else none
def mdrainKind (kind : Nat) : Option Nat := if kind = 1 ∨ kind = 2 then none else some 1

/-- The pieces of a `wbload`. -/
def fetchPieces : Nat → Word → Nat → Nat → List MxPiece
  | 0, _, _, _ => []
  | f + 1, va, off, n =>
    if n = 0 then []
    else
      let k := toLineEnd va n
      .fetch va off k :: fetchPieces f (va + BitVec.ofNat 64 k) (off + k) (n - k)

/-- The matrix generators of a group, also of one that has ended (R61). -/
def State.mxGens (s : State) (team : Nat) (e : MxEntry) : Tab (BitVec 32) :=
  if s.owns (e.info team) then (s.grp e.grp).fp.mgens else Tab.get [] e.grp (s.team team).gens

def State.setMxGens (s : State) (team : Nat) (e : MxEntry) (gens : Tab (BitVec 32)) : State :=
  if s.owns (e.info team) then s.updGrp e.grp (fun x => { x with fp := { x.fp with mgens := gens } })
  else s.updTeam team (fun tm => { tm with gens := Tab.put e.grp gens tm.gens })

/-- The transfers of a word, as it begins; a drain reads its tiles and converts here. A word that was parked keeps those it has
left. -/
def State.mxPlan (s : State) (team : Nat) (e : MxEntry) : MxEntry × State :=
  let tm := s.team team
  if !e.todo.isEmpty then ({ e with started := true }, s) else
  match e.op with
  | .wbload lsrc src off n => if lsrc then ({ e with started := true }, s)
    else ({ e with started := true, todo := fetchPieces n src off n }, s)
  | .mdrain m n d loc tloc rm sat srci a b d0 d1 =>
    let rows := (tm.range d m n).map (fun r => r.map (tileVal srci))
    let q0 : DrainAcc := { gens := s.mxGens team e, flags := 0, codes := [] }
    let p := (drainMain loc rm a d0 d1).drain sat rows m n q0
    let p := match b with
      | none => p
      | some v =>
        let t := (drainTrans tloc v d0 d1).drain sat ((List.range n).map (fun j => rows.map (fun (r : List Val) => r.getD j (.fin false 0 0)))) n m p.1
        (t.1, p.2 ++ t.2)
    ({ e with started := true, todo := p.2, flags := p.1.flags }, s.setMxGens team e p.1.gens)
  | _ => ({ e with started := true }, s)

/-- Stores an entry of a team's queue. -/
def State.putMx (s : State) (team : Nat) (e : MxEntry) : State :=
  s.updTeam team (fun tm => { tm with mx := tm.mx.map (fun k => if k.id = e.id then e else k) })

/-- A word leaves the queue: its flags are set, its trap is due at its group's next boundary, and the next word follows. A failing
`mdrain` adds the flags of all its elements, as they were formed when it began: R164 does not say which (log entry 97). -/
def State.mxEnd (s : State) (team : Nat) (e : MxEntry) (trap : Option (Nat × Nat × Word)) : State :=
  let s := s.updTeam team (fun tm => { tm with mx := tm.mx.filter (fun k => decide (k.id ≠ e.id)) })
  let s := if s.owns (e.info team) then
      let s := s.updGrp e.grp (fun x => x.addFlags e.flags)
      match trap with
      | some (cause, info, va) =>
        s.trapLater e.grp { cause := cause, pc := e.pc, addr := va, info := BitVec.ofNat 64 info, lanes := allLanes }
      | none => s
    else s
  if (s.team team).mx.isEmpty then s.tryEndTeam team else s.later (.matrixWordExecute (s.team team).core team)

/-- One transfer (R164, R167, R182). -/
def State.mxPiece (s : State) (team : Nat) (e : MxEntry) (p : MxPiece) : Span × State :=
  match p with
  | .fetch va off n =>
    (match s.agentRead (s.mxAgent team e) wbloadKind va n with
     | (.done b, s) => (.done [], s.updTeam team (fun tm => tm.winStore off b))
     | (.fail c d a, s) =>
       (.fail c d a, if c = 0x16 then s.updTeam team (fun tm => tm.winStore off (List.replicate n 0)) else s)
     | r => r)
  | .put true va data => (.done [], s.localWrite team va.toNat data)
  | .put false va data => s.agentWrite (s.mxAgent team e) mdrainKind va data

/-- The values that `amov` gives to vector registers (R174). -/
def Team.toVec (tm : Team) (tile e0 : Nat) (regs : List Nat) : List (Nat × Nat × Word) :=
  regs.zipIdx.flatMap (fun r => (List.range 96).map (fun l =>
    let e := e0 + 96 * r.2 + l
    (r.1, l, if e < 4096 then (Tab.get 0 (tile * 4096 + e) tm.tiles).setWidth 64 else 0)))

/-- The tile elements that `amov` writes; elements past the tile are discarded. -/
def Team.toTile (tm : Team) (tile e0 : Nat) (vals : Tab Lane32) : Team :=
  { tm with tiles := vals.foldl (fun m v => if e0 + v.1 < 4096 then Tab.set 0 (tile * 4096 + e0 + v.1) v.2 m else m) tm.tiles }

/-- The array is busy for a number of cycles (R171, R382). -/
def State.mxBusy (s : State) (team n : Nat) : State := s.count (s.team team).core 0x0B n

/-- The next part of the word at the head of a team's queue: all of it, or one of its transfers. -/
def State.mxRun (s : State) (team : Nat) (e : MxEntry) : State :=
  match e.todo with
  | p :: rest =>
    (match s.mxPiece team e p with
     | (.done _, s) =>
       if rest.isEmpty then s.mxEnd team { e with todo := [] } none
       else (s.putMx team { e with todo := rest }).later (.matrixWordExecute (s.team team).core team)
     -- a parked word gives the unit free; it goes on with what it has left (R164, R183)
     | (.park _, s) => s.putMx team { e with parked := some s.tick.toNat, started := false }
     | (.fail c d va, s) => s.mxEnd team e (some (c, d, va))
     | (_, s) => (s.putMx team e).later (.matrixWordExecute (s.team team).core team))
  | [] =>
    match e.op with
    | .wbload _ src off n => (s.updTeam team (fun tm => tm.winStore off (bytesOfNum n (tm.locLoad src.toNat n)))).mxEnd team e none
    | .mma m n clr d at_ ao bt bo d0 d1 =>
      ((s.updTeam team (fun tm => tm.mma m n clr d at_ ao bt bo d0 d1)).mxBusy team (mmaCycles m n d0)).mxEnd team e none
    | .aclr d n => (s.updTeam team (fun tm => { tm with
        tiles := tm.tiles.filter (fun t => !decide (d * 4096 ≤ t.1 ∧ t.1 < (d + n) * 4096)) })).mxEnd team e none
    | .acvt d n f16 rm sat srci =>
      let r := (s.team team).acvt d n f16 rm sat srci
      (s.setTeam team r.2).mxEnd team { e with flags := r.1 } none
    | .toVec tile e0 regs tok =>
      let r : Result := { grp := e.grp, regs := regs, vals := (s.team team).toVec tile e0 regs, flags := 0, fp := false, raw := [],
                          fault := none }
      let s := if s.owns (e.info team) then
          (s.setSys { s.sys with results := Tab.put tok r s.sys.results }).post (.resultWriteback tok)
        else s
      s.mxEnd team e none
    | .toTile tile e0 vals _ => (s.updTeam team (fun tm => tm.toTile tile e0 vals)).mxEnd team e none
    | .mpoly m d off deg f16 coef =>
      ((s.updTeam team (fun tm => tm.mpoly m d off f16 coef)).mxBusy team (deg * rangeTiles m m * m / 2)).mxEnd team e none
    | .miter .. => (s.putMx team e).later (.miterPhase (s.team team).core team false)
    | .mdrain .. => s.mxEnd team e none

/-- Whether the word at the head of a team's queue can go on: it does not wait for a replay, and no pre-emption stopped it. -/
def Team.mxReady (tm : Team) : Bool :=
  match tm.mx with
  | e :: _ => e.parked.isNone && !e.stopped
  | [] => false

/-- Whether the word at the head of a team's queue is under way and gives the unit free only at its end: every word but `miter`. -/
def Team.mxBegun (tm : Team) : Bool :=
  match tm.mx with
  | e :: _ => e.started && !(match e.op with | .miter .. => true | _ => false)
  | [] => false

/-- The team whose word the matrix unit of a core takes next (R160): the one whose word is under way, else by effective priority,
then by age of issue. A word whose group has ended has priority 0. -/
def State.mxNext (s : State) (core : Nat) : Option Nat :=
  let prio (e : MxEntry) (t : Nat) : Nat := if s.owns (e.info t) then s.effPrio e.grp else 0
  let ready := s.teams.filter (fun t => decide (t.2.core = core) && t.2.mxReady)
  ((if ready.any (fun t => t.2.mxBegun) then ready.filter (fun t => t.2.mxBegun) else ready).foldl (fun (b : Option (Nat × Nat × Nat)) t =>
    match t.2.mx.head? with
    | none => b
    | some e =>
      let k := (prio e t.1, e.id, t.1)
      match b with
      | some m => if m.1 < k.1 ∨ (m.1 = k.1 ∧ k.2.1 < m.2.1) then some k else b
      | none => some k) none).map (fun k => k.2.2)

/-- The matrix unit takes the next part of a team's word; another team's word may go first at a word boundary (R160). -/
def execMatrixWordExecute (core team : Nat) (s : State) : Host.Outcome State Fault Refusal :=
  match (s.team team).mx with
  | [] => .next s
  | e :: _ =>
    if (s.team team).core ≠ core || !(s.team team).mxReady then .next s
    else if s.mxNext core ≠ some team || (s.freezeDue && !e.started) then .next (s.later (.matrixWordExecute core team))
    else
      let r := if e.started then (e, s) else s.mxPlan team e
      .next (r.2.mxRun team { r.1 with redrive := false })

/-- MITER_STATE with the progress of a `miter` (R177): as it ends with a reason, or, with none, as it stops at a phase boundary,
which leaves STOP (R180). -/
def FpState.putMiter (f : FpState) (r : MiterRun) (ends : Option Nat) : FpState :=
  let last := r.lastr.getD (bits f.miterState 32 32)
  { f with miterState := BitVec.ofNat 64 (last * 2 ^ 32 + (if r.rise then 2 ^ 21 else 0) +
      (match ends with
       | some stop => stop * 2 ^ 19
       | none => bits f.miterState 19 2 * 2 ^ 19 + 2 ^ 18 + r.phase * 2 ^ 16) + r.iter % 2 ^ 16) }

def State.putMiter (s : State) (team : Nat) (e : MxEntry) (r : MiterRun) (ends : Option Nat) : State :=
  if s.owns (e.info team) then s.updGrp e.grp (fun x => { x with fp := x.fp.putMiter r ends }) else s

/-- ACTIVE goes to 0 where a stopped `miter` goes on (R180). -/
def State.miterResumes (s : State) (team : Nat) (e : MxEntry) : State :=
  if s.owns (e.info team) then
    s.updGrp e.grp (fun x => { x with fp := { x.fp with miterState := x.fp.miterState &&& ~~~fieldMask 18 1 } })
  else s

/-- One phase of a `miter` (R178 to R180). It stops at the boundary behind it exactly where a pre-emption of its context is under
way, so `stop` must say so; else the event is put again as it is to be. A freeze stops it at the boundary before it (R392). -/
def execMiterPhase (core team : Nat) (stop : Bool) (s : State) : Host.Outcome State Fault Refusal :=
  let tm := s.team team
  match tm.mx with
  | [] => .next s
  | e :: _ =>
    match e.op with
    | .miter m x w off ns5 f16 coef cap tol =>
      if tm.core ≠ core || !e.started || !tm.mxReady then .next s
      else if stop ≠ s.saving tm.ctx then .next (s.later (.miterPhase core team (!stop)))
      else if s.mxNext core ≠ some team || s.freezeDue then .next (s.later (.miterPhase core team stop))
      else
        let r := tm.miterPhase m x w off ns5 f16 coef cap tol e.run
        let s := ((s.setTeam team r.2).miterResumes team e).mxBusy team (miterCycles m ns5 e.run.phase)
        (match r.1 with
         | .on q =>
           if stop then .next ((s.putMiter team e q none).putMx team { e with run := q, stopped := true })
           else .next ((s.putMx team { e with run := q }).later (.miterPhase core team false))
         | .stop q code reason =>
           .next ((s.putMiter team e q (some code)).mxEnd team { e with run := q }
             (if reason = 0 then none else some (0x20, reason, 0))))
    | _ => .next s

end Sys2Proof.Machine
end

