-- ==== Sys2Proof/Machine/Publish.lean ====
section
/-!
DEFINITION. Machine/Publish.lean: publications and collectives: `pub`, `pubv`, `coll`, and what the ports and the collective
engine do (R303 to R308, R372 to R374).
-/
namespace Sys2Proof.Machine

/-! ### Espalier entries (R372, R373) -/

/-- Word `k` of espalier entry `i`. -/
def State.esp (s : State) (i k : Nat) : Word := s.reg (hubBase + 0x100000 + 0x40 * i + 8 * k)

/-- NCH of an entry. -/
def State.espChildren (s : State) (i : Nat) : Nat := bits (s.esp i 0) 20 4

/-- Whether an entry names a publication channel. -/
def State.espPub (s : State) (i : Nat) : Bool :=
  decide (i ≤ 4095) && (s.esp i 0).getLsbD 0 && !(s.esp i 0).getLsbD 1 && decide (s.espChildren i ≤ 12)

/-- Whether a context may publish on a channel here (R373). -/
def State.mayPublish (s : State) (ctx ch : Nat) : Bool :=
  s.espPub ch && decide (bits (s.esp ch 0) 2 4 = s.ctxPart ctx) && (s.esp ch 0).getLsbD 6

/-- The words of the espalier entry under which a flit is handled. -/
def State.espEntry (s : State) (i : Nat) : List Word := (List.range 8).map (s.esp i)

/-- The children of a flit's entry, whether this package subscribes, its parent, its window's size, its context. -/
def Flit.kids (f : Flit) : List Nat :=
  (List.range (bits (f.word 0) 20 4)).map (fun j => bits (f.word (1 + j / 4)) (16 * (j % 4)) 12)
def Flit.sub (f : Flit) : Bool := (f.word 0).getLsbD 7
def Flit.parent (f : Flit) : Nat := bits (f.word 0) 8 12
def Flit.size (f : Flit) : Nat := bits (f.word 5) 0 32
def Flit.ctx (f : Flit) : Nat := bits (f.word 7) 0 6

/-- Whether a communicator is for packages. -/
def State.commPkgs (s : State) (i : Nat) : Bool := (s.esp i 0).getLsbD 6
/-- The member dies of a communicator of LEVEL 0. -/
def State.commDies (s : State) (i : Nat) : List Nat := (List.range 8).filter (fun d => (s.esp i 0).getLsbD (8 + d))
/-- N and M of a communicator of LEVEL 1. -/
def State.commN (s : State) (i : Nat) : Nat := bits (s.esp i 0) 19 13
def State.commM (s : State) (i : Nat) : Nat := bits (s.esp i 0) 32 12

/-- Whether a die may issue a collective of a context on a communicator (R373). -/
def State.mayCollect (s : State) (ctx die i : Nat) : Bool :=
  let e := s.esp i 0
  e.getLsbD 0 && e.getLsbD 1 && decide (bits e 2 4 = s.ctxPart ctx) &&
    (if s.commPkgs i then decide (bits e 16 3 = die ∧ s.commM i < s.commN i ∧ s.commN i ≤ 4096) else (s.commDies i).contains die)

/-! ### `pub` and `pubv` (R304, R305) -/

/-- Publications and collectives of a group that are outstanding. -/
def State.fabricOut (s : State) (g : Nat) (x : Group) : Nat :=
  (s.fab.pubs.filter (fun p => decide (p.grp = g ∧ p.team = x.team))).length +
    (s.fab.colls.filter (fun p => decide (p.grp = g ∧ p.team = x.team))).length

/-- Whether a fabric word waits at issue: four outstanding, a fence on its path, or a `tlbi`
(R362). -/
def State.fabricWaits (s : State) (g : Nat) (x : Group) : Bool := decide (4 ≤ s.fabricOut g x) || x.fenced .fb || s.tlbiOut g x

/-- The event port that stands for the root's own flits, and the one for the reorder buffer. -/
def rootPort : Nat := 16
def bufferPort : Nat := 17

/-- Issues a publication: it takes the next number of its channel. -/
def State.pubIssue (s : State) (g : Nat) (x : Group) (ch : Nat) (ver lsrc : Bool) (src : Word) (off len : Nat) : State :=
  let (id, s) := s.fresh
  let n := Tab.get 0 ch s.fab.chSeq
  let p : PubWord :=
    { id := id, grp := g, team := x.team, core := x.core, slot := x.slot, ctx := x.ctx, sup := x.sup, pc := x.flow.pc,
      seq := x.mem.seq, ch := ch, num := n, ver := ver, lsrc := lsrc, src := src, off := off, len := len, sent := 0,
      parked := none, left := [], first := s.tick.toNat, tries := 0 }
  let s := s.updGrp g (fun x => { x with mem := { x.mem with seq := x.mem.seq + 1 } })
  let s := { s with fab := { s.fab with pubs := s.fab.pubs ++ [p], chSeq := Tab.put ch ((n + 1) % 2 ^ 32) s.fab.chSeq } }
  s.post (.publicationFlitArrival rootPort id)

def execPub (h : Hdr) (lsrc : Bool) (a b c : Operand) (s : State) : Host.Outcome State Fault Refusal :=
  uniWord (.pub h lsrc a b c) h s (fun s g x =>
    let src := s.rd x a 0
    let chw := s.rd x b 0
    let ext := s.rd x c 0
    let len := bits ext 32 24
    if bits chw 16 48 ≠ 0 ∨ bits ext 56 8 ≠ 0 then (s.engOperand g 1, .done)
    else if lsrc = true ∧ (s.team x.team).share < src.toNat + len then (s.engOperand g 4, .done)
    else if !s.mayPublish x.ctx (bits chw 0 16) then (s.engOperand g 8, .done)
    else if len = 0 then (s.engOperand g 9, .done)
    else if s.fabricWaits g x then (s, .wait)
    else (s.pubIssue g x (bits chw 0 16) false lsrc src (bits ext 0 32) len, .on))

def execPubv (h : Hdr) (a b : Operand) (s : State) : Host.Outcome State Fault Refusal :=
  uniWord (.pubv h a b) h s (fun s g x =>
    let chw := s.rd x b 0
    if bits chw 16 48 ≠ 0 then (s.engOperand g 1, .done)
    else if !s.mayPublish x.ctx (bits chw 0 16) then (s.engOperand g 8, .done)
    else if s.fabricWaits g x then (s, .wait)
    else (s.pubIssue g x (bits chw 0 16) true false (s.rd x a 0) 0 8, .on))

/-- A word of the FB path as an agent. -/
def fabricAgent (grp team core slot ctx : Nat) (sup : Bool) (pc : PC) (seq id : Nat) : Agent :=
  { info := { tok := 0, grp := grp, team := team, grid := 0, pc := pc, seq := seq, seg := .g, ord := .weak, scope := .group,
              signed := false, dst := .zero, sz := 16, once := false, lanes := allLanes, path := .fb, engine := some id,
              tick := 0 },
    core := core, slot := slot, ctx := ctx, sup := sup }

def PubWord.agent (p : PubWord) : Agent := fabricAgent p.grp p.team p.core p.slot p.ctx p.sup p.pc p.seq p.id

/-- The pages from which a publication may be read (R304). -/
def pubKind (kind : Nat) : Option Nat := if kind = 1 ∨ kind = 2 ∨ kind = 3 ∨ kind = 6 then none else some 1

/-- Reads `n` bytes, line by line; `fuel` of `n` is enough. -/
def State.spanRead (ag : Agent) (kindOk : Nat → Option Nat) : Nat → State → Word → Nat → List Byte → Span × State
  | 0, s, _, _, b => (.done b, s)
  | f + 1, s, va, n, b =>
    if n = 0 then (.done b, s)
    else
      let k := toLineEnd va n
      match s.agentRead ag kindOk va k with
      | (.done c, s) => State.spanRead ag kindOk f s (va + BitVec.ofNat 64 k) (n - k) (b ++ c)
      | r => r

/-! ### Flits (R304, R305, R374) -/

/-- Writes a place of a window (R369): a refusal drops it. -/
def State.windowPut (s : State) (f : Flit) (pa size : Nat) (v : BitVec 128) : Bool × State :=
  let a : Acc := { mkAcc 0 0 .store size v 0 with bmask := BitVec.ofNat 16 (2 ^ size - 1) }
  match s.serve f.ctx 4 (s.forwardPa pa / 0x2000000000) peerLeaf pa a with
  | (.done _, s) => (true, s)
  | (_, s) => (false, s)

/-- Counts dropped publication bytes. -/
def State.pubDrop (s : State) (die n : Nat) : State := s.count (0x340 + die) 0x53 n

/-- The page at which a flit's write waits for a migration (R226), if it waits. -/
def State.windowWaits (s : State) (t : Ticket) (f : Flit) : Option Nat :=
  if !f.sub then none
  else (if f.ver then [f.verPlace] else [f.base + f.off, f.base + f.off + (f.data.length - 1)]).find? (s.migWaits t)

/-- Writes a flit's bytes that fall within the window; the others are dropped and counted. -/
def State.windowWrite (s : State) (die : Nat) (f : Flit) : State :=
  let s := s.countReq (f.base + f.off)
  let r := (f.data.zipIdx).foldl (fun (r : Nat × State) e =>
    if f.size ≤ f.off + e.2 then (r.1 + 1, r.2)
    else
      let w := r.2.windowPut f (f.base + f.off + e.2) 1 (e.1.setWidth 128)
      (if w.1 then r.1 else r.1 + 1, w.2)) (0, s)
  if r.1 = 0 then r.2 else r.2.pubDrop die r.1

/-- Key of a publication of a channel. -/
def pubKey (ch seq : Nat) : Nat := ch * 2 ^ 32 + seq

/-- Moves on over publications whose flits are all there, and lets the version that is next go. -/
def State.subAdvance (s : State) (ch : Nat) : Nat → State
  | 0 => s
  | n + 1 =>
    let k := s.subNext ch
    match Tab.find? (pubKey ch k) s.fab.got with
    | some (total, there) =>
      if there.length < total then s
      else ({ s with fab := { s.fab with
              got := Tab.del (pubKey ch k) s.fab.got, subs := Tab.put ch ((k + 1) % 2 ^ 32) s.fab.subs } } : State).subAdvance ch n
    | none =>
      match s.fab.flits.find? (fun f => decide (f.ch = ch ∧ f.seq = k) && f.held) with
      | some f => s.later (.publicationFlitArrival bufferPort f.id)
      | none => s

/-- A flit that has been written here: it is acknowledged once every child has (R374). -/
def State.flitAck (s : State) (f : Flit) : State :=
  if f.held || !f.acks.isEmpty then s
  else
    let s := { s with fab := { s.fab with flits := s.fab.flits.filter (fun k => decide (k.id ≠ f.id)) } }
    match f.src with
    | none => { s with fab := { s.fab with acksOut := s.fab.acksOut ++ [(f.parent, pubKey f.ch f.seq, f.off, s.pkgId)] } }
    | some w =>
      match s.fab.pubs.find? (fun p => decide (p.id = w)) with
      | none => s
      | some p =>
        let p := { p with left := p.left.filter (fun k => decide (k ≠ f.id)) }
        if p.left.isEmpty && decide (p.len ≤ p.sent) then s.pubEnd p false
        else { s with fab := { s.fab with pubs := s.fab.pubs.map (fun k => if k.id = w then p else k) } }

/-- Sends a flit's copies to the children of its entry. -/
def State.flitCopies (s : State) (f : Flit) : State :=
  { s with fab := { s.fab with flitsOut := s.fab.flitsOut ++ f.kids.map (fun k => (k, { f with pkg := s.pkgId })) } }

def State.putFlit (s : State) (f : Flit) : State :=
  { s with fab := { s.fab with flits := s.fab.flits.map (fun (k : Flit) => if k.id = f.id then f else k) } }

/-- A flit at a port (R374), under the version of its entry that stands as it is handled (R376): its own write, its copies to the
children, its acknowledgement. A version goes through the reorder buffer (R305); at the root its copies leave after its write. -/
def State.flitHandle (s : State) (die : Nat) (f0 : Flit) : State :=
  let f1 := { f0 with ent := s.espEntry f0.ch }
  let f := { f1 with acks := f1.kids.dedup, held := f1.sub && f1.ver }
  let s := { s with fab := { s.fab with flits := s.fab.flits.filter (fun (k : Flit) => decide (k.id ≠ f.id)) ++ [f] } }
  if !f.sub then (s.flitCopies f).flitAck f
  else
    let next := s.subNext f.ch
    let old := decide (1 ≤ (next + 2 ^ 32 - f.seq) % 2 ^ 32 ∧ (next + 2 ^ 32 - f.seq) % 2 ^ 32 ≤ 2 ^ 31)
    if f.ver then
      if old then
        -- a version that is there already is only acknowledged again
        let g := { f with held := false }
        ((s.flitCopies f).putFlit g).flitAck g
      else (if f.src.isSome then s else s.flitCopies f).subAdvance f.ch (s.fab.got.length + 1)
    else
      let s := (s.windowWrite die f).flitCopies f
      let k := pubKey f.ch f.seq
      let g := Tab.get (f.part, []) k s.fab.got
      let there := if g.2.contains f.off then g.2 else g.2 ++ [f.off]
      let s := if old then s else { s with fab := { s.fab with got := Tab.put k (g.1, there) s.fab.got } }
      (s.flitAck f).subAdvance f.ch (s.fab.got.length + 1)

/-- A flit at the root, handled as at a port: under an entry that names no channel it is dropped and counted, and none acknowledges
it (R374). It is kept for its re-issue (R301). -/
def State.rootFlit (s : State) (die : Nat) (f : Flit) : State :=
  if s.espPub f.ch then s.flitHandle die f
  else (({ s with fab := { s.fab with flits := s.fab.flits.filter (fun (k : Flit) => decide (k.id ≠ f.id)) ++ [{ f with ent := [] }] } } :
    State).pubDrop die f.data.length)

/-- The release of a version by the reorder buffer: a strong write, which waits out leases (R213, R305). -/
def State.verRelease (s : State) (id : Nat) : State :=
  match s.fab.flits.find? (fun f => decide (f.id = id) && f.held) with
  | none => s
  | some f =>
    let pa := s.forwardPa f.verPlace
    let home := pa / 0x2000000000
    if s.subNext f.ch ≠ f.seq then s
    else match s.windowWaits (.version id) f with
    | some at_ => (s.migQueue (.version id) at_).later (.publicationFlitArrival bufferPort id)
    | none =>
    if s.tick.toNat < s.lexp pa home then s.later (.publicationFlitArrival bufferPort id)
    else
      let s := (s.migLeave (.version id)).countReq f.verPlace
      let r := s.windowPut f f.verPlace 8 (BitVec.ofNat 128 (numOfBytes f.data))
      let s := if r.1 then r.2 else r.2.pubDrop (home % 8) 8
      let g := { f with held := false }
      let s := s.putFlit g
      let s := { s with fab := { s.fab with subs := Tab.put f.ch ((f.seq + 1) % 2 ^ 32) s.fab.subs } }
      ((if f.src.isSome then s.flitCopies g else s).flitAck g).subAdvance f.ch (s.fab.got.length + 1)

/-- A trap of the end-of-word class for the group that issued a fabric word (R186, R308). -/
def State.fabricTrap (s : State) (grp team : Nat) (pc : PC) (cause detail : Nat) (addr : Word) : State :=
  s.updOwner grp team (fun x => { x with pending := x.pending ++
    [{ cause := cause, pc := pc, addr := addr, info := BitVec.ofNat 64 detail, lanes := allLanes }] })

def State.putPub (s : State) (p : PubWord) : State :=
  { s with fab := { s.fab with pubs := s.fab.pubs.map (fun k => if k.id = p.id then p else k) } }

/-- The next flit of a publication leaves the root. A source that fails ends the word (the specification gives `pub` no failure of
its source of its own: that of a copy, R280, is taken). -/
def State.pubFlit (s : State) (p : PubWord) : State :=
  let ahead : Flit := { id := 0, ch := p.ch, part := 0, seq := 0, off := p.off + p.sent, data := [], ver := p.ver, src := none,
                        acks := [], held := false, ent := s.espEntry p.ch }
  if p.parked.isSome || decide (p.len ≤ p.sent) then s
  else match s.windowWaits (.agent p.id) { ahead with data := List.replicate (min 64 (p.len - p.sent)) 0 } with
  | some at_ => (s.migQueue (.agent p.id) at_).later (.publicationFlitArrival rootPort p.id)
  | none =>
    let s := s.migLeave (.agent p.id)
    let n := min 64 (p.len - p.sent)
    let va := p.src + BitVec.ofNat 64 p.sent
    let r : Span × State :=
      if p.ver then (.done (bytesOfNum 8 p.src.toNat), s)
      else if p.lsrc then (.done (s.localRead p.team va.toNat n), s)
      else State.spanRead p.agent pubKind n s va n []
    match r with
    | (.done b, s) =>
      let (id, s) := s.fresh
      let f : Flit :=
        { id := id, ch := p.ch, part := (p.len + 63) / 64, seq := p.num, off := p.off + p.sent, data := b, ver := p.ver,
          src := some p.id, acks := [], held := false }
      let p := { p with sent := p.sent + n, left := p.left ++ [id], first := s.tick.toNat }
      let s := (s.putPub p).rootFlit (s.issueDie p.core) f
      if p.sent < p.len then s.later (.publicationFlitArrival rootPort p.id) else s
    | (.park _, s) => s.putPub { p with parked := some s.tick.toNat }
    | (.fail c d addr, s) => (s.fabricTrap p.grp p.team p.pc c d addr).pubEnd p false
    | (_, s) => s.later (.publicationFlitArrival rootPort p.id)

/-- A flit arrives (R374): at a port, the oldest input of that port; at the root, the next flit of publication `id`, or flit `id`
again; in the reorder buffer, version `id`. -/
def execPublicationFlitArrival (port id : Nat) (s : State) : Host.Outcome State Fault Refusal :=
  if port = rootPort then
    match s.fab.pubs.find? (fun p => decide (p.id = id)) with
    | some p => .next (s.pubFlit p)
    | none =>
      match s.fab.flits.find? (fun f => decide (f.id = id) && f.ent.isEmpty) with
      | some f => .next (s.rootFlit (match s.fab.pubs.find? (fun p => decide (some p.id = f.src)) with
          | some p => s.issueDie p.core
          | none => 0) f)
      | none => .next s
  else if port = bufferPort then .next (s.verRelease id)
  else if s.dbg.frozen then .next s
  else
    let mine (i : Input) : Bool := match i with | .flit p .. => decide (p = port) | _ => false
    match s.inputs.find? mine with
    | some (.flit p ch part seq off data ver) =>
      let t := { s with inputs := s.inputs.erase (.flit p ch part seq off data ver) }
      let (n, t) := t.fresh
      let f : Flit := { id := n, ch := ch, part := part, seq := seq, off := off, data := data, ver := ver, src := none, acks := [],
                        held := false, ent := s.espEntry ch }
      if !s.espPub ch then .next (t.pubDrop (port / 2 % 8) data.length)
      else match s.windowWaits (.flit p ch seq off) f with
        | some at_ => .next ((s.migQueue (.flit p ch seq off) at_).later (.publicationFlitArrival port id))
        | none => .next ((t.migLeave (.flit p ch seq off)).flitHandle (port / 2 % 8) f)
    | _ => .next s

/-- Child `child` acknowledges a flit (R374); each child counts once. -/
def execPublicationAck (child id : Nat) (s : State) : Host.Outcome State Fault Refusal :=
  let mine (i : Input) : Bool := match i with | .pubAck k f => decide (k = child ∧ f = id) | _ => false
  let s := { s with inputs := s.inputs.eraseP mine }
  match s.fab.flits.find? (fun f => decide (f.id = id) && !f.ent.isEmpty) with
  | none => .next s
  | some f =>
    let g := { f with acks := f.acks.filter (fun k => decide (k ≠ child)) }
    .next ((s.putFlit g).flitAck g)

/-! ### `coll` (R307, R308) -/

def execColl (h : Hdr) (a : Operand) (s : State) : Host.Outcome State Fault Refusal :=
  uniWord (.coll h a) h s (fun s g x =>
    let (src, dst, w) := x.three a
    let die := s.issueDie x.core
    let comm := bits w 32 12
    if bits w 53 11 ≠ 0 then (s.engOperand g 1, .done)
    else
      match scopeOf (bits w 50 3) with
      | none => (s.engOperand g 5, .done)
      | some sc =>
        if bits w 44 2 = 3 ∨ bits w 46 2 = 3 ∨ bits w 48 2 = 3 ∨ bits w 0 32 = 0 then (s.engOperand g 7, .done)
        else if !s.mayCollect x.ctx die comm then (s.engOperand g 8, .done)
        else if s.fabricWaits g x then (s, .wait)
        else
          let (id, s) := s.fresh
          let turn := Tab.get 0 (comm * 16 + die) s.fab.turns
          let c : CollOp :=
            { id := id, grp := g, team := x.team, core := x.core, slot := x.slot, ctx := x.ctx, sup := x.sup, pc := x.flow.pc,
              seq := x.mem.seq, comm := comm, src := src, dst := dst, count := bits w 0 32, kind := bits w 44 2,
              rop := bits w 46 2, ty := bits w 48 2, scope := sc, die := die, turn := turn, result := none, parked := none }
          let s := s.updGrp g (fun x => { x with mem := { x.mem with seq := x.mem.seq + 1 } })
          let s := { s with fab := { s.fab with
            colls := s.fab.colls ++ [c], turns := Tab.put (comm * 16 + die) (turn + 1) s.fab.turns } }
          (s.post (.collectiveExecute id [] [] false), .on))

def CollOp.agent (c : CollOp) : Agent := fabricAgent c.grp c.team c.core c.slot c.ctx c.sup c.pc c.seq c.id

/-- The pages of a collective (R308). -/
def collKind (kind : Nat) : Option Nat := if kind = 1 ∨ kind = 2 then none else some 1

/-- Bytes of an element. -/
def CollOp.es (c : CollOp) : Nat := if c.ty = 1 then 2 else 4

/-- Elements of a list of bytes. -/
def elemsOf (es : Nat) : Nat → List Byte → List Nat
  | 0, _ => []
  | n + 1, b => numOfBytes (b.take es) :: elemsOf es n (b.drop es)

/-- One reduction of the contributions to an element, in order (R308). -/
def combine (ty rop : Nat) (l : List Nat) : Nat :=
  let fsum (f : FFmt) : Nat :=
    let add (acc : Nat) (x : Nat) : Nat := (roundF fp32 .rne false false (addV false (decodeF fp32 acc) (decodeF f x)).1).1
    let v := match l with
      | [] => 0
      | x :: t => t.foldl add (roundF fp32 .rne false false (decodeF f x)).1
    if f = fp32 then v else (convert (.flt bf16) .rne false false (decodeF fp32 v)).1
  let s32 (x : Nat) : Int := decodeI 32 x
  match ty, rop with
  | 2, 0 => l.sum % 2 ^ 32
  | 2, r => (l.foldl (fun (b : Option Nat) x => match b with
      | none => some x
      | some y => some (if (if r = 1 then s32 y < s32 x else s32 x < s32 y) then x else y)) none).getD 0
  | 1, 0 => fsum bf16
  | 1, r => l.foldl (fun a x => (minMaxF (decide (r = 1)) bf16 false a x).1) (nanOf bf16)
  | _, 0 => fsum fp32
  | _, r => l.foldl (fun a x => (minMaxF (decide (r = 1)) fp32 false a x).1) (nanOf fp32)

/-- The members of a collective with their numbers, their operations where they are of this package. -/
def State.collMembers (s : State) (c : CollOp) : List (Nat × Option CollOp) :=
  if s.commPkgs c.comm then (List.range (s.commN c.comm)).map (fun k => (k, if k = s.commM c.comm then some c else none))
  else ((s.commDies c.comm).zipIdx).map (fun e =>
    (e.2, s.fab.colls.find? (fun k => decide (k.comm = c.comm ∧ k.turn = c.turn ∧ k.die = e.1))))

/-- What a collective comes to. -/
inductive CollEnd where
  | done
  | mismatch
  | absent
  | failed (id cause detail : Nat) (addr : Word)
  deriving DecidableEq, Repr

/-- Ends the operations of a collective: what each one's group learns (R308). -/
def State.collEnd (s : State) (ops : List CollOp) (e : CollEnd) : State :=
  let ids := ops.map CollOp.id
  let s := { s with fab := { s.fab with colls := s.fab.colls.filter (fun c => !ids.contains c.id) } }
  ops.foldl (fun s c =>
    let trap := s.fabricTrap c.grp c.team c.pc
    match e with
    | .done => s
    | .mismatch => trap 0x23 1 0
    | .absent => trap 0x14 1 0
    | .failed id cause d addr => if id = c.id then trap cause d addr else trap 0x23 2 0) s

def State.putColl (s : State) (c : CollOp) : State :=
  { s with fab := { s.fab with colls := s.fab.colls.map (fun k => if k.id = c.id then c else k) } }

/-- The result of each step over the members of a collective: it goes on, it waits, or it has ended. -/
inductive CollStep where
  | go (data : List (Nat × List Byte)) (s : State)
  | stop (s : State)

/-- Reads a member's contribution (R308): alignment and kinds are checked as the engine executes. -/
def State.collRead (s : State) (c : CollOp) (ops : List CollOp) (n : Nat) (m : Nat) (data : List (Nat × List Byte)) : CollStep :=
  let len := (if c.kind = 1 then n * c.count else c.count) * c.es
  if c.src.toNat % c.es ≠ 0 then .stop (s.collEnd ops (.failed c.id 0x15 1 c.src))
  else if c.dst.toNat % c.es ≠ 0 then .stop (s.collEnd ops (.failed c.id 0x15 1 c.dst))
  else
    match State.spanRead c.agent collKind len s c.src len [] with
    | (.done b, s) => .go (data ++ [(m, b)]) s
    | (.park va, s) => .stop (s.putColl { c with parked := some s.tick.toNat, lost := va })
    | (.fail cause d addr, s) => .stop (s.collEnd ops (.failed c.id cause d addr))
    | (_, s) => .stop (s.later (.collectiveExecute c.id [] [] false))

/-- The result that member `m` of `n` receives (R308). -/
def collResult (c : CollOp) (n m : Nat) (order : List Nat) (data : List (Nat × List Byte)) : List Byte :=
  let of (k : Nat) : List Byte := match data.find? (fun e => decide (e.1 = k)) with | some e => e.2 | none => []
  if c.kind = 2 then (List.range n).flatMap of
  else
    let all := (List.range n).map (fun k => (k, elemsOf c.es ((of k).length / c.es) (of k)))
    let seq := (order.filter (fun k => decide (k < n))).dedup ++ (List.range n).filter (fun k => !order.contains k)
    let first := if c.kind = 1 then m * c.count else 0
    (List.range c.count).flatMap (fun i =>
      bytesOfNum c.es (combine c.ty c.rop (seq.map (fun k => match all[k]? with | some e => e.2.getD (first + i) 0 | none => 0))))

/-- Writes what is left of a member's result; `fuel` of its length is enough. -/
def State.collWrite (ops : List CollOp) : Nat → State → CollOp → CollStep
  | 0, s, _ => .go [] s
  | f + 1, s, c =>
    match c.result with
    | none | some [] => .go [] s
    | some b =>
      let k := toLineEnd c.dst b.length
      match s.agentWrite c.agent collKind c.dst (b.take k) with
      | (.done _, s) =>
        let c := { c with result := some (b.drop k), dst := c.dst + BitVec.ofNat 64 k }
        State.collWrite ops f (s.putColl c) c
      | (.park va, s) => .stop (s.putColl { c with parked := some s.tick.toNat, lost := va })
      | (.fail cause d addr, s) => .stop (s.collEnd ops (.failed c.id cause d addr))
      | (_, s) => .stop (s.later (.collectiveExecute c.id [] [] false))

/-- The results are written; when all are, the collective is performed. -/
def State.collFinish (s : State) (ops : List CollOp) : State :=
  let r := ops.foldl (fun (r : CollStep) c => match r with
    | .stop s => .stop s
    | .go _ s => State.collWrite ops ((c.result.getD []).length + 1) s c) (.go [] s)
  match r with
  | .stop s => s
  | .go _ s => s.collEnd ops .done

/-- The collective engine (R308): `order` is the order in which it combines the members, `remote` the contributions of members in
other packages (none where one failed an access), `fail` tells that one is absent. It acts once every member has come. -/
def State.collTry (s : State) (id : Nat) (order : List Nat) (remote : List Contribution) (fail : Bool) : State :=
  match s.fab.colls.find? (fun c => decide (c.id = id)) with
  | none => s
  | some c =>
    let ms := s.collMembers c
    let ops := ms.filterMap Prod.snd
    let n := ms.length
    if ops.any (fun k => k.parked.isSome) then s
    else if c.result.isSome then s.collFinish ops
    else if fail then s.collEnd ops .absent
    else if ms.any (fun m => m.2.isNone && remote.all (fun r => decide (r.member ≠ m.1))) then s
    else
      let len := (if c.kind = 1 then n * c.count else c.count) * c.es
      let far := remote.filter (fun r => ms.any (fun m => decide (m.1 = r.member) && m.2.isNone))
      if ops.any (fun k => decide ((k.kind, k.rop, k.ty, k.count) ≠ (c.kind, c.rop, c.ty, c.count))) ||
          far.any (fun r => decide ((r.kind, r.rop, r.ty, r.count) ≠ (c.kind, c.rop, c.ty, c.count) ∨
            (r.data.length ≠ len ∧ r.data.length ≠ 0))) then s.collEnd ops .mismatch
      else if far.any (fun r => r.data.isEmpty) then s.collEnd ops (.failed 0 0 0 0)
      else
        let r := ms.foldl (fun (r : CollStep) m => match r, m.2 with
          | .go data s, some k => s.collRead k ops n m.1 data
          | r, _ => r) (.go (far.map (fun r => (r.member, r.data))) s)
        match r with
        | .stop s => s
        | .go data s =>
          let s := ms.foldl (fun s m => match m.2 with
            | some k => s.putColl { k with result := some (collResult k n m.1 order data) }
            | none => s) s
          (s.collFinish (ops.filterMap (fun k => s.fab.colls.find? (fun q => decide (q.id = k.id)))))

def execCollectiveExecute (id : Nat) (order : List Nat) (remote : List Contribution) (fail : Bool) (s : State) :
    Host.Outcome State Fault Refusal := .next (s.collTry id order remote fail)

end Sys2Proof.Machine
end

