-- ==== Sys2Proof/Machine/Preempt.lean ====
section
/-!
DEFINITION. Machine/Preempt.lean: replay-all, the save and the restore of a context, its end by containment, and gang slices
(R183, R193 to R205, R324, R347, R348, R365, R394).
-/
namespace Sys2Proof.Machine

/-! ### Replay-all (R194, R323, R365) -/

/-- Where a group's next word lies: its page and whether it may be fetched. -/
def State.fetchReach (s : State) (x : Group) : Reach × State :=
  let va := 8 * x.flow.pc.toNat
  let r := s.translate x.core x.ctx va false
  (r.2.resolve x.core x.ctx x.sup va .fetch (fun _ => none) r.1, r.2)

/-- A fetch that faults (R358, R363): the group gives its port back and issues nothing until a replay. -/
def State.fetchPark (s : State) (g : Nat) (f : PageFault) : State :=
  let x := s.grp g
  let s := s.faultReport x.core x.slot x.ctx (8 * x.flow.pc.toNat) 3 f 5
  (s.releasePort g).updGrp g (fun x => { x with sched := { x.sched with fetch := some s.tick.toNat } })

/-- A parked fetch is tried again: the group may go on, or its fetch parks again. -/
def State.fetchAgain (s : State) (g : Nat) : State :=
  let r := s.fetchReach (s.grp g)
  match r.1 with
  | .park f => r.2.fetchPark g f
  | _ => (r.2.updGrp g (fun x => { x with sched := { x.sched with fetch := none } })).eligible g

/-- A word that waits for a replay tries its accesses again: it goes on, or stays parked and is reported (R194). -/
def State.lostAgain (s : State) (g : Nat) : State :=
  let x := s.grp g
  let l := x.sched.lost.2.filterMap (s.walkAgain x.core x.ctx x.sup (needOf x.sched.lost.1))
  if l.isEmpty then s.wake g
  else
    ((s.reportPages x.core x.slot x.ctx x.sched.lost.1 0 l).count x.core 0x14 l.length).suspendReplay g x.sched.lost.1 (l.map Prod.fst)

/-- Re-drives what a group has parked before tick `t`: its logs, its waiting read or barrier, its Quire invocation, its fetch. -/
def State.replayGroup (s : State) (g t : Nat) : State :=
  let s := s.redriveGroup g t
  let x := s.grp g
  let s := match x.sched.fetch with
    | some k => if k < t then s.fetchAgain g else s
    | none => s
  match x.sched.susp with
  | .waitv i va cc cmp dl acq (some k) => if k < t then (s.suspend g (.waitv i va cc cmp dl acq none)).waitvTry g else s
  | .mbar i va n pa gen arr (some k) =>
    if k < t then (if arr then s.mbarRewait g else (s.suspend g (.mbar i va n pa gen arr none)).mbarTry g) else s
  | .replay k => if k < t then s.lostAgain g else s
  | _ => s

/-- The engine commands of a context on a die try the rows again that were parked before tick `t`. -/
def State.replayEngines (s : State) (die c t : Nat) : State :=
  (s.sys.engs.filter (fun e => decide (e.ctx = c ∧ s.issueDie e.core = die) && e.parked.any (fun p => decide (p.2 < t)))).foldl
    (fun s e =>
      let s := s.putEng { e with parked := e.parked.filter (fun p => !decide (p.2 < t)) }
      (e.parked.filter (fun p => decide (p.2 < t))).foldl (fun s p => match s.eng? e.id with
        | some k => s.engPiece k p.1
        | none => s) s) s

/-- The matrix queues of a context on a die go on: a word is driven again as the unit comes to it. -/
def State.replayMatrix (s : State) (die c t : Nat) : State :=
  (s.teams.filter (fun e => decide (e.2.ctx = c ∧ s.issueDie e.2.core = die))).foldl (fun s e =>
    match e.2.mx with
    | m :: rest =>
      (match m.parked with
       | some k => if k < t then
           (s.setTeam e.1 { e.2 with mx := { m with parked := none, redrive := true } :: rest }).later (.matrixWordExecute e.2.core e.1)
         else s
       | none => s)
    | [] => s) s

/-- Whether a matrix word that a replay-all has let go on is still to be driven again (R365). -/
def State.redriving (s : State) (die c : Nat) : Bool :=
  s.teams.any (fun e => decide (e.2.ctx = c ∧ s.issueDie e.2.core = die) &&
    (match e.2.mx with | m :: _ => m.redrive && !m.stopped | [] => false))

/-- Launch words, publications and collectives of a context on a die try again what was parked before tick `t`. -/
def State.replayFabric (s : State) (die c t : Nat) : State :=
  let waits (ctx core : Nat) (p : Option Nat) : Bool :=
    decide (ctx = c) && decide (s.issueDie core = die) && (match p with | some k => decide (k < t) | none => false)
  let launches := (s.hub.launches.filter (fun l => waits l.ctx l.core l.parked)).foldl (fun l r => insertLaunch r l) []
  let colls := s.fab.colls.filter (fun k => waits k.ctx k.core k.parked)
  let pubs := s.fab.pubs.filter (fun k => waits k.ctx k.core k.parked)
  let s := s.setHub { s.hub with launches := s.hub.launches.map (fun l => if waits l.ctx l.core l.parked then { l with parked := none } else l) }
  let s := { s with fab := { s.fab with
    colls := s.fab.colls.map (fun k => if waits k.ctx k.core k.parked then { k with parked := none } else k),
    pubs := s.fab.pubs.map (fun k => if waits k.ctx k.core k.parked then { k with parked := none } else k) } }
  let s := launches.foldl (fun s l => s.launchTry { l with parked := none }) s
  let s := pubs.foldl (fun s p => s.pubFlit { p with parked := none }) s
  colls.foldl (fun s k => s.collTry k.id [] [] false) s

/-- Re-drives every access of a context that was parked on a die before tick `t`. -/
def State.replayAll (s : State) (die c t : Nat) : State :=
  let mine := s.groups.filter (fun e => decide (e.2.ctx = c ∧ s.issueDie e.2.core = die))
  let s := mine.foldl (fun s e => s.replayGroup e.1 t) s
  let s := ((s.redriveOrphans die c t).replayEngines die c t).replayMatrix die c t
  let s := s.setHub { s.hub with
    saved := match Tab.find? c s.hub.saved with
      | some v => Tab.put c { v with replay := Tab.put die t v.replay } s.hub.saved
      | none => s.hub.saved }
  s.replayFabric die c t

/-- A replay-all; one that was written while another ran begins now. BUSY stays until every access has been driven again once
(R365). -/
def execFbcmdReplayAll (die ctx : Nat) (s : State) : Host.Outcome State Fault Refusal :=
  let s := if (s.faultBuf die ctx).busy then s else s.replayBegin die ctx
  let s := s.replayAll die ctx (s.faultBuf die ctx).since
  .next (if s.redriving die ctx then s.later (.fbcmdReplayAll die ctx)
    else s.setFaultBuf die ctx { s.faultBuf die ctx with busy := false })

/-! ### The save area (R199 to R201, R325) -/

/-- Stores fields given by offset, size and value; they go where their page is now (R367). -/
def State.putFields (s : State) (pa : Nat) (l : List (Nat × Nat × Nat)) : State :=
  l.foldl (fun s f => s.store (s.forwardPa (pa + f.1)) f.2.1 f.2.2) s

def State.zero (s : State) (pa n : Nat) : State := (List.range n).foldl (fun s k => s.setByte (s.forwardPa (pa + k)) 0) s

/-- A number, or bytes, read where their page is now (R367). -/
def State.field (s : State) (pa n : Nat) : Nat := s.load (s.forwardPa pa) n
def State.fieldBytes (s : State) (pa n : Nat) : List Byte := (List.range n).map (fun k => s.byte (s.forwardPa (pa + k)))

/-- Fills `n` words with bytes whose layout the specification leaves open: free values. -/
def State.storeOpen (s : State) (pa : Nat) : Nat → State
  | 0 => s
  | n + 1 => let r := s.freeVal; (r.2.store (r.2.forwardPa pa) 8 r.1.toNat).storeOpen (pa + 8) n

/-- The word of a suspended group that executes again after a restore (R267, R298, R327). -/
def Susp.again : Susp → Option PC
  | .waitv i .. => some i.pc
  | .vwait _ _ _ _ _ pc => some pc
  | .qload _ _ pc => some pc
  | _ => Option.none

/-- What a save writes of the program counter and the stack (R40, R267, R325, R327): the path of a word that executes again goes
back to it, be it the running path or the one that its run's end has put on the stack (R42). -/
def Group.savedFlow (x : Group) : Flow :=
  match x.sched.susp.again with
  | some pc =>
    if x.sched.switched then
      { x.flow with stack := x.flow.stack.modify (x.flow.stack.length - 1) (fun k => { k with addr := pc }) }
    else { x.flow with pc := pc }
  | none => x.flow

/-- SUSP and the suspension operand (R200). -/
def Group.suspCode (x : Group) : Nat × Nat :=
  match x.sched.susp with
  | .sleep d => (1, d.toNat)
  | .bar id _ _ => (2, id)
  | .cbar _ => (3, 0)
  | .mbar _ va .. => (4, va.toNat)
  | .waitv _ va .. => (5, va.toNat)
  | .ewait tok _ => (6, tok.toNat)
  | .cpyw tok _ => (7, tok.toNat)
  | .none | .vwait .. | .qload .. | .replay _ => (0, 0)

/-- An entry index plus 1, or 0 for none. -/
def linkCode (l : Option Nat) : Nat := match l with | some i => i + 1 | none => 0

/-- FLAGS of a group block (R200). -/
def Group.savedFlags (x : Group) : Nat :=
  x.flow.run + (if x.sched.halted then 2 ^ 5 else 0) + (if x.trap.active then 2 ^ 6 else 0) +
    (if x.dueDefs.isEmpty && x.pending.isEmpty then 0 else 2 ^ 7) + x.suspCode.1 * 2 ^ 8 + x.flow.stack.length * 2 ^ 11 +
    linkCode x.flow.region * 2 ^ 17 + x.trap.entryDepth * 2 ^ 23 + (if x.trap.supSaved then 2 ^ 29 else 0)

/-- QSTATE (R325). -/
def QState.word64 (q : QState) : Nat :=
  q.base + q.upc % 128 * 2 ^ 8 + (if q.active then 2 ^ 15 else 0) + q.opx * 2 ^ 16 + q.count * 2 ^ 20 +
    (if q.susp then 2 ^ 30 else 0) + q.mask.toNat * 2 ^ 32 + q.blen * 2 ^ 40 + q.gen.toNat * 2 ^ 48

/-- Quire state at offset 0x1800 of the group block (R325). -/
def State.saveQuire (s : State) (pa : Nat) (q : QState) : State :=
  let latch : List (Nat × Nat × Nat) := match q.latch with
    | none => []
    | some (false, t) => [(0x40, 8, (Tab.get 0 0 t).toNat)]
    | some (true, t) => t.map (fun e => (0x40 + 4 * e.1, 4, e.2.toNat % 2 ^ 32))
  let rl := match q.latch with | none => 0 | some (v, _) => 2 ^ 16 + (if v then 2 ^ 17 else 0)
  s.putFields pa ([(0, 8, q.word64), (8, 8, q.lc.toNat % 2 ^ 16 + rl), (0x10, 8, 8 * q.addr.toNat)] ++
    (List.range 4).map (fun k => (0x20 + 8 * k, 8, (Tab.get 0 k q.qq).toNat)) ++ latch ++
    q.qt.flatMap (fun r => r.2.map (fun e => (0x1C0 + 384 * r.1 + 4 * e.1, 4, e.2.toNat))))

/-- The fields of a group block before its lane report (R200). -/
def Group.blockFields (x : Group) : List (Nat × Nat × Nat) :=
  let cont := match x.sched.susp with
    | .cpyw tok c => [(0x50, 8, 8 * c.toNat), (0x58, 8, tok.toNat)]
    | _ => []
  [(0x00, 8, 8 * x.savedFlow.pc.toNat), (0x08, 8, x.savedFlags), (0x10, 16, x.flow.exited.toNat), (0x20, 16, x.flow.deferred.toNat),
   (0x30, 24, x.regs.full.toNat), (0x48, 8, x.suspCode.2)] ++ cont ++
  [(0x60, 8, x.fp.ctl.toNat), (0x68, 8, x.fp.flags.toNat), (0x70, 8, x.fp.seed.toNat), (0x78, 8, x.fp.miterState.toNat),
   (0x80, 8, x.fp.miterCap.toNat), (0x88, 8, x.fp.miterTol.toNat), (0x90, 8, x.trap.cause.toNat), (0x98, 8, 8 * x.trap.pc.toNat),
   (0xA0, 8, x.trap.addr.toNat), (0xA8, 8, x.trap.info.toNat), (0xB0, 8, x.trap.lanes.toNat % 2 ^ 32),
   (0xB8, 8, x.trap.lanes.toNat / 2 ^ 32 % 2 ^ 32), (0xC0, 8, x.trap.lanes.toNat / 2 ^ 64), (0xC8, 8, 8 * x.trap.resumePC.toNat),
   (0xD0, 16, x.trap.resumeMask.toNat), (0xE0, 8, x.trap.resumeRun + linkCode x.trap.resumeRegion * 2 ^ 17)] ++
  (List.range 64).map (fun k => (0x200 + 8 * k, 8, (x.sreg k).toNat)) ++
  (List.range 7).map (fun k => (0x400 + 16 * k, 16, (x.preg k).toNat)) ++
  (List.range 16).map (fun k => (0x480 + 4 * k, 4, (x.creg k).toNat)) ++
  (List.range 96).map (fun l => (0x4C0 + 4 * l, 4, (Tab.get 0 l x.fp.gens).toNat)) ++
  (List.range 96).map (fun l => (0x640 + 4 * l, 4, (Tab.get 0 l x.fp.mgens).toNat)) ++
  x.savedFlow.stack.zipIdx.flatMap (fun e => let o := 0x800 + 32 * e.2
    [(o, 8, 8 * e.1.addr.toNat), (o + 8, 12, e.1.mask.toNat), (o + 20, 1, linkCode e.1.link),
     (o + 21, 1, if e.1.kind = .path then 1 else 0), (o + 22, 2, e.1.age.toNat)])

/-- Writes the block of a group (R200). The lane report is rewritten only while records are pending, but for its reserved end. What an operand log holds
there is the part's own: one in use begins with the part's mark. -/
def State.saveGroup (s : State) (g : Nat) : State :=
  let x := s.grp g
  let pa := (s.reg (ctxEntry x.ctx + 0x10)).toNat + s.groupOffset g
  let s := (s.zero pa 0x1000).putFields pa x.blockFields
  let s := if x.dueDefs.isEmpty then s else s.writeReport g x.defs
  let s := (((s.zero (pa + 0x16C0) 320).zero (pa + 0x1800) 0x1000).saveQuire (pa + 0x1800) x.q).storeOpen (pa + 0x2800) 2048
  let s := s.putFields (pa + 0x2800) ((List.range x.mem.logs.length).map (fun k => (0x1000 * k, 8, Config.logMark.toNat)))
  (s.zero (pa + 0x6800) (groupBlockSize x.vregs - 0x6800)).putFields (pa + 0x6800)
    (x.regs.v.flatMap (fun r => r.2.map (fun e => (384 * r.1 + 4 * e.1, 4, e.2.toNat))))

/-- The places in a team of arrived groups, as a set. -/
def State.arrivedSet (s : State) (l : List Nat) : Nat := (l.map (fun g => 2 ^ (s.grp g).idx)).sum

/-- Writes the block of a team (R201): header, matrix queue and engine progress are the part's own, their reserved end apart. -/
def State.saveTeam (s : State) (t : Nat) : State :=
  let tm := s.team t
  let pa := (s.reg (ctxEntry tm.ctx + 0x10)).toNat + tm.base
  let s := ((s.storeOpen pa 30).zero (pa + 0xF0) 16).zero (pa + 0x100) 0xF00
  let s := s.putFields (pa + 0x100) (tm.bars.flatMap (fun b =>
    [(16 * b.1, 4, b.2.gen.toNat), (16 * b.1 + 4, 4, b.2.need), (16 * b.1 + 8, 6, s.arrivedSet b.2.arrived)]))
  let s := s.storeOpen (pa + 0x1000) 0x1400
  -- the store CRC of each group stands in the engine progress (R399; log entry 105)
  let s := s.putFields (pa + 0x9000) (tm.members.map (fun g => (8 * (s.grp g).idx, 8, (s.grp g).mem.crc.toNat)))
  let tiles := pa + 0xB000
  let win := tiles + tm.acc * 0x4000
  let loc := win + tm.acc * 0x10000
  let s := s.zero tiles (teamBlockSize tm - 0xB000)
  let s := s.putFields tiles (tm.tiles.map (fun e => (4 * e.1, 4, e.2.toNat)))
  let s := s.putFields win (tm.window.map (fun e => (e.1, 1, e.2.toNat)))
  s.putFields loc (tm.loc.map (fun e => (e.1, 1, e.2.toNat)))

/-- Writes every block of some teams. -/
def State.saveBlocks (s : State) (teams : List Nat) : State :=
  let s := teams.foldl State.saveTeam s
  (s.groups.filter (fun e => teams.contains e.2.team)).foldl (fun s e => s.saveGroup e.1) s

/-! ### Save (R183, R199, R325) -/

/-- The teams of a context that a save takes: for a slice those on compute-die cores (R348). -/
def State.saveTeams (s : State) (c : Nat) : List Nat :=
  ((s.teams.filter (fun e => decide (e.2.ctx = c) && !(decide ((s.ctx c).cmd = 2) && isControl e.2.core))).map Prod.fst)

/-- The groups of some teams stop at the boundary at which they stand; a Quire invocation goes on to its next micro-operation
boundary (R325). -/
def State.pauseTeams (s : State) (ts : List Nat) : State :=
  (s.groups.filter (fun e => ts.contains e.2.team && !e.2.q.running)).foldl (fun s e => s.pauseGroup e.1) s

/-- Asks for a save (R199): the groups stop at the boundary at which they stand, and give their ports back without ending their
runs (R30). -/
def State.askSave (s : State) (c cmd : Nat) : State :=
  let s := s.setCtx c { s.ctx c with cmd := cmd }
  let ts := s.saveTeams c
  if ts.isEmpty && decide (cmd = 2) then s.setCtx c { s.ctx c with cmd := 0 }
  else
    (s.pauseTeams ts).later (.preemption c)

/-- DBGCMD PREEMPT (R348, R394): every group of the context is saved, those that a slice left on control cores too. -/
def execPreempt (ctx : Nat) (s : State) : Host.Outcome State Fault Refusal :=
  .next (if s.ctxState ctx = 3 then s else (s.setCtx ctx { s.ctx ctx with held := true }).askSave ctx 1)

/-- Whether nothing of a team is in flight any more but what a save keeps: parked lanes, a parked matrix word or a stopped
`miter`, engine commands between two pieces (R183, R199). -/
def State.teamStill (s : State) (t : Nat) : Bool :=
  let tm := s.team t
  let own (g : Nat) : Bool := decide ((s.grp g).team = t) && s.hasGrp g
  let parkedOf (tok : Nat) : Nat := (s.groups.flatMap (fun e => e.2.mem.logs.filterMap (fun l =>
    if l.info.tok = tok then some l.accs.length else none))).sum
  s.sys.reqs.all (fun q => decide (q.info.team ≠ t)) && s.fab.reqs.all (fun q => decide (q.info.team ≠ t)) &&
    s.repl.strongs.all (fun o => decide (o.info.team ≠ t)) &&
    s.repl.dies.all (fun r => r.2.unacked.all (fun p => decide (p.1.team ≠ t) || p.2.all (fun d => !s.repl.live.getLsbD d))) &&
    s.sys.words.all (fun w => decide (w.info.team ≠ t) || w.info.engine.isSome || decide (w.left = parkedOf w.info.tok)) &&
    s.sys.results.all (fun r => !own r.2.grp) && s.hub.ctxWrites.all (fun w => decide (w.team ≠ t)) &&
    s.hub.launches.all (fun l => decide (l.info.team ≠ t) || l.parked.isSome) &&
    s.sys.engs.all (fun c => decide (c.team ≠ t) || (c.wait.isEmpty && c.buf.isEmpty)) &&
    -- a publication from the team's local share is read before the share is freed (R309)
    s.fab.pubs.all (fun p => decide (p.team ≠ t) || !p.lsrc || decide (p.len ≤ p.sent)) &&
    s.groups.all (fun e => decide (e.2.team ≠ t) || e.2.sched.paused) && !tm.mxReady

/-- A group as a save leaves it: a word that waits for what a save ends executes again, and a Quire invocation stops at its
micro-operation (R325). -/
def Group.asSaved (x : Group) : Group :=
  { x with
    port := none, q := x.q.halt, flow := x.savedFlow,
    sched := { x.sched with fetch := none, need := [], susp := match x.sched.susp with
      | .qload .. | .vwait .. | .waitv .. => .none
      | k => k } }

/-- Takes teams out: their places on their cores are free. -/
def State.takeOut (s : State) (ts : List Nat) : Saved × State :=
  let mine (g : Group) : Bool := ts.contains g.team
  let cls := s.clusters.filter (fun e => e.2.teams.any (fun t => ts.contains t))
  let v : Saved :=
    { teams := s.teams.filter (fun e => ts.contains e.1),
      groups := (s.groups.filter (fun e => mine e.2)).map (fun e => (e.1, e.2.asSaved)),
      clusters := cls, engs := s.sys.engs.filter (fun c => ts.contains c.team),
      words := s.sys.words.filter (fun w => ts.contains w.info.team && w.info.engine.isNone), replay := [] }
  let s := { s with
    teams := s.teams.filter (fun e => !ts.contains e.1), groups := s.groups.filter (fun e => !mine e.2),
    clusters := s.clusters.filter (fun e => !cls.contains e) }
  let s := s.setSys { s.sys with
    engs := s.sys.engs.filter (fun c => !ts.contains c.team), words := s.sys.words.filter (fun w => !ts.contains w.info.team) }
  -- what is kept by a group's slot goes with it
  let s := s.setHub { s.hub with mbarGone := s.hub.mbarGone.filter s.hasGrp }
  let s := { s with dbg := { s.dbg with ctrReads := s.dbg.ctrReads.filter (fun r => !(decide (r.who.1 < 2 ^ 20) && ts.contains r.who.2)) } }
  -- an L1 that is no longer fused is emptied (R215)
  (v, (cls.filter (fun e => e.2.fused)).foldl (fun s e => e.2.cores.foldl State.dropLeases s) s)

/-- What is saved of a context, with what one more save adds. -/
def Saved.add (v w : Saved) : Saved :=
  { teams := v.teams ++ w.teams, groups := v.groups ++ w.groups, clusters := v.clusters ++ w.clusters, engs := v.engs ++ w.engs,
    words := v.words ++ w.words, replay := v.replay }

/-- A group at an `mbar` that a write has ended leaves it (R135, R137). -/
def State.leaveGone (s : State) (ts : List Nat) : State :=
  (s.groups.filter (fun e => ts.contains e.2.team && s.hub.mbarGone.contains e.1)).foldl (fun s e => match e.2.sched.susp with
    | .mbar i _ _ _ _ true _ => s.mbarLeave e.1 i
    | _ => s) s

/-- A save, once nothing is in flight (R199): the blocks are written, the places are free, and the context is saved. -/
def execPreemption (ctx : Nat) (s : State) : Host.Outcome State Fault Refusal :=
  if (s.ctx ctx).cmd ≠ 1 ∧ (s.ctx ctx).cmd ≠ 2 then .next s
  else
    let ts := s.saveTeams ctx
    let s := s.pauseTeams ts
    if !ts.all s.teamStill then .next (s.later (.preemption ctx))
    else
      let s := (s.leaveGone ts).saveBlocks ts
      let r := s.takeOut ts
      let s := r.2.setHub { r.2.hub with saved := Tab.put ctx ((Tab.get .empty ctx r.2.hub.saved).add r.1) r.2.hub.saved }
      -- a later slice may have brought the context back in the meantime
      let back := decide ((s.ctx ctx).cmd = 2) && !s.outOfGang ctx
      .next ((s.setCtx ctx { s.ctx ctx with cmd := if back then 3 else 0 }).setCtxState ctx 2)

/-! ### Restore (R30, R202) -/

/-- DBGCMD RESUME_CTX (R394): the context is restored as placement permits; outside the gang what was on control cores
(R348). -/
def execResumeCtx (ctx : Nat) (s : State) : Host.Outcome State Fault Refusal :=
  .next (if s.ctxState ctx = 2 ∧ (s.ctx ctx).cmd = 0 then s.setCtx ctx { s.ctx ctx with cmd := 3, held := false } else s)

/-- The number of cores, in the order of the clusters' members, that a saved context needs. -/
def Saved.order (v : Saved) : List Nat := v.clusters.flatMap (fun c => c.2.teams.filter (fun t => (Tab.find? t v.teams).isSome))

/-- Whether a core has room for a saved team (R19). -/
def State.teamFits (s : State) (tm : Team) (core : Nat) : Bool :=
  let u := s.coreLoad core
  let l := coreLimits (isControl core)
  let n := tm.members.length
  decide (isControl core = isControl tm.core) && s.coreFor (isControl core) core &&
    decide (u.groups + n ≤ l.groups ∧ u.vbytes + n * tm.vregs * 384 ≤ l.vbytes ∧
      (n = 0 ∨ (u.loc + share4K tm.localSize ≤ l.loc ∧ u.acc + tm.acc ≤ l.acc)))

/-- The places at which a saved cluster fits now: on its own die, in the shape that it had (R21, R202). -/
def State.clusterPlaces (s : State) (v : Saved) (c : Cluster) : List (List Nat) :=
  let ts := (c.teams.filterMap (fun t => (Tab.find? t v.teams)))
  let all := match ts with
    | [] => [[]]
    | tm :: _ =>
      if isControl tm.core then (List.range 4).map (fun i => [0x3FC + i])
      else (rects (dieOfCore tm.core) c.w ((c.cores.length + c.w - 1) / c.w)).map (fun (l : List Nat) => l.take c.cores.length)
  -- members that have ended need no room
  all.filter (fun l => (c.teams.zip l).all (fun e => match Tab.find? e.1 v.teams with
    | some tm => s.teamFits tm e.2
    | none => true))

/-- The numbers that a group's key is replaced by, in order of their place in their team. -/
def renamed (m : List (Nat × Nat)) (g : Nat) : Nat :=
  match m.find? (fun e => decide (e.1 = g)) with
  | some e => e.2
  | none => g

/-- What is kept elsewhere of the groups of a team follows them to their new places. -/
def State.rename (s : State) (t : Nat) (m : List (Nat × Nat)) : State :=
  let f := renamed m
  let info (i : WordInfo) : WordInfo := if i.team = t then { i with grp := f i.grp } else i
  let s := s.setSys { s.sys with
    engs := s.sys.engs.map (fun c => if c.team = t then { c with grp := f c.grp } else c),
    words := s.sys.words.map (fun w => { w with info := info w.info }),
    tlbis := s.sys.tlbis.map (fun k =>
      { k with grp := if k.team = t then f k.grp else k.grp,
               users := k.users.map (fun u => if u.2.1 = t then (f u.1, u.2) else u) }) }
  let s := s.setHub { s.hub with launches := s.hub.launches.map (fun l => { l with info := info l.info }) }
  { s with
    fab := { s.fab with
      pubs := s.fab.pubs.map (fun p => if p.team = t then { p with grp := f p.grp } else p),
      colls := s.fab.colls.map (fun c => if c.team = t then { c with grp := f c.grp } else c) },
    repl := { s.repl with dies := s.repl.dies.map (fun r => (r.1, { r.2 with
      unacked := r.2.unacked.map (fun p => if p.1.team = t then ({ p.1 with grp := f p.1.grp }, p.2) else p) })) } }

/-- The susp of a group whose words' group has a new number. -/
def Susp.rename (k : Susp) (g : Nat) : Susp :=
  match k with
  | .mbar i va n pa gen arr p => .mbar { i with grp := g } va n pa gen arr p
  | k => k

/-- Registers and control that software may have changed (R202), read from a group block. -/
def State.loadGroup (s : State) (pa : Nat) (x : Group) : Group :=
  let w (o n : Nat) : Nat := s.field (pa + o) n
  let v : Tab (Tab Lane32) := (List.range x.vregs).foldl (fun t n =>
    Tab.set [] n ((List.range 96).foldl (fun r l => Tab.set 0 l (BitVec.ofNat 32 (w (0x6800 + 384 * n + 4 * l) 4)) r) []) t) []
  let sr : Tab Word := (List.range 61).foldl (fun t n => Tab.set 0 n (BitVec.ofNat 64 (w (0x200 + 8 * n) 8)) t) []
  let p : Tab Mask := (List.range 7).foldl (fun t n => Tab.set 0 n (BitVec.ofNat 96 (w (0x400 + 16 * n) 16)) t) []
  let c : Tab Lane32 := (List.range 16).foldl (fun t n => Tab.set 0 n (BitVec.ofNat 32 (w (0x480 + 4 * n) 4)) t) []
  -- a register whose bit was changed reads as full
  let full := x.regs.full ||| BitVec.ofNat 192 (w 0x30 24)
  let mask : Mask := BitVec.ofNat 96 (w (0x200 + 8 * 61) 4 + w (0x200 + 8 * 62) 4 * 2 ^ 32 + w (0x200 + 8 * 63) 4 * 2 ^ 64)
  let ctl : BitVec 5 := BitVec.ofNat 5 (w 0x60 8)
  { x with
    flow := x.flow.setMask mask,
    regs := { v := v, s := sr, p := p, c := c, full := full, pend := x.regs.pend.filter (fun e => !full.getLsbD e.1) },
    fp := { x.fp with
      ctl := if 6 ≤ ctl.toNat % 8 then ctl &&& 0x18 else ctl, seed := BitVec.ofNat 32 (w 0x70 8), miterCap := BitVec.ofNat 16 (w 0x80 8),
      miterTol := BitVec.ofNat 32 (w 0x88 8) } }

/-- Tiles, window and local share, read from a team block (R202). -/
def State.loadTeam (s : State) (pa : Nat) (tm : Team) : Team :=
  let tiles := pa + 0xB000
  let win := tiles + tm.acc * 0x4000
  let loc := win + tm.acc * 0x10000
  { tm with
    tiles := (List.range (tm.acc * 4096)).foldl (fun t k => Tab.set 0 k (BitVec.ofNat 32 (s.field (tiles + 4 * k) 4)) t) [],
    window := (List.range (tm.acc * 65536)).foldl (fun t k => Tab.set 0 k (s.byte (s.forwardPa (win + k))) t) [],
    loc := (List.range tm.share).foldl (fun t k => Tab.set 0 k (s.byte (s.forwardPa (loc + k))) t) [] }

/-- The checks of a group block (R202): its reserved bytes, its stack depth and links. -/
def State.blockOk (s : State) (pa : Nat) : Bool :=
  let clear (o n : Nat) : Bool := (s.fieldBytes (pa + o) n).all (fun b => decide (b = 0))
  let flags := s.field (pa + 8) 8
  let depth := flags / 2 ^ 11 % 64
  -- an exit in a handler can leave fewer entries than EntryDepth (R37, R195)
  let entry := flags / 2 ^ 23 % 64
  clear 0xE8 280 && clear 0x470 16 && clear 0x7C0 64 && clear 0xC00 1024 && clear 0x16C0 320 && clear 0x1818 8 &&
    clear 0x25C0 576 && decide (flags / 2 ^ 30 = 0 ∧ depth ≤ 32 ∧ entry ≤ 32 ∧ flags / 2 ^ 17 % 64 ≤ depth) &&
    (List.range 32).all (fun i =>
      clear (0x800 + 32 * i + 24) 8 && decide (s.field (pa + 0x800 + 32 * i + 20) 1 ≤ i))

/-- Where the blocks of a saved team and group lie: as they were written. -/
def Saved.teamAt (v : Saved) (t : Nat) : Nat := (Tab.get Team.empty t v.teams).base
def Saved.groupAt (v : Saved) (x : Group) : Nat :=
  let tm := Tab.get Team.empty x.team v.teams
  v.teamAt x.team + teamBlockSize tm + x.idx * groupBlockSize x.vregs

/-- Whether a saved context passes the checks of a restore (R202): each operand log in use must carry the Z8's own mark too. -/
def State.restoreOk (s : State) (c : Nat) (v : Saved) : Bool :=
  let base := (s.reg (ctxEntry c + 0x10)).toNat
  v.teams.all (fun e => (s.fieldBytes (base + v.teamAt e.1 + 0xF0) 16).all (fun b => decide (b = 0))) &&
    v.groups.all (fun e => s.blockOk (base + v.groupAt e.2) &&
      (List.range e.2.mem.logs.length).all (fun k =>
        decide (s.field (base + v.groupAt e.2 + 0x2800 + 0x1000 * k) 8 = Config.logMark.toNat)))

/-- Puts a saved team on a core: its groups take free slots, lowest first, and go on where they stopped (R30). -/
def State.restoreTeam (s : State) (c : Nat) (v : Saved) (t core : Nat) : State :=
  match Tab.find? t v.teams with
  | none => s
  | some tm =>
    let base := (s.reg (ctxEntry c + 0x10)).toNat
    let gs := v.groups.filter (fun e => decide (e.2.team = t))
    let slots := gs.zip (s.freeSlots core)
    let m := slots.map (fun e => (e.1.1, groupKey core e.2))
    let f := renamed m
    -- what a replay-all met while the context was saved is replayed before the groups' first words (R205)
    let replay := Tab.find? (s.issueDie core) v.replay
    let stays (k : Nat) : Bool := match replay with | some n => decide (n ≤ k) | none => true
    let tm := s.loadTeam (base + v.teamAt t) tm
    let tm := { tm with
      core := core, members := tm.members.map f,
      bars := tm.bars.map (fun b => (b.1, { b.2 with arrived := b.2.arrived.map f })),
      mx := tm.mx.map (fun e => { e with grp := f e.grp, stopped := false, parked := e.parked.filter stays }),
      gens := tm.gens.map (fun e => (f e.1, e.2)) }
    let s := { s with teams := Tab.put t tm s.teams }
    let s := slots.foldl (fun s e =>
      let key := groupKey core e.2
      let x := s.loadGroup (base + v.groupAt e.1.2) e.1.2
      let x := { x with
        core := core, slot := e.2,
        mem := { x.mem with logs := x.mem.logs.map (fun l => { l with info := { l.info with grp := key } }) },
        sched := { x.sched with paused := false, since := s.tick, susp := x.sched.susp.rename key } }
      let s := s.setGrp key x
      x.mem.fences.foldl (fun s fe => fe.left.foldl (fun s p => s.post (.fenceComplete key fe.id p.code)) s) s) s
    let s := s.setSys { s.sys with
      engs := s.sys.engs ++ (v.engs.filter (fun e => decide (e.team = t))).map (fun e =>
        { e with core := core, slot := f e.grp % 64, parked := e.parked.filter (fun p => stays p.2) }),
      words := s.sys.words ++ v.words.filter (fun w => decide (w.info.team = t)) }
    let s := s.rename t m
    let s := slots.foldl (fun s e => match e.1.2.sched.susp with
      | .mbar _ _ _ _ _ true none => s.mbarRewait (groupKey core e.2)
      | _ => s) s
    let s := (s.sys.engs.filter (fun e => decide (e.team = t))).foldl (fun s e => s.engNext e) s
    let s := match tm.mx with
      | e :: _ => (match e.op with
        | .miter .. => if e.started then s.later (.miterPhase core t false) else s.later (.matrixWordExecute core t)
        | _ => s.later (.matrixWordExecute core t))
      | [] => s
    let s := (s.updCore core (fun k => { k with icache := [] })).postFill core c
    match replay with
    | some n => slots.foldl (fun s e => s.replayGroup (groupKey core e.2) n) s
    | none => s

/-- The part of what is saved whose clusters `p` tells. -/
def Saved.part (v : Saved) (p : Cluster → Bool) : Saved :=
  let cls := v.clusters.filter (fun c => p c.2)
  let mine (t : Nat) : Bool := cls.any (fun c => c.2.teams.contains t)
  { teams := v.teams.filter (fun e => mine e.1), groups := v.groups.filter (fun e => mine e.2.team), clusters := cls,
    engs := v.engs.filter (fun c => mine c.team), words := v.words.filter (fun w => mine w.info.team), replay := v.replay }

/-- Whether a restore takes a cluster now: on the compute dies only in the gang (R348). -/
def State.comesBack (s : State) (ctx : Nat) (c : Cluster) : Bool := !s.outOfGang ctx || c.cores.all isControl

/-- A restore on given cores, one for each member of the context's clusters (R202): it is refused where a check fails. -/
def execContextRestore (ctx : Nat) (cores : List Nat) (s : State) : Host.Outcome State Fault Refusal :=
  match Tab.find? ctx s.hub.saved with
  | none => .next s
  | some all =>
    let v := all.part (s.comesBack ctx)
    if (s.ctx ctx).cmd ≠ 3 ∨ (v.clusters.isEmpty && !all.clusters.isEmpty) = true then .next s
    else if !s.restoreOk ctx v then
      .next ((s.setCtx ctx { s.ctx ctx with cmd := 0 }).postCtxFault ctx 0 0 0 0xFFFF)
    else
      let r := v.clusters.foldl (fun (r : Option (List Nat × State)) c =>
        match r with
        | none => none
        | some (l, s) =>
          let n := c.2.cores.length
          let mine := l.take n
          if !(s.clusterPlaces v c.2).contains mine then none
          else
            let old := (v.groups.filter (fun e => c.2.teams.contains e.2.team)).map Prod.fst
            let s := (c.2.teams.zip mine).foldl (fun s e => s.restoreTeam ctx v e.1 e.2) s
            let new (g : Nat) : Nat := match v.groups.find? (fun e => decide (e.1 = g)) with
              | some e => ((s.team e.2.team).members.find? (fun k => decide ((s.grp k).idx = e.2.idx))).getD g
              | none => g
            let bar := { c.2.bar with arrived := c.2.bar.arrived.map (fun g => if old.contains g then new g else g) }
            let s := { s with clusters := Tab.put c.1 { c.2 with cores := mine, bar := bar } s.clusters }
            let s := if c.2.fused then mine.foldl State.dropLeases s else s
            some (l.drop n, s)) (some (cores, s))
      match r with
      | some ([], t) =>
        let t := t.setCtx ctx { t.ctx ctx with cmd := 0 }
        let rest := all.part (fun c => !s.comesBack ctx c)
        .next (if rest.clusters.isEmpty then
            (t.setHub { t.hub with saved := Tab.del ctx t.hub.saved }).setCtxState ctx (if all.clusters.isEmpty then 0 else 1)
          else t.setHub { t.hub with saved := Tab.put ctx rest t.hub.saved })
      | _ => .next s

/-- The cores for a context that is to be restored: for each cluster the first place that fits. -/
def State.restorePlaces (s : State) (ctx : Nat) : Option (List Nat) :=
  match Tab.find? ctx s.hub.saved with
  | none => none
  | some all =>
    let v := all.part (s.comesBack ctx)
    if v.clusters.isEmpty && !all.clusters.isEmpty then none else
    (v.clusters.foldl (fun (r : Option (List Nat × State)) c =>
      match r with
      | none => none
      | some (l, s) =>
        match (s.clusterPlaces v c.2).head? with
        | none => none
        | some m => some (l ++ m, (c.2.teams.zip m).foldl (fun s e => match Tab.find? e.1 v.teams with
            | some tm => { s with teams := Tab.put e.1 { tm with core := e.2 } s.teams }
            | none => s) s)) (some ([], s))).map Prod.fst

/-- The restores that are due. -/
def State.dueRestores (s : State) : List Instr :=
  s.hub.saved.filterMap (fun e =>
    if (s.ctx e.1).cmd = 3 then (s.restorePlaces e.1).map (fun l => .contextRestore e.1 l) else none)

/-! ### Containment (R203, R424) -/

/-- A context is killed: its groups stop, and what they have pending is discarded; stores that have issued are performed, and
updates that are emitted are applied. -/
def State.contextKill (s : State) (ctx : Nat) : State :=
  let ts := (s.teams.filter (fun e => decide (e.2.ctx = ctx))).map Prod.fst
  let all := ts ++ (match Tab.find? ctx s.hub.saved with | some v => v.teams.map Prod.fst | none => [])
  let s := (s.groups.filter (fun e => ts.contains e.2.team)).foldl (fun s e => s.releasePort e.1) s
  let s := (s.takeOut ts).2
  let dead (i : WordInfo) : Bool := all.contains i.team
  let ids := (s.hub.grids.filter (fun k => decide (k.ctx = ctx))).map Grid.id
  let s := s.setSys { s.sys with
    results := s.sys.results.filter (fun r => s.hasGrp r.2.grp),
    orphans := s.sys.orphans.filter (fun o => decide (o.ctx ≠ ctx)),
    lateFences := s.sys.lateFences.filter (fun e => decide (e.ctx ≠ ctx)),
    tlbis := s.sys.tlbis.filter (fun k => !all.contains k.team) }
  let s := s.setHub { s.hub with
    -- what still waits for the leases of a line holds it again at its next try
    saved := Tab.del ctx s.hub.saved, launches := s.hub.launches.filter (fun l => !dead l.info), holds := [],
    grids := s.hub.grids.filter (fun k => decide (k.ctx ≠ ctx)),
    queues := s.hub.queues.map (fun q => (q.1, { q.2 with waiting := q.2.waiting.filter (fun k => !ids.contains k.id) })) }
  let s := { s with fab := { s.fab with
    colls := s.fab.colls.filter (fun k => !all.contains k.team), pubs := s.fab.pubs.filter (fun k => !all.contains k.team),
    reqs := s.fab.reqs.filter (fun q => !(dead q.info && (decide (q.state = PeerState.ready) || decide (q.state = PeerState.queued)) &&
      q.accs.all (fun a => decide (a.acc.op = AccOp.load)))) } }
  -- DROPCNT is no part of what is discarded
  let s := (List.range 9).foldl (fun s d => s.setFaultBuf d ctx { FaultBuf.reset with dropCnt := (s.faultBuf d ctx).dropCnt }) s
  let s := s.setReplay ctx { s.replayOf ctx with held := [] }
  (s.setCtx ctx { s.ctx ctx with cmd := 0, held := false }).setCtxState ctx 3

def execContextKill (ctx : Nat) (s : State) : Host.Outcome State Fault Refusal := .next (s.contextKill ctx)

/-! ### Gang slices (R347, R348) -/

def sliceAddr (i : Nat) : Nat := hubBase + 0x12000 + 16 * i
def gangMask (s : State) (g : Nat) : BitVec 64 := s.reg (hubBase + 0x13000 + 8 * g)

/-- A slice entry is taken: V is cleared, LATE tells whether its instant had passed; contexts outside its gang are saved on the
compute-die cores, and those of the gang are restored. -/
def State.takeSlice (s : State) (i : Nat) (late : Bool) : State :=
  let w := s.reg (sliceAddr i)
  let m := gangMask s (bits w 32 6)
  let s := s.setReg (sliceAddr i) (w &&& ~~~fieldMask 63 1)
  let s := s.setReg (sliceAddr i + 8) ((s.reg (sliceAddr i + 8) &&& ~~~fieldMask 63 1) ||| (if late then fieldMask 63 1 else 0))
  let s := s.setHub { s.hub with gang := some m }
  (List.range 64).foldl (fun s c =>
    if m.getLsbD c then
      if s.ctxState c = 2 ∧ (s.ctx c).cmd = 0 then s.setCtx c { s.ctx c with cmd := 3, held := false } else s
    else if (s.ctx c).cmd = 0 then s.askSave c 2
    else if (s.ctx c).cmd = 3 then s.setCtx c { s.ctx c with cmd := 0 } else s) s

end Sys2Proof.Machine
end

