-- ==== Sys2Proof/Machine/Debug.lean ====
section
/-!
DEFINITION. Machine/Debug.lean: the freeze and the core dump, commands to halted groups, the stop on a tick, activity records
and slice entries at their instants (R204, R348, R379, R386 to R388, R391 to R395).
-/
namespace Sys2Proof.Machine

/-! ### Freezing and resuming (R392 to R394) -/

/-- DBGCMD FREEZE. -/
def execFreeze (s : State) : Host.Outcome State Fault Refusal := .next s.commandFreeze

/-- The accesses of a word that an order gate holds (R397, R398). -/
def State.gatedOf (s : State) (tok : Nat) : Nat :=
  let held (ctx grp id : Nat) : Bool := (s.replayOf ctx).held.any (fun h => decide (h.grp = grp ∧ h.id = id))
  ((s.sys.reqs.filter (fun q => decide (q.info.tok = tok) && held q.ctx q.info.grp q.id)).map (fun q => q.accs.length)).sum +
    ((s.repl.strongs.filter (fun o => decide (o.info.tok = tok) && held o.ctx o.info.grp o.id)).map (fun o => o.accs.length)).sum

/-- Whether every unit has come to its boundary (R392): results have landed, the engines stand between two pieces and the matrix
units between two words or phases. What a group has parked stays so, and what an order gate holds: what would go before it is
stopped (R401). -/
def State.atRest (s : State) : Bool :=
  let parkedOf (tok : Nat) : Nat := (s.groups.flatMap (fun e => e.2.mem.logs.filterMap (fun l =>
    if l.info.tok = tok then some l.accs.length else none))).sum + s.gatedOf tok
  s.sys.results.isEmpty && s.hub.ctxWrites.isEmpty &&
    s.sys.words.all (fun w => w.info.engine.isSome || decide (w.left = parkedOf w.info.tok)) &&
    s.sys.engs.all (fun c => c.wait.isEmpty && c.buf.isEmpty) &&
    s.teams.all (fun t => match t.2.mx with
      | e :: _ => !(e.started && e.parked.isNone && !e.stopped) || (match e.op with | .miter .. => true | _ => false)
      | [] => true)

/-- The freeze is complete: FROZEN is set. -/
def execFreezeStop (s : State) : Host.Outcome State Fault Refusal :=
  if s.dbg.frozen || !s.freezeDue then .next s
  else if s.atRest then .next { s with dbg := { s.dbg with frozen := true, frozenTicks := 0 } }
  else .next (s.later .freezeStop)

/-- Moves what counts towards a bound by the ticks that were frozen (R393): re-issue timers, tags, send times of publications,
reply-cache entries, open chunks, operations at a gate, buckets, the training of ports, and the
time that applied vectors stand. -/
def State.shiftTimers (s : State) (n : Nat) : State :=
  { s with
    fab := { s.fab with
      reqs := s.fab.reqs.map (fun q => { q with first := if q.first = 0 then 0 else q.first + n, due := q.due + n }),
      last := s.fab.last.map (fun e => (e.1, e.2 + n)),
      pubs := s.fab.pubs.map (fun p => { p with first := if p.first = 0 then 0 else p.first + n }),
      cache := s.fab.cache.map (fun c => { c with expiry := c.expiry + n }) },
    dbg := { s.dbg with
      open_ := s.dbg.open_.map (fun k => { k with touched := k.touched + n }),
      replay := s.dbg.replay.map (fun r => (r.1, { r.2 with held := r.2.held.map (fun h => { h with tick := h.tick + n }) })) },
    hub := { s.hub with buckets := s.hub.buckets.map (fun b => { b with opened := b.opened + n }) },
    plat := { s.plat with trainAt := s.plat.trainAt.map (fun e => (e.1, e.2 + n)) },
    repl := { s.repl with dies := s.repl.dies.map (fun r =>
      (r.1, { r.2 with stuck := r.2.stuck.map (fun k => (k.1 + n, k.2)) })) } }

/-- RESUME, 64 ticks after its write: every unit goes on, and the commands written in the meantime take effect. -/
def execResume (s : State) : Host.Outcome State Fault Refusal :=
  match s.dbg.frozen, s.dbg.resumeAt with
  | true, some t =>
    if s.tick.toNat < t then .next s
    else
      let s := s.shiftTimers s.dbg.frozenTicks
      let l := s.dbg.later
      .next (l.foldl State.post { s with dbg := { s.dbg with
        frozen := false, freeze := none, resumeAt := none, frozenTicks := 0, later := [], stops := [] } })
  | _, _ => .next s

/-- DBGCMD RESUME_GROUP (R394): a halted group issues again, at the word after its `halt`. -/
def execResumeGroup (core slot : Nat) (s : State) : Host.Outcome State Fault Refusal :=
  let g := groupKey core slot
  if s.hasGrp g ∧ slot < 64 ∧ (s.grp g).sched.halted = true then
    .next ((s.updGrp g (fun x => { x with sched := { x.sched with halted := false } })).eligible g)
  else .next s

/-! ### The dump (R204, R394) -/

/-- An entry of the pending-store annex: an aligned piece of 16 bytes. -/
structure AnnexEntry where
  va : Word
  data : Nat
  mask : Nat
  reached : Scope
  kind : Nat
  target : Scope
  core : Nat
  slot : Nat
  ctx : Nat
  tick : Nat
  order : Nat
  deriving DecidableEq, Repr

def State.putEntry (s : State) (pa : Nat) (e : AnnexEntry) : State :=
  s.putFields pa [(0, 8, e.va.toNat), (8, 16, e.data), (0x18, 2, e.mask),
    (0x1A, 1, codeOf Scope.all e.reached + e.kind * 8), (0x1B, 1, codeOf Scope.all e.target), (0x1C, 2, e.core),
    (0x1E, 1, e.slot), (0x1F, 1, e.ctx), (0x20, 8, e.tick), (0x28, 8, e.order)]

/-- The kind of a store by its order. -/
def ordKind (o : AccOrd) : Nat := match o with | .weak => 0 | .sq => 2 | _ => 1

/-- A store of a word as an entry: its bytes in their place of the aligned piece. -/
def storeEntry (i : WordInfo) (ctx kind : Nat) (a : Acc) : AnnexEntry :=
  let o := bits a.va 0 4
  let m := if a.bmask = 0 then 2 ^ a.size - 1 else a.bmask.toNat
  { va := a.va - BitVec.ofNat 64 o, data := a.data.toNat % 2 ^ (8 * a.size) * 2 ^ (8 * o) % 2 ^ 128, mask := m * 2 ^ o % 2 ^ 16,
    reached := .group, kind := kind, target := i.scope, core := i.grp / 64, slot := i.grp % 64, ctx := ctx, tick := i.tick,
    order := i.seq }

/-- The pieces of an update, weak or of `.sq`: the marked words in their places. -/
def Packet.entries (p : Packet) : List AnnexEntry :=
  let ws := (markedWords p.wmask).zip p.words
  (List.range 8).filterMap (fun k =>
    let mine := ws.filter (fun e => decide (e.1 / 4 = k))
    if mine.isEmpty then none
    else some
      { va := p.va + BitVec.ofNat 64 (16 * k), data := (mine.map (fun e => e.2.toNat * 2 ^ (32 * (e.1 % 4)))).sum,
        mask := (mine.map (fun e => 15 * 2 ^ (4 * (e.1 % 4)))).sum, reached := .die, kind := if p.kind = .update then 3 else 2, target := .package,
        core := p.grp / 64, slot := p.grp % 64, ctx := p.ctx, tick := p.tick, order := p.seq })

/-- Puts packets that several dies hold in once. -/
def onePacket (l : List Packet) : List Packet :=
  l.foldl (fun a p => if a.any (fun (q : Packet) => decide (q.id = p.id ∧ q.src = p.src)) then a else a ++ [p]) []

/-- Every store that is issued and not yet visible at device scope (R204): parked in a log, on its way or held at its slice, a
strong operation on the replicated segment, an update in a hold queue or on a link, a request to a peer. -/
def State.annex (s : State) : List AnnexEntry :=
  let log (ctx : Nat) (l : OpLog) : List AnnexEntry :=
    (l.accs.filter (fun a => decide (a.op = AccOp.store))).map (storeEntry l.info ctx 5)
  let stores (i : WordInfo) (ctx kind : Nat) (l : List PAcc) : List AnnexEntry :=
    (l.filter (fun a => decide (a.acc.op = AccOp.store))).map (fun a => storeEntry i ctx kind a.acc)
  s.groups.flatMap (fun e => e.2.mem.logs.flatMap (log e.2.ctx)) ++
    s.hub.saved.flatMap (fun v => v.2.groups.flatMap (fun e => e.2.mem.logs.flatMap (log e.2.ctx))) ++
    s.sys.orphans.flatMap (fun o => log o.ctx o.log) ++
    s.sys.reqs.flatMap (fun q => stores q.info q.ctx (ordKind q.info.ord) q.accs) ++
    (s.repl.strongs.filter (fun o => o.pkt.isNone)).flatMap (fun o => stores o.info o.ctx 2 o.accs) ++
    (onePacket (s.repl.dies.flatMap (fun r => r.2.hold ++ r.2.accept.toList ++ r.2.locks) ++
      s.repl.links.map (fun l => l.2.2))).flatMap Packet.entries ++
    s.fab.reqs.flatMap (fun q => stores q.info q.ctx 4 q.accs)

/-- Writes the annex: a count and the entries. -/
def State.putAnnex (s : State) (pa : Nat) (l : List AnnexEntry) : State :=
  l.zipIdx.foldl (fun s e => s.putEntry (pa + 8 + 48 * e.2) e.1) (s.putFields pa [(0, 8, l.length)])

/-- DBGCMD DUMP, while the package is frozen (R394): the save areas of the resident contexts are written and their residency goes
on, then the annex, and DUMPED is set. -/
def execDump (s : State) : Host.Outcome State Fault Refusal :=
  if !s.dbg.frozen then .next s
  else
    let s := s.saveBlocks (s.teams.map Prod.fst)
    let s := s.putAnnex (s.reg (hubBase + 0x250038)).toNat s.annex
    .next (s.setReg frzStat (s.reg frzStat ||| fieldMask 36 1))

/-! ### The stop on a tick (R395) -/

/-- With STOPEN set, tick S stops the package: it stands still until a package reset. -/
def State.stopNow (s : State) : State :=
  if (s.reg (hubBase + 0x250030)).getLsbD 0 && decide (s.reg (hubBase + 0x250028) = s.tick) then
    { s with dbg := { s.dbg with stopped := true } }
  else s

/-- The stop within its tick: a write of S or EN in the tick itself comes too late for it (R395). -/
def execStopOnTick (s : State) : Host.Outcome State Fault Refusal :=
  .next (if s.dbg.sw.contains (hubBase + 0x250028) || s.dbg.sw.contains (hubBase + 0x250030) then s else s.stopNow)

/-! ### Activity records (R386 to R388) -/

def ringAddr (r : Nat) : Nat := hubBase + 0x242040 + 0x40 * r

/-- The interval of activity records in ticks, where they are made (R386). -/
def State.actInterval (s : State) : Option Nat :=
  if s.dbg.actNow.getLsbD 0 then some (2 ^ bits s.dbg.actNow 1 5) else none

/-- The units of a ring, in the order of their records (R388). -/
def ringUnits (r : Nat) : List Nat :=
  if r < 8 then (List.range 104).map (fun c => 104 * r + c) ++ [0x340 + r] else [0x348]

/-- The assigned events of a unit: the first and their number (R382). -/
def unitEvents (u : Nat) : Nat × Nat := if u < 0x340 then (0, 0x18) else if u < 0x348 then (0x40, 0x17) else (0xC0, 6)

/-- A record: a header of two words and thirty counters, as a read in this tick gives them (R387). Bit 15 of the second word is
LOST, set as it is written. -/
def State.unitRecord (s : State) (u : Nat) : List Word :=
  let k := bits s.dbg.actNow 1 5
  let e := unitEvents u
  [s.tick, BitVec.ofNat 64 (u + k * 2 ^ 10 + s.tick.toNat / 2 ^ k % 2 ^ 32 * 2 ^ 32)] ++
    (List.range 30).map (fun i =>
      if i < e.2 then (s.counterRead (counterAddr u (e.1 + i))).1 &&& fieldMask 0 51 else 0)

def State.ringSize (s : State) (r : Nat) : Nat := 2 ^ bits (s.reg (ringAddr r + 8)) 0 5

/-- Records that a ring has room for. -/
def State.ringRoom (s : State) (r : Nat) : Nat :=
  let n := s.ringSize r
  (bits (s.reg (ringAddr r + 0x18)) 0 20 + n - 1 - bits (s.reg (ringAddr r + 0x10)) 0 20 % n) % n

/-- A ring's latch (R388): the interval is held until it is written, or dropped and counted. -/
def State.latchRing (s : State) (r : Nat) : State :=
  let us := ringUnits r
  if (Tab.find? r s.dbg.latched).isSome || decide (s.ringRoom r < us.length) then
    let s := s.hwCount (ringAddr r + 0x20)
    { s with dbg := { s.dbg with lost := Tab.set false r true s.dbg.lost } }
  else
    let l := us.flatMap s.unitRecord
    ({ s with dbg := { s.dbg with latched := Tab.put r (us.length, l) s.dbg.latched } } : State).post (.activityRingWrite r)

/-- Every counter of the dies there are and of the hub is latched, in a tick of the period. -/
def State.latchAll (s : State) : State :=
  match s.actInterval with
  | some n =>
    if s.tick.toNat % n = 0 then
      ((List.range 9).filter (fun r => decide (r = 8) || (s.reg (hubBase + 0x272000)).getLsbD (8 + r))).foldl State.latchRing s
    else s
  | none => s

def execActivityLatch (s : State) : Host.Outcome State Fault Refusal := .next s.latchAll

/-- A latched interval is written (R388): HEAD advances past all of its records. -/
def execActivityRingWrite (ring : Nat) (s : State) : Host.Outcome State Fault Refusal :=
  match Tab.find? ring s.dbg.latched with
  | none => .next s
  | some (n, ws) =>
    let lost := Tab.get false ring s.dbg.lost
    let head := bits (s.reg (ringAddr ring + 0x10)) 0 20
    let base := (s.reg (ringAddr ring)).toNat
    let size := s.ringSize ring
    let s := ws.zipIdx.foldl (fun s e =>
      let v := if lost && decide (e.2 % 32 = 1) then e.1 ||| fieldMask 15 1 else e.1
      s.store (s.forwardPa (base + 256 * ((head + e.2 / 32) % size) + 8 * (e.2 % 32))) 8 v.toNat) s
    let s := s.setReg (ringAddr ring + 0x10) (BitVec.ofNat 64 ((head + n) % size))
    .next { s with dbg := { s.dbg with latched := Tab.del ring s.dbg.latched, lost := Tab.del ring s.dbg.lost } }

/-! ### Slice entries at their instants (R348, R379) -/

/-- The tick to which an instant maps, in nanoseconds (R379). -/
def mapNs (atick asec ans rate : Word) (t : Int) : Int :=
  let d : Int := t - ((asec.toNat * 1000000000 + ans.toNat : Nat) : Int)
  (atick.toNat : Int) + d + Int.fdiv (d * (rate.setWidth 32).toInt) (2 ^ 40)

/-- The same for seconds and nanoseconds. -/
def mapInstant (atick asec ans rate : Word) (sec ns : Nat) : Int :=
  mapNs atick asec ans rate ((sec * 1000000000 + ns : Nat) : Int)

/-- The same under the mapping that the servo keeps. -/
def State.instantTick (s : State) (sec ns : Nat) : Int :=
  mapInstant (s.reg (hubBase + 0x15008)) (s.reg (hubBase + 0x15010)) (s.reg (hubBase + 0x15018)) (s.reg (hubBase + 0x15020)) sec ns

/-- The armed entries, by number. -/
def State.armedSlices (s : State) : List Nat :=
  (s.mgmt.filter (fun e => decide (hubBase + 0x12000 ≤ e.1 ∧ e.1 < hubBase + 0x13000 ∧ e.1 % 16 = 0) && e.2.getLsbD 63)).map
    (fun e => (e.1 - (hubBase + 0x12000)) / 16)

/-- An entry's instant: seconds and nanoseconds. -/
def State.sliceInstant (s : State) (i : Nat) : Nat × Nat := (bits (s.reg (sliceAddr i + 8)) 0 48, bits (s.reg (sliceAddr i)) 0 30)

/-- The armed entry with the earliest instant, the lowest of equals. -/
def State.nextSlice (s : State) : Option Nat :=
  s.armedSlices.foldl (fun b i => match b with
    | none => some i
    | some j => let x := s.sliceInstant i; let y := s.sliceInstant j
      if x.1 < y.1 ∨ (x.1 = y.1 ∧ x.2 < y.2) then some i else b) none

/-- The entry that is to be taken in this tick, and whether its instant has passed. -/
def State.dueSlice (s : State) : Option (Nat × Bool) :=
  match s.nextSlice with
  | none => none
  | some i =>
    let t := s.instantTick (s.sliceInstant i).1 (s.sliceInstant i).2
    if t ≤ (s.tick.toNat : Int) then some (i, decide (t < (s.tick.toNat : Int))) else none

/-- The slice entries that are due are taken, in order of their instants. -/
def State.takeSlices (s : State) : Nat → State
  | 0 => s
  | n + 1 => match s.dueSlice with
    | none => s
    | some (i, late) => (s.takeSlice i late).takeSlices n

/-- At its tick an entry is taken, the earliest first (R348). What software writes into an entry in this tick stands (R4): such an
entry is taken as the next tick begins. -/
def execSliceSwitch (entry : Nat) (s : State) : Host.Outcome State Fault Refusal :=
  match s.dueSlice with
  | some (i, late) =>
    if i = entry ∧ ¬ s.dbg.sw.contains (sliceAddr i) ∧ ¬ s.dbg.sw.contains (sliceAddr i + 8) then .next (s.takeSlice i late) else .next s
  | none => .next s

end Sys2Proof.Machine
end

