-- ==== Sys2Proof/Machine/Sha.lean ====
section
/-!
DEFINITION. Machine/Sha.lean: SHA-512 and the verification of an RSA-4096 signature, which start-up and attestation use
(R428, R430, R434).
-/
namespace Sys2Proof.Machine

/-! ### SHA-512 -/

/-- The greatest `r` below `2 ^ n` with `f r ≤ x`, for a rising `f`, by its bits from the top. -/
def rootBits (f : Nat → Nat) (x : Nat) : Nat → Nat → Nat
  | 0, r => r
  | n + 1, r => if f (r + 2 ^ n) ≤ x then rootBits f x n (r + 2 ^ n) else rootBits f x n r

/-- The first `n` primes above those of a list, by trial division. -/
def morePrimes : Nat → Nat → List Nat → List Nat
  | 0, _, l => l
  | n + 1, k, l => morePrimes n (k + 1) (if l.any (fun p => decide (k % p = 0)) then l else l ++ [k])

/-- The first 80 primes: those up to 409. -/
def firstPrimes : List Nat := morePrimes 408 2 []

/-- The constants of SHA-512: the first 64 bits of the fractional parts of cube roots, and of square roots, of primes. -/
def shaK : List Word := firstPrimes.map (fun p => BitVec.ofNat 64 (rootBits (fun r => r * r * r) (p * 2 ^ 192) 68 0))
def shaH : List Word := (firstPrimes.take 8).map (fun p => BitVec.ofNat 64 (rootBits (fun r => r * r) (p * 2 ^ 128) 68 0))

def rotr64 (x : Word) (n : Nat) : Word := (x >>> n) ||| (x <<< (64 - n))

/-- The message schedule: a window of sixteen words moves over it. -/
def shaSchedule : Nat → List Word → List Word → List Word
  | 0, _, out => out.reverse
  | n + 1, w, out =>
    let w0 := w.getD 0 0
    let s0 := rotr64 (w.getD 1 0) 1 ^^^ rotr64 (w.getD 1 0) 8 ^^^ (w.getD 1 0 >>> 7)
    let s1 := rotr64 (w.getD 14 0) 19 ^^^ rotr64 (w.getD 14 0) 61 ^^^ (w.getD 14 0 >>> 6)
    shaSchedule n (w.drop 1 ++ [w0 + s0 + w.getD 9 0 + s1]) (w0 :: out)

/-- The eight working values of a round. -/
structure ShaRegs where
  a : Word
  b : Word
  c : Word
  d : Word
  e : Word
  f : Word
  g : Word
  h : Word
  deriving DecidableEq, Repr

def ShaRegs.ofList (l : List Word) : ShaRegs :=
  ⟨l.getD 0 0, l.getD 1 0, l.getD 2 0, l.getD 3 0, l.getD 4 0, l.getD 5 0, l.getD 6 0, l.getD 7 0⟩

def ShaRegs.round (r : ShaRegs) (kw : Word) : ShaRegs :=
  let t1 := r.h + (rotr64 r.e 14 ^^^ rotr64 r.e 18 ^^^ rotr64 r.e 41) + ((r.e &&& r.f) ^^^ (~~~r.e &&& r.g)) + kw
  let t2 := (rotr64 r.a 28 ^^^ rotr64 r.a 34 ^^^ rotr64 r.a 39) + ((r.a &&& r.b) ^^^ (r.a &&& r.c) ^^^ (r.b &&& r.c))
  ⟨t1 + t2, r.a, r.b, r.c, r.d + t1, r.e, r.f, r.g⟩

/-- A big-endian number of a list of bytes, and a number's bytes. -/
def bigNum (l : List Byte) : Nat := l.foldl (fun a b => a * 256 + b.toNat) 0
def bigBytes (n x : Nat) : List Byte := (bytesOfNum n x).reverse

/-- Cuts a list into pieces of `n`. -/
def pieces (n : Nat) : Nat → List Byte → List (List Byte)
  | 0, _ => []
  | k + 1, l => if l.isEmpty then [] else l.take n :: pieces n k (l.drop n)

/-- One block of 128 bytes. -/
def shaBlock (h : List Word) (block : List Byte) : List Word :=
  let w := shaSchedule 80 ((pieces 8 16 block).map (fun b => BitVec.ofNat 64 (bigNum b))) []
  let r := (shaK.zip w).foldl (fun (r : ShaRegs) (kw : Word × Word) => r.round (kw.1 + kw.2)) (ShaRegs.ofList h)
  (h.zip [r.a, r.b, r.c, r.d, r.e, r.f, r.g, r.h]).map (fun e => e.1 + e.2)

/-- SHA-512 of a message of bytes. -/
def sha512 (m : List Byte) : List Byte :=
  let n := m.length
  let msg := m ++ [0x80#8] ++ List.replicate ((239 - n % 128) % 128) 0 ++ bigBytes 16 (8 * n)
  ((pieces 128 (n / 128 + 2) msg).foldl shaBlock shaH).flatMap (fun w => bigBytes 8 w.toNat)

/-! ### RSASSA-PKCS1-v1_5 (RFC 8017) -/

/-- `b ^ e mod m`, over the lowest `n` bits of `e`. -/
def powMod (m : Nat) : Nat → Nat → Nat → Nat
  | 0, _, _ => 1 % m
  | n + 1, b, e =>
    let r := powMod m n (b * b % m) (e / 2)
    if e % 2 = 1 then b * r % m else r

/-- The encoded message of 512 bytes for a digest: the DigestInfo of SHA-512 behind its padding. -/
def pkcs1Encoded (digest : List Byte) : List Byte :=
  let info : List Byte := [0x30, 0x51, 0x30, 0x0D, 0x06, 0x09, 0x60, 0x86, 0x48, 0x01, 0x65, 0x03, 0x04, 0x02, 0x03, 0x05, 0x00,
    0x04, 0x40]
  [0x00, 0x01] ++ List.replicate (512 - 3 - info.length - 64) 0xFF ++ [0x00] ++ info ++ digest

/-- Whether a signature of 512 bytes is that of a digest under a key block: modulus of 512 bytes, exponent of 8 (R430). -/
def rsaVerify (key sig digest : List Byte) : Bool :=
  let n := bigNum (key.take 512)
  let e := bigNum ((key.drop 512).take 8)
  decide (bigNum sig < n ∧ bigBytes 512 (powMod n 64 (bigNum sig) e) = pkcs1Encoded digest)

end Sys2Proof.Machine
end

