-- ==== Sys2Proof/Machine/Boundary.lean ====
section
/-!
DEFINITION. Machine/Boundary.lean: the package at its boundaries: host accesses, Function Level Reset, Sordel ports, power, the
time servo's source, test access, attestation (R15, R379, R421 to R427, R434 to R436). Start-up is in Machine/Startup.lean.
-/
namespace Sys2Proof.Machine

/-! ### What comes from outside -/

/-- The oldest input that `f` takes, and the inputs without it. -/
def takeFirst {α : Type} (f : Input → Option α) : List Input → Option (α × List Input)
  | [] => none
  | i :: t =>
    match f i with
    | some a => some (a, t)
    | none => (takeFirst f t).map (fun r => (r.1, i :: r.2))

def State.takeInput {α : Type} (s : State) (f : Input → Option α) : Option (α × State) :=
  (takeFirst f s.inputs).map (fun r => (r.1, { s with inputs := r.2 }))

/-! ### Host accesses (R422, R423) -/

def fnAddr (f : Nat) : Nat := hubBase + 0x270000 + 0x100 * f
def State.hostCtx (s : State) (f : Nat) : Nat := bits (s.reg (fnAddr f)) 1 6

/-- The mailbox window of a function, by its offset in the management space. -/
def mailbox (f : Nat) : Nat := 0x400000 + 0x100000 * f

/-- The engine class HOST (R368). -/
def hostEng : Nat := 6

/-- Where an inbound access leads: an offset of the management space, a device address, or nowhere. -/
inductive HostPlace where
  | hub (o : Nat)
  | device (pa : Nat)
  | unmapped
  | nothing
  deriving DecidableEq, Repr

/-- The place of `n` bytes at an offset of a BAR of function `f` (R422, R423). In recovery BAR2 answers BOOTSTAT and the mailbox
window of function 0 alone (R429). -/
def State.hostPlace (s : State) (f bar off n : Nat) : HostPlace :=
  if !(s.reg (fnAddr f)).getLsbD 0 || decide (16 < f) then .nothing
  else
    match bar with
    | 0 => if off + n ≤ 0x100000 then .hub (mailbox f + off) else .nothing
    | 2 =>
      let open_ := !s.plat.recovery || (decide (off = 0x272000 ∧ n = 8) || decide (mailbox 0 ≤ off ∧ off + n ≤ mailbox 1))
      if f = 0 && decide (off + n ≤ 0x100000000) && open_ then .hub off else .nothing
    | 4 =>
      let w := s.reg (fnAddr f + 8 + 8 * (off / 2 ^ 32 % 16))
      if 2 ^ 36 < off + n then .nothing
      else if !w.getLsbD 0 then .unmapped
      else
        let pa := bits w 32 20 * 2 ^ 32 + off % 2 ^ 32
        if off % 2 ^ 32 + n > 2 ^ 32 then .unmapped
        else
          (match placeOf s.tagging pa, placeOf s.tagging (pa + n - 1) with
           | .none, _ => .unmapped
           | _, .none => .unmapped
           | .hub o, _ => .hub o
           | _, _ => .device pa)
    | _ => .nothing

/-- The record of an access to nowhere (R423). -/
def State.hostFault (s : State) (f : Nat) : State := s.postCtxFault (s.hostCtx f) (f + 1) 0x11 7 0xFFFF

/-- Whether bytes lie in a mailbox window, where accesses have every size. -/
def inMailbox (o n : Nat) : Bool := decide (0x400000 ≤ o ∧ o + n ≤ 0x400000 + 17 * 0x100000)

/-- An inbound write of the hub's space: mailbox bytes, or a register; one that class 5 denies, or of another size, has no
effect. A 1 written to byte 0x40 of function 0's window asks for an attestation report (R434). -/
def State.hostHubWrite (s : State) (f o : Nat) (data : List Byte) : State :=
  let n := data.length
  if !s.permitted 5 (s.hostCtx f) hostEng .write (hubBase + o) n none then s
  else if inMailbox o n then
    let s := s.setBytes (hubBase + o) data
    let k := mailbox 0 + 0x40
    if o ≤ k ∧ k < o + n ∧ data.getD (k - o) 0 = 1 then s.post .attestationRequest else s
  else if n = 8 ∧ o % 8 = 0 then s.mgmtWrite o (BitVec.ofNat 64 (numOfBytes data))
  else s

/-- An inbound read of the hub's space; none is an Unsupported Request. -/
def State.hostHubRead (s : State) (f o n : Nat) : Option (List Byte) × State :=
  if !s.permitted 5 (s.hostCtx f) hostEng .read (hubBase + o) n none then (none, s)
  else if inMailbox o n then (some (s.mailBytes o n), s)
  else if n = 8 ∧ o % 8 = 0 then let r := s.mgmtRead o; (some (bytesOfNum 8 r.1.toNat), r.2)
  else (none, s)

/-- An inbound write of device memory or of the host segment: a weak store, byte by byte at the serving slice. -/
def State.hostStore (s : State) (f pa : Nat) (data : List Byte) : State :=
  data.zipIdx.foldl (fun s e =>
    (s.serve (s.hostCtx f) hostEng (pa / 0x2000000000) peerLeaf (pa + e.2)
      { mkAcc 0 0 .store 1 (e.1.setWidth 128) 0 with bmask := 1 }).2) (s.countReq pa)

/-- An inbound read at the serving slice. -/
def State.hostLoad (s : State) (f pa n : Nat) : Option (List Byte) × State :=
  (List.range n).foldl (fun (r : Option (List Byte) × State) k =>
    match r.1 with
    | none => r
    | some b =>
      match r.2.serve (s.hostCtx f) hostEng (pa / 0x2000000000) peerLeaf (pa + k) (mkAcc 0 0 .load 1 0 0) with
      | (.done v, s) => (some (b ++ bytesOfNum 1 v.toNat), s)
      | (.fail .., s) => (none, s)) (some [], s.countReq pa)

/-- The page at which a migration keeps an access waiting, for some of its bytes, behind what came before it (R226, R436). -/
def State.hostBlocked (s : State) (write : Bool) (pa n : Nat) : Option Nat := [pa, pa + n - 1].find? (s.migWaits (.host write))

/-- The oldest inbound write is performed, or dropped (R423). -/
def execHostInboundWrite (s : State) : Host.Outcome State Fault Refusal :=
  match s.takeInput (fun i => match i with
      | .hostWrite f bar off data => some (f, bar, off, data)
      | _ => none) with
  | none => .next s
  | some ((f, bar, off, data), t) =>
    match s.hostPlace f bar off data.length with
    | .nothing => .next t
    | .unmapped => .next (t.hostFault f)
    | .hub o => .next (t.hostHubWrite f o data)
    | .device pa =>
      match s.hostBlocked true pa data.length with
      | some at_ => .next (s.migQueue (.host true) at_)
      | none => .next ((t.migLeave (.host true)).hostStore f pa data)

/-- Completes an inbound read. -/
def State.complete (s : State) (r : Option (List Byte)) : State := { s with plat := { s.plat with reads := s.plat.reads ++ [r] } }

/-- Whether an inbound read of the hub's space reads a counter, which answers as the tick ends (R383). -/
def State.hostAsks (s : State) (f o n : Nat) : Bool :=
  decide (n = 8) && isCounter (hubBase + o) && s.permitted 5 (s.hostCtx f) hostEng .read (hubBase + o) n none

/-- The oldest inbound read is answered (R423); a page that a migration blocks keeps it waiting. -/
def execHostInboundRead (s : State) : Host.Outcome State Fault Refusal :=
  match s.takeInput (fun i => match i with
      | .hostRead f bar off len => some (f, bar, off, len)
      | _ => none) with
  | none => .next s
  | some ((f, bar, off, len), t) =>
    match s.hostPlace f bar off len with
    | .nothing => .next (t.complete none)
    | .unmapped => .next ((t.hostFault f).complete none)
    | .hub o =>
      if s.hostAsks f o len then
        (match s.askCounter (2 ^ 21, f) (hubBase + o) with
         | (none, s) => .next s
         | (some v, s) => .next (({ s with inputs := t.inputs } : State).complete (some (bytesOfNum 8 v.toNat))))
      else let r := t.hostHubRead f o len; .next (r.2.complete r.1)
    | .device pa =>
      match s.hostBlocked false pa len with
      | some at_ => .next (s.migQueue (.host false) at_)
      | none => let r := (t.migLeave (.host false)).hostLoad f pa len; .next (r.2.complete r.1)

/-- A Function Level Reset (R424): every context of the function's partition is killed, of function 0 every context, and the
function's registers are cleared to their reset values. -/
def execFunctionLevelReset (s : State) : Host.Outcome State Fault Refusal :=
  match s.takeInput (fun i => match i with | .reset f => some f | _ => none) with
  | none => .next s
  | some (f, s) =>
    if 16 < f then .next s else
    let hit (s : State) (c : Nat) : Bool := (s.reg (ctxEntry c)).getLsbD 0 && (decide (f = 0) || decide (s.ctxPart c = f))
    let s := (List.range 64).foldl (fun s c => if hit s c then s.contextKill c else s) s
    let s := s.setHub { s.hub with msixOpen := s.hub.msixOpen.filter (fun e => decide (e.1 ≠ f)),
                                   msixPend := s.hub.msixPend.filter (fun e => decide (e.1 ≠ f)) }
    .next ((List.range 17).foldl (fun s k => let a := fnAddr f + 8 * k; s.setReg a (mgmtReset a)) s)

/-! ### Attestation (R434) -/

/-- A request is noted; one that comes while a report is due is taken after it. The management controller runs from step 3 of
start-up on. -/
def execAttestationRequest (s : State) : Host.Outcome State Fault Refusal :=
  if bits (s.reg (hubBase + 0x272000)) 0 4 < 3 then .next s
  else .next (({ s with plat := { s.plat with attest := s.plat.attest + 1 } } : State).later .attestationReport)

/-- The report without its signature. -/
def State.attestBody (s : State) : List Byte :=
  s.bytes (hubBase + mailbox 0) 64 ++ bytesOfNum 8 s.tick.toNat ++ sha512 s.plat.rom ++ s.plat.digest ++
    sha512 (s.plat.bootcfg ++ bytesOfNum 8 (s.reg (hubBase + 0x272000)).toNat ++ bytesOfNum 8 (s.reg (hubBase + 0x52040)).toNat) ++
    sha512 s.plat.program

/-- The report is written, and then the request's byte becomes 2. The signature is a free value of the signed bytes (log
entry 14). -/
def execAttestationReport (s : State) : Host.Outcome State Fault Refusal :=
  if s.plat.attest = 0 then .next s
  else
    let b := s.attestBody
    let sig := (List.range 512).map (fun k => (Config.attestSign b).getD k 0)
    let s := s.setBytes (hubBase + mailbox 0 + 0x1000) (b ++ sig)
    let s := s.setByte (hubBase + mailbox 0 + 0x40) 2
    let s := { s with plat := { s.plat with attest := s.plat.attest - 1 } }
    .next (if s.plat.attest = 0 then s else s.later .attestationReport)

/-! ### Sordel ports (R425, R426) -/

/-- RETRAIN: the port trains at full width; its retired lanes are tried again. -/
def execPortRetrain (port : Nat) (s : State) : Host.Outcome State Fault Refusal :=
  if 16 ≤ port ∨ (s.reg (portAddr port)).getLsbD 0 = false then .next s
  else .next ((s.portLeave port 1).setPortField port 9 4 0)

/-- The largest width that a number of lanes allows. -/
def widthOf (n : Nat) : Nat := if 4 ≤ n then 4 else if 2 ≤ n then 2 else n

/-- The width that the lanes of a mask allow. -/
def laneWidth (lanes : Nat) : Nat := widthOf ((List.range 4).filter (fun k => Nat.testBit lanes k)).length

/-- Training ends (R425): the port is up at the largest width that the lanes that pass allow, of those that are not retired, and a
rate; a lane that fails is retired then (log entry 50). With no lane, or none in time, the port is down. -/
def execPortTrainingEnd (s : State) : Host.Outcome State Fault Refusal :=
  match s.takeInput (fun i => match i with | .trained p l r => some (p, l, r) | _ => none) with
  | none => .next s
  | some ((p, l, r), s) =>
    let bad := bits (s.reg (portAddr p)) 9 4
    let w := laneWidth (l &&& (15 ^^^ bad))
    if 16 ≤ p ∨ (s.reg (portAddr p)).getLsbD 0 = false ∨ 2 ≤ s.portState p then .next s
    else if 0 < w ∧ r < 3 then
      let s := (((s.setPortField p 2 2 2).setPortField p 4 3 w).setPortField p 7 2 r).setPortField p 9 4 (bad ||| (15 ^^^ (l % 16)))
      .next (if w < 4 ∨ 0 < r then s.portRecord p else s)
    else
      let was := s.portState p
      let s := s.portLeave p 0
      .next (if was = 1 then s.portRecord p else s)

/-- A lane of a port that is up is retired (R426): the width falls to what the others allow; with none left the port is down. -/
def execLaneRetire (s : State) : Host.Outcome State Fault Refusal :=
  match s.takeInput (fun i => match i with | .laneLost p l => some (p, l) | _ => none) with
  | none => .next s
  | some ((p, l), s) =>
    if 16 ≤ p ∨ 4 ≤ l ∨ s.portState p ≠ 2 then .next s
    else
      let bad := bits (s.reg (portAddr p)) 9 4 ||| 2 ^ l
      let s := s.setPortField p 9 4 bad
      let w := min (s.portWidth p) (laneWidth (15 ^^^ bad))
      if w = s.portWidth p then .next s
      else if w = 0 then .next ((s.portLeave p 0).portRecord p)
      else .next ((s.setPortField p 4 3 w).portRecord p)

/-- A port goes down (R426). -/
def execPortDown (s : State) : Host.Outcome State Fault Refusal :=
  match s.takeInput (fun i => match i with | .portLost p => some p | _ => none) with
  | none => .next s
  | some (p, s) => if p < 16 ∧ s.portState p = 2 then .next ((s.portLeave p 0).portRecord p) else .next s

/-- The link replays a flit whose CRC fails (R426); the event counts on the port's die (R382). -/
def execLinkReplay (s : State) : Host.Outcome State Fault Refusal :=
  match s.takeInput (fun i => match i with | .crcError p => some p | _ => none) with
  | none => .next s
  | some (p, s) => .next (if p < 16 then s.count (0x340 + p / 2) 0x52 1 else s)

/-! ### Power (R15, R427) -/

/-- A supply droop stretches the arithmetic clock of a die. -/
def execSupplyDroop (s : State) : Host.Outcome State Fault Refusal :=
  match s.takeInput (fun i => match i with | .droop d => some d | _ => none) with
  | none => .next s
  | some (d, s) => .next (if d < 8 then { s with plat := { s.plat with droop := Tab.put d true s.plat.droop } } else s)

/-- The supply of a die recovers. -/
def execSupplyRecovery (s : State) : Host.Outcome State Fault Refusal :=
  match s.takeInput (fun i => match i with | .recovered d => some d | _ => none) with
  | none => .next s
  | some (d, s) => .next { s with plat := { s.plat with droop := Tab.del d s.plat.droop } }

/-- The package power averaged over the last 1,000,000 ticks (R427): PNOW shows it; above LIMIT the clock is stretched, until the
average falls below. -/
def execPowerCap (s : State) : Host.Outcome State Fault Refusal :=
  match s.takeInput (fun i => match i with | .power mw => some mw | _ => none) with
  | none => .next s
  | some (mw, s) =>
    let limit := bits (s.reg (hubBase + 0x280000)) 0 12 * 1000
    let s := s.setReg (hubBase + 0x280008) (BitVec.ofNat 64 (min 4095 (mw / 1000)))
    let capped := if limit < mw then true else if mw < limit then false else s.plat.capped
    .next { s with plat := { s.plat with capped := capped } }

/-! ### The servo's source and test access (R379, R435) -/

/-- The first instant, in nanoseconds, that the mapping puts after this tick. -/
def State.nextInstant (s : State) : Int :=
  let anchor : Int := (((s.reg (hubBase + 0x15010)).toNat * 1000000000 + (s.reg (hubBase + 0x15018)).toNat : Nat) : Int)
  let ahead : Int := (s.tick.toNat : Int) + 1 - ((s.reg (hubBase + 0x15008)).toNat : Int)
  anchor - Int.fdiv (-ahead * 2 ^ 40) (2 ^ 40 + ((s.reg (hubBase + 0x15020)).setWidth 32).toInt)

/-- The last instant that seconds and nanoseconds can name. -/
def lastInstant : Int := ((2 ^ 48 - 1) * 1000000000 + 999999999 : Nat)

/-- Whether an update keeps the servo's bound (R379): since its last update, 1 tick for every 2^20 that have passed, at every instant
that is still to come. The two mappings are straight lines, so the first and the last of these instants tell of all between them. No
bound before the first lock (log entry 92). -/
def State.ptpOk (s : State) (atick asec ans rate : Word) : Bool :=
  match s.plat.ptpAt with
  | none => true
  | some t =>
    let old := mapNs (s.reg (hubBase + 0x15008)) (s.reg (hubBase + 0x15010)) (s.reg (hubBase + 0x15018)) (s.reg (hubBase + 0x15020))
    [s.nextInstant, lastInstant].all (fun i =>
      decide ((mapNs atick asec ans rate i - old i).natAbs ≤ (s.tick.toNat - t) / 2 ^ 20))

/-- A PTP message of the source that BOOTCFG selects (R431, R435) updates the mapping while EN is set, within the bound of the servo;
LOCK tells that the error is 100 ticks or less. -/
def execPtpMessage (s : State) : Host.Outcome State Fault Refusal :=
  match s.takeInput (fun i => match i with | .ptp m r => some (m, r) | _ => none) with
  | none => .next s
  | some ((m, r), s) =>
    let ctl := s.reg (hubBase + 0x15000)
    if !ctl.getLsbD 0 || decide (m ≠ s.plat.ptpSel) then .next s
    else
      let set (s : State) (errb : Nat) : State :=
        s.setReg (hubBase + 0x15000) ((ctl &&& 1#64) ||| BitVec.ofNat 64 (errb * 2 ^ 16 + (if errb ≤ 100 then 2 else 0)))
      match r with
      | .lost => .next (set s 0xFFFF)
      | .update atick asec ans rate errb =>
        let sec := asec &&& fieldMask 0 48
        let ns := BitVec.ofNat 64 (ans % 2 ^ 30)
        let r := BitVec.ofNat 64 (rate % 2 ^ 32)
        if !s.ptpOk atick sec ns r then .next s
        else
          let s := if s.plat.ptpAt.isSome || decide (errb ≤ 100) then
              { s with plat := { s.plat with ptpAt := some s.tick.toNat } } else s
          let s := (s.setReg (hubBase + 0x15008) atick).setReg (hubBase + 0x15010) sec
          .next (set ((s.setReg (hubBase + 0x15018) ns).setReg (hubBase + 0x15020) r) (min errb 0xFFFF))

/-- A debug token opens boundary scan and the scan chains, where it is validly signed (log entry 15). -/
def execDebugToken (s : State) : Host.Outcome State Fault Refusal :=
  match s.takeInput (fun i => match i with | .token t => some t | _ => none) with
  | none => .next s
  | some (t, s) => .next { s with plat := { s.plat with scanOpen := s.plat.scanOpen || Config.tokenOk t } }

end Sys2Proof.Machine
end

