-- ==== Sys2Proof/Machine/Startup.lean ====
section
/-!
DEFINITION. Machine/Startup.lean: package reset and start-up (R428 to R433).
-/
namespace Sys2Proof.Machine

/-! ### The firmware image (R430, R431) -/

def Plat.flashByte (p : Plat) (o : Nat) : Byte := Tab.get 0 o p.flash
def Plat.flashBytes (p : Plat) (o n : Nat) : List Byte := (List.range n).map (fun k => p.flashByte (o + k))
def Plat.flashNum (p : Plat) (o n : Nat) : Nat := numOfBytes (p.flashBytes o n)

/-- The sections of an image and its header, by offset and length (R430). -/
structure Image where
  sigLen : Nat
  keyOff : Nat
  hubOff : Nat
  hubLen : Nat
  cfgOff : Nat
  cpOff : Nat
  cpLen : Nat
  deriving DecidableEq, Repr

def Plat.image (p : Plat) : Image :=
  { sigLen := p.flashNum 0x10 8, keyOff := p.flashNum 0x18 8, hubOff := p.flashNum 0x20 8, hubLen := p.flashNum 0x28 8,
    cfgOff := p.flashNum 0x30 8, cpOff := p.flashNum 0x38 8, cpLen := p.flashNum 0x40 8 }

def Image.sections (m : Image) : List (Nat × Nat) := [(m.keyOff, 520), (m.hubOff, m.hubLen), (m.cfgOff, 256), (m.cpOff, m.cpLen)]

/-- Whether two extents share a byte. -/
def meets (a b : Nat × Nat) : Bool := decide (0 < a.2 ∧ 0 < b.2 ∧ a.1 < b.1 + b.2 ∧ b.1 < a.1 + a.2)

/-- Whether no two of some extents share a byte. -/
def apart : List (Nat × Nat) → Bool
  | [] => true
  | a :: t => t.all (fun b => !meets a b) && apart t

/-- The layout check of step 2. -/
def Plat.layoutOk (p : Plat) : Bool :=
  let m := p.image
  decide (p.flashBytes 0 8 = [0x5A, 0x4C, 0x4E, 0x46, 0x57, 0x38, 0x00, 0x00]) && decide (p.flashNum 8 4 = 1) &&
    (p.flashBytes 0x48 184).all (fun b => decide (b = 0)) &&
    [m.sigLen, m.keyOff, m.hubOff, m.cfgOff, m.cpOff].all (fun o => decide (o % 8 = 0)) &&
    m.sections.all (fun e => decide (e.1 + e.2 ≤ m.sigLen)) && apart ((0, 256) :: m.sections) &&
    decide (m.sigLen + 512 ≤ p.flashSize)

/-- The key and signature checks of step 2. -/
def Plat.signatureOk (p : Plat) : Bool :=
  let m := p.image
  let key := p.flashBytes m.keyOff 520
  decide (sha512 key = p.keyDigest) && rsaVerify key (p.flashBytes m.sigLen 512) (sha512 (p.flashBytes 0 m.sigLen))

/-- A word of BOOTCFG. -/
def cfgWord (cfg : List Byte) (o : Nat) : Word := BitVec.ofNat 64 (numOfBytes ((cfg.drop o).take 8))

/-- The bits of BOOTCFG's words that are not reserved (R431). -/
def cfgMasks : List (Nat × Word) :=
  [(0x00, 7), (0x08, 0x7F7F), (0x10, fieldMask 12 40), (0x18, fieldMask 12 40), (0x20, fieldMask 12 45), (0x28, fieldMask 12 40),
   (0x30, fieldMask 3 54), (0x38, fieldMask 0 64), (0x40, fieldMask 3 54), (0x48, 0x1F)]

/-- The check of BOOTCFG in step 3. -/
def cfgOk (cfg : List Byte) : Bool :=
  let base := bits (cfgWord cfg 8) 0 7
  let size := bits (cfgWord cfg 8) 8 7
  cfgMasks.all (fun e => decide (cfgWord cfg e.1 &&& ~~~e.2 = 0)) && (cfg.drop 0x50).all (fun b => decide (b = 0)) &&
    decide (size ≤ 64 ∧ base + size ≤ 96) && (!(cfgWord cfg 0).getLsbD 0 || decide (base + size ≤ 94))

/-! ### The control program (R432) -/

/-- The segments of the control-program section: address and content. None where the records do not fill it exactly. -/
def segments : Nat → List Byte → Option (List (Nat × List Byte))
  | 0, l => if l.isEmpty then some [] else none
  | n + 1, l =>
    if l.isEmpty then some []
    else
      let pa := numOfBytes (l.take 8) % 2 ^ 52
      let len := numOfBytes ((l.drop 8).take 8)
      let room := (len + 7) / 8 * 8
      if l.length < 16 + room then none
      else (segments n (l.drop (16 + room))).map (fun t => (pa, (l.drop 16).take len) :: t)

/-- Whether a segment lies wholly in the HBM of dies that passed, clear of tag storage and of the replicated region. -/
def State.segmentOk (s : State) (dies : BitVec 8) (g : Nat × List Byte) : Bool :=
  let n := g.2.length
  let last := g.1 + n - 1
  decide (n = 0) ||
    (match placeOf s.tagging g.1, placeOf s.tagging last with
     | .hbm d _, .hbm e _ => decide (d = e) && dies.getLsbD d &&
         (decide (s.repSize = 0) || decide (last < s.repBase d ∨ s.repBase d + s.repSize ≤ g.1))
     | _, _ => false)

/-! ### Steps -/

def bootStat : Nat := hubBase + 0x272000

/-- BOOTSTAT after a step, with a failure code. -/
def State.bootStep (s : State) (step fail : Nat) : State :=
  s.setReg bootStat ((s.reg bootStat &&& ~~~0xFF#64) ||| BitVec.ofNat 64 (step + fail * 16))

/-- A failed step leaves the package in recovery. -/
def State.recover (s : State) (step fail : Nat) : State :=
  { s.bootStep step fail with plat := { s.plat with recovery := true } }

/-- The state that a package reset starts from: as `State.reset`, but for what is outside (inputs, the host's memory, flash, fuses,
the dies) and for the model's own fields. -/
def State.resetFrom (s : State) : State :=
  let r := State.reset
  { r with
    mem := s.mem.filter (fun c => decide (hostBase ≤ c.1)), agenda := s.agenda, inputs := s.inputs, pace := s.pace, turn := s.turn, nextId := s.nextId, free := s.free,
    plat := { r.plat with
      flash := s.plat.flash, flashSize := s.plat.flashSize, rom := s.plat.rom, keyDigest := s.plat.keyDigest,
      goodDies := s.plat.goodDies, goodLinks := s.plat.goodLinks, reads := s.plat.reads, hostErrors := s.plat.hostErrors,
      tap := s.plat.tap } }

/-- Steps 5 to 7 (R433, R379): the replicated segment, the servo, function 0, whose EN has its reset value. -/
def State.startUnits (s : State) (cfg : List Byte) (dies : BitVec 8) : State :=
  let w := cfgWord cfg 8
  let s := s.setReg (hubBase + 0x52040) (BitVec.ofNat 64 (bits w 0 7 * 2 ^ 30 + bits w 8 7 * 2 ^ 40))
  let low := ((List.range 8).find? (fun d => dies.getLsbD d)).getD 0
  let s := { s with repl := { Repl.reset with live := dies, coll := low },
                    plat := { s.plat with ptpSel := (cfgWord cfg 0).getLsbD 1 } }
  if (cfgWord cfg 0).getLsbD 2 then s.setReg (hubBase + 0x15000) (s.reg (hubBase + 0x15000) ||| 1#64) else s

/-- Context 0 and the control program's group on control core 0 (R432). -/
def State.startProgram (s : State) (cfg : List Byte) : State :=
  let core := 0x3FC
  let e := ctxEntry 0
  let s := s.setReg e (BitVec.ofNat 64 (3 + bits (cfgWord cfg 0x48) 0 5 * 2 ^ 6 + 2 ^ 12))
  let s := s.setReg (e + 8) (cfgWord cfg 0x10 &&& fieldMask 14 38)
  let s := ((s.setReg (e + 0x10) (cfgWord cfg 0x18)).setReg (e + 0x18) (cfgWord cfg 0x20)).setReg (e + 0x20) (cfgWord cfg 0x28)
  let s := s.setCtx 0 { s.ctx 0 with regs := { (s.ctx 0).regs with trapVec := BitVec.ofNat 54 (bits (cfgWord cfg 0x40) 3 54) } }
  let (cl, s) := s.fresh
  let (t, s) := s.fresh
  let g := groupKey core 0
  let s := s.setCluster cl { Cluster.empty with teams := [t], cores := [core] }
  let s := s.setTeam t { Team.empty with core := core, groups := 1, vregs := 32, localSize := 0x40000, cluster := cl, members := [g] }
  s.setGrp g
    { Group.empty with
      core := core, slot := 0, team := t, vregs := 32, sup := true, flow := .start (BitVec.ofNat 54 (bits (cfgWord cfg 0x30) 3 54)),
      regs := .start 0 0 0 (cfgWord cfg 0x38), sched := { Group.empty.sched with since := s.tick } }

/-- Start-up, step by step (R428). A die that fails step 4 is left out, and FAIL tells of it; with none left the step fails. -/
def State.startUp (s : State) : State :=
  let p := s.plat
  let m := p.image
  if !p.layoutOk then s.recover 1 2
  else if !p.signatureOk then s.recover 1 1
  else
    let cfg := p.flashBytes m.cfgOff 256
    let prog := p.flashBytes m.cpOff m.cpLen
    let s := { s with plat := { p with digest := sha512 (p.flashBytes 0 m.sigLen), bootcfg := cfg, program := prog } }
    if !cfgOk cfg then s.recover 2 2
    else
      let dies := p.goodDies &&& p.goodLinks
      let fail := if p.goodDies ≠ 0xFF then 3 else if p.goodLinks ≠ 0xFF then 4 else 0
      let s := s.setReg bootStat (BitVec.ofNat 64 (dies.toNat * 2 ^ 8 + (if (cfgWord cfg 0).getLsbD 0 then 2 ^ 16 else 0)))
      if dies = 0 then s.recover 3 fail
      else
        let s := s.startUnits cfg dies
        match segments (prog.length / 16 + 1) prog with
        | none => s.recover 7 5
        | some gs =>
          if !gs.all (s.segmentOk dies) then s.recover 7 5
          else
            let s := gs.foldl (fun s g => s.setBytes g.1 g.2) s
            (s.startProgram cfg).bootStep 8 fail

/-- Package reset (R428). -/
def execPackageReset (s : State) : Host.Outcome State Fault Refusal := .next s.resetFrom.startUp

end Sys2Proof.Machine
end

