-- ==== Sys2Proof/Machine/Run.lean ====
section
/-!
DEFINITION. Machine/Run.lean: run choice, instruction fetch, the boundary between two words, and the end of a tick
(R27, R29, R131, R216, R343, R357, R358, R386, R392, R395, R437).
-/
namespace Sys2Proof.Machine

/-! ### Run choice (R343, R344) -/

/-- Whether a group competes for a port. -/
def Group.ready (x : Group) : Bool :=
  x.port.isNone && !x.sched.halted && !x.sched.paused && x.sched.fetch.isNone && x.sched.need.isEmpty &&
    decide (x.sched.susp = .none)

/-- Whether the package issues words: it is neither frozen, nor stopped, nor past the tick of a freeze (R392, R395). -/
def State.issuing (s : State) : Bool :=
  !s.dbg.frozen && !s.dbg.stopped &&
    (match s.dbg.freeze with | some q => decide (s.tick.toNat < q.tick + 64) | none => true)

/-- A group that its own `bkpt` stops before its next word (R389). -/
def State.bkptStops (s : State) (x : Group) : Bool := s.dbg.stops.contains (groupKey x.core x.slot, x.team)

/-- The eligible groups of a core. -/
def State.eligibles (s : State) (core : Nat) : List (Nat × Group) :=
  s.groups.filter (fun e => decide (e.2.core = core) && e.2.ready && !s.bkptStops e.2)

/-- The better of two groups for a port: priority, then age, then slot. -/
def betterRun (a b : Nat × Nat × Nat × Nat) : Bool :=
  -- priority, since, slot, key
  decide (b.1 < a.1 ∨ (a.1 = b.1 ∧ (a.2.1 < b.2.1 ∨ (a.2.1 = b.2.1 ∧ a.2.2.1 < b.2.2.1))))

/-- The group that a free port of a core takes. -/
def State.bestRun (s : State) (core : Nat) : Option Nat :=
  ((s.eligibles core).foldl (fun b e =>
    let k := (s.effPrio e.1, e.2.sched.since.toNat, e.2.slot, e.1)
    match b with
    | some m => if betterRun k m then some k else b
    | none => some k) (none : Option (Nat × Nat × Nat × Nat))).map (fun k => k.2.2.2)

/-- A free port takes a group. -/
def State.takeRun (s : State) (core : Nat) (port : Bool) : State :=
  if (s.port core port).slot.isSome then s
  else match s.bestRun core with
    | none => s
    | some g =>
      let s := s.setPort core port { slot := some (s.grp g).slot, waiting := false, since := s.tick.toNat }
      s.updGrp g (fun x => { x with port := some port })

/-- The cores with groups, and their ports. -/
def State.ports (s : State) : List (Nat × Bool) :=
  (s.groups.map (fun e => e.2.core)).dedup.flatMap (fun c => [(c, false), (c, true)])

/-- Whether a port was given to a run in this tick, of which no word has issued yet. -/
def State.justChosen (s : State) (p : Port) : Bool :=
  p.slot.isSome && !p.used && !p.waiting && decide (p.since = s.tick.toNat)

/-- A group that becomes eligible in the tick in which a port chooses takes part in that choice (R351): ports whose run was chosen in
this tick, and has issued no word, choose again. -/
def State.rechoose (s : State) : State :=
  if !s.issuing then s
  else s.ports.foldl (fun s p =>
    if s.justChosen (s.port p.1 p.2) then
      (match (s.port p.1 p.2).slot with
       | some k => (s.releasePort (groupKey p.1 k)).takeRun p.1 p.2
       | none => s)
    else s) s

/-- A run choice; of two free ports, port 0 takes first. -/
def execRunChoice (core port : Nat) (s : State) : Host.Outcome State Fault Refusal :=
  if !s.issuing || decide (2 ≤ port) then .next s
  else
    let s := if port = 1 then s.takeRun core false else s
    let s := s.takeRun core (decide (port = 1))
    .next { s with focusCore := core, focusPort := decide (port = 1) }

/-! ### Instruction fetch (R216, R358) -/

/-- The line of an instruction cache, while its lease lasts. -/
def State.iline (s : State) (core pa : Nat) : Option ILine :=
  match Tab.find? (pa / 128) (s.core core).icache with
  | some l => if s.tick.toNat < l.expiry then some l else none
  | none => none

/-- The next word of a group, where the instruction cache holds it. -/
def State.cachedWord (s : State) (x : Group) : Option (Word × State) :=
  match s.fetchReach x with
  | (.ok pa _, t) => (s.iline x.core pa).map (fun l => (wordOfBytes ((l.data.drop (pa % 128)).take 8), t))
  | _ => none

/-- Fills a line of an instruction cache with a lease (R212, R216). -/
def State.fillLine (s : State) (x : Group) (leaf : Word) (pa0 : Nat) : State :=
  let pa := s.forwardPa pa0
  let die := s.servingDie leaf (s.writeDie x.core pa) pa false
  let t := s.leaseEnd x.core x.ctx leaf pa
  let s := ((s.raiseLexp pa die t).l2Touch pa die false).countReq pa0
  s.icachePut x.core (pa0 / 128) { data := s.bytes (pa / 128 * 128) 128, expiry := t }

/-- A fetch that is refused or denied (R358): records for every active lane, which settle at once, or with no lane active an
immediate trap. -/
def State.fetchFail (s : State) (g : Nat) (cause detail : Nat) : State :=
  let x := s.grp g
  let va : Word := (x.flow.pc.setWidth 64) <<< 3
  if x.flow.mask = 0 then
    s.takeTrap g { cause := cause, info := BitVec.ofNat 64 detail, addr := va, lanes := 0, pc := x.flow.pc, resume := x.flow.pc }
  else (s.updGrp g (fun x => x.deferLanes x.flow.mask cause detail va x.flow.pc)).settle g

/-- The fetch of a group's next word into the instruction cache. -/
def State.fetch (s : State) (g : Nat) : State :=
  let x := s.grp g
  let r := s.fetchReach x
  let s := r.2
  match r.1 with
  | .fail c d => s.fetchFail g c d
  | .park f => s.fetchPark g f
  | .ok pa leaf =>
    let home := s.forwardPa pa
    let me : Ticket := .word g x.flow.pc
    if s.migWaits me pa then s.migQueue me pa
    else
      let s := s.migLeave me
      match placeOf s.tagging home with
      | .hbm d _ =>
        if !s.permitted 0 x.ctx 0 .read (home / 128 * 128) 128 none then s.fetchFail g 0x11 1
        else if !s.tagsFit leaf (BitVec.ofNat 64 (8 * x.flow.pc.toNat)) home 8 then s.fetchFail g 0x12 1
        else if Tab.get false (lineKey home d) s.sys.poison then s.fetchFail g 0x16 1
        else (s.fillLine x leaf pa).heatCount x.core false [(pa, leaf)]
      | .hub _ => s.fetchFail g 0x15 1
      | _ => s.fetchFail g 0x11 7

def execInstructionFetch (grp : Nat) (s : State) : Host.Outcome State Fault Refusal :=
  if s.hasGrp grp && !(s.grp grp).sched.halted && (s.grp grp).sched.fetch.isNone then .next (s.fetch grp) else .next s

/-- An unassigned opcode (R78, R86): ILLEGAL_OP by the first check. -/
def execUnassignedOpcode (w : Word) (s : State) : Host.Outcome State Fault Refusal :=
  word (.unassignedOpcode w) s (fun s _ _ => (s, .on))

/-! ### The boundary between two words (R189, R437) -/

/-- The pending trap that a boundary takes: while a trap is active only one that was not held behind it, which is then a double
trap (R196). -/
def Group.pendingTrap (x : Group) : Option Nat :=
  x.pending.findIdx? (fun p => !(x.trap.active && p.held))

/-- Takes a pending trap: the word at the boundary is its resume point; a checkpoint's REPLAY_DIVERGE names that word (R417), the
others the word that raised them (R437). -/
def State.takePending (s : State) (g i : Nat) : State :=
  let x := s.grp g
  match x.pending[i]? with
  | none => s
  | some p =>
    (s.updGrp g (fun x => { x with pending := x.pending.eraseIdx i })).takeTrap g
      { cause := p.cause, info := p.info, addr := p.addr, lanes := p.lanes,
        pc := if p.next then x.flow.pc else p.pc, resume := x.flow.pc }

/-- What a step does: it settles into a state, or runs an instruction in a state. -/
inductive Plan where
  | settled (s : State)
  | run (i : Instr) (s : State)
  deriving DecidableEq, Repr

/-- Whether a replaying group waits for the checkpoint of its `fence.sys`, before its next word (R400, R417). -/
def State.checkHeld (s : State) (x : Group) : Bool :=
  decide ((s.team x.team).rrMode = 2) && x.mem.fences.any (fun f => f.each && decide (f.scope = .system))

/-- Whether deferred records settle before the word at a boundary (R189). -/
def settlesFirst (control : Bool) (w : Word) : Bool :=
  match parse control w with
  | .ok i => i.settlesBefore
  | .error _ => opcodeSettles control w

/-- The next word of group `g`, or what comes before it: a pending trap, a fetch, a decode trap. A bound word goes on with its
next micro-operation (R315). -/
def State.planWord (s : State) (g : Nat) : Plan :=
  let x := s.grp g
  match x.q.word with
  | some i => .run i s
  | none =>
    -- records that a late failure made settle at this boundary (R189, R205)
    if x.settleAfter then .settled (s.settle g)
    else
      match x.pendingTrap with
      | some i =>
        if x.dueDefs.isEmpty then .settled (s.takePending g i)
        else
          -- records that settle before the word at the boundary go first
          (match s.cachedWord x with
           | some (w, t) => .settled (if settlesFirst (isControl x.core) w then t.settle g else t.takePending g i)
           | none => .run (.instructionFetch g) s)
      | none =>
        if s.checkHeld x then .settled (s.retire g false .wait)
        else
          match s.cachedWord x with
          | none => .run (.instructionFetch g) s
          | some (w, t) => match parse (isControl x.core) w with
            | .ok i => .run i t
            | .error e => .settled (if !x.dueDefs.isEmpty && opcodeSettles (isControl x.core) w then t.settle g else t.decodeTrap g e)

/-- The group that may issue on the port in focus. -/
def State.focusGroup (s : State) : Option Nat :=
  match s.issuer with
  | none => none
  | some g =>
    let x := s.grp g
    if s.issuing && s.hasGrp g && !s.bkptStops x && !x.sched.halted && !x.sched.paused then some g else none

/-- The next port with a group after the one in focus. -/
def State.nextFocus (s : State) : State :=
  let busy := s.ports.filter (fun p => (s.port p.1 p.2).slot.isSome)
  let after := busy.dropWhile (fun p => decide (p ≠ (s.focusCore, s.focusPort)))
  match (after.drop 1 ++ busy).head? with
  | some p => { s with focusCore := p.1, focusPort := p.2 }
  | none => s

/-- A free port for which a group is eligible. -/
def State.freePort (s : State) : Option (Nat × Bool) :=
  if !s.issuing then none
  else s.ports.find? (fun p => (s.port p.1 p.2).slot.isNone && !(s.eligibles p.1).isEmpty)

/-- The word on the port in focus. -/
def State.tryWord (s : State) : Option Plan := s.focusGroup.map s.planWord

/-- Whether an event goes on while the package is frozen (R392, R393): the management controller serves the host and the debug
registers, ports keep their links, requests of peers are answered; the supply, the servo and activity records go on. -/
def whileFrozen (i : Instr) : Bool :=
  match i with
  | .resume | .dump | .resumeGroup .. | .freeze | .freezeStop | .stopOnTick | .packageReset | .hostInboundWrite | .hostInboundRead
  | .functionLevelReset | .contextKill _ | .attestationRequest | .attestationReport | .debugToken | .ptpMessage | .supplyDroop
  | .supplyRecovery | .powerCap | .portRetrain _ | .portTrainingEnd | .laneRetire | .portDown | .linkReplay
  | .peerRequestAtTarget .. | .activityLatch | .activityRingWrite _ | .activityRingConfigWrite .. | .activityDropRead _
  | .registerWrite .. | .qcfgWrite .. | .eventQueueConfigWrite .. | .eventQueueDropRead | .counterTick .. | .counterWrite ..
  | .actkWrite _ | .rrcfgWrite .. | .fbdropRead .. | .holdPeakRead _ | .hbmUncorrectableError _ => true
  | _ => false

/-- Whether an event may happen now: while the package is stopped only its reset (R395). -/
def State.mayHappen (s : State) (i : Instr) : Bool :=
  if s.dbg.stopped then decide (i = .packageReset) else !s.dbg.frozen || whileFrozen i

/-- The oldest event that the hardware may perform by itself. -/
def State.tryEvent (s : State) : Option Plan :=
  match s.pending.find? s.mayHappen with
  | some e => some (.run e { s with pending := s.pending.erase e })
  | none => none

/-- A run choice, or the focus on another port. -/
def State.tryChoice (s : State) : Option Plan :=
  match s.freePort with
  | some p => some (.run (.runChoice p.1 (if p.2 then 1 else 0)) s)
  | none => none

/-- What the next step does. The agenda goes first: `none` in it is a word on the port in focus, and an event that may not happen
yet waits. Otherwise words, events and run choices take turns. -/
def State.plan (s : State) : Plan :=
  match s.agenda with
  | some e :: t =>
    if s.mayHappen e then .run e { s with agenda := t }
    else .settled (if s.dbg.stopped then { s with agenda := t } else ({ s with agenda := t } : State).later e)
  | none :: t => ((({ s with agenda := t } : State).tryWord)).getD (.settled { s with agenda := t })
  | [] =>
    let tries : List (Option Plan) := match s.turn % 3 with
      | 0 => [s.tryWord, s.tryEvent, s.tryChoice]
      | 1 => [s.tryEvent, s.tryChoice, s.nextFocus.tryWord]
      | _ => [s.tryChoice, s.nextFocus.tryWord, s.tryEvent]
    (tries.findSome? id).getD (.settled s)

/-! ### The end of a tick -/

/-- Whether a waiting read may complete (R267): its word as it stands satisfies the compare, its deadline has come, 4,096
ticks have passed, or a counter has answered it. -/
def State.waitvRipe (s : State) (x : Group) : Bool :=
  match x.sched.susp with
  | .waitv i va cc cmp dl _ none =>
    let due := match dl with | some t => decide (t ≤ s.tick) | none => false
    let now := match s.translate x.core x.ctx (vaOf va) false with
      | (w, t) => match t.resolve x.core x.ctx x.sup (vaOf va) .read (waitKind i.seg) w with
        | .ok pa _ => icmpHolds cc (decide (i.sz = 8)) (BitVec.ofNat 64 (match placeOf t.tagging pa with
            | .hub o => ((t.mgmtRead o).1).toNat % 2 ^ (8 * i.sz)
            | _ => t.load (t.forwardPa pa) i.sz)) cmp
        | _ => false
    due || now || decide (s.tick.toNat % 4096 = 0) || s.dbg.ctrReads.any (fun r => decide (r.who = (groupKey x.core x.slot, x.team)))
  | _ => false

/-- What a suspended group is due for in this tick. -/
def State.suspDue (s : State) (g : Nat) (x : Group) : List Instr :=
  match x.sched.susp with
  | .sleep d => if d ≤ s.tick then [.sleepDeadline g] else []
  | .waitv .. => if s.waitvRipe x then [.waitvRecheck g] else []
  | .mbar _ _ _ pa gen true none => if s.mbarGen pa = gen ∧ ¬ s.hub.mbarGone.contains g then [] else [.mbarRelease pa]
  | .vwait .. => [.vwaitComplete g]
  | .qload .. => [.qloadComplete g]
  | _ => []

/-- The arrivals of groups whose release at a barrier is performed. -/
def State.arrivals (s : State) : State :=
  s.groups.foldl (fun s e => match e.2.sched.susp with
    | .bar .. | .cbar .. => s.tryArrive e.1
    | .mbar .. => s.mbarTry e.1
    | _ => s) s

/-- The change of ACTK at its tick (R386). -/
def State.actkTurn (s : State) : State :=
  match s.dbg.actk with
  | some (t, v) => if t ≤ s.tick.toNat then { s with dbg := { s.dbg with actk := none, actNow := v } } else s
  | none => s

/-- The event that takes an input; what the host does to its own memory is no event of the package. -/
def inputEvent (i : Input) : Option Instr :=
  match i with
  | .hostWrite .. => some .hostInboundWrite
  | .hostRead .. => some .hostInboundRead
  | .reset _ => some .functionLevelReset
  | .ptp .. => some .ptpMessage
  | .token _ => some .debugToken
  | .power _ => some .powerCap
  | .droop _ => some .supplyDroop
  | .recovered _ => some .supplyRecovery
  | .crcError _ => some .linkReplay
  | .laneLost .. => some .laneRetire
  | .portLost _ => some .portDown
  | .trained .. => some .portTrainingEnd
  | .flit p .. => some (.publicationFlitArrival p 0)
  | .pubAck p f => some (.publicationAck p f)
  | .hostMemory .. | .hostError .. | .hostHealed _ | .msixMask .. | .flashWrite .. | .tap _ => none

/-- A vector is masked or unmasked (R424): an unmasked one that is pending is sent. -/
def State.maskVector (s : State) (fn vec : Nat) (masked : Bool) : State :=
  let k := (fn, vec)
  let others := s.hub.msixOpen.filter (fun e => decide (e ≠ k))
  if masked then s.setHub { s.hub with msixOpen := others }
  else if s.hub.msixPend.contains k then
    s.setHub { s.hub with msixOpen := k :: others, msixPend := s.hub.msixPend.filter (fun e => decide (e ≠ k)), msix := s.hub.msix ++ [k] }
  else s.setHub { s.hub with msixOpen := k :: others }

/-- The test access port (R435): a bypass delays what is shifted by one bit, IDCODE reads its number; boundary scan, and the scan
chains after a stop on a named tick, are open after a token, and what they hold is a free value (log entry 15). -/
def State.tapShift (s : State) (op : TapOp) : State :=
  let out (s : State) (v : Option Word) : State := { s with plat := { s.plat with tap := s.plat.tap ++ [v] } }
  match op with
  | .bypass w => out s (some (w <<< 1))
  | .idcode => out s (some 0x1D8A30C5)
  | .boundaryScan => if s.plat.scanOpen then let r := s.freeVal; out r.2 (some r.1) else out s none
  | .scanChains => if s.plat.scanOpen && s.dbg.stopped then let r := s.freeVal; out r.2 (some r.1) else out s none

/-- What is shifted while the package is stopped (R395, R435). -/
def State.tapTurn (s : State) : State :=
  let ops := s.inputs.filterMap (fun i => match i with | .tap o => some o | _ => none)
  if ops.isEmpty then s
  else ops.foldl State.tapShift { s with inputs := s.inputs.filter (fun i => match i with | .tap _ => false | _ => true) }

/-- What the host does without an event of the package: it writes its own memory, and reads of a range complete in error, or again
without (R16, R260); it masks vectors (R424); in recovery it writes the flash through the mailbox (R429, log entry 79); the test
access port is used (R435). -/
def State.hostChange (s : State) (i : Input) : State :=
  match i with
  | .hostMemory off data => if off + data.length ≤ hostBase then s.setBytes (hostBase + off) data else s
  | .hostError off n => { s with plat := { s.plat with hostErrors := s.plat.hostErrors ++ [(off, n)] } }
  | .hostHealed off => { s with plat := { s.plat with hostErrors := s.plat.hostErrors.filter (fun e => decide (e.1 ≠ off)) } }
  | .msixMask fn vec m => s.maskVector fn vec m
  | .flashWrite off data =>
    if s.plat.recovery && decide (off + data.length ≤ s.plat.flashSize) then
      { s with plat := { s.plat with flash := data.zipIdx.foldl (fun f b => Tab.set 0 (off + b.2) b.1 f) s.plat.flash } }
    else s
  | .tap op => s.tapShift op
  | _ => s

/-- The changes that have come and are no events, in order. -/
def State.hostChanges (s : State) : State :=
  let t := s.inputs.foldl State.hostChange s
  { t with inputs := s.inputs.filter (fun i => (inputEvent i).isSome) }

/-- Ports that have trained for 10,000,000 ticks end their training down (R425). -/
def State.trainingDue (s : State) : State :=
  let l := s.plat.trainAt.filter (fun e => decide (e.2 + 10000000 ≤ s.tick.toNat))
  { s with
    inputs := s.inputs ++ (l.filter (fun e => decide (s.portState e.1 = 1))).map (fun e => .trained e.1 0 0),
    plat := { s.plat with trainAt := s.plat.trainAt.filter (fun e => !decide (e.2 + 10000000 ≤ s.tick.toNat)) } }

/-- Timers of the fabric that have run out (R301, R302, R375). -/
def State.dueFabric (s : State) : List Instr :=
  let now := s.tick.toNat
  s.fab.reqs.flatMap (fun q =>
    (if q.reissueDue now then [.peerReissue q.id] else []) ++ (if q.timeoutDue now then [.peerTimeout q.id] else []) ++
      (if q.state = PeerState.busy ∧ q.due ≤ now then [.peerBusyRetry q.id] else [])) ++
    s.fab.pubs.flatMap (fun p =>
      if p.sent < p.len then []
      else (if p.tries < 3 ∧ p.first + 20000 * (p.tries + 1) ≤ now then [.peerReissue p.id] else []) ++
        (if p.first + 60800 ≤ now then [.peerTimeout p.id] else [])) ++
    (s.fab.cache.filter (fun c => decide (c.expiry ≤ now))).map (fun c => .replyCacheExpiry c.id)

/-- Timers of record and replay that have run out (R397, R398). -/
def State.dueOrder (s : State) : List Instr :=
  let now := s.tick.toNat
  (s.dbg.open_.filter (fun k => decide (k.touched + 4096 ≤ now))).map (fun k => .orderChunkTimeout k.ctx k.unit) ++
    s.dbg.replay.flatMap (fun r => ((r.2.held.filter (fun h => decide (h.mode = 2 ∧ h.tick + 1000000 ≤ now) && !h.late)).map
      (fun h => h.grp)).dedup.map (fun g => .orderGateTimeout r.1 g))

/-- Leases that end in this tick, by core and line. -/
def State.dueLeases (s : State) : List Instr :=
  s.cores.flatMap (fun c => ((c.2.l1.filter (fun e => decide (e.2.expiry = s.tick.toNat))).map (fun e => e.1 / 4)).dedup.map
    (fun l => .leaseExpiry c.1 l))

/-- What happens at fixed intervals: the dies' reports and the page-heat counts (R287, R370). -/
def State.duePeriodic (s : State) : List Instr :=
  (if s.tick.toNat % 128 = 0 ∧ s.repl.live ≠ 0 then [.settledReport] else []) ++
    (if s.tick.toNat % 4096 = 0 then ((s.sys.heat.map (fun e => e.1 % 32 / 2)).dedup.map (fun d => .heatFlush d)) else [])

/-- The events that a tick brings to a package that is not frozen. -/
def State.dueEvents (s : State) : List Instr :=
  s.groups.flatMap (fun e => s.suspDue e.1 e.2) ++ s.duePlacement ++ s.dueRestores ++
    (s.hub.buckets.filter (fun b => decide (b.opened + 4096 ≤ s.tick.toNat) && !b.closed)).map
      (fun b => .bucketCloseTimeout b.queue b.key.toNat) ++
    s.stuckDies.map (fun d => .membershipRemove d) ++ s.dueFabric ++ s.dueOrder ++ s.dueLeases ++ s.duePeriodic

/-- The events that a tick brings to every package: what has come from outside, and the ends of a freeze. -/
def State.dueAlways (s : State) : List Instr :=
  s.inputs.filterMap inputEvent ++ (if s.freezeDue && !s.dbg.frozen then [.freezeStop] else []) ++
    (match s.dbg.frozen, s.dbg.resumeAt with
     | true, some t => if t ≤ s.tick.toNat then [.resume] else []
     | _, _ => [])

/-- What the counters of time take of a tick (R382). -/
def State.countTick (s : State) : State :=
  let live := (List.range 8).filter (fun d => (s.reg (hubBase + 0x272000)).getLsbD (8 + d))
  let each (l : List Nat) (ev : Nat) (s : State) : State := l.foldl (fun s u => s.count u ev 1) s
  let die (d : Nat) : Nat := 0x340 + d
  let s := each (s.groups.map (fun e => e.2.core)).dedup 0x01 s
  let s := each (s.dbg.replay.flatMap (fun r => r.2.held.map (fun h => h.grp / 64))).dedup 0x17 s
  let s := each ((s.sys.reqs.filter (fun q => decide (q.state = .held))).map (fun q =>
    die (match q.accs with | a :: _ => a.pa / 0x2000000000 | [] => 0))) 0x42 s
  let s := each ((s.sys.reqs.filter (fun q => decide (q.state = .sent ∧ pteKind q.leaf = 3) && (match q.accs with
    | a :: _ => decide (a.acc.op = .load) && s.lineStalls (s.issueDie q.core) (a.pa / 128 * 128 - s.repBase (s.issueDie q.core))
    | [] => false))).map (fun q => die (s.issueDie q.core))) 0x4C s
  let s := each ((s.fab.reqs.filter (fun q => decide (q.state = .queued) && decide (8 ≤ s.slotsUsed q.pkg q.die))).map
    (fun q => die q.die)) 0x51 s
  let s := s.repl.dies.foldl (fun s r => if r.2.hold.isEmpty then s else s.count (die r.1) 0x4B r.2.hold.length) s
  let s := each ((live.filter (fun d => s.plat.capped || Tab.get false d s.plat.droop)).map die) 0x54 s
  let s := if s.plat.capped then each (live.map die) 0x55 s else s
  let s := if s.dbg.frozen then each (live.map die) 0x56 s else s
  if s.hub.queues.all (fun q => q.2.waiting.isEmpty) then s else s.count 0x348 0xC1 1

/-- What an event that may be one of a recall leaves. -/
def State.recallEvent (s : State) (e : Instr) : State :=
  let r : Host.Outcome State Fault Refusal := match e with
    | .l2SliceRequest q l => execL2SliceRequest q l s
    | .atomicAtHome q l => execAtomicAtHome q l s
    | .strongHoldRelease q => execStrongHoldRelease q s
    | .peerRequestAtTarget src seq pa part op => execPeerRequestAtTarget src seq pa part op s
    | .copyEngineTransfer c row => execCopyEngineTransfer c row s
    | .gatherEngineTransfer c lane => execGatherEngineTransfer c lane s
    | .matrixWordExecute c t => execMatrixWordExecute c t s
    | .gridComplete k => execGridComplete k s
    | _ => .next s
  match r with
  | .next t => t
  | _ => s

/-- The event with which a unit goes on with its word. -/
def State.unitEvent (s : State) (id : Nat) : Option Instr :=
  match s.eng? id with
  | some c => c.follow.map c.event
  | none =>
    match List.find? (fun (e : Nat × Team) => e.2.mx.any (fun m => decide (m.id = id))) s.teams with
    | some e => some (.matrixWordExecute e.2.core e.1)
    | none =>
      match s.hub.grids.find? (fun (k : Grid) => decide (k.id = id)) with
      | some k => some (.gridComplete k.id)
      | none => none

/-- One that waits for a recall goes on. -/
def State.recallOne (s : State) (r : Recaller) : State :=
  match r with
  | .event e => s.recallEvent e
  | .arrival g => s.mbarTry g
  | .unit id => match s.unitEvent id with
    | some e => s.recallEvent e
    | none => s

/-- The recalls of a tick (R228): the writes of the tick to what their own die holds have gone first; of the others those of lower
ranks go first. -/
def State.recallTurn (s : State) : State :=
  let l := if s.dbg.frozen then [] else s.sys.recalls
  let ranks := sortNat ((l.map Prod.fst).dedup)
  let s := s.setSys { s.sys with recalls := if s.dbg.frozen then s.sys.recalls else [], recallNow := true }
  let s := (ranks.flatMap (fun k => (l.filter (fun e => decide (e.1 = k))).map Prod.snd)).foldl State.recallOne s
  let s := s.drainRecords
  s.setSys { s.sys with recallNow := false }

/-- The reads of counters that were served in this tick are answered with the state of all of it (R383). -/
def State.tickReads (s : State) : State :=
  ((s.sys.reqs.filter (fun q => decide (q.state = .tickEnd))).foldl (fun s q => s.performReq q q.accs) s).answerCounters

/-- The end of a tick: the launch words are checked, after the tick's writes (R351); recalls are made; activity records latch, reads of counters are
answered, the counters take the tick's events; the next tick begins, and what it brings is queued. While the package is stopped
there is no tick. -/
def State.endTick (s : State) : State :=
  if s.dbg.stopped then s.tapTurn
  else
    let s := (if s.dbg.frozen then s else s.launchAll).recallTurn.countTick.latchAll.tickReads.closeCounters.dropPosts
    let s := ({ s with tick := s.tick + 1 } : State).actkTurn.stopNow.hostChanges
    let s := ({ s.setSys { s.sys with leaseWas := [], reports := [] } with dbg := { s.dbg with hw := [], sw := [] } } : State).drainRecords
    let s := s.dueAlways.foldl State.later s
    if s.dbg.frozen then { s with dbg := { s.dbg with frozenTicks := s.dbg.frozenTicks + 1 } }
    else
      let s := (s.takeSlices 256).arrivals.watchStuck.markReady.trainingDue
      s.dueEvents.foldl State.later s

/-- The end of a step: ports that have chosen in this tick choose again among what is eligible now, and the ticks that the step lasts
end. -/
def State.pass (s : State) : State :=
  (List.range s.pace).foldl (fun s _ => s.endTick) ({ s with turn := s.turn + 1 } : State).rechoose

end Sys2Proof.Machine
end

