-- ==== Sys2Proof/Machine/Dispatch.lean ====
section
/-!
DEFINITION. Machine/Dispatch.lean: one arm for each instruction: a direct call of its meaning.
-/
namespace Sys2Proof.Machine

/-- What an instruction does. -/
def exec (i : Instr) (s : State) : Host.Outcome State Fault Refusal :=
  match i with
  | .iadd h f d a b => Sys2Proof.Machine.execIadd h f d a b s
  | .iaddImm h f d a imm => Sys2Proof.Machine.execIaddImm h f d a imm s
  | .isub h f d a b => Sys2Proof.Machine.execIsub h f d a b s
  | .isubImm h f d a imm => Sys2Proof.Machine.execIsubImm h f d a imm s
  | .imul h f d a b => Sys2Proof.Machine.execImul h f d a b s
  | .imulImm h f d a imm => Sys2Proof.Machine.execImulImm h f d a imm s
  | .imulh h ty d a b => Sys2Proof.Machine.execImulh h ty d a b s
  | .imad h f d a b c => Sys2Proof.Machine.execImad h f d a b c s
  | .imin h ty d a b => Sys2Proof.Machine.execImin h ty d a b s
  | .iminImm h ty d a imm => Sys2Proof.Machine.execIminImm h ty d a imm s
  | .imax h ty d a b => Sys2Proof.Machine.execImax h ty d a b s
  | .imaxImm h ty d a imm => Sys2Proof.Machine.execImaxImm h ty d a imm s
  | .iabs h wide sat d a => Sys2Proof.Machine.execIabs h wide sat d a s
  | .ineg h wide sat d a => Sys2Proof.Machine.execIneg h wide sat d a s
  | .iaddc h f d a b c => Sys2Proof.Machine.execIaddc h f d a b c s
  | .isubb h f d a b c => Sys2Proof.Machine.execIsubb h f d a b c s
  | .shl h f d a b => Sys2Proof.Machine.execShl h f d a b s
  | .shlImm h f d a imm => Sys2Proof.Machine.execShlImm h f d a imm s
  | .shr h f d a b => Sys2Proof.Machine.execShr h f d a b s
  | .shrImm h f d a imm => Sys2Proof.Machine.execShrImm h f d a imm s
  | .sar h f d a b => Sys2Proof.Machine.execSar h f d a b s
  | .sarImm h f d a imm => Sys2Proof.Machine.execSarImm h f d a imm s
  | .rot h ty d a b => Sys2Proof.Machine.execRot h ty d a b s
  | .rotImm h ty d a imm => Sys2Proof.Machine.execRotImm h ty d a imm s
  | .and h ty d a b => Sys2Proof.Machine.execAnd h ty d a b s
  | .andImm h ty d a imm => Sys2Proof.Machine.execAndImm h ty d a imm s
  | .or h ty d a b => Sys2Proof.Machine.execOr h ty d a b s
  | .orImm h ty d a imm => Sys2Proof.Machine.execOrImm h ty d a imm s
  | .xor h ty d a b => Sys2Proof.Machine.execXor h ty d a b s
  | .xorImm h ty d a imm => Sys2Proof.Machine.execXorImm h ty d a imm s
  | .andn h ty d a b => Sys2Proof.Machine.execAndn h ty d a b s
  | .not h ty d a => Sys2Proof.Machine.execNot h ty d a s
  | .lea h f d a b => Sys2Proof.Machine.execLea h f d a b s
  | .movi h ty d imm => Sys2Proof.Machine.execMovi h ty d imm s
  | .movhi h f d a imm => Sys2Proof.Machine.execMovhi h f d a imm s
  | .mov h d a => Sys2Proof.Machine.execMov h d a s
  | .sel h d a b c => Sys2Proof.Machine.execSel h d a b c s
  | .icmp h f d a b => Sys2Proof.Machine.execIcmp h f d a b s
  | .icmpImm h f d a imm => Sys2Proof.Machine.execIcmpImm h f d a imm s
  | .popc h ty d a => Sys2Proof.Machine.execPopc h ty d a s
  | .clz h ty d a => Sys2Proof.Machine.execClz h ty d a s
  | .ctz h ty d a => Sys2Proof.Machine.execCtz h ty d a s
  | .brev h ty d a => Sys2Proof.Machine.execBrev h ty d a s
  | .bfx h ty d a c => Sys2Proof.Machine.execBfx h ty d a c s
  | .bfi h ty d a b c => Sys2Proof.Machine.execBfi h ty d a b c s
  | .permb h d a b c => Sys2Proof.Machine.execPermb h d a b c s
  | .permbImm h d a imm => Sys2Proof.Machine.execPermbImm h d a imm s
  | .pand h f d a b => Sys2Proof.Machine.execPand h f d a b s
  | .por h f d a b => Sys2Proof.Machine.execPor h f d a b s
  | .pxor h f d a b => Sys2Proof.Machine.execPxor h f d a b s
  | .pnot h d a => Sys2Proof.Machine.execPnot h d a s
  | .pmov h beat d a => Sys2Proof.Machine.execPmov h beat d a s
  | .shfl h m d a b => Sys2Proof.Machine.execShfl h m d a b s
  | .bcast h d a b => Sys2Proof.Machine.execBcast h d a b s
  | .vote h m d a => Sys2Proof.Machine.execVote h m d a s
  | .redux h f d a => Sys2Proof.Machine.execRedux h f d a s
  | .scan h f d a => Sys2Proof.Machine.execScan h f d a s
  | .pairedWord bnd x y => Sys2Proof.Machine.execPairedWord bnd x y s
  | .fadd h f d a b => Sys2Proof.Machine.execFadd h f d a b s
  | .fsub h f d a b => Sys2Proof.Machine.execFsub h f d a b s
  | .fmul h f d a b => Sys2Proof.Machine.execFmul h f d a b s
  | .ffma h f d a b c => Sys2Proof.Machine.execFfma h f d a b c s
  | .fmin h f d a b => Sys2Proof.Machine.execFmin h f d a b s
  | .fmax h f d a b => Sys2Proof.Machine.execFmax h f d a b s
  | .fcmp h f d a b => Sys2Proof.Machine.execFcmp h f d a b s
  | .fclass h ft d a => Sys2Proof.Machine.execFclass h ft d a s
  | .frnd h f d a => Sys2Proof.Machine.execFrnd h f d a s
  | .fscaleb h f d a b => Sys2Proof.Machine.execFscaleb h f d a b s
  | .fsel h f d a b c => Sys2Proof.Machine.execFsel h f d a b c s
  | .frcp h f d a => Sys2Proof.Machine.execFrcp h f d a s
  | .frsq h f d a => Sys2Proof.Machine.execFrsq h f d a s
  | .fsqrt h f d a => Sys2Proof.Machine.execFsqrt h f d a s
  | .fexp2 h f d a => Sys2Proof.Machine.execFexp2 h f d a s
  | .flog2 h f d a => Sys2Proof.Machine.execFlog2 h f d a s
  | .fsin h f d a => Sys2Proof.Machine.execFsin h f d a s
  | .fcos h f d a => Sys2Proof.Machine.execFcos h f d a s
  | .ftanh h f d a => Sys2Proof.Machine.execFtanh h f d a s
  | .cvt h f d a b => Sys2Proof.Machine.execCvt h f d a b s
  | .qntScale h ef half d a => Sys2Proof.Machine.execQntScale h ef half d a s
  | .qntElem h f d a b c => Sys2Proof.Machine.execQntElem h f d a b c s
  | .dqnt h f d a c => Sys2Proof.Machine.execDqnt h f d a c s
  | .bra h off => Sys2Proof.Machine.execBra h off s
  | .brau h off => Sys2Proof.Machine.execBrau h off s
  | .call h d off => Sys2Proof.Machine.execCall h d off s
  | .callReg h d a => Sys2Proof.Machine.execCallReg h d a s
  | .ret h a => Sys2Proof.Machine.execRet h a s
  | .jmark h off => Sys2Proof.Machine.execJmark h off s
  | .join h => Sys2Proof.Machine.execJoin h s
  | .brk h off => Sys2Proof.Machine.execBrk h off s
  | .yield h => Sys2Proof.Machine.execYield h s
  | .exit h => Sys2Proof.Machine.execExit h s
  | .nop h => Sys2Proof.Machine.execNop h s
  | .sleep h rel a => Sys2Proof.Machine.execSleep h rel a s
  | .sleepDeadline grp => Sys2Proof.Machine.execSleepDeadline grp s
  | .bar h id a => Sys2Proof.Machine.execBar h id a s
  | .cbar h => Sys2Proof.Machine.execCbar h s
  | .mbar h scope a b => Sys2Proof.Machine.execMbar h scope a b s
  | .mbarRelease pa => Sys2Proof.Machine.execMbarRelease pa s
  | .ld h f d a off => Sys2Proof.Machine.execLd h f d a off s
  | .ldIndexed h f d a b => Sys2Proof.Machine.execLdIndexed h f d a b s
  | .st h f d a off => Sys2Proof.Machine.execSt h f d a off s
  | .stIndexed h f a b c => Sys2Proof.Machine.execStIndexed h f a b c s
  | .ldl h f d a off => Sys2Proof.Machine.execLdl h f d a off s
  | .ldlIndexed h f d a b => Sys2Proof.Machine.execLdlIndexed h f d a b s
  | .stl h f d a off => Sys2Proof.Machine.execStl h f d a off s
  | .stlIndexed h f a b c => Sys2Proof.Machine.execStlIndexed h f a b c s
  | .ldu h f d a off => Sys2Proof.Machine.execLdu h f d a off s
  | .atom h f d a off => Sys2Proof.Machine.execAtom h f d a off s
  | .atomIndexed h f d a b c => Sys2Proof.Machine.execAtomIndexed h f d a b c s
  | .red h f d a off => Sys2Proof.Machine.execRed h f d a off s
  | .redIndexed h f a b c => Sys2Proof.Machine.execRedIndexed h f a b c s
  | .waitv h f d a off => Sys2Proof.Machine.execWaitv h f d a off s
  | .waitvDeadlineForm h f d a b c => Sys2Proof.Machine.execWaitvDeadlineForm h f d a b c s
  | .waitvRecheck grp => Sys2Proof.Machine.execWaitvRecheck grp s
  | .fence h scope => Sys2Proof.Machine.execFence h scope s
  | .fencex h scope p1 p2 => Sys2Proof.Machine.execFencex h scope p1 p2 s
  | .fenceComplete grp fid part => Sys2Proof.Machine.execFenceComplete grp fid part s
  | .prefetch h f a off => Sys2Proof.Machine.execPrefetch h f a off s
  | .prefetchIndexed h f a b => Sys2Proof.Machine.execPrefetchIndexed h f a b s
  | .cinv h a off => Sys2Proof.Machine.execCinv h a off s
  | .cinvAll h => Sys2Proof.Machine.execCinvAll h s
  | .cwb h a off => Sys2Proof.Machine.execCwb h a off s
  | .ldtag h d a off => Sys2Proof.Machine.execLdtag h d a off s
  | .sttag h d a off => Sys2Proof.Machine.execSttag h d a off s
  | .cpy h d a => Sys2Proof.Machine.execCpy h d a s
  | .cpyw h a off => Sys2Proof.Machine.execCpyw h a off s
  | .gthr h f d a b c => Sys2Proof.Machine.execGthr h f d a b c s
  | .ewait h d a => Sys2Proof.Machine.execEwait h d a s
  | .equery h d a => Sys2Proof.Machine.execEquery h d a s
  | .copyEngineTransfer cmd row => Sys2Proof.Machine.execCopyEngineTransfer cmd row s
  | .gatherEngineTransfer cmd lane => Sys2Proof.Machine.execGatherEngineTransfer cmd lane s
  | .engineCommandComplete cmd => Sys2Proof.Machine.execEngineCommandComplete cmd s
  | .vwait h rel d a b => Sys2Proof.Machine.execVwait h rel d a b s
  | .vwaitComplete grp => Sys2Proof.Machine.execVwaitComplete grp s
  | .vread h d => Sys2Proof.Machine.execVread h d s
  | .pub h lsrc a b c => Sys2Proof.Machine.execPub h lsrc a b c s
  | .pubv h a b => Sys2Proof.Machine.execPubv h a b s
  | .verchk h eq d a b => Sys2Proof.Machine.execVerchk h eq d a b s
  | .coll h a => Sys2Proof.Machine.execColl h a s
  | .collectiveExecute id order remote fail => Sys2Proof.Machine.execCollectiveExecute id order remote fail s
  | .wbload h lsrc a b c => Sys2Proof.Machine.execWbload h lsrc a b c s
  | .mma h f d a b c => Sys2Proof.Machine.execMma h f d a b c s
  | .aclr h cnt d => Sys2Proof.Machine.execAclr h cnt d s
  | .acvt h f d => Sys2Proof.Machine.execAcvt h f d s
  | .amovToVector h cnt d a c => Sys2Proof.Machine.execAmovToVector h cnt d a c s
  | .amovToTile h cnt d a c => Sys2Proof.Machine.execAmovToTile h cnt d a c s
  | .mpoly h f d b => Sys2Proof.Machine.execMpoly h f d b s
  | .miter h f d a b => Sys2Proof.Machine.execMiter h f d a b s
  | .mdrain h f d a b c => Sys2Proof.Machine.execMdrain h f d a b c s
  | .coefl h first cnt a => Sys2Proof.Machine.execCoefl h first cnt a s
  | .matrixWordExecute core team => Sys2Proof.Machine.execMatrixWordExecute core team s
  | .miterPhase core team stop => Sys2Proof.Machine.execMiterPhase core team stop s
  | .trap h n => Sys2Proof.Machine.execTrap h n s
  | .rte h => Sys2Proof.Machine.execRte h s
  | .rteDrop h skip => Sys2Proof.Machine.execRteDrop h skip s
  | .rteSkip h => Sys2Proof.Machine.execRteSkip h s
  | .csrr h d addr => Sys2Proof.Machine.execCsrr h d addr s
  | .csrw h d a addr => Sys2Proof.Machine.execCsrw h d a addr s
  | .csrs h d a addr => Sys2Proof.Machine.execCsrs h d a addr s
  | .csrc h d a addr => Sys2Proof.Machine.execCsrc h d a addr s
  | .contextCsrPropagated id core => Sys2Proof.Machine.execContextCsrPropagated id core s
  | .launch h d a => Sys2Proof.Machine.execLaunch h d a s
  | .launchAgg h d a b => Sys2Proof.Machine.execLaunchAgg h d a b s
  | .tlbiPage h a b => Sys2Proof.Machine.execTlbiPage h a b s
  | .tlbiPageRecall h a b => Sys2Proof.Machine.execTlbiPageRecall h a b s
  | .tlbiContext h b => Sys2Proof.Machine.execTlbiContext h b s
  | .tlbiAll h => Sys2Proof.Machine.execTlbiAll h s
  | .tlbiComplete id => Sys2Proof.Machine.execTlbiComplete id s
  | .tick h d => Sys2Proof.Machine.execTick h d s
  | .bkpt h n => Sys2Proof.Machine.execBkpt h n s
  | .halt h => Sys2Proof.Machine.execHalt h s
  | .qbind h k ctx d a => Sys2Proof.Machine.execQbind h k ctx d a s
  | .qload h a b c => Sys2Proof.Machine.execQload h a b c s
  | .qloadComplete grp => Sys2Proof.Machine.execQloadComplete grp s
  | .qstatBind h k d => Sys2Proof.Machine.execQstatBind h k d s
  | .qstatState h d => Sys2Proof.Machine.execQstatState h d s
  | .boundOpcode h k d a b c fn => Sys2Proof.Machine.execBoundOpcode h k d a b c fn s
  | .quirePartitionFill core part ctx => Sys2Proof.Machine.execQuirePartitionFill core part ctx s
  | .runChoice core port => Sys2Proof.Machine.execRunChoice core port s
  | .resultWriteback tok => Sys2Proof.Machine.execResultWriteback tok s
  | .l2SliceRequest req lanes => Sys2Proof.Machine.execL2SliceRequest req lanes s
  | .ownershipRecall die granule => Sys2Proof.Machine.execOwnershipRecall die granule s
  | .atomicAtHome req lane => Sys2Proof.Machine.execAtomicAtHome req lane s
  | .strongHoldRelease req => Sys2Proof.Machine.execStrongHoldRelease req s
  | .l1Fill id => Sys2Proof.Machine.execL1Fill id s
  | .leaseExpiry core line => Sys2Proof.Machine.execLeaseExpiry core line s
  | .instructionFetch grp => Sys2Proof.Machine.execInstructionFetch grp s
  | .hbmUncorrectableError pa => Sys2Proof.Machine.execHbmUncorrectableError pa s
  | .migrationGo die => Sys2Proof.Machine.execMigrationGo die s
  | .migrationCopyEnd die => Sys2Proof.Machine.execMigrationCopyEnd die s
  | .migrationRetire die => Sys2Proof.Machine.execMigrationRetire die s
  | .pageWalk die ctx va => Sys2Proof.Machine.execPageWalk die ctx va s
  | .fbcmdReplayAll die ctx => Sys2Proof.Machine.execFbcmdReplayAll die ctx s
  | .fbdropRead die ctx => Sys2Proof.Machine.execFbdropRead die ctx s
  | .updatePacketArrival die id => Sys2Proof.Machine.execUpdatePacketArrival die id s
  | .collatorSlotGrant id => Sys2Proof.Machine.execCollatorSlotGrant id s
  | .strongLock die id => Sys2Proof.Machine.execStrongLock die id s
  | .strongLockAck id => Sys2Proof.Machine.execStrongLockAck id s
  | .strongCommit die id => Sys2Proof.Machine.execStrongCommit die id s
  | .strongAbort die id => Sys2Proof.Machine.execStrongAbort die id s
  | .updateAck die id => Sys2Proof.Machine.execUpdateAck die id s
  | .lag die => Sys2Proof.Machine.execLag die s
  | .membershipRemove die => Sys2Proof.Machine.execMembershipRemove die s
  | .joinGo die => Sys2Proof.Machine.execJoinGo die s
  | .joinCopyEnd die => Sys2Proof.Machine.execJoinCopyEnd die s
  | .holdPeakRead die => Sys2Proof.Machine.execHoldPeakRead die s
  | .peerRequestSend die => Sys2Proof.Machine.execPeerRequestSend die s
  | .peerResponse id ans => Sys2Proof.Machine.execPeerResponse id ans s
  | .peerReissue id => Sys2Proof.Machine.execPeerReissue id s
  | .peerTimeout id => Sys2Proof.Machine.execPeerTimeout id s
  | .peerRequestAtTarget src seq pa part op => Sys2Proof.Machine.execPeerRequestAtTarget src seq pa part op s
  | .peerBusyRetry id => Sys2Proof.Machine.execPeerBusyRetry id s
  | .replyCacheExpiry id => Sys2Proof.Machine.execReplyCacheExpiry id s
  | .publicationFlitArrival port id => Sys2Proof.Machine.execPublicationFlitArrival port id s
  | .publicationAck child id => Sys2Proof.Machine.execPublicationAck child id s
  | .launchPlacement queue cores => Sys2Proof.Machine.execLaunchPlacement queue cores s
  | .gridComplete grid => Sys2Proof.Machine.execGridComplete grid s
  | .bucketCloseTimeout queue key => Sys2Proof.Machine.execBucketCloseTimeout queue key s
  | .qcfgWrite queue fab val => Sys2Proof.Machine.execQcfgWrite queue fab val s
  | .sliceSwitch entry => Sys2Proof.Machine.execSliceSwitch entry s
  | .preemption ctx => Sys2Proof.Machine.execPreemption ctx s
  | .contextRestore ctx cores => Sys2Proof.Machine.execContextRestore ctx cores s
  | .contextKill ctx => Sys2Proof.Machine.execContextKill ctx s
  | .eventQueueConfigWrite size val => Sys2Proof.Machine.execEventQueueConfigWrite size val s
  | .counterTick unit ctr n => Sys2Proof.Machine.execCounterTick unit ctr n s
  | .counterWrite unit ctr val => Sys2Proof.Machine.execCounterWrite unit ctr val s
  | .actkWrite val => Sys2Proof.Machine.execActkWrite val s
  | .activityRingWrite ring => Sys2Proof.Machine.execActivityRingWrite ring s
  | .activityRingConfigWrite ring reg val => Sys2Proof.Machine.execActivityRingConfigWrite ring reg val s
  | .activityDropRead ring => Sys2Proof.Machine.execActivityDropRead ring s
  | .resumeGroup core slot => Sys2Proof.Machine.execResumeGroup core slot s
  | .preempt ctx => Sys2Proof.Machine.execPreempt ctx s
  | .resumeCtx ctx => Sys2Proof.Machine.execResumeCtx ctx s
  | .rrcfgWrite ctx val => Sys2Proof.Machine.execRrcfgWrite ctx val s
  | .orderChunkTimeout ctx grp => Sys2Proof.Machine.execOrderChunkTimeout ctx grp s
  | .orderGateTimeout ctx grp => Sys2Proof.Machine.execOrderGateTimeout ctx grp s
  | .heatFlush die => Sys2Proof.Machine.execHeatFlush die s
  | .portRetrain port => Sys2Proof.Machine.execPortRetrain port s
  | .registerWrite addr val => Sys2Proof.Machine.execRegisterWrite addr val s
  | .unassignedOpcode w => Sys2Proof.Machine.execUnassignedOpcode w s
  | .collatorHandover => Sys2Proof.Machine.execCollatorHandover s
  | .settledReport => Sys2Proof.Machine.execSettledReport s
  | .wrap => Sys2Proof.Machine.execWrap s
  | .eventQueueDropRead => Sys2Proof.Machine.execEventQueueDropRead s
  | .activityLatch => Sys2Proof.Machine.execActivityLatch s
  | .freeze => Sys2Proof.Machine.execFreeze s
  | .freezeStop => Sys2Proof.Machine.execFreezeStop s
  | .resume => Sys2Proof.Machine.execResume s
  | .dump => Sys2Proof.Machine.execDump s
  | .stopOnTick => Sys2Proof.Machine.execStopOnTick s
  | .attestationReport => Sys2Proof.Machine.execAttestationReport s
  | .packageReset => Sys2Proof.Machine.execPackageReset s
  | .portTrainingEnd => Sys2Proof.Machine.execPortTrainingEnd s
  | .laneRetire => Sys2Proof.Machine.execLaneRetire s
  | .portDown => Sys2Proof.Machine.execPortDown s
  | .linkReplay => Sys2Proof.Machine.execLinkReplay s
  | .hostInboundWrite => Sys2Proof.Machine.execHostInboundWrite s
  | .hostInboundRead => Sys2Proof.Machine.execHostInboundRead s
  | .functionLevelReset => Sys2Proof.Machine.execFunctionLevelReset s
  | .attestationRequest => Sys2Proof.Machine.execAttestationRequest s
  | .supplyDroop => Sys2Proof.Machine.execSupplyDroop s
  | .powerCap => Sys2Proof.Machine.execPowerCap s
  | .supplyRecovery => Sys2Proof.Machine.execSupplyRecovery s
  | .debugToken => Sys2Proof.Machine.execDebugToken s
  | .ptpMessage => Sys2Proof.Machine.execPtpMessage s

end Sys2Proof.Machine
end

