-- ==== Sys2Proof/Machine/Place.lean ====
section
/-!
DEFINITION. Machine/Place.lean: puts a word where the next step fetches it: what a launch, a translation and a fetch would have
brought about (log entry 40).
-/
namespace Sys2Proof.Machine

/-- A leaf that maps a 16 KiB page at physical address 0, readable and executable, of the shared kind (R356). -/
def bootLeaf : Word := 0x97

/-- A group of context 0 in slot 0 of core 0, at address 0, with its team and cluster, on port 0. -/
def State.bootGroup (s : State) : State :=
  let tm : Team := { Team.empty with groups := 1, vregs := 128, acc := 16, localSize := 0x10000, members := [0] }
  let g : Group := { Group.empty with vregs := 128, port := some false }
  let s := { s with groups := Tab.put 0 g s.groups, teams := Tab.put 0 tm s.teams,
                    clusters := Tab.put 0 { Cluster.empty with teams := [0], cores := [0] } s.clusters }
  let s := s.setPort 0 false { slot := some 0, waiting := false, since := s.tick.toNat }
  let s := { s with focusCore := 0, focusPort := false }
  let others := s.sys.tlbs.filter (fun e => !decide (e.unit = 0 ∧ e.ctx = 0 ∧ e.vpage * 2 ^ e.logSize < 2 ^ 14))
  s.setSys { s.sys with tlbs := { unit := 0, ctx := 0, vpage := 0, logSize := 14, leaf := bootLeaf } :: others }

/-- Whether the group on the port in focus would fetch its next word without a fault. -/
def State.fetchPa (s : State) : Option (Nat × Nat) :=
  match s.focusGroup with
  | none => none
  | some g => match (s.fetchReach (s.grp g)).1 with
    | .ok pa _ => some (g, pa)
    | _ => none

/-- Puts the bytes of a word at a physical address, and in the instruction cache of a core with a lease that lasts. -/
def State.placeWord (s : State) (core pa : Nat) (w : Word) : State :=
  let s := s.setBytes pa (bytesOfWord w)
  let line : ILine := { data := s.bytes (pa / 128 * 128) 128, expiry := s.tick.toNat + 1 }
  s.updCore core (fun c => { c with icache := Tab.put (pa / 128) line c.icache })

/-- The machine with a word where its next step fetches: it issues, nothing else is due first, and a group is on the port in
focus. -/
def State.placed (s : State) (w : Word) : State :=
  let s := { s with agenda := [], turn := 0, dbg := { s.dbg with stopped := false, frozen := false, freeze := none } }
  let s := if s.fetchPa.isSome then s else s.bootGroup
  match s.fetchPa with
  | some (g, pa) => (s.updGrp g (fun x => { x with pending := [] })).placeWord (s.grp g).core pa w
  | none => s

end Sys2Proof.Machine
end

