-- ==== Sys2Proof/Machine/Step.lean ====
section
/-!
DEFINITION. Machine/Step.lean: one step of the machine: what the plan says, and the ticks it lasts.
-/
namespace Sys2Proof.Machine

/-- One step. -/
def step (s : State) : Host.Outcome State Fault Refusal :=
  match s.plan with
  | .settled t => .next t.pass
  | .run i t =>
    match exec i t with
    | .next u => .next u.pass
    | .fault f => .fault f
    | .refused r => .refused r

/-- The machine with a word stored where the step fetches its next instruction. -/
def State.withFetchWord (s : State) (_nbits w : Nat) : State := s.placed (BitVec.ofNat 64 w)

end Sys2Proof.Machine
end

