-- ==== Sys2Proof/Safety.lean ====
section
/-!
DEFINITION. Safety.lean: the terms that statements about the machine are made in: the invariant of memory, when a word stands to
issue with its own effect, and what a data word leaves in a group.
-/
namespace Sys2Proof.Machine

/-- The invariant of every run: memory is in its canonical form. -/
def State.Inv (s : State) : Prop := Memory.wf s.mem = true

/-- Word `i` stands to issue, with its own effect, for group `g`: the group holds the port in focus (R29), no record of it is due
to settle (R189), every decode check passes (R78), and no source is empty (R33). -/
structure State.Stands (s : State) (g : Nat) (i : Instr) : Prop where
  port : s.issuer = some g
  quiet : (s.grp g).dueDefs = []
  legal : i.check (s.env g) = none
  sources : (s.grp g).policy i = .ok

/-- A word with UNI runs where its guard holds for the group (R25); a word without UNI needs nothing. -/
def State.Guarded (s : State) (g : Nat) (h : Hdr) : Prop := h.uni = true → (s.grp g).uniGuard h = .run

/-- The lanes in which a data word makes its effect (R26): lane 0 stands for the group where UNI is set. -/
def State.lanesFor (s : State) (g : Nat) (h : Hdr) : List Nat := if h.uni then [0] else lanesOf ((s.grp g).execMask h)

/-- Whether a write of `d` in some lane makes register `r` full (R34). -/
def fills (d : Operand) (lanes : List Nat) (r : Nat) : Bool :=
  !lanes.isEmpty && (match d with
    | .v n => decide (r = n.val)
    | .s n => decide (n.val < 61) && decide (r = 128 + n.val)
    | _ => false)

/-- What group `y` holds after group `x` has written `val l` to `d` in `lanes` (R26, R34, R104, R105) and changed nothing else:
a vector takes the low 32 bits of every lane's value, a scalar the highest lane's value, s61 to s63 the mask under R24, a predicate
bit 0 of every lane's value, a coefficient register 32 bits; p7, specials and `zero` take nothing. -/
structure Wrote (x y : Group) (d : Operand) (lanes : List Nat) (val : Nat → Word) : Prop where
  vreg : ∀ (n : Fin 128) (l : Nat),
    y.vreg n l = if d = .v n ∧ l ∈ lanes then (val l).setWidth 32 else x.vreg n l
  sreg : ∀ n : Fin 64, n.val < 61 →
    y.sreg n = match lanes.getLast? with
      | some top => if d = .s n then val top else x.sreg n
      | none => x.sreg n
  mask : ∀ n : Fin 64, 61 ≤ n.val → d = .s n → ∀ top, lanes.getLast? = some top → ∀ l < 96,
    y.flow.mask.getLsbD l = ((if l / 32 = n.val - 61 then (val top).getLsbD (l % 32) else x.flow.mask.getLsbD l) &&
      !x.flow.exited.getLsbD l && !x.flow.deferred.getLsbD l)
  path : (∀ n : Fin 64, 61 ≤ n.val → d ≠ .s n) ∨ lanes = [] → y.flow.mask = x.flow.mask
  preg : ∀ (n : Fin 8), n.val < 7 → ∀ l < 96,
    (y.preg n).getLsbD l = if d = .p n ∧ l ∈ lanes then (val l).getLsbD 0 else (x.preg n).getLsbD l
  creg : ∀ n : Fin 16,
    y.creg n = match lanes.getLast? with
      | some top => if d = .c n then (val top).setWidth 32 else x.creg n
      | none => x.creg n
  full : ∀ r < 192, y.isFull r = (x.isFull r || fills d lanes r)
  pend : ∀ r < 192, Tab.find? r y.regs.pend = if fills d lanes r then none else Tab.find? r x.regs.pend
  rest : { y with regs := x.regs, flow := { y.flow with mask := x.flow.mask } } = x

/-- The data word `i` with common fields `h` completes in every state in which it stands to issue: it writes `val` to `d`,
changes nothing else of its group, and the next word follows (R29, R30). -/
def Gives (i : Instr) (h : Hdr) (d : Operand) (val : State → Group → Nat → Word) : Prop :=
  ∀ s g, s.Stands g i → s.Guarded g h →
    ∃ y, exec i s = .next ((s.setGrp g y).retire g h.bnd .on) ∧ Wrote (s.grp g) y d (s.lanesFor g h) (val s (s.grp g))

/-- The same for a floating-point word, which also adds the flags of its lanes to FP_FLAGS (R60). -/
def GivesF (i : Instr) (h : Hdr) (d : Operand) (val : State → Group → Nat → Nat × FFlags) : Prop :=
  ∀ s g, s.Stands g i → s.Guarded g h →
    ∃ y fl, exec i s = .next ((s.setGrp g (y.addFlags fl)).retire g h.bnd .on) ∧
      Wrote (s.grp g) y d (s.lanesFor g h) (fun l => BitVec.ofNat 64 (val s (s.grp g) l).1) ∧
      ∀ k, fl.getLsbD k = (s.lanesFor g h).any (fun l => (val s (s.grp g) l).2.getLsbD k)

end Sys2Proof.Machine
end

