-- ==== Sys2Proof/Certificates/Slice0/Obligations.lean ====
section
/-!
DEFINITION. Certificates/Slice0/Obligations.lean: the statements about the machine that are to be proved.
-/
/-! ## Register words: the result, where it goes, and that the word completes -/

namespace Sys2Proof.Spec
open Sys2Proof.Machine

/-- The result of exact arithmetic (R108): reduced modulo 2^w, or clamped to Lo(T) and Hi(T) first; extended by the signedness of
T where a scalar takes it (R104). -/
def result (t : ITy) (sat : Bool) (e : Int) : Word := t.ext (BitVec.ofInt 64 (if sat then max t.lo (min e t.hi) else e))

/-- The value of a source under a type (R104, R106). -/
def value (s : State) (x : Group) (t : ITy) (o : Operand) (l : Nat) : Int := t.val (s.src x t o l)

/-- The value of an immediate: IMM22 extended to w bits by the signedness of T (R103). -/
def immValue (t : ITy) (i : BitVec 22) : Int := if t.signed then i.toInt else i.toNat

/-- A shift count as R110 takes it: as it stands with CL, modulo w without. -/
def shiftCount (t : ITy) (clamp : Bool) (n : Nat) : Nat := if clamp then n else n % t.bits

/-- The w bits shifted left; none are left of a count of w or more (R110). -/
def shiftLeft (t : ITy) (clamp : Bool) (v : Word) (n : Nat) : Word :=
  let n := shiftCount t clamp n
  if t.bits ≤ n then 0 else t.ext (v <<< n)

/-- The w bits shifted right with zeros (R110). -/
def shiftRight (t : ITy) (clamp : Bool) (v : Word) (n : Nat) : Word := t.ext (t.cut v >>> shiftCount t clamp n)

/-- The w bits shifted right with copies of the sign (R110). -/
def shiftArith (t : ITy) (clamp : Bool) (v : Word) (n : Nat) : Word :=
  if t.wide then v.sshiftRight (shiftCount t clamp n)
  else t.ext (((v.setWidth 32).sshiftRight (shiftCount t clamp n)).setWidth 64)

/-- The w bits rotated left (R110). -/
def rotateLeft (t : ITy) (v : Word) (n : Nat) : Word :=
  if t.wide then v.rotateLeft n else t.ext (((v.setWidth 32).rotateLeft n).setWidth 64)

/-- A shift count from a register: its w bits, unsigned (R110). -/
def countOf (s : State) (x : Group) (t : ITy) (b : Operand) (l : Nat) : Nat := (t.cut (s.src x t b l)).toNat

/-- A 64-bit pattern with bits `[lo + n - 1 : lo]` replaced. -/
def withField (v : Word) (lo n : Nat) (f : Word) : Word :=
  (v &&& ~~~(lowOnes n <<< lo)) ||| ((f &&& lowOnes n) <<< lo)

end Sys2Proof.Spec

open Sys2Proof Sys2Proof.Machine Sys2Proof.Spec

/-- R108: an add, a subtraction, a product, the high half of a product and a multiply-add are computed exactly and reduced modulo
2^w, or clamped with SAT; the word completes, and writes nothing but its destination. -/
def Sys2Proof.Spec.IntegerArithmetic : Prop :=
  ∀ (h : Hdr) (f : FnInt) (t : ITy) (d a b c : Operand) (i : BitVec 22),
    Gives (.iadd h f d a b) h d (fun s x l => result f.ty f.sat (value s x f.ty a l + value s x f.ty b l)) ∧
    Gives (.iaddImm h f d a i) h d (fun s x l => result f.ty f.sat (value s x f.ty a l + immValue f.ty i)) ∧
    Gives (.isub h f d a b) h d (fun s x l => result f.ty f.sat (value s x f.ty a l - value s x f.ty b l)) ∧
    Gives (.isubImm h f d a i) h d (fun s x l => result f.ty f.sat (value s x f.ty a l - immValue f.ty i)) ∧
    Gives (.imul h f d a b) h d (fun s x l => result f.ty f.sat (value s x f.ty a l * value s x f.ty b l)) ∧
    Gives (.imulImm h f d a i) h d (fun s x l => result f.ty f.sat (value s x f.ty a l * immValue f.ty i)) ∧
    Gives (.imulh h t d a b) h d (fun s x l => result t false ((value s x t a l * value s x t b l) >>> t.bits)) ∧
    Gives (.imad h f d a b c) h d (fun s x l =>
      result f.ty f.sat (value s x f.ty a l * value s x f.ty b l + value s x f.ty c l))

/-- R108: the minimum and the maximum of two values of the type, the absolute value and the negation of a signed one. -/
def Sys2Proof.Spec.MinimumMaximumAbsoluteNegation : Prop :=
  ∀ (h : Hdr) (t : ITy) (wide sat : Bool) (d a b : Operand) (i : BitVec 22),
    let st : ITy := if wide then .s64 else .s32
    Gives (.imin h t d a b) h d (fun s x l => t.ext (BitVec.ofInt 64 (min (value s x t a l) (value s x t b l)))) ∧
    Gives (.iminImm h t d a i) h d (fun s x l => t.ext (BitVec.ofInt 64 (min (value s x t a l) (immValue t i)))) ∧
    Gives (.imax h t d a b) h d (fun s x l => t.ext (BitVec.ofInt 64 (max (value s x t a l) (value s x t b l)))) ∧
    Gives (.imaxImm h t d a i) h d (fun s x l => t.ext (BitVec.ofInt 64 (max (value s x t a l) (immValue t i)))) ∧
    Gives (.iabs h wide sat d a) h d (fun s x l => result st sat |value s x st a l|) ∧
    Gives (.ineg h wide sat d a) h d (fun s x l => result st sat (-value s x st a l))

/-- Integer arithmetic gives the exact result reduced or clamped: the parts above together. -/
def Obligations.ExactIntegerArithmetic : Prop := Spec.IntegerArithmetic ∧ Spec.MinimumMaximumAbsoluteNegation

/-- R109: an add with carry and a subtraction with borrow write the w low bits to the destination and the carry or borrow out, with
CO, to the predicate that it names, in the same lanes. -/
def Obligations.CarryAndBorrow : Prop :=
  ∀ (h : Hdr) (f : FnCy) (d a b c : Operand) (s : State) (g : Nat),
    let x := s.grp g
    let t : ITy := if f.wide then .u64 else .u32
    let ls := s.lanesFor g h
    let sum := fun l => (value s x t a l + value s x t b l + (if x.predOf c l then 1 else 0) : Int)
    let dif := fun l => (value s x t a l - value s x t b l - (if x.predOf c l then 1 else 0) : Int)
    let both := fun (i : Instr) (e : Nat → Int) (out : Nat → Bool) =>
      s.Stands g i → s.Guarded g h → ∃ y z, exec i s = .next ((s.setGrp g z).retire g h.bnd .on) ∧
        Wrote x y d ls (fun l => result t false (e l)) ∧
        (match f.co with
         | some p => Wrote y z (.p p) ls (fun l => if out l then 1 else 0)
         | none => z = y)
    both (.iaddc h f d a b c) sum (fun l => decide (2 ^ t.bits ≤ sum l)) ∧
    both (.isubb h f d a b c) dif (fun l => decide (dif l < 0))

/-- R110: shifts and rotates of w bits by a register or an immediate, the count modulo w or, with CL, as it stands. -/
def Obligations.ShiftsAndRotates : Prop :=
  ∀ (h : Hdr) (f : FnSh) (t : ITy) (d a b : Operand) (i : BitVec 22),
    Gives (.shl h f d a b) h d (fun s x l => shiftLeft f.ty f.clamp (s.src x f.ty a l) (countOf s x f.ty b l)) ∧
    Gives (.shlImm h f d a i) h d (fun s x l => shiftLeft f.ty f.clamp (s.src x f.ty a l) i.toNat) ∧
    Gives (.shr h f d a b) h d (fun s x l => shiftRight f.ty f.clamp (s.src x f.ty a l) (countOf s x f.ty b l)) ∧
    Gives (.shrImm h f d a i) h d (fun s x l => shiftRight f.ty f.clamp (s.src x f.ty a l) i.toNat) ∧
    Gives (.sar h f d a b) h d (fun s x l => shiftArith f.ty f.clamp (s.src x f.ty a l) (countOf s x f.ty b l)) ∧
    Gives (.sarImm h f d a i) h d (fun s x l => shiftArith f.ty f.clamp (s.src x f.ty a l) i.toNat) ∧
    Gives (.rot h t d a b) h d (fun s x l => rotateLeft t (s.src x t a l) (countOf s x t b l)) ∧
    Gives (.rotImm h t d a i) h d (fun s x l => rotateLeft t (s.src x t a l) i.toNat)

/-- R111, R112: bitwise logic over the w bits of the type, with a register or IMM22 extended, and `lea`: each word completes with the
value that the rule gives and writes nothing but its destination. -/
def Obligations.BitwiseLogicAndAddress : Prop :=
  ∀ (h : Hdr) (t : ITy) (f : FnLea) (d a b : Operand) (i : BitVec 22),
    Gives (.and h t d a b) h d (fun s x l => t.ext (s.src x t a l &&& s.src x t b l)) ∧
    Gives (.andImm h t d a i) h d (fun s x l => t.ext (s.src x t a l &&& BitVec.ofInt 64 (immValue t i))) ∧
    Gives (.or h t d a b) h d (fun s x l => t.ext (s.src x t a l ||| s.src x t b l)) ∧
    Gives (.orImm h t d a i) h d (fun s x l => t.ext (s.src x t a l ||| BitVec.ofInt 64 (immValue t i))) ∧
    Gives (.xor h t d a b) h d (fun s x l => t.ext (s.src x t a l ^^^ s.src x t b l)) ∧
    Gives (.xorImm h t d a i) h d (fun s x l => t.ext (s.src x t a l ^^^ BitVec.ofInt 64 (immValue t i))) ∧
    Gives (.andn h t d a b) h d (fun s x l => t.ext (s.src x t a l &&& ~~~s.src x t b l)) ∧
    Gives (.not h t d a) h d (fun s x l => t.ext (~~~s.src x t a l)) ∧
    Gives (.lea h f d a b) h d (fun s x l =>
      f.ty.ext (s.src x f.ty a l + s.src x f.ty b l * BitVec.ofNat 64 (2 ^ f.sh.toNat) + BitVec.ofInt 64 f.off.toInt))

/-- R113 to R115: moves of immediates, of a register, and of one field; selection by a predicate. -/
def Sys2Proof.Spec.MovesAndSelection : Prop :=
  ∀ (h : Hdr) (t : ITy) (hi : Half) (d a b c : Operand) (i : BitVec 22),
    Gives (.movi h t d i) h d (fun _ _ _ => t.ext (BitVec.ofInt 64 (immValue t i))) ∧
    Gives (.movhi h hi d a i) h d (fun s x l =>
      match hi, Operand.wideDst d with
      | .h1, true => withField (s.rd x a l) 22 22 (i.setWidth 64)
      | .h1, false => withField (s.rd x a l) 22 10 (i.setWidth 64) &&& 0xFFFFFFFF
      | .h2, _ => withField (s.rd x a l) 44 20 (i.setWidth 64)) ∧
    Gives (.mov h d a) h d (fun s x l => s.rd x a l) ∧
    Gives (.sel h d a b c) h d (fun s x l => if x.predOf c l then s.rd x a l else s.rd x b l)

/-- R116: an integer compare writes one bit to each lane: equal and unequal on the w bits, the orders on their signed or, for ltu
and geu, their unsigned value, whatever the type's signedness. -/
def Sys2Proof.Spec.IntegerCompare : Prop :=
  ∀ (h : Hdr) (f : FnCmp) (d a b : Operand) (i : BitVec 22),
    let u : ITy := if f.ty.wide then .u64 else .u32
    let n : ITy := if f.ty.wide then .s64 else .s32
    let holds := fun (p q : Word) => match f.cc with
      | .eq => decide (u.val p = u.val q)
      | .ne => decide (u.val p ≠ u.val q)
      | .lt => decide (n.val p < n.val q)
      | .le => decide (n.val p ≤ n.val q)
      | .gt => decide (n.val p > n.val q)
      | .ge => decide (n.val p ≥ n.val q)
      | .ltu => decide (u.val p < u.val q)
      | .geu => decide (u.val p ≥ u.val q)
    Gives (.icmp h f d a b) h d (fun s x l => if holds (s.src x f.ty a l) (s.src x f.ty b l) then 1 else 0) ∧
    Gives (.icmpImm h f d a i) h d (fun s x l =>
      if holds (s.src x f.ty a l) (BitVec.ofInt 64 (immValue f.ty i)) then 1 else 0)

/-- Moves, selection by a predicate and integer compares: the parts above together. -/
def Obligations.MovesSelectionAndCompare : Prop := Spec.MovesAndSelection ∧ Spec.IntegerCompare

/-! ## Bits, bytes, predicates and lanes -/

namespace Sys2Proof.Spec
open Sys2Proof.Machine

/-- Byte `k` of eight: 0 to 3 are the low bytes of `a`, 4 to 7 those of `b` (R119). -/
def byteOf (a b : Word) (k : Nat) : BitVec 8 := if k < 4 then a.extractLsb' (8 * k) 8 else b.extractLsb' (8 * (k - 4)) 8

/-- Byte `i` of the result of `permb` (R119). -/
def permByte (a b k : Word) (i : Nat) : BitVec 8 :=
  let q := bits k (4 * i) 4
  if k.getLsbD (16 + i) then 0
  else if q < 8 then byteOf a b q
  else if (byteOf a b (q - 8)).getLsbD 7 then 0xFF else 0

/-- The position and the length of R118. -/
def fieldAt (w : Nat) (k : Word) : Nat × Nat :=
  let p := (k.extractLsb' 0 8).toNat
  let n := (k.extractLsb' 8 8).toNat
  (p, if w ≤ p then 0 else min n (w - p))

/-- The values of a list of lanes reduced by an operation, exactly (R125). -/
def reduce (op : RedOp) (t : ITy) (s : State) (x : Group) (a : Operand) (lanes : List Nat) : Int :=
  let vals := lanes.map (value s x t a)
  let words := lanes.map (s.src x t a)
  match op with
  | .add => vals.sum
  | .min => vals.foldl min t.hi
  | .max => vals.foldl max t.lo
  | .and => t.val (words.foldl (fun p q => p &&& q) (BitVec.allOnes 64))
  | .or => t.val (words.foldl (fun p q => p ||| q) 0)
  | .xor => t.val (words.foldl (fun p q => p ^^^ q) 0)

end Sys2Proof.Spec

/-- R117: the number of 1 bits, the number of 0 bits above the highest 1 bit and below the lowest (w for 0), and the bits in reverse
order, over the w bits of the type; each word completes and writes nothing but its destination. -/
def Obligations.CountsAndReversal : Prop :=
  ∀ (h : Hdr) (t : ITy) (d a : Operand),
    let w := t.bits
    let val := fun (n : Nat) => t.ext (BitVec.ofNat 64 n)
    Gives (.popc h t d a) h d (fun s x l => val ((List.range w).countP (fun k => (s.src x t a l).getLsbD k))) ∧
    Gives (.clz h t d a) h d (fun s x l =>
      val ((List.range w).countP (fun k => (List.range w).all (fun j => decide (j < k) || !(s.src x t a l).getLsbD j)))) ∧
    Gives (.ctz h t d a) h d (fun s x l =>
      val ((List.range w).countP (fun k => (List.range w).all (fun j => decide (k < j) || !(s.src x t a l).getLsbD j)))) ∧
    Gives (.brev h t d a) h d (fun s x l =>
      if t.wide then (s.src x t a l).reverse else t.ext ((((s.src x t a l).setWidth 32).reverse).setWidth 64))

/-- R118, R119: fields taken and put, and bytes permuted. -/
def Sys2Proof.Spec.FieldsAndBytes : Prop :=
  ∀ (h : Hdr) (t : ITy) (d a b c : Operand) (i : BitVec 22),
    let w := t.bits
    let field := fun (v k : Word) =>
      let n := (fieldAt w k).2
      let f := (t.cut v).toNat / 2 ^ (fieldAt w k).1 % 2 ^ n
      t.ext (BitVec.ofInt 64 (if t.signed ∧ 0 < n ∧ 2 ^ (n - 1) ≤ f then (f : Int) - 2 ^ n else f))
    let perm := fun (p q k : Word) =>
      ((permByte p q k 3 ++ permByte p q k 2 ++ permByte p q k 1 ++ permByte p q k 0 : BitVec 32)).setWidth 64
    Gives (.bfx h t d a c) h d (fun s x l => field (s.src x t a l) (s.src x t c l)) ∧
    Gives (.bfi h t d a b c) h d (fun s x l =>
      let p := fieldAt w (s.src x t c l)
      t.ext (withField (s.src x t a l) p.1 p.2 (s.src x t b l))) ∧
    Gives (.permb h d a b c) h d (fun s x l => perm (s.rd x a l) (s.rd x b l) (s.rd x c l)) ∧
    Gives (.permbImm h d a i) h d (fun s x l => perm (s.rd x a l) 0 (i.setWidth 64))

/-- R120, R121: predicate logic per lane; `pmov` takes the 32 predicate bits of a beat into a scalar, or puts them from one, in every
lane of the beat, active or not. -/
def Sys2Proof.Spec.Predicates : Prop :=
  ∀ (h : Hdr) (f : FnPn) (k : Fin 3) (d a b : Operand),
    let bit := fun (v : Bool) => (if v then 1 else 0 : Word)
    let pa := fun (x : Group) l => (x.predOf a l).xor f.na
    let pb := fun (x : Group) l => (x.predOf b l).xor f.nb
    Gives (.pand h f d a b) h d (fun _ x l => bit (pa x l && pb x l)) ∧
    Gives (.por h f d a b) h d (fun _ x l => bit (pa x l || pb x l)) ∧
    Gives (.pxor h f d a b) h d (fun _ x l => bit ((pa x l).xor (pb x l))) ∧
    Gives (.pnot h d a) h d (fun _ x l => bit (!x.predOf a l)) ∧
    (∀ s g, s.Stands g (.pmov h k d a) → (s.grp g).uniGuard h = .run →
      let x := s.grp g
      ∃ y, exec (.pmov h k d a) s = .next ((s.setGrp g y).retire g h.bnd .on) ∧
        match d with
        | .p n => { y with regs := x.regs } = x ∧ { y.regs with p := x.regs.p } = x.regs ∧
            ∀ m : Fin 8, m.val < 7 → ∀ l < 96, (y.preg m).getLsbD l =
              if m = n ∧ l / 32 = k.val then (s.rd x a 0).getLsbD (l % 32) else (x.preg m).getLsbD l
        | d => Wrote x y d [0] (fun _ => ((x.predMask a).extractLsb' (32 * k.val) 32).setWidth 64))

/-- Fields, byte permutation, predicate logic and pmov: the parts above together. -/
def Obligations.FieldsBytesAndPredicates : Prop := Spec.FieldsAndBytes ∧ Spec.Predicates

/-- R122 to R125: a lane read by another, a value broadcast, votes, reductions and prefixes over the executing lanes E. -/
def Sys2Proof.Spec.LaneExchange : Prop :=
  ∀ (h : Hdr) (m : ShflMode) (r : FnRed) (p : FnScn) (d a b : Operand),
    let other := fun (l k : Nat) => (match m with
      | .idx => if k < 96 then k else l
      | .up => if k ≤ l then l - k else l
      | .down => if l + k < 96 then l + k else l
      | .xor => if l ^^^ k < 96 then l ^^^ k else l : Nat)
    let across := fun (i : Instr) (val : State → Group → List Nat → Nat → Word) => ∀ s g, s.Stands g i →
      let x := s.grp g
      let e := lanesOf (x.execMask h)
      ∃ y, exec i s = .next ((s.setGrp g y).retire g h.bnd .on) ∧ Wrote x y d e (val s x e)
    Gives (.shfl h m d a b) h d (fun s x l => s.rd x a (other l ((s.rd x b l).toNat % 2 ^ 32))) ∧
    Gives (.bcast h d a b) h d (fun s x l => if (s.rd x b l).toNat < 96 then s.rd x a (s.rd x b l).toNat else 0) ∧
    across (.vote h .any d a) (fun _ x e _ => if e.any (fun l => (x.predMask a).getLsbD l) then 1 else 0) ∧
    across (.vote h .all d a) (fun _ x e _ => if e.all (fun l => (x.predMask a).getLsbD l) then 1 else 0) ∧
    across (.redux h r d a) (fun s x e _ => result r.ty r.sat (reduce r.op r.ty s x a e)) ∧
    across (.scan h p d a) (fun s x e l =>
      let t : ITy := if p.signed then .s32 else .u32
      t.cut (BitVec.ofInt 64 (reduce p.op t s x a (e.filter (fun k => if p.excl then decide (k < l) else decide (k ≤ l))))))

/-- R124: a ballot writes the truth of its predicate in the executing lanes, a beat to each of three scalars; with no executing lane
it writes nothing. Below s61 the registers hold the bits, full; from s61 on the bits go to the mask. -/
def Sys2Proof.Spec.Ballot : Prop :=
  ∀ (h : Hdr) (a : Operand) (n : Fin 64) (s : State) (g : Nat),
    let i : Instr := .vote h .ballot (.s n) a
    let x := s.grp g
    let t := x.predMask a &&& x.execMask h
    s.Stands g i →
      ∃ y, exec i s = .next ((s.setGrp g y).retire g h.bnd .on) ∧
        (x.execMask h = 0 → y = x) ∧
        (x.execMask h ≠ 0 →
          (∀ m : Fin 64, m.val < 61 → y.sreg m =
            if n.val ≤ m.val ∧ m.val < n.val + 3 then (t.extractLsb' (32 * (m.val - n.val)) 32).setWidth 64 else x.sreg m) ∧
          (∀ r < 192, y.isFull r = (x.isFull r || decide (128 + n.val ≤ r ∧ r < 128 + n.val + 3 ∧ r < 189))) ∧
          (61 ≤ n.val + 2 → ∀ l < 96, y.flow.mask.getLsbD l =
            ((if n.val ≤ 61 + l / 32 ∧ 61 + l / 32 < n.val + 3 then t.getLsbD (32 * (61 + l / 32 - n.val) + l % 32)
              else x.flow.mask.getLsbD l) && !x.flow.exited.getLsbD l && !x.flow.deferred.getLsbD l)) ∧
          (n.val + 2 < 61 → y.flow = x.flow) ∧
          y.regs.v = x.regs.v ∧ y.regs.p = x.regs.p ∧ y.regs.c = x.regs.c ∧
          { y with regs := x.regs, flow := { y.flow with mask := x.flow.mask } } = x)

/-- Lanes read lanes: shuffles, broadcasts, votes, ballots, reductions, prefixes: the parts above together. -/
def Obligations.LaneExchangeAndBallot : Prop := Spec.LaneExchange ∧ Spec.Ballot

/-! ## Floating point -/

namespace Sys2Proof.Spec
open Sys2Proof.Machine

/-- The exact result of an operation, with the flags that it raises itself, rounded once to the word's type (R143). -/
def rounded (f : FnFa) (x : Group) (e : Val × FFlags) : Nat × FFlags :=
  let r := roundF (fmtOfTy f.ft) (x.mode f.rm) f.sat x.fp.ftz e.1
  (r.1, r.2 ||| e.2)

/-- The value of a floating-point source under its modifiers (R139, R140). -/
def fvalue (s : State) (x : Group) (f : FnFa) (m : FMod) (o : Operand) (l : Nat) : Val := s.fval x (fmtOfTy f.ft) m o l

/-- The pattern of a floating-point source under its modifiers (R139). -/
def fpattern (s : State) (x : Group) (f : FnFa) (m : FMod) (o : Operand) (l : Nat) : Nat := s.fbits x (fmtOfTy f.ft) m o l

/-- Whether the rounding mode in force rounds down: the sign of an exact zero sum (R143). -/
def roundsDown (f : FnFa) (x : Group) : Bool := decide (x.mode f.rm = .rdn)

/-- The pattern of a special function's operand as it is read: a subnormal as the zero of its sign under DAZ (R140). -/
def specialOperand (s : State) (x : Group) (f : FnSf) (a : Operand) (l : Nat) : Nat :=
  let c := s.fbits x fp32 f.ma a l
  if x.fp.daz && isSubnormal fp32 c then c / 2 ^ 31 * 2 ^ 31 else c

end Sys2Proof.Spec

/-- R143, R146, R147: sums, differences, products, fused multiply-adds and scalings are computed exactly from the values read and
rounded once; `frnd` rounds to an integral value. Each lane's flags are added to FP_FLAGS. -/
def Sys2Proof.Spec.FloatArithmetic : Prop :=
  ∀ (h : Hdr) (f : FnFa) (d a b c : Operand),
    GivesF (.fadd h f d a b) h d (fun s x l =>
      rounded f x (addV (roundsDown f x) (fvalue s x f f.ma a l) (fvalue s x f f.mb b l))) ∧
    GivesF (.fsub h f d a b) h d (fun s x l =>
      rounded f x (addV (roundsDown f x) (fvalue s x f f.ma a l) (fvalue s x f f.mb b l).neg)) ∧
    GivesF (.fmul h f d a b) h d (fun s x l =>
      rounded f x (mulV (fvalue s x f f.ma a l) (fvalue s x f f.mb b l))) ∧
    GivesF (.ffma h f d a b c) h d (fun s x l =>
      rounded f x (fmaV (roundsDown f x) (fvalue s x f f.ma a l) (fvalue s x f f.mb b l) (fvalue s x f f.mc c l))) ∧
    GivesF (.fscaleb h f d a b) h d (fun s x l =>
      rounded f x (scaleV (fvalue s x f f.ma a l) ((s.rd x b l).setWidth 32).toInt)) ∧
    GivesF (.frnd h f d a) h d (fun s x l =>
      let v := fvalue s x f f.ma a l
      ((roundF (fmtOfTy f.ft) .rne false false (integralV (x.mode f.rm) v)).1, if v.sigNan then flagNV else 0))

/-- R144, R145, R148, R149: minimum and maximum, selection by sign, compares and classes of floating-point values. -/
def Sys2Proof.Spec.FloatSelectionCompareAndClass : Prop :=
  ∀ (h : Hdr) (f : FnFa) (k : FnFc) (t : FTy) (d a b c : Operand),
    let m := fun (max : Bool) (s : State) (x : Group) (l : Nat) =>
      minMaxF max (fmtOfTy f.ft) x.fp.daz (fpattern s x f f.ma a l) (fpattern s x f f.mb b l)
    GivesF (.fmin h f d a b) h d (m false) ∧
    GivesF (.fmax h f d a b) h d (m true) ∧
    GivesF (.fsel h f d a b c) h d (fun s x l =>
      let z := fvalue s x f f.mc c l
      let r := if z.isNan || decide (cmpV z (.fin false 0 0) = .lt) then fpattern s x f f.mb b l else fpattern s x f f.ma a l
      (if (decodeF (fmtOfTy f.ft) r).isNan then nanOf (fmtOfTy f.ft) else r, 0)) ∧
    GivesF (.fcmp h k d a b) h d (fun s x l =>
      let r := fcmpHolds k.cc (s.fval x (fmtOfTy k.ft) k.ma a l) (s.fval x (fmtOfTy k.ft) k.mb b l)
      (if r.1 then 1 else 0, r.2)) ∧
    GivesF (.fclass h t d a) h d (fun s x l => (classOf (fmtOfTy t) ((s.rd x a l).toNat % 2 ^ (fmtOfTy t).w), 0))

/-- Floating-point words round once and add their flags: the parts above together. -/
def Obligations.FloatArithmeticAndCompare : Prop := Spec.FloatArithmetic ∧ Spec.FloatSelectionCompareAndClass

/-- R150, R151, R32: a special function sends its result: its destination is empty at once, governed by a new token, under which the
values and the flags of the executing lanes wait for their write-back; with no executing lane nothing happens. A coefficient register
has no full/empty bit: it is written at once, and the flags alone are sent. The value of each lane is the model's
`specialF`, whose last bits are free (log entry 12); that it lies within the bound of R150 is not in this statement. -/
def Obligations.SpecialFunctions : Prop :=
  ∀ (h : Hdr) (f : FnSf) (d a : Operand) (s : State) (g : Nat),
    let x := s.grp g
    let ls := s.lanesFor g h
    let c := specialOperand s x f a
    let v := fun l => s.fval x fp32 f.ma a l
    let send := fun (i : Instr) (r : Nat → Nat × FFlags) => s.Stands g i → s.Guarded g h →
      ∃ t, exec i s = .next (t.retire g h.bnd .on) ∧
        (ls = [] → t = s) ∧
        (ls ≠ [] → ∃ q, Tab.find? s.nextId t.sys.results = some q ∧ q.grp = g ∧ q.fp = true ∧
          (∀ k, q.flags.getLsbD k = ls.any (fun l => (r l).2.getLsbD k)) ∧
          t.pending = s.pending ++ [.resultWriteback s.nextId] ∧
          match d with
          | .v n => q.regs = [n.val] ∧ q.vals = ls.map (fun l => (n.val, l, BitVec.ofNat 64 (r l).1)) ∧
              (s.hasGrp g → t.grp g = { x with regs := x.regs.drain n.val s.nextId })
          | .s n => q.regs = [128 + n.val] ∧
              (∀ top, ls.getLast? = some top → q.vals = [(128 + n.val, 0, BitVec.ofNat 64 (r top).1)]) ∧
              (s.hasGrp g → t.grp g = { x with regs := x.regs.drain (128 + n.val) s.nextId })
          | d => q.regs = [] ∧ Wrote x (t.grp g) d ls (fun l => BitVec.ofNat 64 (r l).1))
    send (.frcp h f d a) (fun l => specialF .rcp f.sat x.fp.ftz (c l) (v l)) ∧
    send (.frsq h f d a) (fun l => specialF .rsq f.sat x.fp.ftz (c l) (v l)) ∧
    send (.fsqrt h f d a) (fun l => sqrtF (x.mode f.rm) f.sat x.fp.ftz (v l)) ∧
    send (.fexp2 h f d a) (fun l => specialF .exp2 f.sat x.fp.ftz (c l) (v l)) ∧
    send (.flog2 h f d a) (fun l => specialF .log2 f.sat x.fp.ftz (c l) (v l)) ∧
    send (.fsin h f d a) (fun l => specialF .sin f.sat x.fp.ftz (c l) (v l)) ∧
    send (.fcos h f d a) (fun l => specialF .cos f.sat x.fp.ftz (c l) (v l)) ∧
    send (.ftanh h f d a) (fun l => specialF .tanh f.sat x.fp.ftz (c l) (v l))

/-- R153 to R157: a conversion writes its element into, or takes it from, a position of a lane's 32 bits; `qnt` writes the scales of
all blocks, or a block's elements; `dqnt` multiplies elements by their scale. Under stochastic rounding of a narrow result the
generators of the lanes step once (R61), and nothing else of the group changes. -/
def Obligations.ConversionAndQuantisation : Prop :=
  ∀ (h : Hdr) (f : FnCv) (q : FnQn) (ef : FmtCode) (half : Bool) (d a b c : Operand) (s : State) (g : Nat),
    let x := s.grp g
    let e := lanesOf (x.execMask h)
    let gives := fun (i : Instr) (ls : List Nat) (gens : List Nat) (r : Nat → Nat × FFlags) => s.Stands g i →
      ∃ y fl, Wrote x y d ls (fun l => BitVec.ofNat 64 (r l).1) ∧
        (∀ k, fl.getLsbD k = ls.any (fun l => (r l).2.getLsbD k)) ∧
        exec i s = .next ((s.setGrp g { y with fp := { y.fp with
          flags := y.fp.flags ||| fl, gens := stepGens x.fp.gens gens } }).retire g h.bnd .on)
    let w := (fmtWidth f.nf).getD 32
    let we := (fmtWidth q.ef).getD 8
    (s.Guarded g h → gives (.cvt h f d a b) (s.lanesFor g h)
      (if f.narrow && stepsGens x f.rm (fmtIsNarrow f.nf) then (s.lanesFor g h).map (genLane x h.uni) else [])
      (fun l =>
        let src := (s.rd x a l).toNat % 2 ^ 32
        if f.narrow then
          let r := narrowF x f (genLane x h.uni l) (readF fp32 x.fp.daz src)
          if w = 32 then r else (putElem ((s.rd x b l).toNat % 2 ^ 32) w f.pos.toNat r.1, r.2)
        else widenF x f (getElem src w f.pos.toNat))) ∧
    gives (.qntElem h q d a b c) e (if stepsGens x q.rm true then e else []) (fun l =>
      let sc := scaleByte q.half (s.rd x c l) l
      let r := if sc = 0xFF then ((0 : Nat), (0 : FFlags)) else
        convert (fmtOf q.ef) (narrowMode x q.rm l) true x.fp.ftz (match s.fval x fp32 ⟨false, false⟩ a l with
          | .fin n m k => .fin n m (k + 127 - sc)
          | v => v)
      (putElem ((s.rd x b l).toNat % 2 ^ 32) we q.pos.toNat r.1, r.2)) ∧
    gives (.dqnt h q d a c) e [] (fun l =>
      let sc := scaleByte q.half (s.rd x c l) l
      if sc = 0xFF then (nanOf fp32, 0)
      else match decodeVal (fmtOf q.ef) (getElem ((s.rd x a l).toNat % 2 ^ 32) we q.pos.toNat) with
        | .nan _ => (nanOf fp32, 0)
        | .inf n => roundF fp32 (x.mode q.rm) false x.fp.ftz (.inf n)
        | .fin n m k => roundF fp32 (x.mode q.rm) false x.fp.ftz (.fin n m (k + sc - 127))) ∧
    (x.uniGuard h = .run → e ≠ [] →
      let n := blockLen half
      let scales := (List.range (96 / n)).map (fun k =>
        let xs := (e.filter (fun l => decide (l / n = k))).map (fun l => s.fval x fp32 ⟨false, false⟩ a l)
        if xs = [] then ((0 : Nat), (0 : FFlags)) else blockScale (emaxOf (fmtOf ef)) xs)
      s.Stands g (.qntScale h ef half d a) →
        ∃ y fl, Wrote x y d [0] (fun _ => BitVec.ofNat 64 ((scales.mapIdx (fun k r => r.1 * 2 ^ (8 * k))).sum)) ∧
          (∀ k, fl.getLsbD k = scales.any (fun r => r.2.getLsbD k)) ∧
          exec (.qntScale h ef half d a) s = .next ((s.setGrp g (y.addFlags fl)).retire g h.bnd .on))

/-! ## Runs, branches, divergence regions, and the words that end a path -/

namespace Sys2Proof.Spec
open Sys2Proof.Machine

/-- Group `g` takes trap `cause` before any effect of its word: the trap names the word at the program counter and the active lanes
(R186). -/
def trapsBefore (s : State) (g : Nat) (i : Instr) (cause : Nat) (info addr : Word) : Prop :=
  let f := (s.grp g).flow
  let q : TrapReq := { cause := cause, info := info, addr := addr, lanes := f.mask, pc := f.pc, resume := f.pc }
  exec i s = .next (s.takeTrap g q)

/-- A stack entry at the end of a run (R38): a path that was there when the run began gains 1 in its age. -/
def aged (e : Entry) : Entry :=
  { e with fresh := false, age := if e.kind = .path ∧ e.fresh = false ∧ e.age ≠ 0xFFFF#16 then e.age + 1 else e.age }

/-- The same group on another path. -/
def onPath (x : Group) (f : Flow) : Group := { x with flow := f }

end Sys2Proof.Spec

/-- R29, R30, R189: after a word of a group with no record that is due, the next word follows; where the word has BND, is the 24th
of its run, or ends it, the run ends: the group gives its port back, is eligible from this tick, its run offset is 0, its paths
have aged, and it is noted whether one was switched to (R38). Nothing else of the group, no other group, and no byte of memory
changes. -/
def Sys2Proof.Spec.WhatFollowsAWord : Prop :=
  ∀ (s : State) (g : Nat) (bnd : Bool) (pc : PC), s.hasGrp g = true → (s.grp g).dueDefs = [] →
    let x := s.grp g
    let limit := (s.ctxRegs x.core x.ctx).ageLimit.toNat
    let ended := fun (t : State) (f : Flow) =>
      t.grp g = { x with
        port := none, flow := ({ f with run := 0 } : Flow).age x.ageBase limit,
        sched := { x.sched with since := s.tick, switched := (overdue (f.aged x.ageBase) limit).isSome, kept := false } }
    let same := fun (t : State) => (∀ k, k ≠ g → t.grp k = s.grp k) ∧ (∀ pa, t.byte pa = s.byte pa) ∧ t.mgmt = s.mgmt ∧
      t.teams = s.teams ∧ t.sys = s.sys ∧ t.hub = s.hub ∧ t.tick = s.tick ∧ t.pending = s.pending
    (bnd = false → x.flow.run < 23 →
      (s.retire g bnd .on).grp g =
        { onPath x { x.flow with pc := x.flow.pc + 1, run := x.flow.run + 1 } with sched := { x.sched with kept := false } }) ∧
    (bnd = true ∨ 23 ≤ x.flow.run → ended (s.retire g bnd .on) { x.flow with pc := x.flow.pc + 1 }) ∧
    ended (s.retire g bnd .run) { x.flow with pc := x.flow.pc + 1 } ∧
    ended (s.retire g bnd (.jump pc)) { x.flow with pc := pc } ∧
    ended (s.retire g bnd .moved) x.flow ∧
    (s.retire g bnd .wait).grp g = x ∧
    s.retire g bnd .done = s ∧
    ∀ e, same (s.retire g bnd e)

/-- R38: at the end of a run outside a handler every path that was on the stack when the run began gains 1 in its age, saturating;
where no age reaches AGE_LIMIT the path stays; else the path of the greatest age, the lowest on the stack among equals, runs, and the
path that ran is on top of the stack with age 0, the depth unchanged. -/
def Sys2Proof.Spec.PathsAgeAndSwitch : Prop :=
  ∀ (f : Flow) (limit : Nat),
    ((∀ e ∈ f.stack, e.kind = .path → (aged e).age.toNat < limit) → f.age 0 limit = { f with stack := f.stack.map aged }) ∧
    (∀ i e, f.stack[i]? = some e → e.kind = .path → limit ≤ (aged e).age.toNat →
      (∀ j e', f.stack[j]? = some e' → e'.kind = .path →
        (aged e').age.toNat ≤ (aged e).age.toNat ∧ (j < i → (aged e').age.toNat < (aged e).age.toNat)) →
      let y := f.age 0 limit
      y.pc = e.addr ∧ y.mask = e.mask &&& ~~~(f.exited ||| f.deferred) ∧ y.stack.length = f.stack.length ∧
        y.exited = f.exited ∧ y.deferred = f.deferred ∧ y.run = 0 ∧
        (y.stack.getLast?.map (fun t => (t.kind, t.addr, t.mask, t.age)) = some (.path, f.pc, f.mask, 0)) ∧
        y.stack.map (fun t => (t.kind, t.addr, t.mask)) =
          (f.stack.eraseIdx i).map (fun t => (t.kind, t.addr, t.mask)) ++ [(.path, f.pc, f.mask)])

/-- What follows a word: the next word, or the end of the run and the ages of its paths: the parts above together. -/
def Obligations.WordsRunsAndAges : Prop := Spec.WhatFollowsAWord ∧ Spec.PathsAgeAndSwitch

/-- R128: the way of a branch over the active lanes. `bra` is taken by all lanes, by none, or diverges: then the lanes that take it
wait on the stack at the target, and the others go on in a new run; a divergent branch on a full stack traps. The uniform words
go to their target in a new run, where their guard holds; a call writes its link; a target in a register that is misaligned or too
great traps with the register's value before any effect. -/
def Obligations.BranchesAndCalls : Prop :=
  ∀ (h : Hdr) (off : BitVec 30) (d a : Operand) (s : State) (g : Nat),
    let x := s.grp g
    let target : PC := x.flow.pc + off.signExtend 54
    let t := x.flow.mask &&& x.guardMask h
    let bare := h.gp = 7 ∧ h.gn = false
    let go := fun (i : Instr) (u : State) (e : Ends) => exec i s = .next (u.retire g h.bnd e)
    let r := s.rd x a 0
    let bad := r.extractLsb' 0 3 ≠ 0 ∨ r.extractLsb' 57 7 ≠ 0
    let toReg : PC := r.extractLsb' 3 54
    let link : Word := 8 * (x.flow.pc + 1).setWidth 64
    (s.Stands g (.bra h off) → s.hasGrp g = true →
      (x.flow.mask = 0 → bare → go (.bra h off) s (.jump target)) ∧
      (x.flow.mask = 0 → ¬ bare → go (.bra h off) s .on) ∧
      (x.flow.mask ≠ 0 → t = 0 → go (.bra h off) s .on) ∧
      (x.flow.mask ≠ 0 → t = x.flow.mask → go (.bra h off) s (.jump target)) ∧
      (t ≠ 0 → t ≠ x.flow.mask → x.flow.stack.length < 32 →
        go (.bra h off) (s.setGrp g (onPath x { x.flow with
          mask := x.flow.mask &&& ~~~t &&& ~~~(x.flow.exited ||| x.flow.deferred),
          stack := x.flow.stack ++
            [{ kind := .path, addr := target, mask := t, link := x.flow.region, age := 0, fresh := true }] })) .run) ∧
      (t ≠ 0 → t ≠ x.flow.mask → 32 ≤ x.flow.stack.length → trapsBefore s g (.bra h off) 0x08 1 0)) ∧
    (s.Stands g (.brau h off) → x.uniGuard h = .run → go (.brau h off) s (.jump target)) ∧
    (s.Stands g (.brau h off) → x.uniGuard h = .skip → go (.brau h off) s .on) ∧
    (s.Stands g (.call h d off) → x.uniGuard h = .run →
      ∃ y, Wrote x y d [0] (fun _ => link) ∧ go (.call h d off) (s.setGrp g y) (.jump target)) ∧
    (s.Stands g (.call h d off) → x.uniGuard h = .skip → go (.call h d off) s .on) ∧
    (s.Stands g (.callReg h d a) → x.uniGuard h = .run →
      (bad → trapsBefore s g (.callReg h d a) 0x15 0xF r) ∧
      (¬ bad → ∃ y, Wrote x y d [0] (fun _ => link) ∧ go (.callReg h d a) (s.setGrp g y) (.jump toReg))) ∧
    (s.Stands g (.callReg h d a) → x.uniGuard h = .skip → go (.callReg h d a) s .on) ∧
    (s.Stands g (.ret h a) → x.uniGuard h = .run →
      (bad → trapsBefore s g (.ret h a) 0x15 0xF r) ∧ (¬ bad → go (.ret h a) s (.jump toReg))) ∧
    (s.Stands g (.ret h a) → x.uniGuard h = .skip → go (.ret h a) s .on)

/-- R36, R129, R130: `jmark` opens a region: a rejoin entry on top, whose place is the current region; `join` and `brk` add lanes to
the region that waits at their address, and trap where it does not match; `join` ends the path, and so does a `brk` that leaves no
lane. -/
def Obligations.DivergenceRegions : Prop :=
  ∀ (h : Hdr) (off : BitVec 30) (s : State) (g : Nat),
    let x := s.grp g
    let f := x.flow
    let target : PC := f.pc + off.signExtend 54
    let go := fun (i : Instr) (u : State) (e : Ends) => exec i s = .next (u.retire g h.bnd e)
    let gathered := fun (i : Nat) (m : Mask) =>
      { f with stack := f.stack.modify i (fun e => { e with mask := e.mask ||| m }) }
    let endsPath := fun (i : Instr) (u : State) =>
      go i (u.pathEnd g) (if (u.pathEnd g).hasGrp g then .moved else .done)
    let at_ := fun (addr : PC) (i : Nat) => f.region = some i ∧ ∃ e, f.stack[i]? = some e ∧ e.addr = addr
    let b := x.execMask h
    (s.Stands g (.jmark h off) →
      (f.stack.length < 32 → go (.jmark h off) (s.setGrp g (onPath x { f with
        region := some f.stack.length,
        stack := f.stack ++
          [{ kind := .rejoin, addr := target, mask := 0, link := f.region, age := 0, fresh := true }] })) .on) ∧
      (32 ≤ f.stack.length → trapsBefore s g (.jmark h off) 0x08 1 0)) ∧
    (s.Stands g (.join h) →
      (∀ i, at_ f.pc i → endsPath (.join h) (s.setGrp g (onPath x (gathered i f.mask)))) ∧
      ((∀ i, ¬ at_ f.pc i) → trapsBefore s g (.join h) 0x08 2 0)) ∧
    (s.Stands g (.brk h off) →
      (∀ i, at_ target i →
        let left := f.mask &&& ~~~b &&& ~~~(f.exited ||| f.deferred)
        let u := s.setGrp g (onPath x { gathered i b with mask := left })
        (b = 0 → go (.brk h off) s .on) ∧
        (b ≠ 0 → left ≠ 0 → go (.brk h off) u .run) ∧
        (b ≠ 0 → left = 0 → endsPath (.brk h off) u)) ∧
      ((∀ i, ¬ at_ target i) → trapsBefore s g (.brk h off) 0x08 2 0))

/-- R36: the end of a path. The current region completes while no path entry's links reach it: where lanes have gathered there they
run on after its address, in the enclosing region; else the region is left. With a path still to come, or with no region, the
topmost path entry runs, in its own region. Without any path, the group ends. -/
def Sys2Proof.Spec.PathEnd : Prop :=
  ∀ (f : Flow) (n : Nat),
    (∀ i e, f.region = some i → f.stack[i]? = some e → f.pendingIn i = false →
      (e.mask ≠ 0 → ∃ y, Flow.pathEnd (n + 1) f = .run y ∧ y.pc = e.addr + 1 ∧ y.region = e.link ∧
        y.mask = e.mask &&& ~~~(f.exited ||| f.deferred) ∧
        y.stack.map (fun t => (t.kind, t.addr, t.mask)) = (f.stack.eraseIdx i).map (fun t => (t.kind, t.addr, t.mask))) ∧
      (e.mask = 0 → Flow.pathEnd (n + 1) f = Flow.pathEnd n { f.removeEntry i with region := e.link })) ∧
    (f.region = none ∨ (∃ i, f.region = some i ∧ f.pendingIn i = true) →
      (∀ i e, f.stack[i]? = some e → e.kind = .path → (∀ j e', i < j → f.stack[j]? = some e' → e'.kind ≠ .path) →
        ∃ y, Flow.pathEnd (n + 1) f = .run y ∧ y.pc = e.addr ∧ y.region = e.link ∧
          y.mask = e.mask &&& ~~~(f.exited ||| f.deferred) ∧
          y.stack.map (fun t => (t.kind, t.addr, t.mask)) = (f.stack.eraseIdx i).map (fun t => (t.kind, t.addr, t.mask))) ∧
      ((∀ e ∈ f.stack, e.kind ≠ .path) → ∃ y, Flow.pathEnd (n + 1) f = .ended y))

/-- R37, R131: `yield` ends the run; `nop` does nothing, whatever its guard (log entry 73); `exit` takes the executing lanes for good, out of the mask and of every
entry, drops the entries that lose their last lane, and ends the path where no lane is left; `sleep` suspends the group until its
deadline, or acts as `yield` where the deadline is not later than now; a sleeper whose deadline has come is eligible again. -/
def Sys2Proof.Spec.YieldExitNopSleep : Prop :=
  ∀ (h : Hdr) (rel : Bool) (a : Operand) (s : State) (g : Nat),
    let x := s.grp g
    let go := fun (i : Instr) (u : State) (e : Ends) => exec i s = .next (u.retire g h.bnd e)
    let d := if rel then s.tick + s.rd x a 0 else s.rd x a 0
    let gone := x.execMask h
    let left := x.flow.exitLanes gone
    (s.Stands g (.yield h) → (x.uniGuard h = .run → go (.yield h) s .run) ∧ (x.uniGuard h = .skip → go (.yield h) s .on)) ∧
    (s.Stands g (.nop h) → go (.nop h) s .on) ∧
    (s.Stands g (.exit h) →
      left.exited = x.flow.exited ||| gone ∧ left.mask = x.flow.mask &&& ~~~gone ∧
      (∀ e ∈ left.stack, e.mask &&& gone = 0) ∧
      (x.flow.stack.length ≤ 33 → (∀ e ∈ x.flow.stack, e.kind = .path → e.mask ≠ 0) → ∀ e ∈ left.stack, e.kind = .path → e.mask ≠ 0) ∧
      (∀ e ∈ x.flow.stack, e.kind = .path → e.mask = 0 → ∃ e' ∈ left.stack, e'.kind = .path ∧ e'.addr = e.addr ∧ e'.mask = 0) ∧
      let u := s.setGrp g (onPath x left)
      (left.mask ≠ 0 → go (.exit h) u .on) ∧
      (left.mask = 0 → go (.exit h) (u.pathEnd g) (if (u.pathEnd g).hasGrp g then .moved else .done))) ∧
    (s.Stands g (.sleep h rel a) → x.uniGuard h = .run → s.hasGrp g = true →
      (d ≤ s.tick → go (.sleep h rel a) s .run) ∧
      (¬ d ≤ s.tick → go (.sleep h rel a) (s.setGrp g { x with sched := { x.sched with susp := .sleep d } }) .run)) ∧
    (s.Stands g (.sleep h rel a) → x.uniGuard h = .skip → go (.sleep h rel a) s .on) ∧
    (∀ w, s.hasGrp g = true → x.sched.susp = .sleep w →
      (w ≤ s.tick → exec (.sleepDeadline g) s =
        .next (s.setGrp g { x with sched := { x.sched with susp := .none, since := s.tick } })) ∧
      (¬ w ≤ s.tick → exec (.sleepDeadline g) s = .next s))

/-- The end of a path; yield, nop, exit and sleep: the parts above together. -/
def Obligations.PathEndExitAndSleep : Prop := Spec.PathEnd ∧ Spec.YieldExitNopSleep

/-! ## The paired word -/

namespace Sys2Proof.Spec
open Sys2Proof.Machine

/-- The register or predicate that a slot writes (R74, R75). -/
def slotDst (o : SlotOp) : Operand :=
  match o.writes, o.writesPred with
  | some d, _ => Reg7.op d
  | none, some p => .p (if p then 1 else 0)
  | none, none => .zero

/-- Whether a slot works on 64 bits: its destination is a scalar, or it compares and executes once (R73). -/
def slotWide (o : SlotOp) (once : Bool) : Bool :=
  match o.writes with
  | some (.v _) => false
  | some (.s _) => true
  | none => once

/-- The lanes that a slot writes: those in which it runs; a compare that executes once writes every active lane (R75). -/
def slotLanes (x : Group) (o : SlotOp) (r : SlotRun) : List Nat :=
  if o.writesPred.isSome && r.once then (if r.lanes = 0 then [] else lanesOf x.flow.mask) else lanesOf r.lanes

/-- The value of a slot for a lane, from the registers before the word (R77), and its flags. -/
def slotValue (s : State) (x : Group) (o : SlotOp) (r : SlotRun) (l : Nat) : Word × FFlags :=
  let k := if o.writesPred.isSome && r.once then 0 else l
  s.slotVal x o (slotWide o r.once) (r.sel.getLsbD k) k

/-- The flags of the lanes in which a slot runs. -/
def slotFlag (s : State) (x : Group) (o : SlotOp) (r : SlotRun) (k : Nat) : Bool :=
  (lanesOf r.lanes).any (fun l => (s.slotVal x o (slotWide o r.once) (r.sel.getLsbD l) l).2.getLsbD k)

end Sys2Proof.Spec

/-- R72, R73, R75, R77: a paired word whose slots run (their sources full, their guards and selections agreed) makes the writes of both
slots from the registers as they stood before the word, A's first, adds the flags of both to FP_FLAGS, and then branches where slot B is
`bra`. Where slot B's branch diverges on a full stack the word traps before any effect. That a compare that executes once takes 64-bit
operands is log entry 96. -/
def Sys2Proof.Spec.PairedWord : Prop :=
  ∀ (bnd : Bool) (a b : Slot) (ra rb : SlotRun) (s : State) (g : Nat),
    let i : Instr := .pairedWord bnd a b
    let x := s.grp g
    let runs := s.Stands g i ∧ s.hasGrp g = true ∧ x.policyOf false (slotSrcs a) = .ok ∧ x.policyOf true (slotSrcs b) = .ok ∧
      x.slotRun false a = .ok ra ∧ x.slotRun true b = .ok rb ∧ a.op.isSpecial = false ∧ b.op.isSpecial = false
    let t := x.flow.mask &&& x.slotMask b.gd
    runs →
      ∃ y z fl, Wrote x y (slotDst a.op) (slotLanes x a.op ra) (fun l => (slotValue s x a.op ra l).1) ∧
        Wrote y z (slotDst b.op) (slotLanes x b.op rb) (fun l => (slotValue s x b.op rb l).1) ∧
        (∀ k, fl.getLsbD k = (slotFlag s x a.op ra k || slotFlag s x b.op rb k)) ∧
        let u := s.setGrp g (z.addFlags fl)
        match b.op with
        | .bra off =>
          let target : PC := x.flow.pc + off.signExtend 54
          let way := branchWay x.flow.mask (x.slotMask b.gd) (decide (b.gd = .always))
          (x.branchBlocked way = true → trapsBefore s g i 0x08 1 0) ∧
          (x.branchBlocked way = false → exec i s = .next ((u.branch g way target).1.retire g bnd (u.branch g way target).2)) ∧
          (t ≠ 0 → t ≠ x.flow.mask → way = .split t)
        | _ => exec i s = .next (u.retire g bnd .on)

/-- R72, R73, R150: a special function in a slot sends its result, as the full word does, beside the other slot's effect: here in slot A,
with an ordinary slot B. One in slot B, or beside `bra`, is not in this statement. -/
def Sys2Proof.Spec.PairedSpecialFunction : Prop :=
  ∀ (bnd : Bool) (a b : Slot) (d r : Reg7) (ra rb : SlotRun) (s : State) (g : Nat),
    let i : Instr := .pairedWord bnd a b
    let x := s.grp g
    let n := match d with | .v n => n.val | .s n => 128 + n.val
    let ls := lanesOf ra.lanes
    s.Stands g i → s.hasGrp g = true → x.policyOf false (slotSrcs a) = .ok → x.policyOf true (slotSrcs b) = .ok →
      x.slotRun false a = .ok ra → x.slotRun true b = .ok rb → (a.op = .frcp d r ∨ a.op = .fexp2 d r) →
      b.op.isSpecial = false → b.op.isBra = false → ls ≠ [] →
      ∃ (z : Machine.Group) (fl : FFlags) (t : State) (q : Result), exec i s = .next (t.retire g bnd .on) ∧
        Wrote { x with regs := x.regs.drain n s.nextId } z (slotDst b.op) (slotLanes x b.op rb)
          (fun l => (slotValue s x b.op rb l).1) ∧
        t.grp g = z.addFlags fl ∧ (∀ k, fl.getLsbD k = slotFlag s x b.op rb k) ∧
        Tab.find? s.nextId t.sys.results = some q ∧ q.grp = g ∧ q.regs = [n] ∧
        (∀ k, q.flags.getLsbD k = slotFlag s x a.op ra k) ∧
        q.vals = (match d with
          | .v n => ls.map (fun l => (n.val, l, (slotValue s x a.op ra l).1))
          | .s n => match ls.getLast? with | some top => [(128 + n.val, 0, (slotValue s x a.op ra top).1)] | none => [])

/-- Both slots of a paired word read first and then write, A before B: the parts above together. -/
def Obligations.PairedWords : Prop := Spec.PairedWord ∧ Spec.PairedSpecialFunction

/-! ## Barriers -/

/-- R132, R133, R134: `bar` and `cbar` suspend the group and end its run. While an earlier access on LS is not performed the group has
not arrived; once they are, its arrival is made. The first arrival of a generation fixes the count (every live group for `zero`
or 0); an arrival that leaves fewer than the count, and fewer than the live groups, waits; one that makes them up to either starts
the generation over, and every arrived group is eligible in the same tick. -/
def Sys2Proof.Spec.TeamAndClusterBarriers : Prop :=
  ∀ (h : Hdr) (id : Fin 16) (a : Operand) (s : State) (g : Nat),
    let x := s.grp g
    let tm := s.team x.team
    let n := if a = .zero then 0 else (s.rd x a 0).toNat % 2 ^ 32
    let wait := fun (w : Susp) => s.setGrp g { x with sched := { x.sched with susp := w } }
    let b := Tab.get Barrier.reset id.val tm.bars
    let need := if b.arrived = [] then (if n = 0 then tm.members.length else n) else b.need
    let k := s.cluster tm.cluster
    let live := k.teams.flatMap (fun t => (s.team t).members)
    let cneed := if k.bar.arrived = [] then live.length else k.bar.need
    s.hasGrp g = true → (Tab.find? x.team s.teams).isSome = true →
      (s.Stands g (.bar h id a) → x.uniGuard h = .run →
        (s.lsDone g x.team x.mem.seq .team false = false →
          exec (.bar h id a) s = .next ((wait (.bar id.val n false)).retire g h.bnd .run)) ∧
        (s.lsDone g x.team x.mem.seq .team false = true → ∃ t : State, exec (.bar h id a) s = .next (t.retire g h.bnd .run) ∧
          (b.arrived.length + 1 < min need tm.members.length →
            t.grp g = { x with sched := { x.sched with susp := .bar id.val n true } } ∧
            Tab.get Barrier.reset id.val (t.team x.team).bars = { gen := b.gen, arrived := b.arrived ++ [g], need := need }) ∧
          (min need tm.members.length ≤ b.arrived.length + 1 →
            Tab.get Barrier.reset id.val (t.team x.team).bars = { gen := b.gen + 1, arrived := [], need := 0 } ∧
            ∀ u ∈ b.arrived ++ [g], s.hasGrp u = true → (t.grp u).sched.susp = .none ∧ (t.grp u).sched.since = s.tick))) ∧
      (s.Stands g (.bar h id a) → x.uniGuard h = .skip → exec (.bar h id a) s = .next (s.retire g h.bnd .on)) ∧
      (s.Stands g (.cbar h) → x.uniGuard h = .run →
        (s.lsDone g x.team x.mem.seq .cluster false = false →
          exec (.cbar h) s = .next ((wait (.cbar false)).retire g h.bnd .run)) ∧
        (s.lsDone g x.team x.mem.seq .cluster false = true → ∃ t : State, exec (.cbar h) s = .next (t.retire g h.bnd .run) ∧
          (k.bar.arrived.length + 1 < min cneed live.length →
            t.grp g = { x with sched := { x.sched with susp := .cbar true } } ∧
            (t.cluster tm.cluster).bar = { gen := k.bar.gen, arrived := k.bar.arrived ++ [g], need := cneed }) ∧
          (min cneed live.length ≤ k.bar.arrived.length + 1 →
            (t.cluster tm.cluster).bar = { gen := k.bar.gen + 1, arrived := [], need := 0 } ∧
            ∀ u ∈ k.bar.arrived ++ [g], s.hasGrp u = true → (t.grp u).sched.susp = .none ∧ (t.grp u).sched.since = s.tick)))

/-- R135: the step of an `mbar` on its word: with at least n arrivals the generation advances modulo 2^32 and the count starts over,
else the count gains 1; a misaligned word traps with its address; otherwise the group is suspended at the barrier, with n at least
1, its run ends, and where its release is still to be performed it has not arrived; a waiter leaves when the generation in memory is
not the one that it waits on. That an `mbar` executes with an empty mask is log entry 57. -/
def Sys2Proof.Spec.MemoryBarrier : Prop :=
  (∀ (old : Word) (n : Nat),
    let arr := (old.extractLsb' 0 32).toNat
    let gen := old.extractLsb' 32 32
    (n ≤ arr + 1 → mbarStep old n = ((gen + 1) ++ 0#32, true)) ∧
    (arr + 1 < n → n < 2 ^ 32 → mbarStep old n = (gen ++ BitVec.ofNat 32 (arr + 1), false))) ∧
  (∀ (h : Hdr) (sc : Scope) (a b : Operand) (s : State) (g : Nat),
    let i : Instr := .mbar h sc a b
    let x := s.grp g
    let va := s.rd x a 0
    let w := s.translate x.core x.ctx (vaOf va) true
    let info : WordInfo := { localInfo s g x true x.flow.mask 0 8 false .zero with scope := sc }
    s.Stands g i → x.uniGuard h = .run → s.hasGrp g = true →
      (va.toNat % 8 ≠ 0 → trapsBefore s g i 0x15 1 va) ∧
      (va.toNat % 8 = 0 → s.lsWaits g x = true → exec i s = .next (s.retire g h.bnd .wait)) ∧
      (va.toNat % 8 = 0 → s.lsWaits g x = false → (∀ e n, w.1 ≠ .leaf e n) → s.lsDone g x.team x.mem.seq sc false = false →
        ∃ t : State, exec i s = .next (t.retire g h.bnd .run) ∧
          t.grp g = { x with
            mem := { x.mem with seq := x.mem.seq + 1 },
            sched := { x.sched with susp := .mbar info va (max ((s.rd x b 0).toNat % 2 ^ 32) 1) 0 0 false none } })) ∧
  (∀ (s : State) (g pa : Nat) (i : WordInfo) (va : Word) (n : Nat) (gen : BitVec 32),
    s.groups.map Prod.fst = [g] → (s.grp g).sched.susp = .mbar i va n pa gen true none → i.scope = .team →
      (s.mbarGen pa ≠ gen → ∃ t, exec (.mbarRelease pa) s = .next t ∧ (t.grp g).sched.susp = .none ∧
        (t.grp g).sched.since = s.tick) ∧
      (s.mbarGen pa = gen → g ∉ s.hub.mbarGone → exec (.mbarRelease pa) s = .next s))

/-- Team, cluster and memory barriers suspend, count and release: the parts above together. -/
def Obligations.Barriers : Prop := Spec.TeamAndClusterBarriers ∧ Spec.MemoryBarrier

/-- R132 to R135: `bar`, `cbar` and `mbar` complete: the word answers a next state whatever the arrivals, with memory as it was
but for the barrier word, and the group goes on after it: at once where it is the last to arrive, else as a waiter. An `mbar` arrives at a
word of HBM that its translation, page and access table let it reach, with nothing before it in the way; the word takes the step of R135.
A release lets go every waiter whose generation has been replaced, and keeps the others. That an `mbar` executes with an empty mask is log
entry 57. -/
def Obligations.BarrierWordsComplete : Prop :=
  (∀ (h : Hdr) (id : Fin 16) (a : Operand) (s : State) (g : Nat),
    let x := s.grp g
    let tm := s.team x.team
    let n := if a = .zero then 0 else (s.rd x a 0).toNat % 2 ^ 32
    let b := Tab.get Barrier.reset id.val tm.bars
    let need := if b.arrived = [] then (if n = 0 then tm.members.length else n) else b.need
    let free := s.lsDone g x.team x.mem.seq .team false
    let last := min need tm.members.length ≤ b.arrived.length + 1
    s.hasGrp g = true → (Tab.find? x.team s.teams).isSome = true → s.Stands g (.bar h id a) → x.uniGuard h = .run →
      ∃ t : State, exec (.bar h id a) s = .next (t.retire g h.bnd .run) ∧ t.mem = s.mem ∧ t.tick = s.tick ∧
        t.grp g = { x with sched := { x.sched with
          susp := if free = false then .bar id.val n false else if last then .none else .bar id.val n true,
          since := if free = true ∧ last then s.tick else x.sched.since } }) ∧
  (∀ (h : Hdr) (s : State) (g : Nat),
    let x := s.grp g
    let k := s.cluster (s.team x.team).cluster
    let live := k.teams.flatMap (fun t => (s.team t).members)
    let need := if k.bar.arrived = [] then live.length else k.bar.need
    let free := s.lsDone g x.team x.mem.seq .cluster false
    let last := min need live.length ≤ k.bar.arrived.length + 1
    s.hasGrp g = true → s.Stands g (.cbar h) → x.uniGuard h = .run →
      ∃ t : State, exec (.cbar h) s = .next (t.retire g h.bnd .run) ∧ t.mem = s.mem ∧ t.tick = s.tick ∧
        t.grp g = { x with sched := { x.sched with
          susp := if free = false then .cbar false else if last then .none else .cbar true,
          since := if free = true ∧ last then s.tick else x.sched.since } }) ∧
  (∀ (h : Hdr) (sc : Scope) (a b : Operand) (s w : State) (g pa size home off : Nat) (e leaf : Word),
    let i : Instr := .mbar h sc a b
    let x := s.grp g
    let va := s.rd x a 0
    let n := max ((s.rd x b 0).toNat % 2 ^ 32) 1
    let old : Word := BitVec.ofNat 64 (s.load pa 8)
    let new := mbarStep old n
    s.hasGrp g = true → s.Stands g i → x.uniGuard h = .run → va.toNat % 8 = 0 → eaBad va = false → s.lsWaits g x = false →
      s.lsDone g x.team x.mem.seq sc false = true → s.translate x.core x.ctx (vaOf va) true = (.leaf e size, w) →
      w.resolve x.core x.ctx x.sup (vaOf va) .atomic mbarKind (.leaf e size) = .ok pa leaf →
      s.sys.migs = [] → s.sys.own = [] → s.sys.reqs = [] → s.repl.strongs = [] → (s.team x.team).rrMode = 0 →
      placeOf s.tagging pa = .hbm home off → w.refuses x.ctx 0 leaf pa (mbarAcc va new.1) = none →
      ∃ t : State, exec i s = .next (t.retire g h.bnd .run) ∧ t.load pa 8 = new.1.toNat ∧
        (∀ p, p < pa ∨ pa + 8 ≤ p → t.byte p = s.byte p) ∧ (t.grp g).flow = x.flow ∧ (t.grp g).regs = x.regs ∧
        (new.2 = true → (t.grp g).sched.susp = .none ∧ (t.grp g).sched.since = s.tick) ∧
        (new.2 = false → ∃ info, (t.grp g).sched.susp = .mbar info va n pa (old.extractLsb' 32 32) true none)) ∧
  (∀ (s : State) (pa : Nat), ∃ t, exec (.mbarRelease pa) s = .next t ∧ t.mem = s.mem ∧ (∀ g, g ∉ s.mbarAt pa → t.grp g = s.grp g) ∧
    ∀ (g : Nat) (i : WordInfo) (va : Word) (n : Nat) (gen : BitVec 32), s.hasGrp g = true →
      (s.grp g).sched.susp = .mbar i va n pa gen true none →
        (s.mbarGen pa ≠ gen ∨ g ∈ s.hub.mbarGone → t.grp g = { s.grp g with sched := { (s.grp g).sched with susp := .none, since := s.tick } }) ∧
        (s.mbarGen pa = gen → g ∉ s.hub.mbarGone → t.grp g = s.grp g))

/-! ## Memory words -/

namespace Sys2Proof.Spec
open Sys2Proof.Machine

/-- What a memory word does in a lane: its header, whether it makes one access for the group (R252, R261), what the access is, and
its address (R250), data (R251) and compared value for each lane. -/
structure MemWordOf where
  h : Hdr
  once : Bool
  sp : MemSpec
  ea : Nat → Word
  data : Nat → BitVec 128
  cmp : Nat → Word

/-- The index of an F3 address (R250). -/
def indexOf (s : State) (x : Group) (b : Operand) (xs : Bool) (l : Nat) : Word :=
  match b with
  | .v n => if xs then (x.vreg n l).signExtend 64 else (x.vreg n l).setWidth 64
  | .s n => x.sreg n
  | b => s.rd x b l

/-- The loads, stores, atomics and tag words, by R250 to R264, R273, R275. -/
def memWord (s : State) (x : Group) (i : Instr) : Option MemWordOf :=
  let fm := fun (a : Operand) (off : BitVec 22) l => s.rd x a l + BitVec.ofInt 64 off.toInt
  let fx := fun (a b : Operand) (xs : Bool) l => s.rd x a l + indexOf s x b xs l
  match i with
  | .ld h f d a off => some ⟨h, h.uni, loadSpec f.seg f.sz (loadFord f.ford) d, fm a off, fun _ => 0, fun _ => 0⟩
  | .ldIndexed h f d a b =>
    some ⟨h, h.uni, loadSpec f.seg f.sz (memOrd f.ord f.scope true) d, fx a b f.xs, fun _ => 0, fun _ => 0⟩
  | .ldu h f d a off => some ⟨h, true, loadSpec f.seg f.sz (loadFord f.ford) d, fm a off, fun _ => 0, fun _ => 0⟩
  | .st h f d a off =>
    some ⟨h, h.uni, storeSpec f.seg f.sz (storeFord f.ford), fm a off, s.laneData x d f.sz.bytes, fun _ => 0⟩
  | .stIndexed h f a b c =>
    some ⟨h, h.uni, storeSpec f.seg f.sz (memOrd f.ord f.scope false), fx a b f.xs, s.laneData x c f.sz.bytes, fun _ => 0⟩
  | .atom h f d a off => some ⟨h, h.uni, atomSpec f.op f.ty f.seg (atomFordF f.seg) true d, fm a off,
      s.laneData x d (f.ty.bits / 8), fun _ => 0⟩
  | .atomIndexed h f d a b c => some ⟨h, h.uni, atomSpec f.op f.ty f.seg (atomOrd f.ord f.scope) true d, fx a b false,
      s.laneData x c (f.ty.bits / 8), fun l => (s.laneData x d (f.ty.bits / 8) l).setWidth 64⟩
  | .red h f d a off => some ⟨h, h.uni, atomSpec f.op f.ty f.seg (atomFordF f.seg) false .zero, fm a off,
      s.laneData x d (f.ty.bits / 8), fun _ => 0⟩
  | .redIndexed h f a b c => some ⟨h, h.uni, atomSpec f.op f.ty f.seg (atomOrd f.ord f.scope) false .zero, fx a b false,
      s.laneData x c (f.ty.bits / 8), fun _ => 0⟩
  | .cwb h a off => some ⟨h, true, plainSpec .cwb 1 .zero, fm a off, fun _ => 0, fun _ => 0⟩
  | .ldtag h d a off => some ⟨h, h.uni, plainSpec .ldtag 1 d, fm a off, fun _ => 0, fun _ => 0⟩
  | .sttag h d a off => some ⟨h, h.uni, plainSpec .sttag 1 .zero, fm a off, s.laneData x d 1, fun _ => 0⟩
  | _ => none

/-- The executing lanes of a memory word (R252). -/
def memLanesOf (x : Group) (m : MemWordOf) : Mask := if m.once then x.flow.mask else x.execMask m.h

/-- The accesses of a memory word: one for each executing lane, or one for the group. -/
def accessesOf (x : Group) (m : MemWordOf) : List Acc :=
  (if m.once then [0] else lanesOf (memLanesOf x m)).map (fun l =>
    { lane := l, off := 0, va := m.ea l, op := m.sp.op, size := m.sp.size, data := m.data l, cmp := m.cmp l, bmask := 0 })

end Sys2Proof.Spec

/-- R250 to R264, R273, R275: a load, store, atomic, reduction or tag word issues the access of each executing lane, at the address and
with the data of its form, and the next word follows; a uniform word makes one access. With no executing lane nothing happens; behind an
acquire, a fence, a `tlbi` or four operand logs, and where its segment must wait, the word waits. -/
def Sys2Proof.Spec.MemoryWordsIssueEach : Prop :=
  ∀ (i : Instr) (s : State) (g : Nat) (m : MemWordOf),
    let x := s.grp g
    let e := memLanesOf x m
    let l := accessesOf x m
    memWord s x i = some m → s.Stands g i → (m.once = true → x.uniGuard m.h = .run) →
      (e = 0 → exec i s = .next (s.retire g m.h.bnd .on)) ∧
      (e ≠ 0 → s.lsWaits g x = true → exec i s = .next (s.retire g m.h.bnd .wait)) ∧
      (e ≠ 0 → s.lsWaits g x = false → s.segWaits x m.sp l = true → ∃ t : State, exec i s = .next (t.retire g m.h.bnd .wait) ∧
        t.groups = s.groups ∧ (m.sp.seg ≠ some .r → t.mem = s.mem)) ∧
      (e ≠ 0 → s.lsWaits g x = false → s.segWaits x m.sp l = false →
        exec i s = .next ((s.issueMem g x m.once e m.sp l).retire g m.h.bnd .on))

/-- R32, R188, R192, R251: what the issue of a memory word does. Each lane whose address is misaligned is deferred with ALIGN, detail 1,
and its address; a word that returns a value and sends or parks a lane has every register of its destination empty; no byte of memory
is changed by issue where no page faults. -/
def Sys2Proof.Spec.MemoryIssueEffect : Prop :=
  ∀ (s : State) (g : Nat) (once : Bool) (e : Mask) (sp : MemSpec) (l : List Acc),
    let x := s.grp g
    let t := s.issueMem g x once e sp l
    let sorted := (s.sortLanes x sp l).1
    let regs := (match sp.dst with
      | .v n => (List.range ((sp.size + 3) / 4)).map (fun k => n.val + k)
      | .s n => (List.range ((sp.size + 7) / 8)).map (fun k => 128 + n.val + k)
      | _ => [])
    s.hasGrp g = true → sp.seg ≠ some .p →
      (∀ a ∈ l, a.lane < 96 → a.va.toNat % a.size ≠ 0 → x.flow.mask.getLsbD a.lane = true → once = false →
        (t.grp g).flow.deferred.getLsbD a.lane = true ∧ (t.grp g).flow.mask.getLsbD a.lane = false ∧
        ∃ r ∈ (t.grp g).defs, r.lane = a.lane ∧ r.cause = 0x15 ∧ r.detail = 1 ∧ r.addr = a.va ∧ r.pc = x.flow.pc) ∧
      (sp.op.returns = true → sorted.send ≠ [] ∨ sorted.park ≠ [] → ∀ r ∈ regs, r < 192 → (t.grp g).isFull r = false) ∧
      (sorted.faults = [] → ∀ pa, t.byte pa = s.byte pa)

/-- A memory word issues the access of each executing lane, and what its issue does: the parts above together. -/
def Obligations.MemoryWordsIssue : Prop := Spec.MemoryWordsIssueEach ∧ Spec.MemoryIssueEffect

/-- R253, R255, R264, R274: an access at the slice that serves a plain line of HBM, with its access table and tags allowing it: a load gives
the bytes, the lowest address least significant; a store writes the bytes that its mask marks; an atomic gives the old value and writes
the new one; each leaves every other byte as it was, and a poisoned line fails a load with detail 1. -/
def Sys2Proof.Spec.AccessesOfAPlainLine : Prop :=
  ∀ (s : State) (ctx eng d : Nat) (leaf : Word) (pa home off : Nat) (a : Acc),
    s.sys.migs = [] → placeOf s.tagging pa = .hbm home off → s.permitted 0 ctx eng a.op.opClass pa a.size none = true →
      s.tagsFit leaf a.va pa a.size = true →
      let r := s.serve ctx eng d leaf pa a
      let bad := Tab.get false (lineKey pa home) s.sys.poison
      let old := s.load pa a.size
      (a.op = .load → bad = true → r = (.fail 0x16 1, s)) ∧
      (a.op = .load → bad = false → r.1 = .done (BitVec.ofNat 128 old) ∧ ∀ q, r.2.byte q = s.byte q) ∧
      (a.op = .store → r.1 = .done 0 ∧ ∀ q, r.2.byte q =
        if pa ≤ q ∧ q < pa + a.size ∧ a.bmask.getLsbD (q - pa) then (a.data >>> (8 * (q - pa))).setWidth 8 else s.byte q) ∧
      (∀ op ty ret, a.op = .atomic op ty ret → bad = false →
        let new := atomStep op ty (BitVec.ofNat 64 old) (a.data.setWidth 64) a.cmp
        r.1 = .done ((BitVec.ofNat 64 old).setWidth 128) ∧ ∀ q, r.2.byte q =
          match new with
          | some v => if pa ≤ q ∧ q < pa + a.size then BitVec.ofNat 8 (v.toNat / 2 ^ (8 * (q - pa))) else s.byte q
          | none => s.byte q)

/-- R264: the step of an atomic of w bits; a floating-point one takes the low 32 bits as FP32: a sum rounded to nearest, the default NaN
for a NaN, nothing flushed, and the minimum and maximum of R144. -/
def Sys2Proof.Spec.AtomicStep : Prop :=
  ∀ (ty : ITy) (old x cmp : Word),
    let o := ty.cut old
    let y := ty.cut x
    let modulo := fun (v : Word) => some (ty.cut v)
    let fo := old.toNat % 2 ^ 32
    let fx := x.toNat % 2 ^ 32
    atomStep .add ty old x cmp = modulo (old + x) ∧
    atomStep .sub ty old x cmp = modulo (old - x) ∧
    atomStep .min ty old x cmp = some (if ty.val old ≤ ty.val x then o else y) ∧
    atomStep .max ty old x cmp = some (if ty.val old ≤ ty.val x then y else o) ∧
    atomStep .and ty old x cmp = modulo (old &&& x) ∧
    atomStep .or ty old x cmp = modulo (old ||| x) ∧
    atomStep .xor ty old x cmp = modulo (old ^^^ x) ∧
    atomStep .exch ty old x cmp = some y ∧
    atomStep .cas ty old x cmp = (if o = ty.cut cmp then some y else none) ∧
    atomStep .fadd ty old x cmp =
      some (BitVec.ofNat 64 (roundF fp32 .rne false false (addV false (decodeF fp32 fo) (decodeF fp32 fx)).1).1) ∧
    atomStep .fmin ty old x cmp = some (BitVec.ofNat 64 (minMaxF false fp32 false fo fx).1) ∧
    atomStep .fmax ty old x cmp = some (BitVec.ofNat 64 (minMaxF true fp32 false fo fx).1)

/-- Loads, stores and atomics at the slice, and the step of an atomic, floating-point ones too: the parts above together. -/
def Obligations.AccessesAtTheSlice : Prop := Spec.AccessesOfAPlainLine ∧ Spec.AtomicStep

/-- R223, R233, R253, R264: a request of one access that nothing holds back is performed when it reaches its slice: a store's marked
bytes are in memory, an atomic's new value, and no other byte has changed; the request is gone. -/
def Obligations.RequestsArePerformed : Prop :=
  ∀ (s : State) (q : Req) (p : PAcc) (lanes : Mask) (home off : Nat),
    s.req? q.id = some q → q.accs = [p] → q.state = .sent → s.sys.migs = [] → s.behindEarlier q = false →
      s.released q.info = true → s.mustHold q = false → pteKind q.leaf ≠ 3 → pteTrk q.leaf = false →
      placeOf s.tagging p.pa = .hbm home off → s.permitted 0 q.ctx 0 p.acc.op.opClass p.pa p.acc.size none = true →
      s.tagsFit q.leaf p.acc.va p.pa p.acc.size = true → s.sys.reqs.map Req.id = [q.id] →
      (p.acc.op = .store → lanes.getLsbD p.acc.lane = true → ∃ t, exec (.l2SliceRequest q.id lanes) s = .next t ∧ t.sys.reqs = [] ∧
        ∀ b, t.byte b = if p.pa ≤ b ∧ b < p.pa + p.acc.size ∧ p.acc.bmask.getLsbD (b - p.pa)
          then (p.acc.data >>> (8 * (b - p.pa))).setWidth 8 else s.byte b) ∧
      (p.acc.op = .load → lanes.getLsbD p.acc.lane = true → ∃ t, exec (.l2SliceRequest q.id lanes) s = .next t ∧ t.sys.reqs = [] ∧
        ∀ b, t.byte b = s.byte b) ∧
      (∀ op ty ret, p.acc.op = .atomic op ty ret → s.sys.own = [] → q.info.rr.1 = 0 →
        Tab.get false (lineKey p.pa home) s.sys.poison = false →
        ∃ t, exec (.atomicAtHome q.id p.acc.lane) s = .next t ∧ t.sys.reqs = [] ∧
          ∀ b, t.byte b = match atomStep op ty (BitVec.ofNat 64 (s.load p.pa p.acc.size)) (p.acc.data.setWidth 64) p.acc.cmp with
            | some v => if p.pa ≤ b ∧ b < p.pa + p.acc.size then BitVec.ofNat 8 (v.toNat / 2 ^ (8 * (b - p.pa))) else s.byte b
            | none => s.byte b)

/-- R208, R210, R251, R253, R262: local memory: with nothing before it in the way, and every lane's place aligned and in the share, the
team's own or a cluster member's, a store writes the bytes of each lane's value at its offset, the highest lane's standing where lanes
overlap; a load sends the bytes at each lane's offset to its destination, which is empty until the write-back: 32 bits for each vector
register and lane, 64 for each scalar, from the highest lane. A uniform word makes one access. No byte of global memory changes. -/
def Obligations.LocalMemory : Prop :=
  ∀ (h : Hdr) (f : FnLoc) (d a b : Operand) (off : BitVec 22) (s : State) (g u : Nat),
    let x := s.grp g
    let tm := s.team u
    let n := f.sz.bytes
    let e := if h.uni then x.flow.mask else x.execMask h
    let ls := if h.uni then [0] else lanesOf e
    let fm := fun (l : Nat) => s.rd x a l + BitVec.ofInt 64 off.toInt
    let fx := fun (l : Nat) => s.rd x a l + indexOf s x b f.xs l
    let fits := fun (ea : Nat → Word) => ∀ l ∈ ls, (ea l).toNat % n = 0 ∧ (ea l).toNat + n ≤ (tm.localSize + 4095) / 4096 * 4096
    let there := match f.mem with
      | none => u = x.team
      | some m => ((s.cluster (s.team x.team).cluster).teams)[m.val]? = some u
    let ready := s.hasGrp g = true ∧ (Tab.find? u s.teams).isSome = true ∧ there ∧ (h.uni = true → x.uniGuard h = .run) ∧ e ≠ 0 ∧
      s.lsWaits g x = false ∧ (s.team x.team).rrMode = 0
    let stores := fun (i : Instr) (ea : Nat → Word) (src : Operand) =>
      let covers := fun (l k : Nat) => (ea l).toNat ≤ k ∧ k < (ea l).toNat + n
      ∃ t : State, exec i s = .next (t.retire g h.bnd .on) ∧ t.mem = s.mem ∧ t.grp g = x ∧ (∀ k, k ≠ u → t.team k = s.team k) ∧
        ∀ k, (∀ l ∈ ls, covers l k → (∀ m ∈ ls, l < m → ¬ covers m k) → Tab.get 0 k (t.team u).loc =
            BitVec.ofNat 8 ((s.laneData x src n l).toNat / 2 ^ (8 * (k - (ea l).toNat)))) ∧
          ((∀ l ∈ ls, ¬ covers l k) → Tab.get 0 k (t.team u).loc = Tab.get 0 k tm.loc)
    let loads := fun (i : Instr) (ea : Nat → Word) =>
      let raw := fun (l : Nat) => tm.locLoad (ea (if h.uni then 0 else l)).toNat n
      let ext := fun (l : Nat) => extendLoad n f.sz.signed (BitVec.ofNat 128 (raw l))
      ∃ (t : State) (q : Result), exec i s = .next (t.retire g h.bnd .on) ∧ t.mem = s.mem ∧ t.teams = s.teams ∧
        (∀ r ∈ q.regs, r < 192 → (t.grp g).isFull r = false) ∧ Tab.find? s.nextId t.sys.results = some q ∧ q.grp = g ∧
        t.pending = s.pending ++ [.resultWriteback s.nextId] ∧
        match d with
        | .v m => q.regs = (List.range ((n + 3) / 4)).map (fun j => m.val + j) ∧
            q.vals = (lanesOf e).flatMap (fun l => (List.range ((n + 3) / 4)).map (fun j =>
              (m.val + j, l, if n ≤ 4 then ext l else BitVec.ofNat 64 (raw l / 2 ^ (32 * j) % 2 ^ 32))))
        | .s m => q.regs = (List.range ((n + 7) / 8)).map (fun j => 128 + m.val + j) ∧
            ∀ top, (lanesOf e).getLast? = some top → q.vals = (List.range ((n + 7) / 8)).map (fun j =>
              (128 + m.val + j, 0, if n ≤ 8 then ext top else BitVec.ofNat 64 (raw top / 2 ^ (64 * j) % 2 ^ 64)))
        | _ => q.regs = [] ∧ q.vals = []
    ready →
      (s.Stands g (.stl h f d a off) → fits fm → stores (.stl h f d a off) fm d) ∧
      (s.Stands g (.stlIndexed h f a b d) → fits fx → stores (.stlIndexed h f a b d) fx d) ∧
      (s.Stands g (.ldl h f d a off) → fits fm → loads (.ldl h f d a off) fm) ∧
      (s.Stands g (.ldlIndexed h f d a b) → fits fx → loads (.ldlIndexed h f d a b) fx)

/-! ## Waits, cache words, fences and the engines -/

namespace Sys2Proof.Spec
open Sys2Proof.Machine

/-- What a word of the memory system leaves alone when it changes no register and no byte. -/
def quietly (s t : State) : Prop := t.groups = s.groups ∧ t.teams = s.teams ∧ t.mem = s.mem ∧ t.mgmt = s.mgmt

/-- The state of a group whose `waitv` has issued (R266, R267). -/
def waiting (s : State) (g : Nat) (seg : Seg) (wide : Bool) (cc : Cond) (va cmp : Word) (dl : Option Word)
    (acq : Option Scope) (d : Operand) : State :=
  let x := s.grp g
  let i : WordInfo := { localInfo s g x true x.flow.mask 0 (if wide then 8 else 4) false d with seg := seg }
  s.setGrp g { x with mem := { x.mem with seq := x.mem.seq + 1 },
                      sched := { x.sched with susp := .waitv i va cc cmp dl acq none } }

end Sys2Proof.Spec

/-- R266, R267: a `waitv` suspends its group and reads its word; when the compare holds with the word read, or its deadline has
come, the word goes to the destination and the group is eligible, else the group stays suspended; where the word's run has ended and
a switch has put its path on the stack, a part of the mask is that path's (R42); a failing read defers its lanes. The read at issue
is the first of the reads that a suspended group makes again. -/
def Sys2Proof.Spec.WaitsOnMemory : Prop :=
  (∀ (h : Hdr) (f : FnWaitF) (e : FnWaitI) (d a b c : Operand) (off : BitVec 22) (s : State) (g : Nat),
    let x := s.grp g
    let m : Instr := .waitv h f d a off
    let n : Instr := .waitvDeadlineForm h e d a b c
    let acq := if f.acq.val = 0 then none else some (match f.acq.val with | 1 => Scope.die | 2 => .package | _ => .system)
    let dl := if c = .zero then none else some (if e.rel then s.tick + s.rd x c 0 else s.rd x c 0)
    let um := waiting s g f.seg.seg f.w64 f.cc (s.rd x a 0 + BitVec.ofInt 64 off.toInt) (s.rd x d 0) none acq d
    let un := waiting s g e.seg.seg e.w64 e.cc (s.rd x a 0) (s.rd x b 0) dl e.acq d
    let goes := fun (i : Instr) (u : State) =>
      (x.flow.mask = 0 → exec i s = .next (s.retire g h.bnd .run)) ∧
      (x.flow.mask ≠ 0 → s.lsWaits g x = true → exec i s = .next (s.retire g h.bnd .wait)) ∧
      (x.flow.mask ≠ 0 → s.lsWaits g x = false → ∃ v, exec (.waitvRecheck g) u = .next v ∧ exec i s = .next (v.retire g h.bnd .run))
    s.hasGrp g = true →
      (s.Stands g m → x.uniGuard h = .run → goes m um) ∧
      (s.Stands g n → x.uniGuard h = .run → goes n un) ∧
      (s.Stands g m → x.uniGuard h = .skip → exec m s = .next (s.retire g h.bnd .on)) ∧
      (s.Stands g n → x.uniGuard h = .skip → exec n s = .next (s.retire g h.bnd .on))) ∧
  (∀ (s : State) (g : Nat) (i : WordInfo) (va cmp : Word) (cc : Cond) (dl : Option Word) (acq : Option Scope) (u : State),
    let x := s.grp g
    let read := s.oneAccess g x i (waitKind i.seg) (mkAcc 0 va .load i.sz 0 0)
    let due := ∃ t, dl = some t ∧ t ≤ u.tick
    x.sched.susp = .waitv i va cc cmp dl acq none → u.hasGrp g = true →
      (∀ (v : BitVec 128) (pa : Nat), read = (.done v pa, u) →
        let w : Word := BitVec.ofNat 64 (v.toNat % 2 ^ (8 * i.sz))
        let holds := icmpHolds cc (decide (i.sz = 8)) w cmp = true ∨ due
        let z := u.grp g
        let off := z.port.isSome = false ∧ z.sched.switched = true
        (holds → ¬ off → ∃ (t : State) (y : Machine.Group), exec (.waitvRecheck g) s = .next t ∧ Wrote z y i.dst [0] (fun _ => w) ∧
          t.grp g = { y with sched := { y.sched with susp := .none, since := u.tick } } ∧ t.mem = u.mem) ∧
        (holds → off → ∀ n : Fin 64, i.dst = .s n → 61 ≤ n.val → ∃ t : State, exec (.waitvRecheck g) s = .next t ∧ t.mem = u.mem ∧
          (t.grp g).flow.mask = z.flow.mask ∧ (t.grp g).flow.pc = z.flow.pc ∧ (t.grp g).sched.susp = .none ∧
          (t.grp g).flow.stack.dropLast = z.flow.stack.dropLast ∧
          ∀ e, z.flow.stack.getLast? = some e → ∃ e', (t.grp g).flow.stack.getLast? = some e' ∧ e'.addr = e.addr ∧
            ∀ l < 96, e'.mask.getLsbD l =
              (!z.flow.exited.getLsbD l && !z.flow.deferred.getLsbD l &&
                (if l / 32 = n.val - 61 then w.getLsbD (l % 32) else e.mask.getLsbD l))) ∧
        (¬ holds → exec (.waitvRecheck g) s = .next u)) ∧
      (∀ cause detail, read = (.fail cause detail, u) → i.grp = g → (u.grp g).team = i.team →
        ∃ t : State, exec (.waitvRecheck g) s = .next t ∧ (t.grp g).sched.susp = .none ∧ t.mem = u.mem ∧
          ∀ l < 96, i.lanes.getLsbD l = true → (u.grp g).flow.mask.getLsbD l = true →
            (t.grp g).flow.deferred.getLsbD l = true ∧ (t.grp g).flow.mask.getLsbD l = false) ∧
      (read = (.later, u) → exec (.waitvRecheck g) s = .next u))

/-- R250, R271, R272: a prefetch changes no register and no byte, whatever its lanes' addresses; `cinv` drops the leases of its
line's four sectors from the L1 that holds the line, whatever the grant of its page, and fails every lane where EA[63:61] is not 0;
`cinv.all` every lease of the core, or of each core of a fused cluster. -/
def Sys2Proof.Spec.PrefetchAndInvalidate : Prop :=
  ∀ (h : Hdr) (f : FnPre) (a b : Operand) (off : BitVec 22) (s : State) (g : Nat),
    let x := s.grp g
    let i : Instr := .prefetch h f a off
    let j : Instr := .prefetchIndexed h f a b
    let n : Instr := .cinv h a off
    let k := s.cluster (s.team x.team).cluster
    let e := if h.uni then x.flow.mask else x.execMask h
    let pre := fun (i : Instr) =>
      s.Stands g i → s.Guarded g h →
        (e = 0 → exec i s = .next (s.retire g h.bnd .on)) ∧
        (e ≠ 0 → s.lsWaits g x = true → exec i s = .next (s.retire g h.bnd .wait)) ∧
        (e ≠ 0 → s.lsWaits g x = false → ∃ t : State, exec i s = .next (t.retire g h.bnd .on) ∧ quietly s t)
    let va := s.rd x a 0 + BitVec.ofInt 64 off.toInt
    let w := s.translate x.core x.ctx (vaOf va) false
    pre i ∧ pre j ∧
    (s.Stands g n → x.uniGuard h = .run → va.extractLsb' 61 3 ≠ 0 → s.hasGrp g = true →
      ∃ t : State, exec n s = .next (t.retire g h.bnd .on) ∧ t.mem = s.mem ∧
        ∀ l < 96, x.flow.mask.getLsbD l = true → x.flow.exited.getLsbD l = false → x.flow.deferred.getLsbD l = false →
          (t.grp g).flow.deferred.getLsbD l = true ∧
          ∃ r ∈ (t.grp g).defs, r.lane = l ∧ r.cause = 0x12 ∧ r.detail = 2 ∧ r.addr = va ∧ r.pc = x.flow.pc) ∧
    (s.Stands g n → x.uniGuard h = .run → va.extractLsb' 61 3 = 0 → ∃ t : State, exec n s = .next (t.retire g h.bnd .on) ∧ quietly s t ∧
      ∀ leaf size pa e, w.1 = .leaf leaf size → w.2.leafPa x.core leaf (vaOf va) size = .ok pa e →
        let owner := s.l1Owner x.core pa g
        ∀ q < 4, Tab.find? (pa / 128 * 4 + q) (t.core owner).l1 = none ∧
          ∀ y ∈ t.sys.fills, y.core = owner → y.sector = pa / 128 * 4 + q → y.expiry = 0) ∧
    (s.Stands g n → x.uniGuard h = .skip → exec n s = .next (s.retire g h.bnd .on)) ∧
    (s.Stands g (.cinvAll h) → x.uniGuard h = .run → ∃ t : State, exec (.cinvAll h) s = .next (t.retire g h.bnd .on) ∧ quietly s t ∧
      (∀ c, (if k.fused then c ∈ k.cores else c = x.core) → (t.core c).l1 = [] ∧ ∀ y ∈ t.sys.fills, y.core = c → y.expiry = 0) ∧
      (∀ c, ¬ (if k.fused then c ∈ k.cores else c = x.core) → t.core c = s.core c)) ∧
    (s.Stands g (.cinvAll h) → x.uniGuard h = .skip → exec (.cinvAll h) s = .next (s.retire g h.bnd .on))

/-- waitv waits for its compare; prefetch changes nothing; cinv drops leases: the parts above together. -/
def Obligations.WaitsAndPrefetch : Prop := Spec.WaitsOnMemory ∧ Spec.PrefetchAndInvalidate

/-- R268, R269: a fence issues without waiting: it is outstanding on the paths it waits for, and the next word follows. A path of it
completes when the earlier accesses of the group there are performed at its scope; with the last path the fence is gone, and a
`.sys` fence raises FENCE_FAULT, at the group's next boundary, for a peer store before it that failed. -/
def Obligations.Fences : Prop :=
  (∀ (h : Hdr) (sc : Scope) (p1 p2 : BitVec 5) (s : State) (g : Nat),
    let x := s.grp g
    let issues := fun (i : Instr) (each : Bool) (q1 q2 : BitVec 5) =>
      let left := Path.all.filter (fun p => q1.getLsbD p.code)
      let f : Fence := { id := s.nextId, pc := x.flow.pc, scope := sc, each := each, p1 := q1, p2 := q2, seq := x.mem.seq,
                         left := left, lanes := x.flow.mask }
      ∃ t : State, exec i s = .next (t.retire g h.bnd .on) ∧
        t.grp g = { x with mem := { x.mem with fences := x.mem.fences ++ [f] } } ∧ t.mem = s.mem ∧ t.teams = s.teams ∧
        t.pending = s.pending ++ left.map (fun p => .fenceComplete g s.nextId p.code)
    s.hasGrp g = true →
      (s.Stands g (.fence h sc) → x.uniGuard h = .run → issues (.fence h sc) true 0x1F 0x1F) ∧
      (s.Stands g (.fencex h sc p1 p2) → x.uniGuard h = .run → issues (.fencex h sc p1 p2) false p1 p2) ∧
      (s.Stands g (.fence h sc) → x.uniGuard h = .skip → exec (.fence h sc) s = .next (s.retire g h.bnd .on)) ∧
      (s.Stands g (.fencex h sc p1 p2) → x.uniGuard h = .skip → exec (.fencex h sc p1 p2) s = .next (s.retire g h.bnd .on))) ∧
  (∀ (s : State) (g : Nat) (f : Fence) (p : Path) (part : Nat),
    let x := s.grp g
    let e : Instr := .fenceComplete g f.id part
    let rest := f.left.filter (fun q => decide (q ≠ p))
    let early := x.mem.failed.filter (fun k => decide (k.seq < f.seq))
    let gone := { x with mem := { x.mem with fences := x.mem.fences.filter (fun k => decide (k.id ≠ f.id)) } }
    s.hasGrp g = true → x.mem.fences.find? (fun k => decide (k.id = f.id)) = some f → Path.all[part]? = some p → p ∈ f.left →
      (s.pathDone p g x.team f = false → exec e s = .next (s.later e)) ∧
      (s.pathDone p g x.team f = true → rest ≠ [] → ∃ t : State, exec e s = .next t ∧ t.mem = s.mem ∧
        t.grp g = { x with mem := { x.mem with
          fences := x.mem.fences.map (fun k => if k.id = f.id then { f with left := rest } else k) } }) ∧
      (s.pathDone p g x.team f = true → rest = [] → f.scope ≠ .system ∨ early = [] → (s.team x.team).rrMode = 0 →
        ∃ t : State, exec e s = .next t ∧ t.mem = s.mem ∧ t.grp g = gone) ∧
      (s.pathDone p g x.team f = true → rest = [] → f.scope = .system → (s.team x.team).rrMode = 0 → ∀ k, firstFailed early = some k →
        ∃ t : State, exec e s = .next t ∧ t.mem = s.mem ∧ (t.grp g).pending = x.pending ++
          [{ cause := 0x17, pc := f.pc, addr := k.va, info := 0, lanes := f.lanes }] ∧
          (t.grp g).mem.failed = x.mem.failed.filter (fun q => !decide (q.seq < f.seq)) ∧
          (t.grp g).mem.fences = gone.mem.fences))

namespace Sys2Proof.Spec
open Sys2Proof.Machine

/-- The team whose local memory a side of a copy names, if the side is there (R278). -/
def copySideOf (s : State) (x : Group) (space mem : Nat) : Option (Option Nat) :=
  match space with
  | 0 => some none
  | 1 => some (some x.team)
  | 2 => (((s.cluster (s.team x.team).cluster).teams)[mem]?).map some
  | _ => none

/-- Whether every row of a local side lies in its share (R278). -/
def copyRowsFit (s : State) (d : CopyDesc) (base : Word) (stride : Int × Int → Int) (side : Option Nat) : Prop :=
  ∀ t, side = some t → ∀ i < d.count 1, ∀ j < d.count 2, ∀ k < d.count 3,
    let at_ := (base.toNat : Int) + i * stride (d.strides.getD 0 0) + j * stride (d.strides.getD 1 0) + k * stride (d.strides.getD 2 0)
    0 ≤ at_ ∧ at_ + d.l0 ≤ (((s.team t).localSize + 4095) / 4096 * 4096 : Nat)

/-- The command that an engine word hands over (R276). -/
def engineCommand (s : State) (g eng : Nat) (sc : Scope) (op : EngOp) : EngCmd :=
  let x := s.grp g
  { id := s.nextId, grp := g, team := x.team, core := x.core, slot := x.slot, ctx := x.ctx, sup := x.sup,
    tok := BitVec.ofNat 64 (x.mem.engSeq % 65536 + eng * 65536), pc := x.flow.pc, seq := x.mem.seq, scope := sc, op := op,
    done := [], part := [], buf := [], wait := [], parked := [], fault := none, lanes := 0 }

/-- An engine word has handed over `c`: it is the last of its engine's commands, the group's counts have advanced, memory and
teams stand. -/
def handedOver (s t : State) (g : Nat) (c : EngCmd) (y : Group) : Prop :=
  t.sys.engs = s.sys.engs ++ [c] ∧ t.mem = s.mem ∧ t.teams = s.teams ∧
    t.grp g = { y with mem := { y.mem with seq := y.mem.seq + 1, engSeq := y.mem.engSeq + 1 } }

end Sys2Proof.Spec

/-- R276 to R281: a copy word reads a descriptor and hands a command to the copy engine, or traps with the lowest reason (log entry
84); with eight commands outstanding, or behind a fence of its path or a `tlbi`, it waits. `cpy` writes its token; `cpyw` suspends the group and
goes on at its target. `gthr` hands over the gather of its executing lanes. -/
def Sys2Proof.Spec.EngineCommands : Prop :=
  ∀ (h : Hdr) (f : FnGthr) (d a b c : Operand) (off : BitVec 30) (s : State) (g : Nat),
    let x := s.grp g
    let cp := x.copyDesc a
    let sl := copySideOf s x cp.ssp cp.smem
    let dl := copySideOf s x cp.dsp cp.dmem
    let sc := Scope.all[cp.scope]?
    let r1 := bits (cp.word 3) 31 33 ≠ 0 ∨ (cp.ssp ≠ 2 ∧ cp.smem ≠ 0) ∨ (cp.dsp ≠ 2 ∧ cp.dmem ≠ 0)
    let r2 := sl = none ∨ dl = none
    let r3 := cp.l0 = 0
    let r4 := ¬ (copyRowsFit s cp (cp.word 0) Prod.fst (sl.getD none) ∧ copyRowsFit s cp (cp.word 1) Prod.snd (dl.getD none))
    let r5 := sc = none
    let op : EngOp :=
      .copy (cp.word 0) (cp.word 1) cp.l0 (cp.count 1) (cp.count 2) (cp.count 3) (sl.getD none) (dl.getD none) cp.strides
    let busy := 8 ≤ (s.sys.engs.filter (fun k => decide (k.grp = g ∧ k.team = x.team))).length ∨ x.fenced .cp = true ∨
      (∃ k ∈ s.sys.tlbis, k.grp = g ∧ k.team = x.team)
    let cmd := engineCommand s g 1 (sc.getD .group) op
    let next : PC := x.flow.pc + off.signExtend 54
    let copies := fun (i : Instr) (does : Prop) =>
      s.Stands g i → x.uniGuard h = .run → s.hasGrp g = true →
        (r1 → trapsBefore s g i 0x22 1 0) ∧ (¬ r1 → r2 → trapsBefore s g i 0x22 2 0) ∧
        (¬ r1 → ¬ r2 → r3 → trapsBefore s g i 0x22 3 0) ∧ (¬ r1 → ¬ r2 → ¬ r3 → r4 → trapsBefore s g i 0x22 4 0) ∧
        (¬ r1 → ¬ r2 → ¬ r3 → ¬ r4 → r5 → trapsBefore s g i 0x22 5 0) ∧
        (¬ r1 → ¬ r2 → ¬ r3 → ¬ r4 → ¬ r5 → (busy → exec i s = .next (s.retire g h.bnd .wait)) ∧ (¬ busy → does))
    copies (.cpy h d a) (∃ (t : State) (y : Machine.Group), exec (.cpy h d a) s = .next (t.retire g h.bnd .on) ∧ Wrote x y d [0] (fun _ => cmd.tok) ∧
      handedOver s t g cmd y) ∧
    copies (.cpyw h a off) (∃ t : State, exec (.cpyw h a off) s = .next (t.retire g h.bnd (.jump next)) ∧
      handedOver s t g cmd { x with sched := { x.sched with susp := .cpyw cmd.tok next } }) ∧
    (let i : Instr := .gthr h f d a b c
     let n := 4 * 2 ^ f.esz.val
     let e := x.execMask h
     let o := (s.rd x c 0).toNat
     let ea := fun (l : Nat) => s.rd x a 0 + (if f.sc then indexOf s x b f.xs l * BitVec.ofNat 64 n else indexOf s x b f.xs l)
     let aligned := ∀ l ∈ lanesOf e, (ea l).toNat % min n 16 = 0
     let full := 8 ≤ (s.sys.engs.filter (fun k => decide (k.grp = g ∧ k.team = x.team))).length ∨ x.fenced .ga = true ∨
       (∃ k ∈ s.sys.tlbis, k.grp = g ∧ k.team = x.team)
     let cmd := engineCommand s g 2 f.scope (.gather f.seg n o ((lanesOf e).map (fun l => (l, ea l))))
     h.uni = false → s.Stands g i → s.hasGrp g = true →
      (e = 0 → exec i s = .next (s.retire g h.bnd .on)) ∧
      (∀ top, (lanesOf e).getLast? = some top →
        let out := ((s.team x.team).localSize + 4095) / 4096 * 4096 < o + (top + 1) * n
        (out → trapsBefore s g i 0x22 4 0) ∧
        (¬ out → o % min n 16 ≠ 0 → trapsBefore s g i 0x22 6 0) ∧
        (¬ out → o % min n 16 = 0 → full → exec i s = .next (s.retire g h.bnd .wait)) ∧
        (¬ out → o % min n 16 = 0 → ¬ full → aligned → ∃ (t : State) (y : Machine.Group), exec i s = .next (t.retire g h.bnd .on) ∧
          Wrote x y d [0] (fun _ => cmd.tok) ∧ handedOver s t g cmd y)))

/-- R282: `equery` writes the status of the command that a token names: in progress with its bytes left, complete, or unknown;
`ewait` waits until no such command is outstanding and then writes it. -/
def Sys2Proof.Spec.EngineStatus : Prop :=
  ∀ (h : Hdr) (d a : Operand) (s : State) (g : Nat),
    let x := s.grp g
    let tok := s.rd x a 0
    let named := tok.extractLsb' 18 46 = 0 ∧ (tok.extractLsb' 16 2 = 1 ∨ tok.extractLsb' 16 2 = 2)
    let mine := s.sys.engs.filter (fun k => decide (k.grp = g ∧ k.team = x.team))
    let out := ∃ k ∈ mine, k.tok = tok
    let answers := fun (st : Word) =>
      (s.Stands g (.equery h d a) → x.uniGuard h = .run → ∃ (t : State) (y : Machine.Group), exec (.equery h d a) s = .next (t.retire g h.bnd .on) ∧
        Wrote x y d [0] (fun _ => st) ∧ t = s.setGrp g y) ∧
      (s.Stands g (.ewait h d a) → x.port.isSome = true → x.uniGuard h = .run → ¬ out →
        ∃ (t : State) (y : Machine.Group), exec (.ewait h d a) s = .next (t.retire g h.bnd .run) ∧
        Wrote x y d [0] (fun _ => st) ∧ t.grp g = { y with sched := { y.sched with susp := .none, since := s.tick } } ∧
        t.mem = s.mem)
    s.hasGrp g = true →
      (¬ named → answers 2) ∧
      (named → ∀ k, mine.find? (fun k => decide (k.tok = tok)) = some k →
        answers (BitVec.ofNat 64 (k.remain * 2 ^ 32 + (if k.parked = [] then 0 else 4) + 1))) ∧
      (named → ¬ out → (∀ m ∈ x.mem.marks, m.tok ≠ tok.toNat) → answers 2) ∧
      (named → ¬ out → ∀ m, x.mem.marks.find? (fun m => decide (m.tok = tok.toNat)) = some m →
        (m.failed = false → answers 2) ∧
        (m.failed = true → (x.mem.engSeq + 65535 - m.tok % 65536) % 65536 < 8 →
          answers (BitVec.ofNat 64 (m.remain * 2 ^ 32 + m.cause * 256 + 3)))) ∧
      (s.Stands g (.ewait h d a) → x.uniGuard h = .run → out → ∃ t : State, exec (.ewait h d a) s = .next (t.retire g h.bnd .run) ∧
        t = s.setGrp g { x with sched := { x.sched with susp := .ewait tok d } }) ∧
      (s.Stands g (.equery h d a) → x.uniGuard h = .skip → exec (.equery h d a) s = .next (s.retire g h.bnd .on)) ∧
      (s.Stands g (.ewait h d a) → x.uniGuard h = .skip → exec (.ewait h d a) s = .next (s.retire g h.bnd .on))

/-- Engine words hand commands over, trap on their operands, or read a status: the parts above together. -/
def Obligations.EngineWords : Prop := Spec.EngineCommands ∧ Spec.EngineStatus

namespace Sys2Proof.Spec
open Sys2Proof.Machine

/-- The transfer of a row of a copy, or of an element of a gather. -/
def transfer (c : EngCmd) (row : Nat) : Instr :=
  match c.op with
  | .copy .. => .copyEngineTransfer c.id row
  | .gather .. => .gatherEngineTransfer c.id row

end Sys2Proof.Spec

/-- R279 to R281: a piece of a row of a copy, or an element of a gather: its bytes go from the source to the destination, and the command
is so much further on. A command with no row left leaves its engine when its writes are performed; one that failed gives its group a
trap at the next boundary; a `cpyw` group is eligible again. -/
def Obligations.EngineTransfers : Prop :=
  (∀ (s u : State) (c : EngCmd) (row : Nat) (sa da : Word) (n : Nat) (data : List Byte),
    let fromLocal := ∃ t, c.sloc = some t ∧ u = s ∧
      data = (List.range n).map (fun k => Tab.get 0 (sa.toNat + k) (s.team t).loc)
    let fromMemory := c.sloc = none ∧ sa.toNat % 128 + n ≤ 128 ∧ s.agentRead c.agent c.readKind sa n = (.done data, u)
    let further := fun (t : State) => ∃ k, t.eng? c.id = some k ∧
      (if c.rowBytes ≤ Tab.get 0 row c.part + n then row ∈ k.done else Tab.get 0 row k.part = Tab.get 0 row c.part + n)
    s.eng? c.id = some c → c.mayGo row = true → (s.ctx c.ctx).cmd ≠ 1 → (s.ctx c.ctx).cmd ≠ 2 → s.freezeDue = false →
      Tab.find? row c.buf = none → Tab.find? row c.wait = none → c.piece row = some (sa, da, n) → 0 < n → data.length = n →
      fromLocal ∨ fromMemory → u.eng? c.id = some c →
        (∀ t1, c.dloc = some t1 → (Tab.find? t1 u.teams).isSome = true → ∃ t : State, exec (transfer c row) s = .next t ∧ t.mem = u.mem ∧
          further t ∧ ∀ k, Tab.get 0 k (t.team t1).loc =
            if da.toNat ≤ k ∧ k < da.toNat + n then data.getD (k - da.toNat) 0 else Tab.get 0 k (u.team t1).loc) ∧
        (∀ v, c.dloc = none → u.agentWrite c.agent copyWriteKind da data = (.done [], v) → v.eng? c.id = some c →
          ∃ t : State, exec (transfer c row) s = .next t ∧ t.mem = v.mem ∧ further t)) ∧
  (∀ (s : State) (c : EngCmd),
    let e : Instr := .engineCommandComplete c.id
    let x := s.grp c.grp
    s.eng? c.id = some c →
      (c.over = false → exec e s = .next s) ∧
      (c.over = true → s.engPerformed c = false → exec e s = .next (s.later e)) ∧
      (c.over = true → s.engPerformed c = true → ∃ t : State, exec e s = .next t ∧ t.eng? c.id = none ∧ t.mem = s.mem ∧
        (s.hasGrp c.grp = true → x.team = c.team → (s.team c.team).members ≠ [] →
          (∀ cont, x.sched.susp = .cpyw c.tok cont → (t.grp c.grp).sched.susp = .none ∧ (t.grp c.grp).sched.since = s.tick) ∧
          (c.fault = none → (t.grp c.grp).pending = x.pending) ∧
          (∀ cause detail addr, c.fault = some (cause, detail, addr) → ∃ lanes, (t.grp c.grp).pending = x.pending ++
            [{ cause := cause, pc := c.pc, addr := addr, info := BitVec.ofNat 64 detail, lanes := lanes }]))))

/-! ## Traps, control registers, invalidation of translations, results -/

namespace Sys2Proof.Spec
open Sys2Proof.Machine

/-- The trap registers of a trap (R97, R195). -/
def trapRegs (t : TrapState) (q : TrapReq) : TrapState :=
  { t with cause := BitVec.ofNat 7 q.cause, pc := q.pc, addr := q.addr, info := q.info, lanes := q.lanes }

end Sys2Proof.Spec

/-- R195, R196: a trap with a handler and none active writes the trap registers, keeps the resume state, and runs the handler in
supervisor state with every lane that has neither exited nor been deferred, in no region, in a new run; without a handler, or while a
trap is active, the group halts, a double trap changing only the cause. No other group changes. That the port is given back and the group
eligible from this tick is log entry 98. -/
def Sys2Proof.Spec.TrapEntry : Prop :=
  ∀ (s : State) (g : Nat) (q : TrapReq),
    let x := s.grp g
    let vec := (s.ctxRegs x.core x.ctx).trapVec
    let t := s.takeTrap g q
    s.hasGrp g = true →
      (x.trap.active = false → vec ≠ 0 →
        t.grp g = { x with
          port := none
          sup := true
          trap := { trapRegs x.trap q with
            active := true, resumePC := q.resume, resumeMask := x.flow.mask, resumeRegion := x.flow.region,
            resumeRun := x.flow.run, supSaved := x.sup, entryDepth := x.flow.stack.length, resumeKept := x.sched.kept }
          flow := { x.flow with pc := vec, run := 0, region := none, mask := allLanes &&& ~~~(x.flow.exited ||| x.flow.deferred) }
          pending := x.pending.map (fun p => { p with held := true })
          sched := { x.sched with need := [], since := s.tick, kept := false } } ∧ t.mem = s.mem) ∧
      (x.trap.active = false → vec = 0 →
        t.grp g = { x with port := none, trap := trapRegs x.trap q, sched := { x.sched with halted := true } }) ∧
      (x.trap.active = true →
        t.grp g = { x with port := none, trap := { x.trap with cause := BitVec.ofNat 7 q.cause },
                           sched := { x.sched with halted := true } }) ∧
      (∀ k, k ≠ g → t.grp k = s.grp k) ∧ t.teams = s.teams ∧ t.tick = s.tick

/-- R198: the return from a trap brings back the resume state, the saved mode and the run offset; the lanes of each failing word become
a retry path at that word, in ascending order, in the resumed region, which stands on the stack before the next run where the resumed
one has ended (R38); with `.drop` they exit, with `.skip` the word at the resume
point is passed over. The port is given back (log entry 98), and an empty mask ends the path (log entry 58). A stack that is not at its depth, or has no room for the retry paths, is a trap. -/
def Sys2Proof.Spec.TrapReturn : Prop :=
  ∀ (h : Hdr) (skip : Bool) (s : State) (g : Nat),
    let x := s.grp g
    let t := x.trap
    let at_ := fun (skip : Bool) => t.resumePC + (if skip then 1 else 0)
    let base := fun (skip : Bool) => { x.flow with
      pc := at_ skip, mask := t.resumeMask &&& ~~~x.flow.exited, deferred := 0, region := t.resumeRegion, run := t.resumeRun }
    let back := fun (i : Instr) (y : Machine.Group) =>
      let u := s.setGrp g y
      exec i s = .next (((if y.flow.mask = 0 then u.pathEnd g else u).releasePort g).eligible g)
    let after := fun (skip : Bool) (f : Flow) => { x with
      flow := f, sup := t.supSaved, defs := [], trap := { t with active := false }, sched := { x.sched with kept := t.resumeKept },
      q := if skip then { x.q with active := false } else x.q }
    let retries := fun (i : Instr) (skip : Bool) =>
      s.Stands g i → x.flow.stack.length = t.entryDepth → x.flow.stack.length + (x.defs.map DefRec.pc).dedup.length ≤ 32 →
        ∃ (ws : List PC) (m : PC → Mask), ws.Pairwise (fun a b => a.toNat < b.toNat) ∧
          (∀ w, w ∈ ws ↔ ∃ r ∈ x.defs, r.pc = w) ∧
          (∀ w, ∀ l < 96, (m w).getLsbD l = (decide (∃ r ∈ x.defs, r.pc = w ∧ r.lane = l) && !x.flow.exited.getLsbD l)) ∧
          back i (after skip { base skip with stack := x.flow.stack ++ ws.map (fun w =>
            { kind := .path, addr := w, mask := m w, link := t.resumeRegion, age := 0, fresh := decide (t.resumeRun ≠ 0) && !t.resumeKept }) })
    let depth := fun (i : Instr) => s.Stands g i → x.flow.stack.length ≠ t.entryDepth → trapsBefore s g i 0x08 3 0
    let room := fun (i : Instr) => s.Stands g i → x.flow.stack.length = t.entryDepth →
      32 < x.flow.stack.length + (x.defs.map DefRec.pc).dedup.length → trapsBefore s g i 0x08 1 0
    retries (.rte h) false ∧ retries (.rteSkip h) true ∧
    depth (.rte h) ∧ depth (.rteSkip h) ∧ depth (.rteDrop h skip) ∧ room (.rte h) ∧ room (.rteSkip h) ∧
    (s.Stands g (.rteDrop h skip) → x.flow.stack.length = t.entryDepth →
      ∃ m : Mask, (∀ l < 96, m.getLsbD l = decide (∃ r ∈ x.defs, r.lane = l)) ∧
        back (.rteDrop h skip) (after skip ((base skip).exitLanes m)))

/-- A trap saves and enters as R195 says and rte restores as R198 says: the parts above together. -/
def Obligations.TrapEntryAndReturn : Prop := Spec.TrapEntry ∧ Spec.TrapReturn

/-- R186, R197, R378, R389: `trap` and, where breakpoints do not freeze, `bkpt` trap after their word, which counts in its run;
`halt` halts its group at the end of its run; `tick` reads the package tick. -/
def Obligations.SoftwareTrapsTickAndHalt : Prop :=
  ∀ (h : Hdr) (n : BitVec 16) (k : BitVec 12) (d : Operand) (s : State) (g : Nat),
    let x := s.grp g
    let u := s.setGrp g { onPath x { x.flow with pc := x.flow.pc + 1, run := x.flow.run + 1 } with sched := { x.sched with kept := false } }
    let traps := fun (i : Instr) (cause : Nat) (info : Word) =>
      let q := fun (t : State) => ({ cause := cause, info := info, addr := 0, lanes := x.flow.mask, pc := x.flow.pc,
                                     resume := (t.grp g).flow.pc } : TrapReq)
      (h.bnd = false ∧ x.flow.run < 23 → exec i s = .next (u.takeTrap g (q u))) ∧
      (h.bnd = true ∨ 23 ≤ x.flow.run → exec i s = .next ((u.endRun g false).takeTrap g (q (u.endRun g false))))
    s.hasGrp g = true →
      (s.Stands g (.trap h n) → x.uniGuard h = .run → traps (.trap h n) 0x09 (n.setWidth 64)) ∧
      (s.Stands g (.bkpt h k) → x.uniGuard h = .run → (s.reg 0x10000250000).getLsbD 0 = false →
        traps (.bkpt h k) 0x38 (k.setWidth 64)) ∧
      (s.Stands g (.bkpt h k) → x.uniGuard h = .run → (s.reg 0x10000250000).getLsbD 0 = true → s.dbg.frozen = false → s.dbg.freeze = none →
        ∃ t q, exec (.bkpt h k) s = .next (State.retire t g h.bnd .on) ∧ t.groups = s.groups ∧ t.mem = s.mem ∧
          t.dbg.freeze = some q ∧ q.cause = 2 ∧ q.bkn = k.toNat ∧ q.pc = 8 * x.flow.pc.setWidth 64 ∧ q.tick = s.tick.toNat) ∧
      (s.Stands g (.halt h) → x.uniGuard h = .run →
        exec (.halt h) s = .next ((s.setGrp g { x with sched := { x.sched with halted := true } }).retire g h.bnd .run)) ∧
      (s.Stands g (.tick h d) → x.uniGuard h = .run → ∃ y, Wrote x y d [0] (fun _ => s.tick) ∧
        exec (.tick h d) s = .next ((s.setGrp g y).retire g h.bnd .on)) ∧
      (∀ i ∈ [Instr.trap h n, .bkpt h k, .halt h, .tick h d], s.Stands g i → x.uniGuard h = .skip →
        exec i s = .next (s.retire g h.bnd .on))

namespace Sys2Proof.Spec
open Sys2Proof.Machine

/-- The value of a group's control registers (R97). -/
def csrValue (s : State) (g n : Nat) : Word :=
  let x := s.grp g
  let c := s.ctxRegs x.core x.ctx
  let entry := s.reg (0x10000050000 + 0x80 * x.ctx)
  match n with
  | 0x000 => BitVec.ofNat 64 ((if x.sup then 1 else 0) + 2 * s.effPrio g + 64 * x.slot + (if x.port = some true then 4096 else 0) +
      8192 * x.vregs)
  | 0x001 => BitVec.ofNat 64 (x.ctx + 64 * (entry.extractLsb' 2 4).toNat + (if entry.getLsbD 1 then 1024 else 0))
  | 0x002 => x.fp.ctl.setWidth 64
  | 0x003 => x.fp.flags.setWidth 64
  | 0x004 => x.fp.seed.setWidth 64
  | 0x005 => c.ageLimit.setWidth 64
  | 0x006 => c.leaseLen.setWidth 64
  | 0x010 => x.trap.cause.setWidth 64
  | 0x011 => 8 * x.trap.pc.setWidth 64
  | 0x012 => x.trap.addr
  | 0x013 => x.trap.info
  | 0x014 => (x.trap.lanes.extractLsb' 0 32).setWidth 64
  | 0x015 => (x.trap.lanes.extractLsb' 32 32).setWidth 64
  | 0x016 => (x.trap.lanes.extractLsb' 64 32).setWidth 64
  | 0x017 => 8 * c.trapVec.setWidth 64
  | 0x020 => x.fp.miterState
  | 0x021 => x.fp.miterCap.setWidth 64
  | 0x022 => x.fp.miterTol.setWidth 64
  | n => if 0x40 ≤ n ∧ n < 0x50 then Tab.get 0 (n - 0x40) c.qbind else 0

/-- The group after a value has been stored in one of its control registers (R59, R61, R100, R177): FP_FLAGS clears the bits of
`a` with a write and a clear, and keeps all with a set; the registers written hold their RW bits. -/
def csrStored (x : Machine.Group) (op : CsrOp) (n : Nat) (a : Word) : Machine.Group :=
  let put := fun (rw old : Word) => match op with
    | .read => old
    | .write => a &&& rw
    | .set => old ||| (a &&& rw)
    | .clear => old &&& ~~~(a &&& rw)
  match n with
  | 0x002 =>
    let v := put 0x1F (x.fp.ctl.setWidth 64)
    { x with fp := { x.fp with ctl := if 6 ≤ (v.extractLsb' 0 3).toNat then v.setWidth 5 &&& 0x18 else v.setWidth 5 } }
  | 0x003 => (match op with
    | .write | .clear => { x with fp := { x.fp with flags := x.fp.flags &&& ~~~a.setWidth 5 } }
    | _ => x)
  | 0x004 =>
    let v : BitVec 32 := (put 0xFFFFFFFF (x.fp.seed.setWidth 64)).setWidth 32
    { x with fp := { x.fp with seed := v, gens := seedGens v x.slot, mgens := seedGens v x.slot } }
  | 0x020 =>
    let keep := x.fp.miterState &&& 0xFFC00000
    let v := put 0xFFFFFFFF003FFFFF x.fp.miterState
    let v := match op with | .write => v ||| keep | _ => v
    { x with fp := { x.fp with miterState := if v.extractLsb' 16 2 = 3#2 then v &&& ~~~(0x30000#64) else v } }
  | 0x021 => { x with fp := { x.fp with miterCap := (put 0xFFFF (x.fp.miterCap.setWidth 64)).setWidth 16 } }
  | 0x022 => { x with fp := { x.fp with miterTol := (put 0xFFFFFFFF (x.fp.miterTol.setWidth 64)).setWidth 32 } }
  | _ => x

end Sys2Proof.Spec

/-- R95 to R100: a control register instruction gives the old value to its destination; a write, set or clear of a register of the group
stores what Apply gives, in the bits that can be written. -/
def Sys2Proof.Spec.ControlRegistersOfGroups : Prop :=
  ∀ (h : Hdr) (d a : Operand) (addr : BitVec 12) (s : State) (g : Nat),
    let x := s.grp g
    let n := addr.toNat
    let does := fun (i : Instr) (op : CsrOp) =>
      s.Stands g i → x.uniGuard h = .run → s.hasGrp g = true → (csrIsCtx addr = false ∨ op = .read) →
        (s.csrWaits g x n = true → exec i s = .next (s.retire g h.bnd .wait)) ∧
        (s.csrWaits g x n = false → ∃ y,
          Wrote (if op = .read then x else csrStored x op n (s.rd x a 0)) y d [0] (fun _ => csrValue s g n) ∧
          exec i s = .next ((s.setGrp g y).retire g h.bnd .on))
    does (.csrr h d addr) .read ∧ does (.csrw h d a addr) .write ∧ does (.csrs h d a addr) .set ∧
    does (.csrc h d a addr) .clear ∧
    (s.Stands g (.csrr h d addr) → x.uniGuard h = .skip → exec (.csrr h d addr) s = .next (s.retire g h.bnd .on)) ∧
    (s.Stands g (.csrw h d a addr) → x.uniGuard h = .skip → exec (.csrw h d a addr) s = .next (s.retire g h.bnd .on)) ∧
    (s.Stands g (.csrs h d a addr) → x.uniGuard h = .skip → exec (.csrs h d a addr) s = .next (s.retire g h.bnd .on)) ∧
    (s.Stands g (.csrc h d a addr) → x.uniGuard h = .skip → exec (.csrc h d a addr) s = .next (s.retire g h.bnd .on))

/-- R97, R98, R100, R313: a write, set or clear of a context's control register is performed at the context table, with what Apply gives
in the bits that can be written; every core with groups of the context still holds its old registers, that of the writer too, and the
destination is empty; with its arrival at a core, in the order of the writes there, the core holds what it gives, and the last core sends
the old value to the destination. That the writer's own core waits for the arrival, and the order of the arrivals, are log entry 56.
A write of CTX_ID changes nothing and sends the value that was read. -/
def Sys2Proof.Spec.ContextRegisters : Prop :=
  (∀ (h : Hdr) (d a : Operand) (addr : BitVec 12) (s : State) (g : Nat),
    let x := s.grp g
    let n := addr.toNat
    let c := x.ctx
    let old := (s.ctx c).regs
    let v := s.rd x a 0
    let was : Word := match n with
      | 0x005 => old.ageLimit.setWidth 64
      | 0x006 => old.leaseLen.setWidth 64
      | 0x017 => 8 * old.trapVec.setWidth 64
      | _ => Tab.get 0 (n - 0x40) old.qbind
    let rw : Word := match n with
      | 0x005 => 0xFFFF
      | 0x006 => 0x1FFFF
      | 0x017 => 0x01FFFFFFFFFFFFF8
      | _ => 0x80000001FF7FFFFF
    let store := fun (v : Word) => match n with
      | 0x005 => { old with ageLimit := if v.setWidth 16 = 0#16 then 1 else v.setWidth 16 }
      | 0x006 => { old with leaseLen := BitVec.ofNat 17 (max 16 (min 65536 (v.toNat % 131072))) }
      | 0x017 => { old with trapVec := v.extractLsb' 3 54 }
      | _ =>
        let len := (v.extractLsb' 8 8).toNat
        let bad := len = 0 ∨ 128 < len ∨ 256 < (v.extractLsb' 0 8).toNat + len
        { old with qbind := Tab.set 0 (n - 0x40) (if bad then v &&& ~~~0x8000000000000000 else v) old.qbind }
    let does := fun (i : Instr) (new : Word) =>
      s.Stands g i → x.uniGuard h = .run → s.hasGrp g = true → s.csrWaits g x n = false →
        (n ∈ [0x005, 0x006, 0x017] ∨ 0x40 ≤ n ∧ n < 0x50 →
          ∃ t : State, exec i s = .next (t.retire g h.bnd .on) ∧ (t.ctx c).regs = store new ∧ t.mem = s.mem ∧
            (∀ k ∈ s.coresOf c, t.ctxRegs k c = s.ctxRegs k c) ∧
            (∀ r, regOf d = some r → r < 192 → (t.grp g).isFull r = false) ∧
            t.pending = s.pending ++ (s.coresOf c).map (fun k => .contextCsrPropagated s.nextId k)) ∧
        (n = 0x001 → regOf d = none → exec i s = .next (s.retire g h.bnd .on)) ∧
        (∀ r, n = 0x001 → regOf d = some r → r < 192 →
          ∃ (t : State) (q : Result), exec i s = .next (t.retire g h.bnd .on) ∧ t.mem = s.mem ∧ t.hub = s.hub ∧
            (t.grp g).isFull r = false ∧ Tab.find? s.nextId t.sys.results = some q ∧ q.grp = g ∧ q.regs = [r] ∧
            q.vals = [(r, 0, Spec.csrValue s g 1)] ∧ t.pending = s.pending ++ [.resultWriteback s.nextId])
    does (.csrw h d a addr) ((was &&& ~~~rw) ||| (v &&& rw)) ∧ does (.csrs h d a addr) (was ||| (v &&& rw)) ∧
      does (.csrc h d a addr) (was &&& ~~~(v &&& rw))) ∧
  (∀ (s : State) (w : CtxWrite) (core : Nat),
    let e : Instr := .contextCsrPropagated w.id core
    let before := s.hub.ctxWrites.any (fun v => decide (v.id < w.id ∧ v.ctx = w.ctx) && v.left.contains core)
    let behind := s.hub.ctxWrites.any (fun v => decide (w.id < v.id ∧ v.ctx = w.ctx) && v.left.contains core)
    s.hub.ctxWrites.find? (fun v => decide (v.id = w.id)) = some w → core ∈ w.left →
      (before = true → exec e s = .next (s.later e)) ∧
      (before = false → ∃ t, exec e s = .next t ∧ t.mem = s.mem ∧
        (behind = false → t.ctxRegs core w.ctx = (s.ctx w.ctx).regs) ∧
        (behind = true → t.ctxRegs core w.ctx = (s.ctxRegs core w.ctx).store w.addr w.val) ∧
        (∀ k, k ≠ core → t.ctxRegs k w.ctx = s.ctxRegs k w.ctx) ∧
        (∀ r, w.left = [core] → w.reg = some r → s.hasGrp w.grp = true → (s.grp w.grp).team = w.team →
          ∃ q, Tab.find? w.tok t.sys.results = some q ∧ q.grp = w.grp ∧ q.regs = [r] ∧ q.vals = [(r, 0, w.old)] ∧
            t.pending = s.pending ++ [.resultWriteback w.tok])))

/-- Control register words read the old value and write as Apply gives, of groups and of contexts: the parts above together. -/
def Obligations.ControlRegisters : Prop := Spec.ControlRegistersOfGroups ∧ Spec.ContextRegisters

/-- R359 to R362: a `tlbi` issues one invalidation of its group, or defers the group's lanes where it names a context of another
partition; when the group's earlier accesses are performed the leaves and non-leaf entries that it names are in no unit, and it ends
once the accesses that used them are performed. -/
def Obligations.TranslationInvalidation : Prop :=
  (∀ (h : Hdr) (a : Operand) (b : Option Operand) (s : State) (g : Nat),
    let x := s.grp g
    let named := fun (b : Option Operand) => match b with | some o => (s.rd x o 0).toNat | none => x.ctx
    let may := fun (b : Option Operand) => b = none ∨
      (named b ≤ 63 ∧ (s.ctxPart x.ctx = 0 ∨ s.ctxPart x.ctx = s.ctxPart (named b)))
    let does := fun (i : Instr) (b : Option Operand) (what : TlbiWhat) =>
      s.Stands g i → x.uniGuard h = .run → s.hasGrp g = true →
        let busy := s.sys.tlbis.any (fun t => decide (t.grp = g ∧ t.team = x.team))
        (busy = true → exec i s = .next (s.retire g h.bnd .wait)) ∧
        (busy = false → ¬ may b → ∃ t : State, exec i s = .next (t.retire g h.bnd .on) ∧ t.sys.tlbis = s.sys.tlbis ∧ t.mem = s.mem ∧
          ∀ l < 96, x.flow.mask.getLsbD l = true → (t.grp g).flow.deferred.getLsbD l = true ∧
            ∃ r ∈ (t.grp g).defs, r.lane = l ∧ r.cause = 0x11 ∧ r.detail = 10 ∧ r.pc = x.flow.pc) ∧
        (busy = false → may b → ∃ t : State, exec i s = .next (t.retire g h.bnd .on) ∧ t.mem = s.mem ∧
          t.grp g = { x with mem := { x.mem with seq := x.mem.seq + 1 } } ∧
          t.sys.tlbis = s.sys.tlbis ++ [{ id := s.nextId, grp := g, team := x.team, seq := x.mem.seq, ctx := named b % 64, what := what,
                                          dropped := false, users := [] }] ∧
          t.pending = s.pending ++ [.tlbiComplete s.nextId])
    let skips := fun (i : Instr) => s.Stands g i → x.uniGuard h = .skip → exec i s = .next (s.retire g h.bnd .on)
    does (.tlbiPage h a b) b (.page (s.rd x a 0) false) ∧ does (.tlbiPageRecall h a b) b (.page (s.rd x a 0) true) ∧
    does (.tlbiContext h b) b .context ∧ does (.tlbiAll h) none .all ∧
    skips (.tlbiPage h a b) ∧ skips (.tlbiPageRecall h a b) ∧ skips (.tlbiContext h b) ∧ skips (.tlbiAll h)) ∧
  (∀ (s : State) (k : Tlbi),
    let e : Instr := .tlbiComplete k.id
    let ready := s.lsDone k.grp k.team k.seq .package true && !s.tlbiHeld k
    s.sys.tlbis.find? (fun t => decide (t.id = k.id)) = some k →
      (k.dropped = false → ready = false → exec e s = .next (s.later e)) ∧
      (k.dropped = false → ready = true → ∃ t, exec e s = .next t ∧ t.groups = s.groups ∧
        (∀ y ∈ t.sys.tlbs, match k.what with
          | .all => False
          | .context => y.ctx ≠ k.ctx
          | .page va _ => y.ctx = k.ctx → y.vpage ≠ va.toNat % 2 ^ 57 / 2 ^ y.logSize ∧
              ∀ leaf n, s.walk k.ctx (vaOf va) = .leaf leaf n → y.vpage * 2 ^ y.logSize / 2 ^ n ≠ va.toNat % 2 ^ 57 / 2 ^ n) ∧
        (∀ y ∈ t.sys.nonLeaf, k.what ≠ .all ∧ y.ctx ≠ k.ctx)) ∧
      (k.dropped = true → k.users.all s.keyDone = true → ∃ t, exec e s = .next t ∧ t.mem = s.mem ∧ t.groups = s.groups ∧
        ∀ y ∈ t.sys.tlbis, y.id ≠ k.id) ∧
      (k.dropped = true → k.users.all s.keyDone = false → exec e s = .next (s.later e)))

/-- R32, R34, R60: a result returns to its group: every register of it that the result still governs holds its values and is full, the
others keep what they hold; the flags are set; a group that waited for these registers alone is eligible. -/
def Obligations.ResultsReturn : Prop :=
  ∀ (s : State) (tok : Nat) (r : Result),
    let x := s.grp r.grp
    let mine := fun k => k ∈ r.regs ∧ Tab.find? k x.regs.pend = some tok
    Tab.find? tok s.sys.results = some r → s.hasGrp r.grp = true →
      ∃ t, exec (.resultWriteback tok) s = .next t ∧ t.mem = s.mem ∧ Tab.find? tok t.sys.results = none ∧
        let y := t.grp r.grp
        y.flow = x.flow ∧ y.fp.flags = x.fp.flags ||| r.flags ∧
        (∀ k < 192, y.isFull k = (x.isFull k || decide (mine k))) ∧
        (∀ (n : Fin 128) (l : Nat),
          (¬ mine n.val ∨ (∀ e ∈ r.vals, ¬ (e.1 = n.val ∧ e.2.1 = l)) → y.vreg n l = x.vreg n l) ∧
          (∀ v, mine n.val → (∃ e ∈ r.vals, e.1 = n.val ∧ e.2.1 = l) → (∀ e ∈ r.vals, e.1 = n.val → e.2.1 = l → e.2.2 = v) →
            y.vreg n l = v.setWidth 32)) ∧
        (∀ n < 61,
          (¬ mine (128 + n) ∨ (∀ e ∈ r.vals, e.1 ≠ 128 + n) → y.sreg n = x.sreg n) ∧
          (∀ v, mine (128 + n) → (∃ e ∈ r.vals, e.1 = 128 + n) → (∀ e ∈ r.vals, e.1 = 128 + n → e.2.2 = v) → y.sreg n = v)) ∧
        (x.sched.need ≠ [] → (∀ k ∈ x.sched.need, k < 192 ∧ y.isFull k = true) → y.sched.need = [] ∧ y.sched.since = s.tick)

/-! ## Replication words, publications, collectives -/

namespace Sys2Proof.Spec
open Sys2Proof.Machine

/-- The applied count of rank `k` on die `d` (R285). -/
def appliedCount (s : State) (d k : Nat) : Nat := Tab.get 0 k (s.rep d).av

/-- A vector of counts in three registers is covered on die `d` (R298): it is of an earlier epoch, or of this one with every entry of
a live rank reached. -/
def coveredOn (s : State) (d : Nat) (v0 v1 v2 : Word) : Prop :=
  let behind := (s.repl.epoch - v2.setWidth 16).toNat
  (1 ≤ behind ∧ behind ≤ 32768) ∨
  (behind = 0 ∧ ∀ k ∈ s.liveDies,
    (if k < 4 then (v0.extractLsb' (16 * k) 16).toNat else (v1.extractLsb' (16 * (k - 4)) 16).toNat) ≤ appliedCount s d k)

end Sys2Proof.Spec

/-- R297, R298, R306: `vread` waits for the group's replicated stores to be applied on its die, and gives the die's vector and the epoch;
`vwait`, behind the group's acquires and fences, suspends it until its vector is covered there, or its deadline has come, and writes
1 or 0 (stated for a group whose path has not been switched away since); `verchk` reads a version
word once and writes the outcome of its compare in every active lane. -/
def Obligations.ReplicationWords : Prop :=
  (∀ (h : Hdr) (n0 n1 n2 : Fin 64) (s : State) (g : Nat),
    let x := s.grp g
    let i : Instr := .vread h (.s n0)
    let die := s.issueDie x.core
    n1.val = n0.val + 1 → n2.val = n0.val + 2 → n2.val < 61 → s.Stands g i → x.uniGuard h = .run → s.hasGrp g = true →
      (∀ k < 8, appliedCount s die k < 65536) →
      (s.repApplied g x = false → exec i s = .next (s.retire g h.bnd .wait)) ∧
      (s.repApplied g x = true → ∃ y0 y1 y v0 v1, Wrote x y0 (.s n0) [0] (fun _ => v0) ∧ Wrote y0 y1 (.s n1) [0] (fun _ => v1) ∧
        Wrote y1 y (.s n2) [0] (fun _ => s.repl.epoch.setWidth 64) ∧
        (∀ k < 4, (v0.extractLsb' (16 * k) 16).toNat = appliedCount s die k ∧
          (v1.extractLsb' (16 * k) 16).toNat = appliedCount s die (k + 4)) ∧
        exec i s = .next ((s.setGrp g y).retire g h.bnd .on))) ∧
  (∀ (h : Hdr) (rel : Bool) (d b : Operand) (n : Fin 64) (s : State) (g : Nat),
    let x := s.grp g
    let i : Instr := .vwait h rel d (.s n) b
    let v0 := x.sreg n.val
    let v1 := x.sreg (n.val + 1)
    let v2 := x.sreg (n.val + 2)
    let dl := if b = .zero then none else some (if rel then s.tick + s.rd x b 0 else s.rd x b 0)
    let cov := coveredOn s (s.issueDie x.core) v0 v1 v2
    let due := ∃ t, dl = some t ∧ t ≤ s.tick
    let ends := fun (t : State) (flag : Word) => ∃ y : Machine.Group, Wrote x y d [0] (fun _ => flag) ∧
      t.grp g = { y with sched := { y.sched with susp := .none, since := s.tick } } ∧ t.mem = s.mem
    s.Stands g i → s.hasGrp g = true →
      (x.uniGuard h = .run → s.lsWaits g x = true → exec i s = .next (s.retire g h.bnd .wait)) ∧
      (x.uniGuard h = .run → s.lsWaits g x = false → x.port.isSome = true → cov → ∃ t : State, exec i s = .next (t.retire g h.bnd .run) ∧ ends t 1) ∧
      (x.uniGuard h = .run → s.lsWaits g x = false → x.port.isSome = true → ¬ cov → due →
        ∃ t : State, exec i s = .next (t.retire g h.bnd .run) ∧ ends t 0) ∧
      (x.uniGuard h = .run → s.lsWaits g x = false → ¬ cov → ¬ due → exec i s =
        .next ((s.setGrp g { x with sched := { x.sched with susp := .vwait d v0 v1 v2 dl x.flow.pc } }).retire g h.bnd .run)) ∧
      (x.uniGuard h = .skip → exec i s = .next (s.retire g h.bnd .on))) ∧
  (∀ (d : Operand) (v0 v1 v2 : Word) (dl : Option Word) (pc : PC) (s : State) (g : Nat),
    let x := s.grp g
    let cov := coveredOn s (s.issueDie x.core) v0 v1 v2
    let due := ∃ t, dl = some t ∧ t ≤ s.tick
    let ends := fun (flag : Word) => ∃ (t : State) (y : Machine.Group), exec (.vwaitComplete g) s = .next t ∧
      Wrote x y d [0] (fun _ => flag) ∧ t.grp g = { y with sched := { y.sched with susp := .none, since := s.tick } } ∧ t.mem = s.mem
    s.hasGrp g = true → x.sched.susp = .vwait d v0 v1 v2 dl pc → (x.port.isSome = true ∨ x.sched.switched = false) →
      (cov → ends 1) ∧ (¬ cov → due → ends 0) ∧ (¬ cov → ¬ due → exec (.vwaitComplete g) s = .next s)) ∧
  (∀ (h : Hdr) (eq : Bool) (d a b : Operand) (s u : State) (g : Nat),
    let x := s.grp g
    let i : Instr := .verchk h eq d a b
    let va := s.rd x a 0
    let info := localInfo s g x true x.flow.mask 0 8 false .zero
    let read := s.oneAccess g x info verKind (mkAcc 0 va .load 8 0 0)
    s.Stands g i → s.hasGrp g = true →
      (x.uniGuard h = .run → x.flow.mask = 0 → exec i s = .next (s.retire g h.bnd .on)) ∧
      (x.uniGuard h = .run → x.flow.mask ≠ 0 → va.toNat % 8 ≠ 0 → trapsBefore s g i 0x15 1 va) ∧
      (x.uniGuard h = .run → x.flow.mask ≠ 0 → va.toNat % 8 = 0 → s.lsWaits g x = true → exec i s = .next (s.retire g h.bnd .wait)) ∧
      (∀ (v : BitVec 128) (pa : Nat), x.uniGuard h = .run → x.flow.mask ≠ 0 → va.toNat % 8 = 0 → s.lsWaits g x = false →
        read = (.done v pa, u) → u.hasGrp g = true → (u.grp g).flow.mask = x.flow.mask →
        let e := s.rd x b 0
        let ok := if eq then v.setWidth 64 = e else e ≤ v.setWidth 64
        ∃ (t : State) (y : Machine.Group), exec i s = .next (t.retire g h.bnd .on) ∧ t.grp g = y ∧ t.mem = u.mem ∧
          Wrote (u.grp g) y d (lanesOf x.flow.mask) (fun _ => if ok then 1 else 0)) ∧
      (x.uniGuard h = .skip → exec i s = .next (s.retire g h.bnd .on)))

/-- R303 to R305, R307, R373: `pub`, `pubv` and `coll` check their operands in order, wait with four outstanding or behind a fence
on their path or a `tlbi`, and else hand their work over: a publication takes the next number of its channel, a collective the next
turn of its die on its communicator; the next word follows. The order of the reasons is log entry 84. -/
def Sys2Proof.Spec.PublicationAndCollectiveWords : Prop :=
  ∀ (h : Hdr) (lsrc : Bool) (a b c : Operand) (s : State) (g : Nat),
    let x := s.grp g
    let busy := 4 ≤ s.fabricOut g x ∨ x.fenced .fb = true ∨ (∃ k ∈ s.sys.tlbis, k.grp = g ∧ k.team = x.team)
    let counted := { x with mem := { x.mem with seq := x.mem.seq + 1 } }
    let src := s.rd x a 0
    let chw := s.rd x b 0
    let ext := s.rd x c 0
    let len := (ext.extractLsb' 32 24).toNat
    let ch := (chw.extractLsb' 0 16).toNat
    let num := Tab.get 0 ch s.fab.chSeq
    let published := fun (i : Instr) (ver lsrc : Bool) (off len : Nat) =>
      ∃ (t : State) (p : PubWord), exec i s = .next (t.retire g h.bnd .on) ∧ t.fab.pubs = s.fab.pubs ++ [p] ∧
        t.grp g = counted ∧ t.mem = s.mem ∧
        (p.id = s.nextId ∧ p.grp = g ∧ p.ch = ch ∧ p.num = num ∧ p.ver = ver ∧ p.lsrc = lsrc ∧ p.src = src ∧ p.off = off ∧ p.len = len ∧
          p.sent = 0 ∧ p.pc = x.flow.pc) ∧
        Tab.get 0 ch t.fab.chSeq = (num + 1) % 4294967296 ∧
        t.pending = s.pending ++ [.publicationFlitArrival 16 s.nextId]
    (let i : Instr := .pub h lsrc a b c
     s.Stands g i → s.hasGrp g = true →
      (x.uniGuard h = .skip → exec i s = .next (s.retire g h.bnd .on)) ∧
      (x.uniGuard h = .run →
        let r1 := chw.extractLsb' 16 48 ≠ 0 ∨ ext.extractLsb' 56 8 ≠ 0
        let r4 := lsrc = true ∧ ((s.team x.team).localSize + 4095) / 4096 * 4096 < src.toNat + len
        let r8 := s.mayPublish x.ctx ch = false
        (r1 → trapsBefore s g i 0x22 1 0) ∧ (¬ r1 → r4 → trapsBefore s g i 0x22 4 0) ∧
        (¬ r1 → ¬ r4 → r8 → trapsBefore s g i 0x22 8 0) ∧ (¬ r1 → ¬ r4 → ¬ r8 → len = 0 → trapsBefore s g i 0x22 9 0) ∧
        (¬ r1 → ¬ r4 → ¬ r8 → len ≠ 0 → busy → exec i s = .next (s.retire g h.bnd .wait)) ∧
        (¬ r1 → ¬ r4 → ¬ r8 → len ≠ 0 → ¬ busy → published i false lsrc (ext.extractLsb' 0 32).toNat len))) ∧
    (let i : Instr := .pubv h a b
     s.Stands g i → s.hasGrp g = true →
      (x.uniGuard h = .skip → exec i s = .next (s.retire g h.bnd .on)) ∧
      (x.uniGuard h = .run →
        let r1 := chw.extractLsb' 16 48 ≠ 0
        let r8 := s.mayPublish x.ctx ch = false
        (r1 → trapsBefore s g i 0x22 1 0) ∧ (¬ r1 → r8 → trapsBefore s g i 0x22 8 0) ∧
        (¬ r1 → ¬ r8 → busy → exec i s = .next (s.retire g h.bnd .wait)) ∧
        (¬ r1 → ¬ r8 → ¬ busy → published i true false 0 8))) ∧
    (∀ n : Fin 64, a = .s n →
     let i : Instr := .coll h a
     let w := x.sreg (n.val + 2)
     let f := fun (lo k : Nat) => (w.extractLsb' lo k).toNat
     let die := s.issueDie x.core
     let turn := Tab.get 0 (f 32 12 * 16 + die) s.fab.turns
     s.Stands g i → s.hasGrp g = true →
      (x.uniGuard h = .skip → exec i s = .next (s.retire g h.bnd .on)) ∧
      (x.uniGuard h = .run →
        let r1 := f 53 11 ≠ 0
        let r5 := Scope.all[f 50 3]? = none
        let r7 := f 44 2 = 3 ∨ f 46 2 = 3 ∨ f 48 2 = 3 ∨ f 0 32 = 0
        let r8 := s.mayCollect x.ctx die (f 32 12) = false
        (r1 → trapsBefore s g i 0x22 1 0) ∧ (¬ r1 → r5 → trapsBefore s g i 0x22 5 0) ∧
        (¬ r1 → ¬ r5 → r7 → trapsBefore s g i 0x22 7 0) ∧ (¬ r1 → ¬ r5 → ¬ r7 → r8 → trapsBefore s g i 0x22 8 0) ∧
        (¬ r1 → ¬ r5 → ¬ r7 → ¬ r8 → busy → exec i s = .next (s.retire g h.bnd .wait)) ∧
        (¬ r1 → ¬ r5 → ¬ r7 → ¬ r8 → ¬ busy → ∃ (t : State) (q : CollOp), exec i s = .next (t.retire g h.bnd .on) ∧
          t.fab.colls = s.fab.colls ++ [q] ∧ t.grp g = counted ∧ t.mem = s.mem ∧
          (q.id = s.nextId ∧ q.grp = g ∧ q.comm = f 32 12 ∧ q.src = x.sreg n.val ∧ q.dst = x.sreg (n.val + 1) ∧ q.count = f 0 32 ∧
            q.kind = f 44 2 ∧ q.rop = f 46 2 ∧ q.ty = f 48 2 ∧ some q.scope = Scope.all[f 50 3]? ∧ q.die = die ∧ q.turn = turn) ∧
          t.pending = s.pending ++ [.collectiveExecute s.nextId [] [] false])))

namespace Sys2Proof.Spec
open Sys2Proof.Machine

/-- The elements of the members as a collective combines them (R308): those named in `order`, each once, then the others. -/
def collOrder (n : Nat) (order : List Nat) : List Nat :=
  (order.filter (fun k => decide (k < n))).dedup ++ (List.range n).filter (fun k => !order.contains k)

/-- What member `m` of `n` receives (R308), from what each member contributes: all contributions in order of the members; else the
reduction of their elements, of all of them or of the member's own part. -/
def collReceives (c : CollOp) (n m : Nat) (order : List Nat) (gives : Nat → List Byte) : List Byte :=
  if c.kind = 2 then (List.range n).flatMap gives
  else (List.range c.count).flatMap (fun i => bytesOfNum c.es (combine c.ty c.rop ((collOrder n order).map (fun k =>
    (elemsOf c.es ((gives k).length / c.es) (gives k)).getD ((if c.kind = 1 then m * c.count else 0) + i) 0))))

/-- The state after a collective has written `data` at `dst`, line by line (R308), where each of the writes is performed; the operation
keeps what is left of its result. -/
def collLines (c : CollOp) : Nat → State → Word → List Byte → Option State
  | 0, s, _, _ => some s
  | f + 1, s, dst, data =>
    if data = [] then some s
    else
      let k := min data.length (128 - dst.toNat % 128)
      match s.agentWrite c.agent collKind dst (data.take k) with
      | (.done _, s) =>
        let dst' := dst + BitVec.ofNat 64 k
        collLines c f (s.putColl { c with result := some (data.drop k), dst := dst' }) dst' (data.drop k)
      | _ => none

end Sys2Proof.Spec

/-- R308: a collective waits for its members; where one is absent, every member's group takes PEER_ABSENT, and where their
descriptors differ, those of other packages among them, COLL_MISMATCH, at its next boundary, and the operations end without a write; a
mismatch goes before an access that would fail (log entry 107). Where the descriptors agree and every member has come, one member of this
package reads its contribution at SRC, receives the combination of all of them, writes it at DST, and the operation ends; a write of one
line of plain HBM puts its bytes there and no others. When all results are written the operations end. An integer reduction combines
modulo 2^32, or by signed order. -/
def Sys2Proof.Spec.CollectivesExecute : Prop :=
  (∀ (s : State) (c : CollOp) (order : List Nat) (remote : List Contribution) (fail : Bool),
    let e : Instr := .collectiveExecute c.id order remote fail
    let ms := s.collMembers c
    let ops := ms.filterMap Prod.snd
    let gone := fun (t : State) => ∀ k ∈ t.fab.colls, k.id ∉ ops.map CollOp.id
    let trapped := fun (t : State) (cause detail : Nat) => ∀ k ∈ ops, s.hasGrp k.grp = true → (s.grp k.grp).team = k.team →
      { cause := cause, pc := k.pc, addr := 0, info := BitVec.ofNat 64 detail, lanes := allLanes } ∈ (t.grp k.grp).pending
    s.fab.colls.find? (fun k => decide (k.id = c.id)) = some c → (∀ k ∈ ops, k.parked = none) → c.result = none →
      (fail = true → ∃ t, exec e s = .next t ∧ gone t ∧ trapped t 0x14 1 ∧ t.mem = s.mem) ∧
      (fail = false → (∃ m ∈ ms, m.2 = none ∧ ∀ r ∈ remote, r.member ≠ m.1) → exec e s = .next s) ∧
      (fail = false → (∀ m ∈ ms, m.2 = none → ∃ r ∈ remote, r.member = m.1) →
        ((∃ k ∈ ops, (k.kind, k.rop, k.ty, k.count) ≠ (c.kind, c.rop, c.ty, c.count)) ∨
          (∃ m ∈ ms, m.2 = none ∧ ∃ r ∈ remote, r.member = m.1 ∧ (r.kind, r.rop, r.ty, r.count) ≠ (c.kind, c.rop, c.ty, c.count))) →
        ∃ t, exec e s = .next t ∧ gone t ∧ trapped t 0x23 1 ∧ t.mem = s.mem)) ∧
  (∀ (s : State) (c : CollOp) (order : List Nat) (remote : List Contribution) (fail : Bool),
    let ops := (s.collMembers c).filterMap Prod.snd
    s.fab.colls.find? (fun k => decide (k.id = c.id)) = some c → (∀ k ∈ ops, k.parked = none ∧ k.result = some []) → c.result = some [] →
      ∃ t, exec (.collectiveExecute c.id order remote fail) s = .next t ∧ t.groups = s.groups ∧ t.mem = s.mem ∧
        t.fab.colls = s.fab.colls.filter (fun k => !(ops.map CollOp.id).contains k.id)) ∧
  (∀ (s u v : State) (c : CollOp) (m : Nat) (order : List Nat) (remote : List Contribution) (own : List Byte),
    let e : Instr := .collectiveExecute c.id order remote false
    let ms := s.collMembers c
    let n := ms.length
    let len := (if c.kind = 1 then n * c.count else c.count) * c.es
    let gives := fun (k : Nat) => if k = m then own
      else match remote.find? (fun r => decide (r.member = k)) with | some r => r.data | none => []
    let all := collReceives c n m order gives
    s.fab.colls.find? (fun k => decide (k.id = c.id)) = some c → c.parked = none → c.result = none → 0 < len →
      ms.filterMap Prod.snd = [c] → (m, some c) ∈ ms →
      (∀ k ∈ ms, k.2 = none → ∃ r ∈ remote, r.member = k.1) →
      (∀ r ∈ remote, (r.kind, r.rop, r.ty, r.count) = (c.kind, c.rop, c.ty, c.count) ∧ r.data.length = len) →
      c.src.toNat % c.es = 0 → c.dst.toNat % c.es = 0 →
      State.spanRead c.agent collKind len s c.src len [] = (.done own, u) → u.fab.colls = s.fab.colls →
      collLines c (all.length + 1) (u.putColl { c with result := some all }) c.dst all = some v →
        ∃ t, exec e s = .next t ∧ t.mem = v.mem ∧ t.groups = v.groups ∧ ∀ k ∈ t.fab.colls, k.id ≠ c.id) ∧
  (∀ (s u : State) (ag : Agent) (kinds : Nat → Option Nat) (va leaf : Word) (pa : Nat) (data : List Byte),
    let ticked := { ag with info := { ag.info with tick := s.tick.toNat } }
    let within := fun (q : Nat) => pa ≤ q ∧ q < pa + data.length
    s.reach ticked .write kinds va = (.ok pa leaf, u) → u.sys.migs = [] → pteKind leaf ≠ 3 → pteKind leaf ≠ 4 → pteTrk leaf = false →
      pteTag leaf = false → va.toNat % 128 + data.length ≤ 128 →
      (∀ q, within q → ∃ h o, placeOf u.tagging q = .hbm h o) →
      (∀ q k, pa ≤ q → q + k ≤ pa + data.length → u.permitted 0 ag.ctx ag.info.path.code .write q k none = true) →
        ∃ v, s.agentWrite ag kinds va data = (.done [], v) ∧ ∀ q, v.byte q = if within q then data.getD (q - pa) 0 else u.byte q) ∧
  (∀ l : List Nat,
    combine 2 0 l = l.sum % 4294967296 ∧
    (l ≠ [] → (∀ v ∈ l, v < 4294967296) →
      combine 2 1 l ∈ l ∧ combine 2 2 l ∈ l ∧
      (∀ v ∈ l, (BitVec.ofNat 32 v).toInt ≤ (BitVec.ofNat 32 (combine 2 1 l)).toInt) ∧
      (∀ v ∈ l, (BitVec.ofNat 32 (combine 2 2 l)).toInt ≤ (BitVec.ofNat 32 v).toInt)))

/-- pub, pubv and coll hand their work over, and a collective waits, computes, writes its result, or traps: the parts above together. -/
def Obligations.PublicationsAndCollectives : Prop := Spec.PublicationAndCollectiveWords ∧ Spec.CollectivesExecute

/-! ## The matrix unit -/

namespace Sys2Proof.Spec
open Sys2Proof.Machine

/-- An operand of a matrix word that must be uniform and is (R41): a vector register holds one value in every lane. -/
def uniform (x : Machine.Group) (o : Operand) : Prop := ∀ n : Fin 128, o = .v n → ∀ l < 96, x.vreg n l = x.vreg n 0

/-- A matrix word goes on to its own part (R41): every lane is active, its guard holds, its uniform operands are uniform. -/
structure MxGoes (s : State) (g : Nat) (i : Instr) (h : Hdr) (l : List Operand) : Prop where
  stands : s.Stands g i
  here : s.hasGrp g = true
  team : (Tab.find? (s.grp g).team s.teams).isSome = true
  all : (s.grp g).flow.mask = allLanes
  guard : (s.grp g).uniGuard h = .run
  uni : ∀ o ∈ l, uniform (s.grp g) o

/-- A queue with a new word in its place (R160, R185): behind every word, but before those that the other port, with a run begun
later, or in the same tick on the higher port, issued in the same tick. -/
def mxPlaced (s : State) (old new : List MxEntry) (e : MxEntry) : Prop :=
  let w := (s.port s.focusCore s.focusPort).since
  let behind := fun (k : MxEntry) => k.tick = s.tick.toNat ∧ k.started = false ∧ k.port ≠ s.focusPort ∧
    (w < k.since ∨ (w = k.since ∧ k.port = true))
  ∃ l r, old = l ++ r ∧ new = l ++ e :: r ∧ (∀ k ∈ l, ¬ behind k) ∧ ∀ k, r.head? = some k → behind k

/-- A matrix word of group `g`, as it is queued. -/
def mxWordOf (s : State) (g id : Nat) (op : MxOp) (run : MiterRun) : MxEntry :=
  let x := s.grp g
  { id := id, grp := g, sup := x.sup, pc := x.flow.pc, seq := x.mem.seq, tick := s.tick.toNat, op := op, started := false, todo := [],
    flags := 0, run := run, stopped := false, parked := none, port := s.focusPort,
    since := (s.port s.focusCore s.focusPort).since }

/-- A matrix word stands in its team's queue (R160), its group being `y`. -/
def mxQueued (s t : State) (g : Nat) (op : MxOp) (run : MiterRun) (y : Machine.Group) : Prop :=
  let x := s.grp g
  t.grp g = { y with mem := { y.mem with seq := y.mem.seq + 1 } } ∧ t.mem = s.mem ∧
    ∃ q, mxPlaced s (s.team x.team).mx q (mxWordOf s g s.nextId op run) ∧ t.team x.team = { s.team x.team with mx := q }

/-- MATRIX_OPERAND and ALIGN of a matrix word (R163, R164): for every lane, before any effect. -/
def mxTraps (s : State) (g : Nat) (i : Instr) (cause info : Nat) (addr : Word) : Prop :=
  let f := (s.grp g).flow
  exec i s = .next (s.takeTrap g { cause := cause, info := BitVec.ofNat 64 info, addr := addr, lanes := allLanes, pc := f.pc,
                                   resume := f.pc })

end Sys2Proof.Spec

/-- R41, R160 to R182: a matrix word with every lane active and uniform operands checks its operands, waits at a queue of eight or,
where it reads or writes memory, behind a fence on MX, and else stands in its team's queue while the next word follows; `coefl`
reads local memory as it issues. That `coefl` gives MATRIX_OPERAND before ALIGN, and that ALIGN of an `mdrain` names the main
address where both are misaligned, is the model's choice (log entries 64 and 97). With a lane inactive a matrix word traps; with its
guard false it does nothing. -/
def Obligations.MatrixWordsIssue : Prop :=
  ∀ (h : Hdr) (lsrc : Bool) (fm : FnMma) (fa : FnAcvt) (fp : FnMpoly) (fi : FnMiter) (fd : FnMdrain) (cnt : Fin 32) (n16 first : Fin 16)
    (d a b c : Operand) (s : State) (g : Nat),
    let x := s.grp g
    let tm := s.team x.team
    let share := (tm.localSize + 4095) / 4096 * 4096
    let window := tm.acc * 65536
    let full := 8 ≤ tm.mx.length
    let held := full ∨ x.fenced .mx = true
    let va := s.rd x a 0
    let vb := s.rd x b 0
    let vc := s.rd x c 0
    let tile := fun (o : Operand) => match o with | .a n => some n.val | _ => none
    let pair := match c with | .s n => (x.sreg n.val, x.sreg (n.val + 1)) | _ => (0, 0)
    let waits := fun (i : Instr) => exec i s = .next (s.retire g h.bnd .wait)
    let queues := fun (i : Instr) (op : MxOp) (run : MiterRun) (y : Machine.Group) =>
      ∃ t : State, exec i s = .next (t.retire g h.bnd .on) ∧ mxQueued s t g op run y
    (let i : Instr := .wbload h lsrc a b c
     let off := vb.toNat
     let n := vc.toNat
     let bad := n = 0 ∨ n % 64 ≠ 0 ∨ off % 64 ≠ 0 ∨ window < off + n ∨ (lsrc = true ∧ (va.toNat % 64 ≠ 0 ∨ share < va.toNat + n))
     MxGoes s g i h [a, b] →
      (bad → mxTraps s g i 0x21 4 0) ∧ (¬ bad → lsrc = false → va.toNat % 64 ≠ 0 → mxTraps s g i 0x15 1 va) ∧
      (¬ bad → va.toNat % 64 = 0 → held → waits i) ∧
      (¬ bad → va.toNat % 64 = 0 → ¬ held → queues i (.wbload lsrc va off n) .none x)) ∧
    (let i : Instr := .mma h fm d a b c
     let m := 64 * (fm.ms.val + 1)
     let n := 64 * (fm.ns.val + 1)
     let dt := (tile d).getD 0
     let ck := tm.mmaCheck m n dt (tile a) va.toNat (tile b) vb.toNat pair.1 pair.2
     MxGoes s g i h [a, b] →
      (∀ r, ck = some r → mxTraps s g i 0x21 r 0) ∧
      (ck = none → full ∨ ((tile a).isNone = true ∧ x.fenced .mx = true) → waits i) ∧
      (ck = none → ¬ full → ¬ ((tile a).isNone = true ∧ x.fenced .mx = true) →
        queues i (.mma m n fm.clr dt (tile a) va.toNat (tile b) vb.toNat pair.1 pair.2) .none x)) ∧
    (let i : Instr := .aclr h n16 d
     MxGoes s g i h [] → (full → waits i) ∧ (¬ full → queues i (.aclr ((tile d).getD 0) (n16.val + 1)) .none x)) ∧
    (let i : Instr := .acvt h fa d
     MxGoes s g i h [] → (full → waits i) ∧
      (¬ full → queues i (.acvt ((tile d).getD 0) (fa.cnt.val + 1) fa.tf16 fa.rm fa.sat fa.srci) .none x)) ∧
    (let i : Instr := .amovToVector h cnt d a c
     let bad := vc.toNat % 32 ≠ 0 ∨ 4096 ≤ vc.toNat
     MxGoes s g i h [] → (bad → mxTraps s g i 0x21 8 0) ∧ (¬ bad → full → ∃ t : State, exec i s = .next (t.retire g h.bnd .wait) ∧
        t.groups = s.groups ∧ t.teams = s.teams) ∧
      (∀ r : Fin 128, ¬ bad → ¬ full → d = .v r → r.val + cnt.val < 128 → ∃ (t : State) (tok : Nat), exec i s = .next (t.retire g h.bnd .on) ∧
        t.mem = s.mem ∧ mxPlaced s tm.mx (t.team x.team).mx (mxWordOf s g (s.nextId + 1)
          (.toVec ((tile a).getD 0) vc.toNat ((List.range (cnt.val + 1)).map (fun k => r.val + k)) tok)
          { phase := 0, iter := 0, rise := false, lastr := none }) ∧
        (∀ k < 192, (t.grp g).isFull k = (x.isFull k && !decide (r.val ≤ k ∧ k ≤ r.val + cnt.val))) ∧
        (∀ k < 192, Tab.find? k (t.grp g).regs.pend = if r.val ≤ k ∧ k ≤ r.val + cnt.val then some tok else Tab.find? k x.regs.pend))) ∧
    (let i : Instr := .amovToTile h cnt d a c
     let bad := vc.toNat % 32 ≠ 0 ∨ 4096 ≤ vc.toNat
     MxGoes s g i h [] → (bad → mxTraps s g i 0x21 8 0) ∧ (¬ bad → full → waits i) ∧
      (∀ r : Fin 128, ¬ bad → ¬ full → a = .v r →
        queues i (.toTile ((tile d).getD 0) vc.toNat
          ((List.range (cnt.val + 1)).flatMap (fun q => (List.range 96).map (fun l => (96 * q + l, x.vreg (r.val + q) l)))) (cnt.val + 1))
          .none x)) ∧
    (let i : Instr := .mpoly h fp d b
     let m := 64 * (fp.sz.val + 1)
     let bad := vb.toNat % 64 ≠ 0 ∨ window < vb.toNat + 4 * m * m
     MxGoes s g i h [b] → (bad → mxTraps s g i 0x21 4 0) ∧ (¬ bad → full → waits i) ∧
      (¬ bad → ¬ full → queues i (.mpoly m ((tile d).getD 0) vb.toNat fp.deg.val fp.f16
        ((List.range (fp.deg.val + 1)).map x.creg)) .none x)) ∧
    (let i : Instr := .miter h fi d a b
     let m := if fi.m128 then 128 else 64
     let bad := vb.toNat % 64 ≠ 0 ∨ window < vb.toNat + (if fi.ns5 then 6 else 4) * m * m
     let st := x.fp.miterState
     let resumed : MiterRun := { phase := (st.extractLsb' 16 2).toNat, iter := (st.extractLsb' 0 16).toNat, rise := st.getLsbD 21,
                                 lastr := some (st.extractLsb' 32 32).toNat }
     let left := if st.getLsbD 18 then st &&& ~~~0x40000#64 else st &&& ~~~0x3FFFFF#64
     MxGoes s g i h [b] → (bad → mxTraps s g i 0x21 4 0) ∧ (¬ bad → full → waits i) ∧
      (¬ bad → ¬ full → queues i (.miter m ((tile d).getD 0) ((tile a).getD 0) vb.toNat fi.ns5 fi.f16
        ((List.range (if fi.ns5 then 3 else 2)).map x.creg) x.fp.miterCap.toNat x.fp.miterTol.toNat)
        (if st.getLsbD 18 then resumed else { phase := 0, iter := 0, rise := false, lastr := none })
        { x with fp := { x.fp with miterState := left } })) ∧
    (let i : Instr := .mdrain h fd d a b c
     let m := 64 * (fd.ms.val + 1)
     let n := 64 * (fd.ns.val + 1)
     let bv := if b = .zero then none else some vb
     let ck := tm.drainCheck m n (drainMain fd.loc fd.rm va pair.1 pair.2) (bv.map (fun v => drainTrans fd.tloc v pair.1 pair.2)) pair.1
     let low := fd.loc = false ∧ va.toNat % 16 ≠ 0
     let high := fd.tloc = false ∧ (bv.getD 0).toNat % 16 ≠ 0
     MxGoes s g i h [a, b] →
      (∀ r, ck = some r → mxTraps s g i 0x21 r 0) ∧ (ck = none → low → mxTraps s g i 0x15 1 va) ∧
      (ck = none → ¬ low → high → mxTraps s g i 0x15 1 vb) ∧ (ck = none → ¬ low → ¬ high → held → waits i) ∧
      (ck = none → ¬ low → ¬ high → ¬ held →
        queues i (.mdrain m n ((tile d).getD 0) fd.loc fd.tloc fd.rm fd.sat fd.srci va bv pair.1 pair.2) .none x)) ∧
    (let i : Instr := .coefl h first n16 a
     let n := n16.val + 1
     let out := share < va.toNat + 4 * n
     MxGoes s g i h [] → (out → mxTraps s g i 0x21 4 0) ∧ (¬ out → va.toNat % 4 ≠ 0 → mxTraps s g i 0x15 2 va) ∧
      (¬ out → va.toNat % 4 = 0 → s.lsWaits g x = true → waits i) ∧
      (¬ out → va.toNat % 4 = 0 → s.lsWaits g x = false → ∃ y, exec i s = .next ((s.setGrp g y).retire g h.bnd .on) ∧
        { y with regs := x.regs } = x ∧ { y.regs with c := x.regs.c } = x.regs ∧
        ∀ k : Fin 16, y.creg k = if first.val ≤ k.val ∧ k.val < first.val + n
          then BitVec.ofNat 32 (tm.locLoad (va.toNat + 4 * (k.val - first.val)) 4) else x.creg k)) ∧
    (∀ i ∈ [Instr.wbload h lsrc a b c, .mma h fm d a b c, .aclr h n16 d, .acvt h fa d, .amovToVector h cnt d a c,
        .amovToTile h cnt d a c, .mpoly h fp d b, .miter h fi d a b, .mdrain h fd d a b c, .coefl h first n16 a],
      s.Stands g i →
        (x.flow.mask ≠ allLanes → trapsBefore s g i 0x03 0 0) ∧
        (x.flow.mask = allLanes → x.uniGuard h = .differ → trapsBefore s g i 0x04 1 0) ∧
        (x.flow.mask = allLanes → x.uniGuard h = .skip → exec i s = .next (s.retire g h.bnd .on)))

namespace Sys2Proof.Spec
open Sys2Proof.Machine

/-- A matrix by its elements. -/
abbrev Mat := Nat → Nat → Nat

/-- RoundOp of an element: once to the operand format under RNE (R176). -/
def roundedOp (f16 : Bool) (a : Mat) : Mat := fun i j => (roundF (opFmt f16) .rne false false (decodeF fp32 (a i j))).1

/-- Scale of an element: once under RNE in FP32 (R178). -/
def scaledBy (z : Nat) (a : Mat) : Mat := fun i j => (roundF fp32 .rne false false (mulV (decodeF fp32 z) (decodeF fp32 (a i j))).1).1

/-- Accumulate (R62): the product of two matrices of 16-bit operands of size `m`, in units of 8, from a start. -/
def timesFrom (f16 : Bool) (m : Nat) (start a b : Mat) : Mat := fun i j =>
  let val := fun (v : Nat) => decodeVal (.flt (opFmt f16)) (v % 65536)
  accumulate false 8 (List.replicate (m / 8) (127, 127)) ((List.range m).map (fun k => val (a i k)))
    ((List.range m).map (fun k => val (b k j))) (start i j)

/-- The matrix with `c` on its diagonal and +0 elsewhere. -/
def onDiagonal (c : Nat) : Mat := fun i j => if i = j then c else 0

/-- The rounds of `mpoly` (R176), one for each coefficient below the highest. -/
def polyRounds (f16 : Bool) (m : Nat) (xb : Mat) : List Nat → Mat → Mat
  | [], y => y
  | c :: t, y => polyRounds f16 m xb t (timesFrom f16 m (onDiagonal c) (roundedOp f16 y) xb)

/-- The residual of `miter`'s test (R179): from row to row, each difference rounded, each square added in one rounding. -/
def residualOf (m : Nat) (w : Mat) : Nat :=
  ((List.range m).flatMap (fun i => (List.range m).map (fun j => (i, j)))).foldl (fun r p =>
    let d := (roundF fp32 .rne false false
      (addV false (decodeF fp32 (w p.1 p.2)) (if p.1 = p.2 then .fin true 1 0 else .fin true 0 0)).1).1
    (roundF fp32 .rne false false (fmaV false (decodeF fp32 d) (decodeF fp32 d) (decodeF fp32 r)).1).1) 0

/-- A matrix of 16-bit elements stands in the window at `o`, row-major. -/
def inWindow (tm : Team) (o m : Nat) (a : Mat) : Prop := ∀ i < m, ∀ j < m, tm.winLoad (o + 2 * (m * i + j)) 2 = a i j

/-- The window is as it was outside `lo` to `hi`. -/
def windowKept (tm tm' : Team) (lo hi : Nat) : Prop := ∀ k, k < lo ∨ hi ≤ k → Tab.get 0 k tm'.window = Tab.get 0 k tm.window

/-- An element of the square range of size `m` at tile `d`. -/
def tileAt (tm : Team) (d m : Nat) : Mat := fun i j => (Tab.get 0 (tileKey d m i j) tm.tiles).toNat

/-- The square range at tile `d` holds a matrix. -/
def inTiles (tm : Team) (d m : Nat) (a : Mat) : Prop := ∀ i < m, ∀ j < m, Tab.get 0 (tileKey d m i j) tm.tiles = BitVec.ofNat 32 (a i j)

/-- The tiles are as they were outside the square ranges of size `m` at the tiles of `l`. -/
def tilesKept (tm tm' : Team) (m : Nat) (l : List Nat) : Prop :=
  ∀ k, (∀ d ∈ l, k < d * 4096 ∨ (d + m / 64 * (m / 64)) * 4096 ≤ k) → Tab.get 0 k tm'.tiles = Tab.get 0 k tm.tiles

/-- How often generator e mod 96 has stepped when element `e` of a block has (R182), with `blocks` blocks before it. -/
def genSteps (blocks e : Nat) : Nat := blocks * (if e % 96 < 64 then 43 else 42) + (e / 96 + 1)

/-- The scale of block `q` of row `i` (R55, R182). -/
def drainScale (d : DrainSide) (vals : Nat → Nat → Val) (i q : Nat) : Nat × FFlags :=
  blockScale (emaxOf d.side.fmt) ((List.range d.side.block).map (fun k => vals i (q * d.side.block + k)))

/-- The code of element (i, j) of a copy of `cols` columns (R182): with `before` blocks converted before the copy. -/
def drainElem (d : DrainSide) (sat : Bool) (gens : Tab (BitVec 32)) (before cols : Nat) (vals : Nat → Nat → Val) (i j : Nat) :
    Nat × FFlags :=
  let e := i % 64 * 64 + j % 64
  let gen := Nat.iterate srStep (genSteps (before + i / 64 * (cols / 64) + j / 64) e) (Tab.get 0 (e % 96) gens)
  let md : Mode := if d.rm = .sr then .sr gen.toNat else RMode.plain d.rm
  let sc := (drainScale d vals i (j / d.side.block)).1
  if d.scaled = false then convert d.side.fmt md sat false (vals i j)
  else if sc = 0xFF then (0, 0)
  else convert d.side.fmt md true false (match vals i j with | .fin neg k x => .fin neg k (x + 127 - sc) | v => v)

/-- The bytes that a copy writes for row `i` (R182), with their addresses: its scales, then its elements packed (R44). -/
def drainRow (d : DrainSide) (sat : Bool) (gens : Tab (BitVec 32)) (before cols : Nat) (vals : Nat → Nat → Val) (i : Nat) :
    List (Bool × Word × Byte) :=
  let w := d.side.width
  let blocks := cols / d.side.block
  let packed := ((List.range cols).map (fun j => (drainElem d sat gens before cols vals i j).1 * 2 ^ (w * j))).sum
  (if d.scaled then (List.range blocks).map (fun q =>
    (d.loc, d.base + BitVec.ofNat 64 (d.sco + i * blocks + q), BitVec.ofNat 8 (drainScale d vals i q).1)) else []) ++
  (List.range (cols * w / 8)).map (fun k => (d.loc, d.base + BitVec.ofNat 64 (i * d.str + k), BitVec.ofNat 8 (packed / 2 ^ (8 * k))))

/-- Whether a copy raises flag `k` (R182). -/
def drainRaises (d : DrainSide) (sat : Bool) (gens : Tab (BitVec 32)) (before rows cols : Nat) (vals : Nat → Nat → Val) (k : Nat) : Prop :=
  ∃ i < rows, ∃ j < cols, (drainElem d sat gens before cols vals i j).2.getLsbD k = true ∨
    (d.scaled = true ∧ (drainScale d vals i (j / d.side.block)).2.getLsbD k = true)

/-- The bytes of transfers with their addresses, and the places in the window that fetches fill. -/
def putBytes (l : List MxPiece) : List (Bool × Word × Byte) := l.flatMap (fun p => match p with
  | .put loc va data => data.zipIdx.map (fun e => (loc, va + BitVec.ofNat 64 e.2, e.1))
  | .fetch .. => [])
def fetchPlaces (l : List MxPiece) : List (Word × Nat) := l.flatMap (fun p => match p with
  | .fetch va off n => (List.range n).map (fun k => (va + BitVec.ofNat 64 k, off + k))
  | .put .. => [])

/-- A transfer that moves bytes of one line. -/
def oneLine : MxPiece → Prop
  | .put _ va data => data ≠ [] ∧ va.toNat % 128 + data.length ≤ 128
  | .fetch va _ n => 0 < n ∧ va.toNat % 128 + n ≤ 128

end Sys2Proof.Spec

/-- R160, R164 to R174, R176, R182: the word at the head of a team's queue executes when the matrix unit takes it: it clears, converts or
moves tile elements, copies from local memory to the window, multiplies into its tiles, evaluates its polynomial, or makes its next
transfer. A `wbload` from memory begins with the first of its lines; an `mdrain` reads its tiles, converts both its copies, with their
scales, their formats and the generators that stochastic rounding steps, and makes its first transfer. Done, a word leaves the queue
and adds its flags. -/
def Sys2Proof.Spec.MatrixWordsExecute : Prop :=
  ∀ (s : State) (core team : Nat) (e : MxEntry) (rest : List MxEntry),
    let tm := s.team team
    let ev : Instr := .matrixWordExecute core team
    let here := (Tab.find? team s.teams).isSome = true ∧ tm.core = core ∧ tm.mx = e :: rest ∧ tm.members ≠ [] ∧ tm.mxReady = true ∧
      s.mxNext core = some team ∧ s.freezeDue = false ∧ (∀ k ∈ rest, k.id ≠ e.id)
    let fresh := e.started = false ∧ e.todo = [] ∧ e.flags = 0
    let mine := s.owns (e.info team) = true
    let leaves := fun (t : State) (tm' : Team) (fl : FFlags) =>
      t.team team = { tm' with mx := rest } ∧ t.mem = s.mem ∧ (mine → (t.grp e.grp).fp.flags = (s.grp e.grp).fp.flags ||| fl)
    let elem := fun (m : Team) (k : Nat) => Tab.get 0 k m.tiles
    here →
      (∀ d n, fresh → e.op = .aclr d n → ∃ t tm', exec ev s = .next t ∧ leaves t tm' 0 ∧ { tm' with tiles := tm.tiles } = tm ∧
        ∀ k, elem tm' k = if d * 4096 ≤ k ∧ k < (d + n) * 4096 then 0 else elem tm k) ∧
      (∀ d n f16 rm sat srci, fresh → e.op = .acvt d n f16 rm sat srci →
        let conv := fun (k : Nat) => roundF (opFmt f16) (RMode.plain rm) sat false (tileVal srci (elem tm k).toNat)
        ∃ t tm' fl, exec ev s = .next t ∧ leaves t tm' fl ∧ { tm' with tiles := tm.tiles } = tm ∧
          (∀ k, elem tm' k = if d * 4096 ≤ k ∧ k < (d + n) * 4096 then BitVec.ofNat 32 (conv k).1 else elem tm k) ∧
          (∀ j < 5, fl.getLsbD j = true ↔ ∃ q < n * 4096, (conv (d * 4096 + q)).2.getLsbD j = true)) ∧
      (∀ src off n, fresh → e.op = .wbload true src off n → ∃ t tm', exec ev s = .next t ∧ leaves t tm' 0 ∧
        { tm' with window := tm.window } = tm ∧ ∀ k, Tab.get 0 k tm'.window =
          if off ≤ k ∧ k < off + n then Tab.get 0 (src.toNat + (k - off)) tm.loc else Tab.get 0 k tm.window) ∧
      (∀ m n clr d aT ao bT bo d0 d1, fresh → e.op = .mma (64 * (m + 1)) (64 * (n + 1)) clr d aT ao bT bo d0 d1 →
        let sa := sideA d0
        let sb := sideB d0
        let row := fun i => match aT with
          | some t => (tm.range t (64 * (m + 1)) (descK d0))[i]?.map (fun r => r.map (fun v => decodeVal sa.fmt (v % 65536)))
          | none => some (tm.rowA ao d0 i)
        let col := fun j => match bT with
          | some t => some ((tm.range t (descK d0) (64 * (n + 1))).map (fun r => decodeVal sb.fmt (r.getD j 0 % 65536)))
          | none => some (tm.columnB bo d0 d1 j)
        let int := sa.int && sb.int && !sa.scaled && !sb.scaled
        ∃ t tm', exec ev s = .next t ∧ leaves t tm' 0 ∧ { tm' with tiles := tm.tiles } = tm ∧
          (∀ i < 64 * (m + 1), ∀ j < 64 * (n + 1), ∀ ra cb, row i = some ra → col j = some cb →
            let k := tileKey d (64 * (n + 1)) i j
            elem tm' k = BitVec.ofNat 32 (accumulate int (unitLen sa sb) (tm.unitScales d0 d1 (unitLen sa sb) i j) ra cb
              (if clr then 0 else (elem tm k).toNat))) ∧
          (∀ k, (k < d * 4096 ∨ (d + (m + 1) * (n + 1)) * 4096 ≤ k) → elem tm' k = elem tm k)) ∧
      (∀ tile e0 regs tok, fresh → e.op = .toVec tile e0 regs tok → ∃ t, exec ev s = .next t ∧ t.team team = { tm with mx := rest } ∧
        t.mem = s.mem ∧ (mine → ∃ r, Tab.find? tok t.sys.results = some r ∧ r.grp = e.grp ∧ r.regs = regs ∧ r.flags = 0 ∧
          r.vals = regs.zipIdx.flatMap (fun q => (List.range 96).map (fun l =>
            let k := e0 + 96 * q.2 + l
            (q.1, l, if k < 4096 then (elem tm (tile * 4096 + k)).setWidth 64 else 0))))) ∧
      (∀ tile e0 n vals, fresh → e.op = .toTile tile e0 vals n → ∃ t tm', exec ev s = .next t ∧ leaves t tm' 0 ∧
        { tm' with tiles := tm.tiles } = tm ∧
        (∀ q v, (q, v) ∈ vals → (∀ w, (q, w) ∈ vals → w = v) → e0 + q < 4096 → elem tm' (tile * 4096 + e0 + q) = v) ∧
        (∀ k, (∀ q ∈ vals, e0 + q.1 < 4096 → k ≠ tile * 4096 + e0 + q.1) → elem tm' k = elem tm k)) ∧
      (∀ q d off deg f16 coef c low, fresh → e.op = .mpoly (64 * (q + 1)) d off deg f16 coef → (coef.map BitVec.toNat).reverse = c :: low →
        let m := 64 * (q + 1)
        let xb := roundedOp f16 (tileAt tm d m)
        let tm' := tm.mpoly m d off f16 coef
        ∃ t, exec ev s = .next t ∧ leaves t tm' 0 ∧ { tm' with tiles := tm.tiles, window := tm.window } = tm ∧
          inTiles tm' d m (polyRounds f16 m xb low (onDiagonal c)) ∧ tilesKept tm tm' m [d] ∧ inWindow tm' off m xb ∧
          (low ≠ [] → inWindow tm' (off + 2 * m * m) m (roundedOp f16 (polyRounds f16 m xb low.dropLast (onDiagonal c)))) ∧
          windowKept tm tm' off (off + (if low = [] then 2 else 4) * m * m)) ∧
      (∀ src off n b u, fresh → e.op = .wbload false src off n → 0 < n →
        let k := min n (128 - src.toNat % 128)
        s.agentRead (s.mxAgent team e) wbloadKind src k = (.done b, u) → b.length = k → u.team team = tm →
        (Tab.find? team u.teams).isSome = true → ∃ (t : State) (l : List MxPiece), exec ev s = .next t ∧ t.mem = u.mem ∧
          (∀ j, Tab.get 0 j (t.team team).window = if off ≤ j ∧ j < off + k then b.getD (j - off) 0 else Tab.get 0 j tm.window) ∧
          (t.team team).mx = (if l = [] then rest else { e with started := true, todo := l, redrive := false } :: rest) ∧
          (∀ p ∈ l, oneLine p) ∧
          fetchPlaces l = (List.range (n - k)).map (fun j => (src + BitVec.ofNat 64 (k + j), off + k + j))) ∧
      (∀ m0 n0 d loc tloc rm sat srci a b d0 d1, fresh →
        e.op = .mdrain (64 * (m0 + 1)) (64 * (n0 + 1)) d loc tloc rm sat srci a b d0 d1 →
        let m := 64 * (m0 + 1)
        let n := 64 * (n0 + 1)
        let main := drainMain loc rm a d0 d1
        let trans := drainTrans tloc (b.getD 0) d0 d1
        let val := fun i j => tileVal srci (elem tm (tileKey d n i j)).toNat
        let gens := s.mxGens team e
        let before := if main.rm = .sr then (m0 + 1) * (n0 + 1) else 0
        let begun := (s.mxPlan team e).2
        main.fmtOk = true → (b ≠ none → trans.fmtOk = true) →
        ∃ (p : MxPiece) (l : List MxPiece) (fl : FFlags),
          (∀ q ∈ p :: l, oneLine q) ∧
          putBytes (p :: l) = (List.range m).flatMap (drainRow main sat gens 0 n val) ++
            (if b = none then [] else (List.range n).flatMap (drainRow trans sat gens before m (fun i j => val j i))) ∧
          (∀ k < 5, fl.getLsbD k = true ↔ drainRaises main sat gens 0 m n val k ∨
            (b ≠ none ∧ drainRaises trans sat gens before n m (fun i j => val j i) k)) ∧
          let e' := { e with started := true, todo := l, flags := fl, redrive := false }
          (∀ va data, p = .put true va data → ∃ t, exec ev s = .next t ∧ t.mem = s.mem ∧
            { t.team team with loc := tm.loc, gens := tm.gens } = { tm with mx := e' :: rest } ∧
            (mine → ∀ k < 96, Tab.get 0 k (t.grp e.grp).fp.mgens = Nat.iterate srStep
              ((before + (if b ≠ none ∧ trans.rm = .sr then (m0 + 1) * (n0 + 1) else 0)) * (if k < 64 then 43 else 42)) (Tab.get 0 k gens)) ∧
            ∀ k, Tab.get 0 k (t.team team).loc =
              if va.toNat ≤ k ∧ k < va.toNat + data.length then data.getD (k - va.toNat) 0 else Tab.get 0 k tm.loc) ∧
          (∀ va data u, p = .put false va data → begun.agentWrite (s.mxAgent team e) mdrainKind va data = (.done [], u) →
            u.team team = begun.team team → (Tab.find? team u.teams).isSome = true →
            ∃ t, exec ev s = .next t ∧ t.mem = u.mem ∧ (t.team team).mx = e' :: rest ∧ (t.team team).tiles = tm.tiles)) ∧
      (∀ va data, e.started = true → e.todo = [.put true va data] → ∃ t tm', exec ev s = .next t ∧ leaves t tm' e.flags ∧
        { tm' with loc := tm.loc } = tm ∧ ∀ k, Tab.get 0 k tm'.loc =
          if va.toNat ≤ k ∧ k < va.toNat + data.length then data.getD (k - va.toNat) 0 else Tab.get 0 k tm.loc) ∧
      (∀ va off n b u, e.started = true → e.todo = [.fetch va off n] → s.agentRead (s.mxAgent team e) wbloadKind va n = (.done b, u) →
        u.team team = tm → (Tab.find? team u.teams).isSome = true → ∃ t, exec ev s = .next t ∧ t.mem = u.mem ∧ (t.team team).mx = rest ∧
          ∀ k, Tab.get 0 k (t.team team).window =
            if off ≤ k ∧ k < off + b.length then b.getD (k - off) 0 else Tab.get 0 k tm.window) ∧
      (∀ va data u, e.started = true → e.todo = [.put false va data] → s.agentWrite (s.mxAgent team e) mdrainKind va data = (.done [], u) →
        u.team team = tm → (Tab.find? team u.teams).isSome = true → ∃ t, exec ev s = .next t ∧ t.mem = u.mem ∧ (t.team team).mx = rest)

/-- R177 to R180: a phase of a `miter` does its part of the update, or its test ends the word: phase 0 forms X·Xᵀ in the workspace,
phase 1 tests it and forms the factor, phase 2 the new X, each with the rounded operands that it leaves in the scratch. At the boundary
behind it the word stops where a pre-emption of its context is under way, and MITER_STATE then says how far it has come, its STOP as it
was. -/
def Sys2Proof.Spec.MiterPhases : Prop :=
  ∀ (s : State) (core team : Nat) (stop : Bool) (e : MxEntry) (rest : List MxEntry) (m x w off : Nat) (ns5 f16 : Bool)
    (coef : List Lane32) (cap tol : Nat),
    let tm := s.team team
    let ev := fun (stop : Bool) => Instr.miterPhase core team stop
    let r := tm.miterPhase m x w off ns5 f16 coef cap tol e.run
    let mine := s.owns (e.info team) = true
    let word := fun (t : State) => (t.grp e.grp).fp.miterState
    let progress := fun (v : Word) (q : MiterRun) (code : BitVec 2) (active : Bool) =>
      v.extractLsb' 19 2 = code ∧ v.getLsbD 21 = q.rise ∧ v.getLsbD 18 = active ∧
        (active = true → v.extractLsb' 16 2 = BitVec.ofNat 2 q.phase) ∧ v.extractLsb' 0 16 = BitVec.ofNat 16 q.iter ∧
        (∀ l, q.lastr = some l → l < 4294967296 → v.extractLsb' 32 32 = BitVec.ofNat 32 l)
    (Tab.find? team s.teams).isSome = true → tm.core = core → tm.mx = e :: rest → (∀ k ∈ rest, k.id ≠ e.id) → tm.members ≠ [] →
      e.op = .miter m x w off ns5 f16 coef cap tol → e.started = true → tm.mxReady = true →
      (stop ≠ s.saving tm.ctx → exec (ev stop) s = .next (s.later (ev (!stop)))) ∧
      (stop = s.saving tm.ctx → s.mxNext core = some team → s.freezeDue = false →
        (∀ q, r.1 = .on q → ∃ t, exec (ev stop) s = .next t ∧ t.mem = s.mem ∧
          t.team team = { r.2 with mx := { e with run := q, stopped := stop } :: rest } ∧
          (mine → stop = false → (word t).getLsbD 18 = false) ∧
          (mine → stop = true → e.run.phase < 3 → q.phase < 3 → progress (word t) q ((word s).extractLsb' 19 2) true)) ∧
        (∀ q code reason, r.1 = .stop q code reason → ∃ t, exec (ev stop) s = .next t ∧ t.mem = s.mem ∧
          t.team team = { r.2 with mx := rest } ∧ (mine → progress (word t) q (BitVec.ofNat 2 code) false ∧
            (reason = 0 → (t.grp e.grp).pending = (s.grp e.grp).pending) ∧
            (reason ≠ 0 → (t.grp e.grp).pending = (s.grp e.grp).pending ++
              [{ cause := 0x20, pc := e.pc, addr := 0, info := BitVec.ofNat 64 reason, lanes := allLanes }])))) ∧
      (m = 64 ∨ m = 128 → x + m / 64 * (m / 64) ≤ w ∨ w + m / 64 * (m / 64) ≤ x →
        let q := e.run
        let xs := tileAt tm x m
        let ws := tileAt tm w m
        let c := fun k => (coef.getD k 0).toNat
        let rest := { r.2 with tiles := tm.tiles, window := tm.window } = tm
        (q.phase = 0 →
          let xb := roundedOp f16 xs
          r.1 = .on { q with phase := 1 } ∧ rest ∧ inTiles r.2 w m (timesFrom f16 m (fun _ _ => 0) xb (fun i j => xb j i)) ∧
          tilesKept tm r.2 m [w] ∧ inWindow r.2 off m xb ∧ windowKept tm r.2 off (off + 2 * m * m)) ∧
        (q.phase = 1 →
          let res := residualOf m ws
          let v := decodeF fp32 res
          let big := cmpV v (.fin false 1 20) = .gt
          let met := (decodeF fp32 tol).isNan = false ∧ cmpV v (decodeF fp32 tol) ≠ .gt
          let up := decide (0 < q.iter) && (match q.lastr with | some l => decide (cmpV v (decodeF fp32 l) = .gt) | none => false)
          (v.isNan = true → r = (.stop q 3 3, tm)) ∧
          (v.isNan = false → big → r = (.stop q 3 1, tm)) ∧
          (v.isNan = false → ¬ big → met → r = (.stop { q with lastr := some res } 1 0, tm)) ∧
          (v.isNan = false → ¬ big → ¬ met → up = true → q.rise = true →
            r = (.stop { q with lastr := some res, rise := true } 3 2, tm)) ∧
          (v.isNan = false → ¬ big → ¬ met → ¬ (up = true ∧ q.rise = true) → cap ≤ q.iter →
            r = (.stop { q with lastr := some res, rise := up } 2 0, tm)) ∧
          (v.isNan = false → ¬ big → ¬ met → ¬ (up = true ∧ q.rise = true) → q.iter < cap →
            r.1 = .on { q with phase := 2, lastr := some res, rise := up } ∧ rest ∧ tilesKept tm r.2 m [w] ∧
            (ns5 = false → inTiles r.2 w m (scaledBy (c 1) ws) ∧ windowKept tm r.2 0 0) ∧
            (ns5 = true →
              let tb := roundedOp f16 (scaledBy (c 2) ws)
              let ab := roundedOp f16 ws
              inTiles r.2 w m (timesFrom f16 m (scaledBy (c 1) ws) tb ab) ∧ inWindow r.2 (off + 4 * m * m) m tb ∧
              inWindow r.2 (off + 2 * m * m) m ab ∧ windowKept tm r.2 (off + 2 * m * m) (off + 6 * m * m)))) ∧
        (q.phase = 2 →
          let pb := roundedOp f16 ws
          let xb := roundedOp f16 xs
          let y := timesFrom f16 m (scaledBy (c 0) xs) pb xb
          r.1 = .on { q with phase := 0, iter := q.iter + 1 } ∧ rest ∧ inTiles r.2 w m y ∧ inTiles r.2 x m y ∧ tilesKept tm r.2 m [w, x] ∧
          inWindow r.2 (off + 2 * m * m) m pb ∧ inWindow r.2 off m xb ∧ windowKept tm r.2 off (off + 4 * m * m)))

/-- Matrix words execute at the head of the queue, a miter phase by phase, an mdrain and a wbload piece by piece: the parts above together. -/
def Obligations.MatrixExecution : Prop := Spec.MatrixWordsExecute ∧ Spec.MiterPhases

/-! ## Quire -/

/-- R310, R313, R325 to R329: `qbind` refuses a binding outside the store's limits and else writes it as a context's register, whose
old value returns at once where the context has no groups; `qstat` reads a binding with its partition and generation, or the
invocation; `qload` reads and checks an image, waiting for a page that is being moved, and stores it in the backing area, raises the
generation and suspends its group until every partition of the target is rewritten; a partition fill takes the image from the
backing area. That the partition is checked before the alignment, and that `qload` waits for the group's earlier accesses, are log entry
62. -/
def Obligations.QuireWords : Prop :=
  (∀ (h : Hdr) (k : Fin 16) (cx : Option (BitVec 6)) (d a b : Operand) (c : Option Operand) (s : State) (g : Nat),
    let x := s.grp g
    let i : Instr := .qbind h k cx d a
    let n := match cx with | some c => c.toNat | none => x.ctx
    let v := s.rd x a 0
    let valid := v.getLsbD 63 = true
    let len := (v.extractLsb' 8 8).toNat
    let bad1 := valid ∧ (len = 0 ∨ 128 < len)
    let bad2 := valid ∧ 256 < (v.extractLsb' 0 8).toNat + len
    let rw_ : Word := 0x80000001FF7FFFFF
    let own := Tab.get 0 k.val (s.ctxRegs x.core x.ctx).qbind
    let q := x.q
    (s.Stands g i → x.uniGuard h = .run → s.hasGrp g = true →
      (s.mayName x.ctx n = false → trapsBefore s g i 0x11 10 0) ∧
      (s.mayName x.ctx n = true → bad1 → trapsBefore s g i 0x31 1 0) ∧
      (s.mayName x.ctx n = true → ¬ bad1 → bad2 → trapsBefore s g i 0x31 2 0) ∧
      (s.mayName x.ctx n = true → ¬ bad1 → ¬ bad2 → ∃ t : State, exec i s = .next (t.retire g h.bnd .on) ∧ t.mem = s.mem ∧
        Tab.get 0 k.val (t.ctx n).regs.qbind = (Tab.get 0 k.val (s.ctx n).regs.qbind &&& ~~~rw_) ||| (v &&& rw_) ∧
        (∀ r, regOf d = some r → r < 192 → (t.grp g).isFull r = false) ∧
        (s.coresOf n ≠ [] → t.pending = s.pending ++ (s.coresOf n).map (fun m => .contextCsrPropagated s.nextId m)) ∧
        (s.coresOf n = [] → ∀ r, regOf d = some r → ∃ tok q, Tab.find? tok t.sys.results = some q ∧ q.grp = g ∧ q.regs = [r] ∧
          q.vals = [(r, 0, Tab.get 0 k.val (s.ctx n).regs.qbind)] ∧ t.pending = s.pending ++ [.resultWriteback tok]))) ∧
    (s.Stands g (.qstatBind h k d) → x.uniGuard h = .run → ∃ y,
      Wrote x y d [0] (fun _ => own ||| (if (s.partOf x.core x.ctx).isSome then 0x4000000000000000 else 0) |||
        ((s.reg (0x10000050028 + 0x80 * x.ctx)).setWidth 16).setWidth 64 <<< 40) ∧
      exec (.qstatBind h k d) s = .next ((s.setGrp g y).retire g h.bnd .on)) ∧
    (s.Stands g (.qstatState h d) → x.uniGuard h = .run → ∃ y v, Wrote x y d [0] (fun _ => v) ∧
      exec (.qstatState h d) s = .next ((s.setGrp g y).retire g h.bnd .on) ∧
      (q.base < 256 → q.opx < 16 → q.count < 1024 → q.blen < 256 →
        v.extractLsb' 0 8 = BitVec.ofNat 8 q.base ∧ v.extractLsb' 8 7 = BitVec.ofNat 7 q.upc ∧ v.getLsbD 15 = q.active ∧
        v.extractLsb' 16 4 = BitVec.ofNat 4 q.opx ∧ v.extractLsb' 20 10 = BitVec.ofNat 10 q.count ∧ v.getLsbD 30 = q.susp ∧
        v.extractLsb' 32 8 = q.mask ∧ v.extractLsb' 40 8 = BitVec.ofNat 8 q.blen ∧ v.extractLsb' 48 16 = q.gen)) ∧
    (let i : Instr := .qload h a b c
     let va := s.rd x a 0
     let off := (s.rd x b 0).toNat
     let n := match c with | some c => (s.rd x c 0).toNat | none => x.ctx
     let may := n ≤ 63 ∧ s.mayName x.ctx n = true
     let waits := s.lsWaits g x = true ∨ s.lsDone g x.team x.mem.seq .die true = false
     let ag : Agent := { info := localInfo s g x true x.flow.mask 0 16 false .zero, core := x.core, slot := x.slot, ctx := x.ctx,
                         sup := x.sup }
     s.Stands g i → x.uniGuard h = .run → s.hasGrp g = true →
      (¬ may → trapsBefore s g i 0x11 10 0) ∧ (may → va.toNat % 16 ≠ 0 → trapsBefore s g i 0x15 1 va) ∧
      (may → va.toNat % 16 = 0 → waits → exec i s = .next (s.retire g h.bnd .wait)) ∧
      (may → va.toNat % 16 = 0 → ¬ waits →
        (∀ r m addr u, s.readImage ag va off = (.error (some (r, m, addr)), u) →
          exec i s = .next ((u.migLeave ag.ticket).trapNow g 0x31 (BitVec.ofNat 64 (r + 16 * m)) addr)) ∧
        (∀ u, s.readImage ag va off = (.error none, u) → exec i s = .next (u.retire g h.bnd .wait)) ∧
        (∀ ops w, s.readImage ag va off = (.ok ops, w) → w.hasGrp g = true →
          let u := w.migLeave ag.ticket
          let pa := u.forwardPa (u.qback n + 16 * off)
          (u.permitted 4 x.ctx 0 .write pa (16 * ops.length) none = false → exec i s = .next (u.trapNow g 0x11 5 0)) ∧
          (u.permitted 4 x.ctx 0 .write pa (16 * ops.length) none = true → ∃ t : State, exec i s = .next (t.retire g h.bnd .run) ∧
            (∀ j, t.byte j = if pa ≤ j ∧ j < pa + 16 * ops.length
              then BitVec.ofNat 8 ((ops.getD ((j - pa) / 16) 0).toNat / 2 ^ (8 * ((j - pa) % 16))) else u.byte j) ∧
            (t.qgen n = u.qgen n + 1) ∧
            t.grp g = { u.grp g with sched := { (u.grp g).sched with susp := .qload (u.partCores n) n x.flow.pc } })))) ∧
    (∀ i ∈ [i, Instr.qstatBind h k d, .qstatState h d, .qload h a b c], s.Stands g i → x.uniGuard h = .skip →
      exec i s = .next (s.retire g h.bnd .on))) ∧
  (∀ (s : State) (g n : Nat) (left : List Nat) (pc : PC),
    let x := s.grp g
    s.hasGrp g = true → x.sched.susp = .qload left n pc →
      ((∀ core ∈ left, s.quireRuns core n = false) → ∃ t, exec (.qloadComplete g) s = .next t ∧ t.mem = s.mem ∧
        t.grp g = { x with sched := { x.sched with susp := .none, since := s.tick } } ∧
        ∀ core ∈ left, ∀ p, s.partOf core n = some p → (t.part core p).ctx = some n ∧ (t.part core p).ops = s.backing n) ∧
      (∀ core ∈ left, s.quireRuns core n = true → ∃ t rest, exec (.qloadComplete g) s = .next t ∧ core ∈ rest ∧ t.mem = s.mem ∧
        t.grp g = { x with sched := { x.sched with susp := .qload rest n pc } } ∧ t.part core = s.part core)) ∧
  (∀ (s : State) (core part cx : Nat),
    core < 832 → part < 4 → cx < 64 → s.partOf core cx = none → (s.part core part).ctx = none →
      ∃ t, exec (.quirePartitionFill core part cx) s = .next t ∧ t.groups = s.groups ∧ t.mem = s.mem ∧
        (t.part core part).ctx = some cx ∧
        ∀ k < 256, Tab.get 0 k (t.part core part).ops = BitVec.ofNat 128 (s.load (s.forwardPa (s.qback cx + 16 * k)) 16))

namespace Sys2Proof.Spec
open Sys2Proof.Machine

/-- The source that the immediate of a micro-operation replaces (R318): 1 to 3 for S1 to S3, 0 for none. -/
def microImm (op : Nat) : Nat :=
  if op = 2 ∨ op = 3 then 1 else if 4 ≤ op ∧ op ≤ 0x12 then 2 else if 0x15 ≤ op ∧ op ≤ 0x17 then 3 else 0

/-- Source 1, 2 or 3 of a micro-operation in a lane (R317): 32 bits of it where it works on vectors. -/
def microSrc (u : UOp) (q : QState) (k l : Nat) : Word :=
  let v := if u.i = true ∧ microImm u.op = k then u.imm else q.sel (match k with | 1 => u.s1 | 2 => u.s2 | _ => u.s3) l
  if u.vec then (v.setWidth 32).setWidth 64 else v

/-- The value and the flags of a micro-operation that computes (R318), at 32 bits or at 64, under FP_CTL of its group. -/
def microValue (x : Machine.Group) (op mod : Nat) (vec : Bool) (a b c : Word) : Word × FFlags :=
  let w := if vec then 32 else 64
  let u : ITy := if vec then .u32 else .u64
  let n : ITy := if vec then .s32 else .s64
  let low := fun (v : Word) => v.toNat % 2 ^ 32
  let rd := fun (v : Word) => readF fp32 x.fp.daz (low v)
  let fin := fun (e : Val × FFlags) =>
    let r := roundF fp32 (x.mode .dyn) false x.fp.ftz e.1
    ((BitVec.ofNat 64 r.1 : Word), r.2 ||| e.2)
  let down := decide (x.mode .dyn = .rdn)
  let special := fun (k : SFn) =>
    let p := if x.fp.daz && isSubnormal fp32 (low a) then low a / 2 ^ 31 * 2 ^ 31 else low a
    let r := specialF k false x.fp.ftz p (rd a)
    ((BitVec.ofNat 64 r.1 : Word), r.2)
  let pick := fun (e : Int) => (u.cut (BitVec.ofInt 64 e), (0 : FFlags))
  match op with
  | 0x03 => (a, 0)
  | 0x04 => (u.cut (a + b), 0)
  | 0x05 => (u.cut (a - b), 0)
  | 0x06 => (a &&& b, 0)
  | 0x07 => (a ||| b, 0)
  | 0x08 => (a ^^^ b, 0)
  | 0x09 => (shiftLeft u false a b.toNat, 0)
  | 0x0A => (shiftRight u false a b.toNat, 0)
  | 0x0B => (shiftArith u false a b.toNat, 0)
  | 0x0C => match mod % 4 with
    | 0 => pick (min (n.val a) (n.val b))
    | 1 => pick (max (n.val a) (n.val b))
    | 2 => pick (min (u.val a) (u.val b))
    | _ => pick (max (u.val a) (u.val b))
  | 0x0D => (if c ≠ 0 then a else b, 0)
  | 0x0E =>
    let cc : Cond := (Cond.all[mod % 8]?).getD .eq
    if mod < 8 then (if icmpHolds cc (!vec) a b then 1 else 0, 0)
    else let r := fcmpHolds cc (rd a) (rd b); (if r.1 then 1 else 0, r.2)
  | 0x0F => fin (addV down (rd a) (rd b))
  | 0x10 => fin (mulV (rd a) (rd b))
  | 0x11 => fin (fmaV down (rd a) (rd b) (rd c))
  | 0x12 => let r := minMaxF (decide (mod % 2 = 1)) fp32 x.fp.daz (low a) (low b); (BitVec.ofNat 64 r.1, r.2)
  | 0x13 => special .rcp
  | 0x14 => special .exp2
  | 0x15 => ((permByte a b c 3 ++ permByte a b c 2 ++ permByte a b c 1 ++ permByte a b c 0 : BitVec 32).setWidth 64, 0)
  | 0x16 =>
    let p := fieldAt w c
    let f := (u.cut a).toNat / 2 ^ p.1 % 2 ^ p.2
    (u.cut (BitVec.ofInt 64 (if mod % 2 = 1 ∧ 0 < p.2 ∧ 2 ^ (p.2 - 1) ≤ f then (f : Int) - 2 ^ p.2 else f)), 0)
  | _ => let p := fieldAt w c; (u.cut (withField a p.1 p.2 b), 0)

/-- The group of an invocation after a micro-operation that leaves `z` and goes on at `n` (R315); it stops there for a save that waits
(R325). -/
def microNext (s t : State) (g : Nat) (z : Machine.Group) (n : Nat) : Prop :=
  let y := { z with q := { z.q with upc := n, count := (s.grp g).q.count + 1 } }
  t.grp g = if s.savesGroup (s.grp g) then
    { y with q := { y.q with running := false, word := none, touched := [] }, port := none, sched := { y.sched with paused := true } } else y

/-- `z` is the group `x` with `f` in destination selector `n` of its invocation, in the lanes `on` (R317): in those of a vector, the other
lanes unchanged, or as the one value of a uniform; `zero` discards it. Flags may have been added. -/
def microWrites (x z : Machine.Group) (n : Nat) (on : List Nat) (f : Nat → Word) : Prop :=
  { z with fp := x.fp, q := x.q } = x ∧ { z.q with qt := x.q.qt, qq := x.q.qq } = x.q ∧ { z.fp with flags := x.fp.flags } = x.fp ∧
    ∀ k l, k < 14 → z.q.sel k l =
      if k = n ∧ k < 8 ∧ l ∈ on then ((f l).setWidth 32).setWidth 64
      else if k = n ∧ 8 ≤ k ∧ k < 12 then f (on.headD 0) else x.q.sel k l

end Sys2Proof.Spec

/-- R314 to R320: a bound word whose operands its binding admits waits for a partition of its context, and then begins its invocation with
its binding and its executing lanes. Each step executes the micro-operation at UPC, if the binding's mask allows it: one that computes
writes its destination and adds its flags, `rdop` reads an operand of the word as it stands, `wrd` sets the latch, `bcnd` and `loop`
choose the next one, a local load or store reaches a share, a global one memory (stated for one access); behind it the invocation goes
on, or stops for a save that waits. `end` writes the latched value and completes the word. An invocation that passes its last
micro-operation, that has executed 512, or that lacks a resource traps. -/
def Obligations.BoundWords : Prop :=
  ∀ (h : Hdr) (k : Fin 16) (d a b c : Operand) (fn : BitVec 14) (s : State) (g : Nat),
    let x := s.grp g
    let i : Instr := .boundOpcode h k d a b c fn
    let w : BoundWord := { d := d, a := a, b := b, c := c, fn := fn }
    let v := Tab.get 0 k.val (s.ctxRegs x.core x.ctx).qbind
    let e := x.execMask h
    let q := x.q
    (s.Stands g i → s.hasGrp g = true → q.running = false → q.active = false → w.check h v x.vregs = none →
      x.policyOf false (w.srcs h v) = .ok →
      (e = 0 → exec i s = .next (s.retire g h.bnd .on)) ∧
      (e ≠ 0 → s.partOf x.core x.ctx = none → ∃ t : State, exec i s = .next (t.retire g h.bnd .wait) ∧ t.groups = s.groups ∧
        t.mem = s.mem) ∧
      (∀ p, e ≠ 0 → s.partOf x.core x.ctx = some p → ∃ (t : State) (r : QState), exec i s = .next (t.retire g h.bnd .wait) ∧
        t.mem = s.mem ∧ t.grp g = { x with q := r } ∧ r.running = true ∧ r.active = true ∧ r.word = some i ∧ r.lanes = e ∧
        r.upc = 0 ∧ r.count = 0 ∧ r.opx = k.val ∧ r.base = (v.extractLsb' 0 8).toNat ∧ r.blen = (v.extractLsb' 8 8).toNat ∧
        r.mask = v.extractLsb' 16 8 ∧ r.bind = v ∧ r.addr = x.flow.pc ∧ r.gen = s.qgen x.ctx ∧ r.latch = none ∧ (∀ n l, r.sel n l =
          if n = 13 then BitVec.ofNat 64 l else 0))) ∧
    (s.issuer = some g → s.hasGrp g = true → q.running = true →
      (q.blen ≤ q.upc → s.savesGroup x = false → ∃ t : State, exec i s = .next t ∧ t = s.quireTrap g 0x33 6 0 0 q.lanes 0) ∧
      (q.upc < q.blen → q.count = 512 → s.savesGroup x = false →
        exec i s = .next ((s.setGrp g { x with q := { q with active := false } }).quireTrap g 0x32 1 0 0 q.lanes 0)) ∧
      (∀ p, q.upc < q.blen → q.count ≠ 512 → s.partOf x.core x.ctx = some p →
        let u : UOp := Tab.get 0 (q.base + q.upc) (s.part x.core p).ops
        (u.op = 0 → s.savesGroup x = false → ∃ (t : State) (z : Machine.Group), exec i s = .next (t.retire g h.bnd .on) ∧ t.mem = s.mem ∧
          t.grp g = { z with q := { q with count := q.count + 1, active := false, running := false, word := none, touched := [] } } ∧
          (q.latch = none → z = x) ∧
          (∀ vec vals, q.latch = some (vec, vals) →
            Wrote x z d (lanesOf q.lanes) (fun l => Tab.get 0 (if vec then l else 0) vals))) ∧
        (∀ n, u.needs = some n → q.mask.getLsbD n = false → s.savesGroup x = false →
          exec i s = .next (s.quireTrap g 0x33 2 0 0 q.lanes 0)) ∧
        let may := ∀ n, u.needs = some n → q.mask.getLsbD n = true
        let on := if u.vec then lanesOf q.lanes else (lanesOf q.lanes).take 1
        let next := q.upc + 1
        let lane := fun (o : Operand) => match o with | .v _ | .p _ => true | .spec m => decide (m = .lane ∨ m = .beat) | _ => false
        let read := fun (val : Nat → Word) => ∃ (t : State) (z : Machine.Group), exec i s = .next t ∧ t.mem = s.mem ∧ microNext s t g z next ∧
          microWrites x z u.d on val ∧ z.fp = x.fp
        let addr := fun (l : Nat) => q.sel u.s1 l + ((u.imm).setWidth 32).signExtend 64
        let n := uSize u.mod
        let jump := fun (z : Machine.Group) (k : Nat) => ∃ t : State, exec i s = .next t ∧ t.mem = s.mem ∧ microNext s t g z k
        (may → 3 ≤ u.op → u.op ≤ 0x17 → on ≠ [] →
          let val := fun (l : Nat) => microValue x u.op u.mod u.vec (microSrc u q 1 l) (microSrc u q 2 l) (microSrc u q 3 l)
          ∃ (t : State) (z : Machine.Group), exec i s = .next t ∧ t.mem = s.mem ∧ microNext s t g z next ∧
            microWrites x z u.d on (fun l => (val l).1) ∧
            ∀ k, z.fp.flags.getLsbD k = (x.fp.flags.getLsbD k || on.any (fun l => (val l).2.getLsbD k))) ∧
        (u.op = 1 → on ≠ [] →
          (u.mod = 4 → read (fun _ => fn.setWidth 64)) ∧
          (∀ o, [d, a, b, c][u.mod]? = some o →
            (lane o = true → 8 ≤ u.d → u.d ≤ 0x0C → s.savesGroup x = false → exec i s = .next (s.quireTrap g 0x33 5 0 0 q.lanes 0)) ∧
            (lane o = false ∨ u.d < 8 ∨ 0x0C < u.d → read (fun l => s.rd x o l)))) ∧
        (u.op = 2 → ∃ vals : Tab Word, jump { x with q := { q with latch := some (u.vec, vals) } } next ∧
          (u.vec = true → ∀ l ∈ lanesOf q.lanes, Tab.get 0 l vals = microSrc u q 1 l) ∧
          (u.vec = false → Tab.get 0 0 vals = microSrc u q 1 0)) ∧
        (u.op = 0x1A →
          let holds := match u.mod % 4 with
            | 0 => q.sel u.s1 0 ≠ 0
            | 1 => q.sel u.s1 0 = 0
            | 2 => ∃ l ∈ lanesOf q.lanes, q.sel u.s1 l ≠ 0
            | _ => ∀ l ∈ lanesOf q.lanes, q.sel u.s1 l ≠ 0
          (holds → jump x u.tgt) ∧ (¬ holds → jump x next)) ∧
        (u.op = 0x1B → u.mod % 2 = 1 → u.i = true ∨ qVec u.s1 = false → jump { x with q := { q with
          lc := BitVec.ofNat 64 (min (if u.i then (u.imm.extractLsb' 0 16).toNat else (q.sel u.s1 0).toNat) 512) } } next) ∧
        (u.op = 0x1B → u.mod % 2 = 0 →
          (q.lc.toNat ≤ 1 → jump { x with q := { q with lc := 0 } } next) ∧
          (1 < q.lc.toNat → jump { x with q := { q with lc := q.lc - 1 } } u.tgt)) ∧
        (∀ key, may → uGlb u.mod = false → s.lsWaits g x = false → (s.team x.team).rrMode = 0 → on ≠ [] →
          (Tab.find? key s.teams).isSome = true →
          (if uRem u.mod then ((s.cluster (s.team x.team).cluster).teams)[(u.imm.extractLsb' 60 4).toNat]? = some key else key = x.team) →
          (∀ l ∈ on, (addr l).toNat % n = 0 ∧ (addr l).toNat + n ≤ ((s.team key).localSize + 4095) / 4096 * 4096) →
          (u.op = 0x18 → read (fun l => extendLoad n (uSigned u.mod) (BitVec.ofNat 128 ((s.team key).locLoad (addr l).toNat n)))) ∧
          (u.op = 0x19 →
            let covers := fun (l k : Nat) => (addr l).toNat ≤ k ∧ k < (addr l).toNat + n
            ∃ t : State, exec i s = .next t ∧ t.mem = s.mem ∧ microNext s t g x next ∧ (∀ k, k ≠ key → t.team k = s.team k) ∧
              ∀ k, (∀ l ∈ on, covers l k → (∀ m ∈ on, l < m → ¬ covers m k) → Tab.get 0 k (t.team key).loc =
                  BitVec.ofNat 8 ((q.sel u.s2 l).toNat / 2 ^ (8 * (k - (addr l).toNat)))) ∧
                ((∀ l ∈ on, ¬ covers l k) → Tab.get 0 k (t.team key).loc = Tab.get 0 k (s.team key).loc))) ∧
        (∀ (acc : PAcc) (leaf : Word) (v : State) (home off : Nat), may → uGlb u.mod = true → u.op = 0x18 ∨ u.op = 0x19 →
          s.lsWaits g x = false → (s.team x.team).rrMode = 0 →
          s.sortLanes x u.spec (u.accs q) = ({ send := [(acc, leaf)], park := [], faults := [], fails := [] }, v) →
          u.accs q = [acc.acc] → v.groups = s.groups →
          v.sys.reqs = [] → v.repl.strongs = [] → v.sys.migs = [] → pteKind leaf ≠ 3 → pteTrk leaf = false →
          placeOf v.tagging acc.pa = .hbm home off → v.permitted 0 x.ctx 0 acc.acc.op.opClass acc.pa acc.acc.size none = true →
          v.tagsFit leaf acc.acc.va acc.pa acc.acc.size = true → Tab.get false (lineKey acc.pa home) v.sys.poison = false →
          v.l1Serves x g u.spec leaf acc = none → v.counterKept (g, x.team) acc.pa = none →
          (∀ k va m, v.watchMatch x.ctx k va m = none) →
          (u.op = 0x18 → ∃ (t : State) (z : Machine.Group), exec i s = .next t ∧ t.mem = v.mem ∧ microNext s t g z next ∧ z.fp = x.fp ∧
            microWrites x z u.d on (fun _ => extendLoad n (uSigned u.mod) (BitVec.ofNat 128 (v.load acc.pa acc.acc.size)))) ∧
          (u.op = 0x19 → ∃ t : State, exec i s = .next t ∧ microNext s t g x next ∧ ∀ k, t.byte k =
            if acc.pa ≤ k ∧ k < acc.pa + acc.acc.size then BitVec.ofNat 8 (acc.acc.data.toNat / 2 ^ (8 * (k - acc.pa))) else v.byte k))))

/-! ## Launches, placement, completion -/

namespace Sys2Proof.Spec
open Sys2Proof.Machine

/-- A group of a grid as it starts (R22, R91, R222): every lane active at the record's entry, in no region, in its place `idx` of
the team's groups, its registers zero and full but for its coordinates and parameter. -/
def startsAs (s : State) (k : Grid) (lin idx slot : Nat) (y : Machine.Group) : Prop :=
  let r := k.record
  y.idx = idx ∧ y.slot = slot ∧ y.vregs = r.vregs ∧ y.flow.pc = r.entry.extractLsb' 3 54 ∧ y.flow.run = 0 ∧
    y.flow.mask = allLanes ∧ y.flow.stack = [] ∧ y.flow.region = none ∧ y.flow.exited = 0 ∧ y.flow.deferred = 0 ∧
    y.port = none ∧ y.pending = [] ∧ y.defs = [] ∧ y.trap.active = false ∧ y.sup = s.ctxSup y.ctx ∧ y.sched.halted = false ∧
    y.sched.since = s.tick ∧ y.mem.privBase = r.pbase + BitVec.ofNat 64 (lin * r.groups + idx) * r.pstride ∧
    (∀ n, 4 ≤ n → n < 61 → y.sreg n = 0) ∧ (∀ n l, y.vreg n l = 0) ∧ (∀ n < 7, y.preg n = 0) ∧ (∀ k < 192, y.isFull k = true) ∧
    (k.children = [] → y.sreg 0 = BitVec.ofNat 64 (lin % r.x) ∧ y.sreg 1 = BitVec.ofNat 64 (lin / r.x % r.y) ∧
      y.sreg 2 = BitVec.ofNat 64 (lin / (r.x * r.y)) ∧ y.sreg 3 = r.param)

end Sys2Proof.Spec

/-- R19 to R22, R332 to R341: `launch` and `launch.agg` hand their record's address to the hub, or trap where it is not aligned to
128; the hub places the next cluster of the head launch that is due: each core takes a team with its groups as they start; a grid
whose teams have ended and whose accesses are performed counts in DONE once its completion is made, by a peer answered or lost; a
bucket closes at 4,096 ticks; a write of a queue's configuration is taken whole, or refused whole with ERR. -/
def Obligations.Launches : Prop :=
  (∀ (h : Hdr) (d a b : Operand) (s : State) (g : Nat),
    let x := s.grp g
    let va := s.rd x a 0
    let does := fun (i : Instr) (agg : Option Word) =>
      s.Stands g i → s.hasGrp g = true →
        (x.uniGuard h = .skip → exec i s = .next (s.retire g h.bnd .on)) ∧
        (x.uniGuard h = .run → va.toNat % 128 ≠ 0 → trapsBefore s g i 0x15 1 va) ∧
        (x.uniGuard h = .run → va.toNat % 128 = 0 → s.lsWaits g x = true → exec i s = .next (s.retire g h.bnd .wait)) ∧
        (x.uniGuard h = .run → va.toNat % 128 = 0 → s.lsWaits g x = false → ∃ (t : State) (r : LaunchReq),
          exec i s = .next (t.retire g h.bnd .on) ∧ t.mem = s.mem ∧ t.hub.launches = s.hub.launches ++ [r] ∧
          r.core = x.core ∧ r.slot = x.slot ∧ r.ctx = x.ctx ∧ r.sup = x.sup ∧ r.addr = va ∧ r.agg = agg ∧ r.parked = none ∧
          r.info.grp = g ∧ r.info.dst = d ∧ r.info.ord = .rel ∧ r.info.scope = .system ∧ (t.grp g).flow = x.flow ∧
          (t.grp g).mem = { x.mem with seq := x.mem.seq + 1 } ∧
          (∀ k < 192, (t.grp g).isFull k = (x.isFull k && decide (regOf d ≠ some k))) ∧ ∀ k, k ≠ g → t.grp k = s.grp k)
    does (.launch h d a) none ∧ does (.launchAgg h d a b) (some (s.rd x b 0))) ∧
  (∀ (s : State) (q : Nat) (cores : List Nat) (k : Grid),
    let n := min cores.length (k.total - k.teams.length)
    s.headGrid q = some k → s.serveQueue = some q → cores ∈ s.headPlaces q → cores.Nodup →
      (∀ c ∈ cores, k.record.groups ≤ (s.freeSlots c).length) →
      ∃ (t : State) (k' : Grid), exec (.launchPlacement q cores) s = .next t ∧ t.mem = s.mem ∧ k' ∈ t.hub.grids ∧ k'.id = k.id ∧
        k'.teams.length = k.teams.length + n ∧ k'.teams.take k.teams.length = k.teams ∧
        ∀ i < n, ∀ c, cores[i]? = some c → ∃ (key : Nat) (tm : Team),
          k'.teams[k.teams.length + i]? = some key ∧ Tab.find? key t.teams = some tm ∧ tm.core = c ∧ tm.grid = k.id ∧
          tm.linear = k.teams.length + i ∧ tm.ctx = s.headCtx q k ∧ tm.loc = [] ∧ tm.tiles = [] ∧
          tm.members = ((s.freeSlots c).take k.record.groups).map (groupKey c) ∧
          ∀ j slot, j < k.record.groups → (s.freeSlots c)[j]? = some slot →
            (t.grp (groupKey c slot)).team = key ∧ (t.grp (groupKey c slot)).core = c ∧
            (t.grp (groupKey c slot)).ctx = s.headCtx q k ∧
            startsAs s k (k.teams.length + i) j slot (t.grp (groupKey c slot))) ∧
  (∀ (s u : State) (k : Grid) (w : HubWrite),
    let e : Instr := .gridComplete k.id
    let ended := ∀ t ∈ k.teams, t ∈ k.ended
    s.hub.grids.find? (fun j => decide (j.id = k.id)) = some k → k.children = [] →
      k.teams.length ≤ k.record.x * k.record.y * k.record.z →
      (k.teams.length < k.record.x * k.record.y * k.record.z ∨ ¬ ended → exec e s = .next s) ∧
      (k.record.x * k.record.y * k.record.z = k.teams.length → ended →
        (s.teamsQuiet k.teams = false → exec e s = .next (s.later e)) ∧
        (s.teamsQuiet k.teams = true → s.completionWrite k = (.wait, u) → exec e s = .next (u.later e)) ∧
        (∀ tok, s.teamsQuiet k.teams = true → s.completionWrite k = (.sent tok, u) → ∃ t, exec e s = .next t ∧
          { k with peer := some tok } ∈ t.hub.grids ∧ t.groups = u.groups ∧ t.mem = u.mem) ∧
        (s.teamsQuiet k.teams = true → s.completionWrite k = (w, u) → w ≠ .wait → (∀ tok, w ≠ .sent tok) → ∃ t, exec e s = .next t ∧
          (∀ j ∈ t.hub.grids, j.id ≠ k.id) ∧ (t.queue k.record.queue).done = (u.queue k.record.queue).done + 1 ∧
          (k.mode = 0 → t.groups = u.groups ∧ (w = .done → t.mem = u.mem))))) ∧
  (∀ (q key : Nat) (s : State),
    ∃ t, exec (.bucketCloseTimeout q key) s = .next t ∧ t.mem = s.mem ∧ t.groups = s.groups ∧
      ∀ b ∈ t.hub.buckets, b.queue = q → b.key.toNat = key → b.opened + 4096 ≤ s.tick.toNat → b.closed = true) ∧
  (∀ (q : Nat) (fab : Option Nat) (val : Word) (s : State),
    let o := 0x10000 + 64 * q + (match fab with | none => 0 | some k => 8 + 8 * (k % 2))
    let rw : Word := match fab with | none => 0xFF1FFF | some _ => 0xFFFFFFFFFFFFFFFF
    let new := (s.reg (0x10000000000 + o) &&& ~~~rw) ||| (val &&& rw)
    let after := s.setReg (0x10000000000 + o) new
    q < 128 →
      (after.resvOk = true → exec (.qcfgWrite q fab val) s = .next after) ∧
      (after.resvOk = false → exec (.qcfgWrite q fab val) s = .next (s.setReg (0x10000010018 + 64 * q) 0x80)))

/-! ## The events of replication -/

namespace Sys2Proof.Spec
open Sys2Proof.Machine

/-- Whether the word at offset `off` of the replicated region takes a word of packet `p` on die `d` (R285): it has no unsettled last
writer, or one that is the sender, that the sender had applied, or of a lower rank. -/
def takesWord (s : State) (d : Nat) (p : Packet) (off : Nat) : Prop :=
  match s.lastWriter d (off / 4) with
  | none => True
  | some (rank, count) => rank = p.src ∨ count ≤ Tab.get 0 rank p.vec ∨ rank < p.src

/-- The words of a packet by their place in its line (R284): the marked ones in ascending order. -/
def payload (p : Packet) (i : Nat) : Option (BitVec 32) :=
  (((List.range 32).filter (fun i => p.wmask.getLsbD i)).zip p.words).lookup i

/-- Memory after die `d` has taken a packet's payload (R285): the words it takes hold the packet's, every other byte stands. -/
def tookPayload (s t : State) (d : Nat) (p : Packet) : Prop :=
  ∀ pa, let k := pa - (s.repBase d + p.line)
    (∀ v, s.repBase d + p.line ≤ pa → payload p (k / 4) = some v → takesWord s d p (p.line + k) →
      t.byte pa = (v >>> (8 * (k % 4))).setWidth 8) ∧
    (pa < s.repBase d + p.line ∨ payload p (k / 4) = none ∨ ¬ takesWord s d p (p.line + k) → t.byte pa = s.byte pa)

/-- Applicable (R285): the next update of its sender, and everything that the sender had applied is applied here. -/
def nextHere (s : State) (d : Nat) (p : Packet) : Prop :=
  Tab.get 0 p.src p.vec = Tab.get 0 p.src (s.rep d).av + 1 ∧
    ∀ k < 8, k ≠ p.src → Tab.get 0 k p.vec ≤ Tab.get 0 k (s.rep d).av

/-- The first packet on the link from `a` to `d` is `p`. -/
def firstOnLink (s : State) (a d : Nat) (p : Packet) : Prop :=
  s.repl.links.find? (fun l => decide (l.2.1 = d ∧ l.2.2.id = p.id ∧ l.2.2.kind = p.kind)) = some (a, d, p) ∧
    s.repl.links.find? (fun l => decide (l.1 = a ∧ l.2.1 = d)) = some (a, d, p)

end Sys2Proof.Spec

/-- R284 to R286: an update that arrives at a die where it is applicable is applied: its payload, the sender's applied count, an
acknowledgement; else it is held, while the hold queue has room. An acknowledgement takes the die from those that have not applied the
packet. A read of PEAK leaves the present count. -/
def Sys2Proof.Spec.UpdatesArrive : Prop :=
  (∀ (s : State) (d a : Nat) (p : Packet),
    let e : Instr := .updatePacketArrival d p.id
    let locked := ∃ q ∈ (s.rep d).locks, q.line = p.line
    let off := { s.repl with links := s.repl.links.erase (a, d, p) }
    p.kind = .update → firstOnLink s a d p → p.line % 4 = 0 →
      (nextHere s d p → ¬ locked → (s.rep d).hold = [] →
        ∃ t, exec e s = .next t ∧ t.groups = s.groups ∧ tookPayload s t d p ∧
          Tab.get 0 p.src (t.rep d).av = Tab.get 0 p.src p.vec ∧
          (∀ k, k ≠ p.src → Tab.get 0 k (t.rep d).av = Tab.get 0 k (s.rep d).av) ∧ (∀ k, k ≠ d → t.rep k = s.rep k) ∧
          t.repl.links = off.links ∧ t.pending = s.pending ++ [.updateAck d p.id]) ∧
      (¬ nextHere s d p ∨ locked → (s.rep d).hold.length < 4096 → ∃ t, exec e s = .next t ∧ t.mem = s.mem ∧
        (t.rep d).hold = (s.rep d).hold ++ [p] ∧ (t.rep d).av = (s.rep d).av ∧ t.repl.links = off.links ∧
        (t.rep d).peak = max (s.rep d).peak ((s.rep d).hold.length + 1)) ∧
      (¬ nextHere s d p ∨ locked → 4096 ≤ (s.rep d).hold.length → exec e s = .next (s.later e))) ∧
  (∀ (s : State) (d id : Nat), ∃ t, exec (.updateAck d id) s = .next t ∧ t.mem = s.mem ∧ t.groups = s.groups ∧
    (∀ k, (t.rep k).av = (s.rep k).av ∧ (t.rep k).hold = (s.rep k).hold) ∧
    ∀ k u, u ∈ (t.rep k).unacked ↔
      (u ∈ (s.rep k).unacked ∧ u.1.id ≠ id) ∨
      (u.1.id = id ∧ u.2 ≠ [] ∧ ∃ l, (u.1, l) ∈ (s.rep k).unacked ∧ u.2 = l.filter (fun x => decide (x ≠ d)))) ∧
  (∀ (s : State) (d : Nat), d < 8 → ∃ t, exec (.holdPeakRead d) s = .next t ∧ t.mem = s.mem ∧ t.groups = s.groups ∧
    t.rep d = { s.rep d with peak := (s.rep d).hold.length } ∧ ∀ k, k ≠ d → t.rep k = s.rep k)

/-- R287, R291 to R293: a die whose unsettled updates would pass the limit lags; the reports give every live die's minima; a rebase is
ordered when a count is full and, once everything emitted is applied, every count is 0 and the epoch rises by 1, on every die in one
event (log entry 68). -/
def Sys2Proof.Spec.LagReportsAndRebase : Prop :=
  (∀ (s : State) (d : Nat),
    ((s.rep d).lagging = true ∨ s.lagLimit d = false → exec (.lag d) s = .next s) ∧
    ((s.rep d).lagging = false → s.lagLimit d = true → ∃ t, exec (.lag d) s = .next t ∧ t.groups = s.groups ∧
      t.rep d = { s.rep d with lagging := true } ∧ ∀ k, k ≠ d → t.rep k = s.rep k)) ∧
  (∀ (s : State), ∃ t, exec .settledReport s = .next t ∧ t.groups = s.groups ∧
    (∀ d ∈ s.liveDies, ∀ i < 8, Tab.get 0 i (Tab.get [] d t.repl.reports) = (s.rep d).minimum i) ∧
    ∀ d, (t.rep d).av = (s.rep d).av ∧ (t.rep d).e = (s.rep d).e ∧ (t.rep d).hold = (s.rep d).hold) ∧
  (∀ (s : State),
    (s.repl.rebase = false → s.countsFull = false → exec .wrap s = .next s) ∧
    (s.repl.rebase = false → s.countsFull = true → ∃ t, exec .wrap s = .next t ∧ t.groups = s.groups ∧ t.repl.rebase = true ∧
      t.repl.epoch = s.repl.epoch ∧ Instr.wrap ∈ t.pending) ∧
    (s.repl.rebase = true → (s.repl.removing ≠ [] ∨ s.drained = false) → exec .wrap s = .next (s.later .wrap)) ∧
    (s.repl.rebase = true → s.repl.removing = [] → s.drained = true → ∃ t, exec .wrap s = .next t ∧ t.groups = s.groups ∧
      t.repl.rebase = false ∧ t.repl.epoch = s.repl.epoch + 1 ∧
      ∀ d, (t.rep d).e = 0 ∧ (t.rep d).av = [] ∧ (t.rep d).lastW = [] ∧ (t.rep d).unacked = []))

/-- Updates are applied, held, acknowledged; lag, reports and rebase: the parts above together. -/
def Obligations.UpdatesLagAndRebase : Prop := Spec.UpdatesArrive ∧ Spec.LagReportsAndRebase

/-- R288, R289, R294: a strong operation takes the next slot; its issuer's replica locks the line, raises its count and sends the
lock; the others accept it in slot order, on arrival or out of the hold queue, and lock the line once its leases have run out; the
last acknowledgement commits it; each replica then takes the payload and expects the next slot, and an abort, which waits until the
live dies have applied the same updates of the removed die, leaves memory as it was. A slot is granted only once the operation is
released (log entry 87) and below the lag limit (R292); E and AV of the issuer rise at its own lock (log entry 66). The Collator's role passes to the next live rank above its holder. -/
def Obligations.StrongOperations : Prop :=
  (∀ (s : State) (o : Strong),
    let e : Instr := .collatorSlotGrant o.id
    let n := s.repl.nextSlot
    let free := s.released o.info = true ∧ s.repl.handover = false ∧ s.repHalted = false ∧ (s.rep o.die).lagging = false ∧
      ∀ k ∈ s.repl.strongs, k.id < o.id → k.info.tok = o.info.tok → k.slot ≠ none
    let due := (s.repl.strongs.filter (fun k => decide (k.die = o.die) && k.slot.isSome && k.pkt.isNone)).length
    let full := 2048 + s.settled o.die < (s.rep o.die).e + due + 1
    s.strong? o.id = some o → o.slot = none → o.info.rr.1 = 0 →
      (free → ¬ full → ∃ t, exec e s = .next t ∧ t.mem = s.mem ∧ t.groups = s.groups ∧ t.strong? o.id = some { o with slot := some n } ∧
        t.repl.nextSlot = n + 1 ∧ (t.repl.handover = true ↔ (n + 1) % 65536 = 0) ∧ Instr.strongLock o.die o.id ∈ t.pending) ∧
      (free → full → ∃ t, exec e s = .next t ∧ t.mem = s.mem ∧ t.groups = s.groups ∧ t.repl = s.repl ∧ e ∈ t.pending ∧
        Instr.lag o.die ∈ t.pending) ∧
      (¬ free → exec e s = .next (s.later e))) ∧
  (∀ (s : State),
    (s.repl.handover = false → exec .collatorHandover s = .next s) ∧
    (s.repl.handover = true → s.repl.coll < 8 → ∃ t, exec .collatorHandover s = .next t ∧ t.mem = s.mem ∧ t.groups = s.groups ∧
      t.repl.handover = false ∧
      ∀ k, 1 ≤ k → k ≤ 8 → (s.repl.coll + k) % 8 ∈ s.liveDies → (∀ j, 1 ≤ j → j < k → (s.repl.coll + j) % 8 ∉ s.liveDies) →
        t.repl.coll = (s.repl.coll + k) % 8)) ∧
  (∀ (s : State) (o : Strong) (n : Nat),
    let e : Instr := .strongLock o.die o.id
    let r := s.rep o.die
    let may := n = r.expect ∧ s.repl.rebase = false ∧ s.countsFull = false ∧ s.repl.removing = [] ∧ s.lockFree o.die o.line = true
    s.strong? o.id = some o → o.slot = some n → o.pkt = none →
      (¬ may → exec e s = .next (s.later e)) ∧
      (may → ∃ (t : State) (p : Packet), exec e s = .next t ∧ t.mem = s.mem ∧ (t.rep o.die).e = r.e + 1 ∧
        Tab.get 0 o.die (t.rep o.die).av = r.e + 1 ∧ (t.rep o.die).locks = r.locks ++ [p] ∧ p.id = o.id ∧ p.kind = .lock ∧
        p.slot = n ∧ p.line = o.line ∧ p.src = o.die ∧ p.vec = (t.rep o.die).av ∧ Instr.strongLockAck o.id ∈ t.pending ∧
        (∀ d ∈ s.liveDies, d ≠ o.die → (o.die, d, p) ∈ t.repl.links) ∧
        ∃ o', t.strong? o.id = some o' ∧ o'.pkt = some p ∧ o'.acks = [o.die] ∧ o'.slot = some n)) ∧
  (∀ (s : State) (o : Strong) (d : Nat) (p : Packet),
    let e : Instr := .strongLock d o.id
    let r := s.rep d
    let may := p.slot = r.expect ∧ nextHere s d p
    let held := r.hold.find? (fun p => decide (p.kind = .lock ∧ p.id = o.id))
    let locks := fun (hold : List Packet) => ∃ t, exec e s = .next t ∧ t.mem = s.mem ∧
      t.rep d = { r with hold := hold, accept := none, locks := r.locks ++ [p] } ∧
      t.strong? o.id = some { o with acks := o.acks ++ [d] } ∧ t.pending = s.pending ++ [.strongLockAck o.id]
    s.strong? o.id = some o → o.die ≠ d → p.kind = .lock → p.id = o.id →
      (s.onLink d o.id .lock = false → held = some p → r.accept = none →
        (may → s.lockFree d p.line = true → locks (r.hold.erase p)) ∧
        (may → s.lockFree d p.line = false →
          exec e s = .next ((s.setRep d { r with hold := r.hold.erase p, accept := some p }).later e)) ∧
        (¬ may → exec e s = .next (s.later e))) ∧
      (s.onLink d o.id .lock = false → held = none → r.accept = some p →
        (s.lockFree d p.line = true → locks r.hold) ∧ (s.lockFree d p.line = false → exec e s = .next (s.later e))) ∧
      (∀ a, firstOnLink s a d p → r.accept = none →
        (may → s.lockFree d p.line = true → locks r.hold) ∧
        (¬ may → r.hold.length < 4096 → ∃ t, exec e s = .next t ∧ t.mem = s.mem ∧ (t.rep d).hold = r.hold ++ [p] ∧
          t.repl.links = s.repl.links.erase (a, d, p) ∧ e ∈ t.pending) ∧
        (¬ may → 4096 ≤ r.hold.length → exec e s = .next (s.later e)))) ∧
  (∀ (s : State) (o : Strong) (p : Packet),
    let e : Instr := .strongLockAck o.id
    s.strong? o.id = some o → o.pkt = some p → o.committed = false →
      ((∃ d ∈ s.liveDies, d ∉ o.acks) → exec e s = .next s) ∧
      ((∀ d ∈ s.liveDies, d ∈ o.acks) → ∃ t, exec e s = .next t ∧ t.mem = s.mem ∧ t.groups = s.groups ∧
        t.strong? o.id = some { o with committed := true } ∧
        ∀ d ∈ s.liveDies, d ∉ o.applied → Instr.strongCommit d o.id ∈ t.pending)) ∧
  (∀ (s : State) (o : Strong) (p c : Packet) (d n : Nat),
    let e : Instr := .strongCommit d o.id
    s.strong? o.id = some o → o.pkt = some p → o.slot = some n → o.committed = true → d ∉ o.applied → (s.rep d).hold = [] →
      p.line % 4 = 0 →
      d = o.die ∨ (∃ a, c.kind = .commit ∧ c.id = o.id ∧ firstOnLink s a d c) →
        ∃ t, exec e s = .next t ∧ tookPayload s t d p ∧ (t.rep d).expect = n + 1 ∧ (∀ q ∈ (t.rep d).locks, q.id ≠ o.id) ∧
          Instr.updateAck d o.id ∈ t.pending ∧ ∀ k, k ≠ d → t.rep k = s.rep k) ∧
  (∀ (s : State) (o : Strong) (d n : Nat),
    let e : Instr := .strongAbort d o.id
    let even := ∀ x ∈ s.liveDies, ∀ y ∈ s.liveDies, x ∉ o.applied → y ∉ o.applied →
      vecGet (s.rep x).av o.die = vecGet (s.rep y).av o.die
    s.strong? o.id = some o → o.slot = some n → o.committed = false → d ∉ o.applied → o.die ∉ s.liveDies → (s.rep d).hold = [] →
      ((s.rep d).expect ≠ n ∨ ¬ even → exec e s = .next (s.later e)) ∧
      ((s.rep d).expect = n → even → ∃ t, exec e s = .next t ∧ t.mem = s.mem ∧ t.groups = s.groups ∧ (t.rep d).expect = n + 1 ∧
        ∀ q ∈ (t.rep d).locks, q.id ≠ o.id))

/-- R288, R294, R295: the removal of a die begins, with the Collator's role passed to the next live rank above its holder, and ends
with the die no longer live; a join begins with GO, and ends with the region of the lowest live rank on the joining die, which lives
from then on. That each is one event once its dies have drained, and that a join copies the region at its end, are log entry 68. -/
def Obligations.MembershipChanges : Prop :=
  (∀ (s : State) (d : Nat),
    let e : Instr := .membershipRemove d
    let was := s.repl.live.getLsbD d = true ∧ d < 8
    (¬ was → exec e s = .next s) ∧
    (was → d ∉ s.repl.removing → ∃ t, exec e s = .next t ∧ t.repl.removing = s.repl.removing ++ [d] ∧ t.repl.live = s.repl.live ∧
      (s.repl.coll < 8 → ∀ k, 1 ≤ k → k ≤ 8 → (s.repl.coll + k) % 8 ∈ t.liveDies →
        (∀ j, 1 ≤ j → j < k → (s.repl.coll + j) % 8 ∉ t.liveDies) → t.repl.coll = (s.repl.coll + k) % 8)) ∧
    (was → d ∈ s.repl.removing → s.removeReady d = false → exec e s = .next (s.later e)) ∧
    (was → d ∈ s.repl.removing → s.removeReady d = true → ∃ t, exec e s = .next t ∧
      t.repl.live = s.repl.live &&& ~~~(1#8 <<< d) ∧ t.repl.removing = s.repl.removing.erase d)) ∧
  (∀ (s : State) (d : Nat),
    let may := s.repl.join = none ∧ s.repl.live.getLsbD d = false ∧ d < 8
    (¬ may → exec (.joinGo d) s = .next s) ∧
    (may → ∃ t, exec (.joinGo d) s = .next t ∧ t.groups = s.groups ∧ t.repl.join = some { rank := d, copied := false } ∧
      t.repl.live = s.repl.live ∧ Instr.joinCopyEnd d ∈ t.pending)) ∧
  (∀ (s : State) (j : Join),
    let d := j.rank
    let e : Instr := .joinCopyEnd d
    let a := s.repBase s.lowRank
    let b := s.repBase d
    let n := s.repSize
    s.repl.join = some j → s.Inv → d < 8 →
      (j.copied = false → s.repl.rebase = false → s.repl.removing = [] → s.repl.handover = false → ∃ t, exec e s = .next t ∧
        t.mem = s.mem ∧ t.groups = s.groups ∧ t.repl.join = some { j with copied := true } ∧
        t.repl.nextSlot = s.repl.nextSlot + 1) ∧
      (j.copied = true → (s.repl.removing ≠ [] ∨ s.drained = false ∨ ∃ o ∈ s.repl.strongs, o.slot ≠ none) →
        exec e s = .next (s.later e)) ∧
      (j.copied = true → s.repl.removing = [] → s.drained = true → (∀ o ∈ s.repl.strongs, o.slot = none) →
        (s.reg (0x10000020008 + 4096 * d)).getLsbD 10 = false → a + n ≤ b ∨ b + n ≤ a →
        ∃ t, exec e s = .next t ∧ t.groups = s.groups ∧ t.repl.live = s.repl.live ||| (1#8 <<< d) ∧ t.repl.join = none ∧
          (∀ k < n, t.byte (b + k) = s.byte (a + k)) ∧ ∀ pa, (pa < b ∨ b + n ≤ pa) → t.byte pa = s.byte pa))

/-! ## Requests to and from peers; publications on their way -/

namespace Sys2Proof.Spec
open Sys2Proof.Machine

/-- The lanes of a request's accesses that `p` tells are deferred with a cause (R188, R299, R301), where their group is still there. -/
def lanesFail (s t : State) (q : PeerReq) (p : AccOp → Bool) (cause detail : Nat) : Prop :=
  q.info.engine = none → q.info.once = false → q.info.grp ≠ 0x10000 → s.owns q.info = true → s.hasGrp q.info.grp = true →
    ∀ a ∈ q.accs, a.acc.lane < 96 → p a.acc.op = true →
      let f := (s.grp q.info.grp).flow
      f.exited.getLsbD a.acc.lane = false → f.deferred.getLsbD a.acc.lane = false →
        (t.grp q.info.grp).flow.deferred.getLsbD a.acc.lane = true ∧
        ∃ r ∈ (t.grp q.info.grp).defs, r.lane = a.acc.lane ∧ r.cause = cause ∧ r.detail = detail ∧ r.pc = q.info.pc

/-- Port `p` is up (R425). -/
def portUp (s : State) (p : Nat) : Prop := (s.reg (0x10000260000 + 0x40 * p)).extractLsb' 2 2 = 2#2

/-- A port of the nearest die that has one up (R426): of the die itself where one of its own is up; the distance is that of the
ranks (log entry 50). -/
def nearestUp (s : State) (d p : Nat) : Prop :=
  let far := fun (r : Nat) => (r / 2 - d) + (d - r / 2)
  p < 16 ∧ portUp s p ∧ ∀ r < 16, portUp s r → far p ≤ far r

end Sys2Proof.Spec

/-- R300 to R302, R369: a die sends its oldest queued request whose target has a free slot: at its first send it takes a tag and its
generation, and no tag whose response is still to come; where the access table denies it, it fails. After BUSY it waits 2,000 ticks; a
re-issue keeps slot and tag; a response ends it with its data or its error; without one by 60,800 ticks its loads and atomics fail, its
slot is withheld, and its tag is not used again before its response comes. A request leaves by a port of its own die, or by the nearest
that is up, and waits while every port is down (R426). HELD begins the wait of 20,000 ticks anew and takes back the count of the re-issue
that it answers (R393). A refused request is ACCESS, detail 3 (log entry 69). -/
def Sys2Proof.Spec.PeerRequests : Prop :=
  (∀ (s : State) (d : Nat) (q : PeerReq),
    let e : Instr := .peerRequestSend d
    let uses := fun (tag : Nat) => Tab.get 0 tag s.fab.tags
    let sent := fun (q' : PeerReq) (t : State) => exec e s = .next t ∧ t.mem = s.mem ∧ t.groups = s.groups ∧
      ∃ p, nearestUp s d p ∧ t.peer? q.id = some { q' with port := p }
    d < 8 → (∀ r ∈ s.fab.reqs, r.state ≠ .ready) → s.peerNext d = some q → s.peer? q.id = some q →
      (s.peerGranted q = false → ∃ t, exec e s = .next t ∧ (q.info.grp ≠ 0x10000 → t.mem = s.mem) ∧ t.peer? q.id = none ∧
        lanesFail s t q (fun _ => true) 0x11 3) ∧
      (s.peerGranted q = true → (∀ p < 16, ¬ portUp s p) → ∃ t, exec e s = .next t ∧ t.mem = s.mem ∧ t.groups = s.groups ∧
        t.peer? q.id = some q ∧ e ∈ t.pending) ∧
      (s.peerGranted q = true → s.peerOut d < 256 → (∃ p < 16, portUp s p) → q.first ≠ 0 →
        ∃ t, sent { q with state := .sent } t ∧ Tab.find? q.tag t.fab.last = some s.tick.toNat) ∧
      (∀ tag, s.peerGranted q = true → s.peerOut d < 256 → (∃ p < 16, portUp s p) → q.first = 0 → s.freeTag d = some tag →
        ∃ t, sent { q with state := .sent, tag := tag, gen := decide (uses tag % 2 = 1), first := s.tick.toNat,
                           src := s.pkgId } t ∧
          (∀ e ∈ s.fab.lost, e.2 ≠ tag) ∧ Tab.get 0 tag t.fab.tags = uses tag + 1 ∧ Tab.find? tag t.fab.last = some s.tick.toNat)) ∧
  (∀ (s : State) (q : PeerReq) (data : List Byte),
    let e := fun (a : PeerAnswer) => Instr.peerResponse q.id a
    s.peer? q.id = some q →
      (∀ a, q.first = 0 → exec (e a) s = .next s) ∧
      (q.first ≠ 0 →
        (∃ t, exec (e (.done data)) s = .next t ∧ t.mem = s.mem ∧ t.peer? q.id = none ∧
          ∀ p, q.accs = [p] → p.acc.op.returns = true →
            t.sys = (s.deliver q.info p.acc (BitVec.ofNat 128 (numOfBytes (data.take p.acc.size)))).sys) ∧
        (∃ t, exec (e .error) s = .next t ∧ (q.info.grp ≠ 0x10000 → t.mem = s.mem) ∧ t.peer? q.id = none ∧
          lanesFail s t q (fun _ => true) 0x11 3) ∧
        (∃ t, exec (e .poison) s = .next t ∧ (q.info.grp ≠ 0x10000 → t.mem = s.mem) ∧ t.peer? q.id = none ∧
          lanesFail s t q (fun _ => true) 0x16 1) ∧
        (q.state ≠ .sent → exec (e .busy) s = .next s) ∧
        (q.state = .sent → q.sends < 3 → ∃ t, exec (e .busy) s = .next t ∧ t.mem = s.mem ∧ t.groups = s.groups ∧
          t.peer? q.id = some { q with state := .busy, due := s.tick.toNat + 2000 }) ∧
        (∃ t, exec (e .held) s = .next t ∧ t.mem = s.mem ∧ t.groups = s.groups ∧
          t.peer? q.id = some { q with sends := q.sends - 1, first := max 1 (s.tick.toNat - 20000 * (q.sends - 1)) }))) ∧
  (∀ (s : State) (id : Nat) (a : PeerAnswer), s.peer? id = none → a ≠ .busy → a ≠ .held →
    ∃ t, exec (.peerResponse id a) s = .next t ∧ t.mem = s.mem ∧ t.groups = s.groups ∧ t.fab.reqs = s.fab.reqs ∧
      t.fab.lost = Tab.del id s.fab.lost) ∧
  (∀ (s : State) (q : PeerReq),
    let now := s.tick.toNat
    let late := q.state = .sent ∧ q.sends < 3 ∧ q.first + 20000 * (q.sends + 1) ≤ now
    let over_ := q.first ≠ 0 ∧ q.first + 60800 ≤ now
    let key := q.pkg * 8 + q.die
    s.peer? q.id = some q →
      (q.state = .busy → q.due ≤ now → ∃ t, exec (.peerBusyRetry q.id) s = .next t ∧ t.mem = s.mem ∧ t.groups = s.groups ∧
        t.peer? q.id = some { q with state := .queued }) ∧
      (q.state ≠ .busy ∨ now < q.due → exec (.peerBusyRetry q.id) s = .next s) ∧
      (late → q.die < 8 → (∃ p < 16, portUp s p) → ∃ t, exec (.peerReissue q.id) s = .next t ∧ t.mem = s.mem ∧ t.groups = s.groups ∧
        Tab.find? q.tag t.fab.last = some now ∧
        ∃ p, nearestUp s q.die p ∧ t.peer? q.id = some { q with sends := q.sends + 1, port := p }) ∧
      (late → q.die < 8 → (∀ p < 16, ¬ portUp s p) → exec (.peerReissue q.id) s = .next s) ∧
      (¬ late → exec (.peerReissue q.id) s = .next s) ∧
      (¬ over_ → exec (.peerTimeout q.id) s = .next s) ∧
      (over_ → q.info.grp ≠ 0x10000 → ∃ t, exec (.peerTimeout q.id) s = .next t ∧ t.mem = s.mem ∧ t.peer? q.id = none ∧
        lanesFail s t q AccOp.returns 0x14 1 ∧
        (q.state = .sent → Tab.get 0 key t.fab.withheld = Tab.get 0 key s.fab.withheld + 1 ∧
          Tab.find? q.id t.fab.lost = some q.tag)))

/-- R302, R375, R393: a peer's load gives the bytes of memory, its store writes the bytes that its mask marks, and an atomic is performed
once: its answer is kept for 1,000,000 ticks, and the same tag and generation get it again without another step. A frozen package answers
HELD. That a request is checked as an LS access of context `part`, and what a frozen package answers, are log entry 70. Stated for a load, for a store of one byte and for an atomic of one lane. -/
def Sys2Proof.Spec.RequestsOfPeers : Prop :=
  ∀ (s : State) (src seq pa part : Nat),
    let off := pa % 0x2000000000
    let tag := seq % 4096
    let gen := decide (seq / 4096 % 2 = 1)
    let here := s.tagging = false ∧ s.sys.migs = [] ∧ s.sys.own = [] ∧ pa < 0x10000000000 ∧ s.dbg.stopped = false ∧ s.dbg.frozen = false
    let answers := fun (op : PeerOp) (a : PeerAnswer) (t : State) =>
      exec (.peerRequestAtTarget src seq pa part op) s = .next t ∧ t.groups = s.groups ∧ t.fab.answers = s.fab.answers ++ [(src, seq, a)]
    let clean := Tab.get false (lineKey pa (pa / 0x2000000000)) s.sys.poison = false
    (∀ op, s.dbg.stopped = false → s.dbg.frozen = true → ∃ t, answers op .held t ∧ t.mem = s.mem) ∧
    (∀ op, here → 0x1800000000 ≤ off → ∃ t, answers op .error t ∧ t.mem = s.mem) ∧
    (∀ n, here → off + n ≤ 0x1800000000 → 0 < n → pa % 128 + n ≤ 128 → clean → (∀ k < n, s.permitted 0 part 0 .read (pa + k) 1 none = true) →
      ∃ t, answers (.load n) (.done (s.bytes pa n)) t ∧ t.mem = s.mem) ∧
    (∀ (b : Byte), here → off < 0x1800000000 → s.permitted 0 part 0 .write pa 1 none = true →
      ∃ t, answers (.store [b] [true]) (.done []) t ∧ ∀ a, t.byte a = if a = pa then b else s.byte a) ∧
    (∀ (op : AOp) (ty : ITy) (x cmp : Word),
      let n := ty.bits / 8
      let old := s.load pa n
      here → off + n ≤ 0x1800000000 → pa % n = 0 → clean → s.quireHolds (pa / 4096) (pa / 4096 + 1) = false →
      s.permitted 0 part 0 .atomic pa n none = true →
      (∀ c ∈ s.fab.cache, ¬ (c.die = pa / 0x2000000000 ∧ c.pkg = src ∧ c.tag = tag)) →
      (s.fab.cache.filter (fun c => decide (c.die = pa / 0x2000000000))).length < 65536 →
        ∃ (t : State) (c : ReplyEntry), answers (.atomic op ty [(0, x, cmp)]) (.done (bytesOfNum n old)) t ∧
          t.fab.cache = s.fab.cache ++ [c] ∧ c.pkg = src ∧ c.tag = tag ∧ c.gen = gen ∧ c.die = pa / 0x2000000000 ∧
          c.reply = .done (bytesOfNum n old) ∧ c.expiry = s.tick.toNat + 1000000 ∧
          ∀ a, t.byte a = match atomStep op ty (BitVec.ofNat 64 old) x cmp with
            | some v => if pa ≤ a ∧ a < pa + n then BitVec.ofNat 8 (v.toNat / 2 ^ (8 * (a - pa))) else s.byte a
            | none => s.byte a) ∧
    (∀ (op : AOp) (ty : ITy) (l : List (Nat × Word × Word)) (c : ReplyEntry), s.dbg.stopped = false → s.dbg.frozen = false →
      s.peerPlace pa (.atomic op ty l) = true → s.sys.migs = [] → s.granted (pa / 4096) = false →
      s.fab.cache.find? (fun c => decide (c.die = pa / 0x2000000000 ∧ c.pkg = src ∧ c.tag = tag) && decide (c.gen = gen)) = some c →
        ∃ t, answers (.atomic op ty l) c.reply t ∧ t.mem = s.mem ∧ t.fab.cache = s.fab.cache) ∧
    (∀ id, ∃ t, exec (.replyCacheExpiry id) s = .next t ∧ t.mem = s.mem ∧ t.groups = s.groups ∧
      t.fab.cache = s.fab.cache.filter (fun c => decide (c.id ≠ id ∨ s.tick.toNat < c.expiry)))

/-- Requests to peers are sent, re-issued and answered, and those of peers performed once: the parts above together. -/
def Obligations.PeerTraffic : Prop := Spec.PeerRequests ∧ Spec.RequestsOfPeers

namespace Sys2Proof.Spec
open Sys2Proof.Machine

/-- The children that word 0 and the words after it of an espalier entry name (R372). -/
def kidsOf (e : Nat → Word) : List Nat :=
  (List.range ((e 0).toNat / 2 ^ 20 % 16)).map (fun j => (e (1 + j / 4)).toNat / 2 ^ (16 * (j % 4)) % 4096)

end Sys2Proof.Spec

/-- R304, R305, R374: the next flit of a publication leaves its root for every child; a flit at a port is written to the channel's window
where this package subscribes, and goes on to the children; under an entry that names no channel it is dropped. A version waits for its
turn and is then written with a strong store, under the entry with which it came (R376). Each child's acknowledgement counts once; a flit
that every child has acknowledged is acknowledged to the parent. That a channel's numbers begin at 0 in a window,
and that a version waits for LEXP, are log entry 71. -/
def Obligations.PublicationsArrive : Prop :=
  (∀ (s : State) (w : PubWord),
    let e : Instr := .publicationFlitArrival 16 w.id
    let n := min 64 (w.len - w.sent)
    let tm := s.team w.team
    let kids := kidsOf (s.esp w.ch)
    s.fab.pubs.find? (fun p => decide (p.id = w.id)) = some w →
      (w.parked ≠ none ∨ w.len ≤ w.sent → exec e s = .next s) ∧
      (w.parked = none → w.sent < w.len → w.ver = false → w.lsrc = true → s.espPub w.ch = false → s.sys.migs = [] → w.src.toNat + w.len < 2 ^ 64 →
        ∃ t, exec e s = .next t ∧ t.mem = s.mem ∧ t.groups = s.groups ∧ t.fab.flitsOut = s.fab.flitsOut ∧
          t.fab.acksOut = s.fab.acksOut ∧
          ∃ w', t.fab.pubs.find? (fun p => decide (p.id = w.id)) = some w' ∧ w'.sent = w.sent + n) ∧
      (w.parked = none → w.sent < w.len → w.ver = false → w.lsrc = true → s.espPub w.ch = true → kids ≠ [] →
        (s.esp w.ch 0).getLsbD 7 = false → w.src.toNat + w.len < 2 ^ 64 →
        ∃ (t : State) (f : Flit), exec e s = .next t ∧ t.mem = s.mem ∧ t.groups = s.groups ∧
          t.fab.flitsOut = s.fab.flitsOut ++ kids.map (fun k => (k, f)) ∧ f.ch = w.ch ∧ f.seq = w.num ∧ f.off = w.off + w.sent ∧
          f.ver = false ∧ f.acks = kids.dedup ∧ f.pkg = s.pkgId ∧
          f.data = (List.range n).map (fun k => Tab.get 0 (w.src.toNat + w.sent + k) tm.loc) ∧
          ∃ w', t.fab.pubs.find? (fun p => decide (p.id = w.id)) = some w' ∧ w'.sent = w.sent + n ∧ w'.left = w.left ++ [f.id])) ∧
  (∀ (s : State) (port ch part seq off : Nat) (data : List Byte) (ver : Bool),
    let e : Instr := .publicationFlitArrival port 0
    let i : Input := .flit port ch part seq off data ver
    let kids := kidsOf (s.esp ch)
    let base := (s.esp ch 4).toNat / 4096 % 2 ^ 40 * 4096
    port < 16 → s.dbg.frozen = false →
      s.inputs.find? (fun i => match i with | .flit p .. => decide (p = port) | _ => false) = some i →
      (s.espPub ch = false → ∃ t, exec e s = .next t ∧ t.mem = s.mem ∧ t.groups = s.groups ∧ t.inputs = s.inputs.erase i ∧
        t.fab = s.fab) ∧
      (s.espPub ch = true → (s.esp ch 0).getLsbD 7 = false → kids ≠ [] → ∃ (t : State) (f : Flit), exec e s = .next t ∧ t.mem = s.mem ∧
        t.fab.flitsOut = s.fab.flitsOut ++ kids.map (fun k => (k, f)) ∧ f.data = data ∧ f.off = off ∧ f.acks = kids.dedup ∧
        f.pkg = s.pkgId) ∧
      (∀ b : Byte, data = [b] → ver = false → s.espPub ch = true → (s.esp ch 0).getLsbD 7 = true → kids ≠ [] →
        off < (s.esp ch 5).toNat % 2 ^ 32 → s.sys.migs = [] → s.tagging = false → base + off < 0x10000000000 →
        (base + off) % 0x2000000000 < 0x1800000000 →
        s.permitted 0 ((s.esp ch 7).toNat % 64) 4 .write (base + off) 1 none = true →
        ∃ t, exec e s = .next t ∧ ∀ a, t.byte a = if a = base + off then b else s.byte a)) ∧
  (∀ (s : State) (f : Flit),
    let e : Instr := .publicationFlitArrival 17 f.id
    let at_ := fun (k : Nat) => (f.ent.getD k 0).toNat
    let pa := at_ 4 / 4096 % 2 ^ 40 * 4096 + at_ 6 % 2 ^ 32
    s.fab.flits.find? (fun k => decide (k.id = f.id) && k.held) = some f → s.fab.flits.find? (fun k => decide (k.id = f.id)) = some f →
      (Tab.get 0 f.ch s.fab.subs ≠ f.seq → exec e s = .next s) ∧
      (Tab.get 0 f.ch s.fab.subs = f.seq → s.sys.migs = [] → s.tick.toNat < s.lexp pa (pa / 0x2000000000) →
        exec e s = .next (s.later e)) ∧
      (Tab.get 0 f.ch s.fab.subs = f.seq → s.sys.migs = [] → s.lexp pa (pa / 0x2000000000) ≤ s.tick.toNat → f.data.length = 8 →
        s.tagging = false → pa + 8 ≤ 0x10000000000 → pa % 0x2000000000 + 8 ≤ 0x1800000000 →
        s.permitted 0 (at_ 7 % 64) 4 .write pa 8 none = true →
        ∃ t, exec e s = .next t ∧ ∀ a, t.byte a = if pa ≤ a ∧ a < pa + 8 then f.data.getD (a - pa) 0 else s.byte a)) ∧
  (∀ (s : State) (child : Nat) (f : Flit),
    let e : Instr := .publicationAck child f.id
    let left := f.acks.filter (fun k => decide (k ≠ child))
    s.fab.flits.find? (fun k => decide (k.id = f.id)) = some f → f.ent ≠ [] →
      (left ≠ [] ∨ f.held = true → ∃ t, exec e s = .next t ∧ t.mem = s.mem ∧ t.groups = s.groups ∧
        t.fab.flits.find? (fun k => decide (k.id = f.id)) = some { f with acks := left } ∧ t.fab.acksOut = s.fab.acksOut) ∧
      (left = [] → f.held = false → f.src = none → ∃ t, exec e s = .next t ∧ t.mem = s.mem ∧ t.groups = s.groups ∧
        (∀ k ∈ t.fab.flits, k.id ≠ f.id) ∧ ∃ up, t.fab.acksOut = s.fab.acksOut ++ [up] ∧
          up.1 = (f.ent.getD 0 0).toNat / 256 % 4096 ∧ up.2.2.2 = s.pkgId))

/-! ## The events of the memory system -/

/-- R211 to R216, R219, R225: a held strong store is performed once its line's leases have ended, those of a writer's copy that it
recalls too; a recall ends a sub-granule's grant; a fill is
installed with its lease; a lease that has ended is not used again; a fetch fills a line of the instruction cache with memory's bytes and a
lease, which ends by LEXP where an operation is held on the line, or parks the group, which gives its port back (log entry
51); an uncorrectable error
poisons one line and leaves a machine-check record of it (its layout is the model's choice, log entry 31). -/
def Obligations.HoldsRecallsLeasesAndFetches : Prop :=
  (∀ (s : State) (q : Req) (p : PAcc) (home off : Nat),
    let e : Instr := .strongHoldRelease q.id
    s.req? q.id = some q → (∀ r ∈ s.sys.reqs, r.id = q.id → r = q) → q.accs = [p] → p.acc.op = .store →
      (q.state ≠ .held → exec e s = .next s) ∧
      (q.state = .held → s.mustHold q = true → exec e s = .next (s.later e)) ∧
      (q.state = .held → s.mustHold q = false → s.sys.migs = [] → s.recallReq q = none → exec e s = .next (s.recallLater q e)) ∧
      (∀ u, q.state = .held → s.mustHold q = false → s.sys.migs = [] → s.recallReq q = some u → u.mustHold q = true →
        exec e s = .next (u.later e)) ∧
      (∀ u, q.state = .held → s.mustHold q = false → s.sys.migs = [] → s.recallReq q = some u → u.mustHold q = false →
        pteKind q.leaf ≠ 3 → (pteKind q.leaf = 0 → 4 < q.info.sz → ∀ k ∈ s.siblings q.info.tok p.acc.lane, k = (q, p)) →
        placeOf s.tagging p.pa = .hbm home off → s.permitted 0 q.ctx 0 .write p.pa p.acc.size none = true →
          s.tagsFit q.leaf p.acc.va p.pa p.acc.size = true →
        ∃ t, exec e s = .next t ∧ (∀ r ∈ t.sys.reqs, r.id ≠ q.id) ∧ ∀ b, t.byte b =
          if p.pa ≤ b ∧ b < p.pa + p.acc.size ∧ p.acc.bmask.getLsbD (b - p.pa)
          then (p.acc.data >>> (8 * (b - p.pa))).setWidth 8 else s.byte b)) ∧
  (∀ (s : State) (d sub : Nat),
    let e : Instr := .ownershipRecall d sub
    let granted := fun (t : State) (k : Nat) => match Tab.find? (k / 16) t.sys.own with | some o => o.mask.getLsbD (k % 16) | none => false
    (s.quireHolds sub (sub + 1) = true → exec e s = .next (s.later e)) ∧
    (s.quireHolds sub (sub + 1) = false → sub * 4096 / 0x2000000000 ≠ d → exec e s = .next s) ∧
    (s.quireHolds sub (sub + 1) = false → sub * 4096 / 0x2000000000 = d → ∃ t, exec e s = .next t ∧ t.mem = s.mem ∧
      t.groups = s.groups ∧ ∀ k, granted t k = (granted s k && decide (k ≠ sub)))) ∧
  (∀ (s : State) (f : Fill),
    s.sys.fills.find? (fun k => decide (k.id = f.id)) = some f →
      ∃ t, exec (.l1Fill f.id) s = .next t ∧ t.mem = s.mem ∧ t.groups = s.groups ∧
        t.sys.fills = s.sys.fills.filter (fun k => decide (k.id ≠ f.id)) ∧
        (s.tick.toNat < f.expiry → Tab.find? f.sector (t.core f.core).l1 = some { data := f.data, expiry := f.expiry }) ∧
        (f.expiry ≤ s.tick.toNat → t.cores = s.cores)) ∧
  (∀ (s : State) (c line : Nat), ∃ t, exec (.leaseExpiry c line) s = .next t ∧ t.mem = s.mem ∧ t.groups = s.groups ∧
    (∀ k, k ≠ c → t.core k = s.core k) ∧
    ∀ n, Tab.find? n (t.core c).l1 = (Tab.find? n (s.core c).l1).map (fun x =>
      if n / 4 = line ∧ x.expiry ≤ s.tick.toNat then { x with expiry := 0 } else x)) ∧
  (∀ (s u : State) (g : Nat),
    let x := s.grp g
    let e : Instr := .instructionFetch g
    s.hasGrp g = true → x.sched.halted = false → x.sched.fetch = none →
      (∀ (pa home off : Nat) (leaf : Word), s.fetchReach x = (.ok pa leaf, u) → u.sys.migs = [] → pteTrk leaf = false →
        placeOf u.tagging pa = .hbm home off → u.permitted 0 x.ctx 0 .read (pa / 128 * 128) 128 none = true →
        u.tagsFit leaf (BitVec.ofNat 64 (8 * x.flow.pc.toNat)) pa 8 = true → Tab.get false (pa / 128 * 16 + home) u.sys.poison = false →
        ∃ t, exec e s = .next t ∧ t.mem = u.mem ∧ t.groups = u.groups ∧ Tab.find? (pa / 128) (t.core x.core).icache =
          some { data := u.bytes (pa / 128 * 128) 128, expiry :=
            (let full := u.tick.toNat + (Tab.find? (64 * x.core + x.ctx) u.sys.leaseWas).getD (u.ctxRegs x.core x.ctx).leaseLen.toNat
             if u.heldLine x.core leaf pa then min full (u.lexp pa home) else full) }) ∧
      (∀ f, s.fetchReach x = (.park f, u) → u.groups = s.groups → ∃ t, exec e s = .next t ∧
        (t.grp g).port = none ∧ (t.grp g).sched.fetch = some s.tick.toNat ∧ (t.grp g).flow = x.flow ∧ (t.grp g).regs = x.regs)) ∧
  (∀ (s : State) (pa d off : Nat), placeOf s.tagging pa = .hbm d off → ∃ t, exec (.hbmUncorrectableError pa) s = .next t ∧ t.mem = s.mem ∧
    t.groups = s.groups ∧ t.sys.mchecks = s.sys.mchecks ++ [(pa / 128 * 128, s.tick.toNat)] ∧ ∀ n h, h < 16 →
      Tab.get false (n * 16 + h) t.sys.poison =
      (Tab.get false (n * 16 + h) s.sys.poison || decide (n = pa / 128 ∧ h = d)))

/-- R226, R227, R357, R364, R365, R367, R370: GO of a migration, with MSRC and MDST as its write found them, blocks its page or sets ERR; at the end of its copy the new frame holds the
page and what waited goes on; RETIRE ends it; a walk caches its leaf; a replay-all ends with BUSY clear, or goes on while a matrix word is still to be driven again, and tries a
parked fetch again, which may park again; a read of DROPCNT leaves
only what was added in its own tick; a heat flush starts a die's counts again from none. That the copy is checked as an access of context 0 by the copy
engine is log entry 45. -/
def Obligations.MigrationWalksAndReplay : Prop :=
  (∀ (s : State) (d : Nat),
    let e : Instr := .migrationGo d
    let reg := 0x10000052100 + 64 * d
    let go := Tab.get (s.reg reg, s.reg (reg + 8)) d s.hub.goes
    let w := go.1
    let size := if w.extractLsb' 0 2 = 0#2 then 2 ^ 14 else if w.extractLsb' 0 2 = 1#2 then 2 ^ 16 else 2 ^ 25
    let src := (w.extractLsb' 14 38).toNat * 2 ^ 14
    let dst := (go.2.extractLsb' 14 38).toNat * 2 ^ 14
    let inHbm := fun (pa : Nat) => (∃ h o, placeOf s.tagging pa = .hbm h o) ∧ ∃ h o, placeOf s.tagging (pa + size - 1) = .hbm h o
    let ok := w.extractLsb' 0 2 ≠ 3#2 ∧ Tab.find? d s.sys.migs = none ∧ inHbm src ∧ inHbm dst ∧ src % size = 0 ∧ dst % size = 0 ∧
      src / 0x2000000000 = d
    (¬ ok → ∃ t, exec e s = .next t ∧ t.mem = s.mem ∧ t.groups = s.groups ∧ t.sys = s.sys ∧
      ∀ a, t.reg a = if a = reg + 16 then s.reg (reg + 16) ||| 8 else s.reg a) ∧
    (ok → s.quireHolds (src / 4096) ((src + size) / 4096) = true → exec e s = .next (s.later e)) ∧
    (ok → s.quireHolds (src / 4096) ((src + size) / 4096) = false → ∃ t, exec e s = .next t ∧ t.mem = s.mem ∧ t.groups = s.groups ∧
      Tab.find? d t.sys.migs = some { src := src, dst := dst, size := size, copied := false, aborted := false, queue := [] } ∧
      t.pending = s.pending ++ [.migrationCopyEnd d])) ∧
  (∀ (s : State) (d : Nat) (m : Migration),
    Tab.find? d s.sys.migs = some m →
      (m.copied = false → m.aborted = false → s.Inv → s.tagging = false → m.src + m.size ≤ m.dst ∨ m.dst + m.size ≤ m.src →
        ∃ t, exec (.migrationCopyEnd d) s = .next t ∧ t.groups = s.groups ∧
          (∀ q ∈ t.sys.reqs, q.state ≠ .blocked) ∧
          (s.permitted 1 0 1 .write m.dst m.size none = true → Tab.find? d t.sys.migs = some { m with copied := true, aborted := false } ∧
            (∀ k < m.size, t.byte (m.dst + k) = s.byte (m.src + k)) ∧
            ∀ pa, (pa < m.dst ∨ m.dst + m.size ≤ pa) → t.byte pa = s.byte pa) ∧
          (s.permitted 1 0 1 .write m.dst m.size none = false → Tab.find? d t.sys.migs = some { m with copied := false, aborted := true } ∧
            t.mem = s.mem)) ∧
      (m.copied = true ∨ m.aborted = true → exec (.migrationCopyEnd d) s = .next s ∧ ∃ t, exec (.migrationRetire d) s = .next t ∧
        t.mem = s.mem ∧ t.groups = s.groups ∧ Tab.find? d t.sys.migs = none) ∧
      (m.copied = false → m.aborted = false → exec (.migrationRetire d) s = .next s)) ∧
  (∀ (s u : State) (d ctx n : Nat) (va e : Word),
    let s1 := if d < 8 then s.count (0x340 + d) 0x4D 1 else s
    s1.walkCached d ctx (va.toNat % 2 ^ 57) = (.leaf e n, u) → ∃ t, exec (.pageWalk d ctx va) s = .next t ∧ t.mem = u.mem ∧ t.groups = u.groups ∧
      { unit := 0x400 + d, ctx := ctx, vpage := va.toNat % 2 ^ 57 / 2 ^ n, logSize := n, leaf := e } ∈ t.sys.tlbs) ∧
  (∀ (s : State) (d ctx : Nat), ∃ t, exec (.fbcmdReplayAll d ctx) s = .next t ∧
    (let again := ∃ e ∈ t.teams, e.2.ctx = ctx ∧ t.issueDie e.2.core = d ∧ ∃ m rest, e.2.mx = m :: rest ∧ m.redrive = true ∧ m.stopped = false
     (¬ again → (t.faultBuf d ctx).busy = false) ∧ (again → Instr.fbcmdReplayAll d ctx ∈ t.pending)) ∧
    ∀ (g k : Nat), s.groups.map Prod.fst = [g] → s.sys.orphans = [] → s.sys.engs = [] → s.hub.launches = [] → s.fab.pubs = [] →
      s.fab.colls = [] → (s.grp g).ctx = ctx → s.issueDie (s.grp g).core = d → (s.grp g).mem.logs = [] →
      (s.grp g).sched.susp = .none → (s.grp g).sched.fetch = some k → (s.faultBuf d ctx).busy = true → k < (s.faultBuf d ctx).since →
      ((∀ f, (s.fetchReach (s.grp g)).1 ≠ .park f) → (t.grp g).sched.fetch = none ∧ (t.grp g).sched.since = s.tick) ∧
      (∀ f, (s.fetchReach (s.grp g)).1 = .park f → (t.grp g).sched.fetch = some s.tick.toNat ∧ (t.grp g).port = none)) ∧
  (∀ (s : State) (d ctx : Nat), d < 8 → ctx < 64 → ∃ t, exec (.fbdropRead d ctx) s = .next t ∧ t.mem = s.mem ∧ t.groups = s.groups ∧
    t.faultBuf d ctx = { s.faultBuf d ctx with dropCnt := (s.hw (0x10000030090 + 0x4000 * d + 0x100 * ctx)).setWidth 32 }) ∧
  (∀ (s : State) (d : Nat), ∃ t, exec (.heatFlush d) s = .next t ∧ t.groups = s.groups ∧
    t.sys.heat = s.sys.heat.filter (fun e => decide (e.1 % 32 / 2 ≠ d)) ∧
    ((∀ e ∈ s.sys.heat, e.1 % 32 / 2 = d → (s.reg (0x10000052000 + 8 * (e.1 / 32 * 65536 / 0x2000000000))).getLsbD 0 = false) → t.mem = s.mem))

/-! ## Contexts: pre-emption, restore, slices, containment -/

/-- R348, R394: PREEMPT asks for a save of every group of a context: its groups give their ports back and stop where they stand, a
Quire invocation once its micro-operation ends;
RESUME_CTX asks for its restore; RESUME_GROUP lets a halted group issue again; a slice entry that is due is taken: the contexts of its gang
that are saved are to be restored, the others are saved on the compute-die cores, and LATE tells whether its instant had passed; an
entry that software has written in the same tick is not taken in it (R4). -/
def Obligations.PreemptResumeAndSlice : Prop :=
  (∀ (s : State) (c : Nat), (s.groups.map Prod.fst).Nodup →
    let mine := fun (k : Nat) => ∃ e ∈ s.teams, e.2.ctx = c ∧ e.1 = (s.grp k).team
    (s.ctxState c = 3 → exec (.preempt c) s = .next s) ∧
    (s.ctxState c ≠ 3 → ∃ t, exec (.preempt c) s = .next t ∧ t.mem = s.mem ∧ (t.ctx c).cmd = 1 ∧ (t.ctx c).held = true ∧
      Instr.preemption c ∈ t.pending ∧ ∀ k, s.hasGrp k = true →
        let x := s.grp k
        (mine k → x.q.running = false → t.grp k =
          { x with port := none, q := { x.q with word := none, touched := [] }, sched := { x.sched with paused := true } }) ∧
        (¬ mine k ∨ x.q.running = true → t.grp k = x))) ∧
  (∀ (s : State) (c : Nat),
    (s.ctxState c = 2 → (s.ctx c).cmd = 0 → exec (.resumeCtx c) s = .next (s.setCtx c { s.ctx c with cmd := 3, held := false })) ∧
    (s.ctxState c ≠ 2 ∨ (s.ctx c).cmd ≠ 0 → exec (.resumeCtx c) s = .next s)) ∧
  (∀ (s : State) (core slot : Nat),
    let g := core * 64 + slot
    let x := s.grp g
    slot < 64 → s.hasGrp g = true →
      (x.sched.halted = false → exec (.resumeGroup core slot) s = .next s) ∧
      (x.sched.halted = true → ∃ t, exec (.resumeGroup core slot) s = .next t ∧ t.mem = s.mem ∧
        t.grp g = { x with sched := { x.sched with halted := false, since := s.tick } } ∧ ∀ k, k ≠ g → t.grp k = s.grp k)) ∧
  (∀ (s : State) (n : Nat) (late : Bool),
    let reg := 0x10000012000 + 16 * n
    let w := s.reg reg
    let gang := s.reg (0x10000013000 + 8 * (w.extractLsb' 32 6).toNat)
    let away := fun (c k : Nat) => ∃ e ∈ s.teams, e.2.ctx = c ∧ e.1 = (s.grp k).team ∧ ¬ (0x3FC ≤ e.2.core ∧ e.2.core ≤ 0x3FF)
    (reg ∈ s.dbg.sw ∨ reg + 8 ∈ s.dbg.sw → s.dueSlice = some (n, late) → exec (.sliceSwitch n) s = .next s) ∧
    (n < 256 → s.dueSlice = some (n, late) → reg ∉ s.dbg.sw → reg + 8 ∉ s.dbg.sw → (s.groups.map Prod.fst).Nodup → ∃ t, exec (.sliceSwitch n) s = .next t ∧ t.mem = s.mem ∧
      t.hub.gang = some gang ∧ t.reg reg = w &&& ~~~0x8000000000000000 ∧
      t.reg (reg + 8) = (s.reg (reg + 8) &&& ~~~0x8000000000000000) ||| (if late then 0x8000000000000000 else 0) ∧
      (∀ c < 64, gang.getLsbD c = true → s.ctxState c = 2 → (s.ctx c).cmd = 0 → (t.ctx c).cmd = 3) ∧
      (∀ c < 64, ∀ k, gang.getLsbD c = false → (s.ctx c).cmd = 0 → s.hasGrp k = true → away c k →
        (t.ctx c).cmd = 2 ∧ ((s.grp k).q.running = false → (t.grp k).port = none ∧ (t.grp k).sched.paused = true) ∧
        (t.grp k).flow = (s.grp k).flow ∧ (t.grp k).regs = (s.grp k).regs))) ∧
  (∀ (s : State) (n : Nat), (∀ late, s.dueSlice ≠ some (n, late)) → exec (.sliceSwitch n) s = .next s)

/-- R199 to R203, R348: a save, once nothing of the context is in flight, writes its groups' blocks, frees their places and leaves
the context saved; a restore brings a group back on a core that fits, with the registers that its block holds (one that waits at an
`mbar` translates its word first, and is not in this statement); one whose blocks fail their checks is refused with a record;
containment ends a context's groups and leaves memory and every other group as they were. What a save
keeps outside its area, the flow that it writes of a group, the record of a refusal and the end of a killed context's grids are log entry
65. -/
def Obligations.SaveRestoreAndKill : Prop :=
  (∀ (s : State) (c : Nat),
    let e : Instr := .preemption c
    let cmd := (s.ctx c).cmd
    let ts := s.saveTeams c
    let p := s.pauseTeams ts
    (cmd ≠ 1 → cmd ≠ 2 → exec e s = .next s) ∧
    (cmd = 1 ∨ cmd = 2 → (∃ t ∈ ts, p.teamStill t = false) → exec e s = .next (p.later e)) ∧
    (cmd = 1 ∨ cmd = 2 → (∀ t ∈ ts, p.teamStill t = true) → ∃ t, exec e s = .next t ∧ t.ctxState c = 2 ∧
      (t.ctx c).cmd = (if cmd = 2 ∧ s.outOfGang c = false then 3 else 0) ∧
      (∀ k ∈ t.groups, k.2.team ∉ ts) ∧ (∀ k ∈ t.teams, k.1 ∉ ts) ∧
      (∀ k ∈ s.groups, k.2.team ∉ ts → k ∈ t.groups) ∧
      (∃ v, Tab.find? c t.hub.saved = some v ∧ (∀ k ∈ s.teams, k.1 ∈ ts → k ∈ v.teams) ∧
        ∀ k ∈ (p.leaveGone ts).groups, k.2.team ∈ ts → (k.1, k.2.asSaved) ∈ v.groups) ∧
      ∀ (t1 g : Nat) (x : Machine.Group), ts = [t1] → s.groups = [(g, x)] → x.team = t1 → x.ctx = c → (∃ tm, s.teams = [(t1, tm)]) →
        s.hub.mbarGone = [] → s.sys.migs = [] →
        let pa := (s.reg (0x10000050010 + 128 * c)).toNat + s.groupOffset g
        t.load pa 8 = 8 * x.savedFlow.pc.toNat ∧ ∀ n < 64, t.load (pa + 0x200 + 8 * n) 8 = (x.sreg n).toNat)) ∧
  (∀ (s : State) (c core slot g0 t1 cl : Nat) (v : Saved) (x : Machine.Group) (tm : Team) (k : Cluster),
    let e : Instr := .contextRestore c [core]
    let pa := (s.reg (0x10000050010 + 128 * c)).toNat + v.groupAt x
    let key := core * 64 + slot
    Tab.find? c s.hub.saved = some v → (s.ctx c).cmd = 3 → s.hub.gang = none → v.clusters = [(cl, k)] → k.teams = [t1] → k.cores.length = 1 →
      v.teams = [(t1, tm)] → v.groups = [(g0, x)] → x.team = t1 → (∀ i va n a b, x.sched.susp ≠ .mbar i va n a b true none) → v.engs = [] →
        v.words = [] → v.replay = [] → s.sys.engs = [] → s.sys.migs = [] →
      (s.restoreOk c v = false → ∃ t, exec e s = .next t ∧ t.groups = s.groups ∧ (t.ctx c).cmd = 0) ∧
      (s.restoreOk c v = true → s.clusterPlaces v k = [] → exec e s = .next s) ∧
      (s.restoreOk c v = true → [core] ∈ s.clusterPlaces v k → (s.freeSlots core).head? = some slot → ∃ t, exec e s = .next t ∧
        t.mem = s.mem ∧ t.ctxState c = 1 ∧ (t.ctx c).cmd = 0 ∧ Tab.find? c t.hub.saved = none ∧
        (let y := t.grp key
         y.team = t1 ∧ y.core = core ∧ y.slot = slot ∧ y.idx = x.idx ∧ y.ctx = x.ctx ∧ y.flow.pc = x.flow.pc ∧ y.flow.stack = x.flow.stack ∧
         y.trap = x.trap ∧ y.sched.paused = false ∧ y.sched.since = s.tick ∧
         ∀ n < 61, y.sreg n = BitVec.ofNat 64 (s.load (pa + 0x200 + 8 * n) 8)) ∧
        ∀ j, j ≠ key → t.grp j = s.grp j)) ∧
  (∀ (s : State) (c : Nat), (s.groups.map Prod.fst).Nodup →
    let mine := fun (t : Nat) => ∃ e ∈ s.teams, e.2.ctx = c ∧ e.1 = t
    ∃ t, exec (.contextKill c) s = .next t ∧ t.mem = s.mem ∧ t.ctxState c = 3 ∧ (t.ctx c).cmd = 0 ∧
      (∀ k, s.hasGrp k = true → mine (s.grp k).team → t.hasGrp k = false) ∧
      (∀ k, s.hasGrp k = true → ¬ mine (s.grp k).team → t.grp k = s.grp k) ∧
      (∀ e ∈ t.teams, e.2.ctx ≠ c) ∧ (∀ j ∈ t.hub.grids, j.ctx ≠ c))

/-! ## Counters, activity records, the order log, freezing -/

/-- R383: the events of a tick are added as the tick ends; a write of a counter with KEEP changes its flags only, and one that clears EN
still lets this tick's events count; one without sets its count, and this tick's events are then not counted. A read gives the count at
the start of its tick, and OVF with this tick's events; it is answered as the tick ends (log entry 102). The counts of `counterTick`
come from outside (log entry 109). -/
def Sys2Proof.Spec.UnitCounters : Prop :=
  (∀ (s : State) (u k n : Nat), Machine.counterAt (Machine.counterAddr u k - 0x10000000000) = some (u, k) → k ∉ Machine.ownCounters →
    ∃ t, exec (.counterTick u k n) s = .next t ∧ t.mem = s.mem ∧ t.groups = s.groups ∧ t.mgmt = s.mgmt ∧
      ∀ a, Tab.get 0 a t.dbg.counts = Tab.get 0 a s.dbg.counts + (if a = Machine.counterAddr u k then n else 0)) ∧
  (∀ (s : State) (u k : Nat) (v : Word), Machine.counterAt (Machine.counterAddr u k - 0x10000000000) = some (u, k) →
    let a := Machine.counterAddr u k
    let old := s.reg a
    ∃ t, exec (.counterWrite u k v) s = .next t ∧ t.mem = s.mem ∧ t.groups = s.groups ∧ (∀ b, b ≠ a → t.reg b = s.reg b) ∧
      (t.reg a).extractLsb' 50 2 = v.extractLsb' 50 2 ∧
      (t.reg a).extractLsb' 48 2 = old.extractLsb' 48 2 &&& ~~~v.extractLsb' 48 2 ∧
      (t.reg a).extractLsb' 0 48 = (if v.getLsbD 62 then old.extractLsb' 0 48 else v.extractLsb' 0 48) ∧
      (v.getLsbD 62 = false → Tab.find? a s.dbg.reprog = none → t.progOf a = some (old.toNat + 2 ^ 64)) ∧
      (∀ r, v.getLsbD 62 = false → s.progOf a = some r → t.progOf a = some r) ∧
      (v.getLsbD 62 = true → (s.progOf a = none → t.progOf a = none) ∧ (old.getLsbD 50 = true → v.getLsbD 50 = false → t.counterOn a = true) ∧
        (old.getLsbD 50 = v.getLsbD 50 → t.dbg = s.dbg))) ∧
  (∀ (s : State) (a : Nat), Tab.find? a s.dbg.reprog = none → (s.reg a).getLsbD 50 = true →
    let r := (s.counterRead a).1
    let n := Tab.get 0 a s.dbg.counts
    r.extractLsb' 0 48 = (s.reg a).extractLsb' 0 48 ∧ r.getLsbD 49 = (s.reg a).getLsbD 49 ∧
      r.getLsbD 48 = ((s.reg a).getLsbD 48 || decide (2 ^ 48 ≤ ((s.reg a).extractLsb' 0 48).toNat + n))) ∧
  (∀ (s : State) (a v : Nat), s.progOf a = some v → ((s.counterRead a).1.extractLsb' 0 48).toNat = v % 2 ^ 48 ∧ (s.counterRead a).2 = s) ∧
  (∀ (s : State) (a n : Nat), Tab.get 0 a s.dbg.counts = n → Tab.find? a s.dbg.reprog = none → (s.reg a).getLsbD 50 = true →
    (s.reg a).getLsbD 51 = false →
      let c := ((s.reg a).extractLsb' 0 48).toNat + n
      let t := s.counterClose a
      ((t.reg a).extractLsb' 0 48).toNat = c % 2 ^ 48 ∧ (t.reg a).getLsbD 48 = ((s.reg a).getLsbD 48 || decide (2 ^ 48 ≤ c)))

/-- R349, R386 to R388, R396: a write of ACTK holds at once and turns the period at a common tick at least 1,024 ticks later; BASE, LOG2 and
SIZE writes set HEAD and TAIL to 0; a read of a count of drops leaves
only what was added in its own tick; a ring with room latches its interval, which is then written and HEAD
moves past it; a ring without room drops the interval and counts it; which dies and streams
there are, by BOOTSTAT.DIES and by ring, is log entry 76; RRCFG sets HEAD and the grid count to 0. -/
def Sys2Proof.Spec.RingsAndActivity : Prop :=
  (∀ (s : State) (v : Word), ∃ t k, exec (.actkWrite v) s = .next t ∧ t.mem = s.mem ∧ t.groups = s.groups ∧
    (t.reg 0x10000242000).getLsbD 0 = v.getLsbD 0 ∧
    ((t.reg 0x10000242000).extractLsb' 1 5).toNat = (let l := (v.extractLsb' 1 5).toNat; if 12 ≤ l ∧ l ≤ 30 then l else 12) ∧
    t.dbg.actk = some (k, t.reg 0x10000242000) ∧ s.tick.toNat + 1024 ≤ k ∧ t.dbg.actNow = s.dbg.actNow ∧
    k % 2 ^ (max (s.dbg.actNow.extractLsb' 1 5).toNat ((t.reg 0x10000242000).extractLsb' 1 5).toNat) = 0) ∧
  (∀ (s : State) (r k : Nat) (v : Word), r < 9 →
    let a := 0x10000242040 + 64 * r
    ∃ t, exec (.activityRingConfigWrite r k v) s = .next t ∧ t.mem = s.mem ∧ t.groups = s.groups ∧
      (k = 0 ∨ k = 1 → t.reg (a + 16) = 0 ∧ t.reg (a + 24) = 0) ∧
      (k = 0 → t.reg a = (s.reg a &&& ~~~0x000FFFFFFFFFF000) ||| (v &&& 0x000FFFFFFFFFF000)) ∧
      (k = 3 → (t.reg (a + 24)).extractLsb' 0 20 = v.extractLsb' 0 20 ∧ t.reg a = s.reg a)) ∧
  (∀ (s : State) (r : Nat), r < 9 → exec (.activityDropRead r) s =
    .next (s.setReg (0x10000242060 + 64 * r) (s.hw (0x10000242060 + 64 * r)))) ∧
  (∀ (s : State), exec .eventQueueDropRead s = .next (s.setReg 0x10000014020 (s.hw 0x10000014020))) ∧
  (∀ (s : State) (size : Bool) (v : Word), ∃ t, exec (.eventQueueConfigWrite size v) s = .next t ∧ t.mem = s.mem ∧ t.groups = s.groups ∧
    t.reg 0x10000014010 = 0 ∧ t.reg 0x10000014018 = 0 ∧
    (size = false → t.reg 0x10000014000 = (s.reg 0x10000014000 &&& ~~~0x000FFFFFFFFFF000) ||| (v &&& 0x000FFFFFFFFFF000)) ∧
    (size = true → ((t.reg 0x10000014008).extractLsb' 0 5).toNat =
      (let l := (v.extractLsb' 0 5).toNat; if 4 ≤ l ∧ l ≤ 16 then l else 4))) ∧
  (∀ (s : State), s.actInterval = none → exec .activityLatch s = .next s) ∧
  (∀ (s : State) (n r : Nat), s.actInterval = some n → s.tick.toNat % n = 0 → r = 8 ∨ (r < 8 ∧ (s.reg 0x10000272000).getLsbD (8 + r) = true) →
    let due := (s.ringRoom r < (Machine.ringUnits r).length ∨ Tab.find? r s.dbg.latched ≠ none)
    ∃ t, exec .activityLatch s = .next t ∧ t.mem = s.mem ∧ t.groups = s.groups ∧
      (due → Tab.get false r t.dbg.lost = true ∧
        ((t.reg (0x10000242060 + 64 * r)).toNat % 2 ^ 32) = ((s.reg (0x10000242060 + 64 * r)).toNat % 2 ^ 32 + 1) % 2 ^ 32) ∧
      (¬ due → ∃ ws, Tab.find? r t.dbg.latched = some ((Machine.ringUnits r).length, ws) ∧
        Instr.activityRingWrite r ∈ t.pending)) ∧
  (∀ (s : State) (r n : Nat) (ws : List Word),
    (Tab.find? r s.dbg.latched = none → exec (.activityRingWrite r) s = .next s) ∧
    (Tab.find? r s.dbg.latched = some (n, ws) → ∃ t, exec (.activityRingWrite r) s = .next t ∧ t.groups = s.groups ∧
      Tab.find? r t.dbg.latched = none ∧ Tab.get false r t.dbg.lost = false ∧
      (t.reg (0x10000242050 + 64 * r)).toNat =
        ((s.reg (0x10000242050 + 64 * r)).toNat % 2 ^ 20 + n) % 2 ^ ((s.reg (0x10000242048 + 64 * r)).toNat % 32) % 2 ^ 64)) ∧
  (∀ (s : State) (c : Nat) (v : Word), c < 64 →
    let a := 0x10000251000 + 64 * c
    ∃ t, exec (.rrcfgWrite c v) s = .next t ∧ t.mem = s.mem ∧ t.groups = s.groups ∧ t.reg (a + 24) = 0 ∧ (t.replayOf c).grids = 0 ∧
      (t.reg a).extractLsb' 0 2 = (if v.extractLsb' 0 2 = 3#2 then 0 else v.extractLsb' 0 2) ∧
      (t.reg a).getLsbD 2 = ((s.reg a).getLsbD 2 && (!v.getLsbD 2 || (s.hw a).getLsbD 2)))

/-- Counters, activity intervals and their rings: the parts above together. -/
def Obligations.CountersRingsAndActivity : Prop := Spec.UnitCounters ∧ Spec.RingsAndActivity

/-- R392 to R395, R397, R398: a freeze is requested, comes 64 ticks later once every unit rests, and ends with RESUME; a dump, while frozen,
sets DUMPED; with STOPEN the named tick stops the package, but for one that S or EN was written in; an open chunk idle for 4,096 ticks is written to the ring; an operation held
1,000,000 ticks at a gate frees its unit, and its group diverges when it passes, with its word named, as does one that came after its
unit's chunks were used up. -/
def Obligations.FreezeDumpAndTimeouts : Prop :=
  (∀ (s : State), s.dbg.frozen = false → s.dbg.freeze = none → ∃ t q, exec .freeze s = .next t ∧ t.mem = s.mem ∧ t.groups = s.groups ∧
    t.dbg.freeze = some q ∧ q.cause = 1 ∧ q.tick = s.tick.toNat ∧ t.reg 0x10000250018 = BitVec.ofNat 64 (s.tick.toNat + 64)) ∧
  (∀ (s : State), s.dbg.frozen = true → exec .freeze s = .next s) ∧
  (∀ (s : State),
    (s.dbg.frozen = true ∨ s.freezeDue = false → exec .freezeStop s = .next s) ∧
    (s.dbg.frozen = false → s.freezeDue = true → s.atRest = false → exec .freezeStop s = .next (s.later .freezeStop)) ∧
    (s.dbg.frozen = false → s.freezeDue = true → s.atRest = true →
      exec .freezeStop s = .next { s with dbg := { s.dbg with frozen := true, frozenTicks := 0 } })) ∧
  (∀ (s : State) (k : Nat), s.dbg.frozen = true → s.dbg.resumeAt = some k →
    (s.tick.toNat < k → exec .resume s = .next s) ∧
    (k ≤ s.tick.toNat → ∃ t, exec .resume s = .next t ∧ t.mem = s.mem ∧ t.groups = s.groups ∧ t.dbg.frozen = false ∧ t.dbg.freeze = none ∧
      t.pending = s.pending ++ s.dbg.later ∧ t.sys = s.sys)) ∧
  (∀ (s : State), s.dbg.frozen = false ∨ s.dbg.resumeAt = none → exec .resume s = .next s) ∧
  (∀ (s : State),
    (s.dbg.frozen = false → exec .dump s = .next s) ∧
    (s.dbg.frozen = true → ∃ t, exec .dump s = .next t ∧ t.groups = s.groups ∧ t.teams = s.teams ∧
      (t.reg 0x10000250010).getLsbD 36 = true ∧ t.dbg = s.dbg ∧
      (s.annex = [] → t.load (s.reg 0x10000250038).toNat 8 = 0))) ∧
  (∀ (s : State),
    let due := (s.reg 0x10000250030).getLsbD 0 = true ∧ s.reg 0x10000250028 = s.tick ∧ 0x10000250028 ∉ s.dbg.sw ∧ 0x10000250030 ∉ s.dbg.sw
    (due → exec .stopOnTick s = .next { s with dbg := { s.dbg with stopped := true } }) ∧ (¬ due → exec .stopOnTick s = .next s)) ∧
  (∀ (s : State) (c u : Nat) (k : Machine.Chunk), s.dbg.open_.find? (fun k => decide (k.ctx = c ∧ k.unit = u)) = some k →
    let a := 0x10000251000 + 64 * c
    let size := 2 ^ ((s.reg (a + 16)).toNat % 32)
    let head := (s.reg (a + 24)).toNat % size
    (s.tick.toNat < k.touched + 4096 → exec (.orderChunkTimeout c u) s = .next s) ∧
    (k.touched + 4096 ≤ s.tick.toNat → s.rrRoom c 1 = true → s.sys.migs = [] → ∃ t, exec (.orderChunkTimeout c u) s = .next t ∧ t.groups = s.groups ∧
      k ∉ t.dbg.open_ ∧ (t.reg (a + 24)).toNat = (head + 1) % size % 2 ^ 64 ∧
      t.load ((s.reg (a + 8)).toNat + 8 * head) 8 = (k.count * 2 ^ 49 + k.unit * 2 ^ 39 + k.ident) % 2 ^ 64)) ∧
  (∀ (s : State) (c g : Nat), (∀ h ∈ (s.replayOf c).held, h.grp = g → h.mode = 2 → h.late = false → s.tick.toNat < h.tick + 1000000) →
    exec (.orderGateTimeout c g) s = .next s) ∧
  (∀ (s : State) (c g : Nat) (h : Machine.HeldOp), h ∈ (s.replayOf c).held → h.grp = g → h.mode = 2 → h.late = false →
    h.tick + 1000000 ≤ s.tick.toNat → ∃ t, exec (.orderGateTimeout c g) s = .next t ∧ t.mem = s.mem ∧ t.groups = s.groups ∧
      h.unit ∈ (t.replayOf c).freeUnits ∧ { h with late := true } ∈ (t.replayOf c).held ∧
      (t.reg (0x10000251000 + 64 * c)).getLsbD 2 = true) ∧
  (∀ (s : State) (o : Machine.LogOp) (h : Machine.HeldOp), (s.replayOf o.ctx).held.find? o.is = some h → s.owns o.info = true →
    let t := s.passGate o
    (∀ k ∈ (t.replayOf o.ctx).held, o.is k = false) ∧
    (h.late = false → h.used = false → t.groups = s.groups) ∧
    (h.late = true ∨ h.used = true → ∃ q, (t.grp o.info.grp).pending = (s.grp o.info.grp).pending ++ [q] ∧ q.cause = 0x3A ∧
      q.info = (if h.late then 2 else 3) ∧ q.addr = (if h.late then h.addr else 0) ∧ q.pc = o.info.pc ∧ q.next = false ∧
      q.lanes = allLanes))

/-! ## The package at its boundaries -/

/-- R353, R354, R422 to R424: a register of the management space takes a write in its writable bits, and a misaligned write has no
effect; the host's oldest access is performed at its mailbox, at a register, or in device memory through an open window; one to a
function that is off is dropped, one through a closed window is recorded; a Function Level Reset kills the contexts of the partition
and resets the function's registers. The sizes and alignments that the mailbox and BAR2 take, that bytes are performed one by one, and
that the contexts killed are those with V 1, are log entry 77. -/
def Obligations.HostAndRegisterAccesses : Prop :=
  (∀ (s : State) (c : Nat) (v : Word), c < 64 →
    let a := 0x10000050000 + 128 * c
    let put := fun (o : Nat) (m : Word) =>
      exec (.registerWrite (0x50000 + 128 * c + o) v) s = .next (s.setReg (a + o) ((s.reg (a + o) &&& ~~~m) ||| (v &&& m)))
    put 0 0x7FF ∧ put 8 0x000FFFFFFFFFC000 ∧ put 16 0x000FFFFFFFFFF000 ∧ put 24 0x01FFFFFFFFFFF000 ∧ put 32 0x000FFFFFFFFFF000) ∧
  (∀ (s : State) (a : Nat) (v : Word), a % 8 ≠ 0 → exec (.registerWrite a v) s = .next s) ∧
  (∀ (s : State) (f bar off : Nat) (data : List Byte) (rest : List Input),
    let n := data.length
    let u := { s with inputs := rest }
    let on := (s.reg (0x10000270000 + 256 * f)).getLsbD 0 = true ∧ f ≤ 16
    let ctx := (s.reg (0x10000270000 + 256 * f)).toNat / 2 % 64
    let box := 0x10000400000 + 0x100000 * f
    let w := s.reg (0x10000270008 + 256 * f + 8 * (off / 2 ^ 32 % 16))
    let pa := (w.extractLsb' 32 20).toNat * 2 ^ 32 + off % 2 ^ 32
    s.inputs = .hostWrite f bar off data :: rest →
      (¬ on → exec .hostInboundWrite s = .next u) ∧
      (on → bar = 0 → off + n ≤ 0x100000 → 0x40 < off ∨ off + n ≤ 0x40 → s.permitted 5 ctx 6 .write (box + off) n none = true →
        ∃ t, exec .hostInboundWrite s = .next t ∧ t.inputs = rest ∧ t.groups = s.groups ∧ t.mgmt = s.mgmt ∧
          ∀ a, t.byte a = if box + off ≤ a ∧ a < box + off + n then data.getD (a - (box + off)) 0 else s.byte a) ∧
      (on → f = 0 → bar = 2 → n = 8 → off % 8 = 0 → off < 0x400000 → s.plat.recovery = false →
        s.permitted 5 ctx 6 .write (0x10000000000 + off) 8 none = true →
        exec .hostInboundWrite s = .next (u.mgmtWrite off (BitVec.ofNat 64 (numOfBytes data)))) ∧
      (on → bar = 4 → off + n ≤ 2 ^ 36 → w.getLsbD 0 = false → ∃ t, exec .hostInboundWrite s = .next t ∧ t.inputs = rest ∧
        t.groups = s.groups ∧ t = u.postCtxFault ctx (f + 1) 0x11 7 0xFFFF) ∧
      (∀ b : Byte, on → bar = 4 → data = [b] → off < 2 ^ 36 → w.getLsbD 0 = true → pa < 0x10000000000 → s.tagging = false →
        pa % 0x2000000000 < 0x1800000000 → s.sys.migs = [] → s.permitted 0 ctx 6 .write pa 1 none = true →
        ∃ t, exec .hostInboundWrite s = .next t ∧ t.inputs = rest ∧ t.groups = s.groups ∧
          ∀ a, t.byte a = if a = pa then b else s.byte a)) ∧
  (∀ (s : State) (f bar off n : Nat) (rest : List Input),
    let on := (s.reg (0x10000270000 + 256 * f)).getLsbD 0 = true ∧ f ≤ 16
    let ctx := (s.reg (0x10000270000 + 256 * f)).toNat / 2 % 64
    let box := 0x10000400000 + 0x100000 * f
    let w := s.reg (0x10000270008 + 256 * f + 8 * (off / 2 ^ 32 % 16))
    let pa := (w.extractLsb' 32 20).toNat * 2 ^ 32 + off % 2 ^ 32
    let answers := fun (r : Option (List Byte)) => ∃ t, exec .hostInboundRead s = .next t ∧ t.inputs = rest ∧ t.groups = s.groups ∧
      t.mem = s.mem ∧ t.plat.reads = s.plat.reads ++ [r]
    s.inputs = .hostRead f bar off n :: rest →
      (¬ on → answers none) ∧
      (on → bar = 0 → off + n ≤ 0x100000 → s.permitted 5 ctx 6 .read (box + off) n none = true →
        (f ≠ 0 ∨ off + n ≤ 0x4000 ∨ 0x5000 ≤ off → answers (some (s.bytes (box + off) n))) ∧
        (f = 0 → 0x4000 ≤ off → off + n ≤ 0x5000 → answers (some ((List.range n).map (fun k => Config.certByte (off + k - 0x4000)))))) ∧
      (on → bar = 4 → off % 2 ^ 32 + n ≤ 2 ^ 32 → off + n ≤ 2 ^ 36 → 0 < n → w.getLsbD 0 = true → pa + n ≤ 0x10000000000 → s.tagging = false →
        pa % 0x2000000000 + n ≤ 0x1800000000 → s.sys.migs = [] → s.sys.poison = [] →
        (∀ k < n, s.permitted 0 ctx 6 .read (pa + k) 1 none = true) → answers (some (s.bytes pa n)))) ∧
  (∀ (s : State) (f : Nat) (rest : List Input), s.inputs = .reset f :: rest → f ≤ 16 → ∃ t, exec .functionLevelReset s = .next t ∧
    t.inputs = rest ∧ t.mem = s.mem ∧ t.reg (0x10000270000 + 256 * f) = mgmtReset (0x10000270000 + 256 * f) ∧
    (∀ k < 16, t.reg (0x10000270008 + 256 * f + 8 * k) = 0) ∧
    ∀ c < 64, (s.reg (0x10000050000 + 128 * c)).getLsbD 0 = true → f = 0 ∨ s.ctxPart c = f → t.ctxState c = 3)

/-- R425, R426: RETRAIN trains an enabled port anew, with no lane retired (log entry 50); training ends with the port up at the width that the lanes allow
which pass and are not retired, those that fail being retired (log entry 50), and at a rate, or down; a retired lane lowers
the width to 4, 2 or 1, and with none left the port is down; a CRC error counts on the port's die. -/
def Sys2Proof.Spec.SordelPorts : Prop :=
  ∀ (s : State) (p : Nat) (rest : List Input),
    let reg := 0x10000260000 + 64 * p
    let st := fun (t : State) => (t.reg reg).extractLsb' 2 2
    let width := fun (t : State) => (t.reg reg).extractLsb' 4 3
    let rate := fun (t : State) => (t.reg reg).extractLsb' 7 2
    let bad := fun (t : State) => (t.reg reg).extractLsb' 9 4
    let en := (s.reg reg).getLsbD 0 = true
    let same := fun (t : State) => t.groups = s.groups ∧ (t.reg reg).getLsbD 0 = (s.reg reg).getLsbD 0
    p < 16 →
      (en → ∃ t, exec (.portRetrain p) s = .next t ∧ same t ∧ t.mem = s.mem ∧ st t = 1 ∧ width t = 0 ∧ bad t = 0) ∧
      (¬ en → exec (.portRetrain p) s = .next s) ∧
      (∀ l r, s.inputs = .trained p l r :: rest → en → (st s).toNat < 2 →
        let good := BitVec.ofNat 4 l &&& ~~~bad s
        let n := ((List.range 4).filter (fun k => good.getLsbD k)).length
        let w := if 4 ≤ n then 4 else if 2 ≤ n then 2 else n
        (0 < w → r < 3 → ∃ t, exec .portTrainingEnd s = .next t ∧ same t ∧ t.inputs = rest ∧ st t = 2 ∧ (width t).toNat = w ∧
          (rate t).toNat = r ∧ bad t = bad s ||| ~~~BitVec.ofNat 4 l ∧ (w = 4 → r = 0 → t.mem = s.mem)) ∧
        (w = 0 ∨ 3 ≤ r → ∃ t, exec .portTrainingEnd s = .next t ∧ same t ∧ t.inputs = rest ∧ st t = 0 ∧ width t = 0)) ∧
      (∀ l, s.inputs = .laneLost p l :: rest → l < 4 → st s = 2 →
        let b := bad s ||| (1#4 <<< l)
        let left := ((List.range 4).filter (fun k => !b.getLsbD k)).length
        let w := min (width s).toNat (if 4 ≤ left then 4 else if 2 ≤ left then 2 else left)
        ∃ t, exec .laneRetire s = .next t ∧ same t ∧ t.inputs = rest ∧ bad t = b ∧ (width t).toNat = w ∧
          (st t = if w = 0 ∧ (width s).toNat ≠ 0 then 0 else 2)) ∧
      (s.inputs = .portLost p :: rest →
        (st s = 2 → ∃ t, exec .portDown s = .next t ∧ same t ∧ t.inputs = rest ∧ st t = 0 ∧ width t = 0) ∧
        (st s ≠ 2 → exec .portDown s = .next { s with inputs := rest })) ∧
      (s.inputs = .crcError p :: rest →
        exec .linkReplay s = .next (State.count { s with inputs := rest } (0x340 + p / 2) 0x52 1))

/-- R15, R379, R427, R434, R435: the supply, the power limit, the time servo's source, whose updates keep its bound (as log entry 92
reads it), the debug token and attestation. That a report is made from step 3 on and what it signs are log entry 14; the
servo's result and the hysteresis of power are log entry 78. -/
def Sys2Proof.Spec.SupplyTimeAndAttestation : Prop :=
  ∀ (s : State) (rest : List Input),
    let u := { s with inputs := rest }
    (∀ d, d < 8 → s.inputs = .droop d :: rest →
      exec .supplyDroop s = .next { u with plat := { s.plat with droop := Tab.put d true s.plat.droop } }) ∧
    (∀ d, s.inputs = .recovered d :: rest → ∃ t, exec .supplyRecovery s = .next t ∧ t.mem = s.mem ∧ t.groups = s.groups ∧ t.inputs = rest ∧
      Tab.find? d t.plat.droop = none ∧ ∀ k, k ≠ d → Tab.find? k t.plat.droop = Tab.find? k s.plat.droop) ∧
    (∀ mw, s.inputs = .power mw :: rest →
      let limit := (s.reg 0x10000280000).toNat % 4096 * 1000
      ∃ t, exec .powerCap s = .next t ∧ t.mem = s.mem ∧ t.groups = s.groups ∧ t.inputs = rest ∧
        (t.reg 0x10000280008).toNat = min 4095 (mw / 1000) ∧ (limit < mw → t.plat.capped = true) ∧ (mw < limit → t.plat.capped = false)) ∧
    (∀ k, s.inputs = .token k :: rest → ∃ t, exec .debugToken s = .next t ∧ t.mem = s.mem ∧ t.groups = s.groups ∧ t.inputs = rest ∧
      (t.plat.scanOpen = true ↔ s.plat.scanOpen = true ∨ Config.tokenOk k = true)) ∧
    (∀ m r, s.inputs = .ptp m r :: rest → (s.reg 0x10000015000).getLsbD 0 = false ∨ m ≠ s.plat.ptpSel → exec .ptpMessage s = .next u) ∧
    (∀ atick asec ans rate errb, s.inputs = .ptp s.plat.ptpSel (.update atick asec ans rate errb) :: rest → (s.reg 0x10000015000).getLsbD 0 = true →
      ans < 2 ^ 30 → rate < 2 ^ 32 → errb < 65536 →
      s.ptpOk atick (asec &&& 0x0000FFFFFFFFFFFF) (BitVec.ofNat 64 ans) (BitVec.ofNat 64 rate) = false → exec .ptpMessage s = .next u) ∧
    (∀ atick asec ans rate errb, s.inputs = .ptp s.plat.ptpSel (.update atick asec ans rate errb) :: rest → (s.reg 0x10000015000).getLsbD 0 = true →
      ans < 2 ^ 30 → rate < 2 ^ 32 → errb < 65536 →
      s.ptpOk atick (asec &&& 0x0000FFFFFFFFFFFF) (BitVec.ofNat 64 ans) (BitVec.ofNat 64 rate) = true → ∃ t, exec .ptpMessage s = .next t ∧
        t.mem = s.mem ∧ t.groups = s.groups ∧
        t.reg 0x10000015008 = atick ∧ t.reg 0x10000015010 = asec &&& 0x0000FFFFFFFFFFFF ∧ (t.reg 0x10000015018).toNat = ans ∧
        (t.reg 0x10000015020).toNat = rate ∧ (t.reg 0x10000015000).getLsbD 0 = true ∧
        ((t.reg 0x10000015000).getLsbD 1 = true ↔ errb ≤ 100) ∧ ((t.reg 0x10000015000).extractLsb' 16 16).toNat = errb) ∧
    (s.inputs = .ptp s.plat.ptpSel .lost :: rest → (s.reg 0x10000015000).getLsbD 0 = true → ∃ t, exec .ptpMessage s = .next t ∧ t.mem = s.mem ∧
      (t.reg 0x10000015000).getLsbD 1 = false ∧ (t.reg 0x10000015000).getLsbD 0 = true) ∧
    ((s.reg 0x10000272000).toNat % 16 < 3 → exec .attestationRequest s = .next s) ∧
    (3 ≤ (s.reg 0x10000272000).toNat % 16 → ∃ t, exec .attestationRequest s = .next t ∧ t.mem = s.mem ∧ t.groups = s.groups ∧
      t.plat.attest = s.plat.attest + 1 ∧ Instr.attestationReport ∈ t.pending) ∧
    (s.plat.attest = 0 → exec .attestationReport s = .next s) ∧
    (0 < s.plat.attest →
      let box := 0x10000400000
      let body := s.bytes box 64 ++ bytesOfNum 8 s.tick.toNat ++ sha512 s.plat.rom ++ s.plat.digest ++
        sha512 (s.plat.bootcfg ++ bytesOfNum 8 (s.reg 0x10000272000).toNat ++ bytesOfNum 8 (s.reg 0x10000052040).toNat) ++
        sha512 s.plat.program
      ∃ t, exec .attestationReport s = .next t ∧ t.groups = s.groups ∧ t.plat.attest = s.plat.attest - 1 ∧
        t.byte (box + 0x40) = 2 ∧ t.bytes (box + 0x1000) body.length = body ∧
        ∀ a, a ≠ box + 0x40 → a < box + 0x1000 ∨ box + 0x1000 + body.length + 512 ≤ a → t.byte a = s.byte a)

/-- Sordel ports, supply, power limit, time and attestation: the parts above together. -/
def Obligations.PortsSupplyTimeAndAttestation : Prop := Spec.SordelPorts ∧ Spec.SupplyTimeAndAttestation

/-- R428 to R433: a package reset starts from reset memory and registers; the host keeps its own memory. Where the image's layout
or its signature fails, or BOOTCFG does, the package is in recovery with the step and code of the failure and no group; where every check passes the segments
of the control program are in memory, the dies that passed are live, and one supervisor group of context 0 stands at the entry on
control core 0. That the reset clears the package's memory is log entry 79, and that an unwritten byte reads 0 is log entry 1. -/
def Obligations.PackageStarts : Prop :=
  ∀ (s : State),
    let p := s.plat
    let cfg := p.flashBytes p.image.cfgOff 256
    let prog := p.flashBytes p.image.cpOff p.image.cpLen
    let dies := p.goodDies &&& p.goodLinks
    let stops := fun (step fail : Nat) => ∃ t, exec .packageReset s = .next t ∧ t.tick = 0 ∧
      t.mem = s.mem.filter (fun c => decide (0x8000000000000 ≤ c.1)) ∧ t.groups = [] ∧ t.teams = [] ∧
      t.dbg = .reset ∧ t.plat.recovery = true ∧ t.inputs = s.inputs ∧ (t.reg 0x10000272000).toNat % 256 = step + 16 * fail
    (p.layoutOk = false → stops 1 2) ∧
    (p.layoutOk = true → p.signatureOk = false → stops 1 1) ∧
    (p.layoutOk = true → p.signatureOk = true → cfgOk cfg = false → stops 2 2) ∧
    (∀ (pa : Nat) (data : List Byte), p.layoutOk = true → p.signatureOk = true → cfgOk cfg = true → p.goodDies = 0xFF → p.goodLinks = 0xFF →
      (cfgWord cfg 0).getLsbD 0 = false → segments (prog.length / 16 + 1) prog = some [(pa, data)] →
      0 < data.length → pa % 0x2000000000 + data.length ≤ 0x1800000000 → pa < 0x10000000000 →
      (cfgWord cfg 8).extractLsb' 8 7 = 0#7 → ∃ t, exec .packageReset s = .next t ∧ t.tick = 0 ∧ t.plat.recovery = false ∧
        t.repl.live = dies ∧ (t.reg 0x10000272000).toNat % 256 = 8 ∧
        (∀ a, t.byte a = if pa ≤ a ∧ a < pa + data.length then data.getD (a - pa) 0 else if 0x8000000000000 ≤ a then s.byte a else 0) ∧
        t.groups.map Prod.fst = [0x3FC * 64] ∧
        let x := t.grp (0x3FC * 64)
        x.core = 0x3FC ∧ x.ctx = 0 ∧ x.sup = true ∧ x.flow.pc = (cfgWord cfg 0x30).extractLsb' 3 54 ∧ x.flow.mask = allLanes ∧
          x.sreg 3 = cfgWord cfg 0x38 ∧ (t.ctxRegs 0x3FC 0).trapVec = (cfgWord cfg 0x40).extractLsb' 3 54)

/-! ## The whole machine -/

/-- R78, R79, R81, R343: a free port takes, of the eligible groups of its core, the one of highest priority, of
equals the one eligible for longest, of those the one in the lowest slot; nothing is taken where no group is eligible or the package does
not issue. A word with an unassigned opcode is an ILLEGAL_OP trap by the first check. -/
def Obligations.RunChoiceAndUnassignedWords : Prop :=
  (∀ (s : State) (c g : Nat),
    let x := s.grp g
    let later := fun (k : Nat) => s.effPrio k < s.effPrio g ∨ (s.effPrio k = s.effPrio g ∧
      (x.sched.since.toNat < (s.grp k).sched.since.toNat ∨ (x.sched.since = (s.grp k).sched.since ∧ x.slot < (s.grp k).slot)))
    s.issuing = true → (s.groups.map Prod.fst).Nodup → (s.port c false).slot = none → (g, x) ∈ s.eligibles c →
      (∀ e ∈ s.eligibles c, e.1 ≠ g → later e.1) → ∃ t, exec (.runChoice c 0) s = .next t ∧ t.mem = s.mem ∧
        t.grp g = { x with port := some false } ∧ (∀ k, k ≠ g → t.grp k = s.grp k) ∧
        t.port c false = { slot := some x.slot, waiting := false, since := s.tick.toNat } ∧ t.focusCore = c ∧ t.focusPort = false) ∧
  (∀ (s : State) (c p : Nat), s.issuing = false ∨ 2 ≤ p → exec (.runChoice c p) s = .next s) ∧
  (∀ (s : State) (c : Nat), s.issuing = true → s.eligibles c = [] →
    exec (.runChoice c 0) s = .next { s with focusCore := c, focusPort := false }) ∧
  (∀ (s : State) (g : Nat) (w : Word), s.issuer = some g →
    let f := (s.grp g).flow
    exec (.unassignedOpcode w) s = .next (s.takeTrap g
      { cause := 0x01, info := 1, addr := 0, lanes := f.mask, pc := f.pc, resume := f.pc }))

/-- R25, R33, R78, R79, R186: before a full word makes any effect its decode checks are made, and the first that fails is its trap; an
empty source with the trap policy is a trap that names it; one with the block policy alone ends the run before the word: the path keeps
its program counter and its run offset where no path is due, and else the path that is due runs from its own address at offset 0 (R38;
its offset is log entry 81) and the path that ran is on top of the stack. The policies are stated for `iadd`, the guard that differs between lanes for `tick`, `halt` and `csrr`. -/
def Obligations.ChecksBeforeEffects : Prop :=
  (∀ (i : Instr) (f : Form) (s : State) (g : Nat) (d : DTrap), i.form = some f → s.issuer = some g → (s.grp g).dueDefs = [] →
    i.check (s.env g) = some d → exec i s = .next (s.decodeTrap g d)) ∧
  (∀ (i : Instr) (s : State) (g : Nat), i.form ≠ none → i.settlesBefore = true → s.issuer = some g → (s.grp g).dueDefs ≠ [] →
    exec i s = .next (s.settle g)) ∧
  (∀ (h : Hdr) (fn : FnInt) (d a b : Operand) (s : State) (g : Nat),
    let i : Instr := .iadd h fn d a b
    let x := s.grp g
    s.issuer = some g → x.dueDefs = [] → i.check (s.env g) = none → (h.uni = true → x.uniGuard h = .run) →
      (∀ info, x.policy i = .trap info → trapsBefore s g i 0x05 (BitVec.ofNat 64 info) 0) ∧
      (∀ n m : Fin 128, a = .v n → b = .v m → h.uni = false →
        (h.feA = true → x.isFull n.val = false → x.policy i = .trap (32 * n.val)) ∧
        (x.isFull n.val = true → h.feB = true → x.isFull m.val = false → x.policy i = .trap (1 + 32 * m.val)) ∧
        (h.feA = false → h.feB = false → x.isFull n.val = false → x.isFull m.val = true → x.policy i = .block [n.val]) ∧
        (x.isFull n.val = true → x.isFull m.val = true → x.policy i = .ok)) ∧
      (∀ need, s.hasGrp g = true → x.policy i = .block need → ∃ t, exec i s = .next t ∧ t.mem = s.mem ∧ (t.grp g).sched.need = need ∧
        (t.grp g).regs = x.regs ∧ (t.grp g).port = none ∧ (t.grp g).sched.since = s.tick ∧
        let base := if x.trap.active then x.trap.entryDepth else 0
        let now := fun (k : Nat) (e : Entry) => if base ≤ k then Spec.aged e else e
        let due := fun (k : Nat) (e : Entry) => x.flow.stack[k]? = some e ∧ e.kind = .path ∧
          (s.ctxRegs x.core x.ctx).ageLimit.toNat ≤ (now k e).age.toNat
        let y := (t.grp g).flow
        ((∀ k e, ¬ due k e) → y = { x.flow with stack := x.flow.stack.mapIdx now }) ∧
        (∀ k e, due k e →
          (∀ j e', x.flow.stack[j]? = some e' → e'.kind = .path →
            (now j e').age.toNat ≤ (now k e).age.toNat ∧ (j < k → (now j e').age.toNat < (now k e).age.toNat)) →
          y.pc = e.addr ∧ y.mask = e.mask &&& ~~~(x.flow.exited ||| x.flow.deferred) ∧ y.run = 0 ∧
          y.exited = x.flow.exited ∧ y.deferred = x.flow.deferred ∧
          y.stack.map (fun e => (e.kind, e.addr, e.mask)) =
            (x.flow.stack.eraseIdx k).map (fun e => (e.kind, e.addr, e.mask)) ++ [(.path, x.flow.pc, x.flow.mask)]))) ∧
  (∀ (h : Hdr) (d : Operand) (n : BitVec 12) (s : State) (g : Nat), (s.grp g).uniGuard h = .differ →
    (s.Stands g (.tick h d) → trapsBefore s g (.tick h d) 0x04 1 0) ∧ (s.Stands g (.halt h) → trapsBefore s g (.halt h) 0x04 1 0) ∧
    (s.Stands g (.csrr h d n) → trapsBefore s g (.csrr h d n) 0x04 1 0))

/-- R2, R65, R216: where a group on the port in focus may issue, and has no trap to take and nothing to wait for, and the eight
bytes at its program counter, as its instruction cache holds them, decode to an instruction, a step is that instruction's effect,
followed by the ticks that the step lasts; where they decode to a trap, it is that trap, after the records that settle before such a
word. An event at the head of the agenda is performed as it is. -/
def Obligations.StepRunsTheDecodedWord : Prop :=
  (∀ (s t : State) (g pa : Nat) (leaf : Word) (l : ILine),
    let x := s.grp g
    let bytes := (l.data.drop (pa % 128)).take 8
    s.agenda = [] → s.turn % 3 = 0 → s.focusGroup = some g → x.q.word = none → x.settleAfter = false → x.pendingTrap = none → s.checkHeld x = false →
      s.fetchReach x = (.ok pa leaf, t) → s.iline x.core pa = some l → bytes.length = 8 →
      (∀ i, decodeBytes (isControl x.core) bytes = .ok i →
        (∀ u, exec i t = .next u → step s = .next u.pass) ∧ (∀ f, exec i t = .fault f → step s = .fault f) ∧
        ∀ r, exec i t = .refused r → step s = .refused r) ∧
      (∀ e, decodeBytes (isControl x.core) bytes = .error e →
        step s = .next (if !x.dueDefs.isEmpty && opcodeSettles (isControl x.core) (wordOfBytes bytes) then t.settle g
          else t.decodeTrap g e).pass)) ∧
  (∀ (s : State) (e : Instr) (rest : List (Option Instr)), s.agenda = some e :: rest →
    (s.mayHappen e = true → ∀ u, exec e { s with agenda := rest } = .next u → step s = .next u.pass) ∧
    (s.mayHappen e = false → s.dbg.stopped = true → step s = .next (State.pass { s with agenda := rest }))) ∧
  (∀ (s : State), (s.dbg.stopped = true → s.pass.tick = s.tick) ∧
    (s.pace = 1 → s.dbg.stopped = false → s.pass.tick = s.tick + 1))

/-- R65 to R80: a few words, bit by bit as the encoding tables give them, and what they stand for: the words printed under R28, R197,
the waits and the `miter` example, and some more, one or two of a format. -/
def Obligations.PrintedWordsDecode : Prop :=
  let h : Hdr := { bnd := false, gn := false, gp := 7, feA := false, feB := false, feC := false, uni := false }
  let u : Hdr := { h with uni := true }
  parse false 0x1A9C400000000000 = .ok (.nop u) ∧
  parse false 0x341C400000000012 = .ok (.trap u 0x12) ∧
  parse false 0x369C400000000021 = .ok (.bkpt u 0x21) ∧
  parse false 0xB6DC400000000000 = .ok (.halt { u with bnd := true }) ∧
  parse false 0x345C400000000000 = .ok (.rte u) ∧
  parse false 0x345C400000000001 = .ok (.rteDrop u false) ∧
  parse false 0x345C400000000002 = .ok (.rteSkip u) ∧
  parse false 0x991C400000000005 = .ok (.jmark { u with bnd := true } 5) ∧
  parse false 0x1984000000000003 = .ok (.brk { h with gp := 1 } 3) ∧
  parse false 0x245C400000000209 = .ok (.fencex u .team 1 2) ∧
  parse false 0x349C610000000002 = .ok (.csrr u (.s 4) 2) ∧
  parse false 0x235C62A118400080 = .ok (.waitv u { cc := .ne, w64 := false, seg := .r, acq := 1 } (.s 10) (.s 4) 0x80) ∧
  parse false 0x319C323263C00000 = .ok (.miter h { m128 := false, ns5 := false, f16 := false } (.a 0) (.a 1) (.s 15)) ∧
  parse false 0x400306803A079200 = .ok (.pairedWord false
    { gd := .always, fe := false, op := .bin .iadd (.v 12) (.v 13) } { gd := .always, fe := false, op := .fbin .fmul (.v 15) (.v 18) })

/-- Every word that the decoder reads is the word that its instruction encodes, and every instruction that can pass its decode checks is
read back from the eight bytes of its word, with every operand and every field at every value. -/
def Obligations.DecodeAndEncodeAgree : Prop :=
  (∀ (w : Word) (i : Instr), parse false w = .ok i → encode i = some w) ∧
  (∀ (i : Instr) (w : Word), WellFormed i = true → encode i = some w → decodeBytes false (bytesOfWord w) = .ok i)

/-- The model's choice of how memory is held (log entry 1): every step keeps its canonical form. -/
def Obligations.StepsKeepMemoryCanonical : Prop := ∀ s t : State, s.Inv → step s = .next t → t.Inv

/-- A byte reads as it was last written, every other byte stands, and a number that is stored is loaded again (R2); writes keep the
canonical form. -/
def Obligations.MemoryReadsWhatWasWritten : Prop :=
  (∀ (s : State) (pa q : Nat) (b : Byte), (s.setByte pa b).byte q = (if q = pa then b else s.byte q) ∧ (s.Inv → (s.setByte pa b).Inv)) ∧
  (∀ (s : State) (pa q : Nat) (l : List Byte), (s.setBytes pa l).byte q =
    (if pa ≤ q ∧ q < pa + l.length then l.getD (q - pa) 0 else s.byte q) ∧ (s.Inv → (s.setBytes pa l).Inv)) ∧
  (∀ (s : State) (pa n x : Nat), (s.store pa n x).load pa n = x % 256 ^ n ∧ (s.store pa n x).groups = s.groups)

/-- R22, R291, R349, R368, R380, R396, R423, R427, R428: what a reset leaves: tick 0, memory with nothing listed, no group, no team, the
registers of the management space at their reset values, start-up as the first event. That a byte nothing has written reads zero
is the model's choice (log entry 1), and so is that a port is enabled and down (log entry 50; the other values no rule states are log
entry 21). -/
def Obligations.ResetLeaves : Prop :=
  let s := State.reset
  s.Inv ∧ s.tick = 0 ∧ s.groups = [] ∧ s.teams = [] ∧ (∀ pa, s.byte pa = 0) ∧ s.agenda = [some .packageReset] ∧
    s.dbg.frozen = false ∧ s.repl.live = 0 ∧ s.sys.tlbs = [] ∧ (∀ q < 128, s.qcfg q = 0) ∧ (∀ c < 64, s.ctxState c = 0) ∧
    (∀ d < 8, s.reg (0x10000020008 + 4096 * d) = 0x700) ∧ s.reg 0x10000280000 = 2600 ∧ s.reg 0x10000270000 = 1 ∧
    s.reg 0x10000015000 = 0xFFFF0000 ∧ (∀ p < 16, s.reg (0x10000260000 + 64 * p) = 1)
end

