-- ==== Sys2Proof/Laws/Tab.lean ====
section
/-!
SUPPORT. Laws/Tab.lean: reading a sparse table after a write, and the canonical form that every write keeps.
-/
namespace Sys2Proof.Tab

variable {α : Type}

/-! ### Reading after a write -/

@[simp] theorem get_nil (d : α) (k : Nat) : get d k [] = d := rfl

@[simp] theorem find?_nil (k : Nat) : find? k ([] : Tab α) = none := rfl

theorem get_put (d : α) (j k : Nat) (a : α) (t : Tab α) : get d j (put k a t) = if j = k then a else get d j t := by
  induction t with
  | nil => simp only [put, get]; grind
  | cons e t ih => simp only [put]; split <;> (try split) <;> simp only [get] <;> grind

theorem get_del (d : α) (j k : Nat) (t : Tab α) : get d j (del k t) = if j = k then d else get d j t := by
  induction t with
  | nil => simp [del, get]
  | cons e t ih => simp only [del]; split <;> simp only [get] <;> grind

theorem get_set_ne [DecidableEq α] (d d' : α) {j k : Nat} (h : j ≠ k) (a : α) (t : Tab α) :
    get d j (set d' k a t) = get d j t := by
  unfold set; split
  · rw [get_del, if_neg h]
  · rw [get_put, if_neg h]

theorem get_set [DecidableEq α] (d : α) (j k : Nat) (a : α) (t : Tab α) :
    get d j (set d k a t) = if j = k then a else get d j t := by
  unfold set; split
  · next h => rw [get_del, h]
  · rw [get_put]

@[simp] theorem get_put_self (d : α) (k : Nat) (a : α) (t : Tab α) : get d k (put k a t) = a := by simp [get_put]

@[simp] theorem get_set_self [DecidableEq α] (d : α) (k : Nat) (a : α) (t : Tab α) : get d k (set d k a t) = a := by
  simp [get_set]

theorem find?_put (j k : Nat) (a : α) (t : Tab α) : find? j (put k a t) = if j = k then some a else find? j t := by
  induction t with
  | nil => simp only [put, find?]; grind
  | cons e t ih => simp only [put]; split <;> (try split) <;> simp only [find?] <;> grind

theorem find?_del (j k : Nat) (t : Tab α) : find? j (del k t) = if j = k then none else find? j t := by
  induction t with
  | nil => simp [del, find?]
  | cons e t ih => simp only [del]; split <;> simp only [find?] <;> grind

theorem get_eq_find? (d : α) (k : Nat) (t : Tab α) : get d k t = (find? k t).getD d := by
  induction t with
  | nil => rfl
  | cons e t ih => simp only [get, find?]; split <;> simp [ih]

/-! ### The canonical form -/

theorem rising_mono {lo hi : Nat} (h : lo ≤ hi) (t : Tab α) (ht : rising hi t = true) : rising lo t = true := by
  cases t with
  | nil => rfl
  | cons e t => simp only [rising, Bool.and_eq_true, decide_eq_true_eq] at ht ⊢; exact ⟨by omega, ht.2⟩

theorem rising_put {lo k : Nat} (a : α) (t : Tab α) (hk : lo ≤ k) (ht : rising lo t = true) :
    rising lo (put k a t) = true := by
  induction t generalizing lo with
  | nil => simp [put, rising, hk]
  | cons e t ih =>
    simp only [rising, Bool.and_eq_true, decide_eq_true_eq] at ht
    simp only [put]
    split
    · simp only [rising, Bool.and_eq_true, decide_eq_true_eq]; exact ⟨hk, by omega, ht.2⟩
    · split
      · next h => subst h; simp only [rising, Bool.and_eq_true, decide_eq_true_eq]; exact ht
      · simp only [rising, Bool.and_eq_true, decide_eq_true_eq]; exact ⟨ht.1, ih (by omega) ht.2⟩

theorem rising_del {lo : Nat} (k : Nat) (t : Tab α) (ht : rising lo t = true) : rising lo (del k t) = true := by
  induction t generalizing lo with
  | nil => rfl
  | cons e t ih =>
    simp only [rising, Bool.and_eq_true, decide_eq_true_eq] at ht
    simp only [del]
    split
    · exact ih (rising_mono (by omega) t ht.2)
    · simp only [rising, Bool.and_eq_true, decide_eq_true_eq]; exact ⟨ht.1, ih ht.2⟩

theorem mem_put {e : Nat × α} (k : Nat) (a : α) (t : Tab α) (h : e ∈ put k a t) : e = (k, a) ∨ e ∈ t := by
  induction t with
  | nil => simpa [put] using h
  | cons x t ih =>
    simp only [put] at h
    split at h
    · simpa using h
    · split at h
      · simp only [List.mem_cons] at h ⊢; tauto
      · simp only [List.mem_cons] at h ⊢
        rcases h with h | h
        · tauto
        · have := ih h; tauto

theorem mem_del {e : Nat × α} (k : Nat) (t : Tab α) (h : e ∈ del k t) : e ∈ t := by
  induction t with
  | nil => exact h
  | cons x t ih =>
    simp only [del] at h
    split at h
    · exact List.mem_cons_of_mem _ (ih h)
    · simp only [List.mem_cons] at h ⊢
      rcases h with h | h
      · exact Or.inl h
      · exact Or.inr (ih h)

/-- Every write of an entry keeps the canonical form. -/
theorem wf_set [DecidableEq α] (d : α) (k : Nat) (a : α) (t : Tab α) (h : wf d t = true) : wf d (set d k a t) = true := by
  simp only [wf, Bool.and_eq_true, List.all_eq_true, decide_eq_true_eq] at h ⊢
  unfold set
  split
  · exact ⟨rising_del k t h.1, fun e he => h.2 e (mem_del k t he)⟩
  · next hne =>
    refine ⟨rising_put a t (Nat.zero_le k) h.1, fun e he => ?_⟩
    rcases mem_put k a t he with rfl | he
    · exact hne
    · exact h.2 e he

end Sys2Proof.Tab
end

