-- ==== Sys2Proof/Laws/State.lean ====
section
/-!
SUPPORT. Laws/State.lean: what each primitive update of the state leaves alone, field by field.
-/
namespace Sys2Proof.Machine

@[simp] theorem State.setByte_tick (s : State) (pa : Nat) (b : Byte) : (s.setByte pa b).tick = s.tick := rfl
@[simp] theorem State.setByte_pace (s : State) (pa : Nat) (b : Byte) : (s.setByte pa b).pace = s.pace := rfl
@[simp] theorem State.setByte_turn (s : State) (pa : Nat) (b : Byte) : (s.setByte pa b).turn = s.turn := rfl
@[simp] theorem State.setByte_agenda (s : State) (pa : Nat) (b : Byte) : (s.setByte pa b).agenda = s.agenda := rfl
@[simp] theorem State.setByte_pending (s : State) (pa : Nat) (b : Byte) : (s.setByte pa b).pending = s.pending := rfl
@[simp] theorem State.setByte_inputs (s : State) (pa : Nat) (b : Byte) : (s.setByte pa b).inputs = s.inputs := rfl
@[simp] theorem State.setByte_focusCore (s : State) (pa : Nat) (b : Byte) : (s.setByte pa b).focusCore = s.focusCore := rfl
@[simp] theorem State.setByte_focusPort (s : State) (pa : Nat) (b : Byte) : (s.setByte pa b).focusPort = s.focusPort := rfl
@[simp] theorem State.setByte_nextId (s : State) (pa : Nat) (b : Byte) : (s.setByte pa b).nextId = s.nextId := rfl
@[simp] theorem State.setByte_free (s : State) (pa : Nat) (b : Byte) : (s.setByte pa b).free = s.free := rfl
@[simp] theorem State.setByte_mgmt (s : State) (pa : Nat) (b : Byte) : (s.setByte pa b).mgmt = s.mgmt := rfl
@[simp] theorem State.setByte_cores (s : State) (pa : Nat) (b : Byte) : (s.setByte pa b).cores = s.cores := rfl
@[simp] theorem State.setByte_groups (s : State) (pa : Nat) (b : Byte) : (s.setByte pa b).groups = s.groups := rfl
@[simp] theorem State.setByte_teams (s : State) (pa : Nat) (b : Byte) : (s.setByte pa b).teams = s.teams := rfl
@[simp] theorem State.setByte_clusters (s : State) (pa : Nat) (b : Byte) : (s.setByte pa b).clusters = s.clusters := rfl
@[simp] theorem State.setByte_ctxs (s : State) (pa : Nat) (b : Byte) : (s.setByte pa b).ctxs = s.ctxs := rfl
@[simp] theorem State.setByte_sys (s : State) (pa : Nat) (b : Byte) : (s.setByte pa b).sys = s.sys := rfl
@[simp] theorem State.setByte_hub (s : State) (pa : Nat) (b : Byte) : (s.setByte pa b).hub = s.hub := rfl
@[simp] theorem State.setByte_repl (s : State) (pa : Nat) (b : Byte) : (s.setByte pa b).repl = s.repl := rfl
@[simp] theorem State.setByte_fab (s : State) (pa : Nat) (b : Byte) : (s.setByte pa b).fab = s.fab := rfl
@[simp] theorem State.setByte_dbg (s : State) (pa : Nat) (b : Byte) : (s.setByte pa b).dbg = s.dbg := rfl
@[simp] theorem State.setByte_plat (s : State) (pa : Nat) (b : Byte) : (s.setByte pa b).plat = s.plat := rfl

@[simp] theorem State.setReg_tick (s : State) (a : Nat) (v : Word) : (s.setReg a v).tick = s.tick := by cases s; rfl
@[simp] theorem State.setReg_pace (s : State) (a : Nat) (v : Word) : (s.setReg a v).pace = s.pace := by cases s; rfl
@[simp] theorem State.setReg_turn (s : State) (a : Nat) (v : Word) : (s.setReg a v).turn = s.turn := by cases s; rfl
@[simp] theorem State.setReg_agenda (s : State) (a : Nat) (v : Word) : (s.setReg a v).agenda = s.agenda := by cases s; rfl
@[simp] theorem State.setReg_pending (s : State) (a : Nat) (v : Word) : (s.setReg a v).pending = s.pending := by cases s; rfl
@[simp] theorem State.setReg_inputs (s : State) (a : Nat) (v : Word) : (s.setReg a v).inputs = s.inputs := by cases s; rfl
@[simp] theorem State.setReg_focusCore (s : State) (a : Nat) (v : Word) : (s.setReg a v).focusCore = s.focusCore := by cases s; rfl
@[simp] theorem State.setReg_focusPort (s : State) (a : Nat) (v : Word) : (s.setReg a v).focusPort = s.focusPort := by cases s; rfl
@[simp] theorem State.setReg_nextId (s : State) (a : Nat) (v : Word) : (s.setReg a v).nextId = s.nextId := by cases s; rfl
@[simp] theorem State.setReg_free (s : State) (a : Nat) (v : Word) : (s.setReg a v).free = s.free := by cases s; rfl
@[simp] theorem State.setReg_mem (s : State) (a : Nat) (v : Word) : (s.setReg a v).mem = s.mem := by cases s; rfl
@[simp] theorem State.setReg_cores (s : State) (a : Nat) (v : Word) : (s.setReg a v).cores = s.cores := by cases s; rfl
@[simp] theorem State.setReg_groups (s : State) (a : Nat) (v : Word) : (s.setReg a v).groups = s.groups := by cases s; rfl
@[simp] theorem State.setReg_teams (s : State) (a : Nat) (v : Word) : (s.setReg a v).teams = s.teams := by cases s; rfl
@[simp] theorem State.setReg_clusters (s : State) (a : Nat) (v : Word) : (s.setReg a v).clusters = s.clusters := by cases s; rfl
@[simp] theorem State.setReg_ctxs (s : State) (a : Nat) (v : Word) : (s.setReg a v).ctxs = s.ctxs := by cases s; rfl
@[simp] theorem State.setReg_sys (s : State) (a : Nat) (v : Word) : (s.setReg a v).sys = s.sys := by cases s; rfl
@[simp] theorem State.setReg_hub (s : State) (a : Nat) (v : Word) : (s.setReg a v).hub = s.hub := by cases s; rfl
@[simp] theorem State.setReg_repl (s : State) (a : Nat) (v : Word) : (s.setReg a v).repl = s.repl := by cases s; rfl
@[simp] theorem State.setReg_fab (s : State) (a : Nat) (v : Word) : (s.setReg a v).fab = s.fab := by cases s; rfl
@[simp] theorem State.setReg_dbg (s : State) (a : Nat) (v : Word) : (s.setReg a v).dbg = s.dbg := by cases s; rfl
@[simp] theorem State.setReg_plat (s : State) (a : Nat) (v : Word) : (s.setReg a v).plat = s.plat := by cases s; rfl

@[simp] theorem State.setGrp_tick (s : State) (g : Nat) (x : Group) : (s.setGrp g x).tick = s.tick := rfl
@[simp] theorem State.setGrp_pace (s : State) (g : Nat) (x : Group) : (s.setGrp g x).pace = s.pace := rfl
@[simp] theorem State.setGrp_turn (s : State) (g : Nat) (x : Group) : (s.setGrp g x).turn = s.turn := rfl
@[simp] theorem State.setGrp_agenda (s : State) (g : Nat) (x : Group) : (s.setGrp g x).agenda = s.agenda := rfl
@[simp] theorem State.setGrp_pending (s : State) (g : Nat) (x : Group) : (s.setGrp g x).pending = s.pending := rfl
@[simp] theorem State.setGrp_inputs (s : State) (g : Nat) (x : Group) : (s.setGrp g x).inputs = s.inputs := rfl
@[simp] theorem State.setGrp_focusCore (s : State) (g : Nat) (x : Group) : (s.setGrp g x).focusCore = s.focusCore := rfl
@[simp] theorem State.setGrp_focusPort (s : State) (g : Nat) (x : Group) : (s.setGrp g x).focusPort = s.focusPort := rfl
@[simp] theorem State.setGrp_nextId (s : State) (g : Nat) (x : Group) : (s.setGrp g x).nextId = s.nextId := rfl
@[simp] theorem State.setGrp_free (s : State) (g : Nat) (x : Group) : (s.setGrp g x).free = s.free := rfl
@[simp] theorem State.setGrp_mem (s : State) (g : Nat) (x : Group) : (s.setGrp g x).mem = s.mem := rfl
@[simp] theorem State.setGrp_mgmt (s : State) (g : Nat) (x : Group) : (s.setGrp g x).mgmt = s.mgmt := rfl
@[simp] theorem State.setGrp_cores (s : State) (g : Nat) (x : Group) : (s.setGrp g x).cores = s.cores := rfl
@[simp] theorem State.setGrp_teams (s : State) (g : Nat) (x : Group) : (s.setGrp g x).teams = s.teams := rfl
@[simp] theorem State.setGrp_clusters (s : State) (g : Nat) (x : Group) : (s.setGrp g x).clusters = s.clusters := rfl
@[simp] theorem State.setGrp_ctxs (s : State) (g : Nat) (x : Group) : (s.setGrp g x).ctxs = s.ctxs := rfl
@[simp] theorem State.setGrp_sys (s : State) (g : Nat) (x : Group) : (s.setGrp g x).sys = s.sys := rfl
@[simp] theorem State.setGrp_hub (s : State) (g : Nat) (x : Group) : (s.setGrp g x).hub = s.hub := rfl
@[simp] theorem State.setGrp_repl (s : State) (g : Nat) (x : Group) : (s.setGrp g x).repl = s.repl := rfl
@[simp] theorem State.setGrp_fab (s : State) (g : Nat) (x : Group) : (s.setGrp g x).fab = s.fab := rfl
@[simp] theorem State.setGrp_dbg (s : State) (g : Nat) (x : Group) : (s.setGrp g x).dbg = s.dbg := rfl
@[simp] theorem State.setGrp_plat (s : State) (g : Nat) (x : Group) : (s.setGrp g x).plat = s.plat := rfl

@[simp] theorem State.setTeam_tick (s : State) (k : Nat) (x : Team) : (s.setTeam k x).tick = s.tick := rfl
@[simp] theorem State.setTeam_pace (s : State) (k : Nat) (x : Team) : (s.setTeam k x).pace = s.pace := rfl
@[simp] theorem State.setTeam_turn (s : State) (k : Nat) (x : Team) : (s.setTeam k x).turn = s.turn := rfl
@[simp] theorem State.setTeam_agenda (s : State) (k : Nat) (x : Team) : (s.setTeam k x).agenda = s.agenda := rfl
@[simp] theorem State.setTeam_pending (s : State) (k : Nat) (x : Team) : (s.setTeam k x).pending = s.pending := rfl
@[simp] theorem State.setTeam_inputs (s : State) (k : Nat) (x : Team) : (s.setTeam k x).inputs = s.inputs := rfl
@[simp] theorem State.setTeam_focusCore (s : State) (k : Nat) (x : Team) : (s.setTeam k x).focusCore = s.focusCore := rfl
@[simp] theorem State.setTeam_focusPort (s : State) (k : Nat) (x : Team) : (s.setTeam k x).focusPort = s.focusPort := rfl
@[simp] theorem State.setTeam_nextId (s : State) (k : Nat) (x : Team) : (s.setTeam k x).nextId = s.nextId := rfl
@[simp] theorem State.setTeam_free (s : State) (k : Nat) (x : Team) : (s.setTeam k x).free = s.free := rfl
@[simp] theorem State.setTeam_mem (s : State) (k : Nat) (x : Team) : (s.setTeam k x).mem = s.mem := rfl
@[simp] theorem State.setTeam_mgmt (s : State) (k : Nat) (x : Team) : (s.setTeam k x).mgmt = s.mgmt := rfl
@[simp] theorem State.setTeam_cores (s : State) (k : Nat) (x : Team) : (s.setTeam k x).cores = s.cores := rfl
@[simp] theorem State.setTeam_groups (s : State) (k : Nat) (x : Team) : (s.setTeam k x).groups = s.groups := rfl
@[simp] theorem State.setTeam_clusters (s : State) (k : Nat) (x : Team) : (s.setTeam k x).clusters = s.clusters := rfl
@[simp] theorem State.setTeam_ctxs (s : State) (k : Nat) (x : Team) : (s.setTeam k x).ctxs = s.ctxs := rfl
@[simp] theorem State.setTeam_sys (s : State) (k : Nat) (x : Team) : (s.setTeam k x).sys = s.sys := rfl
@[simp] theorem State.setTeam_hub (s : State) (k : Nat) (x : Team) : (s.setTeam k x).hub = s.hub := rfl
@[simp] theorem State.setTeam_repl (s : State) (k : Nat) (x : Team) : (s.setTeam k x).repl = s.repl := rfl
@[simp] theorem State.setTeam_fab (s : State) (k : Nat) (x : Team) : (s.setTeam k x).fab = s.fab := rfl
@[simp] theorem State.setTeam_dbg (s : State) (k : Nat) (x : Team) : (s.setTeam k x).dbg = s.dbg := rfl
@[simp] theorem State.setTeam_plat (s : State) (k : Nat) (x : Team) : (s.setTeam k x).plat = s.plat := rfl

@[simp] theorem State.setCluster_tick (s : State) (k : Nat) (x : Cluster) : (s.setCluster k x).tick = s.tick := rfl
@[simp] theorem State.setCluster_pace (s : State) (k : Nat) (x : Cluster) : (s.setCluster k x).pace = s.pace := rfl
@[simp] theorem State.setCluster_turn (s : State) (k : Nat) (x : Cluster) : (s.setCluster k x).turn = s.turn := rfl
@[simp] theorem State.setCluster_agenda (s : State) (k : Nat) (x : Cluster) : (s.setCluster k x).agenda = s.agenda := rfl
@[simp] theorem State.setCluster_pending (s : State) (k : Nat) (x : Cluster) : (s.setCluster k x).pending = s.pending := rfl
@[simp] theorem State.setCluster_inputs (s : State) (k : Nat) (x : Cluster) : (s.setCluster k x).inputs = s.inputs := rfl
@[simp] theorem State.setCluster_focusCore (s : State) (k : Nat) (x : Cluster) : (s.setCluster k x).focusCore = s.focusCore := rfl
@[simp] theorem State.setCluster_focusPort (s : State) (k : Nat) (x : Cluster) : (s.setCluster k x).focusPort = s.focusPort := rfl
@[simp] theorem State.setCluster_nextId (s : State) (k : Nat) (x : Cluster) : (s.setCluster k x).nextId = s.nextId := rfl
@[simp] theorem State.setCluster_free (s : State) (k : Nat) (x : Cluster) : (s.setCluster k x).free = s.free := rfl
@[simp] theorem State.setCluster_mem (s : State) (k : Nat) (x : Cluster) : (s.setCluster k x).mem = s.mem := rfl
@[simp] theorem State.setCluster_mgmt (s : State) (k : Nat) (x : Cluster) : (s.setCluster k x).mgmt = s.mgmt := rfl
@[simp] theorem State.setCluster_cores (s : State) (k : Nat) (x : Cluster) : (s.setCluster k x).cores = s.cores := rfl
@[simp] theorem State.setCluster_groups (s : State) (k : Nat) (x : Cluster) : (s.setCluster k x).groups = s.groups := rfl
@[simp] theorem State.setCluster_teams (s : State) (k : Nat) (x : Cluster) : (s.setCluster k x).teams = s.teams := rfl
@[simp] theorem State.setCluster_ctxs (s : State) (k : Nat) (x : Cluster) : (s.setCluster k x).ctxs = s.ctxs := rfl
@[simp] theorem State.setCluster_sys (s : State) (k : Nat) (x : Cluster) : (s.setCluster k x).sys = s.sys := rfl
@[simp] theorem State.setCluster_hub (s : State) (k : Nat) (x : Cluster) : (s.setCluster k x).hub = s.hub := rfl
@[simp] theorem State.setCluster_repl (s : State) (k : Nat) (x : Cluster) : (s.setCluster k x).repl = s.repl := rfl
@[simp] theorem State.setCluster_fab (s : State) (k : Nat) (x : Cluster) : (s.setCluster k x).fab = s.fab := rfl
@[simp] theorem State.setCluster_dbg (s : State) (k : Nat) (x : Cluster) : (s.setCluster k x).dbg = s.dbg := rfl
@[simp] theorem State.setCluster_plat (s : State) (k : Nat) (x : Cluster) : (s.setCluster k x).plat = s.plat := rfl

@[simp] theorem State.setCore_tick (s : State) (k : Nat) (x : Core) : (s.setCore k x).tick = s.tick := rfl
@[simp] theorem State.setCore_pace (s : State) (k : Nat) (x : Core) : (s.setCore k x).pace = s.pace := rfl
@[simp] theorem State.setCore_turn (s : State) (k : Nat) (x : Core) : (s.setCore k x).turn = s.turn := rfl
@[simp] theorem State.setCore_agenda (s : State) (k : Nat) (x : Core) : (s.setCore k x).agenda = s.agenda := rfl
@[simp] theorem State.setCore_pending (s : State) (k : Nat) (x : Core) : (s.setCore k x).pending = s.pending := rfl
@[simp] theorem State.setCore_inputs (s : State) (k : Nat) (x : Core) : (s.setCore k x).inputs = s.inputs := rfl
@[simp] theorem State.setCore_focusCore (s : State) (k : Nat) (x : Core) : (s.setCore k x).focusCore = s.focusCore := rfl
@[simp] theorem State.setCore_focusPort (s : State) (k : Nat) (x : Core) : (s.setCore k x).focusPort = s.focusPort := rfl
@[simp] theorem State.setCore_nextId (s : State) (k : Nat) (x : Core) : (s.setCore k x).nextId = s.nextId := rfl
@[simp] theorem State.setCore_free (s : State) (k : Nat) (x : Core) : (s.setCore k x).free = s.free := rfl
@[simp] theorem State.setCore_mem (s : State) (k : Nat) (x : Core) : (s.setCore k x).mem = s.mem := rfl
@[simp] theorem State.setCore_mgmt (s : State) (k : Nat) (x : Core) : (s.setCore k x).mgmt = s.mgmt := rfl
@[simp] theorem State.setCore_groups (s : State) (k : Nat) (x : Core) : (s.setCore k x).groups = s.groups := rfl
@[simp] theorem State.setCore_teams (s : State) (k : Nat) (x : Core) : (s.setCore k x).teams = s.teams := rfl
@[simp] theorem State.setCore_clusters (s : State) (k : Nat) (x : Core) : (s.setCore k x).clusters = s.clusters := rfl
@[simp] theorem State.setCore_ctxs (s : State) (k : Nat) (x : Core) : (s.setCore k x).ctxs = s.ctxs := rfl
@[simp] theorem State.setCore_sys (s : State) (k : Nat) (x : Core) : (s.setCore k x).sys = s.sys := rfl
@[simp] theorem State.setCore_hub (s : State) (k : Nat) (x : Core) : (s.setCore k x).hub = s.hub := rfl
@[simp] theorem State.setCore_repl (s : State) (k : Nat) (x : Core) : (s.setCore k x).repl = s.repl := rfl
@[simp] theorem State.setCore_fab (s : State) (k : Nat) (x : Core) : (s.setCore k x).fab = s.fab := rfl
@[simp] theorem State.setCore_dbg (s : State) (k : Nat) (x : Core) : (s.setCore k x).dbg = s.dbg := rfl
@[simp] theorem State.setCore_plat (s : State) (k : Nat) (x : Core) : (s.setCore k x).plat = s.plat := rfl

@[simp] theorem State.setCtx_tick (s : State) (k : Nat) (x : Ctx) : (s.setCtx k x).tick = s.tick := rfl
@[simp] theorem State.setCtx_pace (s : State) (k : Nat) (x : Ctx) : (s.setCtx k x).pace = s.pace := rfl
@[simp] theorem State.setCtx_turn (s : State) (k : Nat) (x : Ctx) : (s.setCtx k x).turn = s.turn := rfl
@[simp] theorem State.setCtx_agenda (s : State) (k : Nat) (x : Ctx) : (s.setCtx k x).agenda = s.agenda := rfl
@[simp] theorem State.setCtx_pending (s : State) (k : Nat) (x : Ctx) : (s.setCtx k x).pending = s.pending := rfl
@[simp] theorem State.setCtx_inputs (s : State) (k : Nat) (x : Ctx) : (s.setCtx k x).inputs = s.inputs := rfl
@[simp] theorem State.setCtx_focusCore (s : State) (k : Nat) (x : Ctx) : (s.setCtx k x).focusCore = s.focusCore := rfl
@[simp] theorem State.setCtx_focusPort (s : State) (k : Nat) (x : Ctx) : (s.setCtx k x).focusPort = s.focusPort := rfl
@[simp] theorem State.setCtx_nextId (s : State) (k : Nat) (x : Ctx) : (s.setCtx k x).nextId = s.nextId := rfl
@[simp] theorem State.setCtx_free (s : State) (k : Nat) (x : Ctx) : (s.setCtx k x).free = s.free := rfl
@[simp] theorem State.setCtx_mem (s : State) (k : Nat) (x : Ctx) : (s.setCtx k x).mem = s.mem := rfl
@[simp] theorem State.setCtx_mgmt (s : State) (k : Nat) (x : Ctx) : (s.setCtx k x).mgmt = s.mgmt := rfl
@[simp] theorem State.setCtx_cores (s : State) (k : Nat) (x : Ctx) : (s.setCtx k x).cores = s.cores := rfl
@[simp] theorem State.setCtx_groups (s : State) (k : Nat) (x : Ctx) : (s.setCtx k x).groups = s.groups := rfl
@[simp] theorem State.setCtx_teams (s : State) (k : Nat) (x : Ctx) : (s.setCtx k x).teams = s.teams := rfl
@[simp] theorem State.setCtx_clusters (s : State) (k : Nat) (x : Ctx) : (s.setCtx k x).clusters = s.clusters := rfl
@[simp] theorem State.setCtx_sys (s : State) (k : Nat) (x : Ctx) : (s.setCtx k x).sys = s.sys := rfl
@[simp] theorem State.setCtx_hub (s : State) (k : Nat) (x : Ctx) : (s.setCtx k x).hub = s.hub := rfl
@[simp] theorem State.setCtx_repl (s : State) (k : Nat) (x : Ctx) : (s.setCtx k x).repl = s.repl := rfl
@[simp] theorem State.setCtx_fab (s : State) (k : Nat) (x : Ctx) : (s.setCtx k x).fab = s.fab := rfl
@[simp] theorem State.setCtx_dbg (s : State) (k : Nat) (x : Ctx) : (s.setCtx k x).dbg = s.dbg := rfl
@[simp] theorem State.setCtx_plat (s : State) (k : Nat) (x : Ctx) : (s.setCtx k x).plat = s.plat := rfl

@[simp] theorem State.setSys_tick (s : State) (x : MemSys) : (s.setSys x).tick = s.tick := rfl
@[simp] theorem State.setSys_pace (s : State) (x : MemSys) : (s.setSys x).pace = s.pace := rfl
@[simp] theorem State.setSys_turn (s : State) (x : MemSys) : (s.setSys x).turn = s.turn := rfl
@[simp] theorem State.setSys_agenda (s : State) (x : MemSys) : (s.setSys x).agenda = s.agenda := rfl
@[simp] theorem State.setSys_pending (s : State) (x : MemSys) : (s.setSys x).pending = s.pending := rfl
@[simp] theorem State.setSys_inputs (s : State) (x : MemSys) : (s.setSys x).inputs = s.inputs := rfl
@[simp] theorem State.setSys_focusCore (s : State) (x : MemSys) : (s.setSys x).focusCore = s.focusCore := rfl
@[simp] theorem State.setSys_focusPort (s : State) (x : MemSys) : (s.setSys x).focusPort = s.focusPort := rfl
@[simp] theorem State.setSys_nextId (s : State) (x : MemSys) : (s.setSys x).nextId = s.nextId := rfl
@[simp] theorem State.setSys_free (s : State) (x : MemSys) : (s.setSys x).free = s.free := rfl
@[simp] theorem State.setSys_mem (s : State) (x : MemSys) : (s.setSys x).mem = s.mem := rfl
@[simp] theorem State.setSys_mgmt (s : State) (x : MemSys) : (s.setSys x).mgmt = s.mgmt := rfl
@[simp] theorem State.setSys_cores (s : State) (x : MemSys) : (s.setSys x).cores = s.cores := rfl
@[simp] theorem State.setSys_groups (s : State) (x : MemSys) : (s.setSys x).groups = s.groups := rfl
@[simp] theorem State.setSys_teams (s : State) (x : MemSys) : (s.setSys x).teams = s.teams := rfl
@[simp] theorem State.setSys_clusters (s : State) (x : MemSys) : (s.setSys x).clusters = s.clusters := rfl
@[simp] theorem State.setSys_ctxs (s : State) (x : MemSys) : (s.setSys x).ctxs = s.ctxs := rfl
@[simp] theorem State.setSys_hub (s : State) (x : MemSys) : (s.setSys x).hub = s.hub := rfl
@[simp] theorem State.setSys_repl (s : State) (x : MemSys) : (s.setSys x).repl = s.repl := rfl
@[simp] theorem State.setSys_fab (s : State) (x : MemSys) : (s.setSys x).fab = s.fab := rfl
@[simp] theorem State.setSys_dbg (s : State) (x : MemSys) : (s.setSys x).dbg = s.dbg := rfl
@[simp] theorem State.setSys_plat (s : State) (x : MemSys) : (s.setSys x).plat = s.plat := rfl

@[simp] theorem State.setHub_tick (s : State) (x : Hub) : (s.setHub x).tick = s.tick := rfl
@[simp] theorem State.setHub_pace (s : State) (x : Hub) : (s.setHub x).pace = s.pace := rfl
@[simp] theorem State.setHub_turn (s : State) (x : Hub) : (s.setHub x).turn = s.turn := rfl
@[simp] theorem State.setHub_agenda (s : State) (x : Hub) : (s.setHub x).agenda = s.agenda := rfl
@[simp] theorem State.setHub_pending (s : State) (x : Hub) : (s.setHub x).pending = s.pending := rfl
@[simp] theorem State.setHub_inputs (s : State) (x : Hub) : (s.setHub x).inputs = s.inputs := rfl
@[simp] theorem State.setHub_focusCore (s : State) (x : Hub) : (s.setHub x).focusCore = s.focusCore := rfl
@[simp] theorem State.setHub_focusPort (s : State) (x : Hub) : (s.setHub x).focusPort = s.focusPort := rfl
@[simp] theorem State.setHub_nextId (s : State) (x : Hub) : (s.setHub x).nextId = s.nextId := rfl
@[simp] theorem State.setHub_free (s : State) (x : Hub) : (s.setHub x).free = s.free := rfl
@[simp] theorem State.setHub_mem (s : State) (x : Hub) : (s.setHub x).mem = s.mem := rfl
@[simp] theorem State.setHub_mgmt (s : State) (x : Hub) : (s.setHub x).mgmt = s.mgmt := rfl
@[simp] theorem State.setHub_cores (s : State) (x : Hub) : (s.setHub x).cores = s.cores := rfl
@[simp] theorem State.setHub_groups (s : State) (x : Hub) : (s.setHub x).groups = s.groups := rfl
@[simp] theorem State.setHub_teams (s : State) (x : Hub) : (s.setHub x).teams = s.teams := rfl
@[simp] theorem State.setHub_clusters (s : State) (x : Hub) : (s.setHub x).clusters = s.clusters := rfl
@[simp] theorem State.setHub_ctxs (s : State) (x : Hub) : (s.setHub x).ctxs = s.ctxs := rfl
@[simp] theorem State.setHub_sys (s : State) (x : Hub) : (s.setHub x).sys = s.sys := rfl
@[simp] theorem State.setHub_repl (s : State) (x : Hub) : (s.setHub x).repl = s.repl := rfl
@[simp] theorem State.setHub_fab (s : State) (x : Hub) : (s.setHub x).fab = s.fab := rfl
@[simp] theorem State.setHub_dbg (s : State) (x : Hub) : (s.setHub x).dbg = s.dbg := rfl
@[simp] theorem State.setHub_plat (s : State) (x : Hub) : (s.setHub x).plat = s.plat := rfl

@[simp] theorem State.post_tick (s : State) (e : Instr) : (s.post e).tick = s.tick := rfl
@[simp] theorem State.post_pace (s : State) (e : Instr) : (s.post e).pace = s.pace := rfl
@[simp] theorem State.post_turn (s : State) (e : Instr) : (s.post e).turn = s.turn := rfl
@[simp] theorem State.post_agenda (s : State) (e : Instr) : (s.post e).agenda = s.agenda := rfl
@[simp] theorem State.post_inputs (s : State) (e : Instr) : (s.post e).inputs = s.inputs := rfl
@[simp] theorem State.post_focusCore (s : State) (e : Instr) : (s.post e).focusCore = s.focusCore := rfl
@[simp] theorem State.post_focusPort (s : State) (e : Instr) : (s.post e).focusPort = s.focusPort := rfl
@[simp] theorem State.post_nextId (s : State) (e : Instr) : (s.post e).nextId = s.nextId := rfl
@[simp] theorem State.post_free (s : State) (e : Instr) : (s.post e).free = s.free := rfl
@[simp] theorem State.post_mem (s : State) (e : Instr) : (s.post e).mem = s.mem := rfl
@[simp] theorem State.post_mgmt (s : State) (e : Instr) : (s.post e).mgmt = s.mgmt := rfl
@[simp] theorem State.post_cores (s : State) (e : Instr) : (s.post e).cores = s.cores := rfl
@[simp] theorem State.post_groups (s : State) (e : Instr) : (s.post e).groups = s.groups := rfl
@[simp] theorem State.post_teams (s : State) (e : Instr) : (s.post e).teams = s.teams := rfl
@[simp] theorem State.post_clusters (s : State) (e : Instr) : (s.post e).clusters = s.clusters := rfl
@[simp] theorem State.post_ctxs (s : State) (e : Instr) : (s.post e).ctxs = s.ctxs := rfl
@[simp] theorem State.post_sys (s : State) (e : Instr) : (s.post e).sys = s.sys := rfl
@[simp] theorem State.post_hub (s : State) (e : Instr) : (s.post e).hub = s.hub := rfl
@[simp] theorem State.post_repl (s : State) (e : Instr) : (s.post e).repl = s.repl := rfl
@[simp] theorem State.post_fab (s : State) (e : Instr) : (s.post e).fab = s.fab := rfl
@[simp] theorem State.post_dbg (s : State) (e : Instr) : (s.post e).dbg = s.dbg := rfl
@[simp] theorem State.post_plat (s : State) (e : Instr) : (s.post e).plat = s.plat := rfl

@[simp] theorem State.fresh_tick (s : State) : s.fresh.2.tick = s.tick := rfl
@[simp] theorem State.fresh_pace (s : State) : s.fresh.2.pace = s.pace := rfl
@[simp] theorem State.fresh_turn (s : State) : s.fresh.2.turn = s.turn := rfl
@[simp] theorem State.fresh_agenda (s : State) : s.fresh.2.agenda = s.agenda := rfl
@[simp] theorem State.fresh_pending (s : State) : s.fresh.2.pending = s.pending := rfl
@[simp] theorem State.fresh_inputs (s : State) : s.fresh.2.inputs = s.inputs := rfl
@[simp] theorem State.fresh_focusCore (s : State) : s.fresh.2.focusCore = s.focusCore := rfl
@[simp] theorem State.fresh_focusPort (s : State) : s.fresh.2.focusPort = s.focusPort := rfl
@[simp] theorem State.fresh_free (s : State) : s.fresh.2.free = s.free := rfl
@[simp] theorem State.fresh_mem (s : State) : s.fresh.2.mem = s.mem := rfl
@[simp] theorem State.fresh_mgmt (s : State) : s.fresh.2.mgmt = s.mgmt := rfl
@[simp] theorem State.fresh_cores (s : State) : s.fresh.2.cores = s.cores := rfl
@[simp] theorem State.fresh_groups (s : State) : s.fresh.2.groups = s.groups := rfl
@[simp] theorem State.fresh_teams (s : State) : s.fresh.2.teams = s.teams := rfl
@[simp] theorem State.fresh_clusters (s : State) : s.fresh.2.clusters = s.clusters := rfl
@[simp] theorem State.fresh_ctxs (s : State) : s.fresh.2.ctxs = s.ctxs := rfl
@[simp] theorem State.fresh_sys (s : State) : s.fresh.2.sys = s.sys := rfl
@[simp] theorem State.fresh_hub (s : State) : s.fresh.2.hub = s.hub := rfl
@[simp] theorem State.fresh_repl (s : State) : s.fresh.2.repl = s.repl := rfl
@[simp] theorem State.fresh_fab (s : State) : s.fresh.2.fab = s.fab := rfl
@[simp] theorem State.fresh_dbg (s : State) : s.fresh.2.dbg = s.dbg := rfl
@[simp] theorem State.fresh_plat (s : State) : s.fresh.2.plat = s.plat := rfl

@[simp] theorem State.freeVal_tick (s : State) : s.freeVal.2.tick = s.tick := rfl
@[simp] theorem State.freeVal_pace (s : State) : s.freeVal.2.pace = s.pace := rfl
@[simp] theorem State.freeVal_turn (s : State) : s.freeVal.2.turn = s.turn := rfl
@[simp] theorem State.freeVal_agenda (s : State) : s.freeVal.2.agenda = s.agenda := rfl
@[simp] theorem State.freeVal_pending (s : State) : s.freeVal.2.pending = s.pending := rfl
@[simp] theorem State.freeVal_inputs (s : State) : s.freeVal.2.inputs = s.inputs := rfl
@[simp] theorem State.freeVal_focusCore (s : State) : s.freeVal.2.focusCore = s.focusCore := rfl
@[simp] theorem State.freeVal_focusPort (s : State) : s.freeVal.2.focusPort = s.focusPort := rfl
@[simp] theorem State.freeVal_nextId (s : State) : s.freeVal.2.nextId = s.nextId := rfl
@[simp] theorem State.freeVal_mem (s : State) : s.freeVal.2.mem = s.mem := rfl
@[simp] theorem State.freeVal_mgmt (s : State) : s.freeVal.2.mgmt = s.mgmt := rfl
@[simp] theorem State.freeVal_cores (s : State) : s.freeVal.2.cores = s.cores := rfl
@[simp] theorem State.freeVal_groups (s : State) : s.freeVal.2.groups = s.groups := rfl
@[simp] theorem State.freeVal_teams (s : State) : s.freeVal.2.teams = s.teams := rfl
@[simp] theorem State.freeVal_clusters (s : State) : s.freeVal.2.clusters = s.clusters := rfl
@[simp] theorem State.freeVal_ctxs (s : State) : s.freeVal.2.ctxs = s.ctxs := rfl
@[simp] theorem State.freeVal_sys (s : State) : s.freeVal.2.sys = s.sys := rfl
@[simp] theorem State.freeVal_hub (s : State) : s.freeVal.2.hub = s.hub := rfl
@[simp] theorem State.freeVal_repl (s : State) : s.freeVal.2.repl = s.repl := rfl
@[simp] theorem State.freeVal_fab (s : State) : s.freeVal.2.fab = s.fab := rfl
@[simp] theorem State.freeVal_dbg (s : State) : s.freeVal.2.dbg = s.dbg := rfl
@[simp] theorem State.freeVal_plat (s : State) : s.freeVal.2.plat = s.plat := rfl

@[simp] theorem State.updCore_tick (s : State) (k : Nat) (f : Core → Core) : (s.updCore k f).tick = s.tick := rfl
@[simp] theorem State.updCore_pace (s : State) (k : Nat) (f : Core → Core) : (s.updCore k f).pace = s.pace := rfl
@[simp] theorem State.updCore_turn (s : State) (k : Nat) (f : Core → Core) : (s.updCore k f).turn = s.turn := rfl
@[simp] theorem State.updCore_agenda (s : State) (k : Nat) (f : Core → Core) : (s.updCore k f).agenda = s.agenda := rfl
@[simp] theorem State.updCore_pending (s : State) (k : Nat) (f : Core → Core) : (s.updCore k f).pending = s.pending := rfl
@[simp] theorem State.updCore_inputs (s : State) (k : Nat) (f : Core → Core) : (s.updCore k f).inputs = s.inputs := rfl
@[simp] theorem State.updCore_focusCore (s : State) (k : Nat) (f : Core → Core) : (s.updCore k f).focusCore = s.focusCore := rfl
@[simp] theorem State.updCore_focusPort (s : State) (k : Nat) (f : Core → Core) : (s.updCore k f).focusPort = s.focusPort := rfl
@[simp] theorem State.updCore_nextId (s : State) (k : Nat) (f : Core → Core) : (s.updCore k f).nextId = s.nextId := rfl
@[simp] theorem State.updCore_free (s : State) (k : Nat) (f : Core → Core) : (s.updCore k f).free = s.free := rfl
@[simp] theorem State.updCore_mem (s : State) (k : Nat) (f : Core → Core) : (s.updCore k f).mem = s.mem := rfl
@[simp] theorem State.updCore_mgmt (s : State) (k : Nat) (f : Core → Core) : (s.updCore k f).mgmt = s.mgmt := rfl
@[simp] theorem State.updCore_groups (s : State) (k : Nat) (f : Core → Core) : (s.updCore k f).groups = s.groups := rfl
@[simp] theorem State.updCore_teams (s : State) (k : Nat) (f : Core → Core) : (s.updCore k f).teams = s.teams := rfl
@[simp] theorem State.updCore_clusters (s : State) (k : Nat) (f : Core → Core) : (s.updCore k f).clusters = s.clusters := rfl
@[simp] theorem State.updCore_ctxs (s : State) (k : Nat) (f : Core → Core) : (s.updCore k f).ctxs = s.ctxs := rfl
@[simp] theorem State.updCore_sys (s : State) (k : Nat) (f : Core → Core) : (s.updCore k f).sys = s.sys := rfl
@[simp] theorem State.updCore_hub (s : State) (k : Nat) (f : Core → Core) : (s.updCore k f).hub = s.hub := rfl
@[simp] theorem State.updCore_repl (s : State) (k : Nat) (f : Core → Core) : (s.updCore k f).repl = s.repl := rfl
@[simp] theorem State.updCore_fab (s : State) (k : Nat) (f : Core → Core) : (s.updCore k f).fab = s.fab := rfl
@[simp] theorem State.updCore_dbg (s : State) (k : Nat) (f : Core → Core) : (s.updCore k f).dbg = s.dbg := rfl
@[simp] theorem State.updCore_plat (s : State) (k : Nat) (f : Core → Core) : (s.updCore k f).plat = s.plat := rfl

@[simp] theorem State.setPort_tick (s : State) (c : Nat) (p : Bool) (x : Port) : (s.setPort c p x).tick = s.tick := rfl
@[simp] theorem State.setPort_pace (s : State) (c : Nat) (p : Bool) (x : Port) : (s.setPort c p x).pace = s.pace := rfl
@[simp] theorem State.setPort_turn (s : State) (c : Nat) (p : Bool) (x : Port) : (s.setPort c p x).turn = s.turn := rfl
@[simp] theorem State.setPort_agenda (s : State) (c : Nat) (p : Bool) (x : Port) : (s.setPort c p x).agenda = s.agenda := rfl
@[simp] theorem State.setPort_pending (s : State) (c : Nat) (p : Bool) (x : Port) : (s.setPort c p x).pending = s.pending := rfl
@[simp] theorem State.setPort_inputs (s : State) (c : Nat) (p : Bool) (x : Port) : (s.setPort c p x).inputs = s.inputs := rfl
@[simp] theorem State.setPort_focusCore (s : State) (c : Nat) (p : Bool) (x : Port) : (s.setPort c p x).focusCore = s.focusCore := rfl
@[simp] theorem State.setPort_focusPort (s : State) (c : Nat) (p : Bool) (x : Port) : (s.setPort c p x).focusPort = s.focusPort := rfl
@[simp] theorem State.setPort_nextId (s : State) (c : Nat) (p : Bool) (x : Port) : (s.setPort c p x).nextId = s.nextId := rfl
@[simp] theorem State.setPort_free (s : State) (c : Nat) (p : Bool) (x : Port) : (s.setPort c p x).free = s.free := rfl
@[simp] theorem State.setPort_mem (s : State) (c : Nat) (p : Bool) (x : Port) : (s.setPort c p x).mem = s.mem := rfl
@[simp] theorem State.setPort_mgmt (s : State) (c : Nat) (p : Bool) (x : Port) : (s.setPort c p x).mgmt = s.mgmt := rfl
@[simp] theorem State.setPort_groups (s : State) (c : Nat) (p : Bool) (x : Port) : (s.setPort c p x).groups = s.groups := rfl
@[simp] theorem State.setPort_teams (s : State) (c : Nat) (p : Bool) (x : Port) : (s.setPort c p x).teams = s.teams := rfl
@[simp] theorem State.setPort_clusters (s : State) (c : Nat) (p : Bool) (x : Port) : (s.setPort c p x).clusters = s.clusters := rfl
@[simp] theorem State.setPort_ctxs (s : State) (c : Nat) (p : Bool) (x : Port) : (s.setPort c p x).ctxs = s.ctxs := rfl
@[simp] theorem State.setPort_sys (s : State) (c : Nat) (p : Bool) (x : Port) : (s.setPort c p x).sys = s.sys := rfl
@[simp] theorem State.setPort_hub (s : State) (c : Nat) (p : Bool) (x : Port) : (s.setPort c p x).hub = s.hub := rfl
@[simp] theorem State.setPort_repl (s : State) (c : Nat) (p : Bool) (x : Port) : (s.setPort c p x).repl = s.repl := rfl
@[simp] theorem State.setPort_fab (s : State) (c : Nat) (p : Bool) (x : Port) : (s.setPort c p x).fab = s.fab := rfl
@[simp] theorem State.setPort_dbg (s : State) (c : Nat) (p : Bool) (x : Port) : (s.setPort c p x).dbg = s.dbg := rfl
@[simp] theorem State.setPort_plat (s : State) (c : Nat) (p : Bool) (x : Port) : (s.setPort c p x).plat = s.plat := rfl

@[simp] theorem State.setCtxState_tick (s : State) (c n : Nat) : (s.setCtxState c n).tick = s.tick := by cases s; rfl
@[simp] theorem State.setCtxState_pace (s : State) (c n : Nat) : (s.setCtxState c n).pace = s.pace := by cases s; rfl
@[simp] theorem State.setCtxState_turn (s : State) (c n : Nat) : (s.setCtxState c n).turn = s.turn := by cases s; rfl
@[simp] theorem State.setCtxState_agenda (s : State) (c n : Nat) : (s.setCtxState c n).agenda = s.agenda := by cases s; rfl
@[simp] theorem State.setCtxState_pending (s : State) (c n : Nat) : (s.setCtxState c n).pending = s.pending := by cases s; rfl
@[simp] theorem State.setCtxState_inputs (s : State) (c n : Nat) : (s.setCtxState c n).inputs = s.inputs := by cases s; rfl
@[simp] theorem State.setCtxState_focusCore (s : State) (c n : Nat) : (s.setCtxState c n).focusCore = s.focusCore := by cases s; rfl
@[simp] theorem State.setCtxState_focusPort (s : State) (c n : Nat) : (s.setCtxState c n).focusPort = s.focusPort := by cases s; rfl
@[simp] theorem State.setCtxState_nextId (s : State) (c n : Nat) : (s.setCtxState c n).nextId = s.nextId := by cases s; rfl
@[simp] theorem State.setCtxState_free (s : State) (c n : Nat) : (s.setCtxState c n).free = s.free := by cases s; rfl
@[simp] theorem State.setCtxState_mem (s : State) (c n : Nat) : (s.setCtxState c n).mem = s.mem := by cases s; rfl
@[simp] theorem State.setCtxState_cores (s : State) (c n : Nat) : (s.setCtxState c n).cores = s.cores := by cases s; rfl
@[simp] theorem State.setCtxState_groups (s : State) (c n : Nat) : (s.setCtxState c n).groups = s.groups := by cases s; rfl
@[simp] theorem State.setCtxState_teams (s : State) (c n : Nat) : (s.setCtxState c n).teams = s.teams := by cases s; rfl
@[simp] theorem State.setCtxState_clusters (s : State) (c n : Nat) : (s.setCtxState c n).clusters = s.clusters := by cases s; rfl
@[simp] theorem State.setCtxState_ctxs (s : State) (c n : Nat) : (s.setCtxState c n).ctxs = s.ctxs := by cases s; rfl
@[simp] theorem State.setCtxState_sys (s : State) (c n : Nat) : (s.setCtxState c n).sys = s.sys := by cases s; rfl
@[simp] theorem State.setCtxState_hub (s : State) (c n : Nat) : (s.setCtxState c n).hub = s.hub := by cases s; rfl
@[simp] theorem State.setCtxState_repl (s : State) (c n : Nat) : (s.setCtxState c n).repl = s.repl := by cases s; rfl
@[simp] theorem State.setCtxState_fab (s : State) (c n : Nat) : (s.setCtxState c n).fab = s.fab := by cases s; rfl
@[simp] theorem State.setCtxState_dbg (s : State) (c n : Nat) : (s.setCtxState c n).dbg = s.dbg := by cases s; rfl
@[simp] theorem State.setCtxState_plat (s : State) (c n : Nat) : (s.setCtxState c n).plat = s.plat := by cases s; rfl

@[simp] theorem State.updGrp_tick (s : State) (g : Nat) (f : Group → Group) : (s.updGrp g f).tick = s.tick := by unfold State.updGrp; split <;> rfl
@[simp] theorem State.updGrp_pace (s : State) (g : Nat) (f : Group → Group) : (s.updGrp g f).pace = s.pace := by unfold State.updGrp; split <;> rfl
@[simp] theorem State.updGrp_turn (s : State) (g : Nat) (f : Group → Group) : (s.updGrp g f).turn = s.turn := by unfold State.updGrp; split <;> rfl
@[simp] theorem State.updGrp_agenda (s : State) (g : Nat) (f : Group → Group) : (s.updGrp g f).agenda = s.agenda := by unfold State.updGrp; split <;> rfl
@[simp] theorem State.updGrp_pending (s : State) (g : Nat) (f : Group → Group) : (s.updGrp g f).pending = s.pending := by unfold State.updGrp; split <;> rfl
@[simp] theorem State.updGrp_inputs (s : State) (g : Nat) (f : Group → Group) : (s.updGrp g f).inputs = s.inputs := by unfold State.updGrp; split <;> rfl
@[simp] theorem State.updGrp_focusCore (s : State) (g : Nat) (f : Group → Group) : (s.updGrp g f).focusCore = s.focusCore := by unfold State.updGrp; split <;> rfl
@[simp] theorem State.updGrp_focusPort (s : State) (g : Nat) (f : Group → Group) : (s.updGrp g f).focusPort = s.focusPort := by unfold State.updGrp; split <;> rfl
@[simp] theorem State.updGrp_nextId (s : State) (g : Nat) (f : Group → Group) : (s.updGrp g f).nextId = s.nextId := by unfold State.updGrp; split <;> rfl
@[simp] theorem State.updGrp_free (s : State) (g : Nat) (f : Group → Group) : (s.updGrp g f).free = s.free := by unfold State.updGrp; split <;> rfl
@[simp] theorem State.updGrp_mem (s : State) (g : Nat) (f : Group → Group) : (s.updGrp g f).mem = s.mem := by unfold State.updGrp; split <;> rfl
@[simp] theorem State.updGrp_mgmt (s : State) (g : Nat) (f : Group → Group) : (s.updGrp g f).mgmt = s.mgmt := by unfold State.updGrp; split <;> rfl
@[simp] theorem State.updGrp_cores (s : State) (g : Nat) (f : Group → Group) : (s.updGrp g f).cores = s.cores := by unfold State.updGrp; split <;> rfl
@[simp] theorem State.updGrp_teams (s : State) (g : Nat) (f : Group → Group) : (s.updGrp g f).teams = s.teams := by unfold State.updGrp; split <;> rfl
@[simp] theorem State.updGrp_clusters (s : State) (g : Nat) (f : Group → Group) : (s.updGrp g f).clusters = s.clusters := by unfold State.updGrp; split <;> rfl
@[simp] theorem State.updGrp_ctxs (s : State) (g : Nat) (f : Group → Group) : (s.updGrp g f).ctxs = s.ctxs := by unfold State.updGrp; split <;> rfl
@[simp] theorem State.updGrp_sys (s : State) (g : Nat) (f : Group → Group) : (s.updGrp g f).sys = s.sys := by unfold State.updGrp; split <;> rfl
@[simp] theorem State.updGrp_hub (s : State) (g : Nat) (f : Group → Group) : (s.updGrp g f).hub = s.hub := by unfold State.updGrp; split <;> rfl
@[simp] theorem State.updGrp_repl (s : State) (g : Nat) (f : Group → Group) : (s.updGrp g f).repl = s.repl := by unfold State.updGrp; split <;> rfl
@[simp] theorem State.updGrp_fab (s : State) (g : Nat) (f : Group → Group) : (s.updGrp g f).fab = s.fab := by unfold State.updGrp; split <;> rfl
@[simp] theorem State.updGrp_dbg (s : State) (g : Nat) (f : Group → Group) : (s.updGrp g f).dbg = s.dbg := by unfold State.updGrp; split <;> rfl
@[simp] theorem State.updGrp_plat (s : State) (g : Nat) (f : Group → Group) : (s.updGrp g f).plat = s.plat := by unfold State.updGrp; split <;> rfl

@[simp] theorem State.updTeam_tick (s : State) (k : Nat) (f : Team → Team) : (s.updTeam k f).tick = s.tick := by unfold State.updTeam; split <;> rfl
@[simp] theorem State.updTeam_pace (s : State) (k : Nat) (f : Team → Team) : (s.updTeam k f).pace = s.pace := by unfold State.updTeam; split <;> rfl
@[simp] theorem State.updTeam_turn (s : State) (k : Nat) (f : Team → Team) : (s.updTeam k f).turn = s.turn := by unfold State.updTeam; split <;> rfl
@[simp] theorem State.updTeam_agenda (s : State) (k : Nat) (f : Team → Team) : (s.updTeam k f).agenda = s.agenda := by unfold State.updTeam; split <;> rfl
@[simp] theorem State.updTeam_pending (s : State) (k : Nat) (f : Team → Team) : (s.updTeam k f).pending = s.pending := by unfold State.updTeam; split <;> rfl
@[simp] theorem State.updTeam_inputs (s : State) (k : Nat) (f : Team → Team) : (s.updTeam k f).inputs = s.inputs := by unfold State.updTeam; split <;> rfl
@[simp] theorem State.updTeam_focusCore (s : State) (k : Nat) (f : Team → Team) : (s.updTeam k f).focusCore = s.focusCore := by unfold State.updTeam; split <;> rfl
@[simp] theorem State.updTeam_focusPort (s : State) (k : Nat) (f : Team → Team) : (s.updTeam k f).focusPort = s.focusPort := by unfold State.updTeam; split <;> rfl
@[simp] theorem State.updTeam_nextId (s : State) (k : Nat) (f : Team → Team) : (s.updTeam k f).nextId = s.nextId := by unfold State.updTeam; split <;> rfl
@[simp] theorem State.updTeam_free (s : State) (k : Nat) (f : Team → Team) : (s.updTeam k f).free = s.free := by unfold State.updTeam; split <;> rfl
@[simp] theorem State.updTeam_mem (s : State) (k : Nat) (f : Team → Team) : (s.updTeam k f).mem = s.mem := by unfold State.updTeam; split <;> rfl
@[simp] theorem State.updTeam_mgmt (s : State) (k : Nat) (f : Team → Team) : (s.updTeam k f).mgmt = s.mgmt := by unfold State.updTeam; split <;> rfl
@[simp] theorem State.updTeam_cores (s : State) (k : Nat) (f : Team → Team) : (s.updTeam k f).cores = s.cores := by unfold State.updTeam; split <;> rfl
@[simp] theorem State.updTeam_groups (s : State) (k : Nat) (f : Team → Team) : (s.updTeam k f).groups = s.groups := by unfold State.updTeam; split <;> rfl
@[simp] theorem State.updTeam_clusters (s : State) (k : Nat) (f : Team → Team) : (s.updTeam k f).clusters = s.clusters := by unfold State.updTeam; split <;> rfl
@[simp] theorem State.updTeam_ctxs (s : State) (k : Nat) (f : Team → Team) : (s.updTeam k f).ctxs = s.ctxs := by unfold State.updTeam; split <;> rfl
@[simp] theorem State.updTeam_sys (s : State) (k : Nat) (f : Team → Team) : (s.updTeam k f).sys = s.sys := by unfold State.updTeam; split <;> rfl
@[simp] theorem State.updTeam_hub (s : State) (k : Nat) (f : Team → Team) : (s.updTeam k f).hub = s.hub := by unfold State.updTeam; split <;> rfl
@[simp] theorem State.updTeam_repl (s : State) (k : Nat) (f : Team → Team) : (s.updTeam k f).repl = s.repl := by unfold State.updTeam; split <;> rfl
@[simp] theorem State.updTeam_fab (s : State) (k : Nat) (f : Team → Team) : (s.updTeam k f).fab = s.fab := by unfold State.updTeam; split <;> rfl
@[simp] theorem State.updTeam_dbg (s : State) (k : Nat) (f : Team → Team) : (s.updTeam k f).dbg = s.dbg := by unfold State.updTeam; split <;> rfl
@[simp] theorem State.updTeam_plat (s : State) (k : Nat) (f : Team → Team) : (s.updTeam k f).plat = s.plat := by unfold State.updTeam; split <;> rfl

@[simp] theorem State.count_tick (s : State) (u ev n : Nat) : (s.count u ev n).tick = s.tick := by unfold State.count; split <;> rfl
@[simp] theorem State.count_pace (s : State) (u ev n : Nat) : (s.count u ev n).pace = s.pace := by unfold State.count; split <;> rfl
@[simp] theorem State.count_turn (s : State) (u ev n : Nat) : (s.count u ev n).turn = s.turn := by unfold State.count; split <;> rfl
@[simp] theorem State.count_agenda (s : State) (u ev n : Nat) : (s.count u ev n).agenda = s.agenda := by unfold State.count; split <;> rfl
@[simp] theorem State.count_pending (s : State) (u ev n : Nat) : (s.count u ev n).pending = s.pending := by unfold State.count; split <;> rfl
@[simp] theorem State.count_inputs (s : State) (u ev n : Nat) : (s.count u ev n).inputs = s.inputs := by unfold State.count; split <;> rfl
@[simp] theorem State.count_focusCore (s : State) (u ev n : Nat) : (s.count u ev n).focusCore = s.focusCore := by unfold State.count; split <;> rfl
@[simp] theorem State.count_focusPort (s : State) (u ev n : Nat) : (s.count u ev n).focusPort = s.focusPort := by unfold State.count; split <;> rfl
@[simp] theorem State.count_nextId (s : State) (u ev n : Nat) : (s.count u ev n).nextId = s.nextId := by unfold State.count; split <;> rfl
@[simp] theorem State.count_free (s : State) (u ev n : Nat) : (s.count u ev n).free = s.free := by unfold State.count; split <;> rfl
@[simp] theorem State.count_mem (s : State) (u ev n : Nat) : (s.count u ev n).mem = s.mem := by unfold State.count; split <;> rfl
@[simp] theorem State.count_mgmt (s : State) (u ev n : Nat) : (s.count u ev n).mgmt = s.mgmt := by unfold State.count; split <;> rfl
@[simp] theorem State.count_cores (s : State) (u ev n : Nat) : (s.count u ev n).cores = s.cores := by unfold State.count; split <;> rfl
@[simp] theorem State.count_groups (s : State) (u ev n : Nat) : (s.count u ev n).groups = s.groups := by unfold State.count; split <;> rfl
@[simp] theorem State.count_teams (s : State) (u ev n : Nat) : (s.count u ev n).teams = s.teams := by unfold State.count; split <;> rfl
@[simp] theorem State.count_clusters (s : State) (u ev n : Nat) : (s.count u ev n).clusters = s.clusters := by unfold State.count; split <;> rfl
@[simp] theorem State.count_ctxs (s : State) (u ev n : Nat) : (s.count u ev n).ctxs = s.ctxs := by unfold State.count; split <;> rfl
@[simp] theorem State.count_sys (s : State) (u ev n : Nat) : (s.count u ev n).sys = s.sys := by unfold State.count; split <;> rfl
@[simp] theorem State.count_hub (s : State) (u ev n : Nat) : (s.count u ev n).hub = s.hub := by unfold State.count; split <;> rfl
@[simp] theorem State.count_repl (s : State) (u ev n : Nat) : (s.count u ev n).repl = s.repl := by unfold State.count; split <;> rfl
@[simp] theorem State.count_fab (s : State) (u ev n : Nat) : (s.count u ev n).fab = s.fab := by unfold State.count; split <;> rfl
@[simp] theorem State.count_plat (s : State) (u ev n : Nat) : (s.count u ev n).plat = s.plat := by unfold State.count; split <;> rfl

@[simp] theorem State.signal_tick (s : State) (fn vec : Nat) : (s.signal fn vec).tick = s.tick := by unfold State.signal; (repeat' split) <;> rfl
@[simp] theorem State.signal_pace (s : State) (fn vec : Nat) : (s.signal fn vec).pace = s.pace := by unfold State.signal; (repeat' split) <;> rfl
@[simp] theorem State.signal_turn (s : State) (fn vec : Nat) : (s.signal fn vec).turn = s.turn := by unfold State.signal; (repeat' split) <;> rfl
@[simp] theorem State.signal_agenda (s : State) (fn vec : Nat) : (s.signal fn vec).agenda = s.agenda := by unfold State.signal; (repeat' split) <;> rfl
@[simp] theorem State.signal_pending (s : State) (fn vec : Nat) : (s.signal fn vec).pending = s.pending := by unfold State.signal; (repeat' split) <;> rfl
@[simp] theorem State.signal_inputs (s : State) (fn vec : Nat) : (s.signal fn vec).inputs = s.inputs := by unfold State.signal; (repeat' split) <;> rfl
@[simp] theorem State.signal_focusCore (s : State) (fn vec : Nat) : (s.signal fn vec).focusCore = s.focusCore := by unfold State.signal; (repeat' split) <;> rfl
@[simp] theorem State.signal_focusPort (s : State) (fn vec : Nat) : (s.signal fn vec).focusPort = s.focusPort := by unfold State.signal; (repeat' split) <;> rfl
@[simp] theorem State.signal_nextId (s : State) (fn vec : Nat) : (s.signal fn vec).nextId = s.nextId := by unfold State.signal; (repeat' split) <;> rfl
@[simp] theorem State.signal_free (s : State) (fn vec : Nat) : (s.signal fn vec).free = s.free := by unfold State.signal; (repeat' split) <;> rfl
@[simp] theorem State.signal_mem (s : State) (fn vec : Nat) : (s.signal fn vec).mem = s.mem := by unfold State.signal; (repeat' split) <;> rfl
@[simp] theorem State.signal_mgmt (s : State) (fn vec : Nat) : (s.signal fn vec).mgmt = s.mgmt := by unfold State.signal; (repeat' split) <;> rfl
@[simp] theorem State.signal_cores (s : State) (fn vec : Nat) : (s.signal fn vec).cores = s.cores := by unfold State.signal; (repeat' split) <;> rfl
@[simp] theorem State.signal_groups (s : State) (fn vec : Nat) : (s.signal fn vec).groups = s.groups := by unfold State.signal; (repeat' split) <;> rfl
@[simp] theorem State.signal_teams (s : State) (fn vec : Nat) : (s.signal fn vec).teams = s.teams := by unfold State.signal; (repeat' split) <;> rfl
@[simp] theorem State.signal_clusters (s : State) (fn vec : Nat) : (s.signal fn vec).clusters = s.clusters := by unfold State.signal; (repeat' split) <;> rfl
@[simp] theorem State.signal_ctxs (s : State) (fn vec : Nat) : (s.signal fn vec).ctxs = s.ctxs := by unfold State.signal; (repeat' split) <;> rfl
@[simp] theorem State.signal_sys (s : State) (fn vec : Nat) : (s.signal fn vec).sys = s.sys := by unfold State.signal; (repeat' split) <;> rfl
@[simp] theorem State.signal_repl (s : State) (fn vec : Nat) : (s.signal fn vec).repl = s.repl := by unfold State.signal; (repeat' split) <;> rfl
@[simp] theorem State.signal_fab (s : State) (fn vec : Nat) : (s.signal fn vec).fab = s.fab := by unfold State.signal; (repeat' split) <;> rfl
@[simp] theorem State.signal_dbg (s : State) (fn vec : Nat) : (s.signal fn vec).dbg = s.dbg := by unfold State.signal; (repeat' split) <;> rfl
@[simp] theorem State.signal_plat (s : State) (fn vec : Nat) : (s.signal fn vec).plat = s.plat := by unfold State.signal; (repeat' split) <;> rfl

@[simp] theorem State.suspend_tick (s : State) (g : Nat) (w : Susp) : (s.suspend g w).tick = s.tick := by unfold State.suspend; simp
@[simp] theorem State.suspend_pace (s : State) (g : Nat) (w : Susp) : (s.suspend g w).pace = s.pace := by unfold State.suspend; simp
@[simp] theorem State.suspend_turn (s : State) (g : Nat) (w : Susp) : (s.suspend g w).turn = s.turn := by unfold State.suspend; simp
@[simp] theorem State.suspend_agenda (s : State) (g : Nat) (w : Susp) : (s.suspend g w).agenda = s.agenda := by unfold State.suspend; simp
@[simp] theorem State.suspend_pending (s : State) (g : Nat) (w : Susp) : (s.suspend g w).pending = s.pending := by unfold State.suspend; simp
@[simp] theorem State.suspend_inputs (s : State) (g : Nat) (w : Susp) : (s.suspend g w).inputs = s.inputs := by unfold State.suspend; simp
@[simp] theorem State.suspend_focusCore (s : State) (g : Nat) (w : Susp) : (s.suspend g w).focusCore = s.focusCore := by unfold State.suspend; simp
@[simp] theorem State.suspend_focusPort (s : State) (g : Nat) (w : Susp) : (s.suspend g w).focusPort = s.focusPort := by unfold State.suspend; simp
@[simp] theorem State.suspend_nextId (s : State) (g : Nat) (w : Susp) : (s.suspend g w).nextId = s.nextId := by unfold State.suspend; simp
@[simp] theorem State.suspend_free (s : State) (g : Nat) (w : Susp) : (s.suspend g w).free = s.free := by unfold State.suspend; simp
@[simp] theorem State.suspend_mem (s : State) (g : Nat) (w : Susp) : (s.suspend g w).mem = s.mem := by unfold State.suspend; simp
@[simp] theorem State.suspend_mgmt (s : State) (g : Nat) (w : Susp) : (s.suspend g w).mgmt = s.mgmt := by unfold State.suspend; simp
@[simp] theorem State.suspend_cores (s : State) (g : Nat) (w : Susp) : (s.suspend g w).cores = s.cores := by unfold State.suspend; simp
@[simp] theorem State.suspend_teams (s : State) (g : Nat) (w : Susp) : (s.suspend g w).teams = s.teams := by unfold State.suspend; simp
@[simp] theorem State.suspend_clusters (s : State) (g : Nat) (w : Susp) : (s.suspend g w).clusters = s.clusters := by unfold State.suspend; simp
@[simp] theorem State.suspend_ctxs (s : State) (g : Nat) (w : Susp) : (s.suspend g w).ctxs = s.ctxs := by unfold State.suspend; simp
@[simp] theorem State.suspend_sys (s : State) (g : Nat) (w : Susp) : (s.suspend g w).sys = s.sys := by unfold State.suspend; simp
@[simp] theorem State.suspend_hub (s : State) (g : Nat) (w : Susp) : (s.suspend g w).hub = s.hub := by unfold State.suspend; simp
@[simp] theorem State.suspend_repl (s : State) (g : Nat) (w : Susp) : (s.suspend g w).repl = s.repl := by unfold State.suspend; simp
@[simp] theorem State.suspend_fab (s : State) (g : Nat) (w : Susp) : (s.suspend g w).fab = s.fab := by unfold State.suspend; simp
@[simp] theorem State.suspend_dbg (s : State) (g : Nat) (w : Susp) : (s.suspend g w).dbg = s.dbg := by unfold State.suspend; simp
@[simp] theorem State.suspend_plat (s : State) (g : Nat) (w : Susp) : (s.suspend g w).plat = s.plat := by unfold State.suspend; simp

@[simp] theorem State.trapLater_tick (s : State) (g : Nat) (t : PendTrap) : (s.trapLater g t).tick = s.tick := by unfold State.trapLater; simp
@[simp] theorem State.trapLater_pace (s : State) (g : Nat) (t : PendTrap) : (s.trapLater g t).pace = s.pace := by unfold State.trapLater; simp
@[simp] theorem State.trapLater_turn (s : State) (g : Nat) (t : PendTrap) : (s.trapLater g t).turn = s.turn := by unfold State.trapLater; simp
@[simp] theorem State.trapLater_agenda (s : State) (g : Nat) (t : PendTrap) : (s.trapLater g t).agenda = s.agenda := by unfold State.trapLater; simp
@[simp] theorem State.trapLater_pending (s : State) (g : Nat) (t : PendTrap) : (s.trapLater g t).pending = s.pending := by unfold State.trapLater; simp
@[simp] theorem State.trapLater_inputs (s : State) (g : Nat) (t : PendTrap) : (s.trapLater g t).inputs = s.inputs := by unfold State.trapLater; simp
@[simp] theorem State.trapLater_focusCore (s : State) (g : Nat) (t : PendTrap) : (s.trapLater g t).focusCore = s.focusCore := by unfold State.trapLater; simp
@[simp] theorem State.trapLater_focusPort (s : State) (g : Nat) (t : PendTrap) : (s.trapLater g t).focusPort = s.focusPort := by unfold State.trapLater; simp
@[simp] theorem State.trapLater_nextId (s : State) (g : Nat) (t : PendTrap) : (s.trapLater g t).nextId = s.nextId := by unfold State.trapLater; simp
@[simp] theorem State.trapLater_free (s : State) (g : Nat) (t : PendTrap) : (s.trapLater g t).free = s.free := by unfold State.trapLater; simp
@[simp] theorem State.trapLater_mem (s : State) (g : Nat) (t : PendTrap) : (s.trapLater g t).mem = s.mem := by unfold State.trapLater; simp
@[simp] theorem State.trapLater_mgmt (s : State) (g : Nat) (t : PendTrap) : (s.trapLater g t).mgmt = s.mgmt := by unfold State.trapLater; simp
@[simp] theorem State.trapLater_cores (s : State) (g : Nat) (t : PendTrap) : (s.trapLater g t).cores = s.cores := by unfold State.trapLater; simp
@[simp] theorem State.trapLater_teams (s : State) (g : Nat) (t : PendTrap) : (s.trapLater g t).teams = s.teams := by unfold State.trapLater; simp
@[simp] theorem State.trapLater_clusters (s : State) (g : Nat) (t : PendTrap) : (s.trapLater g t).clusters = s.clusters := by unfold State.trapLater; simp
@[simp] theorem State.trapLater_ctxs (s : State) (g : Nat) (t : PendTrap) : (s.trapLater g t).ctxs = s.ctxs := by unfold State.trapLater; simp
@[simp] theorem State.trapLater_sys (s : State) (g : Nat) (t : PendTrap) : (s.trapLater g t).sys = s.sys := by unfold State.trapLater; simp
@[simp] theorem State.trapLater_hub (s : State) (g : Nat) (t : PendTrap) : (s.trapLater g t).hub = s.hub := by unfold State.trapLater; simp
@[simp] theorem State.trapLater_repl (s : State) (g : Nat) (t : PendTrap) : (s.trapLater g t).repl = s.repl := by unfold State.trapLater; simp
@[simp] theorem State.trapLater_fab (s : State) (g : Nat) (t : PendTrap) : (s.trapLater g t).fab = s.fab := by unfold State.trapLater; simp
@[simp] theorem State.trapLater_dbg (s : State) (g : Nat) (t : PendTrap) : (s.trapLater g t).dbg = s.dbg := by unfold State.trapLater; simp
@[simp] theorem State.trapLater_plat (s : State) (g : Nat) (t : PendTrap) : (s.trapLater g t).plat = s.plat := by unfold State.trapLater; simp

@[simp] theorem State.eligible_tick (s : State) (g : Nat) : (s.eligible g).tick = s.tick := by unfold State.eligible; simp
@[simp] theorem State.eligible_pace (s : State) (g : Nat) : (s.eligible g).pace = s.pace := by unfold State.eligible; simp
@[simp] theorem State.eligible_turn (s : State) (g : Nat) : (s.eligible g).turn = s.turn := by unfold State.eligible; simp
@[simp] theorem State.eligible_agenda (s : State) (g : Nat) : (s.eligible g).agenda = s.agenda := by unfold State.eligible; simp
@[simp] theorem State.eligible_pending (s : State) (g : Nat) : (s.eligible g).pending = s.pending := by unfold State.eligible; simp
@[simp] theorem State.eligible_inputs (s : State) (g : Nat) : (s.eligible g).inputs = s.inputs := by unfold State.eligible; simp
@[simp] theorem State.eligible_focusCore (s : State) (g : Nat) : (s.eligible g).focusCore = s.focusCore := by unfold State.eligible; simp
@[simp] theorem State.eligible_focusPort (s : State) (g : Nat) : (s.eligible g).focusPort = s.focusPort := by unfold State.eligible; simp
@[simp] theorem State.eligible_nextId (s : State) (g : Nat) : (s.eligible g).nextId = s.nextId := by unfold State.eligible; simp
@[simp] theorem State.eligible_free (s : State) (g : Nat) : (s.eligible g).free = s.free := by unfold State.eligible; simp
@[simp] theorem State.eligible_mem (s : State) (g : Nat) : (s.eligible g).mem = s.mem := by unfold State.eligible; simp
@[simp] theorem State.eligible_mgmt (s : State) (g : Nat) : (s.eligible g).mgmt = s.mgmt := by unfold State.eligible; simp
@[simp] theorem State.eligible_cores (s : State) (g : Nat) : (s.eligible g).cores = s.cores := by unfold State.eligible; simp
@[simp] theorem State.eligible_teams (s : State) (g : Nat) : (s.eligible g).teams = s.teams := by unfold State.eligible; simp
@[simp] theorem State.eligible_clusters (s : State) (g : Nat) : (s.eligible g).clusters = s.clusters := by unfold State.eligible; simp
@[simp] theorem State.eligible_ctxs (s : State) (g : Nat) : (s.eligible g).ctxs = s.ctxs := by unfold State.eligible; simp
@[simp] theorem State.eligible_sys (s : State) (g : Nat) : (s.eligible g).sys = s.sys := by unfold State.eligible; simp
@[simp] theorem State.eligible_hub (s : State) (g : Nat) : (s.eligible g).hub = s.hub := by unfold State.eligible; simp
@[simp] theorem State.eligible_repl (s : State) (g : Nat) : (s.eligible g).repl = s.repl := by unfold State.eligible; simp
@[simp] theorem State.eligible_fab (s : State) (g : Nat) : (s.eligible g).fab = s.fab := by unfold State.eligible; simp
@[simp] theorem State.eligible_dbg (s : State) (g : Nat) : (s.eligible g).dbg = s.dbg := by unfold State.eligible; simp
@[simp] theorem State.eligible_plat (s : State) (g : Nat) : (s.eligible g).plat = s.plat := by unfold State.eligible; simp

@[simp] theorem State.releasePort_tick (s : State) (g : Nat) : (s.releasePort g).tick = s.tick := by unfold State.releasePort; split <;> simp
@[simp] theorem State.releasePort_pace (s : State) (g : Nat) : (s.releasePort g).pace = s.pace := by unfold State.releasePort; split <;> simp
@[simp] theorem State.releasePort_turn (s : State) (g : Nat) : (s.releasePort g).turn = s.turn := by unfold State.releasePort; split <;> simp
@[simp] theorem State.releasePort_agenda (s : State) (g : Nat) : (s.releasePort g).agenda = s.agenda := by unfold State.releasePort; split <;> simp
@[simp] theorem State.releasePort_pending (s : State) (g : Nat) : (s.releasePort g).pending = s.pending := by unfold State.releasePort; split <;> simp
@[simp] theorem State.releasePort_inputs (s : State) (g : Nat) : (s.releasePort g).inputs = s.inputs := by unfold State.releasePort; split <;> simp
@[simp] theorem State.releasePort_focusCore (s : State) (g : Nat) : (s.releasePort g).focusCore = s.focusCore := by unfold State.releasePort; split <;> simp
@[simp] theorem State.releasePort_focusPort (s : State) (g : Nat) : (s.releasePort g).focusPort = s.focusPort := by unfold State.releasePort; split <;> simp
@[simp] theorem State.releasePort_nextId (s : State) (g : Nat) : (s.releasePort g).nextId = s.nextId := by unfold State.releasePort; split <;> simp
@[simp] theorem State.releasePort_free (s : State) (g : Nat) : (s.releasePort g).free = s.free := by unfold State.releasePort; split <;> simp
@[simp] theorem State.releasePort_mem (s : State) (g : Nat) : (s.releasePort g).mem = s.mem := by unfold State.releasePort; split <;> simp
@[simp] theorem State.releasePort_mgmt (s : State) (g : Nat) : (s.releasePort g).mgmt = s.mgmt := by unfold State.releasePort; split <;> simp
@[simp] theorem State.releasePort_teams (s : State) (g : Nat) : (s.releasePort g).teams = s.teams := by unfold State.releasePort; split <;> simp
@[simp] theorem State.releasePort_clusters (s : State) (g : Nat) : (s.releasePort g).clusters = s.clusters := by unfold State.releasePort; split <;> simp
@[simp] theorem State.releasePort_ctxs (s : State) (g : Nat) : (s.releasePort g).ctxs = s.ctxs := by unfold State.releasePort; split <;> simp
@[simp] theorem State.releasePort_sys (s : State) (g : Nat) : (s.releasePort g).sys = s.sys := by unfold State.releasePort; split <;> simp
@[simp] theorem State.releasePort_hub (s : State) (g : Nat) : (s.releasePort g).hub = s.hub := by unfold State.releasePort; split <;> simp
@[simp] theorem State.releasePort_repl (s : State) (g : Nat) : (s.releasePort g).repl = s.repl := by unfold State.releasePort; split <;> simp
@[simp] theorem State.releasePort_fab (s : State) (g : Nat) : (s.releasePort g).fab = s.fab := by unfold State.releasePort; split <;> simp
@[simp] theorem State.releasePort_dbg (s : State) (g : Nat) : (s.releasePort g).dbg = s.dbg := by unfold State.releasePort; split <;> simp
@[simp] theorem State.releasePort_plat (s : State) (g : Nat) : (s.releasePort g).plat = s.plat := by unfold State.releasePort; split <;> simp

@[simp] theorem State.haltGroup_tick (s : State) (g : Nat) : (s.haltGroup g).tick = s.tick := by unfold State.haltGroup; simp
@[simp] theorem State.haltGroup_pace (s : State) (g : Nat) : (s.haltGroup g).pace = s.pace := by unfold State.haltGroup; simp
@[simp] theorem State.haltGroup_turn (s : State) (g : Nat) : (s.haltGroup g).turn = s.turn := by unfold State.haltGroup; simp
@[simp] theorem State.haltGroup_agenda (s : State) (g : Nat) : (s.haltGroup g).agenda = s.agenda := by unfold State.haltGroup; simp
@[simp] theorem State.haltGroup_pending (s : State) (g : Nat) : (s.haltGroup g).pending = s.pending := by unfold State.haltGroup; simp
@[simp] theorem State.haltGroup_inputs (s : State) (g : Nat) : (s.haltGroup g).inputs = s.inputs := by unfold State.haltGroup; simp
@[simp] theorem State.haltGroup_focusCore (s : State) (g : Nat) : (s.haltGroup g).focusCore = s.focusCore := by unfold State.haltGroup; simp
@[simp] theorem State.haltGroup_focusPort (s : State) (g : Nat) : (s.haltGroup g).focusPort = s.focusPort := by unfold State.haltGroup; simp
@[simp] theorem State.haltGroup_nextId (s : State) (g : Nat) : (s.haltGroup g).nextId = s.nextId := by unfold State.haltGroup; simp
@[simp] theorem State.haltGroup_free (s : State) (g : Nat) : (s.haltGroup g).free = s.free := by unfold State.haltGroup; simp
@[simp] theorem State.haltGroup_mem (s : State) (g : Nat) : (s.haltGroup g).mem = s.mem := by unfold State.haltGroup; simp
@[simp] theorem State.haltGroup_mgmt (s : State) (g : Nat) : (s.haltGroup g).mgmt = s.mgmt := by unfold State.haltGroup; simp
@[simp] theorem State.haltGroup_teams (s : State) (g : Nat) : (s.haltGroup g).teams = s.teams := by unfold State.haltGroup; simp
@[simp] theorem State.haltGroup_clusters (s : State) (g : Nat) : (s.haltGroup g).clusters = s.clusters := by unfold State.haltGroup; simp
@[simp] theorem State.haltGroup_ctxs (s : State) (g : Nat) : (s.haltGroup g).ctxs = s.ctxs := by unfold State.haltGroup; simp
@[simp] theorem State.haltGroup_sys (s : State) (g : Nat) : (s.haltGroup g).sys = s.sys := by unfold State.haltGroup; simp
@[simp] theorem State.haltGroup_hub (s : State) (g : Nat) : (s.haltGroup g).hub = s.hub := by unfold State.haltGroup; simp
@[simp] theorem State.haltGroup_repl (s : State) (g : Nat) : (s.haltGroup g).repl = s.repl := by unfold State.haltGroup; simp
@[simp] theorem State.haltGroup_fab (s : State) (g : Nat) : (s.haltGroup g).fab = s.fab := by unfold State.haltGroup; simp
@[simp] theorem State.haltGroup_dbg (s : State) (g : Nat) : (s.haltGroup g).dbg = s.dbg := by unfold State.haltGroup; simp
@[simp] theorem State.haltGroup_plat (s : State) (g : Nat) : (s.haltGroup g).plat = s.plat := by unfold State.haltGroup; simp

@[simp] theorem State.endRun_tick (s : State) (g : Nat) (keep : Bool) : (s.endRun g keep).tick = s.tick := by simp only [State.endRun, State.eligible_tick, State.releasePort_tick, State.updGrp_tick, apply_ite State.tick, State.count_tick, ite_self]
@[simp] theorem State.endRun_pace (s : State) (g : Nat) (keep : Bool) : (s.endRun g keep).pace = s.pace := by simp only [State.endRun, State.eligible_pace, State.releasePort_pace, State.updGrp_pace, apply_ite State.pace, State.count_pace, ite_self]
@[simp] theorem State.endRun_turn (s : State) (g : Nat) (keep : Bool) : (s.endRun g keep).turn = s.turn := by simp only [State.endRun, State.eligible_turn, State.releasePort_turn, State.updGrp_turn, apply_ite State.turn, State.count_turn, ite_self]
@[simp] theorem State.endRun_agenda (s : State) (g : Nat) (keep : Bool) : (s.endRun g keep).agenda = s.agenda := by simp only [State.endRun, State.eligible_agenda, State.releasePort_agenda, State.updGrp_agenda, apply_ite State.agenda, State.count_agenda, ite_self]
@[simp] theorem State.endRun_pending (s : State) (g : Nat) (keep : Bool) : (s.endRun g keep).pending = s.pending := by simp only [State.endRun, State.eligible_pending, State.releasePort_pending, State.updGrp_pending, apply_ite State.pending, State.count_pending, ite_self]
@[simp] theorem State.endRun_inputs (s : State) (g : Nat) (keep : Bool) : (s.endRun g keep).inputs = s.inputs := by simp only [State.endRun, State.eligible_inputs, State.releasePort_inputs, State.updGrp_inputs, apply_ite State.inputs, State.count_inputs, ite_self]
@[simp] theorem State.endRun_focusCore (s : State) (g : Nat) (keep : Bool) : (s.endRun g keep).focusCore = s.focusCore := by simp only [State.endRun, State.eligible_focusCore, State.releasePort_focusCore, State.updGrp_focusCore, apply_ite State.focusCore, State.count_focusCore, ite_self]
@[simp] theorem State.endRun_focusPort (s : State) (g : Nat) (keep : Bool) : (s.endRun g keep).focusPort = s.focusPort := by simp only [State.endRun, State.eligible_focusPort, State.releasePort_focusPort, State.updGrp_focusPort, apply_ite State.focusPort, State.count_focusPort, ite_self]
@[simp] theorem State.endRun_nextId (s : State) (g : Nat) (keep : Bool) : (s.endRun g keep).nextId = s.nextId := by simp only [State.endRun, State.eligible_nextId, State.releasePort_nextId, State.updGrp_nextId, apply_ite State.nextId, State.count_nextId, ite_self]
@[simp] theorem State.endRun_free (s : State) (g : Nat) (keep : Bool) : (s.endRun g keep).free = s.free := by simp only [State.endRun, State.eligible_free, State.releasePort_free, State.updGrp_free, apply_ite State.free, State.count_free, ite_self]
@[simp] theorem State.endRun_mem (s : State) (g : Nat) (keep : Bool) : (s.endRun g keep).mem = s.mem := by simp only [State.endRun, State.eligible_mem, State.releasePort_mem, State.updGrp_mem, apply_ite State.mem, State.count_mem, ite_self]
@[simp] theorem State.endRun_mgmt (s : State) (g : Nat) (keep : Bool) : (s.endRun g keep).mgmt = s.mgmt := by simp only [State.endRun, State.eligible_mgmt, State.releasePort_mgmt, State.updGrp_mgmt, apply_ite State.mgmt, State.count_mgmt, ite_self]
@[simp] theorem State.endRun_teams (s : State) (g : Nat) (keep : Bool) : (s.endRun g keep).teams = s.teams := by simp only [State.endRun, State.eligible_teams, State.releasePort_teams, State.updGrp_teams, apply_ite State.teams, State.count_teams, ite_self]
@[simp] theorem State.endRun_clusters (s : State) (g : Nat) (keep : Bool) : (s.endRun g keep).clusters = s.clusters := by simp only [State.endRun, State.eligible_clusters, State.releasePort_clusters, State.updGrp_clusters, apply_ite State.clusters, State.count_clusters, ite_self]
@[simp] theorem State.endRun_ctxs (s : State) (g : Nat) (keep : Bool) : (s.endRun g keep).ctxs = s.ctxs := by simp only [State.endRun, State.eligible_ctxs, State.releasePort_ctxs, State.updGrp_ctxs, apply_ite State.ctxs, State.count_ctxs, ite_self]
@[simp] theorem State.endRun_sys (s : State) (g : Nat) (keep : Bool) : (s.endRun g keep).sys = s.sys := by simp only [State.endRun, State.eligible_sys, State.releasePort_sys, State.updGrp_sys, apply_ite State.sys, State.count_sys, ite_self]
@[simp] theorem State.endRun_hub (s : State) (g : Nat) (keep : Bool) : (s.endRun g keep).hub = s.hub := by simp only [State.endRun, State.eligible_hub, State.releasePort_hub, State.updGrp_hub, apply_ite State.hub, State.count_hub, ite_self]
@[simp] theorem State.endRun_repl (s : State) (g : Nat) (keep : Bool) : (s.endRun g keep).repl = s.repl := by simp only [State.endRun, State.eligible_repl, State.releasePort_repl, State.updGrp_repl, apply_ite State.repl, State.count_repl, ite_self]
@[simp] theorem State.endRun_fab (s : State) (g : Nat) (keep : Bool) : (s.endRun g keep).fab = s.fab := by simp only [State.endRun, State.eligible_fab, State.releasePort_fab, State.updGrp_fab, apply_ite State.fab, State.count_fab, ite_self]
@[simp] theorem State.endRun_plat (s : State) (g : Nat) (keep : Bool) : (s.endRun g keep).plat = s.plat := by simp only [State.endRun, State.eligible_plat, State.releasePort_plat, State.updGrp_plat, apply_ite State.plat, State.count_plat, ite_self]

@[simp] theorem State.dropLeases_tick (s : State) (c : Nat) : (s.dropLeases c).tick = s.tick := rfl
@[simp] theorem State.dropLeases_pace (s : State) (c : Nat) : (s.dropLeases c).pace = s.pace := rfl
@[simp] theorem State.dropLeases_turn (s : State) (c : Nat) : (s.dropLeases c).turn = s.turn := rfl
@[simp] theorem State.dropLeases_agenda (s : State) (c : Nat) : (s.dropLeases c).agenda = s.agenda := rfl
@[simp] theorem State.dropLeases_pending (s : State) (c : Nat) : (s.dropLeases c).pending = s.pending := rfl
@[simp] theorem State.dropLeases_inputs (s : State) (c : Nat) : (s.dropLeases c).inputs = s.inputs := rfl
@[simp] theorem State.dropLeases_focusCore (s : State) (c : Nat) : (s.dropLeases c).focusCore = s.focusCore := rfl
@[simp] theorem State.dropLeases_focusPort (s : State) (c : Nat) : (s.dropLeases c).focusPort = s.focusPort := rfl
@[simp] theorem State.dropLeases_nextId (s : State) (c : Nat) : (s.dropLeases c).nextId = s.nextId := rfl
@[simp] theorem State.dropLeases_free (s : State) (c : Nat) : (s.dropLeases c).free = s.free := rfl
@[simp] theorem State.dropLeases_mem (s : State) (c : Nat) : (s.dropLeases c).mem = s.mem := rfl
@[simp] theorem State.dropLeases_mgmt (s : State) (c : Nat) : (s.dropLeases c).mgmt = s.mgmt := rfl
@[simp] theorem State.dropLeases_groups (s : State) (c : Nat) : (s.dropLeases c).groups = s.groups := rfl
@[simp] theorem State.dropLeases_teams (s : State) (c : Nat) : (s.dropLeases c).teams = s.teams := rfl
@[simp] theorem State.dropLeases_clusters (s : State) (c : Nat) : (s.dropLeases c).clusters = s.clusters := rfl
@[simp] theorem State.dropLeases_ctxs (s : State) (c : Nat) : (s.dropLeases c).ctxs = s.ctxs := rfl
@[simp] theorem State.dropLeases_hub (s : State) (c : Nat) : (s.dropLeases c).hub = s.hub := rfl
@[simp] theorem State.dropLeases_repl (s : State) (c : Nat) : (s.dropLeases c).repl = s.repl := rfl
@[simp] theorem State.dropLeases_fab (s : State) (c : Nat) : (s.dropLeases c).fab = s.fab := rfl
@[simp] theorem State.dropLeases_dbg (s : State) (c : Nat) : (s.dropLeases c).dbg = s.dbg := rfl
@[simp] theorem State.dropLeases_plat (s : State) (c : Nat) : (s.dropLeases c).plat = s.plat := rfl

@[simp] theorem State.leaveBarrier_tick (s : State) (g : Nat) : (s.leaveBarrier g).tick = s.tick := by unfold State.leaveBarrier; simp
@[simp] theorem State.leaveBarrier_pace (s : State) (g : Nat) : (s.leaveBarrier g).pace = s.pace := by unfold State.leaveBarrier; simp
@[simp] theorem State.leaveBarrier_turn (s : State) (g : Nat) : (s.leaveBarrier g).turn = s.turn := by unfold State.leaveBarrier; simp
@[simp] theorem State.leaveBarrier_agenda (s : State) (g : Nat) : (s.leaveBarrier g).agenda = s.agenda := by unfold State.leaveBarrier; simp
@[simp] theorem State.leaveBarrier_pending (s : State) (g : Nat) : (s.leaveBarrier g).pending = s.pending := by unfold State.leaveBarrier; simp
@[simp] theorem State.leaveBarrier_inputs (s : State) (g : Nat) : (s.leaveBarrier g).inputs = s.inputs := by unfold State.leaveBarrier; simp
@[simp] theorem State.leaveBarrier_focusCore (s : State) (g : Nat) : (s.leaveBarrier g).focusCore = s.focusCore := by unfold State.leaveBarrier; simp
@[simp] theorem State.leaveBarrier_focusPort (s : State) (g : Nat) : (s.leaveBarrier g).focusPort = s.focusPort := by unfold State.leaveBarrier; simp
@[simp] theorem State.leaveBarrier_nextId (s : State) (g : Nat) : (s.leaveBarrier g).nextId = s.nextId := by unfold State.leaveBarrier; simp
@[simp] theorem State.leaveBarrier_free (s : State) (g : Nat) : (s.leaveBarrier g).free = s.free := by unfold State.leaveBarrier; simp
@[simp] theorem State.leaveBarrier_mem (s : State) (g : Nat) : (s.leaveBarrier g).mem = s.mem := by unfold State.leaveBarrier; simp
@[simp] theorem State.leaveBarrier_mgmt (s : State) (g : Nat) : (s.leaveBarrier g).mgmt = s.mgmt := by unfold State.leaveBarrier; simp
@[simp] theorem State.leaveBarrier_cores (s : State) (g : Nat) : (s.leaveBarrier g).cores = s.cores := by unfold State.leaveBarrier; simp
@[simp] theorem State.leaveBarrier_teams (s : State) (g : Nat) : (s.leaveBarrier g).teams = s.teams := by unfold State.leaveBarrier; simp
@[simp] theorem State.leaveBarrier_clusters (s : State) (g : Nat) : (s.leaveBarrier g).clusters = s.clusters := by unfold State.leaveBarrier; simp
@[simp] theorem State.leaveBarrier_ctxs (s : State) (g : Nat) : (s.leaveBarrier g).ctxs = s.ctxs := by unfold State.leaveBarrier; simp
@[simp] theorem State.leaveBarrier_sys (s : State) (g : Nat) : (s.leaveBarrier g).sys = s.sys := by unfold State.leaveBarrier; simp
@[simp] theorem State.leaveBarrier_hub (s : State) (g : Nat) : (s.leaveBarrier g).hub = s.hub := by unfold State.leaveBarrier; simp
@[simp] theorem State.leaveBarrier_repl (s : State) (g : Nat) : (s.leaveBarrier g).repl = s.repl := by unfold State.leaveBarrier; simp
@[simp] theorem State.leaveBarrier_fab (s : State) (g : Nat) : (s.leaveBarrier g).fab = s.fab := by unfold State.leaveBarrier; simp
@[simp] theorem State.leaveBarrier_dbg (s : State) (g : Nat) : (s.leaveBarrier g).dbg = s.dbg := by unfold State.leaveBarrier; simp
@[simp] theorem State.leaveBarrier_plat (s : State) (g : Nat) : (s.leaveBarrier g).plat = s.plat := by unfold State.leaveBarrier; simp

@[simp] theorem State.wake_tick (s : State) (g : Nat) : (s.wake g).tick = s.tick := by unfold State.wake; simp
@[simp] theorem State.wake_pace (s : State) (g : Nat) : (s.wake g).pace = s.pace := by unfold State.wake; simp
@[simp] theorem State.wake_turn (s : State) (g : Nat) : (s.wake g).turn = s.turn := by unfold State.wake; simp
@[simp] theorem State.wake_agenda (s : State) (g : Nat) : (s.wake g).agenda = s.agenda := by unfold State.wake; simp
@[simp] theorem State.wake_pending (s : State) (g : Nat) : (s.wake g).pending = s.pending := by unfold State.wake; simp
@[simp] theorem State.wake_inputs (s : State) (g : Nat) : (s.wake g).inputs = s.inputs := by unfold State.wake; simp
@[simp] theorem State.wake_focusCore (s : State) (g : Nat) : (s.wake g).focusCore = s.focusCore := by unfold State.wake; simp
@[simp] theorem State.wake_focusPort (s : State) (g : Nat) : (s.wake g).focusPort = s.focusPort := by unfold State.wake; simp
@[simp] theorem State.wake_nextId (s : State) (g : Nat) : (s.wake g).nextId = s.nextId := by unfold State.wake; simp
@[simp] theorem State.wake_free (s : State) (g : Nat) : (s.wake g).free = s.free := by unfold State.wake; simp
@[simp] theorem State.wake_mem (s : State) (g : Nat) : (s.wake g).mem = s.mem := by unfold State.wake; simp
@[simp] theorem State.wake_mgmt (s : State) (g : Nat) : (s.wake g).mgmt = s.mgmt := by unfold State.wake; simp
@[simp] theorem State.wake_cores (s : State) (g : Nat) : (s.wake g).cores = s.cores := by unfold State.wake; simp
@[simp] theorem State.wake_teams (s : State) (g : Nat) : (s.wake g).teams = s.teams := by unfold State.wake; simp
@[simp] theorem State.wake_clusters (s : State) (g : Nat) : (s.wake g).clusters = s.clusters := by unfold State.wake; simp
@[simp] theorem State.wake_ctxs (s : State) (g : Nat) : (s.wake g).ctxs = s.ctxs := by unfold State.wake; simp
@[simp] theorem State.wake_sys (s : State) (g : Nat) : (s.wake g).sys = s.sys := by unfold State.wake; simp
@[simp] theorem State.wake_hub (s : State) (g : Nat) : (s.wake g).hub = s.hub := by unfold State.wake; simp
@[simp] theorem State.wake_repl (s : State) (g : Nat) : (s.wake g).repl = s.repl := by unfold State.wake; simp
@[simp] theorem State.wake_fab (s : State) (g : Nat) : (s.wake g).fab = s.fab := by unfold State.wake; simp
@[simp] theorem State.wake_dbg (s : State) (g : Nat) : (s.wake g).dbg = s.dbg := by unfold State.wake; simp
@[simp] theorem State.wake_plat (s : State) (g : Nat) : (s.wake g).plat = s.plat := by unfold State.wake; simp

end Sys2Proof.Machine
end

