-- ==== Sys2Proof/Laws/Registers.lean ====
section
/-!
SUPPORT. Laws/Registers.lean: what the writes of registers do: every register of a group reads as before but for those written.
-/
namespace Sys2Proof.Machine

/-! ### Groups and teams in the state -/

@[simp] theorem State.grp_setGrp (s : State) (g k : Nat) (x : Group) :
    (s.setGrp g x).grp k = if k = g then x else s.grp k := by
  simp only [State.grp, State.setGrp, Tab.get_put]

@[simp] theorem State.hasGrp_setGrp (s : State) (g k : Nat) (x : Group) :
    (s.setGrp g x).hasGrp k = (decide (k = g) || s.hasGrp k) := by
  simp only [State.hasGrp, State.setGrp, Tab.find?_put]; split <;> simp [*]

theorem State.grp_updGrp (s : State) (g k : Nat) (f : Group → Group) :
    (s.updGrp g f).grp k = if k = g ∧ s.hasGrp g then f (s.grp g) else s.grp k := by
  unfold State.updGrp State.hasGrp
  cases h : Tab.find? g s.groups with
  | none => simp
  | some x =>
    have hx : s.grp g = x := by simp [State.grp, Tab.get_eq_find?, h]
    simp [hx]

@[simp] theorem State.hasGrp_updGrp (s : State) (g k : Nat) (f : Group → Group) : (s.updGrp g f).hasGrp k = s.hasGrp k := by
  unfold State.updGrp
  cases h : Tab.find? g s.groups with
  | none => rfl
  | some x => by_cases hk : k = g <;> simp [hk, State.hasGrp, State.setGrp, Tab.find?_put, h]

@[simp] theorem State.team_setTeam (s : State) (k j : Nat) (x : Team) :
    (s.setTeam k x).team j = if j = k then x else s.team j := by
  simp only [State.team, State.setTeam, Tab.get_put]

@[simp] theorem State.core_setCore (s : State) (k j : Nat) (x : Core) :
    (s.setCore k x).core j = if j = k then x else s.core j := by
  simp only [State.core, State.setCore, Tab.get_set]

@[simp] theorem State.reg_setReg (s : State) (a b : Nat) (v : Word) :
    (s.setReg a v).reg b = if b = a then v else s.reg b := by
  simp only [State.reg, State.setReg]
  by_cases h : b = a
  · subst h; simp
  · rw [if_neg h, Tab.get_set_ne _ _ h]

/-! ### Bytes -/

@[simp] theorem State.byte_setByte (s : State) (pa q : Nat) (b : Byte) :
    (s.setByte pa b).byte q = if q = pa then b else s.byte q := by
  simp only [State.byte, State.setByte, memByte, memSetByte, Tab.get_set]

theorem State.byte_setBytes (s : State) (pa q : Nat) (l : List Byte) :
    (s.setBytes pa l).byte q = if pa ≤ q ∧ q < pa + l.length then l.getD (q - pa) 0 else s.byte q := by
  induction l generalizing s pa with
  | nil => simp only [State.setBytes, List.length_nil]; split <;> first | omega | rfl
  | cons b t ih =>
    simp only [State.setBytes, ih, State.byte_setByte, List.length_cons]
    by_cases h : q = pa
    · subst h; simp
    · by_cases h2 : pa + 1 ≤ q ∧ q < pa + 1 + t.length
      · have : q - pa = (q - (pa + 1)) + 1 := by omega
        rw [if_pos h2, if_pos ⟨by omega, by omega⟩, this]; simp
      · rw [if_neg h2, if_neg h, if_neg (by omega)]

@[simp] theorem bytesOfNum_length (n x : Nat) : (bytesOfNum n x).length = n := by
  induction n generalizing x with
  | zero => rfl
  | succ n ih => simp [bytesOfNum, ih]

/-- Every write of bytes keeps the canonical form of memory. -/
theorem State.wf_setByte (s : State) (pa : Nat) (b : Byte) (h : Memory.wf s.mem = true) :
    Memory.wf (s.setByte pa b).mem = true := Tab.wf_set 0 pa b s.mem h

theorem State.wf_setBytes (s : State) (pa : Nat) (l : List Byte) (h : Memory.wf s.mem = true) :
    Memory.wf (s.setBytes pa l).mem = true := by
  induction l generalizing s pa with
  | nil => exact h
  | cons b t ih => exact ih _ _ (s.wf_setByte pa b h)

theorem State.wf_store (s : State) (pa n x : Nat) (h : Memory.wf s.mem = true) : Memory.wf (s.store pa n x).mem = true :=
  s.wf_setBytes pa _ h

/-! ### Registers of a group -/

@[simp] theorem Group.vreg_setLane (x : Group) (n l m k : Nat) (v : Lane32) :
    (x.setLane n l v).vreg m k = if m = n ∧ k = l then v else x.vreg m k := by
  simp only [Group.vreg, Group.setLane, Tab.get_set]
  by_cases hm : m = n
  · subst hm; simp [Tab.get_set]
  · simp [hm]

theorem getLast?_eq_none {α : Type} (l : List α) : l.getLast? = none ↔ l = [] := by simp

/-- What a fold of lane writes leaves. -/
theorem foldl_setLane (x : Group) (n : Nat) (f : Nat → Lane32) (ls : List Nat) :
    (∀ m k, (ls.foldl (fun x l => x.setLane n l (f l)) x).vreg m k = if m = n ∧ k ∈ ls then f k else x.vreg m k) ∧
    (∃ v, ls.foldl (fun x l => x.setLane n l (f l)) x = { x with regs := { x.regs with v := v } }) := by
  induction ls generalizing x with
  | nil => exact ⟨by simp, ⟨x.regs.v, rfl⟩⟩
  | cons l t ih =>
    obtain ⟨h1, v, h2⟩ := ih (x.setLane n l (f l))
    refine ⟨fun m k => ?_, v, ?_⟩
    · rw [List.foldl_cons, h1]
      simp only [Group.vreg_setLane, List.mem_cons]
      by_cases hm : m = n <;> by_cases hk : k ∈ t <;> by_cases hl : k = l <;> simp_all
    · rw [List.foldl_cons, h2]; rfl

/-- A predicate's bits after the writes of its lanes. -/
theorem foldl_setBit (f : Nat → Bool) (ls : List Nat) (m : Mask) (k : Nat) (hk : k < 96) :
    (ls.foldl (fun (m : Mask) l => (m &&& ~~~(1#96 <<< l)) ||| (if f l then 1#96 <<< l else 0)) m).getLsbD k =
      if k ∈ ls then f k else m.getLsbD k := by
  induction ls generalizing m with
  | nil => simp
  | cons l t ih =>
    rw [List.foldl_cons, ih]
    by_cases hkt : k ∈ t
    · simp [hkt]
    · by_cases hl : k = l
      · subst hl
        cases f k <;> simp [hkt, hk]
      · have h1 : (1#96 <<< l).getLsbD k = false := by
          simp only [BitVec.getLsbD_shiftLeft, hk, decide_true, Bool.true_and]
          by_cases h : k < l
          · simp [h]
          · simp [h]; omega
        have hn : ¬ k ∈ l :: t := by simp [hkt, hl]
        rw [if_neg hkt, if_neg hn]
        simp only [BitVec.getLsbD_or, BitVec.getLsbD_and, BitVec.getLsbD_not, hk, decide_true, Bool.true_and, h1]
        cases f l <;> simp [h1]

theorem isFull_fill (x : Group) (r q : Nat) (hq : q < 192) :
    (({ x with regs := x.regs.fill r } : Group).isFull q) = (x.isFull q || decide (q = r)) := by
  simp only [Group.isFull, Regs.fill, BitVec.getLsbD_or, BitVec.getLsbD_shiftLeft, hq, decide_true, Bool.true_and]
  congr 1
  by_cases h : q = r
  · subst h; simp
  · by_cases h2 : q < r
    · simp [h, h2]
    · have : ¬ q - r = 0 := by omega
      simp [h, h2, this]

/-- Bits of a mask with one beat replaced (R24). -/
theorem getLsbD_maskPut (m : Mask) (k : Nat) (x : BitVec 32) (_hk : k < 3) (l : Nat) (hl : l < 96) :
    (maskPut m k x).getLsbD l = if l / 32 = k then x.getLsbD (l % 32) else m.getLsbD l := by
  simp only [maskPut, BitVec.getLsbD_or, BitVec.getLsbD_and, BitVec.getLsbD_not, BitVec.getLsbD_shiftLeft, hl, decide_true,
    Bool.true_and, BitVec.getLsbD_setWidth, BitVec.getLsbD_allOnes]
  by_cases h : l / 32 = k
  · have h1 : ¬ l < 32 * k := by omega
    have h2 : l - 32 * k < 32 := by omega
    have h3 : l - 32 * k < 96 := by omega
    have h4 : l % 32 = l - 32 * k := by omega
    simp [h, h1, h2, h3, h4]
  · by_cases h1 : l < 32 * k
    · simp [h, h1]
    · have h2 : ¬ l - 32 * k < 32 := by omega
      have h3 : x.getLsbD (l - 32 * k) = false := BitVec.getLsbD_of_ge _ _ (by omega)
      simp [h, h1, h2, h3]

/-- Everything that a write of an operand does (R26, R34, R104, R105). -/
theorem Group.wrote_write (x : Group) (d : Operand) (lanes : List Nat) (f : Nat → Word) :
    Wrote x (x.write d lanes f) d lanes f := by
  unfold Group.write
  cases ht : lanes.getLast? with
  | none =>
    have hl : lanes = [] := by simpa using ht
    subst hl
    constructor <;> simp [fills]
  | some top =>
    have hne : lanes ≠ [] := by rintro rfl; simp at ht
    have hemp : lanes.isEmpty = false := by simpa using hne
    cases d with
    | v n =>
      obtain ⟨h1, v, h2⟩ := foldl_setLane x n.val (fun l => (f l).setWidth 32) lanes
      simp only []
      rw [h2] at h1 ⊢
      constructor
      · intro m l
        have := h1 m.val l
        simp only [Group.vreg] at this ⊢
        simp only [Regs.fill, this, Operand.v.injEq, Fin.ext_iff, eq_comm]
      · intro m hm; simp [Group.sreg, Regs.fill, hm, ht]
      · intro m hm h; simp at h
      · intro; rfl
      · intro m hm l hl; simp [Group.preg, Regs.fill]
      · intro m; simp [Group.creg, Regs.fill, ht]
      · intro r hr
        have := isFull_fill { x with regs := { x.regs with v := v } } n.val r hr
        simpa [fills, hemp, Group.isFull] using this
      · intro r hr
        simp only [Regs.fill, Tab.find?_del, fills, hemp]
        by_cases h : r = n.val <;> simp [h]
      · rfl
    | s n =>
      simp only [Group.setS]
      by_cases hn : n.val < 61
      · rw [if_pos hn]
        constructor
        · intro m l; simp [Group.vreg, Regs.fill]
        · intro m hm
          simp only [Group.sreg, hm, if_true, Tab.get_set, Operand.s.injEq, Fin.ext_iff]
          by_cases h : m.val = n.val
          · simp [ht, h]
          · simp only [ht, h, if_false]; rw [if_neg (fun e => h e.symm)]
        · intro m hm h; simp only [Operand.s.injEq] at h; subst h; omega
        · intro; rfl
        · intro m hm l hl; simp [Group.preg, Regs.fill]
        · intro m; simp [Group.creg, Regs.fill, ht]
        · intro r hr
          have := isFull_fill x (128 + n.val) r hr
          simpa [fills, hemp, hn, Group.isFull] using this
        · intro r hr
          simp only [Regs.fill, Tab.find?_del, fills, hemp, hn]
          by_cases h : r = 128 + n.val <;> simp [h]
        · rfl
      · rw [if_neg hn]
        have hfill : ∀ r, fills (.s n) lanes r = false := by intro r; simp [fills, hn]
        constructor
        · intro m l; simp [Group.vreg]
        · intro m hm
          have : ¬ (Operand.s n = Operand.s m) := by intro h; simp only [Operand.s.injEq] at h; subst h; omega
          simp [Group.sreg, hm, this, ht]
        · intro m hm h top' ht' l hl
          simp only [Operand.s.injEq] at h; subst h
          have : top' = top := by rw [ht] at ht'; exact (Option.some.inj ht').symm
          subst this
          have hb := getLsbD_maskPut x.flow.mask (n.val - 61) ((f top').setWidth 32) (by omega) l hl
          simp only [Flow.setMask, BitVec.getLsbD_and, BitVec.getLsbD_not, BitVec.getLsbD_or, hl, decide_true, Bool.true_and,
            Bool.not_or, hb, BitVec.getLsbD_setWidth]
          by_cases h : l / 32 = n.val - 61
          · have : l % 32 < 32 := Nat.mod_lt _ (by omega)
            simp [h, this, Bool.and_assoc]
          · simp [h, Bool.and_assoc]
        · rintro (h | h)
          · exact absurd rfl (h n (by omega))
          · exact absurd h hne
        · intro m hm l hl; simp [Group.preg]
        · intro m; simp [Group.creg, ht]
        · intro r hr; simp [hfill, Group.isFull]
        · intro r hr; simp [hfill]
        · rfl
    | c n =>
      have hfill : ∀ r, fills (.c n) lanes r = false := by intro r; simp [fills]
      constructor
      · intro m l; simp [Group.vreg, Group.setC]
      · intro m hm; simp [Group.sreg, Group.setC, hm, ht]
      · intro m hm h; simp at h
      · intro; rfl
      · intro m hm l hl; simp [Group.preg, Group.setC]
      · intro m
        simp only [Group.creg, Group.setC, Tab.get_set, Operand.c.injEq, Fin.ext_iff]
        by_cases h : m.val = n.val
        · simp [ht, h]
        · simp only [ht, h, if_false]; rw [if_neg (fun e => h e.symm)]
      · intro r hr; simp [hfill, Group.isFull, Group.setC]
      · intro r hr; simp [hfill, Group.setC]
      · rfl
    | p n =>
      have hfill : ∀ r, fills (.p n) lanes r = false := by intro r; simp [fills]
      by_cases hn : n.val < 7
      · simp only [hn, if_true]
        constructor
        · intro m l; simp [Group.vreg, Group.setP]
        · intro m hm; simp [Group.sreg, Group.setP, hm, ht]
        · intro m hm h; simp at h
        · intro; rfl
        · intro m hm l hl
          simp only [Group.preg, Group.setP, hm, hn, if_true, Tab.get_set, Operand.p.injEq, Fin.ext_iff]
          by_cases h : m.val = n.val
          · have := foldl_setBit (fun l => (f l).getLsbD 0) lanes (Tab.get 0 n.val x.regs.p) l hl
            simp only [h, if_true] at this ⊢
            simpa using this
          · have h' : ¬ n.val = m.val := fun e => h e.symm
            simp [h, h']
        · intro m; simp [Group.creg, Group.setP, ht]
        · intro r hr; simp [hfill, Group.isFull, Group.setP]
        · intro r hr; simp [hfill, Group.setP]
        · rfl
      · simp only [hn, if_false]
        constructor
        · intro m l; simp
        · intro m hm; simp [ht]
        · intro m hm h; simp at h
        · intro; rfl
        · intro m hm l hl
          have : ¬ (Operand.p n = Operand.p m) := by intro h; simp only [Operand.p.injEq] at h; subst h; exact hn hm
          simp [this]
        · intro m; simp [ht]
        · intro r hr; simp [hfill]
        · intro r hr; simp [hfill]
        · rfl
    | a n => constructor <;> simp [fills, ht]
    | spec k => constructor <;> simp [fills, ht]
    | rsvd n => constructor <;> simp [fills, ht]
    | zero => constructor <;> simp [fills, ht]

/-! ### Words -/

theorem word_stands {i : Instr} {s : State} {g : Nat} (h : s.Stands g i) (body : State → Nat → Group → State × Ends) :
    word i s body = .next ((body s g (s.grp g)).1.retire g i.bnd (body s g (s.grp g)).2) := by
  simp [word, h.port, h.quiet, h.legal]

theorem uniWord_stands {i : Instr} {h : Hdr} {s : State} {g : Nat} (hs : s.Stands g i) (hg : (s.grp g).uniGuard h = .run)
    (body : State → Nat → Group → State × Ends) :
    uniWord i h s body = .next ((body s g (s.grp g)).1.retire g i.bnd (body s g (s.grp g)).2) := by
  simp [uniWord, word_stands hs, hg, withPolicy, hs.sources]

theorem laneWord_stands {i : Instr} {h : Hdr} {s : State} {g : Nat} (hs : s.Stands g i)
    (body : State → Nat → Group → Mask → State × Ends) :
    laneWord i h s body = .next ((body s g (s.grp g) ((s.grp g).execMask h)).1.retire g i.bnd
      (body s g (s.grp g) ((s.grp g).execMask h)).2) := by
  simp [laneWord, word_stands hs, withPolicy, hs.sources]

theorem dataWord_stands {i : Instr} {h : Hdr} {s : State} {g : Nat} (hs : s.Stands g i) (hg : s.Guarded g h)
    (body : State → Nat → Group → List Nat → State × Ends) :
    dataWord i h s body = .next ((body s g (s.grp g) (s.lanesFor g h)).1.retire g i.bnd
      (body s g (s.grp g) (s.lanesFor g h)).2) := by
  unfold dataWord State.lanesFor
  by_cases hu : h.uni = true
  · simp [hu, uniWord_stands hs (hg hu)]
  · simp [hu, laneWord_stands hs]

/-- A word that is an `aluWord` gives what it says. -/
theorem gives_aluWord {i : Instr} {h : Hdr} {d : Operand} {val : State → Group → Nat → Word} (hb : i.bnd = h.bnd)
    (he : ∀ s, exec i s = aluWord i h d s (val s)) : Gives i h d val := by
  intro s g hs hg
  refine ⟨(s.grp g).write d (s.lanesFor g h) (val s (s.grp g)), ?_, Group.wrote_write _ _ _ _⟩
  rw [he, aluWord, dataWord_stands hs hg, hb]

/-- A word that gives a value gives an equal one. -/
theorem Gives.congr {i : Instr} {h : Hdr} {d : Operand} {val val' : State → Group → Nat → Word} (hv : Gives i h d val)
    (he : val = val') : Gives i h d val' := he ▸ hv

/-- The flags of a fold (R60). -/
theorem getLsbD_foldl_or (l : List Nat) (f : Nat → FFlags) (a : FFlags) (k : Nat) :
    (l.foldl (fun a n => a ||| f n) a).getLsbD k = (a.getLsbD k || l.any (fun n => (f n).getLsbD k)) := by
  induction l generalizing a with
  | nil => simp
  | cons n t ih => simp [ih, Bool.or_assoc]

end Sys2Proof.Machine
end

