-- ==== Sys2Proof/Laws/Runs.lean ====
section
/-!
SUPPORT. Laws/Runs.lean: what the ends of words, of runs and of ports do to groups, and what they leave alone.
-/
namespace Sys2Proof.Machine

/-- The byte at an address depends on memory alone. -/
theorem byte_of_mem {s t : State} (h : t.mem = s.mem) (pa : Nat) : t.byte pa = s.byte pa := by simp [State.byte, h]

@[simp] theorem State.grp_setPort (s : State) (c : Nat) (p : Bool) (x : Port) (k : Nat) : (s.setPort c p x).grp k = s.grp k := by
  simp [State.grp]

@[simp] theorem State.hasGrp_setPort (s : State) (c : Nat) (p : Bool) (x : Port) (k : Nat) :
    (s.setPort c p x).hasGrp k = s.hasGrp k := by
  simp [State.hasGrp]

@[simp] theorem State.grp_count (s : State) (u e n k : Nat) : (s.count u e n).grp k = s.grp k := by simp [State.grp]

@[simp] theorem State.hasGrp_count (s : State) (u e n k : Nat) : (s.count u e n).hasGrp k = s.hasGrp k := by
  simp [State.hasGrp]

/-- Freeing a port (R29): the group has none. -/
theorem State.grp_releasePort (s : State) (g k : Nat) (hg : s.hasGrp g = true) :
    (s.releasePort g).grp k = if k = g then { s.grp g with port := none } else s.grp k := by
  unfold State.releasePort
  cases h : (s.grp g).port with
  | none =>
    by_cases e : k = g
    · subst e
      simp only [if_true]
      conv_lhs => rw [show s.grp k = { s.grp k with port := (s.grp k).port } from rfl, h]
    · simp [e]
  | some p => simp only [State.grp_updGrp, grp_setPort, hasGrp_setPort, hg, and_true]

@[simp] theorem State.hasGrp_releasePort (s : State) (g k : Nat) : (s.releasePort g).hasGrp k = s.hasGrp k := by
  unfold State.releasePort; split <;> simp

@[simp] theorem State.hasGrp_eligible (s : State) (g k : Nat) : (s.eligible g).hasGrp k = s.hasGrp k := by
  simp [State.eligible]

/-- The end of a run (R29, R38): the port is free, the group eligible from this tick, and its paths have aged, with a switch
or without. -/
theorem State.grp_endRun (s : State) (g k : Nat) (hg : s.hasGrp g = true) :
    (s.endRun g false).grp k = if k = g then
      { s.grp g with port := none, sched := { (s.grp g).sched with
                       switched := (overdue ((s.grp g).flow.aged (s.grp g).ageBase)
                         (s.ctxRegs (s.grp g).core (s.grp g).ctx).ageLimit.toNat).isSome,
                       kept := false, since := s.tick },
                     flow := ({ (s.grp g).flow with run := 0 } : Flow).age (s.grp g).ageBase
                       (s.ctxRegs (s.grp g).core (s.grp g).ctx).ageLimit.toNat }
      else s.grp k := by
  unfold State.endRun
  simp only [Bool.false_eq_true, if_false]
  generalize ({ (s.grp g).flow with run := 0 } : Flow).age (s.grp g).ageBase _ = f
  generalize (overdue _ _).isSome = b
  have h1 : ((if b = true then s.count (s.grp g).core 0x16 1 else s).hasGrp g) = true := by split <;> simp [hg]
  have h2 : ∀ k, ((if b = true then s.count (s.grp g).core 0x16 1 else s).grp k) = s.grp k := by intro k; split <;> simp
  have h3 : ((if b = true then s.count (s.grp g).core 0x16 1 else s).tick) = s.tick := by split <;> simp
  simp only [State.eligible, State.grp_updGrp, hasGrp_releasePort, State.hasGrp_updGrp, h1, and_true]
  rw [grp_releasePort _ _ _ (by simp [h1]), grp_releasePort _ _ _ (by simp [h1])]
  simp only [State.grp_updGrp, h1, h2, and_true, if_true, State.releasePort_tick, State.updGrp_tick, h3]
  by_cases hk : k = g <;> simp [hk]

@[simp] theorem State.hasGrp_endRun (s : State) (g k : Nat) (keep : Bool) : (s.endRun g keep).hasGrp k = s.hasGrp k := by
  simp only [State.endRun, State.hasGrp_eligible, hasGrp_releasePort, State.hasGrp_updGrp, apply_ite (fun s => State.hasGrp s k),
    State.hasGrp_count, ite_self]

/-- A run of a group with no record that is due ends without a trap. -/
theorem State.finishRun_quiet (s : State) (g : Nat) (hg : s.hasGrp g = true) (hq : (s.grp g).dueDefs = []) :
    s.finishRun g false = s.endRun g false := by
  unfold State.finishRun
  have : ((s.endRun g false).grp g).dueDefs = [] := by rw [State.grp_endRun s g g hg]; simpa [Group.dueDefs] using hq
  simp [this]

end Sys2Proof.Machine
end

