-- ==== Sys2Proof/Tests/Slice0.lean ====
section
/-!
SUPPORT. Tests/Slice0.lean: tests of single definitions, and a witness for the hypotheses of each statement.
-/

namespace Sys2Proof.Tests
set_option Elab.async false
open Sys2Proof Sys2Proof.Machine

/-! ## Small states and words -/

/-- A word of lanes with the constant guard. -/
def hd : Hdr := { bnd := false, gn := false, gp := 7, feA := false, feB := false, feC := false, uni := false }
/-- A uniform word with the constant guard. -/
def un : Hdr := { hd with uni := true }
/-- A uniform word whose guard is p1: false after placement. -/
def off1 : Hdr := { un with gp := 1 }

/-- The machine with a word where its next step fetches: group 0 of context 0 on port 0 of core 0. -/
def s0 : State := State.reset.withFetchWord 64 0x1A9C400000000000

/-- The same with the group changed. -/
def s0With (f : Machine.Group → Machine.Group) : State := s0.updGrp 0 f

/-- What `State.Stands` says, as a test. -/
def standsB (s : State) (g : Nat) (i : Instr) : Bool :=
  decide (s.issuer = some g) && decide ((s.grp g).dueDefs = []) && decide (i.check (s.env g) = none) &&
    decide ((s.grp g).policy i = .ok)

theorem stands_of {s : State} {g : Nat} {i : Instr} (h : standsB s g i = true) : s.Stands g i := by
  simp only [standsB, Bool.and_eq_true, decide_eq_true_eq] at h
  exact ⟨h.1.1.1, h.1.1.2, h.1.2, h.2⟩

/-- Each word of a list stands to issue for group 0. -/
def standsAll (s : State) (l : List Instr) : Bool := l.all (standsB s 0)

theorem standsAll_stands {s : State} {l : List Instr} (h : standsAll s l = true) : ∀ i ∈ l, s.Stands 0 i :=
  fun i hi => stands_of (List.all_eq_true.mp h i hi)

def rm0 : FnFa := { rm := .rne, ft := .f32, sat := false, ma := ⟨false, false⟩, mb := ⟨false, false⟩, mc := ⟨false, false⟩ }

def intWords : List Instr :=
  let f : FnInt := ⟨.s32, false⟩
  [.iadd hd f (.v 1) (.v 2) (.v 3), .iaddImm hd f (.v 1) (.v 2) 5, .isub hd f (.v 1) (.v 1) (.v 3), .isubImm hd f (.v 1) (.v 2) 5,
   .imul hd f (.v 1) (.v 2) (.v 3), .imulImm hd f (.v 1) (.v 2) 5, .imulh hd .u32 (.v 1) (.v 2) (.v 3),
   .imad hd f (.v 1) (.v 2) (.v 3) (.v 4), .imin hd .s32 (.v 1) (.v 2) (.v 3), .iminImm hd .s32 (.v 1) (.v 2) 7,
   .imax hd .u32 (.v 1) (.v 2) (.v 3), .imaxImm hd .u32 (.v 1) (.v 2) 7, .iabs hd false true (.v 1) (.v 2),
   .ineg un true false (.s 1) (.s 2), .iadd un ⟨.u64, false⟩ (.s 4) (.s 5) (.s 6)]

/-- Witness: the words of ExactIntegerArithmetic stand to issue. -/
theorem witness_ExactIntegerArithmetic : standsAll s0 intWords := by decide +kernel

theorem witness_CarryAndBorrow : standsAll s0
    [.iaddc hd ⟨false, some 1⟩ (.v 1) (.v 2) (.v 3) (.p 0), .isubb hd ⟨true, none⟩ (.s 1) (.s 2) (.s 3) .zero] := by decide +kernel

theorem witness_ShiftsAndRotates : standsAll s0
    (let f : FnSh := ⟨.s32, true⟩
     [.shl hd f (.v 1) (.v 2) (.v 3), .shlImm hd f (.v 1) (.v 2) 32, .shr hd f (.v 1) (.v 2) (.v 3), .shrImm hd f (.v 1) (.v 2) 31,
      .sar hd f (.v 1) (.v 2) (.v 3), .sarImm un ⟨.s64, false⟩ (.s 1) (.s 2) 64, .rot hd .u32 (.v 1) (.v 2) (.v 3),
      .rotImm un .u64 (.s 1) (.s 2) 0]) := by decide +kernel

theorem witness_BitwiseLogicAndAddress : standsAll s0
    [.and hd .u32 (.v 1) (.v 2) (.v 3), .andImm hd .s32 (.v 1) (.v 2) 5, .or hd .u32 (.v 1) (.v 2) (.v 3),
     .orImm hd .u32 (.v 1) (.v 2) 5, .xor un .u64 (.s 1) (.s 2) (.s 3), .xorImm hd .u32 (.v 1) (.v 2) 5,
     .andn hd .u32 (.v 1) (.v 2) (.v 3), .not hd .u32 (.v 1) (.v 2), .lea hd ⟨.u64, 15, 0x80⟩ (.s 1) (.s 2) (.v 3)] := by
  decide +kernel

theorem witness_MovesSelectionAndCompare : standsAll s0
    [.movi hd .u32 (.v 1) 5, .movhi hd .h1 (.v 1) (.v 1) 5, .movhi un .h1 (.s 1) (.s 1) 5, .movhi un .h2 (.s 1) (.s 1) 5,
     .mov hd (.v 1) (.s 2), .sel hd (.v 1) (.v 2) (.v 3) (.p 0), .icmp hd ⟨.s32, .ltu⟩ (.p 1) (.v 2) (.v 3),
     .icmpImm hd ⟨.u64, .lt⟩ (.p 6) (.s 2) 5] := by decide +kernel

theorem witness_CountsAndReversal : standsAll s0
    [.popc hd .u32 (.v 1) (.v 2), .clz un .u64 (.s 1) (.s 2), .ctz hd .u32 (.v 1) (.v 2), .brev hd .u32 (.v 1) (.v 2)] := by
  decide +kernel

theorem witness_FieldsBytesAndPredicates : standsAll s0
    [.bfx hd .s32 (.v 1) (.v 2) (.v 3), .bfi un .u64 (.s 1) (.s 2) (.s 3) (.s 4), .permb hd (.v 1) (.v 2) (.v 3) (.v 4),
     .permbImm hd (.v 1) (.v 2) 0x123, .pand hd ⟨true, false⟩ (.p 0) (.p 1) (.p 7), .por hd ⟨false, false⟩ (.p 0) (.p 1) .zero,
     .pxor hd ⟨false, true⟩ (.p 6) (.p 1) (.p 2), .pnot hd (.p 0) (.p 1), .pmov hd 2 (.s 3) (.p 1), .pmov hd 0 (.p 1) (.s 3)] ∧
    (s0.grp 0).uniGuard hd = .run := by decide +kernel

/-- A group that lane 0 alone runs. -/
def lane0 : State := s0With (fun x => { x with flow := { x.flow with mask := 1 } })
/-- A group whose path has no active lane. -/
def noLane : State := s0With (fun x => { x with flow := { x.flow with mask := 0 } })

theorem witness_LaneExchangeAndBallot : standsAll s0
    [.shfl hd .up (.v 1) (.v 2) (.v 3), .bcast hd (.v 1) (.v 2) (.s 3), .vote hd .any (.p 0) (.p 1), .vote hd .all (.p 0) (.p 1),
     .redux hd ⟨.s32, .add, true⟩ (.s 1) (.v 2), .scan hd ⟨true, .min, true⟩ (.v 1) (.v 2), .vote hd .ballot (.s 60) (.p 1),
     .vote hd .ballot (.s 0) (.p 1)] ∧ standsAll noLane [.vote hd .ballot (.s 4) (.p 1)] ∧
    (noLane.grp 0).execMask hd = 0 ∧ (s0.grp 0).execMask hd ≠ 0 := by decide +kernel

theorem witness_FloatArithmeticAndCompare : standsAll s0
    [.fadd hd rm0 (.v 1) (.v 2) (.v 3), .fsub hd rm0 (.v 1) (.v 2) (.v 3), .fmul hd rm0 (.v 1) (.v 2) (.v 3),
     .ffma hd rm0 (.v 1) (.v 2) (.v 3) (.v 4), .fscaleb hd rm0 (.v 1) (.v 2) (.v 3), .frnd hd rm0 (.v 1) (.v 2),
     .fmin hd rm0 (.v 1) (.v 2) (.v 3), .fmax hd rm0 (.v 1) (.v 2) (.v 3), .fsel hd rm0 (.v 1) (.v 2) (.v 3) (.v 4),
     .fcmp hd ⟨.lt, .f32, ⟨false, false⟩, ⟨false, false⟩⟩ (.p 0) (.v 2) (.v 3), .fclass hd .f16 (.v 1) (.v 2)] := by decide +kernel

theorem witness_SpecialFunctions : 
    (let f : FnSf := ⟨.rne, false, ⟨false, false⟩⟩
     standsAll s0 [.frcp hd f (.v 1) (.v 2), .frsq hd f (.v 1) (.v 2), .fsqrt hd f (.v 1) (.v 2), .fexp2 un f (.s 1) (.s 2),
      .flog2 hd f (.v 1) (.v 2), .fsin hd f (.v 1) (.v 2), .fcos hd f (.v 1) (.v 2), .ftanh un f (.c 1) (.c 2)] ∧
     standsAll noLane [.frcp hd f (.v 1) (.v 2)]) ∧ noLane.lanesFor 0 hd = [] ∧ s0.lanesFor 0 hd ≠ [] ∧ s0.hasGrp 0 = true := by
  decide +kernel

theorem witness_ConversionAndQuantisation : standsAll s0
    [.cvt hd ⟨0x2C, true, .sr, false, 0⟩ (.v 1) (.v 2) (.v 1), .qntScale hd 0x2C true (.s 1) (.v 2),
     .qntElem hd ⟨0x2C, .rne, false, 0⟩ (.v 1) (.v 2) (.v 1) (.s 3), .dqnt hd ⟨0x2C, .rne, false, 0⟩ (.v 1) (.v 2) (.s 3)] := by
  decide +kernel

end Sys2Proof.Tests

namespace Sys2Proof.Tests
set_option Elab.async false
open Sys2Proof Sys2Proof.Machine Sys2Proof.Spec

/-! ## Runs, paths, barriers, memory words -/

/-- The group of `s0` on another path. -/
def path0 (f : Flow → Flow) : State := s0With (fun x => { x with flow := f x.flow })
def pathEntry (a : PC) (m : Mask) (age : BitVec 16) : Entry :=
  { kind := .path, addr := a, mask := m, link := none, age := age, fresh := false }
def rejoin (a : PC) (m : Mask) : Entry := { kind := .rejoin, addr := a, mask := m, link := none, age := 0, fresh := false }
def fullStack : State := path0 (fun f => { f with stack := List.replicate 32 (pathEntry 9 2 0) })
/-- Lane 0 alone has p1. -/
def someP1 : State := s0With (fun x => { x with regs := { x.regs with p := [(1, 1)] } })
def regS (n : Nat) (v : Word) (s : State) : State := s.updGrp 0 (fun x => { x with regs := { x.regs with s := Tab.set 0 n v x.regs.s } })

theorem witness_WordsRunsAndAges :
    (s0.hasGrp 0 = true ∧ (s0.grp 0).dueDefs = [] ∧ (s0.grp 0).flow.run < 23) ∧
    23 ≤ ((path0 (fun f => { f with run := 23 })).grp 0).flow.run ∧
    (let f := { Flow.start 7 with stack := [pathEntry 9 2 30, rejoin 8 0, pathEntry 5 4 31] }
     (∀ e ∈ f.stack, e.kind = .path → (aged e).age.toNat < 33) ∧ f.stack[2]? = some (pathEntry 5 4 31) ∧
      32 ≤ (aged (pathEntry 5 4 31)).age.toNat ∧ (aged (pathEntry 9 2 30)).age.toNat < 32) := by decide +kernel

theorem witness_BranchesAndCalls :
    let p1 : Hdr := { hd with gp := 1 }
    standsAll s0 [.bra hd 5, .bra p1 5, .brau un 5, .brau off1 5, .call un (.s 4) 5, .call off1 (.s 4) 5, .callReg un (.s 4) (.s 3),
      .callReg off1 (.s 4) (.s 3), .ret un (.s 3), .ret off1 (.s 3)] ∧
    standsAll noLane [.bra hd 5, .bra p1 5] ∧ standsAll someP1 [.bra p1 5] ∧ s0.hasGrp 0 = true ∧
    (noLane.grp 0).flow.mask = 0 ∧ (s0.grp 0).flow.mask &&& (s0.grp 0).guardMask p1 = 0 ∧
    (s0.grp 0).flow.mask &&& (s0.grp 0).guardMask hd = (s0.grp 0).flow.mask ∧ (s0.grp 0).flow.mask ≠ 0 ∧
    (someP1.grp 0).flow.mask &&& (someP1.grp 0).guardMask p1 = 1 ∧ (someP1.grp 0).flow.stack.length < 32 ∧
    standsAll (fullStack.updGrp 0 (fun x => { x with regs := { x.regs with p := [(1, 1)] } })) [.bra p1 5] ∧
    32 ≤ (fullStack.grp 0).flow.stack.length ∧ (s0.grp 0).uniGuard un = .run ∧ (s0.grp 0).uniGuard off1 = .skip ∧
    standsAll (regS 3 4 s0) [.callReg un (.s 4) (.s 3), .ret un (.s 3)] ∧ ((regS 3 4 s0).rd ((regS 3 4 s0).grp 0) (.s 3) 0) = 4 := by
  decide +kernel

/-- A group in a region that waits at address 0, which two lanes have reached. -/
def inRegion : State := path0 (fun f => { f with region := some 0, stack := [rejoin 0 3] })

theorem witness_DivergenceRegions :
    standsAll s0 [.jmark un 5, .join un, .brk hd 5] ∧ standsAll fullStack [.jmark un 5] ∧
    standsAll inRegion [.join un, .brk hd 0, .brk { hd with gp := 1 } 0] ∧ (s0.grp 0).flow.region = none ∧
    (inRegion.grp 0).flow.region = some 0 ∧ ((inRegion.grp 0).flow.stack[0]?.map Entry.addr) = some (inRegion.grp 0).flow.pc ∧
    (inRegion.grp 0).execMask { hd with gp := 1 } = 0 ∧ (inRegion.grp 0).execMask hd = (inRegion.grp 0).flow.mask ∧
    (let s := inRegion.updGrp 0 (fun x => { x with regs := { x.regs with p := [(1, 1)] } })
     standsAll s [.brk { hd with gp := 1 } 0] ∧ (s.grp 0).execMask { hd with gp := 1 } = 1) := by decide +kernel

theorem witness_PathEndExitAndSleep :
    let f := { Flow.start 7 with region := some 0, stack := [rejoin 8 3] }
    let r := { Flow.start 7 with region := some 0, stack := [rejoin 8 0] }
    let p := { Flow.start 7 with stack := [rejoin 8 3, pathEntry 5 4 0] }
    (f.pendingIn 0 = false ∧ (rejoin 8 3).mask ≠ 0 ∧ f.stack[0]? = some (rejoin 8 3)) ∧ (r.pendingIn 0 = false ∧ (rejoin 8 0).mask = 0) ∧
    (p.region = none ∧ p.stack[1]? = some (pathEntry 5 4 0)) ∧ (∀ e ∈ (Flow.start 7).stack, e.kind ≠ .path) ∧
    standsAll s0 [.yield un, .yield off1, .nop un, .exit hd, .exit { hd with gp := 1 }, .sleep un true (.s 3), .sleep un false (.s 4),
      .sleep off1 true (.s 3)] ∧
    s0.tick < (regS 3 100 s0).tick + (regS 3 100 s0).rd ((regS 3 100 s0).grp 0) (.s 3) 0 ∧
    (s0.grp 0).uniGuard un = .run ∧ (s0.grp 0).uniGuard off1 = .skip ∧ s0.hasGrp 0 = true ∧
    ((s0With (fun x => { x with sched := { x.sched with susp := .sleep 9 } })).grp 0).sched.susp = .sleep 9 := by decide +kernel

def slotA : Slot := { gd := .always, fe := false, op := .bin .iadd (.v 12) (.v 13) }
def slotB : Slot := { gd := .p1, fe := false, op := .bra 5 }
def slotC : Slot := { gd := .always, fe := false, op := .fbin .fmul (.v 15) (.v 18) }
def slotS : Slot := { gd := .always, fe := false, op := .frcp (.v 12) (.v 13) }
/-- A slot that runs in the lanes of `m`. -/
def runsIn (x : Machine.Group) (b : Bool) (y : Slot) (m : Mask) : Bool :=
  decide (x.policyOf b (slotSrcs y) = .ok) && (match x.slotRun b y with | .ok r => decide (r = ⟨m, false, 0⟩) | .error _ => false)

theorem witness_PairedWords :
    standsAll s0 [.pairedWord false slotA slotC, .pairedWord true slotA slotB, .pairedWord false slotS slotC] ∧
    runsIn (s0.grp 0) false slotA allLanes ∧ runsIn (s0.grp 0) true slotC allLanes ∧ runsIn (someP1.grp 0) true slotB 1 ∧
    runsIn (s0.grp 0) false slotS allLanes ∧ slotA.op.isSpecial = false ∧ slotC.op.isBra = false ∧
    standsAll (fullStack.updGrp 0 (fun x => { x with regs := { x.regs with p := [(1, 1)] } })) [.pairedWord true slotA slotB] := by
  decide +kernel

/-- A group with an access that is not performed: a launch whose record is not read. -/
def busy : State :=
  let i := localInfo s0 0 (s0.grp 0) true allLanes 0 8 false .zero
  let s := s0With (fun x => { x with mem := { x.mem with seq := 1 } })
  s.setHub { s.hub with launches := [{ info := i, core := 0, slot := 0, ctx := 0, sup := false, addr := 0, agg := none, parked := none }] }
/-- A team of two groups. -/
def two : State := s0.updTeam 0 (fun t => { t with members := [0, 1] })
/-- A group that waits at a memory barrier. -/
def atBarrier (gen : BitVec 32) : State :=
  let i := { localInfo s0 0 (s0.grp 0) true allLanes 0 8 false .zero with scope := .team }
  s0With (fun x => { x with sched := { x.sched with susp := .mbar i 0 2 0 gen true none } })
def notLeaf (s : State) (va : Word) : Bool :=
  match (s.translate 0 0 (vaOf va) true).1 with
  | .leaf .. => false
  | _ => true

theorem witness_Barriers :
    standsAll s0 [.bar un 15 .zero, .bar un 0 (.s 3), .bar off1 0 .zero, .cbar un] ∧ s0.hasGrp 0 = true ∧
    (Tab.find? 0 s0.teams).isSome = true ∧ s0.lsDone 0 0 0 .team false = true ∧ s0.lsDone 0 0 0 .cluster false = true ∧
    (s0.team 0).members.length = 1 ∧
    (standsAll two [.bar un 15 .zero, .cbar un] ∧ (two.team 0).members.length = 2 ∧ two.lsDone 0 0 0 .cluster false = true) ∧
    (standsAll busy [.bar un 15 .zero, .cbar un, .mbar un .die (.s 3) (.s 4)] ∧ busy.lsDone 0 0 1 .team false = false ∧
      busy.lsDone 0 0 1 .cluster false = false ∧ busy.lsDone 0 0 1 .die false = false ∧ busy.lsWaits 0 (busy.grp 0) = false ∧ notLeaf busy 0) ∧
    standsAll (regS 3 4 s0) [.mbar un .die (.s 3) (.s 4)] ∧
    (busy.updGrp 0 (fun x => { x with mem := { x.mem with logs := List.replicate 4 ⟨localInfo s0 0 x true 0 0 8 false .zero, [], 0⟩ } })).lsWaits 0
      ((busy.updGrp 0 (fun x => { x with mem := { x.mem with logs := List.replicate 4 ⟨localInfo s0 0 x true 0 0 8 false .zero, [], 0⟩ } })).grp 0) = true ∧
    (atBarrier 7).groups.map Prod.fst = [0] ∧ (atBarrier 7).mbarGen 0 ≠ 7 ∧
    (atBarrier (s0.mbarGen 0)).mbarGen 0 = s0.mbarGen 0 := by decide +kernel

def memWords : List Instr :=
  let f : FnMemF := ⟨.g, .u32, 0⟩
  let x : FnMemI := ⟨.g, .u32, .strong, .die, true⟩
  let t : FnAtF := ⟨.add, .u32, .g⟩
  let y : FnAtI := ⟨.cas, .u64, .acqrel, .die, .g⟩
  [.ld hd f (.v 1) (.s 4) 8, .ld un ⟨.g, .b128, 1⟩ (.s 6) (.s 4) 16, .ldIndexed hd x (.v 1) (.s 4) (.v 2), .ldu un f (.s 6) (.s 4) 0,
   .st hd f (.v 1) (.s 4) 8, .stIndexed hd { x with ord := .weak, scope := .group } (.s 4) (.v 2) (.v 3), .atom hd t (.v 1) (.s 4) 0,
   .atomIndexed hd y (.s 4) (.s 6) (.v 2) (.s 8), .red hd t (.v 1) (.s 4) 0, .redIndexed hd { y with op := .add, ord := .rel } (.s 6) (.v 2) (.s 8),
   .cwb un (.s 4) 0, .ldtag hd (.v 1) (.s 4) 0, .sttag hd (.v 1) (.s 4) 0]

def fourLogs : State := s0With (fun x =>
  { x with mem := { x.mem with logs := List.replicate 4 ⟨localInfo s0 0 x true 0 0 8 false .zero, [], 0⟩ } })
/-- A package whose replicated stores stand still. -/
def rebasing : State := { s0 with repl := { s0.repl with rebase := true } }
def waits (s : State) (i : Instr) : Bool :=
  let x := s.grp 0
  match memWord s x i with
  | some m => s.segWaits x m.sp (accessesOf x m)
  | none => false

theorem witness_MemoryWordsIssue :
    standsAll s0 memWords ∧ memWords.all (fun i => (memWord s0 (s0.grp 0) i).isSome) ∧ memWords.all (fun i => !waits s0 i) ∧
    s0.lsWaits 0 (s0.grp 0) = false ∧ (s0.grp 0).uniGuard un = .run ∧ standsAll noLane memWords ∧
    standsAll fourLogs memWords ∧ fourLogs.lsWaits 0 (fourLogs.grp 0) = true ∧
    standsAll rebasing [.st hd ⟨.r, .u32, 0⟩ (.v 1) (.s 4) 8] ∧ waits rebasing (.st hd ⟨.r, .u32, 0⟩ (.v 1) (.s 4) 8) ∧
    s0.hasGrp 0 = true ∧
    (let sp := loadSpec .g .u32 (.weak, .group) (.v 1)
     let a := mkAcc 5 0x100 .load 4 0 0
     (s0.sortLanes (s0.grp 0) sp [a]).1.send ≠ [] ∧ (s0.sortLanes (s0.grp 0) sp [a]).1.faults = [] ∧ sp.op.returns = true ∧
      (mkAcc 95 0x101 .load 4 0 0).va.toNat % 4 ≠ 0 ∧ (s0.grp 0).flow.mask.getLsbD 95 = true) := by decide +kernel

def plainLeaf : Word := 0x97
/-- A request of one access on its way. -/
def oneReq (op : AccOp) : Req :=
  let i := localInfo s0 0 (s0.grp 0) true 1 7 4 false .zero
  { id := 7, info := i, core := 0, ctx := 0, sup := false, leaf := plainLeaf,
    accs := [⟨{ mkAcc 0 0x1000 op 4 0xAABBCCDD 0 with bmask := 0xF }, 0x1000⟩], state := .sent, tick := 0, noLease := false }
def reqState (op : AccOp) : State := s0.setSys { s0.sys with reqs := [oneReq op] }
def reqStands (op : AccOp) : Bool :=
  let s := reqState op
  let q := oneReq op
  decide (s.req? q.id = some q) && decide (s.sys.migs = []) && !s.behindEarlier q && s.released q.info && !s.mustHold q &&
    decide (pteKind q.leaf ≠ 3) && !pteTrk q.leaf && decide (placeOf s.tagging 0x1000 = .hbm 0 0x1000) &&
    s.permitted 0 q.ctx 0 op.opClass 0x1000 4 none && s.tagsFit q.leaf 0x1000 0x1000 4 && decide (s.sys.reqs.map Req.id = [7]) &&
    !Tab.get false (lineKey 0x1000 0) s.sys.poison && decide ((s.team 0).rrMode = 0)

theorem witness_AccessesAtTheSlice :
    reqStands .load ∧ reqStands .store ∧ reqStands (.atomic .add .u32 true) ∧
    (let s := s0.setSys { s0.sys with poison := [(lineKey 0x1000 0, true)] }
     Tab.get false (lineKey 0x1000 0) s.sys.poison = true ∧ s.permitted 0 0 0 AccOp.load.opClass 0x1000 4 none = true) := by decide +kernel

theorem witness_RequestsArePerformed : reqStands .store ∧ reqStands .load ∧ reqStands (.atomic .exch .u32 false) := by decide +kernel

theorem witness_LocalMemory :
    let f : FnLoc := ⟨.u32, none, false⟩
    standsAll lane0 [.stl hd f (.v 1) (.s 4) 0, .stlIndexed hd f (.s 4) (.v 2) (.v 1), .ldl hd f (.v 1) (.s 4) 0xFFC,
      .ldlIndexed hd f (.v 1) (.s 4) (.v 2)] ∧
    lane0.hasGrp 0 = true ∧ (Tab.find? 0 lane0.teams).isSome = true ∧ lanesOf ((lane0.grp 0).execMask hd) = [0] ∧
    lane0.lsWaits 0 (lane0.grp 0) = false ∧ (lane0.team 0).rrMode = 0 ∧ 0xFFC + 4 ≤ ((lane0.team 0).localSize + 4095) / 4096 * 4096 := by
  decide +kernel

end Sys2Proof.Tests

namespace Sys2Proof.Tests
set_option Elab.async false
open Sys2Proof Sys2Proof.Machine Sys2Proof.Spec

/-! ## Waits, cache words, fences, engines -/

def waitInfo : WordInfo := { localInfo s0 0 (s0.grp 0) true allLanes 0 4 false (.s 10) with seg := .g }
/-- A group that waits on the word at `va`. -/
def waitingAt (va : Word) (cc : Cond) (dl : Option Word) : State :=
  s0With (fun x => { x with sched := { x.sched with susp := .waitv waitInfo va cc 0 dl none none } })
def waitRead (s : State) (va : Word) : OneAccess × State :=
  s.oneAccess 0 (s.grp 0) waitInfo (waitKind waitInfo.seg) (mkAcc 0 va .load 4 0 0)

def readZero (r : OneAccess × State) : Bool := match r.1 with | .done v _ => decide (v = 0) | _ => false
def readAlign (r : OneAccess × State) : Bool := match r.1 with | .fail 0x15 1 => true | _ => false

theorem witness_WaitsAndPrefetch :
    (let m : FnWaitF := ⟨.ne, false, .g, 1⟩
     let n : FnWaitI := ⟨.eq, true, .d, some .package, true⟩
     let ws (h : Hdr) : List Instr := [.waitv h m (.s 10) (.s 4) 0x80, .waitvDeadlineForm h n (.s 10) (.s 4) (.s 5) (.s 6)]
     standsAll s0 (ws un ++ ws off1) ∧ standsAll noLane (ws un) ∧ standsAll fourLogs (ws un)) ∧
    (s0.grp 0).uniGuard un = .run ∧ (s0.grp 0).uniGuard off1 = .skip ∧
    readZero (waitRead (waitingAt 0x100 .eq none) 0x100) ∧
    (waitRead (waitingAt 0x100 .eq none) 0x100).2.hasGrp 0 = true ∧
    readAlign (waitRead (waitingAt 0x102 .ne none) 0x102) ∧
    icmpHolds .eq false 0 0 = true ∧ icmpHolds .ne false 0 0 = false ∧
    (let f : FnPre := ⟨.g, false, false⟩
     let ws : List Instr := [.prefetch un f (.s 4) 0, .prefetchIndexed hd f (.s 4) (.v 1)]
     standsAll s0 (ws ++ [.cinv un (.s 4) 0, .cinv off1 (.s 4) 0, .cinvAll un, .cinvAll off1]) ∧ standsAll noLane ws ∧
      standsAll fourLogs ws) := by decide +kernel

def pathFence (left : List Path) (sc : Scope) : Fence :=
  { id := 5, pc := 3, scope := sc, each := true, p1 := 0x1F, p2 := 0x1F, seq := 1, left := left, lanes := allLanes }
/-- A group with one fence, and a peer store before it that failed. -/
def fenced (left : List Path) (sc : Scope) (failed : List FailedStore) : State :=
  s0With (fun x => { x with mem := { x.mem with seq := 1, fences := [pathFence left sc], failed := failed } })

theorem witness_Fences :
    standsAll s0 [.fence un .system, .fence off1 .die, .fencex un .team 1 2, .fencex off1 .team 1 2] ∧
    (let s := fenced [.ls, .mx] .die []
     (s.grp 0).mem.fences.find? (fun k => decide (k.id = 5)) = some (pathFence [.ls, .mx] .die) ∧ Path.all[0]? = some Path.ls ∧
      s.pathDone .ls 0 0 (pathFence [.ls, .mx] .die) = true) ∧
    (let s := busy.updGrp 0 (fun x => { x with mem := { x.mem with fences := [pathFence [.ls] .die] } })
     s.pathDone .ls 0 0 (pathFence [.ls] .die) = false) ∧
    (let s := fenced [.ls] .die []
     s.pathDone .ls 0 0 (pathFence [.ls] .die) = true ∧ (s.team 0).rrMode = 0) ∧
    (let s := fenced [.ls] .system [⟨0x40, 0, 1⟩]
     s.pathDone .ls 0 0 (pathFence [.ls] .system) = true ∧
      (firstFailed ((s.grp 0).mem.failed.filter (fun k => decide (k.seq < 1)))).isSome = true) := by decide +kernel

/-- A descriptor of a copy of 16 bytes within local memory, from offset 0 to 64. -/
def copyWords (w3 : Word) : State := regS 10 0 (regS 11 64 (regS 12 16 (regS 13 w3 s0)))
def copyCmd (eng : Nat) (op : EngOp) : EngCmd := engineCommand s0 0 eng .group op
def rowCopy (sl dl : Option Nat) : EngCmd := copyCmd 1 (.copy 0 64 16 1 1 1 sl dl [])
/-- A command in its engine, on a page that the group may write. -/
def withCmd (c : EngCmd) : State :=
  s0.setSys { s0.sys with engs := [c], tlbs := [{ unit := 0, ctx := 0, vpage := 0, logSize := 14, leaf := 0x9F }] }

theorem witness_EngineWords :
    (let ok := copyWords 0x05000000
     standsAll ok [.cpy un (.s 4) (.s 10), .cpyw un (.s 10) 5] ∧
     (let cp := (ok.grp 0).copyDesc (.s 10)
      bits (cp.word 3) 31 33 = 0 ∧ copySideOf ok (ok.grp 0) cp.ssp cp.smem = some (some 0) ∧
        copySideOf ok (ok.grp 0) cp.dsp cp.dmem = some (some 0) ∧ cp.l0 = 16 ∧ Scope.all[cp.scope]? = some .group ∧ cp.smem = 0 ∧
        cp.dmem = 0 ∧ cp.count 1 = 1 ∧ cp.count 2 = 1 ∧ cp.count 3 = 1 ∧ 64 + 16 ≤ ((ok.team 0).localSize + 4095) / 4096 * 4096)) ∧
    (let s := copyWords 0x85000000
     standsAll s [.cpy un (.s 4) (.s 10), .cpyw un (.s 10) 5] ∧ bits (((s.grp 0).copyDesc (.s 10)).word 3) 31 33 ≠ 0) ∧
    (let s := copyWords 0x07000000
     standsAll s [.cpy un (.s 4) (.s 10)] ∧ copySideOf s (s.grp 0) ((s.grp 0).copyDesc (.s 10)).ssp 0 = none) ∧
    (let s := regS 12 0 (copyWords 0x05000000)
     standsAll s [.cpy un (.s 4) (.s 10)] ∧ ((s.grp 0).copyDesc (.s 10)).l0 = 0) ∧
    (let s := regS 11 0xFFFF8 (copyWords 0x05000000)
     standsAll s [.cpy un (.s 4) (.s 10)] ∧ ¬ 0xFFFF8 + 16 ≤ ((s.team 0).localSize + 4095) / 4096 * 4096) ∧
    (let s := copyWords 0x65000000
     standsAll s [.cpy un (.s 4) (.s 10)] ∧ Scope.all[((s.grp 0).copyDesc (.s 10)).scope]? = none) ∧
    (let g : FnGthr := ⟨0, false, false, .g, .group⟩
     let i : Instr := .gthr hd g (.s 4) (.s 5) (.v 1) (.s 6)
     standsAll s0 [i] ∧ standsAll noLane [i] ∧ standsAll (regS 6 0x100000 s0) [i] ∧ standsAll (regS 6 2 s0) [i] ∧
      (lanesOf ((s0.grp 0).execMask hd)).getLast? = some 95) ∧
    (let s := s0.setSys { s0.sys with engs := List.replicate 8 (rowCopy none none) }
     standsAll s [.gthr hd ⟨0, false, false, .g, .group⟩ (.s 4) (.s 5) (.v 1) (.s 6)] ∧ 8 ≤ s.sys.engs.length) ∧
    standsAll s0 [.equery un (.s 4) (.s 10), .ewait un (.s 4) (.s 10), .equery off1 (.s 4) (.s 10), .ewait off1 .zero (.s 10)] ∧
    (let s := regS 10 0x10000 (withCmd (rowCopy none none))
     (s.sys.engs.find? (fun k => decide (k.tok = 0x10000))).isSome = true ∧ standsAll s [.equery un (.s 4) (.s 10), .ewait un (.s 4) (.s 10)]) ∧
    (let s := (regS 10 0x10000 s0).updGrp 0 (fun x => { x with mem := { x.mem with engSeq := 1, marks := [⟨0x10000, 0x11, true, 16⟩] } })
     (s.grp 0).mem.marks.find? (fun m => decide (m.tok = 0x10000)) = some ⟨0x10000, 0x11, true, 16⟩ ∧ (1 + 65535 - 0x10000 % 65536) % 65536 < 8 ∧
      standsAll s [.equery un (.s 4) (.s 10), .ewait un (.s 4) (.s 10)]) := by decide +kernel

def rowReady (c : EngCmd) : Bool :=
  let s := withCmd c
  decide (s.eng? c.id = some c) && c.mayGo 0 && decide ((s.ctx c.ctx).cmd = 0) && !s.freezeDue &&
    decide (Tab.find? 0 c.buf = none) && decide (Tab.find? 0 c.wait = none) && decide (c.piece 0 = some (0, 64, 16))
def isDone (x : Span × State) (c : EngCmd) : Bool :=
  (match x.1 with | .done _ => true | _ => false) && decide (x.2.eng? c.id = some c)

theorem witness_EngineTransfers :
    rowReady (rowCopy (some 0) (some 0)) ∧ rowReady (rowCopy none none) ∧
    (Tab.find? 0 (withCmd (rowCopy (some 0) (some 0))).teams).isSome = true ∧
    (let c := rowCopy none none
     isDone ((withCmd c).agentRead c.agent c.readKind 0 16) c ∧
      isDone (((withCmd c).agentRead c.agent c.readKind 0 16).2.agentWrite c.agent copyWriteKind 64 (List.replicate 16 7)) c) ∧
    (rowCopy none none).over = false ∧
    (let c := { rowCopy none none with done := [0] }
     c.over = true ∧ (withCmd c).engPerformed c = true ∧ (withCmd c).eng? c.id = some c) ∧
    (let c := { rowCopy none none with done := [0] }
     let i := { localInfo s0 0 (s0.grp 0) true allLanes 0 8 false .zero with path := .cp, engine := some c.id }
     let s := withCmd c
     let q : PeerReq := { id := 9, core := 0, die := 0, ctx := 0, pkg := 1, info := i, accs := (oneReq .load).accs, tag := 0, gen := false, state := .queued, first := 0, sends := 0, due := 0 }
     let s := { s with fab := { s.fab with reqs := [q] } }
     c.over = true ∧ s.engPerformed c = false) ∧
    (let c := { rowCopy none none with fault := some (0x11, 1, 0) }
     c.over = true ∧ c.fault.isSome = true) := by decide +kernel

end Sys2Proof.Tests

namespace Sys2Proof.Tests
set_option Elab.async false
open Sys2Proof Sys2Proof.Machine Sys2Proof.Spec

/-! ## Traps, control registers, translations, results -/

/-- A supervisor group. -/
def sup0 : State := s0With (fun x => { x with sup := true })
/-- Context 0 has a handler. -/
def handled (s : State) : State := s.setCtx 0 { s.ctx 0 with regs := { (s.ctx 0).regs with trapVec := 0x40 } }
/-- A group in a handler, with failing lanes of two words. -/
def inTrap (depth : Nat) : State := sup0.updGrp 0 (fun x =>
  { x with trap := { x.trap with active := true, entryDepth := depth, resumeMask := allLanes },
           defs := [⟨3, 0x15, 1, 0, 9, true⟩, ⟨4, 0x15, 1, 0, 7, true⟩] })
def inTrapFull : State := (inTrap 31).updGrp 0 (fun x => { x with flow := { x.flow with stack := List.replicate 31 (pathEntry 9 2 0) } })

theorem witness_TrapEntryAndReturn :
    s0.hasGrp 0 = true ∧ (s0.grp 0).trap.active = false ∧ (s0.ctxRegs 0 0).trapVec = 0 ∧ ((handled s0).ctxRegs 0 0).trapVec ≠ 0 ∧
    ((inTrap 0).grp 0).trap.active = true ∧
    (standsAll (inTrap 0) [.rte un, .rteSkip un, .rteDrop un true, .rteDrop un false] ∧ ((inTrap 0).grp 0).flow.stack.length = 0 ∧
      0 + (((inTrap 0).grp 0).defs.map DefRec.pc).dedup.length ≤ 32) ∧
    standsAll (inTrap 1) [.rte un, .rteSkip un, .rteDrop un true] ∧
    (standsAll inTrapFull [.rte un, .rteSkip un] ∧ (inTrapFull.grp 0).flow.stack.length = (inTrapFull.grp 0).trap.entryDepth ∧
      32 < (inTrapFull.grp 0).flow.stack.length + ((inTrapFull.grp 0).defs.map DefRec.pc).dedup.length) := by decide +kernel

theorem witness_SoftwareTrapsTickAndHalt :
    standsAll sup0 [.trap un 0xFFFF, .bkpt un 0xFFF, .halt un, .tick un (.s 4), .trap off1 0, .bkpt off1 0, .halt off1, .tick off1 (.s 4)] ∧
    sup0.hasGrp 0 = true ∧ (sup0.reg 0x10000250000).getLsbD 0 = false ∧ (sup0.grp 0).flow.run < 23 ∧
    (let s := sup0.setReg 0x10000250000 1
     standsAll s [.bkpt un 1] ∧ (s.reg 0x10000250000).getLsbD 0 = true ∧ s.dbg.frozen = false ∧ s.dbg.freeze = none) := by
  decide +kernel

def openRegs : List (BitVec 12) :=
  [0x000, 0x001, 0x002, 0x003, 0x004, 0x005, 0x006, 0x010, 0x011, 0x012, 0x013, 0x014, 0x015, 0x016, 0x017, 0x020, 0x021, 0x022, 0x040, 0x04F]
def ctxWrites (left : List Nat) : State :=
  sup0.setHub { sup0.hub with ctxWrites := [⟨3, 0, 0x005, 9, left, 0, 0, 8, some 132, 32⟩, ⟨4, 0, 0x005, 7, [0, 1], 0, 0, 9, none, 9⟩] }

theorem witness_ControlRegisters :
    standsAll sup0 (openRegs.map (fun n => .csrr un (.s 4) n)) ∧
    standsAll sup0 [.csrw un (.s 4) (.s 5) 0x002, .csrs un (.s 4) (.s 5) 0x020, .csrc un (.s 4) (.s 5) 0x003, .csrw un (.s 4) (.s 5) 0x004,
      .csrr off1 (.s 4) 2, .csrw off1 (.s 4) (.s 5) 2, .csrs off1 (.s 4) (.s 5) 2, .csrc off1 (.s 4) (.s 5) 2,
      .csrw un (.s 4) (.s 5) 0x005, .csrw un (.s 4) (.s 5) 0x006, .csrw un .zero (.s 5) 0x017] ∧
    csrIsCtx 0x020 = false ∧ sup0.csrWaits 0 (sup0.grp 0) 2 = false ∧ sup0.csrWaits 0 (sup0.grp 0) 0x017 = false ∧ sup0.hasGrp 0 = true ∧
    (let s := sup0.updGrp 0 (fun x => { x with regs := { x.regs with pend := [] } })
     let s := s.setSys { s.sys with results := [(7, ⟨0, [1], [], 0, true, [], none⟩)] }
     standsAll s [.csrr un (.s 4) 3] ∧ s.csrWaits 0 (s.grp 0) 3 = true) ∧
    ((ctxWrites [0]).hub.ctxWrites.any (fun v => decide (v.id < 3 ∧ v.ctx = 0) && v.left.contains 0) = false ∧
      (ctxWrites [0]).hub.ctxWrites.any (fun v => decide (3 < v.id ∧ v.ctx = 0) && v.left.contains 0) = true ∧
      (ctxWrites [0]).hub.ctxWrites.any (fun v => decide (v.id < 4 ∧ v.ctx = 0) && v.left.contains 0) = true ∧
      (ctxWrites [0]).hub.ctxWrites.any (fun v => decide (v.id < 4 ∧ v.ctx = 0) && v.left.contains 1) = false ∧
      (ctxWrites [0]).hub.ctxWrites.find? (fun v => decide (v.id = 3)) = some ⟨3, 0, 0x005, 9, [0], 0, 0, 8, some 132, 32⟩) := by
  decide +kernel

def tlbi1 (dropped : Bool) (users : List (Nat × Nat × Nat)) (seq : Nat) : Tlbi := ⟨5, 0, 0, seq, 0, .page 0 false, dropped, users⟩
def withTlbi (s : State) (k : Tlbi) : State := s.setSys { s.sys with tlbis := [k] }

theorem witness_TranslationInvalidation :
    standsAll sup0 [.tlbiPage un (.s 4) none, .tlbiPageRecall un (.s 4) (some (.s 5)), .tlbiContext un (some (.s 5)), .tlbiAll un,
      .tlbiPage off1 (.s 4) none, .tlbiPageRecall off1 (.s 4) none, .tlbiContext off1 none, .tlbiAll off1] ∧
    sup0.sys.tlbis = [] ∧
    (let s := regS 5 64 sup0
     standsAll s [.tlbiContext un (some (.s 5))] ∧ ¬ (s.rd (s.grp 0) (.s 5) 0).toNat ≤ 63) ∧
    (let s := withTlbi sup0 (tlbi1 false [] 0)
     standsAll s [.tlbiContext un none] ∧ s.sys.tlbis.any (fun t => decide (t.grp = 0 ∧ t.team = 0)) = true ∧
      (s.lsDone 0 0 0 .package true && !s.tlbiHeld (tlbi1 false [] 0)) = true) ∧
    (let s := withTlbi busy (tlbi1 false [] 1)
     (s.lsDone 0 0 1 .package true && !s.tlbiHeld (tlbi1 false [] 1)) = false) ∧
    (tlbi1 true [] 0).users.all sup0.keyDone = true ∧
    (let s := busy.setSys { busy.sys with reqs := [oneReq .load] }
     (tlbi1 true [(0, 0, 0)] 1).users.all s.keyDone = false) := by decide +kernel

theorem witness_ResultsReturn :
    let s := s0With (fun x => { x with regs := (x.regs.drain 5 9).drain 132 9, sched := { x.sched with need := [5] } })
    let r : Result := ⟨0, [5, 132], [(5, 95, 7), (132, 0, 8)], 1, true, [], none⟩
    let t := s.setSys { s.sys with results := [(9, r)] }
    Tab.find? 9 t.sys.results = some r ∧ t.hasGrp 0 = true ∧ Tab.find? 5 (t.grp 0).regs.pend = some 9 ∧ (t.grp 0).sched.need ≠ [] ∧
      (t.grp 0).isFull 5 = false := by decide +kernel

end Sys2Proof.Tests

namespace Sys2Proof.Tests
set_option Elab.async false
open Sys2Proof Sys2Proof.Machine Sys2Proof.Spec

/-! ## Replication words, publications, collectives, matrix words, Quire -/

/-- Die 0 lives, with an applied count of 1 of itself. -/
def live0 : State := { s0 with repl := { s0.repl with live := 1, dies := [(0, { RepDie.reset with e := 1, av := [(0, 1)] })] } }
def vwaiting (v0 : Word) (dl : Option Word) : State :=
  live0.updGrp 0 (fun x => { x with sched := { x.sched with susp := .vwait (.s 4) v0 0 0 dl 0 } })

theorem witness_ReplicationWords :
    standsAll s0 [.vread un (.s 58), .vread un (.s 0), .vwait un true (.s 4) (.s 10) .zero, .vwait un false (.s 4) (.s 10) (.s 13),
      .vwait off1 true (.s 4) (.s 10) .zero, .verchk hd true (.p 0) (.s 4) (.s 5), .verchk hd false (.p 6) (.s 4) (.s 5),
      .verchk { hd with gp := 1 } true (.p 0) (.s 4) (.s 5)] ∧
    s0.repApplied 0 (s0.grp 0) = true ∧ (∀ k < 8, appliedCount live0 0 k < 65536) ∧
    (let s := s0.setSys { s0.sys with reqs := [{ oneReq .store with leaf := 0xD7 }] }
     standsAll s [.vread un (.s 4)] ∧ s.repApplied 0 (s.grp 0) = false) ∧
    (live0.liveDies = [0] ∧ appliedCount live0 0 0 = 1 ∧ (live0.repl.epoch - (0 : BitVec 16)).toNat = 0) ∧
    (standsAll (regS 10 2 live0) [.vwait un true (.s 4) (.s 10) .zero, .vwait un false (.s 4) (.s 10) (.s 13)] ∧
      ¬ (((2 : Word).extractLsb' 0 16).toNat ≤ appliedCount live0 0 0)) ∧
    ((vwaiting 2 none).grp 0).sched.susp = .vwait (.s 4) 2 0 0 none 0 ∧ ((vwaiting 2 (some 0)).grp 0).sched.susp = .vwait (.s 4) 2 0 0 (some 0) 0 ∧
    standsAll noLane [.verchk hd true (.p 0) (.s 4) (.s 5)] ∧ standsAll fourLogs [.verchk hd true (.p 0) (.s 4) (.s 5)] ∧
    standsAll (regS 4 4 s0) [.verchk hd true (.p 0) (.s 4) (.s 5)] ∧
    readZero ((regS 4 0x100 s0).oneAccess 0 (s0.grp 0) (localInfo s0 0 (s0.grp 0) true allLanes 0 8 false .zero) verKind
      (mkAcc 0 0x100 .load 8 0 0)) := by decide +kernel

/-- Channel 5 is published by partition 0; communicator 6 holds die 0. -/
def espalier : State := (s0.setReg (0x10000100000 + 0x40 * 5) 0x41).setReg (0x10000100000 + 0x40 * 6) 0x103
def collWord (w : Word) : State := regS 12 w espalier
def coll6 (turn die : Nat) (count : Nat) (result : Option (List Byte)) : CollOp :=
  { id := 50 + die, grp := 0, team := 0, core := 0, slot := 0, ctx := 0, sup := false, pc := 0, seq := 0, comm := 6, src := 0, dst := 0,
    count := count, kind := 0, rop := 0, ty := 0, scope := .die, die := die, turn := turn, result := result, parked := none }
def withColls (l : List CollOp) (dies : Word) : State :=
  let s := s0.setReg (0x10000100000 + 0x40 * 6) (3 + 256 * dies)
  { s with fab := { s.fab with colls := l } }

theorem witness_PublicationsAndCollectives :
    standsAll s0 [.pub un false (.s 4) (.s 5) (.s 6), .pub un true (.s 4) (.s 5) (.s 6), .pubv un (.s 4) (.s 5), .coll un (.s 10),
      .pub off1 false (.s 4) (.s 5) (.s 6), .pubv off1 (.s 4) (.s 5), .coll off1 (.s 10)] ∧
    (let s := regS 5 5 (regS 6 0x4000000000 espalier)
     standsAll s [.pub un false (.s 4) (.s 5) (.s 6), .pubv un (.s 4) (.s 5)] ∧ s.mayPublish 0 5 = true ∧
      ((0x4000000000 : Word).extractLsb' 32 24).toNat = 64 ∧ s.fabricOut 0 (s.grp 0) = 0 ∧ (s.grp 0).fenced .fb = false) ∧
    (let s := regS 5 5 (regS 6 0 espalier)
     standsAll s [.pub un false (.s 4) (.s 5) (.s 6)] ∧ s.mayPublish 0 5 = true) ∧
    s0.mayPublish 0 0 = false ∧ (let s := regS 5 0x10000 s0; standsAll s [.pub un false (.s 4) (.s 5) (.s 6), .pubv un (.s 4) (.s 5)] = true) ∧
    (let s := regS 4 0x100000 s0
     standsAll s [.pub un true (.s 4) (.s 5) (.s 6)] ∧ ((s.team 0).localSize + 4095) / 4096 * 4096 < 0x100000 + 0) ∧
    (let s := withColls (List.replicate 4 (coll6 0 0 1 none)) 1
     4 ≤ s.fabricOut 0 (s.grp 0)) ∧
    (let w : Word := 0x600000001
     let s := collWord w
     standsAll s [.coll un (.s 10)] ∧ s.mayCollect 0 0 6 = true ∧ w.extractLsb' 53 11 = 0 ∧ (w.extractLsb' 32 12).toNat = 6) ∧
    s0.mayCollect 0 0 0 = false ∧
    standsAll (collWord 0x8000000600000001) [.coll un (.s 10)] ∧ standsAll (collWord 0x1C000600000001) [.coll un (.s 10)] ∧
    standsAll (collWord 0x600000000) [.coll un (.s 10)] ∧
    (let s := withColls [coll6 0 0 1 none, coll6 0 1 2 none] 3
     (s.collMembers (coll6 0 0 1 none)).map (fun m => m.2.map CollOp.id) = [some 50, some 51]) ∧
    (let s := withColls [coll6 0 0 1 none] 3
     (s.collMembers (coll6 0 0 1 none)).map (fun m => m.2.map CollOp.id) = [some 50, none]) ∧
    (let s := withColls [coll6 0 0 1 (some [])] 1
     (s.collMembers (coll6 0 0 1 (some []))).map (fun m => m.2.map CollOp.result) = [some (some [])]) := by decide +kernel

theorem goes_of {s : State} {i : Instr} {h : Hdr} {l : List Operand} (hs : standsB s 0 i = true)
    (hb : s.hasGrp 0 && (Tab.find? (s.grp 0).team s.teams).isSome && decide ((s.grp 0).flow.mask = allLanes) &&
      decide ((s.grp 0).uniGuard h = .run) && l.all (fun o => match o with | .v _ => false | _ => true) = true) : MxGoes s 0 i h l := by
  simp only [Bool.and_eq_true, decide_eq_true_eq] at hb
  refine ⟨stands_of hs, hb.1.1.1.1, hb.1.1.1.2, hb.1.1.2, hb.1.2, ?_⟩
  intro o ho n hn
  have := List.all_eq_true.mp hb.2 o ho
  rw [hn] at this
  simp at this

/-- A word of lanes under p1. -/
def p1h : Hdr := { hd with gp := 1 }
/-- Operands of matrix words: a descriptor of FP16 tiles with K 64, a window of 64 bytes, a drain of FP32 rows. -/
def mxRegs : State := regS 10 0x4000000101 (regS 12 64 (regS 14 0x1000000000 s0))
def mxWords : List Instr :=
  [.wbload hd true (.s 4) (.s 5) (.s 12), .wbload hd false (.s 4) (.s 5) (.s 12), .mma hd ⟨0, 0, true⟩ (.a 0) (.a 4) (.a 8) (.s 10),
   .aclr hd 15 (.a 0), .acvt hd ⟨0, true, .rne, false, false⟩ (.a 0), .amovToVector hd 0 (.v 127) (.a 1) (.s 5),
   .amovToTile hd 31 (.a 1) (.v 96) (.s 5), .mpoly hd ⟨0, 1, true⟩ (.a 0) (.s 5), .miter hd ⟨false, false, true⟩ (.a 0) (.a 1) (.s 5),
   .mdrain hd ⟨0, 0, true, true, .rne, false, false⟩ (.a 0) (.s 4) .zero (.s 14), .coefl hd 0 15 (.s 4)]
def mxOk (s : State) : Bool :=
  s.hasGrp 0 && (Tab.find? 0 s.teams).isSome && decide ((s.grp 0).flow.mask = allLanes) && decide ((s.grp 0).uniGuard hd = .run)
def someEntry : MxEntry := ⟨1, 0, false, 0, 0, 0, .aclr 0 1, false, [], 0, .none, false, none, 0, false, false⟩
def mxFull : State := mxRegs.updTeam 0 (fun t => { t with mx := List.replicate 8 someEntry })

theorem witness_MatrixWordsIssue :
    standsAll mxRegs mxWords ∧ mxOk mxRegs ∧ (mxRegs.team 0).mx = [] ∧ (mxRegs.grp 0).fenced .mx = false ∧
    (mxRegs.team 0).mmaCheck 64 64 0 (some 4) 0 (some 8) 0 0x4000000101 0 = none ∧
    (mxRegs.team 0).drainCheck 64 64 (drainMain true .rne 0 0x1000000000 0) none 0x1000000000 = none ∧
    (mxRegs.team 0).mmaCheck 64 64 0 (some 4) 0 (some 8) 0 0 0 = some 2 ∧ (mxRegs.team 0).drainCheck 64 64 (drainMain true .rne 0 0 0) none 0 = some 4 ∧
    standsAll s0 mxWords ∧ standsAll mxFull mxWords ∧ 8 ≤ (mxFull.team 0).mx.length ∧
    standsAll (regS 5 1 mxRegs) mxWords ∧ standsAll (regS 4 4 mxRegs) mxWords ∧ standsAll (regS 4 0x10000 mxRegs) [.coefl hd 0 15 (.s 4)] ∧
    standsAll (regS 4 2 mxRegs) [.coefl hd 0 15 (.s 4)] ∧
    standsAll (s0With (fun x => { x with flow := { x.flow with mask := 1 } })) mxWords ∧
    standsAll s0 [.wbload p1h true (.s 4) (.s 5) (.s 12), .aclr p1h 0 (.a 0), .coefl p1h 0 0 (.s 4)] ∧ (s0.grp 0).uniGuard p1h = .skip ∧
    standsAll someP1 [.aclr p1h 0 (.a 0), .mpoly p1h ⟨0, 1, true⟩ (.a 0) (.s 5)] ∧ (someP1.grp 0).uniGuard p1h = .differ := by decide +kernel

def mxEntry (op : MxOp) (started : Bool) (todo : List MxPiece) : MxEntry :=
  ⟨1, 0, false, 0, 0, 0, op, started, todo, 0, .none, false, none, 0, false, false⟩
def mxState (e : MxEntry) : State := s0.updTeam 0 (fun t => { t with mx := [e] })
def mxHere (e : MxEntry) : Bool :=
  let s := mxState e
  (Tab.find? 0 s.teams).isSome && decide ((s.team 0).core = 0) && decide ((s.team 0).mx = [e]) && decide ((s.team 0).members ≠ []) &&
    (s.team 0).mxReady && decide (s.mxNext 0 = some 0) && !s.freezeDue && s.owns (e.info 0)
def spanOk (r : Span × State) : Bool := match r.1 with | .done _ => true | _ => false
def miterOp (cap : Nat) : MxOp := .miter 64 0 1 0 false true [1, 2] cap 0
def runEnds (s : State) (e : MxEntry) (stops : Bool) : Bool :=
  match (s.team 0).miterPhase 64 0 1 0 false true [1, 2] 0x10 0 e.run with
  | (.stop .., _) => stops
  | (.on _, _) => !stops

theorem witness_MatrixExecution :
    [MxOp.aclr 0 16, .acvt 15 1 true .rne false false, .wbload true 0 0 64, .mma 64 64 true 0 (some 4) 0 (some 8) 0 0x4000000101 0, .toVec 1 0 [5] 9,
      .toTile 1 0 [(0, 7)] 1, .mpoly 64 0 0 1 true [1, 2]].all (fun op => mxHere (mxEntry op false [])) ∧
    mxHere (mxEntry (.mdrain 64 64 0 true true .rne false false 0 none 0 0) true [.put true 0x40 [1, 2]]) ∧
    (let e := mxEntry (.wbload false 0 0 64) true [.fetch 0x40 0 64]
     mxHere e ∧ spanOk ((mxState e).agentRead ((mxState e).mxAgent 0 e) wbloadKind 0x40 64)) ∧
    (let e := mxEntry (.mdrain 64 64 0 false true .rne false false 0x40 none 0 0) true [.put false 0x40 [1, 2]]
     let s := mxState e
     let s := s.setSys { s.sys with tlbs := [{ unit := 0, ctx := 0, vpage := 0, logSize := 14, leaf := 0x9F }] }
     spanOk (s.agentWrite (s.mxAgent 0 e) mdrainKind 0x40 [1, 2])) ∧
    (let e := mxEntry (miterOp 0x10) true []
     mxHere e ∧ runEnds (mxState e) e false ∧ (mxState e).saving 0 = false) ∧
    (let e := { mxEntry (miterOp 0x10) true [] with run := ⟨0, 16, false, none⟩ }
     mxHere e) := by decide +kernel

/-- Context 0 binds opcode 0xE3 to nine micro-operations at 0x20, of which core 0 holds the first. -/
def bound0 (op : BitVec 128) : State :=
  let s := s0.setCtx 0 { s0.ctx 0 with regs := { (s0.ctx 0).regs with qbind := [(3, 0x80000000A5010920)] } }
  s.updCore 0 (fun c => { c with quire := [(0, { ctx := some 0, ops := [(0x20, op)], since := 0 })] })
def bound3 : Instr := .boundOpcode hd 3 (.v 1) (.v 2) (.s 4) (.s 5) 0
def bound3Word : BoundWord := { d := .v 1, a := .v 2, b := .s 4, c := .s 5, fn := 0 }
def running (s : State) : State :=
  s.updGrp 0 (fun x => { x with q := x.q.begin false 0x80000000A5010920 3 0 0 bound3 allLanes })
/-- An image of one micro-operation, `end`, at address 0x1000. -/
def image1 (len : Nat) : State := regS 4 0x1000 (s0.store 0x1000 2 len |>.updGrp 0 (fun x => { x with sup := true }))
def imageOf (s : State) : Option Nat :=
  let x := s.grp 0
  let ag : Agent := { info := localInfo s 0 x true x.flow.mask 0 16 false .zero, core := x.core, slot := x.slot, ctx := x.ctx, sup := x.sup }
  match (s.readImage ag 0x1000 0).1 with
  | .ok ops => some ops.length
  | .error _ => none

theorem witness_QuireWords :
    (let qs : List Instr := [.qbind un 3 none (.s 4) (.s 5), .qbind un 15 (some 63) .zero (.s 5), .qstatBind un 3 (.s 4), .qstatState un (.s 4),
       .qload un (.s 4) (.s 5) none, .qload un (.s 4) (.s 5) (some (.s 6))]
     standsAll sup0 qs ∧ standsAll (regS 5 0x8000000000000000 sup0) qs ∧ standsAll (regS 5 0x80000000000008FF sup0) qs) ∧
    standsAll sup0 [.qbind off1 3 none (.s 4) (.s 5), .qstatBind off1 3 (.s 4), .qstatState off1 (.s 4), .qload off1 (.s 4) (.s 5) none] ∧
    sup0.mayName 0 63 = true ∧
    (let s := (sup0.setReg 0x10000050000 0x5).setReg 0x10000050080 0x9
     s.mayName 0 1 = false ∧ standsAll s [.qbind un 3 (some 1) .zero (.s 5)]) ∧
    (standsAll (image1 1) [.qload un (.s 4) (.s 5) none] ∧ imageOf (image1 1) = some 1 ∧ imageOf (image1 0) = none ∧
      (image1 1).permitted 4 0 0 .write ((image1 1).qback 0) 16 none = true ∧ (image1 1).lsWaits 0 ((image1 1).grp 0) = false ∧
      (image1 1).lsDone 0 0 0 .die true = true) ∧
    standsAll (regS 4 0x1008 sup0) [.qload un (.s 4) (.s 5) none] ∧
    standsAll (regS 6 64 sup0) [.qload un (.s 4) (.s 5) (some (.s 6))] ∧
    standsAll (fourLogs.updGrp 0 (fun x => { x with sup := true })) [.qload un (.s 4) (.s 5) none] ∧
    (let s := (bound0 0).updGrp 0 (fun x => { x with sched := { x.sched with susp := .qload [0] 0 0 } })
     s.quireRuns 0 0 = false ∧ (s.partOf 0 0).isSome = true) ∧ (running (bound0 0)).quireRuns 0 0 = true ∧
    (s0.partOf 0 0 = none ∧ (s0.part 0 3).ctx = none) := by decide +kernel

theorem witness_BoundWords :
    standsAll (bound0 0) [bound3] ∧ ((bound0 0).grp 0).q.running = false ∧ ((bound0 0).grp 0).q.active = false ∧
    bound3Word.check hd 0x80000000A5010920 128 = none ∧ ((bound0 0).grp 0).policyOf false (bound3Word.srcs hd 0x80000000A5010920) = .ok ∧
    (bound0 0).partOf 0 0 = some 0 ∧
    (let s := (bound0 0).updCore 0 (fun c => { c with quire := [] })
     standsAll s [bound3] ∧ s.partOf 0 0 = none) ∧
    ((bound0 0).updGrp 0 (fun x => { x with flow := { x.flow with mask := 0 } })).issuer = some 0 ∧
    (let s := running (bound0 0)
     s.issuer = some 0 ∧ (s.grp 0).q.running = true ∧ (s.grp 0).q.upc < (s.grp 0).q.blen ∧ (s.grp 0).q.count ≠ 512 ∧ s.partOf 0 0 = some 0 ∧
      UOp.op (Tab.get 0 0x20 (s.part 0 0).ops) = 0) ∧
    (let s := running (bound0 0x10000000020000000000000000000004)
     UOp.op (Tab.get 0 0x20 (s.part 0 0).ops) = 4 ∧ UOp.d (Tab.get 0 0x20 (s.part 0 0).ops) < 8) ∧
    (let s := (running (bound0 0)).updGrp 0 (fun x => { x with q := { x.q with upc := 9 } })
     (s.grp 0).q.blen ≤ (s.grp 0).q.upc) := by decide +kernel

end Sys2Proof.Tests

namespace Sys2Proof.Tests
set_option Elab.async false
open Sys2Proof Sys2Proof.Machine Sys2Proof.Spec

/-! ## Launches and replication -/

/-- A record of two teams of two groups, on control cores or on cores of the dies. -/
def record2 (ctrl : Bool) : LaunchRec :=
  { entry := 0x800, param := 7, x := 2, y := 1, z := 1, groups := 2, vregs := 32, acc := 0, w := 1, h := 1, fuse := false, loc := 0,
    queue := 3, dmode := false, ctrl := ctrl, pbase := 0, pstride := 0, daddr := 0, dval := 0, msix := 0 }
def grid9 (ctrl : Bool) (teams ended : List Nat) : Grid :=
  { id := 9, record := record2 ctrl, children := [], ctx := 0, mode := 0, count := 0, teams := teams, ended := ended, peer := none }
/-- Queue 3 is on and holds a launch; context 0 exists; die 0 is live. -/
def launching (ctrl : Bool) : State :=
  let s := (s0.setReg 0x100000100C0 1).setReg 0x10000050000 1
  let s := s.setQueue 3 { waiting := [grid9 ctrl [] []], done := 0 }
  { s with repl := { s.repl with live := 1 } }
def withGrid (k : Grid) : State := s0.setHub { s0.hub with grids := [k] }
def launched (s : State) (k : Grid) : HubWrite := (s.completionWrite k).1
def placesAt (s : State) (cores : List Nat) : Bool :=
  decide (s.headGrid 3 = some (grid9 false [] []) ∨ s.headGrid 3 = some (grid9 true [] [])) && decide (s.serveQueue = some 3) &&
    (s.headPlaces 3).contains cores && cores.all (fun c => decide (2 ≤ (s.freeSlots c).length))

theorem witness_Launches :
    standsAll s0 [.launch un (.s 4) (.s 5), .launchAgg un (.s 4) (.s 5) (.s 6), .launch off1 (.s 4) (.s 5)] ∧ s0.hasGrp 0 = true ∧
    standsAll (regS 5 4 s0) [.launch un (.s 4) (.s 5)] ∧ (busy.lsWaits 0 (busy.grp 0) = false ∧ fourLogs.lsWaits 0 (fourLogs.grp 0) = true) ∧
    placesAt (launching true) [0x3FF] ∧ placesAt (launching false) [0] ∧ placesAt (launching false) [103] ∧
    (let k := grid9 false [11] []
     (withGrid k).hub.grids.find? (fun j => decide (j.id = k.id)) = some k ∧ k.teams.length < k.record.x) ∧
    (let k := grid9 false [11, 12] [12, 11]
     let s := withGrid k
     s.teamsQuiet k.teams = true ∧ launched s k = .done ∧ (∀ t ∈ k.teams, t ∈ k.ended)) ∧
    (let k := { grid9 false [0, 12] [12, 0] with record := { record2 false with daddr := 0x1000 } }
     let s := withGrid k
     s.teamsQuiet k.teams = true ∧ launched s k ≠ .wait ∧ launched (s.setSys { s.sys with tlbs := [⟨0x408, 0, 0, 14, 0x9F⟩], migs := [(0, ⟨0, 0x4000, 0x4000, false, false, []⟩)] }) k = .wait ∧
      (s.setSys { s.sys with reqs := [oneReq .load] }).teamsQuiet k.teams = false) ∧
    (s0.setReg 0x10000010000 1).resvOk = true := by decide +kernel

/-- An update of word 1 of line 0x80 from die 1, its first. -/
def packet1 (kind : PktKind) (n : Nat) : Packet :=
  { id := 21, kind := kind, grp := 0, team := 0, seq := 0, path := .ls, ctx := 0, va := 0, tick := 0, src := 1, atom := false, slot := 0,
    line := 0x80, vec := [(1, n)], wmask := 2, epoch := 0, words := [0xAABBCCDD] }
def linked (p : Packet) : State := { live0 with repl := { live0.repl with live := 3, links := [(1, 0, p)] } }
def repDie (s : State) (d : Nat) (r : RepDie) : State := { s with repl := { s.repl with dies := Tab.set RepDie.reset d r s.repl.dies } }

theorem witness_UpdatesLagAndRebase :
    (let s := linked (packet1 .update 1)
     let p := packet1 .update 1
     firstOnLink s 1 0 p ∧ nextHere s 0 p ∧ (s.rep 0).locks = [] ∧ (s.rep 0).hold = [] ∧ p.line % 4 = 0) ∧
    (let s := linked (packet1 .update 2)
     firstOnLink s 1 0 (packet1 .update 2) ∧ ¬ nextHere s 0 (packet1 .update 2) ∧ (s.rep 0).hold.length < 4096) ∧
    (let s := linked (packet1 .update 1)
     let s := repDie s 0 { s.rep 0 with locks := [packet1 .lock 1] }
     firstOnLink s 1 0 (packet1 .update 1) ∧ ∃ q ∈ (s.rep 0).locks, q.line = (packet1 .update 1).line) := by delta firstOnLink nextHere; decide +kernel

theorem witness_LagAndRebase :
    (let s := repDie live0 0 { live0.rep 0 with e := 2048 }
     s.lagLimit 0 = true ∧ (s.rep 0).lagging = false ∧ live0.lagLimit 0 = false) ∧
    (0 ∈ live0.liveDies ∧ live0.repl.rebase = false ∧ live0.countsFull = false) ∧
    (repDie live0 0 { live0.rep 0 with e := 0xFFF0 }).countsFull = true ∧
    (let s := { live0 with repl := { live0.repl with rebase := true } }
     s.drained = true ∧ s.repl.removing = [] ∧ { s.repl with removing := [1] }.removing ≠ []) ∧
    (let s := { linked (packet1 .update 1) with pace := 1 }
     s.drained = false) := by decide +kernel

theorem full_hold (p : Packet) : 4096 ≤ ((repDie (linked p) 0 { (linked p).rep 0 with hold := List.replicate 4096 p }).rep 0).hold.length := by
  show 4096 ≤ (List.replicate 4096 p).length
  rw [List.length_replicate]

def strong5 (die : Nat) (slot : Option Nat) (pkt : Option Packet) (acks : List Nat) (done : Bool) : Strong :=
  { id := 21, die := die, ctx := 0, leaf := 0x97, info := localInfo s0 0 (s0.grp 0) true 1 7 4 false .zero, accs := [], line := 0x80,
    slot := slot, pkt := pkt, acks := acks, committed := done, applied := [], vals := [] }
def withStrong (live : BitVec 8) (o : Strong) : State := { live0 with repl := { live0.repl with live := live, strongs := [o] } }

theorem witness_StrongOperations :
    (let o := strong5 0 none none [] false
     let s := withStrong 3 o
     s.strong? 21 = some o ∧ s.released o.info = true ∧ s.repl.handover = false ∧ s.repHalted = false ∧ (s.rep 0).lagging = false ∧
      (s.team (s.grp o.info.grp).team).rrMode = 0 ∧ { s with repl := { s.repl with rebase := true } }.repHalted = true) ∧
    (let s := { live0 with repl := { live0.repl with handover := true, coll := 7, live := 0x81 } }
     s.repl.handover = true ∧ (s.repl.coll + 1) % 8 ∈ s.liveDies) ∧
    (let o := strong5 0 (some 0) none [] false
     let s := withStrong 3 o
     s.strong? 21 = some o ∧ (s.rep 0).expect = 0 ∧ s.countsFull = false ∧ s.repl.removing = [] ∧ s.lockFree 0 0x80 = true ∧
      1 ∈ s.liveDies ∧ 0 ≠ (repDie s 0 { s.rep 0 with expect := 2 } |>.rep 0).expect) := by decide +kernel

theorem witness_StrongAccept :
    (let o := strong5 1 (some 0) (some (packet1 .lock 1)) [1] false
     let s := withStrong 3 o
     let s := repDie s 0 { s.rep 0 with hold := [packet1 .lock 1] }
     s.strong? 21 = some o ∧ (s.rep 0).hold.find? (fun p => decide (p.kind = .lock ∧ p.id = o.id)) = some (packet1 .lock 1) ∧
      s.onLink 0 21 .lock = false ∧ nextHere s 0 (packet1 .lock 1) ∧ s.lockFree 0 0x80 = true ∧ (packet1 .lock 1).slot = (s.rep 0).expect ∧
      ¬ nextHere s 0 (packet1 .lock 2)) := by delta firstOnLink nextHere; decide +kernel

theorem witness_StrongCommit :
    (let o := strong5 1 (some 0) (some (packet1 .lock 1)) [1] false
     let all := strong5 1 (some 0) (some (packet1 .lock 1)) [1, 0] false
     (∃ d ∈ (withStrong 3 o).liveDies, d ∉ o.acks) ∧ (∀ d ∈ (withStrong 3 all).liveDies, d ∈ all.acks)) ∧
    (let o := strong5 1 (some 0) (some (packet1 .lock 1)) [1, 0] true
     let s := { withStrong 3 o with repl := { (withStrong 3 o).repl with links := [(1, 0, packet1 .commit 1)] } }
     s.strong? 21 = some o ∧ firstOnLink s 1 0 (packet1 .commit 1) ∧ (s.rep 0).hold = [] ∧ (s.rep 1).hold = [] ∧ 1 = o.die) ∧
    (let o := strong5 1 (some 0) (some (packet1 .lock 1)) [1] false
     let s := withStrong 1 o
     s.strong? 21 = some o ∧ o.die ∉ s.liveDies ∧ (s.rep 0).expect = 0 ∧ (s.rep 0).hold = [] ∧
      (repDie s 0 { s.rep 0 with expect := 3 } |>.rep 0).expect ≠ 0) := by delta firstOnLink nextHere; decide +kernel

def joining (copied : Bool) : State := { live0 with repl := { live0.repl with join := some { rank := 7, copied := copied } } }

theorem witness_MembershipChanges :
    (live0.repl.live.getLsbD 0 = true ∧ 0 ∉ live0.repl.removing ∧ live0.repl.live.getLsbD 7 = false) ∧
    (let s := { live0 with repl := { live0.repl with live := 3, removing := [1] } }
     s.repl.live.getLsbD 1 = true ∧ 1 ∈ s.repl.removing ∧ s.removeReady 1 = true) ∧
    (let s := withStrong 3 (strong5 1 none none [] false)
     let s := { s with repl := { s.repl with removing := [1] } }
     1 ∈ s.repl.removing ∧ s.removeReady 1 = false) ∧
    (live0.repl.join = none ∧ live0.repl.live.getLsbD 1 = false) ∧
    ((joining false).repl.join = some { rank := 7, copied := false } ∧ Memory.wf (joining false).mem = true ∧ (joining false).repl.rebase = false) ∧
    (let s := joining true
     Memory.wf s.mem = true ∧ s.repl.removing = [] ∧ s.drained = true ∧ s.repl.strongs = [] ∧ (s.reg 0x10000027008).getLsbD 10 = true ∧
      ((s.setReg 0x10000027008 0).reg 0x10000027008).getLsbD 10 = false ∧
      s.repBase s.lowRank + s.repSize ≤ s.repBase 7) := by decide +kernel

end Sys2Proof.Tests

namespace Sys2Proof.Tests
set_option Elab.async false
open Sys2Proof Sys2Proof.Machine Sys2Proof.Spec

/-! ## Peers, publications on their way, the memory system -/

def peerReq (op : AccOp) (st : PeerState) (first sends : Nat) : PeerReq :=
  { id := 31, core := 0, die := 0, ctx := 0, pkg := 3, info := localInfo s0 0 (s0.grp 0) false 1 7 4 false .zero,
    accs := [⟨mkAcc 0 0x1000 op 4 0 0, 0x1000⟩], tag := 5, gen := false, state := st, first := first, sends := sends, due := 2000 }
def withPeer (t : Word) (q : PeerReq) : State := { s0 with tick := t, fab := { s0.fab with reqs := [q] } }
def sends (s : State) (q : PeerReq) : Bool := decide (s.peerNext 0 = some q ∧ s.peer? 31 = some q ∧ (∀ r ∈ s.fab.reqs, r.state ≠ .ready))
/-- The access tables deny every request to a peer. -/
def deniedPeers (s : State) : State := s.setReg 0x10000064000 0

theorem witness_PeerRequests :
    (let q := peerReq .load .queued 0 0
     let s := withPeer 1 q
     sends s q ∧ s.peerGranted q = true ∧ s.peerOut 0 < 256 ∧ s.freeTag 0 = some 0 ∧
      sends (deniedPeers s) q ∧ (deniedPeers s).peerGranted q = false) ∧
    (let q := peerReq .load .queued 1 0
     sends (withPeer 9 q) q ∧ (withPeer 9 q).peerGranted q = true ∧ q.first ≠ 0) ∧
    (let q := peerReq .load .sent 1 0
     let s := withPeer 20001 q
     s.peer? 31 = some q ∧ q.accs = [⟨mkAcc 0 0x1000 .load 4 0 0, 0x1000⟩] ∧ q.first + 20000 * (q.sends + 1) ≤ s.tick.toNat ∧
      s.owns q.info = true ∧ s.hasGrp q.info.grp = true ∧ q.info.engine = none ∧ q.info.once = false ∧ q.info.grp ≠ 0x10000) ∧
    (let q := peerReq .load .busy 1 0
     (withPeer 2000 q).peer? 31 = some q ∧ q.due ≤ (withPeer 2000 q).tick.toNat ∧ (withPeer 1999 q).tick.toNat < q.due) ∧
    (let q := peerReq .load .sent 1 3
     let s := withPeer 60801 q
     s.peer? 31 = some q ∧ q.first + 60800 ≤ s.tick.toNat ∧ ¬ q.first + 60800 ≤ (withPeer 60800 q).tick.toNat) := by decide +kernel

def cached (gen : Bool) : State :=
  { s0 with fab := { s0.fab with cache := [⟨41, 0, 2, 5, gen, .done [1, 0, 0, 0], 1000000⟩] } }

theorem witness_RequestsOfPeers :
    (s0.tagging = false ∧ s0.sys.migs = [] ∧ s0.sys.own = [] ∧ s0.dbg.stopped = false ∧ s0.dbg.frozen = false) ∧
    Tab.get false (lineKey 0x1040 0) s0.sys.poison = false ∧ (∀ k < 64, s0.permitted 0 0 0 .read (0x1040 + k) 1 none = true) ∧
    s0.permitted 0 0 0 .write 0x17FFFFFFFF 1 none = true ∧ s0.permitted 0 0 0 .atomic 0x1078 8 none = true ∧ s0.fab.cache = [] ∧
    (cached false).fab.cache.find? (fun c => decide (c.die = 0x1000 / 0x2000000000 ∧ c.pkg = 2 ∧ c.tag = 5) && decide (c.gen = false))
      = some ⟨41, 0, 2, 5, false, .done [1, 0, 0, 0], 1000000⟩ ∧ s0.peerPlace 0x1000 (.atomic .add .u32 [(0, 1, 0)]) = true := by
  decide +kernel

def pub5 (sent : Nat) (parked : Option Nat) : PubWord :=
  { id := 51, grp := 0, team := 0, core := 0, slot := 0, ctx := 0, sup := false, pc := 0, seq := 0, ch := 5, num := 0, ver := false, lsrc := true,
    src := 0, off := 0, len := 65, sent := sent, parked := parked, left := [], first := 0, tries := 0 }
/-- Channel 5 with two children, and with `sub` a window of 4 KiB at 0x1000. -/
def channel (sub : Bool) : State :=
  let a := 0x10000100000 + 0x40 * 5
  ((((s0.setReg a (if sub then 0x2000C1 else 0x200041)).setReg (a + 8) 0x20001).setReg (a + 32) 0x1000).setReg (a + 40) 0x1000).setReg (a + 48) 8
def flit5 (ver held : Bool) (acks : List Nat) (data : List Byte) : Flit :=
  { id := 52, ch := 5, part := 1, seq := 1, off := 0, data := data, ver := ver, src := none, acks := acks, held := held,
    ent := (channel true).espEntry 5 }
def withFlit (f : Flit) (subs : Nat) : State := { channel true with fab := { (channel true).fab with flits := [f], subs := [(5, subs)] } }

theorem witness_PublicationsArrive :
    (let s := { channel false with fab := { s0.fab with pubs := [pub5 0 none] } }
     s.espPub 5 = true ∧ s0.espPub 5 = false ∧ s0.sys.migs = [] ∧
      s.fab.pubs.find? (fun p => decide (p.id = 51)) = some (pub5 0 none) ∧ kidsOf (s.esp 5) ≠ [] ∧ (s.esp 5 0).getLsbD 7 = false) ∧
    (pub5 0 none).src.toNat + (pub5 0 none).len < 2 ^ 64 ∧ (pub5 64 none).sent < 65 ∧ (pub5 0 (some 0)).parked ≠ none ∧
    (let i : Input := .flit 15 5 1 1 0xFFF [7] false
     let s := { channel true with inputs := [.droop 0, i] }
     s.inputs.find? (fun i => match i with | .flit p .. => decide (p = 15) | _ => false) = some i ∧ s.espPub 5 = true ∧ s.espPub 6 = false ∧
      (s.esp 5 0).getLsbD 7 = true ∧ kidsOf (s.esp 5) ≠ [] ∧ 0xFFF < (s.esp 5 5).toNat % 2 ^ 32 ∧ s.sys.migs = [] ∧ s.tagging = false ∧
      s.permitted 0 ((s.esp 5 7).toNat % 64) 4 .write ((s.esp 5 4).toNat / 4096 % 2 ^ 40 * 4096 + 0xFFF) 1 none = true) ∧
    (let f := flit5 true true [] [1, 0, 0, 0, 0, 0, 0, 0]
     let s := withFlit f 1
     let at_ := fun (k : Nat) => (f.ent.getD k 0).toNat
     let pa := at_ 4 / 4096 % 2 ^ 40 * 4096 + at_ 6 % 2 ^ 32
     s.fab.flits.find? (fun k => decide (k.id = f.id) && k.held) = some f ∧ Tab.get f.seq f.ch s.fab.subs = f.seq ∧
      s.lexp pa (pa / 0x2000000000) ≤ s.tick.toNat ∧ s.permitted 0 (at_ 7 % 64) 4 .write pa 8 none = true ∧
      Tab.get f.seq f.ch (withFlit f 0).fab.subs ≠ f.seq ∧
      (let t := s.setSys { s.sys with lexp := [(lineKey pa 0, 9)] }
       t.tick.toNat < t.lexp pa (pa / 0x2000000000))) ∧
    (let f := flit5 false false [1, 2] [7]
     (withFlit f 0).fab.flits.find? (fun k => decide (k.id = f.id)) = some f ∧ f.ent ≠ [] ∧ f.acks.filter (fun k => decide (k ≠ 1)) ≠ [] ∧
      (flit5 false false [1] [7]).acks.filter (fun k => decide (k ≠ 1)) = [] ∧
      (flit5 true true [1] [7]).held = true) := by decide +kernel

def heldReq : Req := { oneReq .store with state := .held }
def withReq (q : Req) : State := s0.setSys { s0.sys with reqs := [q] }
def fetched (s : State) : Bool := match s.fetchReach (s.grp 0) with | (.ok pa leaf, _) => decide (pa = 0 ∧ pteTrk leaf = false) | _ => false
def parks (s : State) : Bool := match s.fetchReach (s.grp 0) with | (.park _, u) => decide (u.groups = s.groups) | _ => false
def touching : State := s0.updGrp 0 (fun x => { x with q := { x.q with running := true, touched := [3] } })
def fill7 : Fill := ⟨7, 0, 0x80, [1, 2, 3], 9⟩

theorem witness_HoldsRecallsLeasesAndFetches :
    ((withReq heldReq).req? 7 = some heldReq ∧ (withReq heldReq).mustHold heldReq = false ∧
      placeOf false 0x1000 = .hbm 0 0x1000 ∧ (withReq heldReq).permitted 0 0 0 .write 0x1000 4 none = true ∧
      (withReq heldReq).tagsFit heldReq.leaf 0x1000 0x1000 4 = true) ∧
    (let s := withReq { heldReq with info := { heldReq.info with ord := .strong, scope := .system } }
     let s := s.setSys { s.sys with lexp := [(lineKey 0x1000 0, 9)] }
     s.mustHold { heldReq with info := { heldReq.info with ord := .strong, scope := .system } } = true) ∧
    (touching.quireHolds 3 4 = true ∧ touching.quireHolds 4 5 = false ∧ 4 * 4096 / 0x2000000000 = 0) ∧
    (let s := s0.setSys { s0.sys with fills := [fill7] }
     s.sys.fills.find? (fun k => decide (k.id = 7)) = some fill7 ∧ s.tick.toNat < fill7.expiry) ∧
    (s0.hasGrp 0 = true ∧ (s0.grp 0).sched.halted = false ∧ (s0.grp 0).sched.fetch = none ∧ fetched s0 ∧
      s0.permitted 0 0 0 .read 0 128 none = true ∧ s0.tagsFit plainLeaf 0 0 8 = true ∧ Tab.get false (0 / 128 * 16 + 0) s0.sys.poison = false) ∧
    parks (s0.setSys { s0.sys with tlbs := [] }) := by decide +kernel

/-- Die 0's migration registers name 16 KiB at 0x8000 and a frame. -/
def moving (dst : Word) : State := (s0.setReg 0x10000052100 0x8000).setReg 0x10000052108 dst
def migrating (copied : Bool) : State := s0.setSys { s0.sys with migs := [(0, ⟨0x8000, 0x10000, 0x4000, copied, false, []⟩)] }
def walked (s : State) (va : Nat) : Bool := match (s.walkCached 0 0 va).1 with | .leaf _ n => decide (n = 14) | _ => false
/-- Four tables, from 0x4000 on, lead to a leaf for address 0. -/
def tabled : State :=
  ((((s0.setReg 0x10000050008 0x4000).store 0x4000 8 0x8001).store 0x8000 8 0xC001).store 0xC000 8 0x10001).store 0x10000 8 0x97

theorem witness_MigrationWalksAndReplay :
    (let s := moving 0x10000
     s.reg 0x10000052100 = 0x8000 ∧ s.reg 0x10000052108 = 0x10000 ∧ Tab.find? 0 s.sys.migs = none ∧
      placeOf s.tagging 0x8000 = .hbm 0 0x8000 ∧ placeOf s.tagging 0xBFFF = .hbm 0 0xBFFF ∧ placeOf s.tagging 0x13FFF = .hbm 0 0x13FFF ∧
      s.quireHolds (0x8000 / 4096) (0xC000 / 4096) = false ∧
      (s.updGrp 0 (fun x => { x with q := { x.q with running := true, touched := [11] } })).quireHolds 8 12 = true) ∧
    (Tab.find? 0 (migrating false).sys.migs = some ⟨0x8000, 0x10000, 0x4000, false, false, []⟩ ∧ Memory.wf (migrating false).mem = true ∧
      (migrating false).tagging = false ∧ (migrating false).permitted 1 0 1 .write 0x10000 0x4000 none = true ∧
      ((migrating false).setReg 0x10000062000 0).permitted 1 0 1 .write 0x10000 0x4000 none = false ∧
      (Tab.find? 0 (migrating true).sys.migs).isSome = true) ∧
    walked (tabled.count 0x340 0x4D 1) 0 ∧
    (let s := (s0.updGrp 0 (fun x => { x with sched := { x.sched with fetch := some 3 } }))
     let s := s.setFaultBuf 0 0 { s.faultBuf 0 0 with busy := true, since := 4 }
     s.groups.map Prod.fst = [0] ∧ s.sys.orphans = [] ∧ s.sys.engs = [] ∧ (s.grp 0).ctx = 0 ∧ s.issueDie (s.grp 0).core = 0 ∧
      (s.grp 0).mem.logs = [] ∧ (s.grp 0).sched.susp = .none ∧ (s.faultBuf 0 0).busy = true ∧ 3 < (s.faultBuf 0 0).since) := by
  decide +kernel

end Sys2Proof.Tests

namespace Sys2Proof.Tests
set_option Elab.async false
open Sys2Proof Sys2Proof.Machine Sys2Proof.Spec

/-! ## Contexts, counters, freezing, boundaries -/

/-- Context 0 is resident and its groups are asked to save. -/
def saving (cmd state : Nat) : State := (s0.setReg 0x10000050000 (BitVec.ofNat 64 (1 + state * 0x1000))).setCtx 0 { s0.ctx 0 with cmd := cmd }
/-- Entry 5 of the slice table is armed for gang 0, whose contexts are `gang`, at the reference instant. -/
def sliced (gang : Word) (t : Word) : State :=
  let s := saving 0 2
  { (s.setReg 0x10000012050 0x8000000000000000).setReg 0x10000013000 gang with tick := t }

theorem witness_PreemptResumeAndSlice :
    ((s0.groups.map Prod.fst).Nodup ∧ s0.ctxState 0 ≠ 3 ∧ (saving 0 3).ctxState 0 = 3 ∧ (s0.team (s0.grp 0).team).ctx = 0 ∧
      Tab.find? (s0.grp 0).team s0.teams ≠ none ∧ s0.hasGrp 0 = true) ∧
    ((saving 0 2).ctxState 0 = 2 ∧ ((saving 0 2).ctx 0).cmd = 0 ∧ ((saving 3 2).ctx 0).cmd ≠ 0) ∧
    ((s0.grp 0).sched.halted = false ∧ (s0With (fun x => { x with sched := { x.sched with halted := true } }) |>.grp 0).sched.halted = true) ∧
    ((sliced 1 0).dueSlice = some (5, false) ∧ (sliced 1 7).dueSlice = some (5, true) ∧ ((sliced 1 0).groups.map Prod.fst).Nodup ∧
      ((1 : Word).getLsbD 0 = true ∧ (sliced 1 0).ctxState 0 = 2) ∧ ((0 : Word).getLsbD 0 = false ∧ ((sliced 0 0).ctx 0).cmd = 0) ∧
      (sliced 0 0).dueSlice = some (5, false) ∧ ∀ e ∈ (sliced 0 0).teams, ¬ (0x3FC ≤ e.2.core ∧ e.2.core ≤ 0x3FF)) ∧
    s0.dueSlice = none := by decide +kernel

/-- The saved context of one team of one group, whose block lies in memory that is zero. -/
def savedOne : Saved :=
  { Saved.empty with teams := [(0, s0.team 0)], groups := [(0, (s0.grp 0).asSaved)], clusters := [(0, s0.cluster 0)] }
/-- A package that holds a saved context and nothing else. -/
def restoring : State :=
  let s := saving 3 2
  { s with groups := [], teams := [], clusters := [], repl := { s.repl with live := 1 }, hub := { s.hub with saved := [(0, savedOne)] } }
def places (s : State) : Bool := (s.clusterPlaces savedOne (s0.cluster 0)).contains [0]

theorem witness_SaveRestoreAndKill :
    ((saving 1 1).saveTeams 0 = [0] ∧ ((saving 1 1).pauseTeams [0]).teamStill 0 = true ∧ ((saving 1 1).ctx 0).cmd = 1 ∧ (saving 2 1).saveTeams 0 = [0] ∧
      ((saving 2 1).pauseTeams [0]).teamStill 0 = true ∧ ((saving 0 1).ctx 0).cmd = 0 ∧
      (((saving 1 1).setSys { s0.sys with reqs := [oneReq .load] }).pauseTeams [0]).teamStill 0 = false) ∧
    (s0.groups = [(0, s0.grp 0)] ∧ s0.teams = [(0, s0.team 0)] ∧ (s0.grp 0).team = 0 ∧ (s0.grp 0).ctx = 0) ∧
    (Tab.find? 0 restoring.hub.saved = some savedOne ∧ (restoring.ctx 0).cmd = 3 ∧ restoring.hub.gang = none ∧
      (s0.cluster 0).teams = [0] ∧ (s0.cluster 0).cores.length = 1 ∧ (s0.grp 0).asSaved.team = 0 ∧ restoring.sys.engs = []) ∧
    (restoring.freeSlots 0).head? = some 0 ∧ places restoring ∧
    ({ restoring with repl := { restoring.repl with live := 0 } }.clusterPlaces savedOne (s0.cluster 0) = [[0]] ∨
      places { restoring with repl := { restoring.repl with live := 0 } } = false) := by decide +kernel

theorem witness_RestoreChecks :
    restoring.restoreOk 0 savedOne = true ∧ ((restoring.store (0xF0) 1 1).restoreOk 0 savedOne = false) := by decide +kernel

theorem witness_CountersRingsAndActivity :
    (counterAt (counterAddr 0x345 0x56 - 0x10000000000) = some (0x345, 0x56) ∧ counterAt (counterAddr 7 3 - 0x10000000000) = some (7, 3) ∧
      3 ∉ ownCounters) ∧
    (let s := s0.setReg (counterAddr 7 3) 0x4FFFFFFFFFFFF
     let s := { s with dbg := { s.dbg with counts := [(counterAddr 7 3, 2)] } }
     Tab.get 0 (counterAddr 7 3) s.dbg.counts = 2 ∧ Tab.find? (counterAddr 7 3) s.dbg.reprog = none ∧ (s.reg (counterAddr 7 3)).getLsbD 50 = true ∧
      (s.reg (counterAddr 7 3)).getLsbD 51 = false) ∧
    s0.actInterval = none ∧
    (let s := { s0 with dbg := { s0.dbg with actNow := 25 }, tick := 4096 }
     s.actInterval = some 4096 ∧ s.tick.toNat % 4096 = 0 ∧ ¬ s.ringRoom 8 < (ringUnits 8).length ∧
      (s.setReg 0x10000242258 1).ringRoom 8 < (ringUnits 8).length ∧ Tab.find? 8 s.dbg.latched = none) ∧
    (let s := { s0 with dbg := { s0.dbg with latched := [(8, 1, [5])] } }
     Tab.find? 8 s.dbg.latched = some (1, [5])) := by decide +kernel

def freezing (t : Word) : State := { s0 with tick := t, dbg := { s0.dbg with freeze := some ⟨0, 1, 0, 0, 0, 0, 0⟩ } }
def frozen (k : Option Nat) : State := { freezing 64 with dbg := { (freezing 64).dbg with frozen := true, resumeAt := k } }
def chunk3 : Chunk := ⟨3, 0, 5, 2, 0⟩
/-- A log of 16 entries for context 0 at 0x9000. -/
def logged (t : Word) : State :=
  let s := (s0.setReg 0x10000251008 0x9000).setReg 0x10000251010 4
  { s with tick := t, dbg := { s.dbg with open_ := [chunk3] } }

theorem witness_FreezeDumpAndTimeouts :
    (s0.dbg.frozen = false ∧ s0.dbg.freeze = none) ∧
    ((freezing 64).freezeDue = true ∧ (freezing 63).freezeDue = false ∧ (freezing 64).atRest = true ∧
      (({ freezing 64 with sys := { s0.sys with results := [(9, ⟨0, [5], [], 0, true, [], none⟩)] } } : State).atRest = false)) ∧
    ((frozen (some 64)).dbg.frozen = true ∧ (frozen (some 64)).dbg.resumeAt = some 64 ∧ (frozen (some 65)).tick.toNat < 65 ∧
      (frozen none).annex = []) ∧
    (let s := { (s0.setReg 0x10000250030 1).setReg 0x10000250028 9 with tick := 9 }
     (s.reg 0x10000250030).getLsbD 0 = true ∧ s.reg 0x10000250028 = s.tick) ∧
    ((logged 4096).dbg.open_.find? (fun k => decide (k.ctx = 0 ∧ k.unit = 3)) = some chunk3 ∧ chunk3.touched + 4096 ≤ (logged 4096).tick.toNat ∧
      (logged 4096).rrRoom 0 1 = true ∧ (logged 4095).tick.toNat < chunk3.touched + 4096) ∧
    (let h : HeldOp := { mode := 2, grp := 0, unit := 3, id := 5, tick := 0, addr := 64, late := false }
     let s := { s0 with tick := 1000000 }.setReplay 0 { s0.replayOf 0 with held := [h] }
     let u := s.setReplay 0 { s0.replayOf 0 with held := [{ h with late := true }] }
     let o : LogOp := { info := localInfo s0 0 (s0.grp 0) true 0 0 8 false .zero, ctx := 0, unit := 3, id := 5, addr := 64 }
     h ∈ (s.replayOf 0).held ∧ h.tick + 1000000 ≤ s.tick.toNat ∧ h.late = false ∧
      (∀ k ∈ (s.replayOf 0).held, k.grp = 1 → k.mode = 2 → k.late = false → s.tick.toNat < k.tick + 1000000) ∧
      (s.replayOf o.ctx).held.find? o.is = some h ∧ s.owns o.info = true ∧
      (u.replayOf o.ctx).held.find? o.is = some { h with late := true } ∧ u.owns o.info = true) := by decide +kernel

/-- An input at the package's boundary. -/
def given (i : Input) (s : State) : State := { s with inputs := [i] }
/-- Function 0's window 0 is open on device memory at 0. -/
def windowed : State := s0.setReg 0x10000270008 1

theorem witness_HostAndRegisterAccesses :
    (given (.hostWrite 0 4 0x80 [7]) windowed).inputs = .hostWrite 0 4 0x80 [7] :: [] ∧
    ((s0.reg 0x10000270000).getLsbD 0 = true ∧ (s0.reg (0x10000270000 + 256 * 16)).getLsbD 0 = false) ∧
    s0.permitted 5 ((s0.reg 0x10000270000).toNat / 2 % 64) 6 .write (0x10000400000 + 0xFFFF8) 8 none = true ∧
    s0.permitted 5 ((s0.reg 0x10000270000).toNat / 2 % 64) 6 .write (0x10000400000 + 0x38) 8 none = true ∧
    s0.permitted 5 ((s0.reg 0x10000270000).toNat / 2 % 64) 6 .write (0x10000000000 + 0x50000) 8 none = true ∧ s0.plat.recovery = false ∧
    s0.permitted 5 0 6 .read (0x10000400000 + 0xFFFF8) 8 none = true ∧
    ((windowed.reg 0x10000270008).getLsbD 0 = true ∧ (s0.reg 0x10000270008).getLsbD 0 = false ∧
      ((windowed.reg 0x10000270008).extractLsb' 32 20).toNat * 2 ^ 32 + 0x80 % 2 ^ 32 = 0x80 ∧ windowed.tagging = false ∧
      windowed.sys.migs = [] ∧ windowed.sys.poison = [] ∧ windowed.permitted 0 0 6 .write 0x80 1 none = true ∧
      (∀ k < 8, windowed.permitted 0 0 6 .read (0x80 + k) 1 none = true)) ∧
    ((given (.reset 16) s0).inputs = [.reset 16] ∧ ((saving 0 1).reg 0x10000050000).getLsbD 0 = true) := by decide +kernel

def port0 (v : Word) : State := s0.setReg 0x10000260000 v

theorem witness_PortsSupplyTimeAndAttestation :
    ((s0.reg 0x10000260000).getLsbD 0 = true ∧ ((port0 0).reg 0x10000260000).getLsbD 0 = false) ∧
    ((((port0 5).reg 0x10000260000).extractLsb' 2 2).toNat < 2 ∧ ((s0.reg 0x10000260000).extractLsb' 2 2).toNat < 2) ∧
    (((port0 0x49).reg 0x10000260000).extractLsb' 2 2 = 2 ∧ (given (.laneLost 0 3) (port0 0x49)).inputs = [.laneLost 0 3] ∧
      ((s0.reg 0x10000260000).extractLsb' 2 2 ≠ 2)) ∧
    ((s0.reg 0x10000015000).getLsbD 0 = false ∧ ((s0.setReg 0x10000015000 1).reg 0x10000015000).getLsbD 0 = true) ∧
    ((s0.reg 0x10000272000).toNat % 16 < 3 ∧ 3 ≤ ((s0.setReg 0x10000272000 3).reg 0x10000272000).toNat % 16) ∧
    (s0.plat.attest = 0 ∧ 0 < { s0.plat with attest := 1 }.attest) ∧
    (([.droop 7, .recovered 7, .power 2600001, .token [], .ptp false .lost, .ptp false (.update 1 2 0x3FFFFFFF 4 65535), .trained 15 4 2, .portLost 0, .crcError 1] :
      List Input).all (fun i => decide ((given i s0).inputs = [i]))) := by decide +kernel

/-! ## The whole machine -/

/-- Group 0 waits for a free port, alone or beside another of the same age in a lower slot. -/
def idle (alone : Bool) : State :=
  let s := (s0With (fun x => { x with port := none })).setPort 0 false { slot := none, waiting := false, since := 0 }
  if alone then s else s.setGrp 2 { s.grp 0 with slot := 2, sched := { (s.grp 0).sched with since := 5 } }

theorem witness_RunChoice :
    ((idle true).issuing = true ∧ ((idle true).groups.map Prod.fst).Nodup ∧ ((idle true).port 0 false).slot = none ∧
      (0, (idle true).grp 0) ∈ (idle true).eligibles 0 ∧ ∀ e ∈ (idle true).eligibles 0, e.1 = 0) ∧
    ((0, (idle false).grp 0) ∈ (idle false).eligibles 0 ∧ (2, (idle false).grp 2) ∈ (idle false).eligibles 0 ∧
      (idle false).effPrio 2 = (idle false).effPrio 0 ∧ ((idle false).grp 0).sched.since.toNat < ((idle false).grp 2).sched.since.toNat) ∧
    (s0.eligibles 0 = [] ∧ s0.issuing = true ∧ (frozen none).issuing = false) := by decide +kernel

theorem witness_ChecksBeforeEffects :
    (let bad : Instr := .iadd un ⟨.s32, false⟩ (.v 4) (.v 2) (.v 3)
     (bad.form).isSome = true ∧ s0.issuer = some 0 ∧ (s0.grp 0).dueDefs = [] ∧ (bad.check (s0.env 0)).isSome = true) ∧
    (let s := s0With (fun x => { x with defs := [⟨3, 0x15, 1, 0, 9, false⟩] })
     let i : Instr := .halt un
     i.form ≠ none ∧ i.settlesBefore = true ∧ s.issuer = some 0 ∧ (s.grp 0).dueDefs ≠ []) ∧
    (let e := fun (a b : Bool) => { hd with feA := a, feB := b }
     let i := fun (a b : Bool) => Instr.iadd (e a b) ⟨.s32, false⟩ (.v 1) (.v 127) (.v 126)
     let s := s0With (fun x => { x with regs := x.regs.drain 127 9 })
     let t := s0With (fun x => { x with regs := x.regs.drain 126 9 })
     (i true true).check (s.env 0) = none ∧ (s.grp 0).isFull 127 = false ∧ (s.grp 0).isFull 126 = true ∧ (t.grp 0).isFull 127 = true ∧
      (t.grp 0).isFull 126 = false ∧ (s.grp 0).policy (i true true) = .trap (32 * 127) ∧ (t.grp 0).policy (i true true) = .trap (1 + 32 * 126) ∧
      (s.grp 0).policy (i false false) = .block [127] ∧ (s0.grp 0).policy (i true true) = .ok ∧ s.hasGrp 0 = true) ∧
    (let s := s0With (fun x => { x with sup := true, regs := { x.regs with p := [(1, 1)] } })
     (s.grp 0).uniGuard off1 = .differ ∧ standsAll s [.tick off1 (.s 4), .halt off1, .csrr off1 (.s 4) 2]) := by decide +kernel

def fetchesWord (s : State) : Bool :=
  match s.fetchReach (s.grp 0) with
  | (.ok pa _, _) => match s.iline 0 pa with
    | some l => decide (wordOfBytes ((l.data.drop (pa % 128)).take 8) = 0x1A9C400000000000 ∧ ((l.data.drop (pa % 128)).take 8).length = 8)
    | none => false
  | _ => false

theorem witness_StepRunsTheDecodedWord :
    (s0.agenda = [] ∧ s0.turn % 3 = 0 ∧ s0.focusGroup = some 0 ∧ (s0.grp 0).q.word = none ∧ (s0.grp 0).pendingTrap = none ∧
      s0.checkHeld (s0.grp 0) = false ∧ fetchesWord s0) ∧
    (decodeBytes (isControl 0) (bytesOfWord 0x1A9C400000000000) = .ok (.nop un)) ∧
    (match decodeBytes (isControl 0) (bytesOfWord 0xFF9C400000000000) with | .error _ => true | _ => false) = true ∧
    (let s := { s0 with agenda := [some .settledReport] }
     s.mayHappen .settledReport = true ∧ { s.dbg with stopped := true }.stopped = true ∧ s.pace = 1) ∧
    ({ s0 with dbg := { s0.dbg with stopped := true } } : State).mayHappen .settledReport = false := by decide +kernel

theorem witness_DecodeAndEncodeAgree :
    parse false 0x1A9C400000000000 = .ok (.nop un) ∧ WellFormed (.nop un) = true ∧ encode (.nop un) = some 0x1A9C400000000000 := by decide +kernel

theorem reset_inv : State.reset.Inv := by show Memory.wf State.reset.mem = true; decide +kernel

/-- A step from this state runs its `nop`, and memory holds bytes after it. -/
theorem witness_StepsKeepMemoryCanonical :
    Memory.wf s0.mem = true ∧ s0.mem ≠ [] ∧ (match step s0 with | .next t => decide ((t.grp 0).flow.pc = 1) | _ => false) = true := by
  decide +kernel

theorem witness_MemoryReadsWhatWasWritten :
    Memory.wf s0.mem = true ∧ ((s0.setByte 9 5).setByte 9 0).mem = s0.mem ∧ (s0.store 0x1000 8 0x1122334455667788).load 0x1000 4 = 0x55667788 := by
  decide +kernel

end Sys2Proof.Tests

namespace Sys2Proof.Tests
set_option Elab.async false
open Sys2Proof Sys2Proof.Machine Sys2Proof.Spec

/-! ## Further clauses of the statements above -/

/-- A wait that writes s61, in a group whose path has been switched away. -/
def switchedWait : State :=
  let i := { waitInfo with dst := .s 61 }
  s0With (fun x => { x with port := none, flow := { x.flow with stack := [pathEntry 9 2 0] },
                            sched := { x.sched with susp := .waitv i 0x100 .eq 0 none none none, switched := true } })

theorem witness_WaitsAfterASwitch :
    (let i := { waitInfo with dst := .s 61 }
     let r := switchedWait.oneAccess 0 (switchedWait.grp 0) i (waitKind i.seg) (mkAcc 0 0x100 .load 4 0 0)
     readZero r ∧ r.2.hasGrp 0 = true ∧ (r.2.grp 0).port.isSome = false ∧ (r.2.grp 0).sched.switched = true ∧
      (r.2.grp 0).flow.stack.getLast? = some (pathEntry 9 2 0)) ∧
    (s0.grp 0).port.isSome = true ∧ ((vwaiting 2 none).grp 0).sched.switched = false ∧
    s0.lsWaits 0 (s0.grp 0) = false ∧ standsAll fourLogs [.vwait un true (.s 4) (.s 10) .zero] ∧
    fourLogs.lsWaits 0 (fourLogs.grp 0) = true := by decide +kernel

/-- An empty path entry, below the lanes that `exit` takes. -/
def emptyPath : State := path0 (fun f => { f with stack := [pathEntry 9 0 0] })

theorem witness_ExitInvalidateAndTlbi :
    (standsAll emptyPath [.exit hd] ∧ (pathEntry 9 0 0) ∈ (emptyPath.grp 0).flow.stack ∧ (pathEntry 9 0 0).mask = 0) ∧
    (let s := regS 4 0x2000000000000000 s0
     standsAll s [.cinv un (.s 4) 0] ∧ (s.rd (s.grp 0) (.s 4) 0).extractLsb' 61 3 ≠ 0 ∧ s.hasGrp 0 = true ∧
      (s.grp 0).flow.mask.getLsbD 95 = true) ∧
    (let w := s0.translate 0 0 (vaOf 0x100) false
     (match w.1 with | .leaf e n => (match w.2.leafPa 0 e (vaOf 0x100) n with | .ok .. => true | _ => false) | _ => false) = true) ∧
    (let s := withTlbi (copyWords 0x05000000) (tlbi1 true [] 0)
     standsAll s [.cpy un (.s 4) (.s 10), .gthr hd ⟨0, false, false, .g, .group⟩ (.s 4) (.s 5) (.v 1) (.s 6), .pubv un (.s 4) (.s 5),
       .coll un (.s 10)] ∧ ∃ k ∈ s.sys.tlbis, k.grp = 0 ∧ k.team = (s.grp 0).team) := by decide +kernel

/-- A `miter` at work while no save of its context waits. -/
theorem witness_MiterGoesOn :
    let e := mxEntry (miterOp 0x10) true []
    mxHere e ∧ runEnds (mxState e) e false ∧ (mxState e).saving (((mxState e).team 0).ctx) = false := by decide +kernel

/-- Member 1 of a communicator is in another package and asks for another kind. -/
theorem witness_RemoteMember :
    let s := withColls [coll6 0 0 1 none] 3
    let c := coll6 0 0 1 none
    let r : Contribution := { member := 1, kind := 1, rop := 0, ty := 0, count := 1, data := [] }
    (s.collMembers c).any (fun m => decide (m.1 = r.member) && m.2.isNone) = true ∧ r.kind ≠ c.kind := by decide +kernel

def movingImage : State := (image1 1).setSys { (image1 1).sys with migs := [(0, ⟨0, 0x10000, 0x4000, false, false, []⟩)] }

theorem witness_QuireFurther :
    (s0.coresOf 63 = [] ∧ s0.coresOf 0 = [0] ∧ sup0.mayName 0 63 = true ∧ regOf (.s 4) = some 132) ∧
    (let x := movingImage.grp 0
     let ag : Agent := { info := localInfo movingImage 0 x true x.flow.mask 0 16 false .zero, core := x.core, slot := x.slot,
                         ctx := x.ctx, sup := x.sup }
     standsAll movingImage [.qload un (.s 4) (.s 5) none] ∧
      (match (movingImage.readImage ag 0x1000 0).1 with | .error none => true | _ => false) = true) ∧
    (let s := running (bound0 0)
     s.savesGroup (s.grp 0) = false) ∧
    (let s := (running (bound0 0x10000000020000000000000000000004)).setCtx 0 { s0.ctx 0 with cmd := 1 }
     s.savesGroup (s.grp 0) = true ∧ s.issuer = some 0) := by decide +kernel

/-- A peer package's page at 0x1000 for the hub, where a grid's completion goes. -/
def sentCompletion : Grid × State :=
  let k := { grid9 false [0, 12] [12, 0] with record := { record2 false with daddr := 0x1000 } }
  (k, ((withGrid k).setReg 0x10000080000 0x600).setSys { s0.sys with tlbs := [⟨0x408, 0, 0, 14, 0x1000000000011F⟩] })

theorem witness_CompletionAtAPeer :
    (match launched sentCompletion.2 sentCompletion.1 with | .sent _ => true | _ => false) = true ∧
    sentCompletion.2.teamsQuiet sentCompletion.1.teams = true := by decide +kernel

/-- The lock that die 1 sends to die 0, on its link. -/
def lockOnLink (slot n hold : Nat) : State :=
  let o := strong5 1 (some 0) (some (packet1 .lock n)) [1] false
  let p : Packet := { packet1 .lock n with slot := slot }
  let s := { withStrong 3 o with repl := { (withStrong 3 o).repl with links := [(1, 0, p)] } }
  repDie s 0 { s.rep 0 with hold := List.replicate hold (packet1 .update 7) }
def lockOf (slot n : Nat) : Packet := { packet1 .lock n with slot := slot }
def freeAt (s : State) : Bool := decide ((s.rep 0).accept = none) && s.lockFree 0 0x80

theorem witness_LocksOnLinks :
    (firstOnLink (lockOnLink 0 1 0) 1 0 (lockOf 0 1) ∧ freeAt (lockOnLink 0 1 0) ∧ nextHere (lockOnLink 0 1 0) 0 (lockOf 0 1)) ∧
    (firstOnLink (lockOnLink 0 2 0) 1 0 (lockOf 0 2) ∧ freeAt (lockOnLink 0 2 0) ∧ ¬ nextHere (lockOnLink 0 2 0) 0 (lockOf 0 2)) ∧
    (firstOnLink (lockOnLink 4 1 0) 1 0 (lockOf 4 1) ∧ (lockOf 4 1).slot ≠ ((lockOnLink 4 1 0).rep 0).expect) := by
  delta firstOnLink nextHere; decide +kernel

theorem witness_AcceptedLocksAndRole :
    (let s := repDie (lockOnLink 0 1 0) 0 { (lockOnLink 0 1 0).rep 0 with accept := some (packet1 .lock 1) }
     let s := { s with repl := { s.repl with links := [] } }
     s.onLink 0 21 .lock = false ∧ (s.rep 0).accept = some (packet1 .lock 1) ∧ (s.rep 0).hold = [] ∧ s.lockFree 0 0x80 = true ∧
      (s.setSys { s.sys with lexp := [(lineKey (s.repBase 0 + 0x80) 0, 9)] }).lockFree 0 0x80 = false) ∧
    (live0.repl.coll < 8 ∧ (live0.repl.coll + 8) % 8 ∈ live0.liveDies ∧ ∀ j < 8, 1 ≤ j → (live0.repl.coll + j) % 8 ∉ live0.liveDies) := by
  decide +kernel

theorem full_lock_hold : 4096 ≤ ((lockOnLink 4 1 4096).rep 0).hold.length := by
  show 4096 ≤ (List.replicate 4096 _).length
  rw [List.length_replicate]

theorem witness_PeersFurther :
    (s0.peer? 31 = none ∧ s0.pkgId = 0) ∧
    (let q := peerReq .load .queued 0 0
     let s := { withPeer 1 q with fab := { (withPeer 1 q).fab with lost := [(9, 0)] } }
     s.freeTag 0 = some 1 ∧ ∀ e ∈ s.fab.lost, e.2 ≠ 1) ∧
    (s0.quireHolds 1 2 = false ∧ s0.granted 1 = false) := by decide +kernel

/-- A strong store held at a granted sub-granule whose writer is die 1. -/
def granted : State :=
  let q := { heldReq with leaf := 0x297 }
  (withReq q).setSys { (withReq q).sys with own := [(0, { w := 1, mask := 0xFFFF })], recallNow := true }

theorem witness_HeldStores :
    (let q := heldReq
     let s := withReq q
     (∃ u, s.recallReq q = some u ∧ u.mustHold q = false) ∧ s.siblings q.info.tok 0 = [(q, ⟨{ mkAcc 0 0x1000 .store 4 0xAABBCCDD 0 with bmask := 0xF }, 0x1000⟩)]) ∧
    (let q := { heldReq with leaf := 0x297 }
     let t := granted.updGrp 0 (fun x => { x with q := { x.q with running := true, touched := [1] } })
     pteTrk q.leaf = true ∧ granted.req? 7 = some q ∧ (granted.recallReq q).isSome = true ∧ t.recallReq q = none ∧ t.mustHold q = false) ∧
    (let q := { heldReq with leaf := 0x297, info := { heldReq.info with ord := .strong, scope := .system } }
     let s := granted.setSys { granted.sys with reqs := [q], lexp := [(lineKey 0x1000 1, 9)] }
     s.mustHold q = false ∧ (match s.recallReq q with | some u => u.mustHold q | none => false) = true) := by decide +kernel

theorem witness_CountersFurther :
    (let a := counterAddr 7 3
     let s := s0.setReg a 0x4FFFFFFFFFFFF
     Tab.find? a s.dbg.reprog = none ∧ (s.reg a).getLsbD 50 = true ∧ s.progOf a = none ∧
      ({ s with dbg := { s.dbg with reprog := [(a, 5 + 2 ^ 64)] } } : State).progOf a = some (5 + 2 ^ 64)) ∧
    (let far : State := { s0 with plat := { s0.plat with ptpAt := some 0 } }
     let near := (s0.reg 0x10000015008, s0.reg 0x10000015010, s0.reg 0x10000015018, s0.reg 0x10000015020)
     s0.ptpOk 9 9 9 9 = true ∧ far.ptpOk near.1 near.2.1 near.2.2.1 near.2.2.2 = true ∧ far.ptpOk 1000000 0 0 0 = false) := by
  decide +kernel

theorem witness_SettleBeforeARefusedWord :
    (let s := s0With (fun x => { x with defs := [⟨3, 0x15, 1, 0, 9, false⟩] })
     (s.grp 0).settleAfter = false ∧ (s.grp 0).dueDefs.isEmpty = false ∧ opcodeSettles false 0x1A5C400000000001 = true ∧
      (match decodeBytes false (bytesOfWord 0x1A5C400000000001) with | .error _ => true | _ => false) = true) ∧
    (s0.grp 0).settleAfter = false ∧ opcodeSettles false 0xFF9C400000000000 = false := by decide +kernel

/-- The word at 0x100, in memory of die 0, that an `mbar` of group 0 reaches. -/
def mbarState : State :=
  (regS 3 0x100 s0).setSys { s0.sys with tlbs := [{ unit := 0, ctx := 0, vpage := 0, logSize := 14, leaf := 0x9F }] }

theorem witness_BarrierWordsComplete :
    (standsAll s0 [.bar un 15 .zero, .cbar un] ∧ s0.hasGrp 0 = true ∧ (Tab.find? (s0.grp 0).team s0.teams).isSome = true ∧
      (s0.grp 0).uniGuard un = .run) ∧
    (let s := mbarState
     let x := s.grp 0
     standsAll s [.mbar un .die (.s 3) (.s 4)] ∧ s.rd x (.s 3) 0 = 0x100 ∧ eaBad (0x100 : Word) = false ∧ s.lsWaits 0 x = false ∧
      s.lsDone 0 x.team x.mem.seq .die false = true ∧ s.sys.migs = [] ∧ s.sys.own = [] ∧ s.sys.reqs = [] ∧ s.repl.strongs = [] ∧
      (s.team x.team).rrMode = 0 ∧
      (match s.translate 0 0 (vaOf 0x100) true with
       | (.leaf e n, w) => (match w.resolve 0 0 x.sup (vaOf 0x100) .atomic mbarKind (.leaf e n) with
         | .ok pa leaf => decide (placeOf s.tagging pa = .hbm 0 0x100) && (w.refuses 0 0 leaf pa (mbarAcc 0x100 0)).isNone
         | _ => false)
       | _ => false) = true ∧
      (mbarStep 0 1).2 = true ∧ (mbarStep 0 2).2 = false) ∧
    (0 ∈ (atBarrier 7).mbarAt 2 ∨ 0 ∈ (atBarrier 7).mbarAt 0) ∧ (atBarrier 7).hasGrp 0 = true ∧ (atBarrier 7).mbarGen 0 ≠ 7 ∧
    (atBarrier (s0.mbarGen 0)).hub.mbarGone = [] ∧
    (let s := atBarrier (s0.mbarGen 0)
     0 ∈ (s.setHub { s.hub with mbarGone := [0] }).hub.mbarGone) := by decide +kernel

end Sys2Proof.Tests

namespace Sys2Proof.Tests
set_option Elab.async false
open Sys2Proof Sys2Proof.Machine Sys2Proof.Spec

/-! ## Clauses over several lanes, several members and micro-operations -/

def regV (n : Nat) (v : Nat → BitVec 32) (s : State) : State := s.updGrp 0 (fun x => { x with regs := { x.regs with
  v := Tab.set [] n ((List.range 96).map (fun l => (l, v l))) x.regs.v } })
/-- A cluster of two teams. -/
def pairCluster (s : State) : State :=
  (s.setTeam 1 { s.team 0 with member := 1, members := [] }).setCluster 0 { s.cluster 0 with teams := [0, 1] }
/-- Lanes with places of their own in local memory, of 8 bytes each. -/
def lanes8 : State := pairCluster (regV 2 (fun l => BitVec.ofNat 32 (8 * l)) (regS 4 0x100 s0))
def locFits (s : State) (u n : Nat) (ea : Nat → Word) (ls : List Nat) : Bool :=
  ls.all (fun l => decide ((ea l).toNat % n = 0 ∧ (ea l).toNat + n ≤ ((s.team u).localSize + 4095) / 4096 * 4096))

theorem witness_LocalMemoryFurther :
    let s := lanes8
    let x := s.grp 0
    (standsAll s [.stlIndexed hd ⟨.u64, none, false⟩ (.s 4) (.v 2) (.v 6), .stlIndexed hd ⟨.u64, some 1, false⟩ (.s 4) (.v 2) (.v 6),
      .ldlIndexed hd ⟨.u64, none, false⟩ (.v 6) (.s 4) (.v 2), .ldlIndexed hd ⟨.s8, some 1, false⟩ (.v 1) (.s 4) (.v 2),
      .stl un ⟨.u64, some 1, false⟩ (.s 6) (.s 4) 0xF00, .ldl un ⟨.b128, some 1, false⟩ (.s 6) (.s 4) 0, .ldl un ⟨.s16, none, false⟩ (.s 6) (.s 4) 0]) ∧
    s.hasGrp 0 = true ∧ (Tab.find? 1 s.teams).isSome = true ∧ ((s.cluster (s.team x.team).cluster).teams)[1]? = some 1 ∧
    x.uniGuard un = .run ∧ x.execMask hd ≠ 0 ∧ s.lsWaits 0 x = false ∧ (s.team x.team).rrMode = 0 ∧
    locFits s 1 8 (fun l => s.rd x (.s 4) l + indexOf s x (.v 2) false l) (lanesOf (x.execMask hd)) ∧
    locFits s 1 16 (fun l => s.rd x (.s 4) l + 0) [0] := by decide +kernel

end Sys2Proof.Tests

namespace Sys2Proof.Tests
set_option Elab.async false
open Sys2Proof Sys2Proof.Machine Sys2Proof.Spec

/-- The code of a micro-operation (R316). -/
def uop (op mod d s1 s2 s3 : Nat) (i : Bool) (imm : Nat) : BitVec 128 :=
  BitVec.ofNat 128 (op * 2 ^ 122 + mod * 2 ^ 114 + d * 2 ^ 108 + s1 * 2 ^ 102 + s2 * 2 ^ 96 + s3 * 2 ^ 90 + (if i then 2 ^ 89 else 0) + imm)
/-- An invocation at work on one micro-operation, with every bit of its mask and some temporaries, on lanes 3 and 95. -/
def micro (op : BitVec 128) : State := (running (bound0 op)).updGrp 0 (fun x => { x with q := { x.q with
  mask := 0xFF, lanes := 0x800000000000000000000008, qt := [(1, [(3, 0x40490FDB), (95, 0x80000001)]), (2, [(3, 7), (95, 0x3F800000)])],
  qq := [(0, 0x123456789ABCDEF0), (1, 0x10)], lc := 2 } })
def microOk (s : State) : Bool :=
  decide (s.issuer = some 0) && s.hasGrp 0 && (s.grp 0).q.running && decide ((s.grp 0).q.upc < (s.grp 0).q.blen) &&
    decide ((s.grp 0).q.count ≠ 512) && decide (s.partOf 0 0 = some 0) && !s.savesGroup (s.grp 0) && !s.lsWaits 0 (s.grp 0) &&
    decide ((s.team 0).rrMode = 0)

theorem witness_MicroOperations :
    ([uop 4 0 3 1 2 0 false 0, uop 0x16 1 8 8 0 9 false 0, uop 0x17 0 3 1 2 0 true 0x800, uop 1 4 3 0 0 0 false 0, uop 1 1 8 0 0 0 false 0,
      uop 1 2 9 0 0 0 false 0, uop 2 0 0 1 0 0 false 0, uop 0x1A 2 0 1 0 0 false (5 * 2 ^ 64), uop 0x1B 1 0 0 0 0 true 9,
      uop 0x1B 0 0 0 0 0 false (3 * 2 ^ 64)].all (fun u => microOk (micro u))) ∧
    (let s := micro (uop 0x0F 0 3 1 2 0 false 0)
     let t := s.updGrp 0 (fun x => { x with q := { x.q with mask := 0xDF } })
     microOk s ∧ microOk t ∧ UOp.needs (uop 0x0F 0 3 1 2 0 false 0) = some 5 ∧ (t.grp 0).q.mask.getLsbD 5 = false) ∧
    (let u := uop 0x18 4 3 9 0 0 false 0x40
     microOk (micro u) ∧ uGlb (UOp.mod u) = false ∧ uRem (UOp.mod u) = false ∧ locFits (micro u) 0 4 (fun _ => 0x50) [3, 95]) ∧
    (let u := uop 0x19 0x16 0 9 8 0 false (2 ^ 60 + 0x40)
     let s := pairCluster (micro u)
     microOk s ∧ uRem (UOp.mod u) = true ∧ ((s.cluster (s.team 0).cluster).teams)[1]? = some 1 ∧ (Tab.find? 1 s.teams).isSome = true ∧
      locFits s 1 8 (fun _ => 0x50) [3]) ∧
    (let s := (micro (uop 4 0 3 1 2 0 false 0)).updGrp 0 (fun x => { x with q := { x.q with count := 512 } })
     (s.grp 0).q.count = 512 ∧ s.savesGroup (s.grp 0) = false) := by decide +kernel

/-- A global access of an invocation, with what its statement asks of it. -/
def microAccess (u : BitVec 128) : Bool :=
  let s := (micro u).setSys { s0.sys with tlbs := [{ unit := 0, ctx := 0, vpage := 0, logSize := 14, leaf := 0x9F }] }
  let x := s.grp 0
  let r := s.sortLanes x (UOp.spec u) (UOp.accs u x.q)
  let v := r.2
  match r.1.send with
  | [(acc, leaf)] =>
    microOk s && decide (r.1 = { send := [(acc, leaf)], park := [], faults := [], fails := [] }) && decide (UOp.accs u x.q = [acc.acc]) &&
      decide (v.groups = s.groups) && decide (v.sys.reqs = []) && decide (v.repl.strongs = []) && decide (v.sys.migs = []) &&
      decide (pteKind leaf ≠ 3) && !pteTrk leaf && decide (placeOf v.tagging acc.pa = .hbm 0 acc.pa) &&
      v.permitted 0 0 0 acc.acc.op.opClass acc.pa acc.acc.size none && v.tagsFit leaf acc.acc.va acc.pa acc.acc.size &&
      !Tab.get false (lineKey acc.pa 0) v.sys.poison && (v.l1Serves x 0 (UOp.spec u) leaf acc).isNone &&
      (v.counterKept (0, 0) acc.pa).isNone
  | _ => false

theorem witness_MicroAccesses :
    microAccess (uop 0x18 0x4C 8 9 0 0 false 0x40) ∧ microAccess (uop 0x19 0x4E 0 9 8 0 false 0x40) := by decide +kernel
theorem no_watchpoints : (List.range 8).all (fun w => !(s0.reg (0x10000250100 + 0x20 * w)).getLsbD 0) := by decide +kernel

end Sys2Proof.Tests

namespace Sys2Proof.Tests
set_option Elab.async false
open Sys2Proof Sys2Proof.Machine Sys2Proof.Spec

/-- One collective of this package: at 0x20 into 0x100, on a page that its group may write. -/
def coll1 (kind ty count : Nat) : CollOp := { coll6 0 0 count none with kind := kind, ty := ty, src := 0x20, dst := 0x100 }
def collState (c : CollOp) (dies : Word) : State :=
  let s := withColls [c] dies
  (s.setSys { s.sys with tlbs := [{ unit := 0, ctx := 0, vpage := 0, logSize := 14, leaf := 0x9F }] }).store 0x20 8 0x0000000540A00000
def collGives (own : List Byte) (remote : List Contribution) (k : Nat) : List Byte :=
  if k = 0 then own else match remote.find? (fun r => decide (r.member = k)) with | some r => r.data | none => []
/-- The premises of a collective's completion, with the state that its writes leave. -/
def collDone (c : CollOp) (dies : Word) (order : List Nat) (remote : List Contribution) : Option State :=
  let s := collState c dies
  let ms := s.collMembers c
  let len := (if c.kind = 1 then ms.length * c.count else c.count) * c.es
  match State.spanRead c.agent collKind len s c.src len [] with
  | (.done own, u) =>
    let all := collReceives c ms.length 0 order (collGives own remote)
    if decide (s.fab.colls.find? (fun k => decide (k.id = c.id)) = some c) && decide (ms.filterMap Prod.snd = [c]) && decide ((0, some c) ∈ ms) &&
        ms.all (fun k => k.2.isSome || remote.any (fun r => decide (r.member = k.1))) && remote.all (fun r => decide (r.data.length = len)) &&
        decide (u.fab.colls = s.fab.colls) && decide (0 < len) then
      collLines c (all.length + 1) (u.putColl { c with result := some all }) c.dst all
    else none
  | _ => none

theorem witness_CollectiveWrites :
    (collDone (coll1 0 0 1) 1 [] []).isSome ∧
    (collDone (coll1 2 0 1) 3 [] [⟨1, 2, 0, 0, 1, [1, 2, 3, 4]⟩]).isSome ∧
    (let s := collState (coll1 0 0 1) 1
     let r := s.reach { (coll1 0 0 1).agent with info := { (coll1 0 0 1).agent.info with tick := s.tick.toNat } } .write collKind 0x100
     (match r.1 with | .ok pa leaf => decide (pa = 0x100 ∧ pteKind leaf ≠ 3 ∧ pteKind leaf ≠ 4) && !pteTrk leaf && !pteTag leaf | _ => false) = true ∧
      r.2.sys.migs = [] ∧ placeOf r.2.tagging 0x103 = .hbm 0 0x103 ∧
      r.2.permitted 0 0 ((coll1 0 0 1).agent.info.path.code) .write 0x100 4 none = true) := by decide +kernel

end Sys2Proof.Tests

namespace Sys2Proof.Tests
set_option Elab.async false
open Sys2Proof Sys2Proof.Machine Sys2Proof.Spec

def leaf9F (s : State) : State := s.setSys { s.sys with tlbs := [{ unit := 0, ctx := 0, vpage := 0, logSize := 14, leaf := 0x9F }] }
def drainOp (loc tloc : Bool) (rm : RMode) (b : Option Word) (d0 d1 : Word) : MxOp := .mdrain 64 64 0 loc tloc rm false false 0x80 b d0 d1

theorem witness_MatrixFirstSteps :
    (let e := mxEntry (.wbload false 0x60 64 100) false []
     let s := mxState e
     mxHere e ∧ e.started = false ∧ e.todo = [] ∧
      (match s.agentRead (s.mxAgent 0 e) wbloadKind 0x60 32 with
       | (.done b, u) => decide (b.length = 32 ∧ u.team 0 = s.team 0) && (Tab.find? 0 u.teams).isSome
       | _ => false) = true) ∧
    (let e := mxEntry (drainOp true true .rne none 0x1000000000 0) false []
     mxHere e ∧ (drainMain true .rne 0x80 0x1000000000 0).fmtOk = true) ∧
    (let e := mxEntry (drainOp false true .rne (some 0x8000) 0x1000001000000000 0) false []
     mxHere e ∧ (drainMain false .rne 0x80 0x1000001000000000 0).fmtOk = true ∧ (drainTrans true 0x8000 0x1000001000000000 0).fmtOk = true ∧
      (let s := leaf9F (mxState e)
       let u := (s.agentWrite (s.mxAgent 0 e) mdrainKind 0x80 (List.replicate 128 0))
       (match u.1 with | .done [] => true | _ => false) = true ∧ u.2.team 0 = s.team 0 ∧ (Tab.find? 0 u.2.teams).isSome)) := by decide +kernel

def iterating (phase : Nat) : MxEntry := { mxEntry (miterOp 0x10) true [] with run := { phase := phase, iter := 0, rise := false, lastr := none } }

theorem witness_MiterPhases :
    (∀ p ∈ [0, 1, 2], mxHere (iterating p)) ∧ (iterating 1).op = .miter 64 0 1 0 false true [1, 2] 0x10 0 ∧
    0 + 64 / 64 * (64 / 64) ≤ 1 ∧ (mxState (iterating 0)).freezeDue = false ∧
    (mxState (iterating 0)).mxNext 0 = some 0 ∧ (mxState (iterating 0)).saving ((mxState (iterating 0)).team 0).ctx = false := by decide +kernel

end Sys2Proof.Tests

namespace Sys2Proof.Tests
set_option Elab.async false
open Sys2Proof Sys2Proof.Machine Sys2Proof.Spec

def ports (l : List Nat) (s : State) : State := l.foldl (fun s p => s.setReg (0x10000260000 + 0x40 * p) 0x49) s
def upB (s : State) (p : Nat) : Bool := decide ((s.reg (0x10000260000 + 0x40 * p)).extractLsb' 2 2 = 2#2)
def nearestB (s : State) (d p : Nat) : Bool :=
  let far := fun (r : Nat) => (r / 2 - d) + (d - r / 2)
  decide (p < 16) && upB s p && (List.range 16).all (fun r => !upB s r || decide (far p ≤ far r))

theorem witness_PortsOfRequests :
    (let q := peerReq .load .queued 0 0
     sends (withPeer 1 q) q ∧ (∀ p < 16, upB (withPeer 1 q) p = false) ∧
      sends (ports [15, 3] (withPeer 1 q)) q ∧ (ports [15, 3] (withPeer 1 q)).peerGranted q = true ∧ upB (ports [15, 3] (withPeer 1 q)) 3 ∧
      nearestB (ports [15, 3] (withPeer 1 q)) 0 3 ∧ nearestB (ports [15, 3] (withPeer 1 q)) 0 15 = false) ∧
    (let q := peerReq .load .sent 1 0
     q.die < 8 ∧ upB (ports [0] (withPeer 20001 q)) 0 ∧ q.first + 20000 * (q.sends + 1) ≤ (ports [0] (withPeer 20001 q)).tick.toNat) := by
  decide +kernel

theorem witness_VersionsInTurn :
    let f := flit5 true true [] [1, 0, 0, 0, 0, 0, 0, 0]
    Tab.get 0 f.ch (withFlit f 1).fab.subs = f.seq ∧ Tab.get 0 f.ch (withFlit f 0).fab.subs ≠ f.seq ∧
      Tab.get 0 f.ch { (withFlit f 0).fab with subs := [] }.subs ≠ f.seq := by decide +kernel

/-- A parked fetch under a replay-all, with its page mapped or not. -/
def refetching (mapped : Bool) : State :=
  let s := s0.updGrp 0 (fun x => { x with sched := { x.sched with fetch := some 3 } })
  let s := if mapped then s else s.setSys { s.sys with tlbs := [] }
  s.setFaultBuf 0 0 { s.faultBuf 0 0 with busy := true, since := 4 }
/-- A parked matrix word that a replay-all drives again. -/
def redriving : State :=
  let e := { mxEntry (.wbload false 0 0 64) false [.fetch 0x40 0 64] with parked := some 3 }
  let s := mxState e
  s.setFaultBuf 0 0 { s.faultBuf 0 0 with busy := true, since := 4 }

theorem witness_ReplaysDriveAgain :
    (refetching true).hub.launches = [] ∧ (refetching true).fab.pubs = [] ∧ (refetching true).fab.colls = [] ∧
    (match ((refetching true).fetchReach ((refetching true).grp 0)).1 with | .park _ => false | _ => true) = true ∧
    (match ((refetching false).fetchReach ((refetching false).grp 0)).1 with | .park _ => true | _ => false) = true ∧
    ((refetching false).faultBuf 0 0).busy = true ∧
    (match exec (.fbcmdReplayAll 0 0) redriving with
     | .next t => (t.team 0).mx.any (fun m => m.redrive && !m.stopped)
     | _ => false) = true := by decide +kernel

theorem witness_SlicesWrittenInTheirTick :
    (let s := sliced 1 0
     0x10000012050 ∉ s.dbg.sw ∧ 0x10000012058 ∉ s.dbg.sw) ∧
    (let s := sliced 1 7
     s.dueSlice = some (5, true) ∧ s.reg 0x10000012058 &&& 0x8000000000000000 = 0) ∧
    (let s := { sliced 1 0 with dbg := { (sliced 1 0).dbg with sw := [0x10000012058] } }
     s.dueSlice = some (5, false) ∧ 0x10000012050 + 8 ∈ s.dbg.sw) ∧
    (let s := (saving 0 1).updGrp 0 (fun x => { x with q := { x.q with running := true } })
     (s.grp 0).q.running = true ∧ s.ctxState 0 ≠ 3) ∧
    ((saving 1 1).hub.mbarGone = [] ∧ (saving 1 1).sys.migs = [] ∧ restoring.sys.migs = []) := by decide +kernel

def stopAt9 (sw : List Nat) : State :=
  { (s0.setReg 0x10000250030 1).setReg 0x10000250028 9 with tick := 9, dbg := { s0.dbg with sw := sw } }

theorem witness_StopsAndGates :
    ((0x10000250028 ∉ (stopAt9 []).dbg.sw ∧ 0x10000250030 ∉ (stopAt9 []).dbg.sw) ∧ 0x10000250028 ∈ (stopAt9 [0x10000250028]).dbg.sw) ∧
    (let h : HeldOp := { mode := 2, grp := 0, unit := 3, id := 5, tick := 0, addr := 64, late := false, used := true }
     let s := s0.setReplay 0 { s0.replayOf 0 with held := [h] }
     let o : LogOp := { info := localInfo s0 0 (s0.grp 0) true 0 0 8 false .zero, ctx := 0, unit := 3, id := 5, addr := 64 }
     (s.replayOf o.ctx).held.find? o.is = some h ∧ s.owns o.info = true ∧ h.used = true) ∧
    s0.sys.migs = [] := by decide +kernel

theorem witness_CertificateAndTraining :
    (given (.hostRead 0 0 0x4FF8 8) s0).inputs = .hostRead 0 0 0x4FF8 8 :: [] ∧
    s0.permitted 5 ((s0.reg 0x10000270000).toNat / 2 % 64) 6 .read (0x10000400000 + 0x4FF8) 8 none = true ∧
    s0.permitted 5 ((s0.reg 0x10000270000).toNat / 2 % 64) 6 .read (0x10000400000 + 0x4000) 0x1000 none = true ∧
    (let s := given (.trained 0 0xF 1) (port0 0x205)
     (s.reg 0x10000260000).getLsbD 0 = true ∧ ((s.reg 0x10000260000).extractLsb' 2 2).toNat < 2 ∧ (s.reg 0x10000260000).extractLsb' 9 4 = 1) ∧
    (let s := given (.ptp true .lost) (s0.setReg 0x10000015000 1)
     true ≠ s.plat.ptpSel ∧ (s.reg 0x10000015000).getLsbD 0 = true) := by decide +kernel

/-- A word that waits for its first operand, over one path. -/
def blocking (age : BitVec 16) : State :=
  let s := path0 (fun f => { f with run := 2, stack := [pathEntry 9 2 age] })
  s.updGrp 0 (fun x => { x with regs := x.regs.drain 127 9 })

def blockedB (age : BitVec 16) : Bool :=
  let i : Instr := .iadd hd ⟨.s32, false⟩ (.v 1) (.v 127) (.v 126)
  let s := blocking age
  decide (s.issuer = some 0) && decide ((s.grp 0).dueDefs = []) && decide (i.check (s.env 0) = none) && decide ((s.grp 0).policy i = .block [127])
def dueB (age : BitVec 16) : Bool := decide (((blocking age).ctxRegs 0 0).ageLimit.toNat ≤ (aged (pathEntry 9 2 age)).age.toNat)

theorem witness_BlockedWords : blockedB 0 ∧ blockedB 0xFFFF ∧ dueB 0 = false ∧ dueB 0xFFFF := by decide +kernel

theorem witness_SetsAndClears :
    standsAll sup0 [.csrs un (.s 4) (.s 5) 0x005, .csrc un (.s 4) (.s 5) 0x017, .csrs un .zero (.s 5) 0x040, .csrc un (.s 4) (.s 5) 0x04F,
      .csrw un (.s 4) (.s 5) 0x001, .csrw un .zero (.s 5) 0x001, .csrs un (.s 4) (.s 5) 0x001] ∧
    sup0.csrWaits 0 (sup0.grp 0) 1 = false ∧ sup0.csrWaits 0 (sup0.grp 0) 0x04F = false ∧ regOf (.s 4) = some 132 ∧ regOf .zero = none ∧
    (strong5 0 none none [] false).info.rr.1 = 0 ∧ (oneReq (.atomic .add .u32 true)).info.rr.1 = 0 ∧ (oneReq .store).info.rr.1 = 0 := by
  decide +kernel

end Sys2Proof.Tests

namespace Sys2Proof.Tests
set_option Elab.async false
open Sys2Proof Sys2Proof.Machine

/-! ## Well-formedness: one ill-formed term for each check of R78, with the code that it reports -/

def refusedWith (e : Env) (l : List (Instr × DTrap)) : Bool := l.all (fun p => decide (p.1.check e = some p.2))

/-- A function value that is not assigned (2), reserved bits and UNI (3), classes (4), UNI with a vector operand (6), a long write to
s61 to s63 (7), tiles that overlap (8). -/
theorem test_fields_refused : refusedWith Env.max
    [(.fadd hd { rm0 with rm := .sr } (.v 1) (.v 2) (.v 3), .illegalOp 2), (.fencex un .team 0 2, .illegalOp 2),
     (.csrr un (.s 4) 0x7FF, .illegalOp 2), (.fadd hd { rm0 with mc := ⟨true, false⟩ } (.v 1) (.v 2) (.v 3), .illegalOp 3),
     (.nop hd, .illegalOp 3), (.jmark off1 5, .illegalOp 3), (.nop { un with feA := true }, .illegalOp 3),
     (.iadd hd ⟨.u64, false⟩ (.v 1) (.v 2) (.v 3), .illegalOp 4), (.icmp hd ⟨.s32, .ltu⟩ (.p 7) (.v 2) (.v 3), .illegalOp 4),
     (.iadd un ⟨.s32, false⟩ (.v 1) (.v 2) (.v 3), .illegalOp 6), (.frcp un ⟨.rne, false, ⟨false, false⟩⟩ (.s 61) (.s 4), .illegalOp 7),
     (.miter hd { m128 := true, ns5 := false, f16 := false } (.a 0) (.a 3) (.s 15), .illegalOp 8)] := by decide +kernel

/-- What depends on the group: a matrix word on a control core (1), a register outside the allocation (5), privilege, `rte` outside a
trap (9), an opcode without a binding. -/
theorem test_groups_refused :
    refusedWith { Env.max with control := true } [(.miter hd { m128 := false, ns5 := false, f16 := false } (.a 0) (.a 1) (.s 15), .illegalOp 1)] ∧
    refusedWith { Env.max with vregs := 32 } [(.iadd hd ⟨.s32, false⟩ (.v 32) (.v 2) (.v 3), .illegalOp 5)] ∧
    refusedWith { Env.max with sup := false } [(.halt un, .priv 0), (.csrr un (.s 4) 0x010, .priv 1)] ∧
    refusedWith { Env.max with trapActive := false } [(.rte un, .illegalOp 9)] ∧
    refusedWith { Env.max with bound := 0 } [(.boundOpcode hd 3 (.v 1) (.v 2) (.s 4) (.s 5) 0, .quireUnbound 3)] ∧
    refusedWith Env.max [(.unassignedOpcode 0, .illegalOp 1)] := by decide +kernel

def slot (o : SlotOp) : Slot := { gd := .always, fe := false, op := o }

/-- The pairing rules of R76: banks of sources (2) and of destinations (3), two special functions (4), `bra` in slot A (5), one
destination (6), a scalar result of a vector source (7). -/
theorem test_pairs_refused : refusedWith Env.max
    [(.pairedWord false { slot (.bra 1) with fe := true } (slot (.mov (.v 1) (.v 2))), .illegalOp 3),
     (.pairedWord false (slot (.mov (.s 61) (.s 2))) (slot (.frcp (.s 61) (.s 2))), .illegalOp 7),
     (.pairedWord false (slot (.bin .iadd (.v 0) (.v 1))) (slot (.bin .iadd (.v 3) (.v 4))), .illegalPair 2 false),
     (.pairedWord false (slot (.mov (.v 0) (.v 1))) (slot (.mov (.v 4) (.v 2))), .illegalPair 3 false),
     (.pairedWord false (slot (.frcp (.v 0) (.v 1))) (slot (.fexp2 (.v 1) (.v 2))), .illegalPair 4 false),
     (.pairedWord false (slot (.bra 1)) (slot (.mov (.v 1) (.v 2))), .illegalPair 5 false),
     (.pairedWord false (slot (.mov (.s 1) (.s 2))) (slot (.mov (.s 1) (.s 3))), .illegalPair 6 false),
     (.pairedWord false (slot (.mov (.s 1) (.v 2))) (slot (.mov (.s 2) (.s 3))), .illegalPair 7 false),
     (.pairedWord false (slot (.mov (.s 2) (.s 3))) (slot (.mov (.s 1) (.v 2))), .illegalPair 7 true)] := by decide +kernel

/-! ## Decoding: words written from the encoding tables (R65 to R80, and the examples printed in the specification) -/

def reads (w : Word) (i : Instr) : Bool := decide (parse false w = .ok i)

/-- A word of variant F3 or FX by its fields (R68, R69): opcode, UNI, dst, a, b, c, FN14; the guard is p7. -/
def f3 (opc uni d a b c fn : Nat) : Word :=
  BitVec.ofNat 64 (opc * 2 ^ 54 + 7 * 2 ^ 50 + uni * 2 ^ 46 + d * 2 ^ 38 + a * 2 ^ 30 + b * 2 ^ 22 + c * 2 ^ 14 + fn)

/-- Integer words: the printed word of R109, and words from the tables of R80 and R107. -/
theorem test_decode_integer :
    reads 0x039C22A121BFC092 (.iaddc hd ⟨true, some 1⟩ (.s 10) (.s 4) (.s 6) .zero) ∧
    reads (f3 0x10 0 1 2 3 0 9) (.shl hd ⟨.s32, true⟩ (.v 1) (.v 2) (.v 3)) ∧ reads (f3 0x18 0 1 2 3 0 0) (.and hd .u32 (.v 1) (.v 2) (.v 3)) ∧
    reads (f3 0x24 0 1 2 3 0xC1 0) (.sel hd (.v 1) (.v 2) (.v 3) (.p 1)) ∧ reads (f3 0x2A 0 1 2 0 0 0) (.ctz hd .u32 (.v 1) (.v 2)) ∧
    reads (f3 0x2D 0 1 2 3 4 0) (.bfi hd .u32 (.v 1) (.v 2) (.v 3) (.v 4)) ∧
    reads (f3 0x32 0 0xC2 0xC0 0xC1 0 2) (.pxor hd ⟨false, true⟩ (.p 2) (.p 0) (.p 1)) ∧
    reads (f3 0x38 0 1 2 3 0 1) (.shfl hd .up (.v 1) (.v 2) (.v 3)) := by decide +kernel

/-- Floating-point words: the printed words of R142 and R153, and `frcp` with a negated source. -/
theorem test_decode_float :
    reads 0x10DC01004080C200 (.ffma hd { rm0 with mb := ⟨false, true⟩ } (.v 4) (.v 1) (.v 2) (.v 3)) ∧
    reads 0x161C01404140106C (.cvt hd ⟨0x2C, true, .rne, false, 2⟩ (.v 5) (.v 1) (.v 5)) ∧
    reads (f3 0x50 0 1 2 0 0 0x80) (.frcp hd ⟨.rne, false, ⟨false, true⟩⟩ (.v 1) (.v 2)) := by decide +kernel

/-- The printed words of R71. -/
theorem test_decode_branch :
    reads 0x182800003FFFFFFB (.bra { hd with gn := true, gp := 2 } 0x3FFFFFFB) ∧
    reads 0x182840003FFFFFFB (.brau { un with gn := true, gp := 2 } 0x3FFFFFFB) ∧ reads 0x1B9C402223C00004 (.mbar un .package (.s 8) (.s 15)) := by
  decide +kernel

/-- The printed words of R258, R263 and the programs, engines, vectors, collectives. -/
theorem test_decode_accesses :
    reads 0x221C6120CC800000 (.ldu un ⟨.g, .u64, 0⟩ (.s 4) (.s 3) 0) ∧
    reads 0x205C006100000022 (.ldIndexed hd ⟨.g, .u32, .weak, .group, false⟩ (.v 1) (.s 4) (.v 0)) ∧
    reads 0x20DC002100004022 (.stIndexed hd ⟨.g, .u32, .weak, .group, false⟩ (.s 4) (.v 0) (.v 1)) ∧
    reads 0x205C02210000003C (.ldIndexed hd ⟨.peer, .b128, .weak, .group, false⟩ (.v 8) (.s 4) (.v 0)) ∧
    reads 0x21DC003FC0020007 (.stlIndexed hd ⟨.b128, none, false⟩ .zero (.v 0) (.v 8)) ∧
    reads 0x225C62A101C00000 (.atom un ⟨.exch, .u32, .g⟩ (.s 10) (.s 4) 0) ∧ reads (f3 0xA0 1 0xFF 0x8A 0 0 0) (.cpy un .zero (.s 10)) ∧
    reads 0x2C1C632222800001 (.vwait un true (.s 12) (.s 8) (.s 10)) ∧ reads 0x2D5C402580000000 (.coll un (.s 22)) := by decide +kernel

/-- The printed words of matrix words, launches, `tlbi`, `tick` and bound opcodes. -/
theorem test_decode_others :
    reads 0x305C332121620015 (.mma hd ⟨1, 1, true⟩ (.a 4) (.s 4) (.s 5) (.s 8)) ∧
    reads 0x359C62A200000000 (.launch un (.s 10) (.s 8)) ∧ reads 0x35DC62A223000000 (.launchAgg un (.s 10) (.s 8) (.s 12)) ∧
    reads 0x361C402100000000 (.tlbiPage un (.s 4) none) ∧ reads 0x361C402100000008 (.tlbiPageRecall un (.s 4) none) ∧
    reads 0x365C610000000000 (.tick un (.s 4)) ∧ reads 0x38DC02407FE14000 (.boundOpcode hd 3 (.v 9) (.v 1) .zero (.s 5) 0) ∧
    reads (f3 0xDE 1 0x84 0 0 0 6) (.qstatBind un 3 (.s 4)) := by decide +kernel

theorem test_decode_control :
    reads 0x1A9C400000000000 (.nop un) ∧ reads 0x991C400000000005 (.jmark { un with bnd := true } 5) ∧
    reads 0x1984000000000003 (.brk p1h 3) := by decide +kernel

theorem test_decode_system :
    reads 0x341C400000000012 (.trap un 0x12) ∧ reads 0x369C400000000021 (.bkpt un 0x21) ∧
    reads 0xB6DC400000000000 (.halt { un with bnd := true }) ∧ reads 0x345C400000000000 (.rte un) ∧
    reads 0x345C400000000001 (.rteDrop un false) ∧ reads 0x345C400000000002 (.rteSkip un) ∧
    reads 0x349C610000000002 (.csrr un (.s 4) 2) := by decide +kernel

theorem test_decode_memory :
    reads 0x245C400000000209 (.fencex un .team 1 2) ∧
    reads 0x235C62A118400080 (.waitv un { cc := .ne, w64 := false, seg := .r, acq := 1 } (.s 10) (.s 4) 0x80) := by decide +kernel

theorem test_decode_matrix :
    reads 0x319C323263C00000 (.miter hd { m128 := false, ns5 := false, f16 := false } (.a 0) (.a 1) (.s 15)) := by decide +kernel

/-- The word printed under R28. -/
theorem test_decode_paired :
    reads 0x400306803A079200 (.pairedWord false (slot (.bin .iadd (.v 12) (.v 13))) (slot (.fbin .fmul (.v 15) (.v 18)))) := by
  decide +kernel

/-- Opcode 0x3F, format 3: no row of the table. -/
theorem test_decode_refuses :
    (match parse false 0x3FDC400000000000 with | .ok (.unassignedOpcode w) => decide (w = 0x3FDC400000000000) | _ => false) = true ∧
    decodeTableWord 64 0x1A9C400000000000 = some (.nop un) := by decide +kernel

end Sys2Proof.Tests

namespace Sys2Proof.Tests
set_option Elab.async false
open Sys2Proof Sys2Proof.Machine

/-! ## An image that passes the checks of start-up

The digests were computed outside the model. -/

/-- An image without its signature: a key of exponent 1, BOOTCFG with byte `c` first and an entry at 0x2000, one segment there. -/
def bareImage (c : Byte) : List (Nat × Byte) :=
  [(0, 0x5A), (1, 0x4C), (2, 0x4E), (3, 0x46), (4, 0x57), (5, 0x38), (8, 1), (0x10, 0x20), (0x11, 0x04), (0x19, 0x01), (0x30, 0x08), (0x31, 0x03),
   (0x38, 0x08), (0x39, 0x04), (0x40, 24), (0x100, 1), (0x307, 1), (0x308, c), (0x339, 0x20), (0x409, 0x20), (0x410, 8), (0x41F, 0x9A)]
def bare (c : Byte) : Plat := { Plat.reset with flash := bareImage c }
/-- The image with the key's digest fused and a signature, which under exponent 1 is the encoded message itself. -/
def signedPlat (c : Byte) (digest : Nat) : Plat :=
  { bare c with
    flash := bareImage c ++ (pkcs1Encoded (bigBytes 64 digest)).zipIdx.map (fun e => (0x420 + e.2, e.1)),
    keyDigest := bigBytes 64 0x85a2cf1ecfd58d5e4a71375b58f161a820419772057d218726fb3c9f8b097e8be7cba1856a2fa339587a0fea93a3f3ba4afd620ecc3d8098396a420d30a7c0ad }
def goodPlat : Plat := signedPlat 0
  0xc854d89c2b747cdaf3220171a1dbf71d62252a83adc72fb9a1b2f8b933130a677facc0cf6fa1c97c0cd535e807eb2bac4f68dc0ad86610c7712d4877c6b013c0
def oddPlat : Plat := signedPlat 8
  0xb76f12355cd474c9cc40d8a2db5a9147fc3b0608273de085b16559472a0feb6851161937dab12bfd6c12d384579adad52397eae31f8563328ba6accaaab9f548


theorem get_append (d : Byte) (o : Nat) (l m : List (Nat × Byte)) :
    Tab.get d o (l ++ m) = Tab.get (Tab.get d o m) o l := by
  induction l with
  | nil => rfl
  | cons e l ih => by_cases h : e.1 = o <;> simp [Tab.get, h, ih]

theorem get_shift (d : Byte) (a o : Nat) (l : List Byte) (k : Nat) :
    Tab.get d o ((l.zipIdx k).map (fun e => (a + e.2, e.1))) = if o < a + k then d else l.getD (o - a - k) d := by
  induction l generalizing k with
  | nil => simp
  | cons b l ih =>
    simp only [List.zipIdx_cons, List.map_cons, Tab.get, ih]
    by_cases h : a + k = o
    · subst h; simp
    · by_cases h2 : o < a + k
      · simp [h, h2]; omega
      · have : o - a - k = (o - a - (k + 1)) + 1 := by omega
        simp [h, h2, this]; omega

theorem bare_keys (c : Byte) : ∀ e ∈ bareImage c, e.1 < 0x420 := by
  simp [bareImage]

theorem get_absent (d : Byte) (o n : Nat) (h : n ≤ o) (l : List (Nat × Byte)) (hl : ∀ e ∈ l, e.1 < n) : Tab.get d o l = d := by
  induction l with
  | nil => rfl
  | cons e l ih =>
    have := hl e (by simp)
    simp only [Tab.get]
    rw [if_neg (by omega), ih (fun x hx => hl x (by simp [hx]))]

theorem signed_low (c : Byte) (d o : Nat) (h : o < 0x420) : (signedPlat c d).flashByte o = (bare c).flashByte o := by
  show Tab.get 0 o (bareImage c ++ _) = Tab.get 0 o (bareImage c)
  rw [get_append, get_shift]
  simp [h]

theorem signed_bytes (c : Byte) (d o n : Nat) (h : o + n ≤ 0x420) :
    (signedPlat c d).flashBytes o n = (bare c).flashBytes o n := by
  simp only [Plat.flashBytes]
  apply List.map_congr_left
  intro k hk
  exact signed_low c d _ (by have := List.mem_range.mp hk; omega)

theorem signed_sig (c : Byte) (d : Nat) : (signedPlat c d).flashBytes 0x420 512 = pkcs1Encoded (bigBytes 64 d) := by
  have hl : (pkcs1Encoded (bigBytes 64 d)).length = 512 := by
    simp [pkcs1Encoded, bigBytes, bytesOfNum_length, -List.reduceReplicate]
  apply List.ext_getElem
  · simp [Plat.flashBytes, hl]
  · intro k h1 h2
    simp only [Plat.flashBytes, List.getElem_map, List.getElem_range]
    show Tab.get 0 (0x420 + k) (bareImage c ++ _) = _
    rw [get_append, get_absent _ _ 0x420 (by omega) _ (bare_keys c), get_shift, if_neg (by omega), List.getD_eq_getElem?_getD]
    simp [h2]

theorem signed_image (c : Byte) (d : Nat) : (signedPlat c d).image = (bare c).image := by
  simp [Plat.image, Plat.flashNum, signed_bytes]

theorem signed_layout (c : Byte) (d : Nat) (h : (bare c).layoutOk = true) : (signedPlat c d).layoutOk = true := by
  have hf : (signedPlat c d).flashSize = (bare c).flashSize := rfl
  have hs : ∀ o n, o + n ≤ 0x420 → (signedPlat c d).flashNum o n = (bare c).flashNum o n := fun o n h => by
    simp only [Plat.flashNum, signed_bytes c d o n h]
  simp only [Plat.layoutOk, signed_image, hf] at h ⊢
  rw [signed_bytes c d 0 8 (by decide), hs 8 4 (by decide), signed_bytes c d 0x48 184 (by decide)]
  exact h

theorem signed_ok (c : Byte) (d : Nat) (hm : (bare c).image.sigLen = 0x420 ∧ (bare c).image.keyOff = 0x100)
    (hk : sha512 ((bare c).flashBytes 0x100 520) = (signedPlat c d).keyDigest)
    (hd : sha512 ((bare c).flashBytes 0 0x420) = bigBytes 64 d)
    (hr : rsaVerify ((bare c).flashBytes 0x100 520) (pkcs1Encoded (bigBytes 64 d)) (bigBytes 64 d) = true) :
    (signedPlat c d).signatureOk = true := by
  simp only [Plat.signatureOk, signed_image, hm.1, hm.2, signed_sig, signed_bytes c d 0x100 520 (by decide),
    signed_bytes c d 0 0x420 (by decide), hk, hd, hr, decide_true, Bool.and_self]

theorem bare_key_digest : ∀ c ∈ [(0 : Byte), 8], ∀ d, sha512 ((bare c).flashBytes 0x100 520) = (signedPlat c d).keyDigest := by
  intro c hc d
  show sha512 ((bare c).flashBytes 0x100 520) = bigBytes 64 _
  revert c
  decide +kernel

theorem good_signed : goodPlat.signatureOk = true :=
  signed_ok 0 _ (by decide +kernel) (bare_key_digest 0 (by decide) _) (by decide +kernel) (by decide +kernel)

theorem odd_signed : oddPlat.signatureOk = true :=
  signed_ok 8 _ (by decide +kernel) (bare_key_digest 8 (by decide) _) (by decide +kernel) (by decide +kernel)

theorem bare_layout : (bare 0).layoutOk = true ∧ (bare 8).layoutOk = true := by decide +kernel

/-- What `goodPlat` reads of BOOTCFG and of its control program. -/
theorem good_cfg : goodPlat.flashBytes goodPlat.image.cfgOff 256 = (bare 0).flashBytes 0x308 256 ∧
    goodPlat.flashBytes goodPlat.image.cpOff goodPlat.image.cpLen = (bare 0).flashBytes 0x408 24 ∧
    oddPlat.flashBytes oddPlat.image.cfgOff 256 = (bare 8).flashBytes 0x308 256 := by
  have h : (bare 0).image.cfgOff = 0x308 ∧ (bare 0).image.cpOff = 0x408 ∧ (bare 0).image.cpLen = 24 ∧ (bare 8).image.cfgOff = 0x308 := by
    decide +kernel
  simp only [goodPlat, oddPlat, signed_image, h.1, h.2.1, h.2.2.1, h.2.2.2]
  exact ⟨signed_bytes 0 _ _ _ (by decide), signed_bytes 0 _ _ _ (by decide), signed_bytes 8 _ _ _ (by decide)⟩

theorem witness_PackageStarts :
    (State.reset.plat.layoutOk = false) ∧ ((bare 0).layoutOk = true ∧ (bare 0).signatureOk = false) ∧
    (oddPlat.layoutOk = true ∧ oddPlat.signatureOk = true ∧ cfgOk (oddPlat.flashBytes oddPlat.image.cfgOff 256) = false) ∧
    (let cfg := goodPlat.flashBytes goodPlat.image.cfgOff 256
     let prog := goodPlat.flashBytes goodPlat.image.cpOff goodPlat.image.cpLen
     goodPlat.layoutOk = true ∧ goodPlat.signatureOk = true ∧ cfgOk cfg = true ∧ goodPlat.goodDies = 0xFF ∧ goodPlat.goodLinks = 0xFF ∧
      (cfgWord cfg 0).getLsbD 0 = false ∧ segments (prog.length / 16 + 1) prog = some [(0x2000, [0, 0, 0, 0, 0, 0, 0, 0x9A])] ∧
      (cfgWord cfg 8).extractLsb' 8 7 = 0#7 ∧ (cfgWord cfg 0x30).extractLsb' 3 54 = 0x400) := by
  refine ⟨by decide +kernel, ⟨bare_layout.1, by decide +kernel⟩, ⟨signed_layout _ _ bare_layout.2, odd_signed, ?_⟩,
    signed_layout _ _ bare_layout.1, good_signed, ?_⟩
  · rw [good_cfg.2.2]; decide +kernel
  · rw [good_cfg.1, good_cfg.2.1]; decide +kernel

end Sys2Proof.Tests
end

section
namespace Sys2Proof.Machine
open Sys2Proof

/-! ### Numbers in memory (R2) -/

theorem State.setBytes_groups (s : State) (pa : Nat) (l : List Byte) : (s.setBytes pa l).groups = s.groups := by
  induction l generalizing s pa with
  | nil => rfl
  | cons b t ih => exact ih _ _

theorem numOfBytes_bytesOfNum (n x : Nat) : numOfBytes (bytesOfNum n x) = x % 256 ^ n := by
  induction n generalizing x with
  | zero => simp [bytesOfNum, numOfBytes, Nat.mod_one]
  | succ n ih => simp [bytesOfNum, numOfBytes, ih, pow_succ', Nat.mod_mul]

/-- A list of bytes that is stored is read back. -/
theorem State.bytes_setBytes (s : State) (pa : Nat) (l : List Byte) : (s.setBytes pa l).bytes pa l.length = l := by
  refine List.ext_getElem (by simp [State.bytes]) fun k hk hl => ?_
  simp [State.bytes, State.byte_setBytes, hl]

theorem State.load_store (s : State) (pa n x : Nat) : (s.store pa n x).load pa n = x % 256 ^ n := by
  have h := s.bytes_setBytes pa (bytesOfNum n x)
  rw [bytesOfNum_length] at h
  rw [State.load, State.store, h, numOfBytes_bytesOfNum]

/-- Settles O59: reads after the writes of a byte, of a list of bytes and of a number. -/
theorem memoryReadsWhatWasWritten : Obligations.MemoryReadsWhatWasWritten :=
  ⟨fun s pa q b => ⟨s.byte_setByte pa q b, s.wf_setByte pa b⟩,
   fun s pa q l => ⟨s.byte_setBytes pa q l, s.wf_setBytes pa l⟩,
   fun s pa n x => ⟨s.load_store pa n x, s.setBytes_groups pa _⟩⟩

end Sys2Proof.Machine
end

section
namespace Sys2Proof.Machine
open Sys2Proof
-- The lemmas below are many, and elaborated in turn they do not each take a thread of their own.
set_option Elab.async false

/-!
### What the functions of the model keep (log entry 1, R2)

Memory changes by `State.setByte` alone, and the tick at its end alone. So every function of the model that answers a state has one
lemma here, in the model's order and under the function's name, which says that it keeps both; the lemma of a function that calls
others is the chain of theirs: `h.setReg.noteHw` is what holds behind `(s.setReg a v).noteHw b w`, and `h.upd` covers a change of
other fields.
-/

/-- From `s₀` to `s` the tick stands, and memory keeps its canonical form (log entry 1). -/
structure State.Keeps (s₀ s : State) : Prop where
  inv : s₀.Inv → s.Inv
  tick : s.tick = s₀.tick

/-- What an instruction answers is a state in the same tick whose memory is in canonical form, if it answers one. -/
def State.KeepsOut (s₀ : State) : Host.Outcome State Fault Refusal → Prop
  | .next s => s₀.Keeps s
  | .fault _ => True
  | .refused _ => True

section
variable {s₀ s t : State} {α β γ : Type} {c : Prop} {inst : Decidable c}

theorem State.Keeps.refl : s.Keeps s := ⟨id, rfl⟩

/-- A change of fields other than memory and the tick. -/
theorem State.Keeps.upd {pace turn agenda pending inputs focusCore focusPort nextId free mgmt cores groups teams clusters ctxs sys hub
    repl fab dbg plat} (h : s₀.Keeps s) : s₀.Keeps ⟨s.tick, pace, turn, agenda, pending, inputs, focusCore, focusPort, nextId, free, s.mem,
      mgmt, cores, groups, teams, clusters, ctxs, sys, hub, repl, fab, dbg, plat⟩ :=
  ⟨h.inv, h.tick⟩

theorem State.Keeps.ite (hs : s₀.Keeps s) (ht : s₀.Keeps t) : s₀.Keeps (if c then s else t) := by
  split <;> assumption

theorem State.Keeps.ite_fst {p q : State × α} (hp : s₀.Keeps p.1) (hq : s₀.Keeps q.1) : s₀.Keeps (if c then p else q).1 := by
  split <;> assumption

theorem State.Keeps.ite_snd {p q : α × State} (hp : s₀.Keeps p.2) (hq : s₀.Keeps q.2) : s₀.Keeps (if c then p else q).2 := by
  split <;> assumption

/-- A fold keeps what each of its steps keeps, wherever its accumulator holds the state. -/
theorem State.Keeps.foldl_on (π : β → State) {l : List α} {f : β → α → β} {b : β} (h : s₀.Keeps (π b))
    (hf : ∀ b a, s₀.Keeps (π b) → s₀.Keeps (π (f b a))) : s₀.Keeps (π (l.foldl f b)) := by
  induction l generalizing b with
  | nil => exact h
  | cons a l ih => exact ih (hf b a h)

theorem State.Keeps.foldl {l : List α} {f : State → α → State} (h : s₀.Keeps s)
    (hf : ∀ s a, s₀.Keeps s → s₀.Keeps (f s a)) : s₀.Keeps (l.foldl f s) := State.Keeps.foldl_on id h hf

theorem State.Keeps.foldl_fst {l : List α} {f : State × β → α → State × β} {p : State × β} (h : s₀.Keeps p.1)
    (hf : ∀ p a, s₀.Keeps p.1 → s₀.Keeps (f p a).1) : s₀.Keeps (l.foldl f p).1 := State.Keeps.foldl_on Prod.fst h hf

theorem State.Keeps.foldl_snd {l : List α} {f : β × State → α → β × State} {p : β × State} (h : s₀.Keeps p.2)
    (hf : ∀ p a, s₀.Keeps p.2 → s₀.Keeps (f p a).2) : s₀.Keeps (l.foldl f p).2 := State.Keeps.foldl_on Prod.snd h hf

theorem State.Keeps.foldl_snd_snd {l : List α} {f : β × γ × State → α → β × γ × State} {p : β × γ × State} (h : s₀.Keeps p.2.2)
    (hf : ∀ p a, s₀.Keeps p.2.2 → s₀.Keeps (f p a).2.2) : s₀.Keeps (l.foldl f p).2.2 := State.Keeps.foldl_on (fun p : β × γ × State => p.2.2) h hf

/-- A fold that may stop with `none` keeps what each of its steps keeps. -/
theorem State.Keeps.foldl_some {l : List α} {f : Option (β × State) → α → Option (β × State)} {r : Option (β × State)}
    (h : ∀ b t, r = some (b, t) → s₀.Keeps t)
    (hf : ∀ r a, (∀ b t, r = some (b, t) → s₀.Keeps t) → ∀ b t, f r a = some (b, t) → s₀.Keeps t) :
    ∀ b t, l.foldl f r = some (b, t) → s₀.Keeps t := by
  induction l generalizing r with
  | nil => exact h
  | cons a l ih => exact ih (hf r a h)

theorem State.Keeps.snd_snd {p : α × β × State} {a : α} {b : β} (h : s₀.Keeps p.2.2) (e : p = (a, b, t)) : s₀.Keeps t := by
  subst e; exact h

theorem State.Keeps.snd {p : α × State} {a : α} (h : s₀.Keeps p.2) (e : p = (a, t)) : s₀.Keeps t := by
  subst e; exact h

theorem State.Keeps.fst {p : State × α} {a : α} (h : s₀.Keeps p.1) (e : p = (t, a)) : s₀.Keeps t := by
  subst e; exact h

theorem State.Keeps.of_some (h : s₀.Keeps s) (e : some s = some t) : s₀.Keeps t := by
  cases e; exact h

theorem State.Keeps.of_ite_some {o u : Option State} (ho : o = some t → s₀.Keeps t) (hu : u = some t → s₀.Keeps t)
    (e : (if c then o else u) = some t) : s₀.Keeps t := by
  split at e
  · exact ho e
  · exact hu e

/-- The state behind what the order gate says. -/
def Gate.state : Gate → State
  | .go s => s
  | .hold s => s

/-- The state behind a step of a collective's execution. -/
def CollStep.state : CollStep → State
  | .go _ s => s
  | .stop s => s

theorem State.Keeps.ite_gate {p q : Gate} (hp : s₀.Keeps p.state) (hq : s₀.Keeps q.state) : s₀.Keeps (if c then p else q).state := by
  split <;> assumption

theorem State.Keeps.of_go {p : Gate} (h : s₀.Keeps p.state) (e : p = .go t) : s₀.Keeps t := by
  subst e; exact h

theorem State.Keeps.of_hold {p : Gate} (h : s₀.Keeps p.state) (e : p = .hold t) : s₀.Keeps t := by
  subst e; exact h

theorem State.Keeps.go {d} (h : s₀.Keeps s) : s₀.Keeps (CollStep.go d s).state := h

theorem State.Keeps.stop (h : s₀.Keeps s) : s₀.Keeps (CollStep.stop s).state := h

theorem State.Keeps.ite_coll {p q : CollStep} (hp : s₀.Keeps p.state) (hq : s₀.Keeps q.state) :
    s₀.Keeps (if c then p else q).state := by
  split <;> assumption

theorem State.KeepsOut.next (h : s₀.Keeps s) : s₀.KeepsOut (.next s) := h

theorem State.KeepsOut.ite {o u} (ho : s₀.KeepsOut o) (hu : s₀.KeepsOut u) : s₀.KeepsOut (if c then o else u) := by
  split <;> assumption

end
section
variable {s₀ s t : State}

/-! ### Machine/Ops.lean -/

theorem State.Keeps.setByte {pa b} (h : s₀.Keeps s) : s₀.Keeps (s.setByte pa b) :=
  ⟨fun hi => s.wf_setByte pa b (h.inv hi), h.tick⟩

theorem State.Keeps.setBytes {pa l} (h : s₀.Keeps s) : s₀.Keeps (s.setBytes pa l) := by
  induction l generalizing s pa with
  | nil => exact h
  | cons b l ih => exact ih h.setByte

theorem State.Keeps.store {pa n x} (h : s₀.Keeps s) : s₀.Keeps (s.store pa n x) := h.setBytes

theorem State.Keeps.setReg {a v} (h : s₀.Keeps s) : s₀.Keeps (s.setReg a v) := h.upd

theorem State.Keeps.setGrp {g x} (h : s₀.Keeps s) : s₀.Keeps (s.setGrp g x) := h.upd

theorem State.Keeps.updGrp {g f} (h : s₀.Keeps s) : s₀.Keeps (s.updGrp g f) := by
  unfold State.updGrp
  split
  · exact h.setGrp
  · exact h

theorem State.Keeps.setTeam {t x} (h : s₀.Keeps s) : s₀.Keeps (s.setTeam t x) := h.upd

theorem State.Keeps.updTeam {t f} (h : s₀.Keeps s) : s₀.Keeps (s.updTeam t f) := by
  unfold State.updTeam
  split
  · exact h.setTeam
  · exact h

theorem State.Keeps.setCluster {c x} (h : s₀.Keeps s) : s₀.Keeps (s.setCluster c x) := h.upd

theorem State.Keeps.setCore {c x} (h : s₀.Keeps s) : s₀.Keeps (s.setCore c x) := h.upd

theorem State.Keeps.updCore {c f} (h : s₀.Keeps s) : s₀.Keeps (s.updCore c f) := h.setCore

theorem State.Keeps.setCtx {c x} (h : s₀.Keeps s) : s₀.Keeps (s.setCtx c x) := h.upd

theorem State.Keeps.setSys {x} (h : s₀.Keeps s) : s₀.Keeps (s.setSys x) := h.upd

theorem State.Keeps.setHub {x} (h : s₀.Keeps s) : s₀.Keeps (s.setHub x) := h.upd

theorem State.Keeps.fresh (h : s₀.Keeps s) : s₀.Keeps s.fresh.2 := h.upd

theorem State.Keeps.freeVal (h : s₀.Keeps s) : s₀.Keeps s.freeVal.2 := h.upd

theorem State.Keeps.post {e} (h : s₀.Keeps s) : s₀.Keeps (s.post e) := h.upd

theorem State.Keeps.setPort {c p x} (h : s₀.Keeps s) : s₀.Keeps (s.setPort c p x) := h.updCore

theorem State.Keeps.count {unit ev n} (h : s₀.Keeps s) : s₀.Keeps (s.count unit ev n) := h.ite h.upd

theorem State.Keeps.raiseLexp {pa die t} (h : s₀.Keeps s) : s₀.Keeps (s.raiseLexp pa die t) := h.setSys

theorem State.Keeps.l2Touch {pa die write} (h : s₀.Keeps s) : s₀.Keeps (s.l2Touch pa die write) := by
  unfold State.l2Touch
  extract_lets
  split
  · exact h.ite h.setSys
  · exact h.setSys.ite (h.setSys.ite h.freeVal.setSys)

theorem State.Keeps.l2Drop {pa die} (h : s₀.Keeps s) : s₀.Keeps (s.l2Drop pa die) := h.setSys

theorem State.Keeps.recallSub {sub} (h : s₀.Keeps s) : s₀.Keeps (s.recallSub sub) := by
  unfold State.recallSub
  extract_lets
  split
  · exact h
  · exact h.ite (((h.foldl fun _ _ h => h.raiseLexp).foldl fun _ _ h => (h.l2Touch.ite h).l2Drop).setSys.count)

theorem State.Keeps.signal {fn vec} (h : s₀.Keeps s) : s₀.Keeps (s.signal fn vec) := h.ite (h.setHub.ite h.setHub)

theorem State.Keeps.holdLine {pa on} (h : s₀.Keeps s) : s₀.Keeps (s.holdLine pa on) := h.setHub.ite (h.setHub.ite h)

theorem State.Keeps.writeRecord {data rest} (h : s₀.Keeps s) : s₀.Keeps (s.writeRecord data rest) := by
  unfold State.writeRecord
  extract_lets _ _ _ _ _ _ _ _ s₁
  have h₁ : s₀.Keeps s₁ := h.recallSub.holdLine.setBytes.l2Touch.setHub.setReg
  exact h.ite (h.recallSub.holdLine.ite (h₁.count.ite h₁.count.signal))

theorem State.Keeps.drainRecords (h : s₀.Keeps s) : s₀.Keeps s.drainRecords := by
  unfold State.drainRecords
  refine h.foldl fun _ _ h => ?_
  split
  · exact h.writeRecord
  · exact h

theorem State.Keeps.noteHw {a v} (h : s₀.Keeps s) : s₀.Keeps (s.noteHw a v) := h.upd

theorem State.Keeps.hwSet {a m} (h : s₀.Keeps s) : s₀.Keeps (s.hwSet a m) := h.setReg.noteHw

theorem State.Keeps.hwCount {a} (h : s₀.Keeps s) : s₀.Keeps (s.hwCount a) := h.setReg.noteHw

theorem State.Keeps.postEvent {code fields} (h : s₀.Keeps s) : s₀.Keeps (s.postEvent code fields) :=
  h.setHub.ite h.setHub.drainRecords

theorem State.Keeps.admitPosts (h : s₀.Keeps s) : s₀.Keeps s.admitPosts := by
  unfold State.admitPosts
  refine .drainRecords (h.foldl fun _ _ h => ?_)
  split
  · exact h.ite h.setHub
  · exact h

theorem State.Keeps.dropPosts (h : s₀.Keeps s) : s₀.Keeps s.dropPosts := h.setHub.foldl fun _ _ h => h.hwCount

theorem State.Keeps.postCtxFault {ctx fn cause detail core} (h : s₀.Keeps s) :
    s₀.Keeps (s.postCtxFault ctx fn cause detail core) :=
  h.postEvent

theorem State.Keeps.releasePort {g} (h : s₀.Keeps s) : s₀.Keeps (s.releasePort g) := by
  unfold State.releasePort
  split
  · exact h.setPort.updGrp
  · exact h

theorem State.Keeps.eligible {g} (h : s₀.Keeps s) : s₀.Keeps (s.eligible g) := h.updGrp

theorem State.Keeps.endRun {g keep} (h : s₀.Keeps s) : s₀.Keeps (s.endRun g keep) :=
  (h.count.ite h).updGrp.releasePort.eligible

theorem State.Keeps.haltGroup {g} (h : s₀.Keeps s) : s₀.Keeps (s.haltGroup g) := h.releasePort.updGrp

theorem State.Keeps.takeTrap {g q} (h : s₀.Keeps s) : s₀.Keeps (s.takeTrap g q) := by
  unfold State.takeTrap
  extract_lets
  exact h.count.updGrp.haltGroup.postCtxFault.ite
    (h.count.updGrp.haltGroup.postCtxFault.ite h.count.updGrp.releasePort.eligible)

theorem State.Keeps.trapNow {g cause info addr} (h : s₀.Keeps s) : s₀.Keeps (s.trapNow g cause info addr) :=
  h.takeTrap

theorem State.Keeps.trapAll {g cause info addr} (h : s₀.Keeps s) : s₀.Keeps (s.trapAll g cause info addr) :=
  h.takeTrap

theorem State.Keeps.decodeTrap {g t} (h : s₀.Keeps s) : s₀.Keeps (s.decodeTrap g t) := by
  unfold State.decodeTrap
  split <;> exact h.trapNow

theorem State.Keeps.trapLater {g t} (h : s₀.Keeps s) : s₀.Keeps (s.trapLater g t) := h.updGrp

theorem State.Keeps.writeReport {g recs} (h : s₀.Keeps s) : s₀.Keeps (s.writeReport g recs) :=
  h.setBytes.foldl fun _ _ h => h.store.store.store.store

theorem State.Keeps.settle {g} (h : s₀.Keeps s) : s₀.Keeps (s.settle g) := by
  unfold State.settle
  extract_lets
  split
  · exact h
  · exact h.writeReport.updGrp.takeTrap

theorem State.Keeps.leaveBarrier {g} (h : s₀.Keeps s) : s₀.Keeps (s.leaveBarrier g) := h.updGrp.eligible

theorem State.Keeps.dropLeases {core} (h : s₀.Keeps s) : s₀.Keeps (s.dropLeases core) := h.updCore.setSys

theorem State.Keeps.acquire {g sc} (h : s₀.Keeps s) : s₀.Keeps (s.acquire g sc) := by
  unfold State.acquire
  extract_lets
  split
  · exact h
  · exact h
  · exact h.ite h.dropLeases
  · exact (h.foldl fun _ _ h => h.dropLeases).ite h.dropLeases

theorem State.Keeps.testBar {t id} (h : s₀.Keeps s) : s₀.Keeps (s.testBar t id) :=
  (h.setTeam.foldl fun _ _ h => h.leaveBarrier.acquire).ite h

theorem State.Keeps.testCbar {c} (h : s₀.Keeps s) : s₀.Keeps (s.testCbar c) :=
  (h.setCluster.foldl fun _ _ h => h.leaveBarrier.acquire).ite h

theorem State.Keeps.setCtxState {c n} (h : s₀.Keeps s) : s₀.Keeps (s.setCtxState c n) := h.setReg

theorem State.Keeps.ctxIdle {c} (h : s₀.Keeps s) : s₀.Keeps (s.ctxIdle c) := h.setCtxState.ite h

theorem State.Keeps.endTeam {t} (h : s₀.Keeps s) : s₀.Keeps (s.endTeam t) := (h.upd.upd.ite h.upd).setHub.ctxIdle.post

theorem State.Keeps.tryEndTeam {t} (h : s₀.Keeps s) : s₀.Keeps (s.tryEndTeam t) := h.endTeam.ite h

theorem State.Keeps.endGroup {g} (h : s₀.Keeps s) : s₀.Keeps (s.endGroup g) := by
  unfold State.endGroup
  extract_lets _ _ _ s₁
  have h₁ : s₀.Keeps s₁ := h.releasePort.upd
  exact ((h₁.setSys.ite h₁.setSys.upd).updTeam.foldl fun _ _ h => h.testBar).testCbar.tryEndTeam

theorem State.Keeps.pathEnd {g} (h : s₀.Keeps s) : s₀.Keeps (s.pathEnd g) := by
  unfold State.pathEnd
  split
  · exact h.updGrp
  · exact h.endGroup

theorem State.Keeps.returnFromTrap {g drop skip} (h : s₀.Keeps s) : s₀.Keeps (s.returnFromTrap g drop skip) :=
  (h.setGrp.pathEnd.ite h.setGrp).releasePort.eligible

/-! ### Machine/Operands.lean -/

theorem State.Keeps.finishRun {g keep} (h : s₀.Keeps s) : s₀.Keeps (s.finishRun g keep) :=
  h.endRun.ite h.endRun.settle

theorem State.Keeps.retire {g bnd e} (h : s₀.Keeps s) : s₀.Keeps (s.retire g bnd e) := by
  unfold State.retire
  extract_lets x clear
  have hc : s₀.Keeps (clear s) := by
    unfold clear
    split
    · exact h.setPort
    · exact h
  clear_value clear
  cases e with
  | on => exact hc.setGrp.finishRun.ite (hc.setGrp.settle.ite hc.setGrp)
  | run => exact hc.setGrp.finishRun
  | jump pc => exact hc.setGrp.finishRun
  | moved => exact hc.finishRun
  | wait =>
    dsimp only
    split
    · exact h.setPort
    · exact h
  | done => exact h

theorem State.Keeps.word {i body} (h : s₀.Keeps s) (hb : ∀ s g x, s₀.Keeps s → s₀.Keeps (body s g x).1) :
    s₀.KeepsOut (word i s body) := by
  unfold Machine.word
  split
  · trivial
  · refine .ite h.settle ?_
    split
    · exact h.decodeTrap
    · exact (hb _ _ _ h).retire

theorem State.Keeps.withPolicy {g p k} (h : s₀.Keeps s) (hk : s₀.Keeps k.1) : s₀.Keeps (withPolicy s g p k).1 := by
  unfold Machine.withPolicy
  split
  · exact hk
  · exact h.trapNow
  · dsimp only
    exact h.count.updGrp.finishRun

theorem State.Keeps.laneWord {i hd body} (h : s₀.Keeps s) (hb : ∀ s g x e, s₀.Keeps s → s₀.Keeps (body s g x e).1) :
    s₀.KeepsOut (laneWord i hd s body) :=
  h.word fun s g x h => h.withPolicy (hb s g x _ h)

theorem State.Keeps.uniWord {i hd body} (h : s₀.Keeps s) (hb : ∀ s g x, s₀.Keeps s → s₀.Keeps (body s g x).1) :
    s₀.KeepsOut (uniWord i hd s body) := by
  refine h.word fun s g x h => ?_
  split
  · exact h.trapNow
  · exact h.withPolicy h
  · exact h.withPolicy (hb s g x h)

theorem State.Keeps.dataWord {i hd body} (h : s₀.Keeps s) (hb : ∀ s g x l, s₀.Keeps s → s₀.Keeps (body s g x l).1) :
    s₀.KeepsOut (dataWord i hd s body) :=
  .ite (h.uniWord fun s g x h => hb s g x _ h) (h.laneWord fun s g x _ h => hb s g x _ h)

theorem State.Keeps.aluWord {i hd d val} (h : s₀.Keeps s) : s₀.KeepsOut (aluWord i hd d s val) :=
  h.dataWord (fun _ _ _ _ h => h.setGrp)

/-! ### Machine/Flags.lean -/

theorem State.Keeps.fpWord {i hd d val} (h : s₀.Keeps s) : s₀.KeepsOut (fpWord i hd d s val) :=
  h.dataWord (fun _ _ _ _ h => h.setGrp)

/-! ### Machine/Integer.lean -/

theorem State.Keeps.intWord {i hd t sat d a b f} (h : s₀.Keeps s) : s₀.KeepsOut (intWord i hd t sat d a b f s) :=
  h.aluWord

theorem State.Keeps.intImmWord {i hd t sat d a imm f} (h : s₀.Keeps s) : s₀.KeepsOut (intImmWord i hd t sat d a imm f s) :=
  h.aluWord

theorem State.Keeps.logicWord {i hd t d a b f} (h : s₀.Keeps s) : s₀.KeepsOut (logicWord i hd t d a b f s) :=
  h.aluWord

theorem State.Keeps.logicImmWord {i hd t d a imm f} (h : s₀.Keeps s) : s₀.KeepsOut (logicImmWord i hd t d a imm f s) :=
  h.aluWord

theorem State.Keeps.shiftWord {i hd op t clamp d a b} (h : s₀.Keeps s) : s₀.KeepsOut (shiftWord i hd op t clamp d a b s) :=
  h.aluWord

theorem State.Keeps.shiftImmWord {i hd op t clamp d a imm} (h : s₀.Keeps s) :
    s₀.KeepsOut (shiftImmWord i hd op t clamp d a imm s) :=
  h.aluWord

theorem State.Keeps.carryWord {i hd f d a b c op} (h : s₀.Keeps s) : s₀.KeepsOut (carryWord i hd f d a b c op s) := by
  unfold Machine.carryWord
  exact h.dataWord fun _ _ _ _ h => h.setGrp

theorem State.Keeps.icmpWord {i hd f d va vb} (h : s₀.Keeps s) : s₀.KeepsOut (icmpWord i hd f d s va vb) := h.aluWord

/-! ### Machine/Bits.lean -/

theorem State.Keeps.bitWord {i hd t d a f} (h : s₀.Keeps s) : s₀.KeepsOut (bitWord i hd t d a f s) := h.aluWord

theorem State.Keeps.predWord {i hd f d a b op} (h : s₀.Keeps s) : s₀.KeepsOut (predWord i hd f d a b op s) :=
  h.aluWord

theorem State.Keeps.execPmov {hd beat d a} (h : s₀.Keeps s) : s₀.KeepsOut (execPmov hd beat d a s) := by
  unfold Machine.execPmov
  refine h.uniWord (fun _ _ _ h => ?_)
  split <;> exact h.setGrp

theorem State.Keeps.execVote {hd m d a} (h : s₀.Keeps s) : s₀.KeepsOut (execVote hd m d a s) := by
  unfold Machine.execVote
  refine h.laneWord (fun _ _ _ _ h => ?_)
  split
  · exact h.setGrp
  · exact h.setGrp
  · exact .ite_fst h h.setGrp
  · exact h

/-! ### Machine/Float.lean -/

theorem State.Keeps.arithWord {i hd f d val} (h : s₀.Keeps s) : s₀.KeepsOut (arithWord i hd f d s val) := h.fpWord

theorem State.Keeps.sendResult {g regs vals fl} (h : s₀.Keeps s) : s₀.Keeps (s.sendResult g regs vals fl) :=
  h.fresh.updGrp.setSys.post

theorem State.Keeps.specialWord {i hd f d a fn} (h : s₀.Keeps s) : s₀.KeepsOut (specialWord i hd f d a s fn) := by
  unfold Machine.specialWord
  refine h.dataWord (fun _ _ _ _ h => ?_)
  split
  · exact .ite_fst h h.sendResult
  · exact .ite_fst h h.setGrp.sendResult

theorem State.Keeps.sfnWord {i hd f d a fn} (h : s₀.Keeps s) : s₀.KeepsOut (sfnWord i hd f d a fn s) := h.specialWord

/-! ### Machine/Control.lean -/

theorem State.Keeps.divStack {g code} (h : s₀.Keeps s) : s₀.Keeps (s.divStack g code) := h.trapNow

theorem State.Keeps.branch {g w target} (h : s₀.Keeps s) : s₀.Keeps (s.branch g w target).1 := by
  unfold State.branch
  split
  · exact h
  · exact h
  · exact h.updGrp

theorem State.Keeps.endPath {g} (h : s₀.Keeps s) : s₀.Keeps (s.endPath g).1 := h.pathEnd

theorem State.Keeps.execCallReg {hd d a} (h : s₀.Keeps s) : s₀.KeepsOut (execCallReg hd d a s) := by
  unfold Machine.execCallReg
  refine h.uniWord (fun _ _ _ h => ?_)
  split
  · exact h.trapNow
  · exact h.setGrp

theorem State.Keeps.execRet {hd a} (h : s₀.Keeps s) : s₀.KeepsOut (execRet hd a s) := by
  unfold Machine.execRet
  refine h.uniWord (fun _ _ _ h => ?_)
  split
  · exact h.trapNow
  · exact h

theorem State.Keeps.execJoin {hd} (h : s₀.Keeps s) : s₀.KeepsOut (execJoin hd s) := by
  unfold Machine.execJoin
  refine h.word (fun _ _ _ h => ?_)
  split
  · exact h.divStack
  · exact h.setGrp.endPath

theorem State.Keeps.execBrk {hd off} (h : s₀.Keeps s) : s₀.KeepsOut (execBrk hd off s) := by
  unfold Machine.execBrk
  refine h.word (fun _ _ _ h => ?_)
  split
  · exact h.divStack
  · exact .ite_fst h (.ite_fst h.setGrp.endPath h.setGrp)

theorem State.Keeps.suspend {g w} (h : s₀.Keeps s) : s₀.Keeps (s.suspend g w) := h.updGrp

theorem State.Keeps.wake {g} (h : s₀.Keeps s) : s₀.Keeps (s.wake g) := h.updGrp.eligible

theorem State.Keeps.execSleepDeadline {grp} (h : s₀.Keeps s) : s₀.KeepsOut (execSleepDeadline grp s) := by
  unfold Machine.execSleepDeadline
  split
  · exact .ite (.next h.wake) (.next h)
  · exact .next h

theorem State.Keeps.slotWrite {g o} (h : s₀.Keeps s) : s₀.Keeps (s.slotWrite g o) := by
  unfold State.slotWrite
  extract_lets
  refine .ite ?_ h.updGrp
  split
  · exact h.ite h.sendResult
  · exact h

theorem State.Keeps.execPairedWord {bnd x y} (h : s₀.Keeps s) : s₀.KeepsOut (execPairedWord bnd x y s) := by
  unfold Machine.execPairedWord
  refine h.word fun s g x h => ?_
  split
  · exact h.trapNow
  · exact h.trapNow
  · extract_lets _ br oa ob t
    have ht : s₀.Keeps t := h.slotWrite.slotWrite
    clear_value br
    refine h.withPolicy (.ite_fst h.divStack ?_)
    split
    · exact ht
    · exact ht.branch

/-! ### Machine/Translate.lean -/

theorem State.Keeps.walkCached {die ctx va} (h : s₀.Keeps s) : s₀.Keeps (s.walkCached die ctx va).2 := h.setSys

theorem State.Keeps.tlbPut {e} (h : s₀.Keeps s) : s₀.Keeps (s.tlbPut e) := h.ite (h.setSys.ite h.freeVal.setSys)

theorem State.Keeps.tlbDrop {unit ctx va} (h : s₀.Keeps s) : s₀.Keeps (s.tlbDrop unit ctx va) := h.setSys

theorem State.Keeps.translate {core ctx va write} (h : s₀.Keeps s) : s₀.Keeps (s.translate core ctx va write).2 := by
  unfold State.translate
  extract_lets _ _ _ s₁ s₂ s₃
  have h₁ : s₀.Keeps s₁ := h.tlbDrop.tlbDrop
  have h₂ : s₀.Keeps s₂ := h₁.ite h₁.count
  have h₃ : s₀.Keeps s₃.2 := by
    unfold s₃
    split
    · next e => exact (h₂.walkCached.snd e).tlbPut.tlbPut
    · next e => exact h₂.walkCached
  split
  · exact .ite_snd h h₃
  · split
    · exact .ite_snd h.tlbPut h₃
    · exact h₃

theorem State.Keeps.setFaultBuf {die ctx b} (h : s₀.Keeps s) : s₀.Keeps (s.setFaultBuf die ctx b) := h.setSys

theorem State.Keeps.noteDrop {die ctx} (h : s₀.Keeps s) : s₀.Keeps (s.noteDrop die ctx) := h.noteHw

theorem State.Keeps.handleReport {die ctx k post} (h : s₀.Keeps s) : s₀.Keeps (s.handleReport die ctx k post) :=
  (h.setFaultBuf.ite h.setFaultBuf.noteDrop).postEvent.ite (h.setFaultBuf.ite h.setFaultBuf.noteDrop)

theorem State.Keeps.faultReport {core slot ctx va acc f path} (h : s₀.Keeps s) :
    s₀.Keeps (s.faultReport core slot ctx va acc f path) :=
  h.handleReport.setSys

theorem State.Keeps.replayBegin {die c} (h : s₀.Keeps s) : s₀.Keeps (s.replayBegin die c) :=
  h.setFaultBuf.noteHw.foldl fun _ _ h => h.handleReport

/-! ### Machine/Mgmt.lean -/

theorem State.Keeps.maskedWrite {o v} (h : s₀.Keeps s) : s₀.Keeps (s.maskedWrite o v) := (h.upd.ite h).setReg

theorem State.Keeps.qcfgWrite {q fab val} (h : s₀.Keeps s) : s₀.Keeps (s.qcfgWrite q fab val) :=
  h.maskedWrite.ite h.hwSet

theorem State.Keeps.noteProg {a old prog} (h : s₀.Keeps s) : s₀.Keeps (s.noteProg a old prog) := h.upd

theorem State.Keeps.counterWrite {unit ev v} (h : s₀.Keeps s) : s₀.Keeps (s.counterWrite unit ev v) :=
  (h.setReg.noteProg.ite h.setReg).ite h.setReg.noteProg

theorem State.Keeps.counterRead {a} (h : s₀.Keeps s) : s₀.Keeps (s.counterRead a).2 := .ite_snd h.setReg h

theorem State.Keeps.askCounter {who pa} (h : s₀.Keeps s) : s₀.Keeps (s.askCounter who pa).2 := by
  unfold State.askCounter
  extract_lets
  split
  · exact h.upd
  · split
    · exact h.upd
    · exact h

theorem State.Keeps.dropKept {who} (h : s₀.Keeps s) : s₀.Keeps (s.dropKept who) := h.upd

theorem State.Keeps.answerCounters (h : s₀.Keeps s) : s₀.Keeps s.answerCounters :=
  h.foldl fun _ _ h => h.ite h.counterRead.upd

theorem State.Keeps.counterClose {a} (h : s₀.Keeps s) : s₀.Keeps (s.counterClose a) := by
  unfold State.counterClose
  extract_lets
  split
  · exact h.setReg.ite h
  · refine h.ite (h.setReg.ite ?_)
    split
    · exact h.setReg.postEvent
    · exact h.setReg

theorem State.Keeps.closeCounters (h : s₀.Keeps s) : s₀.Keeps s.closeCounters :=
  (h.foldl fun _ _ h => h.counterClose).upd

theorem State.Keeps.actkWrite {v} (h : s₀.Keeps s) : s₀.Keeps (s.actkWrite v) := h.maskedWrite.upd

theorem State.Keeps.ringWrite {ring reg v} (h : s₀.Keeps s) : s₀.Keeps (s.ringWrite ring reg v) := by
  unfold State.ringWrite
  extract_lets
  split
  · exact h.maskedWrite.setReg.setReg
  · exact h.maskedWrite.setReg.setReg
  · exact h.maskedWrite
  · exact h

theorem State.Keeps.rrcfgWrite {c v} (h : s₀.Keeps s) : s₀.Keeps (s.rrcfgWrite c v) := h.maskedWrite.setReg.upd

theorem State.Keeps.eventQueueWrite {size v} (h : s₀.Keeps s) : s₀.Keeps (s.eventQueueWrite size v) :=
  h.maskedWrite.setReg.setReg.admitPosts

theorem State.Keeps.recordFreeze {q} (h : s₀.Keeps s) : s₀.Keeps (s.recordFreeze q) :=
  h.freeVal.freeVal.setReg.setReg.setReg

theorem State.Keeps.requestFreeze {q} (h : s₀.Keeps s) : s₀.Keeps (s.requestFreeze q) := by
  unfold State.requestFreeze
  extract_lets _ s₁
  have h₁ : s₀.Keeps s₁ := h.upd.recordFreeze
  refine h.ite ?_
  split
  · exact h₁
  · exact h₁.ite h

theorem State.Keeps.commandFreeze (h : s₀.Keeps s) : s₀.Keeps s.commandFreeze := h.requestFreeze

theorem State.Keeps.debugCommand {v} (h : s₀.Keeps s) : s₀.Keeps (s.debugCommand v) := by
  unfold State.debugCommand
  extract_lets
  split
  · exact h.commandFreeze
  · exact h.upd.ite h
  · exact h.post
  · exact h.upd.ite h.post
  · exact h.upd.ite h.post
  · exact h.setReg.post.ite h
  · exact h

theorem State.Keeps.setPortField {p lo n x} (h : s₀.Keeps s) : s₀.Keeps (s.setPortField p lo n x) := h.setReg

theorem State.Keeps.portRecord {p} (h : s₀.Keeps s) : s₀.Keeps (s.portRecord p) := h.postEvent

theorem State.Keeps.portLeave {p st} (h : s₀.Keeps s) : s₀.Keeps (s.portLeave p st) := h.setPortField.setPortField.upd

theorem State.Keeps.portWrite {p v} (h : s₀.Keeps s) : s₀.Keeps (s.portWrite p v) := by
  unfold State.portWrite
  extract_lets _ _ s₁
  have h₁ : s₀.Keeps s₁ := h.maskedWrite.portLeave.ite h.maskedWrite
  exact (h.maskedWrite.portLeave.portRecord.ite h.maskedWrite.portLeave).ite (h₁.post.ite h₁)

theorem State.Keeps.faultRead {o} (h : s₀.Keeps s) : s₀.Keeps (s.faultRead o).2 := by
  unfold State.faultRead
  extract_lets
  refine .ite_snd ?_ (.ite_snd h (.ite_snd h.setFaultBuf h))
  split <;> exact h

theorem State.Keeps.setRep {d r} (h : s₀.Keeps s) : s₀.Keeps (s.setRep d r) := h.upd

theorem State.Keeps.repRead {o} (h : s₀.Keeps s) : s₀.Keeps (s.repRead o).2 := by
  unfold State.repRead
  extract_lets
  split
  · exact h
  · exact h
  · exact h
  · exact h
  · exact h.setRep
  · exact h

theorem State.Keeps.readClear {o} (h : s₀.Keeps s) : s₀.Keeps (s.readClear o).2 := h.setReg

theorem State.Keeps.mgmtRead {o} (h : s₀.Keeps s) : s₀.Keeps (s.mgmtRead o).2 := by
  unfold State.mgmtRead
  extract_lets
  exact .ite_snd h (.ite_snd h (.ite_snd h.readClear (.ite_snd h.repRead (.ite_snd h.faultRead (.ite_snd h
    (.ite_snd h.counterRead (.ite_snd h.readClear (.ite_snd h (.ite_snd h h)))))))))

theorem State.Keeps.mgmtWrite {o v} (h : s₀.Keeps s) : s₀.Keeps (s.mgmtWrite o v) := by
  unfold State.mgmtWrite
  extract_lets
  refine h.store.ite (.ite ?_ (h.eventQueueWrite.ite (h.eventQueueWrite.ite (h.maskedWrite.admitPosts.ite
    ((h.post.ite h).ite (((h.ite h.replayBegin).post.ite h).ite ((h.maskedWrite.setHub.post.ite h.maskedWrite).ite
    ((h.post.ite h).ite (h.maskedWrite.upd.ite ((h.maskedWrite.ite h.maskedWrite.upd).ite (h.actkWrite.ite (h.ringWrite.ite
    (h.debugCommand.ite (h.rrcfgWrite.ite (h.portWrite.ite ?_)))))))))))))))
  · split
    · exact h.qcfgWrite
    · exact h.qcfgWrite
    · exact h.qcfgWrite
    · exact h.maskedWrite
  · split
    · exact h.counterWrite
    · exact h.maskedWrite

theorem State.Keeps.execCounterWrite {unit ctr val} (h : s₀.Keeps s) : s₀.KeepsOut (execCounterWrite unit ctr val s) := by
  -- the place of a counter is a difference of large numerals, which must not be reduced: the lookup is taken out first
  generalize e : Machine.execCounterWrite = f
  delta Machine.execCounterWrite at e
  generalize counterAt = find at e
  subst e
  dsimp only
  split
  · exact .ite (.next h.counterWrite) (.next h)
  · exact .next h

theorem State.Keeps.execCounterTick {unit ctr n} (h : s₀.Keeps s) : s₀.KeepsOut (execCounterTick unit ctr n s) := by
  -- as for `execCounterWrite`
  generalize e : Machine.execCounterTick = f
  delta Machine.execCounterTick at e
  generalize counterAt = find at e
  subst e
  dsimp only
  split
  · exact .ite (.next h.count) (.next h)
  · exact .next h

/-! ### Machine/Order.lean -/

theorem State.Keeps.setReplay {c r} (h : s₀.Keeps s) : s₀.Keeps (s.setReplay c r) := h.upd

theorem State.Keeps.rrPut {c v} (h : s₀.Keeps s) : s₀.Keeps (s.rrPut c v) := h.store.setReg

theorem State.Keeps.closeChunk {k} (h : s₀.Keeps s) : s₀.Keeps (s.closeChunk k) := h.upd.rrPut

theorem State.Keeps.recordOp {c unit ident} (h : s₀.Keeps s) (e : s.recordOp c unit ident = some t) : s₀.Keeps t := by
  unfold State.recordOp at e
  split at e
  · cases e
  · split at e
    · cases e; exact h.upd
    · split at e <;> cases e
      · exact h.upd.upd
      · exact h.closeChunk.upd

theorem State.Keeps.rrPull {c} (h : s₀.Keeps s) : s₀.Keeps (s.rrPull c) := h.setReplay.setReg

theorem State.Keeps.setDiverged {c} (h : s₀.Keeps s) : s₀.Keeps (s.setDiverged c) := h.hwSet

theorem State.Keeps.diverge {grp pc reason addr check} (h : s₀.Keeps s) : s₀.Keeps (s.diverge grp pc reason addr check) :=
  h.trapLater

theorem State.Keeps.noteHeld {o} (h : s₀.Keeps s) : s₀.Keeps (s.noteHeld o) := h.ite h.setReplay

theorem State.Keeps.passGate {o} (h : s₀.Keeps s) : s₀.Keeps (s.passGate o) := by
  unfold State.passGate
  extract_lets
  split
  · exact h.setReplay.ite (h.setReplay.diverge.ite (h.setReplay.diverge.ite h.setReplay))
  · exact h.setReplay

theorem State.Keeps.gate {o} (h : s₀.Keeps s) : s₀.Keeps (s.gate o).state := by
  unfold State.gate
  extract_lets wait s₁ r s₂ _ s₃
  have hw : s₀.Keeps wait.state := h.noteHeld
  have h₁ : s₀.Keeps s₁ := h.rrPull
  have h₃ : s₀.Keeps s₃ := h₁.setReplay.setDiverged.noteHeld.setReplay
  clear_value wait r s₃
  refine .ite_gate ?_ (.ite_gate ?_ h)
  · split
    · next e => exact (h.recordOp e).passGate
    · exact hw
  · refine .ite_gate (.ite_gate h₁.passGate hw) ?_
    split
    · exact .ite_gate hw (.ite_gate h₃.passGate h₃)
    · split
      · exact .ite_gate h₁.setReplay.passGate hw
      · exact hw

theorem State.Keeps.execOrderChunkTimeout {ctx grp} (h : s₀.Keeps s) : s₀.KeepsOut (execOrderChunkTimeout ctx grp s) := by
  unfold Machine.execOrderChunkTimeout
  split
  · exact .next h
  · exact .ite (.next h.closeChunk) (.next h)

theorem State.Keeps.feedCrc {g l} (h : s₀.Keeps s) : s₀.Keeps (s.feedCrc g l) := h.ite h.updGrp

theorem State.Keeps.checkGroup {c mode ident crc} (h : s₀.Keeps s) : s₀.Keeps (s.checkGroup c mode ident crc).2 := by
  unfold State.checkGroup
  extract_lets
  refine .ite_snd h.rrPut.rrPut (.ite_snd ?_ h)
  split
  · exact h.rrPull.setDiverged
  · exact .ite_snd h.rrPull.setReplay h.rrPull.setReplay.setDiverged

theorem State.Keeps.groupCheckpoint {g pc} (h : s₀.Keeps s) : s₀.Keeps (s.groupCheckpoint g pc) := by
  unfold State.groupCheckpoint
  extract_lets
  split
  · next e => exact h.checkGroup.snd e
  · next e => exact (h.checkGroup.snd e).diverge

theorem State.Keeps.gridCheckpoint {c mode grid} (h : s₀.Keeps s) : s₀.Keeps (s.gridCheckpoint c mode grid) := by
  unfold State.gridCheckpoint
  extract_lets
  refine (h.foldl fun _ _ h => h.closeChunk).rrPut.rrPut.ite (.ite ?_ h)
  split
  · exact h.rrPull.setReplay
  · exact h.rrPull.setReplay.ite h.rrPull.setReplay.setDiverged.postEvent

theorem State.Keeps.watched {i ctx lanes k va n} (h : s₀.Keeps s) : s₀.Keeps (s.watched i ctx lanes k va n) := by
  unfold State.watched
  extract_lets
  split
  · exact h
  · exact h.requestFreeze.ite (h.ite h.updGrp)

/-! ### Machine/Replicate.lean -/

theorem State.Keeps.applyWords {d p} (h : s₀.Keeps s) : s₀.Keeps (s.applyWords d p) :=
  h.foldl fun _ _ h => h.store.setRep.ite h

theorem State.Keeps.applyPacket {d p} (h : s₀.Keeps s) : s₀.Keeps (s.applyPacket d p) := h.applyWords.setRep

theorem State.Keeps.sendPacket {d p} (h : s₀.Keeps s) : s₀.Keeps (s.sendPacket d p) :=
  (h.upd.ite h.upd.setRep).foldl fun _ _ h => h.post

theorem State.Keeps.emit {d info ctx va line wmask} (h : s₀.Keeps s) : s₀.Keeps (s.emit d info ctx va line wmask) :=
  h.fresh.setRep.sendPacket.count.post.ite h.fresh.setRep.sendPacket.count

theorem State.Keeps.repEvent {k die who ended v10 v18} (h : s₀.Keeps s) : s₀.Keeps (s.repEvent k die who ended v10 v18) :=
  h.ite h.hwSet.postEvent

theorem State.Keeps.lagEvent {j ended} (h : s₀.Keeps s) : s₀.Keeps (s.lagEvent j ended) := h.repEvent

theorem State.Keeps.beginLag {d n} (h : s₀.Keeps s) : s₀.Keeps (s.beginLag d n) := h.setRep.lagEvent

theorem State.Keeps.watchStuck (h : s₀.Keeps s) : s₀.Keeps s.watchStuck := h.foldl fun _ _ h => h.ite h.setRep

/-! ### Machine/Access.lean -/

theorem State.Keeps.deferLanes {i lanes cause detail addr} (h : s₀.Keeps s) :
    s₀.Keeps (s.deferLanes i lanes cause detail addr) :=
  h.updGrp.ite h

theorem State.Keeps.wordDone {w} (h : s₀.Keeps s) : s₀.Keeps (s.wordDone w) :=
  h.setSys.setSys.ite (h.setSys.ite ((h.setSys.acquire.ite h.setSys).setSys.post))

theorem State.Keeps.wordStep {tok n f} (h : s₀.Keeps s) : s₀.Keeps (s.wordStep tok n f) := by
  unfold State.wordStep
  extract_lets
  split
  · exact h
  · exact h.wordDone.ite h.setSys

theorem State.Keeps.deliver {i a v} (h : s₀.Keeps s) : s₀.Keeps (s.deliver i a v) := h.wordStep

theorem State.Keeps.failAcc {i a cause detail} (h : s₀.Keeps s) : s₀.Keeps (s.failAcc i a cause detail) :=
  h.wordStep.ite h.deferLanes.wordStep

theorem State.Keeps.makeRoom {α} {ways lineOf setOf line} {l : Tab α} (h : s₀.Keeps s) :
    s₀.Keeps (s.makeRoom ways lineOf setOf line l).2 := by
  unfold State.makeRoom
  extract_lets
  refine .ite_snd h ?_
  split
  · next e => split <;> exact h.freeVal.snd e

theorem State.Keeps.l1Put {core sec x} (h : s₀.Keeps s) : s₀.Keeps (s.l1Put core sec x) := by
  unfold State.l1Put
  exact h.makeRoom.updCore

theorem State.Keeps.icachePut {core line x} (h : s₀.Keeps s) : s₀.Keeps (s.icachePut core line x) := by
  unfold State.icachePut
  exact .updCore (.ite_snd h h.makeRoom)

theorem State.Keeps.l1Store {core a} (h : s₀.Keeps s) : s₀.Keeps (s.l1Store core a) := by
  unfold State.l1Store
  extract_lets
  split
  · exact h.setSys
  · exact h.setSys.updCore

theorem State.Keeps.l1Drop {core sec} (h : s₀.Keeps s) : s₀.Keeps (s.l1Drop core sec) := h.updCore.setSys

theorem State.Keeps.migQueue {t pa} (h : s₀.Keeps s) : s₀.Keeps (s.migQueue t pa) := h.setSys

theorem State.Keeps.migLeave {t} (h : s₀.Keeps s) : s₀.Keeps (s.migLeave t) := h.setSys

theorem State.Keeps.recallFirst {leaf d pa atomic} (h : s₀.Keeps s) (e : s.recallFirst leaf d pa atomic = some t) :
    s₀.Keeps t := by
  unfold State.recallFirst at e
  split at e
  · cases e; exact h
  · split at e <;> cases e
    exact h.recallSub

theorem State.Keeps.noteRecall {rank r} (h : s₀.Keeps s) : s₀.Keeps (s.noteRecall rank r) := h.ite h.setSys

theorem State.Keeps.ownWrite {leaf d pa} (h : s₀.Keeps s) : s₀.Keeps (s.ownWrite leaf d pa) := by
  unfold State.ownWrite
  extract_lets
  refine h.ite ?_
  split
  · exact h.ite h.setSys
  · exact (h.recallSub.ite h).ite ((h.recallSub.ite h).setSys)

theorem State.Keeps.setTag {pa t} (h : s₀.Keeps s) : s₀.Keeps (s.setTag pa t) := h.setByte

theorem State.Keeps.storeMasked {pa a} (h : s₀.Keeps s) : s₀.Keeps (s.storeMasked pa a) :=
  h.foldl fun _ _ h => h.setByte.ite h

theorem State.Keeps.mbarNotice (h : s₀.Keeps s) : s₀.Keeps s.mbarNotice := h.ite h.setHub

theorem State.Keeps.perform {eng d leaf pa0 a} (h : s₀.Keeps s) : s₀.Keeps (s.perform eng d leaf pa0 a).2 := by
  unfold State.perform
  extract_lets
  split
  · exact h
  · split
    · exact h.storeMasked
    · exact h
    · exact h
  · split
    · exact h.mgmtRead
    · exact h.mgmtWrite
    · extract_lets s₁
      have h₁ : s₀.Keeps s₁.2 := h.mgmtRead
      split
      · exact h₁.mgmtWrite
      · exact h₁
    · exact h
  · split
    · exact h.l2Touch
    · exact (h.ite h.ownWrite).storeMasked.l2Touch.mbarNotice
    · split
      · exact h.store.l2Touch.mbarNotice
      · exact h.l2Touch
    · exact h
    · exact h.setTag
    · exact (h.setSys.ite h).setSys.ite (h.setSys.ite h)

theorem State.Keeps.countReq {pa} (h : s₀.Keeps s) : s₀.Keeps (s.countReq pa) := by
  unfold State.countReq
  split
  · exact h.count
  · exact h

theorem State.Keeps.serve {ctx eng d leaf pa a} (h : s₀.Keeps s) : s₀.Keeps (s.serve ctx eng d leaf pa a).2 := by
  unfold State.serve
  extract_lets
  split
  · exact h
  · exact h.perform

theorem State.Keeps.heatCount {core write l} (h : s₀.Keeps s) : s₀.Keeps (s.heatCount core write l) :=
  h.foldl fun _ _ h => h.setSys

theorem State.Keeps.heatAgent {core id write pa leaf} (h : s₀.Keeps s) : s₀.Keeps (s.heatAgent core id write pa leaf) :=
  h.ite h.setSys.heatCount

/-! ### Machine/Issue.lean -/

theorem State.Keeps.probe {x sp a} (h : s₀.Keeps s) : s₀.Keeps (s.probe x sp a).2 := by
  unfold State.probe
  extract_lets _ r _ q
  have hr : s₀.Keeps r.2 := h.translate
  clear_value q
  refine .ite_snd hr ?_
  split
  · exact hr
  · exact hr
  · exact .ite_snd hr hr

theorem State.Keeps.checkLane {x sp a} (h : s₀.Keeps s) : s₀.Keeps (s.checkLane x sp a).2 :=
  .ite_snd h (.ite_snd h (.foldl_snd h fun _ _ h => h.probe))

theorem State.Keeps.putPeer {q} (h : s₀.Keeps s) : s₀.Keeps (s.putPeer q) := h.upd

theorem State.Keeps.markReady (h : s₀.Keeps s) : s₀.Keeps s.markReady := h.foldl fun _ _ h => h.fresh.putPeer

theorem State.Keeps.send {x i leaf l} (h : s₀.Keeps s) : s₀.Keeps (s.send x i leaf l) := by
  unfold State.send
  extract_lets s₁
  have h₁ : s₀.Keeps s₁ := h.markReady.ite h
  split
  next id s₂ e =>
  have h₂ := h₁.fresh.snd e
  refine h₂.upd.post.ite (h₂.upd.post.ite ?_)
  extract_lets _ s₃ _ s₄
  have h₃ : s₀.Keeps s₃ := by
    refine h₂.ite (h₂.foldl fun s p h => ?_)
    split
    · exact h.l1Store
    · exact h.l1Drop
    · exact h
  have h₄ : s₀.Keeps s₄ := h₃.setSys
  split
  · exact h₄.post.ite h₄.post
  · exact h₄

theorem State.Keeps.l1Count {x g sp l} (h : s₀.Keeps s) : s₀.Keeps (s.l1Count x g sp l) := h.count.count.count

theorem State.Keeps.sendAll {x i sp l} (h : s₀.Keeps s) : s₀.Keeps (s.sendAll x i sp l) :=
  (h.heatCount.l1Count.foldl fun _ _ h => h.send).foldl fun _ _ h => h.deliver.watched

theorem State.Keeps.sortLanes {x sp l} (h : s₀.Keeps s) : s₀.Keeps (s.sortLanes x sp l).2 := by
  refine .foldl_snd h fun r a h => ?_
  dsimp only
  split <;> exact h.checkLane

theorem State.Keeps.reportPages {core slot ctx acc path l} (h : s₀.Keeps s) :
    s₀.Keeps (s.reportPages core slot ctx acc path l) :=
  h.foldl fun _ _ h => h.faultReport

theorem State.Keeps.reportFaults {x acc path l} (h : s₀.Keeps s) : s₀.Keeps (s.reportFaults x acc path l) :=
  h.reportPages

theorem State.Keeps.issueMem {g x once lanes sp l} (h : s₀.Keeps s) : s₀.Keeps (s.issueMem g x once lanes sp l) := by
  unfold State.issueMem
  extract_lets r
  split
  next tok s₁ e =>
  extract_lets _ _ s₂ s₃ s₄ s₅ s₆ _ s₇ s₈ s₉
  have h₁ : s₀.Keeps s₁ := State.Keeps.snd (h.sortLanes.fresh) e
  have h₂ : s₀.Keeps s₂ := h₁.foldl fun _ _ h => h.deferLanes
  have h₃ : s₀.Keeps s₃ := h₂.reportFaults
  have h₄ : s₀.Keeps s₄ := h₃.ite h₃.count
  have h₅ : s₀.Keeps s₅ := h₄.updGrp
  have h₇ : s₀.Keeps s₇ := h₅.updGrp.setSys.ite h₅
  have h₈ : s₀.Keeps s₈ := h₇.ite h₇.updGrp
  have h₉ : s₀.Keeps s₉ := h₈.feedCrc.ite h₈
  exact h₉.sendAll

/-! ### Machine/Slice.lean -/

theorem State.Keeps.later {e} (h : s₀.Keeps s) : s₀.Keeps (s.later e) := h.ite h.post

theorem State.Keeps.putReq {q} (h : s₀.Keeps s) : s₀.Keeps (s.putReq q) := h.setSys

theorem State.Keeps.recallReq {q} (h : s₀.Keeps s) (e : s.recallReq q = some t) : s₀.Keeps t := by
  unfold State.recallReq at e
  split at e
  · cases e; exact h
  · dsimp only at e
    split at e
    · exact h.recallFirst e
    · cases e; exact h

theorem State.Keeps.recallLater {q e} (h : s₀.Keeps s) : s₀.Keeps (s.recallLater q e) := by
  unfold State.recallLater
  split
  · exact h.later
  · exact h.noteRecall.later

theorem State.Keeps.startFill {core ctx owner leaf pa0 noLease} (h : s₀.Keeps s) :
    s₀.Keeps (s.startFill core ctx owner leaf pa0 noLease) :=
  (h.l1Drop.l2Touch.fresh.ite h.l1Drop.l2Touch.fresh.raiseLexp).setSys.post

theorem State.Keeps.performAcc {q p} (h : s₀.Keeps s) : s₀.Keeps (s.performAcc q p).2 := by
  unfold State.performAcc
  extract_lets s₁ _ s₂
  have h₁ : s₀.Keeps s₁.2 := h.serve
  have h₂ : s₀.Keeps s₂ := by
    unfold s₂
    split
    · exact h₁.watched
    · exact h₁
  split
  · exact h₁.failAcc.ite h₁.deferLanes
  · exact (h₂.deliver.ite h₂).startFill.ite (h₂.deliver.ite h₂)

theorem State.Keeps.trimReq {id l} (h : s₀.Keeps s) : s₀.Keeps (s.trimReq id l) := h.setSys

theorem State.Keeps.emitStores {q l} (h : s₀.Keeps s) : s₀.Keeps (s.emitStores q l) := by
  unfold State.emitStores
  extract_lets
  split
  · exact h
  · exact h.emit

theorem State.Keeps.failSplit {q lane} (h : s₀.Keeps s) : s₀.Keeps (s.failSplit q lane) := by
  unfold State.failSplit
  extract_lets
  split
  · exact h
  · exact h.setSys.deferLanes.wordStep.ite h.setSys.deferLanes

theorem State.Keeps.performReq {q l} (h : s₀.Keeps s) : s₀.Keeps (s.performReq q l) := by
  unfold State.performReq
  extract_lets s₁ _ l₁ s₂ s₃ s₄
  have h₁ : s₀.Keeps s₁ := (h.foldl fun _ _ h => h.failSplit).ite h
  have h₂ : s₀.Keeps s₂ := h₁.trimReq
  have h₃ : s₀.Keeps s₃ := by
    unfold s₃
    clear_value l₁ s₂
    split
    · exact h₂.countReq.ite h₂
    · exact h₂
  have h₄ : s₀.Keeps s₄.2 := .foldl_snd h₃ fun _ _ h => h.performAcc
  exact h₄.emitStores.ite h₄

theorem State.Keeps.reqWaits {q pa again} (h : s₀.Keeps s) : s₀.Keeps (s.reqWaits q pa again) :=
  h.migQueue.putReq.ite h.migQueue.later

theorem State.Keeps.askLag {d} (h : s₀.Keeps s) : s₀.Keeps (s.askLag d) := h.later.ite h

theorem State.Keeps.execL2SliceRequest {req lanes} (h : s₀.Keeps s) : s₀.KeepsOut (execL2SliceRequest req lanes s) := by
  unfold Machine.execL2SliceRequest
  extract_lets
  split
  · exact .next h
  · extract_lets
    refine .ite (.next h) (.ite (.next h.later) (.ite (.next h.reqWaits) (.ite (.next h.later) (.ite (.next h.askLag.later)
      (.ite (.next h.putReq) ?_)))))
    split
    · exact .next h.recallLater
    · next e =>
      have h₁ := h.recallReq e
      exact .ite (.next h₁.putReq.post) (.next (h₁.performReq.later.ite h₁.performReq))

theorem State.Keeps.gateLanes {o q l} (h : s₀.Keeps s) : s₀.Keeps (s.gateLanes o q l).2.2 := by
  induction l generalizing s with
  | nil => exact h
  | cons p l ih =>
    unfold State.gateLanes
    extract_lets logged
    generalize hr : (if logged then s.gate { o with addr := p.acc.va } else Gate.go s) = r
    have h₁ : s₀.Keeps r.state := by
      subst hr
      exact .ite_gate h.gate h
    cases r with
    | hold s => exact h₁
    | go s => exact ih h₁

theorem State.Keeps.atomReq {q again} (h : s₀.Keeps s) : s₀.Keeps (s.atomReq q again) := by
  unfold State.atomReq
  split
  · exact h.recallLater
  · next e =>
    refine ((h.recallReq e).later.ite ((h.recallReq e).putReq.post)).ite ?_
    split
    · exact h.recallReq e
    · extract_lets _ s₁ s₂
      have h₁ : s₀.Keeps s₁.2.2 := (h.recallReq e).gateLanes
      have h₂ : s₀.Keeps s₂ := h₁.ite h₁.performReq
      exact h₂.ite h₂.later

theorem State.Keeps.execAtomicAtHome {req lane} (h : s₀.Keeps s) : s₀.KeepsOut (execAtomicAtHome req lane s) := by
  unfold Machine.execAtomicAtHome
  extract_lets
  split
  · exact .next h
  · split
    · exact .next h
    · exact .ite (.next h) (.ite (.next h.later) (.ite (.next h.reqWaits) (.ite (.next h.putReq) (.next h.atomReq))))

theorem State.Keeps.execStrongHoldRelease {req} (h : s₀.Keeps s) : s₀.KeepsOut (execStrongHoldRelease req s) := by
  unfold Machine.execStrongHoldRelease
  extract_lets
  split
  · exact .next h
  · refine .ite (.next h) (.ite (.next h.later) (.ite (.next h.atomReq) ?_))
    split
    · exact .next h.recallLater
    · next e => exact .next ((h.recallReq e).later.ite ((h.recallReq e).performReq))

theorem State.Keeps.execL1Fill {id} (h : s₀.Keeps s) : s₀.KeepsOut (execL1Fill id s) := by
  unfold Machine.execL1Fill
  extract_lets
  split
  · exact .next h
  · exact .ite (.next h.setSys.l1Put) (.next h.setSys)

theorem State.Keeps.machineCheck {pa} (h : s₀.Keeps s) : s₀.Keeps (s.machineCheck pa) := h.setSys

theorem State.Keeps.execHbmUncorrectableError {pa} (h : s₀.Keeps s) : s₀.KeepsOut (execHbmUncorrectableError pa s) := by
  unfold Machine.execHbmUncorrectableError
  extract_lets
  split
  · exact .next h.setSys.machineCheck
  · exact .next h

theorem State.Keeps.execMigrationGo {die} (h : s₀.Keeps s) : s₀.KeepsOut (execMigrationGo die s) := by
  unfold Machine.execMigrationGo
  extract_lets
  exact .ite (.next h.later) (.ite (.next h.setHub.hwSet) (.next ((h.setHub.foldl fun _ _ h => h.foldl fun _ _ h =>
    h.recallSub.ite h).setSys.setReg.post)))

theorem State.Keeps.moveL2 {src dst n} (h : s₀.Keeps s) : s₀.Keeps (s.moveL2 src dst n) :=
  h.setSys.foldl fun _ _ h => h.l2Touch

theorem State.Keeps.setHome {base n} (h : s₀.Keeps s) : s₀.Keeps (s.setHome base n) := h.setSys

theorem State.Keeps.execMigrationCopyEnd {die} (h : s₀.Keeps s) : s₀.KeepsOut (execMigrationCopyEnd die s) := by
  unfold Machine.execMigrationCopyEnd
  split
  · exact .next h
  · refine .ite (.next h) ?_
    extract_lets _ _ _ _ s₁ s₂ s₃ _ s₄ s₅ s₆ s₇
    have h₂ : s₀.Keeps s₂ := (h.foldl fun _ _ h => h.setByte).foldl fun _ _ h => h.setByte
    have h₃ : s₀.Keeps s₃ := (h₂.foldl fun _ _ h => h.setByte).ite h₂
    have h₆ : s₀.Keeps s₆ := h₃.setSys.moveL2.setHome.foldl fun _ _ h => h.machineCheck
    have h₇ : s₀.Keeps s₇ := (h₆.setReg.ite h₆).ite h
    refine .next (h₇.setSys.foldl fun _ _ h => ?_)
    split
    · exact h.putReq.later
    · exact h.putReq

theorem State.Keeps.execMigrationRetire {die} (h : s₀.Keeps s) : s₀.KeepsOut (execMigrationRetire die s) := by
  unfold Machine.execMigrationRetire
  extract_lets
  split
  · exact .next h
  · exact .ite (.next h.setSys) (.next h)

theorem State.Keeps.addSat {pa n} (h : s₀.Keeps s) : s₀.Keeps (s.addSat pa n) := h.store

theorem State.Keeps.execPageWalk {die ctx va} (h : s₀.Keeps s) : s₀.KeepsOut (execPageWalk die ctx va s) := by
  unfold Machine.execPageWalk
  extract_lets
  split
  · next e => exact .next (((h.count.ite h).walkCached.snd e).tlbPut)
  · next e => exact .next ((h.count.ite h).walkCached.snd e)

theorem State.Keeps.redriveLane {x i l} (h : s₀.Keeps s) : s₀.Keeps (s.redriveLane x i l).2 :=
  .foldl_snd h fun _ _ h => h.probe

theorem State.Keeps.redriveFail {i l c d addr} (h : s₀.Keeps s) : s₀.Keeps (s.redriveFail i l c d addr) := by
  unfold State.redriveFail
  split
  · exact h
  · exact h.deferLanes.wordStep.ite h.deferLanes

theorem State.Keeps.redriveLog {x l} (h : s₀.Keeps s) : s₀.Keeps (s.redriveLog x l).2 := by
  unfold State.redriveLog
  extract_lets r
  have hr : s₀.Keeps r.2.2.2 := by
    refine .foldl_on (fun r : List Acc × List (Word × PageFault) × List (PAcc × Word) × State => r.2.2.2) h fun r p h => ?_
    dsimp only
    split
    · exact h.redriveLane
    · exact h.redriveLane.redriveFail
    · exact h.redriveLane
  clear_value r
  split
  · exact hr
  · exact .ite hr.reportFaults.count hr.reportFaults.count.sendAll

theorem State.Keeps.redriveGroup {g t} (h : s₀.Keeps s) : s₀.Keeps (s.redriveGroup g t) :=
  .foldl_snd h fun _ _ h => .ite_snd h h.redriveLog.updGrp

theorem State.Keeps.redriveOrphans {die ctx t} (h : s₀.Keeps s) : s₀.Keeps (s.redriveOrphans die ctx t) :=
  h.setSys.foldl fun _ _ h => h.redriveLog.ite h.redriveLog.setSys

/-! ### Machine/Memory.lean -/

theorem State.Keeps.memLanes {i hd once k} (h : s₀.Keeps s) (hk : ∀ s g x e, s₀.Keeps s → s₀.Keeps (k s g x e).1) :
    s₀.KeepsOut (memLanes i hd once s k) :=
  .ite (h.uniWord fun _ _ _ h => .ite_fst h (hk _ _ _ _ h)) (h.laneWord fun _ _ _ _ h => .ite_fst h (hk _ _ _ _ h))

theorem State.Keeps.memIssue {g x once lanes sp l} (h : s₀.Keeps s) : s₀.Keeps (s.memIssue g x once lanes sp l).1 :=
  .ite_fst h (.ite_fst ((h.later.ite h.beginLag).ite h) h.issueMem)

theorem State.Keeps.localLoad {g x once lanes f d ea} (h : s₀.Keeps s) : s₀.Keeps (s.localLoad g x once lanes f d ea).1 := by
  refine .ite_fst h ?_
  extract_lets
  split
  next tok s₁ e =>
  extract_lets _ _ _ s₂
  have h₂ : s₀.Keeps s₂ := (h.fresh.snd e).foldl fun _ _ h => h.deferLanes
  refine .ite_fst h₂ ?_
  dsimp only
  exact h₂.updGrp.count.wordDone

theorem State.Keeps.localStore {g x once lanes f src ea} (h : s₀.Keeps s) :
    s₀.Keeps (s.localStore g x once lanes f src ea).1 := by
  unfold State.localStore
  extract_lets _ _ _ _ _ _ s₁
  have h₁ : s₀.Keeps s₁ := h.foldl fun _ _ h => h.deferLanes
  exact .ite_fst h ((h₁.feedCrc.ite h₁.feedCrc.count).foldl fun _ _ h => h.updTeam)

theorem State.Keeps.oneAccess {g x i kindOk a} (h : s₀.Keeps s) : s₀.Keeps (s.oneAccess g x i kindOk a).2 := by
  unfold State.oneAccess
  extract_lets _ s₁
  have h₁ : s₀.Keeps s₁.2 := h.translate
  refine .ite_snd h (.ite_snd h ?_)
  split
  · exact h₁
  · exact h₁.faultReport.count
  · extract_lets
    refine .ite_snd h₁ (.ite_snd h₁.migQueue (.ite_snd ?_ ?_))
    · split
      · next e => exact h₁.askCounter.snd e
      · next e => exact (h₁.askCounter.snd e).watched.heatCount
    · split
      · exact h₁.noteRecall
      · next e =>
        extract_lets q s₂
        have h₂ : s₀.Keeps s₂ := (State.Keeps.of_ite_some h₁.recallFirst h₁.of_some e).serve.migLeave.countReq.heatCount
        split
        · exact h₂
        · split
          · exact h₂.watched
          · exact h₂

theorem State.Keeps.waitvTry {g} (h : s₀.Keeps s) : s₀.Keeps (s.waitvTry g) := by
  unfold State.waitvTry
  extract_lets
  split
  · extract_lets
    split
    · next e => exact h.oneAccess.snd e
    · next e => exact (h.oneAccess.snd e).suspend
    · next e => exact (h.oneAccess.snd e).deferLanes.wake
    · next e =>
      extract_lets _ _ s₁ s₂
      have h₁ : s₀.Keeps s₁ := (h.oneAccess.snd e).updGrp
      have h₂ : s₀.Keeps s₂ := by
        unfold s₂
        split
        · exact h₁.acquire
        · exact h₁
      exact h₂.wake.ite (h.oneAccess.snd e)
  · exact h

theorem State.Keeps.waitvIssue {g x seg w64 cc va cmp dl acq d} (h : s₀.Keeps s) :
    s₀.Keeps (s.waitvIssue g x seg w64 cc va cmp dl acq d).1 :=
  .ite_fst h (.ite_fst h h.updGrp.suspend.waitvTry)

theorem State.Keeps.prefetchLane {g x f va} (h : s₀.Keeps s) : s₀.Keeps (s.prefetchLane g x f va).2 := by
  unfold State.prefetchLane
  extract_lets _ s₁
  have h₁ : s₀.Keeps s₁.2 := h.translate
  refine .ite_snd h ?_
  split
  · exact h₁.ite (h₁.countReq.l2Touch.ite (h₁.countReq.startFill.ite h₁))
  · exact h₁

theorem State.Keeps.prefetchLanes {g x f l} (h : s₀.Keeps s) : s₀.Keeps (s.prefetchLanes g x f l) :=
  .heatCount (.foldl_snd h fun _ _ h => h.prefetchLane)

theorem State.Keeps.dropFills {core pa} (h : s₀.Keeps s) : s₀.Keeps (s.dropFills core pa) := h.setSys

theorem State.Keeps.execCinv {hd a off} (h : s₀.Keeps s) : s₀.KeepsOut (execCinv hd a off s) := by
  unfold Machine.execCinv
  refine h.uniWord fun s g x h => .ite_fst h.updGrp ?_
  dsimp only
  split
  · split
    · exact (h.translate.foldl fun _ _ h => h.l1Drop).dropFills
    · exact h.translate
  · exact h.translate

/-! ### Machine/Barrier.lean -/

theorem State.Keeps.barArrive {g id n} (h : s₀.Keeps s) : s₀.Keeps (s.barArrive g id n) := h.suspend.updTeam.testBar

theorem State.Keeps.cbarArrive {g} (h : s₀.Keeps s) : s₀.Keeps (s.cbarArrive g) := h.suspend.setCluster.testCbar

theorem State.Keeps.tryArrive {g} (h : s₀.Keeps s) : s₀.Keeps (s.tryArrive g) := by
  unfold State.tryArrive
  extract_lets
  split
  · exact h.barArrive.ite h
  · exact h.cbarArrive.ite h
  · exact h

theorem State.Keeps.mbarNote {pa gen g last} (h : s₀.Keeps s) : s₀.Keeps (s.mbarNote pa gen g last) := by
  unfold State.mbarNote
  extract_lets
  split
  · exact h.setHub
  · refine h.setHub.ite ?_
    split
    · exact h.setHub.setHub
    · exact h

theorem State.Keeps.mbarLeave {g i} (h : s₀.Keeps s) : s₀.Keeps (s.mbarLeave g i) := h.acquire.wake

theorem State.Keeps.mbarFail {g i c d va} (h : s₀.Keeps s) : s₀.Keeps (s.mbarFail g i c d va) :=
  (h.trapLater.ite h.deferLanes).wake

theorem State.Keeps.mbarTry {g} (h : s₀.Keeps s) : s₀.Keeps (s.mbarTry g) := by
  unfold State.mbarTry
  extract_lets x
  clear_value x
  split
  · refine h.ite ?_
    extract_lets _ peek pa due
    have hdue {t} (e : due = some t) : s₀.Keeps t := by
      unfold due at e
      split at e
      · exact h.recallFirst e
      · exact h.of_some e
    clear_value due pa
    split
    · exact h.noteRecall
    · have h₁ := hdue rfl
      extract_lets
      split
      · next e => exact h₁.oneAccess.snd e
      · next e => exact (h₁.oneAccess.snd e).suspend
      · next e => exact (h₁.oneAccess.snd e).mbarFail
      · split
        · next e => exact h₁.gate.of_hold e
        · next e =>
          have h₂ := h₁.gate.of_go e
          exact h₂.oneAccess.mbarNote.setHub.mbarLeave.post.ite h₂.oneAccess.mbarNote.setHub.suspend
  · exact h

theorem State.Keeps.mbarRewait {g} (h : s₀.Keeps s) : s₀.Keeps (s.mbarRewait g) := by
  unfold State.mbarRewait
  extract_lets
  split
  · extract_lets s₁
    have h₁ : s₀.Keeps s₁.2 := h.translate
    split
    · exact h₁.faultReport.suspend
    · exact h₁.mbarFail
    · split
      · exact h₁.mbarFail
      · exact h₁.suspend.post
  · exact h

theorem State.Keeps.execMbar {hd scope a b} (h : s₀.Keeps s) : s₀.KeepsOut (execMbar hd scope a b s) := by
  unfold Machine.execMbar
  refine h.uniWord fun s g x h => .ite_fst h.trapNow (.ite_fst h ?_)
  extract_lets _ seg
  clear_value seg
  split
  · exact h.translate.trapNow
  · exact h.updGrp.suspend.mbarTry

theorem State.Keeps.execMbarRelease {pa} (h : s₀.Keeps s) : s₀.KeepsOut (execMbarRelease pa s) := by
  unfold Machine.execMbarRelease
  refine .next (h.foldl fun _ _ h => ?_)
  split
  · exact h.ite h.mbarLeave.setHub
  · exact h

/-! ### Machine/Engine.lean -/

theorem State.Keeps.reach {ag n kindOk va} (h : s₀.Keeps s) : s₀.Keeps (s.reach ag n kindOk va).2 :=
  .ite_snd h h.translate

theorem State.Keeps.reachFault {ag va acc f} (h : s₀.Keeps s) : s₀.Keeps (s.reachFault ag va acc f) := h.faultReport

theorem State.Keeps.agentL1 {ag leaf p} (h : s₀.Keeps s) : s₀.Keeps (s.agentL1 ag leaf p) := by
  unfold State.agentL1
  extract_lets
  refine h.ite ?_
  split
  · exact h.l1Store
  · exact h.l1Drop
  · exact h

theorem State.Keeps.agentServe {ag leaf p} (h : s₀.Keeps s) : s₀.Keeps (s.agentServe ag leaf p).2 := by
  unfold State.agentServe
  extract_lets s₁
  have h₁ : s₀.Keeps s₁.2 := h.serve
  split
  · exact h₁.agentL1.watched
  · exact h₁

theorem State.Keeps.agentPeer {ag leaf l read} (h : s₀.Keeps s) : s₀.Keeps (s.agentPeer ag leaf l read).2 :=
  (h.fresh.setSys.ite h.fresh).send

theorem State.Keeps.agentWaits {ag leaf pa} (h : s₀.Keeps s) : s₀.Keeps (s.agentWaits ag leaf pa).2 :=
  .ite_snd h.migQueue h

theorem State.Keeps.agentRead {ag kindOk va n} (h : s₀.Keeps s) : s₀.Keeps (s.agentRead ag kindOk va n).2 := by
  unfold State.agentRead
  extract_lets s₁
  have h₁ : s₀.Keeps s₁.2 := h.reach
  split
  · exact h₁
  · exact h₁.reachFault
  · extract_lets _ w asks q
    have hw : s₀.Keeps w.2 := h₁.agentWaits
    have hq : s₀.Keeps q.2 := .ite_snd hw.askCounter hw
    refine .ite_snd h₁.agentPeer (.ite_snd hw (.ite_snd hq (.ite_snd hq.heatAgent
      (.foldl_snd (hw.ite hw.migLeave).countReq.heatAgent fun r p h => ?_))))
    split
    · dsimp only
      split <;> exact h.agentServe
    · exact h

theorem State.Keeps.agentWrite {ag kindOk va data} (h : s₀.Keeps s) : s₀.Keeps (s.agentWrite ag kindOk va data).2 := by
  unfold State.agentWrite
  extract_lets _ _ _ s₁
  have h₁ : s₀.Keeps s₁.2 := h.reach
  split
  · exact h₁
  · exact h₁.reachFault
  · extract_lets
    refine .ite_snd h₁.agentPeer (.ite_snd h₁.agentWaits (.ite_snd (h₁.later.ite h₁) ?_))
    split
    · exact h₁.noteRecall
    · next e =>
      extract_lets s₂ w s₃ s₄
      have h₂ : s₀.Keeps s₂ := (State.Keeps.of_ite_some h₁.of_some h₁.recallFirst e).migLeave.countReq.heatAgent
      have h₃ : s₀.Keeps s₃ := by
        refine .foldl_snd_snd h₂ fun r p h => ?_
        dsimp only
        split
        · split <;> exact h.agentServe
        · exact h
      have h₄ : s₀.Keeps s₄ := h₃.emit.ite h₃
      exact h₄.setSys.ite h₄

theorem State.Keeps.localWrite {t o l} (h : s₀.Keeps s) : s₀.Keeps (s.localWrite t o l) := h.updTeam.ite h

theorem State.Keeps.takeRaw {tok} (h : s₀.Keeps s) : s₀.Keeps (s.takeRaw tok).2 := h.setSys

theorem State.Keeps.fenceEnd {g f} (h : s₀.Keeps s) : s₀.Keeps (s.fenceEnd g f) := by
  unfold State.fenceEnd
  extract_lets _ s₁ s₂
  have h₁ : s₀.Keeps s₁ := h.updGrp.ite h.updGrp.acquire
  have h₂ : s₀.Keeps s₂ := by
    unfold s₂
    split
    · exact h₁
    · exact h₁.updGrp.trapLater
  exact h₁.ite (h₂.groupCheckpoint.ite h₂)

theorem State.Keeps.lateFencePath {grp fid part p} (h : s₀.Keeps s) : s₀.KeepsOut (s.lateFencePath grp fid part p) := by
  unfold State.lateFencePath
  extract_lets
  split
  · exact .next h
  · exact .ite (.next h) (.ite (.next h.later) (.ite (.next h.setSys.checkGroup) (.next h.setSys)))

theorem State.Keeps.execFenceComplete {grp fid part} (h : s₀.Keeps s) : s₀.KeepsOut (execFenceComplete grp fid part s) := by
  unfold Machine.execFenceComplete
  split
  · extract_lets _ s₁ s₂
    have h₁ : s₀.Keeps s₁ := h.updGrp
    have h₂ : s₀.Keeps s₂ := h₁.acquire.ite h₁
    exact .ite (.next h) (.ite (.next h.later) (.next (h₂.fenceEnd.ite h₂)))
  · exact h.lateFencePath
  · exact .next h

theorem State.Keeps.fenceIssue {g x scope each p1 p2} (h : s₀.Keeps s) : s₀.Keeps (s.fenceIssue g x scope each p1 p2) :=
  h.fresh.updGrp.foldl fun _ _ h => h.post

theorem State.Keeps.engIssue {g x eng scope op lanes} (h : s₀.Keeps s) : s₀.Keeps (s.engIssue g x eng scope op lanes) := by
  unfold State.engIssue
  dsimp only
  split <;> exact h.fresh.updGrp.setSys.post

theorem State.Keeps.engOperand {g reason} (h : s₀.Keeps s) : s₀.Keeps (s.engOperand g reason) := h.trapNow

theorem State.Keeps.execCpy {hd d a} (h : s₀.Keeps s) : s₀.KeepsOut (execCpy hd d a s) := by
  unfold Machine.execCpy
  refine h.uniWord (fun _ _ _ h => ?_)
  split
  · exact h.engOperand
  · exact .ite_fst h h.engIssue.updGrp

theorem State.Keeps.execCpyw {hd a off} (h : s₀.Keeps s) : s₀.KeepsOut (execCpyw hd a off s) := by
  unfold Machine.execCpyw
  refine h.uniWord (fun _ _ _ h => ?_)
  split
  · exact h.engOperand
  · exact .ite_fst h h.engIssue.suspend

theorem State.Keeps.execGthr {hd f d a b c} (h : s₀.Keeps s) : s₀.KeepsOut (execGthr hd f d a b c s) := by
  unfold Machine.execGthr
  extract_lets
  refine h.laneWord (fun _ _ _ _ h => ?_)
  split
  · exact h
  · extract_lets
    exact .ite_fst h.engOperand (.ite_fst h.engOperand (.ite_fst h ((h.engIssue.foldl fun _ _ h => h.updGrp).updGrp)))

theorem State.Keeps.putEng {c} (h : s₀.Keeps s) : s₀.Keeps (s.putEng c) := h.setSys

theorem State.Keeps.engNext {c} (h : s₀.Keeps s) : s₀.Keeps (s.engNext c) := by
  unfold State.engNext
  extract_lets
  refine h.putEng.later.ite ?_
  split
  · exact h.putEng.later
  · exact h.putEng

theorem State.Keeps.engPark {c row} (h : s₀.Keeps s) : s₀.Keeps (s.engPark c row) := h.engNext

theorem State.Keeps.engFill {c row sa n f} (h : s₀.Keeps s) : s₀.Keeps (s.engFill c row sa n f).2.2 := by
  induction f generalizing s c with
  | zero => exact h
  | succ f ih =>
    unfold State.engFill
    extract_lets got va k
    clear_value va k
    split
    · exact h
    · split
      · exact h
      · split
        · exact h
        · next e =>
          split
          · exact h.takeRaw.snd e
          · exact ih (h.takeRaw.snd e)
      · split
        · next e => exact ih (h.agentRead.snd e)
        · next e => exact h.agentRead.snd e
        · next e => exact h.agentRead.snd e

theorem State.Keeps.engDrain {c da data} (h : s₀.Keeps s) : s₀.Keeps (s.engDrain c da data).2 := by
  unfold State.engDrain
  split
  · exact h.localWrite
  · exact h.agentWrite

theorem State.Keeps.engPiece {c row} (h : s₀.Keeps s) : s₀.Keeps (s.engPiece c row) := by
  unfold State.engPiece
  extract_lets
  refine h.ite (h.later.ite ?_)
  split
  · exact h
  · split
    · next e =>
      have h₁ := h.engFill.snd_snd e
      split
      · next e => exact (h₁.engDrain.snd e).engNext
      · next e => exact (h₁.engDrain.snd e).engPark
      · next e => exact (h₁.engDrain.snd e).engNext
      · next e => exact (h₁.engDrain.snd e).putEng.later
    · next e => exact (h.engFill.snd_snd e).engPark
    · next e => exact (h.engFill.snd_snd e).engNext
    · next e => exact (h.engFill.snd_snd e).putEng.later

theorem State.Keeps.execCopyEngineTransfer {cmd row} (h : s₀.Keeps s) : s₀.KeepsOut (execCopyEngineTransfer cmd row s) := by
  unfold Machine.execCopyEngineTransfer
  split
  · exact .next (h.engPiece.ite h)
  · exact .next h

theorem State.Keeps.execGatherEngineTransfer {cmd lane} (h : s₀.Keeps s) :
    s₀.KeepsOut (execGatherEngineTransfer cmd lane s) := by
  unfold Machine.execGatherEngineTransfer
  split
  · exact .next (h.engPiece.ite h)
  · exact .next h

theorem State.Keeps.ewaitTry {g} (h : s₀.Keeps s) : s₀.Keeps (s.ewaitTry g) := by
  unfold State.ewaitTry
  extract_lets
  split
  · exact h.ite h.updGrp.wake
  · exact h

theorem State.Keeps.engEnd {c} (h : s₀.Keeps s) : s₀.Keeps (s.engEnd c) := by
  unfold State.engEnd
  extract_lets _ _ s₁
  have h₁ : s₀.Keeps s₁ := by
    unfold s₁
    split
    · exact h.updGrp.trapLater
    · exact h.updGrp
  refine h.ite ?_
  split
  · exact h₁.wake.ite h₁
  · exact h₁.ewaitTry

theorem State.Keeps.execEngineCommandComplete {cmd} (h : s₀.Keeps s) : s₀.KeepsOut (execEngineCommandComplete cmd s) := by
  unfold Machine.execEngineCommandComplete
  extract_lets
  split
  · exact .next h
  · exact .ite (.next h) (.ite (.next h.later) (.next h.setSys.engEnd.tryEndTeam))

/-! ### Machine/System.lean -/

theorem State.Keeps.sourcesFull {g} (h : s₀.Keeps s) : s₀.Keeps (s.sourcesFull g) := h.updGrp.eligible.ite h

theorem State.Keeps.execResultWriteback {tok} (h : s₀.Keeps s) : s₀.KeepsOut (execResultWriteback tok s) := by
  unfold Machine.execResultWriteback
  extract_lets
  split
  · exact .next h
  · exact .next h.setSys.updGrp.sourcesFull

theorem State.Keeps.sendValue {g d v} (h : s₀.Keeps s) : s₀.Keeps (s.sendValue g d v) := by
  unfold State.sendValue
  split
  · exact h
  · exact h.fresh.updGrp.setSys.post

theorem State.Keeps.softTrap {g bnd cause info} (h : s₀.Keeps s) : s₀.Keeps (s.softTrap g bnd cause info) :=
  (h.updGrp.endRun.ite h.updGrp).trapLater.settle.ite ((h.updGrp.endRun.ite h.updGrp).takeTrap)

theorem State.Keeps.rteWord {g x drop skip} (h : s₀.Keeps s) : s₀.Keeps (s.rteWord g x drop skip).1 :=
  .ite_fst h.divStack (.ite_fst h.divStack ((h.setGrp.ite h).returnFromTrap))

theorem State.Keeps.ctxWritten {w} (h : s₀.Keeps s) : s₀.Keeps (s.ctxWritten w) := by
  unfold State.ctxWritten
  extract_lets
  split
  · exact h.setSys.post.ite h
  · exact h

theorem State.Keeps.ctxWrite {g c n v d} (h : s₀.Keeps s) : s₀.Keeps (s.ctxWrite g c n v d) := by
  unfold State.ctxWrite
  extract_lets
  refine .ite (.ctxWritten ?_) (.foldl (.setHub ?_) fun _ _ h => h.post)
  · split
    · exact h.setCtx.fresh.fresh.updGrp
    · exact h.setCtx.fresh.fresh
  · split
    · exact h.setCtx.fresh.fresh.updGrp
    · exact h.setCtx.fresh.fresh

theorem State.Keeps.keepLease {core ctx} (h : s₀.Keeps s) : s₀.Keeps (s.keepLease core ctx) := h.ite h.setSys

theorem State.Keeps.execContextCsrPropagated {id core} (h : s₀.Keeps s) : s₀.KeepsOut (execContextCsrPropagated id core s) := by
  unfold Machine.execContextCsrPropagated
  split
  · exact .next h
  · extract_lets s₁ _ _ _ s₂
    have h₁ : s₀.Keeps s₁ := h.keepLease.ite h
    have h₂ : s₀.Keeps s₂ := h₁.setCtx
    exact .ite (.next h) (.ite (.next h.later) (.ite (.next h₂.setHub.ctxWritten) (.next h₂.setHub)))

theorem State.Keeps.csrWord {g x op d a addr} (h : s₀.Keeps s) : s₀.Keeps (s.csrWord g x op d a addr).1 :=
  .ite_fst h (.ite_fst (.ite_fst h.sendValue h.ctxWrite) h.setGrp)

theorem State.Keeps.recallFrame {pa n} (h : s₀.Keeps s) : s₀.Keeps (s.recallFrame pa n) :=
  h.foldl fun _ _ h => h.foldl fun _ _ h₂ => h₂.recallSub

theorem State.Keeps.tlbiDrop {t} (h : s₀.Keeps s) : s₀.Keeps (s.tlbiDrop t) := by
  unfold State.tlbiDrop
  extract_lets
  split
  · split
    · exact h.setSys.recallFrame.ite h.setSys
    · exact h.setSys
  · exact h.setSys

theorem State.Keeps.execTlbiComplete {id} (h : s₀.Keeps s) : s₀.KeepsOut (execTlbiComplete id s) := by
  unfold Machine.execTlbiComplete
  extract_lets
  split
  · exact .next h
  · exact .ite (.ite (.next h.tlbiDrop.later) (.next h.later)) (.ite (.next h.setSys) (.next h.later))

theorem State.Keeps.tlbiWord {g x b what} (h : s₀.Keeps s) : s₀.Keeps (s.tlbiWord g x b what).1 :=
  .ite_fst h (.ite_fst h.updGrp h.fresh.updGrp.setSys.post)

/-! ### Machine/Quire.lean -/

theorem State.Keeps.fillPart {core p c} (h : s₀.Keeps s) : s₀.Keeps (s.fillPart core p c) := by
  unfold State.fillPart
  exact h.updCore

theorem State.Keeps.askFill {core ctx} (h : s₀.Keeps s) : s₀.Keeps (s.askFill core ctx) := by
  unfold State.askFill
  refine h.ite ?_
  split
  · exact h.later
  · exact h

theorem State.Keeps.postFill {core ctx} (h : s₀.Keeps s) : s₀.Keeps (s.postFill core ctx) := h.askFill.ite h

theorem State.Keeps.uopLocal {g u} (h : s₀.Keeps s) : s₀.Keeps (s.uopLocal g u).2 :=
  .ite_snd h (.ite_snd h (.ite_snd h.count.setGrp (h.feedCrc.count.foldl fun _ _ h => h.updTeam)))

theorem State.Keeps.uopTouched {g x e} (h : s₀.Keeps s) : s₀.Keeps (s.uopTouched g x e) := by
  unfold State.uopTouched
  split
  · exact h.updGrp
  · exact h

theorem State.Keeps.uopServe {g x u i e} (h : s₀.Keeps s) : s₀.Keeps (s.uopServe g x u i e).2 := by
  unfold State.uopServe
  extract_lets s₁ s₂ s₃
  have h₁ : s₀.Keeps s₁ := h.l1Store.ite h
  have h₂ : s₀.Keeps s₂.2 := by
    unfold s₂
    split
    · exact h₁
    · exact h₁.perform
  have h₃ : s₀.Keeps s₃ := by
    unfold s₃
    split
    · exact h₂.watched
    · exact h₂
  exact h₃.uopTouched.startFill.ite h₃.uopTouched

theorem State.Keeps.uopAccess {g x u i e} (h : s₀.Keeps s) : s₀.Keeps (s.uopAccess g x u i e).2 := by
  unfold State.uopAccess
  extract_lets hit s₁ _
  have h₁ : s₀.Keeps s₁ := h.l1Count
  clear_value hit
  split
  · exact h₁.watched.uopTouched
  · split
    · exact h₁
    · refine .ite_snd h₁.uopServe ?_
      split
      · next e => exact (h₁.recallFirst e).uopServe
      · exact h₁.send.updGrp

theorem State.Keeps.uopReqs {g x u l} (h : s₀.Keeps s) : s₀.Keeps (s.uopReqs g x u l) :=
  h.foldl fun _ _ h => h.countReq

theorem State.Keeps.uopGlobal {g u} (h : s₀.Keeps s) : s₀.Keeps (s.uopGlobal g u).2 := by
  unfold State.uopGlobal
  extract_lets _ _ _ s₁ _ _ _ _ _ _ _ _ _ w
  have h₁ : s₀.Keeps s₁.2 := h.sortLanes
  have hw : s₀.Keeps w.2.2 := by
    refine .foldl_snd_snd h₁.migLeave.uopReqs.heatCount fun r e h => ?_
    dsimp only
    split <;> exact h.uopAccess
  refine .ite_snd h (.ite_snd h₁ (.ite_snd h₁.reportFaults.count.updGrp (.ite_snd ?_
    (.ite_snd (h₁.foldl fun _ _ h => h.askCounter)
      (.ite_snd hw.dropKept (.ite_snd hw.dropKept.updGrp hw.dropKept.feedCrc))))))
  split
  · exact h₁.migQueue
  · exact h₁

theorem State.Keeps.pauseGroup {g} (h : s₀.Keeps s) : s₀.Keeps (s.pauseGroup g) := h.releasePort.updGrp

theorem State.Keeps.stopForSave {g} (h : s₀.Keeps s) : s₀.Keeps (s.stopForSave g) := h.pauseGroup.ite h

theorem State.Keeps.quireTrap {g cause reason subc subd lanes addr} (h : s₀.Keeps s) :
    s₀.Keeps (s.quireTrap g cause reason subc subd lanes addr) :=
  h.setGrp.trapLater.ite h.setGrp.takeTrap

theorem State.Keeps.uopExec {g u w} (h : s₀.Keeps s) : s₀.Keeps (s.uopExec g u w).2 := by
  unfold State.uopExec
  extract_lets _ _ _ s₁
  have h₁ : s₀.Keeps s₁.2 := .ite_snd h (.ite_snd h.freeVal h)
  split
  · exact h
  · split
    · exact h
    · exact h.setGrp
    · exact h.setGrp
    · exact .ite_snd h.uopGlobal h.uopLocal
    · exact .ite_snd h.uopGlobal h.uopLocal
    · exact h
    · exact .ite_snd h₁.setGrp (.ite_snd h.setGrp h.setGrp)
    · exact h.setGrp

theorem State.Keeps.uopCount {g} (h : s₀.Keeps s) : s₀.Keeps (s.uopCount g) := h.updGrp.count

theorem State.Keeps.quireNext {g bnd w} (h : s₀.Keeps s) : s₀.Keeps (s.quireNext g bnd w) := by
  unfold State.quireNext
  extract_lets
  refine h.quireTrap.ite (h.updGrp.quireTrap.ite ?_)
  split
  · exact h.updGrp
  · extract_lets
    refine h.quireTrap.ite ?_
    split
    · next e => exact h.uopExec.snd e
    · next e => exact (h.uopExec.snd e).quireTrap
    · next e => exact (h.uopExec.snd e).updGrp.suspend.retire
    · next e => exact (h.uopExec.snd e).uopCount.updGrp
    · next e => exact (h.uopExec.snd e).uopCount.updGrp.retire

theorem State.Keeps.quireStep {g bnd w} (h : s₀.Keeps s) : s₀.Keeps (s.quireStep g bnd w) :=
  h.quireNext.ite h.quireNext.stopForSave

theorem State.Keeps.boundIssue {g x i hd k w} (h : s₀.Keeps s) : s₀.Keeps (s.boundIssue g x i hd k w).1 := by
  unfold State.boundIssue
  extract_lets
  split
  · exact h.decodeTrap
  · refine .ite_fst h.quireTrap (.ite_fst h (h.withPolicy ?_))
    split
    · exact h.askFill
    · exact .ite_fst h.quireTrap h.updCore.setGrp

theorem State.Keeps.execBoundOpcode {hd k d a b c fn} (h : s₀.Keeps s) : s₀.KeepsOut (execBoundOpcode hd k d a b c fn s) := by
  unfold Machine.execBoundOpcode
  extract_lets
  split
  · trivial
  · exact .ite (.next h.quireStep) (h.word (fun _ _ _ h => h.boundIssue))

theorem State.Keeps.imageBytes {ag f va n} (h : s₀.Keeps s) : s₀.Keeps (s.imageBytes ag f va n).2 := by
  induction f generalizing s va n with
  | zero => exact h
  | succ f ih =>
    unfold State.imageBytes
    refine .ite_snd h ?_
    dsimp only
    split
    · next e =>
      have hr := h.reach.snd e
      split
      · next e =>
        split <;> exact ih (hr.agentRead.snd e)
      · next e => exact hr.agentRead.snd e
      · next e => exact hr.agentRead.snd e
      · next e => exact hr.agentRead.snd e
    · next e => exact h.reach.snd e

theorem State.Keeps.readImage {ag va off} (h : s₀.Keeps s) : s₀.Keeps (s.readImage ag va off).2 := by
  unfold State.readImage
  extract_lets
  split
  · next e => exact h.imageBytes.snd e
  · next e =>
    have h₁ := h.imageBytes.snd e
    extract_lets
    refine .ite_snd h₁ (.ite_snd h₁ ?_)
    split
    · next e => exact h₁.imageBytes.snd e
    · next e =>
      extract_lets
      split <;> exact h₁.imageBytes.snd e

theorem State.Keeps.execQload {hd a b c} (h : s₀.Keeps s) : s₀.KeepsOut (execQload hd a b c s) := by
  unfold Machine.execQload
  refine h.uniWord fun s g x h => ?_
  extract_lets _ _ n ag
  clear_value n
  refine .ite_fst h.trapNow (.ite_fst h.trapNow (.ite_fst h ?_))
  split
  · next e => exact h.readImage.snd e
  · next e => exact (h.readImage.snd e).migLeave.trapNow
  · next e =>
    extract_lets s₁
    have h₁ : s₀.Keeps s₁ := (h.readImage.snd e).migLeave
    exact .ite_fst h₁.trapNow h₁.setBytes.setReg.suspend.later

theorem State.Keeps.execQloadComplete {grp} (h : s₀.Keeps s) : s₀.KeepsOut (execQloadComplete grp s) := by
  unfold Machine.execQloadComplete
  split
  · extract_lets _ s₁
    have h₁ : s₀.Keeps s₁ := by
      unfold s₁
      refine h.foldl fun _ _ h => ?_
      split
      · exact h.fillPart.updCore
      · exact h
    exact .next (h₁.wake.ite h₁.suspend)
  · exact .next h

/-! ### Machine/Launch.lean -/

theorem State.Keeps.setQueue {q k} (h : s₀.Keeps s) : s₀.Keeps (s.setQueue q k) := h.setHub

theorem State.Keeps.enqueue {r children} (h : s₀.Keeps s) : s₀.Keeps (s.enqueue r children) := h.fresh.setQueue

theorem State.Keeps.bucketEnter {b} (h : s₀.Keeps s) : s₀.Keeps (s.bucketEnter b) := h.setHub.enqueue.ite h

theorem State.Keeps.bucketsEnter (h : s₀.Keeps s) : s₀.Keeps s.bucketsEnter := h.foldl fun _ _ h => h.bucketEnter

theorem State.Keeps.closeBuckets {p} (h : s₀.Keeps s) : s₀.Keeps (s.closeBuckets p) := h.setHub.bucketsEnter

theorem State.Keeps.closeDue (h : s₀.Keeps s) : s₀.Keeps s.closeDue := h.closeBuckets

theorem State.Keeps.addChild {l key param} (h : s₀.Keeps s) : s₀.Keeps (s.addChild l key param) := by
  unfold State.addChild
  extract_lets _ opened s₁ s₂
  have h₁ : s₀.Keeps s₁ := by
    unfold s₁
    clear_value opened
    refine h.ite ?_
    split
    · exact h.closeBuckets
    · exact h
  exact (h.ite h₁.setHub).setHub.closeBuckets

theorem State.Keeps.acceptLaunch {r l} (h : s₀.Keeps s) : s₀.Keeps (s.acceptLaunch r l) := by
  unfold State.acceptLaunch
  extract_lets
  split
  · exact h.count.addChild
  · exact h.count.closeBuckets.enqueue

theorem State.Keeps.launchDone {r st} (h : s₀.Keeps s) : s₀.Keeps (s.launchDone r st) := by
  unfold State.launchDone
  extract_lets
  split
  · exact h.setHub
  · exact h.setHub.ite h.setHub.setSys.post

theorem State.Keeps.launchTry {r} (h : s₀.Keeps s) : s₀.Keeps (s.launchTry r) := by
  unfold State.launchTry
  extract_lets
  refine h.ite ?_
  split
  · next e => exact ((h.agentRead.snd e).acceptLaunch.ite (h.agentRead.snd e)).launchDone
  · next e => exact h.ite ((h.agentRead.snd e).count.setHub)
  · next e => exact (h.agentRead.snd e).deferLanes.launchDone
  · next e => exact h.agentRead.snd e

theorem State.Keeps.launchAll (h : s₀.Keeps s) : s₀.Keeps s.launchAll :=
  h.ite (h.closeDue.foldl fun _ _ h => h.launchTry)

theorem State.Keeps.launchWord {g x d a agg} (h : s₀.Keeps s) : s₀.Keeps (s.launchWord g x d a agg).1 :=
  .ite_fst h.trapNow (.ite_fst h h.fresh.updGrp.setHub)

theorem State.Keeps.placeTeam {k key cluster core m t} (h : s₀.Keeps s) : s₀.Keeps (s.placeTeam k key cluster core m t) :=
  (h.upd.foldl fun _ _ h => h.setGrp).updCore.postFill

theorem State.Keeps.openGrid {q k} (h : s₀.Keeps s) : s₀.Keeps (s.openGrid q k).2 := .ite_snd h h.setReplay

theorem State.Keeps.placeHead {q k cores} (h : s₀.Keeps s) : s₀.Keeps (s.placeHead q k cores) := by
  unfold State.placeHead
  split
  next k s₁ e =>
  split
  next cl s₂ e' =>
  extract_lets _ _ _ s₃ _ s₄ s₅ s₆ _ _ s₇ s₈
  have h₂ : s₀.Keeps s₂ := (h.openGrid.snd e).fresh.snd e'
  have h₄ : s₀.Keeps s₄ := h₂.upd.setCluster
  have h₅ : s₀.Keeps s₅ := (h₄.foldl fun _ _ h => h.dropLeases).ite h₄
  have h₆ : s₀.Keeps s₆ := h₅.foldl fun _ _ h => h.placeTeam
  have h₇ : s₀.Keeps s₇ := h₆.setHub
  have h₈ : s₀.Keeps s₈ := h₇.ite h₇.setCtxState
  exact h₈.setQueue.setHub.bucketsEnter.ite h₈

theorem State.Keeps.execLaunchPlacement {queue cores} (h : s₀.Keeps s) : s₀.KeepsOut (execLaunchPlacement queue cores s) := by
  unfold Machine.execLaunchPlacement
  split
  · exact .next h
  · exact .ite (.next h.placeHead) (.next h)

theorem State.Keeps.completionWrite {k} (h : s₀.Keeps s) : s₀.Keeps (s.completionWrite k).2 := by
  unfold State.completionWrite
  extract_lets
  refine .ite_snd h ?_
  split
  · exact h
  · split
    · next e => exact h.reach.snd e
    · next e => exact h.reach.snd e
    · next e =>
      have h₁ := h.reach.snd e
      extract_lets _ _ _ w
      have hw : s₀.Keeps w.2 := h₁.agentWaits
      refine .ite_snd h₁.agentPeer (.ite_snd hw ?_)
      split
      · exact hw.noteRecall
      · next e =>
        have h₂ := hw.recallFirst e
        extract_lets s₃
        have h₃ : s₀.Keeps s₃ := h₂.holdLine
        refine .ite_snd ?_ (.ite_snd ?_ ?_)
        · dsimp only
          exact h₂.holdLine
        · split
          · next e => exact h₃.migLeave.countReq.agentServe.snd e
          · next e => exact h₃.migLeave.countReq.agentServe.snd e
        · split
          · next e => exact h₃.agentWrite.snd e
          · next e => exact h₃.agentWrite.snd e
          · next e => exact h₃.agentWrite.snd e
          · next e => exact h₃.agentWrite.snd e

theorem State.Keeps.completionReport {k w} (h : s₀.Keeps s) : s₀.Keeps (s.completionReport k w) := by
  unfold State.completionReport
  split
  · exact h.postCtxFault
  · exact h

theorem State.Keeps.putGrid {k} (h : s₀.Keeps s) : s₀.Keeps (s.putGrid k) := h.setHub

theorem State.Keeps.gridEnd {k} (h : s₀.Keeps s) : s₀.Keeps (s.gridEnd k) :=
  (h.setHub.ite h.setHub.signal).setQueue.gridCheckpoint

theorem State.Keeps.execGridComplete {grid} (h : s₀.Keeps s) : s₀.KeepsOut (execGridComplete grid s) := by
  unfold Machine.execGridComplete
  extract_lets
  split
  · exact .next h
  · split
    · refine .ite (.next h.later) ?_
      split
      · next e => exact .next ((h.completionWrite.snd e).later)
      · next e => exact .next ((h.completionWrite.snd e).putGrid.later)
      · next e => exact .next ((h.completionWrite.snd e).completionReport.putGrid.later)
    · refine .ite (.next h) (.ite (.next h.later) (.ite (.next h.gridEnd) ?_))
      split
      · next e => exact .next ((h.completionWrite.snd e).later)
      · next e => exact .next ((h.completionWrite.snd e).putGrid.later)
      · next e => exact .next ((h.completionWrite.snd e).completionReport.gridEnd)

/-! ### Machine/Replic.lean -/

theorem State.Keeps.execVread {hd d} (h : s₀.Keeps s) : s₀.KeepsOut (execVread hd d s) := by
  unfold Machine.execVread
  refine h.uniWord (fun _ _ _ h => .ite_fst h ?_)
  split
  · exact h.updGrp
  · exact h

theorem State.Keeps.vwaitTry {g} (h : s₀.Keeps s) : s₀.Keeps (s.vwaitTry g) := by
  unfold State.vwaitTry
  extract_lets
  split
  · exact h.updGrp.acquire.wake.ite h
  · exact h

theorem State.Keeps.suspendReplay {g acc l} (h : s₀.Keeps s) : s₀.Keeps (s.suspendReplay g acc l) := h.updGrp.suspend

theorem State.Keeps.execVerchk {hd eq d a b} (h : s₀.Keeps s) : s₀.KeepsOut (execVerchk hd eq d a b s) := by
  unfold Machine.execVerchk
  refine h.uniWord fun s g x h => .ite_fst h (.ite_fst h.trapNow (.ite_fst h ?_))
  extract_lets
  split
  · next e => exact h.oneAccess.snd e
  · next e => exact (h.oneAccess.snd e).suspendReplay
  · next e => exact (h.oneAccess.snd e).deferLanes
  · next e => exact (h.oneAccess.snd e).updGrp.acquire.ite (h.oneAccess.snd e).updGrp

theorem State.Keeps.takeLink {d id k x} (h : s₀.Keeps s) (e : s.takeLink d id k = some x) : s₀.Keeps x.2 := by
  unfold State.takeLink at e
  split at e
  · cases e
  · split at e <;> cases e
    exact h.upd

theorem State.Keeps.takeLink_map {d id k} (h : s₀.Keeps s) (e : (s.takeLink d id k).map Prod.snd = some t) : s₀.Keeps t := by
  obtain ⟨x, hx, rfl⟩ := Option.map_eq_some_iff.mp e
  exact h.takeLink hx

theorem State.Keeps.applyArrived {d p} (h : s₀.Keeps s) : s₀.Keeps (s.applyArrived d p) := h.applyPacket.post

theorem State.Keeps.retestHeld {d n} (h : s₀.Keeps s) : s₀.Keeps (s.retestHeld d n) := by
  induction n generalizing s with
  | zero => exact h
  | succ n ih =>
    unfold State.retestHeld
    split
    · exact h
    · exact ih h.setRep.applyArrived

theorem State.Keeps.retest {d} (h : s₀.Keeps s) : s₀.Keeps (s.retest d) := h.retestHeld

theorem State.Keeps.holdPacket {d p} (h : s₀.Keeps s) : s₀.Keeps (s.holdPacket d p) := h.setRep

theorem State.Keeps.execUpdatePacketArrival {die id} (h : s₀.Keeps s) : s₀.KeepsOut (execUpdatePacketArrival die id s) := by
  unfold Machine.execUpdatePacketArrival
  refine .ite (.next h) ?_
  split
  · exact .next h.later
  · next e => exact .ite (.next ((h.takeLink e).applyArrived.retest)) (.ite (.next ((h.takeLink e).holdPacket)) (.next h.later))

theorem State.Keeps.reportAll (h : s₀.Keeps s) : s₀.Keeps s.reportAll := h.upd.upd

theorem State.Keeps.putStrong {o} (h : s₀.Keeps s) : s₀.Keeps (s.putStrong o) := h.upd

theorem State.Keeps.execCollatorSlotGrant {id} (h : s₀.Keeps s) : s₀.KeepsOut (execCollatorSlotGrant id s) := by
  unfold Machine.execCollatorSlotGrant
  split
  · exact .next h
  · refine .ite (.next h) (.ite (.next h.later) (.ite (.next h.askLag.later) ?_))
    split
    · next e => exact .next (h.gate.of_hold e).later
    · next e =>
      extract_lets _ s₁ _ _ s₂
      have h₁ : s₀.Keeps s₁ := (h.gate.of_go e).putStrong
      have h₂ : s₀.Keeps s₂ := h₁.upd
      exact .next (h₂.post.ite h₂).post

theorem State.Keeps.passRole (h : s₀.Keeps s) : s₀.Keeps s.passRole := h.upd

theorem State.Keeps.strongEval {o} (h : s₀.Keeps s) : s₀.Keeps (s.strongEval o).2.2.2 := by
  unfold State.strongEval
  extract_lets _ r
  have hr : s₀.Keeps r.2.2 := by
    refine .foldl_snd_snd h fun r p h => ?_
    dsimp only
    split
    · exact h.serve.failAcc.ite h.serve.deferLanes
    · split
      · exact h.serve.watched
      · exact h.serve
  exact ⟨h.inv, hr.tick⟩

theorem State.Keeps.strongOpen {o slot} (h : s₀.Keeps s) : s₀.Keeps (s.strongOpen o slot) :=
  h.strongEval.setRep.putStrong.sendPacket.count.post.post.ite h.strongEval.setRep.putStrong.sendPacket.count.post

theorem State.Keeps.acceptLock {d id} (h : s₀.Keeps s) : s₀.Keeps (s.acceptLock d id) := by
  unfold State.acceptLock
  extract_lets
  split
  · next e => exact (h.takeLink e).setRep.ite ((h.takeLink e).holdPacket.ite h)
  · split
    · exact h.setRep.ite h
    · exact h

theorem State.Keeps.execStrongLock {die id} (h : s₀.Keeps s) : s₀.KeepsOut (execStrongLock die id s) := by
  unfold Machine.execStrongLock
  extract_lets
  split
  · exact .next h
  · refine .ite ?_ ?_
    · split
      · exact .next (h.strongOpen.ite h.later)
      · exact .next h
    · split
      · exact .ite (.next h.acceptLock.later) (.ite (.next h.acceptLock.setRep.putStrong.post) (.next h.acceptLock.later))
      · exact .next (h.acceptLock.later.ite h.acceptLock)

theorem State.Keeps.resolveStrong {o k p} (h : s₀.Keeps s) : s₀.Keeps (s.resolveStrong o k p) :=
  h.upd.foldl fun _ _ h => h.post

theorem State.Keeps.execStrongLockAck {id} (h : s₀.Keeps s) : s₀.KeepsOut (execStrongLockAck id s) := by
  unfold Machine.execStrongLockAck
  split
  · exact .next h
  · split
    · exact .next h
    · exact .ite (.next h) (.next h.putStrong.resolveStrong)

theorem State.Keeps.strongDone {d o slot} (h : s₀.Keeps s) : s₀.Keeps (s.strongDone d o slot) :=
  (h.setRep.upd.ite h.setRep.putStrong).post.retest

theorem State.Keeps.execStrongCommit {die id} (h : s₀.Keeps s) : s₀.KeepsOut (execStrongCommit die id s) := by
  unfold Machine.execStrongCommit
  split
  · exact .next h
  · split
    · refine .ite (.next h) ?_
      extract_lets o
      have ho {t} : o = some t → s₀.Keeps t := .of_ite_some h.of_some h.takeLink_map
      clear_value o
      split
      · exact .next h.later
      · have h₁ := ho rfl
        refine .next (.strongDone (.ite (h₁.applyWords.foldl fun s a h => .ite ?_ h) h₁.applyWords.setRep))
        split
        · exact h.deliver
        · exact h
    · exact .next h

theorem State.Keeps.execStrongAbort {die id} (h : s₀.Keeps s) : s₀.KeepsOut (execStrongAbort die id s) := by
  unfold Machine.execStrongAbort
  extract_lets s₁
  have h₁ : s₀.Keeps s₁ := by
    unfold s₁
    split
    · next e => exact h.takeLink e
    · exact h
  split
  · exact .next h
  · split
    · exact .next h
    · exact .ite (.next h) (.ite (.next h.later) (.next h₁.strongDone))

theorem State.Keeps.forwardTo {k f d} (h : s₀.Keeps s) : s₀.Keeps (s.forwardTo k f d) := by
  unfold State.forwardTo
  extract_lets
  refine h.setRep.foldl fun _ _ h => h.ite ?_
  split
  · exact h.upd.post.ite h
  · exact h

theorem State.Keeps.resolveOf {k} (h : s₀.Keeps s) : s₀.Keeps (s.resolveOf k) := by
  unfold State.resolveOf
  refine h.upd.foldl fun s o h => h.ite ?_
  dsimp only
  split
  · exact h.putStrong.resolveStrong
  · exact h.putStrong.foldl fun _ _ h => h.post

theorem State.Keeps.dropDirty {pa k} (h : s₀.Keeps s) : s₀.Keeps (s.dropDirty pa k) :=
  h.freeVal.l2Touch.l2Drop.ite h.freeVal.setSys.l2Drop

theorem State.Keeps.dropGrants {k} (h : s₀.Keeps s) : s₀.Keeps (s.dropGrants k) :=
  h.foldl fun _ _ h => (h.foldl fun _ _ h₂ => h₂.raiseLexp.dropDirty.ite h₂.raiseLexp.l2Drop).setSys

theorem State.Keeps.againWord {old core slot ctx sup acc path l} (h : s₀.Keeps s) :
    s₀.Keeps (s.againWord old core slot ctx sup acc path l) :=
  h.reportPages

theorem State.Keeps.againLog {old core slot ctx sup l} (h : s₀.Keeps s) : s₀.Keeps (s.againLog old core slot ctx sup l) := by
  unfold State.againLog
  split
  · exact h
  · exact h.againWord

theorem State.Keeps.againGroups {old l} (h : s₀.Keeps s) : s₀.Keeps (s.againGroups old l) := by
  refine h.foldl fun s e h => ?_
  extract_lets x s₁ s₂
  have h₁ : s₀.Keeps s₁ := h.foldl fun _ _ h => h.againLog
  have h₂ : s₀.Keeps s₂ := h₁.againWord.ite h₁
  clear_value x s₂
  split
  · exact h₂.againWord
  · exact h₂.againWord
  · exact h₂.againWord
  · exact h₂

theorem State.Keeps.againEngs {old l} (h : s₀.Keeps s) : s₀.Keeps (s.againEngs old l) := by
  unfold State.againEngs
  refine h.foldl fun _ _ h => h.foldl fun _ _ h => ?_
  split
  · split
    · exact h.reportPages
    · exact h.againWord
  · exact h

theorem State.Keeps.reportAgain {old} (h : s₀.Keeps s) : s₀.Keeps (s.reportAgain old) := by
  unfold State.reportAgain
  extract_lets s₁ s₂ s₃ s₄ s₅
  have h₁ : s₀.Keeps s₁ := h.againGroups
  have h₂ : s₀.Keeps s₂ := h₁.foldl fun _ _ h => h.againWord
  have h₃ : s₀.Keeps s₃ := h₂.foldl fun _ _ h => h.againLog
  have h₄ : s₀.Keeps s₄ := h₃.againEngs
  have h₅ : s₀.Keeps s₅ := h₄.foldl fun _ _ h => h.againWord
  exact h₅.foldl fun _ _ h => h.againWord

theorem State.Keeps.removeBegin {k} (h : s₀.Keeps s) : s₀.Keeps (s.removeBegin k) :=
  (h.upd.passRole.repEvent.upd.foldl fun _ _ h => h.forwardTo).resolveOf.foldl fun _ _ h => h.post

theorem State.Keeps.execMembershipRemove {die} (h : s₀.Keeps s) : s₀.KeepsOut (execMembershipRemove die s) := by
  unfold Machine.execMembershipRemove
  extract_lets _ _ _ _ _ _ s₁
  have h₁ : s₀.Keeps s₁ := h.upd.dropGrants
  exact .ite (.next h) (.ite (.next h.removeBegin.later) (.ite (.next h.later) (.next ((h₁.reportAgain.ite h₁).repEvent))))

theorem State.Keeps.copyRegion {a b} (h : s₀.Keeps s) : s₀.Keeps (s.copyRegion a b) :=
  (h.foldl fun _ _ h => h.setByte).foldl fun _ _ h => h.setByte

theorem State.Keeps.execJoinCopyEnd {die} (h : s₀.Keeps s) : s₀.KeepsOut (execJoinCopyEnd die s) := by
  unfold Machine.execJoinCopyEnd
  extract_lets
  split
  · exact .next h
  · exact .ite (.next h) (.ite (.ite (.next h.later) (.next h.upd.later)) (.ite (.next h.later) (.next
      ((h.copyRegion.setRep.upd.foldl fun _ _ h => h.setRep).upd.passRole.repEvent))))

/-! ### Machine/Peer.lean -/

theorem State.Keeps.dropPeer {id} (h : s₀.Keeps s) : s₀.Keeps (s.dropPeer id) := h.upd

theorem State.Keeps.peerPromote (h : s₀.Keeps s) : s₀.Keeps s.peerPromote := by
  unfold State.peerPromote
  extract_lets
  refine h.markReady.foldl fun _ _ h => ?_
  split
  · exact h.upd.ite h
  · exact h

theorem State.Keeps.peerStoreLost {q a cause detail} (h : s₀.Keeps s) : s₀.Keeps (s.peerStoreLost q a cause detail) := by
  unfold State.peerStoreLost
  extract_lets
  split
  · exact h.setSys.later.ite (h.updGrp.ite h)
  · exact h.postCtxFault.ite (h.updGrp.ite h)

theorem State.Keeps.peerRefuse {q cause detail} (h : s₀.Keeps s) : s₀.Keeps (s.peerRefuse q cause detail) :=
  (h.foldl fun _ _ h => h.failAcc.ite (h.peerStoreLost.ite h.deferLanes)).dropPeer

theorem State.Keeps.peerSend {q tag} (h : s₀.Keeps s) : s₀.Keeps (s.peerSend q tag) := h.putPeer.upd

theorem State.Keeps.execPeerRequestSend {die} (h : s₀.Keeps s) : s₀.KeepsOut (execPeerRequestSend die s) := by
  unfold Machine.execPeerRequestSend
  extract_lets
  split
  · exact .next (h.peerPromote.later.ite h.peerPromote)
  · refine .ite (.next (h.peerPromote.peerRefuse.later.ite h.peerPromote.peerRefuse)) (.ite (.next
      (h.peerPromote.later.ite h.peerPromote)) ?_)
    split
    · exact .next (h.peerPromote.later.ite h.peerPromote)
    · extract_lets
      refine .ite (.next (h.peerPromote.peerSend.later.ite h.peerPromote.peerSend)) ?_
      split
      · exact .next (h.peerPromote.later.ite h.peerPromote)
      · exact .next (h.peerPromote.peerSend.later.ite h.peerPromote.peerSend)

theorem State.Keeps.peerDeliver {q data} (h : s₀.Keeps s) : s₀.Keeps (s.peerDeliver q data) := by
  unfold State.peerDeliver
  refine .foldl_snd h fun _ _ h => ?_
  refine .ite_snd (.deliver ?_) ?_
  · split
    · exact h.watched
    · exact h
  · split
    · exact h.watched
    · exact h

theorem State.Keeps.execPeerResponse {id ans} (h : s₀.Keeps s) : s₀.KeepsOut (execPeerResponse id ans s) := by
  unfold Machine.execPeerResponse
  extract_lets
  split
  · split
    · exact .next h
    · exact .next h
    · exact .next h.upd
  · refine .ite (.next h) ?_
    split
    · exact .next h.peerDeliver.dropPeer.later
    · exact .next h.peerRefuse.later
    · exact .next h.peerRefuse.later
    · exact .ite (.next h) (.next h.putPeer.later)
    · exact .next h.putPeer

theorem State.Keeps.execPeerBusyRetry {id} (h : s₀.Keeps s) : s₀.KeepsOut (execPeerBusyRetry id s) := by
  unfold Machine.execPeerBusyRetry
  split
  · exact .next h
  · exact .ite (.next h.putPeer.later) (.next h)

theorem State.Keeps.execPeerReissue {id} (h : s₀.Keeps s) : s₀.KeepsOut (execPeerReissue id s) := by
  unfold Machine.execPeerReissue
  extract_lets
  split
  · refine .ite ?_ (.next h)
    split
    · exact .next h
    · exact .next h.putPeer.upd
  · split
    · exact .next h
    · exact .ite (.next (h.upd.foldl fun _ _ h => h.later)) (.next h)

theorem State.Keeps.updOwner {grp team f} (h : s₀.Keeps s) : s₀.Keeps (s.updOwner grp team f) := h.updGrp.ite h.setHub

theorem State.Keeps.pubEnd {p lost} (h : s₀.Keeps s) : s₀.Keeps (s.pubEnd p lost) :=
  (h.upd.updOwner.ite h.upd).tryEndTeam

theorem State.Keeps.execPeerTimeout {id} (h : s₀.Keeps s) : s₀.KeepsOut (execPeerTimeout id s) := by
  unfold Machine.execPeerTimeout
  extract_lets
  split
  · extract_lets s₁ _ _ s₂
    have h₁ : s₀.Keeps s₁ := h.foldl fun _ _ h => h.failAcc.ite h.peerStoreLost
    have h₂ : s₀.Keeps s₂ := h₁.upd.ite h₁
    exact .ite (.next h) (.next h₂.dropPeer.later)
  · split
    · exact .next (h.pubEnd.ite h)
    · exact .next h

theorem State.Keeps.answer {src seq a} (h : s₀.Keeps s) : s₀.Keeps (s.answer src seq a) := h.upd

theorem State.Keeps.peerPerform {ctx pa op} (h : s₀.Keeps s) : s₀.Keeps (s.peerPerform ctx pa op).2 := by
  unfold State.peerPerform
  extract_lets _ one
  have h₁ {r off a} (h : s₀.Keeps r.2) : s₀.Keeps (one r off a).2 := by
    unfold one
    split
    · dsimp only
      split <;> exact h.serve
    · exact h
  clear_value one
  split
  · exact .foldl_snd h fun _ _ h => h₁ h
  · exact .foldl_snd h fun _ _ h => h₁ h
  · exact .foldl_snd h fun _ _ h => h₁ h.recallSub

theorem State.Keeps.execPeerRequestAtTarget {src seq pa part op} (h : s₀.Keeps s) :
    s₀.KeepsOut (execPeerRequestAtTarget src seq pa part op s) := by
  unfold Machine.execPeerRequestAtTarget
  extract_lets _ s₁ _ _ _ _ _ s₂
  have h₁ : s₀.Keeps s₁ := h.migLeave.countReq
  have h₂ : s₀.Keeps s₂.2 := h₁.peerPerform
  refine .ite (.next h) (.ite (.next h.migLeave.answer) (.ite (.next h.migLeave.answer) (.ite (.next h.migQueue.later)
    (.ite (.next h.noteRecall.later) ?_))))
  split
  · split
    · exact .next h₁.answer
    · exact .ite (.next h₁.answer) (.next h₂.fresh.upd.answer)
  · exact .next h₂.answer

/-! ### Machine/Matrix.lean -/

theorem State.Keeps.mxIssue {g x memory op run f} (h : s₀.Keeps s) : s₀.Keeps (s.mxIssue g x memory op run f).1 :=
  .ite_fst h h.fresh.updTeam.updGrp.later

theorem State.Keeps.mxQueue {g x memory op} (h : s₀.Keeps s) : s₀.Keeps (s.mxQueue g x memory op).1 := h.mxIssue

theorem State.Keeps.mxWord {i hd uni body} (h : s₀.Keeps s) (hb : ∀ s g x, s₀.Keeps s → s₀.Keeps (body s g x).1) :
    s₀.KeepsOut (mxWord i hd uni s body) := by
  refine h.word fun s g x h => .ite_fst h.trapNow ?_
  split
  · exact h.trapNow
  · exact h
  · refine h.withPolicy ?_
    split
    · exact h.trapNow
    · exact hb _ _ _ h

theorem State.Keeps.mxOperand {g reason} (h : s₀.Keeps s) : s₀.Keeps (s.mxOperand g reason).1 := h.trapAll

theorem State.Keeps.mxAlign {g detail va} (h : s₀.Keeps s) : s₀.Keeps (s.mxAlign g detail va).1 := h.trapAll

theorem State.Keeps.execMma {hd f d a b c} (h : s₀.Keeps s) : s₀.KeepsOut (execMma hd f d a b c s) := by
  unfold Machine.execMma
  refine h.mxWord fun s g x h => ?_
  dsimp only
  split
  · exact h.mxOperand
  · exact h.mxQueue

theorem State.Keeps.execMdrain {hd f d a b c} (h : s₀.Keeps s) : s₀.KeepsOut (execMdrain hd f d a b c s) := by
  unfold Machine.execMdrain
  refine h.mxWord fun s g x h => ?_
  dsimp only
  split
  · exact h.mxOperand
  · exact .ite_fst h.mxAlign (.ite_fst h.mxAlign h.mxQueue)

theorem State.Keeps.setMxGens {team e gens} (h : s₀.Keeps s) : s₀.Keeps (s.setMxGens team e gens) :=
  h.updGrp.ite h.updTeam

theorem State.Keeps.mxPlan {team e} (h : s₀.Keeps s) : s₀.Keeps (s.mxPlan team e).2 := by
  unfold State.mxPlan
  extract_lets
  refine .ite_snd h ?_
  split
  · exact .ite_snd h h
  · exact h.setMxGens
  · exact h

theorem State.Keeps.putMx {team e} (h : s₀.Keeps s) : s₀.Keeps (s.putMx team e) := h.updTeam

theorem State.Keeps.mxEnd {team e trap} (h : s₀.Keeps s) : s₀.Keeps (s.mxEnd team e trap) := by
  unfold State.mxEnd
  extract_lets _ s₁ s₂
  have h₁ : s₀.Keeps s₁ := h.updTeam.updGrp
  have h₂ : s₀.Keeps s₂ := by
    unfold s₂
    refine .ite ?_ h.updTeam
    split
    · exact h₁.trapLater
    · exact h₁
  exact h₂.tryEndTeam.ite h₂.later

theorem State.Keeps.mxPiece {team e p} (h : s₀.Keeps s) : s₀.Keeps (s.mxPiece team e p).2 := by
  unfold State.mxPiece
  split
  · split
    · next e => exact (h.agentRead.snd e).updTeam
    · next e => exact (h.agentRead.snd e).updTeam.ite (h.agentRead.snd e)
    · next e => exact h.agentRead
  · exact h.localWrite
  · exact h.agentWrite

theorem State.Keeps.mxBusy {team n} (h : s₀.Keeps s) : s₀.Keeps (s.mxBusy team n) := h.count

theorem State.Keeps.mxRun {team e} (h : s₀.Keeps s) : s₀.Keeps (s.mxRun team e) := by
  unfold State.mxRun
  extract_lets
  split
  · split
    · next e => exact (h.mxPiece.snd e).mxEnd.ite ((h.mxPiece.snd e).putMx.later)
    · next e => exact (h.mxPiece.snd e).putMx
    · next e => exact (h.mxPiece.snd e).mxEnd
    · next e => exact (h.mxPiece.snd e).putMx.later
  · split
    · exact h.updTeam.mxEnd
    · exact h.updTeam.mxBusy.mxEnd
    · exact h.updTeam.mxEnd
    · exact h.setTeam.mxEnd
    · exact (h.setSys.post.ite h).mxEnd
    · exact h.updTeam.mxEnd
    · exact h.updTeam.mxBusy.mxEnd
    · exact h.putMx.later
    · exact h.mxEnd

theorem State.Keeps.execMatrixWordExecute {core team} (h : s₀.Keeps s) : s₀.KeepsOut (execMatrixWordExecute core team s) := by
  unfold Machine.execMatrixWordExecute
  split
  · exact .next h
  · exact .ite (.next h) (.ite (.next h.later) (.next (.mxRun (.ite_snd h h.mxPlan))))

theorem State.Keeps.putMiter {team e r ends} (h : s₀.Keeps s) : s₀.Keeps (s.putMiter team e r ends) := h.updGrp.ite h

theorem State.Keeps.miterResumes {team e} (h : s₀.Keeps s) : s₀.Keeps (s.miterResumes team e) := h.updGrp.ite h

theorem State.Keeps.execMiterPhase {core team stop} (h : s₀.Keeps s) : s₀.KeepsOut (execMiterPhase core team stop s) := by
  unfold Machine.execMiterPhase
  extract_lets tm
  clear_value tm
  split
  · exact .next h
  · split
    · refine .ite (.next h) (.ite (.next h.later) (.ite (.next h.later) ?_))
      dsimp only
      split
      · exact .ite (.next h.setTeam.miterResumes.mxBusy.putMiter.putMx) (.next h.setTeam.miterResumes.mxBusy.putMx.later)
      · exact .next h.setTeam.miterResumes.mxBusy.putMiter.mxEnd
    · exact .next h

/-! ### Machine/Publish.lean -/

theorem State.Keeps.pubIssue {g x ch ver lsrc src off len} (h : s₀.Keeps s) :
    s₀.Keeps (s.pubIssue g x ch ver lsrc src off len) :=
  h.fresh.updGrp.upd.post

theorem State.Keeps.execPub {hd lsrc a b c} (h : s₀.Keeps s) : s₀.KeepsOut (execPub hd lsrc a b c s) := by
  unfold Machine.execPub
  exact h.uniWord (fun _ _ _ h => .ite_fst h.engOperand (.ite_fst h.engOperand (.ite_fst h.engOperand
    (.ite_fst h.engOperand (.ite_fst h h.pubIssue)))))

theorem State.Keeps.spanRead {ag kindOk f va n b} (h : s₀.Keeps s) : s₀.Keeps (State.spanRead ag kindOk f s va n b).2 := by
  induction f generalizing s va n b with
  | zero => exact h
  | succ f ih =>
    unfold State.spanRead
    refine .ite_snd h ?_
    dsimp only
    split
    · next e => exact ih (h.agentRead.snd e)
    · exact h.agentRead

theorem State.Keeps.windowPut {f pa size v} (h : s₀.Keeps s) : s₀.Keeps (s.windowPut f pa size v).2 := by
  unfold State.windowPut
  extract_lets
  split
  · next e => exact h.serve.snd e
  · next e => exact h.serve.snd e

theorem State.Keeps.pubDrop {die n} (h : s₀.Keeps s) : s₀.Keeps (s.pubDrop die n) := h.count

theorem State.Keeps.windowWrite {die f} (h : s₀.Keeps s) : s₀.Keeps (s.windowWrite die f) := by
  unfold State.windowWrite
  extract_lets _ s₁
  have h₁ : s₀.Keeps s₁.2 := .foldl_snd h.countReq fun _ _ h => .ite_snd h h.windowPut
  exact h₁.ite h₁.pubDrop

theorem State.Keeps.subAdvance {ch n} (h : s₀.Keeps s) : s₀.Keeps (s.subAdvance ch n) := by
  induction n generalizing s with
  | zero => exact h
  | succ n ih =>
    unfold State.subAdvance
    dsimp only
    split
    · exact h.ite (ih h.upd)
    · split
      · exact h.later
      · exact h

theorem State.Keeps.flitAck {f} (h : s₀.Keeps s) : s₀.Keeps (s.flitAck f) := by
  unfold State.flitAck
  extract_lets
  refine h.ite ?_
  split
  · exact h.upd.upd
  · split
    · exact h.upd
    · exact h.upd.pubEnd.ite h.upd.upd

theorem State.Keeps.flitCopies {f} (h : s₀.Keeps s) : s₀.Keeps (s.flitCopies f) := h.upd

theorem State.Keeps.putFlit {f} (h : s₀.Keeps s) : s₀.Keeps (s.putFlit f) := h.upd

theorem State.Keeps.flitHandle {die f0} (h : s₀.Keeps s) : s₀.Keeps (s.flitHandle die f0) := by
  unfold State.flitHandle
  extract_lets _ _ _ _ _ _ _ s₁
  have h₁ : s₀.Keeps s₁ := h.upd.windowWrite.flitCopies
  exact h.upd.flitCopies.flitAck.ite ((h.upd.flitCopies.putFlit.flitAck.ite ((h.upd.ite h.upd.flitCopies).subAdvance)).ite
    ((h₁.ite h₁.upd).flitAck.subAdvance))

theorem State.Keeps.rootFlit {die f} (h : s₀.Keeps s) : s₀.Keeps (s.rootFlit die f) := h.flitHandle.ite h.upd.pubDrop

theorem State.Keeps.verRelease {id} (h : s₀.Keeps s) : s₀.Keeps (s.verRelease id) := by
  unfold State.verRelease
  split
  · exact h
  · extract_lets _ _ _ s₁ _ _ _ _ s₂
    have h₁ : s₀.Keeps s₁.2 := h.migLeave.countReq.windowPut
    have h₂ : s₀.Keeps s₂ := (h₁.ite h₁.pubDrop).putFlit.upd
    refine h.ite ?_
    split
    · exact h.migQueue.later
    · exact h.later.ite ((h₂.flitCopies.ite h₂).flitAck.subAdvance)

theorem State.Keeps.fabricTrap {grp team pc cause detail addr} (h : s₀.Keeps s) :
    s₀.Keeps (s.fabricTrap grp team pc cause detail addr) :=
  h.updOwner

theorem State.Keeps.putPub {p} (h : s₀.Keeps s) : s₀.Keeps (s.putPub p) := h.upd

theorem State.Keeps.pubFlit {p} (h : s₀.Keeps s) : s₀.Keeps (s.pubFlit p) := by
  unfold State.pubFlit
  extract_lets _ _ _ _ r
  have hr : s₀.Keeps r.2 := .ite_snd h.migLeave (.ite_snd h.migLeave h.migLeave.spanRead)
  clear_value r
  refine h.ite ?_
  split
  · exact h.migQueue.later
  · split
    · exact hr.fresh.putPub.rootFlit.later.ite hr.fresh.putPub.rootFlit
    · exact hr.putPub
    · exact hr.fabricTrap.pubEnd
    · exact hr.later

theorem State.Keeps.execPublicationFlitArrival {port id} (h : s₀.Keeps s) :
    s₀.KeepsOut (execPublicationFlitArrival port id s) := by
  unfold Machine.execPublicationFlitArrival
  extract_lets
  refine .ite ?_ (.ite (.next h.verRelease) (.ite (.next h) ?_))
  · split
    · exact .next h.pubFlit
    · split
      · exact .next h.rootFlit
      · exact .next h
  · split
    · extract_lets
      refine .ite (.next h.upd.fresh.pubDrop) ?_
      split
      · exact .next h.migQueue.later
      · exact .next h.upd.fresh.migLeave.flitHandle
    · exact .next h

theorem State.Keeps.execPublicationAck {child id} (h : s₀.Keeps s) : s₀.KeepsOut (execPublicationAck child id s) := by
  unfold Machine.execPublicationAck
  extract_lets
  split
  · exact .next h.upd
  · exact .next h.upd.putFlit.flitAck

theorem State.Keeps.execColl {hd a} (h : s₀.Keeps s) : s₀.KeepsOut (execColl hd a s) := by
  unfold Machine.execColl
  refine h.uniWord (fun _ _ _ h => .ite_fst h.engOperand ?_)
  split
  · exact h.engOperand
  · exact .ite_fst h.engOperand (.ite_fst h.engOperand (.ite_fst h h.fresh.updGrp.upd.post))

theorem State.Keeps.collEnd {ops e} (h : s₀.Keeps s) : s₀.Keeps (s.collEnd ops e) := by
  unfold State.collEnd
  extract_lets
  refine h.upd.foldl fun _ _ h => ?_
  split
  · exact h
  · exact h.fabricTrap
  · exact h.fabricTrap
  · exact h.fabricTrap.ite h.fabricTrap

theorem State.Keeps.putColl {c} (h : s₀.Keeps s) : s₀.Keeps (s.putColl c) := h.upd

theorem State.Keeps.collWrite {ops f c} (h : s₀.Keeps s) : s₀.Keeps (State.collWrite ops f s c).state := by
  induction f generalizing s c with
  | zero => exact h
  | succ f ih =>
    unfold State.collWrite
    split
    · exact h
    · exact h
    · dsimp only
      split
      · next e => exact ih (h.agentWrite.snd e).putColl
      · next e => exact (h.agentWrite.snd e).putColl.stop
      · next e => exact (h.agentWrite.snd e).collEnd.stop
      · next e => exact (h.agentWrite.snd e).later.stop

theorem State.Keeps.collRead {c ops n m data} (h : s₀.Keeps s) : s₀.Keeps (s.collRead c ops n m data).state := by
  unfold State.collRead
  refine .ite_coll h.collEnd.stop (.ite_coll h.collEnd.stop ?_)
  split
  · next e => exact (h.spanRead.snd e).go
  · next e => exact (h.spanRead.snd e).putColl.stop
  · next e => exact (h.spanRead.snd e).collEnd.stop
  · next e => exact (h.spanRead.snd e).later.stop

theorem State.Keeps.collFinish {ops} (h : s₀.Keeps s) : s₀.Keeps (s.collFinish ops) := by
  unfold State.collFinish
  extract_lets r
  have hr : s₀.Keeps r.state := by
    refine .foldl_on CollStep.state h fun r c h => ?_
    split
    · exact h
    · exact h.collWrite
  clear_value r
  split
  · exact hr
  · exact hr.collEnd

theorem State.Keeps.collTry {id order remote fail} (h : s₀.Keeps s) : s₀.Keeps (s.collTry id order remote fail) := by
  unfold State.collTry
  split
  · exact h
  · extract_lets _ _ _ _ _ r
    have hr : s₀.Keeps r.state := by
      refine .foldl_on CollStep.state h fun r c h => ?_
      split
      · exact h.collRead
      · exact h
    clear_value r
    refine h.ite (h.collFinish.ite (h.collEnd.ite (h.ite (h.collEnd.ite (h.collEnd.ite ?_)))))
    split
    · exact hr
    · refine .collFinish (hr.foldl fun s m h => ?_)
      split
      · exact h.putColl
      · exact h

/-! ### Machine/Preempt.lean -/

theorem State.Keeps.fetchReach {x} (h : s₀.Keeps s) : s₀.Keeps (s.fetchReach x).2 := h.translate

theorem State.Keeps.fetchPark {g f} (h : s₀.Keeps s) : s₀.Keeps (s.fetchPark g f) := h.faultReport.releasePort.updGrp

theorem State.Keeps.fetchAgain {g} (h : s₀.Keeps s) : s₀.Keeps (s.fetchAgain g) := by
  unfold State.fetchAgain
  extract_lets s₁
  have h₁ : s₀.Keeps s₁.2 := h.fetchReach
  split
  · exact h₁.fetchPark
  · exact h₁.updGrp.eligible

theorem State.Keeps.lostAgain {g} (h : s₀.Keeps s) : s₀.Keeps (s.lostAgain g) :=
  h.wake.ite h.reportPages.count.suspendReplay

theorem State.Keeps.replayGroup {g t} (h : s₀.Keeps s) : s₀.Keeps (s.replayGroup g t) := by
  unfold State.replayGroup
  extract_lets s₁ _ s₂
  have h₁ : s₀.Keeps s₁ := h.redriveGroup
  have h₂ : s₀.Keeps s₂ := by
    unfold s₂
    split
    · exact h₁.fetchAgain.ite h₁
    · exact h₁
  split
  · exact h₂.suspend.waitvTry.ite h₂
  · exact (h₂.mbarRewait.ite h₂.suspend.mbarTry).ite h₂
  · exact h₂.lostAgain.ite h₂
  · exact h₂

theorem State.Keeps.replayEngines {die c t} (h : s₀.Keeps s) : s₀.Keeps (s.replayEngines die c t) := by
  unfold State.replayEngines
  refine h.foldl fun _ _ h => ?_
  refine h.putEng.foldl fun _ _ h => ?_
  split
  · exact h.engPiece
  · exact h

theorem State.Keeps.replayMatrix {die c t} (h : s₀.Keeps s) : s₀.Keeps (s.replayMatrix die c t) := by
  unfold State.replayMatrix
  refine h.foldl fun _ _ h => ?_
  split
  · split
    · exact h.setTeam.later.ite h
    · exact h
  · exact h

theorem State.Keeps.replayFabric {die c t} (h : s₀.Keeps s) : s₀.Keeps (s.replayFabric die c t) :=
  ((h.setHub.upd.foldl fun _ _ h => h.launchTry).foldl fun _ _ h => h.pubFlit).foldl fun _ _ h => h.collTry

theorem State.Keeps.replayAll {die c t} (h : s₀.Keeps s) : s₀.Keeps (s.replayAll die c t) :=
  (h.foldl fun _ _ h => h.replayGroup).redriveOrphans.replayEngines.replayMatrix.setHub.replayFabric

theorem State.Keeps.putFields {pa l} (h : s₀.Keeps s) : s₀.Keeps (s.putFields pa l) := h.foldl fun _ _ h => h.store

theorem State.Keeps.zero {pa n} (h : s₀.Keeps s) : s₀.Keeps (s.zero pa n) := h.foldl fun _ _ h => h.setByte

theorem State.Keeps.storeOpen {pa n} (h : s₀.Keeps s) : s₀.Keeps (s.storeOpen pa n) := by
  induction n generalizing s pa with
  | zero => exact h
  | succ n ih =>
    unfold State.storeOpen
    exact ih h.freeVal.store

theorem State.Keeps.saveQuire {pa q} (h : s₀.Keeps s) : s₀.Keeps (s.saveQuire pa q) := h.putFields

theorem State.Keeps.saveGroup {g} (h : s₀.Keeps s) : s₀.Keeps (s.saveGroup g) := by
  unfold State.saveGroup
  extract_lets _ _ s₁
  have h₁ : s₀.Keeps s₁ := h.zero.putFields
  exact (h₁.ite h₁.writeReport).zero.zero.saveQuire.storeOpen.putFields.zero.putFields

theorem State.Keeps.saveTeam {t} (h : s₀.Keeps s) : s₀.Keeps (s.saveTeam t) :=
  h.storeOpen.zero.zero.putFields.storeOpen.putFields.zero.putFields.putFields.putFields

theorem State.Keeps.saveBlocks {teams} (h : s₀.Keeps s) : s₀.Keeps (s.saveBlocks teams) :=
  (h.foldl fun _ _ h => h.saveTeam).foldl fun _ _ h => h.saveGroup

theorem State.Keeps.pauseTeams {ts} (h : s₀.Keeps s) : s₀.Keeps (s.pauseTeams ts) := h.foldl fun _ _ h => h.pauseGroup

theorem State.Keeps.askSave {c cmd} (h : s₀.Keeps s) : s₀.Keeps (s.askSave c cmd) :=
  h.setCtx.setCtx.ite h.setCtx.pauseTeams.later

theorem State.Keeps.takeOut {ts} (h : s₀.Keeps s) : s₀.Keeps (s.takeOut ts).2 :=
  h.upd.setSys.setHub.upd.foldl fun _ _ h => h.foldl fun _ _ h₂ => h₂.dropLeases

theorem State.Keeps.leaveGone {ts} (h : s₀.Keeps s) : s₀.Keeps (s.leaveGone ts) := by
  unfold State.leaveGone
  refine h.foldl fun _ _ h => ?_
  split
  · exact h.mbarLeave
  · exact h

theorem State.Keeps.execPreemption {ctx} (h : s₀.Keeps s) : s₀.KeepsOut (execPreemption ctx s) := by
  unfold Machine.execPreemption
  extract_lets
  exact .ite (.next h) (.ite (.next h.pauseTeams.later) (.next
    h.pauseTeams.leaveGone.saveBlocks.takeOut.setHub.setCtx.setCtxState))

theorem State.Keeps.rename {t m} (h : s₀.Keeps s) : s₀.Keeps (s.rename t m) := h.setSys.setHub.upd

theorem State.Keeps.restoreTeam {c v t core} (h : s₀.Keeps s) : s₀.Keeps (s.restoreTeam c v t core) := by
  unfold State.restoreTeam
  split
  · exact h
  · next tm _ =>
    extract_lets _ _ _ _ _ replay _ tm₁ tm₂ s₁ s₂ _ s₃ s₄ s₅ s₆ s₇ s₈
    have h₁ : s₀.Keeps s₁ := h.upd
    have h₂ : s₀.Keeps s₂ := h₁.foldl fun _ _ h => h.setGrp.foldl fun _ _ h => h.foldl fun _ _ h => h.post
    have h₃ : s₀.Keeps s₃ := h₂.setSys
    have h₄ : s₀.Keeps s₄ := h₃.rename
    have h₅ : s₀.Keeps s₅ := by
      refine h₄.foldl fun s e h => ?_
      split
      · exact h.mbarRewait
      · exact h
    have h₆ : s₀.Keeps s₆ := h₅.foldl fun _ _ h => h.engNext
    have h₇ : s₀.Keeps s₇ := by
      unfold s₇
      clear_value tm₂ s₆
      split
      · split
        · exact h₆.later.ite h₆.later
        · exact h₆.later
      · exact h₆
    have h₈ : s₀.Keeps s₈ := h₇.updCore.postFill
    clear_value replay
    split
    · exact h₈.foldl fun _ _ h => h.replayGroup
    · exact h₈

theorem State.Keeps.execContextRestore {ctx cores} (h : s₀.Keeps s) : s₀.KeepsOut (execContextRestore ctx cores s) := by
  unfold Machine.execContextRestore
  split
  · exact .next h
  · extract_lets _ _ r
    have hr : ∀ l t, r = some (l, t) → s₀.Keeps t := by
      refine State.Keeps.foldl_some (by rintro _ _ ⟨⟩; exact h) fun r c hr l t e => ?_
      split at e
      · cases e
      · have h₁ := hr _ _ rfl
        dsimp only at e
        split at e <;> cases e
        · exact .ite (.foldl (.upd (h₁.foldl fun _ _ h => h.restoreTeam)) fun _ _ h => h.dropLeases) (.upd
            (h₁.foldl fun _ _ h => h.restoreTeam))
    clear_value r
    refine .ite (.next h) (.ite (.next h.setCtx.postCtxFault) ?_)
    split
    · have ht := hr _ _ rfl
      exact .next (ht.setCtx.setHub.setCtxState.ite ht.setCtx.setHub)
    · exact .next h

theorem State.Keeps.contextKill {ctx} (h : s₀.Keeps s) : s₀.Keeps (s.contextKill ctx) := by
  unfold State.contextKill
  extract_lets _ _ _ _ _ _ _ _ _ _ _ s₁
  have h₁ : s₀.Keeps s₁ := (h.foldl fun _ _ h => h.releasePort).takeOut.setSys.setHub.upd
  exact (h₁.foldl fun _ _ h => h.setFaultBuf).setReplay.setCtx.setCtxState

theorem State.Keeps.takeSlice {i late} (h : s₀.Keeps s) : s₀.Keeps (s.takeSlice i late) :=
  h.setReg.setReg.setHub.foldl fun _ _ h => (h.setCtx.ite h).ite (h.askSave.ite (h.setCtx.ite h))

/-! ### Machine/Debug.lean -/

theorem State.Keeps.shiftTimers {n} (h : s₀.Keeps s) : s₀.Keeps (s.shiftTimers n) := h.upd

theorem State.Keeps.execResume (h : s₀.Keeps s) : s₀.KeepsOut (execResume s) := by
  unfold Machine.execResume
  extract_lets
  split
  · exact .ite (.next h) (.next (h.shiftTimers.upd.foldl fun _ _ h => h.post))
  · exact .next h

theorem State.Keeps.putEntry {pa e} (h : s₀.Keeps s) : s₀.Keeps (s.putEntry pa e) := h.putFields

theorem State.Keeps.putAnnex {pa l} (h : s₀.Keeps s) : s₀.Keeps (s.putAnnex pa l) :=
  h.putFields.foldl fun _ _ h => h.putEntry

theorem State.Keeps.stopNow (h : s₀.Keeps s) : s₀.Keeps s.stopNow := h.upd.ite h

theorem State.Keeps.latchRing {r} (h : s₀.Keeps s) : s₀.Keeps (s.latchRing r) := h.hwCount.upd.ite h.upd.post

theorem State.Keeps.latchAll (h : s₀.Keeps s) : s₀.Keeps s.latchAll := by
  unfold State.latchAll
  split
  · exact (h.foldl fun _ _ h => h.latchRing).ite h
  · exact h

theorem State.Keeps.execActivityRingWrite {ring} (h : s₀.Keeps s) : s₀.KeepsOut (execActivityRingWrite ring s) := by
  unfold Machine.execActivityRingWrite
  extract_lets
  split
  · exact .next h
  · exact .next ((h.foldl fun _ _ h => h.store).setReg.upd)

theorem State.Keeps.takeSlices {n} (h : s₀.Keeps s) : s₀.Keeps (s.takeSlices n) := by
  induction n generalizing s with
  | zero => exact h
  | succ n ih =>
    unfold State.takeSlices
    split
    · exact h
    · exact ih h.takeSlice

theorem State.Keeps.execSliceSwitch {entry} (h : s₀.Keeps s) : s₀.KeepsOut (execSliceSwitch entry s) := by
  unfold Machine.execSliceSwitch
  split
  · exact .ite (.next h.takeSlice) (.next h)
  · exact .next h

/-! ### Machine/Boundary.lean -/

theorem State.Keeps.takeInput {α} {f : Input → Option α} {x} (h : s₀.Keeps s) (e : s.takeInput f = some x) : s₀.Keeps x.2 := by
  obtain ⟨r, -, rfl⟩ := Option.map_eq_some_iff.mp e
  exact h.upd

theorem State.Keeps.hostFault {f} (h : s₀.Keeps s) : s₀.Keeps (s.hostFault f) := h.postCtxFault

theorem State.Keeps.hostHubWrite {f o data} (h : s₀.Keeps s) : s₀.Keeps (s.hostHubWrite f o data) :=
  h.ite ((h.setBytes.post.ite h.setBytes).ite (h.mgmtWrite.ite h))

theorem State.Keeps.hostHubRead {f o n} (h : s₀.Keeps s) : s₀.Keeps (s.hostHubRead f o n).2 :=
  .ite_snd h (.ite_snd h (.ite_snd h.mgmtRead h))

theorem State.Keeps.hostStore {f pa data} (h : s₀.Keeps s) : s₀.Keeps (s.hostStore f pa data) :=
  h.countReq.foldl fun _ _ h => h.serve

theorem State.Keeps.hostLoad {f pa n} (h : s₀.Keeps s) : s₀.Keeps (s.hostLoad f pa n).2 := by
  unfold State.hostLoad
  refine .foldl_snd h.countReq fun _ _ h => ?_
  split
  · exact h
  · split
    · next e => exact h.serve.snd e
    · next e => exact h.serve.snd e

theorem State.Keeps.execHostInboundWrite (h : s₀.Keeps s) : s₀.KeepsOut (execHostInboundWrite s) := by
  unfold Machine.execHostInboundWrite
  split
  · exact .next h
  · next e =>
    split
    · exact .next (h.takeInput e)
    · exact .next ((h.takeInput e).hostFault)
    · exact .next ((h.takeInput e).hostHubWrite)
    · split
      · exact .next h.migQueue
      · exact .next ((h.takeInput e).migLeave.hostStore)

theorem State.Keeps.complete {r} (h : s₀.Keeps s) : s₀.Keeps (s.complete r) := h.upd

theorem State.Keeps.execHostInboundRead (h : s₀.Keeps s) : s₀.KeepsOut (execHostInboundRead s) := by
  unfold Machine.execHostInboundRead
  split
  · exact .next h
  · next e =>
    split
    · exact .next ((h.takeInput e).complete)
    · exact .next ((h.takeInput e).hostFault.complete)
    · refine .ite ?_ (.next ((h.takeInput e).hostHubRead.complete))
      split
      · next e => exact .next (h.askCounter.snd e)
      · next e => exact .next ((h.askCounter.snd e).upd.complete)
    · split
      · exact .next h.migQueue
      · exact .next ((h.takeInput e).migLeave.hostLoad.complete)

theorem State.Keeps.execFunctionLevelReset (h : s₀.Keeps s) : s₀.KeepsOut (execFunctionLevelReset s) := by
  unfold Machine.execFunctionLevelReset
  split
  · exact .next h
  · next e =>
    have h₁ : s₀.Keeps _ := h.takeInput e
    exact .ite (.next h₁) (.next ((h₁.foldl fun _ _ h => h.contextKill.ite h).setHub.foldl fun _ _ h => h.setReg))

theorem State.Keeps.execPortTrainingEnd (h : s₀.Keeps s) : s₀.KeepsOut (execPortTrainingEnd s) := by
  unfold Machine.execPortTrainingEnd
  split
  · exact .next h
  · next e =>
    extract_lets _ _ s₁ _ s₂
    have h₁ : s₀.Keeps s₁ := (h.takeInput e).setPortField.setPortField.setPortField.setPortField
    have h₂ : s₀.Keeps s₂ := (h.takeInput e).portLeave
    exact .ite (.next (h.takeInput e)) (.ite (.next (h₁.portRecord.ite h₁)) (.next (h₂.portRecord.ite h₂)))

theorem State.Keeps.execLaneRetire (h : s₀.Keeps s) : s₀.KeepsOut (execLaneRetire s) := by
  unfold Machine.execLaneRetire
  split
  · exact .next h
  · next e =>
    have h₁ : s₀.Keeps _ := h.takeInput e
    extract_lets
    exact .ite (.next h₁) (.ite (.next h₁.setPortField) (.ite (.next h₁.setPortField.portLeave.portRecord)
      (.next h₁.setPortField.setPortField.portRecord)))

theorem State.Keeps.execPortDown (h : s₀.Keeps s) : s₀.KeepsOut (execPortDown s) := by
  unfold Machine.execPortDown
  split
  · exact .next h
  · next e => exact .ite (.next ((h.takeInput e).portLeave.portRecord)) (.next (h.takeInput e))

theorem State.Keeps.execLinkReplay (h : s₀.Keeps s) : s₀.KeepsOut (execLinkReplay s) := by
  unfold Machine.execLinkReplay
  split
  · exact .next h
  · next e => exact .next ((h.takeInput e).count.ite (h.takeInput e))

theorem State.Keeps.execSupplyDroop (h : s₀.Keeps s) : s₀.KeepsOut (execSupplyDroop s) := by
  unfold Machine.execSupplyDroop
  split
  · exact .next h
  · next e => exact .next ((h.takeInput e).upd.ite (h.takeInput e))

theorem State.Keeps.execSupplyRecovery (h : s₀.Keeps s) : s₀.KeepsOut (execSupplyRecovery s) := by
  unfold Machine.execSupplyRecovery
  split
  · exact .next h
  · next e => exact .next ((h.takeInput e).upd)

theorem State.Keeps.execPowerCap (h : s₀.Keeps s) : s₀.KeepsOut (execPowerCap s) := by
  unfold Machine.execPowerCap
  split
  · exact .next h
  · next e => exact .next ((h.takeInput e).setReg.upd)

theorem State.Keeps.execPtpMessage (h : s₀.Keeps s) : s₀.KeepsOut (execPtpMessage s) := by
  unfold Machine.execPtpMessage
  split
  · exact .next h
  · next e =>
    extract_lets
    refine .ite (.next (h.takeInput e)) ?_
    split
    · exact .next ((h.takeInput e).setReg)
    · extract_lets
      exact .ite (.next (h.takeInput e)) (.next (((h.takeInput e).upd.ite (h.takeInput e)).setReg.setReg.setReg.setReg.setReg))

theorem State.Keeps.execDebugToken (h : s₀.Keeps s) : s₀.KeepsOut (execDebugToken s) := by
  unfold Machine.execDebugToken
  split
  · exact .next h
  · next e => exact .next ((h.takeInput e).upd)

/-! ### Machine/Startup.lean -/

theorem State.Keeps.bootStep {step fail} (h : s₀.Keeps s) : s₀.Keeps (s.bootStep step fail) := h.setReg

theorem State.Keeps.recover {step fail} (h : s₀.Keeps s) : s₀.Keeps (s.recover step fail) := h.bootStep.upd

theorem State.Keeps.startUnits {cfg dies} (h : s₀.Keeps s) : s₀.Keeps (s.startUnits cfg dies) :=
  h.setReg.upd.setReg.ite h.setReg.upd

theorem State.Keeps.startProgram {cfg} (h : s₀.Keeps s) : s₀.Keeps (s.startProgram cfg) :=
  h.setReg.setReg.setReg.setReg.setReg.setCtx.fresh.fresh.setCluster.setTeam.setGrp

theorem State.Keeps.startUp (h : s₀.Keeps s) : s₀.Keeps s.startUp := by
  unfold State.startUp
  extract_lets _ _ _ _ _ _ _ _ s₁
  have h₁ : s₀.Keeps s₁ := h.upd.setReg.startUnits
  refine h.recover.ite (h.recover.ite (h.upd.recover.ite (h.upd.setReg.recover.ite ?_)))
  split
  · exact h₁.recover
  · exact h₁.recover.ite ((h₁.foldl fun _ _ h => h.setBytes).startProgram.bootStep)

/-! ### Machine/Run.lean -/

theorem State.Keeps.takeRun {core port} (h : s₀.Keeps s) : s₀.Keeps (s.takeRun core port) := by
  unfold State.takeRun
  refine h.ite ?_
  split
  · exact h
  · exact h.setPort.updGrp

theorem State.Keeps.rechoose (h : s₀.Keeps s) : s₀.Keeps s.rechoose := by
  unfold State.rechoose
  refine h.ite (h.foldl fun _ _ h => .ite ?_ h)
  split
  · exact h.releasePort.takeRun
  · exact h

theorem State.Keeps.cachedWord {x w} (h : s₀.Keeps s) (e : s.cachedWord x = some w) : s₀.Keeps w.2 := by
  unfold State.cachedWord at e
  split at e
  · next e' =>
    obtain ⟨l, -, rfl⟩ := Option.map_eq_some_iff.mp e
    exact h.fetchReach.snd e'
  · cases e

theorem State.Keeps.fillLine {x leaf pa0} (h : s₀.Keeps s) : s₀.Keeps (s.fillLine x leaf pa0) :=
  h.raiseLexp.l2Touch.countReq.icachePut

theorem State.Keeps.fetchFail {g cause detail} (h : s₀.Keeps s) : s₀.Keeps (s.fetchFail g cause detail) :=
  h.takeTrap.ite h.updGrp.settle

theorem State.Keeps.fetch {g} (h : s₀.Keeps s) : s₀.Keeps (s.fetch g) := by
  unfold State.fetch
  extract_lets _ s₁
  have h₁ : s₀.Keeps s₁.2 := h.fetchReach
  split
  · exact h₁.fetchFail
  · exact h₁.fetchPark
  · extract_lets
    refine h₁.migQueue.ite ?_
    split
    · exact h₁.migLeave.fetchFail.ite (h₁.migLeave.fetchFail.ite (h₁.migLeave.fetchFail.ite h₁.migLeave.fillLine.heatCount))
    · exact h₁.migLeave.fetchFail
    · exact h₁.migLeave.fetchFail

theorem State.Keeps.takePending {g i} (h : s₀.Keeps s) : s₀.Keeps (s.takePending g i) := by
  unfold State.takePending
  extract_lets
  split
  · exact h
  · exact h.updGrp.takeTrap

theorem State.Keeps.nextFocus (h : s₀.Keeps s) : s₀.Keeps s.nextFocus := by
  unfold State.nextFocus
  extract_lets
  split
  · exact h.upd
  · exact h

theorem State.Keeps.arrivals (h : s₀.Keeps s) : s₀.Keeps s.arrivals := by
  unfold State.arrivals
  refine h.foldl fun _ _ h => ?_
  split
  · exact h.tryArrive
  · exact h.tryArrive
  · exact h.mbarTry
  · exact h

theorem State.Keeps.actkTurn (h : s₀.Keeps s) : s₀.Keeps s.actkTurn := by
  unfold State.actkTurn
  extract_lets
  split
  · exact h.upd.ite h
  · exact h

theorem State.Keeps.maskVector {fn vec masked} (h : s₀.Keeps s) : s₀.Keeps (s.maskVector fn vec masked) :=
  h.setHub.ite (h.setHub.ite h.setHub)

theorem State.Keeps.tapShift {op} (h : s₀.Keeps s) : s₀.Keeps (s.tapShift op) := by
  unfold State.tapShift
  extract_lets _ s₁
  have h₁ : s₀.Keeps s₁.2 := h.freeVal
  split
  · exact h.upd
  · exact h.upd
  · exact h₁.upd.ite h.upd
  · exact h₁.upd.ite h.upd

theorem State.Keeps.tapTurn (h : s₀.Keeps s) : s₀.Keeps s.tapTurn := h.ite (h.upd.foldl fun _ _ h => h.tapShift)

theorem State.Keeps.hostChange {i} (h : s₀.Keeps s) : s₀.Keeps (s.hostChange i) := by
  unfold State.hostChange
  extract_lets
  split
  · exact h.setBytes.ite h
  · exact h.upd
  · exact h.upd
  · exact h.maskVector
  · exact h.upd.ite h
  · exact h.tapShift
  · exact h

theorem State.Keeps.hostChanges (h : s₀.Keeps s) : s₀.Keeps s.hostChanges := (h.foldl fun _ _ h => h.hostChange).upd

theorem State.Keeps.trainingDue (h : s₀.Keeps s) : s₀.Keeps s.trainingDue := h.upd

theorem State.Keeps.countTick (h : s₀.Keeps s) : s₀.Keeps s.countTick := by
  unfold State.countTick
  extract_lets _ each _ s₁ s₂ s₃ s₄ s₅ s₆ s₇ s₈ s₉
  have hEach {l ev s} (h : s₀.Keeps s) : s₀.Keeps (each l ev s) := h.foldl fun _ _ h => h.count
  have h₅ : s₀.Keeps s₅ := hEach (hEach (hEach (hEach (hEach h))))
  have h₆ : s₀.Keeps s₆ := h₅.foldl fun _ _ h => h.ite h.count
  have h₇ : s₀.Keeps s₇ := hEach h₆
  have h₈ : s₀.Keeps s₈ := (hEach h₇).ite h₇
  have h₉ : s₀.Keeps s₉ := (hEach h₈).ite h₈
  exact h₉.ite h₉.count

theorem State.Keeps.recallEvent {e} (h : s₀.Keeps s) : s₀.Keeps (s.recallEvent e) := by
  unfold State.recallEvent
  extract_lets r
  have hr : s₀.KeepsOut r := by
    unfold r
    clear r
    split
    · exact h.execL2SliceRequest
    · exact h.execAtomicAtHome
    · exact h.execStrongHoldRelease
    · exact h.execPeerRequestAtTarget
    · exact h.execCopyEngineTransfer
    · exact h.execGatherEngineTransfer
    · exact h.execMatrixWordExecute
    · exact h.execGridComplete
    · exact .next h
  clear_value r
  split
  · exact hr
  · exact h

theorem State.Keeps.recallOne {r} (h : s₀.Keeps s) : s₀.Keeps (s.recallOne r) := by
  unfold State.recallOne
  split
  · exact h.recallEvent
  · exact h.mbarTry
  · split
    · exact h.recallEvent
    · exact h

theorem State.Keeps.recallTurn (h : s₀.Keeps s) : s₀.Keeps s.recallTurn :=
  (h.setSys.foldl fun _ _ h => h.recallOne).drainRecords.setSys

theorem State.Keeps.tickReads (h : s₀.Keeps s) : s₀.Keeps s.tickReads :=
  (h.foldl fun _ _ h => h.performReq).answerCounters

/-! ### Machine/Dispatch.lean -/

theorem State.Keeps.exec {i} (h : s₀.Keeps s) (hi : i ≠ .packageReset) : s₀.KeepsOut (exec i s) := by
  unfold Machine.exec
  cases i with
  | iadd | isub | imul | imulh | imin | imax | iabs | ineg => exact h.intWord
  | iaddImm | isubImm | imulImm | iminImm | imaxImm => exact h.intImmWord
  | imad | lea | movi | movhi | mov | sel | bfx | bfi | permb | permbImm | pnot | shfl | bcast => exact h.aluWord
  | iaddc | isubb => exact h.carryWord
  | shl | shr | sar | rot => exact h.shiftWord
  | shlImm | shrImm | sarImm | rotImm => exact h.shiftImmWord
  | and | or | xor | andn | not => exact h.logicWord
  | andImm | orImm | xorImm => exact h.logicImmWord
  | icmp | icmpImm => exact h.icmpWord
  | popc | clz | ctz | brev => exact h.bitWord
  | pand | por | pxor => exact h.predWord
  | pmov => exact h.execPmov
  | vote => exact h.execVote
  | redux | scan | qntElem | dqnt => exact h.laneWord (fun _ _ _ _ h => h.setGrp)
  | pairedWord => exact h.execPairedWord
  | fadd | fsub | fmul | ffma | fscaleb => exact h.arithWord
  | fmin | fmax | fcmp | fclass | frnd | fsel => exact h.fpWord
  | frcp | frsq | fexp2 | flog2 | fsin | fcos | ftanh => exact h.sfnWord
  | fsqrt => exact h.specialWord
  | cvt => exact h.dataWord (fun _ _ _ _ h => h.setGrp)
  | qntScale => exact h.uniWord (fun _ _ _ h => .ite_fst h h.setGrp)
  | bra => exact h.word (fun _ _ _ h => .ite_fst h.divStack h.branch)
  | brau | yield => exact h.uniWord (fun _ _ _ h => h)
  | call | qstatBind => exact h.uniWord (fun _ _ _ h => h.setGrp)
  | callReg => exact h.execCallReg
  | ret => exact h.execRet
  | jmark => exact h.word (fun _ _ _ h => .ite_fst h.divStack h.setGrp)
  | join => exact h.execJoin
  | brk => exact h.execBrk
  | exit => exact h.word (fun _ _ _ h => .ite_fst h.setGrp.endPath h.setGrp)
  | nop | unassignedOpcode => exact h.word (fun _ _ _ h => h)
  | sleep => exact h.uniWord (fun _ _ _ h => .ite_fst h h.suspend)
  | sleepDeadline => exact h.execSleepDeadline
  | bar | cbar => exact h.uniWord (fun _ _ _ h => h.suspend.tryArrive)
  | mbar => exact h.execMbar
  | mbarRelease => exact h.execMbarRelease
  | ld | ldIndexed | st | stIndexed | ldu | atom | atomIndexed | red | redIndexed | cwb | ldtag | sttag =>
    exact h.memLanes (fun _ _ _ _ h => h.memIssue)
  | ldl | ldlIndexed => exact h.memLanes (fun _ _ _ _ h => h.localLoad)
  | stl | stlIndexed => exact h.memLanes (fun _ _ _ _ h => h.localStore)
  | waitv | waitvDeadlineForm => exact h.uniWord (fun _ _ _ h => h.waitvIssue)
  | waitvRecheck => exact .next h.waitvTry
  | fence | fencex => exact h.uniWord (fun _ _ _ h => h.fenceIssue)
  | fenceComplete => exact h.execFenceComplete
  | prefetch | prefetchIndexed => exact h.memLanes (fun _ _ _ _ h => .ite_fst h h.prefetchLanes)
  | cinv => exact h.execCinv
  | cinvAll => exact h.uniWord (fun _ _ _ h => (h.foldl fun _ _ h₂ => h₂.dropLeases).ite h.dropLeases)
  | cpy => exact h.execCpy
  | cpyw => exact h.execCpyw
  | gthr => exact h.execGthr
  | ewait => exact h.uniWord (fun _ _ _ h => h.suspend.ewaitTry)
  | equery | tick | halt => exact h.uniWord (fun _ _ _ h => h.updGrp)
  | copyEngineTransfer => exact h.execCopyEngineTransfer
  | gatherEngineTransfer => exact h.execGatherEngineTransfer
  | engineCommandComplete => exact h.execEngineCommandComplete
  | vwait => exact h.uniWord (fun _ _ _ h => .ite_fst h h.suspend.vwaitTry)
  | vwaitComplete => exact .next h.vwaitTry
  | vread => exact h.execVread
  | pub => exact h.execPub
  | pubv => exact h.uniWord (fun _ _ _ h => .ite_fst h.engOperand (.ite_fst h.engOperand (.ite_fst h h.pubIssue)))
  | verchk => exact h.execVerchk
  | coll => exact h.execColl
  | collectiveExecute => exact .next h.collTry
  | wbload => exact h.mxWord (fun _ _ _ h => .ite_fst h.mxOperand (.ite_fst h.mxAlign h.mxQueue))
  | mma => exact h.execMma
  | aclr | acvt => exact h.mxWord (fun _ _ _ h => h.mxQueue)
  | amovToVector => exact h.mxWord (fun _ _ _ h => .ite_fst h.mxOperand h.fresh.mxIssue)
  | amovToTile | mpoly => exact h.mxWord (fun _ _ _ h => .ite_fst h.mxOperand h.mxQueue)
  | miter => exact h.mxWord (fun _ _ _ h => .ite_fst h.mxOperand h.mxIssue)
  | mdrain => exact h.execMdrain
  | coefl => exact h.mxWord (fun _ _ _ h => .ite_fst h.mxOperand (.ite_fst h.mxAlign (.ite_fst h h.updGrp)))
  | matrixWordExecute => exact h.execMatrixWordExecute
  | miterPhase => exact h.execMiterPhase
  | trap => exact h.uniWord (fun _ _ _ h => h.softTrap)
  | rte | rteDrop | rteSkip => exact h.word (fun _ _ _ h => h.rteWord)
  | csrr | csrw | csrs | csrc => exact h.uniWord (fun _ _ _ h => h.csrWord)
  | contextCsrPropagated => exact h.execContextCsrPropagated
  | launch | launchAgg => exact h.uniWord (fun _ _ _ h => h.launchWord)
  | tlbiPage | tlbiPageRecall | tlbiContext | tlbiAll => exact h.uniWord (fun _ _ _ h => h.tlbiWord)
  | tlbiComplete => exact h.execTlbiComplete
  | bkpt => exact h.uniWord (fun _ _ _ h => .ite_fst h.requestFreeze.upd h.softTrap)
  | qbind => exact h.uniWord (fun _ _ _ h => .ite_fst h.trapNow (.ite_fst h.trapNow (.ite_fst h.trapNow h.ctxWrite)))
  | qload => exact h.execQload
  | qloadComplete => exact h.execQloadComplete
  | qstatState => exact h.uniWord (fun _ _ _ _ => h.setGrp)
  | boundOpcode => exact h.execBoundOpcode
  | quirePartitionFill => exact .ite (.next h.fillPart) (.next h)
  | runChoice => exact .ite (.next h) (.next ((h.takeRun.ite h).takeRun.upd))
  | resultWriteback => exact h.execResultWriteback
  | l2SliceRequest => exact h.execL2SliceRequest
  | ownershipRecall => exact .ite (.next h.later) (.ite (.next h.recallSub) (.next h))
  | atomicAtHome => exact h.execAtomicAtHome
  | strongHoldRelease => exact h.execStrongHoldRelease
  | l1Fill => exact h.execL1Fill
  | leaseExpiry => exact .next h.updCore
  | instructionFetch => exact .ite (.next h.fetch) (.next h)
  | hbmUncorrectableError => exact h.execHbmUncorrectableError
  | migrationGo => exact h.execMigrationGo
  | migrationCopyEnd => exact h.execMigrationCopyEnd
  | migrationRetire => exact h.execMigrationRetire
  | pageWalk => exact h.execPageWalk
  | fbcmdReplayAll =>
    exact .next ((h.ite h.replayBegin).replayAll.later.ite (h.ite h.replayBegin).replayAll.setFaultBuf)
  | fbdropRead | holdPeakRead | activityDropRead | eventQueueDropRead => exact .next h.mgmtRead
  | updatePacketArrival => exact h.execUpdatePacketArrival
  | collatorSlotGrant => exact h.execCollatorSlotGrant
  | strongLock => exact h.execStrongLock
  | strongLockAck => exact h.execStrongLockAck
  | strongCommit => exact h.execStrongCommit
  | strongAbort => exact h.execStrongAbort
  | updateAck | replyCacheExpiry => exact .next h.upd
  | lag => exact .ite (.next h) (.next h.setRep.lagEvent)
  | membershipRemove => exact h.execMembershipRemove
  | joinGo => exact .ite (.next h) (.next h.upd.repEvent.post)
  | joinCopyEnd => exact h.execJoinCopyEnd
  | peerRequestSend => exact h.execPeerRequestSend
  | peerResponse => exact h.execPeerResponse
  | peerReissue => exact h.execPeerReissue
  | peerTimeout => exact h.execPeerTimeout
  | peerRequestAtTarget => exact h.execPeerRequestAtTarget
  | peerBusyRetry => exact h.execPeerBusyRetry
  | publicationFlitArrival => exact h.execPublicationFlitArrival
  | publicationAck => exact h.execPublicationAck
  | launchPlacement => exact h.execLaunchPlacement
  | gridComplete => exact h.execGridComplete
  | bucketCloseTimeout => exact .next h.closeBuckets
  | qcfgWrite => exact .next h.qcfgWrite
  | sliceSwitch => exact h.execSliceSwitch
  | preemption => exact h.execPreemption
  | contextRestore => exact h.execContextRestore
  | contextKill => exact .next h.contextKill
  | eventQueueConfigWrite => exact .next h.eventQueueWrite
  -- reducing these two further would count down a numeral
  | counterTick => with_reducible exact h.execCounterTick
  | counterWrite => with_reducible exact h.execCounterWrite
  | actkWrite => exact .next h.actkWrite
  | activityRingWrite => exact h.execActivityRingWrite
  | activityRingConfigWrite => exact .next h.ringWrite
  | resumeGroup => exact .ite (.next h.updGrp.eligible) (.next h)
  | preempt => exact .next (h.ite h.setCtx.askSave)
  | resumeCtx => exact .next (h.setCtx.ite h)
  | rrcfgWrite => exact .next h.rrcfgWrite
  | orderChunkTimeout => exact h.execOrderChunkTimeout
  | orderGateTimeout => exact .ite (.next h) (.next h.setReplay.setDiverged)
  | heatFlush => exact .next (h.setSys.foldl fun _ _ h => h.ite (h.ite ((h.addSat.addSat.ite h.addSat).store)))
  | portRetrain => exact .ite (.next h) (.next h.portLeave.setPortField)
  | registerWrite => exact .next (h.mgmtWrite.ite h)
  | collatorHandover => exact .next (h.passRole.ite h)
  | settledReport => exact .next (h.reportAll.foldl fun _ _ h => h.setRep.lagEvent.ite h)
  | wrap => exact .ite (.ite (.next h) (.next h.upd.repEvent.later)) (.ite (.next h.later) (.next h.upd.repEvent))
  | activityLatch => exact .next h.latchAll
  | freeze => exact .next h.commandFreeze
  | freezeStop => exact .ite (.next h) (.ite (.next h.upd) (.next h.later))
  | resume => exact h.execResume
  | dump => exact .ite (.next h) (.next h.saveBlocks.putAnnex.setReg)
  | stopOnTick => exact .next (h.ite h.stopNow)
  | attestationReport => exact .ite (.next h) (.next (h.setBytes.setByte.upd.ite h.setBytes.setByte.upd.later))
  | packageReset => exact (hi rfl).elim
  | portTrainingEnd => exact h.execPortTrainingEnd
  | laneRetire => exact h.execLaneRetire
  | portDown => exact h.execPortDown
  | linkReplay => exact h.execLinkReplay
  | hostInboundWrite => exact h.execHostInboundWrite
  | hostInboundRead => exact h.execHostInboundRead
  | functionLevelReset => exact h.execFunctionLevelReset
  | attestationRequest => exact .ite (.next h) (.next h.upd.later)
  | supplyDroop => exact h.execSupplyDroop
  | powerCap => exact h.execPowerCap
  | supplyRecovery => exact h.execSupplyRecovery
  | debugToken => exact h.execDebugToken
  | ptpMessage => exact h.execPtpMessage

end
end Sys2Proof.Machine
end

section
namespace Sys2Proof.Tab

variable {α : Type}

theorem rising_filter (p : Nat × α → Bool) {lo : Nat} (t : Tab α) (h : rising lo t = true) :
    rising lo (t.filter p) = true := by
  induction t generalizing lo with
  | nil => rfl
  | cons e t ih =>
    simp only [rising, Bool.and_eq_true, decide_eq_true_eq] at h
    obtain ⟨hlo, ht⟩ := h
    rw [List.filter_cons]
    split
    · simpa [rising, hlo] using ih ht
    · exact ih (rising_mono (by omega) t ht)

theorem wf_filter [DecidableEq α] {d : α} (p : Nat × α → Bool) {t : Tab α} (h : wf d t = true) :
    wf d (t.filter p) = true := by
  simp only [wf, Bool.and_eq_true, List.all_eq_true] at h ⊢
  obtain ⟨hr, hd⟩ := h
  exact ⟨rising_filter p t hr, fun e he => hd e (List.mem_of_mem_filter he)⟩

end Sys2Proof.Tab

namespace Sys2Proof.Machine
open Sys2Proof

/-! ### A step -/

theorem State.Inv.resetFrom {s : State} (h : s.Inv) : s.resetFrom.Inv := Tab.wf_filter _ h

/-- An instruction keeps the canonical form, the package's reset included. -/
theorem State.Inv.exec {i : Instr} {s t : State} (h : s.Inv) (e : exec i s = .next t) : t.Inv := by
  by_cases hi : i = .packageReset
  · subst hi
    have e : Host.Outcome.next s.resetFrom.startUp = .next t := e
    cases e
    exact State.Keeps.refl.startUp.inv h.resetFrom
  · have hk : s.KeepsOut (Machine.exec i s) := State.Keeps.refl.exec hi
    rw [e] at hk
    exact hk.inv h

/-- The state that a plan leaves the instruction, or settles into. -/
def Plan.state : Plan → State
  | .settled s => s
  | .run _ s => s

section
variable {s₀ s t : State}

theorem State.Keeps.settled (h : s₀.Keeps s) : s₀.Keeps (Plan.settled s).state := h

theorem State.Keeps.planWord {g} (h : s₀.Keeps s) : s₀.Keeps (s.planWord g).state := by
  unfold State.planWord
  extract_lets x
  clear_value x
  split
  · exact h
  · split
    · exact h.settle
    · split
      · split
        · exact h.takePending
        · split
          · next e => exact (h.cachedWord e).settle.ite (h.cachedWord e).takePending
          · exact h
      · split
        · exact h.retire.settled
        · split
          · exact h
          · next e =>
            split
            · exact h.cachedWord e
            · exact (h.cachedWord e).settle.ite (h.cachedWord e).decodeTrap

theorem State.Keeps.tryWord {p} (h : s₀.Keeps s) (e : s.tryWord = some p) : s₀.Keeps p.state := by
  obtain ⟨g, -, rfl⟩ := Option.map_eq_some_iff.mp e
  exact h.planWord

theorem State.Keeps.tryEvent {p} (h : s₀.Keeps s) (e : s.tryEvent = some p) : s₀.Keeps p.state := by
  unfold State.tryEvent at e
  split at e <;> cases e
  exact h.upd

theorem State.Keeps.tryChoice {p} (h : s₀.Keeps s) (e : s.tryChoice = some p) : s₀.Keeps p.state := by
  unfold State.tryChoice at e
  split at e <;> cases e
  exact h

/-- What a step tries first, of those that it can. -/
theorem State.Keeps.findSome {l : List (Option Plan)} (h : s₀.Keeps s) (hl : ∀ o ∈ l, ∀ p, o = some p → s₀.Keeps p.state) :
    s₀.Keeps ((l.findSome? id).getD (.settled s)).state := by
  cases e : l.findSome? id with
  | none => exact h
  | some p =>
    obtain ⟨o, ho, hp⟩ := List.exists_of_findSome?_eq_some e
    exact hl o ho p hp

theorem State.Keeps.plan (h : s₀.Keeps s) : s₀.Keeps s.plan.state := by
  unfold State.plan
  split
  · split
    · exact h.upd
    · exact h.upd.ite h.upd.later
  · next agenda _ =>
    cases e : ({ s with agenda := agenda } : State).tryWord with
    | none => exact h.upd
    | some p => exact State.Keeps.tryWord h.upd e
  · refine h.findSome fun o ho p e => ?_
    have hw : s₀.Keeps s.nextFocus := h.nextFocus
    split at ho <;> simp only [List.mem_cons, List.not_mem_nil, or_false] at ho <;> obtain rfl | rfl | rfl := ho
    · exact h.tryWord e
    · exact h.tryEvent e
    · exact h.tryChoice e
    · exact h.tryEvent e
    · exact h.tryChoice e
    · exact hw.tryWord e
    · exact h.tryChoice e
    · exact hw.tryWord e
    · exact h.tryEvent e

/-- The same a tick on. -/
theorem State.Keeps.nextTick (h : s₀.Keeps s) :
    ({ s₀ with tick := s₀.tick + 1 } : State).Keeps { s with tick := s.tick + 1 } :=
  ⟨h.inv, congrArg (· + 1) h.tick⟩

/-- The end of a tick keeps the canonical form, and lets one tick pass. -/
theorem State.endTick_keeps (hs : s.dbg.stopped = false) : ({ s with tick := s.tick + 1 } : State).Keeps s.endTick := by
  unfold State.endTick
  rw [if_neg (by simp [hs])]
  extract_lets s₁ s₂ _ _ _ s₃ s₄ _ s₅
  have h₁ : s.Keeps s₁ := (State.Keeps.refl.ite State.Keeps.refl.launchAll).recallTurn.countTick.latchAll.tickReads.closeCounters.dropPosts
  have h₂ : ({ s with tick := s.tick + 1 } : State).Keeps s₂ := h₁.nextTick.actkTurn.stopNow.hostChanges
  have h₃ : ({ s with tick := s.tick + 1 } : State).Keeps s₃ := h₂.setSys.upd.drainRecords
  have h₄ : ({ s with tick := s.tick + 1 } : State).Keeps s₄ := h₃.foldl fun _ _ h => h.later
  have h₅ : ({ s with tick := s.tick + 1 } : State).Keeps s₅ := h₄.takeSlices.arrivals.watchStuck.markReady.trainingDue
  exact .ite h₄.upd (h₅.foldl fun _ _ h => h.later)

theorem State.endTick_stopped (hs : s.dbg.stopped = true) : s.endTick = s.tapTurn := if_pos hs

theorem State.Inv.endTick (h : s.Inv) : s.endTick.Inv := by
  cases hs : s.dbg.stopped with
  | true => rw [s.endTick_stopped hs]; exact State.Keeps.refl.tapTurn.inv h
  | false => exact (State.endTick_keeps hs).inv h

theorem State.Inv.pass (h : s.Inv) : s.pass.Inv :=
  List.foldlRecOn (motive := State.Inv) _ _ ((State.Keeps.refl (s := s)).upd.rechoose.inv h) fun _ h _ _ => h.endTick

/-- Settles O58: a plan, the instruction that it runs and the ticks that pass each keep the canonical form. -/
theorem stepsKeepMemoryCanonical : Obligations.StepsKeepMemoryCanonical := by
  intro s t h e
  have hp : s.plan.state.Inv := (State.Keeps.refl (s := s)).plan.inv h
  unfold step at e
  split at e
  · next hs =>
    cases e
    rw [hs] at hp
    exact hp.pass
  · next hs =>
    rw [hs] at hp
    split at e <;> cases e
    next hu => exact (hp.exec hu).pass

end
/-! ### Which word a step runs (R2, R65, R216) -/

section
variable {s t : State}

theorem State.cachedWord_of_reach {x : Group} {pa : Nat} {leaf : Word} {l : ILine} (hr : s.fetchReach x = (.ok pa leaf, t))
    (hl : s.iline x.core pa = some l) : s.cachedWord x = some (wordOfBytes ((l.data.drop (pa % 128)).take 8), t) := by
  simp [State.cachedWord, hr, hl]

/-- What a group plans that may issue, has no trap to take and nothing to wait for: the word that its cache holds, as it decodes. -/
theorem State.planWord_of_cached {g : Nat} {w : Word} (hq : (s.grp g).q.word = none) (hset : (s.grp g).settleAfter = false)
    (htrap : (s.grp g).pendingTrap = none) (hheld : s.checkHeld (s.grp g) = false)
    (hw : s.cachedWord (s.grp g) = some (w, t)) :
    (∀ i, parse (isControl (s.grp g).core) w = .ok i → s.planWord g = .run i t) ∧
    ∀ e, parse (isControl (s.grp g).core) w = .error e → s.planWord g =
      .settled (if !(s.grp g).dueDefs.isEmpty && opcodeSettles (isControl (s.grp g).core) w then t.settle g else t.decodeTrap g e) := by
  constructor <;> intro _ h <;> simp [State.planWord, hq, hset, htrap, hheld, hw, h]

/-- In the turn of a word, the plan is the word of the group in focus. -/
theorem State.plan_of_focus {g : Nat} (ha : s.agenda = []) (ht : s.turn % 3 = 0) (hg : s.focusGroup = some g) :
    s.plan = s.planWord g := by
  simp [State.plan, ha, ht, State.tryWord, hg]

theorem step_of_settled (h : s.plan = .settled t) : step s = .next t.pass := by
  simp [step, h]

theorem step_of_run {i : Instr} (h : s.plan = .run i t) :
    (∀ u, exec i t = .next u → step s = .next u.pass) ∧ (∀ f, exec i t = .fault f → step s = .fault f) ∧
      ∀ r, exec i t = .refused r → step s = .refused r := by
  refine ⟨fun u e => ?_, fun f e => ?_, fun r e => ?_⟩ <;> simp [step, h, e]

theorem State.plan_of_mayHappen {e : Instr} {rest} (ha : s.agenda = some e :: rest) (hm : s.mayHappen e = true) :
    s.plan = .run e { s with agenda := rest } := by
  simp [State.plan, ha, hm]

theorem State.plan_of_stopped {e : Instr} {rest} (ha : s.agenda = some e :: rest) (hm : s.mayHappen e = false)
    (hs : s.dbg.stopped = true) : s.plan = .settled { s with agenda := rest } := by
  simp [State.plan, ha, hm, hs]

/-! ### The ticks of a step -/

theorem State.tapShift_dbg (op : TapOp) : (s.tapShift op).dbg = s.dbg := by
  cases op with
  | bypass w => rfl
  | idcode => rfl
  | boundaryScan => simp only [State.tapShift]; split <;> rfl
  | scanChains => simp only [State.tapShift]; split <;> rfl

theorem State.tapTurn_dbg : s.tapTurn.dbg = s.dbg := by
  unfold State.tapTurn
  extract_lets
  split
  · rfl
  · exact List.foldlRecOn (motive := fun t : State => t.dbg = s.dbg) _ _ rfl fun t h op _ => (t.tapShift_dbg op).trans h

theorem State.not_issuing_of_stopped (hs : s.dbg.stopped = true) : s.issuing = false := by
  simp [State.issuing, hs]

theorem State.rechoose_of_stopped (hs : s.dbg.stopped = true) : s.rechoose = s := by
  simp [State.rechoose, s.not_issuing_of_stopped hs]

/-- The choice of other groups at the ports leaves the machine as stopped as it was. -/
theorem State.takeRun_dbg (core : Nat) (p : Bool) : (s.takeRun core p).dbg = s.dbg := by
  unfold State.takeRun
  split
  · rfl
  · split
    · rfl
    · simp

theorem State.rechoose_dbg : s.rechoose.dbg = s.dbg := by
  unfold State.rechoose
  split
  · rfl
  · refine List.foldlRecOn (motive := fun t : State => t.dbg = s.dbg) _ _ rfl fun t h p _ => ?_
    split
    · split
      · rw [State.takeRun_dbg, State.releasePort_dbg, h]
      · exact h
    · exact h

theorem State.pass_of_stopped (hs : s.dbg.stopped = true) : s.pass.tick = s.tick := by
  have h : s.pass.dbg.stopped = true ∧ s.pass.tick = s.tick := by
    refine List.foldlRecOn (motive := fun t : State => t.dbg.stopped = true ∧ t.tick = s.tick) _ _ ?_ fun t h _ _ => ?_
    · rw [State.rechoose_of_stopped (by exact hs)]
      exact ⟨hs, rfl⟩
    · obtain ⟨hstop, htick⟩ := h
      rw [t.endTick_stopped hstop, State.tapTurn_dbg]
      exact ⟨hstop, State.Keeps.refl.tapTurn.tick.trans htick⟩
  exact h.2

theorem State.pass_of_pace_one (hp : s.pace = 1) (hs : s.dbg.stopped = false) : s.pass.tick = s.tick + 1 := by
  have h : s.pass = ({ s with turn := s.turn + 1 } : State).rechoose.endTick := by rw [State.pass, hp]; rfl
  have hr : s.Keeps ({ s with turn := s.turn + 1 } : State).rechoose := State.Keeps.refl.upd.rechoose
  rw [h, (State.endTick_keeps (by rw [State.rechoose_dbg]; exact hs)).tick, hr.tick]

/-- Settles O55: the plan of a step, whose word is the one that the eight bytes decode to, and the ticks that pass. -/
theorem stepRunsTheDecodedWord : Obligations.StepRunsTheDecodedWord := by
  refine ⟨fun s t g pa leaf l => ?_, fun s e rest ha => ⟨fun hm => ?_, fun hm hs => ?_⟩, fun s => ⟨?_, ?_⟩⟩
  · intro x bytes ha hturn hg hq hset htrap hheld hr hl hlen
    have hplan := s.plan_of_focus ha hturn hg
    obtain ⟨hok, herror⟩ := s.planWord_of_cached hq hset htrap hheld (s.cachedWord_of_reach hr hl)
    have hd : decodeBytes (isControl x.core) bytes = parse (isControl x.core) (wordOfBytes bytes) := if_pos hlen
    rw [hd]
    exact ⟨fun i hi => step_of_run (hplan.trans (hok i hi)), fun e he => step_of_settled (hplan.trans (herror e he))⟩
  · exact (step_of_run (s.plan_of_mayHappen ha hm)).1
  · exact step_of_settled (s.plan_of_stopped ha hm hs)
  · exact s.pass_of_stopped
  · exact s.pass_of_pace_one

end
end Sys2Proof.Machine
end

section
namespace Sys2Proof.Tab

variable {α : Type}

theorem mem_of_find? {k : Nat} {a : α} {t : Tab α} (h : find? k t = some a) : (k, a) ∈ t := by
  induction t with
  | nil => cases h
  | cons e t ih =>
    simp only [find?] at h
    split at h
    · next hk => cases h; subst hk; exact List.mem_cons_self
    · exact List.mem_cons_of_mem _ (ih h)

theorem find?_of_mem {k : Nat} {a : α} {t : Tab α} (hn : (t.map Prod.fst).Nodup) (h : (k, a) ∈ t) :
    find? k t = some a := by
  induction t with
  | nil => cases h
  | cons e t ih =>
    rw [List.map_cons, List.nodup_cons] at hn
    obtain ⟨he, ht⟩ := hn
    rcases List.mem_cons.mp h with rfl | h
    · simp [find?]
    · have hne : e.1 ≠ k := fun hk => he (hk ▸ List.mem_map_of_mem h)
      simp [find?, hne, ih ht h]

theorem isSome_find?_of_mem {e : Nat × α} {t : Tab α} (h : e ∈ t) : (find? e.1 t).isSome = true := by
  induction t with
  | nil => cases h
  | cons f t ih =>
    simp only [find?]
    split
    · rfl
    · next hne =>
      rcases List.mem_cons.mp h with rfl | h
      · exact absurd rfl hne
      · exact ih h

end Sys2Proof.Tab

namespace Sys2Proof.Machine
open Sys2Proof

/-! ### Groups of the table -/

theorem State.mem_groups_of_hasGrp {s : State} {k : Nat} (h : s.hasGrp k = true) : (k, s.grp k) ∈ s.groups := by
  obtain ⟨x, hx⟩ := Option.isSome_iff_exists.mp h
  have hg : s.grp k = x := by simp [State.grp, Tab.get_eq_find?, hx]
  exact hg ▸ Tab.mem_of_find? hx

theorem State.grp_of_mem_groups {s : State} {k : Nat} {x : Group} (hn : (s.groups.map Prod.fst).Nodup) (h : (k, x) ∈ s.groups) :
    s.grp k = x := by
  simp [State.grp, Tab.get_eq_find?, Tab.find?_of_mem hn h]

/-! ### Groups that stop where they stand (R348) -/

/-- A group that has given its port back and stands where it stood. -/
def Group.stood (x : Group) : Group := { x with port := none, q := x.q.halt, sched := { x.sched with paused := true } }

theorem Group.stood_stood (x : Group) : x.stood.stood = x.stood := rfl

theorem State.grp_pauseGroup (s : State) {g : Nat} (k : Nat) (hg : s.hasGrp g = true) :
    (s.pauseGroup g).grp k = if k = g then (s.grp g).stood else s.grp k := by
  rw [State.pauseGroup, State.grp_updGrp, State.hasGrp_releasePort, State.grp_releasePort s g g hg, State.grp_releasePort s g k hg]
  by_cases h : k = g <;> simp [h, hg, Group.stood]

theorem State.hasGrp_pauseGroup (s : State) (g k : Nat) : (s.pauseGroup g).hasGrp k = s.hasGrp k := by
  simp [State.pauseGroup]

/-- From `s` to `t` some groups stop where they stand; contexts, ports and what is due may differ. -/
structure State.Halts (s t : State) : Prop where
  mem : t.mem = s.mem
  mgmt : t.mgmt = s.mgmt
  hub : t.hub = s.hub
  teams : t.teams = s.teams
  hasGrp : ∀ k, t.hasGrp k = s.hasGrp k
  grp : ∀ k, t.grp k = s.grp k ∨ t.grp k = (s.grp k).stood

section
variable {s t u : State}

theorem State.Halts.refl : s.Halts s := ⟨rfl, rfl, rfl, rfl, fun _ => rfl, fun _ => .inl rfl⟩

theorem State.Halts.trans (h : s.Halts t) (h' : t.Halts u) : s.Halts u where
  mem := h'.mem.trans h.mem
  mgmt := h'.mgmt.trans h.mgmt
  hub := h'.hub.trans h.hub
  teams := h'.teams.trans h.teams
  hasGrp k := (h'.hasGrp k).trans (h.hasGrp k)
  grp k := by
    rcases h'.grp k with e' | e' <;> rcases h.grp k with e | e <;> rw [e', e]
    · exact .inl rfl
    · exact .inr rfl
    · exact .inr rfl
    · exact .inr rfl

theorem State.Halts.setCtx {c : Nat} {x : Ctx} : s.Halts (s.setCtx c x) := ⟨rfl, rfl, rfl, rfl, fun _ => rfl, fun _ => .inl rfl⟩

theorem State.Halts.later {e : Instr} : s.Halts (s.later e) := by
  unfold State.later
  split
  · exact .refl
  · exact ⟨rfl, rfl, rfl, rfl, fun _ => rfl, fun _ => .inl rfl⟩

theorem State.Halts.pauseGroup {g : Nat} (hg : s.hasGrp g = true) : s.Halts (s.pauseGroup g) where
  mem := by simp [State.pauseGroup]
  mgmt := by simp [State.pauseGroup]
  hub := by simp [State.pauseGroup]
  teams := by simp [State.pauseGroup]
  hasGrp k := s.hasGrp_pauseGroup g k
  grp k := by
    rw [s.grp_pauseGroup k hg]
    split
    · next h => rw [h]; exact .inr rfl
    · exact .inl rfl

/-- The groups that a list names stop, and no other group. -/
theorem State.pauseAll (l : List (Nat × Group)) (hl : ∀ e ∈ l, s.hasGrp e.1 = true) :
    s.Halts (l.foldl (fun s e => s.pauseGroup e.1) s) ∧
    (l.foldl (fun s e => s.pauseGroup e.1) s).ctxs = s.ctxs ∧
    ∀ k, (l.foldl (fun s e => s.pauseGroup e.1) s).grp k = if k ∈ l.map Prod.fst then (s.grp k).stood else s.grp k := by
  induction l generalizing s with
  | nil => exact ⟨.refl, rfl, fun _ => rfl⟩
  | cons e l ih =>
    have he : s.hasGrp e.1 = true := hl e List.mem_cons_self
    obtain ⟨hh, hc, hg⟩ := ih (s := s.pauseGroup e.1) fun f hf => by
      rw [State.hasGrp_pauseGroup]; exact hl f (List.mem_cons_of_mem _ hf)
    refine ⟨(State.Halts.pauseGroup he).trans hh, hc.trans (by simp [State.pauseGroup]), fun k => ?_⟩
    rw [List.foldl_cons, hg k, s.grp_pauseGroup k he]
    by_cases h : k = e.1
    · subst h; simp [Group.stood_stood]
    · rw [if_neg h]
      exact if_congr (by simp [h]) rfl rfl

theorem State.hasGrp_of_mem_filter {p : Nat × Group → Bool} {e : Nat × Group} (h : e ∈ s.groups.filter p) : s.hasGrp e.1 = true :=
  Tab.isSome_find?_of_mem (List.mem_of_mem_filter h)

theorem State.Halts.pauseTeams {ts : List Nat} : s.Halts (s.pauseTeams ts) := (State.pauseAll _ fun _ h => s.hasGrp_of_mem_filter h).1

theorem State.pauseTeams_ctxs (ts : List Nat) : (s.pauseTeams ts).ctxs = s.ctxs :=
  (State.pauseAll _ fun _ h => s.hasGrp_of_mem_filter h).2.1

/-- A group of the teams whose Quire invocation does not run stops. -/
theorem State.grp_pauseTeams {ts : List Nat} {k : Nat} (hk : s.hasGrp k = true) (ht : (s.grp k).team ∈ ts)
    (hr : (s.grp k).q.running = false) : (s.pauseTeams ts).grp k = (s.grp k).stood := by
  have hm : k ∈ (s.groups.filter (fun e => ts.contains e.2.team && !e.2.q.running)).map Prod.fst :=
    List.mem_map.mpr ⟨_, List.mem_filter.mpr ⟨State.mem_groups_of_hasGrp hk, by simp [ht, hr]⟩, rfl⟩
  exact ((State.pauseAll _ fun _ h => s.hasGrp_of_mem_filter h).2.2 k).trans (if_pos hm)

/-- Every other group stands as it was. -/
theorem State.grp_pauseTeams_other {ts : List Nat} {k : Nat} (hn : (s.groups.map Prod.fst).Nodup)
    (h : (s.grp k).team ∉ ts ∨ (s.grp k).q.running = true) : (s.pauseTeams ts).grp k = s.grp k := by
  refine ((State.pauseAll _ fun _ h => s.hasGrp_of_mem_filter h).2.2 k).trans (if_neg fun hm => ?_)
  obtain ⟨⟨j, x⟩, hx, rfl⟩ := List.mem_map.mp hm
  obtain ⟨hx, hp⟩ := List.mem_filter.mp hx
  rw [State.grp_of_mem_groups hn hx] at h
  simp only [Bool.and_eq_true, List.contains_iff_mem, Bool.not_eq_true'] at hp
  obtain ⟨ht, hr⟩ := hp
  rcases h with h | h
  · exact h ht
  · rw [hr] at h; cases h

@[simp] theorem State.ctx_setCtx (c d : Nat) (x : Ctx) : (s.setCtx c x).ctx d = if d = c then x else s.ctx d := by
  simp only [State.ctx, State.setCtx, Tab.get_set]

theorem State.ctx_of_ctxs (h : t.ctxs = s.ctxs) (c : Nat) : t.ctx c = s.ctx c := by simp [State.ctx, h]

theorem State.ctxState_of_mgmt (h : t.mgmt = s.mgmt) (c : Nat) : t.ctxState c = s.ctxState c := by
  simp [State.ctxState, State.reg, h]

theorem State.later_ctxs (e : Instr) : (s.later e).ctxs = s.ctxs := by
  unfold State.later
  split <;> rfl

theorem State.grp_later (e : Instr) (k : Nat) : (s.later e).grp k = s.grp k := by
  unfold State.later
  split <;> rfl

theorem State.mem_pending_later (e : Instr) : e ∈ (s.later e).pending := by
  unfold State.later
  split
  · next h => exact List.contains_iff_mem.mp h
  · simp [State.post]

theorem State.Halts.askSave {c cmd : Nat} : s.Halts (s.askSave c cmd) := by
  unfold State.askSave
  extract_lets
  split
  · exact State.Halts.setCtx.trans .setCtx
  · exact (State.Halts.setCtx.trans .pauseTeams).trans .later

/-- A save of a context that has teams to save (R199, R348). -/
theorem State.askSave_of_teams {c cmd : Nat} (h : cmd = 2 → (s.setCtx c { s.ctx c with cmd := cmd }).saveTeams c ≠ []) :
    s.askSave c cmd = ((s.setCtx c { s.ctx c with cmd := cmd }).pauseTeams
      ((s.setCtx c { s.ctx c with cmd := cmd }).saveTeams c)).later (.preemption c) := by
  unfold State.askSave
  refine if_neg fun hc => ?_
  simp only [Bool.and_eq_true, List.isEmpty_iff, decide_eq_true_eq] at hc
  exact h hc.2 hc.1

theorem State.askSave_ctx_other {c d cmd : Nat} (hd : d ≠ c) : (s.askSave c cmd).ctx d = s.ctx d := by
  unfold State.askSave
  extract_lets _ s₁ ts
  split
  · simp [s₁, hd]
  · rw [State.ctx_of_ctxs ((State.later_ctxs _).trans (State.pauseTeams_ctxs _))]
    simp [s₁, hd]

/-! ### PREEMPT, RESUME_CTX and RESUME_GROUP (R348, R394) -/

theorem State.mem_saveTeams {c k : Nat} :
    k ∈ s.saveTeams c ↔ ∃ e ∈ s.teams, (e.2.ctx = c ∧ ¬ ((s.ctx c).cmd = 2 ∧ isControl e.2.core = true)) ∧ e.1 = k := by
  simp only [State.saveTeams, List.mem_map, List.mem_filter, Bool.and_eq_true, Bool.not_eq_true', Bool.and_eq_false_iff,
    decide_eq_true_eq, decide_eq_false_iff_not, not_and_or, Bool.not_eq_true, and_assoc]

/-- A group that does not run a Quire invocation stands with its other parts as they were. -/
theorem Group.stood_of_not_running {x : Group} (h : x.q.running = false) :
    x.stood = { x with port := none, q := { x.q with word := none, touched := [] }, sched := { x.sched with paused := true } } := by
  simp [Group.stood, QState.halt, ← h]

/-- PREEMPT of a context that does not fault. -/
theorem State.preempt_runs (c : Nat) (hn : (s.groups.map Prod.fst).Nodup) (hc : s.ctxState c ≠ 3) :
    ∃ t, exec (.preempt c) s = .next t ∧ t.mem = s.mem ∧ (t.ctx c).cmd = 1 ∧ (t.ctx c).held = true ∧
      Instr.preemption c ∈ t.pending ∧ ∀ k, s.hasGrp k = true →
        ((∃ e ∈ s.teams, e.2.ctx = c ∧ e.1 = (s.grp k).team) → (s.grp k).q.running = false → t.grp k = (s.grp k).stood) ∧
        ((¬ ∃ e ∈ s.teams, e.2.ctx = c ∧ e.1 = (s.grp k).team) ∨ (s.grp k).q.running = true → t.grp k = s.grp k) := by
  let s₁ := s.setCtx c { s.ctx c with held := true }
  let s₂ := s₁.setCtx c { s₁.ctx c with cmd := 1 }
  have he : exec (.preempt c) s = .next (s₁.askSave c 1) := congrArg Host.Outcome.next (if_neg hc)
  have hs : s₁.askSave c 1 = (s₂.pauseTeams (s₂.saveTeams c)).later (.preemption c) := s₁.askSave_of_teams fun h => by cases h
  have hx : s₂.ctx c = { s.ctx c with held := true, cmd := 1 } := by simp [s₂, s₁]
  have hmem (k : Nat) : (s.grp k).team ∈ s₂.saveTeams c ↔ ∃ e ∈ s.teams, e.2.ctx = c ∧ e.1 = (s.grp k).team := by
    simp [State.mem_saveTeams, s₂, s₁]
  have hctx : (s₁.askSave c 1).ctx c = s₂.ctx c :=
    hs ▸ State.ctx_of_ctxs ((State.later_ctxs _).trans (State.pauseTeams_ctxs _)) c
  refine ⟨_, he, State.Halts.askSave.mem, by rw [hctx, hx], by rw [hctx, hx], hs ▸ State.mem_pending_later _, fun k hk => ?_⟩
  rw [hs, State.grp_later, ← hmem k]
  refine ⟨fun ht hr => State.grp_pauseTeams hk ht hr, fun h => State.grp_pauseTeams_other hn h⟩

theorem State.resumeGroup_runs {core slot : Nat} (hslot : slot < 64) (hg : s.hasGrp (groupKey core slot) = true)
    (hh : (s.grp (groupKey core slot)).sched.halted = true) :
    ∃ t, exec (.resumeGroup core slot) s = .next t ∧ t.mem = s.mem ∧
      t.grp (groupKey core slot) = { s.grp (groupKey core slot) with
        sched := { (s.grp (groupKey core slot)).sched with halted := false, since := s.tick } } ∧
      ∀ k, k ≠ groupKey core slot → t.grp k = s.grp k := by
  refine ⟨_, if_pos ⟨hg, hslot, hh⟩, by simp, ?_, fun k hk => ?_⟩
  · simp [State.eligible, State.grp_updGrp, hg]
  · simp [State.eligible, State.grp_updGrp, hk]

/-! ### The slice table (R348) -/

/-- What a slice entry asks of a context: its restore or its save. -/
def State.sliceTurn (m : BitVec 64) (s : State) (c : Nat) : State :=
  if m.getLsbD c then
    if s.ctxState c = 2 ∧ (s.ctx c).cmd = 0 then s.setCtx c { s.ctx c with cmd := 3, held := false } else s
  else if (s.ctx c).cmd = 0 then s.askSave c 2
  else if (s.ctx c).cmd = 3 then s.setCtx c { s.ctx c with cmd := 0 } else s

/-- What a slice entry writes before it turns to the contexts: the entry's two words and the gang. -/
def State.sliceEntry (s : State) (i : Nat) (late : Bool) : State :=
  let w := s.reg (sliceAddr i)
  let s' := s.setReg (sliceAddr i) (w &&& ~~~fieldMask 63 1)
  let t := s'.setReg (sliceAddr i + 8) ((s'.reg (sliceAddr i + 8) &&& ~~~fieldMask 63 1) ||| (if late then fieldMask 63 1 else 0))
  t.setHub { t.hub with gang := some (gangMask s (bits w 32 6)) }

theorem State.takeSlice_eq (i : Nat) (late : Bool) : s.takeSlice i late =
    (List.range 64).foldl (State.sliceTurn (gangMask s (bits (s.reg (sliceAddr i)) 32 6))) (s.sliceEntry i late) := rfl

theorem State.Halts.sliceTurn {m : BitVec 64} {c : Nat} : s.Halts (s.sliceTurn m c) := by
  unfold State.sliceTurn
  split
  · split
    · exact .setCtx
    · exact .refl
  · split
    · exact .askSave
    · split
      · exact .setCtx
      · exact .refl

theorem State.sliceTurn_ctx_other {m : BitVec 64} {c d : Nat} (hd : d ≠ c) : (s.sliceTurn m c).ctx d = s.ctx d := by
  unfold State.sliceTurn
  split
  · split
    · simp [hd]
    · rfl
  · split
    · exact State.askSave_ctx_other hd
    · split
      · simp [hd]
      · rfl

theorem State.sliceTurns (m : BitVec 64) (l : List Nat) :
    s.Halts (l.foldl (State.sliceTurn m) s) ∧ ∀ d, d ∉ l → (l.foldl (State.sliceTurn m) s).ctx d = s.ctx d := by
  induction l generalizing s with
  | nil => exact ⟨.refl, fun _ _ => rfl⟩
  | cons c l ih =>
    obtain ⟨hh, hc⟩ := ih (s := s.sliceTurn m c)
    refine ⟨State.Halts.sliceTurn.trans hh, fun d hd => ?_⟩
    rw [List.mem_cons, not_or] at hd
    exact (hc d hd.2).trans (State.sliceTurn_ctx_other hd.1)

/-- The turn of one context: it starts with the context as the entry found it, and no later turn touches what it made of it. -/
theorem State.sliceTurns_at (m : BitVec 64) {l : List Nat} (hl : l.Nodup) {c : Nat} (hc : c ∈ l) :
    ∃ u, s.Halts u ∧ u.ctx c = s.ctx c ∧ (u.sliceTurn m c).Halts (l.foldl (State.sliceTurn m) s) ∧
      (l.foldl (State.sliceTurn m) s).ctx c = (u.sliceTurn m c).ctx c := by
  obtain ⟨a, b, rfl⟩ := List.append_of_mem hc
  rw [List.nodup_append] at hl
  obtain ⟨-, hb, hab⟩ := hl
  have hca : c ∉ a := fun h => hab c h c List.mem_cons_self rfl
  obtain ⟨ha, hactx⟩ := s.sliceTurns m a
  obtain ⟨hh, hctx⟩ := ((a.foldl (State.sliceTurn m) s).sliceTurn m c).sliceTurns m b
  rw [List.foldl_append, List.foldl_cons]
  exact ⟨_, ha, hactx c hca, hh, hctx c (List.nodup_cons.mp hb).1⟩

/-- The turn of a saved context of the gang: it is to be restored. -/
theorem State.sliceTurn_restores {m : BitVec 64} {c : Nat} (hm : m.getLsbD c = true) (hs : s.ctxState c = 2)
    (hc : (s.ctx c).cmd = 0) : ((s.sliceTurn m c).ctx c).cmd = 3 := by
  simp [State.sliceTurn, hm, hs, hc]

/-- The turn of a context outside the gang that has a team on a compute-die core: it is to be saved, and the team's groups stop. -/
theorem State.sliceTurn_saves {m : BitVec 64} {c k : Nat} (hm : m.getLsbD c = false) (hc : (s.ctx c).cmd = 0)
    (hk : s.hasGrp k = true) (ht : ∃ e ∈ s.teams, e.2.ctx = c ∧ isControl e.2.core = false ∧ e.1 = (s.grp k).team) :
    ((s.sliceTurn m c).ctx c).cmd = 2 ∧ ((s.grp k).q.running = false → (s.sliceTurn m c).grp k = (s.grp k).stood) := by
  let s₁ := s.setCtx c { s.ctx c with cmd := 2 }
  have hmem : (s.grp k).team ∈ s₁.saveTeams c := by
    obtain ⟨e, he, hec, hcore, hek⟩ := ht
    exact State.mem_saveTeams.mpr ⟨e, he, ⟨hec, fun h => by simp [hcore] at h⟩, hek⟩
  have hs : s.sliceTurn m c = (s₁.pauseTeams (s₁.saveTeams c)).later (.preemption c) := by
    rw [State.sliceTurn, if_neg (by simp [hm]), if_pos hc]
    exact s.askSave_of_teams fun _ => List.ne_nil_of_mem hmem
  rw [hs]
  refine ⟨?_, fun hr => ?_⟩
  · rw [State.ctx_of_ctxs ((State.later_ctxs _).trans (State.pauseTeams_ctxs _))]
    simp [s₁]
  · rw [State.grp_later]
    exact State.grp_pauseTeams (s := s₁) hk hmem hr

theorem sliceAddr_eq (n : Nat) : sliceAddr n = 0x10000012000 + 16 * n := by
  simp only [sliceAddr, hubBase]

theorem gangMask_eq (g : Nat) : gangMask s g = s.reg (0x10000013000 + 8 * g) := by
  simp only [gangMask, hubBase]

theorem State.sliceEntry_reg (n : Nat) (late : Bool) :
    (s.sliceEntry n late).reg (sliceAddr n) = s.reg (sliceAddr n) &&& ~~~0x8000000000000000 ∧
    (s.sliceEntry n late).reg (sliceAddr n + 8) =
      (s.reg (sliceAddr n + 8) &&& ~~~0x8000000000000000) ||| (if late then 0x8000000000000000 else 0) := by
  have hf : fieldMask 63 1 = 0x8000000000000000 := rfl
  have hh (t : State) (x : Hub) (a : Nat) : (t.setHub x).reg a = t.reg a := rfl
  simp [State.sliceEntry, hf, hh]

theorem State.sliceEntry_ctxState {n c : Nat} (hn : n < 256) (late : Bool) : (s.sliceEntry n late).ctxState c = s.ctxState c := by
  have hc : ctxEntry c ≠ sliceAddr n := by simp only [ctxEntry, sliceAddr]; omega
  have hc' : ctxEntry c ≠ sliceAddr n + 8 := by simp only [ctxEntry, sliceAddr]; omega
  have hh (t : State) (x : Hub) (a : Nat) : (t.setHub x).reg a = t.reg a := rfl
  simp [State.ctxState, State.sliceEntry, hh, hc, hc']

theorem execSliceSwitch_written {n : Nat} {late : Bool} (hd : s.dueSlice = some (n, late))
    (hw : sliceAddr n ∈ s.dbg.sw ∨ sliceAddr n + 8 ∈ s.dbg.sw) : exec (.sliceSwitch n) s = .next s := by
  show execSliceSwitch n s = .next s
  rw [execSliceSwitch, hd]
  refine if_neg fun h => ?_
  simp only [List.contains_iff_mem] at h
  exact hw.elim h.2.1 h.2.2

theorem execSliceSwitch_due {n : Nat} {late : Bool} (hd : s.dueSlice = some (n, late))
    (hw : sliceAddr n ∉ s.dbg.sw) (hw' : sliceAddr n + 8 ∉ s.dbg.sw) : exec (.sliceSwitch n) s = .next (s.takeSlice n late) := by
  show execSliceSwitch n s = _
  rw [execSliceSwitch, hd]
  exact if_pos ⟨rfl, by simpa using hw, by simpa using hw'⟩

theorem execSliceSwitch_not_due {n : Nat} (hd : ∀ late, s.dueSlice ≠ some (n, late)) : exec (.sliceSwitch n) s = .next s := by
  show execSliceSwitch n s = .next s
  unfold execSliceSwitch
  split
  · next i late h => exact if_neg (by rintro ⟨rfl, -⟩; exact hd late h)
  · rfl

/-- What every turn leaves, and what the entry wrote. -/
theorem State.takeSlice_frame (n : Nat) (late : Bool) : (s.sliceEntry n late).Halts (s.takeSlice n late) :=
  ((s.sliceEntry n late).sliceTurns _ _).1

theorem State.Halts.reg (h : s.Halts t) (a : Nat) : t.reg a = s.reg a := by simp [State.reg, h.mgmt]

/-- A group that may have stopped keeps its paths and its registers. -/
theorem State.Halts.flow_regs (h : s.Halts t) (k : Nat) : (t.grp k).flow = (s.grp k).flow ∧ (t.grp k).regs = (s.grp k).regs := by
  rcases h.grp k with e | e <;> rw [e]
  · exact ⟨rfl, rfl⟩
  · exact ⟨rfl, rfl⟩

theorem State.Halts.team (h : s.Halts t) (k : Nat) : (t.grp k).team = (s.grp k).team := by
  rcases h.grp k with e | e <;> rw [e]
  rfl

theorem State.Halts.not_running (h : s.Halts t) {k : Nat} (hr : (s.grp k).q.running = false) : (t.grp k).q.running = false := by
  rcases h.grp k with e | e <;> rw [e]
  · exact hr
  · rfl

/-- A group that has stopped stays so. -/
theorem State.Halts.stays (h : s.Halts t) {k : Nat} (hp : (s.grp k).port = none ∧ (s.grp k).sched.paused = true) :
    (t.grp k).port = none ∧ (t.grp k).sched.paused = true := by
  rcases h.grp k with e | e <;> rw [e]
  · exact hp
  · exact ⟨rfl, rfl⟩

theorem State.takeSlice_restores {n c : Nat} (hn : n < 256) (late : Bool) (hc : c < 64)
    (hm : (gangMask s (bits (s.reg (sliceAddr n)) 32 6)).getLsbD c = true) (hs : s.ctxState c = 2) (h0 : (s.ctx c).cmd = 0) :
    ((s.takeSlice n late).ctx c).cmd = 3 := by
  obtain ⟨u, hu, huc, -, hend⟩ := (s.sliceEntry n late).sliceTurns_at (gangMask s (bits (s.reg (sliceAddr n)) 32 6))
    List.nodup_range (List.mem_range.mpr hc)
  rw [State.takeSlice_eq, hend]
  refine State.sliceTurn_restores hm ?_ ?_
  · rw [State.ctxState_of_mgmt hu.mgmt, State.sliceEntry_ctxState hn, hs]
  · rw [huc]; exact h0

theorem State.takeSlice_saves {n c k : Nat} (late : Bool) (hc : c < 64)
    (hm : (gangMask s (bits (s.reg (sliceAddr n)) 32 6)).getLsbD c = false) (h0 : (s.ctx c).cmd = 0) (hk : s.hasGrp k = true)
    (ht : ∃ e ∈ s.teams, e.2.ctx = c ∧ isControl e.2.core = false ∧ e.1 = (s.grp k).team) :
    ((s.takeSlice n late).ctx c).cmd = 2 ∧ ((s.grp k).q.running = false →
      ((s.takeSlice n late).grp k).port = none ∧ ((s.takeSlice n late).grp k).sched.paused = true) := by
  obtain ⟨u, hu, huc, hrest, hend⟩ := (s.sliceEntry n late).sliceTurns_at (gangMask s (bits (s.reg (sliceAddr n)) 32 6))
    List.nodup_range (List.mem_range.mpr hc)
  have hteam : ∃ e ∈ u.teams, e.2.ctx = c ∧ isControl e.2.core = false ∧ e.1 = (u.grp k).team := by
    rw [hu.teams, hu.team k]; exact ht
  obtain ⟨hcmd, hstop⟩ := State.sliceTurn_saves hm (huc ▸ h0) ((hu.hasGrp k).trans hk) hteam
  rw [State.takeSlice_eq, hend]
  refine ⟨hcmd, fun hr => hrest.stays ?_⟩
  rw [hstop (hu.not_running hr)]
  exact ⟨rfl, rfl⟩

/-- Settles O46: PREEMPT and RESUME act on the groups of a context, and a slice entry takes its turn at each context alone. -/
theorem preemptResumeAndSlice : Obligations.PreemptResumeAndSlice := by
  refine ⟨fun s c hn => ?_, fun s c => ⟨?_, ?_⟩, fun s core slot => ?_, fun s n late => ⟨?_, ?_⟩, fun s n => execSliceSwitch_not_due⟩
  · intro mine
    refine ⟨fun h => congrArg Host.Outcome.next (if_pos h), fun h => ?_⟩
    obtain ⟨t, he, hmem, hcmd, hheld, hpend, hgrp⟩ := s.preempt_runs c hn h
    refine ⟨t, he, hmem, hcmd, hheld, hpend, fun k hk => ⟨fun hm hr => ?_, (hgrp k hk).2⟩⟩
    exact ((hgrp k hk).1 hm hr).trans (Group.stood_of_not_running hr)
  · exact fun h h' => congrArg Host.Outcome.next (if_pos ⟨h, h'⟩)
  · exact fun h => congrArg Host.Outcome.next (if_neg fun h' => h.elim (· h'.1) (· h'.2))
  · intro g x hslot hg
    refine ⟨fun hh => if_neg fun h => ?_, fun hh => State.resumeGroup_runs hslot hg hh⟩
    have h' : (s.grp g).sched.halted = true := h.2.2
    rw [hh] at h'
    cases h'
  · intro hw hd
    rw [← sliceAddr_eq] at hw
    exact execSliceSwitch_written hd hw
  · intro hlt hd hw hw' _
    have hreg : 0x10000012000 + 16 * n = sliceAddr n := (sliceAddr_eq n).symm
    simp only [hreg, ← gangMask_eq] at hw hw' ⊢
    have hf := s.takeSlice_frame n late
    obtain ⟨hr, hr'⟩ := s.sliceEntry_reg n late
    refine ⟨_, execSliceSwitch_due hd hw hw', hf.mem, by rw [hf.hub]; rfl, (hf.reg _).trans hr, (hf.reg _).trans hr', ?_, ?_⟩
    · exact fun c hc hm hs h0 => State.takeSlice_restores hlt late hc hm hs h0
    · rintro c hc k hm h0 hk ⟨e, he, hec, hek, hcore⟩
      obtain ⟨hcmd, hstop⟩ := State.takeSlice_saves late hc hm h0 hk ⟨e, he, hec, by simpa [isControl] using hcore, hek⟩
      exact ⟨hcmd, hstop, hf.flow_regs k⟩

end
end Sys2Proof.Machine
end

section
namespace Sys2Proof.Machine
open Sys2Proof

/-! ### Posting an event record (R349) -/

/-- From `s₀` to `s` event records may have been posted: of registers only the ring's HEAD may differ. -/
structure State.Posts (s₀ s : State) : Prop where
  groups : s.groups = s₀.groups
  inputs : s.inputs = s₀.inputs
  reg : ∀ a, a ≠ evBase + 0x10 → s.reg a = s₀.reg a

section
variable {s₀ s t : State}

theorem State.reg_of_mgmt (h : t.mgmt = s.mgmt) (a : Nat) : t.reg a = s.reg a := by simp [State.reg, h]

theorem State.Posts.refl : s.Posts s := ⟨rfl, rfl, fun _ _ => rfl⟩

/-- A change of fields other than the groups, the inputs and the registers. -/
theorem State.Posts.upd (h : s₀.Posts s) (hg : t.groups = s.groups) (hi : t.inputs = s.inputs) (hm : t.mgmt = s.mgmt) :
    s₀.Posts t :=
  ⟨hg.trans h.groups, hi.trans h.inputs, fun a ha => (State.reg_of_mgmt hm a).trans (h.reg a ha)⟩

theorem State.Posts.ite {c : Prop} {inst : Decidable c} (hs : s₀.Posts s) (ht : s₀.Posts t) : s₀.Posts (if c then s else t) := by
  split <;> assumption

theorem State.Posts.foldl {α : Type} {l : List α} {f : State → α → State} (h : s₀.Posts s)
    (hf : ∀ s a, s₀.Posts s → s₀.Posts (f s a)) : s₀.Posts (l.foldl f s) :=
  List.foldlRecOn (motive := s₀.Posts) l f h fun s h a _ => hf s a h

theorem State.Posts.setSys {x} (h : s₀.Posts s) : s₀.Posts (s.setSys x) := h.upd rfl rfl rfl

theorem State.Posts.setHub {x} (h : s₀.Posts s) : s₀.Posts (s.setHub x) := h.upd rfl rfl rfl

theorem State.Posts.setHead {v} (h : s₀.Posts s) : s₀.Posts (s.setReg (evBase + 0x10) v) :=
  ⟨h.groups, h.inputs, fun a ha => by rw [State.reg_setReg, if_neg ha, h.reg a ha]⟩

theorem State.Posts.setBytes {pa l} (h : s₀.Posts s) : s₀.Posts (s.setBytes pa l) := by
  induction l generalizing s pa with
  | nil => exact h
  | cons b l ih => exact ih (h.upd rfl rfl rfl)

theorem State.Posts.count {unit ev n} (h : s₀.Posts s) : s₀.Posts (s.count unit ev n) := h.upd (by simp) (by simp) (by simp)

theorem State.Posts.signal {fn vec} (h : s₀.Posts s) : s₀.Posts (s.signal fn vec) := h.upd (by simp) (by simp) (by simp)

theorem State.Posts.l2Touch {pa die write} (h : s₀.Posts s) : s₀.Posts (s.l2Touch pa die write) := by
  unfold State.l2Touch
  extract_lets
  split
  · exact h.ite h.setSys
  · exact h.setSys.ite (h.setSys.ite (h.upd rfl rfl rfl))

theorem State.Posts.recallSub {sub} (h : s₀.Posts s) : s₀.Posts (s.recallSub sub) := by
  unfold State.recallSub
  extract_lets
  split
  · exact h
  · exact h.ite (((h.foldl fun _ _ h => h.setSys).foldl fun _ _ h => (h.l2Touch.ite h).setSys).setSys.count)

theorem State.Posts.holdLine {pa on} (h : s₀.Posts s) : s₀.Posts (s.holdLine pa on) := h.setHub.ite (h.setHub.ite h)

theorem State.Posts.writeRecord {data rest} (h : s₀.Posts s) : s₀.Posts (s.writeRecord data rest) := by
  unfold State.writeRecord
  extract_lets _ _ _ _ _ _ _ _ s₁
  have h₁ : s₀.Posts s₁ := h.recallSub.holdLine.setBytes.l2Touch.setHub.setHead
  exact h.ite (h.recallSub.holdLine.ite (h₁.count.ite h₁.count.signal))

theorem State.Posts.drainRecords (h : s₀.Posts s) : s₀.Posts s.drainRecords := by
  refine h.foldl fun _ _ h => ?_
  split
  · exact h.writeRecord
  · exact h

theorem State.Posts.postEvent {code fields} (h : s₀.Posts s) : s₀.Posts (s.postEvent code fields) :=
  h.setHub.ite h.setHub.drainRecords

theorem State.Posts.portRecord {p} (h : s₀.Posts s) : s₀.Posts (s.portRecord p) := h.postEvent

end

/-! ### Fields of a register -/

/-- A bit of a number that stands at a place in a word. -/
theorem getLsbD_ofNat_mul_two_pow (y lo k : Nat) (hk : k < 64) :
    (BitVec.ofNat 64 (y * 2 ^ lo)).getLsbD k = (decide (lo ≤ k) && y.testBit (k - lo)) := by
  simp only [BitVec.getLsbD_ofNat, hk, decide_true, Bool.true_and, Nat.testBit_mul_two_pow]

/-- A bit of a word after one of its fields is replaced. -/
theorem getLsbD_replaceField (w : Word) (lo n x k : Nat) (hk : k < 64) :
    ((w &&& ~~~fieldMask lo n) ||| BitVec.ofNat 64 (x % 2 ^ n * 2 ^ lo)).getLsbD k =
      if lo ≤ k ∧ k < lo + n then x.testBit (k - lo) else w.getLsbD k := by
  simp only [BitVec.getLsbD_or, BitVec.getLsbD_and, BitVec.getLsbD_not, fieldMask, getLsbD_ofNat_mul_two_pow _ _ _ hk,
    Nat.testBit_two_pow_sub_one, Nat.testBit_mod_two_pow, hk, decide_true, Bool.true_and]
  by_cases h : lo ≤ k
  · have hn : k - lo < n ↔ k < lo + n := by omega
    by_cases hkn : k < lo + n <;> simp [h, hn, hkn]
  · simp [h]

/-! ### The register of a Sordel port (R425) -/

theorem portAddr_eq (p : Nat) : portAddr p = 0x10000260000 + 64 * p := by
  simp only [portAddr, hubBase]

/-- A field of a port's register. -/
def State.portField (s : State) (p lo n : Nat) : BitVec n := (s.reg (portAddr p)).extractLsb' lo n

/-- A port's EN. -/
def State.portEnabled (s : State) (p : Nat) : Bool := (s.reg (portAddr p)).getLsbD 0

/-- From `s₀` to `s` the groups, the inputs and the port's EN stand. -/
structure State.PortFrame (p : Nat) (s₀ s : State) : Prop where
  groups : s.groups = s₀.groups
  inputs : s.inputs = s₀.inputs
  enabled : s.portEnabled p = s₀.portEnabled p

section
variable {s₀ s : State} {p : Nat} {rest : List Input}

theorem State.portState_eq : s.portState p = (s.portField p 2 2).toNat := rfl

theorem State.portWidth_eq : s.portWidth p = (s.portField p 4 3).toNat := rfl

theorem State.getLsbD_reg_setPortField (lo n x k : Nat) (hk : k < 64) : ((s.setPortField p lo n x).reg (portAddr p)).getLsbD k =
    if lo ≤ k ∧ k < lo + n then x.testBit (k - lo) else (s.reg (portAddr p)).getLsbD k := by
  rw [State.setPortField, State.reg_setReg, if_pos rfl, getLsbD_replaceField _ _ _ _ _ hk]

@[simp] theorem State.portField_setPortField_same {lo n x : Nat} (h : lo + n ≤ 64) :
    (s.setPortField p lo n x).portField p lo n = BitVec.ofNat n x := by
  refine BitVec.eq_of_getLsbD_eq fun k hk => ?_
  simp only [State.portField, BitVec.getLsbD_extractLsb', State.getLsbD_reg_setPortField _ _ _ _ (show lo + k < 64 by omega),
    BitVec.getLsbD_ofNat, if_pos (show lo ≤ lo + k ∧ lo + k < lo + n by omega), Nat.add_sub_cancel_left]

@[simp] theorem State.portField_setPortField_other {lo n x lo' n' : Nat} (h : lo' + n' ≤ 64) (hd : lo' + n' ≤ lo ∨ lo + n ≤ lo') :
    (s.setPortField p lo n x).portField p lo' n' = s.portField p lo' n' := by
  refine BitVec.eq_of_getLsbD_eq fun k hk => ?_
  have hne : ¬ (lo ≤ lo' + k ∧ lo' + k < lo + n) := by omega
  simp only [State.portField, BitVec.getLsbD_extractLsb', State.getLsbD_reg_setPortField _ _ _ _ (show lo' + k < 64 by omega), if_neg hne]

theorem State.portEnabled_setPortField {lo n x : Nat} (h : 0 < lo) : (s.setPortField p lo n x).portEnabled p = s.portEnabled p := by
  rw [State.portEnabled, State.getLsbD_reg_setPortField _ _ _ _ (by decide), if_neg (by omega), State.portEnabled]

@[simp] theorem State.setPortField_mem (lo n x : Nat) : (s.setPortField p lo n x).mem = s.mem := State.setReg_mem ..

@[simp] theorem State.portLeave_mem (st : Nat) : (s.portLeave p st).mem = s.mem := by
  simp [State.portLeave]

/-- What `portLeave` writes of the port's register: STATE, and WIDTH 0. -/
theorem State.portField_portLeave (st lo n : Nat) : (s.portLeave p st).portField p lo n =
    ((s.setPortField p 2 2 st).setPortField p 4 3 0).portField p lo n := rfl

@[simp] theorem State.portField_portLeave_state (st : Nat) : (s.portLeave p st).portField p 2 2 = BitVec.ofNat 2 st := by
  simp [State.portField_portLeave]

@[simp] theorem State.portField_portLeave_width (st : Nat) : (s.portLeave p st).portField p 4 3 = 0 := by
  simp [State.portField_portLeave]

@[simp] theorem State.portField_portLeave_retired (st : Nat) : (s.portLeave p st).portField p 9 4 = s.portField p 9 4 := by
  simp [State.portField_portLeave]

theorem State.reg_portRecord (q : Nat) : (s.portRecord q).reg (portAddr p) = s.reg (portAddr p) := by
  have ha : evBase + 0x10 < portAddr p := by unfold portAddr evBase; omega
  exact State.Posts.refl.portRecord.reg _ ha.ne'

@[simp] theorem State.portField_portRecord (q lo n : Nat) : (s.portRecord q).portField p lo n = s.portField p lo n := by
  rw [State.portField, State.reg_portRecord, State.portField]

theorem State.PortFrame.refl : s.PortFrame p s := ⟨rfl, rfl, rfl⟩

theorem State.PortFrame.setPortField {lo n x : Nat} (hlo : 0 < lo) (h : s₀.PortFrame p s) : s₀.PortFrame p (s.setPortField p lo n x) :=
  ⟨(State.setReg_groups ..).trans h.groups, (State.setReg_inputs ..).trans h.inputs,
    (State.portEnabled_setPortField hlo).trans h.enabled⟩

theorem State.PortFrame.portLeave {st : Nat} (h : s₀.PortFrame p s) : s₀.PortFrame p (s.portLeave p st) :=
  have h' := (h.setPortField (lo := 2) (n := 2) (x := st) (by decide)).setPortField (lo := 4) (n := 3) (x := 0) (by decide)
  ⟨h'.groups, h'.inputs, h'.enabled⟩

theorem State.PortFrame.portRecord (h : s₀.PortFrame p s) : s₀.PortFrame p (s.portRecord p) where
  groups := State.Posts.refl.portRecord.groups.trans h.groups
  inputs := State.Posts.refl.portRecord.inputs.trans h.inputs
  enabled := (congrArg (·.getLsbD 0) (State.reg_portRecord p)).trans h.enabled

theorem State.PortFrame.ite {t : State} {c : Prop} {inst : Decidable c} (hs : s₀.PortFrame p s) (ht : s₀.PortFrame p t) :
    s₀.PortFrame p (if c then s else t) := by
  split <;> assumption

/-! ### The width of a port (R426) -/

theorem widthOf_le (n : Nat) : widthOf n ≤ 4 := by
  unfold widthOf
  split
  · exact le_rfl
  · split <;> omega

/-- A width that lanes allow has room in WIDTH. -/
theorem toNat_ofNat_of_le_laneWidth {w lanes : Nat} (h : w ≤ laneWidth lanes) : (BitVec.ofNat 3 w).toNat = w :=
  Nat.mod_eq_of_lt ((h.trans (widthOf_le _)).trans_lt (by decide))

theorem laneWidth_eq {lanes : Nat} {f : Nat → Bool} (h : ∀ k < 4, lanes.testBit k = f k) :
    laneWidth lanes = widthOf ((List.range 4).filter f).length := by
  rw [laneWidth, List.filter_congr fun k hk => h k (List.mem_range.mp hk)]

theorem testBit_fifteen_xor {n k : Nat} (hk : k < 4) : (15 ^^^ n).testBit k = !n.testBit k := by
  rw [Nat.testBit_xor, show (15 : Nat) = 2 ^ 4 - 1 from rfl, Nat.testBit_two_pow_sub_one, decide_eq_true hk, Bool.true_xor]

/-- The width that the lanes allow which pass and are not retired. -/
theorem laneWidth_passing (l : Nat) (b : BitVec 4) : laneWidth (l &&& (15 ^^^ b.toNat)) =
    widthOf ((List.range 4).filter (fun k => (BitVec.ofNat 4 l &&& ~~~b).getLsbD k)).length :=
  laneWidth_eq fun k hk => by
    simp only [Nat.testBit_and, testBit_fifteen_xor hk, BitVec.getLsbD_and, BitVec.getLsbD_not, BitVec.getLsbD_ofNat,
      BitVec.testBit_toNat, hk, decide_true, Bool.true_and]

/-- The lanes that are retired once those are that fail. -/
theorem ofNat_retired_failing (l : Nat) (b : BitVec 4) :
    BitVec.ofNat 4 (b.toNat ||| (15 ^^^ (l % 16))) = b ||| ~~~BitVec.ofNat 4 l := by
  refine BitVec.eq_of_getLsbD_eq fun k hk => ?_
  have hl : (l % 16).testBit k = (decide (k < 4) && l.testBit k) := Nat.testBit_mod_two_pow l 4 k
  simp only [BitVec.getLsbD_ofNat, Nat.testBit_or, testBit_fifteen_xor hk, hl, BitVec.getLsbD_or, BitVec.getLsbD_not,
    BitVec.testBit_toNat, hk, decide_true, Bool.true_and]

/-- The lanes that are retired once lane `l` is. -/
theorem toNat_retired_lane (b : BitVec 4) {l : Nat} (hl : l < 4) : (b ||| (1#4 <<< l)).toNat = b.toNat ||| 2 ^ l := by
  have h : 2 ^ l < 2 ^ 4 := Nat.pow_lt_pow_right (by decide) hl
  rw [BitVec.toNat_or, BitVec.toNat_shiftLeft, BitVec.toNat_ofNat, Nat.one_mod_eq_one.mpr (by decide), Nat.one_shiftLeft,
    Nat.mod_eq_of_lt h]

/-- The width that the lanes allow which are not retired. -/
theorem laneWidth_left (b : BitVec 4) :
    laneWidth (15 ^^^ b.toNat) = widthOf ((List.range 4).filter (fun k => !b.getLsbD k)).length :=
  laneWidth_eq fun k hk => by rw [testBit_fifteen_xor hk, BitVec.testBit_toNat]

/-! ### The events of a Sordel port (R425, R426) -/

/-- RETRAIN trains an enabled port anew. -/
theorem execPortRetrain_enabled (hp : p < 16) (hen : s.portEnabled p = true) :
    ∃ t, execPortRetrain p s = .next t ∧ s.PortFrame p t ∧ t.mem = s.mem ∧ t.portField p 2 2 = 1 ∧ t.portField p 4 3 = 0 ∧
      t.portField p 9 4 = 0 := by
  have hc : ¬ (16 ≤ p ∨ s.portEnabled p = false) := by simp [hen, hp]
  exact ⟨_, if_neg hc, State.PortFrame.refl.portLeave.setPortField (by decide), by simp, by simp, by simp, by simp⟩

theorem not_barred_from_training (hp : p < 16) (hen : s.portEnabled p = true) (hst : (s.portField p 2 2).toNat < 2) :
    ¬ (16 ≤ p ∨ s.portEnabled p = false ∨ 2 ≤ s.portState p) := by
  simp [hen, State.portState_eq, hp, hst]

section
variable {l r : Nat} (hi : s.inputs = .trained p l r :: rest) (hp : p < 16) (hen : s.portEnabled p = true)
  (hst : (s.portField p 2 2).toNat < 2) {w : Nat} (hw : w = laneWidth (l &&& (15 ^^^ (s.portField p 9 4).toNat)))
include hi hp hen hst hw

/-- Training ends with a width and a rate: the port is up. -/
theorem execPortTrainingEnd_up (hw0 : 0 < w) (hr : r < 3) :
    ∃ t, execPortTrainingEnd s = .next t ∧ ({ s with inputs := rest } : State).PortFrame p t ∧ t.portField p 2 2 = 2 ∧
      (t.portField p 4 3).toNat = w ∧ (t.portField p 7 2).toNat = r ∧
      t.portField p 9 4 = s.portField p 9 4 ||| ~~~BitVec.ofNat 4 l ∧ (w = 4 → r = 0 → t.mem = s.mem) := by
  have hc := not_barred_from_training hp hen hst
  let u : State := { s with inputs := rest }
  let v := (((u.setPortField p 2 2 2).setPortField p 4 3 w).setPortField p 7 2 r).setPortField p 9 4
    ((s.portField p 9 4).toNat ||| (15 ^^^ (l % 16)))
  have he : execPortTrainingEnd s = .next (if w < 4 ∨ 0 < r then v.portRecord p else v) := by
    subst hw
    rw [execPortTrainingEnd, State.takeInput, hi]
    exact (if_neg hc).trans (if_pos ⟨hw0, hr⟩)
  have hv : u.PortFrame p v := (((State.PortFrame.refl.setPortField (by decide)).setPortField (by decide)).setPortField
    (by decide)).setPortField (by decide)
  have hf (lo n : Nat) : (if w < 4 ∨ 0 < r then v.portRecord p else v).portField p lo n = v.portField p lo n := by
    split <;> simp
  have hw8 : (BitVec.ofNat 3 w).toNat = w := toNat_ofNat_of_le_laneWidth hw.le
  have hr4 : (BitVec.ofNat 2 r).toNat = r := Nat.mod_eq_of_lt (by omega)
  refine ⟨_, he, hv.portRecord.ite hv, ?_, ?_, ?_, ?_, fun h4 hr0 => ?_⟩
  · simp [hf, v]
  · rw [hf]; simpa [v] using hw8
  · rw [hf]; simpa [v] using hr4
  · simp [hf, v, ← ofNat_retired_failing]
  · rw [if_neg (by omega)]; simp [v, u]

/-- Training ends with no lane, or with no rate: the port is down. -/
theorem execPortTrainingEnd_down (hd : w = 0 ∨ 3 ≤ r) :
    ∃ t, execPortTrainingEnd s = .next t ∧ ({ s with inputs := rest } : State).PortFrame p t ∧ t.portField p 2 2 = 0 ∧
      t.portField p 4 3 = 0 := by
  have hc := not_barred_from_training hp hen hst
  let v := ({ s with inputs := rest } : State).portLeave p 0
  have he : execPortTrainingEnd s = .next (if s.portState p = 1 then v.portRecord p else v) := by
    subst hw
    rw [execPortTrainingEnd, State.takeInput, hi]
    exact (if_neg hc).trans (if_neg fun h => hd.elim h.1.ne' (Nat.not_le_of_gt h.2))
  have hv : ({ s with inputs := rest } : State).PortFrame p v := State.PortFrame.refl.portLeave
  refine ⟨_, he, hv.portRecord.ite hv, ?_, ?_⟩ <;> split <;> simp [v]

end

/-- A lane of a port that is up is retired: the width is what the others allow, and with none left the port is down. -/
theorem execLaneRetire_up {l : Nat} (hi : s.inputs = .laneLost p l :: rest) (hp : p < 16) (hl : l < 4) (hst : s.portField p 2 2 = 2)
    {b : BitVec 4} (hb : b = s.portField p 9 4 ||| (1#4 <<< l)) {w : Nat}
    (hw : w = min (s.portField p 4 3).toNat (laneWidth (15 ^^^ b.toNat))) :
    ∃ t, execLaneRetire s = .next t ∧ ({ s with inputs := rest } : State).PortFrame p t ∧ t.portField p 9 4 = b ∧
      (t.portField p 4 3).toNat = w ∧ t.portField p 2 2 = if w = 0 ∧ (s.portField p 4 3).toNat ≠ 0 then 0 else 2 := by
  have hc : ¬ (16 ≤ p ∨ 4 ≤ l ∨ s.portState p ≠ 2) := by simp [State.portState_eq, hp, hl, hst]
  let n := (s.portField p 9 4).toNat ||| 2 ^ l
  have hn : b.toNat = n := hb ▸ toNat_retired_lane _ hl
  let v := ({ s with inputs := rest } : State).setPortField p 9 4 n
  have hwidth : v.portField p 4 3 = s.portField p 4 3 := State.portField_setPortField_other (by decide) (by decide)
  have hbad : v.portField p 9 4 = b := by simp [v, ← hn]
  have hstv : v.portField p 2 2 = 2 := (State.portField_setPortField_other (by decide) (by decide)).trans hst
  have hv : ({ s with inputs := rest } : State).PortFrame p v := State.PortFrame.refl.setPortField (by decide)
  have he : execLaneRetire s = if w = (s.portField p 4 3).toNat then .next v
      else if w = 0 then .next ((v.portLeave p 0).portRecord p) else .next ((v.setPortField p 4 3 w).portRecord p) := by
    rw [hw, hn, ← hwidth, execLaneRetire, State.takeInput, hi]
    exact if_neg hc
  rw [he]
  split
  · next hsame => exact ⟨_, rfl, hv, hbad, by rw [hwidth, hsame], by rw [hstv, if_neg (fun h => h.2 (hsame ▸ h.1))]⟩
  · next hne =>
    split
    · next h0 =>
      refine ⟨_, rfl, hv.portLeave.portRecord, by simp [hbad], by simp [h0], ?_⟩
      rw [if_pos ⟨h0, fun h => hne (h0.trans h.symm)⟩]
      simp
    · next h0 =>
      have hw8 : (BitVec.ofNat 3 w).toNat = w := toNat_ofNat_of_le_laneWidth (hw.trans_le (min_le_right _ _))
      refine ⟨_, rfl, (hv.setPortField (by decide)).portRecord, by simp [hbad], ?_, by simp [hstv, h0]⟩
      rw [State.portField_portRecord, State.portField_setPortField_same (by decide), hw8]

/-- A port goes down. -/
theorem execPortDown_up (hi : s.inputs = .portLost p :: rest) (hp : p < 16) (hst : s.portField p 2 2 = 2) :
    ∃ t, execPortDown s = .next t ∧ ({ s with inputs := rest } : State).PortFrame p t ∧ t.portField p 2 2 = 0 ∧
      t.portField p 4 3 = 0 := by
  have he : execPortDown s = .next ((({ s with inputs := rest } : State).portLeave p 0).portRecord p) := by
    rw [execPortDown, State.takeInput, hi]
    exact if_pos ⟨hp, congrArg BitVec.toNat hst⟩
  exact ⟨_, he, State.PortFrame.refl.portLeave.portRecord, by simp, by simp⟩

theorem execPortDown_not_up (hi : s.inputs = .portLost p :: rest) (hst : s.portField p 2 2 ≠ 2) :
    execPortDown s = .next { s with inputs := rest } := by
  rw [execPortDown, State.takeInput, hi]
  exact if_neg fun h => hst (BitVec.eq_of_toNat_eq h.2)

/-- A CRC error counts on the port's die. -/
theorem execLinkReplay_counts (hi : s.inputs = .crcError p :: rest) (hp : p < 16) :
    execLinkReplay s = .next (State.count { s with inputs := rest } (0x340 + p / 2) 0x52 1) := by
  rw [execLinkReplay, State.takeInput, hi]
  exact congrArg Host.Outcome.next (if_pos hp)

end

theorem sordelPorts : Spec.SordelPorts := by
  intro s p rest
  rw [← portAddr_eq]
  intro reg st width rate bad en same hp
  have hs {i : List Input} {t : State} (h : ({ s with inputs := i } : State).PortFrame p t) : same t := ⟨h.groups, h.enabled⟩
  refine ⟨fun hen => ?_, fun hen => ?_, fun l r hi hen hst => ?_, fun l hi hl hst => ?_,
    fun hi => ⟨fun hst => ?_, fun hst => ?_⟩, fun hi => ?_⟩
  · obtain ⟨t, he, hf, h⟩ := execPortRetrain_enabled hp hen
    exact ⟨t, he, hs (i := s.inputs) hf, h⟩
  · exact if_pos (.inr (by simpa [en] using hen))
  · intro good n w
    have hw : w = laneWidth (l &&& (15 ^^^ (s.portField p 9 4).toNat)) := (laneWidth_passing l _).symm
    refine ⟨fun hw0 hr => ?_, fun hd => ?_⟩
    · obtain ⟨t, he, hf, h⟩ := execPortTrainingEnd_up hi hp hen hst hw hw0 hr
      exact ⟨t, he, hs hf, hf.inputs, h⟩
    · obtain ⟨t, he, hf, h⟩ := execPortTrainingEnd_down hi hp hen hst hw hd
      exact ⟨t, he, hs hf, hf.inputs, h⟩
  · intro b left w
    obtain ⟨t, he, hf, h⟩ := execLaneRetire_up hi hp hl hst (b := b) rfl (w := w) (by rw [laneWidth_left]; rfl)
    exact ⟨t, he, hs hf, hf.inputs, h⟩
  · obtain ⟨t, he, hf, h⟩ := execPortDown_up hi hp hst
    exact ⟨t, he, hs hf, hf.inputs, h⟩
  · exact execPortDown_not_up hi hst
  · exact execLinkReplay_counts hi hp

/-! ### The supply, the power limit and test access (R15, R427, R435) -/

section
variable {s : State} {rest : List Input}

theorem execSupplyDroop_die {d : Nat} (hd : d < 8) (hi : s.inputs = .droop d :: rest) :
    execSupplyDroop s = .next { s with inputs := rest, plat := { s.plat with droop := Tab.put d true s.plat.droop } } := by
  rw [execSupplyDroop, State.takeInput, hi]
  exact congrArg Host.Outcome.next (if_pos hd)

theorem execSupplyRecovery_die {d : Nat} (hi : s.inputs = .recovered d :: rest) :
    execSupplyRecovery s = .next { s with inputs := rest, plat := { s.plat with droop := Tab.del d s.plat.droop } } := by
  rw [execSupplyRecovery, State.takeInput, hi]
  rfl

theorem execDebugToken_key {k : List Byte} (hi : s.inputs = .token k :: rest) :
    execDebugToken s =
      .next { s with inputs := rest, plat := { s.plat with scanOpen := s.plat.scanOpen || Config.tokenOk k } } := by
  rw [execDebugToken, State.takeInput, hi]
  rfl

/-- A package power in mW shows in PNOW, and stretches the clock while it is above LIMIT. -/
theorem execPowerCap_power {mw : Nat} (hi : s.inputs = .power mw :: rest) :
    ∃ t, execPowerCap s = .next t ∧ t.mem = s.mem ∧ t.groups = s.groups ∧ t.inputs = rest ∧
      t.reg (hubBase + 0x280008) = BitVec.ofNat 64 (min 4095 (mw / 1000)) ∧
      t.plat.capped = if bits (s.reg (hubBase + 0x280000)) 0 12 * 1000 < mw then true
        else if mw < bits (s.reg (hubBase + 0x280000)) 0 12 * 1000 then false else s.plat.capped := by
  let u := ({ s with inputs := rest } : State).setReg (hubBase + 0x280008) (BitVec.ofNat 64 (min 4095 (mw / 1000)))
  have he : execPowerCap s = .next { u with plat := { s.plat with
      capped := if bits (s.reg (hubBase + 0x280000)) 0 12 * 1000 < mw then true
        else if mw < bits (s.reg (hubBase + 0x280000)) 0 12 * 1000 then false else s.plat.capped } } := by
    rw [execPowerCap, State.takeInput, hi]
    rfl
  refine ⟨_, he, by simp [u], by simp [u], by simp [u], ?_, rfl⟩
  exact (State.reg_of_mgmt (s := u) rfl _).trans ((State.reg_setReg ..).trans (if_pos rfl))

/-! ### The servo's source (R379, R431) -/

/-- The servo's control register after an update: EN stays, LOCK tells of an error of 100 ticks or less, and the error follows. -/
def servoControl (ctl : Word) (errb : Nat) : Word :=
  (ctl &&& 1#64) ||| BitVec.ofNat 64 (errb * 2 ^ 16 + (if errb ≤ 100 then 2 else 0))

theorem servoControl_enabled (ctl : Word) (errb : Nat) : (servoControl ctl errb).getLsbD 0 = ctl.getLsbD 0 := by
  have h : (errb * 2 ^ 16 + (if errb ≤ 100 then 2 else 0)).testBit 0 = false := by
    rw [Nat.testBit_zero]; split <;> simp <;> omega
  rw [servoControl, BitVec.getLsbD_or, BitVec.getLsbD_ofNat, h]; simp

theorem servoControl_lock (ctl : Word) (errb : Nat) : (servoControl ctl errb).getLsbD 1 = decide (errb ≤ 100) := by
  have h : (errb * 2 ^ 16 + (if errb ≤ 100 then 2 else 0)).testBit 1 = decide (errb ≤ 100) := by
    rw [Nat.testBit_eq_decide_div_mod_eq]; split <;> simp [*] <;> omega
  rw [servoControl, BitVec.getLsbD_or, BitVec.getLsbD_ofNat, h]; simp

theorem servoControl_error (ctl : Word) {errb : Nat} (h : errb < 65536) :
    ((servoControl ctl errb).extractLsb' 16 16).toNat = errb := by
  have hc : (ctl &&& 1#64).extractLsb' 16 16 = 0#16 := by
    refine BitVec.eq_of_getLsbD_eq fun k hk => ?_
    simp
  rw [servoControl, BitVec.extractLsb'_or, hc, BitVec.zero_or, BitVec.extractLsb'_toNat, BitVec.toNat_ofNat, Nat.shiftRight_eq_div_pow]
  split <;> omega

/-- Writes the servo's mapping and its control register. -/
def State.setServo (s : State) (atick sec ns rate ctl : Word) : State :=
  ((((s.setReg (hubBase + 0x15008) atick).setReg (hubBase + 0x15010) sec).setReg (hubBase + 0x15018) ns).setReg
    (hubBase + 0x15020) rate).setReg (hubBase + 0x15000) ctl

section
variable (atick sec ns rate ctl : Word)

theorem State.setServo_mem : (s.setServo atick sec ns rate ctl).mem = s.mem := by simp [State.setServo]

theorem State.setServo_groups : (s.setServo atick sec ns rate ctl).groups = s.groups := by simp [State.setServo]

theorem State.reg_setServo :
    (s.setServo atick sec ns rate ctl).reg 0x10000015008 = atick ∧ (s.setServo atick sec ns rate ctl).reg 0x10000015010 = sec ∧
    (s.setServo atick sec ns rate ctl).reg 0x10000015018 = ns ∧ (s.setServo atick sec ns rate ctl).reg 0x10000015020 = rate ∧
    (s.setServo atick sec ns rate ctl).reg 0x10000015000 = ctl := by
  simp [State.setServo, hubBase]

end

theorem execPtpMessage_ignored {m : Bool} {r : PtpResult} (hi : s.inputs = .ptp m r :: rest)
    (h : (s.reg (hubBase + 0x15000)).getLsbD 0 = false ∨ m ≠ s.plat.ptpSel) :
    execPtpMessage s = .next { s with inputs := rest } := by
  rw [execPtpMessage, State.takeInput, hi]
  refine if_pos ?_
  simp only [Bool.or_eq_true, Bool.not_eq_true', decide_eq_true_eq]
  exact h

section
variable (hen : (s.reg (hubBase + 0x15000)).getLsbD 0 = true)
include hen

theorem servo_listens : ¬ (!(s.reg (hubBase + 0x15000)).getLsbD 0 || decide (s.plat.ptpSel ≠ s.plat.ptpSel)) = true := by
  rw [hen]; simp

/-- The selected source is lost, and with it LOCK. -/
theorem execPtpMessage_lost (hi : s.inputs = .ptp s.plat.ptpSel .lost :: rest) :
    execPtpMessage s = .next (({ s with inputs := rest } : State).setReg (hubBase + 0x15000)
      (servoControl (s.reg (hubBase + 0x15000)) 0xFFFF)) := by
  rw [execPtpMessage, State.takeInput, hi]
  exact if_neg (servo_listens hen)

section
variable {atick asec : Word} {ans rate errb : Nat}
  (hi : s.inputs = .ptp s.plat.ptpSel (.update atick asec ans rate errb) :: rest) {ok : Bool}
  (hok : s.ptpOk atick (asec &&& fieldMask 0 48) (BitVec.ofNat 64 (ans % 2 ^ 30)) (BitVec.ofNat 64 (rate % 2 ^ 32)) = ok)
include hi hok

theorem execPtpMessage_beyond (h : ok = false) : execPtpMessage s = .next { s with inputs := rest } := by
  rw [execPtpMessage, State.takeInput, hi]
  exact (if_neg (servo_listens hen)).trans (if_pos (by rw [Bool.not_eq_true']; exact hok.trans h))

theorem execPtpMessage_within (h : ok = true) :
    ∃ u : State, u.mem = s.mem ∧ u.groups = s.groups ∧ execPtpMessage s =
      .next (u.setServo atick (asec &&& fieldMask 0 48) (BitVec.ofNat 64 (ans % 2 ^ 30)) (BitVec.ofNat 64 (rate % 2 ^ 32))
        (servoControl (s.reg (hubBase + 0x15000)) (min errb 0xFFFF))) := by
  let v : State := { s with inputs := rest }
  refine ⟨if s.plat.ptpAt.isSome || decide (errb ≤ 100) then { v with plat := { s.plat with ptpAt := some s.tick.toNat } } else v,
    by split <;> rfl, by split <;> rfl, ?_⟩
  rw [execPtpMessage, State.takeInput, hi]
  exact (if_neg (servo_listens hen)).trans (if_neg (by rw [Bool.not_eq_true', Bool.not_eq_false]; exact hok.trans h))

end
end

/-! ### Attestation (R434) -/

theorem execAttestationRequest_early (h : bits (s.reg (hubBase + 0x272000)) 0 4 < 3) : execAttestationRequest s = .next s :=
  if_pos h

/-- What `later` leaves: it writes what is pending alone. -/
theorem State.later_upd (e : Instr) : ∃ l, s.later e = { s with pending := l } := by
  unfold State.later
  split
  · exact ⟨_, rfl⟩
  · exact ⟨_, rfl⟩

theorem execAttestationRequest_noted (h : 3 ≤ bits (s.reg (hubBase + 0x272000)) 0 4) :
    ∃ t, execAttestationRequest s = .next t ∧ t.mem = s.mem ∧ t.groups = s.groups ∧ t.plat.attest = s.plat.attest + 1 ∧
      Instr.attestationReport ∈ t.pending := by
  refine ⟨_, if_neg (Nat.not_lt_of_ge h), ?_⟩
  let u : State := { s with plat := { s.plat with attest := s.plat.attest + 1 } }
  have hp : Instr.attestationReport ∈ (u.later .attestationReport).pending := State.mem_pending_later _
  obtain ⟨l, hl⟩ := u.later_upd .attestationReport
  rw [hl] at hp ⊢
  exact ⟨rfl, rfl, rfl, hp⟩

/-- A list of bytes is read back where more bytes follow it. -/
theorem State.bytes_setBytes_append (pa : Nat) (l r : List Byte) : (s.setBytes pa (l ++ r)).bytes pa l.length = l := by
  refine List.ext_getElem (by simp [State.bytes]) fun k hk hl => ?_
  have h : k < l.length + r.length := by omega
  simp [State.bytes, State.byte_setBytes, h, hl]

theorem State.bytes_setByte_before {pa q : Nat} (n : Nat) (b : Byte) (h : q < pa) : (s.setByte q b).bytes pa n = s.bytes pa n := by
  refine List.map_congr_left fun k _ => ?_
  rw [State.byte_setByte, if_neg (by omega)]

theorem State.setBytes_plat (pa : Nat) (l : List Byte) : (s.setBytes pa l).plat = s.plat := by
  induction l generalizing s pa with
  | nil => rfl
  | cons b l ih => exact ih _

/-- The 512 bytes of the signature. -/
def attestSig (body : List Byte) : List Byte := (List.range 512).map (fun k => (Config.attestSign body).getD k 0)

/-- The state with the report of a body in mailbox 0 and its request answered. -/
def State.attested (s : State) (box : Nat) (body : List Byte) : State :=
  ((s.setBytes (box + 0x1000) (body ++ attestSig body)).setByte (box + 0x40) 2)

theorem State.attested_groups (box : Nat) (body : List Byte) : (s.attested box body).groups = s.groups := by
  rw [State.attested, State.setByte_groups, State.setBytes_groups]

theorem State.attested_plat (box : Nat) (body : List Byte) : (s.attested box body).plat = s.plat := by
  rw [State.attested, State.setByte_plat, State.setBytes_plat]

theorem State.byte_attested (box : Nat) (body : List Byte) :
    (s.attested box body).byte (box + 0x40) = 2 ∧ (s.attested box body).bytes (box + 0x1000) body.length = body ∧
      ∀ a, a ≠ box + 0x40 → a < box + 0x1000 ∨ box + 0x1000 + body.length + 512 ≤ a →
        (s.attested box body).byte a = s.byte a := by
  refine ⟨by simp [State.attested], ?_, fun a ha hout => ?_⟩
  · rw [State.attested, State.bytes_setByte_before _ _ (by omega), State.bytes_setBytes_append]
  · have hlen : (body ++ attestSig body).length = body.length + 512 := by simp [attestSig]
    rw [State.attested, State.byte_setByte, if_neg ha, State.byte_setBytes, hlen, if_neg (by omega)]

/-- A request is answered: another that waits has its report next. -/
def State.attestNext (s : State) : State :=
  let u : State := { s with plat := { s.plat with attest := s.plat.attest - 1 } }
  if u.plat.attest = 0 then u else u.later .attestationReport

theorem State.attestNext_frame :
    s.attestNext.groups = s.groups ∧ s.attestNext.plat.attest = s.plat.attest - 1 ∧ s.attestNext.mem = s.mem := by
  unfold State.attestNext
  extract_lets _ u
  split
  · exact ⟨rfl, rfl, rfl⟩
  · obtain ⟨l, hl⟩ := u.later_upd .attestationReport
    rw [hl]
    exact ⟨rfl, rfl, rfl⟩

theorem execAttestationReport_due (h : 0 < s.plat.attest) :
    execAttestationReport s = .next (s.attested (hubBase + mailbox 0) s.attestBody).attestNext := by
  rw [execAttestationReport, if_neg h.ne', State.attestNext, State.attested, attestSig]

end

theorem supplyTimeAndAttestation : Spec.SupplyTimeAndAttestation := by
  intro s rest u
  have hb (x : Word) (n : Nat) : bits x 0 n = x.toNat % 2 ^ n := by simp [bits, BitVec.extractLsb'_toNat]
  refine ⟨fun d hd hi => execSupplyDroop_die hd hi, fun d hi => ?_, fun mw hi => ?_, fun k hi => ?_,
    fun m r hi h => execPtpMessage_ignored hi h, fun atick asec ans rate errb hi hen hans hrate herrb hok => ?_,
    fun atick asec ans rate errb hi hen hans hrate herrb hok => ?_, fun hi hen => ?_, fun h => ?_, fun h => ?_, fun h => if_pos h,
    fun h => ?_⟩
  · exact ⟨_, execSupplyRecovery_die hi, rfl, rfl, rfl, by simp [Tab.find?_del], fun k hk => by simp [Tab.find?_del, hk]⟩
  · intro limit
    obtain ⟨t, he, hm, hg, hin, hnow, hcap⟩ := execPowerCap_power hi
    have hl : bits (s.reg (hubBase + 0x280000)) 0 12 * 1000 = limit := congrArg (· * 1000) (hb _ _)
    rw [hl] at hcap
    refine ⟨t, he, hm, hg, hin, (congrArg BitVec.toNat hnow).trans (Nat.mod_eq_of_lt (by omega)), fun h => ?_, fun h => ?_⟩
    · rw [hcap, if_pos h]
    · rw [hcap, if_neg (Nat.not_lt_of_gt h), if_pos h]
  · exact ⟨_, execDebugToken_key hi, rfl, rfl, rfl, by simp⟩
  · rw [← Nat.mod_eq_of_lt hans, ← Nat.mod_eq_of_lt hrate] at hok
    exact execPtpMessage_beyond hen hi hok rfl
  · rw [← Nat.mod_eq_of_lt hans, ← Nat.mod_eq_of_lt hrate] at hok
    obtain ⟨v, hm, hg, he⟩ := execPtpMessage_within hen hi hok rfl
    rw [Nat.mod_eq_of_lt hans, Nat.mod_eq_of_lt hrate, Nat.min_eq_left (by omega)] at he
    obtain ⟨h₁, h₂, h₃, h₄, h₅⟩ := v.reg_setServo atick (asec &&& fieldMask 0 48) (BitVec.ofNat 64 ans) (BitVec.ofNat 64 rate)
      (servoControl (s.reg (hubBase + 0x15000)) errb)
    refine ⟨_, he, (State.setServo_mem ..).trans hm, (State.setServo_groups ..).trans hg, h₁, h₂, ?_, ?_, ?_, ?_, ?_⟩
    · rw [h₃]; exact Nat.mod_eq_of_lt (by omega)
    · rw [h₄]; exact Nat.mod_eq_of_lt (by omega)
    · rw [h₅, servoControl_enabled]; exact hen
    · rw [h₅, servoControl_lock, decide_eq_true_iff]
    · rw [h₅, servoControl_error _ herrb]
  · have hr := (State.reg_setReg u (hubBase + 0x15000) (hubBase + 0x15000)
      (servoControl (s.reg (hubBase + 0x15000)) 0xFFFF)).trans (if_pos rfl)
    refine ⟨_, execPtpMessage_lost hen hi, State.setReg_mem .., ?_, ?_⟩
    · exact (congrArg (·.getLsbD 1) hr).trans (servoControl_lock _ _)
    · exact (congrArg (·.getLsbD 0) hr).trans ((servoControl_enabled _ _).trans hen)
  · exact execAttestationRequest_early (by rw [hb]; exact h)
  · exact execAttestationRequest_noted (by rw [hb]; exact h)
  · intro box body
    obtain ⟨hg, ha, hm⟩ := (s.attested box body).attestNext_frame
    obtain ⟨h₁, h₂, h₃⟩ := s.byte_attested box body
    have hbyte (a : Nat) : (s.attested box body).attestNext.byte a = (s.attested box body).byte a := byte_of_mem hm a
    have he := execAttestationReport_due h
    rw [show hubBase + mailbox 0 = box from rfl, show s.attestBody = body from rfl] at he
    refine ⟨_, he, hg.trans (State.attested_groups ..), ha.trans (by rw [State.attested_plat]),
      (hbyte _).trans h₁, ?_, fun a hne hout => (hbyte a).trans (h₃ a hne hout)⟩
    exact (List.map_congr_left fun k _ => hbyte _).trans h₂

/-- Settles O51: each event of a port, the supply, the servo and attestation has its own lemma above. -/
theorem portsSupplyTimeAndAttestation : Obligations.PortsSupplyTimeAndAttestation := ⟨sordelPorts, supplyTimeAndAttestation⟩

end Sys2Proof.Machine
end

section
namespace Sys2Proof
open Sys2Proof.Machine

/-! ### Integers of w bits (R103, R104, R106, R108) -/

@[simp] theorem ITy.ext_cut (t : ITy) (v : Word) : t.ext (t.cut v) = t.ext v := by
  cases t <;> simp [ITy.ext, ITy.cut, ITy.wide]

/-- The clamp of the model and that of R108 agree, for no type has its least value above its greatest. -/
theorem ITy.clamp_eq (t : ITy) (e : Int) :
    (if e < t.lo then t.lo else if t.hi < e then t.hi else e) = max t.lo (min e t.hi) := by
  have h : t.lo ≤ t.hi := by cases t <;> decide
  grind

theorem ITy.ext_narrow (t : ITy) (sat : Bool) (e : Int) : t.ext (t.narrow sat e) = Spec.result t sat e := by
  simp only [ITy.narrow, ITy.ext_cut, ITy.clamp_eq, Spec.result]

theorem ITy.val_imm (t : ITy) (i : BitVec 22) : t.val (t.imm i) = Spec.immValue t i := by
  cases t with
  | u32 | u64 => simp [ITy.val, ITy.imm, ITy.cut, ITy.wide, ITy.signed, Spec.immValue]; omega
  | s32 =>
    have h : BitVec.setWidth 32 (i.signExtend 64) = i.signExtend 32 := by
      ext k hk; simp [BitVec.getElem_signExtend, show k < 64 by omega]
    simp [ITy.val, ITy.imm, ITy.cut, ITy.wide, ITy.signed, Spec.immValue, h]
    rw [BitVec.toInt_signExtend_of_le (by decide)]
  | s64 => simp [ITy.val, ITy.imm, ITy.cut, ITy.wide, ITy.signed, Spec.immValue,
      BitVec.toInt_signExtend_of_le (show 22 ≤ 64 by decide)]

namespace Machine
open Spec

/-! ### Words of exact integer arithmetic (R108) -/

section
variable {i : Instr} {h : Hdr} {t : ITy} {sat : Bool} {d a b : Operand} {imm : BitVec 22} {f : Int → Int → Int}

theorem gives_intWord (hb : i.bnd = h.bnd) (he : ∀ s, exec i s = intWord i h t sat d a b f s) :
    Gives i h d (fun s x l => result t sat (f (value s x t a l) (value s x t b l))) :=
  (gives_aluWord hb he).congr (by simp only [ITy.ext_narrow, value])

theorem gives_intImmWord (hb : i.bnd = h.bnd) (he : ∀ s, exec i s = intImmWord i h t sat d a imm f s) :
    Gives i h d (fun s x l => result t sat (f (value s x t a l) (immValue t imm))) :=
  (gives_aluWord hb he).congr (by simp only [ITy.ext_narrow, ITy.val_imm, value])

end

theorem integerArithmetic : Spec.IntegerArithmetic := by
  intro h f t d a b c i
  refine ⟨gives_intWord (f := (· + ·)) rfl fun _ => rfl, gives_intImmWord (f := (· + ·)) rfl fun _ => rfl,
    gives_intWord (f := (· - ·)) rfl fun _ => rfl, gives_intImmWord (f := (· - ·)) rfl fun _ => rfl,
    gives_intWord (f := (· * ·)) rfl fun _ => rfl, gives_intImmWord (f := (· * ·)) rfl fun _ => rfl, ?_, ?_⟩
  · exact (gives_intWord (f := fun x y => x * y / 2 ^ t.bits) rfl fun _ => rfl).congr
      (by simp only [Int.shiftRight_eq_div_pow]; rfl)
  · exact (gives_aluWord rfl fun _ => rfl).congr (by simp only [ITy.ext_narrow, value])

theorem minimumMaximumAbsoluteNegation : Spec.MinimumMaximumAbsoluteNegation := by
  intro h t wide sat d a b i
  refine ⟨gives_intWord (sat := false) (f := min) rfl fun _ => rfl, gives_intImmWord (sat := false) (f := min) rfl fun _ => rfl,
    gives_intWord (sat := false) (f := max) rfl fun _ => rfl, gives_intImmWord (sat := false) (f := max) rfl fun _ => rfl, ?_, ?_⟩
  · exact (gives_intWord (b := .zero) (f := fun x _ => (x.natAbs : Int)) rfl fun _ => rfl).congr
      (by simp only [Int.natCast_natAbs])
  · exact gives_intWord (b := .zero) (f := fun x _ => -x) rfl fun _ => rfl

/-- Settles O1: every word is one of the two shared forms of integer arithmetic, or a multiply-add. -/
theorem exactIntegerArithmetic : Obligations.ExactIntegerArithmetic :=
  ⟨integerArithmetic, minimumMaximumAbsoluteNegation⟩

end Machine
end Sys2Proof
end

section
namespace Sys2Proof.Machine
open Sys2Proof

/-! ### The state after reset, and words printed in the spec -/

/-- No register of the management space has been written. -/
theorem State.reset_reg (a : Nat) : State.reset.reg a = mgmtReset a := rfl

theorem State.reset_byte (pa : Nat) : State.reset.byte pa = 0 := rfl

/-- Settles O60: fields of the literal `State.reset`, and registers at their reset values. -/
theorem resetLeaves : Obligations.ResetLeaves := by
  refine ⟨rfl, rfl, rfl, rfl, State.reset_byte, rfl, rfl, rfl, rfl, ?_, ?_, ?_, rfl, rfl, rfl, ?_⟩
  · simp only [State.qcfg, State.reset_reg]; decide
  · simp only [State.ctxState, State.reset_reg]; decide
  · simp only [State.reset_reg]; decide
  · simp only [State.reset_reg]; decide

/-- Settles O56: the decoder runs on each word. -/
theorem printedWordsDecode : Obligations.PrintedWordsDecode := by
  unfold Obligations.PrintedWordsDecode
  decide +kernel

end Sys2Proof.Machine
end

section
namespace Sys2Proof.Machine
open Sys2Proof Sys2Proof.Spec

/-! ### Entries of a divergence stack (R35) -/

/-- What an entry says of the path or the region that waits there: all but its links and its age. -/
def Entry.waiting (e : Entry) : EKind × PC × Mask := (e.kind, e.addr, e.mask)

/-- A property that a fold over `0, 1, …` has at first, and that each of its steps keeps, holds after all of them. -/
theorem foldl_range_induction {β : Type} (P : Nat → β → Prop) {f : β → Nat → β} {b : β} (h₀ : P 0 b)
    (hs : ∀ n c, P n c → P (n + 1) (f c n)) (n : Nat) : P n ((List.range n).foldl f b) := by
  induction n with
  | zero => exact h₀
  | succ n ih => rw [List.range_succ, List.foldl_append]; exact hs n _ ih

/-- Removing an entry takes it out of the stack and renumbers links alone. -/
theorem Flow.removeEntry_stack (f : Flow) (i : Nat) :
    (f.removeEntry i).stack.map Entry.waiting = (f.stack.eraseIdx i).map Entry.waiting := by
  simp [Flow.removeEntry, Entry.waiting, Function.comp_def]

theorem Flow.removeEntry_frame (f : Flow) (i : Nat) :
    (f.removeEntry i).pc = f.pc ∧ (f.removeEntry i).run = f.run ∧ (f.removeEntry i).mask = f.mask ∧
      (f.removeEntry i).exited = f.exited ∧ (f.removeEntry i).deferred = f.deferred := ⟨rfl, rfl, rfl, rfl, rfl⟩

/-! ### Paths that age, and the path that is due (R38) -/

/-- The stack at the end of a run, in the words of R38: the entries from `base` on have aged. -/
theorem Flow.aged_eq (f : Flow) (base : Nat) :
    f.aged base = f.stack.mapIdx (fun k e => if base ≤ k then Spec.aged e else e) := by
  refine List.ext_getElem (by simp [Flow.aged]) fun k _ hk => ?_
  simp only [Flow.aged, List.getElem_mapIdx]
  obtain ⟨kind, addr, mask, link, age, fresh⟩ := f.stack[k]'(by simpa using hk)
  by_cases hb : base ≤ k <;> cases kind <;> cases fresh <;> simp [hb, Spec.aged, ite_not]

theorem Flow.aged_getElem? (f : Flow) (base k : Nat) :
    (f.aged base)[k]? = (f.stack[k]?).map (fun e => if base ≤ k then Spec.aged e else e) := by
  rw [Flow.aged_eq, List.getElem?_mapIdx]

theorem Flow.aged_zero (f : Flow) : f.aged 0 = f.stack.map Spec.aged := by
  rw [Flow.aged_eq]
  exact List.ext_getElem? fun k => by simp

theorem waiting_aged (e : Entry) : (Spec.aged e).waiting = e.waiting := rfl

theorem Flow.aged_stack (f : Flow) (base : Nat) : (f.aged base).map Entry.waiting = f.stack.map Entry.waiting := by
  refine List.ext_getElem (by simp [Flow.aged_eq]) fun k _ _ => ?_
  simp only [Flow.aged_eq, List.getElem_map, List.getElem_mapIdx]
  split <;> rfl

/-- A path that waits on a stack at or past the limit of ages. -/
structure DueAt (st : List Entry) (limit i : Nat) (e : Entry) : Prop where
  here : st[i]? = some e
  path : e.kind = .path
  old : limit ≤ e.age.toNat

/-- One step of the search for the path that is due: the entry at `i` against the oldest so far. -/
def older (st : List Entry) (limit : Nat) (b : Option (Nat × Nat)) (i : Nat) : Option (Nat × Nat) :=
  match st[i]? with
  | some e => if e.kind = .path ∧ limit ≤ e.age.toNat ∧ ∀ p ∈ b, p.2 < e.age.toNat then some (i, e.age.toNat) else b
  | none => b

theorem overdue_eq_foldl_older (st : List Entry) (limit : Nat) :
    overdue st limit = ((List.range st.length).foldl (older st limit) none).map Prod.fst := by
  unfold overdue
  congr 2
  funext b i
  cases hi : st[i]? <;> cases b <;> simp [older, hi, and_assoc]

theorem older_eq_self {st : List Entry} {limit i : Nat} {b : Option (Nat × Nat)}
    (h : ∀ e, DueAt st limit i e → ∃ p ∈ b, e.age.toNat ≤ p.2) : older st limit b i = b := by
  unfold older
  split
  · next e he =>
    refine if_neg fun ⟨hp, hl, hb⟩ => ?_
    obtain ⟨p, hpb, hle⟩ := h e ⟨he, hp, hl⟩
    exact absurd (hb p hpb) (by omega)
  · rfl

theorem older_eq_new {st : List Entry} {limit i : Nat} {e : Entry} {b : Option (Nat × Nat)} (h : DueAt st limit i e)
    (hb : ∀ p ∈ b, p.2 < e.age.toNat) : older st limit b i = some (i, e.age.toNat) := by
  obtain ⟨he, hp, hl⟩ := h
  unfold older
  rw [he]
  exact if_pos ⟨hp, hl, hb⟩

theorem overdue_eq_none {st : List Entry} {limit : Nat} (h : ∀ i e, ¬ DueAt st limit i e) : overdue st limit = none := by
  rw [overdue_eq_foldl_older, Option.map_eq_none_iff]
  refine foldl_range_induction (fun _ b => b = none) rfl (fun n b hb => ?_) _
  exact (older_eq_self fun e he => absurd he (h n e)).trans hb

/-- The path that is due: of the greatest age, the lowest among equals. -/
theorem overdue_eq_some {st : List Entry} {limit i : Nat} {e : Entry} (h : DueAt st limit i e)
    (hmax : ∀ j e', st[j]? = some e' → e'.kind = .path →
      e'.age.toNat ≤ e.age.toNat ∧ (j < i → e'.age.toNat < e.age.toNat)) : overdue st limit = some i := by
  have key := foldl_range_induction (f := older st limit) (b := none)
    (fun n b => if i < n then b = some (i, e.age.toNat) else ∀ p ∈ b, p.2 < e.age.toNat) (by simp) (fun n b hb => ?_) st.length
  · rw [if_pos (List.getElem?_eq_some_iff.mp h.here).1] at key
    rw [overdue_eq_foldl_older, key]; rfl
  · rcases Nat.lt_trichotomy i n with hn | rfl | hn
    · rw [if_pos (by omega)] at hb ⊢
      exact (older_eq_self fun e' he' => ⟨_, hb, (hmax n e' he'.here he'.path).1⟩).trans hb
    · rw [if_neg (by omega)] at hb
      rw [if_pos (by omega)]
      exact older_eq_new h hb
    · rw [if_neg (by omega)] at hb ⊢
      unfold older
      split
      · next e' he' =>
        split
        · next hc => rintro p ⟨⟩; exact (hmax n e' he' hc.1).2 hn
        · exact hb
      · exact hb

theorem Flow.age_of_none {f : Flow} {base limit : Nat} (h : overdue (f.aged base) limit = none) :
    f.age base limit = { f with stack := f.aged base } := by
  simp only [Flow.age, h]

/-- No path is due: the ages alone change. -/
theorem Flow.age_of_not_due {f : Flow} {base limit : Nat} (h : ∀ i e, ¬ DueAt (f.aged base) limit i e) :
    f.age base limit = { f with stack := f.aged base } :=
  Flow.age_of_none (overdue_eq_none h)

/-- The switch (R38): the path that is due runs, and the path that ran waits on top of the stack. -/
theorem Flow.age_of_some {f : Flow} {base limit i : Nat} {e : Entry} (h : overdue (f.aged base) limit = some i)
    (he : (f.aged base)[i]? = some e) :
    let y := f.age base limit
    y.pc = e.addr ∧ y.mask = e.mask &&& ~~~(f.exited ||| f.deferred) ∧ y.run = 0 ∧ y.exited = f.exited ∧ y.deferred = f.deferred ∧
      y.stack.getLast?.map (fun t => (t.kind, t.addr, t.mask, t.age)) = some (.path, f.pc, f.mask, 0) ∧
      y.stack.map Entry.waiting = (f.stack.eraseIdx i).map Entry.waiting ++ [(.path, f.pc, f.mask)] := by
  generalize hy : f.age base limit = y
  simp only [Flow.age, h, he] at hy
  subst hy
  refine ⟨rfl, rfl, rfl, rfl, rfl, by simp [Flow.setMask, Flow.removeEntry], ?_⟩
  have hst := Flow.removeEntry_stack { f with stack := f.aged base } i
  rw [← List.eraseIdx_map, Flow.aged_stack, List.eraseIdx_map] at hst
  simp only [Flow.setMask, List.map_append, hst]
  rfl

theorem pathsAgeAndSwitch : Spec.PathsAgeAndSwitch := by
  intro f limit
  have hat (i : Nat) : (f.aged 0)[i]? = (f.stack[i]?).map Spec.aged := by rw [Flow.aged_zero, List.getElem?_map]
  constructor
  · intro h
    have hno : ∀ i e, ¬ DueAt (f.aged 0) limit i e := fun i e ⟨he, hp, hl⟩ => by
      obtain ⟨e₀, he₀, rfl⟩ := Option.map_eq_some_iff.mp ((hat i).symm.trans he)
      exact absurd (h e₀ (List.mem_of_getElem? he₀) hp) (Nat.not_lt_of_le hl)
    rw [Flow.age_of_not_due hno, Flow.aged_zero]
  · intro i e he hp hl hmax y
    have hd : (f.aged 0)[i]? = some (Spec.aged e) := by rw [hat, he]; rfl
    have ho : overdue (f.aged 0) limit = some i := overdue_eq_some ⟨hd, hp, hl⟩ fun j e' hj hp' => by
      obtain ⟨e₀, he₀, rfl⟩ := Option.map_eq_some_iff.mp ((hat j).symm.trans hj)
      exact hmax j e₀ he₀ hp'
    obtain ⟨hpc, hmask, hrun, hex, hdef, htop, hst⟩ := Flow.age_of_some ho hd
    refine ⟨hpc, hmask, ?_, hex, hdef, hrun, htop, hst⟩
    have hlen := congrArg List.length hst
    have hi := (List.getElem?_eq_some_iff.mp he).1
    simp only [List.length_map, List.length_append, List.length_eraseIdx_of_lt hi, List.length_singleton] at hlen
    exact hlen.trans (by omega)

end Sys2Proof.Machine
end

section
namespace Sys2Proof.Tab

variable {α : Type}

theorem put_put (k : Nat) (a b : α) (t : Tab α) : put k a (put k b t) = put k a t := by
  induction t with
  | nil => simp [put]
  | cons e t ih =>
    simp only [put]
    split
    · simp [put]
    · split
      · simp [put]
      · next h₁ h₂ => simp [put, h₁, h₂, ih]

end Sys2Proof.Tab

namespace Sys2Proof.Machine
open Sys2Proof

/-! ### One group of the table -/

theorem State.updGrp_eq_setGrp {s : State} {g : Nat} {f : Group → Group} (hg : s.hasGrp g = true) :
    s.updGrp g f = s.setGrp g (f (s.grp g)) := by
  obtain ⟨x, hx⟩ := Option.isSome_iff_exists.mp hg
  have hxg : s.grp g = x := by simp [State.grp, Tab.get_eq_find?, hx]
  simp only [State.updGrp, hx, hxg]

theorem State.setGrp_setGrp (s : State) (g : Nat) (x y : Group) : (s.setGrp g x).setGrp g y = s.setGrp g y := by
  simp only [State.setGrp, Tab.put_put]

end Sys2Proof.Machine
end

section
namespace Sys2Proof.Machine
open Sys2Proof Sys2Proof.Spec

/-! ### What follows a word (R29, R30, R189) -/

/-- What a group is at the end of a run (R29, R33, R38): `keep` leaves the run offset. -/
def State.runEnded (s : State) (g : Nat) (keep : Bool) : Group :=
  let x := s.grp g
  let limit := (s.ctxRegs x.core x.ctx).ageLimit.toNat
  { x with
    port := none, flow := ({ x.flow with run := if keep then x.flow.run else 0 } : Flow).age x.ageBase limit,
    sched := { x.sched with since := s.tick, switched := (overdue (x.flow.aged x.ageBase) limit).isSome, kept := keep } }

/-- The end of a run, with the run offset kept or not. -/
theorem State.grp_endRun_keep {s : State} {g : Nat} {keep : Bool} (k : Nat) (hg : s.hasGrp g = true) :
    (s.endRun g keep).grp k = if k = g then s.runEnded g keep else s.grp k := by
  unfold State.endRun
  extract_lets limit f base switch s₁ s₂
  have hc (k : Nat) : s₁.grp k = s.grp k := by simp only [s₁]; split <;> simp
  have hh : s₁.hasGrp g = true := by simp only [s₁]; split <;> simp [hg]
  have ht : s₁.tick = s.tick := by simp only [s₁]; split <;> simp
  have h₂ : s₂.hasGrp g = true := by simp [s₂, hh]
  rw [State.eligible, State.updGrp_eq_setGrp (by simp [h₂]), State.grp_setGrp, State.grp_releasePort _ _ _ h₂,
    State.grp_releasePort _ _ _ h₂]
  by_cases hk : k = g <;> simp [s₂, hk, State.grp_updGrp, hc, hh, ht, State.runEnded, switch, limit, base, f]

/-- From `s` to `t` nothing of memory, of the hub or of the teams changes, and no group but `g`. -/
structure State.Only (g : Nat) (s t : State) : Prop where
  grp : ∀ k, k ≠ g → t.grp k = s.grp k
  mem : t.mem = s.mem
  mgmt : t.mgmt = s.mgmt
  teams : t.teams = s.teams
  sys : t.sys = s.sys
  hub : t.hub = s.hub
  ctxs : t.ctxs = s.ctxs
  tick : t.tick = s.tick
  pending : t.pending = s.pending

section
variable {s t u : State} {g : Nat}

theorem State.Only.refl : State.Only g s s := ⟨fun _ _ => rfl, rfl, rfl, rfl, rfl, rfl, rfl, rfl, rfl⟩

theorem State.Only.trans (h : State.Only g s t) (h' : State.Only g t u) : State.Only g s u where
  grp k hk := (h'.grp k hk).trans (h.grp k hk)
  mem := h'.mem.trans h.mem
  mgmt := h'.mgmt.trans h.mgmt
  teams := h'.teams.trans h.teams
  sys := h'.sys.trans h.sys
  hub := h'.hub.trans h.hub
  ctxs := h'.ctxs.trans h.ctxs
  tick := h'.tick.trans h.tick
  pending := h'.pending.trans h.pending

theorem State.Only.setGrp {x : Group} : State.Only g s (s.setGrp g x) where
  grp k hk := by simp [hk]
  mem := rfl
  mgmt := rfl
  teams := rfl
  sys := rfl
  hub := rfl
  ctxs := rfl
  tick := rfl
  pending := rfl

theorem State.Only.setPort {c : Nat} {p : Bool} {x : Port} : State.Only g s (s.setPort c p x) where
  grp k _ := by simp
  mem := by simp
  mgmt := by simp
  teams := by simp
  sys := by simp
  hub := by simp
  ctxs := by simp
  tick := by simp
  pending := by simp

theorem State.Only.endRun {keep : Bool} (hg : s.hasGrp g = true) : State.Only g s (s.endRun g keep) where
  grp k hk := by rw [State.grp_endRun_keep k hg, if_neg hk]
  mem := by simp
  mgmt := by simp
  teams := by simp
  sys := by simp
  hub := by simp
  ctxs := by simp
  tick := by simp
  pending := by simp

end

/-- The port of a group once a word of it has issued. -/
def State.portUsed (s : State) (g : Nat) : State :=
  match (s.grp g).port with
  | some p => s.setPort (s.grp g).core p { s.port (s.grp g).core p with waiting := false, used := true }
  | none => s

theorem State.only_portUsed (s : State) (g : Nat) : State.Only g s (s.portUsed g) := by
  unfold State.portUsed
  split
  · exact .setPort
  · exact .refl

@[simp] theorem State.grp_portUsed (s : State) (g k : Nat) : (s.portUsed g).grp k = s.grp k := by
  unfold State.portUsed
  split <;> simp

@[simp] theorem State.hasGrp_portUsed (s : State) (g k : Nat) : (s.portUsed g).hasGrp k = s.hasGrp k := by
  unfold State.portUsed
  split <;> simp

theorem State.finishRun_eq_endRun {s : State} {g : Nat} {keep : Bool} (hg : s.hasGrp g = true) (hq : (s.grp g).dueDefs = []) :
    s.finishRun g keep = s.endRun g keep := by
  have h : ((s.endRun g keep).grp g).dueDefs = [] := by rw [State.grp_endRun_keep g hg, if_pos rfl]; exact hq
  simp [State.finishRun, h]

/-- A run that ends with no record due, after a word that has changed nothing but its group. -/
theorem State.Only.finishRun {s u : State} {g : Nat} (h : State.Only g s u) (hg : u.hasGrp g = true) (hq : (u.grp g).dueDefs = [])
    (keep : Bool) : State.Only g s (u.finishRun g keep) := by
  rw [State.finishRun_eq_endRun hg hq]
  exact h.trans (.endRun hg)

theorem State.Only.ctxRegs {s t : State} {g : Nat} (h : State.Only g s t) (c k : Nat) : t.ctxRegs c k = s.ctxRegs c k := by
  simp [State.ctxRegs, State.ctx, h.ctxs]

section
variable {s : State} {g : Nat} {bnd : Bool}

theorem State.retire_run : s.retire g bnd .run =
    ((s.portUsed g).setGrp g { s.grp g with flow := { (s.grp g).flow with pc := (s.grp g).flow.pc + 1 } }).finishRun g false := rfl

theorem State.retire_jump {pc : PC} : s.retire g bnd (.jump pc) =
    ((s.portUsed g).setGrp g { s.grp g with flow := { (s.grp g).flow with pc := pc } }).finishRun g false := rfl

theorem State.retire_moved : s.retire g bnd .moved = (s.portUsed g).finishRun g false := rfl

/-- The group whose next word follows. -/
def Group.next (x : Group) : Group :=
  { x with flow := { x.flow with pc := x.flow.pc + 1, run := x.flow.run + 1 }, sched := { x.sched with kept := false } }

theorem State.retire_on : s.retire g bnd .on =
    (if bnd || decide (24 ≤ (s.grp g).flow.run + 1) then ((s.portUsed g).setGrp g (s.grp g).next).finishRun g false
     else if (((s.portUsed g).setGrp g (s.grp g).next).grp g).settleAfter then ((s.portUsed g).setGrp g (s.grp g).next).settle g
     else (s.portUsed g).setGrp g (s.grp g).next) := rfl

theorem State.retire_on_end (h : bnd = true ∨ 23 ≤ (s.grp g).flow.run) :
    s.retire g bnd .on = ((s.portUsed g).setGrp g (s.grp g).next).finishRun g false := by
  rw [State.retire_on, if_pos (by simpa using h)]

variable (hq : (s.grp g).dueDefs = [])
include hq

theorem State.retire_on_next (hb : bnd = false) (hr : (s.grp g).flow.run < 23) :
    s.retire g bnd .on = (s.portUsed g).setGrp g (s.grp g).next := by
  have hn : (s.grp g).next.settleAfter = false := by
    have : (s.grp g).next.dueDefs = [] := hq
    simp [Group.settleAfter, this]
  rw [State.retire_on, if_neg (by simp [hb]; omega), State.grp_setGrp, if_pos rfl, if_neg (by simp [hn])]

/-- A word after which nothing is due changes nothing but its group (R29, R30). -/
theorem State.only_retire (hg : s.hasGrp g = true) (e : Ends) : State.Only g s (s.retire g bnd e) := by
  have hset (y : Group) : State.Only g s ((s.portUsed g).setGrp g y) := (s.only_portUsed g).trans .setGrp
  have hend (y : Group) (hy : y.dueDefs = []) : State.Only g s (((s.portUsed g).setGrp g y).finishRun g false) :=
    (hset y).finishRun (by simp) (by simpa using hy) _
  cases e with
  | done => exact .refl
  | wait =>
    simp only [State.retire]
    split
    · exact .setPort
    · exact .refl
  | on =>
    by_cases h : bnd = true ∨ 23 ≤ (s.grp g).flow.run
    · rw [State.retire_on_end h]; exact hend _ hq
    · simp only [not_or, Bool.not_eq_true, Nat.not_le] at h
      rw [State.retire_on_next hq h.1 h.2]; exact hset _
  | run => rw [State.retire_run]; exact hend _ hq
  | jump pc => rw [State.retire_jump]; exact hend _ hq
  | moved => rw [State.retire_moved]; exact (s.only_portUsed g).finishRun (by simpa using hg) (by simpa using hq) _

end

/-- The group of a run that ends after a word that has changed nothing but it. -/
theorem State.Only.grp_finishRun {s u : State} {g : Nat} (h : State.Only g s u) (hg : u.hasGrp g = true)
    (hq : (u.grp g).dueDefs = []) :
    let x := u.grp g
    let limit := (s.ctxRegs x.core x.ctx).ageLimit.toNat
    (u.finishRun g false).grp g = { x with
      port := none, flow := ({ x.flow with run := 0 } : Flow).age x.ageBase limit,
      sched := { x.sched with since := s.tick, switched := (overdue (x.flow.aged x.ageBase) limit).isSome, kept := false } } := by
  rw [State.finishRun_eq_endRun hg hq, State.grp_endRun_keep g hg, if_pos rfl]
  simp [State.runEnded, h.ctxRegs, h.tick]

theorem whatFollowsAWord : Spec.WhatFollowsAWord := by
  intro s g bnd pc hg hq x limit ended same
  have hset (y : Group) : State.Only g s ((s.portUsed g).setGrp g y) := (s.only_portUsed g).trans .setGrp
  have hend (y : Group) (hy : y.dueDefs = []) := (hset y).grp_finishRun (by simp) (by simpa using hy)
  simp only [State.grp_setGrp, if_true] at hend
  refine ⟨fun hb hr => ?_, fun h => ?_, ?_, ?_, ?_, ?_, rfl, fun e => ?_⟩
  · rw [State.retire_on_next hq hb hr, State.grp_setGrp, if_pos rfl]; rfl
  · simp only [ended]
    rw [State.retire_on_end h]
    exact hend (s.grp g).next hq
  · simp only [ended]
    rw [State.retire_run]
    exact hend { s.grp g with flow := { (s.grp g).flow with pc := (s.grp g).flow.pc + 1 } } hq
  · simp only [ended]
    rw [State.retire_jump]
    exact hend { s.grp g with flow := { (s.grp g).flow with pc := pc } } hq
  · have h := (s.only_portUsed g).grp_finishRun (by simpa using hg) (by simpa using hq)
    rw [State.grp_portUsed] at h
    simp only [ended]
    rw [State.retire_moved]
    exact h
  · simp only [State.retire]
    split <;> simp [x]
  · have h := State.only_retire (bnd := bnd) hq hg e
    exact ⟨h.grp, byte_of_mem h.mem, h.mgmt, h.teams, h.sys, h.hub, h.tick, h.pending⟩

/-- Settles O12: what a word leaves of its state, and the ageing step of a stack. -/
theorem wordsRunsAndAges : Obligations.WordsRunsAndAges := ⟨whatFollowsAWord, pathsAgeAndSwitch⟩

end Sys2Proof.Machine
end

section
namespace Sys2Proof.Machine
open Sys2Proof Sys2Proof.Spec

/-! ### Branches and calls (R128) -/

/-- A trap before any effect, as `State.trapNow` takes it. -/
theorem trapsBefore_of_word {s : State} {g : Nat} {i : Instr} {bnd : Bool} {cause : Nat} {info addr : Word}
    (h : exec i s = .next ((s.trapNow g cause info addr).retire g bnd .done)) : trapsBefore s g i cause info addr := h

theorem linkOf_eq (pc : PC) : linkOf pc = 8 * (pc + 1).setWidth 64 := by
  rw [linkOf, BitVec.shiftLeft_eq_mul_twoPow, BitVec.mul_comm]; rfl

theorem codeTarget_eq_none {a : Word} : codeTarget a = none ↔ a.extractLsb' 0 3 ≠ 0 ∨ a.extractLsb' 57 7 ≠ 0 := by
  simp only [codeTarget]
  split <;> simp_all [imp_iff_not_or]

theorem codeTarget_eq_some {a : Word} (h : ¬ (a.extractLsb' 0 3 ≠ 0 ∨ a.extractLsb' 57 7 ≠ 0)) :
    codeTarget a = some (a.extractLsb' 3 54) := by
  simp only [ne_eq, not_or, not_not] at h
  exact if_pos h

section
variable {i : Instr} {h : Hdr} {s : State} {g : Nat} {body : State → Nat → Group → State × Ends} (hs : s.Stands g i)
include hs

/-- A word that stands to issue makes its effect, and what follows it follows. -/
theorem exec_word (he : exec i s = word i s body) (hb : i.bnd = h.bnd) :
    exec i s = .next ((body s g (s.grp g)).1.retire g h.bnd (body s g (s.grp g)).2) := by
  rw [he, word_stands hs, hb]

theorem exec_uniWord_run (he : exec i s = uniWord i h s body) (hb : i.bnd = h.bnd) (hg : (s.grp g).uniGuard h = .run) :
    exec i s = .next ((body s g (s.grp g)).1.retire g h.bnd (body s g (s.grp g)).2) := by
  rw [he, uniWord_stands hs hg, hb]

theorem exec_uniWord_skip (he : exec i s = uniWord i h s body) (hb : i.bnd = h.bnd) (hg : (s.grp g).uniGuard h = .skip) :
    exec i s = .next (s.retire g h.bnd .on) := by
  simp [he, uniWord, word_stands hs, hg, withPolicy, hs.sources, hb]

theorem exec_uniWord_differ (he : exec i s = uniWord i h s body) (hg : (s.grp g).uniGuard h = .differ) :
    exec i s = .next (s.trapNow g 0x04 1 0) := by
  simp [he, uniWord, word_stands hs, hg, State.retire]

end

/-- The way of a branch, from the lanes that take it (R128). -/
theorem branchWay_eq (active truth : Mask) (bare : Bool) :
    (active = 0 → branchWay active truth bare = if bare then .taken else .fall) ∧
    (active ≠ 0 → active &&& truth = 0 → branchWay active truth bare = .fall) ∧
    (active ≠ 0 → active &&& truth = active → branchWay active truth bare = .taken) ∧
    (active &&& truth ≠ 0 → active &&& truth ≠ active → branchWay active truth bare = .split (active &&& truth)) := by
  unfold branchWay
  extract_lets t
  refine ⟨fun h => if_pos h, fun h h' => by rw [if_neg h, if_pos h'], fun h h' => ?_, fun h h' => ?_⟩
  · rw [if_neg h, if_neg (fun h₀ : t = 0 => h (h'.symm.trans h₀)), if_pos h']
  · rw [if_neg (fun h₀ => h (by simp [h₀])), if_neg h, if_neg h']

/-- A target of a register word (R128): a bad one is a trap that names it, before any effect. -/
theorem exec_jump_reg {i : Instr} {h : Hdr} {s : State} {g : Nat} {a : Operand} {u : State}
    (he : exec i s = .next (
      let r := match codeTarget (s.rd (s.grp g) a 0) with
        | none => (s.trapNow g 0x15 0xF (s.rd (s.grp g) a 0), Ends.done)
        | some t => (u, .jump t)
      r.1.retire g h.bnd r.2)) :
    let r := s.rd (s.grp g) a 0
    let bad := r.extractLsb' 0 3 ≠ 0 ∨ r.extractLsb' 57 7 ≠ 0
    (bad → trapsBefore s g i 0x15 0xF r) ∧ (¬ bad → exec i s = .next (u.retire g h.bnd (.jump (r.extractLsb' 3 54)))) := by
  refine ⟨fun hb => ?_, fun hb => ?_⟩
  · rw [codeTarget_eq_none.mpr hb] at he; exact he
  · rw [codeTarget_eq_some hb] at he; exact he

section
variable (h : Hdr) (off : BitVec 30) (d a : Operand) (s : State)

theorem exec_bra : exec (.bra h off) s = word (.bra h off) s (fun s g x =>
    if x.branchBlocked (branchWay x.flow.mask (x.guardMask h) (decide (h.gp.val = 7) && !h.gn)) then (s.divStack g 1, .done)
    else s.branch g (branchWay x.flow.mask (x.guardMask h) (decide (h.gp.val = 7) && !h.gn)) (PC.plus x.flow.pc off)) := rfl

theorem exec_brau : exec (.brau h off) s = uniWord (.brau h off) h s (fun s _ x => (s, .jump (PC.plus x.flow.pc off))) := rfl

theorem exec_call : exec (.call h d off) s = uniWord (.call h d off) h s (fun s g x =>
    (s.setGrp g (x.write d [0] (fun _ => linkOf x.flow.pc)), .jump (PC.plus x.flow.pc off))) := rfl

theorem exec_callReg : exec (.callReg h d a) s = uniWord (.callReg h d a) h s (fun s g x =>
    match codeTarget (s.rd x a 0) with
    | none => (s.trapNow g 0x15 0xF (s.rd x a 0), .done)
    | some t => (s.setGrp g (x.write d [0] (fun _ => linkOf x.flow.pc)), .jump t)) := rfl

theorem exec_ret : exec (.ret h a) s = uniWord (.ret h a) h s (fun s g x =>
    match codeTarget (s.rd x a 0) with
    | none => (s.trapNow g 0x15 0xF (s.rd x a 0), .done)
    | some t => (s, .jump t)) := rfl

end

/-- The ways of `bra` (R128). -/
theorem exec_bra_ways {h : Hdr} {off : BitVec 30} {s : State} {g : Nat} (hs : s.Stands g (.bra h off)) (hg : s.hasGrp g = true) :
    let x := s.grp g
    let target : PC := x.flow.pc + off.signExtend 54
    let t := x.flow.mask &&& x.guardMask h
    let bare := h.gp = 7 ∧ h.gn = false
    let go := fun (i : Instr) (u : State) (e : Ends) => exec i s = .next (u.retire g h.bnd e)
    (x.flow.mask = 0 → bare → go (.bra h off) s (.jump target)) ∧
    (x.flow.mask = 0 → ¬ bare → go (.bra h off) s .on) ∧
    (x.flow.mask ≠ 0 → t = 0 → go (.bra h off) s .on) ∧
    (x.flow.mask ≠ 0 → t = x.flow.mask → go (.bra h off) s (.jump target)) ∧
    (t ≠ 0 → t ≠ x.flow.mask → x.flow.stack.length < 32 →
      go (.bra h off) (s.setGrp g (onPath x { x.flow with
        mask := x.flow.mask &&& ~~~t &&& ~~~(x.flow.exited ||| x.flow.deferred),
        stack := x.flow.stack ++
          [{ kind := .path, addr := target, mask := t, link := x.flow.region, age := 0, fresh := true }] })) .run) ∧
    (t ≠ 0 → t ≠ x.flow.mask → 32 ≤ x.flow.stack.length → trapsBefore s g (.bra h off) 0x08 1 0) := by
  intro x target t bare go
  have he := exec_word (h := h) hs (exec_bra h off s) rfl
  have hbare : (decide (h.gp.val = 7) && !h.gn) = true ↔ bare := by simp [bare, Fin.ext_iff]
  obtain ⟨hz, hf, ht, hsp⟩ := branchWay_eq x.flow.mask (x.guardMask h) (decide (h.gp.val = 7) && !h.gn)
  have hb : x.branchBlocked (.split t) = decide (32 ≤ x.flow.stack.length) := rfl
  refine ⟨fun hm hb => ?_, fun hm hb => ?_, fun hm h0 => ?_, fun hm h1 => ?_, fun h0 h1 hd => ?_, fun h0 h1 hd => ?_⟩
  · rw [hz hm, if_pos (hbare.mpr hb)] at he; exact he
  · rw [hz hm, if_neg (fun hb' => hb (hbare.mp hb'))] at he; exact he
  · rw [hf hm h0] at he; exact he
  · rw [ht hm h1] at he; exact he
  · rw [hsp h0 h1, if_neg (by rw [hb]; simpa using hd), State.branch, State.updGrp_eq_setGrp hg] at he
    exact he
  · rw [hsp h0 h1, if_pos (by rw [hb]; simpa using hd)] at he
    exact he

/-- Settles O13: the way of a branch, and the two forms of a target. -/
theorem branchesAndCalls : Obligations.BranchesAndCalls := by
  intro h off d a s g x target t bare go r bad toReg link
  have hlink : linkOf x.flow.pc = link := linkOf_eq _
  refine ⟨exec_bra_ways, fun hs hu => (exec_uniWord_run hs (exec_brau ..) rfl hu :), fun hs hu => exec_uniWord_skip hs (exec_brau ..) rfl hu,
    fun hs hu => ⟨x.write d [0] (fun _ => link), Group.wrote_write .., ?_⟩,
    fun hs hu => exec_uniWord_skip hs (exec_call ..) rfl hu, fun hs hu => ?_,
    fun hs hu => exec_uniWord_skip hs (exec_callReg ..) rfl hu,
    fun hs hu => exec_jump_reg (exec_uniWord_run hs (exec_ret ..) rfl hu),
    fun hs hu => exec_uniWord_skip hs (exec_ret ..) rfl hu⟩
  · rw [← hlink]; exact (exec_uniWord_run hs (exec_call ..) rfl hu :)
  · obtain ⟨hbad, hgood⟩ := exec_jump_reg (exec_uniWord_run hs (exec_callReg ..) rfl hu)
    exact ⟨hbad, fun hb => ⟨x.write d [0] (fun _ => link), Group.wrote_write .., by rw [← hlink]; exact hgood hb⟩⟩

end Sys2Proof.Machine
end

section
namespace Sys2Proof.Machine
open Sys2Proof Sys2Proof.Spec

/-! ### Divergence regions (R36, R129, R130) -/

theorem Flow.regionAt_eq_some {f : Flow} {addr : PC} {i : Nat} :
    f.regionAt addr = some i ↔ f.region = some i ∧ ∃ e, f.stack[i]? = some e ∧ e.addr = addr := by
  constructor
  · intro h
    unfold Flow.regionAt at h
    split at h
    · cases h
    · next j hr =>
      split at h
      · next e he =>
        split at h
        · next ha => cases h; exact ⟨hr, e, he, ha⟩
        · cases h
      · cases h
  · rintro ⟨hr, e, he, ha⟩
    simp [Flow.regionAt, hr, he, ha]

theorem Flow.regionAt_eq_none {f : Flow} {addr : PC}
    (h : ∀ i, ¬ (f.region = some i ∧ ∃ e, f.stack[i]? = some e ∧ e.addr = addr)) : f.regionAt addr = none :=
  Option.eq_none_iff_forall_ne_some.mpr fun i hi => h i (Flow.regionAt_eq_some.mp hi)

section
variable (h : Hdr) (off : BitVec 30) (s : State)

theorem exec_jmark : exec (.jmark h off) s = word (.jmark h off) s (fun s g x =>
    if 32 ≤ x.flow.stack.length then (s.divStack g 1, .done)
    else (s.setGrp g (onPath x { x.flow with
      region := some x.flow.stack.length,
      stack := x.flow.stack ++ [{ kind := .rejoin, addr := x.flow.pc + off.signExtend 54, mask := 0, link := x.flow.region,
                                  age := 0, fresh := true }] }), .on)) := rfl

theorem exec_join : exec (.join h) s = word (.join h) s (fun s g x =>
    match x.flow.regionAt x.flow.pc with
    | none => (s.divStack g 2, .done)
    | some i => (s.setGrp g (onPath x (x.flow.arrive i x.flow.mask))).endPath g) := rfl

/-- What `brk` leaves of a path whose lanes `b` leave it. -/
def Flow.broken (f : Flow) (i : Nat) (b : Mask) : Flow :=
  { f.arrive i b with mask := f.mask &&& ~~~b &&& ~~~(f.exited ||| f.deferred) }

theorem exec_brk : exec (.brk h off) s = word (.brk h off) s (fun s g x =>
    match x.flow.regionAt (x.flow.pc + off.signExtend 54) with
    | none => (s.divStack g 2, .done)
    | some i =>
      if x.execMask h = 0 then (s, .on)
      else if (x.flow.broken i (x.execMask h)).mask = 0 then (s.setGrp g (onPath x (x.flow.broken i (x.execMask h)))).endPath g
      else (s.setGrp g (onPath x (x.flow.broken i (x.execMask h))), .run)) := rfl

end

/-- Settles O14: the region at an address is looked up by `Flow.regionAt`. -/
theorem divergenceRegions : Obligations.DivergenceRegions := by
  intro h off s g x f target go gathered endsPath at_ b
  refine ⟨fun hs => ?_, fun hs => ?_, fun hs => ?_⟩
  · have he := exec_word (h := h) hs (exec_jmark ..) rfl
    refine ⟨fun hd => ?_, fun hd => ?_⟩
    · rw [if_neg (by simpa using hd)] at he; exact he
    · rw [if_pos hd] at he; exact he
  · have he := exec_word (h := h) hs (exec_join ..) rfl
    refine ⟨fun i hi => ?_, fun hn => ?_⟩
    · rw [Flow.regionAt_eq_some.mpr hi] at he; exact he
    · rw [Flow.regionAt_eq_none hn] at he; exact he
  · have he := exec_word (h := h) hs (exec_brk ..) rfl
    refine ⟨fun i hi => ?_, fun hn => ?_⟩
    · rw [Flow.regionAt_eq_some.mpr hi] at he
      refine ⟨fun (h0 : (s.grp g).execMask h = 0) => ?_, fun (h0 : (s.grp g).execMask h ≠ 0) hl => ?_,
        fun (h0 : (s.grp g).execMask h ≠ 0) hl => ?_⟩
      · simp only [if_pos h0] at he; exact he
      · have hl : ((s.grp g).flow.broken i ((s.grp g).execMask h)).mask ≠ 0 := hl
        simp only [if_neg h0, if_neg hl] at he; exact he
      · have hl : ((s.grp g).flow.broken i ((s.grp g).execMask h)).mask = 0 := hl
        simp only [if_neg h0, if_pos hl] at he; exact he
    · rw [Flow.regionAt_eq_none hn] at he; exact he

end Sys2Proof.Machine
end

section
namespace Sys2Proof.Machine
open Sys2Proof Sys2Proof.Spec

/-! ### The end of a path (R36) -/

/-- One step of the search for the topmost path entry. -/
def pathAt (st : List Entry) (a : Option Nat) (i : Nat) : Option Nat :=
  match st[i]? with
  | some e => if e.kind = .path then some i else a
  | none => a

theorem topPath_eq_foldl (st : List Entry) : topPath st = (List.range st.length).foldl (pathAt st) none := rfl

theorem pathAt_eq_self {st : List Entry} {a : Option Nat} {i : Nat} (h : ∀ e, st[i]? = some e → e.kind ≠ .path) :
    pathAt st a i = a := by
  unfold pathAt
  split
  · next e he => exact if_neg (h e he)
  · rfl

theorem topPath_eq_none {st : List Entry} (h : ∀ e ∈ st, e.kind ≠ .path) : topPath st = none := by
  rw [topPath_eq_foldl]
  exact foldl_range_induction (fun _ a => a = none) rfl
    (fun n a ha => (pathAt_eq_self fun e he => h e (List.mem_of_getElem? he)).trans ha) _

theorem topPath_eq_some {st : List Entry} {i : Nat} {e : Entry} (he : st[i]? = some e) (hp : e.kind = .path)
    (htop : ∀ j e', i < j → st[j]? = some e' → e'.kind ≠ .path) : topPath st = some i := by
  have key := foldl_range_induction (f := pathAt st) (b := none) (fun n a => i < n → a = some i) (by simp) (fun n a ha hn => ?_)
    st.length
  · exact (topPath_eq_foldl st).trans (key (List.getElem?_eq_some_iff.mp he).1)
  · rcases Nat.lt_or_ge i n with hlt | hge
    · exact (pathAt_eq_self fun e' he' => htop n e' hlt he').trans (ha hlt)
    · obtain rfl : i = n := by omega
      simp [pathAt, he, hp]

/-- A path that waits at entry `i` runs: in the enclosing region, with the other entries as they stand. -/
structure RunsFrom (f y : Flow) (i : Nat) (e : Entry) (pc : PC) : Prop where
  pc : y.pc = pc
  region : y.region = e.link
  mask : y.mask = e.mask &&& ~~~(f.exited ||| f.deferred)
  stack : y.stack.map Entry.waiting = (f.stack.eraseIdx i).map Entry.waiting

theorem Flow.popPath_run {f : Flow} {i : Nat} {e : Entry} (he : f.stack[i]? = some e) (hp : e.kind = .path)
    (htop : ∀ j e', i < j → f.stack[j]? = some e' → e'.kind ≠ .path) :
    ∃ y, f.popPath = .run y ∧ RunsFrom f y i e e.addr := by
  refine ⟨{ (f.removeEntry i).setMask e.mask with region := e.link, pc := e.addr }, ?_, rfl, rfl, rfl, f.removeEntry_stack i⟩
  simp only [Flow.popPath, topPath_eq_some he hp htop, he]

theorem Flow.popPath_ended {f : Flow} (h : ∀ e ∈ f.stack, e.kind ≠ .path) : f.popPath = .ended f := by
  simp only [Flow.popPath, topPath_eq_none h]

/-- With a path still to come, or in no region, the topmost path is taken. -/
theorem Flow.pathEnd_pop {f : Flow} (n : Nat) (h : f.region = none ∨ ∃ i, f.region = some i ∧ f.pendingIn i = true) :
    Flow.pathEnd (n + 1) f = f.popPath := by
  rcases h with h | ⟨i, h, hp⟩
  · simp only [Flow.pathEnd, h]
  · simp only [Flow.pathEnd, h, hp, if_true]

theorem Flow.pathEnd_region {f : Flow} {i : Nat} {e : Entry} (n : Nat) (hr : f.region = some i) (he : f.stack[i]? = some e)
    (hp : f.pendingIn i = false) : Flow.pathEnd (n + 1) f =
      if e.mask ≠ 0 then .run { (f.removeEntry i).setMask e.mask with region := e.link, pc := e.addr + 1 }
      else Flow.pathEnd n { f.removeEntry i with region := e.link } := by
  simp only [Flow.pathEnd, hr, hp, he]
  rfl

theorem pathEndCases : Spec.PathEnd := by
  intro f n
  refine ⟨fun i e hr he hp => ⟨fun hm => ?_, fun hm => ?_⟩, fun h => ⟨fun i e he hk htop => ?_, fun hk => ?_⟩⟩
  · rw [Flow.pathEnd_region n hr he hp, if_pos hm]
    exact ⟨_, rfl, rfl, rfl, rfl, f.removeEntry_stack i⟩
  · rw [Flow.pathEnd_region n hr he hp, if_neg (not_not.mpr hm)]
  · obtain ⟨y, hy, hpc, hreg, hmask, hst⟩ := Flow.popPath_run he hk htop
    exact ⟨y, (Flow.pathEnd_pop n h).trans hy, hpc, hreg, hmask, hst⟩
  · exact ⟨f, (Flow.pathEnd_pop n h).trans (Flow.popPath_ended hk)⟩

/-! ### Lanes that exit (R37) -/

theorem foldl_eraseIdx_succ {α : Type} (a : α) (l : List α) (is : List Nat) :
    (is.map Nat.succ).foldl List.eraseIdx (a :: l) = a :: is.foldl List.eraseIdx l := by
  induction is generalizing l with
  | nil => rfl
  | cons i is ih => exact ih _

theorem map_foldl_eraseIdx {α β : Type} (φ : α → β) (l : List α) (is : List Nat) :
    (is.foldl List.eraseIdx l).map φ = is.foldl List.eraseIdx (l.map φ) := by
  induction is generalizing l with
  | nil => rfl
  | cons i is ih => rw [List.foldl_cons, ih, ← List.eraseIdx_map]; rfl

/-- Taking out of a list, from the top down, the places where `p` holds leaves the others. -/
theorem foldl_eraseIdx_filter {α : Type} (p : α → Bool) (l : List α) :
    (((List.range l.length).filter (fun i => (l[i]?).any p)).reverse).foldl List.eraseIdx l = l.filter (fun a => !p a) := by
  induction l with
  | nil => rfl
  | cons a l ih =>
    have htail : ((List.range l.length).map Nat.succ).filter (fun i => ((a :: l)[i]?).any p) =
        ((List.range l.length).filter (fun i => (l[i]?).any p)).map Nat.succ := by
      rw [List.filter_map]; rfl
    rw [List.length_cons, List.range_succ_eq_map, List.filter_cons, htail]
    cases hp : p a
    · simp only [List.getElem?_cons_zero, Option.any_some, hp, Bool.false_eq_true, if_false]
      rw [← List.map_reverse, foldl_eraseIdx_succ, ih]
      simp [hp]
    · simp only [List.getElem?_cons_zero, Option.any_some, hp, if_true]
      rw [List.reverse_cons, List.foldl_append, ← List.map_reverse, foldl_eraseIdx_succ, ih]
      simp [hp]

theorem foldl_removeEntry_stack (f : Flow) (is : List Nat) :
    (is.foldl Flow.removeEntry f).stack.map Entry.waiting = is.foldl List.eraseIdx (f.stack.map Entry.waiting) := by
  induction is generalizing f with
  | nil => rfl
  | cons i is ih => rw [List.foldl_cons, ih, Flow.removeEntry_stack, ← List.eraseIdx_map]; rfl

theorem foldl_removeEntry_frame (f : Flow) (is : List Nat) :
    (is.foldl Flow.removeEntry f).exited = f.exited ∧ (is.foldl Flow.removeEntry f).mask = f.mask := by
  induction is generalizing f with
  | nil => exact ⟨rfl, rfl⟩
  | cons i is ih => exact ih _

/-- Whether a path entry loses its last lane (R37). -/
def Entry.loses (e : Entry) (l : Mask) : Bool := decide (e.kind = .path ∧ e.mask ≠ 0 ∧ e.mask &&& ~~~l = 0)

/-- What waits once the lanes `l` have exited: every entry without them, but for the paths that had no other. -/
theorem Flow.exitLanes_stack (f : Flow) (l : Mask) :
    (f.exitLanes l).stack.map Entry.waiting =
      (f.stack.filter (fun e => !e.loses l)).map (fun e => (e.kind, e.addr, e.mask &&& ~~~l)) := by
  rw [← foldl_eraseIdx_filter, map_foldl_eraseIdx, Flow.exitLanes, foldl_removeEntry_stack, List.map_map]
  congr 2
  refine List.filter_congr fun i _ => ?_
  cases f.stack[i]? <;> rfl

theorem Flow.exitLanes_frame (f : Flow) (l : Mask) :
    (f.exitLanes l).exited = f.exited ||| l ∧ (f.exitLanes l).mask = f.mask &&& ~~~l :=
  foldl_removeEntry_frame _ _

theorem Flow.mem_exitLanes {f : Flow} {l : Mask} {e : Entry} (he : e ∈ (f.exitLanes l).stack) :
    ∃ e₀ ∈ f.stack, e₀.loses l = false ∧ e.kind = e₀.kind ∧ e.mask = e₀.mask &&& ~~~l := by
  have h := List.mem_map_of_mem (f := Entry.waiting) he
  rw [Flow.exitLanes_stack] at h
  obtain ⟨e₀, h₀, heq⟩ := List.mem_map.mp h
  obtain ⟨hm, hl⟩ := List.mem_filter.mp h₀
  simp only [Entry.waiting, Prod.mk.injEq] at heq
  obtain ⟨hk, -, hmask⟩ := heq
  exact ⟨e₀, hm, by simpa using hl, hk.symm, hmask.symm⟩

theorem Flow.exitLanes_mem {f : Flow} {l : Mask} {e₀ : Entry} (h : e₀ ∈ f.stack) (hl : e₀.loses l = false) :
    ∃ e ∈ (f.exitLanes l).stack, e.kind = e₀.kind ∧ e.addr = e₀.addr ∧ e.mask = e₀.mask &&& ~~~l := by
  have h₀ : (e₀.kind, e₀.addr, e₀.mask &&& ~~~l) ∈ (f.exitLanes l).stack.map Entry.waiting := by
    rw [Flow.exitLanes_stack]
    exact List.mem_map.mpr ⟨e₀, List.mem_filter.mpr ⟨h, by simp [hl]⟩, rfl⟩
  obtain ⟨e, he, heq⟩ := List.mem_map.mp h₀
  simp only [Entry.waiting, Prod.mk.injEq] at heq
  exact ⟨e, he, heq⟩

/-! ### Yield, nop, exit and sleep (R37, R131) -/

section
variable (h : Hdr) (rel : Bool) (a : Operand) (s : State)

theorem exec_yield : exec (.yield h) s = uniWord (.yield h) h s (fun s _ _ => (s, .run)) := rfl

theorem exec_nop : exec (.nop h) s = word (.nop h) s (fun s _ _ => (s, .on)) := rfl

theorem exec_exit : exec (.exit h) s = word (.exit h) s (fun s g x =>
    if (x.flow.exitLanes (x.execMask h)).mask = 0 then (s.setGrp g (onPath x (x.flow.exitLanes (x.execMask h)))).endPath g
    else (s.setGrp g (onPath x (x.flow.exitLanes (x.execMask h))), .on)) := rfl

theorem exec_sleep : exec (.sleep h rel a) s = uniWord (.sleep h rel a) h s (fun s g x =>
    if (if rel then s.tick + s.rd x a 0 else s.rd x a 0) ≤ s.tick then (s, .run)
    else (s.suspend g (.sleep (if rel then s.tick + s.rd x a 0 else s.rd x a 0)), .run)) := rfl

end

theorem State.wake_eq {s : State} {g : Nat} (hg : s.hasGrp g = true) :
    s.wake g = s.setGrp g { s.grp g with sched := { (s.grp g).sched with susp := .none, since := s.tick } } := by
  have h₁ : s.updGrp g (fun x => { x with sched := { x.sched with susp := .none } }) = _ := State.updGrp_eq_setGrp hg
  rw [State.wake, State.eligible, h₁, State.updGrp_eq_setGrp (by simp), State.setGrp_setGrp, State.grp_setGrp, if_pos rfl]
  rfl

/-- A sleeper whose deadline has come is eligible again; before it nothing happens. -/
theorem exec_sleepDeadline {s : State} {g : Nat} {w : Word} (hw : (s.grp g).sched.susp = .sleep w) :
    exec (.sleepDeadline g) s = if w ≤ s.tick then .next (s.wake g) else .next s := by
  have h : exec (.sleepDeadline g) s = match (s.grp g).sched.susp with
    | .sleep d => if d ≤ s.tick then .next (s.wake g) else .next s
    | _ => .next s := rfl
  rw [h, hw]

theorem exec_exit_lanes (f : Flow) (gone : Mask) :
    let left := f.exitLanes gone
    left.exited = f.exited ||| gone ∧ left.mask = f.mask &&& ~~~gone ∧ (∀ e ∈ left.stack, e.mask &&& gone = 0) ∧
      ((∀ e ∈ f.stack, e.kind = .path → e.mask ≠ 0) → ∀ e ∈ left.stack, e.kind = .path → e.mask ≠ 0) ∧
      (∀ e ∈ f.stack, e.kind = .path → e.mask = 0 → ∃ e' ∈ left.stack, e'.kind = .path ∧ e'.addr = e.addr ∧ e'.mask = 0) := by
  obtain ⟨hex, hmask⟩ := f.exitLanes_frame gone
  refine ⟨hex, hmask, fun e he => ?_, fun hall e he hk hm => ?_, fun e he hk hm => ?_⟩
  · obtain ⟨e₀, -, -, -, hm⟩ := Flow.mem_exitLanes he
    rw [hm, BitVec.and_assoc]
    simp
  · obtain ⟨e₀, h₀, hl, hk₀, hm₀⟩ := Flow.mem_exitLanes he
    have hk' : e₀.kind = .path := hk₀ ▸ hk
    simp only [Entry.loses, decide_eq_false_iff_not] at hl
    exact hl ⟨hk', hall e₀ h₀ hk', hm₀.symm.trans hm⟩
  · obtain ⟨e', he', hk', ha', hm'⟩ := Flow.exitLanes_mem (l := gone) he (by simp [Entry.loses, hm])
    exact ⟨e', he', hk'.trans hk, ha', by simp [hm', hm]⟩

theorem yieldExitNopSleep : Spec.YieldExitNopSleep := by
  intro h rel a s g x go d gone left
  refine ⟨fun hs => ⟨fun hu => (exec_uniWord_run hs (exec_yield ..) rfl hu :), fun hu => exec_uniWord_skip hs (exec_yield ..) rfl hu⟩,
    fun hs => (exec_word (h := h) hs (exec_nop ..) rfl :), fun hs => ?_, fun hs hu hg => ?_,
    fun hs hu => exec_uniWord_skip hs (exec_sleep ..) rfl hu, fun w hg hw => ?_⟩
  · obtain ⟨hex, hmask, hgone, hpath, hempty⟩ := exec_exit_lanes x.flow gone
    refine ⟨hex, hmask, hgone, fun _ => hpath, hempty, ?_⟩
    have he := exec_word (h := h) hs (exec_exit ..) rfl
    refine ⟨fun (hl : ((s.grp g).flow.exitLanes ((s.grp g).execMask h)).mask ≠ 0) => ?_,
      fun (hl : ((s.grp g).flow.exitLanes ((s.grp g).execMask h)).mask = 0) => ?_⟩
    · simp only [if_neg hl] at he; exact he
    · simp only [if_pos hl] at he; exact he
  · have he := exec_uniWord_run (h := h) hs (exec_sleep ..) rfl hu
    refine ⟨fun hd => ?_, fun hd => ?_⟩
    · rw [if_pos hd] at he; exact he
    · rw [if_neg hd, State.suspend, State.updGrp_eq_setGrp hg] at he; exact he
  · refine ⟨fun hd => ?_, fun hd => ?_⟩
    · rw [exec_sleepDeadline hw, if_pos hd, State.wake_eq hg]
    · rw [exec_sleepDeadline hw, if_neg hd]

/-- Settles O15: the end of a path, and the words that end or suspend one. -/
theorem pathEndExitAndSleep : Obligations.PathEndExitAndSleep := ⟨pathEndCases, yieldExitNopSleep⟩

end Sys2Proof.Machine
end

section
namespace Sys2Proof.Machine
open Sys2Proof Sys2Proof.Spec

/-! ### A result that returns (R32, R34, R60) -/

/-- The value of a result for one lane of a vector register, and for a scalar register: the last that it lists. -/
def Result.laneValue (r : Result) (n l : Nat) : Option Word :=
  ((r.vals.filter (fun v => decide (v.1 = n))).filter (fun v => decide (v.2.1 = l))).getLast?.map (fun v => v.2.2)
def Result.scalarValue (r : Result) (n : Nat) : Option Word :=
  (r.vals.filter (fun v => decide (v.1 = n))).getLast?.map (fun v => v.2.2)

theorem getLast?_eq_of_forall {α β : Type} {l : List α} {f : α → β} {b : β} (hne : ∃ a, a ∈ l) (h : ∀ a ∈ l, f a = b) :
    l.getLast?.map f = some b := by
  obtain ⟨a, ha⟩ := hne
  have hl := List.getLast?_eq_some_getLast (List.ne_nil_of_mem ha)
  rw [hl]
  exact congrArg some (h _ (List.getLast_mem _))

theorem Result.laneValue_eq_none {r : Result} {n l : Nat} (h : ∀ e ∈ r.vals, ¬ (e.1 = n ∧ e.2.1 = l)) : r.laneValue n l = none := by
  simp only [Result.laneValue, List.filter_filter]
  rw [List.filter_eq_nil_iff.mpr fun e he => by simpa [and_comm] using h e he]
  rfl

theorem Result.laneValue_eq_some {r : Result} {n l : Nat} {v : Word} (hex : ∃ e ∈ r.vals, e.1 = n ∧ e.2.1 = l)
    (hall : ∀ e ∈ r.vals, e.1 = n → e.2.1 = l → e.2.2 = v) : r.laneValue n l = some v := by
  obtain ⟨e, he, hn, hl⟩ := hex
  refine getLast?_eq_of_forall ⟨e, by simp [he, hn, hl]⟩ fun e he => ?_
  simp only [List.mem_filter, decide_eq_true_eq] at he
  exact hall e he.1.1 he.1.2 he.2

theorem Result.scalarValue_eq_none {r : Result} {n : Nat} (h : ∀ e ∈ r.vals, e.1 ≠ n) : r.scalarValue n = none := by
  rw [Result.scalarValue, List.filter_eq_nil_iff.mpr fun e he => by simpa using h e he]
  rfl

theorem Result.scalarValue_eq_some {r : Result} {n : Nat} {v : Word} (hex : ∃ e ∈ r.vals, e.1 = n)
    (hall : ∀ e ∈ r.vals, e.1 = n → e.2.2 = v) : r.scalarValue n = some v := by
  obtain ⟨e, he, hn⟩ := hex
  refine getLast?_eq_of_forall ⟨e, by simp [he, hn]⟩ fun e he => ?_
  simp only [List.mem_filter, decide_eq_true_eq] at he
  exact hall e he.1 he.2

/-- What group `y` holds after the registers `ks` of group `x` have taken the values of a result. -/
structure Filled (r : Result) (x y : Group) (ks : List Nat) : Prop where
  rest : ∃ q, y = { x with regs := q }
  full : ∀ k < 192, y.isFull k = (x.isFull k || decide (k ∈ ks))
  vreg : ∀ n < 128, ∀ l, y.vreg n l = if n ∈ ks then ((r.laneValue n l).map (BitVec.setWidth 32)).getD (x.vreg n l) else x.vreg n l
  sreg : ∀ n < 61, y.sreg n = if 128 + n ∈ ks then (r.scalarValue (128 + n)).getD (x.sreg n) else x.sreg n

theorem Filled.refl {r : Result} {x : Group} : Filled r x x [] := ⟨⟨x.regs, rfl⟩, by simp, by simp, by simp⟩

theorem Filled.cons {r : Result} {x y z : Group} {k : Nat} {ks : List Nat} (h : Filled r x y [k]) (h' : Filled r y z ks) :
    Filled r x z (k :: ks) where
  rest := by
    obtain ⟨q, hq⟩ := h.rest
    obtain ⟨q', hq'⟩ := h'.rest
    exact ⟨q', by rw [hq', hq]⟩
  full q hq := by simp [h'.full q hq, h.full q hq, Bool.or_assoc]
  vreg n hn l := by
    rw [h'.vreg n hn, h.vreg n hn]
    cases r.laneValue n l <;> by_cases hk : n = k <;> by_cases hks : n ∈ ks <;> simp [hk, hks]
  sreg n hn := by
    rw [h'.sreg n hn, h.sreg n hn]
    cases r.scalarValue (128 + n) <;> by_cases hk : 128 + n = k <;> by_cases hks : 128 + n ∈ ks <;> simp [hk, hks]

/-- Lanes of one vector register written in turn: the last write of a lane stands. -/
theorem foldl_setLane_values (x : Group) (n : Nat) (vs : List (Nat × Nat × Word)) :
    (∀ m l, (vs.foldl (fun x v => x.setLane n v.2.1 (v.2.2.setWidth 32)) x).vreg m l =
      if m = n then (((vs.filter (fun v => decide (v.2.1 = l))).getLast?.map (fun v => v.2.2)).map (BitVec.setWidth 32)).getD (x.vreg m l)
      else x.vreg m l) ∧
    ∃ v, vs.foldl (fun x v => x.setLane n v.2.1 (v.2.2.setWidth 32)) x = { x with regs := { x.regs with v := v } } := by
  induction vs using List.reverseRecOn with
  | nil => exact ⟨by simp, x.regs.v, rfl⟩
  | append_singleton vs w ih =>
    obtain ⟨hv, v, hx⟩ := ih
    rw [List.foldl_append, List.foldl_cons, List.foldl_nil]
    refine ⟨fun m l => ?_, _, by rw [hx]; rfl⟩
    rw [Group.vreg_setLane, hv, List.filter_append]
    by_cases hm : m = n <;> by_cases hl : w.2.1 = l
    · subst hl; simp [hm]
    · simp [hm, hl, Ne.symm hl]
    · simp [hm]
    · simp [hm]

/-- A scalar register written in turn: the last write stands. -/
theorem foldl_setScalar_values (x : Group) (n : Nat) (vs : List (Nat × Nat × Word)) :
    ∃ t, vs.foldl (fun (x : Group) v => { x with regs := { x.regs with s := Tab.set 0 n v.2.2 x.regs.s } }) x =
        { x with regs := { x.regs with s := t } } ∧
      ∀ m, Tab.get 0 m t = if m = n then (vs.getLast?.map (fun v => v.2.2)).getD (Tab.get 0 m x.regs.s) else Tab.get 0 m x.regs.s := by
  induction vs using List.reverseRecOn with
  | nil => exact ⟨x.regs.s, rfl, by simp⟩
  | append_singleton vs w ih =>
    obtain ⟨t, hx, ht⟩ := ih
    rw [List.foldl_append, List.foldl_cons, List.foldl_nil, hx]
    refine ⟨_, rfl, fun m => ?_⟩
    rw [Tab.get_set, ht]
    by_cases hm : m = n <;> simp [hm]

theorem filled_putResult (r : Result) (x : Group) (k : Nat) : Filled r x (x.putResult r k) [k] := by
  unfold Group.putResult
  extract_lets vs y
  by_cases hk : k < 128
  · obtain ⟨hv, v, hy⟩ := foldl_setLane_values x k vs
    have hy : y = { x with regs := { x.regs with v := v } } := by simp only [y, hk, if_true]; exact hy
    have hv (m l : Nat) : y.vreg m l = if m = k then ((r.laneValue k l).map (BitVec.setWidth 32)).getD (x.vreg m l) else x.vreg m l := by
      simp only [y, hk, if_true]; exact hv m l
    refine ⟨⟨_, by rw [hy]⟩, fun q hq => ?_, fun n hn l => ?_, fun n hn => ?_⟩
    · rw [isFull_fill y k q hq, hy]; simp [Group.isFull]
    · refine (hv n l).trans ?_
      by_cases h : n = k <;> simp [h]
    · rw [if_neg (by simp; omega), hy]; rfl
  · obtain ⟨t, hy, ht⟩ := foldl_setScalar_values x (k - 128) vs
    have hy : y = { x with regs := { x.regs with s := t } } := by simp only [y, hk, if_false]; exact hy
    refine ⟨⟨_, by rw [hy]⟩, fun q hq => ?_, fun n hn l => ?_, fun n hn => ?_⟩
    · rw [isFull_fill y k q hq, hy]; simp [Group.isFull]
    · rw [if_neg (by simp; omega), hy]; rfl
    · have hs : (Group.sreg { y with regs := y.regs.fill k } n) = Tab.get 0 n t := by
        simp only [Group.sreg, hn, if_true, hy]; rfl
      have hx : x.sreg n = Tab.get 0 n x.regs.s := by simp only [Group.sreg, hn, if_true]
      rw [hs, ht, hx]
      by_cases h : 128 + n = k
      · subst h; simp [Result.scalarValue, vs]
      · rw [if_neg (by omega), if_neg (by simpa using h)]

theorem filled_foldl (r : Result) (x : Group) (ks : List Nat) : Filled r x (ks.foldl (fun x k => x.putResult r k) x) ks := by
  induction ks generalizing x with
  | nil => exact .refl
  | cons k ks ih => exact (filled_putResult r x k).cons (ih _)

/-- The registers of a result that it still governs (R34). -/
def Result.governed (r : Result) (tok : Nat) (x : Group) : List Nat :=
  r.regs.filter (fun k => decide (Tab.find? k x.regs.pend = some tok))

/-- A group whose result has returned. -/
def Group.returned (x : Group) (tok : Nat) (r : Result) : Group :=
  ((r.governed tok x).foldl (fun x k => x.putResult r k) x).addFlags r.flags

theorem exec_resultWriteback {s : State} {tok : Nat} {r : Result} (hr : Tab.find? tok s.sys.results = some r)
    (hg : s.hasGrp r.grp = true) : exec (.resultWriteback tok) s = .next
      (((s.setSys { s.sys with results := Tab.del tok s.sys.results }).setGrp r.grp ((s.grp r.grp).returned tok r)).sourcesFull r.grp) := by
  have he : exec (.resultWriteback tok) s = execResultWriteback tok s := rfl
  rw [he, execResultWriteback, hr]
  have hu (f : Group → Group) := State.updGrp_eq_setGrp (s := s.setSys { s.sys with results := Tab.del tok s.sys.results }) (f := f) hg
  simp only [hu]
  rfl

/-- What `State.sourcesFull` leaves of the group: its registers, path and flags; and it is eligible where its sources are full. -/
theorem State.grp_sourcesFull {s : State} {g : Nat} (hg : s.hasGrp g = true) :
    (s.sourcesFull g).mem = s.mem ∧ (s.sourcesFull g).sys = s.sys ∧ ((s.sourcesFull g).grp g).regs = (s.grp g).regs ∧
      ((s.sourcesFull g).grp g).flow = (s.grp g).flow ∧ ((s.sourcesFull g).grp g).fp = (s.grp g).fp ∧
      ((s.grp g).sched.need ≠ [] → (∀ k ∈ (s.grp g).sched.need, (s.grp g).isFull k = true) →
        ((s.sourcesFull g).grp g).sched.need = [] ∧ ((s.sourcesFull g).grp g).sched.since = s.tick) := by
  unfold State.sourcesFull
  extract_lets x
  split
  · simp [State.eligible, State.grp_updGrp, hg]
  · next hc =>
    refine ⟨rfl, rfl, rfl, rfl, rfl, fun hne hall => absurd ?_ hc⟩
    simp only [Bool.and_eq_true, Bool.not_eq_true', List.isEmpty_eq_false_iff, List.all_eq_true]
    exact ⟨hne, hall⟩

/-- Settles O31: the governed registers take their values in turn, and the group is looked at again. -/
theorem resultsReturn : Obligations.ResultsReturn := by
  intro s tok r x mine hr hg
  refine ⟨_, exec_resultWriteback hr hg, ?_⟩
  set u := (s.setSys { s.sys with results := Tab.del tok s.sys.results }).setGrp r.grp (x.returned tok r) with hu
  have hug : u.grp r.grp = x.returned tok r := by simp [hu]
  obtain ⟨hmem, hsys, hregs, hflow, hfp, hneed⟩ := State.grp_sourcesFull (s := u) (g := r.grp) (by simp [hu])
  rw [hug] at hregs hflow hfp hneed
  have hfill := filled_foldl r x (r.governed tok x)
  have hmine (k : Nat) : k ∈ r.governed tok x ↔ mine k := by simp [Result.governed, mine]
  obtain ⟨q, hq⟩ := hfill.rest
  have hsame : (x.returned tok r).flow = x.flow ∧ (x.returned tok r).fp.flags = x.fp.flags ||| r.flags ∧
      (x.returned tok r).sched = x.sched := by rw [Group.returned, hq]; exact ⟨rfl, rfl, rfl⟩
  obtain ⟨hrf, hrp, hrs⟩ := hsame
  have hy : ∀ k, ((u.sourcesFull r.grp).grp r.grp).isFull k = (x.returned tok r).isFull k := fun k => by
    simp only [Group.isFull, hregs]
  refine ⟨hmem, by rw [hsys]; simp [hu, State.setSys, Tab.find?_del], hflow.trans hrf, by rw [hfp]; exact hrp, fun k hk => ?_,
    fun n l => ?_, fun n hn => ?_, fun hne hall => ?_⟩
  · rw [hy, ← decide_eq_decide.mpr (hmine k)]
    exact hfill.full k hk
  · have hv := hfill.vreg n.val n.isLt l
    have hl : ((u.sourcesFull r.grp).grp r.grp).vreg n l = (x.returned tok r).vreg n l := by simp only [Group.vreg, hregs]
    rw [hl]
    refine ⟨fun h => hv.trans ?_, fun v hm hex hall => hv.trans ?_⟩
    · rcases h with h | h
      · exact if_neg ((hmine n).not.mpr h)
      · simp [Result.laneValue_eq_none h]
    · simp [if_pos ((hmine n).mpr hm), Result.laneValue_eq_some hex hall]
  · have hv := hfill.sreg n hn
    have hl : ((u.sourcesFull r.grp).grp r.grp).sreg n = (x.returned tok r).sreg n := by simp only [Group.sreg, hn, if_true, hregs]
    rw [hl]
    refine ⟨fun h => hv.trans ?_, fun v hm hex hall => hv.trans ?_⟩
    · rcases h with h | h
      · exact if_neg ((hmine _).not.mpr h)
      · simp [Result.scalarValue_eq_none h]
    · simp [if_pos ((hmine _).mpr hm), Result.scalarValue_eq_some hex hall]
  · rw [hrs] at hneed
    exact hneed hne fun k hk => (hy k).symm.trans (hall k hk).2

end Sys2Proof.Machine
end

section
namespace Sys2Proof.Machine
open Sys2Proof Sys2Proof.Spec

/-! ### Values by lane -/

theorem tabGet_lanes {α : Type} (z : α) (f : Nat → α) {lanes : List Nat} {l : Nat} (h : l ∈ lanes) :
    Tab.get z l (lanes.map (fun l => (l, f l))) = f l := by
  induction lanes with
  | nil => cases h
  | cons k ks ih =>
    simp only [List.map_cons, Tab.get]
    by_cases hk : k = l
    · simp [hk]
    · rw [if_neg hk]
      exact ih ((List.mem_cons.mp h).resolve_left (Ne.symm hk))

/-- What a write leaves depends on the values of its lanes alone. -/
theorem Wrote.congr {x y : Group} {d : Operand} {lanes : List Nat} {f f' : Nat → Word} (h : Wrote x y d lanes f)
    (hf : ∀ l ∈ lanes, f l = f' l) : Wrote x y d lanes f' := by
  have htop (top : Nat) (ht : lanes.getLast? = some top) : f top = f' top := hf top (List.mem_of_getLast? ht)
  refine ⟨fun n l => ?_, fun n hn => ?_, fun n hn hd top ht l hl => ?_, h.path, fun n hn l hl => ?_, fun n => ?_, h.full, h.pend, h.rest⟩
  · rw [h.vreg]
    by_cases hl : l ∈ lanes <;> simp [hl, hf]
  · rw [h.sreg n hn]
    cases ht : lanes.getLast? with
    | none => rfl
    | some top => simp only [htop top ht]
  · rw [h.mask n hn hd top ht l hl, htop top ht]
  · rw [h.preg n hn l hl]
    by_cases hl : l ∈ lanes <;> simp [hl, hf]
  · rw [h.creg]
    cases ht : lanes.getLast? with
    | none => rfl
    | some top => simp only [htop top ht]

/-! ### Special functions (R32, R150, R151) -/

/-- A subnormal operand under DAZ is the zero of its sign, written with an `if` or with a division. -/
theorem specialOperand_eq (s : State) (x : Group) (f : FnSf) (a : Operand) (l : Nat) :
    (let c := s.fbits x fp32 f.ma a l
     if x.fp.daz && isSubnormal fp32 c then (if 2 ^ 31 ≤ c then 2 ^ 31 else 0) else c) = specialOperand s x f a l := by
  unfold specialOperand
  extract_lets c
  have hc : c < 2 ^ 32 := by
    have h : (s.rd x a l).toNat % 2 ^ 32 < 2 ^ 32 := Nat.mod_lt _ (by decide)
    simp only [c, State.fbits, modBits, fp32]
    split <;> split <;> omega
  split
  · split <;> omega
  · rfl

/-- The state in which a result is on its way under the next token. -/
theorem State.sendResult_spec (s : State) (g : Nat) (regs : List Nat) (vals : List (Nat × Nat × Word)) (fl : FFlags) :
    let t := s.sendResult g regs vals fl
    (∃ q, Tab.find? s.nextId t.sys.results = some q ∧ q.grp = g ∧ q.fp = true ∧ q.flags = fl ∧ q.regs = regs ∧ q.vals = vals) ∧
    t.pending = s.pending ++ [.resultWriteback s.nextId] ∧
    (s.hasGrp g → t.grp g = { s.grp g with regs := regs.foldl (fun r n => r.drain n s.nextId) (s.grp g).regs }) := by
  refine ⟨⟨{ grp := g, regs := regs, vals := vals, flags := fl, fp := true, raw := [], fault := none }, ?_, rfl, rfl, rfl, rfl, rfl⟩, ?_,
    fun hg => ?_⟩
  · simp [State.sendResult, State.post, State.setSys, State.fresh, Tab.find?_put]
  · simp [State.sendResult, State.post, State.setSys, State.fresh]
  · have hg' : ({ s with nextId := s.nextId + 1 } : State).hasGrp g = true := hg
    have h : (State.updGrp { s with nextId := s.nextId + 1 } g
        (fun x => { x with regs := regs.foldl (fun r n => r.drain n s.nextId) x.regs })).grp g = _ :=
      (State.grp_updGrp ..).trans (if_pos ⟨rfl, hg'⟩)
    exact h

theorem resultsFor_vector {n : Fin 128} {lanes : List Nat} {f : Nat → Word} (h : lanes ≠ []) :
    resultsFor (.v n) lanes f = lanes.map (fun l => (n.val, l, f l)) := by
  simp [resultsFor, List.getLast?_eq_some_getLast h]

theorem resultsFor_scalar {n : Fin 64} {lanes : List Nat} {f : Nat → Word} {top : Nat} (h : lanes.getLast? = some top) :
    resultsFor (.s n) lanes f = [(128 + n.val, 0, f top)] := by
  simp [resultsFor, h]

/-- What a special function sends from the lanes in which it executes (R32, R150). -/
def Sends (s t : State) (g : Nat) (d : Operand) (ls : List Nat) (r : Nat → Nat × FFlags) : Prop :=
  ∃ q, Tab.find? s.nextId t.sys.results = some q ∧ q.grp = g ∧ q.fp = true ∧
    (∀ k, q.flags.getLsbD k = ls.any (fun l => (r l).2.getLsbD k)) ∧
    t.pending = s.pending ++ [.resultWriteback s.nextId] ∧
    match d with
    | .v n => q.regs = [n.val] ∧ q.vals = ls.map (fun l => (n.val, l, BitVec.ofNat 64 (r l).1)) ∧
        (s.hasGrp g → t.grp g = { s.grp g with regs := (s.grp g).regs.drain n.val s.nextId })
    | .s n => q.regs = [128 + n.val] ∧
        (∀ top, ls.getLast? = some top → q.vals = [(128 + n.val, 0, BitVec.ofNat 64 (r top).1)]) ∧
        (s.hasGrp g → t.grp g = { s.grp g with regs := (s.grp g).regs.drain (128 + n.val) s.nextId })
    | d => q.regs = [] ∧ Wrote (s.grp g) (t.grp g) d ls (fun l => BitVec.ofNat 64 (r l).1)

/-- The effect of `specialWord` over some lanes. -/
def State.sendSpecial (s : State) (g : Nat) (d : Operand) (ls : List Nat) (r : Nat → Nat × FFlags) : State :=
  let rs := ls.map (fun l => (l, r l))
  let val := fun l => BitVec.ofNat 64 (Tab.get (0, 0) l rs).1
  let fl : FFlags := rs.foldl (fun acc r => acc ||| r.2.2) 0
  if ls.isEmpty then s
  else match regOf d with
    | some n => s.sendResult g [n] (resultsFor d ls val) fl
    | none => (s.setGrp g ((s.grp g).write d ls val)).sendResult g [] [] fl

theorem sends_sendSpecial (s : State) (g : Nat) (d : Operand) {ls : List Nat} (r : Nat → Nat × FFlags) (hne : ls ≠ []) :
    Sends s (s.sendSpecial g d ls r) g d ls r := by
  have hval : ∀ l ∈ ls, BitVec.ofNat 64 (Tab.get (0, 0) l (ls.map (fun l => (l, r l)))).1 = BitVec.ofNat 64 (r l).1 :=
    fun l hl => by rw [tabGet_lanes _ r hl]
  have hflags (k : Nat) : ((ls.map (fun l => (l, r l))).foldl (fun acc r => acc ||| r.2.2) (0 : FFlags)).getLsbD k =
      ls.any (fun l => (r l).2.getLsbD k) := by
    rw [List.foldl_map, getLsbD_foldl_or]; simp
  have hempty : ls.isEmpty = false := by simpa using hne
  unfold State.sendSpecial
  extract_lets rs val fl
  rw [hempty, if_neg Bool.false_ne_true]
  -- a destination without a full/empty bit is written at once
  have direct (hd : regOf d = none) : ∃ q, Tab.find? s.nextId
      ((s.setGrp g ((s.grp g).write d ls val)).sendResult g [] [] fl).sys.results = some q ∧ q.grp = g ∧ q.fp = true ∧
      (∀ k, q.flags.getLsbD k = ls.any (fun l => (r l).2.getLsbD k)) ∧
      ((s.setGrp g ((s.grp g).write d ls val)).sendResult g [] [] fl).pending = s.pending ++ [.resultWriteback s.nextId] ∧
      q.regs = [] ∧ Wrote (s.grp g) (((s.setGrp g ((s.grp g).write d ls val)).sendResult g [] [] fl).grp g) d ls
        (fun l => BitVec.ofNat 64 (r l).1) := by
    obtain ⟨⟨q, hq, hgrp, hfp, hfl, hregs, -⟩, hpend, hgrp'⟩ :=
      State.sendResult_spec (s.setGrp g ((s.grp g).write d ls val)) g [] [] fl
    refine ⟨q, hq, hgrp, hfp, fun k => hfl ▸ hflags k, hpend, hregs, ?_⟩
    rw [hgrp' (by simp), State.grp_setGrp, if_pos rfl]
    exact (Group.wrote_write ..).congr hval
  cases d with
  | v n =>
    obtain ⟨⟨q, hq, hgrp, hfp, hfl, hregs, hvals⟩, hpend, hgrp'⟩ :=
      State.sendResult_spec s g [n.val] (resultsFor (.v n) ls val) fl
    refine ⟨q, hq, hgrp, hfp, fun k => hfl ▸ hflags k, hpend, hregs, ?_, hgrp'⟩
    rw [hvals, resultsFor_vector hne]
    exact List.map_congr_left fun l hl => congrArg (fun v => (n.val, l, v)) (hval l hl)
  | s n =>
    obtain ⟨⟨q, hq, hgrp, hfp, hfl, hregs, hvals⟩, hpend, hgrp'⟩ :=
      State.sendResult_spec s g [128 + n.val] (resultsFor (.s n) ls val) fl
    refine ⟨q, hq, hgrp, hfp, fun k => hfl ▸ hflags k, hpend, hregs, fun top' ht => ?_, hgrp'⟩
    rw [hvals, resultsFor_scalar ht, ← hval top' (List.mem_of_getLast? ht)]
  | c n => exact direct rfl
  | p n => exact direct rfl
  | a n => exact direct rfl
  | spec k => exact direct rfl
  | rsvd n => exact direct rfl
  | zero => exact direct rfl

/-- A special function completes: with no executing lane it does nothing, else it sends what its lanes give. -/
theorem exec_specialWord {i : Instr} {h : Hdr} {f : FnSf} {d a : Operand} {fn : Group → Nat → Val → Nat × FFlags} {s : State} {g : Nat}
    (he : exec i s = specialWord i h f d a s fn) (hb : i.bnd = h.bnd) (hs : s.Stands g i) (hg : s.Guarded g h) :
    let ls := s.lanesFor g h
    let r := fun l => fn (s.grp g) (specialOperand s (s.grp g) f a l) (s.fval (s.grp g) fp32 f.ma a l)
    ∃ t, exec i s = .next (t.retire g h.bnd .on) ∧ (ls = [] → t = s) ∧ (ls ≠ [] → Sends s t g d ls r) := by
  intro ls r
  refine ⟨s.sendSpecial g d ls r, ?_, fun hl => by simp [State.sendSpecial, hl], sends_sendSpecial s g d r⟩
  rw [he, specialWord, dataWord_stands hs hg, hb]
  have hr (l : Nat) : fn (s.grp g) (if (s.grp g).fp.daz && isSubnormal fp32 (s.fbits (s.grp g) fp32 f.ma a l) then
      (if 2 ^ 31 ≤ s.fbits (s.grp g) fp32 f.ma a l then 2 ^ 31 else 0) else s.fbits (s.grp g) fp32 f.ma a l)
      (readF fp32 (s.grp g).fp.daz (s.fbits (s.grp g) fp32 f.ma a l)) = r l := by
    simp only [r, ← specialOperand_eq]; rfl
  simp only [hr, State.sendSpecial]
  cases regOf d <;> cases ls.isEmpty <;> rfl

theorem exec_sfnWord {i : Instr} {h : Hdr} {f : FnSf} {d a : Operand} {fn : SFn} {s : State} {g : Nat}
    (he : exec i s = sfnWord i h f d a fn s) (hb : i.bnd = h.bnd) (hs : s.Stands g i) (hg : s.Guarded g h) :
    let x := s.grp g
    let ls := s.lanesFor g h
    ∃ t, exec i s = .next (t.retire g h.bnd .on) ∧ (ls = [] → t = s) ∧
      (ls ≠ [] → Sends s t g d ls (fun l => specialF fn f.sat x.fp.ftz (specialOperand s x f a l) (s.fval x fp32 f.ma a l))) :=
  exec_specialWord he hb hs hg

/-- Settles O10: the eight words are one shared word with eight functions. -/
theorem specialFunctions : Obligations.SpecialFunctions := by
  intro h f d a s g x ls c v send
  exact ⟨exec_sfnWord (fn := .rcp) rfl rfl, exec_sfnWord (fn := .rsq) rfl rfl,
    exec_specialWord (fn := fun x _ v => sqrtF (x.mode f.rm) f.sat x.fp.ftz v) rfl rfl, exec_sfnWord (fn := .exp2) rfl rfl,
    exec_sfnWord (fn := .log2) rfl rfl, exec_sfnWord (fn := .sin) rfl rfl, exec_sfnWord (fn := .cos) rfl rfl,
    exec_sfnWord (fn := .tanh) rfl rfl⟩

end Sys2Proof.Machine
end

section
namespace Sys2Proof.Machine
open Sys2Proof Sys2Proof.Spec

/-! ### A bound word that is executing settles no record before it ends (R189, R315, R325) -/

/-- A group whose invocation of opcode 0xE0 executes at its first micro-operation, and of which a lane has failed late in a word
before it (R188). -/
def invokingGroup : Group :=
  { Group.empty with
    port := some false
    defs := [{ lane := 3, cause := 0x15, detail := 1, addr := 0, pc := 9, taken := false }]
    flow := { Flow.start 0 with deferred := 8, mask := allLanes &&& ~~~8 }
    q := { QState.idle with active := true, running := true, blen := 1, lanes := allLanes &&& ~~~8 } }

/-- Core 0 with that group on port 0, and a partition of context 0 that holds one micro-operation, `end`. -/
def invoking : State :=
  let s := (State.reset.setGrp 0 invokingGroup).setPort 0 false { slot := some 0, waiting := false, since := 0 }
  s.updCore 0 (fun c => { c with quire := [(0, { ctx := some 0, ops := [(0, 0)], since := 0 })] })

/-- The bound word that the invocation executes. -/
def invokingWord : Instr :=
  .boundOpcode { bnd := false, gn := false, gp := 7, feA := false, feB := false, feC := false, uni := false } 0 (.v 1) (.v 2) .zero .zero 0

/-- TRAP_CAUSE of group 0 after a word. -/
def causeAfter : Host.Outcome State Fault Refusal → Option (BitVec 7)
  | .next s => some (s.grp 0).trap.cause
  | _ => none

theorem invoking_ready : invokingWord.form ≠ none ∧ invokingWord.settlesBefore = true ∧ invoking.issuer = some 0 ∧
    (invoking.grp 0).dueDefs ≠ [] := by decide +kernel

/-- The micro-operation is made, and no trap is taken. -/
theorem causeAfter_invoking : causeAfter (exec invokingWord invoking) = some 0 := by decide +kernel

theorem causeAfter_settle : causeAfter (.next (invoking.settle 0)) = some 0x15 := by decide +kernel

/-- Refutes O54: the second clause asks that deferred records settle before every word of R189, but a bound word whose invocation
executes makes its next micro-operation. -/
theorem not_checksBeforeEffects : ¬ Obligations.ChecksBeforeEffects := by
  rintro ⟨-, hsettle, -⟩
  obtain ⟨hform, hbefore, hissuer, hdue⟩ := invoking_ready
  have h := congrArg causeAfter (hsettle invokingWord invoking 0 hform hbefore hissuer hdue)
  rw [causeAfter_invoking, causeAfter_settle] at h
  exact absurd h (by decide)

end Sys2Proof.Machine
end

section
namespace Sys2Proof.Machine
open Sys2Proof Sys2Proof.Spec

/-! ### The queue of a team's matrix words (R160, R185) -/

theorem State.updTeam_eq_setTeam {s : State} {k : Nat} {f : Team → Team} (h : (Tab.find? k s.teams).isSome = true) :
    s.updTeam k f = s.setTeam k (f (s.team k)) := by
  obtain ⟨x, hx⟩ := Option.isSome_iff_exists.mp h
  have hxt : s.team k = x := by simp [State.team, Tab.get_eq_find?, hx]
  simp only [State.updTeam, hx, hxt]

theorem State.later_mem (s : State) (e : Instr) : (s.later e).mem = s.mem := by
  unfold State.later
  split <;> rfl

theorem State.team_later (s : State) (e : Instr) (k : Nat) : (s.later e).team k = s.team k := by
  unfold State.later
  split <;> rfl

/-- A new word stands behind every word but those that go before it (R160, R185). -/
theorem mxPlaced_mxInsert (s : State) (g id : Nat) (op : MxOp) (run : MiterRun) (old : List MxEntry) :
    mxPlaced s old (mxInsert (mxWordOf s g id op run) old) (mxWordOf s g id op run) := by
  induction old with
  | nil => exact ⟨[], [], rfl, rfl, by simp, by simp⟩
  | cons k t ih =>
    obtain ⟨l, r, hold, hnew, hl, hr⟩ := ih
    unfold mxInsert
    split
    · next hb => exact ⟨[], k :: t, rfl, rfl, by simp, by rintro _ ⟨⟩; exact hb⟩
    · next hb =>
      refine ⟨k :: l, r, by rw [hold]; rfl, by rw [hnew]; rfl, ?_, hr⟩
      rintro e (_ | ⟨_, he⟩)
      · exact hb
      · exact hl e he

section
variable {s : State} {g : Nat} {memory : Bool} {op : MxOp} {run : MiterRun} {f : Group → Group}

/-- A full queue, or a fence on MX before a word that reads or writes memory, holds a word back. -/
theorem State.mxIssue_wait (h : 8 ≤ (s.team (s.grp g).team).mx.length ∨ (memory = true ∧ (s.grp g).fenced .mx = true)) :
    s.mxIssue g (s.grp g) memory op run f = (s, .wait) :=
  if_pos (by simpa using h)

/-- The state in which a word that is not held back stands in the queue. -/
def State.mxStanding (s : State) (g : Nat) (op : MxOp) (run : MiterRun) (f : Group → Group) : State :=
  let x := s.grp g
  let tm := s.team x.team
  ((({ s with nextId := s.nextId + 1 } : State).setTeam x.team { tm with mx := mxInsert (mxWordOf s g s.nextId op run) tm.mx }).setGrp g
    (f { x with mem := { x.mem with seq := x.mem.seq + 1 } })).later (.matrixWordExecute x.core x.team)

theorem State.mxIssue_on (hg : s.hasGrp g = true) (ht : (Tab.find? (s.grp g).team s.teams).isSome = true)
    (h : ¬ (8 ≤ (s.team (s.grp g).team).mx.length ∨ (memory = true ∧ (s.grp g).fenced .mx = true))) :
    s.mxIssue g (s.grp g) memory op run f = (s.mxStanding g op run f, .on) := by
  have hn : (decide (8 ≤ (s.team (s.grp g).team).mx.length) || (memory && (s.grp g).fenced .mx)) = false := by
    rw [Bool.eq_false_iff]; simpa using h
  have ht' (fm : Team → Team) : ({ s with nextId := s.nextId + 1 } : State).updTeam (s.grp g).team fm = _ :=
    State.updTeam_eq_setTeam ht
  have hg' (tm : Team) (fg : Group → Group) :
      (({ s with nextId := s.nextId + 1 } : State).setTeam (s.grp g).team tm).updGrp g fg = _ := State.updGrp_eq_setGrp hg
  rw [State.mxIssue, hn, if_neg Bool.false_ne_true]
  simp only [State.fresh]
  rw [ht', hg']
  rfl

theorem State.mxStanding_spec : (s.mxStanding g op run f).mem = s.mem ∧
    (s.mxStanding g op run f).grp g = f { s.grp g with mem := { (s.grp g).mem with seq := (s.grp g).mem.seq + 1 } } ∧
    (s.mxStanding g op run f).team (s.grp g).team = { s.team (s.grp g).team with
      mx := mxInsert (mxWordOf s g s.nextId op run) (s.team (s.grp g).team).mx } := by
  unfold State.mxStanding
  extract_lets x tm
  exact ⟨State.later_mem .., by rw [State.grp_later, State.grp_setGrp, if_pos rfl],
    (State.team_later ..).trans ((State.team_setTeam ..).trans (if_pos rfl))⟩

theorem mxQueued_mxStanding {y : Group} (hf : ∀ m, f { s.grp g with mem := m } = { y with mem := m }) (hy : y.mem = (s.grp g).mem) :
    mxQueued s (s.mxStanding g op run f) g op run y := by
  obtain ⟨hmem, hgrp, hteam⟩ := State.mxStanding_spec (s := s) (g := g) (op := op) (run := run) (f := f)
  exact ⟨by rw [hgrp, hf, hy], hmem, _, mxPlaced_mxInsert s g s.nextId op run _, hteam⟩

end

/-! ### A matrix word at issue (R41, R163, R164) -/

theorem notUniform_eq_none {x : Group} {l : List (Nat × Operand)} (h : ∀ o ∈ l.map Prod.snd, uniform x o) :
    x.notUniform l = none := by
  rw [Group.notUniform, Option.map_eq_none_iff, List.find?_eq_none]
  intro u hu
  have ho := h u.2 (List.mem_map_of_mem hu)
  split
  · next n hn => simpa using fun k hk => ho n hn k hk
  · exact Bool.false_ne_true

/-- What a matrix word comes to: its state, and how its run goes on. -/
def mxAnswers (s : State) (g : Nat) (i : Instr) (h : Hdr) (p : State × Ends) : Prop := exec i s = .next (p.1.retire g h.bnd p.2)

section
variable {i : Instr} {h : Hdr} {uni : List (Nat × Operand)} {s : State} {g : Nat} {body : State → Nat → Group → State × Ends}

/-- A matrix word that goes on to its own part. -/
theorem exec_mxWord (he : exec i s = mxWord i h uni s body) (hb : i.bnd = h.bnd) (hm : MxGoes s g i h (uni.map Prod.snd)) :
    mxAnswers s g i h (body s g (s.grp g)) := by
  rw [mxAnswers, he, mxWord, word_stands hm.stands, hb]
  simp only [hm.all, hm.guard, notUniform_eq_none hm.uni, withPolicy, hm.stands.sources, ne_eq, not_true_eq_false, if_false]

theorem exec_mxWord_traps (he : exec i s = mxWord i h uni s body) (hb : i.bnd = h.bnd) (hs : s.Stands g i) :
    ((s.grp g).flow.mask ≠ allLanes → trapsBefore s g i 0x03 0 0) ∧
    ((s.grp g).flow.mask = allLanes → (s.grp g).uniGuard h = .differ → trapsBefore s g i 0x04 1 0) ∧
    ((s.grp g).flow.mask = allLanes → (s.grp g).uniGuard h = .skip → exec i s = .next (s.retire g h.bnd .on)) := by
  rw [mxWord, word_stands hs, hb] at he
  refine ⟨fun hm => ?_, fun hm hg => ?_, fun hm hg => ?_⟩
  · simp only [if_pos hm] at he; exact he
  · simp only [hm, ne_eq, not_true_eq_false, if_false, hg] at he; exact he
  · simp only [hm, ne_eq, not_true_eq_false, if_false, hg] at he; exact he

end

section
variable {s : State} {g : Nat} {i : Instr} {h : Hdr} {l : List Operand} {memory : Bool} {op : MxOp} {run : MiterRun} {f : Group → Group}

/-- A matrix word that is queued: it waits where it is held back, and else stands in the queue. -/
theorem exec_mxIssue {y : Group} (hm : MxGoes s g i h l)
    (he : mxAnswers s g i h (s.mxIssue g (s.grp g) memory op run f))
    (hf : ∀ m, f { s.grp g with mem := m } = { y with mem := m }) (hy : y.mem = (s.grp g).mem) :
    let held := 8 ≤ (s.team (s.grp g).team).mx.length ∨ (memory = true ∧ (s.grp g).fenced .mx = true)
    (held → exec i s = .next (s.retire g h.bnd .wait)) ∧
    (¬ held → ∃ t : State, exec i s = .next (t.retire g h.bnd .on) ∧ mxQueued s t g op run y) := by
  refine ⟨fun hh => ?_, fun hh => ?_⟩
  · rw [State.mxIssue_wait hh] at he; exact he
  · rw [State.mxIssue_on hm.here hm.team hh] at he
    exact ⟨_, he, mxQueued_mxStanding hf hy⟩

/-- The same for a word that changes nothing of its group. -/
theorem exec_mxQueue (hm : MxGoes s g i h l) (he : mxAnswers s g i h (s.mxQueue g (s.grp g) memory op)) :
    let held := 8 ≤ (s.team (s.grp g).team).mx.length ∨ (memory = true ∧ (s.grp g).fenced .mx = true)
    (held → exec i s = .next (s.retire g h.bnd .wait)) ∧
    (¬ held → ∃ t : State, exec i s = .next (t.retire g h.bnd .on) ∧ mxQueued s t g op .none (s.grp g)) :=
  exec_mxIssue hm he (fun _ => rfl) rfl

/-- A word that does not touch memory waits at a full queue alone. -/
theorem exec_mxQueue_tiles (hm : MxGoes s g i h l) (he : mxAnswers s g i h (s.mxQueue g (s.grp g) false op)) :
    (8 ≤ (s.team (s.grp g).team).mx.length → exec i s = .next (s.retire g h.bnd .wait)) ∧
    (¬ 8 ≤ (s.team (s.grp g).team).mx.length →
      ∃ t : State, exec i s = .next (t.retire g h.bnd .on) ∧ mxQueued s t g op .none (s.grp g)) := by
  obtain ⟨hw, hq⟩ := exec_mxQueue hm he
  exact ⟨fun hh => hw (.inl hh), fun hh => hq (by simpa using hh)⟩

/-- A word that reads or writes memory waits behind a fence on MX too. -/
theorem exec_mxQueue_memory (hm : MxGoes s g i h l) (he : mxAnswers s g i h (s.mxQueue g (s.grp g) true op)) :
    let held := 8 ≤ (s.team (s.grp g).team).mx.length ∨ (s.grp g).fenced .mx = true
    (held → exec i s = .next (s.retire g h.bnd .wait)) ∧
    (¬ held → ∃ t : State, exec i s = .next (t.retire g h.bnd .on) ∧ mxQueued s t g op .none (s.grp g)) := by
  simpa using exec_mxQueue hm he

end

section
variable {h : Hdr} {lsrc : Bool} {fm : FnMma} {fa : FnAcvt} {fp : FnMpoly} {fi : FnMiter} {fd : FnMdrain} {cnt : Fin 32}
  {n16 first : Fin 16} {d a b c : Operand} {s : State} {g : Nat}

theorem exec_wbload : exec (.wbload h lsrc a b c) s = execWbload h lsrc a b c s := rfl
theorem exec_mma : exec (.mma h fm d a b c) s = execMma h fm d a b c s := rfl
theorem exec_aclr : exec (.aclr h n16 d) s = execAclr h n16 d s := rfl
theorem exec_acvt : exec (.acvt h fa d) s = execAcvt h fa d s := rfl
theorem exec_amovToVector : exec (.amovToVector h cnt d a c) s = execAmovToVector h cnt d a c s := rfl
theorem exec_amovToTile : exec (.amovToTile h cnt d a c) s = execAmovToTile h cnt d a c s := rfl
theorem exec_mpoly : exec (.mpoly h fp d b) s = execMpoly h fp d b s := rfl
theorem exec_miter : exec (.miter h fi d a b) s = execMiter h fi d a b s := rfl
theorem exec_mdrain : exec (.mdrain h fd d a b c) s = execMdrain h fd d a b c s := rfl
theorem exec_coefl : exec (.coefl h first n16 a) s = execCoefl h first n16 a s := rfl

theorem wbload_issues (hm : MxGoes s g (.wbload h lsrc a b c) h [a, b]) :
    let x := s.grp g
    let tm := s.team x.team
    let i : Instr := .wbload h lsrc a b c
    let va := s.rd x a 0
    let off := (s.rd x b 0).toNat
    let n := (s.rd x c 0).toNat
    let held := 8 ≤ tm.mx.length ∨ x.fenced .mx = true
    let bad := n = 0 ∨ n % 64 ≠ 0 ∨ off % 64 ≠ 0 ∨ tm.windowSize < off + n ∨
      (lsrc = true ∧ (va.toNat % 64 ≠ 0 ∨ tm.share < va.toNat + n))
    (bad → mxTraps s g i 0x21 4 0) ∧ (¬ bad → lsrc = false → va.toNat % 64 ≠ 0 → mxTraps s g i 0x15 1 va) ∧
      (¬ bad → va.toNat % 64 = 0 → held → exec i s = .next (s.retire g h.bnd .wait)) ∧
      (¬ bad → va.toNat % 64 = 0 → ¬ held →
        ∃ t : State, exec i s = .next (t.retire g h.bnd .on) ∧ mxQueued s t g (.wbload lsrc va off n) .none x) := by
  intro x tm i va off n held bad
  have he := exec_mxWord (uni := [(0, a), (1, b)]) exec_wbload rfl hm
  by_cases hb : bad
  · rw [if_pos hb] at he
    exact ⟨fun _ => he, fun h => absurd hb h, fun h => absurd hb h, fun h => absurd hb h⟩
  · rw [if_neg hb] at he
    refine ⟨fun h => absurd h hb, fun _ hl (ha : (s.rd (s.grp g) a 0).toNat % 64 ≠ 0) => ?_, ?_⟩
    · rw [if_pos (by simp [hl, ha])] at he; exact he
    · refine imp_and.mp fun _ => imp_and.mp fun (ha : (s.rd (s.grp g) a 0).toNat % 64 = 0) => ?_
      rw [if_neg (by simp [ha])] at he
      exact exec_mxQueue_memory hm he

theorem mma_issues (hm : MxGoes s g (.mma h fm d a b c) h [a, b]) :
    let x := s.grp g
    let tm := s.team x.team
    let i : Instr := .mma h fm d a b c
    let m := shape fm.ms.val
    let n := shape fm.ns.val
    let p := x.pair c
    let dt := (tileOf d).getD 0
    let ao := (s.rd x a 0).toNat
    let bo := (s.rd x b 0).toNat
    let ck := tm.mmaCheck m n dt (tileOf a) ao (tileOf b) bo p.1 p.2
    let full := 8 ≤ tm.mx.length
    let fenced := (tileOf a).isNone = true ∧ x.fenced .mx = true
    (∀ r, ck = some r → mxTraps s g i 0x21 r 0) ∧
      (ck = none → full ∨ fenced → exec i s = .next (s.retire g h.bnd .wait)) ∧
      (ck = none → ¬ full → ¬ fenced → ∃ t : State, exec i s = .next (t.retire g h.bnd .on) ∧
        mxQueued s t g (.mma m n fm.clr dt (tileOf a) ao (tileOf b) bo p.1 p.2) .none x) := by
  intro x tm i m n p dt ao bo ck full fenced
  have he : mxAnswers s g i h (match ck with
    | some r => s.mxOperand g r
    | none => s.mxQueue g x (tileOf a).isNone (.mma m n fm.clr dt (tileOf a) ao (tileOf b) bo p.1 p.2)) :=
    exec_mxWord (uni := [(0, a), (1, b)]) exec_mma rfl hm
  refine ⟨fun r hr => ?_, imp_and.mp fun hr => ?_⟩
  · rw [hr] at he; exact he
  · rw [hr] at he
    obtain ⟨hw, hq⟩ := exec_mxQueue hm he
    exact ⟨hw, fun hf hl => hq (not_or.mpr ⟨hf, hl⟩)⟩

theorem aclr_issues (hm : MxGoes s g (.aclr h n16 d) h []) :
    let x := s.grp g
    let i : Instr := .aclr h n16 d
    let full := 8 ≤ (s.team x.team).mx.length
    (full → exec i s = .next (s.retire g h.bnd .wait)) ∧
      (¬ full → ∃ t : State, exec i s = .next (t.retire g h.bnd .on) ∧
        mxQueued s t g (.aclr ((tileOf d).getD 0) (n16.val + 1)) .none x) :=
  exec_mxQueue_tiles hm (exec_mxWord (uni := []) exec_aclr rfl hm)

theorem acvt_issues (hm : MxGoes s g (.acvt h fa d) h []) :
    let x := s.grp g
    let i : Instr := .acvt h fa d
    let full := 8 ≤ (s.team x.team).mx.length
    (full → exec i s = .next (s.retire g h.bnd .wait)) ∧
      (¬ full → ∃ t : State, exec i s = .next (t.retire g h.bnd .on) ∧
        mxQueued s t g (.acvt ((tileOf d).getD 0) (fa.cnt.val + 1) fa.tf16 fa.rm fa.sat fa.srci) .none x) :=
  exec_mxQueue_tiles hm (exec_mxWord (uni := []) exec_acvt rfl hm)

/-- The group once registers `r` to `r + n - 1` are empty, governed by producer `tok` (R32, R174). -/
def Group.drained (y : Group) (r n tok : Nat) : Group :=
  { y with regs := ((List.range n).map (fun j => r + j)).foldl (fun q k => q.drain k tok) y.regs }

theorem Group.drained_spec (y : Group) (r tok n k : Nat) (hk : k < 192) :
    (y.drained r n tok).isFull k = (y.isFull k && !decide (r ≤ k ∧ k < r + n)) ∧
      Tab.find? k (y.drained r n tok).regs.pend = if r ≤ k ∧ k < r + n then some tok else Tab.find? k y.regs.pend := by
  rw [Group.isFull, Group.drained, List.foldl_map]
  refine foldl_range_induction (fun n (q : Regs) => q.full.getLsbD k = (y.isFull k && !decide (r ≤ k ∧ k < r + n)) ∧
      Tab.find? k q.pend = if r ≤ k ∧ k < r + n then some tok else Tab.find? k y.regs.pend)
    ⟨by simp [Group.isFull, show ¬ (r ≤ k ∧ k < r) by omega], by simp [show ¬ (r ≤ k ∧ k < r) by omega]⟩ ?_ n
  rintro n q ⟨hfull, hpend⟩
  have hone : (1#192 <<< (r + n)).getLsbD k = decide (k = r + n) := by
    rw [BitVec.getLsbD_shiftLeft, BitVec.getLsbD_one]
    grind
  have hstep : (r ≤ k ∧ k < r + (n + 1)) ↔ k = r + n ∨ (r ≤ k ∧ k < r + n) := by omega
  constructor
  · simp only [Regs.drain, BitVec.getLsbD_and, BitVec.getLsbD_not, hone, hfull, hstep, hk]
    by_cases hkn : k = r + n <;> simp [hkn]
  · simp only [Regs.drain, Tab.find?_put, hpend, hstep]
    by_cases hkn : k = r + n <;> simp [hkn]

theorem amovToVector_issues (hm : MxGoes s g (.amovToVector h cnt d a c) h []) :
    let x := s.grp g
    let tm := s.team x.team
    let i : Instr := .amovToVector h cnt d a c
    let e0 := (s.rd x c 0).toNat
    let bad := e0 % 32 ≠ 0 ∨ 4096 ≤ e0
    let full := 8 ≤ tm.mx.length
    (bad → mxTraps s g i 0x21 8 0) ∧
      (¬ bad → full → ∃ t : State, exec i s = .next (t.retire g h.bnd .wait) ∧ t.groups = s.groups ∧ t.teams = s.teams) ∧
      (∀ r : Fin 128, ¬ bad → ¬ full → d = .v r → r.val + cnt.val < 128 → ∃ (t : State) (tok : Nat), exec i s = .next (t.retire g h.bnd .on) ∧
        t.mem = s.mem ∧ mxPlaced s tm.mx (t.team x.team).mx (mxWordOf s g (s.nextId + 1)
          (.toVec ((tileOf a).getD 0) e0 ((List.range (cnt.val + 1)).map (fun k => r.val + k)) tok) .none) ∧
        (∀ k < 192, (t.grp g).isFull k = (x.isFull k && !decide (r.val ≤ k ∧ k ≤ r.val + cnt.val))) ∧
        (∀ k < 192, Tab.find? k (t.grp g).regs.pend = if r.val ≤ k ∧ k ≤ r.val + cnt.val then some tok else Tab.find? k x.regs.pend)) := by
  intro x tm i e0 bad full
  have he := exec_mxWord (uni := []) exec_amovToVector rfl hm
  by_cases hb : bad
  · rw [if_pos hb] at he
    exact ⟨fun _ => he, fun h => absurd hb h, fun _ h => absurd hb h⟩
  · rw [if_neg hb] at he
    refine ⟨fun h => absurd h hb, fun _ hf => ⟨s.fresh.2, ?_, rfl, rfl⟩, ?_⟩
    · have he' : mxAnswers s g i h (s.fresh.2.mxIssue g (s.fresh.2.grp g) false _ .none _) := he
      rw [State.mxIssue_wait (s := s.fresh.2) (.inl hf)] at he'
      exact he'
    · rintro r - hf rfl -
      have he' : mxAnswers s g i h (s.fresh.2.mxIssue g (s.fresh.2.grp g) false
        (.toVec ((tileOf a).getD 0) e0 ((List.range (cnt.val + 1)).map (fun k => r.val + k)) s.nextId) .none
        (fun y => y.drained r.val (cnt.val + 1) s.nextId)) := he
      rw [State.mxIssue_on (s := s.fresh.2) hm.here hm.team (fun hh => hh.elim hf (fun e => absurd e.1 Bool.false_ne_true))] at he'
      obtain ⟨hmem, hgrp, hteam⟩ := State.mxStanding_spec (s := s.fresh.2) (g := g) (run := .none)
        (op := .toVec ((tileOf a).getD 0) e0 ((List.range (cnt.val + 1)).map (fun k => r.val + k)) s.nextId)
        (f := fun y => y.drained r.val (cnt.val + 1) s.nextId)
      refine ⟨_, s.nextId, he', hmem, ?_, fun k hk => ?_, fun k hk => ?_⟩
      · exact (congrArg Team.mx hteam).symm ▸ mxPlaced_mxInsert s.fresh.2 g _ _ _ _
      · rw [hgrp, (Group.drained_spec _ _ _ _ k hk).1]
        simp only [← Nat.add_assoc, Nat.lt_succ_iff]
        rfl
      · rw [hgrp, (Group.drained_spec _ _ _ _ k hk).2]
        simp only [← Nat.add_assoc, Nat.lt_succ_iff]
        rfl

theorem amovToTile_issues (hm : MxGoes s g (.amovToTile h cnt d a c) h []) :
    let x := s.grp g
    let i : Instr := .amovToTile h cnt d a c
    let e0 := (s.rd x c 0).toNat
    let bad := e0 % 32 ≠ 0 ∨ 4096 ≤ e0
    let full := 8 ≤ (s.team x.team).mx.length
    (bad → mxTraps s g i 0x21 8 0) ∧ (¬ bad → full → exec i s = .next (s.retire g h.bnd .wait)) ∧
      (∀ r : Fin 128, ¬ bad → ¬ full → a = .v r → ∃ t : State, exec i s = .next (t.retire g h.bnd .on) ∧
        mxQueued s t g (.toTile ((tileOf d).getD 0) e0
          ((List.range (cnt.val + 1)).flatMap (fun q => (List.range 96).map (fun l => (96 * q + l, x.vreg (r.val + q) l)))) (cnt.val + 1))
          .none x) := by
  intro x i e0 bad full
  have he := exec_mxWord (uni := []) exec_amovToTile rfl hm
  by_cases hb : bad
  · rw [if_pos hb] at he
    exact ⟨fun _ => he, fun h => absurd hb h, fun _ h => absurd hb h⟩
  · rw [if_neg hb] at he
    obtain ⟨hw, hq⟩ := exec_mxQueue_tiles hm he
    refine ⟨fun h => absurd h hb, fun _ => hw, fun r _ hf ha => ?_⟩
    subst ha
    exact hq hf

theorem mpoly_issues (hm : MxGoes s g (.mpoly h fp d b) h [b]) :
    let x := s.grp g
    let tm := s.team x.team
    let i : Instr := .mpoly h fp d b
    let m := shape fp.sz.val
    let off := (s.rd x b 0).toNat
    let bad := off % 64 ≠ 0 ∨ tm.windowSize < off + 4 * m * m
    let full := 8 ≤ tm.mx.length
    (bad → mxTraps s g i 0x21 4 0) ∧ (¬ bad → full → exec i s = .next (s.retire g h.bnd .wait)) ∧
      (¬ bad → ¬ full → ∃ t : State, exec i s = .next (t.retire g h.bnd .on) ∧
        mxQueued s t g (.mpoly m ((tileOf d).getD 0) off fp.deg.val fp.f16 (x.coefs (fp.deg.val + 1))) .none x) := by
  intro x tm i m off bad full
  have he := exec_mxWord (uni := [(1, b)]) exec_mpoly rfl hm
  by_cases hb : bad
  · rw [if_pos hb] at he
    exact ⟨fun _ => he, fun h => absurd hb h, fun h => absurd hb h⟩
  · rw [if_neg hb] at he
    exact ⟨fun h => absurd h hb, imp_and.mp fun _ => exec_mxQueue_tiles hm he⟩

theorem miter_issues (hm : MxGoes s g (.miter h fi d a b) h [b]) :
    let x := s.grp g
    let tm := s.team x.team
    let i : Instr := .miter h fi d a b
    let m := if fi.m128 then 128 else 64
    let off := (s.rd x b 0).toNat
    let bad := off % 64 ≠ 0 ∨ tm.windowSize < off + (if fi.ns5 then 6 else 4) * m * m
    let full := 8 ≤ tm.mx.length
    (bad → mxTraps s g i 0x21 4 0) ∧ (¬ bad → full → exec i s = .next (s.retire g h.bnd .wait)) ∧
      (¬ bad → ¬ full → ∃ t : State, exec i s = .next (t.retire g h.bnd .on) ∧
        mxQueued s t g (.miter m ((tileOf d).getD 0) ((tileOf a).getD 0) off fi.ns5 fi.f16 (x.coefs (if fi.ns5 then 3 else 2))
          x.fp.miterCap.toNat x.fp.miterTol.toNat) x.fp.miterStart { x with fp := x.fp.miterIssue }) := by
  intro x tm i m off bad full
  have he := exec_mxWord (uni := [(1, b)]) exec_miter rfl hm
  by_cases hb : bad
  · rw [if_pos hb] at he
    exact ⟨fun _ => he, fun h => absurd hb h, fun h => absurd hb h⟩
  · rw [if_neg hb] at he
    obtain ⟨hw, hq⟩ := exec_mxIssue (y := { x with fp := x.fp.miterIssue }) hm he (fun _ => rfl) rfl
    exact ⟨fun h => absurd h hb, fun _ hf => hw (.inl hf), fun _ hf => hq (fun hh => hf (by simpa using hh))⟩

theorem mdrain_issues (hm : MxGoes s g (.mdrain h fd d a b c) h [a, b]) :
    let x := s.grp g
    let tm := s.team x.team
    let i : Instr := .mdrain h fd d a b c
    let m := shape fd.ms.val
    let n := shape fd.ns.val
    let p := x.pair c
    let va := s.rd x a 0
    let bv : Option Word := if b = .zero then none else some (s.rd x b 0)
    let ck := tm.drainCheck m n (drainMain fd.loc fd.rm va p.1 p.2) (bv.map (fun v => drainTrans fd.tloc v p.1 p.2)) p.1
    let low := fd.loc = false ∧ va.toNat % 16 ≠ 0
    let high := fd.tloc = false ∧ (bv.getD 0).toNat % 16 ≠ 0
    let held := 8 ≤ tm.mx.length ∨ x.fenced .mx = true
    (∀ r, ck = some r → mxTraps s g i 0x21 r 0) ∧ (ck = none → low → mxTraps s g i 0x15 1 va) ∧
      (ck = none → ¬ low → high → mxTraps s g i 0x15 1 (bv.getD 0)) ∧
      (ck = none → ¬ low → ¬ high → held → exec i s = .next (s.retire g h.bnd .wait)) ∧
      (ck = none → ¬ low → ¬ high → ¬ held → ∃ t : State, exec i s = .next (t.retire g h.bnd .on) ∧
        mxQueued s t g (.mdrain m n ((tileOf d).getD 0) fd.loc fd.tloc fd.rm fd.sat fd.srci va bv p.1 p.2) .none x) := by
  intro x tm i m n p va bv ck low high held
  have he : mxAnswers s g i h (match ck with
    | some r => s.mxOperand g r
    | none =>
      if !fd.loc && decide (va.toNat % 16 ≠ 0) then s.mxAlign g 1 va
      else if !fd.tloc && decide ((bv.getD 0).toNat % 16 ≠ 0) then s.mxAlign g 1 (bv.getD 0)
      else s.mxQueue g x true (.mdrain m n ((tileOf d).getD 0) fd.loc fd.tloc fd.rm fd.sat fd.srci va bv p.1 p.2)) :=
    exec_mxWord (uni := [(0, a), (1, b)]) exec_mdrain rfl hm
  have hlow_iff : (!fd.loc && decide (va.toNat % 16 ≠ 0)) = true ↔ low := by simp [low]
  have hhigh_iff : (!fd.tloc && decide ((bv.getD 0).toNat % 16 ≠ 0)) = true ↔ high := by simp [high]
  simp only [hlow_iff, hhigh_iff] at he
  have hqueue (hr : ck = none) (hlow : ¬ low) (hhigh : ¬ high) : mxAnswers s g i h (s.mxQueue g x true
      (.mdrain m n ((tileOf d).getD 0) fd.loc fd.tloc fd.rm fd.sat fd.srci va bv p.1 p.2)) := by
    simpa only [hr, if_neg hlow, if_neg hhigh] using he
  refine ⟨fun r hr => ?_, fun hr hlow => ?_, fun hr hlow hhigh => ?_, fun hr hlow hhigh => (exec_mxQueue_memory hm (hqueue hr hlow hhigh)).1,
    fun hr hlow hhigh => (exec_mxQueue_memory hm (hqueue hr hlow hhigh)).2⟩
  · simp only [hr] at he; exact he
  · simp only [hr, if_pos hlow] at he; exact he
  · simp only [hr, if_neg hlow, if_pos hhigh] at he; exact he

/-! ### `coefl` (R175) -/

theorem Group.creg_setC (x : Group) (k n : Nat) (v : Lane32) : (x.setC n v).creg k = if k = n then v else x.creg k := by
  rw [Group.creg, Group.setC, Tab.get_set]
  rfl

/-- The group once `n` coefficient registers, from register `first` on, are loaded. -/
def Group.coefLoaded (x : Group) (first n : Nat) (f : Nat → Lane32) : Group :=
  (List.range n).foldl (fun y k => y.setC (first + k) (f k)) x

theorem Group.coefLoaded_spec (x : Group) (first n : Nat) (f : Nat → Lane32) :
    { x.coefLoaded first n f with regs := x.regs } = x ∧ { (x.coefLoaded first n f).regs with c := x.regs.c } = x.regs ∧
      ∀ k, (x.coefLoaded first n f).creg k = if first ≤ k ∧ k < first + n then f (k - first) else x.creg k := by
  refine foldl_range_induction (fun n (y : Group) => { y with regs := x.regs } = x ∧ { y.regs with c := x.regs.c } = x.regs ∧
    ∀ k, y.creg k = if first ≤ k ∧ k < first + n then f (k - first) else x.creg k)
    ⟨rfl, rfl, fun k => by rw [if_neg (by omega)]⟩ ?_ n
  rintro n y ⟨hx, hr, hc⟩
  refine ⟨hx, hr, fun k => ?_⟩
  rw [Group.creg_setC, hc]
  grind

theorem coefl_issues (hm : MxGoes s g (.coefl h first n16 a) h []) :
    let x := s.grp g
    let tm := s.team x.team
    let i : Instr := .coefl h first n16 a
    let va := s.rd x a 0
    let n := n16.val + 1
    let out := tm.share < va.toNat + 4 * n
    (out → mxTraps s g i 0x21 4 0) ∧ (¬ out → va.toNat % 4 ≠ 0 → mxTraps s g i 0x15 2 va) ∧
      (¬ out → va.toNat % 4 = 0 → s.lsWaits g x = true → exec i s = .next (s.retire g h.bnd .wait)) ∧
      (¬ out → va.toNat % 4 = 0 → s.lsWaits g x = false →
        exec i s = .next ((s.setGrp g
          (x.coefLoaded first.val n (fun k => BitVec.ofNat 32 (tm.locLoad (va.toNat + 4 * k) 4)))).retire g h.bnd .on)) := by
  intro x tm i va n out
  have he : mxAnswers s g i h (if out then s.mxOperand g 4 else if va.toNat % 4 ≠ 0 then s.mxAlign g 2 va
      else if s.lsWaits g x then (s, .wait)
      else (s.updGrp g (fun y => y.coefLoaded first.val n (fun k => BitVec.ofNat 32 (tm.locLoad (va.toNat + 4 * k) 4))), .on)) :=
    exec_mxWord (uni := []) exec_coefl rfl hm
  refine ⟨fun ho => ?_, fun ho ha => ?_, fun ho ha hw => ?_, fun ho ha hw => ?_⟩
  · rw [if_pos ho] at he; exact he
  · rw [if_neg ho, if_pos ha] at he; exact he
  · rw [if_neg ho, if_neg (not_not.mpr ha), if_pos hw] at he; exact he
  · rw [if_neg ho, if_neg (not_not.mpr ha), if_neg (by simp [hw]), State.updGrp_eq_setGrp hm.here] at he
    exact he

theorem exists_mxWord {i : Instr} (hi : i ∈ [Instr.wbload h lsrc a b c, .mma h fm d a b c, .aclr h n16 d, .acvt h fa d,
    .amovToVector h cnt d a c, .amovToTile h cnt d a c, .mpoly h fp d b, .miter h fi d a b, .mdrain h fd d a b c,
    .coefl h first n16 a]) : i.bnd = h.bnd ∧ ∃ uni body, exec i s = mxWord i h uni s body := by
  simp only [List.mem_cons, List.not_mem_nil, or_false] at hi
  rcases hi with rfl | rfl | rfl | rfl | rfl | rfl | rfl | rfl | rfl | rfl
  · exact ⟨rfl, _, _, exec_wbload⟩
  · exact ⟨rfl, _, _, exec_mma⟩
  · exact ⟨rfl, _, _, exec_aclr⟩
  · exact ⟨rfl, _, _, exec_acvt⟩
  · exact ⟨rfl, _, _, exec_amovToVector⟩
  · exact ⟨rfl, _, _, exec_amovToTile⟩
  · exact ⟨rfl, _, _, exec_mpoly⟩
  · exact ⟨rfl, _, _, exec_miter⟩
  · exact ⟨rfl, _, _, exec_mdrain⟩
  · exact ⟨rfl, _, _, exec_coefl⟩

end

/-- Settles O34: each matrix word's own part, at the queue or before it. -/
theorem matrixWordsIssue : Obligations.MatrixWordsIssue := by
  intro h lsrc fm fa fp fi fd cnt n16 first d a b c s g x tm share window full held va vb vc tile pair waits queues
  refine ⟨wbload_issues, mma_issues, aclr_issues, acvt_issues, amovToVector_issues, amovToTile_issues, mpoly_issues, miter_issues,
    ?_, ?_, ?_⟩
  · intro i m n bv ck low high hm
    obtain ⟨hck, hlow, hhigh, hwait, hqueue⟩ := mdrain_issues hm
    refine ⟨hck, hlow, fun hc hl hh => ?_, hwait, hqueue⟩
    have hb : b ≠ .zero := fun hb => hh.2 (by simp [bv, hb])
    have hv : bv = some vb := if_neg hb
    have ht : mxTraps s g i 0x15 1 (bv.getD 0) := hhigh hc hl hh
    rw [hv] at ht
    exact ht
  · intro i n out hm
    obtain ⟨hout, halign, hwait, hload⟩ := coefl_issues hm
    refine ⟨hout, halign, hwait, fun ho ha hw => ⟨_, hload ho ha hw, ?_⟩⟩
    obtain ⟨hx, hr, hc⟩ := Group.coefLoaded_spec x first.val n (fun k => BitVec.ofNat 32 (tm.locLoad (va.toNat + 4 * k) 4))
    exact ⟨hx, hr, fun k => hc k.val⟩
  · intro j hj hs
    obtain ⟨hb, _, _, he⟩ := exists_mxWord hj
    exact exec_mxWord_traps he hb hs

end Sys2Proof.Machine
end

section
namespace Sys2Proof.Machine
open Sys2Proof

/-! ### A refused write of a queue's configuration (R4, R334) -/

/-- QCFG with EN and MRES 255, past the 208 that R334 allows over all queues. -/
def overReserved : Word := 0xFF0001

theorem resvOk_overReserved : (State.reset.setReg (qcfgAddr 0) overReserved).resvOk = false := by decide

/-- A refusal is a bit that hardware sets: it is noted (R4), as a write of software to that register in the same tick must find it. -/
theorem hw_qcfgWrite_overReserved : (State.reset.qcfgWrite 0 none overReserved).hw (qcfgAddr 0 + 0x18) = 0x80 := by decide

theorem exec_qcfgWrite (q : Nat) (fab : Option Nat) (val : Word) (s : State) :
    exec (.qcfgWrite q fab val) s = .next (s.qcfgWrite q fab val) := rfl

/-- Refutes O38: a refused write of QCFG does not leave the state that only has ERR set in QSTAT. At reset, queue 0 written with
EN and MRES 255 is refused, and the model notes besides that hardware has set ERR in this tick. -/
theorem not_launches : ¬ Obligations.Launches := by
  rintro ⟨-, -, -, -, hq⟩
  obtain ⟨-, hrefused⟩ := hq 0 none overReserved State.reset (by decide)
  have ht : Host.Outcome.next (State.reset.qcfgWrite 0 none overReserved) =
      Host.Outcome.next (State.reset.setReg (qcfgAddr 0 + 0x18) 0x80) :=
    (exec_qcfgWrite ..).symm.trans (hrefused resvOk_overReserved)
  have hw := congrArg (fun t => t.hw (qcfgAddr 0 + 0x18)) (Host.Outcome.next.inj ht)
  rw [hw_qcfgWrite_overReserved] at hw
  exact absurd hw (by decide)

end Sys2Proof.Machine
end

section
namespace Sys2Proof.Machine
open Sys2Proof Sys2Proof.Spec

/-! ### Floating-point data words (R60, R143 to R149) -/

/-- A floating-point write leaves the result of each lane, and adds the flags of its lanes to FP_FLAGS (R60). -/
theorem Group.writeF_spec (x : Group) (d : Operand) (lanes : List Nat) (r : Nat → Nat × FFlags) :
    ∃ y fl, x.writeF d lanes r = y.addFlags fl ∧ Wrote x y d lanes (fun l => BitVec.ofNat 64 (r l).1) ∧
      ∀ k, fl.getLsbD k = lanes.any (fun l => (r l).2.getLsbD k) := by
  refine ⟨_, _, rfl, (wrote_write ..).congr fun l hl => ?_, fun k => ?_⟩
  · rw [tabGet_lanes _ r hl]
  · simp [List.foldl_map, getLsbD_foldl_or]

theorem givesF_fpWord {i : Instr} {h : Hdr} {d : Operand} {val : State → Group → Nat → Nat × FFlags} (hb : i.bnd = h.bnd)
    (he : ∀ s, exec i s = fpWord i h d s (val s)) : GivesF i h d val := by
  intro s g hs hg
  obtain ⟨y, fl, hy, hw, hf⟩ := (s.grp g).writeF_spec d (s.lanesFor g h) (val s (s.grp g))
  refine ⟨y, fl, ?_, hw, hf⟩
  rw [he, fpWord, dataWord_stands hs hg, hb, hy]

theorem GivesF.congr {i : Instr} {h : Hdr} {d : Operand} {val val' : State → Group → Nat → Nat × FFlags} (hv : GivesF i h d val)
    (he : ∀ s x l, val s x l = val' s x l) : GivesF i h d val' :=
  (funext fun s => funext fun x => funext fun l => he s x l : val = val') ▸ hv

theorem floatArithmetic : Spec.FloatArithmetic := by
  intro h f d a b c
  exact ⟨givesF_fpWord rfl fun _ => rfl, givesF_fpWord rfl fun _ => rfl, givesF_fpWord rfl fun _ => rfl,
    givesF_fpWord rfl fun _ => rfl, givesF_fpWord rfl fun _ => rfl, givesF_fpWord rfl fun _ => rfl⟩

/-- `fsel` takes b where c is a NaN or lies below zero, else a (R145): the condition and its negation. -/
theorem ite_selects {α : Type} (nan : Bool) (o : Ordering) (p q : α) :
    (if (!nan && decide (o ≠ .lt)) = true then p else q) = if (nan || decide (o = .lt)) = true then q else p := by
  cases nan <;> cases o <;> rfl

/-- Without modifiers the pattern of a source is the low bits of what is read (R138, R139). -/
theorem State.fbits_plain (s : State) (x : Group) (f : FFmt) (o : Operand) (l : Nat) :
    s.fbits x f ⟨false, false⟩ o l = (s.rd x o l).toNat % 2 ^ f.w := rfl

theorem floatSelectionCompareAndClass : Spec.FloatSelectionCompareAndClass := by
  intro h f k t d a b c m
  refine ⟨givesF_fpWord rfl fun _ => rfl, givesF_fpWord rfl fun _ => rfl, ?_, givesF_fpWord rfl fun _ => rfl, ?_⟩
  · exact (givesF_fpWord rfl fun _ => rfl).congr fun s x l => by simp only [ite_selects]; rfl
  · exact (givesF_fpWord rfl fun _ => rfl).congr fun s x l => by rw [State.fbits_plain]

/-- Settles O9: each word is one floating-point write of its lanes, whose values are those of the rules. -/
theorem floatArithmeticAndCompare : Obligations.FloatArithmeticAndCompare :=
  ⟨floatArithmetic, floatSelectionCompareAndClass⟩

end Sys2Proof.Machine
end

section
namespace Sys2Proof.Machine
open Sys2Proof Sys2Proof.Spec

/-! ### Conversion and block quantisation (R61, R153 to R157) -/

/-- A floating-point write that steps the generators of some lanes where `steps` says so (R61). -/
def Group.writeSteps (x : Group) (d : Operand) (lanes : List Nat) (r : Nat → Nat × FFlags) (steps : Bool) (gens : List Nat) : Group :=
  let x' := x.writeF d lanes r
  if steps then { x' with fp := { x'.fp with gens := stepGens x.fp.gens gens } } else x'

/-- A data write leaves modes, flags and generators as they are. -/
theorem Wrote.fp_eq {x y : Group} {d : Operand} {lanes : List Nat} {val : Nat → Word} (h : Wrote x y d lanes val) : y.fp = x.fp :=
  (congrArg Group.fp h.rest :)

theorem Group.writeSteps_spec (x : Group) (d : Operand) (lanes : List Nat) (r : Nat → Nat × FFlags) (steps : Bool) (gens : List Nat) :
    ∃ y fl, Wrote x y d lanes (fun l => BitVec.ofNat 64 (r l).1) ∧ (∀ k, fl.getLsbD k = lanes.any (fun l => (r l).2.getLsbD k)) ∧
      x.writeSteps d lanes r steps gens = { y with fp := { y.fp with
        flags := y.fp.flags ||| fl, gens := stepGens x.fp.gens (if steps then gens else []) } } := by
  obtain ⟨y, fl, hy, hw, hf⟩ := x.writeF_spec d lanes r
  refine ⟨y, fl, hw, hf, ?_⟩
  cases steps with
  | true => simp [writeSteps, hy, addFlags]
  | false => simp [writeSteps, hy, addFlags, stepGens, ← hw.fp_eq]

/-- What a word completes with that converts in each of some lanes: its results and flags, and the generators stepped. -/
def Converts (i : Instr) (h : Hdr) (d : Operand) (s : State) (g : Nat) (lanes gens : List Nat) (r : Nat → Nat × FFlags) : Prop :=
  ∃ y fl, Wrote (s.grp g) y d lanes (fun l => BitVec.ofNat 64 (r l).1) ∧
    (∀ k, fl.getLsbD k = lanes.any (fun l => (r l).2.getLsbD k)) ∧
    exec i s = .next ((s.setGrp g { y with fp := { y.fp with
      flags := y.fp.flags ||| fl, gens := stepGens (s.grp g).fp.gens gens } }).retire g h.bnd .on)

theorem converts_writeSteps {i : Instr} {h : Hdr} {d : Operand} {s : State} {g : Nat} {lanes gens : List Nat} {r : Nat → Nat × FFlags}
    {steps : Bool} (he : exec i s = .next ((s.setGrp g ((s.grp g).writeSteps d lanes r steps gens)).retire g h.bnd .on)) :
    Converts i h d s g lanes (if steps then gens else []) r := by
  obtain ⟨y, fl, hw, hf, hy⟩ := (s.grp g).writeSteps_spec d lanes r steps gens
  exact ⟨y, fl, hw, hf, hy ▸ he⟩

section
variable {i : Instr} {h : Hdr} {s : State} {g : Nat} (hs : s.Stands g i)
include hs

theorem exec_dataWord {body : State → Nat → Group → List Nat → State × Ends} (he : exec i s = dataWord i h s body)
    (hb : i.bnd = h.bnd) (hg : s.Guarded g h) :
    let p := body s g (s.grp g) (s.lanesFor g h)
    exec i s = .next (p.1.retire g h.bnd p.2) := by
  rw [he, dataWord_stands hs hg, hb]

theorem exec_laneWord {body : State → Nat → Group → Mask → State × Ends} (he : exec i s = laneWord i h s body)
    (hb : i.bnd = h.bnd) :
    let p := body s g (s.grp g) ((s.grp g).execMask h)
    exec i s = .next (p.1.retire g h.bnd p.2) := by
  rw [he, laneWord_stands hs, hb]

end

section
variable (h : Hdr) (f : FnCv) (q : FnQn) (ef : FmtCode) (half : Bool) (d a b c : Operand) (s : State)

theorem bnd_cvt : (Instr.cvt h f d a b).bnd = h.bnd := by
  delta Instr.bnd Instr.form
  by_cases hm : (f.narrow && decide (f.nf.toNat ≠ 3)) = true
  · simp only [if_pos hm]
  · simp only [if_neg hm]

theorem exec_cvt : exec (.cvt h f d a b) s = execCvt h f d a b s := rfl
theorem exec_qntScale : exec (.qntScale h ef half d a) s = execQntScale h ef half d a s := rfl
theorem exec_qntElem : exec (.qntElem h q d a b c) s = execQntElem h q d a b c s := rfl
theorem exec_dqnt : exec (.dqnt h q d a c) s = execDqnt h q d a c s := rfl

end

/-- The scales of all blocks of a group, each from the block's executing lanes; a block without one has scale 0 (R155). -/
def blockScales (s : State) (x : Group) (ef : FmtCode) (half : Bool) (a : Operand) (e : List Nat) : List (Nat × FFlags) :=
  (List.range (96 / blockLen half)).map (fun k =>
    let xs := (e.filter (fun l => decide (l / blockLen half = k))).map (fun l => s.fval x fp32 ⟨false, false⟩ a l)
    if xs = [] then (0, 0) else blockScale (emaxOf (fmtOf ef)) xs)

theorem exec_qntScale_run {h : Hdr} {ef : FmtCode} {half : Bool} {d a : Operand} {s : State} {g : Nat}
    (hs : s.Stands g (.qntScale h ef half d a)) (hg : (s.grp g).uniGuard h = .run) (he : lanesOf ((s.grp g).execMask h) ≠ []) :
    let x := s.grp g
    let scales := blockScales s x ef half a (lanesOf (x.execMask h))
    exec (.qntScale h ef half d a) s = .next ((s.setGrp g
      ((x.write d [0] (fun _ => BitVec.ofNat 64 (scales.mapIdx (fun k r => r.1 * 2 ^ (8 * k))).sum)).addFlags
        (scales.foldl (fun acc r => acc ||| r.2) 0))).retire g h.bnd .on) := by
  rw [exec_uniWord_run hs (exec_qntScale ..) rfl hg]
  simp only [List.isEmpty_iff, he, if_false, blockScales]

/-- Settles O11: each word with an element in each lane is one write that may step generators; `qntScale` writes once. -/
theorem conversionAndQuantisation : Obligations.ConversionAndQuantisation := by
  intro h f q ef half d a b c s g x e gives w we
  refine ⟨fun hg hs => ?_, fun hs => ?_, fun hs => ?_, ?_⟩
  · have he := exec_dataWord hs (exec_cvt ..) (bnd_cvt ..) hg
    exact converts_writeSteps he
  · have he := exec_laneWord (h := h) hs (exec_qntElem ..) rfl
    exact converts_writeSteps he
  · have he := exec_laneWord (h := h) hs (exec_dqnt ..) rfl
    exact converts_writeSteps (steps := false) (gens := []) he
  · intro hg he n scales hs
    refine ⟨_, _, Group.wrote_write .., fun k => ?_, exec_qntScale_run hs hg he⟩
    simp [scales, blockScales, n, e, x, List.foldl_map, getLsbD_foldl_or, Function.comp_def]

end Sys2Proof.Machine
end

section
namespace Sys2Proof.Machine
open Sys2Proof

/-! ### Words that are read alike (R65, R140, R162) -/

/-- An `acvt` whose RM field holds 6, a code without a mode. -/
def unassignedModeWord : Word := 0x30C00000000000C0

/-- What the decoder reads of it: the mode is DYN, as for code 7. -/
def dynamicModeAcvt : Instr :=
  .acvt { bnd := false, gn := false, gp := 0, feA := false, feB := false, feC := false, uni := false }
    { cnt := 0, tf16 := false, rm := .dyn, sat := false, srci := false } (.v 0)

theorem parse_unassignedModeWord : parse false unassignedModeWord = .ok dynamicModeAcvt := by decide +kernel

theorem encode_dynamicModeAcvt : encode dynamicModeAcvt = some 0x30C00000000000E0 := by decide +kernel

/-- Refutes O57: the decoder leaves the rounding mode of a matrix word to check 4 and reads the unassigned RM 6 of an `acvt` as DYN
(`RMode.ofMatrix`), whose code is 7, so that the instruction encodes another word than the one that was read. -/
theorem not_decodeAndEncodeAgree : ¬ Obligations.DecodeAndEncodeAgree := by
  rintro ⟨hread, -⟩
  have h := (hread _ _ parse_unassignedModeWord).symm.trans encode_dynamicModeAcvt
  exact absurd (Option.some.inj h) (by decide)

end Sys2Proof.Machine
end

section
namespace Sys2Proof.Machine
open Sys2Proof

/-! ### Run choice (R343) -/

/-- What a run choice compares of a group: priority, age, slot, and the group's key. -/
def State.runKey (s : State) (e : Nat × Group) : Nat × Nat × Nat × Nat := (s.effPrio e.1, e.2.sched.since.toNat, e.2.slot, e.1)

/-- One step of the search for the group that a port takes: the better of the best so far and the next. -/
def takeBetter (b : Option (Nat × Nat × Nat × Nat)) (k : Nat × Nat × Nat × Nat) : Option (Nat × Nat × Nat × Nat) :=
  match b with
  | some m => if betterRun k m then some k else b
  | none => some k

theorem State.bestRun_eq_foldl (s : State) (c : Nat) :
    s.bestRun c = (((s.eligibles c).map s.runKey).foldl takeBetter none).map (fun k => k.2.2.2) := by
  rw [List.foldl_map]; rfl

theorem betterRun_asymm {a b : Nat × Nat × Nat × Nat} (h : betterRun a b = true) : betterRun b a = false := by
  simp only [betterRun, decide_eq_true_eq, decide_eq_false_iff_not] at h ⊢
  omega

/-- Against a key that is better than every other, the search holds nothing worse than what it met, and that key once it is met. -/
theorem takeBetter_best {m k : Nat × Nat × Nat × Nat} {b : Option (Nat × Nat × Nat × Nat)} (hk : k = m ∨ betterRun m k = true)
    (hb : ∀ q ∈ b, q = m ∨ betterRun m q = true) :
    (∀ q ∈ takeBetter b k, q = m ∨ betterRun m q = true) ∧ (k = m ∨ b = some m → takeBetter b k = some m) := by
  cases b with
  | none => exact ⟨by rintro q ⟨⟩; exact hk, by rintro (rfl | h); exacts [rfl, nomatch h]⟩
  | some q =>
    have hq := hb q rfl
    by_cases hkq : betterRun k q = true
    · have ht : takeBetter (some q) k = some k := if_pos hkq
      rw [ht]
      refine ⟨by rintro p ⟨⟩; exact hk, ?_⟩
      rintro (rfl | h)
      · rfl
      · obtain rfl := Option.some.inj h
        exact congrArg some (hk.resolve_right fun h => by simp [betterRun_asymm h] at hkq)
    · have ht : takeBetter (some q) k = some q := if_neg hkq
      rw [ht]
      refine ⟨by rintro p ⟨⟩; exact hq, ?_⟩
      rintro (rfl | h)
      · exact congrArg some (hq.resolve_right hkq)
      · exact h

theorem foldl_takeBetter {m : Nat × Nat × Nat × Nat} {l : List (Nat × Nat × Nat × Nat)} {b : Option (Nat × Nat × Nat × Nat)}
    (hl : ∀ k ∈ l, k = m ∨ betterRun m k = true) (hb : ∀ q ∈ b, q = m ∨ betterRun m q = true) (hm : m ∈ l ∨ b = some m) :
    l.foldl takeBetter b = some m := by
  induction l generalizing b with
  | nil => exact hm.resolve_left List.not_mem_nil
  | cons k l ih =>
    obtain ⟨hk, hl⟩ := List.forall_mem_cons.mp hl
    obtain ⟨hnext, htake⟩ := takeBetter_best hk hb
    refine ih hl hnext ?_
    rcases hm with hm | hm
    · exact (List.mem_cons.mp hm).symm.imp_right fun h => htake (.inl h.symm)
    · exact .inr (htake (.inr hm))

/-- The group whose key is better than that of every other eligible group is taken. -/
theorem State.bestRun_eq_some {s : State} {c : Nat} {e : Nat × Group} (he : e ∈ s.eligibles c)
    (hbest : ∀ e' ∈ s.eligibles c, e' = e ∨ betterRun (s.runKey e) (s.runKey e') = true) : s.bestRun c = some e.1 := by
  rw [s.bestRun_eq_foldl, foldl_takeBetter (m := s.runKey e) ?_ (by simp) (.inl (List.mem_map_of_mem he))]
  · rfl
  · simp only [List.forall_mem_map]
    exact fun e' he' => (hbest e' he').imp_left (congrArg _)

theorem State.grp_of_mem {s : State} {e : Nat × Group} (hn : (s.groups.map Prod.fst).Nodup) (he : e ∈ s.groups) : s.grp e.1 = e.2 := by
  rw [State.grp, Tab.get_eq_find?, Tab.find?_of_mem hn he]; rfl

theorem State.mem_groups_of_eligible {s : State} {c : Nat} {e : Nat × Group} (he : e ∈ s.eligibles c) : e ∈ s.groups :=
  List.mem_of_mem_filter he

@[simp] theorem State.port_setPort_same (s : State) (c : Nat) (p : Bool) (x : Port) : (s.setPort c p x).port c p = x := by
  cases p <;> simp [State.port, State.setPort, State.updCore]

@[simp] theorem State.port_updGrp (s : State) (g c : Nat) (f : Group → Group) (p : Bool) : (s.updGrp g f).port c p = s.port c p := by
  simp [State.port, State.core]

theorem State.takeRun_some {s : State} {c g : Nat} {p : Bool} (hp : (s.port c p).slot = none) (hg : s.bestRun c = some g) :
    s.takeRun c p = (s.setPort c p { slot := some (s.grp g).slot, waiting := false, since := s.tick.toNat }).updGrp g
      (fun x => { x with port := some p }) := by
  simp only [State.takeRun, hp, hg]; rfl

theorem State.takeRun_of_no_eligible {s : State} {c : Nat} {p : Bool} (h : s.eligibles c = []) : s.takeRun c p = s := by
  simp [State.takeRun, State.bestRun, h]

theorem exec_runChoice_of_not_issuing {s : State} {c p : Nat} (h : s.issuing = false ∨ 2 ≤ p) : exec (.runChoice c p) s = .next s :=
  if_pos (by simpa using h)

theorem exec_runChoice_zero {s : State} {c : Nat} (h : s.issuing = true) :
    exec (.runChoice c 0) s = .next { s.takeRun c false with focusCore := c, focusPort := false } :=
  if_neg (by simp [h])

/-- The order of R343 on the groups of the state is the order on their keys. -/
theorem State.bestRun_of_later {s : State} {c g : Nat} (hn : (s.groups.map Prod.fst).Nodup) (hg : (g, s.grp g) ∈ s.eligibles c)
    (hlater : ∀ e ∈ s.eligibles c, e.1 ≠ g → s.effPrio e.1 < s.effPrio g ∨ (s.effPrio e.1 = s.effPrio g ∧
      ((s.grp g).sched.since.toNat < (s.grp e.1).sched.since.toNat ∨
        ((s.grp g).sched.since = (s.grp e.1).sched.since ∧ (s.grp g).slot < (s.grp e.1).slot)))) : s.bestRun c = some g := by
  refine State.bestRun_eq_some hg fun e he => ?_
  have hgrp : s.grp e.1 = e.2 := State.grp_of_mem hn (State.mem_groups_of_eligible he)
  by_cases hk : e.1 = g
  · exact .inl (Prod.ext hk (hk ▸ hgrp.symm))
  · have hl := hlater e he hk
    rw [hgrp] at hl
    refine .inr (decide_eq_true (hl.imp_right fun ⟨hprio, hage⟩ => ⟨hprio.symm, hage.imp_right fun ⟨hsince, hslot⟩ => ?_⟩))
    exact ⟨congrArg BitVec.toNat hsince, hslot⟩

/-- A free port that takes a group changes the group's port and its own state. -/
theorem State.takeRun_spec {s : State} {c g : Nat} {p : Bool} (hp : (s.port c p).slot = none) (hb : s.bestRun c = some g)
    (hg : s.hasGrp g = true) :
    let t := s.takeRun c p
    t.mem = s.mem ∧ t.grp g = { s.grp g with port := some p } ∧ (∀ k, k ≠ g → t.grp k = s.grp k) ∧
      t.port c p = { slot := some (s.grp g).slot, waiting := false, since := s.tick.toNat } := by
  intro t
  have ht : t = _ := State.takeRun_some hp hb
  have hgrp (k : Nat) : t.grp k = if k = g then { s.grp g with port := some p } else s.grp k := by
    simp [ht, State.grp_updGrp, hg]
  exact ⟨by simp [ht], (hgrp g).trans (if_pos rfl), fun k hk => (hgrp k).trans (if_neg hk), by simp [ht]⟩

/-- Settles O53: the search for the best group is a fold that keeps the better of two; an unassigned word fails its first check. -/
theorem runChoiceAndUnassignedWords : Obligations.RunChoiceAndUnassignedWords := by
  refine ⟨?_, fun s c p => exec_runChoice_of_not_issuing, fun s c hiss hnone => ?_, fun s g w hg => ?_⟩
  · intro s c g x later hiss hn hp hg hlater
    have hhas : s.hasGrp g = true := Tab.isSome_find?_of_mem (State.mem_groups_of_eligible hg)
    obtain ⟨hmem, hgrp, hother, hport⟩ := State.takeRun_spec hp (State.bestRun_of_later hn hg hlater) hhas
    exact ⟨_, exec_runChoice_zero hiss, hmem, hgrp, hother, hport, rfl, rfl⟩
  · rw [exec_runChoice_zero hiss, State.takeRun_of_no_eligible hnone]
  · have he : exec (.unassignedOpcode w) s = word (.unassignedOpcode w) s (fun s _ _ => (s, .on)) := rfl
    rw [he, word, hg]
    rfl

end Sys2Proof.Machine
end

section
namespace Sys2Proof.Machine
open Sys2Proof Sys2Proof.Spec

/-! ### Paired words (R72 to R77) -/

/-- A slot that writes a predicate writes no register and is no special function (R75). -/
theorem SlotOp.of_writesPred {o : SlotOp} {p : Bool} (h : o.writesPred = some p) : o.writes = none ∧ o.isSpecial = false := by
  cases o with
  | icmp => exact ⟨rfl, rfl⟩
  | icmpI => exact ⟨rfl, rfl⟩
  | fcmp => exact ⟨rfl, rfl⟩
  | fcmpI => exact ⟨rfl, rfl⟩
  | _ => cases h

/-- A slot that executes once does so in lane 0, or not at all (R73). -/
theorem Group.slotRun_once {x : Group} {b : Bool} {y : Slot} {r : SlotRun} (h : x.slotRun b y = .ok r) (ho : r.once = true) :
    r.lanes = 0 ∨ r.lanes = 1 := by
  have hlanes (run : Bool) : (if run then 1 else 0 : Mask) = 0 ∨ (if run then 1 else 0 : Mask) = 1 := by cases run <;> simp
  unfold Group.slotRun at h
  extract_lets k act gm at h
  split at h
  · split at h
    · cases h
    · extract_lets run at h
      split at h
      · cases h; exact hlanes _
      · split at h
        · split at h
          · cases h
          · cases h; exact .inl rfl
        · cases h; exact hlanes _
  · cases h; cases ho

/-- What a slot that runs is to write: its destination, its lanes, their values and its flags, in the terms of the statements. -/
structure SlotGives (s : State) (x : Group) (y : Slot) (r : SlotRun) (o : SlotOut) : Prop where
  dst : o.dst = slotDst y.op
  lanes : o.lanes = slotLanes x y.op r
  vals : ∀ l ∈ o.lanes, Tab.get 0 l o.vals = (slotValue s x y.op r l).1
  flags : ∀ k, o.flags.getLsbD k = slotFlag s x y.op r k
  long : o.long = y.op.isSpecial

theorem State.slotOut_gives {s : State} {x : Group} {b : Bool} {y : Slot} {r : SlotRun} (hr : x.slotRun b y = .ok r) :
    SlotGives s x y r (s.slotOut x y r) := by
  unfold State.slotOut
  extract_lets wide from_ rs fl v lanes d
  have hwide : wide = slotWide y.op r.once := rfl
  have hfl (k : Nat) : fl.getLsbD k = slotFlag s x y.op r k := by
    simp [fl, rs, from_, slotFlag, hwide, List.foldl_map, getLsbD_foldl_or]
  have hrs {l : Nat} (hl : l ∈ from_) : Tab.get 0 l (rs.map (fun q => (q.1, q.2.1))) =
      (s.slotVal x y.op (slotWide y.op r.once) (r.sel.getLsbD l) l).1 := by
    rw [List.map_map]
    exact tabGet_lanes 0 (fun l => (s.slotVal x y.op wide (r.sel.getLsbD l) l).1) hl
  cases hp : y.op.writesPred with
  | none =>
    refine ⟨?_, ?_, fun l hl => ?_, hfl, rfl⟩
    · cases hw : y.op.writes <;> simp [d, slotDst, hw, hp]
    · simp [slotLanes, hp, from_]
    · simpa [slotValue, hp] using hrs hl
  | some p =>
    obtain ⟨hw, hsp⟩ := SlotOp.of_writesPred hp
    have hdst : (Operand.p (if p then 1 else 0)) = slotDst y.op := by simp [slotDst, hp, hw]
    by_cases ho : r.once = true
    · simp only [if_pos ho]
      refine ⟨hdst, by simp [lanes, slotLanes, hp, ho], fun l hl => ?_, hfl, hsp.symm⟩
      rcases Group.slotRun_once hr ho with h0 | h1
      · simp [lanes, h0] at hl
      · rw [tabGet_lanes 0 _ hl]
        have hz : (0 : Nat) ∈ from_ := by simp only [from_, h1]; decide
        have hv : Tab.get (0, 0) 0 rs = s.slotVal x y.op wide (r.sel.getLsbD 0) 0 :=
          tabGet_lanes _ (fun l => s.slotVal x y.op wide (r.sel.getLsbD l) l) hz
        exact (congrArg Prod.fst hv).trans (by simp [slotValue, hp, ho, hwide])
    · simp only [if_neg ho]
      refine ⟨hdst, by simp [slotLanes, ho, from_], fun l hl => ?_, hfl, hsp.symm⟩
      simpa [slotValue, ho] using hrs hl

/-- A data write does not look at the flags. -/
theorem Group.write_addFlags (x : Group) (f : FFlags) (d : Operand) (lanes : List Nat) (v : Nat → Word) :
    (x.addFlags f).write d lanes v = (x.write d lanes v).addFlags f := by
  unfold Group.write
  cases lanes.getLast? with
  | none => rfl
  | some top =>
    cases d with
    | v n =>
      have h := List.foldl_hom (fun x => Group.addFlags x f) (g₁ := fun x l => x.setLane n.val l ((v l).setWidth 32))
        (g₂ := fun x l => x.setLane n.val l ((v l).setWidth 32)) (l := lanes) (init := x) (fun _ _ => rfl)
      dsimp only
      rw [h]
      rfl
    | s n => dsimp only [Group.setS]; split <;> rfl
    | p n => dsimp only; split <;> rfl
    | c n => rfl
    | a n => rfl
    | spec k => rfl
    | rsvd n => rfl
    | zero => rfl

theorem Group.addFlags_addFlags (x : Group) (f f' : FFlags) : (x.addFlags f).addFlags f' = x.addFlags (f ||| f') := by
  simp [Group.addFlags, BitVec.or_assoc]

/-- The writes of a slot that is not long-latency. -/
def SlotOut.writeTo (o : SlotOut) (x : Group) : Group := x.write o.dst o.lanes (fun l => Tab.get 0 l o.vals)

theorem SlotGives.wrote {s : State} {x z : Group} {y : Slot} {r : SlotRun} {o : SlotOut} (h : SlotGives s x y r o) :
    Wrote z (o.writeTo z) (slotDst y.op) (slotLanes x y.op r) (fun l => (slotValue s x y.op r l).1) := by
  rw [← h.dst, ← h.lanes]
  exact (Group.wrote_write ..).congr h.vals

theorem State.slotWrite_plain {s : State} {g : Nat} {o : SlotOut} (hg : s.hasGrp g = true) (hl : o.long = false) :
    s.slotWrite g o = s.setGrp g ((o.writeTo (s.grp g)).addFlags o.flags) := by
  rw [State.slotWrite, hl, if_neg Bool.false_ne_true, State.updGrp_eq_setGrp hg]
  rfl

/-- A paired word stands to issue, and both of its slots run. -/
structure PairRuns (s : State) (g : Nat) (bnd : Bool) (a b : Slot) (ra rb : SlotRun) : Prop where
  stands : s.Stands g (.pairedWord bnd a b)
  hasGrp : s.hasGrp g = true
  fullA : (s.grp g).policyOf false (slotSrcs a) = .ok
  fullB : (s.grp g).policyOf true (slotSrcs b) = .ok
  runA : (s.grp g).slotRun false a = .ok ra
  runB : (s.grp g).slotRun true b = .ok rb

/-- The writes of both slots, each computed before either is made (R77). -/
def State.slotWrites (s : State) (g : Nat) (a b : Slot) (ra rb : SlotRun) : State :=
  (s.slotWrite g (s.slotOut (s.grp g) a ra)).slotWrite g (s.slotOut (s.grp g) b rb)

/-- What a paired word does whose slots leave state `u` (R36): nothing but a trap where its branch diverges on a full stack. -/
def State.pairEffect (s : State) (g : Nat) (u : State) : Option (BranchWay × PC) → State × Ends
  | none => (u, .on)
  | some (w, target) => if (s.grp g).branchBlocked w then (s.divStack g 1, .done) else u.branch g w target

section
variable {s : State} {g : Nat} {bnd : Bool} {a b : Slot} {ra rb : SlotRun} (h : PairRuns s g bnd a b ra rb)
include h

theorem PairRuns.exec_eq {br : Option (BranchWay × PC)} (hbr : pairBranch (s.grp g) b = br) :
    let p := s.pairEffect g (s.slotWrites g a b ra rb) br
    exec (.pairedWord bnd a b) s = .next (p.1.retire g bnd p.2) := by
  have he : exec (.pairedWord bnd a b) s = execPairedWord bnd a b s := rfl
  rw [he, execPairedWord, word_stands h.stands]
  simp only [h.runA, h.runB, h.fullA, h.fullB, hbr]
  cases br <;> rfl

theorem PairRuns.exec_of_no_branch (hb : b.op.isBra = false) :
    exec (.pairedWord bnd a b) s = .next ((s.slotWrites g a b ra rb).retire g bnd .on) := by
  refine h.exec_eq (br := none) ?_
  unfold pairBranch
  split
  · next off hop => simp [hop, SlotOp.isBra] at hb
  · rfl

theorem PairRuns.exec_of_branch {off : BitVec 22} (hb : b.op = .bra off) :
    let x := s.grp g
    let way := branchWay x.flow.mask (x.slotMask b.gd) (decide (b.gd = .always))
    let target : PC := x.flow.pc + off.signExtend 54
    let p := (s.slotWrites g a b ra rb).branch g way target
    (x.branchBlocked way = true → trapsBefore s g (.pairedWord bnd a b) 0x08 1 0) ∧
      (x.branchBlocked way = false → exec (.pairedWord bnd a b) s = .next (p.1.retire g bnd p.2)) := by
  intro x way target p
  have he := h.exec_eq (br := some (way, target)) (by simp only [pairBranch, hb]; rfl)
  simp only [State.pairEffect] at he
  refine ⟨fun hw => ?_, fun hw => ?_⟩
  · rw [if_pos hw] at he; exact he
  · rw [if_neg (by rw [hw]; exact Bool.false_ne_true)] at he; exact he

theorem PairRuns.slotWrites_plain (ha : a.op.isSpecial = false) (hb : b.op.isSpecial = false) :
    let oa := s.slotOut (s.grp g) a ra
    let ob := s.slotOut (s.grp g) b rb
    s.slotWrites g a b ra rb = s.setGrp g ((ob.writeTo (oa.writeTo (s.grp g))).addFlags (oa.flags ||| ob.flags)) := by
  intro oa ob
  rw [State.slotWrites, State.slotWrite_plain h.hasGrp ((State.slotOut_gives h.runA).long.trans ha),
    State.slotWrite_plain (by simp) ((State.slotOut_gives h.runB).long.trans hb), State.setGrp_setGrp, State.grp_setGrp, if_pos rfl,
    SlotOut.writeTo, Group.write_addFlags, Group.addFlags_addFlags]
  rfl

end

theorem pairedWord : Spec.PairedWord := by
  rintro bnd a b ra rb s g i x runs t ⟨hs, hg, hpa, hpb, hra, hrb, ha, hb⟩
  have h : PairRuns s g bnd a b ra rb := ⟨hs, hg, hpa, hpb, hra, hrb⟩
  have hA : SlotGives s x a ra (s.slotOut x a ra) := State.slotOut_gives hra
  have hB : SlotGives s x b rb (s.slotOut x b rb) := State.slotOut_gives hrb
  refine ⟨_, _, (s.slotOut x a ra).flags ||| (s.slotOut x b rb).flags, hA.wrote, hB.wrote,
    fun k => by rw [BitVec.getLsbD_or, hA.flags, hB.flags], ?_⟩
  intro u
  have hu : s.slotWrites g a b ra rb = u := h.slotWrites_plain ha hb
  split
  · next off hop =>
    intro target way
    obtain ⟨htrap, hgo⟩ := h.exec_of_branch hop
    obtain ⟨-, -, -, hsplit⟩ := branchWay_eq x.flow.mask (x.slotMask b.gd) (decide (b.gd = .always))
    exact ⟨htrap, hu ▸ hgo, hsplit⟩
  · next hop =>
    rw [← hu]
    refine h.exec_of_no_branch ?_
    cases hbo : b.op with
    | bra off => exact absurd hbo (hop off)
    | _ => rfl

/-! ### A special function in slot A (R150) -/

/-- The full/empty index of a slot's destination. -/
def Reg7.index : Reg7 → Nat
  | .v n => n.val
  | .s n => 128 + n.val

theorem regOf_op (d : Reg7) : regOf (Reg7.op d) = some (Reg7.index d) := by cases d <;> rfl

theorem State.slotWrite_long {s : State} {g : Nat} {o : SlotOut} {d : Reg7} (hd : o.dst = Reg7.op d) (hl : o.long = true)
    (hne : o.lanes ≠ []) : s.slotWrite g o =
      s.sendResult g [Reg7.index d] (resultsFor (Reg7.op d) o.lanes (fun l => Tab.get 0 l o.vals)) o.flags := by
  rw [State.slotWrite, hl, if_pos rfl, hd, regOf_op]
  exact if_neg (by simpa using hne)

theorem State.hasGrp_sendResult (s : State) (g k : Nat) (regs : List Nat) (vals : List (Nat × Nat × Word)) (fl : FFlags) :
    (s.sendResult g regs vals fl).hasGrp k = s.hasGrp k :=
  State.hasGrp_updGrp s.fresh.2 g k _

/-- What a special function says of its slot. -/
theorem SlotOp.special_eq {o : SlotOp} {d r : Reg7} (h : o = .frcp d r ∨ o = .fexp2 d r) :
    o.isSpecial = true ∧ slotDst o = Reg7.op d ∧ o.writesPred = none := by
  rcases h with rfl | rfl <;> exact ⟨rfl, rfl, rfl⟩

theorem pairedSpecialFunction : Spec.PairedSpecialFunction := by
  intro bnd a b d r ra rb s g i x n ls hs hg hpa hpb hra hrb hop hb hbra hne
  have h : PairRuns s g bnd a b ra rb := ⟨hs, hg, hpa, hpb, hra, hrb⟩
  have hA : SlotGives s x a ra (s.slotOut x a ra) := State.slotOut_gives hra
  have hB : SlotGives s x b rb (s.slotOut x b rb) := State.slotOut_gives hrb
  obtain ⟨hspec, hdst, hpred⟩ := SlotOp.special_eq hop
  have hls : (s.slotOut x a ra).lanes = ls := by rw [hA.lanes]; simp [slotLanes, hpred, ls]
  have hvals : ∀ l ∈ ls, Tab.get 0 l (s.slotOut x a ra).vals = (slotValue s x a.op ra l).1 := hls ▸ hA.vals
  have hsend := State.slotWrite_long (s := s) (g := g) (hA.dst.trans hdst) (hA.long.trans hspec) (hls ▸ hne)
  rw [hls] at hsend
  obtain ⟨⟨q, hq, hgrp, -, hflags, hregs, hqv⟩, -, hx⟩ := State.sendResult_spec s g [Reg7.index d]
    (resultsFor (Reg7.op d) ls (fun l => Tab.get 0 l (s.slotOut x a ra).vals)) (s.slotOut x a ra).flags
  rw [← hsend] at hq hx
  have hwrite := State.slotWrite_plain (s := s.slotWrite g (s.slotOut x a ra)) (g := g)
    (by rw [hsend, State.hasGrp_sendResult, hg]) (hB.long.trans hb)
  have hn : n = Reg7.index d := by cases d <;> rfl
  refine ⟨_, (s.slotOut x b rb).flags, s.slotWrites g a b ra rb, q, h.exec_of_no_branch hbra, hB.wrote, ?_, hB.flags, ?_, hgrp,
    hn ▸ hregs, fun k => hflags ▸ hA.flags k, hqv.trans ?_⟩
  · rw [State.slotWrites, hwrite, State.grp_setGrp, if_pos rfl, hx hg, hn]
    rfl
  · rw [State.slotWrites, hwrite, State.setGrp_sys, hq]
  · cases d with
    | v m => exact (resultsFor_vector hne).trans (List.map_congr_left fun l hl => congrArg (fun v => (m.val, l, v)) (hvals l hl))
    | s m =>
      have ht := List.getLast?_eq_some_getLast hne
      simp only [ht]
      exact (resultsFor_scalar ht).trans (by rw [hvals _ (List.getLast_mem hne)])

/-- Settles O16: what each slot is to write is found from the registers before the word, then written, A's first. -/
theorem pairedWords : Obligations.PairedWords := ⟨pairedWord, pairedSpecialFunction⟩

end Sys2Proof.Machine
end

section
namespace Sys2Proof.Machine
open Sys2Proof Sys2Proof.Spec

/-! ### What Apply gives (R4, R100) -/

/-- What Apply gives in a register that holds nothing but its RW bits. -/
def appliedRw (op : CsrOp) (rw old a : Word) : Word :=
  match op with
  | .read => old
  | .write => a &&& rw
  | .set => old ||| (a &&& rw)
  | .clear => old &&& ~~~(a &&& rw)

section
variable {n : Nat} (hw : csrW1c n = 0#64) (old a : Word)
include hw

theorem csrApply_write : csrApply .write n old a = (old &&& ~~~csrRw n) ||| (a &&& csrRw n) := by
  rw [csrApply, hw, BitVec.zero_and, BitVec.not_zero, BitVec.and_allOnes]

theorem csrApply_clear : csrApply .clear n old a = old &&& ~~~(a &&& csrRw n) := by
  rw [csrApply, hw, BitVec.or_zero]

theorem csrApply_eq_appliedRw (op : CsrOp) (ho : old &&& ~~~csrRw n = 0#64) : csrApply op n old a = appliedRw op (csrRw n) old a := by
  cases op with
  | read => rfl
  | write => rw [csrApply_write hw, ho, BitVec.zero_or]; rfl
  | set => rfl
  | clear => exact csrApply_clear hw old a

/-- A register of `w` bits that are all RW. -/
theorem csrApply_setWidth {w : Nat} (op : CsrOp) (v : BitVec w) (hr : csrRw n = (BitVec.allOnes w).setWidth 64) :
    csrApply op n (v.setWidth 64) a = appliedRw op (csrRw n) (v.setWidth 64) a := by
  refine csrApply_eq_appliedRw hw _ a op ?_
  rw [hr]
  ext k hk
  by_cases h : k < w
  · simp [h]
  · simp [BitVec.getLsbD_of_ge v k (by omega)]

end

/-! ### Control registers of a group (R59 to R61, R97, R177) -/

section
variable (x : Group) (op : CsrOp) (a : Word)

theorem Group.csrStore_ctl : x.csrStore 0x002 (csrApply op 0x002 (x.fp.ctl.setWidth 64) a) = csrStored x op 0x002 a := by
  rw [csrApply_setWidth rfl a op x.fp.ctl (by decide)]
  cases op <;> rfl

theorem Group.csrStore_seed : x.csrStore 0x004 (csrApply op 0x004 (x.fp.seed.setWidth 64) a) = csrStored x op 0x004 a := by
  rw [csrApply_setWidth rfl a op x.fp.seed (by decide)]
  cases op <;> rfl

theorem Group.csrStore_miterCap : x.csrStore 0x021 (csrApply op 0x021 (x.fp.miterCap.setWidth 64) a) = csrStored x op 0x021 a := by
  rw [csrApply_setWidth rfl a op x.fp.miterCap (by decide)]
  cases op <;> rfl

theorem Group.csrStore_miterTol : x.csrStore 0x022 (csrApply op 0x022 (x.fp.miterTol.setWidth 64) a) = csrStored x op 0x022 a := by
  rw [csrApply_setWidth rfl a op x.fp.miterTol (by decide)]
  cases op <;> rfl

/-- FP_FLAGS has no RW bit, and a written or cleared 1 clears its bit. -/
theorem Group.csrStore_flags (hop : op ≠ .read) :
    x.csrStore 0x003 (csrApply op 0x003 (x.fp.flags.setWidth 64) a) = csrStored x op 0x003 a := by
  have hv : (csrApply op 0x003 (x.fp.flags.setWidth 64) a).setWidth 5 =
      match op with | .write | .clear => x.fp.flags &&& ~~~a.setWidth 5 | _ => x.fp.flags := by
    cases op with
    | read => exact absurd rfl hop
    | write => ext k hk; interval_cases k <;> simp [csrApply, csrRw, csrW1c]
    | set => ext k hk; simp [csrApply, csrRw]
    | clear => ext k hk; interval_cases k <;> simp [csrApply, csrRw, csrW1c]
  show ({ x with fp := { x.fp with flags := (csrApply op 0x003 (x.fp.flags.setWidth 64) a).setWidth 5 } } : Group) = _
  rw [hv]
  cases op <;> rfl

/-- Both forms of the test for the unassigned mode of MITER_STATE (R177). -/
theorem Group.csrStore_miterMode (v : Word) : x.csrStore 0x020 v =
    { x with fp := { x.fp with miterState := if v.extractLsb' 16 2 = 3#2 then v &&& ~~~(0x30000#64) else v } } := by
  have h : bits v 16 2 = 3 ↔ v.extractLsb' 16 2 = 3#2 := BitVec.toNat_inj (y := 3#2)
  simp only [csrStore, h]
  rfl

/-- MITER_STATE has read-only bits between its RW bits, which a write keeps. -/
theorem Group.csrStore_miterState (hop : op ≠ .read) :
    x.csrStore 0x020 (csrApply op 0x020 x.fp.miterState a) = csrStored x op 0x020 a := by
  rw [csrStore_miterMode]
  cases op with
  | read => exact absurd rfl hop
  | write =>
    rw [csrApply_write rfl, BitVec.or_comm]
    rfl
  | set => rfl
  | clear =>
    rw [csrApply_clear rfl]
    rfl

/-- A control register of the group that can be written holds what Apply gives it; the others stay. -/
theorem State.csrStore_csrApply {s : State} {g n : Nat} {op : CsrOp} (a : Word) (hn : ¬ (n = 5 ∨ n = 6 ∨ n = 0x17 ∨ 0x40 ≤ n ∧ n < 0x50))
    (hop : op ≠ .read) : let x := s.grp g
    (if csrRw n = 0 ∧ csrW1c n = 0 then x else x.csrStore n (csrApply op n (csrValue s g n) a)) = csrStored x op n a := by
  intro x
  by_cases h : n ∈ [0x002, 0x003, 0x004, 0x020, 0x021, 0x022]
  · simp only [List.mem_cons, List.not_mem_nil, or_false] at h
    rcases h with rfl | rfl | rfl | rfl | rfl | rfl
    · exact Group.csrStore_ctl x op a
    · exact Group.csrStore_flags x op a hop
    · exact Group.csrStore_seed x op a
    · exact Group.csrStore_miterState x op a hop
    · exact Group.csrStore_miterCap x op a
    · exact Group.csrStore_miterTol x op a
  · simp only [List.mem_cons, List.not_mem_nil, or_false, not_or] at h hn
    obtain ⟨h2, h3, h4, h20, h21, h22⟩ := h
    obtain ⟨h5, h6, h17, hb⟩ := hn
    have hrw : csrRw n = 0 := by simp [csrRw, hb]
    have hw : csrW1c n = 0 := if_neg h3
    rw [if_pos ⟨hrw, hw⟩]
    simp [csrStored]

theorem State.statusWord_eq (s : State) (g : Nat) : s.statusWord g (s.grp g) = csrValue s g 0 := by
  simp only [State.statusWord, csrValue, Nat.mul_comm, Nat.reducePow]

theorem State.ctxIdWord_eq (s : State) (g : Nat) : s.ctxIdWord (s.grp g).ctx = csrValue s g 1 := by
  simp only [State.ctxIdWord, csrValue, Nat.mul_comm, Nat.reducePow]
  rfl

theorem setWidth_shiftLeft_three (v : BitVec 54) : (v.setWidth 64) <<< 3 = 8 * v.setWidth 64 := by
  rw [BitVec.shiftLeft_eq_mul_twoPow, BitVec.mul_comm]; rfl

theorem State.csrRead_eq (s : State) (g n : Nat) : s.csrRead g (s.grp g) n = csrValue s g n := by
  unfold csrValue
  split
  case h_1 => exact s.statusWord_eq g
  case h_2 => exact s.ctxIdWord_eq g
  case h_9 => exact setWidth_shiftLeft_three _
  case h_15 => exact setWidth_shiftLeft_three _
  case h_19 => simp [State.csrRead, CtxRegs.read, *]
  all_goals rfl

end

/-! ### Words on control registers of a group (R95 to R100) -/

section
variable (h : Hdr) (d a : Operand) (addr : BitVec 12) (s : State)

theorem exec_csrr : exec (.csrr h d addr) s = uniWord (.csrr h d addr) h s (fun s g x => s.csrWord g x .read d .zero addr) := rfl
theorem exec_csrw : exec (.csrw h d a addr) s = uniWord (.csrw h d a addr) h s (fun s g x => s.csrWord g x .write d a addr) := rfl
theorem exec_csrs : exec (.csrs h d a addr) s = uniWord (.csrs h d a addr) h s (fun s g x => s.csrWord g x .set d a addr) := rfl
theorem exec_csrc : exec (.csrc h d a addr) s = uniWord (.csrc h d a addr) h s (fun s g x => s.csrWord g x .clear d a addr) := rfl

end

section
variable {s : State} {g : Nat} {op : CsrOp} {d a : Operand} {addr : BitVec 12}

theorem State.csrWord_waits (hw : s.csrWaits g (s.grp g) addr.toNat = true) : s.csrWord g (s.grp g) op d a addr = (s, .wait) := by
  rw [csrWord, if_pos hw]

theorem State.csrWord_group (hw : s.csrWaits g (s.grp g) addr.toNat = false) (hc : csrIsCtx addr = false ∨ op = .read) :
    s.csrWord g (s.grp g) op d a addr =
      (s.setGrp g ((if op = .read then s.grp g else csrStored (s.grp g) op addr.toNat (s.rd (s.grp g) a 0)).write d [0]
        (fun _ => csrValue s g addr.toNat)), .on) := by
  have hctx : (csrIsCtx addr && decide (op ≠ .read)) = false := by
    rcases hc with hc | hc
    · rw [hc, Bool.false_and]
    · rw [decide_eq_false (fun h => h hc), Bool.and_false]
  rw [csrWord, hw, hctx, State.csrRead_eq]
  by_cases hop : op = .read
  · simp [hop]
  · have hn := of_decide_eq_false (hc.resolve_right hop)
    have hs := State.csrStore_csrApply (s := s) (g := g) (op := op) (s.rd (s.grp g) a 0) (fun h => hn (.inr h)) hop
    simp only [hop, false_or, if_false, Bool.false_eq_true, ← hs]

end

/-- What a control register word does with a register of the group, or when it only reads. -/
theorem exec_csr_group {i : Instr} {h : Hdr} {op : CsrOp} {d a : Operand} {addr : BitVec 12} {s : State} {g : Nat}
    (he : exec i s = uniWord i h s (fun s g x => s.csrWord g x op d a addr)) (hb : i.bnd = h.bnd) (hs : s.Stands g i)
    (hg : (s.grp g).uniGuard h = .run) (hc : csrIsCtx addr = false ∨ op = .read) : let x := s.grp g
    (s.csrWaits g x addr.toNat = true → exec i s = .next (s.retire g h.bnd .wait)) ∧
    (s.csrWaits g x addr.toNat = false → ∃ y,
      Wrote (if op = .read then x else csrStored x op addr.toNat (s.rd x a 0)) y d [0] (fun _ => csrValue s g addr.toNat) ∧
      exec i s = .next ((s.setGrp g y).retire g h.bnd .on)) := by
  have hrun := exec_uniWord_run hs he hb hg
  exact ⟨fun hw => by rw [hrun, State.csrWord_waits hw], fun hw => ⟨_, Group.wrote_write .., by rw [hrun, State.csrWord_group hw hc]⟩⟩

theorem controlRegistersOfGroups : Spec.ControlRegistersOfGroups := by
  intro h d a addr s g x n does
  exact ⟨fun hs hg _ => exec_csr_group (a := .zero) (exec_csrr ..) rfl hs hg, fun hs hg _ => exec_csr_group (exec_csrw ..) rfl hs hg,
    fun hs hg _ => exec_csr_group (exec_csrs ..) rfl hs hg, fun hs hg _ => exec_csr_group (exec_csrc ..) rfl hs hg,
    fun hs => exec_uniWord_skip hs (exec_csrr ..) rfl, fun hs => exec_uniWord_skip hs (exec_csrw ..) rfl,
    fun hs => exec_uniWord_skip hs (exec_csrs ..) rfl, fun hs => exec_uniWord_skip hs (exec_csrc ..) rfl⟩

/-! ### A context's control registers (R97, R98, R313) -/

/-- The copies of a context's registers once each of some cores keeps its own (R98). -/
def keepCopies (r : CtxRegs) (cores : List Nat) (t : Tab CtxRegs) : Tab CtxRegs :=
  cores.foldl (fun t core => if (Tab.find? core t).isSome then t else Tab.put core r t) t

/-- A core of the list keeps what it read before: its copy, or else the registers of the context. -/
theorem find?_keepCopies (r : CtxRegs) (cores : List Nat) (t : Tab CtxRegs) (k : Nat) :
    Tab.find? k (keepCopies r cores t) = if k ∈ cores then some (Tab.get r k t) else Tab.find? k t := by
  induction cores generalizing t with
  | nil => simp [keepCopies]
  | cons c cores ih =>
    rw [keepCopies, List.foldl_cons, ← keepCopies, ih]
    cases hf : Tab.find? c t with
    | some r' =>
      by_cases hk : k = c
      · subst hk; simp [hf, Tab.get_eq_find?]
      · simp [hk]
    | none =>
      by_cases hk : k = c
      · subst hk; simp [hf, Tab.get_eq_find?, Tab.find?_put]
      · simp [hk, Tab.get_put, Tab.find?_put]

theorem get_keepCopies (r r' : CtxRegs) {cores : List Nat} (t : Tab CtxRegs) {k : Nat} (hk : k ∈ cores) :
    Tab.get r' k (keepCopies r cores t) = Tab.get r k t := by
  rw [Tab.get_eq_find?, find?_keepCopies, if_pos hk, Option.getD_some]

theorem State.foldl_post {α : Type} (s : State) (l : List α) (e : α → Instr) :
    l.foldl (fun s a => s.post (e a)) s = { s with pending := s.pending ++ l.map e } := by
  induction l generalizing s with
  | nil => simp
  | cons a l ih => rw [List.foldl_cons, ih]; simp [State.post]

theorem State.ctxRegs_of_ctxs {s t : State} (h : t.ctxs = s.ctxs) (core c : Nat) : t.ctxRegs core c = s.ctxRegs core c := by
  rw [State.ctxRegs, State.ctx_of_ctxs h, State.ctxRegs]

/-- The cores of a context are those of its groups. -/
theorem State.core_mem_coresOf {s : State} {g : Nat} (hg : s.hasGrp g = true) : (s.grp g).core ∈ s.coresOf (s.grp g).ctx := by
  rw [State.coresOf, List.mem_dedup]
  exact List.mem_map.mpr ⟨_, List.mem_filter.mpr ⟨State.mem_groups_of_hasGrp hg, decide_eq_true rfl⟩, rfl⟩

/-- A register made empty. -/
theorem Group.isFull_drain (x : Group) {r : Nat} (tok : Nat) (hr : r < 192) :
    ({ x with regs := x.regs.drain r tok } : Group).isFull r = false := by
  simpa [Group.drained] using (x.drained_spec r tok 1 r hr).1

/-- A destination made empty under a token, where it has a full/empty bit. -/
def State.drainDst (s : State) (g : Nat) (d : Operand) (tok : Nat) : State :=
  match regOf d with
  | some r => s.updGrp g (fun x => { x with regs := x.regs.drain r tok })
  | none => s

section
variable {s : State} {g c n : Nat} {v : Word} {d : Operand}

theorem State.isFull_drainDst {tok r : Nat} (hg : s.hasGrp g = true) (hd : regOf d = some r) (hr : r < 192) :
    ((s.drainDst g d tok).grp g).isFull r = false := by
  rw [State.drainDst, hd, State.grp_updGrp, if_pos ⟨rfl, hg⟩]
  exact Group.isFull_drain _ tok hr

theorem State.drainDst_frame (s : State) (g : Nat) (d : Operand) (tok : Nat) : (s.drainDst g d tok).ctxs = s.ctxs ∧
    (s.drainDst g d tok).mem = s.mem ∧ (s.drainDst g d tok).hub = s.hub ∧ (s.drainDst g d tok).pending = s.pending := by
  unfold State.drainDst
  split <;> simp

/-- The context table with a register of context `c` written, while the cores keep what they hold, and the destination empty (R98). -/
def State.ctxStored (s : State) (g c n : Nat) (v : Word) (d : Operand) : State :=
  let k := s.ctx c
  ((s.setCtx c { k with regs := k.regs.store n v, copies := keepCopies k.regs (s.coresOf c) k.copies }).fresh.2.fresh.2).drainDst g d
    (s.nextId + 1)

/-- A write of a context's register on its way from state `s` to the cores of the context. -/
def State.ctxWriteOf (s u : State) (g c n : Nat) (v : Word) (d : Operand) : CtxWrite :=
  { id := s.nextId, ctx := c, addr := n, val := v, left := s.coresOf c, grp := g, team := (u.grp g).team, tok := s.nextId + 1,
    reg := regOf d, old := (s.ctx c).regs.read n }

/-- A write of a register of a context with groups waits for its arrival at their cores. -/
theorem State.ctxWrite_eq (hc : s.coresOf c ≠ []) : s.ctxWrite g c n v d =
    let u := s.ctxStored g c n v d
    { u.setHub { u.hub with ctxWrites := u.hub.ctxWrites ++ [s.ctxWriteOf u g c n v d] } with
      pending := u.pending ++ (s.coresOf c).map (fun k => .contextCsrPropagated s.nextId k) } := by
  have he : (s.coresOf c).isEmpty = false := by simpa using hc
  simp only [State.ctxWrite, he, Bool.false_eq_true, if_false, State.foldl_post]
  cases hd : regOf d <;> simp only [State.ctxStored, State.drainDst, State.ctxWriteOf, hd] <;> rfl

theorem State.ctxStored_spec (hg : s.hasGrp g = true) : let u := s.ctxStored g c n v d
    (u.ctx c).regs = (s.ctx c).regs.store n v ∧ u.mem = s.mem ∧ u.pending = s.pending ∧
    (∀ k ∈ s.coresOf c, u.ctxRegs k c = s.ctxRegs k c) ∧
    (∀ r, regOf d = some r → r < 192 → (u.grp g).isFull r = false) := by
  intro u
  set t := s.setCtx c { s.ctx c with
    regs := (s.ctx c).regs.store n v, copies := keepCopies (s.ctx c).regs (s.coresOf c) (s.ctx c).copies }
  obtain ⟨hctxs, hmem, -, hpend⟩ := State.drainDst_frame t.fresh.2.fresh.2 g d (s.nextId + 1)
  have hctx : u.ctx c = t.ctx c := State.ctx_of_ctxs hctxs c
  rw [State.ctx_setCtx, if_pos rfl] at hctx
  refine ⟨by rw [hctx], hmem, hpend, fun k hk => ?_, fun r hd hr => State.isFull_drainDst hg hd hr⟩
  rw [State.ctxRegs, hctx]
  exact get_keepCopies _ _ _ hk

end

/-! ### Words on a context's control registers (R97, R98, R313) -/

/-- The control registers of a context that can be written. -/
def IsCtxReg (n : Nat) : Prop := n ∈ [0x005, 0x006, 0x017] ∨ 0x40 ≤ n ∧ n < 0x50

theorem csrIsCtx_of_isCtxReg {addr : BitVec 12} (hn : IsCtxReg addr.toNat) : csrIsCtx addr = true := by
  simp only [IsCtxReg, List.mem_cons, List.not_mem_nil, or_false] at hn
  exact decide_eq_true (by omega)

theorem IsCtxReg.qbind {n : Nat} (hn : IsCtxReg n) (h5 : n ≠ 0x005) (h6 : n ≠ 0x006) (h17 : n ≠ 0x017) : 0x40 ≤ n ∧ n < 0x50 :=
  hn.resolve_left (by simp [h5, h6, h17])

theorem csrRw_qbind {n : Nat} (hn : 0x40 ≤ n ∧ n < 0x50) : csrRw n = 0x80000001FF7FFFFF := by
  unfold csrRw
  split
  case h_9 => exact if_pos hn
  all_goals omega

theorem csrRw_ne_zero {n : Nat} (hn : IsCtxReg n) : csrRw n ≠ 0 := by
  rcases hn with hn | hn
  · simp only [List.mem_cons, List.not_mem_nil, or_false] at hn
    rcases hn with rfl | rfl | rfl <;> decide
  · rw [csrRw_qbind hn]
    decide

theorem csrW1c_of_isCtxReg {n : Nat} (hn : IsCtxReg n) : csrW1c n = 0 := by
  simp only [IsCtxReg, List.mem_cons, List.not_mem_nil, or_false] at hn
  exact if_neg (by omega)

theorem CtxRegs.read_qbind (r : CtxRegs) {n : Nat} (hn : 0x40 ≤ n ∧ n < 0x50) : r.read n = Tab.get 0 (n - 0x40) r.qbind := by
  unfold CtxRegs.read
  split
  case h_4 => exact if_pos hn
  all_goals omega

theorem CtxRegs.store_qbind (r : CtxRegs) {n : Nat} (hn : 0x40 ≤ n ∧ n < 0x50) (v : Word) :
    r.store n v = { r with qbind := Tab.set 0 (n - 0x40) (qbindStore v) r.qbind } := by
  unfold CtxRegs.store
  split
  case h_4 => exact if_pos hn
  all_goals omega

section
variable {s : State} {g : Nat} {op : CsrOp} {d a : Operand} {addr : BitVec 12}

theorem State.csrWord_context (hw : s.csrWaits g (s.grp g) addr.toNat = false) (hn : IsCtxReg addr.toNat) (hop : op ≠ .read) :
    s.csrWord g (s.grp g) op d a addr = (s.ctxWrite g (s.grp g).ctx addr.toNat (csrApply op addr.toNat
      ((s.ctx (s.grp g).ctx).regs.read addr.toNat) (s.rd (s.grp g) a 0)) d, .on) := by
  simp only [csrWord, hw, csrIsCtx_of_isCtxReg hn, csrRw_ne_zero hn, ne_eq, hop, Bool.false_eq_true, if_false, not_false_eq_true,
    decide_true, Bool.and_self, if_true]

theorem State.csrWord_ctxId (hw : s.csrWaits g (s.grp g) addr.toNat = false) (hn : addr.toNat = 1) (hop : op ≠ .read) :
    s.csrWord g (s.grp g) op d a addr = (s.sendValue g d (csrValue s g 1), .on) := by
  have hctx : csrIsCtx addr = true := decide_eq_true (.inl hn)
  rw [hn] at hw
  simp only [csrWord, hn, hw, hctx, csrRead_eq, ne_eq, hop, Bool.false_eq_true, if_false, not_false_eq_true, decide_true, Bool.and_self,
    if_true]
  exact if_pos rfl

theorem State.sendValue_spec {r : Nat} {v : Word} (hg : s.hasGrp g = true) (hd : regOf d = some r) (hr : r < 192) :
    let t := s.sendValue g d v
    ∃ q : Result, t.mem = s.mem ∧ t.hub = s.hub ∧ (t.grp g).isFull r = false ∧ Tab.find? s.nextId t.sys.results = some q ∧ q.grp = g ∧
      q.regs = [r] ∧ q.vals = [(r, 0, v)] ∧ t.pending = s.pending ++ [.resultWriteback s.nextId] := by
  have h := State.isFull_drainDst (s := s.fresh.2) (tok := s.nextId) hg hd hr
  obtain ⟨-, hmem, hhub, hpend⟩ := State.drainDst_frame s.fresh.2 g d s.nextId
  simp only [State.drainDst, hd] at h hmem hhub hpend
  simp only [State.sendValue, hd]
  exact ⟨_, hmem, hhub, h, (Tab.find?_put ..).trans (if_pos rfl), rfl, rfl, rfl, congrArg (· ++ [Instr.resultWriteback s.nextId]) hpend⟩

end

section
variable {i : Instr} {h : Hdr} {op : CsrOp} {d a : Operand} {addr : BitVec 12} {s : State} {g : Nat}
  (he : exec i s = uniWord i h s (fun s g x => s.csrWord g x op d a addr)) (hb : i.bnd = h.bnd) (hop : op ≠ .read) (hs : s.Stands g i)
  (hgd : (s.grp g).uniGuard h = .run) (hg : s.hasGrp g = true) (hw : s.csrWaits g (s.grp g) addr.toNat = false)
include he hb hop hs hgd hg hw

/-- A word writes a context's register: what each part of the machine then holds. -/
theorem exec_csr_context (hn : IsCtxReg addr.toNat) :
    let n := addr.toNat
    let c := (s.grp g).ctx
    ∃ t : State, exec i s = .next (t.retire g h.bnd .on) ∧
      (t.ctx c).regs = (s.ctx c).regs.store n (csrApply op n ((s.ctx c).regs.read n) (s.rd (s.grp g) a 0)) ∧ t.mem = s.mem ∧
      (∀ k ∈ s.coresOf c, t.ctxRegs k c = s.ctxRegs k c) ∧
      (∀ r, regOf d = some r → r < 192 → (t.grp g).isFull r = false) ∧
      t.pending = s.pending ++ (s.coresOf c).map (fun k => .contextCsrPropagated s.nextId k) := by
  intro n c
  have hc : s.coresOf c ≠ [] := List.ne_nil_of_mem (State.core_mem_coresOf hg)
  obtain ⟨hregs, hmem, hpend, hcores, hfull⟩ := State.ctxStored_spec (c := c) (n := n) (d := d)
    (v := csrApply op n ((s.ctx c).regs.read n) (s.rd (s.grp g) a 0)) hg
  refine ⟨_, (exec_uniWord_run hs he hb hgd).trans (by rw [State.csrWord_context hw hn hop]), ?_⟩
  rw [State.ctxWrite_eq hc]
  exact ⟨hregs, hmem, hcores, hfull, congrArg (· ++ _) hpend⟩

/-- A write of CTX_ID sends the value that was read, where there is a destination with a full/empty bit. -/
theorem exec_csr_ctxId (hn : addr.toNat = 1) :
    (regOf d = none → exec i s = .next (s.retire g h.bnd .on)) ∧
    (∀ r, regOf d = some r → r < 192 →
      ∃ (t : State) (q : Result), exec i s = .next (t.retire g h.bnd .on) ∧ t.mem = s.mem ∧ t.hub = s.hub ∧
        (t.grp g).isFull r = false ∧ Tab.find? s.nextId t.sys.results = some q ∧ q.grp = g ∧ q.regs = [r] ∧
        q.vals = [(r, 0, csrValue s g 1)] ∧ t.pending = s.pending ++ [.resultWriteback s.nextId]) := by
  have hrun := exec_uniWord_run hs he hb hgd
  rw [State.csrWord_ctxId hw hn hop] at hrun
  refine ⟨fun hd => ?_, fun r hd hr => ?_⟩
  · rw [hrun, State.sendValue, hd]
  · obtain ⟨q, hq⟩ := State.sendValue_spec hg hd hr
    exact ⟨_, q, hrun, hq⟩

end

/-! ### The arrival of a context's write at a core (R98) -/

theorem exec_contextCsrPropagated (id core : Nat) (s : State) :
    exec (.contextCsrPropagated id core) s = execContextCsrPropagated id core s := rfl

/-- The context table once a write has arrived at a core, which then holds the context's registers, or a copy where another write of that
context is still to come (R98); a new LEASE_LEN leaves the leases of this tick as they are (R228). -/
def State.ctxArrived (s : State) (w : CtxWrite) (core : Nat) (behind : Bool) : State :=
  let s := if w.addr = 0x006 then s.keepLease core w.ctx else s
  let k := s.ctx w.ctx
  let copies := if behind then Tab.put core ((Tab.get k.regs core k.copies).store w.addr w.val) k.copies else Tab.del core k.copies
  s.setCtx w.ctx { k with copies := copies }

theorem State.keepLease_frame (s : State) (core c : Nat) : (s.keepLease core c).ctxs = s.ctxs ∧ (s.keepLease core c).mem = s.mem ∧
    (s.keepLease core c).hub = s.hub ∧ (s.keepLease core c).pending = s.pending ∧ (s.keepLease core c).groups = s.groups := by
  unfold State.keepLease
  extract_lets
  split <;> simp

theorem State.ctxWritten_frame (s : State) (w : CtxWrite) : (s.ctxWritten w).ctxs = s.ctxs ∧ (s.ctxWritten w).mem = s.mem := by
  unfold State.ctxWritten
  split
  · split <;> simp
  · exact ⟨rfl, rfl⟩

theorem State.ctxWritten_spec {s : State} {w : CtxWrite} {r : Nat} (hr : w.reg = some r) (hg : s.hasGrp w.grp = true)
    (ht : (s.grp w.grp).team = w.team) :
    ∃ q, Tab.find? w.tok (s.ctxWritten w).sys.results = some q ∧ q.grp = w.grp ∧ q.regs = [r] ∧ q.vals = [(r, 0, w.old)] ∧
      (s.ctxWritten w).pending = s.pending ++ [.resultWriteback w.tok] := by
  simp only [State.ctxWritten, hr, hg, ht, decide_true, Bool.and_self, if_true]
  exact ⟨_, (Tab.find?_put ..).trans (if_pos rfl), rfl, rfl, rfl, rfl⟩

section
variable {s : State} {w : CtxWrite} {core : Nat} {behind : Bool}

theorem State.ctxArrived_frame : (s.ctxArrived w core behind).mem = s.mem ∧ (s.ctxArrived w core behind).hub = s.hub ∧
    (s.ctxArrived w core behind).pending = s.pending ∧ (s.ctxArrived w core behind).groups = s.groups := by
  obtain ⟨-, hmem, hhub, hpend, hgroups⟩ := s.keepLease_frame core w.ctx
  unfold State.ctxArrived
  split <;> simp [*]

theorem State.ctx_ctxArrived : (s.ctxArrived w core behind).ctx w.ctx = { s.ctx w.ctx with
    copies := if behind then Tab.put core ((s.ctxRegs core w.ctx).store w.addr w.val) (s.ctx w.ctx).copies
      else Tab.del core (s.ctx w.ctx).copies } := by
  obtain ⟨hctxs, -⟩ := s.keepLease_frame core w.ctx
  unfold State.ctxArrived
  split <;> simp [State.ctx_of_ctxs hctxs, State.ctxRegs]

/-- What the cores hold of a context once a write of it has arrived at one of them. -/
theorem State.ctxRegs_ctxArrived (k : Nat) : (s.ctxArrived w core behind).ctxRegs k w.ctx =
    if k = core then (if behind then (s.ctxRegs core w.ctx).store w.addr w.val else (s.ctx w.ctx).regs) else s.ctxRegs k w.ctx := by
  rw [State.ctxRegs, State.ctx_ctxArrived]
  cases behind with
  | true => simp [Tab.get_put]; rfl
  | false => simp [Tab.get_del]; rfl

end

/-- A write that has arrived at a core is struck off there; at the last core, the old value goes to the writer's destination (R98). -/
def State.ctxStruck (u : State) (w : CtxWrite) (core : Nat) : State :=
  let left := w.left.filter (fun c => decide (c ≠ core))
  if left.isEmpty then (u.setHub { u.hub with ctxWrites := u.hub.ctxWrites.filter (fun v => decide (v.id ≠ w.id)) }).ctxWritten w
  else u.setHub { u.hub with ctxWrites := u.hub.ctxWrites.map (fun v => if v.id = w.id then { v with left := left } else v) }

theorem State.ctxStruck_frame (u : State) (w : CtxWrite) (core : Nat) :
    (u.ctxStruck w core).ctxs = u.ctxs ∧ (u.ctxStruck w core).mem = u.mem := by
  unfold State.ctxStruck
  extract_lets
  split
  · exact State.ctxWritten_frame ..
  · exact ⟨rfl, rfl⟩

theorem State.ctxStruck_last {u : State} {w : CtxWrite} {core : Nat} (h : w.left = [core]) : u.ctxStruck w core =
    (u.setHub { u.hub with ctxWrites := u.hub.ctxWrites.filter (fun v => decide (v.id ≠ w.id)) }).ctxWritten w := by
  simp [State.ctxStruck, h]

section
variable {s : State} {w : CtxWrite} {core : Nat} (hw : s.hub.ctxWrites.find? (fun v => decide (v.id = w.id)) = some w)
  (hc : core ∈ w.left)
include hw hc

theorem exec_contextCsrPropagated_early
    (hb : s.hub.ctxWrites.any (fun v => decide (v.id < w.id ∧ v.ctx = w.ctx) && v.left.contains core) = true) :
    exec (.contextCsrPropagated w.id core) s = .next (s.later (.contextCsrPropagated w.id core)) := by
  have hc' : w.left.contains core = true := List.contains_iff_mem.mpr hc
  simp only [exec_contextCsrPropagated, execContextCsrPropagated, hw, hc', hb, Bool.not_true, Bool.false_eq_true, if_false, if_true]

theorem exec_contextCsrPropagated_next
    (hb : s.hub.ctxWrites.any (fun v => decide (v.id < w.id ∧ v.ctx = w.ctx) && v.left.contains core) = false) :
    exec (.contextCsrPropagated w.id core) s = .next ((s.ctxArrived w core
      (s.hub.ctxWrites.any (fun v => decide (w.id < v.id ∧ v.ctx = w.ctx) && v.left.contains core))).ctxStruck w core) := by
  have hc' : w.left.contains core = true := List.contains_iff_mem.mpr hc
  have hhub : (if w.addr = 0x006 then s.keepLease core w.ctx else s).hub = s.hub := by
    obtain ⟨-, -, hhub, -⟩ := s.keepLease_frame core w.ctx
    split
    · exact hhub
    · rfl
  simp only [exec_contextCsrPropagated, execContextCsrPropagated, hw, hc', hb, State.ctxArrived, State.ctxStruck, hhub, State.setCtx_hub,
    Bool.not_true, Bool.false_eq_true, if_false]
  split <;> rfl

end

theorem contextRegisters : Spec.ContextRegisters := by
  constructor
  · intro h d a addr s g x n c old v was rwBits store does
    have hwas (hn : IsCtxReg n) : was = old.read n := by
      clear_value n
      simp only [was]
      split
      · rfl
      · rfl
      · exact (setWidth_shiftLeft_three _).symm
      · next h5 h6 h17 => exact (old.read_qbind (hn.qbind h5 h6 h17)).symm
    have hrw (hn : IsCtxReg n) : rwBits = csrRw n := by
      clear_value n
      simp only [rwBits]
      split
      · rfl
      · rfl
      · rfl
      · next h5 h6 h17 => exact (csrRw_qbind (hn.qbind h5 h6 h17)).symm
    have hstore (hn : IsCtxReg n) (u : Word) : store u = old.store n u := by
      clear_value n
      simp only [store]
      split
      · rfl
      · rfl
      · rfl
      · next h5 h6 h17 => exact (old.store_qbind (hn.qbind h5 h6 h17) u).symm
    have hdoes {i : Instr} {op : CsrOp} {new : Word} (he : exec i s = uniWord i h s (fun s g x => s.csrWord g x op d a addr))
        (hb : i.bnd = h.bnd) (hop : op ≠ .read) (hnew : IsCtxReg n → new = csrApply op n (old.read n) v) : does i new := by
      intro hs hgd hg hw
      refine ⟨fun hn => ?_, fun hn => (exec_csr_ctxId he hb hop hs hgd hg hw hn).1,
        fun r hn => (exec_csr_ctxId he hb hop hs hgd hg hw hn).2 r⟩
      rw [hstore hn, hnew hn]
      exact exec_csr_context he hb hop hs hgd hg hw hn
    refine ⟨hdoes (exec_csrw ..) rfl nofun fun hn => ?_, hdoes (exec_csrs ..) rfl nofun fun hn => ?_,
      hdoes (exec_csrc ..) rfl nofun fun hn => ?_⟩
    · rw [hwas hn, hrw hn, csrApply_write (csrW1c_of_isCtxReg hn)]
    · rw [hwas hn, hrw hn]; rfl
    · rw [hwas hn, hrw hn, csrApply_clear (csrW1c_of_isCtxReg hn)]
  · intro s w core e before behind hw hc
    refine ⟨exec_contextCsrPropagated_early hw hc, fun hb => ⟨_, exec_contextCsrPropagated_next hw hc hb, ?_⟩⟩
    obtain ⟨hmem, -, hpend, hgroups⟩ := State.ctxArrived_frame (s := s) (w := w) (core := core) (behind := behind)
    obtain ⟨hctxs, hmem'⟩ := (s.ctxArrived w core behind).ctxStruck_frame w core
    have hregs (k : Nat) := (State.ctxRegs_of_ctxs hctxs k w.ctx).trans (State.ctxRegs_ctxArrived k)
    refine ⟨hmem'.trans hmem, fun h => ?_, fun h => ?_, fun k hk => (hregs k).trans (if_neg hk), fun r hl hr hg ht => ?_⟩
    · exact (hregs core).trans (by rw [if_pos rfl, h]; rfl)
    · exact (hregs core).trans (by rw [if_pos rfl, h]; rfl)
    · rw [State.ctxStruck_last hl]
      obtain ⟨q, hq, hgrp, hqr, hqv, hp⟩ := State.ctxWritten_spec (s := (s.ctxArrived w core behind).setHub _) hr
        (by simpa [State.hasGrp, hgroups] using hg) (by simpa [State.grp, hgroups] using ht)
      exact ⟨q, hq, hgrp, hqr, hqv, hp.trans (congrArg (· ++ _) hpend)⟩

/-- Settles O29: the registers of a group and those of a context, whose writes go through the context table to the cores. -/
theorem controlRegisters : Obligations.ControlRegisters := ⟨controlRegistersOfGroups, contextRegisters⟩

end Sys2Proof.Machine
end

section
namespace Sys2Proof
open Sys2Proof.Machine

/-! ### Bits of a width (R104, R110, R111) -/

theorem ITy.bits_le (t : ITy) : t.bits ≤ 64 := by cases t <;> decide

@[simp] theorem ITy.getLsbD_cut (t : ITy) (v : Word) (k : Nat) : (t.cut v).getLsbD k = (decide (k < t.bits) && v.getLsbD k) := by
  cases hw : t.wide with
  | true =>
    by_cases hk : k < 64
    · simp [ITy.cut, ITy.bits, hw, hk]
    · simp [ITy.cut, ITy.bits, hw, hk, BitVec.getLsbD_of_ge v k (by omega)]
  | false =>
    simp only [ITy.cut, ITy.bits, hw, BitVec.getLsbD_setWidth, Bool.false_eq_true, if_false]
    by_cases hk : k < 32 <;> simp [hk]
    omega

/-- An extended result depends on the w bits alone. -/
theorem ITy.ext_congr {t : ITy} {v u : Word} (h : ∀ k < t.bits, v.getLsbD k = u.getLsbD k) : t.ext v = t.ext u := by
  rw [← t.ext_cut v, ← t.ext_cut u]
  congr 1
  refine BitVec.eq_of_getLsbD_eq fun k _ => ?_
  by_cases hk : k < t.bits <;> simp [hk, h]

/-- IMM22 as a word: the pattern of its value (R103). -/
theorem ITy.imm_eq (t : ITy) (i : BitVec 22) : t.imm i = t.cut (BitVec.ofInt 64 (Spec.immValue t i)) := by
  unfold ITy.imm Spec.immValue
  cases t.signed with
  | true => rfl
  | false => simp

/-- The unsigned value of w bits. -/
theorem ITy.toNat_cut (t : ITy) (v : Word) : (t.cut v).toNat = v.toNat % 2 ^ t.bits := by
  cases hw : t.wide with
  | true => simpa [ITy.cut, ITy.bits, hw] using (Nat.mod_eq_of_lt v.isLt).symm
  | false =>
    simp only [ITy.cut, ITy.bits, hw, Bool.false_eq_true, if_false, BitVec.toNat_setWidth]
    omega

end Sys2Proof
end

section
namespace Sys2Proof
open Sys2Proof.Machine

/-! ### Shifts and rotates (R110) -/

theorem ITy.ext_wide {t : ITy} (h : t.wide = true) (v : Word) : t.ext v = v := by
  cases t with
  | u32 | s32 => cases h
  | u64 | s64 => rfl

/-- The low 32 bits carry the result of a narrow type. -/
theorem ITy.ext_narrow_word {t : ITy} (h : t.wide = false) (v : Word) : t.ext v = t.ext ((v.setWidth 32).setWidth 64) := by
  rw [← t.ext_cut v, ITy.cut, h]; rfl

theorem setWidth_ofInt (e : Int) : (BitVec.ofInt 64 e).setWidth 32 = BitVec.ofInt 32 e := by
  refine BitVec.eq_of_toNat_eq ?_
  simp only [BitVec.toNat_setWidth, BitVec.toNat_ofInt]
  omega

theorem ofNat_shiftRight {w : Nat} (v : BitVec w) (n : Nat) : BitVec.ofNat w (v.toNat / 2 ^ n) = v >>> n := by
  rw [← Nat.shiftRight_eq_div_pow, ← BitVec.toNat_ushiftRight, BitVec.ofNat_toNat, BitVec.setWidth_eq]

theorem ofNat_shiftLeft {w : Nat} (v : BitVec w) (n : Nat) : BitVec.ofNat w (v.toNat * 2 ^ n) = v <<< n := by
  rw [← Nat.shiftLeft_eq]; exact BitVec.eq_of_toNat_eq rfl

theorem ofInt_sshiftRight {w : Nat} (v : BitVec w) (n : Nat) : BitVec.ofInt w (v.toInt / 2 ^ n) = v.sshiftRight n := by
  rw [BitVec.sshiftRight, Int.shiftRight_eq_div_pow]; norm_cast

/-- All the bits of a number shifted out leave copies of its sign. -/
theorem toInt_ediv_two_pow {w n : Nat} (v : BitVec w) (h : w ≤ n) : v.toInt / 2 ^ n = if v.toInt < 0 then -1 else 0 := by
  have hp : (2 : Int) ^ w ≤ 2 ^ n := by exact_mod_cast Nat.pow_le_pow_right (by decide) h
  have hlt := BitVec.toInt_lt (x := v)
  have hge := BitVec.le_toInt v
  have hw : (2 : Int) ^ (w - 1) ≤ 2 ^ w := by exact_mod_cast Nat.pow_le_pow_right (by decide) (by omega)
  split
  · exact Int.ediv_eq_neg_one_of_neg_of_le ‹_› (by omega)
  · exact Int.ediv_eq_zero_of_lt (by omega) (by omega)

theorem ofNat_rotateLeft {w : Nat} (v : BitVec w) (n : Nat) (hw : 0 < w) :
    BitVec.ofNat w (v.toNat * 2 ^ (n % w) + v.toNat / 2 ^ (w - n % w)) = v.rotateLeft n := by
  have hr := Nat.mod_lt n hw
  have hb : v.toNat / 2 ^ (w - n % w) < 2 ^ (n % w) := by
    rw [Nat.div_lt_iff_lt_mul (by positivity), ← pow_add, Nat.add_sub_cancel' hr.le]
    exact v.isLt
  rw [Nat.mul_comm, Nat.two_pow_add_eq_or_of_lt hb, Nat.mul_comm, BitVec.ofNat_or, ofNat_shiftLeft, ofNat_shiftRight]
  rfl

/-- The count that a shift takes (R110). -/
theorem shiftCount_eq {op : ShiftOp} (t : ITy) (clamp : Bool) (n : Nat) (h : op ≠ .rot) :
    (if !clamp || decide (op = .rot) then n % t.bits else n) = Spec.shiftCount t clamp n := by
  cases clamp <;> simp [Spec.shiftCount, h]

section
variable (t : ITy) (clamp : Bool) (v : Word) (n : Nat)

theorem ext_shiftVal_shl : t.ext (shiftVal .shl t clamp v n) = Spec.shiftLeft t clamp v n := by
  simp only [shiftVal, Spec.shiftLeft, shiftCount_eq t clamp n (op := .shl) nofun]
  generalize Spec.shiftCount t clamp n = m
  split
  · cases t <;> rfl
  · rw [ITy.ext_cut, ofNat_shiftLeft]
    refine ITy.ext_congr fun k hk => ?_
    simp only [BitVec.getLsbD_shiftLeft, ITy.getLsbD_cut, show k - m < t.bits by omega, decide_true, Bool.true_and]

theorem ext_shiftVal_shr : t.ext (shiftVal .shr t clamp v n) = Spec.shiftRight t clamp v n := by
  simp only [shiftVal, Spec.shiftRight, shiftCount_eq t clamp n (op := .shr) nofun, ofNat_shiftRight]
  generalize Spec.shiftCount t clamp n = m
  split
  · refine ITy.ext_congr fun k _ => ?_
    simp [show ¬ m + k < t.bits by omega]
  · rfl

theorem ext_shiftVal_sar : t.ext (shiftVal .sar t clamp v n) = Spec.shiftArith t clamp v n := by
  simp only [shiftVal, Spec.shiftArith, shiftCount_eq t clamp n (op := .sar) nofun, ITy.ext_cut]
  generalize Spec.shiftCount t clamp n = m
  have hsign {w : Nat} (u : BitVec w) : (if w ≤ m then (if u.toInt < 0 then -1 else 0) else u.toInt / 2 ^ m) = u.toInt / 2 ^ m := by
    split
    · rw [toInt_ediv_two_pow u ‹_›]
    · rfl
  cases hw : t.wide with
  | true => simp only [ITy.bits, hw, if_true, hsign, ofInt_sshiftRight, ITy.ext_wide hw]
  | false =>
    simp only [ITy.bits, hw, Bool.false_eq_true, if_false, hsign]
    rw [ITy.ext_narrow_word hw, setWidth_ofInt, ofInt_sshiftRight]

theorem ext_shiftVal_rot : t.ext (shiftVal .rot t clamp v n) = Spec.rotateLeft t v n := by
  simp only [shiftVal, Spec.rotateLeft, decide_true, Bool.or_true, if_true, ITy.ext_cut]
  cases hw : t.wide with
  | true => simp only [ITy.bits, ITy.cut, hw, if_true, ITy.ext_wide hw, ofNat_rotateLeft v n (by decide)]
  | false =>
    rw [ITy.ext_narrow_word hw, ← ofNat_rotateLeft (v.setWidth 32) n (by decide)]
    simp [ITy.toNat_cut, ITy.bits, hw]

end

namespace Machine
open Spec

section
variable {i : Instr} {h : Hdr} {op : ShiftOp} {t : ITy} {clamp : Bool} {d a b : Operand} {imm : BitVec 22}
  {sh : Word → Nat → Word} (hb : i.bnd = h.bnd) (hv : ∀ v n, t.ext (shiftVal op t clamp v n) = sh v n)
include hb hv

theorem gives_shiftWord (he : ∀ s, exec i s = shiftWord i h op t clamp d a b s) :
    Gives i h d (fun s x l => sh (s.src x t a l) (countOf s x t b l)) :=
  (gives_aluWord hb he).congr (by simp only [hv, countOf])

theorem gives_shiftImmWord (he : ∀ s, exec i s = shiftImmWord i h op t clamp d a imm s) :
    Gives i h d (fun s x l => sh (s.src x t a l) imm.toNat) :=
  (gives_aluWord hb he).congr (by simp only [hv])

end

/-- Settles O3: each shift is one shift of w bits, by a register or by an immediate. -/
theorem shiftsAndRotates : Obligations.ShiftsAndRotates := by
  intro h f t d a b i
  have hl := ext_shiftVal_shl f.ty f.clamp
  have hr := ext_shiftVal_shr f.ty f.clamp
  have ha := ext_shiftVal_sar f.ty f.clamp
  have ho := ext_shiftVal_rot t false
  exact ⟨gives_shiftWord rfl hl fun _ => rfl, gives_shiftImmWord rfl hl fun _ => rfl, gives_shiftWord rfl hr fun _ => rfl,
    gives_shiftImmWord rfl hr fun _ => rfl, gives_shiftWord rfl ha fun _ => rfl, gives_shiftImmWord rfl ha fun _ => rfl,
    gives_shiftWord rfl ho fun _ => rfl, gives_shiftImmWord rfl ho fun _ => rfl⟩

end Machine
end Sys2Proof
end

section
namespace Sys2Proof.Machine
open Sys2Proof Sys2Proof.Spec

/-! ### Bitwise logic, addresses, moves and compares (R111 to R116) -/

section
variable {i : Instr} {h : Hdr} {t : ITy} {d a b : Operand} {imm : BitVec 22} {f : Word → Word → Word} (hb : i.bnd = h.bnd)
include hb

theorem gives_logicWord (he : ∀ s, exec i s = logicWord i h t d a b f s) :
    Gives i h d (fun s x l => t.ext (f (s.src x t a l) (s.src x t b l))) :=
  (gives_aluWord hb he).congr (by simp only [ITy.ext_cut])

/-- The immediate form of a bitwise operation, whose low w bits come from those of its operands (R111). -/
theorem gives_logicImmWord (he : ∀ s, exec i s = logicImmWord i h t d a imm f s)
    (hf : ∀ v u : Word, t.ext (f v (t.cut u)) = t.ext (f v u)) :
    Gives i h d (fun s x l => t.ext (f (s.src x t a l) (BitVec.ofInt 64 (immValue t imm)))) :=
  (gives_aluWord hb he).congr (by simp only [ITy.ext_cut, ITy.imm_eq, hf])

end

/-- Settles O4: the words of bitwise logic have two shared forms; `lea` shifts where the rule multiplies. -/
theorem bitwiseLogicAndAddress : Obligations.BitwiseLogicAndAddress := by
  intro h t f d a b i
  refine ⟨gives_logicWord rfl fun _ => rfl, gives_logicImmWord rfl (fun _ => rfl) fun v u => ITy.ext_congr fun k hk => by simp [hk],
    gives_logicWord rfl fun _ => rfl, gives_logicImmWord rfl (fun _ => rfl) fun v u => ITy.ext_congr fun k hk => by simp [hk],
    gives_logicWord rfl fun _ => rfl, gives_logicImmWord rfl (fun _ => rfl) fun v u => ITy.ext_congr fun k hk => by simp [hk],
    gives_logicWord (f := fun x y => x &&& ~~~y) rfl fun _ => rfl,
    gives_logicWord (b := .zero) (f := fun x _ => ~~~x) rfl fun _ => rfl, ?_⟩
  refine (gives_aluWord rfl fun _ => rfl).congr ?_
  have hsh (v : Word) : v <<< f.sh.toNat = v * BitVec.ofNat 64 (2 ^ f.sh.toNat) := by
    refine BitVec.eq_of_toNat_eq ?_
    rw [BitVec.toNat_shiftLeft, BitVec.toNat_mul, BitVec.toNat_ofNat, Nat.mul_mod_mod, Nat.shiftLeft_eq]
  simp only [ITy.ext_cut, hsh]; rfl

@[simp] theorem getLsbD_lowOnes (n k : Nat) : (lowOnes n).getLsbD k = (decide (k < 64) && decide (k < n)) := by
  rw [lowOnes, BitVec.getLsbD_ofNat, Nat.testBit_two_pow_sub_one]

/-- A field that is replaced, bit by bit. -/
theorem getLsbD_withField (v f : Word) (lo n k : Nat) (hk : k < 64) : (withField v lo n f).getLsbD k =
    if lo ≤ k ∧ k < lo + n then f.getLsbD (k - lo) else v.getLsbD k := by
  simp only [withField, BitVec.getLsbD_or, BitVec.getLsbD_and, BitVec.getLsbD_not, BitVec.getLsbD_shiftLeft, getLsbD_lowOnes, hk,
    decide_true, Bool.true_and]
  by_cases hlo : k < lo
  · simp [hlo]
  · by_cases hn : k < lo + n
    · simp [hlo, hn, show k - lo < n by omega, show k - lo < 64 by omega, show lo ≤ k by omega]
    · simp [hlo, hn, show ¬ k - lo < n by omega]

theorem setWidth_and_lowOnes (i : BitVec 22) (n : Nat) : i.setWidth 64 &&& lowOnes n = (i.setWidth n).setWidth 64 := by
  refine BitVec.eq_of_getLsbD_eq fun k hk => ?_
  by_cases h : k < n
  · simp only [BitVec.getLsbD_and, BitVec.getLsbD_setWidth, getLsbD_lowOnes, h, hk, decide_true, Bool.true_and, Bool.and_true]
  · simp [h]

/-- `movhi` in a destination of 64 bits, and the second field of any: one field of the word is replaced (R113). -/
theorem withField_eq_movhi (v : Word) (i : BitVec 22) (lo n : Nat) :
    withField v lo n (i.setWidth 64) = (v &&& ~~~(lowOnes n <<< lo)) ||| ((i.setWidth n).setWidth 64 <<< lo) := by
  rw [withField, setWidth_and_lowOnes i n]

theorem movhiVal_eq (f : Half) (wide : Bool) (v : Word) (i : BitVec 22) : movhiVal f wide v i =
    match f, wide with
    | .h1, true => withField v 22 22 (i.setWidth 64)
    | .h1, false => withField v 22 10 (i.setWidth 64) &&& 0xFFFFFFFF
    | .h2, _ => withField v 44 20 (i.setWidth 64) := by
  match f, wide with
  | .h1, true => exact (BitVec.setWidth_eq i ▸ withField_eq_movhi v i 22 22).symm
  | .h2, _ => exact (withField_eq_movhi v i 44 20).symm
  | .h1, false =>
    have hlow : (0x3FFFFF#64 : Word) = lowOnes 22 ∧ (0xFFFFFFFF : Word) = lowOnes 32 := by decide
    refine BitVec.eq_of_getLsbD_eq fun k hk => ?_
    simp only [movhiVal, hlow, BitVec.getLsbD_or, BitVec.getLsbD_and, BitVec.getLsbD_shiftLeft, getLsbD_lowOnes, getLsbD_withField, hk,
      BitVec.getLsbD_setWidth, decide_true, Bool.true_and]
    by_cases h₁ : k < 22
    · simp [h₁, show k < 32 by omega, show ¬ 22 ≤ k by omega]
    · by_cases h₂ : k < 32
      · simp [h₁, h₂, show k - 22 < 10 by omega, show k - 22 < 64 by omega, show 22 ≤ k by omega]
      · simp [h₁, h₂, show ¬ k - 22 < 10 by omega]

theorem movesAndSelection : Spec.MovesAndSelection := by
  intro h t hi d a b c i
  refine ⟨(gives_aluWord rfl fun _ => rfl).congr ?_, (gives_aluWord rfl fun _ => rfl).congr ?_, gives_aluWord rfl fun _ => rfl,
    gives_aluWord rfl fun _ => rfl⟩
  · simp only [ITy.imm_eq, ITy.ext_cut]
  · exact funext fun s => funext fun x => funext fun l => movhiVal_eq ..

/-- The conditions of R116 on the values of two words. -/
theorem icmpHolds_eq (cc : Cond) (t : ITy) (p q : Word) :
    let u : ITy := if t.wide then .u64 else .u32
    let n : ITy := if t.wide then .s64 else .s32
    icmpHolds cc t.wide p q = match cc with
      | .eq => decide (u.val p = u.val q)
      | .ne => decide (u.val p ≠ u.val q)
      | .lt => decide (n.val p < n.val q)
      | .le => decide (n.val p ≤ n.val q)
      | .gt => decide (n.val p > n.val q)
      | .ge => decide (n.val p ≥ n.val q)
      | .ltu => decide (u.val p < u.val q)
      | .geu => decide (u.val p ≥ u.val q) := by
  cases cc <;> cases t.wide <;> simp [icmpHolds, ITy.val, -BitVec.toNat_setWidth]

/-- A compare looks at the w bits alone. -/
theorem icmpHolds_cut (cc : Cond) (t : ITy) (p q : Word) : icmpHolds cc t.wide p (t.cut q) = icmpHolds cc t.wide p q := by
  have hq : (t.cut q).setWidth 32 = q.setWidth 32 := by
    cases hw : t.wide <;> simp [ITy.cut, hw]
  cases hw : t.wide with
  | true => rw [ITy.cut, if_pos hw]
  | false => simp only [icmpHolds, hq, Bool.false_eq_true, if_false]

theorem integerCompare : Spec.IntegerCompare := by
  intro h f d a b i u n holds
  have hc (p q : Word) : icmpHolds f.cc f.ty.wide p q = holds p q := icmpHolds_eq ..
  refine ⟨(gives_aluWord rfl fun _ => rfl).congr ?_, (gives_aluWord rfl fun _ => rfl).congr ?_⟩
  · simp only [hc]
  · simp only [ITy.imm_eq, icmpHolds_cut]
    simp only [hc]

/-- Settles O5: moves, selection and compares, each an `aluWord` of the value that its rule gives. -/
theorem movesSelectionAndCompare : Obligations.MovesSelectionAndCompare := ⟨movesAndSelection, integerCompare⟩

end Sys2Proof.Machine
end

section
namespace Sys2Proof.Machine
open Sys2Proof Sys2Proof.Spec

/-! ### Add with carry, subtract with borrow (R109) -/

/-- The type that an add with carry reads its sources under. -/
def carryTy (f : FnCy) : ITy := if f.wide then .u64 else .u32

theorem val_carryTy (f : FnCy) (v : Word) : (carryTy f).val v = ((carryTy f).cut v).toNat := by
  unfold carryTy
  cases f.wide with
  | true => rfl
  | false => simp [ITy.val, ITy.cut, ITy.wide]; omega

/-- The carries of some lanes, in the predicate that CO names. -/
def Group.writeCarry (x : Group) (co : Option (Fin 8)) (lanes : List Nat) (out : Nat → Bool) : Group :=
  match co with
  | some p => x.write (.p p) lanes (fun l => if out l then 1 else 0)
  | none => x

theorem Group.writeCarry_spec (x : Group) (co : Option (Fin 8)) (lanes : List Nat) (out : Nat → Bool) :
    match co with
    | some p => Wrote x (x.writeCarry co lanes out) (.p p) lanes (fun l => if out l then 1 else 0)
    | none => x.writeCarry co lanes out = x := by
  cases co with
  | some p => exact x.wrote_write (.p p) lanes _
  | none => rfl

section
variable {i : Instr} {h : Hdr} {f : FnCy} {d a b c : Operand} {s : State} {g : Nat}
  {op : ITy → Word → Word → Bool → Word × Bool} {e : Nat → Int} {out : Nat → Bool}

/-- The word writes the result of w bits, and then the carry, in the same lanes. -/
theorem exec_carryWord (hb : i.bnd = h.bnd) (he : exec i s = carryWord i h f d a b c op s) (hs : s.Stands g i) (hg : s.Guarded g h)
    (hop : ∀ l, op (carryTy f) (s.src (s.grp g) (carryTy f) a l) (s.src (s.grp g) (carryTy f) b l) ((s.grp g).predOf c l) =
      ((carryTy f).cut (BitVec.ofInt 64 (e l)), out l)) :
    ∃ y z, exec i s = .next ((s.setGrp g z).retire g h.bnd .on) ∧
      Wrote (s.grp g) y d (s.lanesFor g h) (fun l => result (carryTy f) false (e l)) ∧
      (match f.co with
       | some p => Wrote y z (.p p) (s.lanesFor g h) (fun l => if out l then 1 else 0)
       | none => z = y) := by
  have hcut (l : Nat) : (carryTy f).cut (BitVec.ofInt 64 (e l)) = result (carryTy f) false (e l) := by
    unfold result carryTy
    cases f.wide <;> rfl
  have ht : (if f.wide = true then ITy.u64 else ITy.u32) = carryTy f := rfl
  refine ⟨(s.grp g).write d (s.lanesFor g h) _, _, ?_, Group.wrote_write .., Group.writeCarry_spec ..⟩
  rw [he, carryWord, dataWord_stands hs hg, hb]
  simp only [ht, hop, hcut]
  rfl

end

theorem addCarry_eq (f : FnCy) (p q : Word) (c : Bool) :
    addCarry (carryTy f) p q c =
      let e : Int := (carryTy f).val p + (carryTy f).val q + (if c then 1 else 0)
      ((carryTy f).cut (BitVec.ofInt 64 e), decide (2 ^ (carryTy f).bits ≤ e)) := by
  have he : (carryTy f).val p + (carryTy f).val q + (if c then 1 else 0) =
      (((carryTy f).cut p).toNat + ((carryTy f).cut q).toNat + (if c then 1 else 0) : Nat) := by
    simp only [val_carryTy]; cases c <;> rfl
  simp only [addCarry, he, BitVec.ofInt_natCast]
  norm_cast

theorem subBorrow_eq (f : FnCy) (p q : Word) (c : Bool) :
    subBorrow (carryTy f) p q c =
      let e : Int := (carryTy f).val p - (carryTy f).val q - (if c then 1 else 0)
      ((carryTy f).cut (BitVec.ofInt 64 e), decide (e < 0)) := by
  simp only [subBorrow, val_carryTy]

/-- Settles O2: both words write a sum or a difference of unsigned values, and the bit that it leaves over. -/
theorem carryAndBorrow : Obligations.CarryAndBorrow := by
  intro h f d a b c s g x t ls sum dif both
  exact ⟨fun hs hg => exec_carryWord rfl rfl hs hg fun l => addCarry_eq ..,
    fun hs hg => exec_carryWord rfl rfl hs hg fun l => subBorrow_eq ..⟩

end Sys2Proof.Machine
end

section
namespace Sys2Proof.Machine
open Sys2Proof Sys2Proof.Spec

/-! ### Counts of bits and their reversal (R117) -/

theorem countP_range_lt (i w : Nat) : (List.range w).countP (fun k => decide (k < i)) = min i w := by
  induction w with
  | zero => simp
  | succ w ih => rw [List.range_succ, List.countP_append, ih, List.countP_singleton]; split <;> simp_all <;> omega

theorem countP_range_ge (i w : Nat) : (List.range w).countP (fun k => decide (i ≤ k)) = w - i := by
  induction w with
  | zero => simp
  | succ w ih => rw [List.range_succ, List.countP_append, ih, List.countP_singleton]; split <;> simp_all <;> omega

section
variable {w : Nat} {v u : Word} (hv : ∀ k < w, v.getLsbD k = u.getLsbD k)
include hv

/-- The bits below the lowest 1 bit are those with no 1 bit at or below them. -/
theorem lowZeros_eq : lowZeros w v =
    (List.range w).countP (fun k => (List.range w).all (fun j => decide (k < j) || !u.getLsbD j)) := by
  unfold lowZeros
  cases hf : (List.range w).find? (fun k => v.getLsbD k) with
  | none =>
    have hall : ∀ k < w, u.getLsbD k = false := fun k hk => by
      simpa [hv k hk] using List.find?_range_eq_none.mp hf k hk
    rw [Option.getD_none, List.countP_eq_length.mpr fun k _ => List.all_eq_true.mpr fun j hj => by
      simp [hall j (List.mem_range.mp hj)], List.length_range]
  | some i =>
    obtain ⟨hi, hw, hlow⟩ := List.find?_range_eq_some.mp hf
    have hw := List.mem_range.mp hw
    rw [Option.getD_some, List.countP_congr (q := fun k => decide (k < i)) fun k hk => ?_, countP_range_lt, Nat.min_eq_left hw.le]
    simp only [List.all_eq_true, List.mem_range, Bool.or_eq_true, decide_eq_true_eq, Bool.not_eq_true']
    refine ⟨fun h => (h i hw).resolve_right fun hn => ?_, fun hki j hj => ?_⟩
    · rw [hv i hw, hn] at hi; cases hi
    · by_cases hkj : k < j
      · exact .inl hkj
      · exact .inr (by simpa [hv j hj] using hlow j (by omega))

/-- The bits above the highest 1 bit are those with no 1 bit at or above them. -/
theorem highZeros_eq : highZeros w v =
    (List.range w).countP (fun k => (List.range w).all (fun j => decide (j < k) || !u.getLsbD j)) := by
  unfold highZeros
  cases hf : (List.range w).find? (fun k => v.getLsbD (w - 1 - k)) with
  | none =>
    have hall : ∀ j < w, u.getLsbD j = false := fun j hj => by
      have := List.find?_range_eq_none.mp hf (w - 1 - j) (by omega)
      rwa [show w - 1 - (w - 1 - j) = j by omega, hv j hj, Bool.not_eq_true'] at this
    rw [Option.getD_none, List.countP_eq_length.mpr fun k _ => List.all_eq_true.mpr fun j hj => by
      simp [hall j (List.mem_range.mp hj)], List.length_range]
  | some i =>
    obtain ⟨hi, hw, hhigh⟩ := List.find?_range_eq_some.mp hf
    have hw := List.mem_range.mp hw
    rw [Option.getD_some, List.countP_congr (q := fun k => decide (w - i ≤ k)) fun k hk => ?_, countP_range_ge, Nat.sub_sub_self hw.le]
    simp only [List.all_eq_true, List.mem_range, Bool.or_eq_true, decide_eq_true_eq, Bool.not_eq_true']
    refine ⟨fun h => ?_, fun hki j hj => ?_⟩
    · have := (h (w - 1 - i) (by omega)).resolve_right fun hn => by
        rw [hv _ (by omega), hn] at hi; cases hi
      omega
    · by_cases hjk : j < k
      · exact .inl hjk
      · have := hhigh (w - 1 - j) (by omega)
        rw [show w - 1 - (w - 1 - j) = j by omega, hv j hj, Bool.not_eq_true'] at this
        exact .inr this

end

theorem popCount_cut (t : ITy) (v : Word) : popCount (t.cut v) = (List.range t.bits).countP (fun k => v.getLsbD k) := by
  have hsplit : List.range 64 = List.range (t.bits + (64 - t.bits)) := by rw [Nat.add_sub_cancel' t.bits_le]
  have hlow : (List.range t.bits).countP (fun k => (t.cut v).getLsbD k) = (List.range t.bits).countP (fun k => v.getLsbD k) :=
    List.countP_congr fun k hk => by simp [List.mem_range.mp hk]
  have hhigh : (List.range (64 - t.bits)).countP ((fun k => (t.cut v).getLsbD k) ∘ (t.bits + ·)) = 0 :=
    List.countP_eq_zero.mpr fun k _ => by simp
  rw [popCount, ← List.countP_eq_length_filter, hsplit, List.range_add, List.countP_append, List.countP_map, hlow, hhigh, Nat.add_zero]

theorem getLsbD_one_shiftLeft {m : Nat} (hm : m < 64) (k : Nat) : (1#64 <<< m).getLsbD k = decide (k = m) := by
  rw [← BitVec.twoPow_eq, BitVec.getLsbD_twoPow]
  by_cases hk : k = m
  · simp [hk, hm]
  · simp [hk, Ne.symm hk]

/-- After `n` of its steps the reversal holds the lowest `n` bits, at the top. -/
theorem getLsbD_bitReverse {w : Nat} (hw : w ≤ 64) (v : Word) (k : Nat) :
    (bitReverse w v).getLsbD k = (decide (k < w) && v.getLsbD (w - 1 - k)) := by
  have key := foldl_range_induction
    (fun n (c : Word) => n ≤ w → c.getLsbD k = (decide (k < w ∧ w - 1 - k < n) && v.getLsbD (w - 1 - k)))
    (f := fun (c : Word) k => if v.getLsbD k then c ||| (1#64 <<< (w - 1 - k)) else c) (b := 0) (by simp) (fun n c ih hn => ?_) w le_rfl
  · rw [bitReverse, key]
    congr 1
    simp; omega
  · have ih := ih (by omega)
    have hone := getLsbD_one_shiftLeft (show w - 1 - n < 64 by omega) k
    by_cases hk : k = w - 1 - n
    · have hkn : w - 1 - k = n := by omega
      have hc : c.getLsbD k = false := by rw [ih, hkn]; simp
      rw [decide_eq_true hk] at hone
      rw [hkn, decide_eq_true (by omega), Bool.true_and]
      cases hb : v.getLsbD n <;> simp [hc, hone]
    · have hiff : (k < w ∧ w - 1 - k < n + 1) ↔ (k < w ∧ w - 1 - k < n) := by omega
      rw [decide_eq_decide.mpr hiff, ← ih]
      split <;> simp [hone, hk]

theorem bitReverse_cut (t : ITy) (v : Word) : t.ext (bitReverse t.bits (t.cut v)) =
    if t.wide then v.reverse else t.ext (((v.setWidth 32).reverse).setWidth 64) := by
  cases hw : t.wide with
  | true =>
    rw [if_pos rfl, ITy.ext_wide hw]
    refine BitVec.eq_of_getLsbD_eq fun k hk => ?_
    have hb : t.bits = 64 := by simp [ITy.bits, hw]
    rw [getLsbD_bitReverse t.bits_le]
    simp only [BitVec.getLsbD_reverse, BitVec.getMsbD_eq_getLsbD, ITy.getLsbD_cut, hb, hk, show 64 - 1 - k < 64 by omega, decide_true,
      Bool.true_and]
  | false =>
    rw [if_neg (by decide)]
    refine ITy.ext_congr fun k hk => ?_
    have hb : t.bits = 32 := by simp [ITy.bits, hw]
    rw [hb] at hk
    rw [getLsbD_bitReverse t.bits_le]
    simp only [BitVec.getLsbD_setWidth, BitVec.getLsbD_reverse, BitVec.getMsbD_eq_getLsbD, ITy.getLsbD_cut, hb, hk,
      show k < 64 by omega, show 32 - 1 - k < 32 by omega, decide_true, Bool.true_and]

/-- Settles O6: each word is a `bitWord` of one count over the w bits, or of their reversal. -/
theorem countsAndReversal : Obligations.CountsAndReversal := by
  intro h t d a w val
  have hcut (v : Word) (k : Nat) (hk : k < t.bits) : (t.cut v).getLsbD k = v.getLsbD k := by
    rw [ITy.getLsbD_cut, decide_eq_true hk, Bool.true_and]
  refine ⟨(gives_aluWord rfl fun _ => rfl).congr ?_, (gives_aluWord rfl fun _ => rfl).congr ?_,
    (gives_aluWord rfl fun _ => rfl).congr ?_, (gives_aluWord rfl fun _ => rfl).congr ?_⟩
  · simp only [popCount_cut]; rfl
  · simp only [highZeros_eq (hcut _)]; rfl
  · simp only [lowZeros_eq (hcut _)]; rfl
  · simp only [bitReverse_cut]

end Sys2Proof.Machine
end

section
namespace Sys2Proof.Machine
open Sys2Proof Sys2Proof.Spec

/-! ### Fields, bytes and predicates (R118 to R121) -/

theorem fieldAt_length_le (t : ITy) (k : Word) : (fieldAt t.bits k).2 ≤ 64 := by
  have := t.bits_le
  simp only [fieldAt]
  split <;> omega

theorem two_pow_le {n : Nat} (hn : n ≤ 64) : 2 ^ n ≤ 2 ^ 64 := Nat.pow_le_pow_right (by decide) hn

theorem toNat_lowOnes {n : Nat} (hn : n ≤ 64) : (lowOnes n).toNat = 2 ^ n - 1 := by
  have := two_pow_le hn
  rw [lowOnes, BitVec.toNat_ofNat, Nat.mod_eq_of_lt (by omega)]

/-- Ones above a field of `n` bits take 2^n from its number. -/
theorem or_not_lowOnes {f n : Nat} (hf : f < 2 ^ n) (hn : n ≤ 64) :
    BitVec.ofNat 64 f ||| ~~~lowOnes n = BitVec.ofInt 64 ((f : Int) - 2 ^ n) := by
  have hand : BitVec.ofNat 64 f &&& ~~~lowOnes n = 0 := by
    refine BitVec.eq_of_getLsbD_eq fun k hk => ?_
    simp only [BitVec.getLsbD_and, BitVec.getLsbD_not, BitVec.getLsbD_ofNat, getLsbD_lowOnes, hk, decide_true, Bool.true_and]
    by_cases hkn : k < n
    · simp [hkn]
    · simp [Nat.testBit_lt_two_pow (hf.trans_le (Nat.pow_le_pow_right (by decide) (Nat.le_of_not_lt hkn)))]
  have hp := two_pow_le hn
  have hc : ((2 : Int) ^ n) = ((2 ^ n : Nat) : Int) := by push_cast; rfl
  rw [← BitVec.add_eq_or_of_and_eq_zero _ _ hand, hc]
  refine BitVec.eq_of_toNat_eq ?_
  rw [BitVec.toNat_add, BitVec.toNat_not, toNat_lowOnes hn, BitVec.toNat_ofNat, BitVec.toNat_ofInt]
  generalize 2 ^ n = p at *
  omega

/-- The top bit of a number of `n + 1` bits. -/
theorem testBit_top {f n : Nat} (hf : f < 2 ^ (n + 1)) : f.testBit n = decide (2 ^ n ≤ f) := by
  by_cases h : 2 ^ n ≤ f
  · rw [decide_eq_true h, Nat.testBit_of_two_pow_le_and_two_pow_add_one_gt h hf]
  · rw [decide_eq_false h, Nat.testBit_lt_two_pow (by omega)]

/-- `bfx` by the number of the field (R118). -/
theorem ext_bfxVal (t : ITy) (v k : Word) :
    let n := (fieldAt t.bits k).2
    let f := (t.cut v).toNat / 2 ^ (fieldAt t.bits k).1 % 2 ^ n
    t.ext (bfxVal t v k) = t.ext (BitVec.ofInt 64 (if t.signed ∧ 0 < n ∧ 2 ^ (n - 1) ≤ f then (f : Int) - 2 ^ n else f)) := by
  intro n f
  have hn : n ≤ 64 := fieldAt_length_le t k
  have hf : f < 2 ^ n := Nat.mod_lt _ (by positivity)
  have hfield : (t.cut v >>> (fieldAt t.bits k).1) &&& lowOnes n = BitVec.ofNat 64 f := by
    refine BitVec.eq_of_toNat_eq ?_
    rw [BitVec.toNat_and, toNat_lowOnes hn, Nat.and_two_pow_sub_one_eq_mod, BitVec.toNat_ushiftRight, Nat.shiftRight_eq_div_pow,
      BitVec.toNat_ofNat, Nat.mod_eq_of_lt (hf.trans_le (two_pow_le hn))]
  have hval : bfxVal t v k = if n = 0 then 0 else
      t.cut (if t.signed && (BitVec.ofNat 64 f).getLsbD (n - 1) then BitVec.ofNat 64 f ||| ~~~lowOnes n else BitVec.ofNat 64 f) :=
    hfield ▸ rfl
  rw [hval]
  by_cases h0 : n = 0
  · have hf0 : f = 0 := by rw [h0] at hf; omega
    simp [h0, hf0]
  · have htop : (BitVec.ofNat 64 f).getLsbD (n - 1) = decide (2 ^ (n - 1) ≤ f) := by
      rw [BitVec.getLsbD_ofNat, decide_eq_true (by omega), Bool.true_and, testBit_top (by rwa [Nat.sub_add_cancel (by omega)])]
    have hcond : (t.signed && decide (2 ^ (n - 1) ≤ f)) = true ↔ t.signed ∧ 0 < n ∧ 2 ^ (n - 1) ≤ f := by
      simp [Nat.pos_of_ne_zero h0]
    rw [if_neg h0, ITy.ext_cut, htop]
    by_cases hc : t.signed ∧ 0 < n ∧ 2 ^ (n - 1) ≤ f
    · rw [if_pos (hcond.mpr hc), if_pos hc, or_not_lowOnes hf hn]
    · rw [if_neg (hcond.not.mpr hc), if_neg hc, BitVec.ofInt_natCast]

/-- The byte that a selector of `permb` names, as a number. -/
theorem bits_eq_byteOf (a b : Word) {q : Nat} (hq : q < 8) :
    bits ((b.setWidth 32 ++ a.setWidth 32 : BitVec 64)) (8 * q) 8 = (byteOf a b q).toNat := by
  rw [bits]
  congr 1
  refine BitVec.eq_of_getLsbD_eq fun k hk => ?_
  have happ := BitVec.getLsbD_append (x := b.setWidth 32) (y := a.setWidth 32) (i := 8 * q + k)
  rw [BitVec.getLsbD_extractLsb', decide_eq_true hk, Bool.true_and]
  refine happ.trans ?_
  unfold byteOf
  by_cases hq4 : q < 4
  · simp [hk, hq4, show 8 * q + k < 32 by omega]
  · simp [hk, hq4, show ¬ 8 * q + k < 32 by omega, show 8 * q + k - 32 = 8 * (q - 4) + k by omega, show 8 * (q - 4) + k < 32 by omega]

theorem permByte_toNat (a b k : Word) (i : Nat) :
    (if k.getLsbD (16 + i) then 0
     else if bits k (4 * i) 4 < 8 then bits ((b.setWidth 32 ++ a.setWidth 32 : BitVec 64)) (8 * (bits k (4 * i) 4 % 8)) 8
     else if 128 ≤ bits ((b.setWidth 32 ++ a.setWidth 32 : BitVec 64)) (8 * (bits k (4 * i) 4 % 8)) 8 then 0xFF else 0) =
      (permByte a b k i).toNat := by
  have hq : bits k (4 * i) 4 < 16 := (k.extractLsb' (4 * i) 4).isLt
  simp only [permByte, bits_eq_byteOf a b (Nat.mod_lt _ (by decide : 0 < 8))]
  generalize bits k (4 * i) 4 = q at *
  by_cases hz : k.getLsbD (16 + i) = true
  · rw [if_pos hz, if_pos hz]; rfl
  · rw [if_neg hz, if_neg hz]
    by_cases h8 : q < 8
    · rw [if_pos h8, if_pos h8, Nat.mod_eq_of_lt h8]
    · have htop : 128 ≤ (byteOf a b (q - 8)).toNat ↔ (byteOf a b (q - 8)).getLsbD 7 = true := by
        rw [← BitVec.testBit_toNat, testBit_top (n := 7) (byteOf a b (q - 8)).isLt, decide_eq_true_eq]; norm_num
      rw [if_neg h8, if_neg h8, show q % 8 = q - 8 by omega]
      simp only [htop]
      split <;> rfl

/-- Four bytes put in their places are the word that they make. -/
theorem bytes_in_places (y : Nat → BitVec 8) :
    (List.range 4).foldl (fun (r : Word) i => r ||| BitVec.ofNat 64 ((y i).toNat * 2 ^ (8 * i))) 0 =
      (y 3 ++ y 2 ++ y 1 ++ y 0 : BitVec 32).setWidth 64 := by
  refine BitVec.eq_of_getLsbD_eq fun k hk => ?_
  have h₁ := BitVec.getLsbD_append (x := y 3 ++ y 2 ++ y 1) (y := y 0) (i := k)
  have h₂ := BitVec.getLsbD_append (x := y 3 ++ y 2) (y := y 1) (i := k - 8)
  have h₃ := BitVec.getLsbD_append (x := y 3) (y := y 2) (i := k - 8 - 8)
  have hbyte (i : Nat) : (BitVec.ofNat 64 ((y i).toNat * 2 ^ (8 * i))).getLsbD k = (decide (8 * i ≤ k) && (y i).getLsbD (k - 8 * i)) := by
    rw [BitVec.getLsbD_ofNat, decide_eq_true hk, Bool.true_and, Nat.testBit_mul_two_pow, BitVec.testBit_toNat]
  rw [BitVec.getLsbD_setWidth, decide_eq_true hk, Bool.true_and]
  refine Eq.trans ?_ h₁.symm
  rw [h₂, h₃]
  simp only [List.range_succ, List.range_zero, List.nil_append, List.cons_append, List.foldl_cons, List.foldl_nil, BitVec.getLsbD_or, hbyte]
  have hge (i : Nat) (h : 8 * (i + 1) ≤ k) : (y i).getLsbD (k - 8 * i) = false := BitVec.getLsbD_of_ge _ _ (by omega)
  have hsub : k - 8 - 8 = k - 8 * 2 ∧ k - 8 - 8 - 8 = k - 8 * 3 := by omega
  have hz : (0 : Word).getLsbD k = false := BitVec.getLsbD_zero
  grind

theorem permbVal_eq (a b k : Word) : permbVal a b k =
    (permByte a b k 3 ++ permByte a b k 2 ++ permByte a b k 1 ++ permByte a b k 0 : BitVec 32).setWidth 64 := by
  rw [← bytes_in_places (permByte a b k)]
  simp only [permbVal, ← permByte_toNat]

theorem fieldsAndBytes : Spec.FieldsAndBytes := by
  intro h t d a b c i w field perm
  refine ⟨(gives_aluWord rfl fun _ => rfl).congr ?_, (gives_aluWord rfl fun _ => rfl).congr ?_,
    (gives_aluWord rfl fun _ => rfl).congr ?_, (gives_aluWord rfl fun _ => rfl).congr ?_⟩
  · simp only [ext_bfxVal]; rfl
  · simp only [bfiVal, ITy.ext_cut]; rfl
  · simp only [permbVal_eq]; rfl
  · simp only [permbVal_eq]; rfl

/-- What `pmov` leaves in the predicates: those of a beat, in every lane of it (R121). -/
theorem Group.preg_setP_maskPut (x : Group) (n m : Fin 8) (k : Fin 3) (v : BitVec 32) (hm : m.val < 7) {l : Nat} (hl : l < 96) :
    ((x.setP n (maskPut (x.preg n) k v)).preg m).getLsbD l =
      if m = n ∧ l / 32 = k.val then v.getLsbD (l % 32) else (x.preg m).getLsbD l := by
  by_cases hmn : m = n
  · subst hmn
    have hset : (x.setP m (maskPut (x.preg m) k v)).preg m = maskPut (x.preg m) k v := by simp [preg, setP, hm]
    rw [hset, getLsbD_maskPut _ _ _ k.isLt l hl]
    simp
  · have hne : m.val ≠ n.val := fun h => hmn (Fin.ext h)
    simp [preg, setP, hm, hmn, Tab.get_set, hne]

/-- What the body of `pmov` makes of a group, for either direction. -/
def pmoved (s : State) (x : Group) (k : Fin 3) (d a : Operand) : Group :=
  match d with
  | .p n => x.setP n (maskPut (x.preg n) k ((s.rd x a 0).setWidth 32))
  | d => x.write d [0] (fun _ => ((x.predMask a).extractLsb' (32 * k.val) 32).setWidth 64)

theorem wrote_pmoved (s : State) (x : Group) (k : Fin 3) {d : Operand} (a : Operand) (hd : ∀ n, d ≠ .p n) :
    Wrote x (pmoved s x k d a) d [0] (fun _ => ((x.predMask a).extractLsb' (32 * k.val) 32).setWidth 64) := by
  unfold pmoved
  split
  · exact absurd rfl (hd _)
  · exact x.wrote_write ..

theorem exec_pmov (h : Hdr) (k : Fin 3) (d a : Operand) (s : State) :
    exec (.pmov h k d a) s = uniWord (.pmov h k d a) h s (fun s g x => (s.setGrp g (pmoved s x k d a), .on)) := by
  cases d <;> rfl

theorem bnd_pmov (h : Hdr) (k : Fin 3) (d a : Operand) : (Instr.pmov h k d a).bnd = h.bnd := by
  cases d <;> rfl

theorem predicates : Spec.Predicates := by
  intro h f k d a b bit pa pb
  refine ⟨gives_aluWord rfl fun _ => rfl, gives_aluWord rfl fun _ => rfl, gives_aluWord rfl fun _ => rfl, gives_aluWord rfl fun _ => rfl,
    fun s g hs hg => ⟨_, exec_uniWord_run hs (exec_pmov ..) (bnd_pmov ..) hg, ?_⟩⟩
  cases d with
  | p n =>
    refine ⟨rfl, rfl, fun m hm l hl => ?_⟩
    rw [pmoved, Group.preg_setP_maskPut _ _ _ _ _ hm hl, BitVec.getLsbD_setWidth, decide_eq_true (Nat.mod_lt _ (by decide)),
      Bool.true_and]
  | v n | s n | c n | spec n | a n | rsvd n | zero => exact wrote_pmoved _ _ _ _ nofun

/-- Settles O7: fields by their numbers, bytes in their places, and predicates bit by bit. -/
theorem fieldsBytesAndPredicates : Obligations.FieldsBytesAndPredicates := ⟨fieldsAndBytes, predicates⟩

end Sys2Proof.Machine
end

section
namespace Sys2Proof
open Sys2Proof.Machine

/-! ### The value of w bits (R104, R125) -/

theorem ITy.val_cut (t : ITy) (v : Word) : t.val (t.cut v) = t.val v := by
  cases t <;> simp [ITy.val, ITy.cut, ITy.wide, BitVec.setWidth_setWidth_of_le]

theorem ITy.val_congr {t : ITy} {v u : Word} (h : ∀ k < t.bits, v.getLsbD k = u.getLsbD k) : t.val v = t.val u := by
  have hcut : t.cut v = t.cut u := BitVec.eq_of_getLsbD_eq fun k _ => by
    by_cases hk : k < t.bits <;> simp [hk, h]
  rw [← t.val_cut v, hcut, t.val_cut]

/-- The pattern of a value is the w bits that it was read from. -/
theorem ITy.cut_ofInt_val (t : ITy) (v : Word) : t.cut (BitVec.ofInt 64 (t.val v)) = t.cut v := by
  cases t with
  | u32 => simp [val, cut, wide, BitVec.ofInt_natCast, -BitVec.toNat_setWidth]
  | s32 => simp only [val, cut, wide, Bool.false_eq_true, if_false, setWidth_ofInt, BitVec.ofInt_toInt]
  | u64 => simp only [val, BitVec.ofInt_natCast, BitVec.ofNat_toNat, BitVec.setWidth_eq]
  | s64 => simp only [val, BitVec.ofInt_toInt]

theorem ITy.getLsbD_ofInt_val (t : ITy) (v : Word) {k : Nat} (hk : k < t.bits) :
    (BitVec.ofInt 64 (t.val v)).getLsbD k = v.getLsbD k := by
  have := congrArg (·.getLsbD k) (t.cut_ofInt_val v)
  simpa [hk] using this

end Sys2Proof

namespace Sys2Proof.Machine
open Sys2Proof Sys2Proof.Spec

/-! ### Lanes of a mask -/

theorem mem_lanesOf {m : Mask} {l : Nat} : l ∈ lanesOf m ↔ m.getLsbD l = true := by
  rw [lanesOf, List.mem_filter, List.mem_range, and_iff_right_iff_imp]
  exact fun h => Nat.lt_of_not_le fun hl => by rw [BitVec.getLsbD_of_ge _ _ hl] at h; cases h

theorem lanesOf_lt {m : Mask} {l : Nat} (h : l ∈ lanesOf m) : l < 96 := List.mem_range.mp (List.mem_filter.mp h).1

theorem pairwise_lanesOf (m : Mask) : (lanesOf m).Pairwise (· < ·) := List.pairwise_lt_range.filter _

theorem lanesFor_lt {s : State} {g : Nat} {h : Hdr} {l : Nat} (hl : l ∈ s.lanesFor g h) : l < 96 := by
  unfold State.lanesFor at hl
  split at hl
  · rw [List.mem_singleton.mp hl]; decide
  · exact lanesOf_lt hl

/-- A word that gives a value gives one that is equal in every lane. -/
theorem Gives.congr_lanes {i : Instr} {h : Hdr} {d : Operand} {val val' : State → Group → Nat → Word} (hv : Gives i h d val)
    (he : ∀ s x l, l < 96 → val s x l = val' s x l) : Gives i h d val' := by
  intro s g hs hg
  obtain ⟨y, hy, hw⟩ := hv s g hs hg
  exact ⟨y, hy, hw.congr fun l hl => he _ _ _ (lanesFor_lt hl)⟩

/-! ### Reductions and prefixes (R125) -/

/-- The reduction that the model makes, lane by lane. -/
def reduced (op : RedOp) (t : ITy) (get : Nat → Int) (acc : Int) (lanes : List Nat) : Int :=
  lanes.foldl (fun acc l => RedOp.app op t acc (get l)) acc

/-- A bitwise reduction of values is that of the words that they were read from. -/
theorem reduced_words {op : RedOp} {t : ITy} {f : Word → Word → Word} {src : Nat → Word}
    (hf : ∀ p q, RedOp.app op t (t.val p) (t.val q) = t.val (f p q)) (lanes : List Nat) (w : Word) :
    reduced op t (fun l => t.val (src l)) (t.val w) lanes = t.val ((lanes.map src).foldl f w) := by
  induction lanes generalizing w with
  | nil => rfl
  | cons l ls ih => rw [List.map_cons, List.foldl_cons, ← ih, ← hf]; rfl

theorem reduced_eq_reduce (op : RedOp) (t : ITy) (s : State) (x : Group) (a : Operand) (lanes : List Nat) :
    reduced op t (value s x t a) (RedOp.id op t) lanes = reduce op t s x a lanes := by
  cases op with
  | add =>
    simp only [reduced, reduce, RedOp.id, RedOp.app, List.sum_eq_foldl, List.foldl_map]
  | min => simp only [reduced, reduce, RedOp.id, RedOp.app, List.foldl_map]
  | max => simp only [reduced, reduce, RedOp.id, RedOp.app, List.foldl_map]
  | and =>
    have hid : RedOp.id .and t = t.val (BitVec.allOnes 64) := by cases t <;> decide
    rw [hid]
    exact reduced_words (op := .and) (f := fun p q => p &&& q)
      (fun p q => ITy.val_congr fun k hk => by simp only [BitVec.getLsbD_and, t.getLsbD_ofInt_val _ hk]) lanes _
  | or =>
    have hid : RedOp.id .or t = t.val 0 := by cases t <;> decide
    rw [hid]
    exact reduced_words (op := .or) (f := fun p q => p ||| q)
      (fun p q => ITy.val_congr fun k hk => by simp only [BitVec.getLsbD_or, t.getLsbD_ofInt_val _ hk]) lanes _
  | xor =>
    have hid : RedOp.id .xor t = t.val 0 := by cases t <;> decide
    rw [hid]
    exact reduced_words (op := .xor) (f := fun p q => p ^^^ q)
      (fun p q => ITy.val_congr fun k hk => by simp only [BitVec.getLsbD_xor, t.getLsbD_ofInt_val _ hk]) lanes _

/-- The lanes that a scan takes at lane `l`: those below, and `l` itself where it is inclusive. -/
def prefixTo (excl : Bool) (l k : Nat) : Bool := if excl then decide (k < l) else decide (k ≤ l)

/-- The scan at a lane reduces the lanes that it takes. -/
theorem get_scanVals (f : FnScn) (t : ITy) (get : Nat → Int) {lanes : List Nat} (hs : lanes.Pairwise (· < ·)) (acc : Int) {l : Nat}
    (hl : l ∈ lanes) :
    Tab.get 0 l (scanVals f t get lanes acc) = t.narrow false (reduced f.op t get acc (lanes.filter (prefixTo f.excl l))) := by
  induction lanes generalizing acc with
  | nil => cases hl
  | cons k ls ih =>
    obtain ⟨hk, hls⟩ := List.pairwise_cons.mp hs
    by_cases hkl : k = l
    · subst hkl
      have hnil : ls.filter (prefixTo f.excl k) = [] := List.filter_eq_nil_iff.mpr fun j hj => by
        have := hk j hj
        unfold prefixTo
        split <;> simp <;> omega
      rw [scanVals, Tab.get, if_pos rfl, List.filter_cons, hnil]
      cases f.excl <;> simp [prefixTo, reduced]
    · have hmem := (List.mem_cons.mp hl).resolve_left (Ne.symm hkl)
      have hp : prefixTo f.excl l k = true := by
        have := hk l hmem
        unfold prefixTo
        split <;> simp <;> omega
      rw [scanVals, Tab.get, if_neg hkl, ih hls _ hmem, List.filter_cons, if_pos hp]
      rfl

/-! ### Shuffles, broadcasts and votes (R122 to R124) -/

theorem shflLane_eq (m : ShflMode) {l : Nat} (k : Nat) (hl : l < 96) :
    shflLane m l k = match m with
      | .idx => if k < 96 then k else l
      | .up => if k ≤ l then l - k else l
      | .down => if l + k < 96 then l + k else l
      | .xor => if l ^^^ k < 96 then l ^^^ k else l := by
  have hx : Nat.xor l k = l ^^^ k := rfl
  cases m with
  | idx | down => simp only [shflLane]; split <;> split <;> omega
  | up => simp only [shflLane]; split <;> split <;> omega
  | xor => simp only [shflLane, hx]; split <;> split <;> omega

theorem and_ne_zero_iff (m e : Mask) : m &&& e ≠ 0 ↔ ∃ l ∈ lanesOf e, m.getLsbD l = true := by
  constructor
  · intro h
    by_contra hno
    push Not at hno
    refine h (BitVec.eq_of_getLsbD_eq fun l _ => ?_)
    by_cases hl : e.getLsbD l = true
    · simpa [hl] using hno l (mem_lanesOf.mpr hl)
    · simp [hl]
  · rintro ⟨l, hl, hm⟩ h
    have := congrArg (·.getLsbD l) h
    simp [mem_lanesOf.mp hl, hm] at this

theorem and_eq_right_iff (m e : Mask) : m &&& e = e ↔ ∀ l ∈ lanesOf e, m.getLsbD l = true := by
  refine ⟨fun h l hl => ?_, fun h => BitVec.eq_of_getLsbD_eq fun l _ => ?_⟩
  · have := congrArg (·.getLsbD l) h
    simpa [mem_lanesOf.mp hl] using this
  · by_cases hl : e.getLsbD l = true
    · simp [h l (mem_lanesOf.mpr hl)]
    · simp [hl]

section
variable (h : Hdr) (d a : Operand) (s : State)

theorem bnd_vote (m : VoteMode) : (Instr.vote h m d a).bnd = h.bnd := by cases m <;> cases d <;> rfl

theorem exec_vote_any : exec (.vote h .any d a) s = laneWord (.vote h .any d a) h s (fun s g x e =>
    (s.setGrp g (x.write d (lanesOf e) (fun _ => boolWord (decide (x.predMask a &&& e ≠ 0)))), .on)) := rfl

theorem exec_vote_all : exec (.vote h .all d a) s = laneWord (.vote h .all d a) h s (fun s g x e =>
    (s.setGrp g (x.write d (lanesOf e) (fun _ => boolWord (decide (x.predMask a &&& e = e)))), .on)) := rfl

theorem exec_redux (f : FnRed) : exec (.redux h f d a) s = laneWord (.redux h f d a) h s (fun s g x e =>
    (s.setGrp g (x.write d (lanesOf e) (fun _ =>
      f.ty.ext (f.ty.narrow f.sat (reduced f.op f.ty (value s x f.ty a) (RedOp.id f.op f.ty) (lanesOf e))))), .on)) := rfl

theorem exec_scan (f : FnScn) : exec (.scan h f d a) s = laneWord (.scan h f d a) h s (fun s g x e =>
    let t : ITy := if f.signed then .s32 else .u32
    (s.setGrp g (x.write d (lanesOf e) (fun l => Tab.get 0 l (scanVals f t (value s x t a) (lanesOf e) (RedOp.id f.op t)))), .on)) := rfl

end

theorem laneExchange : Spec.LaneExchange := by
  intro h m r p d a b other across
  refine ⟨(gives_aluWord rfl fun _ => rfl).congr_lanes fun s x l hl => ?_,
    (gives_aluWord rfl fun _ => rfl).congr_lanes fun s x l hl => ?_,
    fun s g hs => ⟨_, exec_laneWord hs (exec_vote_any ..) (bnd_vote ..), (Group.wrote_write ..).congr fun l hl => ?_⟩,
    fun s g hs => ⟨_, exec_laneWord hs (exec_vote_all ..) (bnd_vote ..), (Group.wrote_write ..).congr fun l hl => ?_⟩,
    fun s g hs => ⟨_, exec_laneWord hs (exec_redux ..) rfl, (Group.wrote_write ..).congr fun l hl => ?_⟩,
    fun s g hs => ⟨_, exec_laneWord (h := h) hs (exec_scan ..) rfl, (Group.wrote_write ..).congr fun l hl => ?_⟩⟩
  · have hother (k : Nat) : shflLane m l k = other l k := shflLane_eq m k hl
    rw [hother, BitVec.toNat_setWidth]
  · simp only [← Nat.not_lt, ite_not]
  · simp only [boolWord, decide_eq_true_eq, and_ne_zero_iff, List.any_eq_true]
  · simp only [boolWord, decide_eq_true_eq, and_eq_right_iff, List.all_eq_true]
  · rw [reduced_eq_reduce, ITy.ext_narrow]
  · rw [get_scanVals p _ _ (pairwise_lanesOf _) _ hl, reduced_eq_reduce]
    rfl

end Sys2Proof.Machine
end

section
namespace Sys2Proof.Machine
open Sys2Proof Sys2Proof.Spec

/-! ### Ballots (R24, R124) -/

/-- A word that writes back what its group is has written nothing. -/
theorem State.retire_on_setGrp_self (s : State) (g : Nat) (bnd : Bool) :
    (s.setGrp g (s.grp g)).retire g bnd .on = s.retire g bnd .on := by
  have hself : (s.setGrp g (s.grp g)).grp g = s.grp g := by simp
  have hport : (s.setGrp g (s.grp g)).portUsed g = (s.portUsed g).setGrp g (s.grp g) := by
    simp only [State.portUsed, hself]
    split <;> rfl
  rw [State.retire_on, State.retire_on, hself, hport, State.setGrp_setGrp]

/-- Scalars written one after another, from `n` on (R34). -/
def Group.setScalars (x : Group) (n : Nat) (w : Nat → Word) (c : Nat) : Group :=
  (List.range c).foldl (fun y k => y.setS (n + k) (w k)) x

/-- What a run of scalar writes leaves: registers below s61, bits of the mask from s61 on (R24, R34). -/
structure Scalars (x y : Group) (n c : Nat) (w : Nat → Word) : Prop where
  sreg : ∀ m < 61, y.sreg m = if n ≤ m ∧ m < n + c then w (m - n) else x.sreg m
  full : ∀ r < 192, y.isFull r = (x.isFull r || decide (128 + n ≤ r ∧ r < 128 + n + c ∧ r < 189))
  mask : 61 < n + c → 0 < c → ∀ l < 96, y.flow.mask.getLsbD l =
    ((if n ≤ 61 + l / 32 ∧ 61 + l / 32 < n + c then (w (61 + l / 32 - n)).getLsbD (l % 32) else x.flow.mask.getLsbD l) &&
      !x.flow.exited.getLsbD l && !x.flow.deferred.getLsbD l)
  flow : n + c ≤ 61 ∨ c = 0 → y.flow = x.flow
  vregs : y.regs.v = x.regs.v
  pregs : y.regs.p = x.regs.p
  cregs : y.regs.c = x.regs.c
  rest : { y with regs := x.regs, flow := { y.flow with mask := x.flow.mask } } = x

/-- Bits of a path's mask with one beat replaced, for a beat that lies in the mask or past it (R24). -/
theorem Flow.getLsbD_setMask_maskPut (f : Flow) (k : Nat) (v : BitVec 32) {l : Nat} (hl : l < 96) :
    (f.setMask (maskPut f.mask k v)).mask.getLsbD l =
      ((if l / 32 = k then v.getLsbD (l % 32) else f.mask.getLsbD l) && !f.exited.getLsbD l && !f.deferred.getLsbD l) := by
  have hput : (maskPut f.mask k v).getLsbD l = if l / 32 = k then v.getLsbD (l % 32) else f.mask.getLsbD l := by
    by_cases hk : k < 3
    · exact getLsbD_maskPut _ _ _ hk l hl
    · rw [if_neg (by omega)]
      simp [maskPut, hl, show l < 32 * k by omega]
  simp only [Flow.setMask, BitVec.getLsbD_and, BitVec.getLsbD_not, BitVec.getLsbD_or, hput, hl, decide_true, Bool.true_and, Bool.not_or,
    Bool.and_assoc]

section
variable {x y : Group} {n c : Nat} {w : Nat → Word} (h : Scalars x y n c w)
include h

theorem Scalars.exited : y.flow.exited = x.flow.exited := (congrArg (·.flow.exited) h.rest :)

theorem Scalars.deferred : y.flow.deferred = x.flow.deferred := (congrArg (·.flow.deferred) h.rest :)

/-- One more scalar, below s61. -/
theorem Scalars.setS_register (hn : n + c < 61) : Scalars x (y.setS (n + c) (w c)) n (c + 1) w := by
  rw [Group.setS, if_pos hn]
  refine ⟨fun m hm => ?_, fun r hr => ?_, fun _ => by omega, fun _ => h.flow (.inl (by omega)), h.vregs, h.pregs, h.cregs, h.rest⟩
  · have := h.sreg m hm
    simp only [Group.sreg, hm, if_true, Tab.get_set] at this ⊢
    by_cases hmc : m = n + c
    · rw [if_pos hmc, if_pos (by omega), hmc, Nat.add_sub_cancel_left]
    · rw [if_neg hmc, this]
      simp only [show n ≤ m ∧ m < n + (c + 1) ↔ n ≤ m ∧ m < n + c by omega]
  · refine (isFull_fill y (128 + (n + c)) r hr).trans ?_
    rw [h.full r hr, Bool.or_assoc, ← Bool.decide_or]
    simp only [show (128 + n ≤ r ∧ r < 128 + n + c ∧ r < 189) ∨ r = 128 + (n + c) ↔
      128 + n ≤ r ∧ r < 128 + n + (c + 1) ∧ r < 189 by omega]

/-- One more scalar, from s61 on: 32 bits of the mask. -/
theorem Scalars.setS_mask (hn : ¬ n + c < 61) : Scalars x (y.setS (n + c) (w c)) n (c + 1) w := by
  rw [Group.setS, if_neg hn]
  refine ⟨fun m hm => ?_, fun r hr => ?_, fun _ _ l hl => ?_, fun hc => by omega, h.vregs, h.pregs, h.cregs, h.rest⟩
  · have := h.sreg m hm
    simp only [Group.sreg, hm, if_true] at this ⊢
    rw [this]
    simp only [show n ≤ m ∧ m < n + (c + 1) ↔ n ≤ m ∧ m < n + c by omega]
  · refine (h.full r hr).trans ?_
    simp only [show 128 + n ≤ r ∧ r < 128 + n + (c + 1) ∧ r < 189 ↔ 128 + n ≤ r ∧ r < 128 + n + c ∧ r < 189 by omega]
  · rw [Flow.getLsbD_setMask_maskPut _ _ _ hl, h.exited, h.deferred]
    by_cases hl' : l / 32 = n + c - 61
    · rw [if_pos hl', if_pos (by omega), show 61 + l / 32 - n = c by omega, BitVec.getLsbD_setWidth,
        decide_eq_true (Nat.mod_lt _ (by decide)), Bool.true_and]
    · rw [if_neg hl']
      simp only [show n ≤ 61 + l / 32 ∧ 61 + l / 32 < n + (c + 1) ↔ n ≤ 61 + l / 32 ∧ 61 + l / 32 < n + c by omega]
      by_cases hc : 61 < n + c ∧ 0 < c
      · rw [h.mask hc.1 hc.2 l hl]
        cases x.flow.exited.getLsbD l <;> cases x.flow.deferred.getLsbD l <;> simp
      · rw [h.flow (by omega), if_neg (by omega)]

end

theorem Group.scalars_setScalars (x : Group) (n : Nat) (w : Nat → Word) (c : Nat) : Scalars x (x.setScalars n w c) n c w := by
  refine foldl_range_induction (fun c y => Scalars x y n c w) ?_ (fun c y ih => ?_) c
  · constructor <;> simp
    omega
  · by_cases hn : n + c < 61
    · exact ih.setS_register hn
    · exact ih.setS_mask hn

theorem exec_ballot (h : Hdr) (n : Fin 64) (a : Operand) (s : State) :
    exec (.vote h .ballot (.s n) a) s = laneWord (.vote h .ballot (.s n) a) h s (fun s g x e =>
      if e = 0 then (s, .on)
      else (s.setGrp g (x.setScalars n (fun k => ((x.predMask a &&& e).extractLsb' (32 * k) 32).setWidth 64) 3), .on)) := rfl

theorem ballot : Spec.Ballot := by
  intro h a n s g i x t hs
  have hrun := exec_laneWord hs (exec_ballot h n a s) (bnd_vote ..)
  by_cases he : x.execMask h = 0
  · refine ⟨x, ?_, fun _ => rfl, fun hne => absurd he hne⟩
    rw [hrun, if_pos he, State.retire_on_setGrp_self]
  · refine ⟨_, hrun.trans (by rw [if_neg he]), fun h0 => absurd h0 he, fun _ => ?_⟩
    obtain ⟨hsreg, hfull, hmask, hflow, hv, hp, hc, hrest⟩ :=
      x.scalars_setScalars n (fun k => (t.extractLsb' (32 * k) 32).setWidth 64) 3
    refine ⟨fun m hm => hsreg m hm, hfull, fun hn l hl => ?_, fun hn => hflow (.inl (by omega)), hv, hp, hc, hrest⟩
    rw [hmask (by omega) (by decide) l hl]
    have hmod := Nat.mod_lt l (by decide : 0 < 32)
    simp only [BitVec.getLsbD_setWidth, BitVec.getLsbD_extractLsb', hmod, show l % 32 < 64 by omega, decide_true, Bool.true_and]

/-- Settles O8: what a lane reads of others, and the three scalars of a ballot. -/
theorem laneExchangeAndBallot : Obligations.LaneExchangeAndBallot := ⟨laneExchange, ballot⟩

end Sys2Proof.Machine
end

section
namespace Sys2Proof.Machine
open Sys2Proof Sys2Proof.Spec

/-! ### Groups that wait at a barrier and leave it (R133 to R135, R214, R215) -/

/-- A group that waits for something. -/
def Group.waiting (x : Group) (w : Susp) : Group := { x with sched := { x.sched with susp := w } }

/-- A group that is let go at a tick. -/
def Group.released (x : Group) (t : Word) : Group := { x with sched := { x.sched with susp := .none, since := t } }

theorem State.suspend_eq {s : State} {g : Nat} (hg : s.hasGrp g = true) (w : Susp) :
    s.suspend g w = s.setGrp g ((s.grp g).waiting w) := State.updGrp_eq_setGrp hg

/-- From `s` to `t` leases have ended, and nothing else that a barrier looks at has changed. -/
structure State.Unleased (s t : State) : Prop where
  groups : t.groups = s.groups
  teams : t.teams = s.teams
  clusters : t.clusters = s.clusters
  mem : t.mem = s.mem
  tick : t.tick = s.tick
  hub : t.hub = s.hub
  migs : t.sys.migs = s.sys.migs

section
variable {s t u : State}

theorem State.Unleased.refl : s.Unleased s := ⟨rfl, rfl, rfl, rfl, rfl, rfl, rfl⟩

theorem State.Unleased.trans (h : s.Unleased t) (h' : t.Unleased u) : s.Unleased u :=
  ⟨h'.groups.trans h.groups, h'.teams.trans h.teams, h'.clusters.trans h.clusters, h'.mem.trans h.mem, h'.tick.trans h.tick,
    h'.hub.trans h.hub, h'.migs.trans h.migs⟩

theorem State.unleased_dropLeases (s : State) (c : Nat) : s.Unleased (s.dropLeases c) := ⟨rfl, rfl, rfl, rfl, rfl, rfl, rfl⟩

theorem State.unleased_foldl (l : List Nat) (s : State) : s.Unleased (l.foldl State.dropLeases s) := by
  induction l generalizing s with
  | nil => exact .refl
  | cons c l ih => exact (s.unleased_dropLeases c).trans (ih _)

/-- An acquire ends leases alone (R214, R215). -/
theorem State.unleased_acquire (s : State) (g : Nat) (sc : Scope) : s.Unleased (s.acquire g sc) := by
  unfold State.acquire
  extract_lets x fused
  cases sc with
  | group | team => exact .refl
  | cluster =>
    dsimp only
    split
    · exact .refl
    · exact s.unleased_dropLeases _
  | die | package | system =>
    dsimp only
    split
    · exact s.unleased_foldl _
    · exact s.unleased_dropLeases _

theorem State.Unleased.grp (h : s.Unleased t) (k : Nat) : t.grp k = s.grp k := by simp [State.grp, h.groups]

theorem State.Unleased.hasGrp (h : s.Unleased t) (k : Nat) : t.hasGrp k = s.hasGrp k := by simp [State.hasGrp, h.groups]

end

/-- The groups of a list leave a barrier, each with an acquire. -/
def State.leaveAll (s : State) (sc : Scope) (l : List Nat) : State := l.foldl (fun s g => (s.leaveBarrier g).acquire g sc) s

theorem State.grp_leaveBarrier (s : State) (g k : Nat) :
    (s.leaveBarrier g).grp k = if k = g ∧ s.hasGrp g = true then (s.grp g).released s.tick else s.grp k := by
  simp only [State.leaveBarrier, State.eligible, State.grp_updGrp, State.hasGrp_updGrp, State.updGrp_tick]
  by_cases h : k = g ∧ s.hasGrp g = true
  · simp [h, Group.released]
  · simp [h]

theorem State.hasGrp_leaveBarrier (s : State) (g k : Nat) : (s.leaveBarrier g).hasGrp k = s.hasGrp k := by
  simp [State.leaveBarrier]

/-- Every group of the list that lives is eligible in this tick, and nothing else of what a barrier looks at has changed. -/
theorem State.leaveAll_spec (sc : Scope) (l : List Nat) (s : State) :
    (∀ k, (s.leaveAll sc l).grp k = if k ∈ l ∧ s.hasGrp k = true then (s.grp k).released s.tick else s.grp k) ∧
      (s.leaveAll sc l).teams = s.teams ∧ (s.leaveAll sc l).clusters = s.clusters ∧ (s.leaveAll sc l).mem = s.mem ∧
      (s.leaveAll sc l).tick = s.tick := by
  induction l generalizing s with
  | nil => exact ⟨fun k => by simp [State.leaveAll], rfl, rfl, rfl, rfl⟩
  | cons g l ih =>
    have hu := (s.leaveBarrier g).unleased_acquire g sc
    obtain ⟨hgrp, hteams, hclusters, hmem, htick⟩ := ih ((s.leaveBarrier g).acquire g sc)
    refine ⟨fun k => (hgrp k).trans ?_, (hteams.trans hu.teams).trans (by simp), (hclusters.trans hu.clusters).trans (by simp),
      (hmem.trans hu.mem).trans (by simp), (htick.trans hu.tick).trans (by simp)⟩
    rw [hu.hasGrp, State.hasGrp_leaveBarrier, hu.grp, State.grp_leaveBarrier, hu.tick, State.leaveBarrier_tick]
    by_cases hk : k = g
    · subst hk
      by_cases hh : s.hasGrp k = true
      · simp [hh, Group.released]
      · simp [hh]
    · simp [hk]

theorem State.team_leaveAll (s : State) (sc : Scope) (l : List Nat) (k : Nat) : (s.leaveAll sc l).team k = s.team k := by
  simp [State.team, (s.leaveAll_spec sc l).2.1]

theorem State.cluster_leaveAll (s : State) (sc : Scope) (l : List Nat) (k : Nat) : (s.leaveAll sc l).cluster k = s.cluster k := by
  simp [State.cluster, (s.leaveAll_spec sc l).2.2.1]

/-! ### Arrivals at the barrier of a team or a cluster (R133, R134) -/

/-- A barrier with one more group; the first arrival of a generation fixes its count. -/
def Barrier.arrive (b : Barrier) (g count : Nat) : Barrier :=
  { b with arrived := b.arrived ++ [g], need := if b.arrived = [] then count else b.need }

/-- A barrier at the start of its next generation. -/
def Barrier.next (b : Barrier) : Barrier := { gen := b.gen + 1, arrived := [], need := 0 }

theorem Barrier.full_arrive (b : Barrier) (g count live : Nat) :
    (b.arrive g count).full live = decide (min (b.arrive g count).need live ≤ b.arrived.length + 1) := by
  simp [Barrier.full, Barrier.arrive]

/-- What an arrival of group `g` leaves of the groups: `g` waits, or all that have arrived go on. -/
structure State.Arrived (s t : State) (g : Nat) (w : Susp) (b : Barrier) (last : Prop) : Prop where
  mem : t.mem = s.mem
  tick : t.tick = s.tick
  waits : ¬ last → t.grp g = (s.grp g).waiting w
  leaves : last → ∀ u ∈ b.arrived ++ [g], s.hasGrp u = true → t.grp u = (s.grp u).released s.tick

/-- The groups let go after an arrival are those of the state before it, but for what `g` waited for. -/
theorem State.arrived_leaveAll {s u : State} {g : Nat} {w : Susp} {b : Barrier} {last : Prop} (sc : Scope) (hl : last)
    (hgrp : ∀ k, u.grp k = if k = g then (s.grp g).waiting w else s.grp k) (hhas : ∀ k, s.hasGrp k = true → u.hasGrp k = true)
    (hmem : u.mem = s.mem) (htick : u.tick = s.tick) : s.Arrived (u.leaveAll sc (b.arrived ++ [g])) g w b last := by
  obtain ⟨hg, -, -, hm, ht⟩ := u.leaveAll_spec sc (b.arrived ++ [g])
  refine ⟨hm.trans hmem, ht.trans htick, fun h => absurd hl h, fun _ k hk hh => ?_⟩
  rw [hg, if_pos ⟨hk, hhas k hh⟩, hgrp, htick]
  split
  · next h => rw [h]; rfl
  · rfl

/-- The team barriers of a team with one of them changed. -/
def Team.withBar (tm : Team) (id : Nat) (b : Barrier) : Team := { tm with bars := Tab.set Barrier.reset id b tm.bars }

theorem State.testBar_eq (s : State) (k id : Nat) :
    let b := Tab.get Barrier.reset id (s.team k).bars
    s.testBar k id = if b.full (s.team k).members.length then
      (s.setTeam k ((s.team k).withBar id b.next)).leaveAll .team b.arrived else s := rfl

section
variable {s : State} {g id n : Nat} (hg : s.hasGrp g = true) (ht : (Tab.find? (s.grp g).team s.teams).isSome = true)
include hg ht

theorem State.barArrive_eq :
    let tm := s.team (s.grp g).team
    let b := Tab.get Barrier.reset id tm.bars
    s.barArrive g id n = ((s.setGrp g ((s.grp g).waiting (.bar id n true))).setTeam (s.grp g).team
      (tm.withBar id (b.arrive g (if n = 0 then tm.members.length else n)))).testBar (s.grp g).team id := by
  intro tm b
  obtain ⟨tm', htm⟩ := Option.isSome_iff_exists.mp ht
  have hteam : tm' = tm := by simp [tm, State.team, Tab.get_eq_find?, htm]
  have hfind : Tab.find? (s.grp g).team (s.setGrp g ((s.grp g).waiting (.bar id n true))).teams = some tm := by
    rw [← hteam]; exact htm
  unfold State.barArrive
  simp only [State.suspend_eq hg, State.updTeam, hfind]
  congr 2
  simp [Team.withBar, Barrier.arrive, b]

theorem State.barArrive_spec :
    let tm := s.team (s.grp g).team
    let b := Tab.get Barrier.reset id tm.bars
    let b' := b.arrive g (if n = 0 then tm.members.length else n)
    let last := min b'.need tm.members.length ≤ b.arrived.length + 1
    let t := s.barArrive g id n
    s.Arrived t g (.bar id n true) b last ∧
      Tab.get Barrier.reset id (t.team (s.grp g).team).bars = if last then b.next else b' := by
  intro tm b b' last t
  have hb : t = _ := State.barArrive_eq hg ht
  rw [hb, State.testBar_eq]
  simp only [State.team_setTeam, if_true, Team.withBar, Tab.get_set_self]
  rw [Barrier.full_arrive]
  by_cases hl : last
  · rw [if_pos hl, decide_eq_true hl, if_pos rfl]
    refine ⟨State.arrived_leaveAll .team hl (fun k => s.grp_setGrp g k _) (fun k hk => ?_) rfl rfl, ?_⟩
    · exact (s.hasGrp_setGrp g k _).trans (by rw [hk, Bool.or_true])
    · simp [State.team_leaveAll, Barrier.next, Barrier.arrive, b, tm]
  · rw [if_neg hl, decide_eq_false hl]
    exact ⟨⟨rfl, rfl, fun _ => (s.grp_setGrp g g _).trans (if_pos rfl), fun h => absurd h hl⟩, by simp [b', b, tm]⟩

end

theorem State.cluster_setCluster (s : State) (k j : Nat) (x : Cluster) :
    (s.setCluster k x).cluster j = if j = k then x else s.cluster j := by
  simp only [State.cluster, State.setCluster, Tab.get_put]

theorem State.testCbar_eq (s : State) (c : Nat) :
    let k := s.cluster c
    s.testCbar c = if k.bar.full (s.liveCluster c).length then
      (s.setCluster c { k with bar := k.bar.next }).leaveAll .cluster k.bar.arrived else s := rfl

theorem State.cbarArrive_eq {s : State} {g : Nat} (hg : s.hasGrp g = true) :
    let c := (s.team (s.grp g).team).cluster
    let k := s.cluster c
    s.cbarArrive g = ((s.setGrp g ((s.grp g).waiting (.cbar true))).setCluster c
      { k with bar := k.bar.arrive g (s.liveCluster c).length }).testCbar c := by
  intro c k
  unfold State.cbarArrive
  simp only [State.suspend_eq hg, List.isEmpty_iff]
  rfl

theorem State.cbarArrive_spec {s : State} {g : Nat} (hg : s.hasGrp g = true) :
    let c := (s.team (s.grp g).team).cluster
    let b := (s.cluster c).bar
    let b' := b.arrive g (s.liveCluster c).length
    let last := min b'.need (s.liveCluster c).length ≤ b.arrived.length + 1
    let t := s.cbarArrive g
    s.Arrived t g (.cbar true) b last ∧ (t.cluster c).bar = if last then b.next else b' := by
  intro c b b' last t
  have hb : t = _ := State.cbarArrive_eq hg
  have hlive : ((s.setGrp g ((s.grp g).waiting (.cbar true))).setCluster c { s.cluster c with bar := b' }).liveCluster c =
      s.liveCluster c := by
    simp only [State.liveCluster, State.cluster_setCluster, if_true]; rfl
  rw [hb, State.testCbar_eq]
  simp only [State.cluster_setCluster, if_true]
  rw [hlive, Barrier.full_arrive]
  by_cases hl : last
  · rw [if_pos hl, decide_eq_true hl, if_pos rfl]
    refine ⟨State.arrived_leaveAll .cluster hl (fun k => s.grp_setGrp g k _) (fun k hk => ?_) rfl rfl, ?_⟩
    · exact (s.hasGrp_setGrp g k _).trans (by rw [hk, Bool.or_true])
    · simp [State.cluster_leaveAll, State.cluster_setCluster, Barrier.next, Barrier.arrive, b, c]
  · rw [if_neg hl, decide_eq_false hl]
    exact ⟨⟨rfl, rfl, fun _ => (s.grp_setGrp g g _).trans (if_pos rfl), fun h => absurd h hl⟩,
      by simp [State.cluster_setCluster, b', b, c]⟩

/-! ### What an arrival waits for (R233, R242) -/

/-- What a group has outstanding on LS depends on its team and its operand logs. -/
theorem State.lsDone_setGrp {s : State} {g : Nat} {y : Group} (ht : y.team = (s.grp g).team) (hl : y.mem.logs = (s.grp g).mem.logs)
    (team seq : Nat) (sc : Scope) (pass : Bool) : (s.setGrp g y).lsDone g team seq sc pass = s.lsDone g team seq sc pass := by
  have hy : (s.setGrp g y).grp g = y := by simp
  have hslice : (s.setGrp g y).scopeAtSlice g sc = s.scopeAtSlice g sc := by
    simp only [State.scopeAtSlice, hy, ht]; rfl
  simp only [State.lsDone, State.accDone, hslice, hy, hl]
  rfl

end Sys2Proof.Machine
end

section
namespace Sys2Proof.Machine
open Sys2Proof Sys2Proof.Spec

/-! ### `bar` and `cbar` (R132 to R134) -/

/-- The groups that an arrival lets go are those of the state before the group was suspended. -/
theorem State.Arrived.of_waiting {s t : State} {g : Nat} {w w₀ : Susp} {b : Barrier} {last : Prop}
    (h : (s.setGrp g ((s.grp g).waiting w₀)).Arrived t g w b last) : s.Arrived t g w b last := by
  refine ⟨h.mem, h.tick, fun hl => ?_, fun hl u hu hh => ?_⟩
  · rw [h.waits hl, State.grp_setGrp, if_pos rfl]; rfl
  · rw [h.leaves hl u hu (by simp [hh]), State.grp_setGrp]
    split
    · next hug => subst hug; rfl
    · rfl

/-- The count that a `bar` gives (R133). -/
def barCount (s : State) (x : Group) (a : Operand) : Nat := if a = .zero then 0 else (s.rd x a 0).toNat % 2 ^ 32

section
variable {h : Hdr} {id : Fin 16} {a : Operand} {s : State} {g : Nat}

theorem exec_bar (h : Hdr) (id : Fin 16) (a : Operand) (s : State) : exec (.bar h id a) s = uniWord (.bar h id a) h s (fun s g x =>
    ((s.suspend g (.bar id.val (barCount s x a) false)).tryArrive g, .run)) := by
  simp only [barCount, ← BitVec.toNat_setWidth]; rfl

theorem exec_cbar (h : Hdr) (s : State) : exec (.cbar h) s = uniWord (.cbar h) h s (fun s g _ =>
    ((s.suspend g (.cbar false)).tryArrive g, .run)) := rfl

variable (hg : s.hasGrp g = true)
include hg

theorem State.tryArrive_bar (id n : Nat) :
    let s₀ := s.setGrp g ((s.grp g).waiting (.bar id n false))
    (s.suspend g (.bar id n false)).tryArrive g =
      if s.lsDone g (s.grp g).team (s.grp g).mem.seq .team false = true then s₀.barArrive g id n else s₀ := by
  intro s₀
  have hx : s₀.grp g = (s.grp g).waiting (.bar id n false) := by simp [s₀]
  have hdone : s₀.lsDone g (s₀.grp g).team (s₀.grp g).mem.seq .team false =
      s.lsDone g (s.grp g).team (s.grp g).mem.seq .team false := by
    rw [hx]; exact State.lsDone_setGrp (s := s) (g := g) (y := (s.grp g).waiting (.bar id n false)) rfl rfl _ _ _ _
  have hsusp : (s₀.grp g).sched.susp = .bar id n false := by rw [hx]; rfl
  rw [State.suspend_eq hg, ← hdone]
  simp only [State.tryArrive, show (s.setGrp g ((s.grp g).waiting (.bar id n false))) = s₀ from rfl, hsusp]

theorem State.tryArrive_cbar :
    let s₀ := s.setGrp g ((s.grp g).waiting (.cbar false))
    (s.suspend g (.cbar false)).tryArrive g =
      if s.lsDone g (s.grp g).team (s.grp g).mem.seq .cluster false = true then s₀.cbarArrive g else s₀ := by
  intro s₀
  have hx : s₀.grp g = (s.grp g).waiting (.cbar false) := by simp [s₀]
  have hdone : s₀.lsDone g (s₀.grp g).team (s₀.grp g).mem.seq .cluster false =
      s.lsDone g (s.grp g).team (s.grp g).mem.seq .cluster false := by
    rw [hx]; exact State.lsDone_setGrp (s := s) (g := g) (y := (s.grp g).waiting (.cbar false)) rfl rfl _ _ _ _
  have hsusp : (s₀.grp g).sched.susp = .cbar false := by rw [hx]; rfl
  rw [State.suspend_eq hg, ← hdone]
  simp only [State.tryArrive, show (s.setGrp g ((s.grp g).waiting (.cbar false))) = s₀ from rfl, hsusp]

variable (hu : (s.grp g).uniGuard h = .run)
include hu

/-- A `bar` suspends its group; its arrival is made where its release is performed (R132, R133). -/
theorem exec_bar_run (ht : (Tab.find? (s.grp g).team s.teams).isSome = true) (hs : s.Stands g (.bar h id a)) :
    let x := s.grp g
    let tm := s.team x.team
    let n := barCount s x a
    let b := Tab.get Barrier.reset id.val tm.bars
    let b' := b.arrive g (if n = 0 then tm.members.length else n)
    let last := min b'.need tm.members.length ≤ b.arrived.length + 1
    let free := s.lsDone g x.team x.mem.seq .team false
    ∃ t : State, exec (.bar h id a) s = .next (t.retire g h.bnd .run) ∧
      (free = false → t = s.setGrp g (x.waiting (.bar id n false))) ∧
      (free = true → s.Arrived t g (.bar id n true) b last ∧
        Tab.get Barrier.reset id.val (t.team x.team).bars = if last then b.next else b') := by
  intro x tm n b b' last free
  have he := exec_uniWord_run (h := h) hs (exec_bar h id a s) rfl hu
  simp only [State.tryArrive_bar hg] at he
  refine ⟨_, he, fun hf => if_neg (by rw [show s.lsDone _ _ _ _ _ = false from hf]; decide), fun hf => ?_⟩
  rw [if_pos hf]
  have hx : (s.setGrp g (x.waiting (.bar id n false))).grp g = x.waiting (.bar id n false) := by simp
  have hspec := State.barArrive_spec (s := s.setGrp g (x.waiting (.bar id n false))) (g := g) (id := id) (n := n) (by simp)
    (by rw [hx]; exact ht)
  rw [hx] at hspec
  exact ⟨hspec.1.of_waiting, hspec.2⟩

/-- The same for `cbar`, of the groups of the cluster (R134). -/
theorem exec_cbar_run (hs : s.Stands g (.cbar h)) :
    let x := s.grp g
    let c := (s.team x.team).cluster
    let b := (s.cluster c).bar
    let b' := b.arrive g (s.liveCluster c).length
    let last := min b'.need (s.liveCluster c).length ≤ b.arrived.length + 1
    let free := s.lsDone g x.team x.mem.seq .cluster false
    ∃ t : State, exec (.cbar h) s = .next (t.retire g h.bnd .run) ∧
      (free = false → t = s.setGrp g (x.waiting (.cbar false))) ∧
      (free = true → s.Arrived t g (.cbar true) b last ∧ (t.cluster c).bar = if last then b.next else b') := by
  intro x c b b' last free
  have he := exec_uniWord_run (h := h) hs (exec_cbar h s) rfl hu
  simp only [State.tryArrive_cbar hg] at he
  refine ⟨_, he, fun hf => if_neg (by rw [show s.lsDone _ _ _ _ _ = false from hf]; decide), fun hf => ?_⟩
  rw [if_pos hf]
  have hx : (s.setGrp g (x.waiting (.cbar false))).grp g = x.waiting (.cbar false) := by simp
  have hspec := State.cbarArrive_spec (s := s.setGrp g (x.waiting (.cbar false))) (g := g) (by simp)
  rw [hx] at hspec
  exact ⟨hspec.1.of_waiting, hspec.2⟩

end

theorem teamAndClusterBarriers : Spec.TeamAndClusterBarriers := by
  intro h id a s g x tm n wait b need k live cneed hg ht
  refine ⟨fun hs hu => ?_, fun hs hu => exec_uniWord_skip hs (exec_bar ..) rfl hu, fun hs hu => ?_⟩
  · obtain ⟨t, he, hwait, harr⟩ := exec_bar_run hg hu ht hs
    refine ⟨fun hf => he.trans (by rw [hwait hf]; rfl), fun hf => ⟨t, he, ?_⟩⟩
    obtain ⟨⟨-, -, hwaits, hleaves⟩, hbar⟩ := harr hf
    refine ⟨fun hl => ?_, fun hl => ?_⟩
    · have hlast := Nat.not_le_of_lt hl
      exact ⟨hwaits hlast, hbar.trans (if_neg hlast)⟩
    · refine ⟨hbar.trans (if_pos hl), fun u hmem hh => ?_⟩
      rw [hleaves hl u hmem hh]
      exact ⟨rfl, rfl⟩
  · obtain ⟨t, he, hwait, harr⟩ := exec_cbar_run hg hu hs
    refine ⟨fun hf => he.trans (by rw [hwait hf]; rfl), fun hf => ⟨t, he, ?_⟩⟩
    obtain ⟨⟨-, -, hwaits, hleaves⟩, hbar⟩ := harr hf
    refine ⟨fun hl => ?_, fun hl => ?_⟩
    · have hlast := Nat.not_le_of_lt hl
      exact ⟨hwaits hlast, hbar.trans (if_neg hlast)⟩
    · refine ⟨hbar.trans (if_pos hl), fun u hmem hh => ?_⟩
      rw [hleaves hl u hmem hh]
      exact ⟨rfl, rfl⟩

end Sys2Proof.Machine
end

section
namespace Sys2Proof.Machine
open Sys2Proof Sys2Proof.Spec

/-! ### The step of an `mbar` on its word (R135) -/

theorem toNat_append_halves (g a : BitVec 32) : ((g ++ a : BitVec 64)).toNat = g.toNat * 2 ^ 32 + a.toNat := by
  have h := BitVec.toNat_append (x := g) (y := a)
  rw [Nat.shiftLeft_eq, ← Nat.shiftLeft_eq, ← Nat.shiftLeft_add_eq_or_of_lt a.isLt, Nat.shiftLeft_eq] at h
  exact h

theorem mbarStep_last {old : Word} {n : Nat} (h : n ≤ (old.extractLsb' 0 32).toNat + 1) :
    mbarStep old n = ((old.extractLsb' 32 32 + 1) ++ 0#32, true) := by
  have hgen : BitVec.ofNat 64 ((bits old 32 32 + 1) % 2 ^ 32 * 2 ^ 32) = (old.extractLsb' 32 32 + 1) ++ 0#32 := by
    refine BitVec.eq_of_toNat_eq (Eq.trans ?_ (toNat_append_halves _ _).symm)
    rw [BitVec.toNat_ofNat, BitVec.toNat_add, bits]
    have := Nat.mod_lt ((old.extractLsb' 32 32).toNat + 1) (by decide : 0 < 2 ^ 32)
    simp
    omega
  rw [mbarStep]
  simp only [show n ≤ bits old 0 32 + 1 from h, if_true, hgen]

theorem mbarStep_counts {old : Word} {n : Nat} (h : (old.extractLsb' 0 32).toNat + 1 < n) (hn : n < 2 ^ 32) :
    mbarStep old n = (old.extractLsb' 32 32 ++ BitVec.ofNat 32 ((old.extractLsb' 0 32).toNat + 1), false) := by
  have hcount : BitVec.ofNat 64 (bits old 32 32 * 2 ^ 32 + (bits old 0 32 + 1)) =
      old.extractLsb' 32 32 ++ BitVec.ofNat 32 ((old.extractLsb' 0 32).toNat + 1) := by
    refine BitVec.eq_of_toNat_eq (Eq.trans ?_ (toNat_append_halves _ _).symm)
    have := (old.extractLsb' 32 32).isLt
    simp only [BitVec.toNat_ofNat, bits]
    omega
  rw [mbarStep]
  simp only [if_neg (show ¬ n ≤ bits old 0 32 + 1 from Nat.not_le_of_lt h), hcount]

/-! ### The release of an `mbar` (R135, R137, R346) -/

/-- What becomes of one group at a barrier word whose waiters are let go. -/
def State.mbarLetGo (pa : Nat) (s : State) (g : Nat) : State :=
  match (s.grp g).sched.susp with
  | .mbar i _ _ _ gen true none =>
    if s.mbarGen pa = gen ∧ ¬ s.hub.mbarGone.contains g then s
    else
      let t := s.mbarLeave g i
      t.setHub { t.hub with mbarGone := t.hub.mbarGone.filter (fun k => decide (k ≠ g)) }
  | _ => s

theorem exec_mbarRelease (pa : Nat) (s : State) :
    exec (.mbarRelease pa) s = .next ((s.mbarAt pa).foldl (State.mbarLetGo pa) s) := rfl

theorem State.mbarGen_congr {s t : State} (hm : t.mem = s.mem) (hg : t.sys.migs = s.sys.migs) (pa : Nat) : t.mbarGen pa = s.mbarGen pa := by
  simp [State.mbarGen, State.load, State.bytes, State.byte, State.forwardPa, hm, hg]

/-- Letting group `g` go, or not, changes no other group, and no word of memory. -/
structure State.LetsGo (s t : State) (pa g : Nat) : Prop where
  mem : t.mem = s.mem
  tick : t.tick = s.tick
  gen : t.mbarGen pa = s.mbarGen pa
  grp : ∀ k, k ≠ g → t.grp k = s.grp k
  hasGrp : ∀ k, t.hasGrp k = s.hasGrp k
  gone : ∀ k, k ≠ g → (k ∈ t.hub.mbarGone ↔ k ∈ s.hub.mbarGone)

theorem State.mbarLeave_spec (s : State) (g : Nat) (i : WordInfo) :
    let t := s.mbarLeave g i
    t.mem = s.mem ∧ t.tick = s.tick ∧ t.sys.migs = s.sys.migs ∧ t.hub = s.hub ∧ (∀ k, t.hasGrp k = s.hasGrp k) ∧
      ∀ k, t.grp k = if k = g ∧ s.hasGrp g = true then (s.grp g).released s.tick else s.grp k := by
  intro t
  have hu := s.unleased_acquire g i.scope
  have ht : t = (s.acquire g i.scope).leaveBarrier g := rfl
  refine ⟨?_, ?_, ?_, ?_, fun k => ?_, fun k => ?_⟩
  · rw [ht, State.leaveBarrier_mem, hu.mem]
  · rw [ht, State.leaveBarrier_tick, hu.tick]
  · rw [ht, State.leaveBarrier_sys, hu.migs]
  · rw [ht, State.leaveBarrier_hub, hu.hub]
  · rw [ht, State.hasGrp_leaveBarrier, hu.hasGrp]
  · rw [ht, State.grp_leaveBarrier, hu.hasGrp, hu.grp, hu.grp, hu.tick]

theorem State.LetsGo.refl (s : State) (pa g : Nat) : s.LetsGo s pa g := ⟨rfl, rfl, rfl, fun _ _ => rfl, fun _ => rfl, fun _ _ => .rfl⟩

theorem State.mbarLetGo_spec (pa : Nat) (s : State) (g : Nat) : s.LetsGo (s.mbarLetGo pa g) pa g := by
  unfold State.mbarLetGo
  split
  · next i va n p gen hsusp =>
    split
    · exact .refl ..
    · obtain ⟨hm, ht, hmigs, hhub, hhas, hgrp⟩ := s.mbarLeave_spec g i
      refine ⟨hm, ht, State.mbarGen_congr (by exact hm) (by exact hmigs) pa, fun k hk => (hgrp k).trans (if_neg fun h => hk h.1), hhas,
        fun k hk => ?_⟩
      simp [State.setHub, hhub, hk]
  · exact .refl ..

section
variable {s : State} {pa g : Nat} {i : WordInfo} {va : Word} {n p : Nat} {gen : BitVec 32}
  (hw : (s.grp g).sched.susp = .mbar i va n p gen true none)
include hw

/-- A waiter whose generation stands stays; one whose generation has been replaced is let go. -/
theorem State.grp_mbarLetGo (hg : s.hasGrp g = true) : (s.mbarLetGo pa g).grp g =
    if s.mbarGen pa = gen ∧ g ∉ s.hub.mbarGone then s.grp g else (s.grp g).released s.tick := by
  obtain ⟨-, -, -, -, -, hgrp⟩ := s.mbarLeave_spec g i
  simp only [State.mbarLetGo, hw, List.contains_iff_mem]
  split
  · rfl
  · exact (hgrp g).trans (if_pos ⟨rfl, hg⟩)

theorem State.mbarLetGo_stays (h : s.mbarGen pa = gen ∧ g ∉ s.hub.mbarGone) : s.mbarLetGo pa g = s := by
  simp only [State.mbarLetGo, hw, List.contains_iff_mem]
  exact if_pos h

end

theorem State.mbarLetGo_of_eligible {s : State} {pa g : Nat} (h : (s.grp g).sched.susp = .none) : s.mbarLetGo pa g = s := by
  simp only [State.mbarLetGo, h]

theorem State.foldl_mbarLetGo (pa : Nat) (l : List Nat) (s : State) :
    let t := l.foldl (State.mbarLetGo pa) s
    t.mem = s.mem ∧ t.tick = s.tick ∧ (∀ k, k ∉ l → t.grp k = s.grp k) ∧
      ∀ k, (s.grp k).sched.susp = .none → t.grp k = s.grp k := by
  induction l generalizing s with
  | nil => exact ⟨rfl, rfl, fun _ _ => rfl, fun _ _ => rfl⟩
  | cons g l ih =>
    have hs := s.mbarLetGo_spec pa g
    obtain ⟨hm, ht, hother, hnone⟩ := ih (s.mbarLetGo pa g)
    refine ⟨hm.trans hs.mem, ht.trans hs.tick, fun k hk => ?_, fun k hk => ?_⟩
    · obtain ⟨hkg, hkl⟩ := List.ne_and_not_mem_of_not_mem_cons hk
      exact (hother k hkl).trans (hs.grp k hkg)
    · have hstep : (s.mbarLetGo pa g).grp k = s.grp k := by
        by_cases hkg : k = g
        · rw [State.mbarLetGo_of_eligible (hkg ▸ hk)]
        · exact hs.grp k hkg
      exact (hnone k (by rw [hstep]; exact hk)).trans hstep

/-- Of the groups of a list, a waiter whose generation stands stays, and one whose generation has been replaced is let go. -/
theorem State.foldl_mbarLetGo_waiter {pa g : Nat} {i : WordInfo} {va : Word} {n p : Nat} {gen : BitVec 32} (l : List Nat) (s : State)
    (hg : s.hasGrp g = true) (hw : (s.grp g).sched.susp = .mbar i va n p gen true none) :
    (l.foldl (State.mbarLetGo pa) s).grp g =
      if g ∉ l ∨ s.mbarGen pa = gen ∧ g ∉ s.hub.mbarGone then s.grp g else (s.grp g).released s.tick := by
  induction l generalizing s with
  | nil => simp
  | cons k l ih =>
    have hs := s.mbarLetGo_spec pa k
    rw [List.foldl_cons]
    by_cases hk : g = k
    · subst hk
      by_cases hstay : s.mbarGen pa = gen ∧ g ∉ s.hub.mbarGone
      · rw [State.mbarLetGo_stays hw hstay, ih s hg hw, if_pos (.inr hstay), if_pos (.inr hstay)]
      · have hgo : (s.mbarLetGo pa g).grp g = (s.grp g).released s.tick := by rw [State.grp_mbarLetGo hw hg, if_neg hstay]
        rw [(State.foldl_mbarLetGo pa l (s.mbarLetGo pa g)).2.2.2 g (by rw [hgo]; rfl), hgo, if_neg (by simp [hstay])]
    · rw [ih (s.mbarLetGo pa k) ((hs.hasGrp g).trans hg) (by rw [hs.grp g hk]; exact hw), hs.gen, hs.grp g hk, hs.tick]
      simp only [hs.gone g hk, List.mem_cons, hk, false_or]

theorem State.mem_mbarAt {s : State} {pa g : Nat} {i : WordInfo} {va : Word} {n : Nat} {gen : BitVec 32} {o : Option Nat}
    (hg : s.hasGrp g = true) (hw : (s.grp g).sched.susp = .mbar i va n pa gen true o) : g ∈ s.mbarAt pa :=
  List.mem_map.mpr ⟨(g, s.grp g), List.mem_filter.mpr ⟨State.mem_groups_of_hasGrp hg, by simp [hw]⟩, rfl⟩

/-- A release of a barrier word lets go the waiters whose generation has been replaced, and keeps the others (R135, R137). -/
theorem exec_mbarRelease_spec (s : State) (pa : Nat) :
    ∃ t, exec (.mbarRelease pa) s = .next t ∧ t.mem = s.mem ∧ (∀ g, g ∉ s.mbarAt pa → t.grp g = s.grp g) ∧
      ∀ (g : Nat) (i : WordInfo) (va : Word) (n : Nat) (gen : BitVec 32), s.hasGrp g = true →
        (s.grp g).sched.susp = .mbar i va n pa gen true none →
          t.grp g = if s.mbarGen pa = gen ∧ g ∉ s.hub.mbarGone then s.grp g else (s.grp g).released s.tick := by
  obtain ⟨hm, -, hother, -⟩ := State.foldl_mbarLetGo pa (s.mbarAt pa) s
  refine ⟨_, exec_mbarRelease pa s, hm, hother, fun g i va n gen hg hw => ?_⟩
  rw [State.foldl_mbarLetGo_waiter _ s hg hw]
  simp only [State.mem_mbarAt hg hw, not_true_eq_false, false_or]

/-- The only group of a package that waits at the word is the only one that the release looks at. -/
theorem State.mbarAt_singleton {s : State} {pa g : Nat} {i : WordInfo} {va : Word} {n : Nat} {gen : BitVec 32}
    (hl : s.groups.map Prod.fst = [g]) (hw : (s.grp g).sched.susp = .mbar i va n pa gen true none) :
    s.hasGrp g = true ∧ s.mbarAt pa = [g] := by
  obtain ⟨e, he, hk⟩ := List.map_eq_singleton_iff.mp hl
  subst hk
  have hgrp : s.grp e.1 = e.2 := by simp [State.grp, he, Tab.get]
  rw [hgrp] at hw
  exact ⟨by simp [State.hasGrp, he, Tab.find?], by simp [State.mbarAt, he, hw]⟩

end Sys2Proof.Machine
end

section
namespace Sys2Proof.Machine
open Sys2Proof Sys2Proof.Spec

/-! ### The word `mbar` (R135) -/

/-- The detail of the SEGMENT_OP trap of an `mbar` whose page is of the wrong kind, where that can be told before the arrival. -/
def State.mbarRefusal (s : State) (x : Group) (va : Word) : Option Nat :=
  let r := s.translate x.core x.ctx (vaOf va) true
  match r.1 with
  | .leaf e n =>
    if eaBad va || decide (grantOf e n x.sup .atomic ≠ .ok 0 e) then none
    else match mbarKind (pteKind e) with
      | some d => some d
      | none => match r.2.leafPa x.core e (vaOf va) n with
        | .fail 0x07 d => some d
        | _ => none
  | _ => none

/-- What an `mbar` tells of itself. -/
def State.mbarInfo (s : State) (g : Nat) (sc : Scope) : WordInfo :=
  { localInfo s g (s.grp g) true (s.grp g).flow.mask 0 8 false .zero with scope := sc }

/-- A group suspended at an `mbar` at which it has not arrived. -/
def Group.atMbar (x : Group) (i : WordInfo) (va : Word) (n : Nat) : Group :=
  { x with mem := { x.mem with seq := x.mem.seq + 1 }, sched := { x.sched with susp := .mbar i va n 0 0 false none } }

theorem exec_mbar (h : Hdr) (sc : Scope) (a b : Operand) (s : State) :
    exec (.mbar h sc a b) s = uniWord (.mbar h sc a b) h s (fun s g x =>
      let va := s.rd x a 0
      let n := max ((s.rd x b 0).setWidth 32).toNat 1
      if va.toNat % 8 ≠ 0 then (s.trapNow g 0x15 1 va, .done)
      else if s.lsWaits g x then (s, .wait)
      else match s.mbarRefusal x va with
        | some d => ((s.translate x.core x.ctx (vaOf va) true).2.trapNow g 0x07 (BitVec.ofNat 64 d) va, .done)
        | none =>
          let i := { localInfo s g x true x.flow.mask 0 8 false .zero with scope := sc }
          (((s.updGrp g (fun x => { x with mem := { x.mem with seq := x.mem.seq + 1 } })).suspend g
            (.mbar i va n 0 0 false none)).mbarTry g, .run)) := rfl

theorem State.mbarRefusal_of_no_leaf {s : State} {x : Group} {va : Word}
    (h : ∀ e n, (s.translate x.core x.ctx (vaOf va) true).1 ≠ .leaf e n) : s.mbarRefusal x va = none := by
  cases hw : (s.translate x.core x.ctx (vaOf va) true).1 with
  | leaf e n => exact absurd hw (h e n)
  | fault | refused => simp only [State.mbarRefusal, hw]

theorem State.suspend_mbar {s : State} {g : Nat} (hg : s.hasGrp g = true) (i : WordInfo) (va : Word) (n : Nat) :
    (s.updGrp g (fun x => { x with mem := { x.mem with seq := x.mem.seq + 1 } })).suspend g (.mbar i va n 0 0 false none) =
      s.setGrp g ((s.grp g).atMbar i va n) := by
  rw [State.updGrp_eq_setGrp hg, State.suspend_eq (by simp), State.setGrp_setGrp, State.grp_setGrp, if_pos rfl]
  rfl

section
variable {h : Hdr} {sc : Scope} {a b : Operand} {s : State} {g : Nat} (hs : s.Stands g (.mbar h sc a b))
  (hu : (s.grp g).uniGuard h = .run)
include hs hu

/-- An `mbar` whose address is not of its size traps before any effect (R135, R186). -/
theorem exec_mbar_misaligned (hva : (s.rd (s.grp g) a 0).toNat % 8 ≠ 0) :
    trapsBefore s g (.mbar h sc a b) 0x15 1 (s.rd (s.grp g) a 0) := by
  have he := exec_uniWord_run (h := h) hs (exec_mbar h sc a b s) rfl hu
  simp only [if_pos hva] at he
  exact trapsBefore_of_word he

/-- An `mbar` waits where LS admits no further word of its group. -/
theorem exec_mbar_waits (hva : (s.rd (s.grp g) a 0).toNat % 8 = 0) (hw : s.lsWaits g (s.grp g) = true) :
    exec (.mbar h sc a b) s = .next (s.retire g h.bnd .wait) := by
  have he := exec_uniWord_run (h := h) hs (exec_mbar h sc a b s) rfl hu
  simp only [if_neg (not_not.mpr hva), if_pos hw] at he
  exact he

/-- An `mbar` whose page is of a fitting kind suspends its group and then tries to arrive. -/
theorem exec_mbar_run (hg : s.hasGrp g = true) (hva : (s.rd (s.grp g) a 0).toNat % 8 = 0) (hw : s.lsWaits g (s.grp g) = false)
    (hr : s.mbarRefusal (s.grp g) (s.rd (s.grp g) a 0) = none) :
    exec (.mbar h sc a b) s = .next (((s.setGrp g ((s.grp g).atMbar (s.mbarInfo g sc) (s.rd (s.grp g) a 0)
      (max ((s.rd (s.grp g) b 0).toNat % 2 ^ 32) 1))).mbarTry g).retire g h.bnd .run) := by
  have he := exec_uniWord_run (h := h) hs (exec_mbar h sc a b s) rfl hu
  simp only [if_neg (not_not.mpr hva), hw, Bool.false_eq_true, if_false, hr, BitVec.toNat_setWidth] at he
  rw [State.suspend_mbar hg] at he
  exact he

end

/-- A group whose release is still to be performed has not arrived (R135). -/
theorem State.mbarTry_of_outstanding {s : State} {g : Nat} {i : WordInfo} {va : Word} {n : Nat}
    (hd : s.lsDone g (s.grp g).team i.seq i.scope false = false) :
    (s.setGrp g ((s.grp g).atMbar i va n)).mbarTry g = s.setGrp g ((s.grp g).atMbar i va n) := by
  have hx : (s.setGrp g ((s.grp g).atMbar i va n)).grp g = (s.grp g).atMbar i va n := by simp
  have hsusp : ((s.grp g).atMbar i va n).sched.susp = .mbar i va n 0 0 false none := rfl
  have hdone : (s.setGrp g ((s.grp g).atMbar i va n)).lsDone g ((s.grp g).atMbar i va n).team i.seq i.scope false = false :=
    (State.lsDone_setGrp (y := (s.grp g).atMbar i va n) rfl rfl ..).trans hd
  simp only [State.mbarTry, hx, hsusp, hdone, Bool.not_false, if_true]

/-- The only waiter of a package leaves where its generation has been replaced, and stays where it stands (R135). -/
theorem exec_mbarRelease_single {s : State} {g pa : Nat} {i : WordInfo} {va : Word} {n : Nat} {gen : BitVec 32}
    (hl : s.groups.map Prod.fst = [g]) (hw : (s.grp g).sched.susp = .mbar i va n pa gen true none) :
    (s.mbarGen pa ≠ gen → ∃ t, exec (.mbarRelease pa) s = .next t ∧ (t.grp g).sched.susp = .none ∧
      (t.grp g).sched.since = s.tick) ∧
    (s.mbarGen pa = gen → g ∉ s.hub.mbarGone → exec (.mbarRelease pa) s = .next s) := by
  obtain ⟨hg, hat⟩ := State.mbarAt_singleton hl hw
  refine ⟨fun hgen => ?_, fun hgen hgone => ?_⟩
  · obtain ⟨t, ht, -, -, hwait⟩ := exec_mbarRelease_spec s pa
    have hgrp := (hwait g i va n gen hg hw).trans (if_neg fun h => hgen h.1)
    exact ⟨t, ht, by rw [hgrp]; rfl, by rw [hgrp]; rfl⟩
  · rw [exec_mbarRelease, hat, List.foldl_cons, List.foldl_nil, State.mbarLetGo_stays hw ⟨hgen, hgone⟩]

theorem memoryBarrier : Spec.MemoryBarrier := by
  refine ⟨fun old n => ⟨mbarStep_last, mbarStep_counts⟩, fun h sc a b s g => ?_, fun s g pa i va n gen hl hw _ =>
    exec_mbarRelease_single hl hw⟩
  intro i x va w info hs hu hg
  refine ⟨exec_mbar_misaligned hs hu, exec_mbar_waits hs hu, fun hva hw hleaf hd => ?_⟩
  have hout := State.mbarTry_of_outstanding (i := s.mbarInfo g sc) (va := va) (n := max ((s.rd x b 0).toNat % 2 ^ 32) 1) hd
  refine ⟨_, exec_mbar_run hs hu hg hva hw (State.mbarRefusal_of_no_leaf hleaf), ?_⟩
  rw [hout, State.grp_setGrp, if_pos rfl]
  rfl

/-- Settles O17: arrivals, counts and releases of team and cluster barriers, and the step, the word and the release of an `mbar`. -/
theorem barriers : Obligations.Barriers := ⟨teamAndClusterBarriers, memoryBarrier⟩

end Sys2Proof.Machine
end

section
namespace Sys2Proof.Machine
open Sys2Proof Sys2Proof.Spec

/-! ### The steps of a translation (R359) -/

/-- Puts the leaf that a walk found into the TLBs of a core and of its die. -/
def cacheLeaf (u d ctx va : Nat) (r : Walk × State) : Walk × State :=
  match r with
  | (.leaf e n, s) =>
    let t : TlbEntry := { unit := u, ctx := ctx, vpage := va / 2 ^ n, logSize := n, leaf := e }
    (.leaf e n, (s.tlbPut t).tlbPut { t with unit := d })
  | r => r

/-- The die's TLB that a core uses. -/
def tlbDie (core : Nat) : Nat := if isControl core then tlbUnit core else 0x400 + dieOfCore core

/-- A translation that no TLB answers. -/
def State.walkAndCache (s : State) (core ctx va : Nat) : Walk × State :=
  let s := (s.tlbDrop (tlbUnit core) ctx va).tlbDrop (tlbDie core) ctx va
  let s := if isControl core then s else s.count (0x340 + dieOfCore core) 0x4D 1
  cacheLeaf (tlbUnit core) (tlbDie core) ctx va (s.walkCached (dieOfCore core) ctx va)

theorem State.translate_eq (s : State) (core ctx va : Nat) (write : Bool) : s.translate core ctx va write =
    match s.tlbFind (tlbUnit core) ctx va with
    | some e => if !write || pteW e.leaf then (.leaf e.leaf e.logSize, s) else s.walkAndCache core ctx va
    | none => match s.tlbFind (tlbDie core) ctx va with
      | some e => if !write || pteW e.leaf then (.leaf e.leaf e.logSize, s.tlbPut { e with unit := tlbUnit core })
        else s.walkAndCache core ctx va
      | none => s.walkAndCache core ctx va := rfl

/-! ### What a translation leaves as it was (R359) -/

/-- From `s` to `t` at most what is cached of translations, and what is counted, has changed. -/
structure State.Looked (s t : State) : Prop where
  mem : t.mem = s.mem
  mgmt : t.mgmt = s.mgmt
  groups : t.groups = s.groups
  repl : t.repl = s.repl
  tick : t.tick = s.tick
  migs : t.sys.migs = s.sys.migs
  own : t.sys.own = s.sys.own
  reqs : t.sys.reqs = s.sys.reqs

section
variable {s₀ s t : State}

theorem State.Looked.refl : s.Looked s := ⟨rfl, rfl, rfl, rfl, rfl, rfl, rfl, rfl⟩

theorem State.Looked.trans (h : s₀.Looked s) (h' : s.Looked t) : s₀.Looked t :=
  ⟨h'.mem.trans h.mem, h'.mgmt.trans h.mgmt, h'.groups.trans h.groups, h'.repl.trans h.repl, h'.tick.trans h.tick,
    h'.migs.trans h.migs, h'.own.trans h.own, h'.reqs.trans h.reqs⟩

theorem State.Looked.ite {p : Prop} [Decidable p] (h : s₀.Looked s) (h' : s₀.Looked t) : s₀.Looked (if p then s else t) := by
  split
  · exact h
  · exact h'

theorem State.Looked.count {unit ev n} (h : s₀.Looked s) : s₀.Looked (s.count unit ev n) :=
  h.ite (h.trans ⟨rfl, rfl, rfl, rfl, rfl, rfl, rfl, rfl⟩)

theorem State.Looked.tlbDrop {unit ctx va} (h : s₀.Looked s) : s₀.Looked (s.tlbDrop unit ctx va) :=
  h.trans ⟨rfl, rfl, rfl, rfl, rfl, rfl, rfl, rfl⟩

theorem State.Looked.tlbPut {e} (h : s₀.Looked s) : s₀.Looked (s.tlbPut e) :=
  h.ite (.ite (h.trans ⟨rfl, rfl, rfl, rfl, rfl, rfl, rfl, rfl⟩) (h.trans ⟨rfl, rfl, rfl, rfl, rfl, rfl, rfl, rfl⟩))

theorem State.Looked.walkCached {die ctx va} (h : s₀.Looked s) : s₀.Looked (s.walkCached die ctx va).2 :=
  h.trans ⟨rfl, rfl, rfl, rfl, rfl, rfl, rfl, rfl⟩

theorem State.Looked.walkAndCache {core ctx va} (h : s₀.Looked s) : s₀.Looked (s.walkAndCache core ctx va).2 := by
  unfold State.walkAndCache
  extract_lets s₁ s₂
  have h₁ : s₀.Looked s₁ := h.tlbDrop.tlbDrop
  have hw := (h₁.ite h₁.count : s₀.Looked s₂).walkCached (die := dieOfCore core) (ctx := ctx) (va := va)
  unfold cacheLeaf
  split
  · next e => rw [e] at hw; exact hw.tlbPut.tlbPut
  · exact hw

theorem State.Looked.translate {core ctx va write} (h : s₀.Looked s) : s₀.Looked (s.translate core ctx va write).2 := by
  rw [State.translate_eq]
  split
  · split
    · exact h
    · exact h.walkAndCache
  · split
    · split
      · exact h.tlbPut
      · exact h.walkAndCache
    · exact h.walkAndCache

end

/-! ### A translation looks at no group -/

section
variable {s : State} {g : Nat} {y : Group}

theorem State.setGrp_ite {p : Prop} [Decidable p] {t u : State} :
    (if p then t else u).setGrp g y = if p then t.setGrp g y else u.setGrp g y := apply_ite (fun s => State.setGrp s g y) p t u

theorem State.walkFrom_setGrp (ctx va n level t : Nat) : (s.setGrp g y).walkFrom ctx va n level t = s.walkFrom ctx va n level t := by
  induction n generalizing level t with
  | zero => rfl
  | succ n ih =>
    rw [State.walkFrom, State.walkFrom]
    simp only [ih]
    exact rfl

theorem State.walkCached_setGrp (die ctx va : Nat) :
    (s.setGrp g y).walkCached die ctx va = (s.walkCached die ctx va).map id (State.setGrp · g y) := by
  simp only [State.walkCached, State.walkFrom_setGrp]
  exact rfl

theorem State.count_setGrp (unit ev n : Nat) : (s.setGrp g y).count unit ev n = (s.count unit ev n).setGrp g y := by
  rw [State.count, State.count, State.setGrp_ite]; exact rfl

theorem State.tlbPut_setGrp (e : TlbEntry) : (s.setGrp g y).tlbPut e = (s.tlbPut e).setGrp g y := by
  rw [State.tlbPut, State.tlbPut]
  simp only [State.setGrp_ite]
  exact rfl

theorem State.tlbDrop_setGrp (unit ctx va : Nat) : (s.setGrp g y).tlbDrop unit ctx va = (s.tlbDrop unit ctx va).setGrp g y := rfl

end

section
variable {s : State} {g : Nat} {y : Group}

theorem cacheLeaf_setGrp (u d ctx va : Nat) (r : Walk × State) :
    cacheLeaf u d ctx va (r.map id (State.setGrp · g y)) = (cacheLeaf u d ctx va r).map id (State.setGrp · g y) := by
  obtain ⟨w, s⟩ := r
  cases w with
  | leaf e n => exact congrArg (Prod.mk _) ((congrArg (State.tlbPut · _) (s.tlbPut_setGrp _)).trans (State.tlbPut_setGrp _))
  | fault | refused => rfl

theorem State.walkAndCache_setGrp (core ctx va : Nat) :
    (s.setGrp g y).walkAndCache core ctx va = (s.walkAndCache core ctx va).map id (State.setGrp · g y) := by
  simp only [State.walkAndCache, State.tlbDrop_setGrp, State.count_setGrp, ← State.setGrp_ite, State.walkCached_setGrp,
    cacheLeaf_setGrp]

theorem State.translate_setGrp (core ctx va : Nat) (write : Bool) :
    (s.setGrp g y).translate core ctx va write = (s.translate core ctx va write).map id (State.setGrp · g y) := by
  have hfind (u : Nat) : (s.setGrp g y).tlbFind u ctx va = s.tlbFind u ctx va := rfl
  rw [State.translate_eq, State.translate_eq, hfind, hfind, State.walkAndCache_setGrp]
  cases s.tlbFind (tlbUnit core) ctx va with
  | some e => simp only [apply_ite (Prod.map id (State.setGrp · g y)), Prod.map_apply, id_eq]
  | none =>
    cases s.tlbFind (tlbDie core) ctx va with
    | some e => simp only [State.tlbPut_setGrp, apply_ite (Prod.map id (State.setGrp · g y)), Prod.map_apply, id_eq]
    | none => rfl

end

end Sys2Proof.Machine
end

section
namespace Sys2Proof.Machine
open Sys2Proof Sys2Proof.Spec

/-! ### What the making of an access changes beside its bytes -/

/-- From `s` to `t` no byte of memory changes, the clock stands, and of the groups at most their pending records change. -/
structure State.Beside (s t : State) : Prop where
  mem : t.mem = s.mem
  tick : t.tick = s.tick
  hasGrp : ∀ k, t.hasGrp k = s.hasGrp k
  grp : ∀ k, ∃ l, t.grp k = { s.grp k with pending := l }

section
variable {s₀ s t : State}

theorem State.Beside.refl : s.Beside s := ⟨rfl, rfl, fun _ => rfl, fun _ => ⟨_, rfl⟩⟩

theorem State.Beside.trans (h : s₀.Beside s) (h' : s.Beside t) : s₀.Beside t where
  mem := h'.mem.trans h.mem
  tick := h'.tick.trans h.tick
  hasGrp k := (h'.hasGrp k).trans (h.hasGrp k)
  grp k := by
    obtain ⟨l, hl⟩ := h.grp k
    obtain ⟨l', hl'⟩ := h'.grp k
    exact ⟨l', by rw [hl', hl]⟩

/-- A change of neither memory, nor the clock, nor the groups. -/
theorem State.Beside.upd (h : s₀.Beside s) (hm : t.mem = s.mem) (ht : t.tick = s.tick) (hg : t.groups = s.groups) : s₀.Beside t :=
  h.trans ⟨hm, ht, fun k => by rw [State.hasGrp, State.hasGrp, hg], fun k => ⟨(s.grp k).pending, by rw [State.grp, hg]; rfl⟩⟩

theorem State.Beside.ite {p : Prop} [Decidable p] (h : s₀.Beside s) (h' : s₀.Beside t) : s₀.Beside (if p then s else t) := by
  split
  · exact h
  · exact h'

theorem State.Beside.setSys {x} (h : s₀.Beside s) : s₀.Beside (s.setSys x) := h.upd rfl rfl rfl

theorem State.Beside.setHub {x} (h : s₀.Beside s) : s₀.Beside (s.setHub x) := h.upd rfl rfl rfl

theorem State.Beside.count {unit ev n} (h : s₀.Beside s) : s₀.Beside (s.count unit ev n) := h.ite (h.upd rfl rfl rfl)

theorem State.Beside.l2Touch {pa die write} (h : s₀.Beside s) : s₀.Beside (s.l2Touch pa die write) := by
  unfold State.l2Touch
  extract_lets
  split
  · exact h.ite h.setSys
  · exact h.setSys.ite (h.setSys.ite (h.upd rfl rfl rfl))

theorem State.Beside.mbarNotice (h : s₀.Beside s) : s₀.Beside s.mbarNotice := h.ite h.setHub

theorem State.Beside.migLeave {t} (h : s₀.Beside s) : s₀.Beside (s.migLeave t) := h.setSys

theorem State.Beside.countReq {pa} (h : s₀.Beside s) : s₀.Beside (s.countReq pa) := by
  unfold State.countReq
  split
  · exact h.count
  · exact h

theorem State.Beside.foldl {α : Type} {l : List α} {f : State → α → State} (h : s₀.Beside s)
    (hf : ∀ s a, s₀.Beside s → s₀.Beside (f s a)) : s₀.Beside (l.foldl f s) := by
  induction l generalizing s with
  | nil => exact h
  | cons a l ih => exact ih (hf s a h)

theorem State.Beside.heatCount {core write l} (h : s₀.Beside s) : s₀.Beside (s.heatCount core write l) :=
  h.foldl fun _ _ h => h.setSys

theorem State.Beside.setReg {a v} (h : s₀.Beside s) : s₀.Beside (s.setReg a v) := h.upd rfl rfl rfl

theorem State.Beside.freeVal (h : s₀.Beside s) : s₀.Beside s.freeVal.2 := h.upd rfl rfl rfl

theorem State.Beside.recordFreeze {q} (h : s₀.Beside s) : s₀.Beside (s.recordFreeze q) :=
  h.freeVal.freeVal.setReg.setReg.setReg

theorem State.Beside.requestFreeze {q} (h : s₀.Beside s) : s₀.Beside (s.requestFreeze q) := by
  unfold State.requestFreeze
  extract_lets _ s₁
  have h₁ : s₀.Beside s₁ := .recordFreeze (h.upd rfl rfl rfl)
  refine h.ite ?_
  split
  · exact h₁
  · exact h₁.ite h

/-- A change of the pending records of one group. -/
theorem State.Beside.updPending {g : Nat} {f : Group → Group} (h : s₀.Beside s) (hf : ∀ x, ∃ l, f x = { x with pending := l }) :
    s₀.Beside (s.updGrp g f) := by
  refine h.trans ⟨by simp, by simp, fun k => by simp, fun k => ?_⟩
  rw [State.grp_updGrp]
  split
  · next hk => rw [hk.1]; exact hf _
  · exact ⟨_, rfl⟩

theorem State.Beside.watched {i ctx lanes k va n} (h : s₀.Beside s) : s₀.Beside (s.watched i ctx lanes k va n) := by
  unfold State.watched
  extract_lets
  split
  · exact h
  · refine h.requestFreeze.ite (h.ite (h.updPending fun x => ?_))
    split
    · exact ⟨_, rfl⟩
    · exact ⟨_, rfl⟩

theorem State.Beside.mbarNote {pa gen g last} (h : s₀.Beside s) : s₀.Beside (s.mbarNote pa gen g last) := by
  unfold State.mbarNote
  extract_lets
  split
  · exact h.setHub
  · refine h.setHub.ite ?_
    split
    · exact h.setHub.setHub
    · exact h

end

/-! ### The access of an arrival (R135, R264) -/

theorem mbarKind_eq_none {kind : Nat} : mbarKind kind = none ↔ kind = 1 ∨ kind = 2 := by
  rw [mbarKind]
  split <;> simp [*]

/-- The leaf that comes with an address is the one that the walk found. -/
theorem State.leafPa_eq_ok {s : State} {core va n pa : Nat} {e leaf : Word} (h : s.leafPa core e va n = .ok pa leaf) : leaf = e := by
  unfold State.leafPa at h
  dsimp only at h
  split at h
  · split at h
    · cases h
    · cases h; rfl
  · cases h; rfl
  · split at h
    · cases h; rfl
    · cases h
  · split at h
    · split at h
      · cases h
      · cases h; rfl
    · split at h
      · cases h; rfl
      · cases h
    · cases h

/-- A page that an arrival reaches grants an atomic, is of kind 1 or 2, and gives the address. -/
theorem State.resolve_mbar {s : State} {core ctx va n pa : Nat} {sup : Bool} {e leaf : Word}
    (h : s.resolve core ctx sup va .atomic mbarKind (.leaf e n) = .ok pa leaf) :
    (pteKind e = 1 ∨ pteKind e = 2) ∧ s.leafPa core e va n = .ok pa e ∧ leaf = e := by
  have hok : mbarKind (pteKind e) = none ∧ s.leafPa core e va n = .ok pa leaf := by
    unfold State.resolve at h
    dsimp only at h
    split at h
    · split at h
      · cases h
      · next hk =>
        refine ⟨hk, ?_⟩
        split at h
        · split at h
          · cases h
          · exact h
        · exact h
    · next hno => exact absurd h (hno _ _)
  obtain ⟨hk, hpa⟩ := hok
  cases State.leafPa_eq_ok hpa
  exact ⟨mbarKind_eq_none.mp hk, hpa, rfl⟩

/-- A page that an arrival reaches is no reason to refuse the word. -/
theorem State.mbarRefusal_of_resolve {s w : State} {x : Group} {va e leaf : Word} {n pa : Nat}
    (hw : s.translate x.core x.ctx (vaOf va) true = (.leaf e n, w))
    (h : w.resolve x.core x.ctx x.sup (vaOf va) .atomic mbarKind (.leaf e n) = .ok pa leaf) : s.mbarRefusal x va = none := by
  obtain ⟨hk, hpa, -⟩ := State.resolve_mbar h
  simp only [State.mbarRefusal, hw, mbarKind_eq_none.mpr hk, hpa]
  exact ite_self _

section
variable {s : State}

theorem State.forwardPa_of_no_migs (h : s.sys.migs = []) (pa : Nat) : s.forwardPa pa = pa := by simp [State.forwardPa, h]

theorem State.migWaits_of_no_migs (h : s.sys.migs = []) (t : Ticket) (pa : Nat) : s.migWaits t pa = false := by
  simp [State.migWaits, h]

theorem State.recallFirst_of_no_own (h : s.sys.own = []) (leaf : Word) (d pa : Nat) (atomic : Bool) :
    s.recallFirst leaf d pa atomic = some s := by
  simp [State.recallFirst, State.recallDue, h]

/-- An arrival that nothing refuses brings the new word to its home slice. -/
theorem State.serve_mbarAcc {ctx d pa home off : Nat} {leaf va new : Word} (hm : s.sys.migs = [])
    (hp : placeOf s.tagging pa = .hbm home off) (hr : s.refuses ctx 0 leaf pa (mbarAcc va new) = none) :
    ∃ v t, s.serve ctx 0 d leaf pa (mbarAcc va new) = (.done v, t) ∧ (s.store pa 8 new.toNat).Beside t := by
  have hdata : atomStep .exch .u64 (BitVec.ofNat 64 (s.load pa 8)) ((new.setWidth 128).setWidth 64) 0 = some new := by
    simp [atomStep, ITy.cut, ITy.wide]
  have hperform : ∃ v, s.perform 0 d leaf pa (mbarAcc va new) = (v, ((s.store pa 8 new.toNat).l2Touch pa home true).mbarNotice) := by
    unfold State.perform
    simp only [State.forwardPa_of_no_migs hm, hp, mbarAcc, mkAcc, hdata]
    exact ⟨_, rfl⟩
  obtain ⟨v, hv⟩ := hperform
  refine ⟨v, ((s.store pa 8 new.toNat).l2Touch pa home true).mbarNotice, ?_, State.Beside.refl.l2Touch.mbarNotice⟩
  simp only [State.serve, hr, hv]

/-- The access of an arrival whose word can be reached, with nothing in its way, is performed. -/
theorem State.oneAccess_mbar {w : State} {g : Nat} {x : Group} {i : WordInfo} {va new e leaf : Word} {n pa home off : Nat}
    (hva : va.toNat % 8 = 0) (hea : eaBad va = false) (hw : s.translate x.core x.ctx (vaOf va) true = (.leaf e n, w))
    (hres : w.resolve x.core x.ctx x.sup (vaOf va) .atomic mbarKind (.leaf e n) = .ok pa leaf)
    (hm : w.sys.migs = []) (ho : w.sys.own = []) (hq : w.sys.reqs = []) (hs : w.repl.strongs = [])
    (hp : placeOf w.tagging pa = .hbm home off) (hr : w.refuses x.ctx 0 leaf pa (mbarAcc va new) = none) :
    ∃ v t, s.oneAccess g x i mbarKind (mbarAcc va new) = (.done v pa, t) ∧ (w.store pa 8 new.toNat).Beside t := by
  obtain ⟨hk, -, hleaf⟩ := State.resolve_mbar hres
  have hkind : pteKind leaf ≠ 3 := by rw [hleaf]; omega
  obtain ⟨v, t, hserve, hbeside⟩ := State.serve_mbarAcc (d := w.writeDie x.core pa) hm hp hr
  have hbehind (team : Nat) : w.behindStrong g team w.nextId [{ acc := mbarAcc va new, pa := pa }] = false := by
    simp [State.behindStrong, hs]
  suffices hacc : s.oneAccess g x i mbarKind (mbarAcc va new) = (.done v pa, (((t.migLeave (.group g)).countReq pa).heatCount x.core true
      [(pa, leaf)]).watched i x.ctx (i.lanesFor 0) .atomic va 8) from ⟨v, _, hacc, hbeside.migLeave.countReq.heatCount.watched⟩
  have hwrite : decide (¬ Need.atomic = Need.read) = true := rfl
  have hsize : (mbarAcc va new).size = 8 := rfl
  have hneed : (mbarAcc va new).op.need = .atomic := rfl
  have hva' : (mbarAcc va new).va = va := rfl
  have hat : (mbarAcc va new).op.isAtomic = true := rfl
  have hwatch : (mbarAcc va new).op.watchKind = some .atomic := rfl
  simp only [State.oneAccess, hsize, hva', hva, hea, hwrite, hneed, hw, hres, hq, hkind, hbehind, hat, hwatch,
    State.migWaits_of_no_migs hm, State.forwardPa_of_no_migs hm, State.recallFirst_of_no_own ho, ne_eq, not_true_eq_false, if_false,
    Bool.false_eq_true, List.any_nil, decide_false, Bool.false_and, Bool.or_false, Bool.not_true, if_true, hserve]
  rfl

end

end Sys2Proof.Machine
end

section
namespace Sys2Proof.Machine
open Sys2Proof Sys2Proof.Spec

/-! ### An arrival that is made (R135) -/

theorem State.Looked.hasGrp {s t : State} (h : s.Looked t) (k : Nat) : t.hasGrp k = s.hasGrp k := by simp [State.hasGrp, h.groups]

theorem State.Looked.tagging {s t : State} (h : s.Looked t) : t.tagging = s.tagging := by simp [State.tagging, State.reg, h.mgmt]

/-- A group with other pending records. -/
def Group.withPending (x : Group) (l : List PendTrap) : Group := { x with pending := l }

/-- From `s` to `t` group `g` arrives at the word at `pa`, which takes step `st`: it goes on, or it waits for the generation `gen`
to be replaced. -/
structure State.ArrivedAt (s t : State) (g pa : Nat) (st : Word × Bool) (w : Susp) : Prop where
  load : t.load pa 8 = st.1.toNat
  byte : ∀ p, p < pa ∨ pa + 8 ≤ p → t.byte p = s.byte p
  grp : ∃ l, t.grp g = if st.2 then ((s.grp g).withPending l).released s.tick else ((s.grp g).withPending l).waiting w

/-- An arrival of group `g` noted at its word, and the group no more due to leave it. -/
def State.arrivalNoted (s : State) (pa : Nat) (gen : BitVec 32) (g : Nat) (last : Bool) : State :=
  let t := s.mbarNote pa gen g last
  t.setHub { t.hub with mbarGone := t.hub.mbarGone.filter (fun k => decide (k ≠ g)) }

theorem State.Beside.arrivalNoted {s₀ s : State} {pa gen g last} (h : s₀.Beside s) : s₀.Beside (s.arrivalNoted pa gen g last) :=
  h.mbarNote.setHub

/-- A group that has arrived goes on where it is the last, and waits at the barrier where it is not. -/
def State.afterArrival (s : State) (g pa : Nat) (i : WordInfo) (va : Word) (n : Nat) (gen : BitVec 32) (last : Bool) : State :=
  if last then (s.mbarLeave g i).post (.mbarRelease pa) else s.suspend g (.mbar i va n pa gen true none)

theorem State.afterArrival_spec {s : State} {g : Nat} (hg : s.hasGrp g = true) (pa : Nat) (i : WordInfo) (va : Word) (n : Nat)
    (gen : BitVec 32) (last : Bool) :
    let t := s.afterArrival g pa i va n gen last
    t.mem = s.mem ∧
      t.grp g = if last then (s.grp g).released s.tick else (s.grp g).waiting (.mbar i va n pa gen true none) := by
  cases last with
  | true =>
    obtain ⟨hmem, -, -, -, -, hgrp⟩ := s.mbarLeave_spec g i
    exact ⟨hmem, (hgrp g).trans (if_pos ⟨rfl, hg⟩)⟩
  | false =>
    have h : s.afterArrival g pa i va n gen false = _ := State.suspend_eq hg (.mbar i va n pa gen true none)
    rw [h]
    exact ⟨rfl, by simp⟩

section
variable {s w : State} {g : Nat} {i : WordInfo} {va e leaf : Word} {n size pa home off : Nat}

/-- The way of an arrival whose word can be reached, with nothing in its way. -/
theorem State.mbarTry_arrives {t : State} {v : BitVec 128}
    (hsusp : (s.grp g).sched.susp = .mbar i va n 0 0 false none)
    (hd : s.lsDone g (s.grp g).team i.seq i.scope false = true)
    (hw : s.translate (s.grp g).core (s.grp g).ctx (vaOf va) true = (.leaf e size, w))
    (hres : w.resolve (s.grp g).core (s.grp g).ctx (s.grp g).sup (vaOf va) .atomic mbarKind (.leaf e size) = .ok pa leaf)
    (hm : s.sys.migs = []) (ho : s.sys.own = []) (hrr : i.rr.1 = 0)
    (hacc : s.oneAccess g (s.grp g) i mbarKind (mbarAcc va (mbarStep (BitVec.ofNat 64 (s.load pa 8)) n).1) = (.done v pa, t)) :
    let old : Word := BitVec.ofNat 64 (s.load pa 8)
    let st := mbarStep old n
    let gen := old.extractLsb' 32 32
    s.mbarTry g = (t.arrivalNoted pa gen g st.2).afterArrival g pa i va n gen st.2 := by
  intro old st gen
  have hgate (c u id : Nat) (a : Word) : s.gate { info := i, ctx := c, unit := u, id := id, addr := a } = .go s := by
    simp [State.gate, hrr]
  simp only [State.mbarTry, hsusp, hd, hw, hres, State.forwardPa_of_no_migs hm, State.recallFirst_of_no_own ho, hacc, hgate,
    BitVec.setWidth_ushiftRight_eq_extractLsb]
  rfl

theorem State.setBytes_tick (s : State) (pa : Nat) (l : List Byte) : (s.setBytes pa l).tick = s.tick := by
  induction l generalizing s pa with
  | nil => rfl
  | cons b t ih => exact ih _ _

/-- What is read where memory is that of a store. -/
theorem State.load_byte_of_mem {t : State} {new : Word} (h : t.mem = (s.store pa 8 new.toNat).mem) :
    t.load pa 8 = new.toNat ∧ ∀ p, p < pa ∨ pa + 8 ≤ p → t.byte p = s.byte p := by
  refine ⟨?_, fun p hp => ?_⟩
  · have hload : t.load pa 8 = (s.store pa 8 new.toNat).load pa 8 := by simp [State.load, State.bytes, State.byte, h]
    rw [hload, State.load_store]
    exact Nat.mod_eq_of_lt new.isLt
  · rw [byte_of_mem h, State.store, State.byte_setBytes, if_neg (by rw [bytesOfNum_length]; omega)]

theorem State.grp_of_beside_store {t : State} {x : Nat} (hw : s.Looked w) (h : (w.store pa 8 x).Beside t) (k : Nat) :
    t.tick = s.tick ∧ t.hasGrp k = s.hasGrp k ∧ ∃ l, t.grp k = (s.grp k).withPending l := by
  have hgroups : (w.store pa 8 x).groups = s.groups := (w.setBytes_groups pa _).trans hw.groups
  have htick : (w.store pa 8 x).tick = s.tick := (w.setBytes_tick pa _).trans hw.tick
  obtain ⟨l, hl⟩ := h.grp k
  exact ⟨h.tick.trans htick, (h.hasGrp k).trans (by simp [State.hasGrp, hgroups]), l, by rw [hl, State.grp, hgroups]; rfl⟩

/-- An arrival whose word can be reached, with nothing in its way, is made. -/
theorem State.mbarTry_spec (hg : s.hasGrp g = true) (hsusp : (s.grp g).sched.susp = .mbar i va n 0 0 false none)
    (hd : s.lsDone g (s.grp g).team i.seq i.scope false = true) (hva : va.toNat % 8 = 0) (hea : eaBad va = false)
    (hw : s.translate (s.grp g).core (s.grp g).ctx (vaOf va) true = (.leaf e size, w))
    (hres : w.resolve (s.grp g).core (s.grp g).ctx (s.grp g).sup (vaOf va) .atomic mbarKind (.leaf e size) = .ok pa leaf)
    (hm : s.sys.migs = []) (ho : s.sys.own = []) (hq : s.sys.reqs = []) (hs : s.repl.strongs = []) (hrr : i.rr.1 = 0)
    (hp : placeOf s.tagging pa = .hbm home off)
    (hr : w.refuses (s.grp g).ctx 0 leaf pa (mbarAcc va (mbarStep (BitVec.ofNat 64 (s.load pa 8)) n).1) = none) :
    let old : Word := BitVec.ofNat 64 (s.load pa 8)
    s.ArrivedAt (s.mbarTry g) g pa (mbarStep old n) (.mbar i va n pa (old.extractLsb' 32 32) true none) := by
  intro old
  have hlook : s.Looked w := by
    have h := (State.Looked.refl (s := s)).translate (core := (s.grp g).core) (ctx := (s.grp g).ctx) (va := vaOf va) (write := true)
    rwa [hw] at h
  obtain ⟨v, t, hacc, hbeside⟩ := State.oneAccess_mbar (i := i) hva hea hw hres (hlook.migs.trans hm) (hlook.own.trans ho)
    (hlook.reqs.trans hq) (by rw [hlook.repl, hs]) (by rw [hlook.tagging, hp]) hr
  have htry := State.mbarTry_arrives hsusp hd hw hres hm ho hrr hacc
  have hnoted := hbeside.arrivalNoted (pa := pa) (gen := old.extractLsb' 32 32) (g := g) (last := (mbarStep old n).2)
  obtain ⟨htick, hhas, l, hgrp⟩ := State.grp_of_beside_store hlook hnoted g
  obtain ⟨hmem, hx⟩ := State.afterArrival_spec (hhas.trans hg) pa i va n (old.extractLsb' 32 32) (mbarStep old n).2
  obtain ⟨hload, hbyte⟩ := State.load_byte_of_mem (hmem.trans hnoted.mem)
  rw [hgrp, htick] at hx
  rw [htry]
  exact ⟨hload, fun p hp => (hbyte p hp).trans (byte_of_mem hlook.mem p), l, hx⟩

end

/-! ### Every barrier word answers a next state (R132 to R135, R137) -/

section
variable {h : Hdr} {sc : Scope} {a b : Operand} {s w : State} {g pa size home off : Nat} {e leaf : Word}

/-- An `mbar` whose word can be reached, with nothing in its way, arrives there. -/
theorem exec_mbar_arrives (hg : s.hasGrp g = true) (hs : s.Stands g (.mbar h sc a b)) (hu : (s.grp g).uniGuard h = .run) :
    let x := s.grp g
    let va := s.rd x a 0
    let n := max ((s.rd x b 0).toNat % 2 ^ 32) 1
    let old : Word := BitVec.ofNat 64 (s.load pa 8)
    let i := s.mbarInfo g sc
    let s₁ := s.setGrp g (x.atMbar i va n)
    va.toNat % 8 = 0 → eaBad va = false → s.lsWaits g x = false → s.lsDone g x.team x.mem.seq sc false = true →
      s.translate x.core x.ctx (vaOf va) true = (.leaf e size, w) →
      w.resolve x.core x.ctx x.sup (vaOf va) .atomic mbarKind (.leaf e size) = .ok pa leaf →
      s.sys.migs = [] → s.sys.own = [] → s.sys.reqs = [] → s.repl.strongs = [] → (s.team x.team).rrMode = 0 →
      placeOf s.tagging pa = .hbm home off → w.refuses x.ctx 0 leaf pa (mbarAcc va (mbarStep old n).1) = none →
      ∃ t : State, exec (.mbar h sc a b) s = .next (t.retire g h.bnd .run) ∧
        s₁.ArrivedAt t g pa (mbarStep old n) (.mbar i va n pa (old.extractLsb' 32 32) true none) := by
  intro x va n old i s₁ hva hea hls hd hw hres hm ho hq hst hrr hp hr
  have hx : s₁.grp g = x.atMbar i va n := by simp [s₁]
  have hw₁ : s₁.translate x.core x.ctx (vaOf va) true = (.leaf e size, w.setGrp g (x.atMbar i va n)) := by
    rw [State.translate_setGrp, hw]; rfl
  have hd₁ : s₁.lsDone g x.team x.mem.seq sc false = true := (State.lsDone_setGrp (y := x.atMbar i va n) rfl rfl ..).trans hd
  have harr := State.mbarTry_spec (s := s₁) (g := g) (i := i) (va := va) (e := e) (leaf := leaf) (n := n) (size := size) (pa := pa)
    (w := w.setGrp g (x.atMbar i va n)) (home := home) (off := off) (by simp [s₁]) (by rw [hx]; rfl) (by rw [hx]; exact hd₁) hva hea
    (by rw [hx]; exact hw₁) (by rw [hx]; exact hres) hm ho hq hst hrr hp (by rw [hx]; exact hr)
  exact ⟨_, exec_mbar_run hs hu hg hva hls (State.mbarRefusal_of_resolve hw hres), harr⟩

end

/-- The group after the arrival of a `bar` or a `cbar`: it waits for its release, goes on, or waits for the others. -/
theorem State.grp_after_arrival {s t : State} {g : Nat} {w₀ w₁ : Susp} {b : Barrier} {last : Prop} [Decidable last] {free : Bool}
    (hg : s.hasGrp g = true) (hwait : free = false → t = s.setGrp g ((s.grp g).waiting w₀))
    (harr : free = true → s.Arrived t g w₁ b last) :
    t.mem = s.mem ∧ t.tick = s.tick ∧ t.grp g = { s.grp g with sched := { (s.grp g).sched with
      susp := if free = false then w₀ else if last then .none else w₁,
      since := if free = true ∧ last then s.tick else (s.grp g).sched.since } } := by
  cases free with
  | false =>
    rw [hwait rfl]
    exact ⟨rfl, rfl, by simp [Group.waiting]⟩
  | true =>
    obtain ⟨hmem, htick, hwaits, hleaves⟩ := harr rfl
    refine ⟨hmem, htick, ?_⟩
    by_cases hl : last
    · rw [hleaves hl g (by simp) hg]; simp [hl, Group.released]
    · rw [hwaits hl]; simp [hl, Group.waiting]

/-- Settles O18: `bar`, `cbar` and `mbar` answer a next state, and so does the release of a barrier word. -/
theorem barrierWordsComplete : Obligations.BarrierWordsComplete := by
  refine ⟨fun h id a s g => ?_, fun h s g => ?_, fun h sc a b s w g pa size home off e leaf => ?_, fun s pa => ?_⟩
  · intro x tm n b need free last hg ht hs hu
    obtain ⟨t, he, hwait, harr⟩ := exec_bar_run hg hu ht hs
    exact ⟨t, he, State.grp_after_arrival hg hwait fun hf => (harr hf).1⟩
  · intro x k live need free last hg hs hu
    obtain ⟨t, he, hwait, harr⟩ := exec_cbar_run hg hu hs
    exact ⟨t, he, State.grp_after_arrival hg hwait fun hf => (harr hf).1⟩
  · intro i x va n old new hg hs hu hva hea hls hd hw hres hm ho hq hst hrr hp hr
    obtain ⟨t, he, hload, hbyte, l, hgrp⟩ := exec_mbar_arrives hg hs hu hva hea hls hd hw hres hm ho hq hst hrr hp hr
    rw [State.grp_setGrp, if_pos rfl] at hgrp
    refine ⟨t, he, hload, hbyte, ?_⟩
    cases hlast : new.2 with
    | true =>
      rw [show (mbarStep (BitVec.ofNat 64 (s.load pa 8)) n).2 = true from hlast, if_pos rfl] at hgrp
      rw [hgrp]
      exact ⟨rfl, rfl, fun _ => ⟨rfl, rfl⟩, nofun⟩
    | false =>
      rw [show (mbarStep (BitVec.ofNat 64 (s.load pa 8)) n).2 = false from hlast, if_neg Bool.false_ne_true] at hgrp
      rw [hgrp]
      exact ⟨rfl, rfl, nofun, fun _ => ⟨_, rfl⟩⟩
  · obtain ⟨t, he, hmem, hother, hwait⟩ := exec_mbarRelease_spec s pa
    refine ⟨t, he, hmem, hother, fun g i va n gen hg hw => ⟨fun hgo => ?_, fun hgen hgone => ?_⟩⟩
    · exact (hwait g i va n gen hg hw).trans (if_neg fun hstay => hgo.elim (· hstay.1) hstay.2)
    · exact (hwait g i va n gen hg hw).trans (if_pos ⟨hgen, hgone⟩)

end Sys2Proof.Machine
end

section
namespace Sys2Proof.Tab

/-! ### Tables after many writes -/

section
variable {α β : Type} [DecidableEq α] {d : α} {key : β → Nat} {val : β → α} {l : List β} {k : Nat}

theorem get_foldl_set_other (h : ∀ b ∈ l, key b ≠ k) (t : Tab α) :
    get d k (l.foldl (fun m b => set d (key b) (val b) m) t) = get d k t := by
  induction l generalizing t with
  | nil => rfl
  | cons a l ih =>
    rw [List.foldl_cons, ih fun b hb => h b (List.mem_cons_of_mem _ hb), get_set, if_neg fun e => h a List.mem_cons_self e.symm]

/-- A key reads as what was written to it, where every write to it wrote the same. -/
theorem get_foldl_set_same {v : α} (hk : ∃ b ∈ l, key b = k) (hv : ∀ b ∈ l, key b = k → val b = v) (t : Tab α) :
    get d k (l.foldl (fun m b => set d (key b) (val b) m) t) = v := by
  induction l generalizing t with
  | nil => obtain ⟨b, hb, -⟩ := hk; cases hb
  | cons a l ih =>
    rw [List.foldl_cons]
    by_cases hlater : ∃ b ∈ l, key b = k
    · exact ih hlater (fun b hb => hv b (List.mem_cons_of_mem _ hb)) _
    · have hother : ∀ b ∈ l, key b ≠ k := fun b hb e => hlater ⟨b, hb, e⟩
      obtain ⟨b, hb, hbk⟩ := hk
      obtain rfl : b = a := (List.mem_cons.mp hb).resolve_right fun h => hother b h hbk
      rw [get_foldl_set_other hother, ← hbk, get_set_self, hv b hb hbk]

end

/-- Bytes that are written one behind the other. -/
theorem get_foldl_set_bytes (o k : Nat) (l : List Byte) (t : Tab Byte) :
    get 0 k (l.zipIdx.foldl (fun m e => set 0 (o + e.2) e.1 m) t) =
      if o ≤ k ∧ k < o + l.length then l.getD (k - o) 0 else get 0 k t := by
  split
  · next h =>
    refine get_foldl_set_same (key := fun e : Byte × Nat => o + e.2) (val := Prod.fst) ⟨(l[k - o], k - o), ?_, by simp; omega⟩ ?_ t
    · simp [List.mem_zipIdx_iff_getElem?]
    · rintro ⟨b, j⟩ hb rfl
      simp_all [List.mem_zipIdx_iff_getElem?]
  · next h =>
    refine get_foldl_set_other (key := fun e : Byte × Nat => o + e.2) (val := Prod.fst) ?_ t
    rintro ⟨b, j⟩ hb rfl
    have := (List.getElem?_eq_some_iff.mp (List.mem_zipIdx_iff_getElem?.mp hb)).1
    simp at this
    omega

/-- Entries that are taken out read as if they were not listed. -/
theorem get_filter_not {α : Type} (d : α) (p : Nat → Bool) (k : Nat) (t : Tab α) :
    get d k (t.filter (fun e => !p e.1)) = if p k then d else get d k t := by
  induction t with
  | nil => simp
  | cons e t ih =>
    by_cases hp : p e.1
    · rw [List.filter_cons_of_neg (by simpa using hp), ih]
      by_cases hk : e.1 = k
      · subst hk; simp [hp]
      · simp [get, hk]
    · rw [List.filter_cons_of_pos (by simpa using hp)]
      by_cases hk : e.1 = k
      · subst hk; simp [get, hp]
      · simp [get, hk, ih]

end Sys2Proof.Tab

namespace Sys2Proof.Machine
open Sys2Proof Sys2Proof.Spec

/-! ### Lists over ranges -/

section
variable {α : Type}

theorem zipIdx_map_range (f : Nat → α) (n : Nat) : ((List.range n).map f).zipIdx = (List.range n).map (fun i => (f i, i)) :=
  List.ext_getElem (by simp) (by simp)

theorem getD_map_range {n i : Nat} (h : i < n) (f : Nat → α) (z : α) : ((List.range n).map f).getD i z = f i := by
  simp [List.getD_eq_getElem?_getD, h]

theorem take_drop_map_range {n a b : Nat} (h : a + b ≤ n) (f : Nat → α) :
    (((List.range n).map f).drop a).take b = (List.range b).map (fun k => f (a + k)) :=
  List.ext_getElem (by simp; omega) (by simp)

theorem flatMap_range_mul (f : Nat → α) (m n : Nat) :
    (List.range m).flatMap (fun i => (List.range n).map (fun j => f (i * n + j))) = (List.range (m * n)).map f := by
  induction m with
  | zero => simp
  | succ m ih => simp [List.range_succ, ih, Nat.succ_mul, List.range_add]

/-- The same, where the places are told by their quotients and remainders. -/
theorem flatMap_range_divMod (f : Nat → Nat → α) (m n : Nat) :
    (List.range m).flatMap (fun i => (List.range n).map (f i)) = (List.range (m * n)).map (fun k => f (k / n) (k % n)) := by
  rw [← flatMap_range_mul]
  refine List.flatMap_congr fun i _ => List.map_congr_left fun j hj => ?_
  have hn : j < n := List.mem_range.mp hj
  have hpos : 0 < n := by omega
  rw [Nat.mul_comm, Nat.mul_add_div hpos, Nat.div_eq_of_lt hn, Nat.mul_add_mod, Nat.mod_eq_of_lt hn, Nat.add_zero]

end

/-! ### Numbers as bytes (R2, R44) -/

theorem bytesOfNum_eq_map (n x : Nat) : bytesOfNum n x = (List.range n).map (fun k => BitVec.ofNat 8 (x / 2 ^ (8 * k))) := by
  induction n generalizing x with
  | zero => rfl
  | succ n ih =>
    rw [bytesOfNum, ih, List.range_succ_eq_map, List.map_cons, List.map_map]
    congr 1
    · simp
    · refine List.map_congr_left fun k _ => ?_
      simp only [Function.comp, Nat.div_div_eq_div_mul]
      congr 2
      rw [show 8 * k.succ = 8 + 8 * k by omega, Nat.pow_add]

theorem bytesOfNum_numOfBytes (l : List Byte) : bytesOfNum l.length (numOfBytes l) = l := by
  induction l with
  | nil => rfl
  | cons b t ih =>
    rw [List.length_cons, bytesOfNum, numOfBytes, show (b.toNat + 256 * numOfBytes t) / 256 = numOfBytes t by omega, ih]
    congr 1
    refine BitVec.eq_of_toNat_eq ?_
    simp only [BitVec.toNat_ofNat]
    omega

end Sys2Proof.Machine
end

section
namespace Sys2Proof.Machine
open Sys2Proof Sys2Proof.Spec

/-! ### Stores to local memory and to the window (R166, R208) -/

theorem Team.loc_locStore (tm : Team) (o : Nat) (l : List Byte) (k : Nat) : Tab.get 0 k (tm.locStore o l).loc =
    if o ≤ k ∧ k < o + l.length then l.getD (k - o) 0 else Tab.get 0 k tm.loc :=
  Tab.get_foldl_set_bytes o k l tm.loc

theorem Team.window_winStore (tm : Team) (o : Nat) (l : List Byte) (k : Nat) : Tab.get 0 k (tm.winStore o l).window =
    if o ≤ k ∧ k < o + l.length then l.getD (k - o) 0 else Tab.get 0 k tm.window :=
  Tab.get_foldl_set_bytes o k l tm.window

/-- Bytes of local memory, read as a number and split again, are the bytes that stand there. -/
theorem Team.bytesOfNum_locLoad (tm : Team) (o n : Nat) :
    bytesOfNum n (tm.locLoad o n) = (List.range n).map (fun k => Tab.get 0 (o + k) tm.loc) := by
  have h := bytesOfNum_numOfBytes ((List.range n).map (fun k => Tab.get 0 (o + k) tm.loc))
  rwa [List.length_map, List.length_range] at h

/-! ### Matrices as rows -/

/-- The rows of a matrix of `m` rows and `n` columns. -/
def rowsOf {α : Type} (m n : Nat) (a : Nat → Nat → α) : List (List α) := (List.range m).map (fun i => (List.range n).map (a i))

section
variable {α β : Type} {m n : Nat}

theorem rowsOf_congr {a b : Nat → Nat → α} (h : ∀ i < m, ∀ j < n, a i j = b i j) : rowsOf m n a = rowsOf m n b :=
  List.map_congr_left fun i hi => List.map_congr_left fun j hj => h i (List.mem_range.mp hi) j (List.mem_range.mp hj)

@[simp] theorem map_map_rowsOf (f : α → β) (a : Nat → Nat → α) :
    (rowsOf m n a).map (fun r => r.map f) = rowsOf m n (fun i j => f (a i j)) := by
  simp [rowsOf, Function.comp_def]

@[simp] theorem zipIdx_rowsOf (a : Nat → Nat → α) :
    (rowsOf m n a).zipIdx = (List.range m).map (fun i => ((List.range n).map (a i), i)) := zipIdx_map_range ..

theorem getD_rowsOf {i j : Nat} (hi : i < m) (hj : j < n) (a : Nat → Nat → α) (y : List α) (z : α) :
    ((rowsOf m n a).getD i y).getD j z = a i j := by
  rw [rowsOf, getD_map_range hi, getD_map_range hj]

theorem columns_rowsOf (a : Mat) : columns (rowsOf m n a) n = rowsOf n m (fun j i => a i j) := by
  refine List.map_congr_left fun j hj => ?_
  rw [rowsOf, List.map_map]
  exact List.map_congr_left fun i _ => getD_map_range (List.mem_range.mp hj) _ _

end

theorem Team.range_square (tm : Team) (d m : Nat) : tm.range d m m = rowsOf m m (tileAt tm d m) := rfl

theorem roundOp_rowsOf (f16 : Bool) (m n : Nat) (a : Mat) : roundOp f16 (rowsOf m n a) = rowsOf m n (roundedOp f16 a) :=
  map_map_rowsOf _ a

theorem scaleRows_rowsOf (z m n : Nat) (a : Mat) : scaleRows z (rowsOf m n a) = rowsOf m n (scaledBy z a) := map_map_rowsOf _ a

theorem narrowRows_rowsOf (f : Fmt) (m n : Nat) (a : Mat) :
    narrowRows f (rowsOf m n a) = rowsOf m n (fun i j => decodeVal f (a i j % 65536)) := map_map_rowsOf _ a

theorem product_rowsOf (m n k : Nat) (start : Mat) (a b : Nat → Nat → Val) :
    product k start (rowsOf m k a) (rowsOf n k b) = rowsOf m n (fun i j =>
      accumulate false 8 (List.replicate (k / 8) (127, 127)) ((List.range k).map (a i)) ((List.range k).map (b j)) (start i j)) := by
  simp [product, rowsOf, zipIdx_map_range, Function.comp_def]

/-- Accumulate of two square matrices of operands (R62). -/
theorem product_narrowRows (f16 : Bool) (m : Nat) (start a b : Mat) :
    product m start (narrowRows (.flt (opFmt f16)) (rowsOf m m a)) (narrowRows (.flt (opFmt f16)) (columns (rowsOf m m b) m)) =
      rowsOf m m (timesFrom f16 m start a b) := by
  rw [columns_rowsOf, narrowRows_rowsOf, narrowRows_rowsOf, product_rowsOf]
  rfl

theorem signCode_lt {f : FFmt} (hw : f.w = 16) (neg : Bool) {c : Nat} (hc : c < 2 ^ 15) : signCode f neg c < 65536 := by
  unfold signCode
  split
  · rw [hw]; omega
  · omega

/-- Codes of 15 bits under a sign (R176). -/
theorem roundF_lt {f : FFmt} {i n : Nat} (hw : f.w = 16) (hs : f.signed = true) (hinf : f.infCode = some i) (hnan : f.nanCode = some n)
    (hmax : f.maxCode < 2 ^ 15) (hi : i < 2 ^ 15) (hn : n < 2 ^ 15) (md : Mode) (v : Val) : (roundF f md false false v).1 < 65536 := by
  cases v with
  | nan sig => simp only [roundF, hnan]; omega
  | inf neg => simpa [roundF, hinf, hs] using signCode_lt hw neg hi
  | fin neg m e =>
    simp only [roundF, hs, hinf, Bool.not_true, Bool.and_false, Bool.false_and, Bool.false_eq_true, if_false, Bool.false_or]
    split
    · split
      · exact signCode_lt hw neg hmax
      · exact signCode_lt hw neg hi
    · next h => exact signCode_lt hw neg (by omega)

theorem roundF_opFmt_lt (f16 : Bool) (md : Mode) (v : Val) : (roundF (opFmt f16) md false false v).1 < 65536 := by
  cases f16 with
  | true => exact roundF_lt (f := fp16) rfl rfl rfl rfl (by decide) (by decide) (by decide) md v
  | false => exact roundF_lt (f := bf16) rfl rfl rfl rfl (by decide) (by decide) (by decide) md v

theorem roundedOp_lt (f16 : Bool) (a : Mat) (i j : Nat) : roundedOp f16 a i j < 65536 := roundF_opFmt_lt ..

/-! ### The elements of a range of tiles (R159) -/

theorem tileKey_inj {t n i j i' j' : Nat} (hn : 64 ∣ n) (hj : j < n) (hj' : j' < n) (h : tileKey t n i j = tileKey t n i' j') :
    i = i' ∧ j = j' := by
  obtain ⟨c, rfl⟩ := hn
  have hc : 0 < c := by omega
  simp only [tileKey, Nat.mul_div_cancel_left c (show 0 < 64 by decide)] at h
  have hcell : i % 64 = i' % 64 ∧ j % 64 = j' % 64 := by omega
  have htile : i / 64 * c + j / 64 = i' / 64 * c + j' / 64 := by omega
  have hq : j / 64 < c := by omega
  have hq' : j' / 64 < c := by omega
  have hrow : i / 64 = i' / 64 := by
    have := congrArg (· / c) htile
    simpa [Nat.add_comm, Nat.add_mul_div_right, hc, Nat.div_eq_of_lt hq, Nat.div_eq_of_lt hq'] using this
  rw [hrow] at htile
  omega

theorem tileKey_mem {t m n i j : Nat} (hm : 64 ∣ m) (hn : 64 ∣ n) (hi : i < m) (hj : j < n) :
    t * 4096 ≤ tileKey t n i j ∧ tileKey t n i j < (t + m / 64 * (n / 64)) * 4096 := by
  obtain ⟨c, rfl⟩ := hn
  obtain ⟨r, rfl⟩ := hm
  simp only [tileKey, Nat.mul_div_cancel_left _ (show 0 < 64 by decide)]
  have hrow : (i / 64 + 1) * c ≤ r * c := Nat.mul_le_mul_right c (by omega)
  rw [Nat.succ_mul] at hrow
  have hq : j / 64 < c := by omega
  omega

section
variable {m n : Nat} (tm : Team) (t : Nat) (a : Mat)

/-- The places of a matrix. -/
def cells (m n : Nat) : List (Nat × Nat) := (List.range m).flatMap (fun i => (List.range n).map (fun j => (i, j)))

@[simp] theorem mem_cells {m n : Nat} {p : Nat × Nat} : p ∈ cells m n ↔ p.1 < m ∧ p.2 < n := by
  simp only [cells, List.mem_flatMap, List.mem_map, List.mem_range]
  grind

theorem Team.tiles_putRange_eq_foldl : (tm.putRange t n (rowsOf m n a)).tiles =
    (cells m n).foldl (fun k p => Tab.set 0 (tileKey t n p.1 p.2) (BitVec.ofNat 32 (a p.1 p.2)) k) tm.tiles := by
  simp only [Team.putRange, cells, zipIdx_rowsOf, List.foldl_map, List.foldl_flatMap, zipIdx_map_range]

theorem Team.tiles_putRange (hn : 64 ∣ n) {i j : Nat} (hi : i < m) (hj : j < n) :
    Tab.get 0 (tileKey t n i j) (tm.putRange t n (rowsOf m n a)).tiles = BitVec.ofNat 32 (a i j) := by
  rw [Team.tiles_putRange_eq_foldl]
  refine Tab.get_foldl_set_same (key := fun p : Nat × Nat => tileKey t n p.1 p.2) (val := fun p => BitVec.ofNat 32 (a p.1 p.2))
    ⟨(i, j), mem_cells.mpr ⟨hi, hj⟩, rfl⟩ (fun p hp hk => ?_) _
  obtain ⟨h₁, h₂⟩ := tileKey_inj hn (mem_cells.mp hp).2 hj hk
  rw [h₁, h₂]

theorem Team.tiles_putRange_other (hm : 64 ∣ m) (hn : 64 ∣ n) {k : Nat} (hk : k < t * 4096 ∨ (t + m / 64 * (n / 64)) * 4096 ≤ k) :
    Tab.get 0 k (tm.putRange t n (rowsOf m n a)).tiles = Tab.get 0 k tm.tiles := by
  rw [Team.tiles_putRange_eq_foldl]
  refine Tab.get_foldl_set_other (key := fun p : Nat × Nat => tileKey t n p.1 p.2) (val := fun p => BitVec.ofNat 32 (a p.1 p.2))
    (fun p hp e => ?_) _
  obtain ⟨h₁, h₂⟩ := tileKey_mem (t := t) hm hn (mem_cells.mp hp).1 (mem_cells.mp hp).2
  omega

end

end Sys2Proof.Machine
end

section
namespace Sys2Proof.Machine
open Sys2Proof Sys2Proof.Spec

/-! ### A matrix of 16-bit elements in the window (R176) -/

/-- The bytes of a row of 16-bit elements. -/
def rowBytes (n : Nat) (f : Nat → Nat) : List Byte := ((List.range n).map f).flatMap (bytesOfNum 2)

theorem rowBytes_eq (n : Nat) (f : Nat → Nat) :
    rowBytes n f = (List.range (n * 2)).map (fun k => BitVec.ofNat 8 (f (k / 2) / 2 ^ (8 * (k % 2)))) := by
  rw [← flatMap_range_divMod (fun j b => BitVec.ofNat 8 (f j / 2 ^ (8 * b))), rowBytes, List.flatMap_map]
  exact List.flatMap_congr fun j _ => bytesOfNum_eq_map 2 (f j)

@[simp] theorem rowBytes_length (n : Nat) (f : Nat → Nat) : (rowBytes n f).length = n * 2 := by simp [rowBytes_eq]

theorem rowBytes_getD {n j b : Nat} (hj : j < n) (hb : b < 2) (f : Nat → Nat) :
    (rowBytes n f).getD (2 * j + b) 0 = BitVec.ofNat 8 (f j / 2 ^ (8 * b)) := by
  rw [rowBytes_eq, getD_map_range (by omega), show (2 * j + b) / 2 = j by omega, show (2 * j + b) % 2 = b by omega]

section
variable (tm : Team) (o m : Nat) (a : Mat)

/-- The window after `r` rows are stored: each reads as its bytes, and what is outside them as before. -/
theorem Team.window_winRows (r : Nat) :
    (∀ i < r, ∀ c < 2 * m, Tab.get 0 (o + 2 * m * i + c) (tm.winRows o m (rowsOf r m a)).window = (rowBytes m (a i)).getD c 0) ∧
      windowKept tm (tm.winRows o m (rowsOf r m a)) o (o + 2 * m * r) := by
  rw [Team.winRows, zipIdx_rowsOf, List.foldl_map]
  refine foldl_range_induction (fun r (tm' : Team) =>
    (∀ i < r, ∀ c < 2 * m, Tab.get 0 (o + 2 * m * i + c) tm'.window = (rowBytes m (a i)).getD c 0) ∧
      windowKept tm tm' o (o + 2 * m * r)) ⟨by omega, fun _ _ => rfl⟩ ?_ r
  rintro r tm' ⟨hrows, hkept⟩
  dsimp only
  refine ⟨fun i hi c hc => ?_, fun k hk => ?_⟩
  · rw [Team.window_winStore, ← rowBytes, rowBytes_length]
    rcases Nat.lt_succ_iff_lt_or_eq.mp hi with hlt | rfl
    · have : 2 * m * (i + 1) ≤ 2 * m * r := Nat.mul_le_mul_left _ hlt
      rw [Nat.mul_succ] at this
      rw [if_neg (by omega), hrows i hlt c hc]
    · rw [if_pos (by omega), Nat.add_sub_cancel_left]
  · rw [Nat.mul_succ] at hk
    rw [Team.window_winStore, ← rowBytes, rowBytes_length, if_neg (by omega), hkept k (by omega)]

theorem Team.inWindow_winRows {a : Mat} (ha : ∀ i j, a i j < 65536) : inWindow (tm.winRows o m (rowsOf m m a)) o m a := by
  intro i hi j hj
  have hbyte (b : Nat) (hb : b < 2) : Tab.get 0 (o + 2 * (m * i + j) + b) (tm.winRows o m (rowsOf m m a)).window =
      BitVec.ofNat 8 (a i j / 2 ^ (8 * b)) := by
    rw [show o + 2 * (m * i + j) + b = o + 2 * m * i + (2 * j + b) by rw [Nat.mul_add, Nat.mul_assoc]; omega,
      (Team.window_winRows tm o m a m).1 i hi _ (by omega), rowBytes_getD hj hb]
  have hload : (List.range 2).map (fun b => Tab.get 0 (o + 2 * (m * i + j) + b) (tm.winRows o m (rowsOf m m a)).window) =
      bytesOfNum 2 (a i j) := by
    rw [bytesOfNum_eq_map]
    exact List.map_congr_left fun b hb => hbyte b (List.mem_range.mp hb)
  rw [Team.winLoad, hload, numOfBytes_bytesOfNum, show 256 ^ 2 = 65536 from rfl, Nat.mod_eq_of_lt (ha i j)]

theorem Team.windowKept_winRows : windowKept tm (tm.winRows o m (rowsOf m m a)) o (o + 2 * m * m) :=
  (Team.window_winRows tm o m a m).2

end

/-! ### What a matrix word leaves of a team (R159, R166) -/

/-- Of a team the tiles and the window alone have changed. -/
def onlyMatrix (tm tm' : Team) : Prop := { tm' with tiles := tm.tiles, window := tm.window } = tm

section
variable {tm tm' tm'' : Team} {lo hi lo' hi' o m : Nat} {a : Mat}

theorem onlyMatrix_iff : onlyMatrix tm tm' ↔ ∃ t w, tm' = { tm with tiles := t, window := w } :=
  ⟨fun h => ⟨tm'.tiles, tm'.window, by rw [← h]⟩, by rintro ⟨t, w, rfl⟩; rfl⟩

theorem onlyMatrix.trans (h : onlyMatrix tm tm') (h' : onlyMatrix tm' tm'') : onlyMatrix tm tm'' := by
  obtain ⟨t, w, rfl⟩ := onlyMatrix_iff.mp h
  obtain ⟨t', w', rfl⟩ := onlyMatrix_iff.mp h'
  rfl

theorem Team.winStore_only (tm : Team) (o : Nat) (l : List Byte) : onlyMatrix tm (tm.winStore o l) := rfl

theorem Team.putRange_only (tm : Team) (t n : Nat) (rows : List (List Nat)) : onlyMatrix tm (tm.putRange t n rows) := rfl

theorem Team.winRows_frame (tm : Team) (o n : Nat) (rows : List (List Nat)) :
    onlyMatrix tm (tm.winRows o n rows) ∧ (tm.winRows o n rows).tiles = tm.tiles := by
  refine List.foldlRecOn (motive := fun tm' => onlyMatrix tm tm' ∧ tm'.tiles = tm.tiles) _ _ ⟨rfl, rfl⟩ ?_
  rintro tm' ⟨ho, ht⟩ r -
  exact ⟨ho.trans (tm'.winStore_only ..), ht⟩

theorem windowKept_trans (h : windowKept tm tm' lo hi) (h' : windowKept tm' tm'' lo hi) : windowKept tm tm'' lo hi :=
  fun k hk => (h' k hk).trans (h k hk)

theorem windowKept_mono (h : windowKept tm tm' lo hi) (hlo : lo' ≤ lo) (hhi : hi ≤ hi') : windowKept tm tm' lo' hi' :=
  fun k hk => h k (by omega)

/-- A matrix stands in the window while what is written is beside it. -/
theorem inWindow_of_windowKept (h : inWindow tm o m a) (hk : windowKept tm tm' lo hi) (hd : o + 2 * m * m ≤ lo ∨ hi ≤ o) :
    inWindow tm' o m a := by
  intro i hi' j hj
  have hin : m * i + j + 1 ≤ m * m := calc
    m * i + j + 1 ≤ m * (i + 1) := by rw [Nat.mul_succ]; omega
    _ ≤ m * m := Nat.mul_le_mul_left m hi'
  have hmm : 2 * m * m = 2 * (m * m) := Nat.mul_assoc ..
  rw [← h i hi' j hj, Team.winLoad, Team.winLoad]
  refine congrArg numOfBytes (List.map_congr_left fun b hb => hk _ ?_)
  have hb2 : b < 2 := List.mem_range.mp hb
  omega

theorem inWindow_of_window_eq (h : inWindow tm o m a) (hw : tm'.window = tm.window) : inWindow tm' o m a :=
  inWindow_of_windowKept h (lo := 0) (hi := 0) (fun _ _ => by rw [hw]) (.inr (Nat.zero_le o))

theorem inTiles_putRange (hm : 64 ∣ m) (tm : Team) (t : Nat) (a : Mat) : inTiles (tm.putRange t m (rowsOf m m a)) t m a :=
  fun _ hi _ hj => Team.tiles_putRange tm t a hm hi hj

theorem tilesKept_putRange (hm : 64 ∣ m) (tm : Team) (t : Nat) (a : Mat) : tilesKept tm (tm.putRange t m (rowsOf m m a)) m [t] :=
  fun _ hk => Team.tiles_putRange_other tm t a hm hm (hk t List.mem_cons_self)

/-- A matrix stands in its tiles while what is written is in other tiles. -/
theorem inTiles_of_tilesKept {d e : Nat} (hm : 64 ∣ m) (h : inTiles tm d m a) (hk : tilesKept tm tm' m [e])
    (hd : d + m / 64 * (m / 64) ≤ e ∨ e + m / 64 * (m / 64) ≤ d) : inTiles tm' d m a := by
  intro i hi j hj
  obtain ⟨h₁, h₂⟩ := tileKey_mem (t := d) hm hm hi hj
  rw [← h i hi j hj, hk]
  intro f hf
  rw [List.mem_singleton.mp hf]
  rcases hd with hd | hd
  · exact .inl (h₂.trans_le (Nat.mul_le_mul_right 4096 hd))
  · exact .inr ((Nat.mul_le_mul_right 4096 hd).trans h₁)

theorem tilesKept_of_tiles_eq {l : List Nat} (h : tm'.tiles = tm.tiles) : tilesKept tm tm' m l := fun _ _ => by rw [h]

theorem tilesKept_trans {l : List Nat} (h : tilesKept tm tm' m l) (h' : tilesKept tm' tm'' m l) : tilesKept tm tm'' m l :=
  fun k hk => (h' k hk).trans (h k hk)

theorem tilesKept_mono {l l' : List Nat} (h : tilesKept tm tm' m l) (hl : l ⊆ l') : tilesKept tm tm' m l' :=
  fun k hk => h k fun d hd => hk d (hl hd)

end

end Sys2Proof.Machine
end

section
namespace Sys2Proof.Machine
open Sys2Proof Sys2Proof.Spec

theorem four_squares (o m : Nat) : o + 2 * m * m + 2 * m * m = o + 4 * m * m := by
  rw [Nat.mul_assoc 2, Nat.mul_assoc 4]; omega

theorem six_squares (o m : Nat) : o + 4 * m * m + 2 * m * m = o + 6 * m * m := by
  rw [Nat.mul_assoc 4, Nat.mul_assoc 2, Nat.mul_assoc 6]; omega

/-! ### `mpoly` (R176) -/

section
variable {m : Nat} {f16 : Bool}

/-- The rounds of an `mpoly`: the matrix that they leave, and in the scratch the operands of the last. -/
theorem Team.mpolyGo_spec (off : Nat) (xb : Mat) (l : List Nat) (tm : Team) (y : Mat) :
    let r := Team.mpolyGo m off f16 (rowsOf m m xb) l tm (rowsOf m m y)
    r.2 = rowsOf m m (polyRounds f16 m xb l y) ∧ onlyMatrix tm r.1 ∧ r.1.tiles = tm.tiles ∧
      (l ≠ [] → inWindow r.1 (off + 2 * m * m) m (roundedOp f16 (polyRounds f16 m xb l.dropLast y))) ∧
      windowKept tm r.1 (off + 2 * m * m) (off + (if l = [] then 2 else 4) * m * m) := by
  induction l generalizing tm y with
  | nil => exact ⟨rfl, rfl, rfl, fun h => absurd rfl h, fun _ _ => rfl⟩
  | cons c t ih =>
    have hgo : Team.mpolyGo m off f16 (rowsOf m m xb) (c :: t) tm (rowsOf m m y) =
        Team.mpolyGo m off f16 (rowsOf m m xb) t (tm.winRows (off + 2 * m * m) m (rowsOf m m (roundedOp f16 y)))
          (rowsOf m m (timesFrom f16 m (onDiagonal c) (roundedOp f16 y) xb)) := by
      simp only [Team.mpolyGo, roundOp_rowsOf, product_narrowRows]
      rfl
    obtain ⟨hframe, htiles⟩ := tm.winRows_frame (off + 2 * m * m) m (rowsOf m m (roundedOp f16 y))
    have hput := tm.inWindow_winRows (off + 2 * m * m) m (roundedOp_lt f16 y)
    have hwin := tm.windowKept_winRows (off + 2 * m * m) m (roundedOp f16 y)
    rw [four_squares] at hwin
    obtain ⟨hy, ho, ht, hlast, hkept⟩ := ih (tm.winRows (off + 2 * m * m) m (rowsOf m m (roundedOp f16 y)))
      (timesFrom f16 m (onDiagonal c) (roundedOp f16 y) xb)
    rw [← hgo] at hy ho ht hlast hkept
    refine ⟨hy, hframe.trans ho, ht.trans htiles, fun _ => ?_, ?_⟩
    · cases t with
      | nil => rw [hgo]; exact hput
      | cons c' t => exact hlast (List.cons_ne_nil _ _)
    · rw [if_neg (List.cons_ne_nil c t)]
      refine windowKept_trans hwin (windowKept_mono hkept (Nat.le_refl _) ?_)
      split
      · rw [← four_squares]; exact Nat.le_add_right _ _
      · exact Nat.le_refl _

theorem Team.mpoly_spec (hm : 64 ∣ m) (tm : Team) (d off : Nat) {coef : List Lane32} {c : Nat} {low : List Nat}
    (hc : (coef.map BitVec.toNat).reverse = c :: low) :
    let xb := roundedOp f16 (tileAt tm d m)
    let tm' := tm.mpoly m d off f16 coef
    onlyMatrix tm tm' ∧ inTiles tm' d m (polyRounds f16 m xb low (onDiagonal c)) ∧ tilesKept tm tm' m [d] ∧ inWindow tm' off m xb ∧
      (low ≠ [] → inWindow tm' (off + 2 * m * m) m (roundedOp f16 (polyRounds f16 m xb low.dropLast (onDiagonal c)))) ∧
      windowKept tm tm' off (off + (if low = [] then 2 else 4) * m * m) := by
  intro xb tm'
  let u := tm.winRows off m (rowsOf m m xb)
  let r := Team.mpolyGo m off f16 (rowsOf m m xb) low u (rowsOf m m (onDiagonal c))
  have hmp : tm' = r.1.putRange d m r.2 := by
    simp only [tm', Team.mpoly, hc, Team.range_square, roundOp_rowsOf]
    rfl
  obtain ⟨hy, ho, ht, hlast, hkept⟩ := Team.mpolyGo_spec (f16 := f16) off xb low u (onDiagonal c)
  obtain ⟨hframe, htiles⟩ := tm.winRows_frame off m (rowsOf m m xb)
  have hwin := tm.windowKept_winRows off m xb
  rw [hmp, hy]
  refine ⟨(hframe.trans ho).trans (Team.putRange_only ..), inTiles_putRange hm _ _ _, ?_, ?_,
    fun hl => inWindow_of_window_eq (hlast hl) rfl, ?_⟩
  · exact tilesKept_trans (tilesKept_of_tiles_eq (ht.trans htiles)) (tilesKept_putRange hm _ _ _)
  · exact inWindow_of_window_eq (inWindow_of_windowKept (tm.inWindow_winRows off m (roundedOp_lt f16 _)) hkept (.inl (Nat.le_refl _))) rfl
  · refine windowKept_trans (windowKept_mono hwin (Nat.le_refl _) ?_) (windowKept_mono hkept ?_ (Nat.le_refl _))
    · split
      · exact Nat.le_refl _
      · rw [← four_squares]; exact Nat.le_add_right _ _
    · rw [Nat.mul_assoc]; exact Nat.le_add_right _ _

end

/-! ### The phases of a `miter` (R178, R179) -/

theorem residual_rowsOf (m : Nat) (a : Mat) : residual (rowsOf m m a) = residualOf m a := by
  simp only [residual, residualOf, zipIdx_rowsOf, zipIdx_map_range, List.foldl_map, List.foldl_flatMap, eq_comm]

section
variable {m x w off : Nat} {ns5 f16 : Bool} {coef : List Lane32} {cap tol : Nat} {q : MiterRun} (tm : Team)

theorem product_scaled (z : Nat) (s a b : Mat) :
    product m (fun i j => ((scaleRows z (rowsOf m m s)).getD i []).getD j 0)
      (narrowRows (.flt (opFmt f16)) (rowsOf m m a)) (narrowRows (.flt (opFmt f16)) (columns (rowsOf m m b) m)) =
      rowsOf m m (timesFrom f16 m (scaledBy z s) a b) := by
  rw [product_narrowRows, scaleRows_rowsOf]
  exact rowsOf_congr fun i hi j hj => by rw [timesFrom, timesFrom, getD_rowsOf hi hj]

/-- Phase 0 of the update: X times its transpose. -/
theorem Team.miterPhase_zero (hq : q.phase = 0) :
    let xb := roundedOp f16 (tileAt tm x m)
    tm.miterPhase m x w off ns5 f16 coef cap tol q = (.on { q with phase := 1 },
      (tm.winRows off m (rowsOf m m xb)).putRange w m (rowsOf m m (timesFrom f16 m (fun _ _ => 0) xb (fun i j => xb j i)))) := by
  intro xb
  rw [← product_narrowRows, columns_rowsOf]
  simp only [Team.miterPhase, hq, Team.range_square, roundOp_rowsOf]
  rfl

/-- Phase 1 where its test ends the word. -/
theorem Team.miterPhase_one_stop (hq : q.phase = 1) {q' : MiterRun} {code reason : Nat}
    (ht : miterTest q (residualOf m (tileAt tm w m)) cap tol = .stop q' code reason) :
    tm.miterPhase m x w off ns5 f16 coef cap tol q = (.stop q' code reason, tm) := by
  simp only [Team.miterPhase, hq, Team.range_square, residual_rowsOf, ht]

/-- Phase 1 where the update goes on: the factor of order 3, or of order 5. -/
theorem Team.miterPhase_one_on (hq : q.phase = 1) {q' : MiterRun}
    (ht : miterTest q (residualOf m (tileAt tm w m)) cap tol = .on q') :
    let ws := tileAt tm w m
    let tb := roundedOp f16 (scaledBy (coef.getD 2 0).toNat ws)
    let ab := roundedOp f16 ws
    tm.miterPhase m x w off ns5 f16 coef cap tol q = (.on { q' with phase := 2 },
      if ns5 = true then ((tm.winRows (off + 4 * m * m) m (rowsOf m m tb)).winRows (off + 2 * m * m) m (rowsOf m m ab)).putRange w m
        (rowsOf m m (timesFrom f16 m (scaledBy (coef.getD 1 0).toNat ws) tb ab))
      else tm.putRange w m (rowsOf m m (scaledBy (coef.getD 1 0).toNat ws))) := by
  intro ws tb ab
  simp only [Team.miterPhase, hq, Team.range_square, residual_rowsOf, ht, ← product_scaled]
  cases ns5 <;> simp [scaleRows_rowsOf, roundOp_rowsOf, tb, ab, ws]

/-- Phase 2: the new X, in both its places. -/
theorem Team.miterPhase_two (hq : q.phase = 2) :
    let xs := tileAt tm x m
    let pb := roundedOp f16 (tileAt tm w m)
    let xb := roundedOp f16 xs
    let y := timesFrom f16 m (scaledBy (coef.getD 0 0).toNat xs) pb xb
    tm.miterPhase m x w off ns5 f16 coef cap tol q = (.on { q with phase := 0, iter := q.iter + 1 },
      (((tm.winRows (off + 2 * m * m) m (rowsOf m m pb)).winRows off m (rowsOf m m xb)).putRange w m (rowsOf m m y)).putRange x m
        (rowsOf m m y)) := by
  intro xs pb xb y
  simp only [Team.miterPhase, hq, Team.range_square, roundOp_rowsOf, y, ← product_scaled]
  rfl

end

end Sys2Proof.Machine
end

section
namespace Sys2Proof.Machine
open Sys2Proof Sys2Proof.Spec

/-- The test of a `miter` (R179): its four ends, the cap, and how the word goes on. -/
theorem miterTest_spec (q : MiterRun) (r cap tol : Nat) :
    let v := decodeF fp32 r
    let big := cmpV v (.fin false 1 20) = .gt
    let met := (decodeF fp32 tol).isNan = false ∧ cmpV v (decodeF fp32 tol) ≠ .gt
    let up := decide (0 < q.iter) && (match q.lastr with | some l => decide (cmpV v (decodeF fp32 l) = .gt) | none => false)
    let t := miterTest q r cap tol
    (v.isNan = true → t = .stop q 3 3) ∧
    (v.isNan = false → big → t = .stop q 3 1) ∧
    (v.isNan = false → ¬ big → met → t = .stop { q with lastr := some r } 1 0) ∧
    (v.isNan = false → ¬ big → ¬ met → up = true → q.rise = true → t = .stop { q with lastr := some r, rise := true } 3 2) ∧
    (v.isNan = false → ¬ big → ¬ met → ¬ (up = true ∧ q.rise = true) → cap ≤ q.iter →
      t = .stop { q with lastr := some r, rise := up } 2 0) ∧
    (v.isNan = false → ¬ big → ¬ met → ¬ (up = true ∧ q.rise = true) → q.iter < cap →
      t = .on { q with lastr := some r, rise := up }) := by
  intro v big met up t
  have ht : t = if v.isNan = true then .stop q 3 3 else if big then .stop q 3 1 else if met then .stop { q with lastr := some r } 1 0
      else if up = true ∧ q.rise = true then .stop { q with lastr := some r, rise := true } 3 2
      else if cap ≤ q.iter then .stop { q with lastr := some r, rise := up } 2 0 else .on { q with lastr := some r, rise := up } := by
    simp only [t, miterTest, met, Bool.and_eq_true, Bool.not_eq_true', decide_eq_true_eq, big, v, up] <;> rfl
  rw [ht]
  refine ⟨fun hn => by rw [if_pos hn], fun hn hb => ?_, fun hn hb hm => ?_, fun hn hb hm hu hr => ?_, fun hn hb hm hu hc => ?_,
    fun hn hb hm hu hc => ?_⟩ <;> rw [if_neg (by rw [hn]; exact Bool.false_ne_true)]
  · rw [if_pos hb]
  · rw [if_neg hb, if_pos hm]
  · rw [if_neg hb, if_neg hm, if_pos ⟨hu, hr⟩]
  · rw [if_neg hb, if_neg hm, if_neg hu, if_pos hc]
  · rw [if_neg hb, if_neg hm, if_neg hu, if_neg (Nat.not_le.mpr hc)]

/-- The test leaves `miter` with a code of two bits, or lets it go on. -/
theorem miterTest_code {q q' : MiterRun} {r cap tol code reason : Nat} (h : miterTest q r cap tol = .stop q' code reason) : code < 4 := by
  unfold miterTest at h
  dsimp only at h
  repeat' split at h
  all_goals cases h
  all_goals decide

section
variable {m x w off : Nat} {ns5 f16 : Bool} {coef : List Lane32} {cap tol : Nat} {q : MiterRun} (tm : Team)

theorem Team.miterPhase_zero_spec (hm : 64 ∣ m) (hq : q.phase = 0) :
    let r := tm.miterPhase m x w off ns5 f16 coef cap tol q
    let xb := roundedOp f16 (tileAt tm x m)
    r.1 = .on { q with phase := 1 } ∧ onlyMatrix tm r.2 ∧ inTiles r.2 w m (timesFrom f16 m (fun _ _ => 0) xb (fun i j => xb j i)) ∧
      tilesKept tm r.2 m [w] ∧ inWindow r.2 off m xb ∧ windowKept tm r.2 off (off + 2 * m * m) := by
  intro r xb
  have hr : r = _ := tm.miterPhase_zero hq
  rw [hr]
  obtain ⟨hframe, htiles⟩ := tm.winRows_frame off m (rowsOf m m xb)
  exact ⟨rfl, hframe.trans (Team.putRange_only ..), inTiles_putRange hm _ _ _,
    tilesKept_trans (tilesKept_of_tiles_eq htiles) (tilesKept_putRange hm _ _ _),
    inWindow_of_window_eq (tm.inWindow_winRows off m (roundedOp_lt f16 _)) rfl, tm.windowKept_winRows off m xb⟩

theorem Team.miterPhase_one_spec (hm : 64 ∣ m) (hq : q.phase = 1) {q' : MiterRun}
    (ht : miterTest q (residualOf m (tileAt tm w m)) cap tol = .on q') :
    let r := tm.miterPhase m x w off ns5 f16 coef cap tol q
    let ws := tileAt tm w m
    let c := fun k => (coef.getD k 0).toNat
    r.1 = .on { q' with phase := 2 } ∧ onlyMatrix tm r.2 ∧ tilesKept tm r.2 m [w] ∧
      (ns5 = false → inTiles r.2 w m (scaledBy (c 1) ws) ∧ windowKept tm r.2 0 0) ∧
      (ns5 = true →
        let tb := roundedOp f16 (scaledBy (c 2) ws)
        let ab := roundedOp f16 ws
        inTiles r.2 w m (timesFrom f16 m (scaledBy (c 1) ws) tb ab) ∧ inWindow r.2 (off + 4 * m * m) m tb ∧
        inWindow r.2 (off + 2 * m * m) m ab ∧ windowKept tm r.2 (off + 2 * m * m) (off + 6 * m * m)) := by
  intro r ws c
  have hr : r = _ := tm.miterPhase_one_on hq ht
  rw [hr]
  cases ns5 with
  | false => exact ⟨rfl, Team.putRange_only .., tilesKept_putRange hm _ _ _, fun _ => ⟨inTiles_putRange hm _ _ _, fun _ _ => rfl⟩, nofun⟩
  | true =>
    let tb := roundedOp f16 (scaledBy (c 2) ws)
    let ab := roundedOp f16 ws
    let u := tm.winRows (off + 4 * m * m) m (rowsOf m m tb)
    obtain ⟨hf₁, ht₁⟩ := tm.winRows_frame (off + 4 * m * m) m (rowsOf m m tb)
    obtain ⟨hf₂, ht₂⟩ := u.winRows_frame (off + 2 * m * m) m (rowsOf m m ab)
    have hk₁ := tm.windowKept_winRows (off + 4 * m * m) m tb
    have hk₂ := u.windowKept_winRows (off + 2 * m * m) m ab
    rw [six_squares] at hk₁
    rw [four_squares] at hk₂
    have h24 : off + 2 * m * m ≤ off + 4 * m * m := by rw [← four_squares]; exact Nat.le_add_right _ _
    have h46 : off + 4 * m * m ≤ off + 6 * m * m := by rw [← six_squares]; exact Nat.le_add_right _ _
    refine ⟨rfl, (hf₁.trans hf₂).trans (Team.putRange_only ..), ?_, nofun, fun _ => ⟨inTiles_putRange hm _ _ _, ?_, ?_, ?_⟩⟩
    · exact tilesKept_trans (tilesKept_of_tiles_eq (ht₂.trans ht₁)) (tilesKept_putRange hm _ _ _)
    · have htb := tm.inWindow_winRows (off + 4 * m * m) m (roundedOp_lt f16 (scaledBy (c 2) ws))
      exact inWindow_of_window_eq (inWindow_of_windowKept htb hk₂ (.inr (Nat.le_refl _))) rfl
    · exact inWindow_of_window_eq (u.inWindow_winRows (off + 2 * m * m) m (roundedOp_lt f16 ws)) rfl
    · exact windowKept_trans (windowKept_mono hk₁ h24 (Nat.le_refl _)) (windowKept_mono hk₂ (Nat.le_refl _) h46)

theorem Team.miterPhase_two_spec (hm : 64 ∣ m) (hxw : x + m / 64 * (m / 64) ≤ w ∨ w + m / 64 * (m / 64) ≤ x) (hq : q.phase = 2) :
    let r := tm.miterPhase m x w off ns5 f16 coef cap tol q
    let pb := roundedOp f16 (tileAt tm w m)
    let xb := roundedOp f16 (tileAt tm x m)
    let y := timesFrom f16 m (scaledBy (coef.getD 0 0).toNat (tileAt tm x m)) pb xb
    r.1 = .on { q with phase := 0, iter := q.iter + 1 } ∧ onlyMatrix tm r.2 ∧ inTiles r.2 w m y ∧ inTiles r.2 x m y ∧
      tilesKept tm r.2 m [w, x] ∧ inWindow r.2 (off + 2 * m * m) m pb ∧ inWindow r.2 off m xb ∧
      windowKept tm r.2 off (off + 4 * m * m) := by
  intro r pb xb y
  have hr : r = _ := tm.miterPhase_two hq
  rw [hr]
  let u := tm.winRows (off + 2 * m * m) m (rowsOf m m pb)
  obtain ⟨hf₁, ht₁⟩ := tm.winRows_frame (off + 2 * m * m) m (rowsOf m m pb)
  obtain ⟨hf₂, ht₂⟩ := u.winRows_frame off m (rowsOf m m xb)
  have hk₁ := tm.windowKept_winRows (off + 2 * m * m) m pb
  have hk₂ := u.windowKept_winRows off m xb
  rw [four_squares] at hk₁
  let v := (u.winRows off m (rowsOf m m xb)).putRange w m (rowsOf m m y)
  have htw : tilesKept tm v m [w] := tilesKept_trans (tilesKept_of_tiles_eq (ht₂.trans ht₁)) (tilesKept_putRange hm _ _ _)
  have htx : tilesKept v (v.putRange x m (rowsOf m m y)) m [x] := tilesKept_putRange hm _ _ _
  refine ⟨rfl, ((hf₁.trans hf₂).trans (Team.putRange_only ..)).trans (Team.putRange_only ..),
    inTiles_of_tilesKept hm (inTiles_putRange hm _ _ _) htx hxw.symm, inTiles_putRange hm _ _ _, ?_, ?_, ?_, ?_⟩
  · exact tilesKept_trans (tilesKept_mono htw (by simp)) (tilesKept_mono htx (by simp))
  · have hpb := tm.inWindow_winRows (off + 2 * m * m) m (roundedOp_lt f16 (tileAt tm w m))
    exact inWindow_of_window_eq (inWindow_of_windowKept hpb hk₂ (.inr (Nat.le_refl _))) rfl
  · exact inWindow_of_window_eq (u.inWindow_winRows off m (roundedOp_lt f16 (tileAt tm x m))) rfl
  · refine windowKept_trans (windowKept_mono hk₁ (Nat.le_add_right _ _) (Nat.le_refl _)) (windowKept_mono hk₂ (Nat.le_refl _) ?_)
    rw [← four_squares]; exact Nat.le_add_right _ _

/-- A phase changes tiles and the window alone, whatever its size. -/
theorem Team.miterPhase_only : onlyMatrix tm (tm.miterPhase m x w off ns5 f16 coef cap tol q).2 := by
  have hwin (u : Team) (h : onlyMatrix tm u) (o : Nat) (rows : List (List Nat)) : onlyMatrix tm (u.winRows o m rows) :=
    h.trans (u.winRows_frame o m rows).1
  have hput (u : Team) (h : onlyMatrix tm u) (t : Nat) (rows : List (List Nat)) : onlyMatrix tm (u.putRange t m rows) :=
    h.trans (u.putRange_only ..)
  unfold Team.miterPhase
  dsimp only
  split
  · exact hput _ (hwin _ rfl _ _) _ _
  · split
    · rfl
    · cases ns5 with
      | false => exact hput _ rfl _ _
      | true => exact hput _ (hwin _ (hwin _ rfl _ _) _ _) _ _
  · exact hput _ (hput _ (hwin _ (hwin _ rfl _ _) _ _) _ _) _ _

/-- A phase that ends the word has tested it. -/
theorem Team.miterPhase_stop {q' : MiterRun} {code reason : Nat}
    (h : (tm.miterPhase m x w off ns5 f16 coef cap tol q).1 = .stop q' code reason) : code < 4 := by
  unfold Team.miterPhase at h
  dsimp only at h
  split at h
  · cases h
  · split at h
    · next ht => cases h; exact miterTest_code ht
    · cases h
  · cases h

end

end Sys2Proof.Machine
end

section
namespace Sys2Proof.Machine
open Sys2Proof Sys2Proof.Spec

/-! ### The head of a team's queue (R160) -/

@[simp] theorem find?_teams_setTeam (s : State) (k j : Nat) (x : Team) :
    (Tab.find? j (s.setTeam k x).teams).isSome = (decide (j = k) || (Tab.find? j s.teams).isSome) := by
  simp only [State.setTeam, Tab.find?_put]; split <;> simp [*]

theorem State.later_sys (s : State) (e : Instr) : (s.later e).sys = s.sys := by
  unfold State.later
  split <;> rfl

theorem State.grp_of_groups {s t : State} (h : t.groups = s.groups) (g : Nat) : t.grp g = s.grp g := by rw [State.grp, State.grp, h]

theorem State.owns_of_groups {s t : State} (h : t.groups = s.groups) (i : WordInfo) : t.owns i = s.owns i := by
  rw [State.owns, State.owns, State.grp_of_groups h, State.hasGrp, State.hasGrp, h]

/-- A word that its team's queue holds first, with no other of its number behind it, while the team has groups left. -/
structure MxHead (s : State) (team : Nat) (e : MxEntry) (rest : List MxEntry) : Prop where
  here : (Tab.find? team s.teams).isSome = true
  queue : (s.team team).mx = e :: rest
  others : ∀ k ∈ rest, k.id ≠ e.id
  members : (s.team team).members ≠ []

section
variable {s : State} {team : Nat} {e e' : MxEntry} {rest : List MxEntry}

theorem tryEndTeam_of_members (h : (s.team team).members ≠ []) : s.tryEndTeam team = s := by
  have hm : (s.team team).members.isEmpty = false := by simpa using h
  rw [State.tryEndTeam, hm]
  simp

theorem MxHead.putMx (h : MxHead s team e rest) (hid : e'.id = e.id) :
    s.putMx team e' = s.setTeam team { s.team team with mx := e' :: rest } := by
  have hrest : rest.map (fun k => if k.id = e.id then e' else k) = rest :=
    (List.map_congr_left fun k hk => if_neg (h.others k hk)).trans (List.map_id rest)
  rw [State.putMx, State.updTeam_eq_setTeam h.here, h.queue, List.map_cons, hid, if_pos rfl, hrest]

/-- The group of a word that has left the queue, with its flags added and its trap pending. -/
def Group.afterMx (x : Group) (e : MxEntry) (trap : Option (Nat × Nat × Word)) : Group :=
  let y := x.addFlags e.flags
  match trap with
  | some (cause, info, va) =>
    { y with pending := y.pending ++ [{ cause := cause, pc := e.pc, addr := va, info := BitVec.ofNat 64 info, lanes := allLanes }] }
  | none => y

/-- The groups once a word has left the queue. -/
def State.afterMx (s : State) (team : Nat) (e : MxEntry) (trap : Option (Nat × Nat × Word)) : State :=
  if s.owns (e.info team) = true then s.setGrp e.grp ((s.grp e.grp).afterMx e trap) else s

theorem State.afterMx_frame (s : State) (team : Nat) (e : MxEntry) (trap : Option (Nat × Nat × Word)) :
    (s.afterMx team e trap).teams = s.teams ∧ (s.afterMx team e trap).mem = s.mem ∧ (s.afterMx team e trap).sys = s.sys ∧
      (s.owns (e.info team) = true → (s.afterMx team e trap).grp e.grp = (s.grp e.grp).afterMx e trap) := by
  unfold State.afterMx
  split
  · exact ⟨rfl, rfl, rfl, fun _ => (State.grp_setGrp ..).trans (if_pos rfl)⟩
  · next h => exact ⟨rfl, rfl, rfl, fun ho => absurd ho h⟩

theorem MxHead.mxEnd_eq (h : MxHead s team e rest) (hid : e'.id = e.id) (trap : Option (Nat × Nat × Word)) :
    let v := (s.setTeam team { s.team team with mx := rest }).afterMx team e' trap
    s.mxEnd team e' trap = if rest = [] then v else v.later (.matrixWordExecute (s.team team).core team) := by
  let u := s.setTeam team { s.team team with mx := rest }
  let v := u.afterMx team e' trap
  have hu : s.updTeam team (fun tm => { tm with mx := tm.mx.filter (fun k => decide (k.id ≠ e'.id)) }) = u := by
    have hrest : rest.filter (fun k => decide (k.id ≠ e'.id)) = rest :=
      List.filter_eq_self.mpr fun k hk => by simpa [hid] using h.others k hk
    rw [State.updTeam_eq_setTeam h.here, h.queue, List.filter_cons_of_neg (by simp [hid]), hrest]
  have hv : (if u.owns (e'.info team) = true then
      (match trap with
       | some (cause, info, va) => (u.updGrp e'.grp (fun x => x.addFlags e'.flags)).trapLater e'.grp
           { cause := cause, pc := e'.pc, addr := va, info := BitVec.ofNat 64 info, lanes := allLanes }
       | none => u.updGrp e'.grp (fun x => x.addFlags e'.flags))
      else u) = v := by
    simp only [v, State.afterMx]
    split
    · next ho =>
      have hg : u.hasGrp e'.grp = true := (Bool.and_eq_true_iff.mp ho).1
      cases trap with
      | none => exact State.updGrp_eq_setGrp hg
      | some p =>
        rw [State.updGrp_eq_setGrp hg]
        refine (State.updGrp_eq_setGrp (by simp)).trans ?_
        rw [State.setGrp_setGrp, State.grp_setGrp, if_pos rfl]
        rfl
    · rfl
  have hteam : v.team team = { s.team team with mx := rest } := by
    rw [State.team, (State.afterMx_frame ..).1]; exact (State.team_setTeam ..).trans (if_pos rfl)
  have hend : s.mxEnd team e' trap =
      if (v.team team).mx.isEmpty = true then v.tryEndTeam team else v.later (.matrixWordExecute (v.team team).core team) := by
    rw [← hv, ← hu]; rfl
  rw [hend, tryEndTeam_of_members (by rw [hteam]; exact h.members), hteam]
  simp only [List.isEmpty_iff]
  rfl

/-- A word that ends leaves the queue, adds its flags and leaves its trap pending (R160, R186). -/
theorem MxHead.mxEnd (h : MxHead s team e rest) (hid : e'.id = e.id) (trap : Option (Nat × Nat × Word)) :
    let t := s.mxEnd team e' trap
    t.team team = { s.team team with mx := rest } ∧ t.mem = s.mem ∧ t.sys = s.sys ∧
      (s.owns (e'.info team) = true → t.grp e'.grp = (s.grp e'.grp).afterMx e' trap) := by
  intro t
  let u := s.setTeam team { s.team team with mx := rest }
  obtain ⟨hteams, hmem, hsys, hgrp⟩ := u.afterMx_frame team e' trap
  have hteam : (u.afterMx team e' trap).team team = { s.team team with mx := rest } := by
    rw [State.team, hteams]; exact (State.team_setTeam ..).trans (if_pos rfl)
  have ht : t = _ := h.mxEnd_eq hid trap
  rw [ht]
  split
  · exact ⟨hteam, hmem, hsys, hgrp⟩
  · exact ⟨(State.team_later ..).trans hteam, (State.later_mem ..).trans hmem, (State.later_sys ..).trans hsys,
      fun ho => (State.grp_later ..).trans (hgrp ho)⟩

end

end Sys2Proof.Machine
end

section
namespace Sys2Proof.Machine
open Sys2Proof Sys2Proof.Spec

/-! ### The matrix unit takes a word (R160) -/

/-- The word at the head of a team's queue that the matrix unit of a core takes next. -/
structure MxTurn (s : State) (core team : Nat) (e : MxEntry) (rest : List MxEntry) : Prop extends MxHead s team e rest where
  core_eq : (s.team team).core = core
  ready : (s.team team).mxReady = true
  next : s.mxNext core = some team
  thawed : s.freezeDue = false

/-- An entry once the matrix unit has taken it. -/
def MxEntry.taken (e : MxEntry) : MxEntry := { e with started := true, redrive := false }

/-- Words that do all of their work at once. -/
def MxOp.atOnce : MxOp → Bool
  | .wbload lsrc .. => lsrc
  | .mdrain .. | .miter .. => false
  | _ => true

/-- What a word that is done leaves: its team's effect, and its flags with its group. -/
def mxLeft (s t : State) (team : Nat) (e : MxEntry) (rest : List MxEntry) (tm : Team) (fl : FFlags) : Prop :=
  t.team team = { tm with mx := rest } ∧ t.mem = s.mem ∧
    (s.owns (e.info team) = true → (t.grp e.grp).fp.flags = (s.grp e.grp).fp.flags ||| fl)

/-- From `s` to `u` a team has come to `tm`; its queue, the groups and memory stand. -/
structure TeamActs (s u : State) (team : Nat) (tm : Team) : Prop where
  here : (Tab.find? team u.teams).isSome = true
  team_eq : u.team team = tm
  mem : u.mem = s.mem
  groups : u.groups = s.groups
  queue : tm.mx = (s.team team).mx
  members : tm.members = (s.team team).members

section
variable {s u : State} {core team : Nat} {e e' : MxEntry} {rest : List MxEntry} {tm : Team} {fl : FFlags} {f : Team → Team}

theorem mxPlan_of_atOnce (ht : e.todo = []) (h : e.op.atOnce = true) : s.mxPlan team e = ({ e with started := true }, s) := by
  unfold State.mxPlan
  rw [ht, if_neg (by simp)]
  cases hop : e.op <;> simp_all [MxOp.atOnce]

theorem MxTurn.exec_eq (h : MxTurn s core team e rest) : exec (.matrixWordExecute core team) s =
    .next ((if e.started then (e, s) else s.mxPlan team e).2.mxRun team
      { (if e.started then (e, s) else s.mxPlan team e).1 with redrive := false }) := by
  show execMatrixWordExecute core team s = _
  unfold execMatrixWordExecute
  simp [h.queue, h.core_eq, h.ready, h.next, h.thawed]

theorem MxTurn.exec_started (h : MxTurn s core team e rest) (hs : e.started = true) :
    exec (.matrixWordExecute core team) s = .next (s.mxRun team e.taken) := by
  rw [h.exec_eq, if_pos hs, MxEntry.taken, ← hs]

theorem MxTurn.exec_fresh (h : MxTurn s core team e rest) (hs : e.started = false) :
    exec (.matrixWordExecute core team) s = .next ((s.mxPlan team e).2.mxRun team { (s.mxPlan team e).1 with redrive := false }) := by
  rw [h.exec_eq, if_neg (by rw [hs]; exact Bool.false_ne_true)]

theorem TeamActs.head (hu : TeamActs s u team tm) (h : MxHead s team e rest) : MxHead u team e rest where
  here := hu.here
  queue := by rw [hu.team_eq, hu.queue, h.queue]
  others := h.others
  members := by rw [hu.team_eq, hu.members]; exact h.members

theorem TeamActs.updTeam (h : MxHead s team e rest) (hq : (f (s.team team)).mx = (s.team team).mx)
    (hm : (f (s.team team)).members = (s.team team).members) : TeamActs s (s.updTeam team f) team (f (s.team team)) where
  here := by rw [State.updTeam_eq_setTeam h.here]; simp
  team_eq := by rw [State.updTeam_eq_setTeam h.here]; simp
  mem := by simp
  groups := by simp
  queue := hq
  members := hm

theorem TeamActs.mxBusy (hu : TeamActs s u team tm) (n : Nat) : TeamActs s (u.mxBusy team n) team tm where
  here := by simpa [State.mxBusy] using hu.here
  team_eq := by rw [← hu.team_eq, State.team, State.team, State.mxBusy, State.count_teams]
  mem := (State.count_mem ..).trans hu.mem
  groups := (State.count_groups ..).trans hu.groups
  queue := hu.queue
  members := hu.members

theorem TeamActs.mxEnd (hu : TeamActs s u team tm) (h : MxHead s team e rest) (hid : e'.id = e.id) (hgrp : e'.grp = e.grp)
    (hfl : e'.flags = fl) : mxLeft s (u.mxEnd team e' none) team e rest tm fl := by
  obtain ⟨hteam, hmem, -, hg⟩ := (hu.head h).mxEnd hid none
  rw [hu.team_eq] at hteam
  refine ⟨hteam, hmem.trans hu.mem, fun ho => ?_⟩
  have ho' : u.owns (e'.info team) = true := by
    rw [State.owns_of_groups hu.groups, ← ho, State.owns, State.owns, MxEntry.info, MxEntry.info, hgrp]
  rw [← hgrp, hg ho', State.grp_of_groups hu.groups, ← hfl]
  rfl

/-- A word that does all of its work at once: the team's change, and its end. -/
theorem MxTurn.atOnce (h : MxTurn s core team e rest) (hs : e.started = false) (ht : e.todo = []) (hop : e.op.atOnce = true)
    (hu : TeamActs s u team tm) (hid : e'.id = e.id) (hgrp : e'.grp = e.grp) (hfl : e'.flags = fl)
    (hrun : s.mxRun team e.taken = u.mxEnd team e' none) :
    ∃ t, exec (.matrixWordExecute core team) s = .next t ∧ mxLeft s t team e rest tm fl := by
  refine ⟨_, ?_, hu.mxEnd h.toMxHead hid hgrp hfl⟩
  rw [h.exec_fresh hs, mxPlan_of_atOnce ht hop, ← hrun]
  rfl

/-! ### Words that act at once (R164 to R176) -/

theorem aclr_executes (h : MxTurn s core team e rest) (hs : e.started = false) (ht : e.todo = []) (hfl : e.flags = 0) {d n : Nat}
    (hop : e.op = .aclr d n) : ∃ t tm', exec (.matrixWordExecute core team) s = .next t ∧ mxLeft s t team e rest tm' 0 ∧
      { tm' with tiles := (s.team team).tiles } = s.team team ∧
      ∀ k, Tab.get 0 k tm'.tiles = if d * 4096 ≤ k ∧ k < (d + n) * 4096 then 0 else Tab.get 0 k (s.team team).tiles := by
  let f : Team → Team := fun tm => { tm with tiles := tm.tiles.filter (fun t => !decide (d * 4096 ≤ t.1 ∧ t.1 < (d + n) * 4096)) }
  have hu := TeamActs.updTeam (f := f) h.toMxHead rfl rfl
  obtain ⟨t, he, hl⟩ := h.atOnce (e' := e.taken) hs ht (by rw [hop]; rfl) hu rfl rfl hfl (by simp [State.mxRun, MxEntry.taken, ht, hop, f])
  refine ⟨t, f (s.team team), he, hl, rfl, fun k => ?_⟩
  simpa [f] using Tab.get_filter_not 0 (fun k => decide (d * 4096 ≤ k ∧ k < (d + n) * 4096)) k (s.team team).tiles

theorem wbload_local_executes (h : MxTurn s core team e rest) (hs : e.started = false) (ht : e.todo = []) (hfl : e.flags = 0)
    {src : Word} {off n : Nat} (hop : e.op = .wbload true src off n) :
    ∃ t tm', exec (.matrixWordExecute core team) s = .next t ∧ mxLeft s t team e rest tm' 0 ∧
      { tm' with window := (s.team team).window } = s.team team ∧ ∀ k, Tab.get 0 k tm'.window =
        if off ≤ k ∧ k < off + n then Tab.get 0 (src.toNat + (k - off)) (s.team team).loc else Tab.get 0 k (s.team team).window := by
  let f : Team → Team := fun tm => tm.winStore off (bytesOfNum n (tm.locLoad src.toNat n))
  have hu := TeamActs.updTeam (f := f) h.toMxHead rfl rfl
  obtain ⟨t, he, hl⟩ := h.atOnce (e' := e.taken) hs ht (by rw [hop]; rfl) hu rfl rfl hfl (by simp [State.mxRun, MxEntry.taken, ht, hop, f])
  refine ⟨t, f (s.team team), he, hl, rfl, fun k => ?_⟩
  rw [Team.window_winStore, bytesOfNum_length]
  split
  · next hk => rw [Team.bytesOfNum_locLoad, getD_map_range (by omega)]
  · rfl

theorem mpoly_executes (h : MxTurn s core team e rest) (hs : e.started = false) (ht : e.todo = []) (hfl : e.flags = 0)
    {m d off deg : Nat} {f16 : Bool} {coef : List Lane32} (hm : 64 ∣ m) (hop : e.op = .mpoly m d off deg f16 coef) {c : Nat}
    {low : List Nat} (hc : (coef.map BitVec.toNat).reverse = c :: low) :
    ∃ t, exec (.matrixWordExecute core team) s = .next t ∧ mxLeft s t team e rest ((s.team team).mpoly m d off f16 coef) 0 := by
  obtain ⟨⟨t', w, hframe⟩, -⟩ := (Team.mpoly_spec (f16 := f16) hm (s.team team) d off hc).imp_left onlyMatrix_iff.mp
  have hu := TeamActs.updTeam (f := fun tm => tm.mpoly m d off f16 coef) h.toMxHead (by simp only [hframe]) (by simp only [hframe])
  obtain ⟨t, he, hl⟩ := h.atOnce (e' := e.taken) hs ht (by rw [hop]; rfl) (hu.mxBusy (deg * rangeTiles m m * m / 2)) rfl rfl hfl
    (by simp [State.mxRun, MxEntry.taken, ht, hop])
  exact ⟨t, he, hl⟩

theorem toTile_executes (h : MxTurn s core team e rest) (hs : e.started = false) (ht : e.todo = []) (hfl : e.flags = 0)
    {tile e0 n : Nat} {vals : Tab Lane32} (hop : e.op = .toTile tile e0 vals n) :
    ∃ t tm', exec (.matrixWordExecute core team) s = .next t ∧ mxLeft s t team e rest tm' 0 ∧
      { tm' with tiles := (s.team team).tiles } = s.team team ∧
      (∀ q v, (q, v) ∈ vals → (∀ w, (q, w) ∈ vals → w = v) → e0 + q < 4096 → Tab.get 0 (tile * 4096 + e0 + q) tm'.tiles = v) ∧
      (∀ k, (∀ q ∈ vals, e0 + q.1 < 4096 → k ≠ tile * 4096 + e0 + q.1) → Tab.get 0 k tm'.tiles = Tab.get 0 k (s.team team).tiles) := by
  have hu := TeamActs.updTeam (f := fun tm => tm.toTile tile e0 vals) h.toMxHead rfl rfl
  obtain ⟨t, he, hl⟩ := h.atOnce (e' := e.taken) hs ht (by rw [hop]; rfl) hu rfl rfl hfl (by simp [State.mxRun, MxEntry.taken, ht, hop])
  have htiles : ((s.team team).toTile tile e0 vals).tiles = (vals.filter (fun v => decide (e0 + v.1 < 4096))).foldl
      (fun m v => Tab.set 0 (tile * 4096 + e0 + v.1) v.2 m) (s.team team).tiles := by
    simp only [Team.toTile, List.foldl_filter, decide_eq_true_eq]
  refine ⟨t, (s.team team).toTile tile e0 vals, he, hl, rfl, fun q v hq hw hin => ?_, fun k hk => ?_⟩
  · rw [htiles]
    refine Tab.get_foldl_set_same (key := fun v : Nat × Lane32 => tile * 4096 + e0 + v.1) (val := Prod.snd) ⟨(q, v), ?_, rfl⟩ ?_ _
    · simpa using ⟨hq, hin⟩
    · rintro ⟨q', w⟩ hp hk
      obtain rfl : q' = q := Nat.add_left_cancel hk
      exact hw w (List.mem_filter.mp hp).1
  · rw [htiles]
    refine Tab.get_foldl_set_other (key := fun v : Nat × Lane32 => tile * 4096 + e0 + v.1) (val := Prod.snd) (fun p hp hpk => ?_) _
    obtain ⟨hpv, hin⟩ := List.mem_filter.mp hp
    exact hk p hpv (of_decide_eq_true hin) hpk.symm

theorem toVec_executes (h : MxTurn s core team e rest) (hs : e.started = false) (ht : e.todo = [])
    {tile e0 tok : Nat} {regs : List Nat} (hop : e.op = .toVec tile e0 regs tok) :
    ∃ t, exec (.matrixWordExecute core team) s = .next t ∧ t.team team = { s.team team with mx := rest } ∧ t.mem = s.mem ∧
      (s.owns (e.info team) = true → ∃ r, Tab.find? tok t.sys.results = some r ∧ r.grp = e.grp ∧ r.regs = regs ∧ r.flags = 0 ∧
        r.vals = (s.team team).toVec tile e0 regs) := by
  let r : Result := { grp := e.grp, regs := regs, vals := (s.team team).toVec tile e0 regs, flags := 0, fp := false, raw := [],
                      fault := none }
  let u := if s.owns (e.info team) then (s.setSys { s.sys with results := Tab.put tok r s.sys.results }).post (.resultWriteback tok) else s
  have hrun : s.mxRun team e.taken = u.mxEnd team e.taken none := by
    simp only [State.mxRun, MxEntry.taken, ht, hop]
    rfl
  have hu : TeamActs s u team (s.team team) := by
    unfold u
    split <;> exact ⟨h.here, rfl, rfl, rfl, rfl, rfl⟩
  obtain ⟨hteam, hmem, hsys, -⟩ := (hu.head h.toMxHead).mxEnd (e' := e.taken) rfl none
  refine ⟨_, ?_, hu.team_eq ▸ hteam, hmem.trans hu.mem, fun ho => ⟨r, ?_, rfl, rfl, rfl, rfl⟩⟩
  · rw [h.exec_fresh hs, mxPlan_of_atOnce ht (by rw [hop]; rfl), ← hrun]
    rfl
  · rw [hsys]
    simp only [u, if_pos ho]
    exact (Tab.find?_put ..).trans (if_pos rfl)

end

end Sys2Proof.Machine
end

section
namespace Sys2Proof.Machine
open Sys2Proof Sys2Proof.Spec

/-! ### Flags of many elements (R60) -/

theorem getLsbD_foldl_snd (l : List (Nat × FFlags)) (f : FFlags) (k : Nat) :
    (l.foldl (fun f e => f ||| e.2) f).getLsbD k = true ↔ f.getLsbD k = true ∨ ∃ e ∈ l, e.2.getLsbD k = true := by
  induction l generalizing f with
  | nil => simp
  | cons a l ih => rw [List.foldl_cons, ih, BitVec.getLsbD_or, Bool.or_eq_true, List.exists_mem_cons_iff, or_assoc]

theorem getLsbD_foldl_rows (rows : List (List (Nat × FFlags))) (f : FFlags) (k : Nat) :
    (rows.foldl (fun f r => r.foldl (fun f e => f ||| e.2) f) f).getLsbD k = true ↔
      f.getLsbD k = true ∨ ∃ r ∈ rows, ∃ e ∈ r, e.2.getLsbD k = true := by
  rw [← List.foldl_flatten, getLsbD_foldl_snd]
  simp only [List.mem_flatten]
  grind

theorem exists_mem_rowsOf {α : Type} {m n : Nat} {a : Nat → Nat → α} {p : α → Prop} :
    (∃ r ∈ rowsOf m n a, ∃ e ∈ r, p e) ↔ ∃ i < m, ∃ j < n, p (a i j) := by
  simp [rowsOf]

/-! ### `acvt` (R173) -/

theorem tileKey_column (d i : Nat) {j : Nat} (hj : j < 64) : tileKey d 64 i j = d * 4096 + (64 * i + j) := by
  simp only [tileKey]
  omega

theorem TeamActs.setTeam {s : State} {team : Nat} {tm : Team} (hq : tm.mx = (s.team team).mx)
    (hm : tm.members = (s.team team).members) : TeamActs s (s.setTeam team tm) team tm where
  here := by simp
  team_eq := by simp
  mem := rfl
  groups := rfl
  queue := hq
  members := hm

theorem Team.acvt_spec (tm : Team) (d n : Nat) (f16 : Bool) (rm : RMode) (sat srci : Bool) :
    let conv := fun (k : Nat) => roundF (opFmt f16) (RMode.plain rm) sat false (tileVal srci (Tab.get 0 k tm.tiles).toNat)
    let r := tm.acvt d n f16 rm sat srci
    { r.2 with tiles := tm.tiles } = tm ∧
    (∀ k, Tab.get 0 k r.2.tiles = if d * 4096 ≤ k ∧ k < (d + n) * 4096 then BitVec.ofNat 32 (conv k).1 else Tab.get 0 k tm.tiles) ∧
    ∀ j, r.1.getLsbD j = true ↔ ∃ q < n * 4096, (conv (d * 4096 + q)).2.getLsbD j = true := by
  intro conv r
  have hrange : (tm.range d (64 * n) 64).map (fun r => r.map (fun x => roundF (opFmt f16) (RMode.plain rm) sat false (tileVal srci x))) =
      rowsOf (64 * n) 64 (fun i j => conv (tileKey d 64 i j)) := map_map_rowsOf _ _
  have hr : r = ((rowsOf (64 * n) 64 (fun i j => conv (tileKey d 64 i j))).foldl (fun f r => r.foldl (fun f e => f ||| e.2) f) 0,
      tm.putRange d 64 (rowsOf (64 * n) 64 (fun i j => (conv (tileKey d 64 i j)).1))) := by
    simp only [r, Team.acvt, hrange, map_map_rowsOf]
  have hsize : (d + 64 * n / 64 * (64 / 64)) * 4096 = (d + n) * 4096 := by omega
  rw [hr]
  refine ⟨rfl, fun k => ?_, fun j => ?_⟩
  · split
    · next hk =>
      obtain ⟨q, rfl⟩ := Nat.exists_eq_add_of_le hk.1
      have hq : tileKey d 64 (q / 64) (q % 64) = d * 4096 + q := by
        rw [tileKey_column d _ (Nat.mod_lt _ (by decide)), Nat.div_add_mod]
      have hput := tm.tiles_putRange d (fun i j => (conv (tileKey d 64 i j)).1) (m := 64 * n) (Nat.dvd_refl 64)
        (show q / 64 < 64 * n by omega) (Nat.mod_lt q (by decide))
      rwa [hq] at hput
    · next hk =>
      exact tm.tiles_putRange_other d _ (Nat.dvd_mul_right 64 n) (Nat.dvd_refl 64) (by rw [hsize]; omega)
  · rw [getLsbD_foldl_rows, exists_mem_rowsOf]
    constructor
    · rintro (h | ⟨i, hi, c, hc, h⟩)
      · simp at h
      · rw [tileKey_column d i hc] at h
        exact ⟨64 * i + c, by omega, h⟩
    · rintro ⟨q, hq, h⟩
      refine .inr ⟨q / 64, by omega, q % 64, Nat.mod_lt _ (by decide), ?_⟩
      rwa [tileKey_column d _ (Nat.mod_lt _ (by decide)), Nat.div_add_mod]

/-! ### `mma` (R62, R168 to R170) -/

/-- A value for each pair of members of two lists, with their places. -/
theorem map_zipIdx_pairs {α β γ : Type} (l : List α) (l' : List β) (g : Nat → Nat → α → β → γ) (y : α) (z : β) :
    l.zipIdx.map (fun r => l'.zipIdx.map (fun c => g r.2 c.2 r.1 c.1)) =
      rowsOf l.length l'.length (fun i j => g i j (l.getD i y) (l'.getD j z)) := by
  refine List.ext_getElem (by simp [rowsOf]) fun i hi _ => List.ext_getElem (by simp [rowsOf]) fun j hj _ => ?_
  rw [List.length_map, List.length_zipIdx] at hi
  rw [List.getElem_map, List.length_map, List.length_zipIdx] at hj
  simp [rowsOf, hi, hj, List.getD_eq_getElem?_getD]

section
variable (tm : Team) (m n : Nat) (aT bT : Option Nat) (ao bo : Nat) (d0 d1 : Word)

/-- Row i of A, from tiles or from local memory. -/
def Team.mmaRow (i : Nat) : Option (List Val) :=
  match aT with
  | some t => (tm.range t m (descK d0))[i]?.map (fun r => r.map (fun v => decodeVal (sideA d0).fmt (v % 65536)))
  | none => some (tm.rowA ao d0 i)

/-- Column j of B, from tiles or from the window. -/
def Team.mmaColumn (j : Nat) : Option (List Val) :=
  match bT with
  | some t => some ((tm.range t (descK d0) n).map (fun r => decodeVal (sideB d0).fmt (r.getD j 0 % 65536)))
  | none => some (tm.columnB bo d0 d1 j)

/-- The rows of A as `mma` takes them. -/
def Team.mmaRows : List (List Val) :=
  match aT with
  | some t => narrowRows (sideA d0).fmt (tm.range t m (descK d0))
  | none => (List.range m).map (tm.rowA ao d0)

/-- The columns of B as `mma` takes them. -/
def Team.mmaColumns : List (List Val) :=
  match bT with
  | some t => narrowRows (sideB d0).fmt (columns (tm.range t (descK d0) n) n)
  | none => (List.range n).map (tm.columnB bo d0 d1)

theorem Team.mmaRows_length : (tm.mmaRows m aT ao d0).length = m := by
  cases aT <;> simp [Team.mmaRows, narrowRows, Team.range]

theorem Team.mmaColumns_length : (tm.mmaColumns n bT bo d0 d1).length = n := by
  cases bT <;> simp [Team.mmaColumns, narrowRows, columns]

theorem Team.mmaRows_getElem? {i : Nat} (hi : i < m) : (tm.mmaRows m aT ao d0)[i]? = tm.mmaRow m aT ao d0 i := by
  cases aT with
  | none => simp [Team.mmaRows, Team.mmaRow, hi]
  | some t => exact List.getElem?_map

theorem Team.mmaColumns_getElem? {j : Nat} (hj : j < n) : (tm.mmaColumns n bT bo d0 d1)[j]? = tm.mmaColumn n bT bo d0 d1 j := by
  cases bT with
  | none => simp [Team.mmaColumns, Team.mmaColumn, hj]
  | some t => simp [Team.mmaColumns, Team.mmaColumn, narrowRows, columns, hj]

theorem Team.mma_eq (clr : Bool) (d : Nat) : tm.mma m n clr d aT ao bT bo d0 d1 = tm.putRange d n (rowsOf m n (fun i j =>
    accumulate ((sideA d0).int && (sideB d0).int && !(sideA d0).scaled && !(sideB d0).scaled) (unitLen (sideA d0) (sideB d0))
      (tm.unitScales d0 d1 (unitLen (sideA d0) (sideB d0)) i j) ((tm.mmaRows m aT ao d0).getD i [])
      ((tm.mmaColumns n bT bo d0 d1).getD j []) (if clr then 0 else (Tab.get 0 (tileKey d n i j) tm.tiles).toNat))) := by
  have hrows := map_zipIdx_pairs (tm.mmaRows m aT ao d0) (tm.mmaColumns n bT bo d0 d1) (fun i j a b =>
    accumulate ((sideA d0).int && (sideB d0).int && !(sideA d0).scaled && !(sideB d0).scaled) (unitLen (sideA d0) (sideB d0))
      (tm.unitScales d0 d1 (unitLen (sideA d0) (sideB d0)) i j) a b
      (((if clr then [] else tm.range d m n).getD i []).getD j 0)) [] []
  rw [Team.mmaRows_length, Team.mmaColumns_length] at hrows
  refine congrArg (tm.putRange d n) (hrows.trans (rowsOf_congr fun i hi j hj => ?_))
  congr 1
  cases clr with
  | true => simp
  | false => exact getD_rowsOf hi hj (fun i j => (Tab.get 0 (tileKey d n i j) tm.tiles).toNat) [] 0

/-- An element of the product is accumulated from its row and its column. -/
theorem Team.mma_spec (hm : 64 ∣ m) (hn : 64 ∣ n) (clr : Bool) (d : Nat) :
    let tm' := tm.mma m n clr d aT ao bT bo d0 d1
    let sa := sideA d0
    let sb := sideB d0
    { tm' with tiles := tm.tiles } = tm ∧
    (∀ i < m, ∀ j < n, ∀ ra cb, tm.mmaRow m aT ao d0 i = some ra → tm.mmaColumn n bT bo d0 d1 j = some cb →
      let k := tileKey d n i j
      Tab.get 0 k tm'.tiles = BitVec.ofNat 32 (accumulate (sa.int && sb.int && !sa.scaled && !sb.scaled) (unitLen sa sb)
        (tm.unitScales d0 d1 (unitLen sa sb) i j) ra cb (if clr then 0 else (Tab.get 0 k tm.tiles).toNat))) ∧
    (∀ k, (k < d * 4096 ∨ (d + m / 64 * (n / 64)) * 4096 ≤ k) → Tab.get 0 k tm'.tiles = Tab.get 0 k tm.tiles) := by
  intro tm' sa sb
  have htm : tm' = _ := tm.mma_eq m n aT bT ao bo d0 d1 clr d
  rw [htm]
  refine ⟨rfl, fun i hi j hj ra cb hra hcb => ?_, fun k hk => tm.tiles_putRange_other d _ hm hn hk⟩
  rw [← Team.mmaRows_getElem? _ _ _ _ _ hi] at hra
  rw [← Team.mmaColumns_getElem? _ _ _ _ _ _ hj] at hcb
  refine (tm.tiles_putRange d _ hn hi hj).trans ?_
  rw [List.getD_eq_getElem?_getD, List.getD_eq_getElem?_getD, hra, hcb]
  rfl

end

section
variable {s : State} {core team : Nat} {e : MxEntry} {rest : List MxEntry}

theorem acvt_executes (h : MxTurn s core team e rest) (hs : e.started = false) (ht : e.todo = []) {d n : Nat} {f16 : Bool} {rm : RMode}
    {sat srci : Bool} (hop : e.op = .acvt d n f16 rm sat srci) :
    let r := (s.team team).acvt d n f16 rm sat srci
    ∃ t, exec (.matrixWordExecute core team) s = .next t ∧ mxLeft s t team e rest r.2 r.1 :=
  h.atOnce hs ht (by rw [hop]; rfl) (TeamActs.setTeam rfl rfl)
    (e' := { e.taken with flags := ((s.team team).acvt d n f16 rm sat srci).1 }) rfl rfl rfl (by simp [State.mxRun, MxEntry.taken, ht, hop])

theorem mma_executes (h : MxTurn s core team e rest) (hs : e.started = false) (ht : e.todo = []) (hfl : e.flags = 0) {m n d ao bo : Nat}
    {clr : Bool} {aT bT : Option Nat} {d0 d1 : Word} (hop : e.op = .mma m n clr d aT ao bT bo d0 d1) :
    ∃ t, exec (.matrixWordExecute core team) s = .next t ∧ mxLeft s t team e rest ((s.team team).mma m n clr d aT ao bT bo d0 d1) 0 :=
  h.atOnce hs ht (by rw [hop]; rfl) ((TeamActs.updTeam h.toMxHead rfl rfl).mxBusy (mmaCycles m n d0)) rfl rfl hfl
    (by simp only [State.mxRun, MxEntry.taken, ht, hop]; rfl)

end

end Sys2Proof.Machine
end

section
namespace Sys2Proof.Machine
open Sys2Proof Sys2Proof.Spec

/-! ### Transfers cut at lines (R164) -/

theorem ofNat_add_ofNat (va : Word) (j k : Nat) : va + BitVec.ofNat 64 j + BitVec.ofNat 64 k = va + BitVec.ofNat 64 (j + k) := by
  rw [BitVec.add_assoc, ← BitVec.ofNat_add]

theorem toLineEnd_spec (va : Word) {n : Nat} (h : 0 < n) : 0 < toLineEnd va n ∧ toLineEnd va n ≤ n ∧ va.toNat % 128 + toLineEnd va n ≤ 128 := by
  have hline := Nat.mod_lt va.toNat (show 0 < 128 by decide)
  unfold toLineEnd
  omega

/-- What `k` places give, and then what the rest give. -/
theorem map_range_split {α : Type} {n k : Nat} (h : k ≤ n) (f : Nat → α) :
    (List.range n).map f = (List.range k).map f ++ (List.range (n - k)).map (fun j => f (k + j)) := by
  conv_lhs => rw [show n = k + (n - k) by omega, List.range_add, List.map_append, List.map_map]
  rfl

theorem fetchPieces_spec (fuel : Nat) (va : Word) (off n : Nat) (h : n ≤ fuel) : (∀ p ∈ fetchPieces fuel va off n, oneLine p) ∧
    fetchPlaces (fetchPieces fuel va off n) = (List.range n).map (fun k => (va + BitVec.ofNat 64 k, off + k)) := by
  induction fuel generalizing va off n with
  | zero =>
    obtain rfl : n = 0 := Nat.le_zero.mp h
    exact ⟨nofun, rfl⟩
  | succ fuel ih =>
    unfold fetchPieces
    split
    · next hn => subst hn; exact ⟨nofun, rfl⟩
    · next hn =>
      obtain ⟨hpos, hle, hline⟩ := toLineEnd_spec va (Nat.pos_of_ne_zero hn)
      obtain ⟨hone, hplaces⟩ := ih (va + BitVec.ofNat 64 (toLineEnd va n)) (off + toLineEnd va n) (n - toLineEnd va n) (by omega)
      refine ⟨fun p hp => ?_, ?_⟩
      · rcases List.mem_cons.mp hp with rfl | hp
        · exact ⟨hpos, hline⟩
        · exact hone p hp
      · rw [fetchPlaces, List.flatMap_cons, ← fetchPlaces, hplaces, map_range_split hle]
        simp only [ofNat_add_ofNat, Nat.add_assoc]

/-- Bytes at their addresses. -/
def bytesAt (loc : Bool) (va : Word) (l : List Byte) : List (Bool × Word × Byte) :=
  l.zipIdx.map (fun e => (loc, va + BitVec.ofNat 64 e.2, e.1))

theorem bytesAt_map_range (loc : Bool) (va : Word) (f : Nat → Byte) (n : Nat) :
    bytesAt loc va ((List.range n).map f) = (List.range n).map (fun k => (loc, va + BitVec.ofNat 64 k, f k)) := by
  simp [bytesAt, zipIdx_map_range]

theorem bytesAt_append (loc : Bool) (va : Word) (l r : List Byte) :
    bytesAt loc va (l ++ r) = bytesAt loc va l ++ bytesAt loc (va + BitVec.ofNat 64 l.length) r := by
  simp only [bytesAt, List.zipIdx_append, List.map_append, ofNat_add_ofNat]
  congr 1
  rw [List.zipIdx_eq_map_add, List.map_map]
  simp [Function.comp_def, Nat.add_comm]

theorem putBytes_append (l r : List MxPiece) : putBytes (l ++ r) = putBytes l ++ putBytes r := List.flatMap_append

theorem linePieces_spec (loc : Bool) (fuel : Nat) (va : Word) (l : List Byte) (h : l.length ≤ fuel) :
    (∀ p ∈ linePieces loc fuel va l, oneLine p) ∧ putBytes (linePieces loc fuel va l) = bytesAt loc va l := by
  induction fuel generalizing va l with
  | zero =>
    obtain rfl : l = [] := List.length_eq_zero_iff.mp (Nat.le_zero.mp h)
    exact ⟨nofun, rfl⟩
  | succ fuel ih =>
    unfold linePieces
    split
    · next hl => rw [List.isEmpty_iff.mp hl]; exact ⟨nofun, rfl⟩
    · next hl =>
      have hlen : 0 < l.length := List.length_pos_iff.mpr fun h => hl (by rw [h]; rfl)
      obtain ⟨hpos, hle, hline⟩ := toLineEnd_spec va hlen
      have htake : (l.take (toLineEnd va l.length)).length = toLineEnd va l.length := by rw [List.length_take]; omega
      obtain ⟨hone, hbytes⟩ := ih (va + BitVec.ofNat 64 (toLineEnd va l.length)) (l.drop (toLineEnd va l.length))
        (by rw [List.length_drop]; omega)
      refine ⟨fun p hp => ?_, ?_⟩
      · rcases List.mem_cons.mp hp with rfl | hp
        · exact ⟨List.ne_nil_of_length_pos (by omega), by omega⟩
        · exact hone p hp
      · conv_rhs => rw [← List.take_append_drop (toLineEnd va l.length) l, bytesAt_append, htake, ← hbytes]
        rfl

/-! ### One transfer (R164, R167, R182) -/

section
variable {s u : State} {core team : Nat} {e e' : MxEntry} {rest : List MxEntry} {p : MxPiece} {l : List MxPiece}

theorem mxRun_done {b : List Byte} (ht : e.todo = p :: l) (hp : s.mxPiece team e p = (.done b, u)) :
    s.mxRun team e = if l = [] then u.mxEnd team { e with todo := [] } none
      else (u.putMx team { e with todo := l }).later (.matrixWordExecute (u.team team).core team) := by
  unfold State.mxRun
  rw [ht]
  simp only [hp, List.isEmpty_iff]

/-- A word whose transfer is made keeps those that it has left, or is done. -/
theorem MxHead.transferred (h : MxHead u team e rest) (hid : e'.id = e.id) (ht : e'.todo = p :: l) {b : List Byte}
    (hp : s.mxPiece team e' p = (.done b, u)) :
    let t := s.mxRun team e'
    t.team team = { u.team team with mx := if l = [] then rest else { e' with todo := l } :: rest } ∧ t.mem = u.mem ∧
      (u.owns (e'.info team) = true → t.grp e'.grp =
        if l = [] then (u.grp e'.grp).afterMx { e' with todo := [] } none else u.grp e'.grp) := by
  intro t
  have hrun : t = _ := mxRun_done ht hp
  rw [hrun]
  split
  · obtain ⟨hteam, hmem, -, hgrp⟩ := h.mxEnd (e' := { e' with todo := [] }) hid none
    exact ⟨hteam, hmem, hgrp⟩
  · rw [h.putMx (e' := { e' with todo := l }) hid]
    exact ⟨(State.team_later ..).trans ((State.team_setTeam ..).trans (if_pos rfl)), State.later_mem .., fun _ => State.grp_later ..⟩

theorem mxPiece_put_local (va : Word) (data : List Byte) (here : (Tab.find? team s.teams).isSome = true) :
    s.mxPiece team e (.put true va data) = (.done [], s.updTeam team (fun tm => tm.locStore va.toNat data)) := by
  simp only [State.mxPiece, State.localWrite, here, if_true]

theorem mxPiece_fetch {va : Word} {off n : Nat} {b : List Byte} (hr : s.agentRead (s.mxAgent team e) wbloadKind va n = (.done b, u)) :
    s.mxPiece team e (.fetch va off n) = (.done [], u.updTeam team (fun tm => tm.winStore off b)) := by
  simp only [State.mxPiece, hr]

theorem put_local_executes (h : MxTurn s core team e rest) (hs : e.started = true) {va : Word} {data : List Byte}
    (ht : e.todo = [.put true va data]) : ∃ t tm', exec (.matrixWordExecute core team) s = .next t ∧
      mxLeft s t team e rest tm' e.flags ∧ { tm' with loc := (s.team team).loc } = s.team team ∧ ∀ k, Tab.get 0 k tm'.loc =
        if va.toNat ≤ k ∧ k < va.toNat + data.length then data.getD (k - va.toNat) 0 else Tab.get 0 k (s.team team).loc := by
  have hu := TeamActs.updTeam (f := fun tm => tm.locStore va.toNat data) h.toMxHead rfl rfl
  refine ⟨_, (s.team team).locStore va.toNat data, h.exec_started hs, ?_, rfl, (s.team team).loc_locStore va.toNat data⟩
  rw [mxRun_done (e := e.taken) ht (mxPiece_put_local va data h.here), if_pos rfl]
  exact hu.mxEnd h.toMxHead rfl rfl rfl

/-- A fetch puts its bytes into the window. -/
theorem fetch_transferred (h : MxHead s team e rest) (hid : e'.id = e.id) {va : Word} {off n : Nat} {b : List Byte}
    (ht : e'.todo = .fetch va off n :: l) (hr : s.agentRead (s.mxAgent team e') wbloadKind va n = (.done b, u))
    (hu : u.team team = s.team team) (here : (Tab.find? team u.teams).isSome = true) :
    let t := s.mxRun team e'
    t.mem = u.mem ∧ (t.team team).mx = (if l = [] then rest else { e' with todo := l } :: rest) ∧
      ∀ k, Tab.get 0 k (t.team team).window =
        if off ≤ k ∧ k < off + b.length then b.getD (k - off) 0 else Tab.get 0 k (s.team team).window := by
  intro t
  let v := u.updTeam team (fun tm => tm.winStore off b)
  have hv : v.team team = (s.team team).winStore off b := by
    simp only [v, State.updTeam_eq_setTeam here, State.team_setTeam, if_pos, hu]
  have hhead : MxHead v team e rest :=
    ⟨by simp [v, State.updTeam_eq_setTeam here], by rw [hv]; exact h.queue, h.others, by rw [hv]; exact h.members⟩
  obtain ⟨hteam, hmem, -⟩ := hhead.transferred hid ht (mxPiece_fetch hr)
  refine ⟨hmem.trans (by simp [v]), congrArg Team.mx hteam, fun k => ?_⟩
  rw [hteam, hv]
  exact (s.team team).window_winStore off b k

theorem fetch_executes (h : MxTurn s core team e rest) (hs : e.started = true) {va : Word} {off n : Nat} {b : List Byte}
    (ht : e.todo = [.fetch va off n]) (hr : s.agentRead (s.mxAgent team e) wbloadKind va n = (.done b, u))
    (hu : u.team team = s.team team) (here : (Tab.find? team u.teams).isSome = true) :
    ∃ t, exec (.matrixWordExecute core team) s = .next t ∧ t.mem = u.mem ∧ (t.team team).mx = rest ∧
      ∀ k, Tab.get 0 k (t.team team).window =
        if off ≤ k ∧ k < off + b.length then b.getD (k - off) 0 else Tab.get 0 k (s.team team).window :=
  ⟨_, h.exec_started hs, fetch_transferred h.toMxHead (e' := e.taken) rfl ht hr hu here⟩

theorem put_global_executes (h : MxTurn s core team e rest) (hs : e.started = true) {va : Word} {data : List Byte}
    (ht : e.todo = [.put false va data]) (hw : s.agentWrite (s.mxAgent team e) mdrainKind va data = (.done [], u))
    (hu : u.team team = s.team team) (here : (Tab.find? team u.teams).isSome = true) :
    ∃ t, exec (.matrixWordExecute core team) s = .next t ∧ t.mem = u.mem ∧ (t.team team).mx = rest := by
  have hhead : MxHead u team e rest := ⟨here, hu ▸ h.queue, h.others, hu ▸ h.members⟩
  obtain ⟨hteam, hmem, -⟩ := hhead.transferred (s := s) (e' := e.taken) rfl ht hw
  exact ⟨_, h.exec_started hs, hmem, congrArg Team.mx hteam⟩

/-- A `wbload` from memory begins with the first of its lines. -/
theorem wbload_begins (h : MxTurn s core team e rest) (hs : e.started = false) (ht : e.todo = []) {src : Word} {off n : Nat} {b : List Byte}
    (hop : e.op = .wbload false src off n) (hn : 0 < n) :
    let k := min n (128 - src.toNat % 128)
    s.agentRead (s.mxAgent team e) wbloadKind src k = (.done b, u) → b.length = k → u.team team = s.team team →
      (Tab.find? team u.teams).isSome = true → ∃ (t : State) (l : List MxPiece), exec (.matrixWordExecute core team) s = .next t ∧
        t.mem = u.mem ∧
        (∀ j, Tab.get 0 j (t.team team).window =
          if off ≤ j ∧ j < off + k then b.getD (j - off) 0 else Tab.get 0 j (s.team team).window) ∧
        (t.team team).mx = (if l = [] then rest else { e with started := true, todo := l, redrive := false } :: rest) ∧
        (∀ p ∈ l, oneLine p) ∧
        fetchPlaces l = (List.range (n - k)).map (fun j => (src + BitVec.ofNat 64 (k + j), off + k + j)) := by
  intro k hr hlen hu here
  obtain ⟨n, rfl⟩ := Nat.exists_eq_succ_of_ne_zero (Nat.ne_of_gt hn)
  obtain ⟨hpos, -, -⟩ := toLineEnd_spec src hn
  let l := fetchPieces n (src + BitVec.ofNat 64 k) (off + k) (n + 1 - k)
  let e' : MxEntry := { e with started := true, todo := .fetch src off k :: l, redrive := false }
  have hplan : s.mxPlan team e = ({ e with started := true, todo := .fetch src off k :: l }, s) := by
    unfold State.mxPlan
    simp only [ht, hop]
    rfl
  obtain ⟨hone, hplaces⟩ := fetchPieces_spec n (src + BitVec.ofNat 64 k) (off + k) (n + 1 - k) (by unfold toLineEnd at hpos; omega)
  obtain ⟨hmem, hmx, hwin⟩ := fetch_transferred h.toMxHead (e' := e') rfl rfl hr hu here
  refine ⟨s.mxRun team e', l, ?_, hmem, hlen ▸ hwin, hmx, hone, ?_⟩
  · rw [h.exec_fresh hs, hplan]
  · rw [hplaces]
    simp only [ofNat_add_ofNat]

end

end Sys2Proof.Machine
end

section
namespace Sys2Proof.Machine
open Sys2Proof Sys2Proof.Spec

/-! ### The generators of a drain (R61, R182) -/

/-- How often a generator steps in a block of 4096 elements. -/
def blockSteps (g : Nat) : Nat := if g < 64 then 43 else 42

/-- How often a copy has stepped generator `g` after `n` of its elements, with `before` blocks converted before it. -/
def DrainSide.steps (d : DrainSide) (before n g : Nat) : Nat :=
  if d.rm = .sr then (before + n / 4096) * blockSteps g + (n % 4096 + 95 - g) / 96 else before * blockSteps g

/-- Generators that have stepped, each by its number of steps. -/
def Stepped (gens : Tab (BitVec 32)) (c : Nat → Nat) (t : Tab (BitVec 32)) : Prop :=
  ∀ g < 96, Tab.get 0 g t = Nat.iterate srStep (c g) (Tab.get 0 g gens)

theorem genSteps_eq (blocks e : Nat) : genSteps blocks e = blocks * blockSteps (e % 96) + (e / 96 + 1) := rfl

section
variable {d : DrainSide} {before n g : Nat}

theorem DrainSide.steps_zero (hg : g < 96) : d.steps before 0 g = before * blockSteps g := by
  unfold DrainSide.steps
  split
  · rw [show (0 % 4096 + 95 - g) / 96 = 0 by omega]; rfl
  · rfl

/-- Of the elements before `e` those of generator `g`, and one more behind an element of `g`. -/
theorem turns_succ (e : Nat) {g : Nat} (hg : g < 96) : (e + 1 + 95 - g) / 96 = (e + 95 - g) / 96 + if g = e % 96 then 1 else 0 := by
  split <;> omega

theorem blockSteps_eq {g : Nat} (hg : g < 96) : blockSteps g = (4096 + 95 - g) / 96 := by
  unfold blockSteps
  split <;> omega

theorem DrainSide.steps_succ (hd : d.rm = .sr) (hg : g < 96) :
    d.steps before (n + 1) g = d.steps before n g + if g = n % 4096 % 96 then 1 else 0 := by
  simp only [DrainSide.steps, if_pos hd, Nat.add_assoc _ _ (if g = n % 4096 % 96 then 1 else 0), ← turns_succ (n % 4096) hg]
  by_cases hlast : n % 4096 = 4095
  · rw [show (n + 1) / 4096 = n / 4096 + 1 by omega, show (n + 1) % 4096 = 0 by omega, hlast, ← Nat.add_assoc, Nat.succ_mul,
      ← blockSteps_eq hg, show (0 + 95 - g) / 96 = 0 by omega]
    rfl
  · rw [show (n + 1) / 4096 = n / 4096 by omega, show (n + 1) % 4096 = n % 4096 + 1 by omega]

theorem DrainSide.steps_elem (hd : d.rm = .sr) : d.steps before (n + 1) (n % 4096 % 96) = genSteps (before + n / 4096) (n % 4096) := by
  rw [DrainSide.steps_succ hd (Nat.mod_lt _ (by decide)), if_pos rfl, genSteps_eq, DrainSide.steps, if_pos hd]
  omega

theorem DrainSide.steps_blocks (k : Nat) (hg : g < 96) :
    d.steps before (k * 4096) g = (before + if d.rm = .sr then k else 0) * blockSteps g := by
  unfold DrainSide.steps
  split
  · rw [Nat.mul_div_cancel k (by decide), Nat.mul_mod_left, show (0 + 95 - g) / 96 = 0 by omega]; rfl
  · rfl

/-! ### One element of a copy (R182) -/

/-- An element steps its generator where it rounds stochastically. -/
theorem DrainSide.elem_gens {gens : Tab (BitVec 32)} {sat : Bool} {scale : Nat} {x : Val} {q : DrainAcc}
    (hq : Stepped gens (d.steps before n) q.gens) :
    Stepped gens (d.steps before (n + 1)) (d.elem sat scale x (n % 4096) q).gens := by
  intro g hg
  by_cases hd : d.rm = .sr
  · rw [DrainSide.steps_succ hd hg]
    simp only [DrainSide.elem, if_pos hd, Tab.get_put]
    split
    · next h => rw [Function.iterate_succ_apply', ← h, hq g hg]
    · exact hq g hg
  · have hsame : d.steps before (n + 1) g = d.steps before n g := by simp only [DrainSide.steps, if_neg hd]
    rw [hsame, ← hq g hg]
    simp only [DrainSide.elem, if_neg hd]

/-- An element's code and flags are those of the rule. -/
theorem DrainSide.elem_out {gens : Tab (BitVec 32)} {sat : Bool} {scale cols i j : Nat} {vals : Nat → Nat → Val} {q : DrainAcc}
    (hq : Stepped gens (d.steps before n) q.gens) (hb : i / 64 * (cols / 64) + j / 64 = n / 4096)
    (he : i % 64 * 64 + j % 64 = n % 4096) (hs : d.scaled = true → scale = (drainScale d vals i (j / d.side.block)).1) :
    let q' := d.elem sat scale (vals i j) (n % 4096) q
    let o := drainElem d sat gens before cols vals i j
    q'.codes = o.1 :: q.codes ∧ q'.flags = q.flags ||| o.2 := by
  intro q' o
  have hgen : d.rm = .sr → Tab.get 0 (n % 4096 % 96) q'.gens =
      Nat.iterate srStep (genSteps (before + n / 4096) (n % 4096)) (Tab.get 0 (n % 4096 % 96) gens) := fun hd =>
    (DrainSide.elem_gens hq _ (Nat.mod_lt _ (by decide))).trans (by rw [DrainSide.steps_elem hd])
  let md : Mode := if d.rm = .sr then .sr (Tab.get 0 (n % 4096 % 96) q'.gens).toNat else RMode.plain d.rm
  have hmode : md = if d.rm = .sr then
      .sr (Nat.iterate srStep (genSteps (before + n / 4096) (n % 4096)) (Tab.get 0 (n % 4096 % 96) gens)).toNat else RMode.plain d.rm := by
    unfold md
    split
    · next hd => rw [hgen hd]
    · rfl
  let r := if !d.scaled then convert d.side.fmt md sat false (vals i j) else if scale = 0xFF then (0, 0)
    else convert d.side.fmt md true false (match vals i j with
      | .fin neg m k => .fin neg m (k + 127 - scale)
      | v => v)
  have hout : r = o := by
    simp only [r, o, drainElem, he, Nat.add_assoc, hb, hmode]
    cases hsc : d.scaled with
    | false => rfl
    | true => rw [hs hsc]; rfl
  exact hout ▸ ⟨rfl, rfl⟩

end

end Sys2Proof.Machine
end

section
namespace Sys2Proof.Machine
open Sys2Proof Sys2Proof.Spec

/-! ### The elements of a copy, block by block (R182) -/

/-- The row and the column of the `k`-th element that a copy of `cols` columns converts. -/
def blockPlace (cols k : Nat) : Nat × Nat :=
  (k / 4096 / (cols / 64) * 64 + k % 4096 / 64, k / 4096 % (cols / 64) * 64 + k % 4096 % 64)

section
variable {r c k i j : Nat}

theorem blockPlace_spec (hk : k < r * c * 4096) :
    let p := blockPlace (64 * c) k
    p.1 < 64 * r ∧ p.2 < 64 * c ∧ p.1 / 64 * c + p.2 / 64 = k / 4096 ∧ p.1 % 64 * 64 + p.2 % 64 = k % 4096 := by
  intro p
  have hb : k / 4096 < r * c := by omega
  have hc : 0 < c := Nat.pos_of_ne_zero fun h => by simp [h] at hk
  have hrow : k / 4096 / c < r := Nat.div_lt_of_lt_mul (Nat.mul_comm r c ▸ hb)
  have hcol : k / 4096 % c < c := Nat.mod_lt _ hc
  have hblock : k / 4096 / c * c + k / 4096 % c = k / 4096 := Nat.div_add_mod' ..
  have h1 : p.1 = k / 4096 / c * 64 + k % 4096 / 64 := by simp only [p, blockPlace, Nat.mul_div_cancel_left c (show 0 < 64 by decide)]
  have h2 : p.2 = k / 4096 % c * 64 + k % 4096 % 64 := by simp only [p, blockPlace, Nat.mul_div_cancel_left c (show 0 < 64 by decide)]
  have hq : p.1 / 64 = k / 4096 / c := by omega
  have hq' : p.2 / 64 = k / 4096 % c := by omega
  rw [hq, hq', hblock]
  omega

/-- The place of an element among those that a copy converts: as in a range of tiles (R159). -/
theorem blockPlace_tileKey (hi : i < 64 * r) (hj : j < 64 * c) :
    tileKey 0 (64 * c) i j < r * c * 4096 ∧ blockPlace (64 * c) (tileKey 0 (64 * c) i j) = (i, j) := by
  have hlt := (tileKey_mem (t := 0) (Nat.dvd_mul_right 64 r) (Nat.dvd_mul_right 64 c) hi hj).2
  simp only [Nat.mul_div_cancel_left _ (show 0 < 64 by decide), Nat.zero_add] at hlt
  have hc : j / 64 < c := by omega
  have hkey : tileKey 0 (64 * c) i j = (i / 64 * c + j / 64) * 4096 + (i % 64 * 64 + j % 64) := by
    simp only [tileKey, Nat.mul_div_cancel_left c (show 0 < 64 by decide)]; omega
  have hdiv : (i / 64 * c + j / 64) / c = i / 64 := by
    rw [Nat.mul_comm, Nat.mul_add_div (by omega), Nat.div_eq_of_lt hc, Nat.add_zero]
  have hmod : (i / 64 * c + j / 64) % c = j / 64 := by
    rw [Nat.mul_comm, Nat.mul_add_mod, Nat.mod_eq_of_lt hc]
  refine ⟨hlt, ?_⟩
  rw [blockPlace, Nat.mul_div_cancel_left c (show 0 < 64 by decide), show tileKey 0 (64 * c) i j / 4096 = i / 64 * c + j / 64 by omega,
    show tileKey 0 (64 * c) i j % 4096 = i % 64 * 64 + j % 64 by omega, hdiv, hmod]
  exact Prod.ext (by dsimp only; omega) (by dsimp only; omega)

end

section
variable {d : DrainSide} {sat : Bool} {gens : Tab (BitVec 32)} {before r c : Nat} {vals : Nat → Nat → Val} {scales : List (List Nat)}

/-- A copy's elements, with their generators, codes and flags, after `n` of them. -/
structure DrainAcc.After (d : DrainSide) (sat : Bool) (gens : Tab (BitVec 32)) (before cols : Nat) (vals : Nat → Nat → Val)
    (f : FFlags) (n : Nat) (q : DrainAcc) : Prop where
  stepped : Stepped gens (d.steps before n) q.gens
  coded : q.codes = ((List.range n).map (fun k =>
    (drainElem d sat gens before cols vals (blockPlace cols k).1 (blockPlace cols k).2).1)).reverse
  flagged : ∀ j, q.flags.getLsbD j = true ↔ f.getLsbD j = true ∨
    ∃ k < n, (drainElem d sat gens before cols vals (blockPlace cols k).1 (blockPlace cols k).2).2.getLsbD j = true

/-- The scales of a copy, where it has them. -/
def ScalesOf (d : DrainSide) (rows cols : Nat) (vals : Nat → Nat → Val) (scales : List (List Nat)) : Prop :=
  d.scaled = true → ∀ i < rows, ∀ j < cols,
    (scales.getD i []).getD (j / d.side.block) 0 = (drainScale d vals i (j / d.side.block)).1

/-- The step of a copy on its `k`-th element. -/
def DrainSide.next (d : DrainSide) (sat : Bool) (rows cols : Nat) (vals : Nat → Nat → Val) (scales : List (List Nat)) (q : DrainAcc)
    (k : Nat) : DrainAcc :=
  let p := blockPlace cols k
  d.elem sat ((scales.getD p.1 []).getD (p.2 / d.side.block) 0) (((rowsOf rows cols vals).getD p.1 []).getD p.2 (.fin false 0 0))
    (k % 4096) q

theorem DrainAcc.After.next {f : FFlags} {n : Nat} {q : DrainAcc} (hq : q.After d sat gens before (64 * c) vals f n) (hn : n < r * c * 4096)
    (hs : ScalesOf d (64 * r) (64 * c) vals scales) :
    (d.next sat (64 * r) (64 * c) vals scales q n).After d sat gens before (64 * c) vals f (n + 1) := by
  obtain ⟨hi, hj, hb, he⟩ := blockPlace_spec hn
  have hb' : (blockPlace (64 * c) n).1 / 64 * (64 * c / 64) + (blockPlace (64 * c) n).2 / 64 = n / 4096 := by
    rwa [Nat.mul_div_cancel_left c (show 0 < 64 by decide)]
  have hval := getD_rowsOf hi hj vals [] (.fin false 0 0)
  obtain ⟨hcodes, hflags⟩ := DrainSide.elem_out (sat := sat) (vals := vals) (scale := (scales.getD (blockPlace (64 * c) n).1 []).getD
    ((blockPlace (64 * c) n).2 / d.side.block) 0) hq.stepped hb' he (fun hd => hs hd _ hi _ hj)
  rw [DrainSide.next, hval]
  refine ⟨DrainSide.elem_gens hq.stepped, ?_, fun k => ?_⟩
  · rw [hcodes, hq.coded, List.range_succ, List.map_append, List.reverse_append]; rfl
  · rw [hflags, BitVec.getLsbD_or, Bool.or_eq_true, hq.flagged, or_assoc]
    simp only [Nat.lt_succ_iff_lt_or_eq]
    grind

theorem DrainSide.codes_eq (q : DrainAcc) : (d.codes sat (rowsOf (64 * r) (64 * c) vals) scales (64 * r) (64 * c) q).1 =
    (List.range (r * c * 4096)).foldl (d.next sat (64 * r) (64 * c) vals scales) { q with codes := [] } := by
  have hflat : List.range (r * c * 4096) = (List.range (r * c)).flatMap (fun b => (List.range 4096).map (fun e => b * 4096 + e)) := by
    rw [flatMap_range_mul (fun k => k), List.map_id']
  rw [hflat, List.foldl_flatMap]
  simp only [DrainSide.codes, Nat.mul_div_cancel_left _ (show 0 < 64 by decide), List.foldl_map]
  refine List.foldl_ext _ _ _ fun q b _ => List.foldl_ext _ _ _ fun q e he => ?_
  have he' : e < 4096 := List.mem_range.mp he
  rw [DrainSide.next, blockPlace, Nat.mul_div_cancel_left c (show 0 < 64 by decide), show (b * 4096 + e) / 4096 = b by omega,
    show (b * 4096 + e) % 4096 = e by omega]

theorem DrainSide.after_codes (hs : ScalesOf d (64 * r) (64 * c) vals scales) {q : DrainAcc}
    (hq : Stepped gens (fun g => before * blockSteps g) q.gens) :
    (d.codes sat (rowsOf (64 * r) (64 * c) vals) scales (64 * r) (64 * c) q).1.After d sat gens before (64 * c) vals q.flags
      (r * c * 4096) := by
  rw [DrainSide.codes_eq]
  refine foldl_range_induction (fun n (q' : DrainAcc) => n ≤ r * c * 4096 → q'.After d sat gens before (64 * c) vals q.flags n)
    (fun _ => ⟨fun g hg => ?_, rfl, by simp⟩) (fun n q' h hn => (h (Nat.le_of_succ_le hn)).next hn hs) _ (Nat.le_refl _)
  rw [DrainSide.steps_zero hg]
  exact hq g hg

/-- The codes of a copy, put back into rows. -/
theorem DrainSide.codes_rows (hs : ScalesOf d (64 * r) (64 * c) vals scales) {q : DrainAcc}
    (hq : Stepped gens (fun g => before * blockSteps g) q.gens) :
    (d.codes sat (rowsOf (64 * r) (64 * c) vals) scales (64 * r) (64 * c) q).2 =
      rowsOf (64 * r) (64 * c) (fun i j => (drainElem d sat gens before (64 * c) vals i j).1) := by
  let code (k : Nat) := (drainElem d sat gens before (64 * c) vals (blockPlace (64 * c) k).1 (blockPlace (64 * c) k).2).1
  have hflat := congrArg List.reverse (DrainSide.after_codes (sat := sat) hs hq).coded
  rw [List.reverse_reverse] at hflat
  have hrow : (d.codes sat (rowsOf (64 * r) (64 * c) vals) scales (64 * r) (64 * c) q).2 =
      (List.range (64 * r)).map (fun i => (List.range (64 * c / 64)).flatMap (fun b =>
        (((List.range (r * c * 4096)).map code).drop ((i / 64 * (64 * c / 64) + b) * 4096 + i % 64 * 64)).take 64)) := by
    rw [← hflat]; rfl
  rw [hrow, Nat.mul_div_cancel_left c (show 0 < 64 by decide)]
  refine List.map_congr_left fun i hi => ?_
  have hi' : i < 64 * r := List.mem_range.mp hi
  have hpiece : ∀ b ∈ List.range c, (((List.range (r * c * 4096)).map code).drop ((i / 64 * c + b) * 4096 + i % 64 * 64)).take 64 =
      (List.range 64).map (fun l => (drainElem d sat gens before (64 * c) vals i (b * 64 + l)).1) := by
    intro b hb
    have hb' : b < c := List.mem_range.mp hb
    have hkey (l : Nat) (hl : l < 64) : (i / 64 * c + b) * 4096 + i % 64 * 64 + l = tileKey 0 (64 * c) i (b * 64 + l) := by
      simp only [tileKey, Nat.mul_div_cancel_left c (show 0 < 64 by decide)]; omega
    have hlast := (blockPlace_tileKey hi' (show b * 64 + 63 < 64 * c by omega)).1
    rw [← hkey 63 (by decide)] at hlast
    rw [take_drop_map_range (by omega)]
    refine List.map_congr_left fun l hl => ?_
    have hl' : l < 64 := List.mem_range.mp hl
    simp only [code, hkey l hl', (blockPlace_tileKey hi' (show b * 64 + l < 64 * c by omega)).2]
  rw [List.flatMap_congr hpiece, flatMap_range_mul (fun j => (drainElem d sat gens before (64 * c) vals i j).1), Nat.mul_comm]

/-- The flags of a copy's elements. -/
theorem DrainSide.codes_flags (hs : ScalesOf d (64 * r) (64 * c) vals scales) {q : DrainAcc}
    (hq : Stepped gens (fun g => before * blockSteps g) q.gens) (k : Nat) :
    (d.codes sat (rowsOf (64 * r) (64 * c) vals) scales (64 * r) (64 * c) q).1.flags.getLsbD k = true ↔ q.flags.getLsbD k = true ∨
      ∃ i < 64 * r, ∃ j < 64 * c, (drainElem d sat gens before (64 * c) vals i j).2.getLsbD k = true := by
  rw [(DrainSide.after_codes (sat := sat) hs hq).flagged]
  refine or_congr_right ⟨fun ⟨n, hn, h⟩ => ?_, fun ⟨i, hi, j, hj, h⟩ => ?_⟩
  · obtain ⟨hi, hj, -⟩ := blockPlace_spec hn
    exact ⟨_, hi, _, hj, h⟩
  · obtain ⟨hlt, hp⟩ := blockPlace_tileKey hi hj
    exact ⟨_, hlt, by rw [hp]; exact h⟩

end

end Sys2Proof.Machine
end

section
namespace Sys2Proof.Machine
open Sys2Proof Sys2Proof.Spec

/-! ### A copy of a drain (R44, R55, R182) -/

theorem foldr_eq_sum (w n : Nat) (f : Nat → Nat) :
    ((List.range n).map f).foldr (fun c x => c + 2 ^ w * x) 0 = ((List.range n).map (fun j => f j * 2 ^ (w * j))).sum := by
  induction n generalizing f with
  | zero => rfl
  | succ n ih =>
    rw [List.range_succ_eq_map, List.map_cons, List.map_map, List.foldr_cons, ih, List.map_cons, List.sum_cons, List.map_map,
      ← List.sum_map_mul_left]
    congr 2
    · simp
    · refine List.map_congr_left fun j _ => ?_
      simp only [Function.comp, Nat.mul_succ, Nat.pow_add]
      ac_rfl

theorem packRow_map_range (w n : Nat) (f : Nat → Nat) : packRow w ((List.range n).map f) = (List.range (n * w / 8)).map (fun k =>
    BitVec.ofNat 8 (((List.range n).map (fun j => f j * 2 ^ (w * j))).sum / 2 ^ (8 * k))) := by
  rw [packRow, foldr_eq_sum, bytesOfNum_eq_map, List.length_map, List.length_range]

theorem Side.block_pos (x : Side) : 0 < x.block ∧ x.block ∣ 64 := by
  unfold Side.block
  split <;> decide

/-- The scales of a copy and their flags, as `drain` forms them. -/
def DrainSide.scaleRows (d : DrainSide) (vals : List (List Val)) (cols : Nat) : List (List (Nat × FFlags)) :=
  if !d.scaled then [] else vals.map (fun r =>
    (List.range (cols / d.side.block)).map (fun b => blockScale (emaxOf d.side.fmt) ((r.drop (b * d.side.block)).take d.side.block)))

section
variable {d : DrainSide} {sat : Bool} {gens : Tab (BitVec 32)} {before rows cols r c : Nat} {vals : Nat → Nat → Val} {q : DrainAcc}

theorem DrainSide.scaleRows_eq (hd : d.scaled = true) :
    d.scaleRows (rowsOf rows cols vals) cols = rowsOf rows (cols / d.side.block) (drainScale d vals) := by
  simp only [DrainSide.scaleRows, hd, Bool.not_true, Bool.false_eq_true, if_false, rowsOf, List.map_map]
  refine List.map_congr_left fun i _ => List.map_congr_left fun b hb => ?_
  have hb' : (b + 1) * d.side.block ≤ cols :=
    (Nat.mul_le_mul_right _ (List.mem_range.mp hb)).trans (Nat.div_mul_le_self ..)
  rw [Nat.succ_mul] at hb'
  rw [take_drop_map_range hb', drainScale]

theorem DrainSide.block_lt (j : Nat) (hj : j < 64 * c) : j / d.side.block < 64 * c / d.side.block :=
  Nat.div_lt_div_of_lt_of_dvd ((d.side.block_pos.2).mul_right c) hj

theorem scalesOf_scaleRows :
    ScalesOf d rows (64 * c) vals ((d.scaleRows (rowsOf rows (64 * c) vals) (64 * c)).map (fun r => r.map Prod.fst)) := by
  intro hd i hi j hj
  rw [DrainSide.scaleRows_eq hd, map_map_rowsOf, getD_rowsOf hi (DrainSide.block_lt j hj)]

theorem getLsbD_scaleRows (f : FFlags) (k : Nat) :
    ((d.scaleRows (rowsOf rows (64 * c) vals) (64 * c)).foldl (fun f r => r.foldl (fun f e => f ||| e.2) f) f).getLsbD k = true ↔
      f.getLsbD k = true ∨
        ∃ i < rows, ∃ j < 64 * c, d.scaled = true ∧ (drainScale d vals i (j / d.side.block)).2.getLsbD k = true := by
  cases hd : d.scaled with
  | false => simp [DrainSide.scaleRows, hd]
  | true =>
    rw [DrainSide.scaleRows_eq hd, getLsbD_foldl_rows, exists_mem_rowsOf]
    refine or_congr_right ⟨fun ⟨i, hi, b, hb, h⟩ => ⟨i, hi, b * d.side.block, ?_, rfl, ?_⟩, fun ⟨i, hi, j, hj, _, h⟩ =>
      ⟨i, hi, _, DrainSide.block_lt j hj, h⟩⟩
    · exact (Nat.lt_div_iff_mul_lt_of_dvd d.side.block_pos.1.ne' (d.side.block_pos.2.mul_right c)).mp hb
    · rwa [Nat.mul_div_cancel b d.side.block_pos.1]

/-- The transfers of a row with its place: its scales, then its elements packed. -/
def DrainSide.rowPieces (d : DrainSide) (cols : Nat) (scales : List (List Nat)) (e : List Nat × Nat) : List MxPiece :=
  let sb := ((scales.getD e.2 []).map (fun b => BitVec.ofNat 8 b) : List Byte)
  let data := packRow d.side.width e.1
  linePieces d.loc sb.length (d.base + BitVec.ofNat 64 (d.sco + e.2 * (cols / d.side.block))) sb ++
    linePieces d.loc data.length (d.base + BitVec.ofNat 64 (e.2 * d.str)) data

/-- What a drain carries into the elements of a copy: the flags of its scales. -/
def DrainSide.withScales (d : DrainSide) (vals : List (List Val)) (cols : Nat) (q : DrainAcc) : DrainAcc :=
  { q with flags := (d.scaleRows vals cols).foldl (fun f r => r.foldl (fun f e => f ||| e.2) f) q.flags }

theorem DrainSide.drain_eq (vals : List (List Val)) (q : DrainAcc) :
    let scales := (d.scaleRows vals cols).map (fun r => r.map Prod.fst)
    let p := d.codes sat vals scales rows cols (d.withScales vals cols q)
    d.drain sat vals rows cols q = (p.1, p.2.zipIdx.flatMap (d.rowPieces cols scales)) := rfl

/-- The bytes of the scales of row `i`. -/
theorem bytesAt_scales {i : Nat} (hi : i < rows) (va : Word) :
    bytesAt d.loc va ((((d.scaleRows (rowsOf rows cols vals) cols).map (fun r => r.map Prod.fst)).getD i []).map
        (fun b => BitVec.ofNat 8 b)) =
      if d.scaled then (List.range (cols / d.side.block)).map (fun q =>
        (d.loc, va + BitVec.ofNat 64 q, BitVec.ofNat 8 (drainScale d vals i q).1)) else [] := by
  cases hd : d.scaled with
  | false => simp [DrainSide.scaleRows, hd, bytesAt]
  | true => rw [DrainSide.scaleRows_eq hd, map_map_rowsOf, rowsOf, getD_map_range hi, List.map_map, bytesAt_map_range]; rfl

/-- A copy writes its rows, each its scales and its elements, and raises their flags. -/
theorem DrainSide.drain_spec (hq : Stepped gens (fun g => before * blockSteps g) q.gens) :
    let p := d.drain sat (rowsOf (64 * r) (64 * c) vals) (64 * r) (64 * c) q
    Stepped gens (fun g => (before + if d.rm = .sr then r * c else 0) * blockSteps g) p.1.gens ∧
    (∀ k, p.1.flags.getLsbD k = true ↔ q.flags.getLsbD k = true ∨ drainRaises d sat gens before (64 * r) (64 * c) vals k) ∧
    (∀ x ∈ p.2, oneLine x) ∧ putBytes p.2 = (List.range (64 * r)).flatMap (drainRow d sat gens before (64 * c) vals) := by
  intro p
  let vals' := rowsOf (64 * r) (64 * c) vals
  let scales := (d.scaleRows vals' (64 * c)).map (fun r => r.map Prod.fst)
  have hs : ScalesOf d (64 * r) (64 * c) vals scales := scalesOf_scaleRows
  have hq' : Stepped gens (fun g => before * blockSteps g) (d.withScales vals' (64 * c) q).gens := hq
  have hpieces : p.2 = (List.range (64 * r)).flatMap (fun i => d.rowPieces (64 * c) scales
      ((List.range (64 * c)).map (fun j => (drainElem d sat gens before (64 * c) vals i j).1), i)) := by
    have hp : p.2 = _ := congrArg Prod.snd (DrainSide.drain_eq (rows := 64 * r) (cols := 64 * c) vals' q)
    rw [hp, DrainSide.codes_rows hs hq', zipIdx_rowsOf, List.flatMap_map]
  refine ⟨fun g hg => ?_, fun k => ?_, fun x hx => ?_, ?_⟩
  · dsimp only
    rw [← DrainSide.steps_blocks _ hg]
    exact (DrainSide.after_codes hs hq').stepped g hg
  · have hflags := DrainSide.codes_flags (sat := sat) hs hq' k
    rw [DrainSide.withScales, getLsbD_scaleRows] at hflags
    refine hflags.trans ?_
    rw [drainRaises]
    grind
  · rw [hpieces] at hx
    obtain ⟨i, -, hx⟩ := List.mem_flatMap.mp hx
    rcases List.mem_append.mp hx with hx | hx
    · exact (linePieces_spec _ _ _ _ (Nat.le_refl _)).1 x hx
    · exact (linePieces_spec _ _ _ _ (Nat.le_refl _)).1 x hx
  · rw [hpieces, putBytes, List.flatMap_assoc]
    refine List.flatMap_congr fun i hi => ?_
    rw [← putBytes, DrainSide.rowPieces, putBytes_append, (linePieces_spec _ _ _ _ (Nat.le_refl _)).2, (linePieces_spec _ _ _ _ (Nat.le_refl _)).2,
      bytesAt_scales (List.mem_range.mp hi), packRow_map_range, bytesAt_map_range]
    simp only [ofNat_add_ofNat, drainRow]

/-- A row of a copy has bytes: eight at least, of 64 elements or more. -/
theorem drainRow_length (hf : d.fmtOk = true) (hc : 0 < c) (i : Nat) : 8 ≤ (drainRow d sat gens before (64 * c) vals i).length := by
  have hw : d.side.width ≠ 0 := by
    intro h
    simp [DrainSide.fmtOk, h] at hf
  have hbits : 64 * 1 ≤ 64 * c * d.side.width := Nat.mul_le_mul (Nat.le_mul_of_pos_right 64 hc) (Nat.pos_of_ne_zero hw)
  have hdata : 8 ≤ 64 * c * d.side.width / 8 := by omega
  rw [drainRow, List.length_append, List.length_map (as := List.range (64 * c * d.side.width / 8)), List.length_range]
  exact Nat.le_add_left_of_le hdata

end

end Sys2Proof.Machine
end

section
namespace Sys2Proof.Machine
open Sys2Proof Sys2Proof.Spec

/-! ### An `mdrain` begins (R164, R182) -/

/-- The main copy of a drain and, where it has one, the transposed copy behind it. -/
def drainBoth (main : DrainSide) (trans : Option DrainSide) (sat : Bool) (rows : List (List Val)) (m n : Nat) (q : DrainAcc) :
    DrainAcc × List MxPiece :=
  let p := main.drain sat rows m n q
  match trans with
  | none => p
  | some t =>
    let p' := t.drain sat ((List.range n).map (fun j => rows.map (fun r => r.getD j (.fin false 0 0)))) n m p.1
    (p'.1, p.2 ++ p'.2)

section
variable {main : DrainSide} {trans : Option DrainSide} {sat : Bool} {gens : Tab (BitVec 32)} {r c : Nat} {vals : Nat → Nat → Val}

/-- The blocks that a copy steps the generators through. -/
def DrainSide.stepBlocks (d : DrainSide) (blocks : Nat) : Nat := if d.rm = .sr then blocks else 0

theorem transposed_rowsOf {m n : Nat} :
    (List.range n).map (fun j => (rowsOf m n vals).map (fun r => r.getD j (.fin false 0 0))) = rowsOf n m (fun i j => vals j i) := by
  refine List.map_congr_left fun j hj => ?_
  rw [rowsOf, List.map_map]
  exact List.map_congr_left fun i _ => getD_map_range (List.mem_range.mp hj) _ _

/-- Both copies of a drain: their bytes, their flags, and the steps of the generators. -/
theorem drainBoth_spec :
    let p := drainBoth main trans sat (rowsOf (64 * r) (64 * c) vals) (64 * r) (64 * c) { gens := gens, flags := 0, codes := [] }
    let before := main.stepBlocks (r * c)
    Stepped gens (fun g => (before + (trans.map (·.stepBlocks (r * c))).getD 0) * blockSteps g) p.1.gens ∧
    (∀ k, p.1.flags.getLsbD k = true ↔ drainRaises main sat gens 0 (64 * r) (64 * c) vals k ∨
      ∃ t, trans = some t ∧ drainRaises t sat gens before (64 * c) (64 * r) (fun i j => vals j i) k) ∧
    (∀ x ∈ p.2, oneLine x) ∧
    putBytes p.2 = (List.range (64 * r)).flatMap (drainRow main sat gens 0 (64 * c) vals) ++
      (trans.map (fun t => (List.range (64 * c)).flatMap (drainRow t sat gens before (64 * r) (fun i j => vals j i)))).getD [] := by
  intro p before
  have hq : Stepped gens (fun g => 0 * blockSteps g) gens := fun g _ => by simp
  obtain ⟨hstep, hflags, hone, hbytes⟩ := DrainSide.drain_spec (d := main) (sat := sat) (r := r) (c := c) (vals := vals)
    (q := { gens := gens, flags := 0, codes := [] }) hq
  simp only [Nat.zero_add] at hstep
  cases trans with
  | none =>
    refine ⟨hstep, fun k => (hflags k).trans ?_, hone, hbytes.trans (List.append_nil _).symm⟩
    simp
  | some t =>
    obtain ⟨hstep', hflags', hone', hbytes'⟩ := DrainSide.drain_spec (d := t) (sat := sat) (r := c) (c := r)
      (vals := fun i j => vals j i) hstep
    rw [← transposed_rowsOf] at hstep' hflags' hone' hbytes'
    rw [Nat.mul_comm c r] at hstep'
    refine ⟨hstep', fun k => (hflags' k).trans ?_, fun x hx => ?_, ?_⟩
    · rw [hflags k]
      simp [before, DrainSide.stepBlocks]
    · exact (List.mem_append.mp hx).elim (hone x) (hone' x)
    · exact (putBytes_append _ _).trans (congrArg₂ _ hbytes hbytes')

theorem length_flatMap_range {α : Type} {f : Nat → List α} {k : Nat} (h : ∀ i, k ≤ (f i).length) (n : Nat) :
    n * k ≤ ((List.range n).flatMap f).length := by
  induction n with
  | zero => simp
  | succ n ih =>
    rw [List.range_succ, List.flatMap_append, List.length_append, Nat.succ_mul]
    exact Nat.add_le_add ih (by simpa using h n)

theorem putBytes_oneLine {p : MxPiece} (h : oneLine p) : (putBytes [p]).length ≤ 128 := by
  cases p with
  | fetch va off n => exact Nat.zero_le _
  | put loc va data =>
    simpa [putBytes] using Nat.le_of_add_left_le h.2

/-- A drain is never done with its first transfer. -/
theorem drainBoth_pieces (hf : main.fmtOk = true) (hr : 0 < r) (hc : 0 < c) :
    ∃ p p' l, (drainBoth main trans sat (rowsOf (64 * r) (64 * c) vals) (64 * r) (64 * c)
      { gens := gens, flags := 0, codes := [] }).2 = p :: p' :: l := by
  obtain ⟨-, -, hone, hbytes⟩ := drainBoth_spec (main := main) (trans := trans) (sat := sat) (gens := gens) (r := r) (c := c) (vals := vals)
  have hlen := length_flatMap_range (fun i => drainRow_length (sat := sat) (gens := gens) (before := 0) (vals := vals) hf hc i) (64 * r)
  generalize (drainBoth main trans sat (rowsOf (64 * r) (64 * c) vals) (64 * r) (64 * c) _).2 = pieces at hone hbytes
  have hlen' : 64 * r * 8 ≤ (putBytes pieces).length := by
    rw [hbytes, List.length_append]
    exact Nat.le_add_right_of_le hlen
  match pieces with
  | [] => simp [putBytes] at hlen'; omega
  | [p] => have := putBytes_oneLine (hone p List.mem_cons_self); omega
  | p :: p' :: l => exact ⟨p, p', l, rfl⟩

end

section
variable {s : State} {core team : Nat} {e : MxEntry} {rest : List MxEntry}

theorem State.setMxGens_spec (here : (Tab.find? team s.teams).isSome = true) (gens : Tab (BitVec 32)) :
    let u := s.setMxGens team e gens
    (∃ g, u.team team = { s.team team with gens := g }) ∧ (Tab.find? team u.teams).isSome = true ∧ u.mem = s.mem ∧
      (s.owns (e.info team) = true → u.owns (e.info team) = true ∧ (u.grp e.grp).fp.mgens = gens) := by
  intro u
  by_cases ho : s.owns (e.info team) = true
  · have hg : s.hasGrp e.grp = true := (Bool.and_eq_true_iff.mp ho).1
    have hu : u = s.setGrp e.grp { s.grp e.grp with fp := { (s.grp e.grp).fp with mgens := gens } } := by
      simp only [u, State.setMxGens, if_pos ho, State.updGrp_eq_setGrp hg]
    rw [hu]
    refine ⟨⟨_, rfl⟩, here, rfl, fun _ => ⟨?_, ?_⟩⟩
    · simpa [State.owns, MxEntry.info] using of_decide_eq_true (Bool.and_eq_true_iff.mp ho).2
    · simp
  · have hu : u = s.setTeam team { s.team team with gens := Tab.put e.grp gens (s.team team).gens } := by
      simp only [u, State.setMxGens, if_neg ho, State.updTeam_eq_setTeam here]
    rw [hu]
    exact ⟨⟨_, (State.team_setTeam ..).trans (if_pos rfl)⟩, by simp, rfl, fun h => absurd h ho⟩

theorem mxPlan_mdrain (ht : e.todo = []) {m n d : Nat} {loc tloc sat srci : Bool} {rm : RMode} {a : Word} {b : Option Word}
    {d0 d1 : Word} (hop : e.op = .mdrain m n d loc tloc rm sat srci a b d0 d1) :
    let val := fun i j => tileVal srci (Tab.get 0 (tileKey d n i j) (s.team team).tiles).toNat
    let p := drainBoth (drainMain loc rm a d0 d1) (b.map (fun v => drainTrans tloc v d0 d1)) sat (rowsOf m n val) m n
      { gens := s.mxGens team e, flags := 0, codes := [] }
    s.mxPlan team e = ({ e with started := true, todo := p.2, flags := p.1.flags }, s.setMxGens team e p.1.gens) := by
  intro val p
  have hrows : ((s.team team).range d m n).map (fun r => r.map (tileVal srci)) = rowsOf m n val := map_map_rowsOf _ _
  unfold State.mxPlan
  simp only [ht, hop, hrows]
  cases b <;> rfl

/-- A word whose plan is made makes the first of its transfers. -/
theorem planned_transfers (h : MxTurn s core team e rest) (hs : e.started = false) {p p' : MxPiece} {l : List MxPiece} {fl : FFlags}
    {gens : Tab (BitVec 32)}
    (hplan : s.mxPlan team e = ({ e with started := true, todo := p :: p' :: l, flags := fl }, s.setMxGens team e gens)) :
    let tm := s.team team
    let ev : Instr := .matrixWordExecute core team
    let e' := { e with started := true, todo := p' :: l, flags := fl, redrive := false }
    let begun := s.setMxGens team e gens
    (∀ va data, p = .put true va data → ∃ t, exec ev s = .next t ∧ t.mem = s.mem ∧
      { t.team team with loc := tm.loc, gens := tm.gens } = { tm with mx := e' :: rest } ∧
      (s.owns (e.info team) = true → (t.grp e.grp).fp.mgens = gens) ∧
      ∀ k, Tab.get 0 k (t.team team).loc =
        if va.toNat ≤ k ∧ k < va.toNat + data.length then data.getD (k - va.toNat) 0 else Tab.get 0 k tm.loc) ∧
    (∀ va data u, p = .put false va data → begun.agentWrite (s.mxAgent team e) mdrainKind va data = (.done [], u) →
      u.team team = begun.team team → (Tab.find? team u.teams).isSome = true →
      ∃ t, exec ev s = .next t ∧ t.mem = u.mem ∧ (t.team team).mx = e' :: rest ∧ (t.team team).tiles = tm.tiles) := by
  intro tm ev e' begun
  let e₁ : MxEntry := { e' with todo := p :: p' :: l }
  obtain ⟨⟨g, hteam⟩, here, hmem, hown⟩ : (∃ g, begun.team team = { tm with gens := g }) ∧ _ := State.setMxGens_spec h.here gens
  have hexec : exec ev s = .next (begun.mxRun team e₁) := by rw [show exec ev s = _ from h.exec_fresh hs, hplan]
  refine ⟨?_, ?_⟩
  · rintro va data rfl
    have hput := mxPiece_put_local (e := e₁) va data here
    let u := begun.updTeam team (fun tm => tm.locStore va.toNat data)
    have hu : u = begun.setTeam team ((begun.team team).locStore va.toNat data) := State.updTeam_eq_setTeam here
    have huteam : u.team team = (begun.team team).locStore va.toNat data := by rw [hu]; exact (State.team_setTeam ..).trans (if_pos rfl)
    have hhead : MxHead u team e rest := ⟨by rw [hu]; simp, by rw [huteam, hteam]; exact h.queue, h.others,
      by rw [huteam, hteam]; exact h.members⟩
    obtain ⟨htteam, htmem, htgrp⟩ := hhead.transferred (e' := e₁) rfl rfl hput
    refine ⟨_, hexec, htmem.trans ((State.updTeam_mem ..).trans hmem), ?_, fun ho => ?_, fun k => ?_⟩
    · rw [htteam, huteam, hteam, if_neg (List.cons_ne_nil p' l)]
      rfl
    · obtain ⟨hob, hgens⟩ := hown ho
      have hgroups : u.groups = begun.groups := State.updTeam_groups ..
      rw [← hgens, ← State.grp_of_groups hgroups]
      exact congrArg (fun x : Group => x.fp.mgens)
        ((htgrp ((State.owns_of_groups hgroups _).trans hob)).trans (if_neg (List.cons_ne_nil p' l)))
    · rw [htteam, huteam, hteam]
      exact Team.loc_locStore _ va.toNat data k
  · rintro va data u rfl hw hu here'
    have hagent : begun.mxAgent team e₁ = s.mxAgent team e := by rw [State.mxAgent, State.mxAgent, hteam]; rfl
    have hhead : MxHead u team e rest :=
      ⟨here', by rw [hu, hteam]; exact h.queue, h.others, by rw [hu, hteam]; exact h.members⟩
    obtain ⟨htteam, htmem, -⟩ := hhead.transferred (s := begun) (e' := e₁) rfl rfl (hagent ▸ hw)
    refine ⟨_, hexec, htmem, congrArg Team.mx htteam, ?_⟩
    rw [htteam, hu, hteam]

/-- An `mdrain` begins: both its copies are converted and its first transfer is made. -/
theorem mdrain_begins (h : MxTurn s core team e rest) (hs : e.started = false) (ht : e.todo = []) {m0 n0 d : Nat}
    {loc tloc sat srci : Bool} {rm : RMode} {a : Word} {b : Option Word} {d0 d1 : Word}
    (hop : e.op = .mdrain (64 * (m0 + 1)) (64 * (n0 + 1)) d loc tloc rm sat srci a b d0 d1) :
    let tm := s.team team
    let ev : Instr := .matrixWordExecute core team
    let m := 64 * (m0 + 1)
    let n := 64 * (n0 + 1)
    let main := drainMain loc rm a d0 d1
    let trans := drainTrans tloc (b.getD 0) d0 d1
    let val := fun i j => tileVal srci (Tab.get 0 (tileKey d n i j) tm.tiles).toNat
    let gens := s.mxGens team e
    let before := if main.rm = .sr then (m0 + 1) * (n0 + 1) else 0
    let begun := (s.mxPlan team e).2
    main.fmtOk = true →
    ∃ (p : MxPiece) (l : List MxPiece) (fl : FFlags),
      (∀ q ∈ p :: l, oneLine q) ∧
      putBytes (p :: l) = (List.range m).flatMap (drainRow main sat gens 0 n val) ++
        (if b = none then [] else (List.range n).flatMap (drainRow trans sat gens before m (fun i j => val j i))) ∧
      (∀ k < 5, fl.getLsbD k = true ↔ drainRaises main sat gens 0 m n val k ∨
        (b ≠ none ∧ drainRaises trans sat gens before n m (fun i j => val j i) k)) ∧
      let e' := { e with started := true, todo := l, flags := fl, redrive := false }
      (∀ va data, p = .put true va data → ∃ t, exec ev s = .next t ∧ t.mem = s.mem ∧
        { t.team team with loc := tm.loc, gens := tm.gens } = { tm with mx := e' :: rest } ∧
        (s.owns (e.info team) = true → ∀ k < 96, Tab.get 0 k (t.grp e.grp).fp.mgens = Nat.iterate srStep
          ((before + (if b ≠ none ∧ trans.rm = .sr then (m0 + 1) * (n0 + 1) else 0)) * (if k < 64 then 43 else 42)) (Tab.get 0 k gens)) ∧
        ∀ k, Tab.get 0 k (t.team team).loc =
          if va.toNat ≤ k ∧ k < va.toNat + data.length then data.getD (k - va.toNat) 0 else Tab.get 0 k tm.loc) ∧
      (∀ va data u, p = .put false va data → begun.agentWrite (s.mxAgent team e) mdrainKind va data = (.done [], u) →
        u.team team = begun.team team → (Tab.find? team u.teams).isSome = true →
        ∃ t, exec ev s = .next t ∧ t.mem = u.mem ∧ (t.team team).mx = e' :: rest ∧ (t.team team).tiles = tm.tiles) := by
  intro tm ev m n main trans val gens before begun hf
  let tr := b.map (fun v => drainTrans tloc v d0 d1)
  let P := drainBoth main tr sat (rowsOf m n val) m n { gens := gens, flags := 0, codes := [] }
  have hplan : s.mxPlan team e = ({ e with started := true, todo := P.2, flags := P.1.flags }, s.setMxGens team e P.1.gens) :=
    mxPlan_mdrain ht hop
  obtain ⟨hstep, hflags, hone, hbytes⟩ := drainBoth_spec (main := main) (trans := tr) (sat := sat) (gens := gens) (r := m0 + 1)
    (c := n0 + 1) (vals := val)
  obtain ⟨p, p', l, hpieces⟩ : ∃ p p' l, P.2 = p :: p' :: l := drainBoth_pieces hf (Nat.succ_pos m0) (Nat.succ_pos n0)
  have hbegun : begun = s.setMxGens team e P.1.gens := congrArg Prod.snd hplan
  rw [hpieces] at hplan
  obtain ⟨hlocal, hglobal⟩ := planned_transfers h hs hplan
  rw [← hbegun] at hglobal
  refine ⟨p, p' :: l, P.1.flags, hpieces ▸ hone, ?_, fun k _ => (hflags k).trans ?_, fun va data hp => ?_, hglobal⟩
  · rw [← hpieces]
    refine hbytes.trans ?_
    cases b <;> rfl
  · cases b <;> simp [tr, trans, before, main, m, n, DrainSide.stepBlocks]
  · obtain ⟨t, hexec, hmem, hteam, hgens, hloc⟩ := hlocal va data hp
    refine ⟨t, hexec, hmem, hteam, fun ho k hk => ?_, hloc⟩
    rw [hgens ho]
    refine (hstep k hk).trans ?_
    cases b <;> simp [tr, trans, before, main, DrainSide.stepBlocks, blockSteps]

end

end Sys2Proof.Machine
end

section
namespace Sys2Proof.Machine
open Sys2Proof Sys2Proof.Spec

/-! ### MITER_STATE (R177, R180) -/

/-- How MITER_STATE tells of a run's progress, with STOP and ACTIVE. -/
def miterProgress (v : Word) (q : MiterRun) (code : BitVec 2) (active : Bool) : Prop :=
  v.extractLsb' 19 2 = code ∧ v.getLsbD 21 = q.rise ∧ v.getLsbD 18 = active ∧
    (active = true → v.extractLsb' 16 2 = BitVec.ofNat 2 q.phase) ∧ v.extractLsb' 0 16 = BitVec.ofNat 16 q.iter ∧
    (∀ l, q.lastr = some l → l < 4294967296 → v.extractLsb' 32 32 = BitVec.ofNat 32 l)

/-- A word made of the fields of MITER_STATE reads as they are. -/
theorem miterFields (last rise code active phase iter : Nat) (hr : rise < 2) (hc : code < 4) (ha : active < 2) (hp : phase < 4)
    (hi : iter < 65536) :
    let v := BitVec.ofNat 64 (last * 2 ^ 32 + rise * 2 ^ 21 + (code * 2 ^ 19 + active * 2 ^ 18 + phase * 2 ^ 16) + iter)
    v.extractLsb' 19 2 = BitVec.ofNat 2 code ∧ v.getLsbD 21 = decide (rise = 1) ∧ v.getLsbD 18 = decide (active = 1) ∧
      v.extractLsb' 16 2 = BitVec.ofNat 2 phase ∧ v.extractLsb' 0 16 = BitVec.ofNat 16 iter ∧
      v.extractLsb' 32 32 = BitVec.ofNat 32 last := by
  intro v
  have hfield (lo n : Nat) : v.extractLsb' lo n = BitVec.ofNat n (v.toNat / 2 ^ lo) := by
    rw [← Nat.shiftRight_eq_div_pow]; rfl
  have hbit (k : Nat) : v.getLsbD k = decide (v.toNat / 2 ^ k % 2 = 1) := Nat.testBit_eq_decide_div_mod_eq
  have hv : v.toNat = (last * 2 ^ 32 + rise * 2 ^ 21 + (code * 2 ^ 19 + active * 2 ^ 18 + phase * 2 ^ 16) + iter) % 2 ^ 64 :=
    BitVec.toNat_ofNat ..
  have hcut (n x y : Nat) (h : x % 2 ^ n = y % 2 ^ n) : BitVec.ofNat n x = BitVec.ofNat n y :=
    BitVec.eq_of_toNat_eq (by simpa using h)
  simp only [hfield, hbit, hv]
  refine ⟨hcut _ _ _ (by omega), ?_, ?_, hcut _ _ _ (by omega), hcut _ _ _ (by omega), hcut _ _ _ (by omega)⟩
  · congr 1; apply propext; omega
  · congr 1; apply propext; omega

theorem riseBit (b : Bool) : (if b then 2 ^ 21 else 0) = b.toNat * 2 ^ 21 ∧ decide (b.toNat = 1) = b := by
  cases b <;> decide

/-- MITER_STATE at the end of a `miter`. -/
theorem putMiter_ends (f : FpState) (q : MiterRun) {code : Nat} (hc : code < 4) :
    miterProgress (f.putMiter q (some code)).miterState q (BitVec.ofNat 2 code) false := by
  obtain ⟨h21, hd⟩ := riseBit q.rise
  have hw : (f.putMiter q (some code)).miterState = BitVec.ofNat 64 (q.lastr.getD (bits f.miterState 32 32) * 2 ^ 32 +
      q.rise.toNat * 2 ^ 21 + (code * 2 ^ 19 + 0 * 2 ^ 18 + 0 * 2 ^ 16) + q.iter % 2 ^ 16) := by
    simp only [FpState.putMiter, h21, Nat.zero_mul, Nat.add_zero]
  obtain ⟨hcode, hrise, hact, -, hiter, hlast⟩ := miterFields (q.lastr.getD (bits f.miterState 32 32)) q.rise.toNat code 0 0
    (q.iter % 2 ^ 16) q.rise.toNat_lt hc (by decide) (by decide) (Nat.mod_lt _ (by decide))
  rw [← hw] at hcode hrise hact hiter hlast
  exact ⟨hcode, hrise.trans hd, hact, nofun, hiter.trans (BitVec.eq_of_toNat_eq (by simp)),
    fun l hl _ => by rw [hlast, hl, Option.getD_some]⟩

/-- MITER_STATE where a `miter` stops at a boundary: its STOP stands. -/
theorem putMiter_stops (f : FpState) (q : MiterRun) (hp : q.phase < 3) :
    miterProgress (f.putMiter q none).miterState q (f.miterState.extractLsb' 19 2) true := by
  obtain ⟨h21, hd⟩ := riseBit q.rise
  have hw : (f.putMiter q none).miterState = BitVec.ofNat 64 (q.lastr.getD (bits f.miterState 32 32) * 2 ^ 32 +
      q.rise.toNat * 2 ^ 21 + (bits f.miterState 19 2 * 2 ^ 19 + 1 * 2 ^ 18 + q.phase * 2 ^ 16) + q.iter % 2 ^ 16) := by
    simp only [FpState.putMiter, h21, Nat.one_mul]
  obtain ⟨hcode, hrise, hact, hphase, hiter, hlast⟩ := miterFields (q.lastr.getD (bits f.miterState 32 32)) q.rise.toNat
    (bits f.miterState 19 2) 1 q.phase (q.iter % 2 ^ 16) q.rise.toNat_lt (f.miterState.extractLsb' 19 2).isLt (by decide) (by omega)
    (Nat.mod_lt _ (by decide))
  rw [← hw] at hcode hrise hact hphase hiter hlast
  exact ⟨hcode.trans ((BitVec.ofNat_toNat ..).trans (BitVec.setWidth_eq _)), hrise.trans hd, hact, fun _ => hphase,
    hiter.trans (BitVec.eq_of_toNat_eq (by simp)), fun l hl _ => by rw [hlast, hl, Option.getD_some]⟩

/-- ACTIVE goes, STOP stands. -/
theorem clearActive (v : Word) : (v &&& ~~~fieldMask 18 1).getLsbD 18 = false ∧
    (v &&& ~~~fieldMask 18 1).extractLsb' 19 2 = v.extractLsb' 19 2 := by
  have hmask (k : Nat) (hk : k < 64) : (fieldMask 18 1).getLsbD k = decide (k = 18) := by
    rw [fieldMask, getLsbD_ofNat_mul_two_pow _ _ _ hk, Nat.testBit_two_pow_sub_one]
    grind
  refine ⟨by simp [hmask 18 (by decide)], BitVec.eq_of_getLsbD_eq fun k hk => ?_⟩
  simp only [BitVec.getLsbD_extractLsb', BitVec.getLsbD_and, BitVec.getLsbD_not, hmask (19 + k) (by omega),
    decide_eq_false (show ¬ 19 + k = 18 by omega), decide_eq_true (show 19 + k < 64 by omega), Bool.not_false, Bool.and_true]

end Sys2Proof.Machine
end

section
namespace Sys2Proof.Machine
open Sys2Proof Sys2Proof.Spec

/-! ### A phase of a `miter` executes (R180) -/

section
variable {s u : State} {core team : Nat} {e e' : MxEntry} {rest : List MxEntry} {f : Group → Group}

/-- A change of a word's group, where the group is still there. -/
theorem State.owner_spec (s : State) (team : Nat) (e : MxEntry) (hf : ∀ x, (f x).team = x.team) :
    let t := if s.owns (e.info team) = true then s.updGrp e.grp f else s
    t.teams = s.teams ∧ t.mem = s.mem ∧ t.owns (e.info team) = s.owns (e.info team) ∧
      (s.owns (e.info team) = true → t.grp e.grp = f (s.grp e.grp)) := by
  intro t
  by_cases ho : s.owns (e.info team) = true
  · have hg : s.hasGrp e.grp = true := (Bool.and_eq_true_iff.mp ho).1
    have ht : t = s.setGrp e.grp (f (s.grp e.grp)) := by simp only [t, if_pos ho, State.updGrp_eq_setGrp hg]
    rw [ht]
    have hgrp : (s.setGrp e.grp (f (s.grp e.grp))).grp e.grp = f (s.grp e.grp) := (State.grp_setGrp ..).trans (if_pos rfl)
    have hteam : (s.grp e.grp).team = team := of_decide_eq_true (Bool.and_eq_true_iff.mp ho).2
    refine ⟨rfl, rfl, (Bool.and_eq_true_iff.mpr ⟨?_, decide_eq_true ?_⟩).trans ho.symm, fun _ => hgrp⟩
    · simp [MxEntry.info]
    · exact (congrArg Group.team hgrp).trans ((hf _).trans hteam)
  · have ht : t = s := if_neg ho
    rw [ht]
    exact ⟨rfl, rfl, rfl, fun h => absurd h ho⟩

theorem MxHead.of_teams (h : MxHead s team e rest) (ht : u.teams = s.teams) : MxHead u team e rest where
  here := by rw [ht]; exact h.here
  queue := by rw [State.team, ht]; exact h.queue
  others := h.others
  members := by rw [State.team, ht]; exact h.members

theorem State.miterResumes_spec (s : State) (team : Nat) (e : MxEntry) :
    let t := s.miterResumes team e
    t.teams = s.teams ∧ t.mem = s.mem ∧ t.owns (e.info team) = s.owns (e.info team) ∧
      (s.owns (e.info team) = true → t.grp e.grp = { s.grp e.grp with
        fp := { (s.grp e.grp).fp with miterState := (s.grp e.grp).fp.miterState &&& ~~~fieldMask 18 1 } }) :=
  s.owner_spec team e fun _ => rfl

theorem State.putMiter_spec (s : State) (team : Nat) (e : MxEntry) (q : MiterRun) (ends : Option Nat) :
    let t := s.putMiter team e q ends
    t.teams = s.teams ∧ t.mem = s.mem ∧ t.owns (e.info team) = s.owns (e.info team) ∧
      (s.owns (e.info team) = true → t.grp e.grp = { s.grp e.grp with fp := (s.grp e.grp).fp.putMiter q ends }) :=
  s.owner_spec team e fun _ => rfl

/-- From `s` to `u` a phase of the word has changed its team to `tm`, and its ACTIVE is gone. -/
structure MiterPhased (s u : State) (team : Nat) (e : MxEntry) (rest : List MxEntry) (tm : Team) : Prop where
  head : MxHead u team e rest
  team_eq : u.team team = tm
  mem : u.mem = s.mem
  owns : s.owns (e.info team) = true → u.owns (e.info team) = true
  grp : s.owns (e.info team) = true → u.grp e.grp = { s.grp e.grp with
    fp := { (s.grp e.grp).fp with miterState := (s.grp e.grp).fp.miterState &&& ~~~fieldMask 18 1 } }

/-- The state after a phase's part of the update, before the boundary behind it. -/
def State.phased (s : State) (team : Nat) (e : MxEntry) (tm : Team) (n : Nat) : State :=
  ((s.setTeam team tm).miterResumes team e).mxBusy team n

theorem MxHead.phased (h : MxHead s team e rest) {tm : Team} (hq : tm.mx = (s.team team).mx)
    (hm : tm.members = (s.team team).members) (n : Nat) : MiterPhased s (s.phased team e tm n) team e rest tm := by
  obtain ⟨hteams, hmem, howns, hgrp⟩ := (s.setTeam team tm).miterResumes_spec team e
  have hut : (s.phased team e tm n).teams = (s.setTeam team tm).teams := (State.count_teams ..).trans hteams
  have hug : (s.phased team e tm n).groups = ((s.setTeam team tm).miterResumes team e).groups := State.count_groups ..
  have hhead : MxHead (s.setTeam team tm) team e rest := (TeamActs.setTeam hq hm).head h
  refine ⟨hhead.of_teams hut, ?_, (State.count_mem ..).trans hmem, fun ho => ?_, fun ho => ?_⟩
  · rw [State.team, hut]; exact (State.team_setTeam ..).trans (if_pos rfl)
  · exact (State.owns_of_groups hug _).trans (howns.trans ho)
  · exact (State.grp_of_groups hug _).trans (hgrp ho)

section
variable {tm : Team} {q : MiterRun}

/-- The word goes on to its next phase. -/
theorem MiterPhased.goes_on (h : MiterPhased s u team e rest tm) (ev : Instr) :
    let t := (u.putMx team { e with run := q }).later ev
    t.mem = s.mem ∧ t.team team = { tm with mx := { e with run := q } :: rest } ∧
      (s.owns (e.info team) = true → (t.grp e.grp).fp.miterState.getLsbD 18 = false) := by
  intro t
  have ht : t = (u.setTeam team { tm with mx := { e with run := q } :: rest }).later ev := by
    simp only [t, h.head.putMx (e' := { e with run := q }) rfl, h.team_eq]
  rw [ht]
  refine ⟨(State.later_mem ..).trans h.mem, (State.team_later ..).trans ((State.team_setTeam ..).trans (if_pos rfl)), fun ho => ?_⟩
  rw [State.grp_later]
  exact (congrArg (fun x : Group => x.fp.miterState.getLsbD 18) (h.grp ho)).trans (clearActive _).1

/-- The word stops at the boundary. -/
theorem MiterPhased.stops (h : MiterPhased s u team e rest tm) :
    let t := (u.putMiter team e q none).putMx team { e with run := q, stopped := true }
    t.mem = s.mem ∧ t.team team = { tm with mx := { e with run := q, stopped := true } :: rest } ∧
      (s.owns (e.info team) = true → q.phase < 3 →
        miterProgress (t.grp e.grp).fp.miterState q ((s.grp e.grp).fp.miterState.extractLsb' 19 2) true) := by
  intro t
  obtain ⟨hteams, hmem, -, hgrp⟩ := u.putMiter_spec team e q none
  have hteam : (u.putMiter team e q none).team team = tm := by rw [State.team, hteams]; exact h.team_eq
  have ht : t = (u.putMiter team e q none).setTeam team { tm with mx := { e with run := q, stopped := true } :: rest } := by
    simp only [t, (h.head.of_teams hteams).putMx (e' := { e with run := q, stopped := true }) rfl, hteam]
  rw [ht]
  refine ⟨hmem.trans h.mem, (State.team_setTeam ..).trans (if_pos rfl), fun ho hp => ?_⟩
  have hx := (hgrp (h.owns ho)).trans (by rw [h.grp ho])
  have hprog := putMiter_stops { (s.grp e.grp).fp with miterState := (s.grp e.grp).fp.miterState &&& ~~~fieldMask 18 1 } q hp
  rw [(clearActive _).2] at hprog
  exact (congrArg (fun x : Group => x.fp.miterState) hx) ▸ hprog

theorem Group.afterMx_miterState (x : Group) (e : MxEntry) (trap : Option (Nat × Nat × Word)) :
    (x.afterMx e trap).fp.miterState = x.fp.miterState := by
  cases trap <;> rfl

theorem Group.afterMx_pending_none (x : Group) (e : MxEntry) : (x.afterMx e none).pending = x.pending := rfl

theorem Group.afterMx_pending_some (x : Group) (e : MxEntry) (cause info : Nat) (va : Word) :
    (x.afterMx e (some (cause, info, va))).pending = x.pending ++
      [{ cause := cause, pc := e.pc, addr := va, info := BitVec.ofNat 64 info, lanes := allLanes }] := rfl

theorem Group.withFp_pending (x : Group) (f : FpState) : { x with fp := f }.pending = x.pending := rfl

/-- The word ends: with its progress, and with a trap pending where it diverged. -/
theorem MiterPhased.ends (h : MiterPhased s u team e rest tm) {code reason : Nat} (hc : code < 4) :
    let t := (u.putMiter team e q (some code)).mxEnd team { e with run := q } (if reason = 0 then none else some (0x20, reason, 0))
    t.mem = s.mem ∧ t.team team = { tm with mx := rest } ∧ (s.owns (e.info team) = true →
      miterProgress (t.grp e.grp).fp.miterState q (BitVec.ofNat 2 code) false ∧
      (reason = 0 → (t.grp e.grp).pending = (s.grp e.grp).pending) ∧
      (reason ≠ 0 → (t.grp e.grp).pending = (s.grp e.grp).pending ++
        [{ cause := 0x20, pc := e.pc, addr := 0, info := BitVec.ofNat 64 reason, lanes := allLanes }])) := by
  intro t
  obtain ⟨hteams, hmem, howns, hgrp⟩ := u.putMiter_spec team e q (some code)
  have hteam : (u.putMiter team e q (some code)).team team = tm := by rw [State.team, hteams]; exact h.team_eq
  obtain ⟨htteam, htmem, -, htgrp⟩ := (h.head.of_teams hteams).mxEnd (e' := { e with run := q }) rfl
    (if reason = 0 then none else some (0x20, reason, 0))
  rw [hteam] at htteam
  refine ⟨htmem.trans (hmem.trans h.mem), htteam, fun ho => ?_⟩
  have hv := hgrp (h.owns ho)
  have hg : t.grp e.grp = ((u.putMiter team e q (some code)).grp e.grp).afterMx { e with run := q }
    (if reason = 0 then none else some (0x20, reason, 0)) := htgrp (howns.trans (h.owns ho))
  have hpending : ((u.putMiter team e q (some code)).grp e.grp).pending = (s.grp e.grp).pending := by
    rw [hv, Group.withFp_pending, h.grp ho, Group.withFp_pending]
  refine ⟨?_, fun hz => ?_, fun hz => ?_⟩
  · rw [hg, Group.afterMx_miterState, hv]
    exact putMiter_ends _ q hc
  · rw [hg, if_pos hz, Group.afterMx_pending_none, hpending]
  · rw [hg, if_neg hz, Group.afterMx_pending_some, hpending]

end

variable {m x w off : Nat} {ns5 f16 : Bool} {coef : List Lane32} {cap tol : Nat}

/-- A `miter` at the head of its team's queue, under way. -/
structure MiterHead (s : State) (core team : Nat) (e : MxEntry) (rest : List MxEntry) (op : MxOp) : Prop extends MxHead s team e rest where
  core_eq : (s.team team).core = core
  op_eq : e.op = op
  started : e.started = true
  ready : (s.team team).mxReady = true

theorem miterPhase_reissued (h : MiterHead s core team e rest (.miter m x w off ns5 f16 coef cap tol)) {stop : Bool}
    (hstop : stop ≠ s.saving (s.team team).ctx) :
    exec (.miterPhase core team stop) s = .next (s.later (.miterPhase core team (!stop))) := by
  show execMiterPhase core team stop s = _
  unfold execMiterPhase
  simp [h.queue, h.core_eq, h.op_eq, h.started, h.ready, hstop]

theorem MiterHead.stopped_eq {op : MxOp} (h : MiterHead s core team e rest op) : e.stopped = false := by
  have hr := h.ready
  simp only [Team.mxReady, h.queue, Bool.and_eq_true, Bool.not_eq_true'] at hr
  exact hr.2

theorem MiterHead.miterPhased (h : MiterHead s core team e rest (.miter m x w off ns5 f16 coef cap tol)) :
    let r := (s.team team).miterPhase m x w off ns5 f16 coef cap tol e.run
    MiterPhased s (s.phased team e r.2 (miterCycles m ns5 e.run.phase)) team e rest r.2 := by
  intro r
  obtain ⟨t, v, hr⟩ := onlyMatrix_iff.mp ((s.team team).miterPhase_only (m := m) (x := x) (w := w) (off := off) (ns5 := ns5)
    (f16 := f16) (coef := coef) (cap := cap) (tol := tol) (q := e.run))
  exact h.toMxHead.phased (by rw [hr]) (by rw [hr]) _

section
variable {stop : Bool} {q : MiterRun} {code reason : Nat} {tm : Team}

theorem miterPhase_exec_on (h : MiterHead s core team e rest (.miter m x w off ns5 f16 coef cap tol))
    (hstop : stop = s.saving (s.team team).ctx) (hnext : s.mxNext core = some team) (hfreeze : s.freezeDue = false)
    (hr : (s.team team).miterPhase m x w off ns5 f16 coef cap tol e.run = (.on q, tm)) :
    let u := s.phased team e tm (miterCycles m ns5 e.run.phase)
    exec (.miterPhase core team stop) s =
      if stop then .next ((u.putMiter team e q none).putMx team { e with run := q, stopped := true })
      else .next ((u.putMx team { e with run := q }).later (.miterPhase core team false)) := by
  intro u
  show execMiterPhase core team stop s = _
  unfold execMiterPhase
  simp only [h.queue, h.core_eq, h.op_eq, h.started, h.ready, hnext, hfreeze, ← hstop, ne_eq, not_true_eq_false, decide_false,
    Bool.not_true, Bool.or_self, Bool.false_eq_true, if_false, hr]
  rfl

theorem miterPhase_exec_stop (h : MiterHead s core team e rest (.miter m x w off ns5 f16 coef cap tol))
    (hstop : stop = s.saving (s.team team).ctx) (hnext : s.mxNext core = some team) (hfreeze : s.freezeDue = false)
    (hr : (s.team team).miterPhase m x w off ns5 f16 coef cap tol e.run = (.stop q code reason, tm)) :
    exec (.miterPhase core team stop) s = .next (((s.phased team e tm (miterCycles m ns5 e.run.phase)).putMiter team e q (some code)).mxEnd
      team { e with run := q } (if reason = 0 then none else some (0x20, reason, 0))) := by
  show execMiterPhase core team stop s = _
  unfold execMiterPhase
  simp only [h.queue, h.core_eq, h.op_eq, h.started, h.ready, hnext, hfreeze, ← hstop, ne_eq, not_true_eq_false, decide_false,
    Bool.not_true, Bool.or_self, Bool.false_eq_true, if_false, hr]
  rfl

end

/-- A phase that does its part: the word goes on to its next phase, or stops at the boundary. -/
theorem miterPhase_goes_on (h : MiterHead s core team e rest (.miter m x w off ns5 f16 coef cap tol)) {stop : Bool}
    (hstop : stop = s.saving (s.team team).ctx) (hnext : s.mxNext core = some team) (hfreeze : s.freezeDue = false) (q : MiterRun) :
    let r := (s.team team).miterPhase m x w off ns5 f16 coef cap tol e.run
    r.1 = .on q → ∃ t, exec (.miterPhase core team stop) s = .next t ∧ t.mem = s.mem ∧
      t.team team = { r.2 with mx := { e with run := q, stopped := stop } :: rest } ∧
      (s.owns (e.info team) = true → stop = false → (t.grp e.grp).fp.miterState.getLsbD 18 = false) ∧
      (s.owns (e.info team) = true → stop = true → e.run.phase < 3 → q.phase < 3 →
        miterProgress (t.grp e.grp).fp.miterState q ((s.grp e.grp).fp.miterState.extractLsb' 19 2) true) := by
  intro r hr
  have hexec := miterPhase_exec_on h hstop hnext hfreeze (Prod.ext hr rfl)
  cases stop with
  | false =>
    obtain ⟨hmem, hteam, hword⟩ := h.miterPhased.goes_on (q := q) (.miterPhase core team false)
    exact ⟨_, hexec, hmem, h.stopped_eq ▸ hteam, fun ho _ => hword ho, nofun⟩
  | true =>
    obtain ⟨hmem, hteam, hword⟩ := h.miterPhased.stops (q := q)
    exact ⟨_, hexec, hmem, hteam, nofun, fun ho _ _ => hword ho⟩

/-- A phase whose test ends the word. -/
theorem miterPhase_ends (h : MiterHead s core team e rest (.miter m x w off ns5 f16 coef cap tol)) {stop : Bool}
    (hstop : stop = s.saving (s.team team).ctx) (hnext : s.mxNext core = some team) (hfreeze : s.freezeDue = false) (q : MiterRun)
    (code reason : Nat) :
    let r := (s.team team).miterPhase m x w off ns5 f16 coef cap tol e.run
    r.1 = .stop q code reason → ∃ t, exec (.miterPhase core team stop) s = .next t ∧ t.mem = s.mem ∧
      t.team team = { r.2 with mx := rest } ∧ (s.owns (e.info team) = true →
        miterProgress (t.grp e.grp).fp.miterState q (BitVec.ofNat 2 code) false ∧
        (reason = 0 → (t.grp e.grp).pending = (s.grp e.grp).pending) ∧
        (reason ≠ 0 → (t.grp e.grp).pending = (s.grp e.grp).pending ++
          [{ cause := 0x20, pc := e.pc, addr := 0, info := BitVec.ofNat 64 reason, lanes := allLanes }])) := by
  intro r hr
  exact ⟨_, miterPhase_exec_stop h hstop hnext hfreeze (Prod.ext hr rfl),
    h.miterPhased.ends ((s.team team).miterPhase_stop hr)⟩

end

end Sys2Proof.Machine
end

section
namespace Sys2Proof.Machine
open Sys2Proof Sys2Proof.Spec

/-! ### Matrix words and the phases of `miter` together (R160, R164 to R182) -/

theorem matrixWordsExecute : Spec.MatrixWordsExecute := by
  intro s core team e rest tm ev here fresh mine leaves elem hhere
  obtain ⟨hteam, hcore, hqueue, hmembers, hready, hnext, hthaw, hothers⟩ := hhere
  have h : MxTurn s core team e rest := ⟨⟨hteam, hqueue, hothers, hmembers⟩, hcore, hready, hnext, hthaw⟩
  refine ⟨?_, ?_, ?_, ?_, ?_, ?_, ?_, ?_, ?_, ?_, ?_, ?_⟩
  · rintro d n ⟨hs, ht, hfl⟩ hop
    exact aclr_executes h hs ht hfl hop
  · rintro d n f16 rm sat srci ⟨hs, ht, -⟩ hop conv
    obtain ⟨t, hexec, hleft⟩ := acvt_executes h hs ht hop
    obtain ⟨hframe, htiles, hflags⟩ := tm.acvt_spec d n f16 rm sat srci
    exact ⟨t, _, _, hexec, hleft, hframe, htiles, fun j _ => hflags j⟩
  · rintro src off n ⟨hs, ht, hfl⟩ hop
    exact wbload_local_executes h hs ht hfl hop
  · rintro m n clr d aT ao bT bo d0 d1 ⟨hs, ht, hfl⟩ hop sa sb row col int
    obtain ⟨t, hexec, hleft⟩ := mma_executes h hs ht hfl hop
    obtain ⟨hframe, hin, hout⟩ := tm.mma_spec (64 * (m + 1)) (64 * (n + 1)) aT bT ao bo d0 d1 (Nat.dvd_mul_right ..)
      (Nat.dvd_mul_right ..) clr d
    rw [Nat.mul_div_cancel_left _ (show 0 < 64 by decide), Nat.mul_div_cancel_left _ (show 0 < 64 by decide)] at hout
    refine ⟨t, _, hexec, hleft, hframe, fun i hi j hj ra cb hra hcb => hin i hi j hj ra cb ?_ ?_, hout⟩
    · rw [← hra]; cases aT <;> rfl
    · rw [← hcb]; cases bT <;> rfl
  · rintro tile e0 regs tok ⟨hs, ht, -⟩ hop
    exact toVec_executes h hs ht hop
  · rintro tile e0 n vals ⟨hs, ht, hfl⟩ hop
    exact toTile_executes h hs ht hfl hop
  · rintro q d off deg f16 coef c low ⟨hs, ht, hfl⟩ hop hc m xb tm'
    have hm : 64 ∣ m := Nat.dvd_mul_right ..
    obtain ⟨t, hexec, hleft⟩ := mpoly_executes h hs ht hfl hm hop hc
    exact ⟨t, hexec, hleft, Team.mpoly_spec hm tm d off hc⟩
  · rintro src off n b u ⟨hs, ht, -⟩ hop hn k
    exact wbload_begins h hs ht hop hn
  · rintro m0 n0 d loc tloc rm sat srci a b d0 d1 ⟨hs, ht, -⟩ hop m n main trans val gens before begun hf -
    exact mdrain_begins h hs ht hop hf
  · intro va data hs ht
    exact put_local_executes h hs ht
  · intro va off n b u hs ht hr hu hin
    exact fetch_executes h hs ht hr hu hin
  · intro va data u hs ht hw hu hin
    exact put_global_executes h hs ht hw hu hin

theorem miterPhases : Spec.MiterPhases := by
  intro s core team stop e rest m x w off ns5 f16 coef cap tol tm ev r mine word progress hteam hcore hqueue hothers hmembers hop hstarted
    hready
  have h : MiterHead s core team e rest (.miter m x w off ns5 f16 coef cap tol) :=
    ⟨⟨hteam, hqueue, hothers, hmembers⟩, hcore, hop, hstarted, hready⟩
  refine ⟨miterPhase_reissued h, fun hstop hnext hthaw =>
    ⟨miterPhase_goes_on h hstop hnext hthaw, miterPhase_ends h hstop hnext hthaw⟩, ?_⟩
  intro hsize hxw q xs ws c rest'
  have hm : 64 ∣ m := by rcases hsize with rfl | rfl <;> decide
  obtain ⟨hnan, hbig, hmet, hrise, hcap, hon⟩ := miterTest_spec q (residualOf m ws) cap tol
  refine ⟨tm.miterPhase_zero_spec hm, fun hq => ⟨fun hn => ?_, fun hn hb => ?_, fun hn hb ht => ?_, fun hn hb ht hu hr => ?_,
    fun hn hb ht hu hc => ?_, fun hn hb ht hu hc => ?_⟩, tm.miterPhase_two_spec hm hxw⟩
  · exact tm.miterPhase_one_stop hq (hnan hn)
  · exact tm.miterPhase_one_stop hq (hbig hn hb)
  · exact tm.miterPhase_one_stop hq (hmet hn hb ht)
  · exact tm.miterPhase_one_stop hq (hrise hn hb ht hu hr)
  · exact tm.miterPhase_one_stop hq (hcap hn hb ht hu hc)
  · exact tm.miterPhase_one_spec hm hq (hon hn hb ht hu hc)

/-- Settles O35: each word at the head of the queue has its own part, and each phase of a `miter` its own effect. -/
theorem matrixExecution : Obligations.MatrixExecution := ⟨matrixWordsExecute, miterPhases⟩

end Sys2Proof.Machine
end

section
namespace Sys2Proof.Machine
open Sys2Proof Sys2Proof.Spec

/-! ### What neither a record nor a save touches -/

/-- From `s₀` to `s` only memory, the registers of the management space, the memory system, the hub, what debugging keeps and the free
values may differ. -/
def State.Aside (s₀ s : State) : Prop :=
  ∃ mem mgmt sys hub dbg free, s = { s₀ with mem := mem, mgmt := mgmt, sys := sys, hub := hub, dbg := dbg, free := free }

section
variable {s₀ s t : State}

theorem State.Aside.refl : s.Aside s := ⟨_, _, _, _, _, _, rfl⟩

theorem State.Aside.upd {mem mgmt sys hub dbg free} (h : s₀.Aside s) :
    s₀.Aside { s with mem := mem, mgmt := mgmt, sys := sys, hub := hub, dbg := dbg, free := free } := by
  obtain ⟨_, _, _, _, _, _, rfl⟩ := h
  exact ⟨_, _, _, _, _, _, rfl⟩

theorem State.Aside.groups (h : s₀.Aside s) : s.groups = s₀.groups := by obtain ⟨_, _, _, _, _, _, rfl⟩ := h; rfl

theorem State.Aside.teams (h : s₀.Aside s) : s.teams = s₀.teams := by obtain ⟨_, _, _, _, _, _, rfl⟩ := h; rfl

theorem State.Aside.tick (h : s₀.Aside s) : s.tick = s₀.tick := by obtain ⟨_, _, _, _, _, _, rfl⟩ := h; rfl

theorem State.Aside.ite {c : Prop} [Decidable c] (hs : s₀.Aside s) (ht : s₀.Aside t) : s₀.Aside (if c then s else t) := by
  split <;> assumption

theorem State.Aside.foldl {α : Type} {l : List α} {f : State → α → State} (h : s₀.Aside s)
    (hf : ∀ s a, s₀.Aside s → s₀.Aside (f s a)) : s₀.Aside (l.foldl f s) :=
  List.foldlRecOn (motive := s₀.Aside) l f h fun s h a _ => hf s a h

theorem State.Aside.setReg {a v} (h : s₀.Aside s) : s₀.Aside (s.setReg a v) := h.upd

theorem State.Aside.setSys {x} (h : s₀.Aside s) : s₀.Aside (s.setSys x) := h.upd

theorem State.Aside.setHub {x} (h : s₀.Aside s) : s₀.Aside (s.setHub x) := h.upd

theorem State.Aside.freeVal (h : s₀.Aside s) : s₀.Aside s.freeVal.2 := h.upd

theorem State.Aside.count {unit ev n} (h : s₀.Aside s) : s₀.Aside (s.count unit ev n) := h.ite h.upd

theorem State.Aside.setByte {pa b} (h : s₀.Aside s) : s₀.Aside (s.setByte pa b) := h.upd

theorem State.Aside.setBytes {pa l} (h : s₀.Aside s) : s₀.Aside (s.setBytes pa l) := by
  induction l generalizing s pa with
  | nil => exact h
  | cons b l ih => exact ih h.setByte

/-! ### Posting a record (R349) -/

theorem State.Aside.l2Touch {pa die write} (h : s₀.Aside s) : s₀.Aside (s.l2Touch pa die write) := by
  unfold State.l2Touch
  extract_lets
  split
  · exact h.ite h.setSys
  · exact h.setSys.ite (h.setSys.ite h.freeVal.setSys)

theorem State.Aside.recallSub {sub} (h : s₀.Aside s) : s₀.Aside (s.recallSub sub) := by
  unfold State.recallSub
  extract_lets
  split
  · exact h
  · exact h.ite (((h.foldl fun _ _ h => h.setSys).foldl fun _ _ h => (h.l2Touch.ite h).setSys).setSys.count)

theorem State.Aside.signal {fn vec} (h : s₀.Aside s) : s₀.Aside (s.signal fn vec) := h.ite (h.setHub.ite h.setHub)

theorem State.Aside.holdLine {pa on} (h : s₀.Aside s) : s₀.Aside (s.holdLine pa on) := h.setHub.ite (h.setHub.ite h)

theorem State.Aside.writeRecord {data rest} (h : s₀.Aside s) : s₀.Aside (s.writeRecord data rest) := by
  unfold State.writeRecord
  extract_lets _ _ _ _ _ _ _ _ s₁ s₂
  have h₂ : s₀.Aside s₂ := h.recallSub.holdLine.setBytes.l2Touch.setHub.setReg.count
  exact h.ite (h.recallSub.holdLine.ite (h₂.ite h₂.signal))

theorem State.Aside.drainRecords (h : s₀.Aside s) : s₀.Aside s.drainRecords := by
  refine h.foldl fun _ _ h => ?_
  split
  · exact h.writeRecord
  · exact h

theorem State.Aside.postCtxFault {ctx fn cause detail core} (h : s₀.Aside s) :
    s₀.Aside (s.postCtxFault ctx fn cause detail core) :=
  h.setHub.ite h.setHub.drainRecords

end

end Sys2Proof.Machine
end

section
namespace Sys2Proof.Machine
open Sys2Proof Sys2Proof.Spec

/-! ### Taking a trap (R195, R196) -/

section
variable {s : State} {g : Nat}

theorem State.grp_haltGroup (hg : s.hasGrp g = true) (k : Nat) : (s.haltGroup g).grp k =
    if k = g then { s.grp g with port := none, sched := { (s.grp g).sched with halted := true } } else s.grp k := by
  rw [State.haltGroup, State.grp_updGrp, State.hasGrp_releasePort, State.grp_releasePort s g g hg, State.grp_releasePort s g k hg]
  by_cases h : k = g <;> simp [h, hg]

/-- A group whose trap finds no handler, or finds another trap active, keeps `f` of what it was, and halts. -/
def State.trapHalts (s : State) (g : Nat) (f : Group → Group) (cause detail : Nat) : State :=
  (((s.count (s.grp g).core 0x15 1).updGrp g f).haltGroup g).postCtxFault (s.grp g).ctx 0 cause detail (s.grp g).core

theorem State.grp_trapHalts (hg : s.hasGrp g = true) (f : Group → Group) (cause detail k : Nat) :
    (s.trapHalts g f cause detail).grp k =
      if k = g then { f (s.grp g) with port := none, sched := { (f (s.grp g)).sched with halted := true } } else s.grp k := by
  have ha : (((s.count (s.grp g).core 0x15 1).updGrp g f).haltGroup g).Aside (s.trapHalts g f cause detail) :=
    State.Aside.refl.postCtxFault
  rw [State.grp_of_groups ha.groups, State.grp_haltGroup (by simp [hg])]
  by_cases h : k = g <;> simp [h, hg, State.grp_updGrp]

theorem State.trapHalts_frame (f : Group → Group) (cause detail : Nat) :
    (s.trapHalts g f cause detail).teams = s.teams ∧ (s.trapHalts g f cause detail).tick = s.tick := by
  have ha : (((s.count (s.grp g).core 0x15 1).updGrp g f).haltGroup g).Aside (s.trapHalts g f cause detail) :=
    State.Aside.refl.postCtxFault
  exact ⟨by simp [ha.teams], by simp [ha.tick]⟩

/-- The group that enters its handler at `vec`, eligible from tick `now`. -/
def Group.enters (x : Group) (q : TrapReq) (vec : PC) (now : Word) : Group :=
  { x with
    port := none
    sup := true
    trap := { x.trap.record q with
      active := true, resumePC := q.resume, resumeMask := x.flow.mask, resumeRegion := x.flow.region,
      resumeRun := x.flow.run, supSaved := x.sup, entryDepth := x.flow.stack.length, resumeKept := x.sched.kept }
    flow := { x.flow with pc := vec, run := 0, region := none, mask := allLanes &&& ~~~(x.flow.exited ||| x.flow.deferred) }
    pending := x.pending.map (fun p => { p with held := true })
    sched := { x.sched with need := [], since := now, kept := false } }

/-- A group that gives its port back and is eligible from now. -/
theorem State.grp_eligible_releasePort (hg : s.hasGrp g = true) (k : Nat) : ((s.releasePort g).eligible g).grp k =
    if k = g then { s.grp g with port := none, sched := { (s.grp g).sched with since := s.tick } } else s.grp k := by
  rw [State.eligible, State.grp_updGrp, State.hasGrp_releasePort, State.grp_releasePort s g g hg, State.grp_releasePort s g k hg]
  by_cases h : k = g <;> simp [h, hg]

/-- The handler's address where the trap is counted. -/
theorem State.ctxRegs_count (u e n core c : Nat) : (s.count u e n).ctxRegs core c = s.ctxRegs core c :=
  State.ctxRegs_of_ctxs (by simp) core c

variable {q : TrapReq}

theorem State.takeTrap_active (ha : (s.grp g).trap.active = true) : ∃ detail, s.takeTrap g q =
    s.trapHalts g (fun x => { x with trap := { x.trap with cause := BitVec.ofNat 7 q.cause } }) q.cause detail :=
  ⟨_, if_pos ha⟩

variable (ha : (s.grp g).trap.active = false)
include ha

theorem State.takeTrap_no_handler (hv : (s.ctxRegs (s.grp g).core (s.grp g).ctx).trapVec = 0) : ∃ detail, s.takeTrap g q =
    s.trapHalts g (fun x => { x with trap := x.trap.record q }) q.cause detail := by
  refine ⟨_, (if_neg (by simp [ha])).trans (if_pos ?_)⟩
  rw [State.ctxRegs_count, hv]

theorem State.takeTrap_enters (hg : s.hasGrp g = true) (hv : (s.ctxRegs (s.grp g).core (s.grp g).ctx).trapVec ≠ 0) :
    (∀ k, (s.takeTrap g q).grp k =
      if k = g then (s.grp g).enters q (s.ctxRegs (s.grp g).core (s.grp g).ctx).trapVec s.tick else s.grp k) ∧
    (s.takeTrap g q).mem = s.mem ∧ (s.takeTrap g q).teams = s.teams ∧ (s.takeTrap g q).tick = s.tick := by
  rw [State.takeTrap, if_neg (by simp [ha]), State.ctxRegs_count, if_neg hv]
  refine ⟨fun k => ?_, by simp, by simp, by simp⟩
  rw [State.grp_eligible_releasePort (by simp [hg])]
  by_cases h : k = g <;> simp [h, hg, State.grp_updGrp, Group.enters, Flow.setMask]

end

theorem trapEntry : Spec.TrapEntry := by
  intro s g q x vec t hg
  have hhalts (f : Group → Group) (h : ∃ detail, t = s.trapHalts g f q.cause detail) :
      t.grp g = { f x with port := none, sched := { (f x).sched with halted := true } } ∧
      (∀ k, k ≠ g → t.grp k = s.grp k) ∧ t.teams = s.teams ∧ t.tick = s.tick := by
    obtain ⟨detail, h⟩ := h
    have hgrp := State.grp_trapHalts hg f q.cause detail
    exact h ▸ ⟨(hgrp g).trans (if_pos rfl), fun k hk => (hgrp k).trans (if_neg hk), State.trapHalts_frame f q.cause detail⟩
  by_cases ha : x.trap.active = true
  · obtain ⟨hgrp, hframe⟩ := hhalts _ (State.takeTrap_active ha)
    exact ⟨fun h => absurd ha (by simp [h]), fun h => absurd ha (by simp [h]), fun _ => hgrp, hframe⟩
  · have ha' : x.trap.active = false := by simpa using ha
    by_cases hv : vec = 0
    · obtain ⟨hgrp, hframe⟩ := hhalts _ (State.takeTrap_no_handler ha' hv)
      exact ⟨fun _ h => absurd hv h, fun _ _ => hgrp, fun h => absurd h ha, hframe⟩
    · obtain ⟨hgrp, hmem, hteams, htick⟩ := State.takeTrap_enters (q := q) ha' hg hv
      exact ⟨fun _ _ => ⟨(hgrp g).trans (if_pos rfl), hmem⟩, fun _ h => absurd h hv, fun h => absurd h ha,
        fun k hk => (hgrp k).trans (if_neg hk), hteams, htick⟩

end Sys2Proof.Machine
end

section
namespace Sys2Proof.Machine
open Sys2Proof Sys2Proof.Spec

/-! ### The words and the lanes of deferred records (R189, R198) -/

/-- One step of the search for the words of records. -/
def addWord (l : List PC) (r : DefRec) : List PC := if l.contains r.pc then l else l ++ [r.pc]

theorem foldl_addWord (recs : List DefRec) (l : List PC) (hl : l.Nodup) :
    (recs.foldl addWord l).Nodup ∧ ∀ w, w ∈ recs.foldl addWord l ↔ w ∈ l ∨ ∃ r ∈ recs, r.pc = w := by
  induction recs generalizing l with
  | nil => exact ⟨hl, by simp⟩
  | cons r recs ih =>
    by_cases h : r.pc ∈ l
    · have hr : addWord l r = l := if_pos (by simpa using h)
      rw [List.foldl_cons, hr]
      obtain ⟨hn, hm⟩ := ih l hl
      refine ⟨hn, fun w => (hm w).trans ?_⟩
      simp only [List.mem_cons, exists_eq_or_imp]
      grind
    · have hr : addWord l r = l ++ [r.pc] := if_neg (by simpa using h)
      rw [List.foldl_cons, hr]
      obtain ⟨hn, hm⟩ := ih (l ++ [r.pc]) (by simpa [List.nodup_append] using ⟨hl, fun a ha e => h (e ▸ ha)⟩)
      refine ⟨hn, fun w => (hm w).trans ?_⟩
      simp only [List.mem_append, List.mem_cons, List.not_mem_nil, or_false, exists_eq_or_imp]
      grind

theorem nodup_recWords (recs : List DefRec) : (recWords recs).Nodup := (foldl_addWord recs [] List.nodup_nil).1

theorem mem_recWords {recs : List DefRec} {w : PC} : w ∈ recWords recs ↔ ∃ r ∈ recs, r.pc = w :=
  ((foldl_addWord recs [] List.nodup_nil).2 w).trans (by simp)

/-- The words of records are their program counters, each once. -/
theorem length_recWords (recs : List DefRec) : (recWords recs).length = (recs.map DefRec.pc).dedup.length :=
  ((List.perm_ext_iff_of_nodup (nodup_recWords recs) (List.nodup_dedup _)).mpr fun w => by
    rw [mem_recWords, List.mem_dedup, List.mem_map]).length_eq

theorem sortNat_eq (l : List Nat) : sortNat l = l.insertionSort (· ≤ ·) := by
  have hins (x : Nat) (l : List Nat) : insertNat x l = l.orderedInsert (· ≤ ·) x := by
    induction l with
    | nil => rfl
    | cons y t ih => simp only [insertNat, List.orderedInsert, ih]
  induction l with
  | nil => rfl
  | cons x l ih => exact (hins _ _).trans (congrArg _ ih)

/-- The words of records in ascending order (R198). -/
def retryWords (recs : List DefRec) : List PC := (sortNat ((recWords recs).map BitVec.toNat)).map (BitVec.ofNat 54)

theorem map_toNat_retryWords (recs : List DefRec) :
    (retryWords recs).map BitVec.toNat = sortNat ((recWords recs).map BitVec.toNat) := by
  rw [retryWords, List.map_map, sortNat_eq]
  refine (List.map_congr_left fun n hn => ?_).trans (List.map_id _)
  obtain ⟨w, -, rfl⟩ := List.mem_map.mp ((List.mem_insertionSort _).mp hn)
  simp

theorem mem_retryWords {recs : List DefRec} {w : PC} : w ∈ retryWords recs ↔ ∃ r ∈ recs, r.pc = w := by
  have h : BitVec.toNat w ∈ (retryWords recs).map BitVec.toNat ↔ w ∈ retryWords recs :=
    List.mem_map_of_injective fun _ _ => BitVec.eq_of_toNat_eq
  rw [← h, map_toNat_retryWords, sortNat_eq, List.mem_insertionSort,
    List.mem_map_of_injective fun _ _ => BitVec.eq_of_toNat_eq, mem_recWords]

theorem pairwise_retryWords (recs : List DefRec) : (retryWords recs).Pairwise (fun a b => a.toNat < b.toNat) := by
  have hn : (sortNat ((recWords recs).map BitVec.toNat)).Nodup := by
    rw [sortNat_eq, (List.perm_insertionSort _ _).nodup_iff]
    exact (nodup_recWords recs).map fun _ _ => BitVec.eq_of_toNat_eq
  have hs : (sortNat ((recWords recs).map BitVec.toNat)).Pairwise (· ≤ ·) := sortNat_eq _ ▸ List.pairwise_insertionSort _ _
  have h := hs.and hn
  rw [← map_toNat_retryWords, List.pairwise_map] at h
  exact h.imp fun h => Nat.lt_of_le_of_ne h.1 h.2

theorem getLsbD_maskOfLanes (ls : List Nat) {l : Nat} (hl : l < 96) : (maskOfLanes ls).getLsbD l = decide (l ∈ ls) := by
  have hbit (i : Nat) : (1#96 <<< i).getLsbD l = decide (l = i) := by
    rw [← BitVec.twoPow_eq, BitVec.getLsbD_twoPow]
    simp [eq_comm]
    omega
  have key (m : Mask) : (ls.foldl (fun m i => m ||| (1#96 <<< i)) m).getLsbD l = (m.getLsbD l || decide (l ∈ ls)) := by
    induction ls generalizing m with
    | nil => simp
    | cons i ls ih => simp [ih, hbit, Bool.or_assoc]
  exact (key 0).trans (by simp)

/-! ### The return from a trap (R198) -/

/-- The path at which the interrupted group goes on. -/
def Group.backFlow (x : Group) (skip : Bool) : Flow :=
  { x.flow with
    pc := x.trap.resumePC + (if skip then 1 else 0), mask := x.trap.resumeMask &&& ~~~x.flow.exited, deferred := 0,
    region := x.trap.resumeRegion, run := x.trap.resumeRun }

/-- The group that goes on with the paths `f`. -/
def Group.back (x : Group) (skip : Bool) (f : Flow) : Group :=
  { x with
    flow := f, sup := x.trap.supSaved, defs := [], trap := { x.trap with active := false },
    sched := { x.sched with kept := x.trap.resumeKept }, q := if skip then { x.q with active := false } else x.q }

/-- The lanes of a failing word that have not exited. -/
def Group.retryMask (x : Group) (w : Nat) : Mask :=
  maskOfLanes ((x.defs.filter (fun r => decide (r.pc.toNat = w))).map DefRec.lane) &&& ~~~x.flow.exited

/-- The path on which they try it again. -/
def Group.retryPath (x : Group) (w : Nat) : Entry :=
  { kind := .path, addr := BitVec.ofNat 54 w, mask := x.retryMask w, link := x.trap.resumeRegion, age := 0,
    fresh := decide (x.trap.resumeRun ≠ 0) && !x.trap.resumeKept }

/-- What a group returns to: with `drop` its failing lanes have exited, without it they wait on retry paths. -/
def Group.backPaths (x : Group) (drop skip : Bool) : Flow :=
  if drop then (x.backFlow skip).exitLanes (maskOfLanes (x.defs.map DefRec.lane))
  else { x.backFlow skip with
    stack := x.flow.stack ++ (sortNat ((recWords x.defs).map BitVec.toNat)).map x.retryPath }

/-- Group `g` goes on as `y`: it gives its port back, and ends its path where no lane is left. -/
def State.goesBack (s : State) (g : Nat) (y : Group) : State :=
  ((if y.flow.mask = 0 then (s.setGrp g y).pathEnd g else s.setGrp g y).releasePort g).eligible g

theorem Flow.foldl_push (e : Mask → Nat → Entry) (ws : List Nat) (f : Flow) :
    ws.foldl (fun f w => f.push (e f.exited w)) f = { f with stack := f.stack ++ ws.map (e f.exited) } := by
  induction ws generalizing f with
  | nil => simp
  | cons w ws ih => rw [List.foldl_cons, ih]; simp [Flow.push]

section
variable {s : State} {g : Nat} {drop skip : Bool}

theorem State.returnFromTrap_eq (s : State) (g : Nat) (drop skip : Bool) : s.returnFromTrap g drop skip =
    s.goesBack g ((s.grp g).back false ((s.grp g).backPaths drop skip)) := by
  have hpush := Flow.foldl_push (fun ex w => { (s.grp g).retryPath w with
    mask := maskOfLanes (((s.grp g).defs.filter (fun r => decide (r.pc.toNat = w))).map DefRec.lane) &&& ~~~ex })
    (sortNat ((recWords (s.grp g).defs).map BitVec.toNat)) ((s.grp g).backFlow skip)
  have hflow : (if drop then ((s.grp g).backFlow skip).exitLanes (maskOfLanes ((s.grp g).defs.map DefRec.lane)) else _) =
    (s.grp g).backPaths drop skip := congrArg (fun f => if drop then _ else f) hpush
  unfold State.goesBack
  rw [← hflow]
  unfold State.returnFromTrap
  simp only [State.grp_setGrp, if_true]
  rfl

theorem State.goesBack_setGrp (s : State) (g : Nat) (x y : Group) : (s.setGrp g x).goesBack g y = s.goesBack g y := by
  rw [State.goesBack, State.setGrp_setGrp]
  rfl

/-- A return whose stack is at its depth and has room. -/
theorem State.rteWord_returns (hd : (s.grp g).flow.stack.length = (s.grp g).trap.entryDepth)
    (hr : drop = true ∨ (s.grp g).flow.stack.length + ((s.grp g).defs.map DefRec.pc).dedup.length ≤ 32) :
    s.rteWord g (s.grp g) drop skip = (s.goesBack g ((s.grp g).back skip ((s.grp g).backPaths drop skip)), .done) := by
  have hroom : ¬ (!drop && decide (32 < (s.grp g).flow.stack.length + (recWords (s.grp g).defs).length)) = true := by
    rw [length_recWords]
    rcases hr with rfl | hr
    · simp
    · simp [hr]
  rw [State.rteWord, if_neg (not_not.mpr hd), if_neg hroom]
  cases skip with
  | false => exact congrArg (·, Ends.done) (s.returnFromTrap_eq g drop false)
  | true =>
    refine congrArg (·, Ends.done) ((State.returnFromTrap_eq _ g drop true).trans ?_)
    simp only [if_true, State.goesBack_setGrp, State.grp_setGrp]
    rfl

section
variable {i : Instr} {b : Bool}
  (he : exec i s = .next ((s.rteWord g (s.grp g) drop skip).1.retire g b (s.rteWord g (s.grp g) drop skip).2))
include he

/-- A stack that is not at its depth is a trap (R198). -/
theorem rte_traps_at_depth (hd : (s.grp g).flow.stack.length ≠ (s.grp g).trap.entryDepth) : trapsBefore s g i 0x08 3 0 := by
  rw [State.rteWord, if_pos hd] at he
  exact trapsBefore_of_word he

/-- A stack with no room for the retry paths is a trap (R198). -/
theorem rte_traps_for_room (hdrop : drop = false) (hd : (s.grp g).flow.stack.length = (s.grp g).trap.entryDepth)
    (hr : 32 < (s.grp g).flow.stack.length + ((s.grp g).defs.map DefRec.pc).dedup.length) : trapsBefore s g i 0x08 1 0 := by
  rw [State.rteWord, if_neg (not_not.mpr hd), if_pos (by simp [hdrop, length_recWords, hr])] at he
  exact trapsBefore_of_word he

theorem rte_returns (hd : (s.grp g).flow.stack.length = (s.grp g).trap.entryDepth)
    (hr : drop = true ∨ (s.grp g).flow.stack.length + ((s.grp g).defs.map DefRec.pc).dedup.length ≤ 32) :
    exec i s = .next (s.goesBack g ((s.grp g).back skip ((s.grp g).backPaths drop skip))) := by
  rw [State.rteWord_returns hd hr] at he
  exact he

end

end

/-- The retry paths as entries by word. -/
theorem Group.map_retryPath (x : Group) : (sortNat ((recWords x.defs).map BitVec.toNat)).map x.retryPath =
    (retryWords x.defs).map (fun w => { x.retryPath w.toNat with addr := w }) := by
  rw [← map_toNat_retryWords, List.map_map]
  exact List.map_congr_left fun w _ => by simp [Group.retryPath]

theorem Group.getLsbD_retryMask (x : Group) (w : PC) {l : Nat} (hl : l < 96) : (x.retryMask w.toNat).getLsbD l =
    (decide (∃ r ∈ x.defs, r.pc = w ∧ r.lane = l) && !x.flow.exited.getLsbD l) := by
  rw [Group.retryMask, BitVec.getLsbD_and, BitVec.getLsbD_not, getLsbD_maskOfLanes _ hl]
  simp [hl, BitVec.toNat_inj, and_assoc]

section
variable (h : Hdr) (skip : Bool) (s : State)

theorem exec_rte : exec (.rte h) s = word (.rte h) s (fun s g x => s.rteWord g x false false) := rfl

theorem exec_rteSkip : exec (.rteSkip h) s = word (.rteSkip h) s (fun s g x => s.rteWord g x false true) := rfl

theorem exec_rteDrop : exec (.rteDrop h skip) s = word (.rteDrop h skip) s (fun s g x => s.rteWord g x true skip) := rfl

end

theorem trapReturn : Spec.TrapReturn := by
  intro h skip s g x t at_ base back after retries depth room
  have hrte (hs : s.Stands g (.rte h)) := exec_word (h := h) hs (exec_rte h s) rfl
  have hskip (hs : s.Stands g (.rteSkip h)) := exec_word (h := h) hs (exec_rteSkip h s) rfl
  have hdrop (hs : s.Stands g (.rteDrop h skip)) := exec_word (h := h) hs (exec_rteDrop h skip s) rfl
  have hretries (i : Instr) (k : Bool) (he : s.Stands g i → exec i s =
      .next ((s.rteWord g x false k).1.retire g h.bnd (s.rteWord g x false k).2)) : retries i k := fun hs hd hr => by
    have he := rte_returns (he hs) hd (.inr hr)
    rw [Group.backPaths, if_neg Bool.false_ne_true, Group.map_retryPath] at he
    exact ⟨retryWords x.defs, fun w => x.retryMask w.toNat, pairwise_retryWords _, fun w => mem_retryWords,
      fun w l hl => x.getLsbD_retryMask w hl, he⟩
  refine ⟨hretries _ _ hrte, hretries _ _ hskip,
    fun hs => rte_traps_at_depth (hrte hs), fun hs => rte_traps_at_depth (hskip hs), fun hs => rte_traps_at_depth (hdrop hs),
    fun hs => rte_traps_for_room (hrte hs) rfl, fun hs => rte_traps_for_room (hskip hs) rfl, fun hs hd => ?_⟩
  have he := rte_returns (hdrop hs) hd (.inl rfl)
  refine ⟨maskOfLanes (x.defs.map DefRec.lane), fun l hl => ?_, he⟩
  rw [getLsbD_maskOfLanes _ hl]
  exact decide_eq_decide.mpr List.mem_map

/-- Settles O27: what a trap leaves of its group with a handler and without one, and the paths to which `rte` goes back. -/
theorem trapEntryAndReturn : Obligations.TrapEntryAndReturn := ⟨trapEntry, trapReturn⟩

end Sys2Proof.Machine
end

section
namespace Sys2Proof.Machine
open Sys2Proof Sys2Proof.Spec

/-! ### Software traps, `tick` and `halt` (R186, R197, R378, R389) -/

section
variable (h : Hdr) (n : BitVec 16) (k : BitVec 12) (d : Operand) (s : State)

theorem exec_trap : exec (.trap h n) s = uniWord (.trap h n) h s (fun s g _ => (s.softTrap g h.bnd 0x09 (n.setWidth 64), .done)) := rfl

theorem exec_halt : exec (.halt h) s = uniWord (.halt h) h s (fun s g _ =>
    (s.updGrp g (fun x => { x with sched := { x.sched with halted := true } }), .run)) := rfl

theorem exec_tick : exec (.tick h d) s = uniWord (.tick h d) h s (fun s g _ =>
    (s.updGrp g (fun x => x.write d [0] (fun _ => s.tick)), .on)) := rfl

/-- The request of a breakpoint to freeze the package. -/
def State.bkptFreeze (s : State) (x : Group) (k : BitVec 12) : FreezeReq :=
  { tick := s.tick.toNat, cause := 2, core := x.core, slot := x.slot, widx := 0, bkn := k.toNat, pc := (x.flow.pc.setWidth 64) <<< 3 }

/-- A breakpoint that freezes: its group stops before its next word. -/
def State.bkptStop (s : State) (g : Nat) (x : Group) (k : BitVec 12) : State :=
  let u := s.requestFreeze (s.bkptFreeze x k)
  { u with dbg := { u.dbg with stops := (g, x.team) :: u.dbg.stops } }

theorem exec_bkpt : exec (.bkpt h k) s = uniWord (.bkpt h k) h s (fun s g x =>
    if (s.reg 0x10000250000).getLsbD 0 then (s.bkptStop g x k, .on) else (s.softTrap g h.bnd 0x38 (k.setWidth 64), .done)) := rfl

end

section
variable {s : State} {g : Nat}

/-- A request to freeze that no other stands before (R392). -/
theorem State.requestFreeze_taken (hz : s.dbg.frozen = false) (hn : s.dbg.freeze = none) (q : FreezeReq) :
    (s.requestFreeze q).groups = s.groups ∧ (s.requestFreeze q).mem = s.mem ∧ (s.requestFreeze q).dbg.freeze = some q := by
  have ht : s.requestFreeze q = ({ s with dbg := { s.dbg with freeze := some q } } : State).recordFreeze q := by
    simp [State.requestFreeze, hz, hn]
  rw [ht]
  simp [State.recordFreeze, State.freeVal]

/-- The trap of a word that counts in its run (R186). -/
def Group.softReq (x : Group) (cause : Nat) (info : Word) (resume : PC) : TrapReq :=
  { cause := cause, info := info, addr := 0, lanes := x.flow.mask, pc := x.flow.pc, resume := resume }

/-- A software trap is taken after its word, and after the run where the word ends it. -/
theorem State.softTrap_eq (hg : s.hasGrp g = true) (hq : (s.grp g).dueDefs = []) (bnd : Bool) (cause : Nat) (info : Word) :
    let u := s.setGrp g (s.grp g).next
    let v := u.endRun g false
    let req := fun (t : State) => (s.grp g).softReq cause info (t.grp g).flow.pc
    (bnd = false ∧ (s.grp g).flow.run < 23 → s.softTrap g bnd cause info = u.takeTrap g (req u)) ∧
    (bnd = true ∨ 23 ≤ (s.grp g).flow.run → s.softTrap g bnd cause info = v.takeTrap g (req v)) := by
  intro u v req
  have hv : (v.grp g).dueDefs = [] := by
    rw [State.grp_endRun_keep g (by simp [u]), if_pos rfl, State.runEnded, State.grp_setGrp, if_pos rfl]
    exact hq
  unfold State.softTrap
  extract_lets x w ends z
  have hw : w = u := State.updGrp_eq_setGrp hg
  refine ⟨fun ⟨hb, hr⟩ => ?_, fun h => ?_⟩
  · have he : ends = false := by simp only [ends, hb, x, Bool.false_or, decide_eq_false_iff_not]; omega
    have hz : z = u := by rw [← hw]; exact if_neg (by simp [he])
    rw [he, hz]
    rfl
  · have he : ends = true := by simpa [ends] using h
    have hz : z = v := by simp only [v, ← hw]; exact if_pos he
    rw [he, hz, hv]
    rfl

end

/-- Settles O28: `trap` and `bkpt` are one shared software trap, taken after their word or the run that it ends. -/
theorem softwareTrapsTickAndHalt : Obligations.SoftwareTrapsTickAndHalt := by
  intro h n k d s g x u traps hg
  have htraps (i : Instr) (cause : Nat) (info : Word) (hq : x.dueDefs = [])
      (he : exec i s = .next (s.softTrap g h.bnd cause info)) : traps i cause info := by
    obtain ⟨hon, hend⟩ := State.softTrap_eq hg hq h.bnd cause info
    exact ⟨fun hc => he.trans (congrArg _ (hon hc)), fun hc => he.trans (congrArg _ (hend hc))⟩
  refine ⟨fun hs hu => htraps _ _ _ hs.quiet (exec_uniWord_run hs (exec_trap ..) rfl hu), fun hs hu hd => htraps _ _ _ hs.quiet ?_,
    fun hs hu hd hz hn => ?_, fun hs hu => ?_, fun hs hu => ?_, fun i hi hs hu => ?_⟩
  · have he := exec_uniWord_run (h := h) hs (exec_bkpt ..) rfl hu
    rw [if_neg (Bool.eq_false_iff.mp hd)] at he
    exact he
  · have he := exec_uniWord_run (h := h) hs (exec_bkpt ..) rfl hu
    rw [if_pos hd] at he
    obtain ⟨hgroups, hmem, hfreeze⟩ := State.requestFreeze_taken hz hn (s.bkptFreeze x k)
    exact ⟨_, _, he, hgroups, hmem, hfreeze, rfl, rfl, setWidth_shiftLeft_three _, rfl⟩
  · have he := exec_uniWord_run (h := h) hs (exec_halt ..) rfl hu
    rw [State.updGrp_eq_setGrp hg] at he
    exact he
  · have he := exec_uniWord_run (h := h) hs (exec_tick ..) rfl hu
    rw [State.updGrp_eq_setGrp hg] at he
    exact ⟨_, Group.wrote_write .., he⟩
  · simp only [List.mem_cons, List.not_mem_nil, or_false] at hi
    rcases hi with rfl | rfl | rfl | rfl
    · exact exec_uniWord_skip hs (exec_trap ..) rfl hu
    · exact exec_uniWord_skip hs (exec_bkpt ..) rfl hu
    · exact exec_uniWord_skip hs (exec_halt ..) rfl hu
    · exact exec_uniWord_skip hs (exec_tick ..) rfl hu

end Sys2Proof.Machine
end

section
namespace Sys2Proof.Machine
open Sys2Proof Sys2Proof.Spec

/-! ### A save touches no group (R199 to R201) -/

section
variable {s₀ s : State}

theorem State.Aside.store {pa n x} (h : s₀.Aside s) : s₀.Aside (s.store pa n x) := h.setBytes

theorem State.Aside.putFields {pa l} (h : s₀.Aside s) : s₀.Aside (s.putFields pa l) := h.foldl fun _ _ h => h.store

theorem State.Aside.zero {pa n} (h : s₀.Aside s) : s₀.Aside (s.zero pa n) := h.foldl fun _ _ h => h.setByte

theorem State.Aside.storeOpen {pa n} (h : s₀.Aside s) : s₀.Aside (s.storeOpen pa n) := by
  induction n generalizing s pa with
  | zero => exact h
  | succ n ih =>
    unfold State.storeOpen
    refine ih ?_
    exact .store h.freeVal

theorem State.Aside.writeReport {g recs} (h : s₀.Aside s) : s₀.Aside (s.writeReport g recs) :=
  h.setBytes.foldl fun _ _ h => h.store.store.store.store

theorem State.Aside.saveTeam {t} (h : s₀.Aside s) : s₀.Aside (s.saveTeam t) :=
  h.storeOpen.zero.zero.putFields.storeOpen.putFields.zero.putFields.putFields.putFields

theorem State.Aside.saveGroup {g} (h : s₀.Aside s) : s₀.Aside (s.saveGroup g) := by
  unfold State.saveGroup
  extract_lets x pa s₁ s₂ s₃
  have h₁ : s₀.Aside s₁ := h.zero.putFields
  have h₂ : s₀.Aside s₂ := h₁.ite h₁.writeReport
  have h₃ : s₀.Aside s₃ := h₂.zero.zero.putFields.storeOpen
  exact h₃.putFields.zero.putFields

theorem State.Aside.saveBlocks {ts} (h : s₀.Aside s) : s₀.Aside (s.saveBlocks ts) :=
  (h.foldl fun _ _ h => h.saveTeam).foldl fun _ _ h => h.saveGroup

end

section
variable {s : State}

/-- What leaves its place at a save: the groups of the teams that it takes, and no other. -/
theorem State.takeOut_groups (ts : List Nat) : (s.takeOut ts).2.groups = s.groups.filter (fun e => !ts.contains e.2.team) := by
  have hfold (l : List (Nat × Cluster)) (t : State) :
      (l.foldl (fun s e => e.2.cores.foldl State.dropLeases s) t).groups = t.groups :=
    List.foldlRecOn (motive := fun u => u.groups = t.groups) l _ rfl fun u h e _ => ((State.unleased_foldl e.2.cores u).groups).trans h
  exact hfold _ _

theorem exec_preemption (c : Nat) : exec (.preemption c) s = execPreemption c s := rfl

/-- The groups that a save leaves where they were, once nothing of the context is in flight (R199). -/
theorem exec_preemption_groups {c : Nat} {ts : List Nat} (hc : (s.ctx c).cmd = 1 ∨ (s.ctx c).cmd = 2) (hts : s.saveTeams c = ts)
    (hall : ∀ t ∈ ts, (s.pauseTeams ts).teamStill t = true) : ∃ t, exec (.preemption c) s = .next t ∧
      t.groups = ((s.pauseTeams ts).leaveGone ts).groups.filter (fun e => !ts.contains e.2.team) := by
  have hcmd : ¬ ((s.ctx c).cmd ≠ 1 ∧ (s.ctx c).cmd ≠ 2) := fun h => hc.elim h.1 h.2
  have hstill : ¬ (!ts.all (s.pauseTeams ts).teamStill) = true := by simpa using hall
  have hsave : ((s.pauseTeams ts).leaveGone ts).Aside (((s.pauseTeams ts).leaveGone ts).saveBlocks ts) := State.Aside.refl.saveBlocks
  rw [exec_preemption, execPreemption, if_neg hcmd, hts, if_neg hstill]
  refine ⟨_, rfl, ?_⟩
  rw [← hsave.groups, ← State.takeOut_groups, State.setCtxState, State.setReg_groups]
  rfl

end

/-! ### A table that lists one key twice -/

/-- A group of team 1, which no save of context 0 takes. -/
def strangerGroup : Group := { Group.empty with team := 1 }

/-- A save of context 0 is under way. The group of its team 0 has stopped; under the same key the table lists a group of team 1 before
it. -/
def twiceListed : State :=
  { State.reset.setCtx 0 { Ctx.reset with cmd := 1 } with
    teams := [(0, Team.empty)]
    groups := [(0, strangerGroup), (0, { Group.empty with sched := { Group.empty.sched with paused := true } })] }

theorem twiceListed_saves : (twiceListed.ctx 0).cmd = 1 ∧ twiceListed.saveTeams 0 = [0] ∧
    (twiceListed.pauseTeams [0]).teamStill 0 = true := by decide +kernel

/-- The group that the save stops is the first that the table lists under the key: that of team 1. -/
theorem twiceListed_leaves : ((twiceListed.pauseTeams [0]).leaveGone [0]).groups.filter (fun e => !([0] : List Nat).contains e.2.team) =
    [(0, strangerGroup.stood)] := by decide +kernel

/-- Refutes O47: the first clause asks of every table of groups that a save leaves the entries of other teams in it, where the third
clause asks it of tables that list each key once. A save stops a group by its key, and finds the first entry under that key: in a table
that lists a key twice, which no run makes, that may be the entry of another team. -/
theorem not_saveRestoreAndKill : ¬ Obligations.SaveRestoreAndKill := by
  rintro ⟨hsave, -, -⟩
  obtain ⟨hcmd, hts, hstill⟩ := twiceListed_saves
  have hall : ∀ t ∈ [0], (twiceListed.pauseTeams [0]).teamStill t = true := by simpa using hstill
  obtain ⟨t, he, -, -, -, -, hkeeps, -⟩ := (hsave twiceListed 0).2.2 (.inl hcmd) (by rw [hts]; exact hall)
  obtain ⟨u, hu, hgroups⟩ := exec_preemption_groups (.inl hcmd) hts hall
  obtain rfl : t = u := by rw [he] at hu; exact Host.Outcome.next.inj hu
  rw [twiceListed_leaves] at hgroups
  have hstays := hkeeps (0, strangerGroup) List.mem_cons_self (by rw [hts]; decide)
  rw [hgroups] at hstays
  exact absurd hstays (by decide)

end Sys2Proof.Machine
end


section
namespace Sys2Proof.Machine
open Sys2Proof Sys2Proof.Spec

/-! ### The state of lines (R213, R218, R223) -/

/-- From `s₀` to `s` only LEXP of lines, what the L2s hold, ownership, what is counted and the free values taken may differ. -/
def State.Lines (s₀ s : State) : Prop :=
  ∃ lexp l2 own counts free, s =
    { s₀ with sys := { s₀.sys with lexp := lexp, l2 := l2, own := own }, dbg := { s₀.dbg with counts := counts }, free := free }

section
variable {s₀ s t : State}

theorem State.Lines.refl : s.Lines s := ⟨_, _, _, _, _, rfl⟩

theorem State.Lines.upd {lexp l2 own counts free} (h : s₀.Lines s) : s₀.Lines
    { s with sys := { s.sys with lexp := lexp, l2 := l2, own := own }, dbg := { s.dbg with counts := counts }, free := free } := by
  obtain ⟨_, _, _, _, _, rfl⟩ := h
  exact ⟨_, _, _, _, _, rfl⟩

theorem State.Lines.setOwn {own} (h : s₀.Lines s) : s₀.Lines (s.setSys { s.sys with own := own }) := h.upd

theorem State.Lines.ite {c : Prop} [Decidable c] (hs : s₀.Lines s) (ht : s₀.Lines t) : s₀.Lines (if c then s else t) := by
  split <;> assumption

theorem State.Lines.foldl {α : Type} {l : List α} {f : State → α → State} (h : s₀.Lines s)
    (hf : ∀ s a, s₀.Lines s → s₀.Lines (f s a)) : s₀.Lines (l.foldl f s) :=
  List.foldlRecOn (motive := s₀.Lines) l f h fun s h a _ => hf s a h

theorem State.Lines.count {unit ev n} (h : s₀.Lines s) : s₀.Lines (s.count unit ev n) := h.ite h.upd

theorem State.Lines.countReq {pa} (h : s₀.Lines s) : s₀.Lines (s.countReq pa) := by
  unfold State.countReq
  split
  · exact h.count
  · exact h

theorem State.Lines.raiseLexp {pa die t} (h : s₀.Lines s) : s₀.Lines (s.raiseLexp pa die t) := h.upd

theorem State.Lines.l2Drop {pa die} (h : s₀.Lines s) : s₀.Lines (s.l2Drop pa die) := h.upd

theorem State.Lines.l2Touch {pa die write} (h : s₀.Lines s) : s₀.Lines (s.l2Touch pa die write) := by
  unfold State.l2Touch
  extract_lets
  split
  · exact h.ite h.upd
  · exact h.upd.ite (h.upd.ite h.upd)

theorem State.Lines.recallSub {sub} (h : s₀.Lines s) : s₀.Lines (s.recallSub sub) := by
  unfold State.recallSub
  extract_lets
  split
  · exact h
  · refine h.ite (.count (.setOwn ?_))
    exact (h.foldl fun _ _ h => h.raiseLexp).foldl fun _ _ h => (h.l2Touch.ite h).l2Drop

theorem State.Lines.ownWrite {leaf d pa} (h : s₀.Lines s) : s₀.Lines (s.ownWrite leaf d pa) := by
  unfold State.ownWrite
  extract_lets g home
  refine h.ite ?_
  split
  · exact h.ite h.upd
  · exact (h.recallSub.ite h).ite (h.recallSub.ite h).upd

theorem State.Lines.mem (h : s₀.Lines s) : s.mem = s₀.mem := by obtain ⟨_, _, _, _, _, rfl⟩ := h; rfl

theorem State.Lines.mgmt (h : s₀.Lines s) : s.mgmt = s₀.mgmt := by obtain ⟨_, _, _, _, _, rfl⟩ := h; rfl

theorem State.Lines.groups (h : s₀.Lines s) : s.groups = s₀.groups := by obtain ⟨_, _, _, _, _, rfl⟩ := h; rfl

theorem State.Lines.reqs (h : s₀.Lines s) : s.sys.reqs = s₀.sys.reqs := by obtain ⟨_, _, _, _, _, rfl⟩ := h; rfl

theorem State.Lines.migs (h : s₀.Lines s) : s.sys.migs = s₀.sys.migs := by obtain ⟨_, _, _, _, _, rfl⟩ := h; rfl

theorem State.Lines.poison (h : s₀.Lines s) : s.sys.poison = s₀.sys.poison := by obtain ⟨_, _, _, _, _, rfl⟩ := h; rfl

end

/-! ### What an access that is served leaves of the requests on their way (R233) -/

/-- From `s₀` to `s` no byte of memory changes, and no request has come to those on their way. -/
structure State.Served (s₀ s : State) : Prop where
  mem : s.mem = s₀.mem
  reqs : ∀ q ∈ s.sys.reqs, ∃ r ∈ s₀.sys.reqs, r.id = q.id

section
variable {s₀ s t : State}

theorem State.Served.refl : s.Served s := ⟨rfl, fun q hq => ⟨q, hq, rfl⟩⟩

theorem State.Served.trans (h : s₀.Served s) (h' : s.Served t) : s₀.Served t :=
  ⟨h'.mem.trans h.mem, fun q hq => by
    obtain ⟨r, hr, hid⟩ := h'.reqs q hq
    obtain ⟨r', hr', hid'⟩ := h.reqs r hr
    exact ⟨r', hr', hid'.trans hid⟩⟩

/-- A change of neither memory nor the requests. -/
theorem State.Served.upd (h : s₀.Served s) (hm : t.mem = s.mem) (hq : t.sys.reqs = s.sys.reqs) : s₀.Served t :=
  ⟨hm.trans h.mem, by rw [hq]; exact h.reqs⟩

theorem State.Served.lines (h : s₀.Served s) (h' : s.Lines t) : s₀.Served t := h.upd h'.mem h'.reqs

theorem State.Served.ite {c : Prop} [Decidable c] (hs : s₀.Served s) (ht : s₀.Served t) : s₀.Served (if c then s else t) := by
  split <;> assumption

theorem State.Served.foldl {α : Type} {l : List α} {f : State → α → State} (h : s₀.Served s)
    (hf : ∀ s a, s₀.Served s → s₀.Served (f s a)) : s₀.Served (l.foldl f s) :=
  List.foldlRecOn (motive := s₀.Served) l f h fun s h a _ => hf s a h

theorem State.Served.updGrp {g f} (h : s₀.Served s) : s₀.Served (s.updGrp g f) := h.upd (by simp) (by simp)

theorem State.Served.mbarNotice (h : s₀.Served s) : s₀.Served s.mbarNotice := h.ite (h.upd rfl rfl)

theorem State.Served.requestFreeze {q} (h : s₀.Served s) : s₀.Served (s.requestFreeze q) := by
  unfold State.requestFreeze
  extract_lets _ take
  have ht : s₀.Served take := h.upd rfl rfl
  refine h.ite ?_
  split
  · exact ht
  · exact ht.ite h

theorem State.Served.watched {i ctx lanes k va n} (h : s₀.Served s) : s₀.Served (s.watched i ctx lanes k va n) := by
  unfold State.watched
  extract_lets
  split
  · exact h
  · exact h.requestFreeze.ite (h.ite h.updGrp)

theorem State.Served.deferLanes {i lanes c d va} (h : s₀.Served s) : s₀.Served (s.deferLanes i lanes c d va) := h.updGrp.ite h

/-- Leases that are dropped leave the requests on their way, whose fills get none. -/
theorem State.Served.dropLeases {core} (h : s₀.Served s) : s₀.Served (s.dropLeases core) := by
  refine h.trans ⟨rfl, fun q hq => ?_⟩
  obtain ⟨r, hr, rfl⟩ := List.mem_map.mp hq
  exact ⟨r, hr, by split <;> rfl⟩

theorem State.Served.acquire {g sc} (h : s₀.Served s) : s₀.Served (s.acquire g sc) := by
  unfold State.acquire
  extract_lets
  split
  · exact h
  · exact h
  · exact h.ite h.dropLeases
  · exact (h.foldl fun _ _ h => h.dropLeases).ite h.dropLeases

theorem State.Served.wordDone {w} (h : s₀.Served s) : s₀.Served (s.wordDone w) := by
  unfold State.wordDone
  extract_lets i _ s₁ r _ s₂ ok val
  have h₁ : s₀.Served s₁ := h.upd rfl rfl
  have h₂ : s₀.Served s₂ := h₁.acquire.ite h₁
  exact .ite (h₁.upd rfl rfl) (h₁.ite (h₂.upd rfl rfl))

theorem State.Served.wordStep {tok n f} (h : s₀.Served s) : s₀.Served (s.wordStep tok n f) := by
  unfold State.wordStep
  split
  · exact h
  · exact h.wordDone.ite (h.upd rfl rfl)

theorem State.Served.deliver {i a v} (h : s₀.Served s) : s₀.Served (s.deliver i a v) := h.wordStep

theorem State.Served.failAcc {i a c d} (h : s₀.Served s) : s₀.Served (s.failAcc i a c d) := h.wordStep.ite h.deferLanes.wordStep

theorem State.Served.startFill {core ctx owner leaf pa noLease} (h : s₀.Served s) :
    s₀.Served (s.startFill core ctx owner leaf pa noLease) := by
  unfold State.startFill
  extract_lets pa' die t stale s₁
  have hdrop : s₀.Served (s.l1Drop owner (pa / 32)) := h.upd rfl rfl
  have h₁ : s₀.Served s₁ := hdrop.lines State.Lines.refl.l2Touch
  split
  next id s₂ e =>
    have h₂ : s₀.Served s₂ := by cases e; exact h₁.upd rfl rfl
    have h₃ : s₀.Served (if stale then s₂ else s₂.raiseLexp pa' die t) := h₂.ite (h₂.lines State.Lines.refl.raiseLexp)
    exact h₃.upd rfl rfl

end

end Sys2Proof.Machine
end


section
namespace Sys2Proof.Machine
open Sys2Proof Sys2Proof.Spec

/-! ### Bytes after a store (R2, R253) -/

theorem State.byte_store (s : State) (pa n x b : Nat) : (s.store pa n x).byte b =
    if pa ≤ b ∧ b < pa + n then BitVec.ofNat 8 (x / 2 ^ (8 * (b - pa))) else s.byte b := by
  rw [State.store, State.byte_setBytes, bytesOfNum_length]
  split
  · next h => rw [bytesOfNum_eq_map, getD_map_range (by omega)]
  · rfl

theorem State.byte_storeMasked (s : State) (pa : Nat) (a : Acc) (b : Nat) : (s.storeMasked pa a).byte b =
    if pa ≤ b ∧ b < pa + a.size ∧ a.bmask.getLsbD (b - pa) then (a.data >>> (8 * (b - pa))).setWidth 8 else s.byte b := by
  unfold State.storeMasked
  induction a.size with
  | zero => rw [if_neg (by omega)]; rfl
  | succ n ih =>
    rw [List.range_succ, List.foldl_append, List.foldl_cons, List.foldl_nil, apply_ite (State.byte · b), State.byte_setByte, ih]
    by_cases hb : b = pa + n
    · subst hb; simp
    · have hlt : b < pa + (n + 1) ↔ b < pa + n := by omega
      simp [hb, hlt]

theorem State.storeMasked_sys (s : State) (pa : Nat) (a : Acc) : (s.storeMasked pa a).sys = s.sys :=
  List.foldlRecOn (motive := fun t : State => t.sys = s.sys) _ _ rfl fun t h k _ => (apply_ite State.sys ..).trans (by simp [h])

theorem State.store_sys (s : State) (pa n x : Nat) : (s.store pa n x).sys = s.sys := by
  unfold State.store
  induction bytesOfNum n x generalizing s pa with
  | nil => rfl
  | cons b t ih => exact ih _ _

/-! ### An access that nothing refuses (R253, R255, R264) -/

section
variable {s : State} {q : Req} {p : PAcc} {home off : Nat}

/-- What lets an access through at a plain line of HBM: its access table, its tags and, where it returns a value, its poison. -/
theorem State.refuses_hbm (hm : s.sys.migs = []) (hp : placeOf s.tagging p.pa = .hbm home off)
    (hperm : s.permitted 0 q.ctx 0 p.acc.op.opClass p.pa p.acc.size none = true)
    (htags : s.tagsFit q.leaf p.acc.va p.pa p.acc.size = true)
    (hop : p.acc.op = .store ∨
      (p.acc.op = .load ∨ p.acc.op.isAtomic = true) ∧ Tab.get false (lineKey p.pa home) s.sys.poison = false) :
    s.refuses q.ctx 0 q.leaf p.pa p.acc = none := by
  simp only [State.refuses, State.forwardPa_of_no_migs hm, hp, hperm, htags, Bool.not_true, Bool.false_eq_true, if_false]
  obtain hst | ⟨hld | hat, hpoison⟩ := hop
  · simp only [hst]
  · simp only [hld, hpoison, Bool.false_eq_true, if_false]
  · cases h : p.acc.op with
    | atomic op ty ret => simp only [hpoison, Bool.false_and, Bool.false_eq_true, if_false]
    | _ => simp [h, AccOp.isAtomic] at hat

/-- What a request makes of an access that has been served changes neither memory nor which requests are on their way. -/
theorem State.served_performAcc (s : State) (q : Req) (p : PAcc) :
    (s.serve q.ctx 0 (s.writeDie q.core (s.forwardPa p.pa)) q.leaf p.pa p.acc).2.Served (s.performAcc q p).2 := by
  unfold State.performAcc
  extract_lets r s₁ s₂
  split
  · exact State.Served.refl.failAcc.ite State.Served.refl.deferLanes
  · extract_lets s₃
    have h₂ : s₁.Served s₂ := by
      unfold s₂
      split
      · exact State.Served.refl.watched
      · exact .refl
    have h₃ : s₁.Served s₃ := h₂.deliver.ite h₂
    exact h₃.startFill.ite h₃

/-- A store at a plain line of HBM brings the bytes that its mask marks. -/
theorem State.performAcc_store (hm : s.sys.migs = []) (hp : placeOf s.tagging p.pa = .hbm home off)
    (hr : s.refuses q.ctx 0 q.leaf p.pa p.acc = none) (hop : p.acc.op = .store) :
    (∀ b, (s.performAcc q p).2.byte b = (s.storeMasked p.pa p.acc).byte b) ∧
      ∀ k ∈ (s.performAcc q p).2.sys.reqs, ∃ r ∈ s.sys.reqs, r.id = k.id := by
  have hserved := s.served_performAcc q p
  simp only [State.serve, hr, State.perform, State.forwardPa_of_no_migs hm, hp, hop] at hserved
  rw [if_neg (by decide)] at hserved
  generalize s.writeDie q.core p.pa = d at hserved
  have hown : s.Lines (s.ownWrite q.leaf d p.pa) := State.Lines.refl.ownWrite
  have hs : ((s.ownWrite q.leaf d p.pa).storeMasked p.pa p.acc).Served (s.performAcc q p).2 :=
    (State.Served.refl.lines State.Lines.refl.l2Touch).mbarNotice.trans hserved
  refine ⟨fun b => ?_, fun k hk => ?_⟩
  · rw [byte_of_mem hs.mem, State.byte_storeMasked, State.byte_storeMasked, byte_of_mem hown.mem]
  · obtain ⟨r, hr, hid⟩ := hs.reqs k hk
    rw [State.storeMasked_sys, hown.reqs] at hr
    exact ⟨r, hr, hid⟩

/-- A load at a plain line of HBM changes no byte, whether it is performed or refused. -/
theorem State.performAcc_load (hm : s.sys.migs = []) (hp : placeOf s.tagging p.pa = .hbm home off) (hop : p.acc.op = .load) :
    s.Served (s.performAcc q p).2 := by
  refine .trans ?_ (s.served_performAcc q p)
  unfold State.serve
  split
  · exact .refl
  · simp only [State.perform, State.forwardPa_of_no_migs hm, hp, hop]
    exact State.Served.refl.lines State.Lines.refl.l2Touch

/-- The byte that an atomic leaves at `b`: of its new value where it writes one. -/
def State.atomByte (s : State) (a : Acc) (pa : Nat) (op : AOp) (ty : ITy) (b : Nat) : Byte :=
  match atomStep op ty (BitVec.ofNat 64 (s.load pa a.size)) (a.data.setWidth 64) a.cmp with
  | some v => if pa ≤ b ∧ b < pa + a.size then BitVec.ofNat 8 (v.toNat / 2 ^ (8 * (b - pa))) else s.byte b
  | none => s.byte b

/-- An atomic at a plain line of HBM brings its new value, where it has one. -/
theorem State.performAcc_atomic {op : AOp} {ty : ITy} {ret : Bool} (hm : s.sys.migs = [])
    (hp : placeOf s.tagging p.pa = .hbm home off) (hr : s.refuses q.ctx 0 q.leaf p.pa p.acc = none)
    (hop : p.acc.op = .atomic op ty ret) :
    (∀ b, (s.performAcc q p).2.byte b = s.atomByte p.acc p.pa op ty b) ∧
      ∀ k ∈ (s.performAcc q p).2.sys.reqs, ∃ r ∈ s.sys.reqs, r.id = k.id := by
  have hserved := s.served_performAcc q p
  simp only [State.serve, hr, State.perform, State.forwardPa_of_no_migs hm, hp, hop] at hserved
  unfold State.atomByte
  cases hstep : atomStep op ty (BitVec.ofNat 64 (s.load p.pa p.acc.size)) (p.acc.data.setWidth 64) p.acc.cmp with
  | none =>
    rw [hstep] at hserved
    have hs : s.Served (s.performAcc q p).2 := (State.Served.refl.lines State.Lines.refl.l2Touch).trans hserved
    exact ⟨byte_of_mem hs.mem, hs.reqs⟩
  | some v =>
    rw [hstep] at hserved
    have hs : (s.store p.pa p.acc.size v.toNat).Served (s.performAcc q p).2 :=
      (State.Served.refl.lines State.Lines.refl.l2Touch).mbarNotice.trans hserved
    exact ⟨fun b => by rw [byte_of_mem hs.mem, State.byte_store], by simpa only [State.store_sys] using hs.reqs⟩

end

/-! ### A request of one access (R223, R233) -/

section
variable {s : State} {q : Req} {p : PAcc}

/-- The requests but the one that is performed. -/
theorem State.reqs_trimReq (hone : ∀ r ∈ s.sys.reqs, r.id = q.id → r = q) (ha : q.accs = [p]) :
    (s.trimReq q.id [p]).sys.reqs = s.sys.reqs.filter (fun r => decide (r.id ≠ q.id)) := by
  simp only [State.trimReq, State.setSys]
  rw [← List.filterMap_eq_filter (p := fun r : Req => decide (r.id ≠ q.id))]
  refine List.filterMap_congr fun r hr => ?_
  by_cases hid : r.id = q.id
  · simp [hone r hr hid, ha, Option.guard]
  · simp [hid, Option.guard]

theorem State.req?_trimReq (hone : ∀ r ∈ s.sys.reqs, r.id = q.id → r = q) (ha : q.accs = [p]) :
    (s.trimReq q.id [p]).req? q.id = none := by
  rw [State.req?, State.reqs_trimReq hone ha]
  simp

/-- A lane all of whose pieces pass is not failed. -/
theorem State.failSplit_of_passes {lane : Nat}
    (h : ∀ k ∈ s.siblings q.info.tok lane, s.refuses k.1.ctx 0 k.1.leaf k.2.pa k.2.acc = none) :
    s.failSplit q lane = s := by
  have hbad : (s.siblings q.info.tok lane).filterMap (fun e =>
      (s.refuses e.1.ctx 0 e.1.leaf e.2.pa e.2.acc).map (fun c => (c.1, c.2, e.2.acc.va))) = [] := by
    rw [List.filterMap_eq_nil_iff]
    intro k hk
    rw [h k hk, Option.map_none]
  rw [State.failSplit, hbad]
  rfl

/-- A request of one access leaves the queue, and its access is performed. -/
theorem State.performReq_one (hreq : s.req? q.id = some q) (hone : ∀ r ∈ s.sys.reqs, r.id = q.id → r = q) (ha : q.accs = [p])
    (hk : pteKind q.leaf ≠ 3) (hsplit : pteKind q.leaf = 0 → 4 < q.info.sz → s.failSplit q p.acc.lane = s) :
    s.performReq q [p] = (((s.trimReq q.id [p]).countReq p.pa).performAcc q p).2 := by
  have hfail : (if pteKind q.leaf = 0 ∧ 4 < q.info.sz then
      (([p].map (fun p => p.acc.lane)).dedup).foldl (fun s n => s.failSplit q n) s else s) = s := by
    split
    · next h => exact hsplit h.1 h.2
    · rfl
  rw [State.performReq, hfail]
  simp only [hreq, ha, List.filter_cons_of_pos, List.filter_nil, List.contains_cons, beq_self_eq_true, Bool.true_or,
    State.req?_trimReq hone ha, Option.isNone_none, if_true, List.foldl_cons, List.foldl_nil, if_neg hk]

end
end Sys2Proof.Machine
end

section
namespace Sys2Proof.Machine
open Sys2Proof Sys2Proof.Spec

/-! ### Requests that nothing holds back (R223, R233, R264) -/

section
variable {s : State} {q : Req} {p : PAcc} {home off : Nat}

/-- The places of HBM (R10). -/
theorem lt_of_hbm {tagging : Bool} {pa home off : Nat} (h : placeOf tagging pa = .hbm home off) : pa < 8 * 0x2000000000 := by
  by_contra hge
  unfold placeOf at h
  rw [if_neg hge] at h
  split at h
  · cases h
  · split at h
    · cases h
    · cases h

/-- A place in HBM is no counter's. -/
theorem not_isCounter_of_hbm {tagging : Bool} {pa home off : Nat} (h : placeOf tagging pa = .hbm home off) : isCounter pa = false := by
  have hpa : pa < hubBase := lt_of_hbm h
  simp [isCounter, Nat.not_le.mpr hpa]

theorem Req.not_readsCounter {tagging : Bool} (ha : q.accs = [p]) (hp : placeOf tagging p.pa = .hbm home off) :
    q.readsCounter = false := by
  simp [Req.readsCounter, ha, not_isCounter_of_hbm hp]

/-- An untracked page has nothing to recall. -/
theorem State.recallReq_untracked (ht : pteTrk q.leaf = false) (ha : q.accs = [p]) : s.recallReq q = some s := by
  simp [State.recallReq, ha, State.recallFirst, State.recallDue, ht]

theorem exec_l2SliceRequest (id : Nat) (lanes : Mask) (s : State) :
    exec (.l2SliceRequest id lanes) s = execL2SliceRequest id lanes s := rfl

theorem exec_atomicAtHome (id lane : Nat) (s : State) : exec (.atomicAtHome id lane) s = execAtomicAtHome id lane s := rfl

/-- A read or write that nothing holds back is performed at its slice. -/
theorem exec_l2SliceRequest_one {lanes : Mask} (hreq : s.req? q.id = some q) (ha : q.accs = [p]) (hst : q.state = .sent)
    (hm : s.sys.migs = []) (hbe : s.behindEarlier q = false) (hre : s.released q.info = true) (hh : s.mustHold q = false)
    (hk : pteKind q.leaf ≠ 3) (ht : pteTrk q.leaf = false) (hp : placeOf s.tagging p.pa = .hbm home off)
    (hop : p.acc.op.isAtomic = false) (hl : lanes.getLsbD p.acc.lane = true) :
    let t := s.performReq q [p]
    exec (.l2SliceRequest q.id lanes) s = .next (if (t.req? q.id).isSome then t.later (.l2SliceRequest q.id allLanes) else t) := by
  intro t
  rw [exec_l2SliceRequest, execL2SliceRequest]
  simp [hreq, ha, hst, hbe, hre, hh, hk, hop, hl, State.migWaits_of_no_migs hm, Req.not_readsCounter ha hp,
    State.recallReq_untracked ht ha, t]

/-- A place in HBM whose operation the order of no grid logs passes the gate as it is. -/
theorem State.gateLanes_one {o : LogOp} (ho : o.info.rr.1 = 0) : s.gateLanes o q [p] = ([p], [], s) := by
  simp [State.gateLanes, State.gate, ho]

/-- An atomic that nothing holds back is performed at its home. -/
theorem exec_atomicAtHome_one (hreq : s.req? q.id = some q) (ha : q.accs = [p]) (hst : q.state = .sent)
    (hm : s.sys.migs = []) (hbe : s.behindEarlier q = false) (hre : s.released q.info = true) (hh : s.mustHold q = false)
    (ht : pteTrk q.leaf = false) (hp : placeOf s.tagging p.pa = .hbm home off) (hop : p.acc.op.isAtomic = true)
    (hrr : q.info.rr.1 = 0) : exec (.atomicAtHome q.id p.acc.lane) s = .next (s.performReq q [p]) := by
  rw [exec_atomicAtHome, execAtomicAtHome]
  simp [hreq, ha, hst, hbe, hre, hop, State.migWaits_of_no_migs hm, Req.not_readsCounter ha hp, State.atomReq,
    State.recallReq_untracked ht ha, hh, State.gateLanes_one, hrr]

end

/-! ### A request that is alone on its way -/

section
variable {s : State} {q : Req} {p : PAcc} {home off : Nat}

theorem State.reqs_of_alone (hreq : s.req? q.id = some q) (hids : s.sys.reqs.map Req.id = [q.id]) : s.sys.reqs = [q] := by
  obtain ⟨r, hr, -⟩ := List.map_eq_singleton_iff.mp hids
  have hmem : q ∈ s.sys.reqs := List.mem_of_find?_eq_some hreq
  rw [hr] at hmem ⊢
  rw [List.mem_singleton.mp hmem]

theorem State.siblings_of_alone (hq : s.sys.reqs = [q]) (ha : q.accs = [p]) : s.siblings q.info.tok p.acc.lane = [(q, p)] := by
  simp [State.siblings, hq, ha]

/-- What is served of a request that is alone leaves none on its way. -/
theorem State.reqs_of_performed {t : State} (hq : s.sys.reqs = [q]) (ha : q.accs = [p])
    (h : ∀ k ∈ t.sys.reqs, ∃ r ∈ ((s.trimReq q.id [p]).countReq p.pa).sys.reqs, r.id = k.id) : t.sys.reqs = [] := by
  have htrim : ((s.trimReq q.id [p]).countReq p.pa).sys.reqs = [] := by
    rw [(State.Lines.refl.countReq : (s.trimReq q.id [p]).Lines _).reqs, State.reqs_trimReq (by simp [hq]) ha]
    simp [hq]
  rw [htrim] at h
  exact List.eq_nil_iff_forall_not_mem.mpr fun k hk => by obtain ⟨r, hr, -⟩ := h k hk; cases hr

/-- The state in which an access of a request is performed differs from the one before in the request and in what is counted. -/
structure State.Ready (s t : State) : Prop where
  mem : t.mem = s.mem
  mgmt : t.mgmt = s.mgmt
  migs : t.sys.migs = s.sys.migs
  poison : t.sys.poison = s.sys.poison

theorem State.ready_trimReq (s : State) (id pa : Nat) (l : List PAcc) : s.Ready ((s.trimReq id l).countReq pa) := by
  have h : (s.trimReq id l).Lines ((s.trimReq id l).countReq pa) := State.Lines.refl.countReq
  exact ⟨h.mem, h.mgmt, h.migs, h.poison⟩

theorem State.Ready.tagging {t : State} (h : s.Ready t) : t.tagging = s.tagging := by simp [State.tagging, State.reg, h.mgmt]

theorem State.Ready.byte {t : State} (h : s.Ready t) (b : Nat) : t.byte b = s.byte b := byte_of_mem h.mem b

theorem State.Ready.reg {t : State} (h : s.Ready t) : t.reg = s.reg := funext (State.reg_of_mgmt h.mgmt)

theorem State.Ready.permitted {t : State} (h : s.Ready t) : t.permitted = s.permitted := by
  have hrow : t.rowGrants = s.rowGrants := by
    unfold State.rowGrants
    rw [h.reg]
  unfold State.permitted
  rw [hrow]

theorem State.Ready.tagsFit {t : State} (h : s.Ready t) : t.tagsFit = s.tagsFit := by
  have htag : t.tagOf = s.tagOf := by
    unfold State.tagOf
    rw [show t.byte = s.byte from funext h.byte]
  unfold State.tagsFit
  rw [htag, h.tagging]

theorem State.Ready.refuses {t : State} (h : s.Ready t) (hm : s.sys.migs = []) (hp : placeOf s.tagging p.pa = .hbm home off)
    (ctx eng : Nat) (leaf : Word) : t.refuses ctx eng leaf p.pa p.acc = s.refuses ctx eng leaf p.pa p.acc := by
  have hm' : t.sys.migs = [] := h.migs.trans hm
  simp only [State.refuses, State.forwardPa_of_no_migs hm, State.forwardPa_of_no_migs hm', h.tagging, hp, h.permitted, h.tagsFit, h.poison]

theorem State.Ready.atomByte {t : State} (h : s.Ready t) (a : Acc) (pa : Nat) : t.atomByte a pa = s.atomByte a pa := by
  have hbyte : t.byte = s.byte := funext h.byte
  funext op ty b
  simp only [State.atomByte, State.load, State.bytes, hbyte]

end
end Sys2Proof.Machine
end

section
namespace Sys2Proof.Machine
open Sys2Proof Sys2Proof.Spec

section
variable {s : State} {q : Req} {p : PAcc} {home off : Nat}

theorem State.Served.reqs_nil {s₀ : State} (h : s₀.Served s) (hq : s₀.sys.reqs = []) : s.sys.reqs = [] :=
  List.eq_nil_iff_forall_not_mem.mpr fun k hk => by
    obtain ⟨r, hr, -⟩ := h.reqs k hk
    rw [hq] at hr
    cases hr

/-- A lane that its access fails takes its request with it, where that has no other (R188). -/
theorem State.failSplit_fails (hq : s.sys.reqs = [q]) (ha : q.accs = [p]) {c : Nat × Nat}
    (hr : s.refuses q.ctx 0 q.leaf p.pa p.acc = some c) :
    (s.failSplit q p.acc.lane).mem = s.mem ∧ (s.failSplit q p.acc.lane).sys.reqs = [] := by
  have hout : ({ s with sys := { s.sys with reqs := [] } } : State).Served (s.failSplit q p.acc.lane) := by
    rw [State.failSplit, State.siblings_of_alone hq ha]
    simp only [List.filterMap_cons, List.filterMap_nil, hr, Option.map_some, firstCause, List.foldl_cons, List.foldl_nil, hq, if_true, ha,
      ne_eq, not_true_eq_false, decide_false, Bool.false_eq_true, not_false_eq_true, List.filter_cons_of_neg, List.filter_nil,
      List.isEmpty_nil]
    exact .ite (.wordStep (.deferLanes .refl)) (.deferLanes .refl)
  exact ⟨hout.mem, hout.reqs_nil rfl⟩

/-- A request none of whose accesses is on its way any more has nothing performed. -/
theorem State.performReq_gone {t : State} (hk : pteKind q.leaf = 0 ∧ 4 < q.info.sz) (hf : s.failSplit q p.acc.lane = t)
    (ht : t.sys.reqs = []) : (s.performReq q [p]).mem = t.mem ∧ (s.performReq q [p]).sys.reqs = [] := by
  have hnone : t.req? q.id = none := by simp [State.req?, ht]
  have hk3 : pteKind q.leaf ≠ 3 := by omega
  have he : s.performReq q [p] = t.trimReq q.id [] := by
    rw [State.performReq, if_pos hk]
    simp [hf, hnone, hk3]
  rw [he]
  exact ⟨rfl, by simp [State.trimReq, State.setSys, ht]⟩

/-- A request of one access that is alone, and whose lane stands, is performed as its access is. -/
theorem State.performReq_alone (hreq : s.req? q.id = some q) (hq : s.sys.reqs = [q]) (ha : q.accs = [p]) (hk : pteKind q.leaf ≠ 3)
    (hr : pteKind q.leaf = 0 ∧ 4 < q.info.sz → s.refuses q.ctx 0 q.leaf p.pa p.acc = none) :
    s.performReq q [p] = (((s.trimReq q.id [p]).countReq p.pa).performAcc q p).2 := by
  refine State.performReq_one hreq (by simp [hq]) ha hk fun h0 h4 => State.failSplit_of_passes fun k hk => ?_
  rw [State.siblings_of_alone hq ha] at hk
  rw [List.mem_singleton.mp hk, hr ⟨h0, h4⟩]

theorem State.req?_eq_none {t : State} (h : t.sys.reqs = []) (id : Nat) : t.req? id = none := by simp [State.req?, h]

/-- Settles O21: a request of one access is performed as its access is, and what follows an access that is served leaves memory alone. -/
theorem requestsArePerformed : Obligations.RequestsArePerformed := by
  intro s q p lanes home off hreq ha hst hm hbe hre hh hk ht hp hperm htags hids
  have hq := State.reqs_of_alone hreq hids
  have hready := s.ready_trimReq q.id p.pa [p]
  have hm' := hready.migs.trans hm
  have hp' : placeOf ((s.trimReq q.id [p]).countReq p.pa).tagging p.pa = .hbm home off := hready.tagging ▸ hp
  have hpass := State.refuses_hbm hm hp hperm htags
  have hslice (hop : p.acc.op.isAtomic = false) (hl : lanes.getLsbD p.acc.lane = true) (hgone : (s.performReq q [p]).sys.reqs = []) :
      exec (.l2SliceRequest q.id lanes) s = .next (s.performReq q [p]) := by
    rw [exec_l2SliceRequest_one hreq ha hst hm hbe hre hh hk ht hp hop hl, State.req?_eq_none hgone]
    rfl
  refine ⟨fun hop hl => ?_, fun hop hl => ?_, fun op ty ret hop hown hrr hpoison => ?_⟩
  · have hr := hpass (.inl hop)
    have halone := State.performReq_alone hreq hq ha hk fun _ => hr
    obtain ⟨hbytes, hreqs⟩ := State.performAcc_store hm' hp' ((hready.refuses hm hp ..).trans hr) hop
    have hgone := halone ▸ State.reqs_of_performed hq ha hreqs
    refine ⟨_, hslice (by rw [hop]; rfl) hl hgone, hgone, fun b => ?_⟩
    rw [halone, hbytes, State.byte_storeMasked, hready.byte]
  · have hdone : (s.performReq q [p]).mem = s.mem ∧ (s.performReq q [p]).sys.reqs = [] := by
      by_cases hwhole : (pteKind q.leaf = 0 ∧ 4 < q.info.sz) ∧ (s.refuses q.ctx 0 q.leaf p.pa p.acc).isSome = true
      · obtain ⟨c, hc⟩ := Option.isSome_iff_exists.mp hwhole.2
        obtain ⟨hmem, hnil⟩ := State.failSplit_fails hq ha hc
        obtain ⟨hmem', hnil'⟩ := State.performReq_gone hwhole.1 rfl hnil
        exact ⟨hmem'.trans hmem, hnil'⟩
      · have hr (h : pteKind q.leaf = 0 ∧ 4 < q.info.sz) : s.refuses q.ctx 0 q.leaf p.pa p.acc = none := by
          simpa using fun hsome => hwhole ⟨h, hsome⟩
        have hserved := State.performAcc_load (q := q) hm' hp' hop
        rw [State.performReq_alone hreq hq ha hk hr]
        exact ⟨hserved.mem.trans hready.mem, State.reqs_of_performed hq ha hserved.reqs⟩
    exact ⟨_, hslice (by rw [hop]; rfl) hl hdone.2, hdone.2, byte_of_mem hdone.1⟩
  · have hr := hpass (.inr ⟨.inr (by rw [hop]; rfl), hpoison⟩)
    have halone := State.performReq_alone hreq hq ha hk fun _ => hr
    obtain ⟨hbytes, hreqs⟩ := State.performAcc_atomic hm' hp' ((hready.refuses hm hp ..).trans hr) hop
    refine ⟨_, exec_atomicAtHome_one hreq ha hst hm hbe hre hh ht hp (by rw [hop]; rfl) hrr,
      halone ▸ State.reqs_of_performed hq ha hreqs, fun b => ?_⟩
    rw [halone, hbytes, hready.atomByte]
    rfl
end
end Sys2Proof.Machine
end


section
namespace Sys2Proof.Machine
open Sys2Proof Sys2Proof.Spec

/-! ### Words on local memory whose places fit (R208, R210, R262) -/

theorem exec_ldl (h : Hdr) (f : FnLoc) (d a : Operand) (off : BitVec 22) (s : State) :
    exec (.ldl h f d a off) s = execLdl h f d a off s := rfl

theorem exec_ldlIndexed (h : Hdr) (f : FnLoc) (d a b : Operand) (s : State) :
    exec (.ldlIndexed h f d a b) s = execLdlIndexed h f d a b s := rfl

theorem exec_stl (h : Hdr) (f : FnLoc) (d a : Operand) (off : BitVec 22) (s : State) :
    exec (.stl h f d a off) s = execStl h f d a off s := rfl

theorem exec_stlIndexed (h : Hdr) (f : FnLoc) (a b c : Operand) (s : State) :
    exec (.stlIndexed h f a b c) s = execStlIndexed h f a b c s := rfl

theorem State.index_eq (s : State) (x : Group) (b : Operand) (xs : Bool) (l : Nat) : s.index x b xs l = indexOf s x b xs l := by
  cases b <;> rfl

section
variable {s : State} {g u : Nat} {h : Hdr} {i : Instr}

/-- A memory word with an executing lane makes its accesses. -/
theorem memLanes_stands {e : Mask} (hs : s.Stands g i) (hu : h.uni = true → (s.grp g).uniGuard h = .run)
    (he : (if h.uni then (s.grp g).flow.mask else (s.grp g).execMask h) = e) (hne : e ≠ 0)
    (k : State → Nat → Group → Mask → State × Ends) :
    memLanes i h h.uni s k = .next ((k s g (s.grp g) e).1.retire g i.bnd (k s g (s.grp g) e).2) := by
  subst he
  unfold memLanes
  by_cases hun : h.uni = true
  · rw [if_pos hun] at hne ⊢
    rw [uniWord_stands hs (hu hun), if_neg hne]
    simp [hun]
  · rw [if_neg hun] at hne ⊢
    rw [laneWord_stands hs, if_neg hne]
    simp [hun]

theorem accLanes_ne_nil {once : Bool} {e : Mask} (he : e ≠ 0) : accLanes once e ≠ [] := by
  unfold accLanes
  split
  · simp
  · exact fun hnil => he (BitVec.eq_of_getLsbD_eq fun l _ => by
      have hl : l ∉ lanesOf e := by simp [hnil]
      simpa [mem_lanesOf] using hl)

/-- A place that is aligned and in the share does not fail. -/
theorem State.localFail_of_fits {t : Option Nat} {o : Word} {n : Nat} (ht : t = some u) (hal : o.toNat % n = 0)
    (hin : o.toNat + n ≤ ((s.team u).localSize + 4095) / 4096 * 4096) : s.localFail t o n = none := by
  subst ht
  simp [State.localFail, hal, Team.share, Nat.not_lt.mpr hin]

end

/-- A word on local memory whose every place fits: it stands in no word's way, and all its accesses are made at the share of `u`. -/
structure State.LocalGoes (s : State) (g u : Nat) (f : FnLoc) (ls : List Nat) (ea : Nat → Word) : Prop where
  go : s.lsWaits g (s.grp g) = false
  share : s.localTeam (s.grp g) f.mem = some u
  lane : ls ≠ []
  fits : ∀ l ∈ ls, s.localFail (some u) (ea l) f.sz.bytes = none

section
variable {s : State} {g u : Nat} {once : Bool} {e : Mask} {f : FnLoc} {ea : Nat → Word}

theorem State.LocalGoes.bad {ls} (h : s.LocalGoes g u f ls ea) :
    ls.filterMap (fun l => (s.localFail (some u) (ea l) f.sz.bytes).map (fun c => (l, c))) = [] :=
  List.filterMap_eq_nil_iff.mpr fun l hl => by rw [h.fits l hl]; rfl

theorem State.LocalGoes.ok {ls} (h : s.LocalGoes g u f ls ea) :
    ls.filter (fun l => (s.localFail (some u) (ea l) f.sz.bytes).isNone) = ls :=
  List.filter_eq_self.mpr fun l hl => by rw [h.fits l hl]; rfl

/-- One lane's store in the share of team `u`. -/
def State.laneStore (x : Group) (u n : Nat) (src : Operand) (ea : Nat → Word) (s : State) (l : Nat) : State :=
  s.updTeam u (fun tm => tm.locStore (ea l).toNat (bytesOfNum n (s.laneData x src n l).toNat))

theorem State.localStore_goes {src : Operand} (h : s.LocalGoes g u f (accLanes once e) ea)
    (hrr : (s.team (s.grp g).team).rrMode = 0) :
    ∃ unit ev n, s.localStore g (s.grp g) once e f src ea =
      ((accLanes once e).foldl (State.laneStore (s.grp g) u f.sz.bytes src ea) (s.count unit ev n), .on) := by
  rw [State.localStore, if_neg (by simp [h.go])]
  simp only [h.share, h.bad, h.ok, List.foldl_nil, State.feedCrc, hrr, if_true, List.isEmpty_eq_false_iff.mpr h.lane,
    Bool.false_eq_true, if_false, Option.getD_some]
  exact ⟨_, _, _, rfl⟩

end

/-- From `s` to `t` only the local memory of team `u` may differ, of what a word on local memory reads. -/
structure State.LocalOnly (s : State) (u : Nat) (t : State) : Prop where
  here : (Tab.find? u t.teams).isSome = true
  mem : t.mem = s.mem
  groups : t.groups = s.groups
  tick : t.tick = s.tick
  others : ∀ k, k ≠ u → t.team k = s.team k
  index : (t.team u).index = (s.team u).index
  member : (t.team u).member = (s.team u).member

section
variable {s t : State} {u n : Nat} {x : Group} {src : Operand} {ea : Nat → Word}

theorem State.LocalOnly.laneData (h : s.LocalOnly u t) (l : Nat) : t.laneData x src n l = s.laneData x src n l := by
  have hindex (k : Nat) : (t.team k).index = (s.team k).index := by
    by_cases hk : k = u
    · rw [hk, h.index]
    · rw [h.others k hk]
  have hmember (k : Nat) : (t.team k).member = (s.team k).member := by
    by_cases hk : k = u
    · rw [hk, h.member]
    · rw [h.others k hk]
  have hrd : t.rd x src l = s.rd x src l := by
    cases src with
    | spec k => cases k <;> simp only [State.rd, State.special, hindex, hmember, h.tick]
    | _ => rfl
  cases src <;> simp only [State.laneData, hrd]

theorem State.LocalOnly.laneStore (h : s.LocalOnly u t) (l : Nat) : s.LocalOnly u (t.laneStore x u n src ea l) := by
  rw [State.laneStore, State.updTeam_eq_setTeam h.here]
  exact ⟨by simp, h.mem, h.groups, h.tick, fun k hk => by rw [State.team_setTeam, if_neg hk, h.others k hk],
    by rw [State.team_setTeam, if_pos rfl]; exact h.index, by rw [State.team_setTeam, if_pos rfl]; exact h.member⟩

/-- The bytes of the share after one lane's store. -/
theorem State.LocalOnly.get_laneStore (h : s.LocalOnly u t) (l k : Nat) :
    Tab.get 0 k ((t.laneStore x u n src ea l).team u).loc =
      if (ea l).toNat ≤ k ∧ k < (ea l).toNat + n then
        BitVec.ofNat 8 ((s.laneData x src n l).toNat / 2 ^ (8 * (k - (ea l).toNat)))
      else Tab.get 0 k (t.team u).loc := by
  rw [State.laneStore, State.updTeam_eq_setTeam h.here, State.team_setTeam, if_pos rfl, Team.loc_locStore, bytesOfNum_length, h.laneData]
  split
  · rw [bytesOfNum_eq_map, getD_map_range (by omega)]
  · rfl

/-- Stores of lanes in ascending order: where lanes overlap, the highest lane's byte stands (R253). -/
theorem State.LocalOnly.laneStores {ls : List Nat} (hls : ls.Pairwise (· < ·)) (h : s.LocalOnly u t) :
    let v := ls.foldl (State.laneStore x u n src ea) t
    let covers := fun (l k : Nat) => (ea l).toNat ≤ k ∧ k < (ea l).toNat + n
    s.LocalOnly u v ∧ ∀ k,
      (∀ l ∈ ls, covers l k → (∀ m ∈ ls, l < m → ¬ covers m k) → Tab.get 0 k (v.team u).loc =
        BitVec.ofNat 8 ((s.laneData x src n l).toNat / 2 ^ (8 * (k - (ea l).toNat)))) ∧
      ((∀ l ∈ ls, ¬ covers l k) → Tab.get 0 k (v.team u).loc = Tab.get 0 k (t.team u).loc) := by
  induction ls generalizing t with
  | nil => exact ⟨h, fun k => ⟨by simp, fun _ => rfl⟩⟩
  | cons m ls ih =>
    obtain ⟨hm, htail⟩ := List.pairwise_cons.mp hls
    obtain ⟨hlast, hbytes⟩ := ih htail (h.laneStore (x := x) (n := n) (src := src) (ea := ea) m)
    refine ⟨hlast, fun k => ⟨fun l hl hcov htop => ?_, fun hno => ?_⟩⟩
    · obtain rfl | hin := List.mem_cons.mp hl
      · have hrest := (hbytes k).2 fun j hj => htop j (List.mem_cons_of_mem _ hj) (hm j hj)
        exact hrest.trans ((h.get_laneStore l k).trans (if_pos hcov))
      · exact (hbytes k).1 l hin hcov fun j hj => htop j (List.mem_cons_of_mem _ hj)
    · have hrest := (hbytes k).2 fun j hj => hno j (List.mem_cons_of_mem _ hj)
      exact hrest.trans ((h.get_laneStore m k).trans (if_neg (hno m List.mem_cons_self)))

end
end Sys2Proof.Machine
end


section
namespace Sys2Proof.Machine
open Sys2Proof Sys2Proof.Spec

/-! ### Loads from local memory (R32, R208, R251) -/

/-- The result of a word whose values are all there (R32). -/
def MemWord.result (w : MemWord) : Result :=
  { grp := w.info.grp, regs := w.info.dstRegs,
    vals := w.info.dstVals (lanesOf (w.info.lanes &&& ~~~w.failed)) (fun l => Tab.get 0 (if w.info.once then 0 else l) w.vals),
    flags := 0, fp := false, raw := [], fault := none }

/-- The end of a word of a group that still runs, with no acquire. -/
theorem State.wordDone_plain {s : State} {w : MemWord} (he : w.info.engine = none) (ho : s.owns w.info = true) (ha : w.acq = false) :
    s.wordDone w = (s.setSys { s.sys with
      words := s.sys.words.filter (fun v => decide (v.info.tok ≠ w.info.tok))
      results := Tab.put w.info.tok w.result s.sys.results }).post (.resultWriteback w.info.tok) := by
  have hown : ¬ (!s.owns w.info) = true := by simp [ho]
  rw [State.wordDone, if_neg (by simp [he]), ha]
  exact if_neg hown

/-- Registers made empty under a token. -/
theorem Regs.full_drains (q : Regs) (l : List Nat) (tok : Nat) {r : Nat} (hr : r < 192) :
    (l.foldl (fun q k => q.drain k tok) q).full.getLsbD r = (q.full.getLsbD r && !decide (r ∈ l)) := by
  induction l generalizing q with
  | nil => simp
  | cons k l ih =>
    have hone : (1#192 <<< k).getLsbD r = decide (r = k) := by
      rw [BitVec.getLsbD_shiftLeft, BitVec.getLsbD_one]
      grind
    rw [List.foldl_cons, ih, Regs.drain]
    simp only [BitVec.getLsbD_and, BitVec.getLsbD_not, hone, hr]
    by_cases hk : r = k <;> simp [hk]

/-- A group whose next memory word leaves the registers of `l` to producer `tok` (R32). -/
def Group.awaiting (x : Group) (l : List Nat) (tok : Nat) : Group :=
  { x with regs := l.foldl (fun r k => r.drain k tok) x.regs, mem := { x.mem with seq := x.mem.seq + 1 } }

theorem Group.isFull_awaiting (x : Group) {l : List Nat} (tok : Nat) {r : Nat} (hr : r < 192) (hl : r ∈ l) :
    (x.awaiting l tok).isFull r = false := by
  refine (Regs.full_drains x.regs l tok hr).trans ?_
  rw [decide_eq_true hl]
  simp

section
variable {s : State} {g u : Nat} {once : Bool} {e : Mask} {f : FnLoc} {ea : Nat → Word} {d : Operand}

/-- What a local load comes to, once each of its lanes has its bytes. -/
def State.localWord (s : State) (g u : Nat) (once : Bool) (e : Mask) (f : FnLoc) (d : Operand) (ea : Nat → Word) : MemWord :=
  { info := localInfo s g (s.grp g) once e s.nextId f.sz.bytes f.sz.signed d, left := 0,
    vals := (accLanes once e).map (fun l => (l, BitVec.ofNat 128 ((s.team u).locLoad (ea l).toNat f.sz.bytes))),
    failed := 0, fault := none, acq := false }

/-- The state in which a local load's destination is empty and its word counts. -/
def State.localDrained (s : State) (g : Nat) (l : List Nat) : State :=
  ({ s with nextId := s.nextId + 1 } : State).updGrp g (fun x => x.awaiting l s.nextId)

theorem State.localLoad_goes (h : s.LocalGoes g u f (accLanes once e) ea) :
    ∃ unit ev n, s.localLoad g (s.grp g) once e f d ea =
      (((s.localDrained g (s.localWord g u once e f d ea).info.dstRegs).count unit ev n).wordDone (s.localWord g u once e f d ea),
        .on) := by
  have hfail : ({ s with nextId := s.nextId + 1 } : State).localFail = s.localFail := rfl
  rw [State.localLoad, if_neg (by simp [h.go])]
  simp only [State.fresh, hfail, h.share, h.bad, h.ok, List.foldl_nil, List.isEmpty_eq_false_iff.mpr h.lane,
    Bool.false_eq_true, if_false, Option.getD_some]
  exact ⟨_, _, _, rfl⟩

/-- A local load's values are on their way to its destination, which is empty until then (R32). -/
theorem State.localLoad_sends (hg : s.hasGrp g = true) (h : s.LocalGoes g u f (accLanes once e) ea) :
    ∃ t, s.localLoad g (s.grp g) once e f d ea = (t, .on) ∧ t.mem = s.mem ∧ t.teams = s.teams ∧
      (∀ r ∈ (s.localWord g u once e f d ea).result.regs, r < 192 → (t.grp g).isFull r = false) ∧
      Tab.find? s.nextId t.sys.results = some (s.localWord g u once e f d ea).result ∧
      t.pending = s.pending ++ [.resultWriteback s.nextId] := by
  obtain ⟨unit, ev, n, heq⟩ := State.localLoad_goes (d := d) h
  have hgrp : ((s.localDrained g (s.localWord g u once e f d ea).info.dstRegs).count unit ev n).grp g =
      (s.grp g).awaiting (s.localWord g u once e f d ea).info.dstRegs s.nextId :=
    (State.grp_of_groups (State.count_groups ..) g).trans ((State.grp_updGrp ..).trans (if_pos ⟨rfl, hg⟩))
  have howns : ((s.localDrained g (s.localWord g u once e f d ea).info.dstRegs).count unit ev n).owns
      (s.localWord g u once e f d ea).info = true := by
    have hhas : ((s.localDrained g (s.localWord g u once e f d ea).info.dstRegs).count unit ev n).hasGrp g = true := by
      rw [State.hasGrp_count, State.localDrained, State.hasGrp_updGrp]
      exact hg
    exact (Bool.and_eq_true ..).mpr ⟨hhas, decide_eq_true ((congrArg Group.team hgrp).trans rfl)⟩
  rw [State.wordDone_plain rfl howns rfl] at heq
  refine ⟨_, heq, by simp [State.localDrained], by simp [State.localDrained], fun r hr hlt => ?_, ?_, ?_⟩
  · exact (congrArg (Group.isFull · r) hgrp).trans (Group.isFull_awaiting _ _ hlt hr)
  · exact (Tab.find?_put ..).trans (if_pos rfl)
  · simp [State.localDrained, State.post, State.localWord, localInfo]

end
end Sys2Proof.Machine
end


section
namespace Sys2Proof.Machine
open Sys2Proof Sys2Proof.Spec

/-! ### The values of a destination (R251) -/

/-- One of the pieces of a value of 128 bits. -/
theorem ofNat_piece (raw w : Nat) {k : Nat} (hk : k + w ≤ 128) :
    ((BitVec.ofNat 128 raw >>> k).setWidth w).setWidth 64 = BitVec.ofNat 64 (raw / 2 ^ k % 2 ^ w) := by
  refine BitVec.eq_of_getLsbD_eq fun b hb => ?_
  simp only [BitVec.getLsbD_setWidth, BitVec.getLsbD_ushiftRight, BitVec.getLsbD_ofNat, Nat.testBit_mod_two_pow, Nat.testBit_div_two_pow]
  by_cases hbw : b < w
  · simp [hb, hbw, show k + b < 128 by omega, Nat.add_comm]
  · simp [hbw]

theorem sz_bytes_pos (sz : Sz) : 0 < sz.bytes := by cases sz <;> decide

section
variable {i : WordInfo} {sz : Sz} {lanes : List Nat} {raw : Nat → Nat} {val : Nat → BitVec 128}

theorem WordInfo.dstVals_v {m : Fin 128} (hd : i.dst = .v m) (hsz : i.sz = sz.bytes)
    (hval : ∀ l ∈ lanes, val l = BitVec.ofNat 128 (raw l)) :
    i.dstVals lanes val = lanes.flatMap (fun l => (List.range ((sz.bytes + 3) / 4)).map (fun j =>
      (m.val + j, l, if sz.bytes ≤ 4 then extendLoad sz.bytes i.signed (BitVec.ofNat 128 (raw l))
        else BitVec.ofNat 64 (raw l / 2 ^ (32 * j) % 2 ^ 32)))) := by
  cases hlast : lanes.getLast? with
  | none => rw [List.getLast?_eq_none_iff.mp hlast, WordInfo.dstVals, hd]; rfl
  | some top =>
    rw [WordInfo.dstVals, hd, hlast]
    refine List.flatMap_congr fun l hl => ?_
    rw [hval l hl, hsz]
    split
    · next h4 => rw [show (sz.bytes + 3) / 4 = 1 by have := sz_bytes_pos sz; omega]; rfl
    · next h4 =>
      obtain ⟨hdvd, hmax⟩ : (sz.bytes + 3) / 4 = sz.bytes / 4 ∧ sz.bytes ≤ 16 := by revert h4; cases sz <;> decide
      rw [hdvd]
      refine List.map_congr_left fun j hj => ?_
      rw [ofNat_piece _ _ (by have := List.mem_range.mp hj; omega)]

theorem WordInfo.dstVals_s {m : Fin 64} {top : Nat} (hd : i.dst = .s m) (hsz : i.sz = sz.bytes)
    (hval : ∀ l ∈ lanes, val l = BitVec.ofNat 128 (raw l)) (htop : lanes.getLast? = some top) :
    i.dstVals lanes val = (List.range ((sz.bytes + 7) / 8)).map (fun j =>
      (128 + m.val + j, 0, if sz.bytes ≤ 8 then extendLoad sz.bytes i.signed (BitVec.ofNat 128 (raw top))
        else BitVec.ofNat 64 (raw top / 2 ^ (64 * j) % 2 ^ 64))) := by
  have hv := hval top (List.mem_of_getLast? htop)
  simp only [WordInfo.dstVals, hd, htop, hv, hsz]
  split
  · next h8 => rw [show (sz.bytes + 7) / 8 = 1 by have := sz_bytes_pos sz; omega]; rfl
  · next h8 =>
    have hpiece {k : Nat} (hk : k + 64 ≤ 128) :
        (BitVec.ofNat 128 (raw top) >>> k).setWidth 64 = BitVec.ofNat 64 (raw top / 2 ^ k % 2 ^ 64) :=
      (BitVec.setWidth_eq _).symm.trans (ofNat_piece _ 64 hk)
    have htwo : (sz.bytes + 7) / 8 = 2 := by revert h8; cases sz <;> decide
    rw [htwo, ← (BitVec.ofNat 128 (raw top)).ushiftRight_zero, hpiece (by decide),
      (BitVec.ofNat 128 (raw top)).ushiftRight_zero, hpiece (by decide), show 129 + m.val = 128 + m.val + 1 by omega]
    rfl

end
end Sys2Proof.Machine
end


section
namespace Sys2Proof.Machine
open Sys2Proof Sys2Proof.Spec

section
variable {s : State} {g u : Nat} {once : Bool} {e : Mask} {f : FnLoc} {ea : Nat → Word} {x : Group}

/-- The lanes' stores stand in the share, and nothing else of what is looked at changes. -/
theorem State.localStore_stores {src : Operand} (hu : (Tab.find? u s.teams).isSome = true) (h : s.LocalGoes g u f (accLanes once e) ea)
    (hrr : (s.team (s.grp g).team).rrMode = 0) :
    let n := f.sz.bytes
    let covers := fun (l k : Nat) => (ea l).toNat ≤ k ∧ k < (ea l).toNat + n
    ∃ t, s.localStore g (s.grp g) once e f src ea = (t, .on) ∧ s.LocalOnly u t ∧ ∀ k,
      (∀ l ∈ accLanes once e, covers l k → (∀ m ∈ accLanes once e, l < m → ¬ covers m k) → Tab.get 0 k (t.team u).loc =
        BitVec.ofNat 8 ((s.laneData (s.grp g) src n l).toNat / 2 ^ (8 * (k - (ea l).toNat)))) ∧
      ((∀ l ∈ accLanes once e, ¬ covers l k) → Tab.get 0 k (t.team u).loc = Tab.get 0 k (s.team u).loc) := by
  intro n covers
  obtain ⟨unit, ev, cnt, heq⟩ := State.localStore_goes (src := src) h hrr
  have hls : (accLanes once e).Pairwise (· < ·) := by
    unfold accLanes
    split
    · exact List.pairwise_singleton ..
    · exact pairwise_lanesOf e
  have hteam (k : Nat) : (s.count unit ev cnt).team k = s.team k := by simp [State.team]
  have hcount : s.LocalOnly u (s.count unit ev cnt) :=
    ⟨by simpa using hu, by simp, by simp, by simp, fun k _ => hteam k, by rw [hteam], by rw [hteam]⟩
  obtain ⟨honly, hbytes⟩ := hcount.laneStores hls
  rw [hteam] at hbytes
  exact ⟨_, heq, honly, hbytes⟩

/-- The bytes at a lane's offset; a uniform word has those of its one access in every lane (R251). -/
def State.localRaw (s : State) (u : Nat) (once : Bool) (f : FnLoc) (ea : Nat → Word) (l : Nat) : Nat :=
  (s.team u).locLoad (ea (if once then 0 else l)).toNat f.sz.bytes

theorem State.vals_localWord {d : Operand} : (s.localWord g u once e f d ea).result.vals = (s.localWord g u once e f d ea).info.dstVals
    (lanesOf e) (fun l => Tab.get 0 (if once then 0 else l) (s.localWord g u once e f d ea).vals) := by
  have hlanes : (s.localWord g u once e f d ea).info.lanes &&& ~~~(s.localWord g u once e f d ea).failed = e := by
    change e &&& ~~~(0#96) = e
    rw [BitVec.not_zero, BitVec.and_allOnes]
  rw [MemWord.result, hlanes]
  rfl

theorem State.get_localWord {d : Operand} {l : Nat} (hl : l ∈ lanesOf e) :
    Tab.get 0 (if once then 0 else l) (s.localWord g u once e f d ea).vals = BitVec.ofNat 128 (s.localRaw u once f ea l) := by
  refine tabGet_lanes 0 (fun l => BitVec.ofNat 128 ((s.team u).locLoad (ea l).toNat f.sz.bytes)) ?_
  unfold accLanes
  split
  · exact List.mem_singleton_self _
  · exact hl

theorem State.vals_localWord_v {m : Fin 128} : (s.localWord g u once e f (.v m) ea).result.vals =
    (lanesOf e).flatMap (fun l => (List.range ((f.sz.bytes + 3) / 4)).map (fun j => (m.val + j, l,
      if f.sz.bytes ≤ 4 then extendLoad f.sz.bytes f.sz.signed (BitVec.ofNat 128 (s.localRaw u once f ea l))
      else BitVec.ofNat 64 (s.localRaw u once f ea l / 2 ^ (32 * j) % 2 ^ 32)))) :=
  State.vals_localWord.trans (WordInfo.dstVals_v rfl rfl fun _ hl => State.get_localWord hl)

theorem State.vals_localWord_s {m : Fin 64} {top : Nat} (htop : (lanesOf e).getLast? = some top) :
    (s.localWord g u once e f (.s m) ea).result.vals = (List.range ((f.sz.bytes + 7) / 8)).map (fun j => (128 + m.val + j, 0,
      if f.sz.bytes ≤ 8 then extendLoad f.sz.bytes f.sz.signed (BitVec.ofNat 128 (s.localRaw u once f ea top))
      else BitVec.ofNat 64 (s.localRaw u once f ea top / 2 ^ (64 * j) % 2 ^ 64))) :=
  State.vals_localWord.trans (WordInfo.dstVals_s rfl rfl (fun _ hl => State.get_localWord hl) htop)

end

theorem State.localTeam_eq_some {s : State} {x : Group} {u : Nat} {mem : Option (Fin 12)} (h : match mem with
    | none => u = x.team
    | some m => ((s.cluster (s.team x.team).cluster).teams)[m.val]? = some u) : s.localTeam x mem = some u := by
  cases mem with
  | none => exact congrArg some h.symm
  | some m => exact h

/-- Settles O22: the word makes its accesses in each of its lanes, and none of them fails. -/
theorem localMemory : Obligations.LocalMemory := by
  intro h f d a b off s g u x tm n e ls fm fx fits there ready stores loads hready
  obtain ⟨hg, hu, hthere, hguard, hne, hwait, hrr⟩ := hready
  have hgoes {ea : Nat → Word} (hf : fits ea) : s.LocalGoes g u f (accLanes h.uni e) ea :=
    ⟨hwait, State.localTeam_eq_some hthere, accLanes_ne_nil hne, fun l hl => State.localFail_of_fits rfl (hf l hl).1 (hf l hl).2⟩
  have hexec {i : Instr} (hs : s.Stands g i) (k) := memLanes_stands hs hguard (e := e) rfl hne k
  have hstore {i : Instr} {ea : Nat → Word} {src : Operand} (hf : fits ea) (hi : exec i s =
      .next ((s.localStore g x h.uni e f src ea).1.retire g h.bnd (s.localStore g x h.uni e f src ea).2)) : stores i ea src := by
    obtain ⟨t, heq, honly, hbytes⟩ := State.localStore_stores (src := src) hu (hgoes hf) hrr
    rw [heq] at hi
    exact ⟨t, hi, honly.mem, State.grp_of_groups honly.groups g, honly.others, hbytes⟩
  have hload {i : Instr} {ea : Nat → Word} (hf : fits ea) (hi : exec i s =
      .next ((s.localLoad g x h.uni e f d ea).1.retire g h.bnd (s.localLoad g x h.uni e f d ea).2)) : loads i ea := by
    obtain ⟨t, heq, hmem, hteams, hempty, hres, hpend⟩ := State.localLoad_sends (d := d) hg (hgoes hf)
    rw [heq] at hi
    refine ⟨t, _, hi, hmem, hteams, hempty, hres, rfl, hpend, ?_⟩
    cases d with
    | v m => exact ⟨rfl, State.vals_localWord_v⟩
    | s m => exact ⟨rfl, fun top htop => State.vals_localWord_s htop⟩
    | _ => exact ⟨rfl, rfl⟩
  have hfx : fx = fun l => s.rd x a l + s.index x b f.xs l := funext fun l => by rw [State.index_eq]
  refine ⟨fun hs hf => hstore hf ?_, fun hs hf => hstore hf ?_, fun hs hf => hload hf ?_, fun hs hf => hload hf ?_⟩
  · exact (exec_stl ..).trans (hexec hs _)
  · exact hfx ▸ (exec_stlIndexed ..).trans (hexec hs _)
  · exact (exec_ldl ..).trans (hexec hs _)
  · exact hfx ▸ (exec_ldlIndexed ..).trans (hexec hs _)

end Sys2Proof.Machine
end


section
namespace Sys2Proof.Machine
open Sys2Proof Sys2Proof.Spec

/-! ### A held strong store (R212, R216, R223) -/

theorem exec_strongHoldRelease (id : Nat) (s : State) : exec (.strongHoldRelease id) s = execStrongHoldRelease id s := rfl

section
variable {s t u : State} {q : Req} {p : PAcc} {home off : Nat}

theorem State.Lines.ready (h : s.Lines t) : s.Ready t := ⟨h.mem, h.mgmt, h.migs, h.poison⟩

theorem State.Ready.trans (h : s.Ready t) (h' : t.Ready u) : s.Ready u :=
  ⟨h'.mem.trans h.mem, h'.mgmt.trans h.mgmt, h'.migs.trans h.migs, h'.poison.trans h.poison⟩

/-- What a request recalls first is lines (R223 to R225). -/
theorem State.lines_recallReq (h : s.recallReq q = some u) : s.Lines u := by
  unfold State.recallReq at h
  split at h
  · cases h; exact .refl
  · extract_lets pa at h
    split at h
    · unfold State.recallFirst at h
      split at h
      · cases h; exact .refl
      · split at h
        · cases h
        · cases h; exact State.Lines.refl.recallSub
    · cases h; exact .refl

/-- A store that is performed, once the writer's copy is recalled, leaves its bytes and is on its way no more. -/
theorem State.performReq_recalled (hu : s.Lines u) (hreq : s.req? q.id = some q) (hone : ∀ r ∈ s.sys.reqs, r.id = q.id → r = q)
    (ha : q.accs = [p]) (hop : p.acc.op = .store) (hm : s.sys.migs = []) (hk : pteKind q.leaf ≠ 3)
    (hsib : pteKind q.leaf = 0 → 4 < q.info.sz → ∀ k ∈ s.siblings q.info.tok p.acc.lane, k = (q, p))
    (hp : placeOf s.tagging p.pa = .hbm home off) (hperm : s.permitted 0 q.ctx 0 .write p.pa p.acc.size none = true)
    (htags : s.tagsFit q.leaf p.acc.va p.pa p.acc.size = true) :
    (∀ r ∈ (u.performReq q [p]).sys.reqs, r.id ≠ q.id) ∧ ∀ b, (u.performReq q [p]).byte b =
      if p.pa ≤ b ∧ b < p.pa + p.acc.size ∧ p.acc.bmask.getLsbD (b - p.pa)
      then (p.acc.data >>> (8 * (b - p.pa))).setWidth 8 else s.byte b := by
  have hpass : s.refuses q.ctx 0 q.leaf p.pa p.acc = none :=
    State.refuses_hbm hm hp (by rw [hop]; exact hperm) htags (.inl hop)
  have hone' : ∀ r ∈ u.sys.reqs, r.id = q.id → r = q := by rwa [hu.reqs]
  have hsplit (h0 : pteKind q.leaf = 0) (h4 : 4 < q.info.sz) : u.failSplit q p.acc.lane = u := by
    refine State.failSplit_of_passes fun k hin => ?_
    rw [State.siblings, hu.reqs] at hin
    rw [hsib h0 h4 k hin]
    exact (hu.ready.refuses hm hp ..).trans hpass
  have hready := hu.ready.trans (u.ready_trimReq q.id p.pa [p])
  obtain ⟨hbytes, hreqs⟩ := 
    State.performAcc_store (hready.migs.trans hm) (hready.tagging ▸ hp) ((hready.refuses hm hp ..).trans hpass) hop
  rw [State.performReq_one (by rwa [State.req?, hu.reqs]) hone' ha hk hsplit]
  refine ⟨fun r hr => ?_, fun b => by rw [hbytes, State.byte_storeMasked, hready.byte]⟩
  obtain ⟨r', hr', hid⟩ := hreqs r hr
  rw [(State.Lines.refl.countReq : (u.trimReq q.id [p]).Lines _).reqs, State.reqs_trimReq hone' ha] at hr'
  rw [← hid]
  exact of_decide_eq_true (List.mem_filter.mp hr').2

end

/-- A held store of one access: what holds it still, what it recalls first, and that it is performed. -/
theorem exec_strongHoldRelease_store {s : State} {q : Req} {p : PAcc} (hreq : s.req? q.id = some q) (ha : q.accs = [p])
    (hop : p.acc.op = .store) (hst : q.state = .held) :
    (s.mustHold q = true → exec (.strongHoldRelease q.id) s = .next (s.later (.strongHoldRelease q.id))) ∧
      (s.mustHold q = false → s.sys.migs = [] → exec (.strongHoldRelease q.id) s = .next (match s.recallReq q with
        | none => s.recallLater q (.strongHoldRelease q.id)
        | some u => if u.mustHold q then u.later (.strongHoldRelease q.id) else u.performReq q [p])) := by
  rw [exec_strongHoldRelease, execStrongHoldRelease, hreq]
  refine ⟨fun hh => by simp [hst, hh], fun hh hm => ?_⟩
  have hblocked : s.migBlocked p.pa = false := by simp [State.migBlocked, hm]
  have hatomic : p.acc.op.isAtomic = false := by rw [hop]; rfl
  simp only [hst, hh, ha, List.any_cons, List.any_nil, hblocked, hatomic, ne_eq, not_true_eq_false, if_false, Bool.or_self,
    Bool.false_eq_true]
  cases s.recallReq q <;> rfl

end Sys2Proof.Machine
end


section
namespace Sys2Proof.Machine
open Sys2Proof Sys2Proof.Spec

/-! ### Recalls of sub-granules (R223, R225) -/

theorem exec_ownershipRecall (d sub : Nat) (s : State) : exec (.ownershipRecall d sub) s = execOwnershipRecall d sub s := rfl

theorem State.l2Touch_own (s : State) (pa die : Nat) (write : Bool) : (s.l2Touch pa die write).sys.own = s.sys.own := by
  unfold State.l2Touch
  extract_lets
  split
  · split <;> rfl
  · split
    · rfl
    · split <;> rfl

/-- What an entry grants once the grant of a sub-granule has ended. -/
theorem Own.getLsbD_cleared (o : Own) (j : Nat) {i : Nat} (hi : i < 16) :
    (o.mask &&& ~~~(1#16 <<< j)).getLsbD i = (o.mask.getLsbD i && decide (i ≠ j)) := by
  have hone : (1#16 <<< j).getLsbD i = decide (i = j) := by
    rw [BitVec.getLsbD_shiftLeft, BitVec.getLsbD_one]
    grind
  rw [BitVec.getLsbD_and, BitVec.getLsbD_not, hone, decide_eq_true hi, Bool.true_and, decide_not]

theorem State.recallSub_of_not_granted {s : State} {sub : Nat} (h : s.granted sub = false) : s.recallSub sub = s := by
  unfold State.granted at h
  unfold State.recallSub
  extract_lets
  split
  · rfl
  next o ho =>
    rw [ho] at h
    exact if_pos (by simp [h])

theorem State.own_recallSub {s : State} {sub : Nat} {o : Own} (ho : Tab.find? (sub / 16) s.sys.own = some o)
    (hb : o.mask.getLsbD (sub % 16) = true) :
    (s.recallSub sub).sys.own = Tab.put (sub / 16) { o with mask := o.mask &&& ~~~(1#16 <<< (sub % 16)) } s.sys.own := by
  unfold State.recallSub
  extract_lets g pa home
  split
  next hno => cases hno.symm.trans ho
  next o' ho' =>
    cases ho'.symm.trans ho
    extract_lets s₁ s₂ m
    have h₁ : s₁.sys.own = s.sys.own := List.foldlRecOn (motive := fun t : State => t.sys.own = s.sys.own) _ _ rfl fun _ h _ _ => h
    have h₂ : s₂.sys.own = s.sys.own := List.foldlRecOn (motive := fun t : State => t.sys.own = s.sys.own) _ _ h₁ fun t h k _ => by
      refine Eq.trans ?_ h
      change (if t.l2Dirty (pa + 128 * k) o.w then t.l2Touch (pa + 128 * k) home true else t).sys.own = t.sys.own
      split
      · exact t.l2Touch_own ..
      · rfl
    clear_value s₂ s₁
    rw [if_neg (by simp [hb]), State.count_sys, ← h₂]
    rfl

/-- A recall ends the grant of its sub-granule, and no other. -/
theorem State.granted_recallSub (s : State) (sub k : Nat) : (s.recallSub sub).granted k = (s.granted k && decide (k ≠ sub)) := by
  cases hg : s.granted sub with
  | false =>
    rw [State.recallSub_of_not_granted hg]
    by_cases hk : k = sub
    · simp [hk, hg]
    · simp [hk]
  | true =>
    obtain ⟨o, ho, hb⟩ : ∃ o, Tab.find? (sub / 16) s.sys.own = some o ∧ o.mask.getLsbD (sub % 16) = true := by
      unfold State.granted at hg
      cases ho : Tab.find? (sub / 16) s.sys.own with
      | none => simp [ho] at hg
      | some o => exact ⟨o, rfl, by simpa [ho] using hg⟩
    rw [State.granted, State.own_recallSub ho hb, Tab.find?_put]
    by_cases hk : k / 16 = sub / 16
    · have hiff : k % 16 = sub % 16 ↔ k = sub := by omega
      rw [State.granted, hk, ho]
      simp only [if_true, Own.getLsbD_cleared o _ (Nat.mod_lt k (by decide : 0 < 16)), ne_eq, hiff]
    · have hne : k ≠ sub := fun h => hk (by rw [h])
      simp [hk, hne, State.granted]

/-! ### Lines of an L1 and of an instruction cache (R206, R211, R213, R216) -/

theorem exec_l1Fill (id : Nat) (s : State) : exec (.l1Fill id) s = execL1Fill id s := rfl

theorem exec_leaseExpiry (c line : Nat) (s : State) : exec (.leaseExpiry c line) s = execLeaseExpiry c line s := rfl

theorem exec_hbmUncorrectableError (pa : Nat) (s : State) : exec (.hbmUncorrectableError pa) s = execHbmUncorrectableError pa s := rfl

section
variable {s₀ s : State}

theorem State.Lines.fills (h : s₀.Lines s) : s.sys.fills = s₀.sys.fills := by obtain ⟨_, _, _, _, _, rfl⟩ := h; rfl

theorem State.Lines.makeRoom {α : Type} {ways line} {lineOf setOf : Nat → Nat} {t : Tab α} (h : s₀.Lines s) :
    s₀.Lines (s.makeRoom ways lineOf setOf line t).2 := by
  unfold State.makeRoom
  extract_lets
  split
  · exact h
  · split
    next v s₁ hv =>
      cases hv
      split <;> exact h.upd

end

/-- A sector that is installed stands there. -/
theorem State.find?_l1Put (s : State) (core sec : Nat) (x : Sector) : Tab.find? sec ((s.l1Put core sec x).core core).l1 = some x := by
  simp [State.l1Put, State.updCore, Tab.find?_put]

theorem State.find?_icachePut (s : State) (core line : Nat) (x : ILine) :
    Tab.find? line ((s.icachePut core line x).core core).icache = some x := by
  simp [State.icachePut, State.updCore, Tab.find?_put]

/-- A lease that has ended ends for its sector alone. -/
theorem find?_leaseEnded {α : Type} (f : Nat → α → α) (t : Tab α) (n : Nat) :
    Tab.find? n (t.map (fun e => (e.1, f e.1 e.2))) = (Tab.find? n t).map (f n) := by
  induction t with
  | nil => rfl
  | cons e t ih =>
    by_cases he : e.1 = n
    · simp [Tab.find?, he]
    · simp [Tab.find?, he, ih]

end Sys2Proof.Machine
end


section
namespace Sys2Proof.Machine
open Sys2Proof Sys2Proof.Spec

/-! ### Fetches (R216, R358) -/

theorem exec_instructionFetch (g : Nat) (s : State) : exec (.instructionFetch g) s = execInstructionFetch g s := rfl

section
variable {s₀ s u : State} {g : Nat}

theorem State.Aside.hasGrp (h : s₀.Aside s) (k : Nat) : s.hasGrp k = s₀.hasGrp k := by simp only [State.hasGrp, h.groups]

theorem State.Aside.noteHw {a v} (h : s₀.Aside s) : s₀.Aside (s.noteHw a v) := h.upd

theorem State.Aside.postEvent {code fields} (h : s₀.Aside s) : s₀.Aside (s.postEvent code fields) := h.setHub.ite h.setHub.drainRecords

theorem State.Aside.setFaultBuf {die ctx b} (h : s₀.Aside s) : s₀.Aside (s.setFaultBuf die ctx b) := h.setSys

theorem State.Aside.handleReport {die ctx k post} (h : s₀.Aside s) : s₀.Aside (s.handleReport die ctx k post) := by
  unfold State.handleReport
  extract_lets b n s₁ s₂
  have h₂ : s₀.Aside s₂ := h.setFaultBuf.ite h.setFaultBuf.noteHw
  exact h₂.postEvent.ite h₂

theorem State.Aside.faultReport {core slot ctx va acc f path} (h : s₀.Aside s) :
    s₀.Aside (s.faultReport core slot ctx va acc f path) := h.handleReport.setSys

/-- What a fetch that faults leaves of its group. -/
def Group.fetchParked (x : Group) (t : Nat) : Group := { x with port := none, sched := { x.sched with fetch := some t } }

theorem State.grp_fetchPark {f : PageFault} (hg : s.hasGrp g = true) : (s.fetchPark g f).grp g = (s.grp g).fetchParked s.tick.toNat := by
  have haside : s.Aside (s.faultReport (s.grp g).core (s.grp g).slot (s.grp g).ctx (8 * (s.grp g).flow.pc.toNat) 3 f 5) :=
    State.Aside.refl.faultReport
  have hgrp := State.grp_of_groups haside.groups g
  have hhas := (haside.hasGrp g).trans hg
  rw [State.fetchPark, State.grp_updGrp, if_pos ⟨rfl, by rw [State.hasGrp_releasePort, hhas]⟩, State.grp_releasePort _ _ _ hhas,
    if_pos rfl, hgrp, haside.tick]
  rfl

theorem State.looked_fetchReach (s : State) (x : Group) : s.Looked (s.fetchReach x).2 := State.Looked.refl.translate

/-- A group that runs and whose fetch is not parked fetches. -/
theorem exec_instructionFetch_runs (hg : s.hasGrp g = true) (hh : (s.grp g).sched.halted = false) (hf : (s.grp g).sched.fetch = none) :
    exec (.instructionFetch g) s = .next (s.fetch g) := by
  rw [exec_instructionFetch, execInstructionFetch, hg, hh, hf]
  rfl

theorem State.fetch_of_park {f : PageFault} (hr : s.fetchReach (s.grp g) = (.park f, u)) : s.fetch g = u.fetchPark g f := by
  rw [State.fetch, hr]

theorem State.migLeave_of_no_migs (hm : s.sys.migs = []) (t : Ticket) : s.migLeave t = s := by
  rw [State.migLeave, hm, List.map_nil, ← hm]
  rfl

/-- An untracked page has no heat counted. -/
theorem State.heatCount_untracked {leaf : Word} (ht : pteTrk leaf = false) (core : Nat) (write : Bool) (pa : Nat) :
    s.heatCount core write [(pa, leaf)] = s := by
  simp [State.heatCount, heatLeaf, ht]

/-- A fetch that nothing refuses fills its line. -/
theorem State.fetch_of_ok {pa home off : Nat} {leaf : Word} (hr : s.fetchReach (s.grp g) = (.ok pa leaf, u)) (hm : u.sys.migs = [])
    (ht : pteTrk leaf = false) (hp : placeOf u.tagging pa = .hbm home off)
    (hperm : u.permitted 0 (s.grp g).ctx 0 .read (pa / 128 * 128) 128 none = true)
    (htags : u.tagsFit leaf (BitVec.ofNat 64 (8 * (s.grp g).flow.pc.toNat)) pa 8 = true)
    (hpoison : Tab.get false (lineKey pa home) u.sys.poison = false) : s.fetch g = u.fillLine (s.grp g) leaf pa := by
  rw [State.fetch, hr]
  simp only [State.migWaits_of_no_migs hm, State.migLeave_of_no_migs hm, State.forwardPa_of_no_migs hm, hp, hperm, htags, hpoison,
    State.heatCount_untracked ht, Bool.not_true, Bool.false_eq_true, if_false]

theorem placeOf_home {tagging : Bool} {pa home off : Nat} (h : placeOf tagging pa = .hbm home off) : home = pa / 0x2000000000 := by
  have hpa := lt_of_hbm h
  rw [placeOf, if_pos hpa] at h
  extract_lets o at h
  generalize (if tagging then tagOffset else 0x1800000000) = size at h
  split at h
  · exact (Place.hbm.inj h).1.symm
  · cases h

theorem State.icachePut_frame (core line : Nat) (x : ILine) :
    (s.icachePut core line x).mem = s.mem ∧ (s.icachePut core line x).groups = s.groups := by
  unfold State.icachePut
  extract_lets c r
  have hr : s.Lines r.2 := by
    change s.Lines (if c.length < 4 then (c, s) else _).2
    split
    · exact .refl
    · exact State.Lines.refl.makeRoom
  exact ⟨hr.mem, hr.groups⟩

/-- What a line fill leaves: its line, and neither memory nor a group changed. -/
theorem State.fillLine_spec {x : Group} {leaf : Word} {pa home off : Nat} (hm : u.sys.migs = []) (ht : pteTrk leaf = false)
    (hp : placeOf u.tagging pa = .hbm home off) :
    let t := u.fillLine x leaf pa
    t.mem = u.mem ∧ t.groups = u.groups ∧ Tab.find? (pa / 128) (t.core x.core).icache =
      some { data := u.bytes (pa / 128 * 128) 128, expiry :=
        (let full := u.tick.toNat + (Tab.find? (64 * x.core + x.ctx) u.sys.leaseWas).getD (u.ctxRegs x.core x.ctx).leaseLen.toNat
         if u.heldLine x.core leaf pa then min full (u.lexp pa home) else full) } := by
  intro t
  have hdie (d : Nat) (w : Bool) : u.servingDie leaf d pa w = home := by simp [State.servingDie, ht, placeOf_home hp]
  have hlines (e : Nat) : u.Lines (((u.raiseLexp pa home e).l2Touch pa home false).countReq pa) :=
    State.Lines.refl.raiseLexp.l2Touch.countReq
  have hend : u.leaseEnd x.core x.ctx leaf pa =
      (let full := u.tick.toNat + (Tab.find? (64 * x.core + x.ctx) u.sys.leaseWas).getD (u.ctxRegs x.core x.ctx).leaseLen.toNat
       if u.heldLine x.core leaf pa then min full (u.lexp pa home) else full) := by
    rw [State.leaseEnd, hdie]
    rfl
  have hfill : t = (((u.raiseLexp pa home (u.leaseEnd x.core x.ctx leaf pa)).l2Touch pa home false).countReq pa).icachePut x.core (pa / 128)
      { data := u.bytes (pa / 128 * 128) 128, expiry := u.leaseEnd x.core x.ctx leaf pa } := by
    have hbytes (e : Nat) : State.bytes (((u.raiseLexp pa home e).l2Touch pa home false).countReq pa) = u.bytes := by
      funext b n
      simp only [State.bytes, byte_of_mem (hlines e).mem]
    simp only [t, State.fillLine, State.forwardPa_of_no_migs hm, hdie, hbytes]
  rw [hfill, ← hend]
  exact ⟨(State.icachePut_frame ..).1.trans (hlines _).mem, (State.icachePut_frame ..).2.trans (hlines _).groups,
    State.find?_icachePut ..⟩

end
end Sys2Proof.Machine
end


section
namespace Sys2Proof.Machine
open Sys2Proof Sys2Proof.Spec

/-! ### The events of held stores, leases and errors (R211 to R219, R225) -/

theorem strongHoldReleases (s : State) (q : Req) (p : PAcc) (home off : Nat) :
    let e : Instr := .strongHoldRelease q.id
    s.req? q.id = some q → (∀ r ∈ s.sys.reqs, r.id = q.id → r = q) → q.accs = [p] → p.acc.op = .store →
      (q.state ≠ .held → exec e s = .next s) ∧
      (q.state = .held → s.mustHold q = true → exec e s = .next (s.later e)) ∧
      (q.state = .held → s.mustHold q = false → s.sys.migs = [] → s.recallReq q = none → exec e s = .next (s.recallLater q e)) ∧
      (∀ u, q.state = .held → s.mustHold q = false → s.sys.migs = [] → s.recallReq q = some u → u.mustHold q = true →
        exec e s = .next (u.later e)) ∧
      (∀ u, q.state = .held → s.mustHold q = false → s.sys.migs = [] → s.recallReq q = some u → u.mustHold q = false →
        pteKind q.leaf ≠ 3 → (pteKind q.leaf = 0 → 4 < q.info.sz → ∀ k ∈ s.siblings q.info.tok p.acc.lane, k = (q, p)) →
        placeOf s.tagging p.pa = .hbm home off → s.permitted 0 q.ctx 0 .write p.pa p.acc.size none = true →
          s.tagsFit q.leaf p.acc.va p.pa p.acc.size = true →
        ∃ t, exec e s = .next t ∧ (∀ r ∈ t.sys.reqs, r.id ≠ q.id) ∧ ∀ b, t.byte b =
          if p.pa ≤ b ∧ b < p.pa + p.acc.size ∧ p.acc.bmask.getLsbD (b - p.pa)
          then (p.acc.data >>> (8 * (b - p.pa))).setWidth 8 else s.byte b) := by
  intro e hreq hone ha hop
  have hstore := exec_strongHoldRelease_store hreq ha hop
  refine ⟨fun hst => ?_, fun hst hh => (hstore hst).1 hh, fun hst hh hm hr => ?_, fun u hst hh hm hr hu => ?_,
    fun u hst hh hm hr hu hk hsib hp hperm htags => ?_⟩
  · rw [exec_strongHoldRelease, execStrongHoldRelease, hreq]
    exact if_pos hst
  · rw [(hstore hst).2 hh hm, hr]
  · rw [(hstore hst).2 hh hm, hr]
    simp only [hu, if_true]
    rfl
  · refine ⟨u.performReq q [p], ?_, State.performReq_recalled (State.lines_recallReq hr) hreq hone ha hop hm hk hsib hp hperm htags⟩
    rw [(hstore hst).2 hh hm, hr]
    simp [hu]

theorem ownershipRecalls (s : State) (d sub : Nat) :
    let e : Instr := .ownershipRecall d sub
    (s.quireHolds sub (sub + 1) = true → exec e s = .next (s.later e)) ∧
    (s.quireHolds sub (sub + 1) = false → sub * 4096 / 0x2000000000 ≠ d → exec e s = .next s) ∧
    (s.quireHolds sub (sub + 1) = false → sub * 4096 / 0x2000000000 = d → ∃ t, exec e s = .next t ∧ t.mem = s.mem ∧
      t.groups = s.groups ∧ ∀ k, t.granted k = (s.granted k && decide (k ≠ sub))) := by
  intro e
  rw [exec_ownershipRecall, execOwnershipRecall]
  refine ⟨fun hq => if_pos hq, fun hq hd => ?_, fun hq hd => ⟨s.recallSub sub, ?_, ?_⟩⟩
  · rw [if_neg (by simp [hq]), if_neg hd]
  · rw [if_neg (by simp [hq]), if_pos hd]
  · have hlines : s.Lines (s.recallSub sub) := State.Lines.refl.recallSub
    exact ⟨hlines.mem, hlines.groups, s.granted_recallSub sub⟩

theorem State.lines_l1Put_room (s : State) (core sec : Nat) :
    s.Lines (s.makeRoom 8 (fun k => k / 4) (fun l => l % 256) (sec / 4) (s.core core).l1).2 := State.Lines.refl.makeRoom

theorem l1Fills (s : State) (f : Fill) (hf : s.sys.fills.find? (fun k => decide (k.id = f.id)) = some f) :
    ∃ t, exec (.l1Fill f.id) s = .next t ∧ t.mem = s.mem ∧ t.groups = s.groups ∧
      t.sys.fills = s.sys.fills.filter (fun k => decide (k.id ≠ f.id)) ∧
      (s.tick.toNat < f.expiry → Tab.find? f.sector (t.core f.core).l1 = some { data := f.data, expiry := f.expiry }) ∧
      (f.expiry ≤ s.tick.toNat → t.cores = s.cores) := by
  rw [exec_l1Fill, execL1Fill, hf]
  let u := s.setSys { s.sys with fills := s.sys.fills.filter (fun k => decide (k.id ≠ f.id)) }
  by_cases hlive : s.tick.toNat < f.expiry
  · have hroom := u.lines_l1Put_room f.core f.sector
    exact ⟨_, if_pos hlive, hroom.mem, hroom.groups, hroom.fills, fun _ => u.find?_l1Put .., fun h => absurd hlive (by omega)⟩
  · exact ⟨u, if_neg hlive, rfl, rfl, rfl, fun h => absurd h hlive, fun _ => rfl⟩

theorem leasesExpire (s : State) (c line : Nat) :
    ∃ t, exec (.leaseExpiry c line) s = .next t ∧ t.mem = s.mem ∧ t.groups = s.groups ∧
    (∀ k, k ≠ c → t.core k = s.core k) ∧
    ∀ n, Tab.find? n (t.core c).l1 = (Tab.find? n (s.core c).l1).map (fun x =>
      if n / 4 = line ∧ x.expiry ≤ s.tick.toNat then { x with expiry := 0 } else x) := by
  refine ⟨_, exec_leaseExpiry .., rfl, rfl, fun k hk => ?_, fun n => ?_⟩
  · rw [State.updCore, State.core_setCore, if_neg hk]
  · rw [State.updCore, State.core_setCore, if_pos rfl]
    rw [← find?_leaseEnded (fun n (x : Sector) => if n / 4 = line ∧ x.expiry ≤ s.tick.toNat then { x with expiry := 0 } else x)]
    refine congrArg (Tab.find? n) (List.map_congr_left fun e _ => ?_)
    split <;> rfl

theorem instructionFetches (s u : State) (g : Nat) :
    let x := s.grp g
    let e : Instr := .instructionFetch g
    s.hasGrp g = true → x.sched.halted = false → x.sched.fetch = none →
      (∀ (pa home off : Nat) (leaf : Word), s.fetchReach x = (.ok pa leaf, u) → u.sys.migs = [] → pteTrk leaf = false →
        placeOf u.tagging pa = .hbm home off → u.permitted 0 x.ctx 0 .read (pa / 128 * 128) 128 none = true →
        u.tagsFit leaf (BitVec.ofNat 64 (8 * x.flow.pc.toNat)) pa 8 = true → Tab.get false (pa / 128 * 16 + home) u.sys.poison = false →
        ∃ t, exec e s = .next t ∧ t.mem = u.mem ∧ t.groups = u.groups ∧ Tab.find? (pa / 128) (t.core x.core).icache =
          some { data := u.bytes (pa / 128 * 128) 128, expiry :=
            (let full := u.tick.toNat + (Tab.find? (64 * x.core + x.ctx) u.sys.leaseWas).getD (u.ctxRegs x.core x.ctx).leaseLen.toNat
             if u.heldLine x.core leaf pa then min full (u.lexp pa home) else full) }) ∧
      (∀ f, s.fetchReach x = (.park f, u) → u.groups = s.groups → ∃ t, exec e s = .next t ∧
        (t.grp g).port = none ∧ (t.grp g).sched.fetch = some s.tick.toNat ∧ (t.grp g).flow = x.flow ∧ (t.grp g).regs = x.regs) := by
  intro x e hg hh hf
  have hexec := exec_instructionFetch_runs hg hh hf
  refine ⟨fun pa home off leaf hr hm ht hp hperm htags hpoison => ?_, fun f hr hgroups => ?_⟩
  · exact ⟨_, hexec.trans (congrArg _ (State.fetch_of_ok hr hm ht hp hperm htags hpoison)), State.fillLine_spec hm ht hp⟩
  · have hlooked : s.Looked u := by simpa only [hr] using s.looked_fetchReach x
    refine ⟨_, hexec.trans (congrArg _ (State.fetch_of_park hr)), ?_⟩
    rw [State.grp_fetchPark ((hlooked.hasGrp g).trans hg), State.grp_of_groups hgroups, hlooked.tick]
    exact ⟨rfl, rfl, rfl, rfl⟩

theorem placeOf_home_lt {tagging : Bool} {pa home off : Nat} (h : placeOf tagging pa = .hbm home off) : home < 8 := by
  have hpa := lt_of_hbm h
  rw [placeOf_home h]
  omega

theorem uncorrectableErrorPoisons (s : State) (pa d off : Nat) (hp : placeOf s.tagging pa = .hbm d off) :
    ∃ t, exec (.hbmUncorrectableError pa) s = .next t ∧ t.mem = s.mem ∧ t.groups = s.groups ∧
      t.sys.mchecks = s.sys.mchecks ++ [(pa / 128 * 128, s.tick.toNat)] ∧ ∀ n h, h < 16 →
        Tab.get false (n * 16 + h) t.sys.poison = (Tab.get false (n * 16 + h) s.sys.poison || decide (n = pa / 128 ∧ h = d)) := by
  have hd := placeOf_home_lt hp
  rw [exec_hbmUncorrectableError, execHbmUncorrectableError, hp]
  refine ⟨_, rfl, rfl, rfl, rfl, fun n h hh => ?_⟩
  change Tab.get false (n * 16 + h) (Tab.set false (lineKey pa d) true s.sys.poison) = _
  rw [Tab.get_set]
  have hkey : n * 16 + h = lineKey pa d ↔ n = pa / 128 ∧ h = d := by
    unfold lineKey
    omega
  simp only [hkey]
  by_cases hn : n = pa / 128 ∧ h = d
  · rw [if_pos hn, decide_eq_true hn, Bool.or_true]
  · rw [if_neg hn, decide_eq_false hn, Bool.or_false]

/-- Settles O44: each clause is an event of the memory system, settled above. -/
theorem holdsRecallsLeasesAndFetches : Obligations.HoldsRecallsLeasesAndFetches := by
  refine ⟨strongHoldReleases, ?_, l1Fills, leasesExpire, instructionFetches, uncorrectableErrorPoisons⟩
  exact ownershipRecalls

end Sys2Proof.Machine
end


section
namespace Sys2Proof.Machine
open Sys2Proof Sys2Proof.Spec

/-! ### GO of a migration (R226, R367) -/

/-- The size that a code of MSRC names. -/
def migSize (w : Word) : Nat := match bits w 0 2 with | 0 => 2 ^ 14 | 1 => 2 ^ 16 | _ => 2 ^ 25

/-- MSRC and MDST as the write of GO found them. -/
def State.migGo (s : State) (d : Nat) : Word × Word := Tab.get (s.reg (migAddr d), s.reg (migAddr d + 8)) d s.hub.goes

def migFrame (w : Word) : Nat := bits w 14 38 * 2 ^ 14

/-- Whether a frame lies in HBM. -/
def State.frameInHbm (s : State) (pa size : Nat) : Bool := match placeOf s.tagging pa, placeOf s.tagging (pa + size - 1) with
  | .hbm _ _, .hbm _ _ => true
  | _, _ => false

/-- Whether GO is taken. -/
def State.migOk (s : State) (d : Nat) : Bool :=
  let w := (s.migGo d).1
  let src := migFrame w
  let dst := migFrame (s.migGo d).2
  decide (bits w 0 2 ≠ 3) && (Tab.find? d s.sys.migs).isNone && s.frameInHbm src (migSize w) && s.frameInHbm dst (migSize w) &&
    decide (src % migSize w = 0) && decide (dst % migSize w = 0) && decide (src / 0x2000000000 = d)

/-- The state once GO is known to have been made. -/
def State.migTaken (s : State) (d : Nat) : State := s.setHub { s.hub with goes := Tab.del d s.hub.goes }

/-- The state once the sub-granules of a page have been recalled. -/
def State.recallPage (s : State) (src size : Nat) : State :=
  (s.sys.own.filter (fun o => decide (src / 0x10000 ≤ o.1 ∧ o.1 * 0x10000 < src + size))).foldl (fun s o =>
    (List.range 16).foldl (fun s k =>
      let pa := o.1 * 0x10000 + 4096 * k
      if src ≤ pa ∧ pa < src + size then s.recallSub (pa / 4096) else s) s) s

/-- The state in which the page of a migration is blocked. -/
def State.migBlock (s : State) (d : Nat) (m : Migration) : State :=
  let s := s.setSys { s.sys with migs := Tab.put d m s.sys.migs }
  (s.setReg (migAddr d + 0x10) (s.reg (migAddr d + 0x10) &&& ~~~4#64)).post (.migrationCopyEnd d)

theorem exec_migrationGo (d : Nat) (s : State) : exec (.migrationGo d) s =
    let w := (s.migGo d).1
    let src := migFrame w
    let dst := migFrame (s.migGo d).2
    let size := migSize w
    if s.migOk d && s.quireHolds (src / 4096) ((src + size) / 4096) then .next (s.later (.migrationGo d))
    else if !s.migOk d then .next ((s.migTaken d).hwSet (migAddr d + 0x10) 8)
    else .next (((s.migTaken d).recallPage src size).migBlock d
      { src := src, dst := dst, size := size, copied := false, aborted := false, queue := [] }) := rfl

section
variable {s₀ s : State} {d : Nat}

theorem State.Lines.pending (h : s₀.Lines s) : s.pending = s₀.pending := by obtain ⟨_, _, _, _, _, rfl⟩ := h; rfl

theorem State.Lines.recallPage {src size} (h : s₀.Lines s) : s₀.Lines (s.recallPage src size) :=
  h.foldl fun _ _ h => h.foldl fun _ _ h => h.recallSub.ite h

theorem migSize_eq (w : Word) :
    migSize w = if w.extractLsb' 0 2 = 0#2 then 2 ^ 14 else if w.extractLsb' 0 2 = 1#2 then 2 ^ 16 else 2 ^ 25 := by
  unfold migSize bits
  generalize w.extractLsb' 0 2 = c
  revert c
  decide

theorem migCode_ne (w : Word) : bits w 0 2 ≠ 3 ↔ w.extractLsb' 0 2 ≠ 3#2 := by
  unfold bits
  generalize w.extractLsb' 0 2 = c
  revert c
  decide

theorem State.frameInHbm_iff (s : State) (pa size : Nat) : s.frameInHbm pa size = true ↔
    (∃ h o, placeOf s.tagging pa = .hbm h o) ∧ ∃ h o, placeOf s.tagging (pa + size - 1) = .hbm h o := by
  unfold State.frameInHbm
  cases placeOf s.tagging pa <;> cases placeOf s.tagging (pa + size - 1) <;> simp

theorem migrationGoes (s : State) (d : Nat) :
    let e : Instr := .migrationGo d
    let reg := 0x10000052100 + 64 * d
    let go := Tab.get (s.reg reg, s.reg (reg + 8)) d s.hub.goes
    let w := go.1
    let size := if w.extractLsb' 0 2 = 0#2 then 2 ^ 14 else if w.extractLsb' 0 2 = 1#2 then 2 ^ 16 else 2 ^ 25
    let src := (w.extractLsb' 14 38).toNat * 2 ^ 14
    let dst := (go.2.extractLsb' 14 38).toNat * 2 ^ 14
    let inHbm := fun (pa : Nat) => (∃ h o, placeOf s.tagging pa = .hbm h o) ∧ ∃ h o, placeOf s.tagging (pa + size - 1) = .hbm h o
    let ok := w.extractLsb' 0 2 ≠ 3#2 ∧ Tab.find? d s.sys.migs = none ∧ inHbm src ∧ inHbm dst ∧
      src % size = 0 ∧ dst % size = 0 ∧ src / 0x2000000000 = d
    (¬ ok → ∃ t, exec e s = .next t ∧ t.mem = s.mem ∧ t.groups = s.groups ∧ t.sys = s.sys ∧
      ∀ a, t.reg a = if a = reg + 16 then s.reg (reg + 16) ||| 8 else s.reg a) ∧
    (ok → s.quireHolds (src / 4096) ((src + size) / 4096) = true → exec e s = .next (s.later e)) ∧
    (ok → s.quireHolds (src / 4096) ((src + size) / 4096) = false → ∃ t, exec e s = .next t ∧
      t.mem = s.mem ∧ t.groups = s.groups ∧
      Tab.find? d t.sys.migs = some { src := src, dst := dst, size := size, copied := false, aborted := false, queue := [] } ∧
      t.pending = s.pending ++ [.migrationCopyEnd d]) := by
  intro e reg go w size src dst inHbm ok
  have hsize : migSize w = size := migSize_eq w
  have hok : s.migOk d = true ↔ ok := by
    change (_ && _ && _ && _ && _ && _ && _) = true ↔ _
    simp only [Bool.and_eq_true, State.frameInHbm_iff, decide_eq_true_eq, Option.isNone_iff_eq_none, and_assoc]
    rw [migCode_ne, show migSize (s.migGo d).1 = size from hsize]
    simp only [ok, inHbm, and_assoc]
    exact Iff.rfl
  have hexec : exec e s =
      if s.migOk d && s.quireHolds (src / 4096) ((src + size) / 4096) then .next (s.later e)
      else if !s.migOk d then .next ((s.migTaken d).hwSet (migAddr d + 0x10) 8)
      else .next (((s.migTaken d).recallPage src size).migBlock d
        { src := src, dst := dst, size := size, copied := false, aborted := false, queue := [] }) := by
    rw [← hsize]
    exact exec_migrationGo d s
  refine ⟨fun hno => ?_, fun hyes hq => ?_, fun hyes hq => ?_⟩
  · have hfalse : s.migOk d = false := by simpa using mt hok.mp hno
    refine ⟨(s.migTaken d).hwSet (migAddr d + 0x10) 8, by rw [hexec, hfalse]; rfl, rfl, rfl, rfl, fun a => ?_⟩
    exact State.reg_setReg ..
  · rw [hexec, hok.mpr hyes, hq]
    rfl
  · have hlines : (s.migTaken d).Lines ((s.migTaken d).recallPage src size) := State.Lines.refl.recallPage
    refine ⟨((s.migTaken d).recallPage src size).migBlock d
      { src := src, dst := dst, size := size, copied := false, aborted := false, queue := [] }, ?_, hlines.mem, hlines.groups, ?_, ?_⟩
    · rw [hexec, hok.mpr hyes, hq]
      rfl
    · exact (Tab.find?_put ..).trans (if_pos rfl)
    · exact congrArg (· ++ [Instr.migrationCopyEnd d]) hlines.pending

end
end Sys2Proof.Machine
end


section
namespace Sys2Proof.Machine
open Sys2Proof Sys2Proof.Spec

/-! ### Bytes after a list of writes -/

/-- A byte after writes that agree on it where they reach it. -/
theorem State.byte_foldl_setByte {α : Type} (f : α → Nat) (v : α → Byte) {l : List α} {b : Nat} {x : Byte} (s : State)
    (h : ∀ c ∈ l, f c = b → v c = x) :
    (l.foldl (fun s c => s.setByte (f c) (v c)) s).byte b = if ∃ c ∈ l, f c = b then x else s.byte b := by
  induction l generalizing s with
  | nil => simp
  | cons c l ih =>
    rw [List.foldl_cons, ih _ fun e he => h e (List.mem_cons_of_mem _ he), State.byte_setByte]
    by_cases hc : f c = b
    · simp [hc, h c List.mem_cons_self hc]
    · simp [hc, Ne.symm hc]

theorem le_of_rising {α : Type} {lo : Nat} {t : Tab α} (h : Tab.rising lo t = true) : ∀ e ∈ t, lo ≤ e.1 := by
  induction t generalizing lo with
  | nil => simp
  | cons c t ih =>
    obtain ⟨hlo, ht⟩ := (Bool.and_eq_true ..).mp h
    rintro e (_ | ⟨_, he⟩)
    · exact of_decide_eq_true hlo
    · exact (of_decide_eq_true hlo).trans ((Nat.le_succ _).trans (ih ht e he))

/-- The keys of a table in its canonical form are distinct. -/
theorem nodup_of_rising {α : Type} {lo : Nat} {t : Tab α} (h : Tab.rising lo t = true) : (t.map Prod.fst).Nodup := by
  induction t generalizing lo with
  | nil => simp
  | cons c t ih =>
    obtain ⟨-, ht⟩ := (Bool.and_eq_true ..).mp h
    rw [List.map_cons, List.nodup_cons]
    refine ⟨fun hmem => ?_, ih ht⟩
    obtain ⟨e, he, heq⟩ := List.mem_map.mp hmem
    have hle : c.1 + 1 ≤ e.1 := le_of_rising ht e he
    omega

section
variable {s : State} {b : Nat}

theorem State.Inv.byte_of_mem (hi : s.Inv) {c : Nat × Byte} (hc : c ∈ s.mem) : s.byte c.1 = c.2 := by
  rw [State.byte, memByte, Tab.get_eq_find?, Tab.find?_of_mem (nodup_of_rising ((Bool.and_eq_true ..).mp hi).1) hc]
  rfl

/-- A byte that memory does not list. -/
theorem State.byte_of_unlisted (h : ∀ c ∈ s.mem, c.1 ≠ b) : s.byte b = 0 := by
  rw [State.byte, memByte, Tab.get_eq_find?]
  cases hf : Tab.find? b s.mem with
  | none => rfl
  | some v => exact absurd rfl (h _ (Tab.mem_of_find? hf))

end

/-! ### The end of a copy (R226, R227) -/

/-- The bytes of a frame, moved to another. -/
def State.moveFrame (s : State) (m : Migration) : State :=
  let moved := s.mem.filter (fun c => decide (m.src ≤ c.1 ∧ c.1 < m.src + m.size))
  let old := s.mem.filter (fun c => decide (m.dst ≤ c.1 ∧ c.1 < m.dst + m.size))
  moved.foldl (fun s c => s.setByte (c.1 - m.src + m.dst) c.2) (old.foldl (fun s c => s.setByte c.1 0) s)

/-- The tags of a frame, moved to another. -/
def State.moveTags (s : State) (m : Migration) : State :=
  if s.tagging then (List.range (m.size / 64)).foldl (fun s k =>
    s.setByte (tagPlace (m.dst + 64 * k)).1 (s.byte (tagPlace (m.src + 64 * k)).1)) s else s

/-- What the lines of a frame are once it has moved: their poison, LEXP, L2 and ownership. -/
def State.moveLinesOf (s : State) (m : Migration) : State :=
  let s := s.setSys { s.sys with
    poison := moveLines false (fun a b => a || b) m.src m.dst m.size s.sys.poison,
    lexp := moveLines 0 max m.src m.dst m.size s.sys.lexp }
  (s.moveL2 m.src m.dst m.size).setHome m.dst m.size

/-- The records and the status of poison that has moved. -/
def State.notePoison (s : State) (d : Nat) (m : Migration) (pois : Bool) : State :=
  let s := (s.sys.poison.filter (fun e => decide (m.dst / 128 ≤ e.1 / 16 ∧ e.1 / 16 < (m.dst + m.size) / 128))).foldl
    (fun s e => s.machineCheck (e.1 / 16 * 128)) s
  if pois then s.setReg (migAddr d + 0x10) (s.reg (migAddr d + 0x10) ||| 4) else s

/-- The state once a page has moved. -/
def State.migDone (s : State) (d : Nat) (m : Migration) (pois : Bool) : State :=
  (((s.moveFrame m).moveTags m).moveLinesOf m).notePoison d m pois

/-- A request that waited for a page goes on. -/
def State.sendOn (s : State) (q : Req) : State :=
  let s := s.putReq { q with state := .sent }
  match q.accs with
  | a :: _ => s.later (if a.acc.op.isAtomic then .atomicAtHome q.id a.acc.lane else .l2SliceRequest q.id allLanes)
  | [] => s

def State.sendBlocked (s : State) : State := (s.sys.reqs.filter (fun q => decide (q.state = .blocked))).foldl State.sendOn s

def State.setMig (s : State) (d : Nat) (m : Migration) : State := s.setSys { s.sys with migs := Tab.put d m s.sys.migs }

/-- The state once a copy has ended, taken or refused. -/
def State.migClosed (s : State) (d : Nat) (m : Migration) (ok : Bool) : State :=
  let pois := s.sys.poison.any (fun e => decide (m.src / 128 ≤ e.1 / 16 ∧ e.1 / 16 < (m.src + m.size) / 128))
  ((if ok then s.migDone d m pois else s).setMig d { m with copied := ok, aborted := !ok }).sendBlocked

theorem exec_migrationCopyEnd {s : State} {d : Nat} {m : Migration} (hm : Tab.find? d s.sys.migs = some m) :
    exec (.migrationCopyEnd d) s =
      if m.copied || m.aborted then .next s else .next (s.migClosed d m (s.permitted 1 0 1 .write m.dst m.size none)) := by
  change execMigrationCopyEnd d s = _
  rw [execMigrationCopyEnd, hm]
  rfl

theorem exec_migrationRetire {s : State} {d : Nat} {m : Migration} (hm : Tab.find? d s.sys.migs = some m) :
    exec (.migrationRetire d) s =
      if m.copied || m.aborted then .next (s.setSys { s.sys with migs := Tab.del d s.sys.migs }) else .next s := by
  change execMigrationRetire d s = _
  rw [execMigrationRetire, hm]

section
variable {s₀ s : State} {d : Nat} {m : Migration}

/-- A frame whose listed bytes are cleared reads zero. -/
theorem State.byte_clear (s : State) (lo n b : Nat) :
    ((s.mem.filter (fun c => decide (lo ≤ c.1 ∧ c.1 < lo + n))).foldl (fun s c => s.setByte c.1 0) s).byte b =
      if lo ≤ b ∧ b < lo + n then 0 else s.byte b := by
  rw [State.byte_foldl_setByte Prod.fst (fun _ => 0) (x := 0) s fun _ _ _ => rfl]
  by_cases hb : lo ≤ b ∧ b < lo + n
  · rw [if_pos hb]
    split
    · rfl
    next hno =>
      refine State.byte_of_unlisted fun c hc hcb => hno ⟨c, List.mem_filter.mpr ⟨hc, decide_eq_true ?_⟩, hcb⟩
      rwa [hcb]
  · rw [if_neg hb, if_neg]
    rintro ⟨c, hc, rfl⟩
    exact hb (of_decide_eq_true (List.mem_filter.mp hc).2)

/-- The new frame holds the old one's bytes; every other byte is as it was. -/
theorem State.byte_moveFrame (hi : s.Inv) (m : Migration) (b : Nat) :
    (s.moveFrame m).byte b = if m.dst ≤ b ∧ b < m.dst + m.size then s.byte (b - m.dst + m.src) else s.byte b := by
  have hin {c : Nat × Byte} (hc : c ∈ s.mem.filter (fun c => decide (m.src ≤ c.1 ∧ c.1 < m.src + m.size))) :
      c ∈ s.mem ∧ m.src ≤ c.1 ∧ c.1 < m.src + m.size :=
    ⟨(List.mem_filter.mp hc).1, of_decide_eq_true (List.mem_filter.mp hc).2⟩
  rw [State.moveFrame, State.byte_foldl_setByte (fun c => c.1 - m.src + m.dst) Prod.snd (x := s.byte (b - m.dst + m.src)), State.byte_clear]
  · by_cases hb : m.dst ≤ b ∧ b < m.dst + m.size
    · rw [if_pos hb, if_pos hb]
      split
      · rfl
      next hno =>
        refine (State.byte_of_unlisted fun c hc hcb => hno ⟨c, List.mem_filter.mpr ⟨hc, decide_eq_true ?_⟩, ?_⟩).symm <;> omega
    · rw [if_neg hb, if_neg hb, if_neg]
      rintro ⟨c, hc, hcb⟩
      obtain ⟨-, hlo, hhi⟩ := hin hc
      omega
  · intro c hc hcb
    obtain ⟨hmem, hlo, hhi⟩ := hin hc
    rw [show b - m.dst + m.src = c.1 by omega, hi.byte_of_mem hmem]

theorem State.mgmt_moveFrame (s : State) (m : Migration) : (s.moveFrame m).mgmt = s.mgmt :=
  List.foldlRecOn (motive := fun t : State => t.mgmt = s.mgmt) _ _
    (List.foldlRecOn (motive := fun t : State => t.mgmt = s.mgmt) _ _ rfl fun _ h _ _ => h) fun _ h _ _ => h

theorem State.Beside.moveL2 {src dst n} (h : s₀.Beside s) : s₀.Beside (s.moveL2 src dst n) := h.setSys.foldl fun _ _ h => h.l2Touch

theorem State.Aside.moveL2 {src dst n} (h : s₀.Aside s) : s₀.Aside (s.moveL2 src dst n) := h.setSys.foldl fun _ _ h => h.l2Touch

theorem State.Beside.moveLinesOf (h : s₀.Beside s) : s₀.Beside (s.moveLinesOf m) := h.setSys.moveL2.setSys

theorem State.Aside.moveLinesOf (h : s₀.Aside s) : s₀.Aside (s.moveLinesOf m) := h.setSys.moveL2.setSys

theorem State.Beside.notePoison {pois} (h : s₀.Beside s) : s₀.Beside (s.notePoison d m pois) :=
  have hrec := h.foldl fun _ _ h => h.setSys
  hrec.setReg.ite hrec

theorem State.Aside.notePoison {pois} (h : s₀.Aside s) : s₀.Aside (s.notePoison d m pois) :=
  have hrec := h.foldl fun _ _ h => h.setSys
  hrec.setReg.ite hrec

theorem State.Aside.moveFrame (h : s₀.Aside s) : s₀.Aside (s.moveFrame m) :=
  (h.foldl fun _ _ h => h.setByte).foldl fun _ _ h => h.setByte

theorem State.Aside.moveTags (h : s₀.Aside s) : s₀.Aside (s.moveTags m) := (h.foldl fun _ _ h => h.setByte).ite h

theorem State.sendOn_reqs (s : State) (q : Req) :
    (s.sendOn q).sys.reqs = s.sys.reqs.map (fun r => if r.id = q.id then { q with state := .sent } else r) := by
  unfold State.sendOn
  extract_lets u
  split
  · rw [State.later_sys]; rfl
  · rfl

theorem State.groups_later (s : State) (e : Instr) : (s.later e).groups = s.groups := by
  unfold State.later
  split <;> rfl

/-- A request that goes on changes no byte, no group and no migration. -/
theorem State.sendOn_frame (s : State) (q : Req) :
    (s.sendOn q).mem = s.mem ∧ (s.sendOn q).groups = s.groups ∧ (s.sendOn q).sys.migs = s.sys.migs := by
  unfold State.sendOn
  extract_lets u
  split
  · rw [State.later_mem, State.later_sys, State.groups_later]
    exact ⟨rfl, rfl, rfl⟩
  · exact ⟨rfl, rfl, rfl⟩

theorem State.sendBlocked_frame (s : State) :
    s.sendBlocked.mem = s.mem ∧ s.sendBlocked.groups = s.groups ∧ s.sendBlocked.sys.migs = s.sys.migs :=
  List.foldlRecOn (motive := fun t : State => t.mem = s.mem ∧ t.groups = s.groups ∧ t.sys.migs = s.sys.migs) _ _ ⟨rfl, rfl, rfl⟩
    fun t h q _ => by
      obtain ⟨hmem, hgroups, hmigs⟩ := t.sendOn_frame q
      obtain ⟨hm, hg, hs⟩ := h
      exact ⟨hmem.trans hm, hgroups.trans hg, hmigs.trans hs⟩

/-- A request that is still blocked is none of those that go on. -/
theorem State.blocked_of_sent {l : List Req} {r : Req} (hb : r.state = .blocked) (hr : r ∈ (l.foldl State.sendOn s).sys.reqs) :
    r ∈ s.sys.reqs ∧ ∀ q ∈ l, q.id ≠ r.id := by
  induction l generalizing s with
  | nil => exact ⟨hr, by simp⟩
  | cons q l ih =>
    obtain ⟨hin, hl⟩ := ih hr
    rw [State.sendOn_reqs] at hin
    obtain ⟨k, hk, hkr⟩ := List.mem_map.mp hin
    split at hkr
    · rw [← hkr] at hb
      cases hb
    next hid =>
      subst hkr
      exact ⟨hk, List.forall_mem_cons.mpr ⟨Ne.symm hid, hl⟩⟩

theorem State.sendBlocked_reqs (s : State) : ∀ q ∈ s.sendBlocked.sys.reqs, q.state ≠ .blocked := by
  intro r hr hb
  obtain ⟨hin, hno⟩ := State.blocked_of_sent hb hr
  exact hno r (List.mem_filter.mpr ⟨hin, decide_eq_true hb⟩) rfl

theorem State.Aside.migDone {pois} (h : s₀.Aside s) : s₀.Aside (s.migDone d m pois) := h.moveFrame.moveTags.moveLinesOf.notePoison

/-- Where tags are off, only the moved bytes change memory. -/
theorem State.mem_migDone {pois} (ht : s.tagging = false) : (s.migDone d m pois).mem = (s.moveFrame m).mem := by
  have hframe : (s.moveFrame m).tagging = s.tagging := by rw [State.tagging, State.reg_of_mgmt (s.mgmt_moveFrame m)]; rfl
  have htags : (s.moveFrame m).moveTags m = s.moveFrame m := if_neg (by simp [hframe, ht])
  have hbeside : (s.moveFrame m).Beside (s.migDone d m pois) := by
    rw [State.migDone, htags]
    exact State.Beside.refl.moveLinesOf.notePoison
  exact hbeside.mem

theorem State.migClosed_frame (s : State) (d : Nat) (m : Migration) (ok : Bool) :
    (s.migClosed d m ok).groups = s.groups ∧
      Tab.find? d (s.migClosed d m ok).sys.migs = some { m with copied := ok, aborted := !ok } := by
  unfold State.migClosed
  extract_lets pois
  have haside : s.Aside (if ok then s.migDone d m pois else s) := State.Aside.refl.migDone.ite .refl
  obtain ⟨-, hgroups, hmigs⟩ := State.sendBlocked_frame
    ((if ok then s.migDone d m pois else s).setMig d { m with copied := ok, aborted := !ok })
  refine ⟨hgroups.trans haside.groups, ?_⟩
  rw [hmigs]
  exact (Tab.find?_put ..).trans (if_pos rfl)

/-- A copy that is taken leaves the new frame with the old one's bytes. -/
theorem State.byte_migClosed (hi : s.Inv) (ht : s.tagging = false) (b : Nat) :
    (s.migClosed d m true).byte b = if m.dst ≤ b ∧ b < m.dst + m.size then s.byte (b - m.dst + m.src) else s.byte b := by
  rw [State.migClosed, byte_of_mem (State.sendBlocked_frame _).1, if_pos rfl, State.setMig, ← State.byte_moveFrame hi]
  exact byte_of_mem (State.mem_migDone ht) b

end

/-- At the end of its copy a page's bytes are in the new frame, or the copy is refused; RETIRE then ends the migration. -/
theorem migrationEnds (s : State) (d : Nat) (m : Migration) (hm : Tab.find? d s.sys.migs = some m) :
    (m.copied = false → m.aborted = false → s.Inv → s.tagging = false → m.src + m.size ≤ m.dst ∨ m.dst + m.size ≤ m.src →
      ∃ t, exec (.migrationCopyEnd d) s = .next t ∧ t.groups = s.groups ∧
        (∀ q ∈ t.sys.reqs, q.state ≠ .blocked) ∧
        (s.permitted 1 0 1 .write m.dst m.size none = true → Tab.find? d t.sys.migs = some { m with copied := true, aborted := false } ∧
          (∀ k < m.size, t.byte (m.dst + k) = s.byte (m.src + k)) ∧
          ∀ pa, (pa < m.dst ∨ m.dst + m.size ≤ pa) → t.byte pa = s.byte pa) ∧
        (s.permitted 1 0 1 .write m.dst m.size none = false →
          Tab.find? d t.sys.migs = some { m with copied := false, aborted := true } ∧ t.mem = s.mem)) ∧
    (m.copied = true ∨ m.aborted = true → exec (.migrationCopyEnd d) s = .next s ∧ ∃ t, exec (.migrationRetire d) s = .next t ∧
      t.mem = s.mem ∧ t.groups = s.groups ∧ Tab.find? d t.sys.migs = none) ∧
    (m.copied = false → m.aborted = false → exec (.migrationRetire d) s = .next s) := by
  have hexec := exec_migrationCopyEnd hm
  have hretire := exec_migrationRetire hm
  refine ⟨fun hc ha hi htag _ => ?_, fun hended => ?_, fun hc ha => ?_⟩
  · rw [hc, ha] at hexec
    obtain ⟨hgroups, hmig⟩ := s.migClosed_frame d m (s.permitted 1 0 1 .write m.dst m.size none)
    refine ⟨_, hexec, hgroups, State.sendBlocked_reqs _, fun hok => ?_, fun hno => ?_⟩
    · rw [hok] at hmig ⊢
      refine ⟨hmig, fun k hk => ?_, fun pa hpa => ?_⟩
      · rw [State.byte_migClosed hi htag, if_pos (by omega)]
        congr 1
        omega
      · rw [State.byte_migClosed hi htag, if_neg (by omega)]
    · rw [hno] at hmig ⊢
      exact ⟨hmig, (State.sendBlocked_frame _).1⟩
  · have hover : (m.copied || m.aborted) = true := by simpa using hended
    rw [if_pos hover] at hexec hretire
    exact ⟨hexec, _, hretire, rfl, rfl, by simp [State.setSys, Tab.find?_del]⟩
  · rw [hretire, hc, ha]
    rfl

end Sys2Proof.Machine
end


section
namespace Sys2Proof.Machine
open Sys2Proof Sys2Proof.Spec

/-! ### Walks, DROPCNT and heat (R357, R359, R364, R227) -/

theorem exec_pageWalk (d ctx : Nat) (va : Word) (s : State) : exec (.pageWalk d ctx va) s = execPageWalk d ctx va s := rfl

theorem exec_fbdropRead (d ctx : Nat) (s : State) : exec (.fbdropRead d ctx) s = execFbdropRead d ctx s := rfl

/-- A leaf that a TLB takes stands in it. -/
theorem State.mem_tlbPut (s : State) (e : TlbEntry) : e ∈ (s.tlbPut e).sys.tlbs := by
  unfold State.tlbPut
  extract_lets mine
  split
  next hin => exact (List.mem_filter.mp (List.contains_iff_mem.mp hin)).1
  · split
    · exact List.mem_cons_self
    · split
      exact List.mem_cons_self

/-- A walk that finds a leaf caches it in the TLB of its die. -/
theorem pageWalks (s u : State) (d ctx n : Nat) (va e : Word) :
    let s1 := if d < 8 then s.count (0x340 + d) 0x4D 1 else s
    s1.walkCached d ctx (va.toNat % 2 ^ 57) = (.leaf e n, u) →
      ∃ t, exec (.pageWalk d ctx va) s = .next t ∧ t.mem = u.mem ∧ t.groups = u.groups ∧
      { unit := 0x400 + d, ctx := ctx, vpage := va.toNat % 2 ^ 57 / 2 ^ n, logSize := n, leaf := e } ∈ t.sys.tlbs := by
  intro s1 hw
  have hput (k : TlbEntry) : u.Looked (u.tlbPut k) := State.Looked.refl.tlbPut
  refine ⟨_, ?_, (hput _).mem, (hput _).groups, u.mem_tlbPut _⟩
  rw [exec_pageWalk, execPageWalk, show s1.walkCached d ctx (vaOf va) = _ from hw]
  rfl

theorem State.faultBuf_setFaultBuf (s : State) (d ctx : Nat) (b : FaultBuf) : (s.setFaultBuf d ctx b).faultBuf d ctx = b := by
  simp [State.faultBuf, State.setFaultBuf, State.setSys]

/-- A read of DROPCNT leaves what was added in its own tick. -/
theorem dropCountReads (s : State) (d ctx : Nat) (hd : d < 8) (hctx : ctx < 64) :
    ∃ t, exec (.fbdropRead d ctx) s = .next t ∧ t.mem = s.mem ∧ t.groups = s.groups ∧
      t.faultBuf d ctx = { s.faultBuf d ctx with dropCnt := (s.hw (0x10000030090 + 0x4000 * d + 0x100 * ctx)).setWidth 32 } := by
  have ho : 0x30000 + 0x4000 * (d % 8) + 0x100 * (ctx % 64) + 0x90 = 0x30090 + 0x4000 * d + 0x100 * ctx := by omega
  have hread (o : Nat) (hlo : 0x30000 ≤ o) (hhi : o < 0x50000) : s.mgmtRead o = s.faultRead o := by
    rw [State.mgmtRead, if_neg (by omega), if_neg (by omega), if_neg (by omega), if_neg (by omega), if_pos ⟨hlo, hhi⟩]
  have hfault : (s.faultRead (0x30090 + 0x4000 * d + 0x100 * ctx)).2 =
      s.setFaultBuf d ctx { s.faultBuf d ctx with dropCnt := (s.hw (hubBase + (0x30090 + 0x4000 * d + 0x100 * ctx))).setWidth 32 } := by
    have hdie : (0x30090 + 0x4000 * d + 0x100 * ctx - 0x30000) / 0x4000 = d := by omega
    have hc : (0x30090 + 0x4000 * d + 0x100 * ctx - 0x30000) % 0x4000 / 0x100 = ctx := by omega
    have hr : (0x30090 + 0x4000 * d + 0x100 * ctx) % 0x100 = 0x90 := by omega
    simp only [State.faultRead, hdie, hc, hr]
    rfl
  have hexec := exec_fbdropRead d ctx s
  rw [execFbdropRead, ho, hread _ (by omega) (by omega), hfault] at hexec
  refine ⟨_, hexec, rfl, rfl, ?_⟩
  rw [show 0x10000030090 + 0x4000 * d + 0x100 * ctx = hubBase + (0x30090 + 0x4000 * d + 0x100 * ctx) by unfold hubBase; omega]
  exact State.faultBuf_setFaultBuf ..

section
variable {s₀ s : State} {d : Nat}

/-- The flush of one count of heat to the table of its home. -/
def State.heatAdd (d : Nat) (s : State) (e : Nat × Nat) : State :=
  let gran := e.1 / 32
  let home := gran * 65536 / 0x2000000000
  let cfg := s.reg (hubBase + 0x52000 + 8 * home)
  if !cfg.getLsbD 0 then s
  else
    let pa := s.forwardPa (bits cfg 12 40 * 4096 + 16 * (gran * 65536 % 0x2000000000 / 65536))
    if !s.permitted 0 0 5 .write pa 16 none then s
    else
      let s := s.addSat (pa + (if e.1 % 2 = 1 then 4 else 0)) e.2
      let s := if home ≠ d then s.addSat (pa + 8) e.2 else s
      s.store (pa + 12) 1 (s.load (pa + 12) 1 ||| 2 ^ d)

theorem State.heatAdd_frame (s : State) (e : Nat × Nat) : (s.heatAdd d e).groups = s.groups ∧ (s.heatAdd d e).sys = s.sys := by
  have hstore (t : State) (pa n x : Nat) (h : t.groups = s.groups ∧ t.sys = s.sys) :
      (t.store pa n x).groups = s.groups ∧ (t.store pa n x).sys = s.sys :=
    ⟨(State.setBytes_groups ..).trans h.1, (t.store_sys pa n x).trans h.2⟩
  unfold State.heatAdd
  extract_lets gran home cfg pa t u
  split
  · exact ⟨rfl, rfl⟩
  · split
    · exact ⟨rfl, rfl⟩
    · have ht : t.groups = s.groups ∧ t.sys = s.sys := hstore _ _ _ _ ⟨rfl, rfl⟩
      refine hstore _ _ _ _ ?_
      change (if home ≠ d then _ else t).groups = _ ∧ (if home ≠ d then _ else t).sys = _
      split
      · exact hstore _ _ _ _ ht
      · exact ht

end

/-- A flush starts a die's counts again from none. -/
theorem heatFlushes (s : State) (d : Nat) : ∃ t, exec (.heatFlush d) s = .next t ∧ t.groups = s.groups ∧
    t.sys.heat = s.sys.heat.filter (fun e => decide (e.1 % 32 / 2 ≠ d)) ∧
    ((∀ e ∈ s.sys.heat, e.1 % 32 / 2 = d →
      (s.reg (0x10000052000 + 8 * (e.1 / 32 * 65536 / 0x2000000000))).getLsbD 0 = false) → t.mem = s.mem) := by
  let u := s.setSys { s.sys with
    heat := s.sys.heat.filter (fun e => decide (e.1 % 32 / 2 ≠ d)),
    heatSeen := s.sys.heatSeen.filter (fun e => (s.unitCtx e.1).isSome) }
  have hexec : exec (.heatFlush d) s = .next ((s.sys.heat.filter (fun e => decide (e.1 % 32 / 2 = d))).foldl (State.heatAdd d) u) := rfl
  have hframe := List.foldlRecOn (motive := fun t : State => t.groups = u.groups ∧ t.sys = u.sys)
    (s.sys.heat.filter (fun e => decide (e.1 % 32 / 2 = d))) (State.heatAdd d) ⟨rfl, rfl⟩ fun t h e _ => by
      obtain ⟨hgroups, hsys⟩ := t.heatAdd_frame (d := d) e
      exact ⟨hgroups.trans h.1, hsys.trans h.2⟩
  refine ⟨_, hexec, hframe.1, congrArg MemSys.heat hframe.2, fun hoff => ?_⟩
  have hnone : (s.sys.heat.filter (fun e => decide (e.1 % 32 / 2 = d))).foldl (State.heatAdd d) u = u :=
    List.foldlRecOn (motive := fun t : State => t = u) _ _ rfl fun t h e he => by
      obtain ⟨hin, hmine⟩ := List.mem_filter.mp he
      have hcfg : (u.reg (hubBase + 0x52000 + 8 * (e.1 / 32 * 65536 / 0x2000000000))).getLsbD 0 = false :=
        hoff e hin (of_decide_eq_true hmine)
      rw [h]
      exact if_pos (by rw [hcfg]; rfl)
  rw [hnone]
  rfl

end Sys2Proof.Machine
end


section
namespace Sys2Proof.Machine
open Sys2Proof Sys2Proof.Spec

/-! ### States in which nothing but groups waits for a replay (R365) -/

/-- No engine, orphan, launch word, publication or collective is there to be driven again. -/
structure State.OnlyGroups (s : State) : Prop where
  orphans : s.sys.orphans = []
  engs : s.sys.engs = []
  launches : s.hub.launches = []
  pubs : s.fab.pubs = []
  colls : s.fab.colls = []

section
variable {s t : State}

theorem State.OnlyGroups.upd (h : s.OnlyGroups) (ho : t.sys.orphans = s.sys.orphans) (he : t.sys.engs = s.sys.engs)
    (hl : t.hub.launches = s.hub.launches) (hf : t.fab = s.fab) : t.OnlyGroups :=
  ⟨ho.trans h.orphans, he.trans h.engs, hl.trans h.launches, by rw [hf]; exact h.pubs, by rw [hf]; exact h.colls⟩

theorem State.OnlyGroups.ite {p : Prop} [Decidable p] (hs : s.OnlyGroups) (ht : t.OnlyGroups) : (if p then s else t).OnlyGroups := by
  split <;> assumption

theorem State.OnlyGroups.foldl {α : Type} {l : List α} {f : State → α → State} (h : s.OnlyGroups)
    (hf : ∀ s a, State.OnlyGroups s → (f s a).OnlyGroups) : (l.foldl f s).OnlyGroups :=
  List.foldlRecOn (motive := State.OnlyGroups) l f h fun s h a _ => hf s a h

theorem State.OnlyGroups.count {unit ev n} (h : s.OnlyGroups) : (s.count unit ev n).OnlyGroups := h.ite (h.upd rfl rfl rfl rfl)

theorem State.OnlyGroups.tlbDrop {unit ctx va} (h : s.OnlyGroups) : (s.tlbDrop unit ctx va).OnlyGroups := h.upd rfl rfl rfl rfl

theorem State.OnlyGroups.tlbPut {e} (h : s.OnlyGroups) : (s.tlbPut e).OnlyGroups :=
  .ite h (.ite (h.upd rfl rfl rfl rfl) (h.upd rfl rfl rfl rfl))

theorem State.OnlyGroups.walkCached {die ctx va} (h : s.OnlyGroups) : (s.walkCached die ctx va).2.OnlyGroups := h.upd rfl rfl rfl rfl

theorem State.OnlyGroups.walkAndCache {core ctx va} (h : s.OnlyGroups) : (s.walkAndCache core ctx va).2.OnlyGroups := by
  unfold State.walkAndCache
  extract_lets s₁ s₂
  have h₁ : s₁.OnlyGroups := h.tlbDrop.tlbDrop
  have h₂ : s₂.OnlyGroups := h₁.ite h₁.count
  have hw := h₂.walkCached (die := dieOfCore core) (ctx := ctx) (va := va)
  unfold cacheLeaf
  split
  · next e => rw [e] at hw; exact hw.tlbPut.tlbPut
  · exact hw

theorem State.OnlyGroups.translate {core ctx va write} (h : s.OnlyGroups) : (s.translate core ctx va write).2.OnlyGroups := by
  rw [State.translate_eq]
  split
  · split
    · exact h
    · exact h.walkAndCache
  · split
    · split
      · exact h.tlbPut
      · exact h.walkAndCache
    · exact h.walkAndCache

theorem State.OnlyGroups.lines (h : s.OnlyGroups) (hl : s.Lines t) : t.OnlyGroups := by
  obtain ⟨_, _, _, _, _, rfl⟩ := hl
  exact h.upd rfl rfl rfl rfl

theorem State.OnlyGroups.holdLine {pa on} (h : s.OnlyGroups) : (s.holdLine pa on).OnlyGroups :=
  .ite (h.upd rfl rfl rfl rfl) (.ite (h.upd rfl rfl rfl rfl) h)

theorem State.OnlyGroups.signal {fn vec} (h : s.OnlyGroups) : (s.signal fn vec).OnlyGroups :=
  h.ite (.ite (h.upd rfl rfl rfl rfl) (h.upd rfl rfl rfl rfl))

theorem State.OnlyGroups.setBytes {pa l} (h : s.OnlyGroups) : (s.setBytes pa l).OnlyGroups := by
  induction l generalizing s pa with
  | nil => exact h
  | cons b l ih => exact ih (h.upd rfl rfl rfl rfl)

theorem State.OnlyGroups.writeRecord {data rest} (h : s.OnlyGroups) : (s.writeRecord data rest).OnlyGroups := by
  unfold State.writeRecord
  extract_lets _ _ _ _ s₁ s₂ _ s₃ s₄ s₅ _
  have h₁ : s₁.OnlyGroups := h.lines State.Lines.refl.recallSub
  have h₂ : s₂.OnlyGroups := h₁.holdLine.setBytes.lines State.Lines.refl.l2Touch
  have h₄ : s₄.OnlyGroups := h₂.upd rfl rfl rfl rfl
  have h₅ : s₅.OnlyGroups := h₄.count
  exact h.ite (h₁.holdLine.ite (h₅.ite h₅.signal))

theorem State.OnlyGroups.drainRecords (h : s.OnlyGroups) : s.drainRecords.OnlyGroups := by
  refine h.foldl fun _ _ h => ?_
  split
  · exact h.writeRecord
  · exact h

theorem State.OnlyGroups.postEvent {code fields} (h : s.OnlyGroups) : (s.postEvent code fields).OnlyGroups :=
  .ite (h.upd rfl rfl rfl rfl) (.drainRecords (h.upd rfl rfl rfl rfl))

theorem State.OnlyGroups.handleReport {die ctx k post} (h : s.OnlyGroups) : (s.handleReport die ctx k post).OnlyGroups := by
  unfold State.handleReport
  extract_lets b n s₁ s₂
  have h₁ : s₁.OnlyGroups := h.upd rfl rfl rfl rfl
  have h₂ : s₂.OnlyGroups := h₁.ite (h₁.upd rfl rfl rfl rfl)
  exact h₂.postEvent.ite h₂

theorem State.OnlyGroups.faultReport {core slot ctx va acc f path} (h : s.OnlyGroups) :
    (s.faultReport core slot ctx va acc f path).OnlyGroups := h.handleReport.upd rfl rfl rfl rfl

theorem State.OnlyGroups.updGrp {g f} (h : s.OnlyGroups) : (s.updGrp g f).OnlyGroups := h.upd (by simp) (by simp) (by simp) (by simp)

theorem State.OnlyGroups.releasePort {g} (h : s.OnlyGroups) : (s.releasePort g).OnlyGroups := h.upd (by simp) (by simp) (by simp) (by simp)

theorem State.OnlyGroups.fetchPark {g f} (h : s.OnlyGroups) : (s.fetchPark g f).OnlyGroups :=
  .updGrp (h.faultReport.releasePort)

theorem State.OnlyGroups.fetchAgain {g} (h : s.OnlyGroups) : (s.fetchAgain g).OnlyGroups := by
  unfold State.fetchAgain
  extract_lets r
  have hr : r.2.OnlyGroups := h.translate
  split
  · exact hr.fetchPark
  · exact hr.updGrp.updGrp

end
end Sys2Proof.Machine
end


section
namespace Sys2Proof.Machine
open Sys2Proof Sys2Proof.Spec

/-! ### A replay-all of one group's fetch (R194, R358, R365) -/

theorem exec_fbcmdReplayAll (d ctx : Nat) (s : State) : exec (.fbcmdReplayAll d ctx) s = execFbcmdReplayAll d ctx s := rfl

section
variable {s : State} {g d c t : Nat}

theorem State.redriveOrphans_none (h : s.OnlyGroups) :
    (s.redriveOrphans d c t).OnlyGroups ∧ (s.redriveOrphans d c t).groups = s.groups := by
  unfold State.redriveOrphans
  rw [h.orphans]
  exact ⟨h.upd h.orphans.symm rfl rfl rfl, rfl⟩

theorem State.replayEngines_none (h : s.OnlyGroups) : s.replayEngines d c t = s := by
  unfold State.replayEngines
  rw [h.engs]
  rfl

/-- The matrix queues go on without a change of a group. -/
theorem State.replayMatrix_frame (h : s.OnlyGroups) :
    (s.replayMatrix d c t).OnlyGroups ∧ (s.replayMatrix d c t).groups = s.groups := by
  refine List.foldlRecOn (motive := fun u : State => u.OnlyGroups ∧ u.groups = s.groups) _ _ ⟨h, rfl⟩ fun u hu e _ => ?_
  have hlater (v : State) (i : Instr) (hv : v.OnlyGroups ∧ v.groups = s.groups) :
      (v.later i).OnlyGroups ∧ (v.later i).groups = s.groups := by
    unfold State.later
    split
    · exact hv
    · exact ⟨hv.1.upd rfl rfl rfl rfl, hv.2⟩
  split
  · split
    · split
      · exact hlater _ _ ⟨hu.1.upd rfl rfl rfl rfl, hu.2⟩
      · exact hu
    · exact hu
  · exact hu

theorem State.replayFabric_none (h : s.OnlyGroups) : (s.replayFabric d c t).groups = s.groups := by
  unfold State.replayFabric
  simp only [h.launches, h.pubs, h.colls, List.filter_nil, List.foldl_nil, List.map_nil]
  rfl

/-- The replay-all of a context and die whose one group waits alone is the replay of that group. -/
theorem State.replayAll_one (hg : s.groups.map Prod.fst = [g]) (hc : (s.grp g).ctx = c) (hd : s.issueDie (s.grp g).core = d)
    (h : (s.replayGroup g t).OnlyGroups) : (s.replayAll d c t).groups = (s.replayGroup g t).groups := by
  obtain ⟨e, he, rfl⟩ := List.map_eq_singleton_iff.mp hg
  have hx : s.grp e.1 = e.2 := by simp [State.grp, he, Tab.get]
  rw [hx] at hc hd
  have hmine : s.groups.filter (fun e => decide (e.2.ctx = c ∧ s.issueDie e.2.core = d)) = [e] := by
    rw [he, List.filter_cons_of_pos (by simp [hc, hd]), List.filter_nil]
  obtain ⟨ho, hog⟩ := State.redriveOrphans_none (d := d) (c := c) (t := t) h
  obtain ⟨hm, hmg⟩ := State.replayMatrix_frame (d := d) (c := c) (t := t) ho
  rw [State.replayAll, hmine, List.foldl_cons, List.foldl_nil, State.replayEngines_none ho]
  refine (State.replayFabric_none ?_).trans (hmg.trans hog)
  exact hm.upd rfl rfl rfl rfl

/-- A group with a parked fetch and nothing else has its fetch tried again. -/
theorem State.replayGroup_fetch {k : Nat} (hlogs : (s.grp g).mem.logs = []) (hsusp : (s.grp g).sched.susp = .none)
    (hf : (s.grp g).sched.fetch = some k) (hk : k < t) : s.replayGroup g t = s.fetchAgain g := by
  have hdriven : s.redriveGroup g t = s := by rw [State.redriveGroup, hlogs]; rfl
  rw [State.replayGroup, hdriven]
  simp only [hf, hk, if_true, hsusp]

/-- A fetch that is tried again goes on, or parks again. -/
theorem State.grp_fetchAgain (hg : s.hasGrp g = true) :
    ((∀ f, (s.fetchReach (s.grp g)).1 ≠ .park f) →
      ((s.fetchAgain g).grp g).sched.fetch = none ∧ ((s.fetchAgain g).grp g).sched.since = s.tick) ∧
    (∀ f, (s.fetchReach (s.grp g)).1 = .park f →
      ((s.fetchAgain g).grp g).sched.fetch = some s.tick.toNat ∧ ((s.fetchAgain g).grp g).port = none) := by
  have hlooked := s.looked_fetchReach (s.grp g)
  have hg' := (hlooked.hasGrp g).trans hg
  refine ⟨fun hno => ?_, fun f hf => ?_⟩
  · have hgo : s.fetchAgain g =
        ((s.fetchReach (s.grp g)).2.updGrp g (fun x => { x with sched := { x.sched with fetch := none } })).eligible g := by
      unfold State.fetchAgain
      extract_lets r
      split
      next f hf => exact absurd hf (hno f)
      · rfl
    rw [hgo, State.eligible, State.grp_updGrp, if_pos ⟨rfl, by rw [State.hasGrp_updGrp]; exact hg'⟩, State.updGrp_tick, hlooked.tick,
      State.grp_updGrp, if_pos ⟨rfl, hg'⟩]
    exact ⟨rfl, rfl⟩
  · have hgo : s.fetchAgain g = (s.fetchReach (s.grp g)).2.fetchPark g f := by
      unfold State.fetchAgain
      extract_lets r
      simp only [r, hf]
    rw [hgo, State.grp_fetchPark hg', hlooked.tick]
    exact ⟨rfl, rfl⟩

end

section
variable {s : State} {d c : Nat}

/-- The end of a replay-all, or its going on. -/
def State.replayClose (s : State) (d c : Nat) : State :=
  if s.redriving d c then s.later (.fbcmdReplayAll d c) else s.setFaultBuf d c { s.faultBuf d c with busy := false }

/-- A replay-all that begins, unless it runs already. -/
def State.replayOpen (s : State) (d c : Nat) : State := if (s.faultBuf d c).busy then s else s.replayBegin d c

theorem execFbcmdReplayAll_eq (d c : Nat) (s : State) : execFbcmdReplayAll d c s =
    .next (((s.replayOpen d c).replayAll d c ((s.replayOpen d c).faultBuf d c).since).replayClose d c) := rfl

theorem State.redriving_iff : s.redriving d c = true ↔
    ∃ e ∈ s.teams, e.2.ctx = c ∧ s.issueDie e.2.core = d ∧
      ∃ m rest, e.2.mx = m :: rest ∧ m.redrive = true ∧ m.stopped = false := by
  simp only [State.redriving, List.any_eq_true, Bool.and_eq_true, decide_eq_true_eq, and_assoc]
  refine exists_congr fun e => and_congr_right fun _ => and_congr_right fun _ => and_congr_right fun _ => ?_
  cases e.2.mx with
  | nil => simp
  | cons m rest => simp

theorem State.replayClose_frame (s : State) (d c : Nat) :
    (s.replayClose d c).groups = s.groups ∧ (s.replayClose d c).teams = s.teams ∧ (s.replayClose d c).repl = s.repl := by
  unfold State.replayClose State.later
  split
  · split <;> exact ⟨rfl, rfl, rfl⟩
  · exact ⟨rfl, rfl, rfl⟩

theorem State.redriving_replayClose : (s.replayClose d c).redriving d c = s.redriving d c := by
  obtain ⟨-, hteams, hrepl⟩ := s.replayClose_frame d c
  have hdie : (s.replayClose d c).issueDie = s.issueDie := by
    funext k
    simp only [State.issueDie, State.lowRank, hrepl]
  simp only [State.redriving, hteams, hdie]

end

/-- A replay-all ends, or goes on while a matrix word is still to be driven again. -/
theorem replaysAll (s : State) (d ctx : Nat) : ∃ t, exec (.fbcmdReplayAll d ctx) s = .next t ∧
    (let again := ∃ e ∈ t.teams, e.2.ctx = ctx ∧ t.issueDie e.2.core = d ∧
      ∃ m rest, e.2.mx = m :: rest ∧ m.redrive = true ∧ m.stopped = false
     (¬ again → (t.faultBuf d ctx).busy = false) ∧ (again → Instr.fbcmdReplayAll d ctx ∈ t.pending)) ∧
    ∀ (g k : Nat), s.groups.map Prod.fst = [g] → s.sys.orphans = [] → s.sys.engs = [] → s.hub.launches = [] → s.fab.pubs = [] →
      s.fab.colls = [] → (s.grp g).ctx = ctx → s.issueDie (s.grp g).core = d → (s.grp g).mem.logs = [] →
      (s.grp g).sched.susp = .none → (s.grp g).sched.fetch = some k → (s.faultBuf d ctx).busy = true →
      k < (s.faultBuf d ctx).since →
      ((∀ f, (s.fetchReach (s.grp g)).1 ≠ .park f) → (t.grp g).sched.fetch = none ∧ (t.grp g).sched.since = s.tick) ∧
      (∀ f, (s.fetchReach (s.grp g)).1 = .park f → (t.grp g).sched.fetch = some s.tick.toNat ∧ (t.grp g).port = none) := by
  let u := (s.replayOpen d ctx).replayAll d ctx ((s.replayOpen d ctx).faultBuf d ctx).since
  refine ⟨u.replayClose d ctx, (exec_fbcmdReplayAll ..).trans (execFbcmdReplayAll_eq ..), ⟨fun hno => ?_, fun hyes => ?_⟩, ?_⟩
  · have hstop : u.redriving d ctx = false := by
      rw [← State.redriving_replayClose]
      simpa using mt State.redriving_iff.mp hno
    rw [State.replayClose, hstop, if_neg Bool.false_ne_true, State.faultBuf_setFaultBuf]
  · rw [State.replayClose, if_pos (State.redriving_replayClose.symm.trans (State.redriving_iff.mpr hyes))]
    exact State.mem_pending_later _
  · intro g k hg ho he hl hp hcl hc hd hlogs hsusp hf hbusy hk
    have honly : s.OnlyGroups := ⟨ho, he, hl, hp, hcl⟩
    have hrun : s.replayOpen d ctx = s := if_pos hbusy
    have hgrp := State.replayGroup_fetch hlogs hsusp hf hk
    have hgroups : (u.replayClose d ctx).groups = (s.fetchAgain g).groups := by
      refine (u.replayClose_frame d ctx).1.trans ?_
      simp only [u, hrun]
      rw [State.replayAll_one hg hc hd (hgrp ▸ honly.fetchAgain), hgrp]
    have hhas : s.hasGrp g = true := by
      obtain ⟨e, hs, rfl⟩ := List.map_eq_singleton_iff.mp hg
      simp [State.hasGrp, hs, Tab.find?]
    rw [State.grp_of_groups hgroups g]
    exact State.grp_fetchAgain hhas

/-- Settles O45: each clause is an event or a register access of memory management, settled above. -/
theorem migrationWalksAndReplay : Obligations.MigrationWalksAndReplay :=
  ⟨migrationGoes, migrationEnds, pageWalks, replaysAll, dropCountReads, heatFlushes⟩

end Sys2Proof.Machine
end
